-- ==== Sys2Proof/Word.lean ====
section
/-! DEFINITION. Word types, bit ranges of words (spec/00_scope.md, "Bits and bytes"), and the keyed table that holds every
numbered collection of the block (slots, counters, rings, ports ...). -/

namespace Sys2Proof

abbrev Byte := BitVec 8
abbrev Half := BitVec 16
abbrev Word := BitVec 32
abbrev W64  := BitVec 64
abbrev Acc  := BitVec 320
/-- FP32 bits (R56). -/
abbrev F32  := BitVec 32
/-- FP16 bits (R56). -/
abbrev F16  := BitVec 16
/-- BF16 bits (R56). -/
abbrev BF16 := BitVec 16

/-- The number in bits `[lo + len - 1 : lo]` of a word. -/
def bitsAt {n : Nat} (w : BitVec n) (lo len : Nat) : Nat := (w.toNat >>> lo) % 2 ^ len

/-- One bit of a word. -/
def bitAt {n : Nat} (w : BitVec n) (k : Nat) : Bool := w.getLsbD k

/-- A field value placed at bit `lo` of a word. -/
def putBits (v lo : Nat) : Nat := v <<< lo

/-- A Bool as bit 0. -/
def b2n (b : Bool) : Nat := if b then 1 else 0

/-- Two 32-bit words as a 64-bit value, low word first (R5, R356). -/
def join64 (lo hi : Word) : W64 := BitVec.ofNat 64 (lo.toNat + hi.toNat * 2 ^ 32)

/-- The low 32 bits of a 64-bit value. -/
def lo32 {n : Nat} (w : BitVec n) : Word := BitVec.ofNat 32 w.toNat

/-- Bits `[63:32]`. -/
def hi32 {n : Nat} (w : BitVec n) : Word := BitVec.ofNat 32 (w.toNat / 2 ^ 32)

/-- A counter that stops at its greatest value (R7, R426). -/
def satAdd (max a b : Nat) : Nat := if a + b ≤ max then a + b else max

/-- A keyed table: pairs in rising key order. A key that is not listed holds the default that the reader names. -/
abbrev Tab (α : Type) := List (Nat × α)

/-- The value a table lists for a key. -/
def Tab.find? {α : Type} (t : Tab α) (k : Nat) : Option α :=
  match t with
  | [] => none
  | (k', v) :: r => if k = k' then some v else Tab.find? r k

/-- The value for a key, or the default. -/
def Tab.get {α : Type} (t : Tab α) (k : Nat) (d : α) : α := (Tab.find? t k).getD d

/-- Writes one key. -/
def Tab.set {α : Type} (t : Tab α) (k : Nat) (v : α) : Tab α :=
  match t with
  | [] => [(k, v)]
  | (k', v') :: r =>
    if k < k' then (k, v) :: (k', v') :: r
    else if k = k' then (k, v) :: r
    else (k', v') :: Tab.set r k v

/-- Removes one key. -/
def Tab.del {α : Type} (t : Tab α) (k : Nat) : Tab α := t.filter (fun p => p.1 ≠ k)

/-- Changes the value of one key, from the default when it is not listed. -/
def Tab.upd {α : Type} (t : Tab α) (k : Nat) (d : α) (f : α → α) : Tab α := Tab.set t k (f (Tab.get t k d))

/-- Every listed value, changed alike. -/
def Tab.mapVals {α β : Type} (t : Tab α) (f : Nat → α → β) : Tab β := t.map (fun p => (p.1, f p.1 p.2))

/-- The values `lo, lo + 1, ...` of a count. -/
def span (lo n : Nat) : List Nat := (List.range n).map (· + lo)

/-- Ceiling of a quotient. -/
def ceilDiv (a b : Nat) : Nat := (a + b - 1) / b

/-- The first position of a value that satisfies a test. -/
def firstIdx {α : Type} (p : α → Bool) : List α → Nat
  | [] => 0
  | x :: r => if p x then 0 else firstIdx p r + 1

/-- Insertion in an order: after every element that comes strictly before. -/
def insertBy {α : Type} (lt : α → α → Bool) (x : α) : List α → List α
  | [] => [x]
  | y :: r => if lt y x then y :: insertBy lt x r else x :: y :: r

/-- A stable sort by insertion (structural, so that the kernel can evaluate it). -/
def sortBy {α : Type} (lt : α → α → Bool) : List α → List α
  | [] => []
  | x :: r => insertBy lt x (sortBy lt r)

/-- Merge of one list into another, both in the same order. -/
def mergeBy {α : Type} (lt : α → α → Bool) (a b : List α) : List α := a.foldl (fun acc x => insertBy lt x acc) b

/-- List update at one position. -/
def setAt {α : Type} : List α → Nat → α → List α
  | [], _, _ => []
  | _ :: r, 0, v => v :: r
  | x :: r, n + 1, v => x :: setAt r n v

end Sys2Proof
end

