-- ==== Sys2Proof/Syntax.lean ====
section
/-! DEFINITION. The commands of the block, one constructor of `Instr` per row of spec/opcode_table.json, with the operands the
spec gives each event: a command packet and its ring, a register write, a beat of a stream port, an Orchard message, a frame. -/

namespace Sys2Proof

/-- The two control ports (R332). -/
inductive PortId where
  | cpa
  | cpb
deriving DecidableEq, Repr

/-- Who makes a register request: a control port or the debug window (R322, R346). -/
inductive Requester where
  | port (p : PortId)
  | debug
deriving DecidableEq, Repr

/-- A command ring: its port and its number, 0 to 63 (R332). -/
structure RingRef where
  port : PortId
  ring : Nat
deriving DecidableEq, Repr

/-- A command packet as it is read from a submission queue (Table 16.5), and the ring it is read from.
`readErr`: the read met an uncorrectable error (R336, ERRCODE 3) (DESIGN CHOICE, log 95). -/
structure Pkt where
  src     : RingRef
  /-- word 0x00: OPCODE [15:0], FENCE [16], NOINT [17], reserved [31:18] -/
  w0      : Word
  /-- word 0x04: TAG -/
  tag     : Word
  /-- the thirteen parameter words P0 to P12 (R356) -/
  params  : List Word
  /-- word 0x3C: KCRC -/
  kcrc    : Word
  readErr : Bool
deriving DecidableEq, Repr

/-- The two descriptor stream ports. -/
inductive StreamPort where
  | hin
  | lin
deriving DecidableEq, Repr

/-- Error state of a read: clean, corrected, or uncorrectable. -/
inductive Ecc where
  | clean
  | corrected
  | uncorrectable
deriving DecidableEq, Repr

/-- A handle, GEN:SLOT (R36). -/
structure Handle where
  slot : Nat
  gen  : Nat
deriving DecidableEq, Repr

/-- What names one row in flight (R38, Table 2.11). -/
structure RowKey where
  handle : Handle
  pos    : Nat
  cls    : Nat
  gidx   : Nat
deriving DecidableEq, Repr

/-- The header of an Orchard message (Table 15.5). `parity`: an Orchard buffer reported a parity error on it (R315). -/
structure Hdr where
  src    : Nat
  dst    : Nat
  bcast  : Bool
  doubt  : Bool
  punnet : Nat
  rslot  : Nat
  pass   : Nat
  handle : Handle
  hops   : Nat
  parity : Bool
deriving DecidableEq, Repr

/-- ADMIT body (R310). -/
structure AdmitB where
  pos    : Nat
  cls    : Nat
  gidx   : Nat
  subseq : Word
  dcrc   : Word
  tick   : Word
deriving DecidableEq, Repr

/-- One row entry of a CLOSE body (R313). -/
structure CloseRow where
  handle : Handle
  slot   : Nat
  pos    : Nat
  cls    : Nat
  gidx   : Nat
  ovl    : Nat
  rep    : Bool
  tseq   : Nat
deriving DecidableEq, Repr

/-- CLOSE body (R313). No rows: a marker punnet (R289). -/
structure CloseB where
  phase  : Nat
  epochs : List Half
  rows   : List CloseRow
deriving DecidableEq, Repr

/-- The shard summary statistics of one row (Table 6.5, Table 15.7). `late`: 0 resident, 1 sketch, 2 DEFER cause. `why` is
the model's own field: the cause code behind a doubt bit, 0 with none, which the wire layout does not carry (DESIGN CHOICE, log 34). -/
structure StatB where
  sq     : Acc
  eq     : Acc
  mq     : Acc
  meq    : Acc
  xmax   : F32
  x2max  : F32
  epsmax : F32
  wx     : F32
  wx2    : F32
  cnt    : Nat
  chain0 : Bool
  chain20 : Bool
  model0 : Bool
  model20 : Bool
  doubt  : Bool
  late   : Nat
  why    : Nat
deriving DecidableEq, Repr

/-- Candidate record (Table 6.4). -/
structure CandRec where
  id  : Nat
  zf  : F32
  eps : F32
  x   : F32
  xhi : F32
  xlo : F32
deriving DecidableEq, Repr

/-- Contender or fast-winner record of a WIN body (R312). `x` and `l` are the model's own fields: the score at z_f and L_v of R117,
which R119 and R143 need at the root and the wire layout does not carry (DESIGN CHOICE, log 34). -/
structure WinRec where
  id  : Nat
  z   : F32
  eps : F32
  s   : F32
  u   : F32
  x   : F32
  l   : F32
deriving DecidableEq, Repr

/-- WIN body (R312). -/
structure WinB where
  fast  : Option WinRec
  spill : F32
  conts : List WinRec
deriving DecidableEq, Repr

/-- THRESH body (Table 15.14). `ca`, `cm`, `cr` are the model's own fields: the new anchors C' of a repeat pass for the chain sum, the
model sum and the reference pass's model sum (R77), which every shard knows and the wire layout does not carry (DESIGN CHOICE, log 34). -/
structure ThreshB where
  kid : Nat
  kx  : F32
  r   : Nat
  mp  : Option (F32 × F32)
  dm  : Option Acc
  ca  : Option F32
  cm  : Option F32
  cr  : Option F32
deriving DecidableEq, Repr

/-- RSQ body (Table 15.14). -/
structure RsqB where
  id     : Nat
  tgt    : Bool
  eps    : F32
  cutoff : Word
deriving DecidableEq, Repr

/-- RSP body (Table 15.14). -/
structure RspB where
  id   : Nat
  zs   : F32
  t    : F32
  xpre : F32
  g    : F32
deriving DecidableEq, Repr

/-- XREC values carried by a COMMIT (R314). -/
structure XVals where
  lpalt : F32
  lse   : F32
  lpref : F32
  kl1   : F32
  kl2   : F32
  kl3   : F32
deriving DecidableEq, Repr

/-- A DRAFT row's distribution for its retained set (R194): anchor, accumulator over E, ZERO, and E's ids with their scores. -/
structure DraftB where
  anch : F32
  qd   : Acc
  zero : Bool
  ents : List (Nat × F32)
deriving DecidableEq, Repr

/-- COMMIT body (R314). `draft` is the model's own field: the retained set of a DRAFT row, which no wire layout carries to the home
(DESIGN CHOICE, log 34). `cause` is the model's own field: the void cause code of a record of kind VOID (R396), which the
wire layout does not carry (DESIGN CHOICE, log 12). `bits [21:24]`: KIND; `flags`: the seven TREC flags. -/
structure CommitB where
  token   : Nat
  kind    : Nat
  flags   : Nat
  commits : Bool
  logprob : F32
  lpbnd   : F16
  entropy : BF16
  nacc    : Nat
  toks    : List Nat
  xv      : Bool
  xvals   : XVals
  top     : List (Nat × F32)
  draft   : Option DraftB
  cause   : Nat
deriving DecidableEq, Repr

/-- LKUP body (Table 15.14). -/
structure LkupB where
  next  : Nat
  final : Bool
  idx   : Nat
  token : Nat
deriving DecidableEq, Repr

/-- AUX body (Table 15.14). `reward`: reward head, else value head. -/
structure AuxB where
  out    : F32
  reward : Bool
  finite : Bool
deriving DecidableEq, Repr

/-- A retained draft set (Table 9.1). `bad`: its HCRC or pages do not read good (R195). -/
structure RetSet where
  pos    : Nat
  zero   : Bool
  depoch : Half
  dtoken : Nat
  anch   : F32
  qd     : Acc
  ents   : List (Nat × F32)
  bad    : Bool
deriving DecidableEq, Repr

/-- SIDE body (Table 15.14): the six side kinds, and `retdata`, the model's own: a retained set's header and entries, which the home sends the
root (R202, DESIGN CHOICE, log 34). A list too long for one message is sent in several (`more`). -/
inductive SideB where
  | counts  (more : Bool) (entries : List (Nat × Nat))
  | biases  (more : Bool) (entries : List (Nat × F32))
  | bans    (more : Bool) (ids : List Nat)
  | sketch  (counters : List Nat)
  | retset  (setj : Nat) (more : Bool) (ids : List Nat)
  | retdata (setj : Nat) (set : RetSet)
  | grammar (gram gen state : Nat)
deriving DecidableEq, Repr

/-- SIGNAL body (Table 15.14). -/
structure SignalB where
  counter : Nat
  ack     : Bool
  stag    : Nat
  status  : Nat
  addend  : W64
deriving DecidableEq, Repr

/-- A completion's variable fields (Table 16.6). -/
structure CplB where
  status : Nat
  final  : Bool
  res0   : Word
  res1   : Half
  detail : Nat
deriving DecidableEq, Repr

/-- A ready report (R288, Table 15.14, CKIND 2). `detail` 0 reports success. -/
structure ReadyB where
  epoch : Half
  hset  : Nat
  slot  : Nat
  fmt   : Nat
  d     : Nat
  v     : Nat
  outl  : Nat
  crc   : Word
  detail : Nat
deriving DecidableEq, Repr

/-- CMD body (Table 15.14): a forwarded packet, its completion, a ready report, or an acknowledgement. `settle` is the model's own: the
root's order to answer a row that was never placed, with its kind and cause, for which the wire has no message (DESIGN CHOICE, log 36); so is
`counts`: ids and counts of a request that pass to a new holder when CFG.HEADSET changes the ranges (R235; DESIGN CHOICE, log 153). -/
inductive CmdB where
  | fwd   (port : PortId) (ring fid : Nat) (pk : Pkt)
  | cpl   (port : PortId) (ring fid : Nat) (c : CplB)
  | ready (r : ReadyB)
  | ack   (punnet subject : Nat)
  | settle (key : RowKey) (kind cause : Nat)
  | counts (handle : Handle) (l : List (Nat × Nat)) (lost : Bool)
deriving DecidableEq, Repr

/-- One slot entry of EPOCH.QUERY and of the rejoin digest (R369). -/
structure SlotEntB where
  state : Nat
  use   : Nat
  fmt   : Nat
  epoch : Half
  pins  : Nat
  outl  : Nat
  crc   : Word
deriving DecidableEq, Repr

/-- Rejoin digest (R307, R331). `tables`: per object number in the order masks, grammars, bias sets, profile objects, the
current generation and whether a standby generation is present. -/
structure DigestB where
  nextPunnet : Nat
  phase      : Nat
  tseq       : Nat
  slots      : List SlotEntB
  tables     : Tab (Nat × Bool)
deriving DecidableEq, Repr

/-- EVENT body (Table 15.14). -/
inductive EventB where
  | safe      (cause : Nat) (tick : Word)
  | digest    (d : DigestB)
  | epoch     (hset : Nat) (epoch : Half) (punnet : Nat)
  | retention
  | timeReq   (sent : W64)
  | timeReply (sent receipt reply : W64)
  | pool      (t1 t2 free hwm : Word)
deriving DecidableEq, Repr

/-- PROBE body (Table 15.14). -/
structure ProbeB where
  prog   : Bool
  conf   : Bool
  still  : Bool
  lowpun : Nat
  nq     : Nat
deriving DecidableEq, Repr

/-- One entry of a DISC body (Table 15.14). -/
structure DiscEnt where
  addr   : Nat
  safe   : Bool
  run    : Bool
  rejoin : Bool
  links  : List Bool
  dieid  : W64
  neigh  : List Nat
deriving DecidableEq, Repr

/-- A link frame (Table 15.3), less its FTYPE, which the row of the table gives. -/
structure Frame where
  /-- word 0x00: FTYPE [3:0], VC [6:4], SEQ [19:8], ACK [31:20] -/
  w0      : Word
  /-- word 0x04: NU [3:0], CRVC [6:4], CRCNT [14:7]; RETRAIN carries REASON in [17:15] -/
  w1      : Word
  payload : List Word
  crc     : Word
deriving DecidableEq, Repr

/-- Context parts that a fetch brings to T0 (Table 12.1), and the Bramble records of R177. -/
inductive Part where
  | head
  | strict
  | count
  | hist
  | bramble
deriving DecidableEq, Repr

/-- A tile of a bank pass (R92): variant pre-tile, main tile, outlier tile, or half of an auxiliary head's W1 (R106). -/
inductive TileRef where
  | pre  (i : Nat)
  | main (t : Nat)
  | outl (i : Nat)
  | aux  (reward : Bool) (i : Nat)
deriving DecidableEq, Repr

/-- The end of a tile's accumulation: the tile, and the errors that the array met in the activation blocks of some rows, by row slot (R110). -/
structure TileEnd where
  tile : TileRef
  ecc  : List (Nat × Ecc)
deriving DecidableEq, Repr

/-- A repairable unit: its repair kind (Table 20.1), SRAM number within kinds 7 and 8, and logical index. -/
structure Unit' where
  kind  : Nat
  sram  : Nat
  index : Nat
deriving DecidableEq, Repr

/-- What asserts a warm reset (R383). -/
inductive WarmSrc where
  | pin
  | write (v : Word)
deriving DecidableEq, Repr

/-- Outcome of an instance's part of a bank or variant load (R288). -/
inductive LoadErr where
  | none
  | memory
deriving DecidableEq, Repr

/-- The commands: one constructor for each row of spec/opcode_table.json. -/
inductive Instr where
  -- command packets (Table 17.5 to Table 17.18)
  | sysNop (pk : Pkt) | sysQuery (pk : Pkt) | sysStart (pk : Pkt) | sysDrain (pk : Pkt) | sysSave (pk : Pkt)
  | sysRestore (pk : Pkt) | sysPcap (pk : Pkt)
  | cfgSet (pk : Pkt) | cfgPhase (pk : Pkt) | cfgRegion (pk : Pkt) | cfgRing (pk : Pkt) | cfgHeadset (pk : Pkt)
  | cfgSlot (pk : Pkt)
  | profWrite (pk : Pkt) | profSwap (pk : Pkt) | profRead (pk : Pkt)
  | tblLoad (pk : Pkt) | tblSwap (pk : Pkt) | tblFree (pk : Pkt) | tblQuery (pk : Pkt)
  | epochLoad (pk : Pkt) | epochSwitch (pk : Pkt) | epochRefset (pk : Pkt) | epochDrop (pk : Pkt)
  | epochVload (pk : Pkt) | epochVfree (pk : Pkt) | epochQuery (pk : Pkt)
  | reqOpen (pk : Pkt) | reqClose (pk : Pkt) | reqCancel (pk : Pkt) | reqPark (pk : Pkt) | reqResume (pk : Pkt)
  | reqRelease (pk : Pkt) | reqQuery (pk : Pkt)
  | tenSet (pk : Pkt) | tenQuery (pk : Pkt)
  | syncAlloc (pk : Pkt) | syncFree (pk : Pkt) | syncSet (pk : Pkt) | syncAdd (pk : Pkt) | syncRead (pk : Pkt)
  | syncWait (pk : Pkt) | syncSignal (pk : Pkt) | syncBarrier (pk : Pkt) | syncSemacq (pk : Pkt) | syncSemrel (pk : Pkt)
  | orchConfig (pk : Pkt) | orchDiscover (pk : Pkt) | orchRejoin (pk : Pkt) | orchQuery (pk : Pkt)
  | diagInject (pk : Pkt) | diagSelftest (pk : Pkt) | diagSnap (pk : Pkt) | diagTrace (pk : Pkt)
  | repairLoad (pk : Pkt) | repairCommit (pk : Pkt) | repairQuery (pk : Pkt) | repairCal (pk : Pkt)
  | dumpConfig (pk : Pkt) | dumpStatus (pk : Pkt) | dumpTake (pk : Pkt) | dumpAck (pk : Pkt)
  -- control ports (16_control_ports.md, 21_register_map.md)
  | doorbell (by_ : PortId) (r : RingRef) (tail : Half)
  | jgCqhWrite (by_ : PortId) (r : RingRef) (head : Half)
  | ringEnable (by_ : PortId) (r : RingRef) (value : Word)
  | cqWriteAck (r : RingRef) (err : Bool)
  | intStatusClear (by_ : PortId) (win : PortId) (value : Word)
  | cqPendClear (by_ : PortId) (win : PortId) (value : W64)
  | intRouteMaskWrite (by_ : PortId) (win : PortId) (reg : Nat) (value : Word)
  | msgWriteResponse (p : PortId) (vec : Nat) (err : Bool)
  | semReq (by_ : Requester) (n : Nat)
  | semRel (by_ : Requester) (n : Nat)
  -- resets, boot, clocks, power (18_clocks_power_startup.md)
  | portReset (value : Word)
  | warmReset (src : WarmSrc)
  | quarantine (value : Word)
  | coldReset
  | jgFwCtlGo (value : Word)
  | selftestDone (failed : List Unit')
  | pllLockLoss
  | tclkTick
  | timeAlign
  | pmReqRun | pmReqRet | pmReqOff | pmTransitionDone (locked : Bool)
  | idleTimeout
  | thermalSample (raw : List Nat)
  | droopTrip (detector : Nat)
  -- rows: stream ports and egress (02_rows_and_records.md)
  | rdescAccept (p : StreamPort) (beat : List Word) (last : Bool)
  | payloadEnd (p : StreamPort) (beats : Nat) (elems : List Word) (ecc : Ecc)
  | tegAck (tag : Nat) (err : Bool)
  | tegFabricCredit (n : Nat)
  | tegRingCredit (ring n : Nat)
  -- the assembler (R53 to R55)
  | admitMsg (h : Hdr) (b : AdmitB)
  | copySkewExpiry (key : RowKey)
  | gatherWindowExpiry
  | closeMarginReached
  | close (h : Hdr) (b : CloseB)
  -- the data path
  | partFetchDone (handle : Handle) (part : Part) (ecc : Ecc)
  | preludeDone (punnet : Nat) (ecc : List (Nat × Ecc))
  | weightSegmentLoaded (punnet pass : Nat) (tile : TileRef) (seg : Nat) (ecc : Ecc)
  | tileProjected (punnet pass : Nat) (done : TileEnd)
  | selectionTileClosed (punnet pass : Nat) (tile : TileRef)
  | auxHeadDone (punnet rslot : Nat) (reward : Bool)
  -- Orchard messages of the combine and of certification
  | stat (h : Hdr) (b : StatB)
  | cand (h : Hdr) (b : List CandRec)
  | win (h : Hdr) (b : WinB)
  | topm (h : Hdr) (b : List (Nat × F32))
  | tgt (h : Hdr) (b : Option CandRec)
  | thresh (h : Hdr) (b : ThreshB)
  | rsq (h : Hdr) (b : RsqB)
  | rescoreDone (punnet rslot pass id : Nat) (ecc : Ecc)
  | rsp (h : Hdr) (b : RspB)
  | certCutoff (punnet rslot : Nat)
  | commit (h : Hdr) (b : CommitB)
  | lkup (h : Hdr) (b : LkupB)
  | aux (h : Hdr) (b : AuxB)
  | side (h : Hdr) (b : SideB)
  | cancel (h : Hdr) (k : W64)
  | deadlineReached (key : RowKey)
  -- contexts, tenants, banks
  | contextExpiry (slot : Nat)
  | expiredPagesFreed (slot : Nat)
  | historyDoublingDone (slot : Nat)
  | budgetRefill
  | requantPartDone (hset slot : Nat) (variant : Option Nat) (err : LoadErr)
  -- Orchard control messages
  | bar (h : Hdr) (barrier tag : Nat)
  | rel (h : Hdr) (barrier tag : Nat)
  | signal (h : Hdr) (b : SignalB)
  | cmd (h : Hdr) (b : CmdB)
  | event (h : Hdr) (b : EventB)
  | probe (h : Hdr) (b : ProbeB)
  | purge (h : Hdr) (punnet : Nat) (dbg : Bool)
  | disc (port : Nat) (ovf : Bool) (entries : List DiscEnt)
  | discoverySettled
  | dlwinExpiry
  | purgeRetryTimer
  -- the link layer
  | dataFrame (port : Nat) (f : Frame)
  | nakFrame (port : Nat) (f : Frame)
  | idleFrame (port : Nat) (f : Frame)
  | train (port : Nat) (f : Frame)
  | retrain (port : Nat) (f : Frame)
  | trainingWord (port group lane : Nat) (words : List Word)
  | replayTimer (port : Nat)
  | idleTimer (port : Nat)
  | linktoExpiry (port : Nat)
  | linkDown (port : Nat)
  | signalTimeout (stag : Nat)
  | forwardTimeout (fid : Nat)
  | waitTimeout (r : RingRef)
  -- faults, self-test, Windfall
  | rescoreKatTimer (failed : List Unit')
  | watchdogExpiry
  | transferTimeout
  | safeEntry (cause : Nat)
  | windfallDone (err : Bool)
  | selftestSlice (unit : Unit') (fail : Bool)
  | selftestPassTimer
  -- register access with behaviour of its own
  | lowWordRead (p : PortId) (addr : Nat)
  | jgDbgEn (by_ : PortId) (value : Word)
  | jgDbgPurge (value : Word)
  | jgDbgFlush (value : Word)
  | jgDbgCntval (value : W64)
  | jgDbgSem (value : Word)
  | hangclr (value : Word)
  | injenClear (value : Word)
  | jgDbgTrdata (p : PortId)
  | registerWrite (by_ : PortId) (addr size : Nat) (value : W64)
  -- test access (R440, R441)
  | dbgen
  | testLogicReset
  | regacc (tdr : Nat)
  | store (tdr : Nat)
  | sramrd (tdr : Nat)
  | slice (tdr : Nat)
  | fuse (tdr : Nat)
  | therm (raw : List Nat)
  | trace (tdr : Nat)
  | poolUpdate
  | dbgenDeselect
deriving DecidableEq, Repr

end Sys2Proof
end

