-- ==== Sys2Proof/Decode.lean ====
section
/-! DEFINITION. The decoder of table words. No row of spec/opcode_table.json gives a command any bits: the block's commands are
packets, register writes, messages and events with operands of their own, so no word spells one. -/

namespace Sys2Proof

/-- The command that a table word spells: none, for every word. -/
def decodeTableWord (_nbits _w : Nat) : Option Instr := none

end Sys2Proof
end

