-- ==== Sys2Proof/Config.lean ====
section
/-! DEFINITION. What one part or one integration fixes and the spec leaves open: per-die fuses (R303, R416), straps, and the
free values. Every constant here is opaque: no proof can see a value of it (DESIGN CHOICE, log 3, log 4). -/

namespace Sys2Proof.Config

/-- The 64 factory fuse words of 64 bits (Table 20.4): fused per die, no fixed value in release J2 (R303). -/
opaque factoryFuse : Nat → BitVec 64

/-- JG_ID.STEP, the silicon stepping (R303, Table 21.6). -/
opaque stepping : BitVec 8

/-- The die strap DIEID[2:0] of the instance address (R303). -/
opaque dieStrap : BitVec 3

/-- Free values: a fresh word for each value of the state's counter `free` (DESIGN CHOICE, log 4). -/
opaque freeWord : Nat → BitVec 32

/-- Words of the 256 KiB trace buffer (R375, R436): the spec gives the trace no format. Indexed by the word index and by how many
events have been captured (DESIGN CHOICE, log 5). -/
opaque traceWord : Nat → Nat → BitVec 32

/-- 64-bit words of SRAM contents that the spec does not lay out (R441, STORE and SRAMRD), by array and word index. -/
opaque sramWord : Nat → Nat → BitVec 64

/-- The expected lengths of the instance's SRAM arrays and their words' ECC syndromes (R441). -/
opaque sramSyndrome : Nat → Nat → BitVec 8

/-- Pool page choice (R241): which run of free pages a write-back takes is not stated. Index: tier, run length, free counter. -/
opaque poolPage : Nat → Nat → Nat → Nat

/-- The last tokens of a context that is read back on an instance that did not keep them (R258): the images give them no place. -/
opaque lastToken : Nat → Nat

/-- The pages that an uncorrectable error of a STRICT fetch hits (R195, R246): below the number of retained sets, one of those. -/
opaque strictPage : Nat → Nat

/-- Integer power estimate in mW of a punnet (R391): the fixed terms of the other parts are not stated. -/
opaque powerOther : Nat → Nat

/-- Contents of control-core data memory (Table 19.4, KDATA). -/
opaque kdataWord : Nat → BitVec 32

end Sys2Proof.Config
end

