-- ==== Sys2Proof/Machine/State.lean ====
section
/-! DEFINITION. The state of one Jograbo instance, as plain data, and the state right after a power-on reset. Every structure
names the rules of spec/ that give the machine that piece of state. -/

namespace Sys2Proof.Machine

/-- Faults: none. Every fault of the spec has an outcome the spec gives (R394: corrected, contained, fatal to SAFE), so each is a
next state. The type is closed and empty: no command can stop the model. Safe. -/
inductive Fault where
deriving DecidableEq

/-- Refusals. -/
inductive Refusal where
  /-- Raised by an arm of `exec` whose command has no meaning yet. Safe: the model stops where the block goes on. -/
  | notModelled (mnemonic : String)
deriving DecidableEq, Repr

/-! ## Memory behind the MEM port -/

/-- Memory of both tiers behind the MEM port (R2, R5): bytes at keys `tier * 2^64 + address`, in one canonical form, and the
64-byte lines that hold an uncorrectable error (R394). -/
structure Memory where
  cells  : List Host.Cell
  poison : List Nat
deriving DecidableEq, Repr

/-! ## Control ports -/

/-- Where a command came from and where its completions go (R350). -/
inductive Origin where
  /-- a command this instance took from a ring; `id` names it among the commands taken -/
  | ring (r : RingRef) (id : Nat)
  /-- a forwarded command (CMD, CKIND 0): issuing shard, port, ring, forward number -/
  | fwd  (shard : Nat) (port : PortId) (ring fid : Nat)
  /-- the root's own copy of a group command applied at a member: no completion -/
  | member
deriving DecidableEq, Repr

/-- A command taken from a ring that lacks its final completion (R340, R341). -/
structure Outst where
  id      : Nat
  tag     : Word
  opcode  : Half
  noint   : Bool
  reserve : Nat
deriving DecidableEq, Repr

/-- A completion write that awaits its acknowledgement (R335, R343): the command it is for (none when no command is named by it
any more), its words, FINAL, and whether it raises the completion interrupt. `retry`: it has met one error response. -/
structure CqWrite where
  id     : Nat
  words  : List Word
  final  : Bool
  intr   : Bool
  retry  : Bool
deriving DecidableEq, Repr

/-- One command ring (Table 16.2, Table 16.3). The expected phase is a function of the index (R338). -/
structure Ring where
  sqb     : W64
  cqb     : W64
  en      : Bool
  sqlog   : Nat
  cqlog   : Nat
  vec     : Nat
  cie     : Bool
  err     : Bool
  errcode : Nat
  errcnt  : Nat
  sqt     : Half
  sqh     : Half
  cqt     : Half
  cqh     : Half
  outst   : List Outst
  cqw     : List CqWrite
  asleep  : Bool
deriving DecidableEq, Repr

/-- A ring after reset (Table 16.3). -/
def Ring.reset : Ring :=
  { sqb := 0, cqb := 0, en := false, sqlog := 0, cqlog := 0, vec := 0, cie := false, err := false, errcode := 0, errcnt := 0,
    sqt := 0, sqh := 0, cqt := 0, cqh := 0, outst := [], cqw := [], asleep := false }

/-- One control port's window (Table 21.1). `vpend` is JG_INT_PEND, `msgOut` the message writes without a response (R431). -/
structure Port where
  intStatus : BitVec 15
  intMask   : BitVec 16
  mode      : Nat
  route0    : Word
  route1    : Word
  cqPend    : W64
  msga      : Tab W64
  msgd      : Tab Word
  vpend     : BitVec 16
  msgOut    : List (Nat × Bool)
  xwr       : Nat
  semmis    : Nat
  badacc    : Nat
  msgerr    : Nat
  /-- low-word latch (R425): address of the register and its latched high word -/
  latch     : Option (Nat × Word)
  rings     : Tab Ring
deriving DecidableEq, Repr

/-- A port after reset (R426, R427, Table 21.2, Table 21.4). -/
def Port.reset : Port :=
  { intStatus := 0, intMask := 0xFFFF, mode := 0, route0 := 0, route1 := 0, cqPend := 0, msga := [], msgd := [], vpend := 0,
    msgOut := [], xwr := 0, semmis := 0, badacc := 0, msgerr := 0, latch := none, rings := [] }

/-- A semaphore (Table 16.7), with the commands that sleep on it, oldest first (R347). `owner`: 0 free, 1 CPA, 2 CPB, 3 debug. -/
structure Sem where
  owner   : Nat
  abnd    : Bool
  grants  : Nat
  abndcnt : Nat
  waiters : List (PortId × Origin)
deriving DecidableEq, Repr

/-- A semaphore after reset. -/
def Sem.reset : Sem := { owner := 0, abnd := false, grants := 0, abndcnt := 0, waiters := [] }

/-- A waiter of a sync counter (R321): its command, its target, and the tick at which its timeout runs out (0: none). -/
structure Waiter where
  origin : Origin
  port   : PortId
  target : W64
  expiry : Nat
deriving DecidableEq, Repr

/-- A sync counter (R320). `owner`: 0 free, 1 CPA, 2 CPB, 3 Vorik firmware. -/
structure Ctr where
  value   : W64
  owner   : Nat
  waiters : List Waiter
deriving DecidableEq, Repr

/-- A free counter. -/
def Ctr.reset : Ctr := { value := 0, owner := 0, waiters := [] }

/-- A barrier at this node (R317, R318): the tag of the instance's next round, the node's open tag, the entries counted for the
open tag and the tag after it, and the commands that entered. `inRound`: this instance's entry has not left. -/
structure Barrier where
  nextTag : Nat
  openTag : Nat
  cntOpen : Nat
  cntNext : Nat
  entered : List Origin
  inRound : Bool
deriving DecidableEq, Repr

/-- A barrier after discovery. -/
def Barrier.reset : Barrier :=
  { nextTag := 0, openTag := 0, cntOpen := 0, cntNext := 0, entered := [], inRound := false }

/-! ## Long commands -/

/-- Stages of a bank switch at the root (R289, R290). -/
inductive SwStage where
  | deferred
  | barrier
  | closing
  | acks (punnet : Nat) (have_ : List Nat)
deriving DecidableEq, Repr

/-- What a command that has not completed waits for. -/
inductive JobKind where
  /-- the forward number and the members that have not completed their part, when it drains the group -/
  | drain (fid : Nat) (wait : List Nat) (failed : Bool)
  | phase
  | switch (hset : Nat) (epoch : Half) (stage : SwStage)
  | load (hset slot : Nat)
  | refset (hset : Nat) (epoch : Half)
  | dropRef (hset : Nat)
  | vload (hset slot v : Nat)
  | vfree (hset slot v : Nat)
  | cancel (slot : Nat)
  | signal (stag target : Nat)
  | discover
  | rejoin (punnet : Option Nat)
  | selftest
  | forward (fid : Nat)
  | dumpTake
  | openNotify (slot : Nat)
  /-- REQ.PARK with the T2 hint: its expiry, the shards that have answered, whether a part found no room (R255) -/
  | park (slot : Nat) (ttl : Nat) (heard : List Nat) (full : Bool)
deriving DecidableEq, Repr

/-- A running command: where it came from, its opcode, what it waits for, and the object it locks (R350). -/
structure Job where
  origin : Origin
  opcode : Half
  kind   : JobKind
  lock   : Option (Nat × Nat)
deriving DecidableEq, Repr

/-! ## Configuration -/

/-- Values of a configuration set (Table 11.2). -/
structure CfgVals where
  gather    : Nat
  copyskew  : Nat
  egressres : Nat
  rqshare   : Nat
  forceovl  : Nat
deriving DecidableEq, Repr

/-- Defaults of Table 11.2. -/
def CfgVals.dflt : CfgVals := { gather := 200, copyskew := 256, egressres := 32, rqshare := 25, forceovl := 0 }

/-- A configuration set with its presence mask (R230). -/
structure CfgSet where
  present : Nat
  vals    : CfgVals
deriving DecidableEq, Repr

/-- A named memory region: base address word and length in bytes (R363). -/
structure Region where
  base : W64
  len  : Nat
deriving DecidableEq, Repr

/-- A consumer ring (R47 to R49, R52, R398). `unacked`: writes not yet acknowledged. `notified`: the PI of the last notify write. -/
structure CRing where
  log2u    : Nat
  en       : Bool
  base     : W64
  notify   : W64
  pi       : Nat
  credits  : Nat
  failed   : Bool
  unacked  : Nat
  notified : Nat
deriving DecidableEq, Repr

/-- A ring that CFG.RING has not configured. -/
def CRing.reset : CRing :=
  { log2u := 6, en := false, base := 0, notify := 0, pi := 0, credits := 0, failed := false, unacked := 0, notified := 0 }

/-- The fields of a profile (Table 11.1). -/
structure Profile where
  temp : F32
  topp : F32
  minp : F32
  softcap : F32
  reppen : F32
  prespen : F32
  freqpen : F32
  anchorc : F32
  topk : Nat
  cand1 : Nat
  ntop : Nat
  biasset : Nat
  ngram : Nat
  penprompt : Nat
  anchorsel : Nat
  lpsel : Nat
  refpass : Nat
  valueh : Nat
  rewardh : Nat
  certpol : Nat
  latepath : Nat
  dlctl : Nat
  masksel0 : Nat
  masksel1 : Nat
  masksel2 : Nat
  masksel3 : Nat
  rscap : Nat
  rsbatch : Nat
  certmargin : Nat
  lptol : F16
  tbtmargin : Nat
  dlinit : Nat
  dlmin : Nat
  dlmax : Nat
  alo : F16
  ahi : F16
  ttftgoal : Nat
  tbtgoal : Nat
deriving DecidableEq, Repr

/-- The defaults of Table 11.1. 0.4 and 0.7 are held as the nearest FP16 values, 0x3666 and 0x399A (R79's RNE). -/
def Profile.dflt : Profile :=
  { temp := 0x3F800000, topp := 0x3F800000, minp := 0, softcap := 0, reppen := 0x3F800000, prespen := 0, freqpen := 0,
    anchorc := 0, topk := 0, cand1 := 256, ntop := 0, biasset := 0xFF, ngram := 0, penprompt := 0, anchorsel := 0, lpsel := 0,
    refpass := 0, valueh := 0, rewardh := 0, certpol := 0, latepath := 0, dlctl := 0, masksel0 := 0xFFFF, masksel1 := 0xFFFF,
    masksel2 := 0xFFFF, masksel3 := 0xFFFF, rscap := 64, rsbatch := 2, certmargin := 128, lptol := 0x7C00, tbtmargin := 500,
    dlinit := 4, dlmin := 1, dlmax := 8, alo := 0x3666, ahi := 0x399A, ttftgoal := 0, tbtgoal := 0 }

/-- A profile record as the table SRAM caches it (R223): its fields and its PRESENT word. -/
structure ProfRec where
  p       : Profile
  present : W64
deriving DecidableEq, Repr

/-- An unwritten record (R223). -/
def ProfRec.dflt : ProfRec := { p := Profile.dflt, present := 0 }

/-- A profile object (R223, R229, R364). `former`: the last former current generation; it occupies the standby slot while it is
pinned. Pins are not stored: they are counted from the rows in flight and the open requests. -/
structure ProfObj where
  gen    : Nat
  recs   : Tab ProfRec
  stby   : Option (Tab ProfRec)
  former : Option (Nat × Tab ProfRec)
deriving DecidableEq, Repr

/-- An object as CFG.REGION leaves it (R223). -/
def ProfObj.dflt : ProfObj := { gen := 0, recs := [], stby := none, former := none }

/-- A grammar state (Table 8.3), with its lists read from the image. -/
structure GState where
  mode    : Nat
  final   : Bool
  dflt    : Option Nat
  mref    : Nat
  allow   : List Nat
  deny    : List Nat
  trans   : List (Nat × Nat)
deriving DecidableEq, Repr

/-- A loaded table image (R171 to R173, R366). -/
inductive Image where
  | mask    (nbits : Nat) (bitmap : List Byte)
  | grammar (structid : Word) (nvocab start : Nat) (states : List GState)
  | bias    (entries : List (Nat × F32))
deriving DecidableEq, Repr

/-- One generation of a table object (R185). -/
structure Gen where
  num : Nat
  img : Image
deriving DecidableEq, Repr

/-- The second generation slot (R185): a standby image, or a former current generation that is still pinned. -/
inductive Second where
  | empty
  | standby (img : Image)
  | former (g : Gen)
deriving DecidableEq, Repr

/-- A mask, grammar or bias-set number (R185). `last`: the last generation number it has held. `gone`: generations that have
vanished while pinned (R188). -/
structure TblObj where
  cur    : Option Gen
  second : Second
  last   : Nat
  gone   : List Nat
deriving DecidableEq, Repr

/-- A number that has never been loaded. -/
def TblObj.reset : TblObj := { cur := none, second := .empty, last := 0, gone := [] }

/-- Bank slot states (Table 14.1, R369 codes). -/
inductive BankSt where
  | empty | loading | ready | active | retained | reference | draining
deriving DecidableEq, Repr

/-- A low-rank variant of a bank (R99, R293): its rank and sources, the members that have reported it ready, whether a punnet
boundary has made it usable, whether EPOCH.VFREE has named it, whether a boundary has made it absent since (its memory is kept until
the rows placed with it have drained), and where its parts begin in the slot's code and side regions. `here`: this instance's part is
written. -/
structure Variant where
  rank    : Nat
  srcA    : W64
  srcB    : W64
  reports : List Nat
  go      : Bool
  usable  : Bool
  freeing : Bool
  gone    : Bool
  here    : Bool
  code    : Nat
  side    : Nat
deriving DecidableEq, Repr

/-- A load block as read (Table 17.10). -/
structure LoadBlk where
  round   : Nat
  outmode : Nat
  adopt   : Bool
  outthr  : F16
  srseed  : W64
  main    : W64
  gain    : W64
  bias    : W64
  outlist : W64
  outcnt  : Nat
  gelu    : Nat
  aux     : List W64
deriving DecidableEq, Repr

/-- A load block of zeros, for a slot that no load has named. -/
def LoadBlk.zero : LoadBlk :=
  { round := 0, outmode := 0, adopt := false, outthr := 0, srseed := 0, main := 0, gain := 0, bias := 0, outlist := 0,
    outcnt := 0, gelu := 0, aux := [] }

/-- A weight block as stored: its codes and its E8M0 scale (R60, R61). -/
structure WBlock where
  codes : List Nat
  scale : Nat
deriving DecidableEq, Repr

/-- A bank entry's stored form: its blocks, and its norm-list word's halves WN and RN (R114). -/
structure WEntry where
  blocks : List WBlock
  wn     : F16
  rn     : F16
deriving DecidableEq, Repr

/-- An auxiliary head in a bank (R105): W1 and w2 in E4M3, b1 and b2 in FP32, its GELU form. -/
structure AuxHead where
  w1   : List (List WBlock)
  b1   : List F32
  gelu : Bool
  w2   : List WBlock
  b2   : F32
deriving DecidableEq, Repr

/-- What the loader knows of this instance's part of a bank, whose codes, scales, lists, vectors and heads stand in the slot's regions
(R280, R285): the vocabulary ids of its outlier entries, the parts present, and the number of its next weight block (R293). -/
structure BankData where
  outl    : List Nat
  gain    : Bool
  bias    : Bool
  value   : Bool
  reward  : Bool
  next    : Nat
deriving DecidableEq, Repr

/-- A bank part that holds nothing. -/
def BankData.none : BankData :=
  { outl := [], gain := false, bias := false, value := false, reward := false, next := 0 }

/-- A bank slot (R280, R282). `said`: the shards whose regions hold their part of a load that
is being prepared, at a member only its own. `vacate`: the root has said that the slot leaves its state at the next punnet boundary (DESIGN CHOICE, log 110). -/
structure Bank where
  st      : BankSt
  use     : Nat
  fmt     : Nat
  epoch   : Half
  outl    : Nat
  crc     : Word
  code    : Option Region
  side    : Option Region
  shadow  : Option Region
  blk     : LoadBlk
  reports : List (Nat × ReadyB)
  vars    : Tab Variant
  data    : BankData
  said    : List Nat
  vacate  : Bool
deriving DecidableEq, Repr

/-- An empty slot. -/
def Bank.reset : Bank :=
  { st := .empty, use := 0, fmt := 0, epoch := 0, outl := 0, crc := 0, code := none, side := none, shadow := none,
    blk := LoadBlk.zero, reports := [], vars := [], data := BankData.none, said := [], vacate := false }

/-- A head set (Table 4.1, R363). `d = 0`: not configured. -/
structure HeadSet where
  norm : Nat
  eps  : F32
  v    : Nat
  d    : Nat
deriving DecidableEq, Repr

/-- A head set that is not configured (NORM and EPS hold Table 4.1's defaults: 1 and 2^-20). -/
def HeadSet.reset : HeadSet := { norm := 1, eps := 0x35800000, v := 0, d := 0 }

/-- Configuration of the instance and the group objects (R223, R230, R280, R363, R365). -/
structure Conf where
  base     : CfgSet
  ovl      : Tab CfgSet
  phase    : Nat
  /-- the CFG.PHASE, or the CFG.SET of a set in force, that waits for a punnet boundary at the root (R231) -/
  pend     : Option Pkt
  /-- at a member, the sets that the root has changed: the first punnet each applies to, its number and its values (R231) -/
  due      : List (Nat × Nat × CfgSet)
  regions  : Tab Region
  reserve  : Nat
  crings   : Tab CRing
  heads    : Tab HeadSet
  banks    : Tab Bank
  profs    : Tab ProfObj
  tables   : Tab TblObj
  /-- swaps applied before a placement (R313) and what each was: table key or profile object, and the generation made current -/
  tseq     : Nat
  swaps    : List (Nat × Nat × Nat)
deriving DecidableEq, Repr

/-- Configuration after reset: the defaults of Table 11.2, nothing named, nothing loaded. -/
def Conf.reset : Conf :=
  { base := { present := 0x1F, vals := CfgVals.dflt }, ovl := [], phase := 0, pend := none, due := [], regions := [], reserve := 1024,
    crings := [], heads := [], banks := [], profs := [], tables := [], tseq := 0, swaps := [] }

/-! ## Requests -/

/-- A slot-table entry (Table 12.3). `rstate`: 0 FREE, 1 OPEN, 2 HOLD, 3 PARKED, 4 EXPIRED (R236). -/
structure SlotEnt where
  gen     : Nat
  rstate  : Nat
  lost    : Bool
  lastUse : Word
  headloc : W64
  opened  : Bool
deriving DecidableEq, Repr

/-- A slot that has never been opened. Its last generation is taken as 0, so its first REQ.OPEN gives 1 (R370, DESIGN CHOICE, log 9). -/
def SlotEnt.reset : SlotEnt := { gen := 0, rstate := 0, lost := false, lastUse := 0, headloc := 0, opened := false }

/-- One valid tentative entry (R191, Table 12.6): the draft token of position CLEN + j, whether a tentative charge is held, the
grammar state after it (ring entry j + 1 of R180), its retained set, and the number of the draft that wrote it, which tells an entry from one
discarded (R191). -/
structure Tent where
  tok   : Nat
  chg   : Bool
  state : Nat
  ret   : RetSet
  ver   : Nat
deriving DecidableEq, Repr

/-- Request-scope profile fields (R227). -/
structure ReqScope where
  ngram     : Nat
  penprompt : Nat
  dlctl     : Nat
  dlinit    : Nat
  dlmin     : Nat
  dlmax     : Nat
  alo       : F16
  ahi       : F16
  ttftgoal  : Nat
  tbtgoal   : Nat
  tbtmargin : Nat
deriving DecidableEq, Repr

/-- An occupied slot of the n-gram history table (Table 12.8): its key, its followers in recording order, and its overflow blocks. -/
structure HistSlot where
  key  : Nat
  fs   : List Nat
  blks : List Nat
deriving DecidableEq, Repr

/-- A sampler context: the core (Table 12.2), the tentative ring, the bias list, the sketch and the history. The valid tentative
entries are always a run from position CLEN (R191), so the ring is the list of them. -/
structure Scx where
  gen      : Nat
  canc     : Bool
  prof     : Nat
  ovlreq   : Nat
  pgen     : Nat
  tenant   : Nat
  fill     : Nat
  tring    : Nat
  kvring   : Nat
  seed     : W64
  clen     : Nat
  promptlen : Nat
  pinmask  : Nat
  pinep    : List Half
  rs       : ReqScope
  gram     : Option Nat
  ggen     : Nat
  cstate   : Nat
  tent     : List Tent
  lhash    : W64
  rhash    : W64
  bsize    : Nat
  hashon   : Bool
  charged  : Nat
  alpha    : F32
  dlen     : Nat
  zrun     : Nat
  ngrp     : Nat
  /-- drafts stored so far, which number the tentative entries (R191) -/
  drafts   : Nat
  topen    : Word
  tlast    : Word
  ttftDone : Bool
  expiry   : W64
  strictloc : W64
  histloc  : W64
  hblkloc  : W64
  hlog2    : Nat
  bias     : List (Nat × F32)
  sketch   : List Nat
  /-- the history table by slot number, and the overflow blocks in use (R253) -/
  hist     : Tab HistSlot
  nblk     : Nat
  histPend : List (Nat × Nat)
  doubling : Bool
  /-- the last three tokens of the sequence, newest first (R137 needs n - 1 of them, n at most 4) -/
  recent   : List Nat
  /-- parts that are resident in T0, and HEAD and STRICT changed since they were last written below it (R240, R242) -/
  headRes  : Bool
  strictRes : Bool
  histRes  : Bool
  dirty    : Bool
  sdirty   : Bool
  /-- another shard has lost its COUNT part (R246) -/
  farLost  : Bool
deriving DecidableEq, Repr

/-- A context of zeros, for a slot that no REQ.OPEN has formed. -/
def Scx.zero : Scx :=
  { gen := 0, canc := false, prof := 0, ovlreq := 0, pgen := 0, tenant := 0, fill := 0, tring := 0, kvring := 0, seed := 0,
    clen := 0, promptlen := 0, pinmask := 0, pinep := [0, 0, 0, 0],
    rs := { ngram := 0, penprompt := 0, dlctl := 0, dlinit := 0, dlmin := 0, dlmax := 0, alo := 0, ahi := 0, ttftgoal := 0,
            tbtgoal := 0, tbtmargin := 0 },
    gram := none, ggen := 0, cstate := 0, tent := [], lhash := 0, rhash := 0, bsize := 0, hashon := false, charged := 0,
    alpha := 0, dlen := 0, zrun := 0, ngrp := 0, drafts := 0, topen := 0, tlast := 0, ttftDone := false, expiry := BitVec.allOnes 64,
    strictloc := 0, histloc := 0, hblkloc := 0, hlog2 := 8, bias := [], sketch := [], hist := [], nblk := 0, histPend := [],
    doubling := false, recent := [], headRes := false, strictRes := false, histRes := false, dirty := false, sdirty := false, farLost := false }

/-- This shard's COUNT part of a request (R134, R139, R252, Table 12.3). -/
structure CountPart where
  counts  : Tab Nat
  dense   : Bool
  lost    : Bool
  lastUse : Word
  loc     : W64
  res     : Bool
  dirty   : Bool
  pend    : List Nat
  /-- grammar states whose records this shard's Bramble holds in T0: grammar, generation, state (R177) -/
  bram    : List (Nat × Nat × Nat)
deriving DecidableEq, Repr

/-- An empty part, resident. -/
def CountPart.reset : CountPart :=
  { counts := [], dense := false, lost := false, lastUse := 0, loc := 0, res := true, dirty := false, pend := [], bram := [] }

/-- A tenant record (Table 13.2). -/
structure Tenant where
  bal     : Int
  rate    : Nat
  burst   : Nat
  charged : Nat
  nhold   : Nat
  limit   : Bool
deriving DecidableEq, Repr

/-- A tenant record after a cold reset (R266). -/
def Tenant.reset : Tenant := { bal := 0, rate := 0, burst := 0, charged := 0, nhold := 0, limit := false }

/-! ## Rows in flight -/

/-- Decoded descriptor (Table 2.1). -/
structure Rdesc where
  handle   : Handle
  cls      : Nat
  hset     : Nat
  hsrc     : Nat
  pos      : Nat
  draftn   : Nat
  deadline : Nat
  variant  : Nat
  ovl      : Nat
  tag      : Nat
  target   : Nat
  gidx     : Nat
  subseq   : Word
  hptr     : Nat
  tier     : Nat
  reserved : Bool
  dcrc     : Word
deriving DecidableEq, Repr

/-- Why a row is void: its first cause (R396), or none. -/
abbrev Cause := Option Nat

/-- A row admitted on this instance and without its record (R37, R22). `seq` orders admissions. `decided`: its record is settled and
stands with egress; `charged`: that record is one that was charged (R268). `home`: this instance is the row's home. `punnet`: the
punnet it was placed in. -/
structure Row where
  seq     : Nat
  rd      : Rdesc
  key     : RowKey
  admTick : Nat
  home    : Bool
  hidden  : List BF16
  logits  : List F32
  gotData : Bool
  cause   : Cause
  punnet  : Option Nat
  reserve : Nat
  decided : Bool
  charged : Bool
  auxv    : Option F32
  auxr    : Option F32
deriving DecidableEq, Repr

/-- A message whose payload is still arriving on a stream port (R51). `seq` 0: its beats are discarded. -/
structure InMsg where
  seq   : Nat
  beats : Nat
deriving DecidableEq, Repr

/-- Ingress (R50, R18): the sender's credits on each port and the messages in arrival. -/
structure Ingress where
  hinCr  : Nat
  linCr  : Nat
  grants : Bool
  hinMsg : Option InMsg
  linMsg : Option InMsg
  seq    : Nat
deriving DecidableEq, Repr

/-- An admit notice held at the root (R53). -/
structure Notice where
  shard : Nat
  dcrc  : Word
  tick  : Nat
deriving DecidableEq, Repr

/-- A row at the root's assembler (R53 to R55): its notices, the tick at which the home's came, whether it has passed the balance
test, and whether its tenant had no balance left at the home's notice (R269). `gone`: the row is answered without a place, and the
notices of its copies are discarded as they come (R37, Table 2.11); `told`: the shards that have dropped their copy. -/
structure AsmRow where
  key      : RowKey
  notices  : List Notice
  homeTick : Option Nat
  passed   : Bool
  poor     : Bool
  gone     : Bool
  told     : List Nat
deriving DecidableEq, Repr

/-- A row placed in the open punnet (R54, R226). `ovl`: effective overlay mask. `rep`: a repeated row of R77 or R150. `pins`, `profPin`:
the generations that its placement pins (R185, R229). -/
structure Placed where
  key     : RowKey
  slot    : Nat
  ovl     : Nat
  rep     : Bool
  tseq    : Nat
  issueBy : Nat
  reserve : Nat
  margin  : Nat
  depth   : Nat
  pins    : List (Nat × Nat)
  profPin : Option (Nat × Nat)
deriving DecidableEq, Repr

/-- The punnet under assembly (R54). -/
structure OpenPun where
  opened : Nat
  gather : Nat
  rows   : List Placed
deriving DecidableEq, Repr

/-- The root's assembler (R19, R53 to R55, R262). Punnet numbers count from 0 (DESIGN CHOICE, log 106). `front` and `back` hold the last times of R262, newest first. `store` counts the
bytes of the candidate store in use (R153). `repeats`: rows that wait to be placed again (R77, R150). -/
structure Asm where
  rows    : List AsmRow
  punOpen : Option OpenPun
  next    : Nat
  front   : List Nat
  back    : List Nat
  store   : Nat
  repeats : List (Nat × Nat)
deriving DecidableEq, Repr

/-- Which bank a pass uses (R91). -/
inductive PassKind where
  | active | pinned | reference
deriving DecidableEq, Repr

/-- A bank pass of a punnet (R91, R92): its bank, and the tiles still to close, in order. -/
structure Pass where
  hset  : Nat
  bank  : Nat
  epoch : Half
  kind  : PassKind
  tiles : List TileRef
deriving DecidableEq, Repr

/-- An activation vector in E4M3 codes with one scale code per 128 elements (R63). -/
structure QVec where
  codes  : List Nat
  scales : List Nat
deriving DecidableEq, Repr

/-- A row slot's vectors for one pass (R88, R115): normalised vector, activations, variant vector and its quantised form, norms. -/
structure PVec where
  hn : List BF16
  a  : QVec
  u  : List BF16
  uq : QVec
  hnN : F32
  dnN : F32
  unN : F32
  duN : F32
deriving DecidableEq, Repr

/-- Residency verdict of R249: not made yet, resident, no n-gram bans, sketch counts (and no n-gram bans), DEFER. -/
inductive Verdict where
  | unset | resident | noban | sketch | defer
deriving DecidableEq, Repr

/-- The partial result of a row on a node (Table 6.5). -/
structure PartSum where
  stat : StatB
  cand : List CandRec
  win  : WinB
  topm : List (Nat × F32)
  tgt  : Option CandRec
  /-- records of a VERIFY row's retained-set ids, in ascending id (R202) -/
  rset : List CandRec
deriving DecidableEq, Repr

/-- Side lists received for a row (R138, R202, R250, R177). `sets`: at the root, the retained set that the row is tested against. -/
structure Sides where
  counts  : List (Nat × Nat)
  biases  : List (Nat × F32)
  bans    : List Nat
  sketch  : List Nat
  ret     : Tab (List Nat)
  sets    : Tab RetSet
  grammar : Option (Nat × Nat × Nat)
deriving DecidableEq, Repr

/-- No side lists. -/
def Sides.none : Sides := { counts := [], biases := [], bans := [], sketch := [], ret := [], sets := [], grammar := Option.none }

/-- A row slot of a punnet in flight on this instance (R313). `vecs` and `sums` are keyed by pass index. `pins` lists the table
generations that the row holds from its placement (R185), as table key and generation number. -/
structure PRow where
  key     : RowKey
  slot    : Nat
  rep     : Bool
  /-- swaps applied before the placement (R313) -/
  tseq    : Nat
  /-- this shard's committed counts of the request at the placement (R134) -/
  counts  : Tab Nat
  /-- epoch of the bank that projects the row (R19, R291): kept through a second round or repeat pass (R289) -/
  epoch   : Half
  prof    : Profile
  profOk  : Bool
  profPin : Nat × Nat
  pins    : List (Nat × Nat)
  active  : Bool
  cause   : Cause
  verdict : Verdict
  anchor  : F32
  manchor : F32
  ranchor : F32
  /-- committed length at the placement, and the tentative entries before the row (R191) -/
  clen    : Nat
  before  : List Nat
  sides   : Sides
  vecs    : Tab PVec
  sums    : Tab PartSum
  thresh  : Option ThreshB
  /-- the head set whose reference pass the row needs (R220) -/
  refH    : Option Nat
  /-- a lookup that came before its commit (R182) -/
  look    : Option LkupB
  /-- the home's history lookup for the row has returned (R247) -/
  looked  : Bool
  exited  : Bool
deriving DecidableEq, Repr

/-- Logits of a tile that drain to the Selection Engine (R93): per row slot, the vocabulary ids and logits. -/
structure Drain where
  pass   : Nat
  tile   : TileRef
  logits : Tab (List (Nat × F32))
deriving DecidableEq, Repr

/-- A segment of a tile: punnet, pass, tile, number (R97). -/
structure SegRef where
  punnet : Nat
  pass   : Nat
  tile   : TileRef
  seg    : Nat
deriving DecidableEq, Repr

/-- The loader's two tile buffers (R97): the segments in the one that the array reads and in the one that fills, oldest first. -/
structure Loader where
  read : List SegRef
  fill : List SegRef
deriving DecidableEq, Repr

/-- A punnet in flight on this instance (R18, R90). `idx`: its in-flight index. `loaded`: segments that the array has read (R97).
`drains`: tiles whose finished logits drain, oldest first (R93). `auxZ` holds, by 2 * row slot + reward head, the z of R106
formed so far. `projStart`: the tick at which projection started, later the tick at which it ended (R262). -/
structure Punnet where
  num      : Nat
  idx      : Nat
  phase    : Nat
  epochs   : List Half
  rows     : List PRow
  passes   : List Pass
  closed   : Nat
  started  : Bool
  projStart : Nat
  loaded   : List (Nat × TileRef × Nat)
  badTiles : List (Nat × TileRef)
  drains   : List Drain
  /-- bank passes whose shard summary this instance has formed -/
  sent     : Nat
  auxZ     : Tab (List F32)
  acks     : List Nat
deriving DecidableEq, Repr

/-- Partials of one class gathered at this node for one row and pass (R148). `from`: the subtrees heard, this node as its own
shard index. -/
structure MergeEnt where
  punnet : Nat
  pass   : Nat
  rslot  : Nat
  mclass : Nat
  heard  : List Nat
  sum    : PartSum
deriving DecidableEq, Repr

/-- The rescore loop's state (R120): the contenders, the spill, how many were taken and re-scored, the best reply, the batch that is
out and its replies. -/
structure Loop where
  conts : List WinRec
  spill : F32
  i     : Nat
  done  : Nat
  best  : Option (F32 × RspB)
  batch : List Nat
  replies : List RspB
deriving DecidableEq, Repr

/-- The token a root row has settled on: its logit and score, its bound, and whether they come from the shadow (R143). -/
structure Chosen where
  id   : Nat
  z    : F32
  x    : F32
  eps  : F32
  shadow : Bool
deriving DecidableEq, Repr

/-- What a root row waits for. -/
inductive RStage where
  | combine
  | second
  | group
  | loop (l : Loop)
  | targets (left : List Nat) (za zr : Option RspB) (out done : Nat)
  /-- certified; the record waits for the sums of a repeat pass (Table 5.7): a token, or a SCORE row with its replies -/
  | settled
  | scored (za zr : Option RspB)
deriving DecidableEq, Repr

/-- A row at the root between close and its commit (R16 steps 6 to 8). `passes`: its bank passes in its punnet; `got`: the partials that
have come, by pass and merge class. `sums`: key 0 for its own pass, 1 for the reference pass. `elig`: the eligible set E in candidate
order, when stage 8 ran. `again`: the limit r of its second round and how many entries came back. `depth`: its bytes of the candidate
store (R153). `draw`: what is certified: 0 the row's own draw, 3 a residual draw, 19 the plain draw of R201. `pendSum`: the sums of a repeat pass of R77 are awaited,
while certification goes on; `rep`: the punnet and slot of that pass, and its bank passes there. -/
structure RootRow where
  punnet  : Nat
  rslot   : Nat
  key     : RowKey
  rd      : Rdesc
  prof    : Profile
  admTick : Nat
  reserve : Nat
  passes  : List Nat
  got     : List (Nat × Nat)
  sums    : Tab PartSum
  stage   : RStage
  cause   : Cause
  late    : Nat
  elig    : Option (List CandRec)
  trunc   : Bool
  fast    : Option Nat
  winner  : Option Chosen
  uncert  : Bool
  anchorF : Bool
  again   : Option (Nat × Nat)
  depth   : Nat
  draw    : Nat
  pendSum : Bool
  rep     : Option (Nat × Nat × List Nat)
deriving DecidableEq, Repr

/-- A commit that the home holds until its lookup or the rest of its verify group arrives (R182, R205): `need` marks a lookup that is
awaited, `look` is its result; `charge`: what the root charged for it (R268). The row's slot and the punnet's epoch stand with it, should a purge retire
the punnet (R325). -/
structure HomeCommit where
  punnet : Nat
  rslot  : Nat
  key    : RowKey
  row    : PRow
  epoch  : Half
  body   : CommitB
  need   : Bool
  look   : Option LkupB
  charge : Nat
deriving DecidableEq, Repr

/-- A rescore request at this owning instance (R122). `lane`: a lane of the Rescore Unit serves it. -/
structure Rescore where
  hdr  : Hdr
  body : RsqB
  lane : Bool
deriving DecidableEq, Repr

/-- A row in the rescore buffer (R122): its punnet and slot, whether it is its entry in the reference vector region, h_n and u as they
were read, and whether the read met an uncorrectable error. -/
structure RsRow where
  punnet : Nat
  rslot  : Nat
  ref    : Bool
  hn     : List BF16
  u      : List BF16
  bad    : Bool
deriving DecidableEq, Repr

/-! ## Egress -/

/-- A record that egress holds: its ring and words, whether it takes TSTAMP and CRC when it is issued, how many of its units are
written, the tick by which R22 requires it. `key`: the row whose TREC it is. `handle`, `sample`: the request, and whether the record
gives a latency sample (R264). `prompt`: an HREC of the prompt of this slot (R277). `hset`: the head set that EPOCHX is told from at the tick
of egress (R290). `grp`: what a row, or a verify group, has given egress at once (R17). -/
structure EgRec where
  ring   : Nat
  words  : List Word
  stamp  : Bool
  done   : Nat
  due    : Nat
  missed : Bool
  key    : Option RowKey
  handle : Handle
  sample : Bool
  prompt : Option Nat
  hset   : Option Nat
  grp    : Nat
deriving DecidableEq, Repr

/-- A TEG write without its acknowledgement (R52). -/
structure TegWrite where
  tag    : Nat
  ring   : Nat
  notify : Bool
  addr   : Nat
  words  : List Word
  retry  : Bool
  grps   : List Nat
deriving DecidableEq, Repr

/-- A record whose tokens-ready has not been issued (R264): its ring, request, whether it gives a latency sample, and its group. -/
structure Ready where
  ring   : Nat
  handle : Handle
  sample : Bool
  grp    : Nat
deriving DecidableEq, Repr

/-- What the latency samples of a request need: TOPEN, TLAST, whether TTFT has been sampled, and the two goals (R264, R265). -/
structure LatCtx where
  topen : Word
  tlast : Word
  done  : Bool
  ttft  : Nat
  tbt   : Nat
deriving DecidableEq, Repr

/-- Egress (R22, R47 to R52). `grp`: the next group. `closed`: requests that closed before the tokens-ready of their last records. -/
structure Egress where
  fabric : Nat
  queue  : List EgRec
  outst  : List TegWrite
  tag    : Nat
  ready  : List Ready
  grp    : Nat
  closed : List (Handle × LatCtx)
deriving DecidableEq, Repr

/-! ## Orchard -/

/-- State of one direction of training (R328): the lanes seen good or bad, the peer's RXOK, and DONE words exchanged. -/
structure Training where
  phase   : Nat
  good    : Tab Nat
  words   : Tab Nat
  rxok    : Nat
  peerOk  : Nat
  txmap   : Nat
  rxmap   : Nat
  wcode   : Nat
  sent    : Nat
  rcvd    : Nat
  trained : Nat
deriving DecidableEq, Repr

/-- Training that has not begun. -/
def Training.zero : Training :=
  { phase := 0, good := [], words := [], rxok := 0, peerOk := 0, txmap := 0, rxmap := 0, wcode := 0, sent := 0, rcvd := 0,
    trained := 0 }

/-- A message that waits on a channel of a port or has been delivered here: its class (Table 15.6), header and body words. -/
inductive Body where
  | admitMsg (b : AdmitB) | close (b : CloseB) | stat (b : StatB) | cand (b : List CandRec) | win (b : WinB)
  | topm (b : List (Nat × F32)) | tgt (b : Option CandRec) | thresh (b : ThreshB) | rsq (b : RsqB) | rsp (b : RspB)
  | commit (b : CommitB) | lkup (b : LkupB) | aux (b : AuxB) | side (b : SideB) | cancel (k : W64)
  | bar (barrier tag : Nat) | rel (barrier tag : Nat) | signal (b : SignalB) | cmd (b : CmdB) | event (b : EventB)
  | probe (b : ProbeB) | purge (punnet : Nat) (dbg : Bool) | disc (ovf : Bool) (entries : List DiscEnt)
deriving DecidableEq, Repr

/-- A message: header and body (R308). -/
structure Msg where
  hdr  : Hdr
  body : Body
deriving DecidableEq, Repr

/-- Link state of a port (Table 17.17): 0 disabled, 1 training, 2 up, 3 down. -/
structure Link where
  enabled : Bool
  st      : Nat
  fresh   : Bool
  asleep  : Bool
  nextSeq : Nat
  replay  : List Frame
  replays : Nat
  lastAcc : Nat
  nakSent : Bool
  credits : Tab Nat
  owed    : Tab Nat
  queues  : Tab (List Msg)
  txw     : Tab (List Word)
  rxw     : Tab (List Word)
  lanes   : Nat
  spare   : Bool
  failed  : Nat
  laneErr : Tab Nat
  frames  : Nat
  train   : Training
  peer    : Nat
deriving DecidableEq, Repr

/-- Credits after training (Table 15.4). -/
def Link.fullCredit : Tab Nat := [(0, 512), (1, 256), (2, 128), (3, 128), (4, 32)]

/-- A port after reset. -/
def Link.reset (en : Bool) : Link :=
  { enabled := en, st := if en then 1 else 0, fresh := true, asleep := false, nextSeq := 0, replay := [], replays := 0,
    lastAcc := 0xFFF, nakSent := false, credits := Link.fullCredit, owed := [], queues := [], txw := [], rxw := [], lanes := 8,
    spare := false, failed := 0, laneErr := [], frames := 0, train := Training.zero, peer := 0 }

/-- ORCH.CONFIG values (Table 15.2). -/
structure OrchCfg where
  pkg     : Nat
  porten  : Nat
  rtIn    : Nat
  rtOut   : Nat
  linkto  : Nat
  dsettle : Nat
  dlwin   : Nat
deriving DecidableEq, Repr

/-- Defaults of Table 15.2. -/
def OrchCfg.dflt : OrchCfg :=
  { pkg := 0, porten := 7, rtIn := 256, rtOut := 1024, linkto := 100, dsettle := 2000, dlwin := 20000 }

/-- A member of the shard group as this instance knows it (R304, R306): its address, its shard index, its block state. -/
structure Member where
  addr   : Nat
  shard  : Nat
  state  : Nat
  rejoin : Bool
deriving DecidableEq, Repr

/-- Orchard state (R303 to R307, R323 to R326). `moved`: the tick at which a message last moved on UP, DOWN, REQ or RSP. `known` is what discovery has learned; `loop` holds the messages addressed to
this instance itself; `parent` is the port toward the root, `parentSh` the parent's shard index; `kids` lists every descendant in the tree: its shard index, the port
toward it, and the shard index of the child that it descends from. -/
structure Orch where
  cfg      : OrchCfg
  addr     : Nat
  shard    : Nat
  n        : Nat
  member   : Bool
  members  : List Member
  rootSh   : Nat
  parent   : Option Nat
  parentSh : Nat
  kids     : List (Nat × Nat × Nat)
  known    : List DiscEnt
  ovf      : Bool
  disc     : Nat
  links    : Tab Link
  loop     : List Msg
  recent   : List Nat
  blocked  : Bool
  moved    : Nat
  /-- blocked PROBEs that the root holds: shard and lowest punnet queued there -/
  blockedBy : List (Nat × Nat)
  confirm  : List Nat
  purges   : Nat
  /-- a purge that waits until every port is up (R327) -/
  purgeDue : Bool
  /-- rows homed here that a purge made void before their commit came: punnet, row slot and key (R316, R325) -/
  purged   : List (Nat × Nat × RowKey)
  hang     : Bool
  ndl      : Nat
  dlpun    : List Nat
  stag     : Nat
  fid      : Nat
  stale    : Nat
deriving DecidableEq, Repr

/-- Orchard after a cold reset: links down, no membership (Table 18.2), the default ports enabled (Table 15.2). -/
def Orch.reset : Orch :=
  { cfg := OrchCfg.dflt, addr := 0, shard := 0, n := 1, member := false, members := [], rootSh := 0, parent := none, parentSh := 0, kids := [],
    known := [], ovf := false, disc := 0,
    links := [(0, Link.reset true), (1, Link.reset true), (2, Link.reset true), (3, Link.reset false), (4, Link.reset false)],
    loop := [], recent := [], blocked := false, moved := 0, blockedBy := [], confirm := [], purges := 0, purgeDue := false, purged := [], hang := false, ndl := 0,
    dlpun := List.replicate 8 0xFFFF, stag := 0, fid := 0, stale := 0 }

/-! ## Clocks, power, faults, repair -/

/-- Block states (Table 17.2). -/
inductive Blk where
  | boot | selftest | ready | run | drain | safe | dump
deriving DecidableEq, Repr

/-- Time base (R380 to R382). `slew`: a correction that still has to be made, in ticks. -/
structure Time where
  tclk     : W64
  slew     : Int
  lastSlew : Nat
  aligned  : Bool
  stepOk   : Bool
deriving DecidableEq, Repr

/-- Power and temperature (R389 to R392, R416). `cur`: 0 P-OFF, 1 P-RET, 2 P-IDLE, 3 P-RUN. -/
structure Power where
  cur      : Nat
  req      : Option Nat
  cap      : Nat
  capNext  : Option Nat
  capDuty  : Nat
  thLevel  : Nat
  sense    : Tab Int
  thOffset : Int
  droopHit : List Nat
  clkFail  : Bool
  capLow   : Bool
deriving DecidableEq, Repr

/-- A fault-log entry (Table 19.2). -/
structure FLog where
  cause  : Nat
  cls    : Nat
  unit   : Nat
  punnet : Nat
  handle : Option Handle
  rslot  : Nat
  tick   : Word
  pos    : Nat
  rep    : Nat
  inj    : Bool
deriving DecidableEq, Repr

/-- An armed injection target (R406). `count` 0: repeating. -/
structure Inj where
  target : Nat
  count  : Nat
  param  : Word
deriving DecidableEq, Repr

/-- Fault state (R394 to R399). -/
structure Faults where
  status  : BitVec 8
  log     : List FLog
  logNew  : Nat
  safe    : Bool
  scause  : Nat
  prior   : Nat
  stick   : Word
  inj     : List Inj
  /-- contained events per unit in the present window of 100,000 ticks (R397) -/
  unitEv  : List (Unit' × Nat × Nat)
  /-- corrected errors per SRAM array (JG_DBG_MACCNT) -/
  sramErr : Tab Nat
  /-- SAFE was entered since the instance last reached READY: its homed requests that are OPEN are in HOLD then (R401) -/
  holdOpen : Bool
deriving DecidableEq, Repr

/-- Boot status (Table 21.7) and the running image's FWREL. -/
structure Boot where
  step  : Nat
  fail  : Bool
  check : Nat
  fwrel : Word
deriving DecidableEq, Repr

/-- Windfall (R402 to R405). -/
structure Windfall where
  region  : Option Region
  held    : Bool
  running : Bool
  manual  : Bool
  cause   : Nat
  prior   : Nat
  status  : Nat
  acked   : Bool
  written : Nat
  skipped : Nat
  trig    : Nat
deriving DecidableEq, Repr

/-- No region, no capture. -/
def Windfall.reset : Windfall :=
  { region := none, held := false, running := false, manual := false, cause := 0, prior := 0, status := 0, acked := false,
    written := 0, skipped := 0, trig := 0 }

/-- A calibration overlay in force (R421), in the units of Table 20.4. -/
structure Cal where
  thadj : List Int
  tlim  : Option (Nat × Nat × Nat)
  dradj : List Int
  skadj : List Int
  seed  : W64
deriving DecidableEq, Repr

/-- No calibration. -/
def Cal.zero : Cal := { thadj := List.replicate 8 0, tlim := none, dradj := List.replicate 16 0, skadj := List.replicate 5 0, seed := 0 }

/-- Repair and self-test state (R409 to R422). Entries are 32-bit words of R417. -/
structure Repair where
  field   : List Word
  overlay : List Word
  made    : List Word
  sched   : List Unit'
  pendOv  : Option (List Word)
  cal     : Cal
  pendCal : Option Cal
  skew    : List Int
  rowErr  : List (Unit' × Nat)
  passAt  : Nat
  passEnd : Bool
  left    : List Unit'
  /-- units that a DIAG.SELFTEST pass has still to visit -/
  dleft   : List Unit'
  found   : Nat
  fixed   : Nat
  starved : Bool
deriving DecidableEq, Repr

/-- One lane generator (R162, R164): 128 cells, the bit pointer, whether the next draw steps first. `sick`: a step has shown an all-zero
state or a word equal to the one before (R167). -/
structure Lane where
  cells : BitVec 128
  ptr   : Nat
  fresh : Bool
  sick  : Bool
deriving DecidableEq, Repr

/-- Debug state (R435 to R441). -/
structure Debug where
  en       : Bool
  /-- a write of JG_DBG_EN has acted since reset: the register reads back its KEY -/
  enKey    : Bool
  tap      : Bool
  injen    : Bool
  injfatal : Bool
  qsel     : Word
  cntsel   : Nat
  sramsel  : Nat
  tridx    : Nat
  trnext   : Nat
  tren     : Bool
  trclass  : Nat
  captures : Nat
  /-- JGNET instrument registers: SIB number and last captured value (Table 21.19) -/
  tdr      : Tab Nat
  dbgenDr  : Word
  /-- low-word latch of the test access port's reads (R425, R441) -/
  latch    : Option (Nat × Word)
deriving DecidableEq, Repr

/-- Latency capture (Table 21.12). -/
structure LatCap where
  handle : Handle
  kind   : Nat
  valid  : Bool
  excess : Nat
deriving DecidableEq, Repr

/-- The pool as the root last reported it (Table 21.13, R241). -/
structure Pool where
  t1    : Nat
  t2    : Nat
  free  : Nat
  hwm   : Nat
  used  : Tab Nat
deriving DecidableEq, Repr

/-- What the block drives on its outputs, newest first: the model's own record of them (DESIGN CHOICE, log 6). -/
inductive Out where
  | teg (tag : Nat) (notify : Bool) (addr : Nat) (words : List Word)
  | credit (p : StreamPort) (n : Nat)
  | frame (port : Nat) (f : Frame)
  | training (port : Nat) (phase : Nat) (rxok txmap wcode : Nat)
  | message (p : PortId) (vec : Nat)
  | pmAck | pmNak
  | clkFail
deriving DecidableEq, Repr

/-- The state of one instance of a shard group (DESIGN CHOICE, log 11). -/
structure State where
  /-- commands that wait, first in, first out -/
  pending : List Instr
  /-- the model's own counter of free values (DESIGN CHOICE, log 4) -/
  free    : Nat
  mem     : Memory
  blk     : Blk
  boot    : Boot
  fwBase  : W64
  quar    : Bool
  time    : Time
  pwr     : Power
  cpa     : Port
  cpb     : Port
  cmdId   : Nat
  jobs    : List Job
  sems    : Tab Sem
  ctrs    : Tab Ctr
  bars    : Tab Barrier
  /-- saturating counters of the shared window, keyed by their register offset (Table 21.5) -/
  cnts    : Tab Nat
  latcap  : LatCap
  conf    : Conf
  slots   : Tab SlotEnt
  scx     : Tab Scx
  counts  : Tab CountPart
  /-- fetches of context parts that have begun (R247), by slot -/
  fetches : List (Nat × Part)
  /-- the model's own: generation, committed length and last tokens of contexts whose HEAD this instance wrote (R258, DESIGN CHOICE, log 138) -/
  tails   : Tab (Nat × Nat × List Nat)
  tenants : Tab Tenant
  ing     : Ingress
  rows    : List Row
  asm     : Asm
  puns    : List Punnet
  merges  : List MergeEnt
  roots   : List RootRow
  hcom    : List HomeCommit
  rescore : List Rescore
  loader  : Loader
  rsbuf   : List RsRow
  eg      : Egress
  orch    : Orch
  faults  : Faults
  wind    : Windfall
  rep     : Repair
  lanes   : List Lane
  dbg     : Debug
  pool    : Pool
  outs    : List Out
deriving DecidableEq, Repr

/-- Memory that lists nothing. -/
def Memory.empty : Memory := { cells := [], poison := [] }

/-- A lane generator that has not been seeded. -/
def Lane.zero : Lane := { cells := 0, ptr := 0, fresh := true, sick := false }

/-- The state right after a power-on cold reset: block state BOOT, boot step 4 waiting for GO (Table 18.4), TCLK at 0 (R380),
power state P-IDLE (Table 21.10), 64 credits on each stream port (R50), everything else as Table 18.2 and the register map give
it. Values the spec gives no reset for are zero (DESIGN CHOICE, log 2) (DESIGN CHOICE, log 45) (DESIGN CHOICE, log 46). -/
def State.reset : State :=
  { pending := [], free := 0, mem := Memory.empty, blk := .boot,
    boot := { step := 4, fail := false, check := 0, fwrel := 0 }, fwBase := 0, quar := false,
    time := { tclk := 0, slew := 0, lastSlew := 0, aligned := false, stepOk := true },
    pwr := { cur := 2, req := none, cap := 0, capNext := none, capDuty := 256, thLevel := 0, sense := [], thOffset := 0,
             droopHit := [], clkFail := false, capLow := false },
    cpa := Port.reset, cpb := Port.reset, cmdId := 0, jobs := [], sems := [], ctrs := [], bars := [], cnts := [],
    latcap := { handle := { slot := 0, gen := 0 }, kind := 0, valid := false, excess := 0 },
    conf := Conf.reset, slots := [], scx := [], counts := [], fetches := [], tails := [], tenants := [],
    ing := { hinCr := 64, linCr := 64, grants := false, hinMsg := none, linMsg := none, seq := 0 },
    rows := [],
    asm := { rows := [], punOpen := none, next := 0, front := [], back := [], store := 0, repeats := [] },
    puns := [], merges := [], roots := [], hcom := [], rescore := [], loader := { read := [], fill := [] }, rsbuf := [],
    eg := { fabric := 64, queue := [], outst := [], tag := 0, ready := [], grp := 1, closed := [] },
    orch := Orch.reset,
    faults := { status := 0, log := [], logNew := 0, safe := false, scause := 0, prior := 0, stick := 0, inj := [], unitEv := [],
                sramErr := [], holdOpen := false },
    wind := Windfall.reset,
    rep := { field := List.replicate 8 0, overlay := [], made := [], sched := [], pendOv := none, cal := Cal.zero,
             pendCal := none, skew := List.replicate 5 0, rowErr := [], passAt := 0, passEnd := true, left := [], dleft := [], found := 0,
             fixed := 0, starved := false },
    lanes := List.replicate 64 Lane.zero,
    dbg := { en := false, enKey := false, tap := false, injen := false, injfatal := false, qsel := 0, cntsel := 0, sramsel := 0, tridx := 0,
             trnext := 0, tren := false, trclass := 0, captures := 0, tdr := [], dbgenDr := 0, latch := none },
    pool := { t1 := 0, t2 := 0, free := 0, hwm := 0, used := [] },
    outs := [] }

end Sys2Proof.Machine
end

