-- ==== Sys2Proof/Machine/Ops.lean ====
section
/-! DEFINITION. Named operations over the state that the commands share: memory behind MEM, counters, interrupt causes and message
writes, faults and their log, completions, sends on Orchard, and the commands' jobs and locks. -/

namespace Sys2Proof.Machine

/-! ## Memory (R2, R5) -/

/-- Key of a byte: its tier (0: T1, 1: T2) above its 64-bit address. -/
def memKey (tier addr : Nat) : Nat := tier * 2 ^ 64 + addr % 2 ^ 64

/-- The byte a list of cells holds at a key; an unlisted byte reads as zero (DESIGN CHOICE, log 7). -/
def cellAt : List Host.Cell → Nat → Byte
  | [], _ => 0
  | (a, b) :: r, k => if k = a then b else cellAt r k

/-- The cells of a byte string stored at a key: zeros are not listed. -/
def newCells : Nat → List Byte → List Host.Cell
  | _, [] => []
  | k, b :: r => if b = 0 then newCells (k + 1) r else (k, b) :: newCells (k + 1) r

/-- The canonical form: keys strictly rising, no cell that reads as an unlisted byte does. -/
abbrev Memory.wf (m : Memory) : Prop := m.cells.Pairwise (fun a b => a.1 < b.1) ∧ ∀ c ∈ m.cells, c.2 ≠ 0

/-- One byte. -/
def Memory.byte (m : Memory) (k : Nat) : Byte := cellAt m.cells k

/-- A byte string. -/
def Memory.bytes (m : Memory) (k n : Nat) : List Byte := (List.range n).map (fun i => m.byte (k + i))

/-- A little-endian number of `n` bytes. -/
def Memory.num (m : Memory) (k n : Nat) : Nat := leNat (m.bytes k n)

/-- A 32-bit word. -/
def Memory.word (m : Memory) (k : Nat) : Word := BitVec.ofNat 32 (m.num k 4)

/-- A run of 32-bit words. -/
def Memory.words (m : Memory) (k n : Nat) : List Word := (List.range n).map (fun i => m.word (k + 4 * i))

/-- A byte string stored; a line wholly overwritten holds no error any more. -/
def Memory.store (m : Memory) (k : Nat) (bs : List Byte) : Memory :=
  { cells := m.cells.filter (fun c => decide (c.1 < k)) ++ newCells k bs
      ++ m.cells.filter (fun c => decide (k + bs.length ≤ c.1)),
    poison := m.poison.filter (fun l => !(decide (k ≤ 64 * l) && decide (64 * l + 64 ≤ k + bs.length))) }

/-- A read of `n` bytes meets an uncorrectable error. -/
def Memory.bad (m : Memory) (k n : Nat) : Bool := m.poison.any (fun l => decide (64 * l < k + n) && decide (k < 64 * l + 64))

/-- Bytes stored to memory. -/
def State.store (s : State) (k : Nat) (bs : List Byte) : State := { s with mem := s.mem.store k bs }

/-- Words stored to memory. -/
def State.storeWords (s : State) (k : Nat) (ws : List Word) : State := s.store k (wordsBytes ws)

/-! ## Time and identity -/

/-- The TCLK tick now (R380). -/
def State.now (s : State) : Nat := s.time.tclk.toNat

/-- The instance is the root of its group; an instance alone is its own root (R304). -/
def State.isRoot (s : State) : Bool := decide (s.orch.shard = s.orch.rootSh)

/-- The home of a slot is this instance (R236). -/
def State.isHome (s : State) (slot : Nat) : Bool := decide (slot % s.orch.n = s.orch.shard)

/-- Shard index of a slot's home (R236). -/
def State.homeOf (s : State) (slot : Nat) : Nat := slot % s.orch.n

/-- The instance runs: not in a clock failure (R379), not held by quarantine (R385), not in P-RET or P-OFF (R389) (DEDUCED, log 108). -/
def State.live (s : State) : Bool := !s.pwr.clkFail && !s.quar && decide (2 ≤ s.pwr.cur)

/-- The units that compute are running: live and in a block state that serves rows or configuration, not in SAFE (R399). -/
def State.working (s : State) : Bool := s.live && decide (s.blk = .ready ∨ s.blk = .run ∨ s.blk = .drain ∨ s.blk = .dump)

/-! ## Counters of the shared window (R426) -/

/-- A 32-bit counter advanced; it stops at its maximum. -/
def State.bumpN (s : State) (off n : Nat) : State := { s with cnts := Tab.upd s.cnts off 0 (fun v => satAdd (2 ^ 32 - 1) v n) }

/-- A 32-bit counter advanced by one. -/
def State.bump (s : State) (off : Nat) : State := s.bumpN off 1

/-- A 64-bit counter advanced by one. -/
def State.bump64N (s : State) (off n : Nat) : State := { s with cnts := Tab.upd s.cnts off 0 (fun v => satAdd (2 ^ 64 - 1) v n) }

/-- A counter's value. -/
def State.cnt (s : State) (off : Nat) : Nat := Tab.get s.cnts off 0

def offFault (f : Nat) : Nat := 0x460 + 4 * f
def offEvt (b : Nat) : Nat := 0x480 + 4 * b
def offCertFast : Nat := 0x500
def offCertLoop : Nat := 0x504
def offRescore : Nat := 0x508
def offOverride : Nat := 0x50C
def offCapx : Nat := 0x510
def offTimex : Nat := 0x514
def offDoubtx : Nat := 0x518
def offEmptyRow : Nat := 0x520
def offNgramOvf : Nat := 0x524
def offRefMiss : Nat := 0x528
def offNoisex : Nat := 0x52C
def offTtftS : Nat := 0x540
def offTtftM : Nat := 0x544
def offTbtS : Nat := 0x548
def offTbtM : Nat := 0x54C
def offDlMiss : Nat := 0x550
def offTbtHist (b : Nat) : Nat := 0x580 + 4 * b
def offRec (k : Nat) : Nat := 0x5C0 + 8 * k
def offRetChg : Nat := 0x5F8
def offLateCommit : Nat := 0x634
def offStale : Nat := 0x638
def offRetrain (p : Nat) : Nat := 0x63C + 4 * p
def offIngRej : Nat := 0x680
def offUndeliv : Nat := 0x684
def offInj : Nat := 0x688
def offChkFail : Nat := 0x68C
def offRepair : Nat := 0x690
def offDroop : Nat := 0x694
def offEvent (c : Nat) : Nat := 0x800 + 4 * c
def offVoid (c : Nat) : Nat := 0xC00 + 4 * c

/-! ## Ports and interrupts (R344, R345, R428, R429) -/

/-- A port. -/
def State.port (s : State) : PortId → Port
  | .cpa => s.cpa
  | .cpb => s.cpb

/-- A port replaced. -/
def State.setPort (s : State) (p : PortId) (q : Port) : State :=
  match p with
  | .cpa => { s with cpa := q }
  | .cpb => { s with cpb := q }

/-- A ring of a port. -/
def Port.ring (p : Port) (n : Nat) : Ring := Tab.get p.rings n Ring.reset

/-- A ring replaced. -/
def Port.setRing (p : Port) (n : Nat) (r : Ring) : Port := { p with rings := Tab.set p.rings n r }

/-- A ring named by a reference. -/
def State.ring (s : State) (r : RingRef) : Ring := (s.port r.port).ring r.ring

/-- A ring named by a reference, replaced. -/
def State.setRing (s : State) (r : RingRef) (q : Ring) : State := s.setPort r.port ((s.port r.port).setRing r.ring q)

/-- The vector a cause is routed to (Table 21.1). -/
def Port.route (p : Port) (b : Nat) : Nat := if b < 8 then bitsAt p.route0 (4 * b) 4 else bitsAt p.route1 (4 * (b - 8)) 4

/-- The pending summary of one vector (R345, R429). -/
def Port.sumBit (p : Port) (v : Nat) : Bool :=
  (List.range 15).any (fun b => bitAt p.intStatus b && !bitAt p.intMask b && decide (p.route b = v))
  || (!bitAt p.intMask 15 && (List.range 64).any (fun n => bitAt p.cqPend n && decide ((p.ring n).vec = v)))

/-- All pending summaries, JG_INT_PEND. -/
def Port.summary (p : Port) : BitVec 16 :=
  (List.range 16).foldl (fun a v => if p.sumBit v then a ||| BitVec.ofNat 16 (2 ^ v) else a) 0

/-- INTA or INTB (R345): pending causes unmasked, with line delivery (DESIGN CHOICE, log 109). -/
def Port.intLine (p : Port) : Bool := decide (p.mode ≠ 1) && decide (p.summary ≠ 0)

/-- A vector whose message is written: message delivery on and its address not off (R345, Table 21.4). -/
def Port.msgOn (p : Port) (v : Nat) : Bool := decide (p.mode ≠ 0) && decide (bitsAt (Tab.get p.msga v 3) 0 2 ≤ 1)

/-- The vectors that a change makes send a message: those whose summary goes from 0 to 1, and after a W1C write those whose summary
stays nonzero (R345). -/
def Port.dueVecs (p : Port) (w1c : Bool) : List Nat :=
  (List.range 16).filter (fun v => p.sumBit v && (w1c || !bitAt p.vpend v) && p.msgOn v)

/-- A port after its pending summaries have changed: messages due are issued (DESIGN CHOICE, log 55). -/
def Port.refresh (p : Port) (w1c : Bool) : Port :=
  { p with vpend := p.summary, msgOut := p.msgOut ++ (p.dueVecs w1c).map (fun v => (v, false)) }

/-- The pending summaries of a port brought up to date, with the messages this sends. -/
def State.refresh (s : State) (pid : PortId) (w1c : Bool) : State :=
  let p := s.port pid
  { s.setPort pid (p.refresh w1c) with outs := (p.dueVecs w1c).reverse.map (fun v => Out.message pid v) ++ s.outs }

/-- A cause set in one port (R344). -/
def State.setCause1 (s : State) (pid : PortId) (b : Nat) : State :=
  let p := s.port pid
  (s.setPort pid { p with intStatus := p.intStatus ||| BitVec.ofNat 15 (2 ^ b) }).refresh pid false

/-- A shared cause set in both ports at once; its companion counter counts the set once (R428). -/
def State.setCause (s : State) (b : Nat) : State := ((s.setCause1 .cpa b).setCause1 .cpb b).bump (offEvt b)

/-- A cause of one port alone (cause 13). -/
def State.setCauseOne (s : State) (pid : PortId) (b : Nat) : State := (s.setCause1 pid b).bump (offEvt b)

/-! Causes of Table 21.2. -/
def cSafe : Nat := 0
def cFault : Nat := 1
def cDlMiss : Nat := 2
def cTtft : Nat := 3
def cTbt : Nat := 4
def cIngRej : Nat := 5
def cPoolFull : Nat := 6
def cOlink : Nat := 7
def cDeadlock : Nat := 8
def cHang : Nat := 9
def cThermal : Nat := 10
def cEpoch : Nat := 11
def cDeferred : Nat := 12
def cRingErr : Nat := 13
def cDump : Nat := 14

/-! ## Faults (R394 to R397) -/

/-- The class of a cause code (Table 19.1). -/
def causeClass (c : Nat) : Nat := if c < 0x10 then 0 else if c < 0x30 then 1 else if c < 0x40 then 3 else 2

/-- REQ.RELEASE can return a request that this VOID took to HOLD (Table 19.1). -/
def causeReleasable (c : Nat) : Bool := decide (c ≠ 0x13 ∧ c ≠ 0x14 ∧ c ≠ 0x1F)

/-- A flag of JG_FAULT_STATUS set, its companion counter advanced (Table 21.9, R7). -/
def State.setFault (s : State) (f : Nat) : State :=
  ({ s with faults := { s.faults with status := s.faults.status ||| BitVec.ofNat 8 (2 ^ f) } }).bump (offFault f)

/-- What a fault names, beside its cause (Table 19.2). -/
structure Site where
  unit   : Nat
  punnet : Nat
  handle : Option Handle
  rslot  : Nat
  pos    : Nat
  inj    : Bool
deriving DecidableEq, Repr

/-- A fault that names nothing. -/
def Site.none : Site := { unit := 0x3F, punnet := 0xFFFF, handle := Option.none, rslot := 0xFF, pos := 0, inj := false }

/-- A fault at a row of a punnet. -/
def Site.row (punnet : Nat) (k : RowKey) (rslot : Nat) : Site :=
  { unit := 0x3F, punnet := punnet, handle := some k.handle, rslot := rslot, pos := k.pos, inj := false }

/-- A fault at a row without a punnet. -/
def Site.key (k : RowKey) : Site := Site.row 0xFFFF k 0xFF

/-- A fault-log entry written: equal newest entries fold, a full log overwrites its oldest entry and sets the wrap flag (R397). -/
def State.logFault (s : State) (c : Nat) (x : Site) : State :=
  let e : FLog := { cause := c, cls := causeClass c, unit := x.unit % 64, punnet := x.punnet, handle := x.handle, rslot := x.rslot,
                    tick := BitVec.ofNat 32 s.now, pos := x.pos, rep := 0, inj := x.inj }
  match s.faults.log with
  | [] => { s with faults := { s.faults with log := [e], logNew := 0 } }
  | h :: r =>
    if h.cause = c ∧ h.unit = e.unit ∧ h.punnet = e.punnet then
      { s with faults := { s.faults with log := { h with rep := min 127 (h.rep + 1) } :: r } }
    else
      let s1 := { s with faults := { s.faults with log := (e :: h :: r).take 256, logNew := (s.faults.logNew + 1) % 256 } }
      if 256 ≤ (h :: r).length then s1.setFault 4 else s1

/-- A corrected event: counted, flag CORR (R394). -/
def State.corrected (s : State) (c : Nat) : State := (s.bump (offEvent c)).setFault 0

/-- A contained event: counted, logged, flag CONT, interrupt cause FAULT (R394, Table 21.2). -/
def State.contained (s : State) (c : Nat) (x : Site) : State :=
  (((s.bump (offEvent c)).logFault c x).setFault 1).setCause cFault

/-- A contained event at a unit: the unit's events of the last 100,000 ticks are kept (R397). -/
def State.unitEvent (s : State) (u : Unit') : State :=
  let old := s.faults.unitEv.filter (fun e => e.1 = u ∧ s.now < e.2.1 + 100000)
  let rest := s.faults.unitEv.filter (fun e => e.1 ≠ u)
  { s with faults := { s.faults with unitEv := rest ++ old ++ [(u, s.now, 1)] } }

/-- How many events of a unit stand in the window. -/
def State.unitEvents (s : State) (u : Unit') : Nat := (s.faults.unitEv.filter (fun e => e.1 = u ∧ s.now < e.2.1 + 100000)).length

/-- A VOID record's cause counted once (R396); a class 3 cause sets ROWVOID (Table 21.9). -/
def State.countVoid (s : State) (c : Nat) : State :=
  let s1 := s.bump (offVoid c)
  if causeClass c = 3 then s1.setFault 3 else s1

/-- A free value of the model, one for each use (DESIGN CHOICE, log 4). -/
def State.takeFree (s : State) : Word × State := (Config.freeWord s.free, { s with free := s.free + 1 })

/-- An output driven. -/
def State.drive (s : State) (o : Out) : State := { s with outs := o :: s.outs }

/-! ## Injection (R406, R407) -/

/-- A target is armed. -/
def State.armed (s : State) (t : Nat) : Option Inj := s.faults.inj.find? (fun i => i.target = t)

/-- A target fires: its count falls, the injection counter advances (R406, R407) (DESIGN CHOICE, log 117). -/
def State.fire (s : State) (t : Nat) : State :=
  let inj := s.faults.inj.filterMap (fun i =>
    if i.target ≠ t then some i else if i.count = 0 then some i else if i.count = 1 then none else some { i with count := i.count - 1 })
  ({ s with faults := { s.faults with inj := inj } }).bump offInj

/-! ## Orchard sends (R309, Table 15.6) -/

/-- The virtual channel of a message class (Table 15.6): 0 UP, 1 DOWN, 2 REQ, 3 RSP, 4 CTL. -/
def Body.vc : Body → Nat
  | .admitMsg _ => 0
  | .close _ => 1
  | .stat _ => 0
  | .cand _ => 0
  | .win _ => 0
  | .topm _ => 0
  | .tgt _ => 0
  | .thresh _ => 1
  | .rsq _ => 2
  | .rsp _ => 3
  | .commit _ => 1
  | .lkup _ => 3
  | .aux _ => 3
  | .side _ => 2
  | .cancel _ => 1
  | .bar _ _ => 4
  | .rel _ _ => 4
  | .signal _ => 4
  | .cmd _ => 4
  | .event _ => 4
  | .probe _ => 4
  | .purge _ _ => 4
  | .disc _ _ => 4

/-- A header (R308). -/
def State.hdr (s : State) (dst : Nat) (bcast : Bool) (punnet rslot pass : Nat) (h : Handle) : Hdr :=
  { src := s.orch.shard, dst := dst, bcast := bcast, doubt := false, punnet := punnet, rslot := rslot, pass := pass, handle := h,
    hops := 0, parity := false }

/-- The handle of messages that name no request. -/
def noHandle : Handle := { slot := 0, gen := 0 }

/-- A link of a port. -/
def Orch.link (o : Orch) (p : Nat) : Link := Tab.get o.links p (Link.reset false)

/-- A link replaced. -/
def Orch.setLink (o : Orch) (p : Nat) (l : Link) : Orch := { o with links := Tab.set o.links p l }

/-- A message put on the queue of its channel at a port (R309). -/
def Orch.enqueue (o : Orch) (p : Nat) (m : Msg) : Orch :=
  let l := o.link p
  o.setLink p { l with queues := Tab.upd l.queues m.body.vc [] (· ++ [m]) }

/-- The port a message for a shard leaves by: down to a descendant, else up (R309). -/
def Orch.portTo (o : Orch) (dst : Nat) : Option Nat :=
  match o.kids.find? (fun k => k.1 = dst) with
  | some k => some k.2.1
  | none => o.parent

/-- The ports of the children in the tree. -/
def Orch.kidPorts (o : Orch) : List Nat := (o.kids.filter (fun k => k.1 = k.2.2)).map (fun k => k.2.1)

/-- A message sent point to point; one for this instance itself stands in `loop`. -/
def Orch.route (o : Orch) (m : Msg) : Orch :=
  if m.hdr.dst = o.shard then { o with loop := o.loop ++ [m] }
  else match o.portTo m.hdr.dst with
    | some p => o.enqueue p m
    | none => o

/-- A message sent down the tree, to every instance below and to this one (R309). -/
def Orch.spread (o : Orch) (m : Msg) : Orch :=
  let o1 := o.kidPorts.foldl (fun o p => o.enqueue p m) o
  { o1 with loop := o1.loop ++ [m] }

/-- A message sent down the tree past this instance. -/
def Orch.spreadBelow (o : Orch) (m : Msg) : Orch := o.kidPorts.foldl (fun o p => o.enqueue p m) o

/-- A point-to-point message sent. -/
def State.sendMsg (s : State) (m : Msg) : State := { s with orch := s.orch.route m }

/-- A broadcast sent. -/
def State.bcast (s : State) (m : Msg) : State := { s with orch := s.orch.spread m }

/-- A broadcast to the other members alone. -/
def State.bcastOthers (s : State) (m : Msg) : State := { s with orch := s.orch.spreadBelow m }

/-- A body sent to a shard with no row named. -/
def State.sendTo (s : State) (dst : Nat) (b : Body) : State := s.sendMsg { hdr := s.hdr dst false 0 0 0 noHandle, body := b }

/-- A message that has arrived leaves `loop` if it stood there (DESIGN CHOICE, log 81). -/
def State.arrive (s : State) (m : Msg) : State := { s with orch := { s.orch with loop := s.orch.loop.erase m } }

/-! ## Completions (R338, R340, R343) -/

/-- Status codes (Table 16.11). -/
def stDone : Nat := 0x00
def stAccepted : Nat := 0x01
def stBadOpcode : Nat := 0x10
def stBadParam : Nat := 0x11
def stNoSpace : Nat := 0x12
def stNotOwner : Nat := 0x13
def stWrongState : Nat := 0x14
def stBusyRetry : Nat := 0x15
def stExpired : Nat := 0x16
def stAbandoned : Nat := 0x20
def stFault : Nat := 0x30
def stSafeState : Nat := 0x31

/-- What a completion carries beside the packet's own fields. -/
structure Cpl where
  status : Nat
  res0   : Word
  res1   : Nat
  detail : Nat
deriving DecidableEq, Repr

/-- A completion with its status alone. -/
def Cpl.of (status detail : Nat) : Cpl := { status := status, res0 := 0, res1 := 0, detail := detail }

/-- DONE with its results. -/
def Cpl.done (res0 : Word) (res1 : Nat) : Cpl := { status := stDone, res0 := res0, res1 := res1, detail := 0 }

/-- The four words of a completion entry (Table 16.6). -/
def cplWords (tag : Word) (opcode : Half) (ring : Nat) (final : Bool) (phase : Nat) (c : Cpl) : List Word :=
  [tag,
   BitVec.ofNat 32 (opcode.toNat + putBits (ring % 64) 16 + putBits (b2n final) 22 + putBits (phase % 2) 23 + putBits (c.status % 256) 24),
   c.res0,
   BitVec.ofNat 32 (c.res1 % 2 ^ 16 + putBits (c.detail % 256) 16)]

/-- The phase of CQ index i: 1 on the first pass, inverted on each wrap (R338). -/
def cqPhase (r : Ring) (i : Nat) : Nat := 1 - (i / 2 ^ r.cqlog) % 2

/-- A completion entry with its phase set. -/
def withPhase (ws : List Word) (ph : Nat) : List Word :=
  setAt ws 1 (BitVec.ofNat 32 ((ws.getD 1 0).toNat + putBits (ph % 2) 23))

/-- A completion issued to a ring: its write is queued behind the ring's earlier ones, and its phase is that of the slot it is
written at (R338, R343). A command that the ring has forgotten
(port reset, R351) completes nowhere. -/
def Ring.complete (r : Ring) (ringNo id : Nat) (final : Bool) (c : Cpl) : Ring :=
  match r.outst.find? (fun o => o.id = id) with
  | none => r
  | some o =>
    { r with
      cqw := r.cqw ++ [{ id := id, words := cplWords o.tag o.opcode ringNo final 0 c, final := final, intr := !o.noint,
                         retry := false }] }

/-- A completion sent where the command came from: its ring, or the instance that forwarded it (R350). A member's copy of a group
command completes nowhere. -/
def State.complete (s : State) (o : Origin) (final : Bool) (c : Cpl) : State :=
  match o with
  | .ring r id => s.setRing r ((s.ring r).complete r.ring id final c)
  | .fwd sh p ring fid =>
    s.sendTo sh (.cmd (.cpl p ring fid { status := c.status, final := final, res0 := c.res0, res1 := BitVec.ofNat 16 c.res1, detail := c.detail }))
  | .member => s

/-- A final completion. -/
def State.finish (s : State) (o : Origin) (c : Cpl) : State := s.complete o true c

/-! ## Jobs and locks (R350) -/

/-- The objects that commands lock: a kind and a number. -/
def objBank (h slot : Nat) : Nat × Nat := (1, 4 * h + slot)
def objTable (kind num : Nat) : Nat × Nat := (2, 256 * kind + num)
def objProf (n : Nat) : Nat × Nat := (3, n)
def objPhase : Nat × Nat := (4, 0)
def objReq (slot : Nat) : Nat × Nat := (5, slot)
def objHead (h : Nat) : Nat × Nat := (6, h)
def objGroup : Nat × Nat := (7, 0)
def objDump : Nat × Nat := (8, 0)
def objSelf : Nat × Nat := (9, 0)

/-- An object is locked by a command that has not completed. -/
def State.locked (s : State) (k : Nat × Nat) : Bool := s.jobs.any (fun j => j.lock = some k)

/-- A command that goes on after its start. -/
def State.addJob (s : State) (j : Job) : State := { s with jobs := s.jobs ++ [j] }

/-- The jobs that satisfy a test complete alike. -/
def State.endJobs (s : State) (p : Job → Bool) (c : Job → Cpl) : State :=
  (s.jobs.filter p).foldl (fun s j => s.finish j.origin (c j)) { s with jobs := s.jobs.filter (fun j => !p j) }

/-- The SYNC.SIGNAL commands aimed at an instance that was reset, is in SAFE or cannot be reached complete with ABANDONED (Table 15.10). -/
def State.signalsGone (s : State) (sh : Nat) : State :=
  s.endJobs (fun j => match j.kind with
    | .signal _ t => decide (t = sh)
    | _ => false) (fun _ => Cpl.of stAbandoned 0)

/-- The port a command was issued on. -/
def Origin.port : Origin → PortId
  | .ring r _ => r.port
  | .fwd _ p _ _ => p
  | .member => .cpa

/-- Owner code of a port (Table 16.7, R320). -/
def portCode : PortId → Nat
  | .cpa => 1
  | .cpb => 2

end Sys2Proof.Machine
end

