-- ==== Sys2Proof/Machine/Operands.lean ====
section
/-! DEFINITION. Operand forms of command packets: parameter words, address words, handles, and what a command's descriptor says of
it (spec/16_control_ports.md, spec/17_command_reference.md). -/

namespace Sys2Proof

/-- Parameter word Pn (R356). -/
def Pkt.p (pk : Pkt) (n : Nat) : Word := pk.params.getD n 0

/-- The 64-bit parameter Pn:Pn+1 (R356). -/
def Pkt.p64 (pk : Pkt) (n : Nat) : W64 := join64 (pk.p n) (pk.p (n + 1))

/-- A field of a parameter word. -/
def Pkt.fld (pk : Pkt) (n lo len : Nat) : Nat := bitsAt (pk.p n) lo len

/-- OPCODE (Table 16.5). -/
def Pkt.opcode (pk : Pkt) : Half := BitVec.ofNat 16 pk.w0.toNat

/-- FENCE. -/
def Pkt.fence (pk : Pkt) : Bool := bitAt pk.w0 16

/-- NOINT. -/
def Pkt.noint (pk : Pkt) : Bool := bitAt pk.w0 17

/-- The fifteen words that KCRC covers. -/
def Pkt.body (pk : Pkt) : List Word := pk.w0 :: pk.tag :: (List.range 13).map pk.p

/-- KCRC holds (Table 16.5). -/
def Pkt.kcrcOk (pk : Pkt) : Bool := decide (pk.kcrc = Machine.crcWords pk.body)

/-- The handle in P0 [23:0] (R36, R371). -/
def Pkt.handle (pk : Pkt) : Handle := { slot := pk.fld 0 0 16, gen := pk.fld 0 16 8 }

/-- Reserved bits of the packet are zero: `masks` lists the bits each parameter word names, from P0 (R356). -/
def Pkt.clean (pk : Pkt) (masks : List Nat) : Bool :=
  decide (bitsAt pk.w0 18 14 = 0)
  && (List.range 13).all (fun i => decide ((pk.p i).toNat &&& (0xFFFFFFFF ^^^ masks.getD i 0) = 0))

end Sys2Proof

namespace Sys2Proof.Machine

/-- All 32 bits of a word. -/
def all32 : Nat := 0xFFFFFFFF

/-- Memory key of an address word (Table 17.1). -/
def addrKey (w : W64) : Nat := memKey (w.toNat % 4) (w.toNat / 64 * 64)

/-- V of an address word. -/
def addrV (w : W64) : Bool := bitAt w 2

/-- An address word that is present and well formed: TIER 0 or 1, V set, bits [5:3] zero; `t1`: T1 only (Table 17.4, 0x04). -/
def addrOk (t1 : Bool) (w : W64) : Bool :=
  decide (bitsAt w 0 2 ≤ (if t1 then 0 else 1)) && addrV w && decide (bitsAt w 3 3 = 0)

/-- An optional address word: absent (all zero but for address bits that are not used), or well formed. -/
def addrOptOk (t1 : Bool) (w : W64) : Bool := if addrV w then addrOk t1 w else decide (bitsAt w 3 3 = 0 ∧ bitsAt w 0 2 ≤ 1)

/-- The key of a ring's base register (Table 16.2). -/
def ringBase (w : W64) : Nat := memKey (w.toNat % 4) (w.toNat / 4096 * 4096)

/-- Scopes (Table 17.3). -/
inductive Scope where
  | local_
  | group
  | home
deriving DecidableEq, Repr

/-- What the command reference says of one command: its opcode, the block states of Table 17.2 in which it is legal, its scope,
whether it can return ACCEPTED, its parameter checks (a DETAIL on failure), the checks of its object at the instance that serialises
it, the object it locks, and its effect. -/
structure Desc where
  opcode  : Nat
  legal   : List Blk
  scope   : Pkt → Scope
  accepts : Bool
  bad     : Pkt → State → Option Nat
  pre     : Origin → Pkt → State → Option Cpl
  lock    : Pkt → State → Option (Nat × Nat)
  run     : Origin → Pkt → State → State

/-- Block states in which commands marked "RDY RUN DRN" are legal. -/
def rdyRunDrn : List Blk := [.ready, .run, .drain]

/-- Block states of commands marked "All but DUMP". -/
def allButDump : List Blk := [.ready, .run, .drain, .safe]

/-- Block states of commands marked "All". -/
def allStates : List Blk := [.ready, .run, .drain, .safe, .dump]

/-- A command with no parameter checks beyond its reserved bits. -/
def noBad (masks : List Nat) : Pkt → State → Option Nat := fun pk _ => if pk.clean masks then none else some 0

/-- A command without an object check. -/
def noPre : Origin → Pkt → State → Option Cpl := fun _ _ _ => none

/-- A command without a lock. -/
def noLock : Pkt → State → Option (Nat × Nat) := fun _ _ => none

/-- The opcodes that release J2 defines (Table 17.5 to Table 17.18). -/
def definedOpcode (op : Nat) : Bool :=
  let n := op % 256
  match op / 256 with
  | 1 => decide (n ≤ 6)
  | 2 => decide (n ≤ 5)
  | 3 => decide (n ≤ 2)
  | 4 => decide (n ≤ 3)
  | 5 => decide (n ≤ 6)
  | 6 => decide (n ≤ 6)
  | 7 => decide (n ≤ 1)
  | 8 => decide (n ≤ 9)
  | 9 => decide (n ≤ 3)
  | 10 => decide (n ≤ 3)
  | 11 => decide (n ≤ 3)
  | 12 => decide (n ≤ 3)
  | _ => false

/-- Opcodes legal in SAFE (R375): those marked "All" or "All but DUMP", and DUMP.ACK. -/
def safeOpcode (op : Nat) : Bool :=
  [0x0100, 0x0101, 0x0808, 0x0809, 0x0903, 0x0A02, 0x0A03, 0x0C01, 0x0C03].contains op

/-- First failing test of a list: its DETAIL. -/
def firstBad : List (Bool × Nat) → Option Nat
  | [] => none
  | (b, d) :: r => if b then some d else firstBad r

/-- First failing test of a list: its completion. -/
def firstCpl : List (Bool × Cpl) → Option Cpl
  | [] => none
  | (b, c) :: r => if b then some c else firstCpl r

end Sys2Proof.Machine
end

