-- ==== Sys2Proof/Machine/Records.lean ====
section
/-! DEFINITION. Row descriptors as they are read, and token and side records as egress writes them (Table 2.1 to Table 2.6). -/

namespace Sys2Proof.Machine

/-- A Nat as a word. -/
def w32 (n : Nat) : Word := BitVec.ofNat 32 n

/-- A handle as the low 24 bits of a word (R36). -/
def handleNat (h : Handle) : Nat := h.slot % 2 ^ 16 + putBits (h.gen % 256) 16

/-- A handle read from bits [23:0]. -/
def handleOf (w : Word) : Handle := { slot := bitsAt w 0 16, gen := bitsAt w 16 8 }

/-- The fields of a descriptor beat (Table 2.1). -/
def rdescOf (ws : List Word) : Rdesc :=
  let w := fun i => ws.getD i 0
  let hp := join64 (w 6) (w 7)
  { handle := handleOf (w 0), cls := bitsAt (w 0) 24 3, hset := bitsAt (w 0) 27 2, hsrc := bitsAt (w 0) 29 2,
    pos := bitsAt (w 1) 0 24, draftn := bitsAt (w 1) 24 5,
    deadline := bitsAt (w 2) 0 24, variant := bitsAt (w 2) 24 7,
    ovl := bitsAt (w 3) 0 15, tag := bitsAt (w 3) 16 16,
    target := bitsAt (w 4) 0 24, gidx := bitsAt (w 4) 24 5,
    subseq := w 5, hptr := bitsAt hp 0 62, tier := bitsAt hp 62 2,
    reserved := bitAt (w 0) 31 || decide (bitsAt (w 1) 29 3 ≠ 0) || bitAt (w 2) 31 || bitAt (w 3) 15
      || decide (bitsAt (w 4) 29 3 ≠ 0) || (span 8 7).any (fun i => decide (w i ≠ 0)),
    dcrc := w 15 }

/-- DCRC holds (R37). -/
def dcrcOk (ws : List Word) : Bool := decide (ws.getD 15 0 = crcWords ((List.range 15).map (fun i => ws.getD i 0)))

/-- A descriptor holds a reserved value (R10, R21, R36): a reserved bit, a reserved class, variant or tier, a target above 2^21, a
draft count or group index outside its class. TIER and HPTR are read only where HSRC is 1 (DESIGN CHOICE, log 145). -/
def Rdesc.bad (r : Rdesc) : Bool :=
  r.reserved || decide (5 ≤ r.cls) || decide (64 ≤ r.variant ∧ r.variant < 127)
  || decide (r.hsrc = 1 ∧ (2 ≤ r.tier ∨ r.hptr % 64 ≠ 0))
  || (if r.cls = 4 then decide (2 ^ 21 ≤ r.target) else false)
  || (if r.cls = 3 then decide (r.draftn = 0 ∨ 16 < r.draftn ∨ r.draftn < r.gidx) else decide (r.draftn ≠ 0 ∨ r.gidx ≠ 0))

/-- What names the row (R38, Table 2.11). -/
def Rdesc.key (r : Rdesc) : RowKey := { handle := r.handle, pos := r.pos, cls := r.cls, gidx := r.gidx }

/-- KIND codes (Table 2.3). -/
def kToken : Nat := 0
def kVoid : Nat := 1
def kDefer : Nat := 2
def kDropped : Nat := 3
def kHold : Nat := 4
def kEnd : Nat := 5
def kScore : Nat := 6

/-- Row classes (Table 1.3). -/
def clDecode : Nat := 0
def clFirst : Nat := 1
def clDraft : Nat := 2
def clVerify : Nat := 3
def clScore : Nat := 4

/-- The content of a TREC but its time stamp and CRC (Table 2.2). -/
structure Trec where
  handle  : Handle
  kind    : Nat
  pos     : Nat
  flags   : Nat
  token   : Nat
  nacc    : Nat
  logprob : F32
  lpbnd   : F16
  entropy : BF16
  epoch   : Half
  nhrec   : Nat
  crec    : Bool
  xrec    : Bool
  vrec    : Bool
deriving DecidableEq, Repr

/-- The words of a TREC, with TSTAMP and ECC still zero. -/
def trecWords (t : Trec) : List Word :=
  [BitVec.ofNat 32 (handleNat t.handle + putBits (t.kind % 8) 24),
   BitVec.ofNat 32 (t.pos % 2 ^ 24 + putBits (t.flags % 128) 24),
   BitVec.ofNat 32 (t.token % 2 ^ 21 + putBits (t.nacc % 32) 24),
   t.logprob,
   BitVec.ofNat 32 (t.lpbnd.toNat + putBits t.entropy.toNat 16),
   BitVec.ofNat 32 (t.epoch.toNat + putBits (t.nhrec % 4) 16 + putBits (b2n t.crec) 18 + putBits (b2n t.xrec) 19
     + putBits (b2n t.vrec) 20),
   0, 0]

/-- A fallback record: kind VOID, DEFER or HOLD, its fixed fields, the fill token (R24, R42). -/
def fallbackTrec (k : RowKey) (kind fill : Nat) (epoch : Half) : Trec :=
  { handle := k.handle, kind := kind, pos := k.pos, flags := 0, token := fill, nacc := 0, logprob := f32NegInfW, lpbnd := 0,
    entropy := 0, epoch := epoch, nhrec := 0, crec := false, xrec := false, vrec := false }
where
  /-- minus infinity, 0xFF80_0000 -/
  f32NegInfW : F32 := 0xFF800000

/-- A side record of `units` units: its header, its body words from 0x08, zeros, and its CRC (R44). -/
def sideWords (h : Handle) (stype units pos : Nat) (body : List Word) : List Word :=
  let n := 8 * units - 1
  let ws := [BitVec.ofNat 32 (handleNat h + putBits stype 24 + putBits units 28), BitVec.ofNat 32 (pos % 2 ^ 24)] ++ body
  let ws := (ws ++ List.replicate (n - ws.length) 0).take n
  ws ++ [crcWords ws]

/-- PAD of `units` units (R48). -/
def padWords (units : Nat) : List Word := sideWords noHandle 15 units 0 []

/-- HREC (Table 2.6). -/
def hrecWords (h : Handle) (pos : Nat) (hash prev : W64) (bstart bsize : Nat) : List Word :=
  sideWords h 1 1 pos [lo32 hash, hi32 hash, lo32 prev, hi32 prev, BitVec.ofNat 32 (bstart % 2 ^ 24 + putBits (bsize % 4) 24)]

/-- CREC (Table 2.6), with TSTAMP and CRC still to be set. -/
def crecWords (h : Handle) (pos clen plen nacc ndraft : Nat) (epoch : Half) : List Word :=
  sideWords h 2 1 pos [BitVec.ofNat 32 (clen % 2 ^ 25), BitVec.ofNat 32 (plen % 2 ^ 25),
    BitVec.ofNat 32 (nacc % 32 + putBits (ndraft % 32) 5), BitVec.ofNat 32 epoch.toNat, 0]

/-- VREC (Table 2.6). -/
def vrecWords (h : Handle) (pos : Nat) (value reward : F32) (valid : Nat) : List Word :=
  sideWords h 4 1 pos [value, reward, BitVec.ofNat 32 (valid % 4)]

/-- XREC (R46): UNITS = ceil((44 + 8 NTOP) / 32). -/
def xrecWords (h : Handle) (pos : Nat) (x : XVals) (top : List (Nat × F32)) : List Word :=
  sideWords h 3 (ceilDiv (44 + 8 * top.length) 32) pos
    ([x.lpalt, x.lse, x.lpref, x.kl1, x.kl2, x.kl3, BitVec.ofNat 32 top.length, 0]
      ++ top.flatMap (fun e => [BitVec.ofNat 32 (e.1 % 2 ^ 24), e.2]))

/-- A stamped record as it is issued: TSTAMP at 0x18, then the CRC over the bytes before it (Table 2.2, Table 2.6). -/
def stampWords (ws : List Word) (tick : Nat) : List Word :=
  let a := ws.take 6 ++ [BitVec.ofNat 32 tick]
  a ++ [crcWords a]

end Sys2Proof.Machine
end

