-- ==== Sys2Proof/Machine/MsgEnc.lean ====
section
/-! DEFINITION. Orchard messages as words: the header and every body (R308 to R314, R331), and a message's words on its channel
(R330). -/

namespace Sys2Proof.Machine

/-- MCLASS (Table 15.6). -/
def Body.mclass : Body → Nat
  | .admitMsg _ => 0x01
  | .close _ => 0x02
  | .stat _ => 0x03
  | .cand _ => 0x04
  | .win _ => 0x05
  | .topm _ => 0x06
  | .tgt _ => 0x07
  | .thresh _ => 0x08
  | .rsq _ => 0x09
  | .rsp _ => 0x0A
  | .commit _ => 0x0B
  | .lkup _ => 0x0C
  | .aux _ => 0x0D
  | .side _ => 0x0E
  | .cancel _ => 0x0F
  | .bar _ _ => 0x10
  | .rel _ _ => 0x11
  | .signal _ => 0x12
  | .cmd _ => 0x13
  | .event _ => 0x14
  | .probe _ => 0x15
  | .purge _ _ => 0x16
  | .disc _ _ => 0x17

/-- A 320-bit accumulator as ten words. -/
def accWords (a : Acc) : List Word := (List.range 10).map (fun i => w32 (a.toNat / 2 ^ (32 * i)))

/-- A 64-bit value as two words. -/
def wordsOf64 (v : W64) : List Word := [lo32 v, hi32 v]

/-- Words filled up to a whole 8-byte word. -/
def padEven (ws : List Word) : List Word := if ws.length % 2 = 0 then ws else ws ++ [0]

/-- ADMIT (R310). -/
def admitWords (b : AdmitB) : List Word :=
  [w32 (b.pos % 2 ^ 24 + putBits (b.cls % 8) 24 + putBits (b.gidx % 32) 27), b.subseq, b.dcrc, b.tick]

/-- CLOSE (R313). -/
def closeWords (b : CloseB) : List Word :=
  let e := fun i => (b.epochs.getD i 0).toNat
  [w32 (b.rows.length + putBits (b.phase % 16) 9), w32 (e 0 + putBits (e 1) 16), w32 (e 2 + putBits (e 3) 16), 0]
  ++ b.rows.flatMap (fun r => [w32 (handleNat r.handle + putBits (r.slot % 256) 24),
      w32 (r.pos % 2 ^ 24 + putBits (r.cls % 8) 24 + putBits (r.gidx % 32) 27), w32 (r.ovl % 2 ^ 15 + putBits (b2n r.rep) 15), w32 r.tseq])

/-- STAT (Table 15.7). -/
def statWords (b : StatB) : List Word :=
  accWords b.sq ++ accWords b.eq ++ accWords b.mq ++ accWords b.meq ++ [b.xmax, b.x2max, b.epsmax, b.wx, b.wx2, w32 b.cnt,
    w32 (b2n b.chain0 + putBits (b2n b.chain20) 1 + putBits (b2n b.model0) 2 + putBits (b2n b.model20) 3 + putBits (b2n b.doubt) 4
      + putBits (b.late % 4) 5), 0]

/-- A candidate record (Table 6.4). -/
def candWords (c : CandRec) : List Word := [w32 c.id, c.zf, c.eps, c.x, c.xhi, c.xlo]

/-- A contender or fast-winner record of WIN (R312). -/
def winRecWords (c : WinRec) : List Word := [w32 c.id, c.z, c.eps, c.s, c.u]

/-- WIN (R312). -/
def winWords (b : WinB) : List Word :=
  padEven ([w32 b.conts.length, b.spill] ++ (b.fast.map winRecWords).getD [0, 0, 0, 0, 0] ++ b.conts.flatMap winRecWords)

/-- COMMIT (R314). -/
def commitWords (b : CommitB) : List Word :=
  padEven ([w32 (b.token % 2 ^ 21 + putBits (b.kind % 8) 21 + putBits (b.flags % 128) 24 + putBits (b2n b.commits) 31), b.logprob,
    w32 (b.lpbnd.toNat + putBits b.entropy.toNat 16),
    w32 (b.nacc % 32 + putBits b.toks.length 5 + putBits b.top.length 10 + putBits (b2n b.xv) 15),
    b.xvals.lpalt, b.xvals.lse, b.xvals.lpref, b.xvals.kl1, b.xvals.kl2, b.xvals.kl3, 0, 0]
    ++ b.toks.map w32 ++ b.top.flatMap (fun e => [w32 e.1, e.2]))

/-- SIDE (Table 15.14). -/
def sideMsgWords (b : SideB) : List Word :=
  let hd := fun (k j : Nat) (more : Bool) (n : Nat) => [w32 (k + putBits j 8 + putBits (b2n more) 12), w32 n]
  match b with
  | .counts more es => hd 1 0 more es.length ++ es.flatMap (fun e => [w32 e.1, w32 (e.2 % 65536)])
  | .biases more es => hd 2 0 more es.length ++ es.flatMap (fun e => [w32 e.1, e.2])
  | .bans more es => hd 3 0 more es.length ++ padEven (es.map w32)
  | .sketch cs => hd 4 0 false 0 ++ (List.range 1024).map (fun i => w32 (cs.getD (2 * i) 0 % 65536 + putBits (cs.getD (2 * i + 1) 0 % 65536) 16))
  | .retset j more es => hd 5 j more es.length ++ padEven (es.map w32)
  | .retdata j r => hd 7 j false r.ents.length ++ [w32 (r.pos % 2 ^ 24 + putBits (b2n r.zero) 24), w32 (r.dtoken % 2 ^ 21 + putBits (b2n r.bad) 31),
      w32 r.depoch.toNat, r.anch] ++ r.ents.flatMap (fun e => [w32 e.1, e.2])
  | .grammar g gen st => hd 6 0 false 1 ++ [w32 (st % 2 ^ 20 + putBits (g % 64) 20), w32 (gen % 65536)]

/-- A packet's sixteen words (Table 16.5). -/
def pktWords (pk : Pkt) : List Word := pk.body ++ [pk.kcrc]

/-- CMD (Table 15.14). -/
def cmdWords (b : CmdB) : List Word :=
  let hd := fun (k : Nat) (p : PortId) (ring fid : Nat) => [w32 (k + putBits (if p = .cpb then 1 else 0) 4 + putBits (ring % 64) 5 + putBits (fid % 65536) 16), 0]
  match b with
  | .fwd p ring fid pk => hd 0 p ring fid ++ pktWords pk
  | .cpl p ring fid c => hd 1 p ring fid ++
      cplWords 0 0 ring c.final 0 { status := c.status, res0 := c.res0, res1 := c.res1.toNat, detail := c.detail }
  | .ready r => hd 2 .cpa 0 0 ++
      [w32 (r.epoch.toNat + putBits (r.hset % 4) 16 + putBits (r.slot % 4) 18 + putBits (r.fmt % 4) 20), w32 r.d, w32 r.v, w32 r.outl, r.crc,
       w32 (r.detail % 256)]
  | .ack n sub => hd 3 .cpa 0 0 ++ [w32 (n % 65536 + putBits (sub % 65536) 16), 0]
  | .counts h l lost => hd 14 .cpa 0 0 ++ [w32 (h.slot % 65536 + putBits (h.gen % 256) 16 + putBits (b2n lost) 24), 0]
      ++ l.flatMap (fun e => [w32 (e.1 % 2 ^ 21), w32 (e.2 % 65536)])
  | .settle k kind cause => hd 15 .cpa 0 0 ++ [w32 (k.handle.slot % 65536 + putBits (k.handle.gen % 256) 16), w32 (k.pos + putBits k.cls 24 + putBits k.gidx 27), w32 (kind + putBits cause 8), 0]

/-- A slot entry of R369 as four words. -/
def slotEntWords (e : SlotEntB) : List Word :=
  [w32 (e.state % 8 + putBits (e.use % 2) 3 + putBits (e.fmt % 4) 4 + putBits e.epoch.toNat 16), w32 e.pins, w32 e.outl, e.crc]

/-- The rejoin digest (R307, R331). -/
def digestWords (d : DigestB) : List Word :=
  [w32 (d.nextPunnet % 65536 + putBits (d.phase % 16) 16), w32 d.tseq] ++ d.slots.flatMap slotEntWords
  ++ (List.range 1408).map (fun i => let t := Tab.get d.tables i (0, false); w32 (t.1 % 65536 + putBits (b2n t.2) 16))

/-- EVENT (Table 15.14). -/
def eventWords (b : EventB) : List Word :=
  match b with
  | .safe c t => [w32 0, 0, w32 (c % 256), t]
  | .digest d => [w32 1, 0] ++ digestWords d
  | .epoch h e n => [w32 2, 0, w32 (h % 4 + putBits e.toNat 16), w32 (n % 65536)]
  | .retention => [w32 3, 0]
  | .timeReq a => [w32 4, 0] ++ wordsOf64 a
  | .timeReply a b c => [w32 5, 0] ++ wordsOf64 a ++ wordsOf64 b ++ wordsOf64 c
  | .pool a b c d => [w32 6, 0, a, b, c, d]

/-- Five neighbour addresses of ten bits. -/
def neighNat (l : List Nat) : Nat := (List.range 5).foldl (fun a i => a + (l.getD i 0 % 1024) * 2 ^ (10 * i)) 0

/-- A mask of five trained links. -/
def linkMask (l : List Bool) : Nat := (List.range 5).foldl (fun a i => a + b2n (l.getD i false) * 2 ^ i) 0

/-- A DISC entry (Table 15.14). -/
def discWords (e : DiscEnt) : List Word :=
  [w32 (e.addr % 1024 + putBits (b2n e.safe) 10 + putBits (b2n e.run) 11 + putBits (b2n e.rejoin) 12 + putBits (linkMask e.links) 13), 0]
  ++ wordsOf64 e.dieid ++ wordsOf64 (BitVec.ofNat 64 (neighNat e.neigh))

/-- The body of a message. -/
def bodyWords : Body → List Word
  | .admitMsg b => admitWords b
  | .close b => closeWords b
  | .stat b => statWords b
  | .cand b => [w32 b.length, 0] ++ b.flatMap candWords
  | .win b => winWords b
  | .topm b => [w32 b.length, 0] ++ b.flatMap (fun e => [w32 e.1, e.2])
  | .tgt b => [w32 (b2n b.isSome), 0] ++ (b.map candWords).getD [0, 0, 0, 0, 0, 0]
  | .thresh b => [w32 (b.kid % 2 ^ 21 + putBits (b2n b.mp.isSome) 21 + putBits (b2n b.dm.isSome) 22), b.kx, w32 b.r,
      (b.mp.map (·.1)).getD 0, (b.mp.map (·.2)).getD 0, 0] ++ (b.dm.map accWords).getD []
  | .rsq b => [w32 (b.id % 2 ^ 21 + putBits (b2n b.tgt) 21), b.eps, b.cutoff, 0]
  | .rsp b => [w32 b.id, b.zs, b.t, b.xpre, b.g, 0]
  | .commit b => commitWords b
  | .lkup b => [w32 (b.next % 2 ^ 20 + putBits (b2n b.final) 20 + putBits (b.idx % 32) 21), w32 b.token]
  | .aux b => [b.out, w32 (b2n b.reward + putBits (b2n b.finite) 1)]
  | .side b => sideMsgWords b
  | .cancel k => wordsOf64 k
  | .bar n t => [w32 (n % 32 + putBits (t % 4) 5), 0]
  | .rel n t => [w32 (n % 32 + putBits (t % 4) 5), 0]
  | .signal b => [w32 (b.counter % 1024 + putBits (b2n b.ack) 10 + putBits (b.stag % 65536) 16), w32 (b.status % 256)] ++ wordsOf64 b.addend
  | .cmd b => cmdWords b
  | .event b => eventWords b
  | .probe b => [w32 (b2n b.prog + putBits (b2n b.conf) 1 + putBits (b2n b.still) 2), w32 (b.lowpun % 65536 + putBits (min b.nq 65535) 16)]
  | .purge n d => [w32 (n % 65536 + putBits (b2n d) 16), 0]
  | .disc ovf es => [w32 (es.length % 2048 + putBits (b2n ovf) 11), 0] ++ es.flatMap discWords

/-- The header of a message (Table 15.5). -/
def hdrWords (m : Msg) : List Word :=
  let h := m.hdr
  [w32 (m.body.mclass + putBits (b2n h.doubt) 6 + putBits (b2n h.bcast) 7 + putBits (h.src % 1024) 8 + putBits (h.dst % 1024) 18),
   w32 (h.punnet % 65536 + putBits (h.rslot % 256) 16 + putBits (h.pass % 16) 24), w32 (handleNat h.handle),
   w32 ((bodyWords m.body).length / 2 + putBits (h.hops % 1024) 16)]

/-- A message's words on its channel. -/
def msgWords (m : Msg) : List Word := hdrWords m ++ bodyWords m.body

/-- A message's size in 64-byte units. -/
def msgUnits (m : Msg) : Nat := ceilDiv (msgWords m).length 16

end Sys2Proof.Machine
end

