-- ==== Sys2Proof/Machine/Rings.lean ====
section
/-! DEFINITION. Command rings: ring errors, the taking of a packet, the checks of R339, and the forwarding of a command to the
instance that serialises it (spec/16_control_ports.md). -/

namespace Sys2Proof.Machine

/-- A ring error (R336). -/
def State.ringError (s : State) (r : RingRef) (code : Nat) : State :=
  let q := s.ring r
  (s.setRing r { q with err := true, errcode := code, errcnt := satAdd 255 q.errcnt 1, en := false }).setCauseOne r.port cRingErr

/-- Packets that a doorbell covers and that have not been taken (R335). -/
def Ring.untaken (q : Ring) : Nat := (q.sqt - q.sqh).toNat

/-- CQ slots reserved by the commands taken (R341). -/
def Ring.reserved (q : Ring) : Nat := q.outst.foldl (fun a o => a + o.reserve) 0

/-- The CQ has room for a further reservation (R341). -/
def Ring.room (q : Ring) (n : Nat) : Bool := decide ((q.cqt - q.cqh).toNat + q.reserved + n ≤ 2 ^ q.cqlog)

/-- The rings are served: firmware runs and has reached READY, and no Windfall capture runs (R342, R402). In SAFE the boot ROM's
loop serves them once the capture has ended (DEDUCED, log 97). -/
def State.serving (s : State) : Bool :=
  s.live && !s.wind.running && (decide (s.blk = .ready ∨ s.blk = .run ∨ s.blk = .drain) || (decide (s.blk = .safe) && decide (2 ≤ s.faults.prior)))

/-- The head packet of a ring may be taken (R341). A packet whose KCRC fails waits only for room in the CQ. -/
def State.takeable (s : State) (pk : Pkt) (reserve : Nat) : Bool :=
  let q := s.ring pk.src
  if pk.kcrcOk then !(pk.fence && !q.outst.isEmpty) && !q.asleep && q.room reserve
  else q.room 1

/-- The packet is taken: SQH passes it and its CQ slots are reserved (R341). -/
def State.take (s : State) (pk : Pkt) (reserve : Nat) (noint : Bool) : State :=
  let q := s.ring pk.src
  { s.setRing pk.src { q with sqh := q.sqh + 1,
                              outst := q.outst ++ [{ id := s.cmdId, tag := pk.tag, opcode := pk.opcode, noint := noint, reserve := reserve }] }
    with cmdId := s.cmdId + 1 }

/-- The shard that serialises a command (Table 17.3). -/
def State.serialiser (s : State) (d : Desc) (pk : Pkt) : Nat :=
  match d.scope pk with
  | .local_ => s.orch.shard
  | .group => s.orch.rootSh
  | .home => s.homeOf (pk.fld 0 0 16)

/-- The checks that the taking instance makes, in the order of R339, up to the block state: none when all pass (DEDUCED, log 96). -/
def State.reject (s : State) (d : Desc) (pk : Pkt) : Option Cpl :=
  if pk.kcrcOk = false then some (Cpl.of stBadParam 0x01)
  else if definedOpcode pk.opcode.toNat = false then some (Cpl.of stBadOpcode 0)
  else if s.blk = .safe ∧ safeOpcode pk.opcode.toNat = false then some (Cpl.of stSafeState 0)
  else match d.bad pk s with
    | some dt => some (Cpl.of stBadParam dt)
    | none => if d.legal.contains s.blk then none else some (Cpl.of stWrongState 0)

/-- A command started at the instance that serialises it: object checks, then the lock, then its effect (R339, R350). -/
def State.start (s : State) (d : Desc) (o : Origin) (pk : Pkt) : State :=
  match d.pre o pk s with
  | some c => s.finish o c
  | none =>
    match d.lock pk s with
    | some k => if s.locked k then s.finish o (Cpl.of stBusyRetry 0) else d.run o pk s
    | none => d.run o pk s

/-- A command forwarded to the instance that serialises it (R350, R359). -/
def State.forward (s : State) (o : Origin) (pk : Pkt) (dst : Nat) : State :=
  let fid := s.orch.fid
  let s1 := { s with orch := { s.orch with fid := (fid + 1) % 2 ^ 16 } }
  (s1.addJob { origin := o, opcode := pk.opcode, kind := .forward fid, lock := none }).sendTo dst (.cmd (.fwd pk.src.port pk.src.ring fid pk))

/-- A packet at the head of its ring, read for the command of a descriptor. A packet that may not be taken yet stays (R341). One
whose defined opcode is another command's is that command's to take (DEDUCED, log 8). -/
def takePacket (d : Desc) (pk : Pkt) (s : State) : State :=
  let q := s.ring pk.src
  let reserve := if d.accepts then 2 else 1
  if s.serving = false ∨ q.en = false ∨ q.untaken = 0 then s
  else if pk.readErr then s.ringError pk.src 3
  else if pk.kcrcOk ∧ definedOpcode pk.opcode.toNat ∧ pk.opcode.toNat ≠ d.opcode then s
  else if s.takeable pk reserve = false then s
  else
    let bad := !pk.kcrcOk
    let s1 := s.take pk (if bad then 1 else reserve) (!bad && pk.noint)
    let o := Origin.ring pk.src s.cmdId
    match s.reject d pk with
    | some c => s1.finish o c
    | none =>
      if s.serialiser d pk = s.orch.shard then s1.start d o pk else s1.forward o pk (s.serialiser d pk)

/-- A forwarded command that has arrived where it is serialised (R350, R359): FAULT with DETAIL 0x30 in SAFE. -/
def takeForwarded (d : Desc) (src : Nat) (port : PortId) (ring fid : Nat) (pk : Pkt) (s : State) : State :=
  let o := Origin.fwd src port ring fid
  if s.blk = .safe then s.finish o (Cpl.of stFault 0x30) else s.start d o pk

/-- The root's copy of a group command, applied at a member: its effect alone (DEDUCED, log 10). -/
def takeMember (d : Desc) (pk : Pkt) (s : State) : State := d.run .member pk s

/-- A group command's packet sent to the other members, to be applied there (DEDUCED, log 10). -/
def State.tellMembers (s : State) (o : Origin) (pk : Pkt) : State :=
  match o with
  | .member => s
  | _ => s.bcastOthers { hdr := s.hdr 0 true 0 0 0 noHandle, body := .cmd (.fwd pk.src.port pk.src.ring 0 pk) }

/-- A copy of a configuration command sent to the members, with the number of the first punnet that it applies to (R231) (DESIGN CHOICE, log 83). -/
def State.tellFrom (s : State) (num : Nat) (pk : Pkt) : State :=
  s.bcastOthers { hdr := s.hdr 0 true num 0 0 noHandle, body := .cmd (.fwd pk.src.port pk.src.ring 0 pk) }

/-- A command that sleeps at its ring (R321, R347, R341). -/
def State.sleepRing (s : State) (o : Origin) : State :=
  match o with
  | .ring r _ => s.setRing r { s.ring r with asleep := true }
  | _ => s

/-- A sleeping command ends: its ring is served again. -/
def State.finishSleeper (s : State) (o : Origin) (c : Cpl) : State :=
  match o with
  | .ring r id =>
    let s1 := s.finish o c
    if (s.ring r).outst.any (fun x => x.id = id) then s1.setRing r { s1.ring r with asleep := false } else s1
  | _ => s.finish o c

end Sys2Proof.Machine
end

