-- ==== Sys2Proof/Machine/Sync.lean ====
section
/-! DEFINITION. Semaphores, sync counters and barriers: the operations behind register writes, SYNC commands and Orchard messages
(R317 to R322, R346 to R348). -/

namespace Sys2Proof.Machine

/-! ## Semaphores -/

/-- A semaphore. -/
def State.sem (s : State) (n : Nat) : Sem := Tab.get s.sems n Sem.reset

/-- A semaphore replaced. -/
def State.setSem (s : State) (n : Nat) (q : Sem) : State := { s with sems := Tab.set s.sems n q }

/-- Grants a free semaphore (R346): GRANTS counts modulo 256. -/
def Sem.grant (q : Sem) (owner : Nat) : Sem := { q with owner := owner, grants := (q.grants + 1) % 256 }

/-- REQ: granted when free, otherwise without effect (R346). -/
def State.semRequest (s : State) (n code : Nat) : State :=
  let q := s.sem n
  if q.owner = 0 then s.setSem n (q.grant code) else s

/-- A release: OWNER becomes 0, then the waiter that has slept longest is granted (R346, R347). -/
def State.semRelease (s : State) (n : Nat) : State :=
  let q := s.sem n
  match q.waiters with
  | [] => s.setSem n { q with owner := 0 }
  | (p, o) :: r => (s.setSem n { q.grant (portCode p) with waiters := r }).finishSleeper o (Cpl.done 0 0)

/-- Abandonment of a held semaphore: freed, ABND set and counted, GRANTS unchanged, every waiter completes with ABANDONED (R348). -/
def State.semAbandon (s : State) (n : Nat) : State :=
  let q := s.sem n
  q.waiters.foldl (fun s w => s.finishSleeper w.2 (Cpl.of stAbandoned 0))
    (s.setSem n { q with owner := 0, abnd := true, abndcnt := satAdd 255 q.abndcnt 1, waiters := [] })

/-! ## Sync counters -/

/-- A sync counter. -/
def State.ctr (s : State) (n : Nat) : Ctr := Tab.get s.ctrs n Ctr.reset

/-- A sync counter replaced. -/
def State.setCtr (s : State) (n : Nat) (c : Ctr) : State := { s with ctrs := Tab.set s.ctrs n c }

/-- The wait test: (value - target) modulo 2^64 is not negative (R321). -/
def waitMet (value target : W64) : Bool := decide (0 ≤ (value - target).toInt)

/-- A counter's value set: its wake wire fires for every wait that the value satisfies (R321). -/
def State.ctrSet (s : State) (n : Nat) (v : W64) : State :=
  let c := s.ctr n
  let met := c.waiters.filter (fun w => waitMet v w.target)
  let left := c.waiters.filter (fun w => !waitMet v w.target)
  met.foldl (fun s w => s.finishSleeper w.origin (Cpl.done 0 0)) (s.setCtr n { c with value := v, waiters := left })

/-- A counter freed: every waiter wakes with ABANDONED (Table 15.10). -/
def State.ctrFree (s : State) (n : Nat) : State :=
  let c := s.ctr n
  c.waiters.foldl (fun s w => s.finishSleeper w.origin (Cpl.of stAbandoned 0)) (s.setCtr n { c with owner := 0, waiters := [] })

/-- The lowest free counter that a port may allocate (DESIGN CHOICE, log 15). -/
def State.freeCtr (s : State) : Option Nat := (span 64 960).find? (fun n => (s.ctr n).owner = 0)

/-! ## Barriers -/

/-- A barrier. -/
def State.bar (s : State) (n : Nat) : Barrier := Tab.get s.bars n Barrier.reset

/-- A barrier replaced. -/
def State.setBar (s : State) (n : Nat) (b : Barrier) : State := { s with bars := Tab.set s.bars n b }

/-- Instances in the subtree of a child, by its shard index; this node's own entry counts one. -/
def State.subtree (s : State) (sh : Nat) : Nat :=
  if sh = s.orch.shard then 1 else (s.orch.kids.filter (fun k => k.2.2 = sh)).length

/-- Instances in this node's subtree, itself included. -/
def State.subtreeSize (s : State) : Nat := s.orch.kids.length + 1

/-- Every outstanding entry completes with ABANDONED and the barrier restarts at tag 0 (R319). -/
def State.barAbort (s : State) (n : Nat) : State :=
  (s.bar n).entered.foldl (fun s o => s.finish o (Cpl.of stAbandoned 0)) (s.setBar n Barrier.reset)

/-- All barriers restart (R306, Table 15.9). -/
def State.barAbortAll (s : State) : State := (List.range 32).foldl (fun s n => s.barAbort n) s

/-- Entries counted toward a tag at this node; a full subtree sends one BAR up, or at the root REL down (R318). A tag that is
neither open nor next is an Orchard sequence error (R319). -/
def State.barCount (s : State) (n tag entries : Nat) : State :=
  let b := s.bar n
  if tag = b.openTag then
    let c := b.cntOpen + entries
    let s1 := s.setBar n { b with cntOpen := c }
    if c ≠ s.subtreeSize then s1
    else if s.isRoot then s1.bcast { hdr := s.hdr 0 true 0 0 0 noHandle, body := .rel n tag }
    else s1.sendTo s.orch.rootSh (.bar n tag)
  else if tag = (b.openTag + 1) % 4 then s.setBar n { b with cntNext := b.cntNext + entries }
  else (s.contained 0x18 Site.none).barAbort n

/-- This instance enters a barrier (R318): its entry carries the tag of its next round. -/
def State.barEnter (s : State) (n : Nat) (o : Option Origin) : State :=
  let b := s.bar n
  (s.setBar n { b with nextTag := (b.nextTag + 1) % 4, inRound := true, entered := b.entered ++ o.toList }).barCount n b.nextTag 1

/-- A round ends at this node: its counter is cleared, the next tag opens, and the entries of this instance complete (R318). -/
def State.barRelease (s : State) (n tag : Nat) : State :=
  let b := s.bar n
  b.entered.foldl (fun s o => s.finish o (Cpl.done 0 0))
    (s.setBar n { b with openTag := (tag + 1) % 4, cntOpen := b.cntNext, cntNext := 0, entered := [], inRound := false })

/-! ## Port reset (R351) -/

/-- A port reset: its window returns to reset values, its waits are dropped, its counters are freed, its semaphores abandoned. The
commands it has issued run on; their completions find no ring entry and are discarded. -/
def State.resetPort (s : State) (p : PortId) : State :=
  let s1 := s.setPort p Port.reset
  let s2 := { s1 with
    ctrs := Tab.mapVals s1.ctrs (fun _ c => { c with waiters := c.waiters.filter (fun w => w.port ≠ p) }),
    sems := Tab.mapVals s1.sems (fun _ q => { q with waiters := q.waiters.filter (fun w => w.1 ≠ p) }) }
  let s3 := ((s2.ctrs.filter (fun c => c.2.owner = portCode p)).map (·.1)).foldl (fun s n => s.ctrFree n) s2
  ((s3.sems.filter (fun q => q.2.owner = portCode p)).map (·.1)).foldl (fun s n => s.semAbandon n) s3

/-- Debug access is enabled (R435). -/
def State.debugOn (s : State) : Bool := s.dbg.en || s.dbg.tap

end Sys2Proof.Machine
end

