-- ==== Sys2Proof/Machine/Ports.lean ====
section
/-! DEFINITION. The control ports' registers with actions: doorbells, heads, ring control, completion writes, interrupts, message
writes and semaphores (R332 to R348, R424 to R431). -/

namespace Sys2Proof.Machine

/-- A register write by a port to a window it does not own is ignored and counted (R333). -/
def State.xwrite (s : State) (by_ : PortId) : State :=
  let p := s.port by_
  s.setPort by_ { p with xwr := satAdd (2 ^ 32 - 1) p.xwr 1 }

/-- A bad access, counted (R424). -/
def State.badAccess (s : State) (by_ : PortId) : State :=
  let p := s.port by_
  s.setPort by_ { p with badacc := satAdd (2 ^ 32 - 1) p.badacc 1 }

/-- A write by a port into a port window: held back in a clock failure and in quarantine, a bad access in P-RET, ignored and counted
in the other port's window, else it acts (R333, R379, R385, R424). -/
def portWrite (by_ win : PortId) (act : State → State) (s : State) : State :=
  if s.pwr.clkFail ∨ s.quar then s
  else if s.pwr.cur ≤ 1 then s.badAccess by_
  else if by_ ≠ win then s.xwrite by_
  else act s

/-- A write by a port into the shared window: in P-RET a bad access (R424). -/
def sharedWrite (by_ : PortId) (act : State → State) (s : State) : State :=
  if s.pwr.clkFail then s
  else if s.pwr.cur ≤ 1 then s.badAccess by_
  else act s

/-- JG_SQT_n written: the doorbell. Ignored while EN = 0; a claim beyond the queue is ring error 1 (R335, R336). -/
def State.writeTail (s : State) (r : RingRef) (tail : Half) : State :=
  let q := s.ring r
  if q.en = false then s
  else if 2 ^ q.sqlog < (tail - q.sqh).toNat then s.ringError r 1
  else s.setRing r { q with sqt := tail }

/-- JG_CQH_n written; a head beyond the completions written is ring error 2 (R336), and the register keeps its value (DESIGN CHOICE, log 143). -/
def State.writeHead (s : State) (r : RingRef) (head : Half) : State :=
  let q := s.ring r
  if 2 ^ q.cqlog < (q.cqt - head).toNat then s.ringError r 2
  else s.setRing r { q with cqh := head }

/-- BUSY: a command taken from the ring lacks its final completion (Table 16.3). -/
def Ring.busy (q : Ring) : Bool := !q.outst.isEmpty

/-- The fields of JG_RCTL_n that a write sets (Table 16.3): SQLOG, CQLOG and VEC only while EN = 0 and BUSY = 0; ERR is W1C. -/
def Ring.ctl (q : Ring) (v : Word) : Ring :=
  let free := !q.en && !q.busy
  { q with
    sqlog := if free then bitsAt v 1 4 else q.sqlog,
    cqlog := if free then bitsAt v 5 4 else q.cqlog,
    vec   := if free then bitsAt v 9 4 else q.vec,
    cie   := bitAt v 13,
    err   := q.err && !bitAt v 14 }

/-- The ring's sizes are legal (Table 16.4, code 4). -/
def Ring.sizesOk (q : Ring) : Bool := decide (4 ≤ q.sqlog ∧ q.sqlog ≤ 12 ∧ 4 ≤ q.cqlog ∧ q.cqlog ≤ 12)

/-- JG_RCTL_n written: setting EN resets the four indices; with a size outside 4 to 12 it is ring error 4 and EN stays 0 (R335,
R336). -/
def State.writeRctl (s : State) (r : RingRef) (v : Word) : State :=
  let q := (s.ring r).ctl v
  if bitAt v 0 = false then (s.setRing r { q with en := false }).refresh r.port false
  else if q.en then (s.setRing r q).refresh r.port false
  else if q.sizesOk = false then ((s.setRing r q).refresh r.port false).ringError r 4
  else (s.setRing r { q with en := true, sqt := 0, sqh := 0, cqt := 0, cqh := 0 }).refresh r.port false

/-- The ring once the oldest completion write leaves it: a final completion ends its command and frees its reservation, an ACCEPTED
one frees one slot of it (R341). -/
def Ring.written (q : Ring) (w : CqWrite) : Ring :=
  { q with
    cqw := q.cqw.drop 1,
    outst := if w.final then q.outst.filter (fun o => o.id ≠ w.id)
      else q.outst.map (fun o => if o.id = w.id then { o with reserve := o.reserve - 1 } else o) }

/-- The response to the oldest completion write of a ring. An acknowledged entry stands in the CQ, CQT advances, and JG_CQ_PEND is
set (R343, R344); an error response is retried once and is then ring error 3 (R336) (DEDUCED, log 98). -/
def State.cqAck (s : State) (r : RingRef) (err : Bool) : State :=
  let q := s.ring r
  match q.cqw with
  | [] => s
  | w :: rest =>
    if err then
      if w.retry then (s.setRing r (q.written w)).ringError r 3
      else s.setRing r { q with cqw := { w with retry := true } :: rest }
    else
      let s1 := s.storeWords (ringBase q.cqb + 16 * (q.cqt.toNat % 2 ^ q.cqlog)) (withPhase w.words (cqPhase q q.cqt.toNat))
      let s2 := s1.setRing r { q.written w with cqt := q.cqt + 1 }
      if q.cie && w.intr then
        let p := s2.port r.port
        (s2.setPort r.port { p with cqPend := p.cqPend ||| BitVec.ofNat 64 (2 ^ r.ring) }).refresh r.port false
      else s2

/-- JG_INT_STATUS written: the defined flags written as 1 are cleared (R430); vectors that stay pending send again (R345). -/
def State.clearInt (s : State) (p : PortId) (v : Word) : State :=
  let q := s.port p
  (s.setPort p { q with intStatus := q.intStatus &&& ~~~(BitVec.ofNat 15 v.toNat) }).refresh p true

/-- JG_CQ_PEND written: bits written as 1 are cleared (R344, R345). -/
def State.clearCqPend (s : State) (p : PortId) (v : W64) : State :=
  let q := s.port p
  (s.setPort p { q with cqPend := q.cqPend &&& ~~~v }).refresh p true

/-- JG_INT_MASK or a route register written, by window offset (Table 21.1); a summary that goes from 0 to 1 sends (R429). -/
def State.writeRoute (s : State) (p : PortId) (off : Nat) (v : Word) : State :=
  let q := s.port p
  if off = 0x0C then (s.setPort p { q with intMask := BitVec.ofNat 16 v.toNat }).refresh p false
  else if off = 0x18 then (s.setPort p { q with route0 := v }).refresh p false
  else if off = 0x1C then (s.setPort p { q with route1 := v &&& 0x0FFFFFFF }).refresh p false
  else s

/-- The response to the oldest outstanding message write of a vector (R431). An acknowledged message stands in memory. -/
def State.msgAck (s : State) (p : PortId) (v : Nat) (err : Bool) : State :=
  let q := s.port p
  match q.msgOut.find? (fun m => m.1 = v) with
  | none => s
  | some m =>
    let q1 := { q with msgOut := q.msgOut.erase m }
    if err then
      if m.2 then s.setPort p { q1 with msgerr := satAdd (2 ^ 32 - 1) q1.msgerr 1 }
      else (s.setPort p { q with msgOut := (v, true) :: q1.msgOut }).drive (.message p v)
    else
      let a := Tab.get q.msga v 3
      (s.setPort p q1).storeWords (memKey (a.toNat % 4) (a.toNat / 4 * 4)) [Tab.get q.msgd v 0]

/-- REQ written to a semaphore by a port, or by a debug write while debug access is enabled (R346, R441). -/
def State.semReqBy (s : State) (r : Requester) (n : Nat) : State :=
  match r with
  | .port p => s.semRequest n (portCode p)
  | .debug => if s.debugOn then s.semRequest n 3 else s

/-- REL written to a semaphore: by its owner a release; by another port ignored and counted (R346). -/
def State.semRelBy (s : State) (r : Requester) (n : Nat) : State :=
  match r with
  | .port p =>
    if (s.sem n).owner = portCode p then s.semRelease n
    else
      let q := s.port p
      s.setPort p { q with semmis := satAdd (2 ^ 32 - 1) q.semmis 1 }
  | .debug => if s.debugOn && decide ((s.sem n).owner = 3) then s.semRelease n else s

/-- A semaphore write is ignored in P-RET, uncounted (R424), in a clock failure, and for a number the map does not have. -/
def semWrite (n : Nat) (act : State → State) (s : State) : State :=
  if s.live = false ∨ 64 ≤ n then s else act s

/-! ## Meanings -/

/-- DOORBELL (R335). -/
def execDoorbell (by_ : PortId) (r : RingRef) (tail : Half) (s : State) : Host.Outcome State Fault Refusal :=
  .next (portWrite by_ r.port (fun s => s.writeTail r tail) s)

/-- JG_CQH_WRITE (R335, R336). -/
def execJgCqhWrite (by_ : PortId) (r : RingRef) (head : Half) (s : State) : Host.Outcome State Fault Refusal :=
  .next (portWrite by_ r.port (fun s => s.writeHead r head) s)

/-- RING_ENABLE (R335). -/
def execRingEnable (by_ : PortId) (r : RingRef) (value : Word) (s : State) : Host.Outcome State Fault Refusal :=
  .next (portWrite by_ r.port (fun s => s.writeRctl r value) s)

/-- CQ_WRITE_ACK (R343). -/
def execCqWriteAck (r : RingRef) (err : Bool) (s : State) : Host.Outcome State Fault Refusal :=
  .next (if s.live then s.cqAck r err else s)

/-- INT_STATUS_CLEAR (R345, R430). -/
def execIntStatusClear (by_ win : PortId) (value : Word) (s : State) : Host.Outcome State Fault Refusal :=
  .next (portWrite by_ win (fun s => s.clearInt win value) s)

/-- CQ_PEND_CLEAR (R344). -/
def execCqPendClear (by_ win : PortId) (value : W64) (s : State) : Host.Outcome State Fault Refusal :=
  .next (portWrite by_ win (fun s => s.clearCqPend win value) s)

/-- INT_ROUTE_MASK_WRITE (R429). -/
def execIntRouteMaskWrite (by_ win : PortId) (reg : Nat) (value : Word) (s : State) : Host.Outcome State Fault Refusal :=
  .next (portWrite by_ win (fun s => s.writeRoute win reg value) s)

/-- MSG_WRITE_RESPONSE (R431). -/
def execMsgWriteResponse (p : PortId) (vec : Nat) (err : Bool) (s : State) : Host.Outcome State Fault Refusal :=
  .next (if s.live then s.msgAck p vec err else s)

/-- SEM_REQ (R346). -/
def execSemReq (by_ : Requester) (n : Nat) (s : State) : Host.Outcome State Fault Refusal :=
  .next (semWrite n (fun s => s.semReqBy by_ n) s)

/-- SEM_REL (R346, R347). -/
def execSemRel (by_ : Requester) (n : Nat) (s : State) : Host.Outcome State Fault Refusal :=
  .next (semWrite n (fun s => s.semRelBy by_ n) s)

/-- PORT_RESET: a write of JG_RST_CTL with KEY that sets neither WARM nor QUAR (R351, R384). -/
def execPortReset (value : Word) (s : State) : Host.Outcome State Fault Refusal :=
  .next (if s.live && decide (bitsAt value 16 16 = 0x4A47) && !bitAt value 2 && !bitAt value 3 then
      let s1 := if bitAt value 0 then s.resetPort .cpa else s
      if bitAt value 1 then s1.resetPort .cpb else s1
    else s)

end Sys2Proof.Machine
end

