-- ==== Sys2Proof/Machine/Egress.lean ====
section
/-! DEFINITION. Egress: consumer rings, TEG writes and their credits, tokens-ready and the latency samples it gives (R22, R27, R47 to
R52, R264, R265, R433). -/

namespace Sys2Proof.Machine

/-! ## The ACTIVE epoch, which EPOCHX is told from (R290) -/

/-- A bank slot. -/
def State.bank (s : State) (h k : Nat) : Bank := Tab.get s.conf.banks (4 * h + k) Bank.reset

/-- The slot of a head set in a state. -/
def State.slotIn (s : State) (h : Nat) (st : BankSt) : Option Nat := (List.range 4).find? (fun k => (s.bank h k).st = st)

/-- The ACTIVE epoch of a head set, 0xFFFF with none. -/
def State.activeEpoch (s : State) (h : Nat) : Half := ((s.slotIn h .active).map (fun k => (s.bank h k).epoch)).getD 0xFFFF

/-! ## Rings and records -/

/-- A consumer ring. -/
def State.cring (s : State) (r : Nat) : CRing := Tab.get s.conf.crings r CRing.reset

/-- A consumer ring replaced. -/
def State.setCring (s : State) (r : Nat) (c : CRing) : State := { s with conf := { s.conf with crings := Tab.set s.conf.crings r c } }

/-- Units of a record. -/
def EgRec.units (r : EgRec) : Nat := r.words.length / 8

/-- The flag EPOCHX of a TREC set by the ACTIVE epoch of its head set (Table 2.4). -/
def epochxWords (ws : List Word) (act : Half) : List Word :=
  ws.mapIdx (fun i w => if i = 1 then (w &&& 0xEFFFFFFF) ||| (if bitsAt (ws.getD 5 0) 0 16 = act.toNat then 0 else 0x10000000) else w)

/-- The words of a record as it is issued now: EPOCHX and TSTAMP are those of the tick of egress (R290, Table 2.2). -/
def State.issued (s : State) (r : EgRec) : List Word :=
  let ws := match r.hset with
    | some h => epochxWords r.words (s.activeEpoch h)
    | none => r.words
  if r.stamp then stampWords ws s.now else ws

/-- Units of a ring's buffer. -/
def CRing.size (c : CRing) : Nat := 2 ^ c.log2u

/-- Units left before the end of the buffer. -/
def CRing.left (c : CRing) : Nat := c.size - c.pi % c.size

/-- The key a unit is written at (R47). -/
def CRing.at_ (c : CRing) : Nat := addrKey c.base + 32 * (c.pi % c.size)

/-- A record counted undelivered (R398, Table 21.9) (DEDUCED, log 119). -/
def State.undelivered (s : State) : State := (s.bump offUndeliv).setFault 7

/-- A row whose record has been issued or counted undelivered leaves the rows in flight (R22). -/
def State.dropRow (s : State) (k : Option RowKey) : State :=
  match k with
  | none => s
  | some k => { s with rows := s.rows.filter (fun r => !(decide (r.key = k) && r.decided)) }

/-- A TREC issued: counted by its kind (R278), its row leaves, its tokens-ready is owed (R264). -/
def State.trecIssued (s : State) (r : EgRec) : State :=
  match r.key with
  | none => s
  | some _ =>
    let k := bitsAt (r.words.getD 0 0) 24 3
    let s1 := (s.bump64N (offRec k) 1).dropRow r.key
    { s1 with eg := { s1.eg with ready := s1.eg.ready ++ [{ ring := r.ring, handle := r.handle, sample := r.sample, grp := r.grp }] } }

/-- The next units of a record that a beat takes, and the record after it. -/
def State.unitsOut (s : State) (r : EgRec) (n : Nat) : List Word := ((s.issued r).drop (8 * r.done)).take (8 * n)

/-- The record that shares a beat with the last unit of another: the next one for the same ring, which stands whole behind it, when it fits and
the ring has the credit (R52, Table 2.10). -/
def State.partner (s : State) (r : EgRec) (rest : List EgRec) : Option EgRec :=
  let c := s.cring r.ring
  rest.head?.filter (fun q => decide (r.units - r.done = 1 ∧ q.ring = r.ring ∧ q.done = 0 ∧ 1 + q.units ≤ c.left ∧ 2 ≤ c.credits))

/-- One beat of at most two units written (R52): fabric credit and ring credits fall, PI advances, the write waits for its
acknowledgement. -/
def State.egBeat (s : State) (r : EgRec) (rest : List EgRec) : State :=
  let n := min 2 (r.units - r.done)
  let p := s.partner r rest
  let c := s.cring r.ring
  let m := n + b2n p.isSome
  let ws := s.unitsOut r n ++ (p.map (fun q => s.unitsOut q 1)).getD []
  let w : TegWrite := { tag := s.eg.tag, ring := r.ring, notify := false, addr := c.at_, words := ws, retry := false,
                        grps := r.grp :: (p.map (fun q => q.grp)).toList }
  let s1 := s.setCring r.ring { c with pi := (c.pi + m) % 2 ^ 32, credits := c.credits - m, unacked := c.unacked + 1 }
  let tail := match p with
    | some q => (if q.units = 1 then [] else [{ q with done := 1 }]) ++ rest.tail
    | none => rest
  let r1 := { r with done := r.done + n }
  let s2 := { s1 with
    eg := { s1.eg with fabric := s1.eg.fabric - 1, queue := if r1.done < r1.units then r1 :: tail else tail, outst := s1.eg.outst ++ [w],
                       tag := (s1.eg.tag + 1) % 256 },
    outs := Out.teg w.tag false w.addr ws :: s1.outs }
  let s3 := if r.done = 0 then s2.trecIssued r else s2
  match p with
  | some q => s3.trecIssued q
  | none => s3

/-- PAD records before a record that does not fit in the units left (R48). -/
def padRec (ring units : Nat) (due : Nat) : EgRec :=
  { ring := ring, words := padWords units, stamp := false, done := 0, due := due, missed := true, key := none, handle := noHandle,
    sample := false, prompt := none, hset := none, grp := 0 }

/-- One action of egress on the record at the front of its queue, if it can act: a record for a failed ring is counted undelivered
and discarded (R398), a record that does not fit is padded, a beat is written when both kinds of credit suffice. -/
def State.egStep (s : State) : Option State :=
  match s.eg.queue with
  | [] => none
  | r :: rest =>
    let c := s.cring r.ring
    if c.failed then some (({ s with eg := { s.eg with queue := rest } }).undelivered.dropRow r.key)
    else if r.done = 0 ∧ c.left < r.units then
      some { s with eg := { s.eg with queue := padRec r.ring (min 7 c.left) r.due :: r :: rest } }
    else if s.eg.fabric = 0 ∨ c.credits < min 2 (r.units - r.done) ∨ s.eg.outst.any (fun w => w.tag = s.eg.tag) then none
    else some (s.egBeat r rest)

/-- Egress acts until it cannot. -/
def egRun : Nat → State → State
  | 0, s => s
  | n + 1, s =>
    match s.egStep with
    | none => s
    | some s' => egRun n s'

/-- A record that stands in the queue at the moment R22 requires it is a deadline miss (R27). -/
def State.missCheck (s : State) : State :=
  let hit := fun (r : EgRec) => decide (r.done = 0) && !r.missed && r.key.isSome && decide (r.due ≤ s.now)
  let n := (s.eg.queue.filter hit).length
  if n = 0 then s
  else
    let s1 := { s with eg := { s.eg with queue := s.eg.queue.map (fun r => if hit r then { r with missed := true } else r) } }
    (s1.bumpN offDlMiss n).setCause cDlMiss

/-- Egress issues every record it can, then counts deadline misses. -/
def State.pump (s : State) : State := (egRun (3 * (s.eg.fabric + s.eg.queue.length + 1)) s).missCheck

/-- Records given to egress in their order, as one group. -/
def State.emit (s : State) (rs : List EgRec) : State :=
  { s with eg := { s.eg with queue := s.eg.queue ++ rs.map (fun r => { r with grp := s.eg.grp }), grp := s.eg.grp + 1 } }

/-! ## Latency samples (R264, R265) -/

/-- A context. -/
def State.ctx (s : State) (slot : Nat) : Scx := Tab.get s.scx slot Scx.zero

/-- A context replaced. -/
def State.setCtx (s : State) (slot : Nat) (c : Scx) : State := { s with scx := Tab.set s.scx slot c }

/-- A slot-table entry. -/
def State.slot (s : State) (n : Nat) : SlotEnt := Tab.get s.slots n SlotEnt.reset

/-- A slot-table entry as it stands in the directory region (Table 12.3): GEN, RSTATE, LOST, LASTUSE, HEADLOC. -/
def slotWords (e : SlotEnt) : List Word :=
  [w32 (e.gen % 256 + putBits (e.rstate % 8) 8 + putBits (b2n e.lost) 11), e.lastUse, lo32 e.headloc, hi32 e.headloc]

/-- A segment-directory entry (Table 12.3). -/
def segWords (c : CountPart) : List Word :=
  [w32 (c.counts.length % 2 ^ 17 + putBits (b2n c.dense) 17 + putBits (b2n c.lost) 18), c.lastUse, lo32 c.loc, hi32 c.loc]

/-- An entry of the directory region written: the slot table takes its first 1 MiB, the segment directory the second (R239; the table SRAM
writes through, DESIGN CHOICE, log 139). -/
def State.dirStore (s : State) (at_ : Nat) (ws : List Word) : Memory :=
  match Tab.find? s.conf.regions 3 with
  | none => s.mem
  | some r => s.mem.store (addrKey r.base + at_) (wordsBytes ws)

/-- A slot-table entry replaced. -/
def State.setSlot (s : State) (n : Nat) (e : SlotEnt) : State :=
  { s with slots := Tab.set s.slots n e, mem := s.dirStore (16 * n) (slotWords e) }

/-- A COUNT part. -/
def State.count (s : State) (n : Nat) : CountPart := Tab.get s.counts n CountPart.reset

/-- A COUNT part replaced, with its directory entry. -/
def State.setCount (s : State) (n : Nat) (c : CountPart) : State :=
  { s with counts := Tab.set s.counts n c, mem := s.dirStore (2 ^ 20 + 16 * n) (segWords c) }

/-- A COUNT part that is no more. -/
def State.delCount (s : State) (n : Nat) : State :=
  { s with counts := Tab.del s.counts n, mem := s.dirStore (2 ^ 20 + 16 * n) (segWords CountPart.reset) }

/-- A miss loads the capture register and sets its cause (R265, R433). -/
def State.latMiss (s : State) (h : Handle) (kind off cause excess : Nat) : State :=
  let s1 := s.bump off
  ({ s1 with latcap := { handle := h, kind := kind, valid := true, excess := min excess (2 ^ 24 - 1) } }).setCause cause

/-- Bin of the TBT histogram (Table 13.1). -/
def tbtBin (v : Nat) : Nat := if v < 128 then 0 else min 15 (v.log2 - 6)

/-- What a context gives the latency samples. -/
def Scx.lat (c : Scx) : LatCtx := { topen := c.topen, tlast := c.tlast, done := c.ttftDone, ttft := c.rs.ttftgoal, tbt := c.rs.tbtgoal }

/-- The handle's request is still open on its slot. -/
def State.openHandle (s : State) (h : Handle) : Bool := decide ((s.slot h.slot).gen = h.gen ∧ (s.slot h.slot).rstate ≠ 0)

/-- What the samples of a handle are taken with: its context, or what was kept of it when it closed. -/
def State.latOf (s : State) (h : Handle) : Option LatCtx :=
  if s.openHandle h then some (s.ctx h.slot).lat else (s.eg.closed.find? (fun e => decide (e.1 = h))).map (fun e => e.2)

/-- TLAST moved to a tick. -/
def State.setLast (s : State) (h : Handle) (now : Word) : State :=
  if s.openHandle h then s.setCtx h.slot { s.ctx h.slot with ttftDone := true, tlast := now }
  else { s with eg := { s.eg with closed := s.eg.closed.map (fun (e : Handle × LatCtx) => if e.1 = h then (h, { e.2 with done := true, tlast := now }) else e) } }

/-- The latency sample of a committing record at its tokens-ready tick (R264, R265). -/
def State.latency (s : State) (h : Handle) : State :=
  let now := BitVec.ofNat 32 s.now
  match s.latOf h with
  | none => s
  | some c =>
    if c.done = false then
      let v := (now - c.topen).toNat
      let s1 := (s.setLast h now).bump offTtftS
      if c.ttft ≠ 0 ∧ c.ttft < v then s1.latMiss h 0 offTtftM cTtft (v - c.ttft) else s1
    else
      let v := (now - c.tlast).toNat
      let s1 := ((s.setLast h now).bump offTbtS).bump (offTbtHist (tbtBin v))
      if c.tbt ≠ 0 ∧ c.tbt < v then s1.latMiss h 1 offTbtM cTbt (v - c.tbt) else s1

/-- Every write of a group is acknowledged: those of a row's record and of its side records (R17). -/
def State.grpDone (s : State) (g : Nat) : Bool := !s.eg.queue.any (fun r => decide (r.grp = g)) && !s.eg.outst.any (fun w => w.grps.contains g)

/-- Tokens-ready of a ring: the notify write of its PI, once every unit below it is acknowledged, and with them every side record of the rows
that it covers (R17, R49); the records it covers give their samples, lower slots last so that theirs stands in the capture register (R433). -/
def State.tokensReady (s : State) (ring : Nat) : State :=
  let c := s.cring ring
  let mine := s.eg.ready.filter (fun r => r.ring = ring)
  if c.failed = true ∨ c.unacked ≠ 0 ∨ c.notified = c.pi ∨ s.eg.fabric = 0 ∨ s.eg.outst.any (fun w => w.tag = s.eg.tag)
      ∨ mine.any (fun r => !s.grpDone r.grp) = true then s
  else
    let ws : List Word := [BitVec.ofNat 32 c.pi]
    let w : TegWrite := { tag := s.eg.tag, ring := ring, notify := true, addr := addrKey c.notify, words := ws, retry := false, grps := [] }
    let s1 := s.setCring ring { c with notified := c.pi }
    let left := s1.eg.ready.filter (fun r => r.ring ≠ ring)
    let s2 := { s1 with
      eg := { s1.eg with fabric := s1.eg.fabric - 1, outst := s1.eg.outst ++ [w], tag := (s1.eg.tag + 1) % 256, ready := left },
      outs := Out.teg w.tag true w.addr ws :: s1.outs }
    let due := sortBy (fun (a b : Ready) => decide (b.handle.slot < a.handle.slot)) (mine.filter (fun r => r.sample))
    let s3 := due.foldl (fun s r => s.latency r.handle) s2
    { s3 with eg := { s3.eg with closed := s3.eg.closed.filter (fun e => left.any (fun r => decide (r.handle = e.1))) } }

/-- Tokens-ready of every ring that owes it (DEDUCED, log 100). -/
def State.notifyAll (s : State) : State := (List.range 16).foldl (fun s r => s.tokensReady r) s

/-- A write acknowledged: its data stands in memory (R52). -/
def State.tegOk (s : State) (w : TegWrite) : State :=
  let s1 := ({ s with eg := { s.eg with outst := s.eg.outst.erase w } }).storeWords w.addr w.words
  if w.notify then s1
  else
    let c := s1.cring w.ring
    (s1.setCring w.ring { c with unacked := c.unacked - 1 }).notifyAll

/-- A write answered with an error response for the first time is issued once more (R52); the reissue takes no new credit (DESIGN CHOICE, log 17). -/
def State.tegRetry (s : State) (w : TegWrite) : State :=
  { s with eg := { s.eg with outst := s.eg.outst.map (fun x => if x = w then { w with retry := true } else x) },
           outs := Out.teg w.tag w.notify w.addr w.words :: s.outs }

end Sys2Proof.Machine
end

