-- ==== Sys2Proof/Machine/Serve.lean ====
section
/-! DEFINITION. Fallback records and their effects (R22 to R25, R42), entry into the safe state (R399, R400), and the Windfall
capture that it starts (R402, R403, R405). -/

namespace Sys2Proof.Machine

/-- A punnet in flight on this instance. -/
def State.punnet (s : State) (n : Nat) : Option Punnet := s.puns.find? (fun p => p.num = n)

/-- The epoch a request pins for a head set, if it does (R291). -/
def Scx.pin (c : Scx) (h : Nat) : Option Half := if c.pinmask.testBit h then some (c.pinep.getD h 0) else none

/-- EPOCH of a row's record (R42, Table 2.2): the epoch pinned, else the one fixed for its punnet, else 0xFFFF. -/
def State.rowEpoch (s : State) (r : Row) : Half :=
  match r.punnet with
  | none => 0xFFFF
  | some n =>
    match s.punnet n with
    | none => 0xFFFF
    | some p => ((p.rows.find? (fun q => q.key = r.key)).map (fun q => q.epoch)).getD (p.epochs.getD r.rd.hset 0xFFFF)

/-- Issue-by tick of a row (R22, R260). -/
def Row.due (r : Row) : Nat := r.admTick + r.rd.deadline - r.reserve

/-- A row's TREC as egress holds it, for the token ring of its request. -/
def State.trecRec (s : State) (r : Row) (t : Trec) (sample : Bool) : EgRec :=
  { ring := (s.ctx r.key.handle.slot).tring, words := trecWords t, stamp := true, done := 0, due := r.due, missed := false,
    key := some r.key, handle := r.key.handle, sample := sample, prompt := none, hset := none, grp := 0 }

/-- A row marked as settled. -/
def State.markDecided (s : State) (k : RowKey) (charged : Bool) : State :=
  { s with rows := s.rows.map (fun (r : Row) => if r.key = k ∧ r.home = true ∧ r.decided = false then { r with decided := true, charged := charged } else r) }

/-- The first row of a key that this instance homes and that is not settled. -/
def State.openRow (s : State) (k : RowKey) : Option Row := s.rows.find? (fun r => decide (r.key = k) && r.home && !r.decided)

/-- A fallback record settled for a row (R42). -/
def State.fallback (s : State) (r : Row) (kind : Nat) : State :=
  let t := fallbackTrec r.key kind (s.ctx r.key.handle.slot).fill (s.rowEpoch r)
  ({ s with rows := s.rows.map (fun (x : Row) => if x.seq = r.seq then { x with decided := true } else x) }).emit [s.trecRec r t false]

/-- A request enters HOLD on this instance (R24). -/
def State.holdHere (s : State) (slot : Nat) : State :=
  let e := s.slot slot
  if e.rstate = 1 then s.setSlot slot { e with rstate := 2 } else s

/-- The request of a row enters HOLD; every instance learns of it, from the root (R24, R236, DESIGN CHOICE, log 42). -/
def State.enterHold (s : State) (slot : Nat) : State :=
  if (s.slot slot).rstate ≠ 1 then s
  else
    let s1 := s.holdHere slot
    if s1.isRoot then s1.bcastOthers { hdr := s1.hdr 0 true 0 0 0 noHandle, body := .cmd (.ack slot 11) }
    else s1.sendTo s1.orch.rootSh (.cmd (.ack slot 11))

/-- The word of a home, at the root, that a request has entered HOLD: every other instance is told. -/
def State.holdSaid (s : State) (slot : Nat) : State :=
  (s.holdHere slot).bcastOthers { hdr := s.hdr 0 true 0 0 0 noHandle, body := .cmd (.ack slot 11) }

/-- A VOID record settled for a row with its cause: counted, and the request enters HOLD (R24, R396). -/
def State.voidRow (s : State) (r : Row) (cause : Nat) : State :=
  ((s.fallback r kVoid).countVoid (r.cause.getD cause)).enterHold r.key.handle.slot

/-- A VOID record on the SAFE path: counted, no context state changes (R400). -/
def State.voidSafe (s : State) (r : Row) (cause : Nat) : State := (s.fallback r kVoid).countVoid (r.cause.getD cause)

/-- Charges returned under R268, counted at the home. -/
def State.countReturned (s : State) (n : Nat) : State := if n = 0 then s else s.bump64N offRetChg n

/-- Charges given back (R268): they leave the request's count, and at the root the tenant's, and return there to a limited balance. -/
def State.uncharge (s : State) (slot d : Nat) : State :=
  let x := s.ctx slot
  let s1 := if (s.slot slot).rstate = 0 then s else s.setCtx slot { x with charged := x.charged - d }
  if s.isRoot then
    let t := Tab.get s1.tenants x.tenant Tenant.reset
    { s1 with tenants := Tab.set s1.tenants x.tenant { t with charged := t.charged - d, bal := if t.limit then t.bal + d else t.bal } }
  else s1

/-- Charges of a request given back by its home, which tells the root of each (R268, DESIGN CHOICE, log 102). -/
def State.giveBack (s : State) (slot d : Nat) : State :=
  let s1 := (s.countReturned d).uncharge slot d
  if s.isRoot then s1
  else (List.range d).foldl (fun (s : State) _ => s.sendTo s.orch.rootSh (.cmd (.ack slot 12))) s1

/-- Commits held here that come to nothing: their charges are given back (R268). -/
def State.dropCommits (s : State) (p : HomeCommit → Bool) : State :=
  (s.hcom.filter (fun c => p c && decide (c.charge ≠ 0))).foldl (fun (s : State) c => s.giveBack c.key.handle.slot c.charge)
    { s with hcom := s.hcom.filter (fun c => !p c) }

/-- Rows this instance homes that have no settled record, by issue-by tick (R400). -/
def State.openRows (s : State) : List Row :=
  sortBy (fun (a b : Row) => decide (a.due < b.due)) (s.rows.filter (fun r => r.home && !r.decided))

/-! ## Windfall: the capture's start -/

/-- Size of a region in MiB units to bytes, and the header words of a capture (Table 19.3); BCRC is given. -/
def State.windHeader (s : State) (size written status : Nat) (bcrc : Word) (dir : List Word) : List Word :=
  let w := s.wind
  let a : List Word :=
    [0x4C464457, BitVec.ofNat 32 (1 + putBits 10 16),
     BitVec.ofNat 32 (w.cause % 256 + putBits (w.prior % 8) 8 + putBits (b2n w.manual) 11 + putBits (status % 4) 12
       + putBits (b2n w.acked) 14),
     BitVec.ofNat 32 (s.orch.addr % 1024 + putBits (s.orch.shard % 1024) 16),
     lo32 (Config.factoryFuse 0), hi32 (Config.factoryFuse 0),
     BitVec.ofNat 32 w.trig, BitVec.ofNat 32 (w.trig / 2 ^ 32),
     BitVec.ofNat 32 size, BitVec.ofNat 32 written, s.boot.fwrel, BitVec.ofNat 32 (min w.skipped 65535), 0, 0, bcrc]
  a ++ [crcWords a] ++ dir ++ List.replicate (1024 - 16 - dir.length) 0

/-- A capture starts: its header is written with STATUS 0 (R403). A capture still held is kept, and SKIPPED advances in its header
(R405). With no region there is no capture (R402). -/
def State.windStart (s : State) (manual : Bool) (cause prior : Nat) : State :=
  match s.wind.region with
  | none => s
  | some rg =>
    if s.wind.held ∧ s.wind.acked = false ∧ s.wind.running = false then
      let s1 := { s with wind := { s.wind with skipped := min 65535 (s.wind.skipped + 1) } }
      let k := addrKey rg.base
      let a := (s.mem.words k 11) ++ [BitVec.ofNat 32 s1.wind.skipped] ++ s.mem.words (k + 0x30) 3
      s1.storeWords k (a ++ [crcWords a])
    else
      let s1 := { s with wind := { s.wind with held := false, running := true, manual := manual, cause := cause, prior := prior,
                                               status := 0, acked := false, written := 4096, skipped := 0, trig := s.now } }
      s1.storeWords (addrKey rg.base) (s1.windHeader rg.len 4096 0 0 [])

/-! ## The safe state -/

/-- Code of a block state (Table 17.2). -/
def blkCode : Blk → Nat
  | .boot => 0
  | .selftest => 1
  | .ready => 2
  | .run => 3
  | .drain => 4
  | .safe => 5
  | .dump => 6

/-- The completion of a job that the instance's SAFE entry ends (R288, R361, Table 14.5, Table 17.4); none for the jobs that live on. -/
def safeCpl (j : Job) : Option Cpl :=
  match j.kind with
  | .load _ _ => some (Cpl.of stFault 0x14)
  | .switch _ _ _ => some (Cpl.of stFault 0x14)
  | .forward _ => none
  | .signal _ _ => none
  | .openNotify _ => none
  | _ => some (Cpl.of stFault 0x30)

/-- Every sync counter becomes free (Table 15.10). -/
def State.freeAllCtrs (s : State) : State := (s.ctrs.map (·.1)).foldl (fun s n => s.ctrFree n) s

/-- A SAFE notice to the group: down the tree, and to the root (R399). -/
def State.safeNotice (s : State) (cause : Nat) : State :=
  let b := Body.event (.safe cause (BitVec.ofNat 32 s.now))
  let s1 := s.bcastOthers { hdr := s.hdr 0 true 0 0 0 noHandle, body := b }
  if s.isRoot then s1 else s1.sendTo s.orch.rootSh b

/-- An emptied slot keeps its regions (R280). -/
def Bank.emptied (b : Bank) : Bank := { Bank.reset with code := b.code, side := b.side, shadow := b.shadow }

/-- The banks when loads end here: no slot is LOADING or prepared for a load (R288). -/
def unloaded (bs : Tab Bank) : Tab Bank := Tab.mapVals bs (fun _ b => if b.st = .loading ∨ b.st = .empty then b.emptied else b)

/-- Entry into SAFE (R399, R400): status recorded, cause set on both ports, notice sent, jobs ended, counters freed, barriers
restarted, LOADING slots emptied (R288), every homed row without a record voided in issue-by order, and the capture started (DEDUCED,
log 101). -/
def State.enterSafe (s : State) (cause : Nat) : State :=
  let prior := blkCode s.blk
  let s1 := { s with
    blk := .safe,
    faults := { s.faults with safe := true, scause := cause, prior := prior, stick := BitVec.ofNat 32 s.now, holdOpen := true },
    wind := if s.wind.running then { s.wind with running := false } else s.wind,
    conf := { s.conf with banks := unloaded s.conf.banks } }
  let s2 := ((s1.setCause cSafe).safeNotice cause)
  let s3 := s2.endJobs (fun j => (safeCpl j).isSome) (fun j => (safeCpl j).getD (Cpl.of stFault 0x30))
  let s4 := ((s3.freeAllCtrs).barAbortAll).dropCommits (fun _ => true)
  let s5 := s4.openRows.foldl (fun s r => s.voidSafe r 0x37) s4
  (s5.pump).windStart false cause prior

/-- A fatal fault: counted and logged; SAFE is entered unless the instance is there already (R394, R399). -/
def State.fatal (s : State) (cause : Nat) (x : Site) : State :=
  let s1 := ((s.bump (offEvent cause)).logFault cause x).setFault 2
  if s.blk = .safe then s1 else s1.enterSafe cause

end Sys2Proof.Machine
end

