-- ==== Sys2Proof/Machine/RegRead.lean ====
section
/-! DEFINITION. Factory fuses, thermal values in force, and the value each register reads as (spec/20_spares_and_calibration.md,
spec/21_register_map.md). -/

namespace Sys2Proof.Machine

/-! ## Factory fuses (Table 20.4) -/

/-- Bits of the factory fuses, up to 64 of them. -/
def fuse (lo len : Nat) : Nat :=
  (((Config.factoryFuse (lo / 64)).toNat + (Config.factoryFuse (lo / 64 + 1)).toNat * 2 ^ 64) >>> (lo % 64)) % 2 ^ len

/-- Die identity (R303). -/
def dieId : W64 := Config.factoryFuse 0

/-- RNG base seed (R163). -/
def fuseSeed : W64 := Config.factoryFuse 1

/-- A signed byte. -/
def sx8 (n : Nat) : Int := if n % 256 < 128 then (n % 256 : Nat) else (n % 256 : Nat) - 256

/-- A signed 12-bit reading. -/
def sx12 (n : Nat) : Int := if n % 4096 < 2048 then (n % 4096 : Nat) else (n % 4096 : Nat) - 4096

/-- Sensor offset of the factory trim. -/
def fuseThOff (i : Nat) : Int := sx8 (fuse (3728 + 8 * i) 8)

/-- Factory thresholds TWARN, THOT, TTRIP. -/
def fuseTlim : Nat × Nat × Nat := (fuse 3792 8, fuse 3800 8, fuse 3808 8)

/-- Factory divider skews. -/
def fuseSkew (i : Nat) : Int := sx8 (fuse (3944 + 8 * i) 8)

/-- Largest adjustments of an offset, a droop threshold and a skew. -/
def fuseBnd (i : Nat) : Nat := fuse (3984 + 8 * i) 8

/-- Effective thresholds (R421). -/
def State.tlim (s : State) : Nat × Nat × Nat := s.rep.cal.tlim.getD fuseTlim

/-- The effective RNG base seed (R421). -/
def State.baseSeed (s : State) : W64 := fuseSeed ^^^ s.rep.cal.seed

/-! ## Power and temperature as registers show them -/

/-- Array duty of a thermal level in 1/256 (Table 18.8); level 3 stops the array. -/
def thermalDuty (lvl : Nat) : Nat := [256, 192, 102, 0].getD lvl 0

/-- Duty limit in force: the stricter of cap and thermal (R392). -/
def State.duty (s : State) : Nat := min s.pwr.capDuty (thermalDuty s.pwr.thLevel)

/-- PM_ALERT: a thermal or power-cap throttle holds (Table 18.7, R391). -/
def State.alert (s : State) : Bool := decide (1 ≤ s.pwr.thLevel) || decide (s.pwr.capDuty < 256) || s.pwr.capLow

/-! ## Register values -/

/-- The two halves of a 64-bit register. -/
def half64 (v : Nat) (hi : Bool) : Nat := if hi then v / 2 ^ 32 % 2 ^ 32 else v % 2 ^ 32

/-- JG_RCTL_n (Table 16.3). -/
def Ring.rctl (q : Ring) : Nat :=
  b2n q.en + putBits (q.sqlog % 16) 1 + putBits (q.cqlog % 16) 5 + putBits (q.vec % 16) 9 + putBits (b2n q.cie) 13
    + putBits (b2n q.err) 14 + putBits (b2n q.busy) 15 + putBits (q.errcode % 256) 16 + putBits (q.errcnt % 256) 24

/-- A word of a ring block (Table 16.2). -/
def Ring.reg (q : Ring) (off : Nat) : Nat :=
  match off with
  | 0x00 => half64 q.sqb.toNat false
  | 0x04 => half64 q.sqb.toNat true
  | 0x08 => half64 q.cqb.toNat false
  | 0x0C => half64 q.cqb.toNat true
  | 0x10 => q.rctl
  | 0x1C => q.sqh.toNat
  | 0x20 => q.cqt.toNat
  | 0x24 => q.cqh.toNat
  | _ => 0

/-- A word of a port window (Table 21.1). -/
def State.portReg (s : State) (p : PortId) (off : Nat) : Nat :=
  let q := s.port p
  if 0x1000 ≤ off ∧ off < 0x2000 then (q.ring ((off - 0x1000) / 64)).reg ((off - 0x1000) % 64)
  else if 0x100 ≤ off ∧ off < 0x200 then
    let v := (off - 0x100) / 16
    match (off - 0x100) % 16 with
    | 0 => half64 (Tab.get q.msga v 3).toNat false
    | 4 => half64 (Tab.get q.msga v 3).toNat true
    | 8 => (Tab.get q.msgd v 0).toNat
    | _ => 0
  else match off with
    | 0x00 => if p = .cpa then 0 else 1
    | 0x08 => q.intStatus.toNat + putBits (b2n (q.cqPend ≠ 0)) 15
    | 0x0C => q.intMask.toNat
    | 0x10 => q.mode
    | 0x14 => q.summary.toNat
    | 0x18 => q.route0.toNat
    | 0x1C => q.route1.toNat
    | 0x40 => half64 q.cqPend.toNat false
    | 0x44 => half64 q.cqPend.toNat true
    | 0x200 => q.xwr
    | 0x204 => q.semmis
    | 0x208 => q.badacc
    | 0x20C => q.msgerr
    | _ => 0

/-- JG_SEM_n (Table 16.7). -/
def Sem.reg (q : Sem) : Nat := q.owner % 4 + putBits (b2n q.abnd) 2 + putBits (q.grants % 256) 8 + putBits (q.abndcnt % 256) 24

/-- Head sets that hold a deferred switch (R290). -/
def State.deferredMask (s : State) : Nat :=
  (List.range 4).foldl (fun a h => a + (if s.jobs.any (fun j => match j.kind with
    | .switch x _ .deferred => decide (x = h)
    | _ => false) then 2 ^ h else 0)) 0

/-- Failed consumer rings. -/
def State.failedMask (s : State) : Nat := (List.range 16).foldl (fun a r => a + (if (s.cring r).failed then 2 ^ r else 0)) 0

/-- JG_LATCAP (Table 21.12). -/
def State.latcapNat (s : State) : Nat :=
  handleNat s.latcap.handle + putBits s.latcap.kind 24 + putBits (b2n s.latcap.valid) 31 + putBits s.latcap.excess 32

/-- JG_SAFE_STATUS (Table 21.8). -/
def State.safeStatus (s : State) : Nat :=
  b2n s.faults.safe + putBits s.faults.scause 8 + putBits s.faults.prior 16 + putBits s.faults.stick.toNat 32

/-- A word of the shared window (Table 21.5). -/
def State.sharedReg (s : State) (off : Nat) : Nat :=
  if off < 0x400 then (if off % 16 = 0 then (s.sem (off / 16)).reg else 0)
  else if 0x4C8 ≤ off ∧ off < 0x4E8 then
    match Tab.find? s.pwr.sense ((off - 0x4C8) / 4) with
    | none => 0
    | some t => (t % 4096).toNat + 2 ^ 15
  else if 0x5C0 ≤ off ∧ off < 0x600 then half64 (s.cnt (off / 8 * 8)) (off % 8 = 4)
  else if 0x624 ≤ off ∧ off < 0x634 then
    let j := (off - 0x624) / 4
    s.orch.dlpun.getD (2 * j) 0xFFFF + putBits (s.orch.dlpun.getD (2 * j + 1) 0xFFFF) 16
  else match off with
    | 0x400 => 0x02 + putBits Config.stepping.toNat 8 + putBits 0x4A47 16
    | 0x408 => half64 dieId.toNat false
    | 0x40C => half64 dieId.toNat true
    | 0x410 => s.orch.addr % 1024 + putBits (s.orch.shard % 1024) 10 + putBits (s.orch.n % 2048) 20 + putBits (b2n s.isRoot) 31
    | 0x414 => blkCode s.blk + putBits (s.conf.phase % 16) 3
    | 0x420 => half64 s.now false
    | 0x424 => half64 s.now true
    | 0x430 => half64 s.fwBase.toNat false
    | 0x434 => half64 s.fwBase.toNat true
    | 0x43C => s.boot.step % 16 + putBits (b2n s.boot.fail) 4 + putBits (s.boot.check % 8) 5
    | 0x440 => half64 s.safeStatus false
    | 0x444 => half64 s.safeStatus true
    | 0x448 => s.faults.status.toNat
    | 0x4C0 => s.pwr.cur % 4 + putBits (b2n s.alert) 2 + putBits (s.pwr.thLevel % 4) 3 + putBits (s.pwr.cap % 128) 5
        + putBits (s.duty % 512) 12
    | 0x4C4 => s.tlim.1 % 256 + putBits (s.tlim.2.1 % 256) 8 + putBits (s.tlim.2.2 % 256) 16
    | 0x4F0 => b2n s.dbg.en + putBits (if s.dbg.enKey then 0x4442 else 0) 16
    | 0x558 => half64 s.latcapNat false
    | 0x55C => half64 s.latcapNat true
    | 0x600 => s.pool.t1
    | 0x604 => s.pool.t2
    | 0x608 => s.pool.free
    | 0x60C => s.pool.hwm
    | 0x620 => b2n s.orch.hang + putBits s.orch.ndl 1
    | 0x660 => s.deferredMask
    | 0x6A0 => s.failedMask
    | _ => s.cnt off

/-- Words of a fault-log entry (Table 19.2). -/
def FLog.words (e : FLog) : List Word :=
  [w32 (e.cause % 256 + putBits (e.cls % 4) 8 + putBits (e.unit % 64) 10 + putBits (e.punnet % 65536) 16),
   w32 ((e.handle.map handleNat).getD 0 + putBits (e.rslot % 256) 24), e.tick,
   w32 (e.pos % 2 ^ 24 + putBits (e.rep % 128) 24 + putBits (b2n e.inj) 31)]

/-- The entry at an index of the log: the newest stands at index `logNew` (R397). -/
def Faults.entry (f : Faults) (i : Nat) : Option FLog := f.log[(f.logNew + 256 - i % 256) % 256]?

/-- Messages queued on a channel of a port. -/
def Link.queue (l : Link) (vc : Nat) : List Msg := Tab.get l.queues vc []

/-- Occupancy of a queue in 64-byte units. -/
def Link.occupancy (l : Link) (vc : Nat) : Nat :=
  ceilDiv (Tab.get l.txw vc []).length 16 + (l.queue vc).foldl (fun a m => a + msgUnits m) 0

/-- A word of the debug window (Table 21.15). -/
def State.debugReg (s : State) (off : Nat) : Nat :=
  let l := s.orch.link (bitsAt s.dbg.qsel 0 3)
  let vc := bitsAt s.dbg.qsel 4 3
  let c := s.ctr s.dbg.cntsel
  if 0x1000 ≤ off ∧ off < 0x2000 then
    match s.faults.entry ((off - 0x1000) / 16) with
    | none => 0
    | some e => (e.words.getD (off % 16 / 4) 0).toNat
  else if 0x10 ≤ off ∧ off < 0x20 then
    match (l.queue vc).head? with
    | none => 0
    | some m => ((hdrWords m).getD ((off - 0x10) / 4) 0).toNat
  else match off with
    | 0x00 => b2n s.dbg.injen + putBits (b2n s.dbg.injfatal) 1
    | 0x08 => s.dbg.qsel.toNat
    | 0x0C => min (l.occupancy vc) 65535 + putBits (Tab.get l.credits vc 0 % 65536) 16
    | 0x28 => s.dbg.cntsel
    | 0x30 => half64 c.value.toNat false
    | 0x34 => half64 c.value.toNat true
    | 0x38 => if s.dbg.cntsel < 64 then 3 else c.owner
    | 0x40 => s.dbg.sramsel
    | 0x44 => Tab.get s.faults.sramErr s.dbg.sramsel 0
    | 0x48 => s.faults.logNew % 256 + putBits (b2n s.faults.log.isEmpty) 8
    | 0x50 => s.dbg.tridx
    | 0x54 => (Config.traceWord s.dbg.captures s.dbg.tridx).toNat
    | 0x58 => s.dbg.trnext
    | _ => 0

/-- The word a register reads as. In P-RET the port and debug windows read as 0 (R424); in quarantine the port and debug windows
are held in reset and read as 0 (R385, DEDUCED, log 18). -/
def State.regWord (s : State) (addr : Nat) : Word :=
  let off := addr % 0x10000 / 4 * 4
  let open_ := decide (2 ≤ s.pwr.cur) && !s.quar
  w32 (match addr / 0x10000 with
    | 0 => if open_ then s.portReg .cpa off else 0
    | 1 => if open_ then s.portReg .cpb off else 0
    | 2 => s.sharedReg off
    | 3 => if open_ then s.debugReg off else 0
    | _ => 0)

/-- The 64-bit RO/V registers, whose low-word read latches the high word (R425), by full address of the low word. -/
def isWide (addr : Nat) : Bool :=
  decide (addr = 0x20420 ∨ addr = 0x20440 ∨ addr = 0x20558) || (decide (0x205C0 ≤ addr ∧ addr < 0x20600) && decide (addr % 8 = 0))

/-- LOW_WORD_READ: the reading port's latch takes the high word of the cycle; a read of that high word uses it up; a read that is not
aligned is a bad access (R424, R425). -/
def execLowWordRead (p : PortId) (addr : Nat) (s : State) : Host.Outcome State Fault Refusal :=
  .next (if s.pwr.clkFail then s
    else if isWide addr then s.setPort p { s.port p with latch := some (addr, s.regWord (addr + 4)) }
    else if addr % 4 ≠ 0 then s.badAccess p
    else match (s.port p).latch with
      | none => s
      | some (a, _) => if a + 4 = addr then s.setPort p { s.port p with latch := none } else s)

/-- The words of a window. -/
def State.windowWords (s : State) (base n : Nat) : List Word := (List.range n).map (fun i => s.regWord (base + 4 * i))

end Sys2Proof.Machine
end

