-- ==== Sys2Proof/Machine/Clocks.lean ====
section
/-! DEFINITION. The time base, power states, temperature and droop (R376 to R382, R389 to R392, R416). -/

namespace Sys2Proof.Machine

/-! ## The time base -/

/-- One tick of the counter: one, with one extra or one withheld when a slew is due (R380, R382). -/
def Time.tick (t : Time) : Time :=
  if t.slew = 0 ∨ t.tclk.toNat < t.lastSlew + 1024 then { t with tclk := t.tclk + 1 }
  else if 0 < t.slew then { t with tclk := t.tclk + 2, slew := t.slew - 1, lastSlew := t.tclk.toNat + 2 }
  else { t with slew := t.slew + 1, lastSlew := t.tclk.toNat }

/-- An alignment to a target value: one forward step where R382 allows it, else a slew; never backward. -/
def Time.align (t : Time) (target : Nat) : Time :=
  let d : Int := (target : Int) - (t.tclk.toNat : Int)
  if t.stepOk = true ∧ 0 < d then { t with tclk := BitVec.ofNat 64 target, slew := 0, aligned := true, stepOk := false }
  else { t with slew := d, aligned := true, stepOk := false }

/-- A time request goes to the parent (R382); the root aligns to nothing. -/
def State.timeRequest (s : State) : State :=
  if s.isRoot then { s with time := { s.time with aligned := true } }
  else s.sendTo s.orch.parentSh (.event (.timeReq s.time.tclk))

/-- A time reply: half of the round trip, less the replier's own time, is the one-way delay (R382). -/
def State.timeReplied (s : State) (sent receipt reply : W64) : State :=
  let rtt := (s.time.tclk - sent).toNat - (reply - receipt).toNat
  { s with time := s.time.align (reply.toNat + rtt / 2) }

/-- TIME_ALIGN (R382). -/
def execTimeAlign (s : State) : Host.Outcome State Fault Refusal :=
  .next (if s.live then s.timeRequest else s)

/-! ## Power states (R389, R390) -/

/-- Links put to sleep or woken (Table 18.6, R390). -/
def Orch.sleepAll (o : Orch) (v : Bool) : Orch := { o with links := Tab.mapVals o.links (fun _ l => if l.st = 2 then { l with asleep := v } else l) }

/-- Every enabled port trains again, its channel state kept (R301). -/
def Orch.retrainAll (o : Orch) : Orch :=
  { o with links := Tab.mapVals o.links (fun _ l => if l.enabled then { l with st := 1, asleep := false, train := Training.zero } else l) }

/-- A request refused: PM_NAK, nothing changes. -/
def State.pmNak (s : State) : State := s.drive .pmNak

/-- PM_REQ_RUN: from P-RET the exit begins; otherwise P-RUN is permitted already and is acknowledged (DESIGN CHOICE, log 19). -/
def execPmReqRun (s : State) : Host.Outcome State Fault Refusal :=
  .next (if s.pwr.clkFail ∨ s.pwr.cur = 0 then s
    else if s.pwr.req.isSome ∨ s.quar then s.pmNak
    else if s.pwr.cur = 1 then { s with pwr := { s.pwr with req := some 3 } }
    else s.drive .pmAck)

/-- PM_REQ_RET: only in READY; the retention notice leaves before the links idle. -/
def execPmReqRet (s : State) : Host.Outcome State Fault Refusal :=
  .next (if s.pwr.clkFail ∨ s.pwr.cur = 0 then s
    else if s.pwr.req.isSome ∨ s.quar ∨ s.blk ≠ .ready then s.pmNak
    else
      let b := Body.event .retention
      let s1 := s.bcastOthers { hdr := s.hdr 0 true 0 0 0 noHandle, body := b }
      let s2 := if s1.isRoot then s1 else s1.sendTo s1.orch.parentSh b
      { s2 with pwr := { s2.pwr with req := some 1 } })

/-- PM_REQ_OFF: in READY (P-RET included), BOOT, or SAFE once any capture has ended. -/
def execPmReqOff (s : State) : Host.Outcome State Fault Refusal :=
  .next (if s.pwr.clkFail ∨ s.pwr.cur = 0 then s
    else if s.pwr.req.isSome ∨ s.quar then s.pmNak
    else if s.blk = .ready ∨ s.blk = .boot ∨ (s.blk = .safe ∧ s.wind.running = false) then { s with pwr := { s.pwr with req := some 0 } }
    else s.pmNak)

/-- PM_TRANSITION_DONE: the state requested is reached and acknowledged. Without lock the instance stays in P-RET with PM_NAK
(Table 18.9); with it the links retrain and the counter is realigned (R390). -/
def execPmTransitionDone (locked : Bool) (s : State) : Host.Outcome State Fault Refusal :=
  .next (if s.pwr.clkFail then s else match s.pwr.req with
    | none => s
    | some 3 =>
      if locked then
        let s1 := { s with pwr := { s.pwr with cur := 2, req := none }, orch := s.orch.retrainAll, time := { s.time with stepOk := true } }
        s1.timeRequest.drive .pmAck
      else { s with pwr := { s.pwr with req := none } }.pmNak
    | some n => { s with pwr := { s.pwr with cur := n, req := none }, orch := s.orch.sleepAll true }.drive .pmAck)

/-- IDLE_TIMEOUT: in RUN, with no punnet in flight, no load and no second round, P-RUN becomes P-IDLE (R389). -/
def execIdleTimeout (s : State) : Host.Outcome State Fault Refusal :=
  .next (if s.live && decide (s.blk = .run ∧ s.pwr.cur = 3) && s.puns.isEmpty && s.asm.repeats.isEmpty
      && decide (s.asm.punOpen = none) && !(s.jobs.any (fun j => match j.kind with
        | .load _ _ => true
        | .vload _ _ _ => true
        | _ => false))
    then { s with pwr := { s.pwr with cur := 2 } } else s)

/-- The first placement returns the array to P-RUN (R389). -/
def State.wakeArray (s : State) : State := if s.pwr.cur = 2 then { s with pwr := { s.pwr with cur := 3 } } else s

/-- PLL_LOCK_LOSS: CLKFAIL is asserted and every output is held (R379). With the PLL off there is nothing to lose. -/
def execPllLockLoss (s : State) : Host.Outcome State Fault Refusal :=
  .next (if 2 ≤ s.pwr.cur ∧ s.pwr.clkFail = false then { s with pwr := { s.pwr with clkFail := true } }.drive .clkFail else s)

/-! ## Temperature and droop (R392, R416) -/

/-- A trimmed reading in 1/8 °C: raw, factory offset, overlay, and the injected offset (R421, Table 19.6). -/
def State.trimmed (s : State) (i raw : Nat) : Int :=
  sx12 raw + fuseThOff i + s.rep.cal.thadj.getD i 0 + 8 * (match s.armed 0x0E with
    | some j => j.param.toInt
    | none => 0)

/-- Threshold of a level in 1/8 °C. -/
def State.levelAt (s : State) (l : Nat) : Int :=
  8 * ((match l with
    | 1 => s.tlim.1
    | 2 => s.tlim.2.1
    | _ => s.tlim.2.2 : Nat) : Int)

/-- The thermal level for a hottest reading: a level is entered at its threshold and left 5 °C below it (R392, Table 18.8). -/
def State.levelFor (s : State) (hot : Int) : Nat :=
  ([3, 2, 1].find? (fun l => decide (s.levelAt l ≤ hot) || (decide (l ≤ s.pwr.thLevel) && decide (s.levelAt l - 40 < hot)))).getD 0

/-- THERMAL_SAMPLE: the eight sensors read; a change of level sets the cause, level 3 is fatal (R392). -/
def execThermalSample (raw : List Nat) (s : State) : Host.Outcome State Fault Refusal :=
  .next (if s.live = false then s
    else
      let ts := (List.range 8).map (fun i => s.trimmed i (raw.getD i 0))
      let hot := ts.foldl max (ts.getD 0 0)
      let s0 := if (s.armed 0x0E).isSome then s.fire 0x0E else s
      let l := s.levelFor hot
      let s1 := { s0 with pwr := { s0.pwr with sense := (List.range 8).map (fun i => (i, ts.getD i 0)), thLevel := l } }
      let s2 := if l ≠ s.pwr.thLevel then s1.setCause cThermal else s1
      if l = 3 ∧ s.pwr.thLevel ≠ 3 then s2.fatal 0x43 Site.none else s2)

/-- DROOP_TRIP: the detector holds the array for 16 ACLK cycles; the wait is counted and changes no value (R416). -/
def execDroopTrip (detector : Nat) (s : State) : Host.Outcome State Fault Refusal :=
  .next (if s.live then
      let s1 := s.bump offDroop
      { s1 with pwr := { s1.pwr with droopHit := if s1.pwr.droopHit.contains detector then s1.pwr.droopHit else s1.pwr.droopHit ++ [detector] } }
    else s)

end Sys2Proof.Machine
end

