-- ==== Sys2Proof/Machine/Link.lean ====
section
/-! DEFINITION. The Orchard link layer: frames, credits, acknowledgement and replay, training and retraining (R297 to R301, R328 to
R330). -/

namespace Sys2Proof.Machine

/-! ## Frames (Table 15.3) -/

/-- FTYPE codes. -/
def ftIdle : Nat := 0
def ftData : Nat := 1
def ftAck : Nat := 2
def ftNak : Nat := 3
def ftTrain : Nat := 4
def ftRetrain : Nat := 5

/-- VC of a frame. -/
def frVc (f : Frame) : Nat := bitsAt f.w0 4 3

/-- SEQ. -/
def frSeq (f : Frame) : Nat := bitsAt f.w0 8 12

/-- ACK. -/
def frAck (f : Frame) : Nat := bitsAt f.w0 20 12

/-- NU. -/
def frNu (f : Frame) : Nat := bitsAt f.w1 0 4

/-- The CRC covers header and payload, and the payload has the length that NU gives. -/
def frOk (f : Frame) : Bool := decide (f.payload.length = 16 * frNu f) && decide (f.crc = crcWords (f.w0 :: f.w1 :: f.payload))

/-- A frame formed. -/
def mkFrame (ft vc seq ack nu crvc crcnt reason : Nat) (payload : List Word) : Frame :=
  let a := w32 (ft % 16 + putBits (vc % 8) 4 + putBits (seq % 4096) 8 + putBits (ack % 4096) 20)
  let b := w32 (nu % 16 + putBits (crvc % 8) 4 + putBits (crcnt % 256) 7 + putBits (reason % 8) 15)
  { w0 := a, w1 := b, payload := payload, crc := crcWords (a :: b :: payload) }

/-- The channel whose credits are returned next, and how many (R298). -/
def Link.owes (l : Link) : Nat × Nat :=
  match List.find? (fun (e : Nat × Nat) => decide (0 < e.2)) l.owed with
  | some e => (e.1, min 255 e.2)
  | none => (0, 0)

/-- The link after returning those credits. -/
def Link.paid (l : Link) : Link :=
  let (vc, n) := l.owes
  { l with owed := Tab.upd l.owed vc 0 (· - n) }

/-- Replay window of a port (R299). -/
def replayWindow (p : Nat) : Nat := if p ≤ 2 then 256 else 1024

/-- The link carries frames. -/
def Link.up (l : Link) : Bool := decide (l.st = 2) && !l.asleep

/-- A channel with something to send and credit for it: the unsent rest of a message, or the next message. -/
def Link.ready (l : Link) (vc : Nat) : Bool :=
  (!(Tab.get l.txw vc []).isEmpty || !(l.queue vc).isEmpty) && decide (0 < Tab.get l.credits vc 0)

/-- The stream of a channel with its next message begun when the last is sent: a message's words, its last unit closed with pad
words (R330, DESIGN CHOICE, log 20). -/
def Link.begin_ (l : Link) (vc : Nat) : Link :=
  if (Tab.get l.txw vc []).isEmpty then
    match l.queue vc with
    | [] => l
    | m :: r =>
      let ws := msgWords m
      { l with txw := Tab.set l.txw vc (ws ++ List.replicate ((16 - ws.length % 16) % 16) 0), queues := Tab.set l.queues vc r }
  else l

/-- One DATA frame sent on a channel: at most eight units, no more than the credit held; it stays in the replay buffer. -/
def Link.sendData (l : Link) (vc : Nat) : Link × Frame :=
  let l1 := l.begin_ vc
  let ws := Tab.get l1.txw vc []
  let n := min (min 8 (ws.length / 16)) (Tab.get l1.credits vc 0)
  let (cv, cc) := l1.owes
  let f := mkFrame ftData vc l1.nextSeq l1.lastAcc n cv cc 0 (ws.take (16 * n))
  ({ l1.paid with txw := Tab.set l1.txw vc (ws.drop (16 * n)), credits := Tab.upd l1.credits vc 0 (· - n),
                  nextSeq := (l1.nextSeq + 1) % 4096, replay := l1.replay ++ [f] }, f)

/-- Channels in the order in which a port serves them: CTL first, which nothing holds back (R298, DESIGN CHOICE, log 20). -/
def vcOrder : List Nat := [4, 0, 1, 2, 3]

/-- A port sends what its credits and its replay window allow (R298, R299). -/
def linkRun (p : Nat) : Nat → Link → List Frame → Link × List Frame
  | 0, l, fs => (l, fs)
  | n + 1, l, fs =>
    if l.up && decide (l.replay.length < replayWindow p) then
      match vcOrder.find? (fun vc => l.ready vc) with
      | none => (l, fs)
      | some vc =>
        let (l1, f) := l.sendData vc
        linkRun p n l1 (fs ++ [f])
    else (l, fs)

/-- A message moved on UP, DOWN, REQ or RSP (R323): a blocked instance tells the root that it progresses. -/
def State.progress (s : State) : State :=
  let s1 := { s with orch := { s.orch with moved := s.now, blocked := false } }
  if s.orch.blocked then s1.sendTo s.orch.rootSh (.probe { prog := true, conf := false, still := false, lowpun := 0, nq := 0 }) else s1

/-- Whether any message waits on UP, DOWN, REQ or RSP of a link. -/
def Link.waiting (l : Link) : Nat :=
  ([0, 1, 2, 3].map (fun vc => (l.queue vc).length + (if (Tab.get l.txw vc []).isEmpty then 0 else 1))).foldl (· + ·) 0

/-- A port's waiting messages leave as frames; an injection sends one with a bad CRC, and the replay buffer keeps the good one (R407). -/
def State.pumpLink (s : State) (p : Nat) : State :=
  let l := s.orch.link p
  let (l1, fs) := linkRun p (replayWindow p) l []
  if fs.isEmpty then s
  else
    let hit : Bool := match s.armed 0x08 with
      | some j => decide (j.param.toNat = p)
      | none => false
    let sent := if hit then (match fs with
      | f :: r => { f with crc := ~~~ f.crc } :: r
      | [] => []) else fs
    let s0 := if hit then s.fire 0x08 else s
    let s1 := { s0 with orch := s0.orch.setLink p l1, outs := (sent.map (fun f => Out.frame p f)).reverse ++ s0.outs }
    if l1.waiting < l.waiting then s1.progress else s1

/-- Every port's waiting messages leave as frames. -/
def State.pumpLinks (s : State) : State := (List.range 5).foldl (fun s p => s.pumpLink p) s

/-- ACK: the frames it covers leave the replay buffer (R299). -/
def Link.acked (l : Link) (ack : Nat) : Link :=
  if l.replay.any (fun f => frSeq f = ack) then
    { l with replay := l.replay.drop (firstIdx (fun f => decide (frSeq f = ack)) l.replay + 1), replays := 0 }
  else l

/-- CRVC and CRCNT: credits return (R298). -/
def Link.credited (l : Link) (f : Frame) : Link :=
  let n := bitsAt f.w1 7 8
  if n = 0 then l else { l with credits := Tab.upd l.credits (bitsAt f.w1 4 3) 0 (· + n) }

/-- What every valid frame does: acknowledges, returns credit, counts (R298, R299, R301). -/
def Link.heard (l : Link) (f : Frame) : Link :=
  let l1 := (l.acked (frAck f)).credited f
  { l1 with frames := l1.frames + 1 }

/-- A frame driven at a port. -/
def State.driveFrame (s : State) (p : Nat) (f : Frame) : State := s.drive (.frame p f)

/-- A link replaced. -/
def State.setLink (s : State) (p : Nat) (l : Link) : State := { s with orch := s.orch.setLink p l }

/-- A retrain: three RETRAIN frames, then training; counted, and the Orchard link cause is set (R301, R329). -/
def State.retrain (s : State) (p reason : Nat) (send : Bool) : State :=
  let l := s.orch.link p
  let s1 := s.setLink p { l with st := 1, replays := 0, laneErr := [], frames := 0, train := Training.zero }
  let f := mkFrame ftRetrain 4 0 l.lastAcc 0 0 0 reason []
  let s2 := if send then ((s1.driveFrame p f).driveFrame p f).driveFrame p f else s1
  (s2.bump (offRetrain p)).setCause cOlink

/-- A discarded frame after an accepted one is answered with one NAK (R299). -/
def State.nak (s : State) (p : Nat) : State :=
  let l := s.orch.link p
  if l.nakSent then s
  else
    let (cv, cc) := l.owes
    (s.setLink p { l.paid with nakSent := true }).driveFrame p (mkFrame ftNak 4 0 l.lastAcc 0 cv cc 0 [])

/-- A frame whose CRC fails is discarded: a corrected event (Table 19.1, 0x03). More than 16 of them within 2^20 frames retrain the
port (R301; the lane is not known from the frame, DESIGN CHOICE, log 21). -/
def State.badFrame (s : State) (p : Nat) : State :=
  let l := s.orch.link p
  let n := (if l.frames < 2 ^ 20 then Tab.get l.laneErr 0 0 else 0) + 1
  let l1 := { l with laneErr := Tab.set l.laneErr 0 n, frames := (if l.frames < 2 ^ 20 then l.frames else 0) + 1 }
  let s1 := ((s.setLink p l1).corrected 0x03)
  if 16 < n then (s1.corrected 0x04).retrain p 1 true else s1

/-- Held frames sent again in order; after four replays the port retrains (R299). -/
def State.replay (s : State) (p : Nat) : State :=
  let l := s.orch.link p
  if l.replay.isEmpty then s
  else
    let s1 := { s.setLink p { l with replays := l.replays + 1 } with outs := (l.replay.map (fun f => Out.frame p f)).reverse ++ s.outs }
    if 4 ≤ l.replays + 1 then s1.retrain p 0 true else s1

/-- Message words of a channel's stream with whole messages removed; whether a reserved class was met (R315, R330). -/
def rxParse : Nat → List Word → List Word × Bool
  | 0, ws => (ws, false)
  | n + 1, ws =>
    match ws with
    | [] => ([], false)
    | [w] => ([w], false)
    | w :: _ :: r =>
      if w = 0 then rxParse n r
      else
        let len := 4 + 2 * bitsAt (ws.getD 3 0) 0 16
        let cls := bitsAt w 0 6
        if 0x17 < cls then ([], true)
        else if ws.length < 4 ∨ ws.length < len then (ws, false)
        else rxParse n (ws.drop len)

/-- A DATA frame accepted: its units will be returned, its words join the channel's stream (R298, R330, DESIGN CHOICE, log 22). -/
def State.acceptData (s : State) (p : Nat) (f : Frame) : State :=
  let l := s.orch.link p
  let vc := frVc f
  let ws := Tab.get l.rxw vc [] ++ f.payload
  let (rest, bad) := rxParse ws.length ws
  let s1 := s.setLink p { l with lastAcc := frSeq f, nakSent := false, owed := Tab.upd l.owed vc 0 (· + frNu f), rxw := Tab.set l.rxw vc rest }
  let s2 := if bad then s1.contained 0x18 { Site.none with unit := p } else s1
  if vc < 4 then s2.progress else s2

/-! ## Training (R328, R329) -/

/-- Lanes of a group. -/
def laneBit (m k : Nat) : Bool := m.testBit k

/-- The lanes chosen from those the peer receives well: 0 to 7, or the spare for the one bad lane, or the lowest good lanes of the
next width (R301, R328). -/
def chooseLanes (ok : Nat) : Nat × Nat :=
  let good := (List.range 9).filter (fun k => laneBit ok k)
  let bad := (List.range 8).filter (fun k => !laneBit ok k)
  let mask := fun (l : List Nat) => l.foldl (fun a k => a + 2 ^ k) 0
  if bad.isEmpty then (0xFF, 0)
  else if bad.length = 1 ∧ laneBit ok 8 = true then (mask good, 0)
  else if 4 ≤ good.length then (mask (good.take 4), 1)
  else if 2 ≤ good.length then (mask (good.take 2), 2)
  else (mask (good.take 1), 3)

/-- Working lanes of a WCODE. -/
def lanesOf (wcode : Nat) : Nat := [8, 4, 2, 1].getD wcode 8

/-- Good lanes by ALIGN words: 64 in a row with a correct TCRC, unless R301 has failed the lane. -/
def Training.goodMask (t : Training) (failed : Nat) : Nat :=
  (List.range 9).foldl (fun a k => if decide (64 ≤ Tab.get t.good k 0) && !laneBit failed k then a + 2 ^ k else a) 0

/-- Every lane is good or bad. -/
def Training.settled (t : Training) (failed : Nat) : Bool :=
  (List.range 9).all (fun k => decide (64 ≤ Tab.get t.good k 0) || laneBit failed k || decide (10000 ≤ Tab.get t.words k 0))

/-- A side's TRAIN frame (Table 15.13). -/
def State.trainFrame (s : State) (p : Nat) : Frame :=
  let l := s.orch.link p
  mkFrame ftTrain 4 0 l.lastAcc 1 0 0 0
    ([w32 (s.orch.addr % 1024 + putBits (b2n l.fresh) 10 + putBits p 11), w32 (l.nextSeq % 4096 + putBits l.lastAcc 16)]
      ++ wordsOf64 dieId ++ [w32 (lanesOf l.train.wcode + putBits (b2n (laneBit l.train.txmap 8)) 4)] ++ List.replicate 11 0)

/-- A training word on a lane: the steps ALIGN, MAP and DONE of R328. -/
def Training.word (t : Training) (failed lane : Nat) (ws : List Word) : Training :=
  let ok := decide (ws.length = 4) && decide (ws.getD 3 0 = crcWords (ws.take 3)) && decide (ws.getD 0 0 = 0x7E5AC3A5)
  let ph := bitsAt (ws.getD 1 0) 10 2
  let t1 := { t with good := Tab.set t.good lane (if ok then Tab.get t.good lane 0 + 1 else if 64 ≤ Tab.get t.good lane 0 then Tab.get t.good lane 0 else 0),
                     words := Tab.upd t.words lane 0 (· + 1) }
  let t2 := if t1.phase = 0 ∧ t1.settled failed then { t1 with phase := 1, rxok := t1.goodMask failed } else t1
  let t3 := if ok ∧ ph = 1 then { t2 with peerOk := bitsAt (ws.getD 1 0) 16 9 } else t2
  let t4 := if t3.phase = 1 ∧ t3.peerOk ≠ 0 then
      { t3 with phase := 2, txmap := (chooseLanes t3.peerOk).1, wcode := (chooseLanes t3.peerOk).2, sent := 16 }
    else t3
  let t5 := if ok ∧ ph = 2 then { t4 with rcvd := t4.rcvd + 1, rxmap := bitsAt (ws.getD 2 0) 0 9 } else t4
  if t5.phase = 2 ∧ 16 ≤ t5.sent ∧ 16 ≤ t5.rcvd then { t5 with phase := 3 } else t5

/-- Training words received at a port. A port that expects frames begins to train (R329) (DESIGN CHOICE, log 103). -/
def State.trainWord (s : State) (p group lane : Nat) (ws : List Word) : State :=
  let l := s.orch.link p
  if l.enabled = false ∨ group ≠ 0 ∨ 9 ≤ lane then s
  else
    let s1 := if l.st = 2 then s.retrain p 0 false else s
    let l1 := s1.orch.link p
    let t := l1.train.word l1.failed lane ws
    let s2 := s1.setLink p { l1 with st := if l1.st = 3 then 1 else l1.st, train := t }
    if t.phase = l1.train.phase then s2
    else if t.phase = 3 then s2.driveFrame p (s2.trainFrame p)
    else s2.drive (.training p t.phase t.rxok t.txmap t.wcode)

/-- Both directions start afresh (R329). -/
def Link.afresh (l : Link) : Link :=
  { l with nextSeq := 0, replay := [], replays := 0, lastAcc := 0xFFF, nakSent := false, credits := Link.fullCredit, owed := [],
           txw := [], rxw := [] }

/-- The peer of a link that did not go down starts afresh: it was reset, and the signals aimed at it are abandoned (R329, Table 15.10; DEDUCED,
log 142). -/
def State.peerReset (s : State) (l : Link) (f : Frame) : State :=
  if l.fresh = false ∧ bitAt (f.payload.getD 0 0) 10 = true then
    (s.orch.members.filter (fun m => decide (m.addr = bitsAt (f.payload.getD 0 0) 0 10))).foldl (fun (s : State) m => s.signalsGone m.shard) s
  else s

/-- A TRAIN frame with a correct CRC: two more are sent and the link is up. With FRESH on either side both start afresh; else the
held frames from the peer's LASTACC + 1 go again (R329). Spare use and a reduced width are counted (R301). -/
def State.trained (s0 : State) (p : Nat) (f : Frame) : State :=
  let l := s0.orch.link p
  let s := s0.peerReset l f
  let w := fun i => f.payload.getD i 0
  let fresh := l.fresh || bitAt (w 0) 10
  let la := bitsAt (w 1) 16 12
  let l0 := if fresh then l.afresh else if la = 0xFFF then l else l.acked la
  let narrow := decide (lanesOf l.train.wcode ≠ 8)
  let spare := laneBit l.train.txmap 8 && !narrow
  let l1 := { l0 with st := 2, fresh := false, asleep := false, nakSent := false, lanes := lanesOf l.train.wcode, spare := spare,
                      failed := 0x1FF ^^^ (l.train.peerOk % 512), peer := bitsAt (w 0) 0 10 }
  let tf := s.trainFrame p
  let s1 := ((s.setLink p l1).driveFrame p tf).driveFrame p tf
  let s2 := { s1 with outs := (l1.replay.map (fun f => Out.frame p f)).reverse ++ s1.outs }
  if (spare && !l.spare) || (narrow && decide (l.lanes ≠ lanesOf l.train.wcode)) then (s2.corrected 0x04).setCause cOlink else s2

/-- A frame received at a port that can take it: it is heard, then the rest acts, then the port sends. Injection target 0x09 makes
the buffer report a parity error. -/
def frameAt (p : Nat) (f : Frame) (act : State → State) (s : State) : State :=
  let l := s.orch.link p
  if s.live = false ∨ l.enabled = false ∨ l.st ≠ 2 then s
  else if frOk f = false then (s.badFrame p).nak p
  else (act (s.setLink p { l.heard f with asleep := false })).pumpLink p

/-! ## Meanings -/

/-- DATA_FRAME (R297 to R299, R330). -/
def execDataFrame (port : Nat) (f : Frame) (s : State) : Host.Outcome State Fault Refusal :=
  .next (frameAt port f (fun s =>
    if frSeq f = ((s.orch.link port).lastAcc + 1) % 4096 then
      let s1 := if (s.armed 0x09).isSome then (s.fire 0x09).contained 0x19 { Site.none with unit := port, inj := true } else s
      s1.acceptData port f
    else s.nak port) s)

/-- NAK_FRAME (R299). -/
def execNakFrame (port : Nat) (f : Frame) (s : State) : Host.Outcome State Fault Refusal :=
  .next (frameAt port f (fun s => (s.corrected 0x03).replay port) s)

/-- IDLE_FRAME, or an ACK frame (R298 to R300). -/
def execIdleFrame (port : Nat) (f : Frame) (s : State) : Host.Outcome State Fault Refusal :=
  .next (frameAt port f (fun s => s) s)

/-- RETRAIN (R329). -/
def execRetrain (port : Nat) (f : Frame) (s : State) : Host.Outcome State Fault Refusal :=
  .next (let l := s.orch.link port
    if s.live && l.enabled && decide (l.st = 2) && frOk f then s.retrain port 0 false else s)

/-- TRAINING_WORD (R328). -/
def execTrainingWord (port group lane : Nat) (words : List Word) (s : State) : Host.Outcome State Fault Refusal :=
  .next (if s.live then s.trainWord port group lane words else s)

/-- REPLAY_TIMER (R299). -/
def execReplayTimer (port : Nat) (s : State) : Host.Outcome State Fault Refusal :=
  .next (if s.live && (s.orch.link port).up then s.replay port else s)

/-- IDLE_TIMER: a port with nothing else to send sends IDLE with its ACK and the credits it owes (R300). -/
def execIdleTimer (port : Nat) (s : State) : Host.Outcome State Fault Refusal :=
  .next (let s0 := s.pumpLink port
    let l := s0.orch.link port
    if s.live && l.up then
      let (cv, cc) := l.owes
      (s0.setLink port l.paid).driveFrame port (mkFrame ftIdle 0 0 l.lastAcc 0 cv cc 0 [])
    else s)

/-- LINKTO_EXPIRY: a silent port is faulted and retrains (R300); a link whose peer sleeps is left alone (R390). -/
def execLinktoExpiry (port : Nat) (s : State) : Host.Outcome State Fault Refusal :=
  .next (if s.live && (s.orch.link port).up then s.retrain port 0 true else s)

/-- TCLK_TICK: the counter advances (R380, R381); a divider skew moves one step toward its target (R422); each port's waiting
messages leave as frames (DESIGN CHOICE, log 20) (DESIGN CHOICE, log 124). -/
def execTclkTick (s : State) : Host.Outcome State Fault Refusal :=
  .next (if s.pwr.clkFail ∨ s.pwr.cur = 0 then s
    else
      let sk := s.rep.skew.zipWith (fun (a b : Int) => if a < b then a + 1 else if b < a then a - 1 else a) s.rep.cal.skadj
      let s1 := { s with time := s.time.tick, rep := { s.rep with skew := sk } }
      if s.live then s1.pumpLinks else s1)

end Sys2Proof.Machine
end

