-- ==== Sys2Proof/Machine/Banks.lean ====
section
/-! DEFINITION. Head sets, banks, tables and profiles: which is in force, who uses it, and the swap log (R182 to R188, R223 to R229,
R280 to R293, R313). -/

namespace Sys2Proof.Machine

/-! ## Head sets and banks -/

/-- A head set. -/
def State.head (s : State) (h : Nat) : HeadSet := Tab.get s.conf.heads h HeadSet.reset

/-- A bank slot replaced. -/
def State.setBank (s : State) (h k : Nat) (b : Bank) : State :=
  { s with conf := { s.conf with banks := Tab.set s.conf.banks (4 * h + k) b } }

/-- The slot of a head set that holds an epoch in one of some states. -/
def State.slotOf (s : State) (h : Nat) (e : Half) (sts : List BankSt) : Option Nat :=
  (List.range 4).find? (fun k => (s.bank h k).epoch = e && sts.contains (s.bank h k).st)

/-- The slot of a head set whose bank, in a state, is for a use (0 ACTIVE, 1 REFERENCE). -/
def State.slotUse (s : State) (h : Nat) (st : BankSt) (use : Nat) : Option Nat :=
  (List.range 4).find? (fun k => (s.bank h k).st = st && decide ((s.bank h k).use = use))

/-- Pins on an epoch of a head set: the open requests that pin it (R291). -/
def State.bankPins (s : State) (h : Nat) (e : Half) : Nat :=
  (s.scx.filter (fun (c : Nat × Scx) => decide ((s.slot c.1).rstate ≠ 0) && decide (c.2.pin h = some e))).length

/-- A punnet in flight projects with a bank slot. A punnet stays at the root until the records of all its rows are issued. -/
def State.bankBusy (s : State) (h k : Nat) : Bool :=
  s.puns.any (fun p => p.passes.any (fun x => decide (x.hset = h ∧ x.bank = k)))

/-- A bank leaves a role that served rows: RETAINED while pinned, else DRAINING (Table 14.1). -/
def State.retireBank (s : State) (h k : Nat) : State :=
  let b := s.bank h k
  s.setBank h k { b with st := if 0 < s.bankPins h b.epoch then .retained else .draining, vacate := false }

/-- A variant of the bank is in use by a punnet in flight, or the bank itself is. -/
def Variant.due (x : Variant) (n : Nat) (busy : Bool) : Option Variant :=
  if x.freeing && (x.gone && !busy) then none
  else some { x with usable := (x.usable || decide (n ≤ x.reports.length)) && !x.freeing, gone := x.gone || x.freeing }

/-- What a punnet boundary does to a slot: RETAINED without pins drains and DRAINING without rows empties, both on the root's word; a variant that
every member has reported becomes usable, one named by EPOCH.VFREE is absent, and its memory is released once the rows placed with it have
drained (Table 14.1, R293). -/
def State.bankBoundary (s : State) (h k : Nat) : Bank :=
  let b0 := s.bank h k
  let b : Bank := { b0 with vars := b0.vars.filterMap (fun (v : Nat × Variant) => (v.2.due s.orch.n (s.bankBusy h k)).map (fun x => (v.1, x))) }
  match b.st with
  | .retained => if b.vacate then { b with st := .draining, vacate := false } else b
  | .draining => if b.vacate then b.emptied else b
  | _ => b

/-- All sixteen slots, by head set and slot. -/
def allSlots : List (Nat × Nat) := (List.range 16).map (fun i => (i / 4, i % 4))

/-- The root finds that a slot leaves its state at the next punnet boundary: RETAINED has no pins, or no punnet needs the DRAINING bank
(Table 14.1). -/
def State.vacates (s : State) (h k : Nat) : Bool :=
  let b := s.bank h k
  match b.st with
  | .retained => decide (s.bankPins h b.epoch = 0)
  | .draining => !s.bankBusy h k
  | _ => false

/-- A slot leaves its state at the next punnet boundary, on the root's word. -/
def State.setVacate (s : State) (h k : Nat) : State := s.setBank h k { s.bank h k with vacate := true }

/-- Some slot changes at the next punnet boundary. -/
def State.bankDue (s : State) : Bool := allSlots.any (fun x => s.vacates x.1 x.2 || decide (s.bankBoundary x.1 x.2 ≠ s.bank x.1 x.2))

/-- Every slot taken over a punnet boundary. -/
def State.banksBoundary (s : State) : State := allSlots.foldl (fun (t : State) x => t.setBank x.1 x.2 (s.bankBoundary x.1 x.2)) s

/-- The switch of a head set to an epoch: its READY bank becomes ACTIVE, the old one moves (R289). -/
def State.bankSwitch (s : State) (h : Nat) (e : Half) : State :=
  if s.activeEpoch h = e then s
  else match s.slotOf h e [.ready] with
    | none => s
    | some k =>
      let s1 := match s.slotIn h .active with
        | some o => s.retireBank h o
        | none => s
      s1.setBank h k { s1.bank h k with st := .active }

/-- The largest D configured (R90). -/
def State.dMax (s : State) : Nat := (List.range 4).foldl (fun a h => max a (s.head h).d) 0

/-! ## Vocabulary ranges (R13) -/

/-- Tiles of 512 entries of a vocabulary. -/
def tilesOf (v : Nat) : Nat := ceilDiv v 512

/-- First tile of a shard's range: shard i owns tiles i T / N to (i + 1) T / N - 1 (R13). -/
def tileLo (t n i : Nat) : Nat := i * t / n

/-- Number of tiles of a shard's range. -/
def tileCnt (t n i : Nat) : Nat := tileLo t n (i + 1) - tileLo t n i

/-- The owned tiles of a head set. -/
def State.ownTiles (s : State) (h : Nat) : List Nat :=
  let t := tilesOf (s.head h).v
  span (tileLo t s.orch.n s.orch.shard) (tileCnt t s.orch.n s.orch.shard)

/-- The shard that owns an entry of a head set. -/
def State.ownerOf (s : State) (h id : Nat) : Nat :=
  let t := tilesOf (s.head h).v
  ((List.range s.orch.n).find? (fun i => decide (id / 512 < tileLo t s.orch.n i + tileCnt t s.orch.n i))).getD 0

/-- This shard owns an entry of a head set. -/
def State.owns (s : State) (h id : Nat) : Bool := decide (id < (s.head h).v) && decide (s.ownerOf h id = s.orch.shard)

/-! ## Swaps and generations (R185, R313) -/

/-- Keys of swapped objects: tables by kind and number, profile objects, the phase. -/
def swapTable (kind num : Nat) : Nat := 256 * kind + num
def swapProf (n : Nat) : Nat := 0x10000 + n
def swapPhase : Nat := 0x20000

/-- A swap counted and logged (R313). -/
def State.logSwap (s : State) (key gen : Nat) : State :=
  { s with conf := { s.conf with tseq := (s.conf.tseq + 1) % 2 ^ 32, swaps := s.conf.swaps ++ [((s.conf.tseq + 1) % 2 ^ 32, key, gen)] } }

/-- The generation of a key that a row of a TSEQ resolves to: that of the last swap at or before it; 0 when none (R313). -/
def State.genAt (s : State) (key tseq : Nat) : Nat :=
  ((s.conf.swaps.filter (fun e => decide (e.2.1 = key ∧ e.1 ≤ tseq))).getLast?.map (fun e => e.2.2)).getD 0

/-- A table object. -/
def State.tbl (s : State) (key : Nat) : TblObj := Tab.get s.conf.tables key TblObj.reset

/-- A table object replaced. -/
def State.setTbl (s : State) (key : Nat) (o : TblObj) : State := { s with conf := { s.conf with tables := Tab.set s.conf.tables key o } }

/-- The former generation of a table object, if it has that number. -/
def TblObj.formerGen (o : TblObj) (g : Nat) : Option Gen :=
  match o.second with
  | .former f => if f.num = g then some f else none
  | _ => none

/-- A generation of a table object that is held. -/
def TblObj.gen (o : TblObj) (g : Nat) : Option Gen :=
  match o.cur with
  | some c => if c.num = g then some c else o.formerGen g
  | none => o.formerGen g

/-- A row of a punnet still holds its pins: its record is not issued (R185). Of a row homed at a member the root knows that once the member has
said it of the whole punnet. -/
def State.rowHolds (s : State) (r : PRow) : Bool :=
  !r.exited || (if s.isHome r.key.handle.slot then s.rows.any (fun x => decide (x.key = r.key) && x.home) else s.isRoot)

/-- Rows placed in the open punnet. -/
def State.placed (s : State) : List Placed := (s.asm.punOpen.map (fun o => o.rows)).getD []

/-- Pins of a table generation: rows placed or in flight, and for grammars the open requests bound to it (R185); a row holds a grammar
generation itself only once its request has moved on (R187, Table 8.4). -/
def State.tblPins (s : State) (key g : Nat) : Nat :=
  (s.puns.flatMap (fun p => p.rows.filter (fun (r : PRow) => r.pins.contains (key, g) && s.rowHolds r
    && (decide (key / 256 ≠ 1) || decide ((Tab.get s.scx r.key.handle.slot Scx.zero).ggen ≠ g))))).length
  + (s.placed.filter (fun p => p.pins.contains (key, g))).length
  + (if key / 256 = 1 then
      (s.scx.filter (fun (c : Nat × Scx) => decide ((s.slot c.1).rstate ≠ 0) && decide (c.2.gram = some (key % 256) ∧ c.2.ggen = g))).length
    else 0)

/-! ## Doubt -/

/-- A first cause stands. -/
def Cause.join (a : Cause) (c : Nat) : Cause := match a with
  | some x => some x
  | none => some c

/-- Doubt put on one row of a punnet, or on all of its rows, with a cause (R315). -/
def State.doubtAt (s : State) (num : Nat) (slot : Option Nat) (c : Nat) : State :=
  let hit : Nat → Bool := fun k => slot.all (fun x => decide (x = k))
  let here := (s.puns.filter (fun p => decide (p.num = num))).flatMap (fun p => p.rows.filter (fun r => hit r.slot))
  let keys := here.map (fun r => r.key)
  let open_ : List RowKey := (here.filter (fun r => !r.exited)).map (fun r => r.key)
  { s with
    puns := s.puns.map (fun (p : Punnet) => if p.num = num then { p with rows := p.rows.map (fun (r : PRow) =>
      if hit r.slot then { r with cause := Cause.join r.cause c } else r) } else p),
    roots := s.roots.map (fun (r : RootRow) => if (decide (r.punnet = num) && hit r.rslot) || open_.contains r.key then
      { r with cause := Cause.join r.cause c } else r),
    rows := s.rows.map (fun (r : Row) => if r.decided = false ∧
        ((r.punnet = some num ∧ keys.contains r.key = true) ∨ (r.punnet.isSome = true ∧ open_.contains r.key = true)) then
      { r with cause := Cause.join r.cause c } else r) }

/-- Doubt put on every row of a request (R246, R188). -/
def State.doubtRequest (s : State) (h : Handle) (c : Nat) : State :=
  { s with
    puns := s.puns.map (fun (p : Punnet) => { p with rows := p.rows.map (fun (r : PRow) =>
      if r.key.handle = h then { r with cause := Cause.join r.cause c } else r) }),
    roots := s.roots.map (fun (r : RootRow) => if r.key.handle = h then { r with cause := Cause.join r.cause c } else r),
    rows := s.rows.map (fun (r : Row) => if r.key.handle = h ∧ r.decided = false then { r with cause := Cause.join r.cause c } else r) }

/-- A profile object. -/
def State.prof (s : State) (n : Nat) : ProfObj := Tab.get s.conf.profs n ProfObj.dflt

/-- A profile object replaced. -/
def State.setProf (s : State) (n : Nat) (o : ProfObj) : State := { s with conf := { s.conf with profs := Tab.set s.conf.profs n o } }

/-- Pins of a profile generation: rows placed or in flight and open requests (R229). -/
def State.profPins (s : State) (n g : Nat) : Nat :=
  (s.puns.flatMap (fun p => p.rows.filter (fun r => decide (r.profPin = (n, g)) && s.rowHolds r))).length
  + (s.placed.filter (fun p => decide (p.profPin = some (n, g)))).length
  + (s.scx.filter (fun (c : Nat × Scx) => decide ((s.slot c.1).rstate ≠ 0) && decide (c.2.prof = n ∧ c.2.pgen = g))).length

/-- The second slot of a table object is free of a pinned former generation. -/
def State.secondFree (s : State) (key : Nat) : Bool :=
  match (s.tbl key).second with
  | .former g => decide (s.tblPins key g.num = 0)
  | _ => true

/-- The records of a generation of a profile object, if it is held. -/
def ProfObj.recsOf (o : ProfObj) (g : Nat) : Option (Tab ProfRec) :=
  if o.gen = g then some o.recs
  else match o.former with
    | some f => if f.1 = g then some f.2 else none
    | none => none

end Sys2Proof.Machine
end

