-- ==== Sys2Proof/Machine/Fp.lean ====
section
/-! DEFINITION. Number formats, exact values and the rounding of exact values (spec/03_number_formats.md, R56 to R71, R84). Every
arithmetic step forms the exact value and rounds it once. -/

namespace Sys2Proof.Machine

/-- A binary floating-point format: significand bits with the hidden one, exponent of the least normal, exponent field at
infinity, and its width (Table 3.1). -/
structure Fmt where
  p     : Nat
  emin  : Int
  inf   : Nat
  width : Nat
deriving DecidableEq, Repr

/-- FP32 (IEEE 754 binary32). -/
def fmt32 : Fmt := { p := 24, emin := -126, inf := 255, width := 32 }

/-- FP16 (IEEE 754 binary16). -/
def fmt16 : Fmt := { p := 11, emin := -14, inf := 31, width := 16 }

/-- BF16: the high half of a binary32. -/
def fmtB16 : Fmt := { p := 8, emin := -126, inf := 255, width := 16 }

/-- Rounding modes of arithmetic (Table 3.6). -/
inductive Rnd where
  | rne | rup
deriving DecidableEq, Repr

/-- The Nat two to the power of an Int that is not negative (zero exponent for a negative one). -/
def pow2 (e : Int) : Nat := 1 <<< e.toNat

/-- floor (log2 (n / d)) for positive n and d. -/
def ilog (n d : Nat) : Int :=
  let k : Int := (n.log2 : Int) - (d.log2 : Int)
  if d * pow2 k ≤ n * pow2 (-k) then k else k - 1

/-- The magnitude n / d in units of 2^q, rounded to an integer. A negative value rounds toward zero under RUP. -/
def roundUnits (r : Rnd) (neg : Bool) (n d : Nat) (q : Int) : Nat :=
  let num := n * pow2 (-q)
  let den := d * pow2 q
  let f := num / den
  let rem := num % den
  match r with
  | .rne => if 2 * rem < den then f else if den < 2 * rem then f + 1 else if f % 2 = 0 then f else f + 1
  | .rup => if rem = 0 ∨ neg = true then f else f + 1

/-- The grid of a format with exponents unbounded above: the index of the magnitude n / d, rounded, counting grid points from
zero (the encoding without its sign). -/
def gridIndex (p : Nat) (emin : Int) (r : Rnd) (neg : Bool) (n d : Nat) : Nat :=
  if n = 0 then 0 else
    let e := max (ilog n d) emin
    let q := e - ((p : Int) - 1)
    (e - emin).toNat * 2 ^ (p - 1) + roundUnits r neg n d q

/-- The bits of sign and magnitude n / d rounded to a format. Overflow gives infinity, or the greatest finite magnitude where the
mode rounds it down. -/
def roundBits (f : Fmt) (r : Rnd) (neg : Bool) (n d : Nat) : Nat :=
  let g := gridIndex f.p f.emin r neg n d
  let lim := f.inf * 2 ^ (f.p - 1)
  let g := if lim ≤ g then (if r = .rup ∧ neg = true then lim - 1 else lim) else g
  g + (if neg then 2 ^ (f.width - 1) else 0)

/-- An exact dyadic value m * 2^e. -/
structure Dy where
  m : Int
  e : Int
deriving DecidableEq, Repr

/-- Zero. -/
def Dy.zero : Dy := { m := 0, e := 0 }

/-- Exact product. -/
def Dy.mul (a b : Dy) : Dy := { m := a.m * b.m, e := a.e + b.e }

/-- Exact sum. -/
def Dy.add (a b : Dy) : Dy :=
  let e := min a.e b.e
  { m := a.m * pow2 (a.e - e) + b.m * pow2 (b.e - e), e := e }

/-- Negation. -/
def Dy.neg (a : Dy) : Dy := { m := -a.m, e := a.e }

/-- Exact difference. -/
def Dy.sub (a b : Dy) : Dy := Dy.add a (Dy.neg b)

/-- Magnitude. -/
def Dy.abs (a : Dy) : Dy := { m := (a.m.natAbs : Int), e := a.e }

/-- Exact comparison. -/
def Dy.lt (a b : Dy) : Bool := decide ((Dy.sub a b).m < 0)

/-- Exact comparison. -/
def Dy.le (a b : Dy) : Bool := decide ((Dy.sub a b).m ≤ 0)

/-- An integer. -/
def Dy.ofInt (n : Int) : Dy := { m := n, e := 0 }

/-- Rounds a dyadic value. `negZero` is the sign of an exact zero. -/
def Dy.round (f : Fmt) (r : Rnd) (negZero : Bool) (a : Dy) : Nat :=
  if a.m = 0 then (if negZero then 2 ^ (f.width - 1) else 0)
  else roundBits f r (decide (a.m < 0)) (a.m.natAbs * pow2 a.e) (pow2 (-a.e))

/-- Sign bit of an encoding. -/
def encNeg (f : Fmt) (b : Nat) : Bool := b.testBit (f.width - 1)

/-- Magnitude field (exponent and fraction) of an encoding. -/
def encMag (f : Fmt) (b : Nat) : Nat := b % 2 ^ (f.width - 1)

/-- The value of a finite encoding. -/
def encVal (f : Fmt) (b : Nat) : Dy :=
  let g := encMag f b
  let ef := g / 2 ^ (f.p - 1)
  let fr := g % 2 ^ (f.p - 1)
  let m := if ef = 0 then fr else fr + 2 ^ (f.p - 1)
  let e := f.emin - ((f.p : Int) - 1) + (if ef = 0 then (0 : Int) else (ef : Int) - 1)
  { m := if encNeg f b then -(m : Int) else (m : Int), e := e }

/-- NaN test. -/
def encNan (f : Fmt) (b : Nat) : Bool := decide (f.inf * 2 ^ (f.p - 1) < encMag f b)

/-- Infinity test. -/
def encInf (f : Fmt) (b : Nat) : Bool := decide (encMag f b = f.inf * 2 ^ (f.p - 1))

/-! ## FP32 -/

def f32Nan : F32 := 0x7FC00000
def f32Inf : F32 := 0x7F800000
def f32NegInf : F32 := 0xFF800000
def f32One : F32 := 0x3F800000

def isNan (x : F32) : Bool := encNan fmt32 x.toNat
def isInf (x : F32) : Bool := encInf fmt32 x.toNat
def isFin (x : F32) : Bool := !isNan x && !isInf x
def isNeg (x : F32) : Bool := encNeg fmt32 x.toNat
def isZero (x : F32) : Bool := decide (encMag fmt32 x.toNat = 0)

/-- The exact value of a finite FP32. -/
def val (x : F32) : Dy := encVal fmt32 x.toNat

/-- An exact value rounded to FP32 by RNE. -/
def ofDy (a : Dy) : F32 := BitVec.ofNat 32 (Dy.round fmt32 .rne false a)

/-- An exact value rounded to FP32 by RUP. -/
def ofDyUp (a : Dy) : F32 := BitVec.ofNat 32 (Dy.round fmt32 .rup false a)

/-- An integer rounded to FP32. -/
def ofInt (n : Int) : F32 := ofDy (Dy.ofInt n)

/-- The sign flipped. -/
def fneg (x : F32) : F32 := x ^^^ 0x80000000

/-- The sign cleared. -/
def fabs (x : F32) : F32 := x &&& 0x7FFFFFFF

/-- The order of FP32 values that are not NaN, as integers; +0 and -0 have one key (R84). -/
def key (x : F32) : Int := if isNeg x then -(encMag fmt32 x.toNat : Int) else (encMag fmt32 x.toNat : Int)

/-- x < y; false with a NaN. -/
def flt (x y : F32) : Bool := !isNan x && !isNan y && decide (key x < key y)

/-- x ≤ y; false with a NaN. -/
def fle (x y : F32) : Bool := !isNan x && !isNan y && decide (key x ≤ key y)

/-- Equality of values; false with a NaN. -/
def feq (x y : F32) : Bool := !isNan x && !isNan y && decide (key x = key y)

/-- The greater of two values. -/
def fmax (x y : F32) : F32 := if flt x y then y else x

/-- The lesser of two values. -/
def fmin (x y : F32) : F32 := if flt y x then y else x

/-- Sum, rounded once (R84). -/
def faddR (r : Rnd) (x y : F32) : F32 :=
  if isNan x || isNan y then f32Nan
  else if isInf x then (if isInf y && (isNeg x != isNeg y) then f32Nan else x)
  else if isInf y then y
  else
    let a := Dy.add (val x) (val y)
    BitVec.ofNat 32 (Dy.round fmt32 r (isNeg x && isNeg y) a)

/-- Product, rounded once (R84). -/
def fmulR (r : Rnd) (x y : F32) : F32 :=
  let neg := isNeg x != isNeg y
  if isNan x || isNan y then f32Nan
  else if isInf x || isInf y then
    (if isZero x || isZero y then f32Nan else if neg then f32NegInf else f32Inf)
  else BitVec.ofNat 32 (Dy.round fmt32 r neg (Dy.mul (val x) (val y)))

/-- Quotient, rounded once (R84). -/
def fdivR (r : Rnd) (x y : F32) : F32 :=
  let neg := isNeg x != isNeg y
  let z : F32 := if neg then 0x80000000 else 0
  if isNan x || isNan y then f32Nan
  else if isInf x then (if isInf y then f32Nan else if neg then f32NegInf else f32Inf)
  else if isInf y then z
  else if isZero y then (if isZero x then f32Nan else if neg then f32NegInf else f32Inf)
  else if isZero x then z
  else
    let a := val x
    let b := val y
    BitVec.ofNat 32 (roundBits fmt32 r neg (a.m.natAbs * pow2 (a.e - b.e)) (b.m.natAbs * pow2 (b.e - a.e)))

def fadd (x y : F32) : F32 := faddR .rne x y
def fsub (x y : F32) : F32 := faddR .rne x (fneg y)
def fmul (x y : F32) : F32 := fmulR .rne x y
def fdiv (x y : F32) : F32 := fdivR .rne x y
def faddUp (x y : F32) : F32 := faddR .rup x y
def fmulUp (x y : F32) : F32 := fmulR .rup x y
def fdivUp (x y : F32) : F32 := fdivR .rup x y

/-- Conversion between formats, rounded once (R84). -/
def convert (src dst : Fmt) (r : Rnd) (b : Nat) : Nat :=
  let s := if encNeg src b then 2 ^ (dst.width - 1) else 0
  if encNan src b then dst.inf * 2 ^ (dst.p - 1) + 2 ^ (dst.p - 2)
  else if encInf src b then dst.inf * 2 ^ (dst.p - 1) + s
  else Dy.round dst r (encNeg src b) (encVal src b)

/-- A BF16 value widened (exact). -/
def ofB16 (b : BF16) : F32 := BitVec.ofNat 32 (b.toNat <<< 16)

/-- FP32 to BF16 by RNE. -/
def toB16 (x : F32) : BF16 := BitVec.ofNat 16 (convert fmt32 fmtB16 .rne x.toNat)

/-- FP16 widened (exact). -/
def ofF16 (h : F16) : F32 := BitVec.ofNat 32 (convert fmt16 fmt32 .rne h.toNat)

/-- FP32 to FP16 in a rounding mode. -/
def toF16 (r : Rnd) (x : F32) : F16 := BitVec.ofNat 16 (convert fmt32 fmt16 r x.toNat)

/-- NaN or infinity of a BF16. -/
def b16Bad (b : BF16) : Bool := encNan fmtB16 b.toNat || encInf fmtB16 b.toNat

/-- NaN or infinity of an FP16. -/
def f16Bad (h : F16) : Bool := encNan fmt16 h.toNat || encInf fmt16 h.toNat

/-! ## Roots -/

/-- floor (sqrt n), one bit at a time from bit `k - 1` down. -/
def isqrtGo (n : Nat) : Nat → Nat → Nat
  | 0, r => r
  | k + 1, r =>
    let t := r + 1 <<< k
    if t * t ≤ n then isqrtGo n k t else isqrtGo n k r

/-- floor (sqrt n). -/
def isqrt (n : Nat) : Nat := isqrtGo n (n.log2 / 2 + 1) 0

/-- The square root of an exact value that is not negative, rounded once to FP32. A sticky bit below the root keeps the value on
its side of every rounding boundary. -/
def sqrtDy (r : Rnd) (a : Dy) : F32 :=
  if a.m ≤ 0 then 0 else
    let odd := a.e % 2
    let n := a.m.natAbs * 2 ^ odd.toNat
    let e := a.e - odd
    let big := n <<< 128
    let q := isqrt big
    let st := if q * q = big then 2 * q else 2 * q + 1
    BitVec.ofNat 32 (Dy.round fmt32 r false { m := st, e := e / 2 - 65 })

/-- RSQRT, exactly rounded: 1 / sqrt x (R87); infinity at zero, NaN below it. -/
def rsqrt (x : F32) : F32 :=
  if isNan x then f32Nan
  else if isZero x then f32Inf
  else if isNeg x then f32Nan
  else if isInf x then 0
  else
    let a := val x
    let odd := a.e % 2
    let n := a.m.natAbs * 2 ^ odd.toNat
    let e := a.e - odd
    let k := n.log2 + 64
    let big := (1 <<< (2 * k)) / n
    let q := isqrt big
    let st := if q * q * n = 1 <<< (2 * k) then 2 * q else 2 * q + 1
    BitVec.ofNat 32 (Dy.round fmt32 .rne false { m := st, e := -(e / 2) - (k : Int) - 1 })

/-! ## Element and scale codes (R57 to R66) -/

/-- Twice the value of an FP4 E2M1 code (Table 3.2, R66). -/
def fp4Units (c : Nat) : Int :=
  let m := [0, 1, 2, 3, 4, 6, 8, 12].getD (c % 8) 0
  if c % 16 < 8 then m else -m

/-- An E4M3 code in units of 2^-9 (Table 3.3, R66). NaN codes have no value; the reader tests `e4Nan` first. -/
def e4Units (c : Nat) : Int :=
  let ef := c / 8 % 16
  let m : Int := if ef = 0 then (c % 8 : Nat) else ((8 + c % 8) * 2 ^ (ef - 1) : Nat)
  if c % 256 < 128 then m else -m

/-- NaN codes of E4M3 (R59). -/
def e4Nan (c : Nat) : Bool := decide (c % 128 = 0x7F)

/-- A two's-complement code of `n` bits. -/
def sxUnits (n c : Nat) : Int :=
  let v := c % 2 ^ n
  if v < 2 ^ (n - 1) then v else (v : Int) - 2 ^ n

/-- Weight formats, by the code of FMT. -/
inductive WFmt where
  | fp4 | int4 | int2 | ternary | e4m3
deriving DecidableEq, Repr

/-- Bits of one element (R60). -/
def WFmt.bits : WFmt → Nat
  | .fp4 => 4
  | .int4 => 4
  | .int2 => 2
  | .ternary => 2
  | .e4m3 => 8

/-- The integer q of an element (R66). -/
def WFmt.units : WFmt → Nat → Int
  | .fp4, c => fp4Units c
  | .int4, c => sxUnits 4 c
  | .int2, c => sxUnits 2 c
  | .ternary, c => sxUnits 2 c
  | .e4m3, c => e4Units c

/-- The exponent o of an element (R66). -/
def WFmt.exp : WFmt → Int
  | .fp4 => -1
  | .e4m3 => -9
  | _ => 0

/-- Codes that no bank may hold: an E4M3 NaN (R59) and the ternary code 0b10 (R60). -/
def WFmt.badCode : WFmt → Nat → Bool
  | .e4m3, c => e4Nan c
  | .ternary, c => decide (c % 4 = 2)
  | _, _ => false

/-- ceil (log2 (n / d)). -/
def clog (n d : Nat) : Int := if ilog n d ≥ 0 then (if n = d * pow2 (ilog n d) then ilog n d else ilog n d + 1)
  else (if n * pow2 (-(ilog n d)) = d then ilog n d else ilog n d + 1)

/-- The scale exponent s of a block whose largest magnitude is `a` > 0 (Table 3.5), clamped to [-127, 127]. -/
def WFmt.scaleExp (f : WFmt) (a : Dy) : Int :=
  let n := a.m.natAbs * pow2 a.e
  let d := pow2 (-a.e)
  let s := match f with
    | .fp4 => ilog n d - 2
    | .e4m3 => ilog n d - 8
    | .int4 => clog n (7 * d)
    | .int2 => clog n (2 * d)
    | .ternary => clog n d
  max (-127) (min 127 s)

/-- The grid of a format above zero: significand bits and least-normal exponent; none for the integer formats. -/
def WFmt.grid : WFmt → Option (Nat × Int)
  | .fp4 => some (2, 0)
  | .e4m3 => some (4, -6)
  | _ => none

/-- The spacing exponent of the grid at a magnitude n / d. -/
def WFmt.spacing (f : WFmt) (n d : Nat) : Int :=
  match f.grid with
  | some (p, emin) => (if n = 0 then emin else max (ilog n d) emin) - ((p : Int) - 1)
  | none => 0

/-- The code of a rounded magnitude, given as grid index, after the clamp of Table 3.5. A magnitude of zero is the positive zero
code (R62). -/
def WFmt.code (f : WFmt) (neg : Bool) (idx : Nat) : Nat :=
  let top := match f with
    | .fp4 => 7
    | .e4m3 => 0x7E
    | .int4 => 7
    | .int2 => if neg then 2 else 1
    | .ternary => 1
  let i := min idx top
  if i = 0 then 0
  else match f with
    | .fp4 => if neg then 8 + i else i
    | .e4m3 => if neg then 128 + i else i
    | .int4 => if neg then 16 - i else i
    | _ => if neg then 4 - i else i

/-- Rounds a scaled element x = w / 2^s by RNE to a code (R62, R63). -/
def WFmt.quantRne (f : WFmt) (x : Dy) : Nat :=
  let neg := decide (x.m < 0)
  let n := x.m.natAbs * pow2 x.e
  let d := pow2 (-x.e)
  match f.grid with
  | some (p, emin) => f.code neg (gridIndex p emin .rne neg n d)
  | none => f.code neg (roundUnits .rne neg n d 0)

/-- How many random bits SR draws for a scaled element whose lowest significand bit weighs 2^x.e (R65), before the cap at 24. Zero
has no significand bits and draws none (DEDUCED, log 14). -/
def WFmt.srBits (f : WFmt) (x : Dy) : Nat :=
  if x.m = 0 then 0 else (f.spacing (x.m.natAbs * pow2 x.e) (pow2 (-x.e)) - x.e).toNat

/-- Rounds a scaled element by SR with the drawn integer r (R65). -/
def WFmt.quantSr (f : WFmt) (x : Dy) (r : Nat) : Nat :=
  let neg := decide (x.m < 0)
  let mag := x.m.natAbs
  let k := f.srBits x
  let q := f.spacing (mag * pow2 x.e) (pow2 (-x.e))
  let lo := if k = 0 then mag * pow2 (x.e - q) else mag >>> k
  let fr := mag % 2 ^ k
  let fr := if 24 < k then fr >>> (k - 24) else fr
  let m := if k ≠ 0 ∧ 2 ^ min k 24 ≤ fr + r then lo + 1 else lo
  match f.grid with
  | some (p, emin) => f.code neg ((q + ((p : Int) - 1) - emin).toNat * 2 ^ (p - 1) + m)
  | none => f.code neg m

/-- The largest magnitude of a list of values. -/
def maxMag (l : List Dy) : Dy := l.foldl (fun a x => if Dy.lt a (Dy.abs x) then Dy.abs x else a) Dy.zero

/-- A value scaled by 2^-s. -/
def Dy.scale (a : Dy) (s : Int) : Dy := { m := a.m, e := a.e - s }

/-- The value of a finite BF16. Its significand keeps its full 8 bits (R65 counts bits below the grid from the last of them). -/
def b16Val (b : BF16) : Dy := encVal fmtB16 b.toNat

/-- One block converted by RNE: scale code and element codes (R62, R63). -/
def quantBlock (f : WFmt) (l : List Dy) : Nat × List Nat :=
  let a := maxMag l
  if a.m = 0 then (0, l.map (fun _ => 0))
  else
    let s := f.scaleExp a
    ((s + 127).toNat, l.map (fun x => f.quantRne (x.scale s)))

end Sys2Proof.Machine
end

