-- ==== Sys2Proof/Machine/Tables.lean ====
section
/-! DEFINITION. Mask, grammar and bias-set images, their checks, and the TBL commands (R170 to R188, R365, R366). -/

namespace Sys2Proof.Machine

/-! ## Images -/

/-- A read of an image or block as 32-bit words from its key. -/
def imgWord (m : Memory) (k off : Nat) : Word := m.word (k + off)

/-- Bytes of a header below an offset are zero from another offset on. -/
def zeroWords (m : Memory) (k a b : Nat) : Bool := (m.bytes (k + a) (b - a)).all (fun x => decide (x = 0))

/-- CRC-32C over the bytes of memory from `a` to `b - 1` of an image. -/
def imgCrc (m : Memory) (k a b : Nat) : Word := crc32c (m.bytes (k + a) (b - a))

/-- Strictly ascending. -/
def ascending : List Nat → Bool
  | a :: b :: r => decide (a < b) && ascending (b :: r)
  | _ => true

/-- A failed CRC (Table 17.4). -/
def badCrc : Cpl := Cpl.of stBadParam 0x02

/-- A failed check with no DETAIL of its own. -/
def badImg : Cpl := Cpl.of stBadParam 0

/-- The header test that comes before the rest of an image is read: MAGIC, VERSION, HCRC and LEN (R174, R366). -/
def imgHeader (m : Memory) (k magic lenOff len : Nat) : Option Cpl :=
  firstCpl [
    (m.bad k 64, Cpl.of stFault 0x03),
    (decide ((imgWord m k 0).toNat ≠ magic ∨ bitsAt (imgWord m k 4) 0 16 ≠ 1), badImg),
    (decide (imgWord m k 0x3C ≠ imgCrc m k 0 0x3C), badCrc),
    (decide ((imgWord m k lenOff).toNat ≠ len ∨ len < 64), badImg)]

/-- The body test: readable, BCRC. -/
def imgBody (m : Memory) (k len : Nat) : Option Cpl :=
  firstCpl [(m.bad k len, Cpl.of stFault 0x03), (decide (imgWord m k 0x38 ≠ imgCrc m k 0x40 len), badCrc)]

/-- A mask image (R171, R174). -/
def maskImage (m : Memory) (k len : Nat) : Except Cpl Image :=
  match imgHeader m k 0x4B534D56 0x14 len with
  | some c => .error c
  | none =>
    match imgBody m k len with
    | some c => .error c
    | none =>
      let nb := bitsAt (imgWord m k 8) 0 22
      let tiles := ceilDiv nb 512
      let bm := (imgWord m k 0x0C).toNat
      let so := (imgWord m k 0x10).toNat
      let sl := ceilDiv tiles 512 * 64
      let bits := m.bytes (k + bm) (64 * tiles)
      let sum := m.bytes (k + so) sl
      let ok := decide (bitsAt (imgWord m k 4) 16 16 = 0 ∧ bitsAt (imgWord m k 8) 22 10 = 0 ∧ 1 ≤ nb ∧ nb ≤ 2 ^ 21
          ∧ bm % 64 = 0 ∧ so % 64 = 0 ∧ bm + 64 * tiles ≤ len ∧ so + sl ≤ len)
        && zeroWords m k 0x18 0x38
        && (span nb (512 * tiles - nb)).all (fun v => !bitAt (bits.getD (v / 8) 0) (v % 8))
        && (List.range (8 * sl)).all (fun t => bitAt (sum.getD (t / 8) 0) (t % 8)
            == (decide (t < tiles) && ((bits.drop (64 * t)).take 64).any (fun b => decide (b ≠ 0))))
      if ok then .ok (.mask nb bits) else .error badImg

/-- A list of the list area, in words, within LSLEN (R174 names LEN as the bound: DESIGN CHOICE, log 151); its entries from bits [20:0] with every other bit zero. -/
def listAt (m : Memory) (base lslen off n : Nat) : Option (List Nat) :=
  if (off + n) * 4 ≤ lslen then
    let ws := m.words (base + 4 * off) n
    if ws.all (fun w => decide (bitsAt w 21 11 = 0)) && ascending (ws.map (fun w => bitsAt w 0 21)) then some (ws.map (fun w => bitsAt w 0 21)) else none
  else none

/-- A transition list (R173). -/
def transAt (m : Memory) (base lslen nst off n : Nat) : Option (List (Nat × Nat)) :=
  if (off + 2 * n) * 4 ≤ lslen then
    let ps := (List.range n).map (fun i => (m.word (base + 4 * off + 8 * i), m.word (base + 4 * off + 8 * i + 4)))
    let es := ps.map (fun p => (bitsAt p.1 0 21, bitsAt p.2 0 20))
    if ps.all (fun p => decide (bitsAt p.1 21 11 = 0 ∧ bitsAt p.2 20 12 = 0)) && ascending (es.map (·.1)) && es.all (fun e => decide (e.2 < nst)) then
      some es
    else none
  else none

/-- A state record (Table 8.3). -/
def stateAt (m : Memory) (k base lslen nst : Nat) : Option GState :=
  let w := fun i => m.word (k + 4 * i)
  let mode := bitsAt (w 0) 0 2
  let na := bitsAt (w 3) 0 22
  let nd := bitsAt (w 5) 0 22
  let nt := bitsAt (w 7) 0 22
  let ok := decide (bitsAt (w 0) 4 4 = 0 ∧ bitsAt (w 0) 16 16 = 0 ∧ bitsAt (w 1) 20 12 = 0 ∧ bitsAt (w 3) 22 10 = 0
      ∧ bitsAt (w 5) 22 10 = 0 ∧ bitsAt (w 7) 22 10 = 0 ∧ (mode ≤ 1 → na = 0) ∧ (mode ≠ 3 → nd = 0) ∧ bitsAt (w 1) 0 20 < nst)
  match ok, listAt m base lslen (w 2).toNat na, listAt m base lslen (w 4).toNat nd, transAt m base lslen nst (w 6).toNat nt with
  | true, some al, some dl, some tr =>
    some { mode := mode, final := bitAt (w 0) 2, dflt := if bitAt (w 0) 3 then some (bitsAt (w 1) 0 20) else none,
           mref := bitsAt (w 0) 8 8, allow := al, deny := dl, trans := tr }
  | _, _, _, _ => none

/-- A grammar image (R172 to R174). -/
def grammarImage (m : Memory) (k len : Nat) : Except Cpl Image :=
  match imgHeader m k 0x4D524742 0x24 len with
  | some c => .error c
  | none =>
    match imgBody m k len with
    | some c => .error c
    | none =>
      let ns := (imgWord m k 8).toNat
      let nv := (imgWord m k 0x0C).toNat
      let st := (imgWord m k 0x14).toNat
      let so := (imgWord m k 0x18).toNat
      let lo := (imgWord m k 0x1C).toNat
      let ll := (imgWord m k 0x20).toNat
      let ok := decide (bitsAt (imgWord m k 4) 16 16 = 0 ∧ 1 ≤ ns ∧ ns ≤ 2 ^ 20 ∧ 1 ≤ nv ∧ nv ≤ 2 ^ 21 ∧ st < ns ∧ so % 64 = 0 ∧ lo % 64 = 0
          ∧ so + 32 * ns ≤ len ∧ lo + ll ≤ len)
        && zeroWords m k 0x28 0x38
      if ok then
        let sts := (List.range ns).map (fun i => stateAt m (k + so + 32 * i) (k + lo) ll ns)
        if sts.all (fun x => x.isSome) then .ok (.grammar (imgWord m k 0x10) nv st (sts.filterMap id)) else .error badImg
      else .error badImg

/-- A bias value is finite, of magnitude at most 2^20 (R133). -/
def biasOk (x : F32) : Bool := isFin x && fle (fabs x) 0x49800000

/-- Bias entries of R138: reserved bits zero, ids strictly ascending, values in range. -/
def biasList (m : Memory) (k n : Nat) : Option (List (Nat × F32)) :=
  let ps := (List.range n).map (fun i => (m.word (k + 8 * i), m.word (k + 8 * i + 4)))
  if ps.all (fun p => decide (bitsAt p.1 21 11 = 0) && biasOk p.2) && ascending (ps.map (fun p => bitsAt p.1 0 21)) then
    some (ps.map (fun p => (bitsAt p.1 0 21, p.2)))
  else none

/-- A bias-set image (R366). -/
def biasImage (m : Memory) (k len : Nat) : Except Cpl Image :=
  match imgHeader m k 0x53424956 0x0C len with
  | some c => .error c
  | none =>
    match imgBody m k len with
    | some c => .error c
    | none =>
      let n := (imgWord m k 8).toNat
      let ok := decide (bitsAt (imgWord m k 4) 16 16 = 0 ∧ 1 ≤ n ∧ n ≤ 65536 ∧ 64 + 8 * n ≤ len) && zeroWords m k 0x10 0x38
      match ok, biasList m (k + 64) n with
      | true, some es => .ok (.bias es)
      | _, _ => .error badImg

/-- An image of a kind (R365). -/
def readImage (m : Memory) (kind k len : Nat) : Except Cpl Image :=
  if kind = 0 then maskImage m k len else if kind = 1 then grammarImage m k len else biasImage m k len

/-! ## The allow set (R175) -/

/-- A mask allows an entry. -/
def Image.maskBit : Image → Nat → Bool
  | .mask nb bits, v => decide (v < nb) && bitAt (bits.getD (v / 8) 0) (v % 8)
  | _, _ => false

/-- The raw set A(s). -/
def GState.raw (g : GState) (mask : Option Image) (v : Nat) : Bool :=
  let mk := (mask.map (fun i => i.maskBit v)).getD false
  match g.mode with
  | 0 => true
  | 1 => mk
  | 2 => g.allow.contains v
  | _ => (mk || g.allow.contains v) && !g.deny.contains v

/-- The next state of a token, where it is defined. -/
def GState.next (g : GState) (v : Nat) : Option Nat :=
  match g.trans.find? (fun e => e.1 = v) with
  | some e => some e.2
  | none => g.dflt

/-- The allow set of a state. -/
def GState.allows (g : GState) (nvocab : Nat) (mask : Option Image) (v : Nat) : Bool :=
  g.raw mask v && decide (v < nvocab) && (g.next v).isSome

/-- A grammar's state by number. -/
def Image.state : Image → Nat → Option GState
  | .grammar _ _ _ sts, i => sts[i]?
  | _, _ => none

/-- NVOCAB of a grammar. -/
def Image.nvocab : Image → Nat
  | .grammar _ nv _ _ => nv
  | _ => 0

/-- START of a grammar. -/
def Image.start : Image → Nat
  | .grammar _ _ st _ => st
  | _ => 0

/-- Two grammar generations are compatible (R187). -/
def compatible : Image → Image → Bool
  | .grammar a _ _ s, .grammar b _ _ t => decide (a = b ∧ s.length = t.length)
  | _, _ => false

/-! ## Commands -/

/-- KIND and NUM of a TBL command name an object (R365). -/
def tblNumOk (pk : Pkt) : Bool :=
  let n := pk.fld 0 2 8
  match pk.fld 0 0 2 with
  | 0 => true
  | 1 => decide (n < 64)
  | 2 => decide (n < 64)
  | _ => false

/-- The object's key. -/
def tblKey (pk : Pkt) : Nat := swapTable (pk.fld 0 0 2) (pk.fld 0 2 8)

/-- TBL.LOAD (R174, R185): BUSY_RETRY comes before the image is read. The image is kept as it was read; its region is not read again (R170;
DESIGN CHOICE, log 152). -/
def tblLoadD : Desc :=
  { opcode := 0x0400, legal := rdyRunDrn, scope := fun _ => .group, accepts := false,
    bad := fun pk _ => firstBad [(!pk.clean [0x3FF, all32, all32, all32], 0), (!tblNumOk pk, 0), (!addrOk true (pk.p64 1), 0x04)],
    pre := fun _ pk s => if s.secondFree (tblKey pk) then none else some (Cpl.of stBusyRetry 0),
    lock := fun pk _ => some (objTable (pk.fld 0 0 2) (pk.fld 0 2 8)),
    run := fun o pk s =>
      let k := tblKey pk
      match readImage s.mem (pk.fld 0 0 2) (addrKey (pk.p64 1)) (pk.p 3).toNat with
      | .error c => s.finish o c
      | .ok img => ((s.setTbl k { s.tbl k with second := .standby img }).tellMembers o pk).finish o (Cpl.done 0 0) }

/-- The standby generation of an object. -/
def TblObj.standby (o : TblObj) : Option Image :=
  match o.second with
  | .standby i => some i
  | _ => none

/-- A swap of an object: the standby image becomes current with the next number; a current one that is still pinned moves into the
second slot (R185). A member keeps it whatever its own count, since rows placed at the root may pin it. -/
def State.tblSwap (s : State) (k : Nat) (img : Image) : State :=
  let o := s.tbl k
  let g := (o.last + 1) % 2 ^ 16
  let second : Second := match o.cur with
    | some c => if s.isRoot = false ∨ 0 < s.tblPins k c.num then .former c else .empty
    | none => .empty
  (s.setTbl k { o with cur := some { num := g, img := img }, second := second, last := g }).logSwap k g

/-- TBL.SWAP. -/
def tblSwapD : Desc :=
  { opcode := 0x0401, legal := rdyRunDrn, scope := fun _ => .group, accepts := false,
    bad := fun pk _ => firstBad [(!pk.clean [0x3FF], 0), (!tblNumOk pk, 0)],
    pre := fun _ pk s => if (s.tbl (tblKey pk)).standby.isSome then none else some (Cpl.of stWrongState 0),
    lock := fun pk _ => some (objTable (pk.fld 0 0 2) (pk.fld 0 2 8)),
    run := fun o pk s =>
      match (s.tbl (tblKey pk)).standby with
      | none => s
      | some img =>
        let s1 := s.tblSwap (tblKey pk) img
        (s1.tellMembers o pk).finish o (Cpl.done 0 (s1.tbl (tblKey pk)).last) }

/-- A pinned generation vanishes: a contained fault, and every row that pins it gets VOID, those whose tokens are being certified too (R188). -/
def State.tblVanish (s : State) (k g : Nat) (inj : Bool) : State :=
  let o := s.tbl k
  let s1 := s.setTbl k { o with gone := g :: o.gone }
  let due := s1.puns.flatMap (fun p => (p.rows.filter (fun (r : PRow) => r.pins.contains (k, g))).map (fun r => (p.num, r.slot)))
  let waits := fun (r : Row) => r.punnet.isNone && !r.decided && s.placed.any (fun p => decide (p.key = r.key) && p.pins.contains (k, g))
  let s2 := due.foldl (fun (s : State) x => s.doubtAt x.1 (some x.2) 0x14) s1
  let s3 : State := { s2 with rows := s2.rows.map (fun (r : Row) => if waits r then { r with cause := Cause.join r.cause 0x14 } else r) }
  s3.contained 0x14 { Site.none with unit := k, inj := inj }

/-- TBL.FREE's object checks (Table 17.9). -/
def tblFreePre (pk : Pkt) (s : State) : Option Cpl :=
  let k := tblKey pk
  let o := s.tbl k
  let force := bitAt (pk.p 0) 10
  if bitAt (pk.p 0) 11 then
    match o.cur with
    | none => some (Cpl.of stWrongState 0)
    | some c => if 0 < s.tblPins k c.num ∧ force = false then some (Cpl.of stBusyRetry 0) else none
  else
    match o.second with
    | .empty => some (Cpl.of stWrongState 0)
    | .standby _ => none
    | .former g =>
      if s.tblPins k g.num = 0 then some (Cpl.of stWrongState 0) else if force then none else some (Cpl.of stBusyRetry 0)

/-- TBL.FREE. -/
def tblFreeD : Desc :=
  { opcode := 0x0402, legal := rdyRunDrn, scope := fun _ => .group, accepts := false,
    bad := fun pk _ => firstBad [(!pk.clean [0xFFF], 0), (!tblNumOk pk, 0)],
    pre := fun _ pk s => tblFreePre pk s,
    lock := fun pk _ => some (objTable (pk.fld 0 0 2) (pk.fld 0 2 8)),
    run := fun o pk s =>
      let k := tblKey pk
      let t := s.tbl k
      let s1 :=
        if bitAt (pk.p 0) 11 then
          match t.cur with
          | none => s
          | some c =>
            let pinned := decide (0 < s.tblPins k c.num)
            let s1 := s.setTbl k { t with cur := none }
            if pinned then s1.tblVanish k c.num false else s1
        else
          match t.second with
          | .former g => (s.setTbl k { t with second := .empty }).tblVanish k g.num false
          | _ => s.setTbl k { t with second := .empty }
      (s1.tellMembers o pk).finish o (Cpl.done 0 0) }

/-- TBL.QUERY. -/
def tblQueryD : Desc :=
  { opcode := 0x0403, legal := rdyRunDrn, scope := fun _ => .group, accepts := false,
    bad := fun pk _ => firstBad [(!pk.clean [0x3FF], 0), (!tblNumOk pk, 0)],
    pre := fun _ pk s =>
      let t := s.tbl (tblKey pk)
      if t.cur = none ∧ t.standby = none ∧ s.secondFree (tblKey pk) = true then some (Cpl.of stWrongState 0) else none,
    lock := noLock,
    run := fun o pk s =>
      let k := tblKey pk
      let t := s.tbl k
      let pins := match t.cur with
        | some c => s.tblPins k c.num
        | none => 0
      s.finish o (Cpl.done (w32 (min pins 65535 + putBits (b2n t.standby.isSome) 16 + putBits (b2n (!s.secondFree k)) 17))
        ((t.cur.map (fun c => c.num)).getD 0)) }

/-! ## Meanings -/

def execTblLoad (pk : Pkt) (s : State) : Host.Outcome State Fault Refusal := .next (takePacket tblLoadD pk s)
def execTblSwap (pk : Pkt) (s : State) : Host.Outcome State Fault Refusal := .next (takePacket tblSwapD pk s)
def execTblFree (pk : Pkt) (s : State) : Host.Outcome State Fault Refusal := .next (takePacket tblFreeD pk s)
def execTblQuery (pk : Pkt) (s : State) : Host.Outcome State Fault Refusal := .next (takePacket tblQueryD pk s)

end Sys2Proof.Machine
end

