-- ==== Sys2Proof/Machine/Contexts.lean ====
section
/-! DEFINITION. Sampler contexts: the core, pack images, the sketch, counts and history, residency, the pool, and what resets do to
them (R134, R137, R139, R235 to R258). -/

namespace Sys2Proof.Machine

/-! ## The core (Table 12.2) -/

/-- Words of an SCX core, CCRC included. -/
def State.coreWords (s : State) (n : Nat) : List Word :=
  let c := s.ctx n
  let e := s.slot n
  let pe := fun i => (c.pinep.getD i 0).toNat
  let m := c.tent.length
  let a : List Word := [
    w32 (n % 65536 + putBits (c.gen % 256) 16 + putBits (e.rstate % 8) 24 + putBits (b2n c.canc) 27),
    w32 (c.prof % 1024 + putBits (c.ovlreq % 2 ^ 15) 10), w32 (c.pgen % 65536 + putBits (c.tenant % 4096) 16),
    w32 (c.fill % 2 ^ 21 + putBits (c.tring % 16) 21 + putBits (c.kvring % 16) 25), lo32 c.seed, hi32 c.seed,
    w32 (c.clen % 2 ^ 25), w32 (c.promptlen % 2 ^ 25), w32 (pe 0 + putBits (pe 1) 16), w32 (pe 2 + putBits (pe 3) 16),
    w32 (c.pinmask % 16 + putBits c.rs.ngram 4 + putBits c.rs.penprompt 7 + putBits c.rs.dlctl 8 + putBits c.rs.dlinit 9
      + putBits c.rs.dlmin 14 + putBits c.rs.dlmax 19),
    w32 (c.rs.alo.toNat + putBits c.rs.ahi.toNat 16), w32 c.rs.ttftgoal, w32 c.rs.tbtgoal, w32 c.rs.tbtmargin,
    w32 ((c.gram.getD 0) % 64 + putBits (b2n c.gram.isSome) 6 + putBits (c.ggen % 65536) 16),
    w32 (c.cstate % 2 ^ 20), w32 (2 ^ m - 1), lo32 c.lhash, hi32 c.lhash, lo32 c.rhash, hi32 c.rhash,
    w32 (c.bsize % 4 + putBits (b2n c.hashon) 2 + putBits ((c.tent.filter (fun t => t.chg)).length % 32) 3), 0,
    w32 c.charged, w32 (c.charged / 2 ^ 32), c.alpha, w32 (c.dlen % 32 + putBits (c.zrun % 4) 5 + putBits (c.ngrp % 65536) 16),
    c.topen, c.tlast, lo32 c.expiry, hi32 c.expiry, lo32 c.strictloc, hi32 c.strictloc, lo32 c.histloc, hi32 c.histloc,
    lo32 c.hblkloc, hi32 c.hblkloc, w32 (c.hlog2 % 32), w32 (c.hist.length % 2 ^ 25), w32 (c.nblk % 2 ^ 24)]
  let b := a ++ List.replicate (63 - a.length) 0
  b ++ [crcWords b]

/-! ## The sketch (R250) -/

/-- h_i(v). -/
def sketchIdx (i v : Nat) : Nat := (v * [0xA5C31E2B, 0x6F49D837, 0xD31B7A65, 0x3B8E45C9].getD i 0) % 2 ^ 32 / 2 ^ 23

/-- A counter of the sketch; one that is not written is 0. -/
def sketchAt (sk : List Nat) (i v : Nat) : Nat := sk.getD (512 * i + sketchIdx i v) 0

/-- A sketch of zeros. -/
def sketchZero : List Nat := List.replicate 2048 0

/-- A committed token added. -/
def sketchAdd (sk : List Nat) (v : Nat) : List Nat :=
  (List.range 4).foldl (fun s i => setAt s (512 * i + sketchIdx i v) (min 65535 (sketchAt s i v + 1))) (if sk.isEmpty then sketchZero else sk)

/-- The estimate of a count. -/
def sketchEst (sk : List Nat) (v : Nat) : Nat :=
  min (min (sketchAt sk 0 v) (sketchAt sk 1 v)) (min (sketchAt sk 2 v) (sketchAt sk 3 v))

/-! ## Counts (R134, R139, R252) -/

/-- A tile that a shard of a group owns under some configured head set (R13, R235). -/
def State.ownsTile (s : State) (n i t : Nat) : Bool :=
  (List.range 4).any (fun h =>
    let k := tilesOf (s.head h).v
    decide ((s.head h).d ≠ 0 ∧ tileLo k n i ≤ t ∧ t < tileLo k n i + tileCnt k n i))

/-- This shard owns an id under some configured head set (R235). -/
def State.ownsAny (s : State) (v : Nat) : Bool := (List.range 4).any (fun h => decide ((s.head h).d ≠ 0) && s.owns h v)

/-- One token counted; more than 65,536 distinct ids make the part dense (R139). -/
def CountPart.add (c : CountPart) (v : Nat) : CountPart :=
  let t := Tab.upd c.counts v 0 (fun x => min 65535 (x + 1))
  { c with counts := t, dense := c.dense || decide (65536 < t.length), dirty := true }

/-- The row uses the count (R247). -/
def usesCount (p : Profile) : Bool :=
  decide (p.reppen ≠ f32One) || !isZero p.prespen || !isZero p.freqpen || decide (p.ngram = 1)

/-- A COUNT part with its pending updates applied, in commit order (R252). -/
def CountPart.applied (c : CountPart) : CountPart := c.pend.foldl (fun k v => k.add v) { c with pend := [] }

/-- The dense vector of a shard: two bytes for each entry of the tiles it owns under some head set, in ascending id (R139, R235; which tiles
stand together is the model's, DESIGN CHOICE, log 73). -/
def State.denseBytes (s : State) (n i : Nat) (c : Tab Nat) : List Byte :=
  ((List.range 4096).filter (fun t => s.ownsTile n i t)).flatMap (fun t => (span (512 * t) 512).flatMap (fun v => natBytes 2 (Tab.get c v 0)))

/-- The place of an entry in the dense vector. -/
def State.denseAt (s : State) (n i v : Nat) : Nat := 1024 * ((List.range (v / 512)).filter (fun t => s.ownsTile n i t)).length + 2 * (v % 512)

/-! ## History (R137, R253, R254) -/

/-- K of a list of tokens in position order. -/
def histKey (ts : List Nat) : Nat := ts.foldl (fun k t => (k * 0xB5AD4ECEDA1B + t + 1) % 2 ^ 48) 0

/-- The slot where the probe of a key ends (R253). -/
def histProbe (occ : Tab HistSlot) (size k : Nat) : Nat → Nat → Nat
  | 0, p => p
  | f + 1, p => match Tab.find? occ p with
    | none => p
    | some e => if e.key = k then p else histProbe occ size k f ((p + 1) % size)

/-- The slot of a key in a history. -/
def Scx.histPos (x : Scx) (k : Nat) : Nat := histProbe x.hist (2 ^ x.hlog2) k (2 ^ x.hlog2) (k % 2 ^ x.hlog2)

/-- The followers of a key, in recording order. -/
def Scx.followers (x : Scx) (k : Nat) : List Nat := ((Tab.find? x.hist (x.histPos k)).map (fun e => e.fs)).getD []

/-- A follower recorded, if it is not listed; a full list counts an overflow. -/
def Scx.histAdd (x : Scx) (k t : Nat) : Scx × Bool :=
  let e := (Tab.find? x.hist (x.histPos k)).getD { key := k, fs := [], blks := [] }
  if e.fs.contains t then (x, false)
  else if 1024 ≤ e.fs.length then (x, true)
  else
    let new := decide (e.fs ≠ [] ∧ (e.fs.length - 1) % 15 = 0)
    ({ x with hist := Tab.set x.hist (x.histPos k) { e with fs := e.fs ++ [t], blks := if new then e.blks ++ [x.nblk] else e.blks },
              nblk := if new then x.nblk + 1 else x.nblk }, false)

/-- A pair whose key is new would take the table past three quarters of its slots (R254). -/
def Scx.histFull (x : Scx) (k : Nat) : Bool :=
  (Tab.find? x.hist (x.histPos k)).isNone && decide (3 * 2 ^ x.hlog2 < 4 * (x.hist.length + 1) ∧ x.hlog2 < 25)

/-- The table with twice the slots; its keys go in in the order of their old slots, their blocks stay (DESIGN CHOICE, log 140). -/
def Scx.doubleHist (x : Scx) : Scx :=
  x.hist.foldl (fun (y : Scx) e => { y with hist := Tab.set y.hist (y.histPos e.2.key) e.2 }) { x with hist := [], hlog2 := min 25 (x.hlog2 + 1) }

/-- The ban list of a row at a position, from the tokens before it, newest first (R137). -/
def Scx.bans (c : Scx) (pos : Nat) (before : List Nat) : List Nat :=
  let g := c.rs.ngram
  if g < 2 ∨ pos < g - 1 ∨ (c.rs.penprompt = 0 ∧ pos < c.promptlen + (g - 1)) then []
  else sortBy (fun (a b : Nat) => decide (a < b)) (c.followers (histKey (before.take (g - 1)).reverse))

/-- The token at position i makes an n-gram that counts (R254). -/
def Scx.histCounts (x : Scx) (i : Nat) : Bool :=
  let g := x.rs.ngram
  decide (2 ≤ g ∧ g - 1 ≤ i ∧ (x.rs.penprompt = 1 ∨ x.promptlen ≤ i - (g - 1)))

/-- The slot table as words (Table 12.8). -/
def Scx.slotTable (x : Scx) : List Word :=
  (List.range (2 ^ x.hlog2)).flatMap (fun p => match Tab.find? x.hist p with
    | none => [0, 0, 0, 0]
    | some e =>
      [w32 e.key, w32 (e.key / 2 ^ 32 % 2 ^ 16 + putBits e.fs.length 16), w32 (e.fs.headD 0), (e.blks.head?.map (fun b => w32 b)).getD 0xFFFFFFFF])

/-- The overflow blocks as words (Table 12.8). -/
def Scx.blockTable (x : Scx) : List Word :=
  (List.range x.nblk).flatMap (fun b =>
    match List.find? (fun (e : Nat × HistSlot) => e.2.blks.contains b) x.hist with
    | none => List.replicate 16 0
    | some e =>
      let i := (e.2.blks.takeWhile (fun c => decide (c ≠ b))).length
      (List.range 15).map (fun j => w32 (e.2.fs.getD (1 + 15 * i + j) 0)) ++ [((e.2.blks[i + 1]?).map (fun c => w32 c)).getD 0xFFFFFFFF])

/-! ## Pack images (R244, R245) -/

/-- Unsigned LEB128. -/
def varint : Nat → Nat → List Byte
  | 0, v => [BitVec.ofNat 8 (v % 128)]
  | n + 1, v => if v < 128 then [BitVec.ofNat 8 v] else BitVec.ofNat 8 (v % 128 + 128) :: varint n (v / 128)

/-- A varint of at most 32 bits. -/
def vi (v : Nat) : List Byte := varint 4 v

/-- A section: its header and its body, padded to four bytes. -/
def section_ (stype : Nat) (body : List Byte) : List Byte :=
  natBytes 4 stype ++ natBytes 4 body.length ++ body ++ List.replicate ((4 - body.length % 4) % 4) 0

/-- A pack image. -/
def packImage (n gen part shard ulen : Nat) (secs : List (List Byte)) : List Byte :=
  let body := secs.flatten
  let len := 32 + body.length
  let h : List Word := [0x4B435850, w32 (1 + putBits secs.length 16), w32 (n % 65536 + putBits (gen % 256) 16 + putBits part 24),
    w32 (shard % 1024), w32 len, w32 ulen, crc32c body]
  wordsBytes (h ++ [crcWords h]) ++ body

/-- Sketch counters as pairs of a zero-run and a value. -/
def sketchPairs : Nat → List Nat → List Byte
  | _, [] => []
  | z, v :: r => if v = 0 then sketchPairs (z + 1) r else vi z ++ vi v ++ sketchPairs 0 r

/-- Ascending ids as deltas, each with the bytes that follow it. -/
def deltas : Int → List (Nat × List Byte) → List Byte
  | _, [] => []
  | p, (v, bs) :: r => vi ((v : Int) - p - 1).toNat ++ bs ++ deltas v r

/-- A retained set: the header of Table 9.1, then its entries. -/
def rsetBytes (r : RetSet) : List Byte :=
  let h : List Word := [w32 (r.pos % 2 ^ 24 + putBits (b2n r.zero) 24), w32 (r.ents.length % 2 ^ 13 + putBits r.depoch.toNat 16),
    w32 (r.dtoken % 2 ^ 21), r.anch] ++ accWords r.qd ++ [0]
  wordsBytes (h ++ [crcWords h]) ++ deltas (-1) (r.ents.map (fun e => (e.1, wordBytes e.2)))

/-- A tentative ring entry as 8 bytes. -/
def tentBytes (t : Tent) : List Byte := wordsBytes [w32 (t.tok % 2 ^ 21 + putBits (b2n t.chg) 21), w32 (t.state % 2 ^ 20)]

/-- Bytes of a retained set as its pages hold it (R194). -/
def retBytes (r : RetSet) : Nat := 64 + 8 * r.ents.length

/-- The packed image of a part of a slot: 1 HEAD, 2 STRICT, 3 a COUNT list. -/
def State.partImage (s : State) (n part : Nat) : List Byte :=
  let c := s.ctx n
  match part with
  | 1 => packImage n c.gen 1 0 4352 [section_ 1 (wordsBytes (s.coreWords n)), section_ 2 (sketchPairs 0 c.sketch)]
  | 2 =>
    let ring := (c.tent.flatMap tentBytes) ++ List.replicate (8 * (16 - c.tent.length)) 0
    let bias := if c.bias.isEmpty then [] else [section_ 5 (vi c.bias.length ++ deltas (-1) (c.bias.map (fun e => (e.1, wordBytes e.2))))]
    packImage n c.gen 2 0 (128 + (c.tent.map (fun t => retBytes t.ret)).foldl (· + ·) 0 + 8 * c.bias.length)
      (section_ 3 ring :: c.tent.map (fun t => section_ 4 (rsetBytes t.ret)) ++ bias)
  | _ =>
    let k := s.count n
    packImage n c.gen 3 s.orch.shard (8 * k.counts.length)
      [section_ 6 (vi k.counts.length ++ deltas (-1) (k.counts.map (fun e => (e.1, vi e.2))))]

/-! ## Reading a pack image (R238, R244 to R246) -/

/-- A varint, and what follows it; none past five bytes. -/
def unvi : Nat → List Byte → Option (Nat × List Byte)
  | 0, _ => none
  | _ + 1, [] => none
  | f + 1, b :: r => if b.toNat < 128 then some (b.toNat, r) else (unvi f r).map (fun x => (b.toNat - 128 + 128 * x.1, x.2))

/-- The key of the bytes that a location word names. -/
def locKey (w : W64) : Nat := memKey (w.toNat % 4 - 1) (w.toNat / 4096 * 4096)

/-- A location word without a reserved value (Table 12.4). -/
def locOk (w : W64) : Bool := decide (w.toNat % 4 ≠ 3) && decide (bitsAt w 3 9 = 0)

/-- The sections of a body; none where one overruns it, has a reserved type bit set, or is not padded with zeros. -/
def sectionsOf : Nat → List Byte → Option (List (Nat × List Byte))
  | 0, bs => if bs.isEmpty then some [] else none
  | f + 1, bs =>
    if bs.isEmpty then some []
    else
      let t := leNat (bs.take 4)
      let n := leNat ((bs.drop 4).take 4)
      let pad := ceilDiv n 4 * 4
      if bs.length < 8 + pad ∨ 255 < t ∨ ((bs.drop (8 + n)).take (pad - n)).any (fun b => decide (b ≠ 0)) then none
      else (sectionsOf f (bs.drop (8 + pad))).map (fun l => (t, (bs.drop 8).take n) :: l)

/-- A pack image that passes the checks of R246 on its header: its sections. -/
def packRead (m : Memory) (loc : W64) (h : Handle) (part shard : Nat) : Option (List (Nat × List Byte)) :=
  let k := locKey loc
  let w := m.words k 8
  let len := (w.getD 4 0).toNat
  let body := m.bytes (k + 32) (len - 32)
  let ok := decide (loc.toNat % 4 ≠ 0) && locOk loc && bitAt loc 2
    && decide (w.getD 0 0 = 0x4B435850 ∧ bitsAt (w.getD 1 0) 0 16 = 1 ∧ bitsAt (w.getD 2 0) 0 24 = handleNat h ∧ bitsAt (w.getD 2 0) 24 8 = part
      ∧ w.getD 3 0 = w32 shard ∧ 32 ≤ len ∧ w.getD 7 0 = crcWords (w.take 7) ∧ w.getD 6 0 = crc32c body) && !m.bad k len
  if ok then (sectionsOf (bitsAt (w.getD 1 0) 16 16) body).filter (fun l => decide (l.length = bitsAt (w.getD 1 0) 16 16)) else none

/-- Sketch counters from their pairs. -/
def sketchRead : Nat → List Byte → Option (List Nat)
  | 0, bs => if bs.isEmpty then some [] else none
  | f + 1, bs =>
    if bs.isEmpty then some []
    else (unvi 5 bs).bind (fun z => (unvi 5 z.2).bind (fun v =>
      if v.1 = 0 ∨ 65535 < v.1 ∨ 2047 < z.1 then none else (sketchRead f v.2).map (fun l => List.replicate z.1 0 ++ v.1 :: l)))

/-- Ids given as deltas, each with a value that a reader takes from the bytes after it; none where an id leaves 21 bits or bytes are left. -/
def deltasRead {α : Type} (val : List Byte → Option (α × List Byte)) : Nat → Int → List Byte → Option (List (Nat × α))
  | 0, _, bs => if bs.isEmpty then some [] else none
  | n + 1, p, bs => (unvi 5 bs).bind (fun d => (val d.2).bind (fun v =>
      let id := (p + 1 + d.1).toNat
      if 2 ^ 21 ≤ id then none else (deltasRead val n id v.2).map (fun l => (id, v.1) :: l)))

/-- Four raw bytes. -/
def word4 (bs : List Byte) : Option (F32 × List Byte) := if bs.length < 4 then none else some (BitVec.ofNat 32 (leNat (bs.take 4)), bs.drop 4)

/-- A count of 1 to 65,535. -/
def countVi (bs : List Byte) : Option (Nat × List Byte) := (unvi 5 bs).filter (fun x => decide (1 ≤ x.1 ∧ x.1 ≤ 65535))

/-- A retained set from its section; one whose HCRC fails is bad (R195). -/
def rsetRead (bs : List Byte) : Option RetSet :=
  let w := bytesWords (bs.take 64)
  (deltasRead word4 (bitsAt (w.getD 1 0) 0 13) (-1) (bs.drop 64)).map (fun es =>
    { pos := bitsAt (w.getD 0 0) 0 24, zero := bitAt (w.getD 0 0) 24, depoch := BitVec.ofNat 16 (bitsAt (w.getD 1 0) 16 16),
      dtoken := bitsAt (w.getD 2 0) 0 21, anch := w.getD 3 0, qd := BitVec.ofNat 320 (leNat ((bs.drop 16).take 40)),
      ents := es, bad := decide (w.getD 15 0 ≠ crcWords (w.take 15)) })

/-- A core without a reserved value, for a handle (Table 12.2, R238). -/
def coreOk (w : List Word) (h : Handle) : Bool :=
  let rsv : List Nat := [0xF0000000, 0xFE000000, 0xF0000000, 0xE0000000, 0, 0, 0xFE000000, 0xFE000000, 0, 0, 0xFF000000, 0, 0xFF000000, 0xFF000000,
    0xFFFF0000, 0xFF80, 0xFFF00000, 0xFFFF0000, 0, 0, 0, 0, 0xFFFFFF00, all32, 0, 0, 0, 0xFF80, 0, 0, 0, 0, 0, 0, 0, 0, 0, 0, 0xFFFFFFE0, 0xFE000000,
    0xFF000000] ++ List.replicate 22 all32
  let f := fun (o lo len : Nat) => bitsAt (w.getD (o / 4) 0) lo len
  let q := fun (o : Nat) => join64 (w.getD (o / 4) 0) (w.getD (o / 4 + 1) 0)
  decide (w.length = 64 ∧ w.getD 63 0 = crcWords (w.take 63) ∧ f 0 0 24 = handleNat h) && (List.range 63).all (fun i => decide ((w.getD i 0).toNat &&& rsv.getD i 0 = 0))
  && decide (f 0 24 3 ≤ 4 ∧ f 0x18 0 25 ≤ 2 ^ 24 ∧ f 0x1C 0 25 ≤ 2 ^ 24 ∧ f 0x28 4 3 ≤ 4 ∧ f 0x58 3 5 ≤ 16 ∧ 8 ≤ f 0x98 0 5 ∧ f 0x98 0 5 ≤ 25)
  && [9, 14, 19].all (fun b => decide (1 ≤ f 0x28 b 5 ∧ f 0x28 b 5 ≤ 16)) && [0x80, 0x88, 0x90].all (fun o => locOk (q o))

/-- A core read back (Table 12.2). -/
def coreRead (w : List Word) : Scx :=
  let f := fun (o lo len : Nat) => bitsAt (w.getD (o / 4) 0) lo len
  let q := fun (o : Nat) => join64 (w.getD (o / 4) 0) (w.getD (o / 4 + 1) 0)
  let h := fun (o lo : Nat) => BitVec.ofNat 16 (f o lo 16)
  { Scx.zero with
    gen := f 0 16 8, canc := bitAt (w.getD 0 0) 27, prof := f 4 0 10, ovlreq := f 4 10 15, pgen := f 8 0 16, tenant := f 8 16 12,
    fill := f 0xC 0 21, tring := f 0xC 21 4, kvring := f 0xC 25 4, seed := q 0x10, clen := f 0x18 0 25, promptlen := f 0x1C 0 25,
    pinmask := f 0x28 0 4, pinep := [h 0x20 0, h 0x20 16, h 0x24 0, h 0x24 16],
    rs := { ngram := f 0x28 4 3, penprompt := f 0x28 7 1, dlctl := f 0x28 8 1, dlinit := f 0x28 9 5, dlmin := f 0x28 14 5, dlmax := f 0x28 19 5,
            alo := h 0x2C 0, ahi := h 0x2C 16, ttftgoal := f 0x30 0 24, tbtgoal := f 0x34 0 24, tbtmargin := f 0x38 0 16 },
    gram := if f 0x3C 6 1 = 1 then some (f 0x3C 0 6) else none, ggen := f 0x3C 16 16, cstate := f 0x40 0 20,
    lhash := q 0x48, rhash := q 0x50, bsize := f 0x58 0 2, hashon := decide (f 0x58 2 1 = 1), charged := (q 0x60).toNat,
    alpha := w.getD 26 0, dlen := f 0x6C 0 5, zrun := f 0x6C 5 2, ngrp := f 0x6C 16 16, topen := w.getD 28 0, tlast := w.getD 29 0,
    ttftDone := decide (w.getD 29 0 ≠ 0), expiry := q 0x78, strictloc := q 0x80, histloc := q 0x88, hblkloc := q 0x90, hlog2 := f 0x98 0 5,
    nblk := f 0xA0 0 24, drafts := 16 }

/-- Valid entries of the ring: RINGV marks them, and they run from the first. -/
def coreTents (w : List Word) : Nat := ((List.range 16).takeWhile (fun j => bitAt (w.getD 17 0) j)).length

/-- A HEAD image read: the core's words, the sketch. -/
def headRead (m : Memory) (loc : W64) (h : Handle) : Option (List Word × List Nat) :=
  match packRead m loc h 1 0 with
  | some [(1, c), (2, k)] =>
    if c.length = 256 ∧ coreOk (bytesWords c) h = true then
      ((sketchRead 2048 k).filter (fun l => decide (l.length ≤ 2048))).map (fun l => (bytesWords c, (l ++ sketchZero).take 2048))
    else none
  | _ => none

/-- A STRICT image read: the tentative entries and the bias list. -/
def strictRead (m : Memory) (loc : W64) (h : Handle) (tents : Nat) : Option (List Tent × List (Nat × F32)) :=
  match packRead m loc h 2 0 with
  | some ((3, ring) :: rest) =>
    let sets := rest.takeWhile (fun x => decide (x.1 = 4))
    let w := bytesWords ring
    let clean := (List.range 16).all (fun j => decide (bitsAt (w.getD (2 * j) 0) 22 10 = 0 ∧ bitsAt (w.getD (2 * j + 1) 0) 20 12 = 0))
    let bias := match rest.drop sets.length with
      | [] => some []
      | [(5, b)] => (unvi 5 b).bind (fun c => deltasRead word4 c.1 (-1) c.2)
      | _ => none
    let rs := sets.filterMap (fun x => rsetRead x.2)
    if ring.length = 128 ∧ clean = true ∧ sets.length = tents ∧ rs.length = tents then
      bias.map (fun b => (rs.mapIdx (fun j r =>
        { tok := bitsAt (w.getD (2 * j) 0) 0 21, chg := bitAt (w.getD (2 * j) 0) 21, state := bitsAt (w.getD (2 * j + 1) 0) 0 20, ret := r, ver := j }), b))
    else none
  | _ => none

/-- A COUNT list read from its image. -/
def countRead (m : Memory) (loc : W64) (h : Handle) (shard : Nat) : Option (Tab Nat) :=
  match packRead m loc h 3 shard with
  | some [(6, b)] => (unvi 5 b).bind (fun c => if 65536 < c.1 then none else deltasRead countVi c.1 (-1) c.2)
  | _ => none

/-- The part that a segment-directory entry of a shard of a group names; none where it is lost. -/
def State.segRead (s : State) (w : List Word) (h : Handle) (n i : Nat) : Option (Tab Nat) :=
  let loc := join64 (w.getD 2 0) (w.getD 3 0)
  let k := locKey loc
  let ts := (List.range 4096).filter (fun t => s.ownsTile n i t)
  if loc.toNat % 4 = 0 ∨ bitAt (w.getD 0 0) 18 = true then none
  else if bitAt (w.getD 0 0) 17 then
    if s.mem.bad k (1024 * ts.length) then none
    else some (ts.zipIdx.flatMap (fun e => (List.range 512).filterMap (fun j =>
      let c := s.mem.num (k + 1024 * e.2 + 2 * j) 2
      if c = 0 then none else some (512 * e.1 + j, c))))
  else countRead s.mem loc h i

/-- The overflow blocks of a chain. -/
def chainRead (m : Memory) (base : Nat) : Nat → Word → List Nat
  | 0, _ => []
  | f + 1, b => if b = 0xFFFFFFFF then [] else b.toNat :: chainRead m base f (m.word (base + 64 * b.toNat + 60))

/-- A history read from its areas (Table 12.8). -/
def histRead (m : Memory) (x : Scx) : Tab HistSlot :=
  let base := locKey x.hblkloc
  (List.range (2 ^ x.hlog2)).filterMap (fun p =>
    let w := m.words (locKey x.histloc + 16 * p) 4
    let nf := bitsAt (w.getD 1 0) 16 11
    if nf = 0 then none
    else
      let bs := chainRead m base 69 (w.getD 3 0)
      let fs := bitsAt (w.getD 2 0) 0 21 :: bs.flatMap (fun b => (m.words (base + 64 * b) 15).map (fun v => bitsAt v 0 21))
      some (p, { key := (w.getD 0 0).toNat + bitsAt (w.getD 1 0) 0 16 * 2 ^ 32, fs := fs.take nf, blks := bs }))

/-! ## The pool (R241 to R243) -/

/-- Pages of a tier's region. -/
def State.tierPages (s : State) (tier : Nat) : Nat := ((Tab.find? s.conf.regions (4 + tier)).map (fun r => r.len / 4096)).getD 0

/-- First byte of a tier's region. -/
def State.tierBase (s : State) (tier : Nat) : Nat := ((Tab.find? s.conf.regions (4 + tier)).map (fun r => r.base.toNat / 4096 * 4096)).getD 0

/-- Pages that a part of a slot holds in the pool: `used` is keyed by 8 * slot + part and holds 4 * pages + tier. Parts: 1 HEAD, 2 STRICT,
3 COUNT, 4 the history's slots, 5 its blocks. -/
def State.usedOf (s : State) (n part : Nat) : Nat := Tab.get s.pool.used (8 * n + part) 0

/-- Pages in use in a tier. -/
def State.tierUsed (s : State) (tier : Nat) : Nat := s.pool.used.foldl (fun a (e : Nat × Nat) => if e.2 % 4 = tier then a + e.2 / 4 else a) 0

/-- Free pages of the pool. -/
def State.poolFree (s : State) : Nat := s.tierPages 0 + s.tierPages 1 - s.tierUsed 0 - s.tierUsed 1

/-- The location word of a part. -/
def State.locOf (s : State) (n part : Nat) : W64 :=
  match part with
  | 1 => (s.slot n).headloc
  | 2 => (s.ctx n).strictloc
  | 3 => (s.count n).loc
  | 4 => (s.ctx n).histloc
  | _ => (s.ctx n).hblkloc

/-- The location word of a part replaced. -/
def State.setLoc (s : State) (n part : Nat) (w : W64) : State :=
  match part with
  | 1 => s.setSlot n { s.slot n with headloc := w }
  | 2 => s.setCtx n { s.ctx n with strictloc := w }
  | 3 => s.setCount n { s.count n with loc := w }
  | 4 => s.setCtx n { s.ctx n with histloc := w }
  | _ => s.setCtx n { s.ctx n with hblkloc := w }

/-- A part's pages returned to the pool. -/
def State.freePart (s : State) (n part : Nat) : State :=
  if s.usedOf n part = 0 ∧ s.locOf n part = 0 then s
  else ({ s with pool := { s.pool with used := Tab.del s.pool.used (8 * n + part) } }).setLoc n part 0

/-- Every part of a slot freed on this instance. -/
def State.freeParts (s : State) (n : Nat) : State := [1, 2, 3, 4, 5].foldl (fun s p => s.freePart n p) s

/-- The runs of pages in use in a tier: first page, length. -/
def State.runsIn (s : State) (tier : Nat) : List (Nat × Nat) :=
  s.pool.used.filterMap (fun e =>
    if e.2 % 4 = tier then some (((s.locOf (e.1 / 8) (e.1 % 8)).toNat / 4096 * 4096 - s.tierBase tier) / 4096, e.2 / 4) else none)

/-- The first free run of some pages at or after a page. -/
def runFrom (rs : List (Nat × Nat)) (total pages : Nat) : Nat → Nat → Option Nat
  | 0, _ => none
  | f + 1, p =>
    if total < p + pages then none
    else match rs.find? (fun r => decide (r.1 < p + pages ∧ p < r.1 + r.2)) with
      | none => some p
      | some r => runFrom rs total pages f (r.1 + r.2)

/-- A free run of pages of a tier; which one is a free value (DESIGN CHOICE, log 31). -/
def State.findRun (s : State) (tier pages : Nat) : Option Nat :=
  let rs := s.runsIn tier
  let t := s.tierPages tier
  (runFrom rs t pages (rs.length + 1) (Config.poolPage tier pages s.free % (t + 1 - pages))).or (runFrom rs t pages (rs.length + 1) 0)

/-- Bytes of a part written to a free run of a tier; none where the tier has no such run. -/
def State.writeTo (s : State) (n part tier : Nat) (packed : Bool) (bs : List Byte) : Option State :=
  let pages := ceilDiv bs.length 4096
  (s.findRun tier pages).map (fun p =>
    let addr := s.tierBase tier + 4096 * p
    let s1 := { s with free := s.free + 1, pool := { s.pool with used := Tab.set s.pool.used (8 * n + part) (4 * pages + tier) } }
    (s1.store (memKey tier addr) bs).setLoc n part (BitVec.ofNat 64 (addr + (tier + 1) + putBits (b2n packed) 2)))

/-- A part's pages moved to another tier, copied unchanged; none where they find no room. -/
def State.moveTo (s : State) (n part tier : Nat) : Option State :=
  let u := s.usedOf n part
  if u = 0 ∨ u % 4 = tier then some s
  else
    let loc := s.locOf n part
    (s.freePart n part).writeTo n part tier (bitAt loc 2) (s.mem.bytes (locKey loc) (4096 * (u / 4)))

/-- Ticks since a last use, in its units (R239). -/
def State.ageOf (s : State) (t : Word) : Nat := (BitVec.ofNat 32 (s.now / 1024) - t).toNat

/-- Age of a part: that of the slot's HEAD, or of this shard's COUNT part. -/
def State.partAge (s : State) (n part : Nat) : Nat := s.ageOf (if part = 3 then (s.count n).lastUse else (s.slot n).lastUse)

/-- The packed part in T1 of the greatest age. -/
def State.oldestT1 (s : State) : Option (Nat × Nat) :=
  let ps := (s.pool.used.filter (fun e => decide (e.2 % 4 = 0))).map (fun e => (e.1 / 8, e.1 % 8))
  (sortBy (fun (a b : Nat × Nat) => decide (s.partAge b.1 b.2 < s.partAge a.1 a.2)) (ps.filter (fun x => bitAt (s.locOf x.1 x.2) 2))).head?

/-- T1 brought to have a free run of some pages: its oldest packed parts move to T2 first (R242). -/
def State.roomT1 (pages : Nat) : Nat → State → State
  | 0, s => s
  | f + 1, s =>
    if (s.findRun 0 pages).isSome then s
    else match s.oldestT1 with
      | none => s
      | some x => match s.moveTo x.1 x.2 1 with
        | some t => State.roomT1 pages f t
        | none => s

/-- Bytes of a part written to T1 in place of its former copy; where they find no pages a pool-full event is counted and the part has no
copy below T0 (R242, R243). -/
def State.writeT1 (s : State) (n part : Nat) (packed : Bool) (bs : List Byte) : State :=
  let s0 := s.freePart n part
  match (State.roomT1 (ceilDiv bs.length 4096) s0.pool.used.length s0).writeTo n part 0 packed bs with
  | some t => t
  | none => s0.setCause cPoolFull

/-- A raw area written: over its pages where they suffice, else to a new run. -/
def State.writeRaw (s : State) (n part : Nat) (bs : List Byte) : State :=
  if bs.isEmpty then s
  else if bs.length ≤ 4096 * (s.usedOf n part / 4) then s.store (locKey (s.locOf n part)) bs
  else s.writeT1 n part false bs

/-- The last tokens of a context kept beside its HEAD image (DESIGN CHOICE, log 138). -/
def State.keepTail (s : State) (n : Nat) : State :=
  let x := s.ctx n
  { s with tails := Tab.set s.tails n (x.gen, x.clen, x.recent) }

/-- A part written back to T1 with its content as it stands; its former copy is no longer current. -/
def State.writeBack (s : State) (n part : Nat) : State :=
  if part = 3 ∧ (s.count n).dense = true then s.writeRaw n 3 (s.denseBytes s.orch.n s.orch.shard (s.count n).counts)
  else
    let s1 := if part = 1 then s.keepTail n else s
    s1.writeT1 n part true (s1.partImage n part)

/-- The history's areas written through to T1 (R241, R253; DESIGN CHOICE, log 140). -/
def State.writeHist (s : State) (n : Nat) : State :=
  let x := s.ctx n
  if s.isHome n = false ∨ x.rs.ngram < 2 then s
  else
    let s1 := (s.writeRaw n 4 (wordsBytes x.slotTable)).writeRaw n 5 (wordsBytes x.blockTable)
    s1.setCtx n { s1.ctx n with dirty := true }

/-- The pool counters that the root reports (Table 21.13): its own instance's pages (DESIGN CHOICE, log 32). -/
def State.poolNow (s : State) : Pool :=
  let a := s.tierUsed 0
  let b := s.tierUsed 1
  { s.pool with t1 := a, t2 := b, free := s.poolFree, hwm := max s.pool.hwm (a + b) }

/-! ## T0 (R240, R242, R243) -/

/-- Parts of a request that this instance holds in T0 as items: HEAD and STRICT at the home, the COUNT list on every shard. -/
def State.myParts (s : State) (n : Nat) : List Nat := if s.isHome n then [1, 2, 3] else [3]

/-- An item is in T0. -/
def State.inT0 (s : State) (n part : Nat) : Bool :=
  match part with
  | 1 => (s.ctx n).headRes
  | 2 => (s.ctx n).strictRes
  | _ => (s.count n).res && !(s.count n).dense

/-- An item has changed since it was last written below T0. -/
def State.isDirty (s : State) (n part : Nat) : Bool :=
  match part with
  | 1 => (s.ctx n).dirty
  | 2 => (s.ctx n).sdirty
  | _ => (s.count n).dirty

/-- An item's dirty mark cleared; `out`: the item also leaves T0. -/
def State.cleanItem (s : State) (n part : Nat) (out : Bool) : State :=
  match part with
  | 1 => s.setCtx n { s.ctx n with dirty := false, headRes := (s.ctx n).headRes && !out }
  | 2 => s.setCtx n { s.ctx n with sdirty := false, strictRes := (s.ctx n).strictRes && !out }
  | _ => s.setCount n { s.count n with dirty := false, res := (s.count n).res && !out }

/-- A row of a slot is placed and its record not issued, as far as this instance knows. -/
def State.placedRow (s : State) (n : Nat) (p : PRow → Bool) : Bool :=
  s.puns.any (fun q => q.rows.any (fun r => decide (r.key.handle.slot = n) && p r
    && (!r.exited || s.rows.any (fun x => decide (x.key = r.key ∧ x.punnet.isSome = true) && x.home))))

/-- A row needs the STRICT pages of its request (R247). -/
def needsStrict (x : Scx) (k : RowKey) : Bool := decide (k.cls = clDraft ∨ k.cls = clVerify) || !x.bias.isEmpty

/-- An item is pinned (R242). -/
def State.itemPinned (s : State) (n part : Nat) : Bool :=
  match part with
  | 1 => s.placedRow n (fun _ => true) || !(s.count n).pend.isEmpty || !(s.ctx n).histPend.isEmpty
      || s.rows.any (fun r => decide (r.key.handle.slot = n ∧ r.key.cls = clVerify) && r.home)
  | 2 => s.placedRow n (fun r => needsStrict (s.ctx n) r.key)
  | _ => s.placedRow n (fun r => usesCount r.prof)

/-- Frames that the STRICT pages and the COUNT list of a slot take. -/
def State.itemFrames (s : State) (n part : Nat) : Nat :=
  let c := s.ctx n
  match part with
  | 1 => 0
  | 2 => 1 + ceilDiv (8 * c.bias.length) 4096 + (c.tent.map (fun t => ceilDiv (retBytes t.ret) 4096)).foldl (· + ·) 0
  | _ => ceilDiv (8 * (s.count n).counts.length) 4096

/-- Head slots in use. -/
def State.headsUsed (s : State) : Nat := (s.scx.filter (fun (c : Nat × Scx) => c.2.headRes && s.isHome c.1)).length

/-- Frames of what a placed row has in use: its sketch copy, the lines of its lookup, lines of a dense vector (R240, R250). -/
def State.rowFrames (s : State) (r : PRow) : Nat :=
  let n := r.key.handle.slot
  b2n (!r.sides.sketch.isEmpty) + (if s.isHome n ∧ 2 ≤ (s.ctx n).rs.ngram then ceilDiv (1 + ceilDiv (r.sides.bans.length - 1) 15) 64 else 0)
    + b2n ((s.count n).dense && usesCount r.prof)

/-- Frames in use: STRICT pages, count lists, pending lists, and what placed rows use. -/
def State.framesUsed (s : State) : Nat :=
  s.scx.foldl (fun a (c : Nat × Scx) => a + b2n (!c.2.histPend.isEmpty) + b2n (!(s.count c.1).pend.isEmpty)
    + ((s.myParts c.1).map (fun p => if s.inT0 c.1 p then s.itemFrames c.1 p else 0)).foldl (· + ·) 0) 0
  + s.puns.foldl (fun a p => a + ((p.rows.filter (fun r => !r.exited)).map (fun r => s.rowFrames r)).foldl (· + ·) 0) 0

/-- T0 holds what is in it: 4,096 heads, 3,840 frames (R240). -/
def State.fitsT0 (s : State) : Bool := decide (s.headsUsed ≤ 4096 ∧ s.framesUsed ≤ 3840)

/-- An item evicted: written back where it is dirty, then dropped; one that found no pages stays (R242, R243). -/
def State.evictItem (s : State) (n part : Nat) : State :=
  if s.isDirty n part = false ∧ s.usedOf n part ≠ 0 then s.cleanItem n part true
  else
    let t := s.writeBack n part
    if t.usedOf n part = 0 then t else t.cleanItem n part true

/-- The unpinned item of the greatest age of the area that is short, none of some; ties to the lower slot, then the lower part. -/
def State.victim (s : State) (not_ : List (Nat × Nat)) : Option (Nat × Nat) :=
  let head := decide (4096 < s.headsUsed)
  let cs := s.scx.flatMap (fun (c : Nat × Scx) => ((s.myParts c.1).filter (fun p => decide ((p = 1) = (head = true)))).map (fun p => (c.1, p)))
  let ok := fun (x : Nat × Nat) => s.inT0 x.1 x.2 && !s.itemPinned x.1 x.2 && !not_.contains x && decide (x.2 = 1 ∨ 0 < s.itemFrames x.1 x.2)
  (sortBy (fun (a b : Nat × Nat) => decide (s.partAge b.1 b.2 < s.partAge a.1 a.2)) (cs.filter ok)).head?

/-- Items leave T0 until it holds the rest, or none of them can. -/
def State.makeRoom : Nat → List (Nat × Nat) → State → State
  | 0, _, s => s
  | k + 1, tried, s =>
    if s.fitsT0 then s
    else match s.victim tried with
      | some x => State.makeRoom k (x :: tried) (s.evictItem x.1 x.2)
      | none => s

/-- T0 brought back to its size, but for some items. -/
def State.trim (s : State) (keep : List (Nat × Nat)) : State := State.makeRoom (3 * s.scx.length) keep s

/-- Last use of a slot's HEAD here, and of its COUNT part (R239). -/
def State.touch (s : State) (n : Nat) : State := s.setSlot n { s.slot n with lastUse := BitVec.ofNat 32 (s.now / 1024) }
def State.touchCount (s : State) (n : Nat) : State := s.setCount n { s.count n with lastUse := BitVec.ofNat 32 (s.now / 1024) }

/-! ## Updates of counts and history (R134, R252, R254) -/

/-- A dense vector that has just become one, or an entry of it, written to T1 (R139). -/
def State.denseOut (s : State) (n v : Nat) : State :=
  let c := s.count n
  if c.dense = false then s
  else if s.usedOf n 3 = 0 ∨ bitAt c.loc 2 = true then
    let s1 := s.freePart n 3
    s1.writeRaw n 3 (s1.denseBytes s.orch.n s.orch.shard c.counts)
  else s.store (locKey c.loc + s.denseAt s.orch.n s.orch.shard v) (natBytes 2 (Tab.get c.counts v 0))

/-- A committed token counted on this shard: at once when the part is resident or dense, else in the pending list (R252). -/
def State.countToken (s : State) (n v : Nat) : State :=
  if s.ownsAny v = false then s
  else
    let c := s.count n
    if c.res || c.dense then (s.setCount n (c.add v)).denseOut n v else s.setCount n { c with pend := c.pend ++ [v] }

/-- The shards that own an id under some configured head set (R235). -/
def State.owners (s : State) (v : Nat) : List Nat :=
  (((List.range 4).filter (fun h => decide ((s.head h).d ≠ 0 ∧ v < (s.head h).v))).map (fun h => s.ownerOf h v)).dedup

/-- A COUNT part with its counts replaced, in the form that their number gives it (R139, R235). -/
def State.putCounts (s : State) (n : Nat) (t : Tab Nat) (lost : Bool) : State :=
  let c := s.count n
  let s1 := if c.dense then s.freePart n 3 else s
  let k : CountPart := { s1.count n with counts := t, dense := c.dense || decide (65536 < t.length), lost := c.lost || lost, res := true, dirty := true, pend := [] }
  ((s1.setCount n k).denseOut n 0).trim []

/-- The counts of a part that another shard takes on when the ranges change from those of `old`: the lowest holder so far sends them (R235). -/
def State.countsFor (s old : State) (c : CountPart) (j : Nat) : List (Nat × Nat) :=
  c.counts.filter (fun e => !(old.owners e.1).contains j && (s.owners e.1).contains j && (old.owners e.1).all (fun i => decide (s.orch.shard ≤ i)))

/-- CFG.HEADSET has changed the ranges: what other shards take on of the COUNT parts of open requests is sent to them, and what this one no
longer owns leaves its own (R235; DESIGN CHOICE, log 153). -/
def State.repartition (s old : State) : State :=
  (old.counts.filter (fun e => decide ((old.slot e.1).rstate ≠ 0))).foldl (fun (s : State) e =>
    let n := e.1
    let c := e.2.applied
    let mine := c.counts.filter (fun x => s.ownsAny x.1)
    let s1 := ((List.range s.orch.n).filter (fun j => decide (j ≠ s.orch.shard))).foldl (fun (s : State) j =>
      let l := s.countsFor old c j
      if l.isEmpty ∧ c.lost = false then s
      else s.sendTo j (.cmd (.counts { slot := n, gen := (s.slot n).gen } l c.lost))) s
    if mine = c.counts ∧ c.dense = false then s1 else s1.putCounts n mine false) s

/-- Counts that come from the holder of ids that this shard now owns (R235). -/
def State.takeCounts (s : State) (h : Handle) (l : List (Nat × Nat)) (lost : Bool) : State :=
  if (s.slot h.slot).gen ≠ h.gen ∨ (s.slot h.slot).rstate = 0 then s
  else
    let c := (s.count h.slot).applied
    s.putCounts h.slot (l.foldl (fun (t : Tab Nat) e => Tab.upd t e.1 0 (fun x => min 65535 (x + e.2))) c.counts) lost

/-- A pair recorded for a context: at once when the history is resident, else in its pending list (R252). A new key past three quarters of the
slots starts a doubling; `open_`: REQ.OPEN records its prompt, with no row to wait for, and doubles at once (R254). -/
def State.histRecord (s : State) (n k t : Nat) (open_ : Bool) : State :=
  let c := s.ctx n
  if c.histRes = false then s.setCtx n { c with histPend := c.histPend ++ [(k, t)] }
  else if c.histFull k ∧ open_ = false then s.setCtx n { c with doubling := true, histRes := false, histPend := c.histPend ++ [(k, t)] }
  else
    let (y, ovf) := (if c.histFull k then c.doubleHist else c).histAdd k t
    let s1 := s.setCtx n y
    if ovf then s1.bump offNgramOvf else s1

/-- The token committed at position i enters the history, where R254 has it; `recent` then holds it newest first. -/
def State.histCommit (s : State) (n i t : Nat) (open_ : Bool) : State :=
  let c := s.ctx n
  let s1 := if c.histCounts i then s.histRecord n (histKey (c.recent.take (c.rs.ngram - 1)).reverse) t open_ else s
  s1.setCtx n { s1.ctx n with recent := (t :: c.recent).take 3 }

/-- The pairs that a history's pending list holds recorded, now that it is resident. -/
def State.histApply (s : State) (n : Nat) : State :=
  let c := s.ctx n
  (c.histPend.foldl (fun (s : State) e => s.histRecord n e.1 e.2 false) (s.setCtx n { c with histRes := true, histPend := [] })).writeHist n

/-! ## Parts that are lost, and fetches (R246, R247) -/

/-- A part is lost (R246): LOST is set, every row that needs it and every open row of the request gets VOID through the cause it carries; the
home learns of a COUNT part lost elsewhere (DESIGN CHOICE, log 42). -/
def State.losePart (s : State) (n : Nat) (h : Handle) (part : Part) (inj : Bool) : State :=
  let s1 := match part with
    | .count =>
      let t := s.setCount n { s.count n with lost := true }
      if t.isHome n then t else t.sendTo (t.homeOf n) (.cmd (.ack n 13))
    | _ => s.setSlot n { s.slot n with lost := true }
  let s2 := { s1 with rows := s1.rows.map (fun (r : Row) => if r.key.handle = h ∧ r.cause = none ∧ r.decided = false then { r with cause := some 0x13 } else r),
                      puns := s1.puns.map (fun (p : Punnet) => { p with rows := p.rows.map (fun (r : PRow) =>
                        if r.key.handle = h ∧ r.cause = none then { r with cause := some 0x13 } else r) }) }
  s2.contained 0x13 { Site.none with handle := some h, inj := inj }

/-- Some part of a request is lost (R246), as far as this instance knows. -/
def State.isLost (s : State) (n : Nat) : Bool := (s.slot n).lost || (s.count n).lost || (s.ctx n).farLost

/-- A part of a request is in T0, unpacked (R240); a dense COUNT part needs no fetch (R139). -/
def State.resident (s : State) (n : Nat) : Part → Bool
  | .head => (s.ctx n).headRes
  | .strict => (s.ctx n).strictRes
  | .count => (s.count n).res || (s.count n).dense
  | .hist => (s.ctx n).histRes
  | .bramble => false

/-- The fetch of a part begins, if it is not in T0. -/
def State.startFetch (s : State) (n : Nat) (p : Part) : State :=
  if s.resident n p = true ∨ s.fetches.contains (n, p) = true then s else { s with fetches := s.fetches ++ [(n, p)] }

/-- The grammar states of a request's rows in flight whose records Bramble is to bring (R177). -/
def State.bramWants (s : State) (n : Nat) : List (Nat × Nat × Nat) :=
  (s.puns.flatMap (fun p => (p.rows.filter (fun r => decide (r.key.handle.slot = n) && !r.exited)).filterMap (fun r => r.sides.grammar))).dedup

/-- A part arrives in T0: its pending updates are applied (R252). None where T0 finds no room for it: the fetch waits (R243). -/
def State.partIn (s : State) (n : Nat) (part : Part) : Option State :=
  let c := s.ctx n
  let k := s.count n
  let (s1, keep) := match part with
    | .head => (s.setCtx n { c with headRes := true }, [(n, 1)])
    | .strict => (s.setCtx n { c with strictRes := true }, [(n, 2)])
    | .bramble => (s.setCount n { k with bram := (k.bram ++ s.bramWants n).dedup }, [])
    | .count => (((s.setCount n { k with res := true }.applied).touchCount n).denseOut n 0, [(n, 3)])
    | .hist => (if c.doubling then s else s.histApply n, [])
  let s2 := s1.trim keep
  if s2.fitsT0 then some { s2 with fetches := s2.fetches.erase (n, part) } else none

/-- The image of a part that a fetch reads passes its checks (R238, R246). -/
def State.imageGood (s : State) (h : Handle) (part : Part) : Bool :=
  let n := h.slot
  match part with
  | .head => (headRead s.mem (s.slot n).headloc h).isSome
  | .strict => (strictRead s.mem (s.ctx n).strictloc h (s.ctx n).tent.length).isSome
  | .count => (countRead s.mem (s.count n).loc h s.orch.shard).isSome
  | .hist =>
    let area := fun (p : Nat) => s.mem.bad (locKey (s.locOf n p)) (4096 * (s.usedOf n p / 4))
    !area 4 && !area 5
  | .bramble => true

/-- A pinned image in T1 or on-core meets an uncorrectable error: the generation vanishes, on every instance (R188; DESIGN CHOICE, log 42). -/
def State.genGone (s : State) (k g : Nat) (inj : Bool) : State :=
  let s1 := s.tblVanish k g inj
  if s1.isRoot then s1.bcastOthers { hdr := s1.hdr 0 true 0 0 0 noHandle, body := .cmd (.ack g (64 + k)) }
  else s1.sendTo s1.orch.rootSh (.cmd (.ack g (64 + k)))

/-- The grammar generation of a request vanishes. -/
def State.grammarGone (s : State) (n : Nat) : State :=
  match (s.ctx n).gram with
  | none => s
  | some g => s.genGone (swapTable 1 g) (s.ctx n).ggen false

/-- The word that a generation has vanished elsewhere. -/
def State.vanishSaid (s : State) (k g : Nat) : State :=
  if (s.tbl k).gone.contains g then s
  else
    let s1 := s.tblVanish k g false
    if s1.isRoot then s1.bcastOthers { hdr := s1.hdr 0 true 0 0 0 noHandle, body := .cmd (.ack g (64 + k)) } else s1

/-- An uncorrectable error of a fetch. In STRICT it may lie in the pages of one retained set, which then puts doubt on every row that reads it
(R195), or elsewhere, which loses the part (R246): which, the command does not say, and a free value tells (DESIGN CHOICE, log 141). -/
def State.fetchFails (s : State) (h : Handle) (part : Part) (inj : Bool) : State :=
  let n := h.slot
  let x := s.ctx n
  let j := Config.strictPage s.free
  match part with
  | .bramble => s.grammarGone n
  | .strict =>
    if j < x.tent.length then
      ({ s with free := s.free + 1 }).setCtx n { x with strictRes := true, tent := x.tent.mapIdx (fun i (t : Tent) =>
        if i = j then { t with ret := { t.ret with bad := true } } else t) }
    else ({ s with free := s.free + 1 }).losePart n h part inj
  | _ => s.losePart n h part inj

/-- PART_FETCH_DONE (R238, R246, R247, R252): the fetch that began for a part ends; a part that fails its checks, or meets an uncorrectable
error, is lost. -/
def State.partFetched (s : State) (h : Handle) (part : Part) (ecc : Ecc) : State :=
  let n := h.slot
  if (s.slot n).gen ≠ h.gen ∨ (s.slot n).rstate = 0 ∨ s.fetches.contains (n, part) = false then s
  else
    match s.partIn n part with
    | none => s
    | some t =>
      let inj := (match s.armed 0x07 with
        | some j => decide (j.param = 2)
        | none => false)
      let frame := (s.armed 0x05).isSome
      let fired := fun (s : State) => if inj then s.fire 0x07 else if frame then s.fire 0x05 else s
      let gone : State := { s with fetches := s.fetches.erase (n, part) }
      match (if inj || frame then Ecc.uncorrectable else ecc) with
      | .uncorrectable => (fired gone).fetchFails h part (inj || frame)
      | .corrected => if s.imageGood h part then t.corrected 0x02 else gone.losePart n h part false
      | .clean => if s.imageGood h part then t else gone.losePart n h part false

/-- HISTORY_DOUBLING_DONE (R254): the table has twice the slots and is resident again. -/
def State.doubled (s : State) (n : Nat) : State :=
  let c := s.ctx n
  if c.doubling then (s.setCtx n { c.doubleHist with doubling := false }).histApply n else s

/-! ## Contexts read back from T1 and T2 (R258, R401) -/

/-- The last tokens of a context read back: kept by this instance with its HEAD image, or else free, since the spec gives them no place in the
image (DESIGN CHOICE, log 138). -/
def State.tailOf (s : State) (n : Nat) (x : Scx) : List Nat :=
  match Tab.find? s.tails n with
  | some t => if t.1 = x.gen ∧ t.2.1 = x.clen then t.2.2 else (List.range 3).map (fun i => Config.lastToken (s.free + i) % 2 ^ 21)
  | none => (List.range 3).map (fun i => Config.lastToken (s.free + i) % 2 ^ 21)

/-- The context of a homed request read from its parts, and whether a part is lost. -/
def State.readCtx (s : State) (h : Handle) (loc : W64) : Scx × Bool :=
  match headRead s.mem loc h with
  | none => ({ Scx.zero with gen := h.gen }, true)
  | some (w, sk) =>
    let x := coreRead w
    let st := strictRead s.mem x.strictloc h (coreTents w)
    let y : Scx := { x with
      tent := (st.map (fun p => p.1)).getD [], bias := (st.map (fun p => p.2)).getD [], sketch := sk,
      hist := if 2 ≤ x.rs.ngram then histRead s.mem x else [], recent := s.tailOf h.slot x }
    (y, st.isNone || (decide (2 ≤ x.rs.ngram ∧ x.histloc.toNat % 4 = 0)))

/-- Pages of the pool taken by a part that stands there. -/
def State.claim (s : State) (n part len : Nat) : State :=
  let loc := s.locOf n part
  if loc.toNat % 4 = 0 ∨ len = 0 then s
  else { s with pool := { s.pool with used := Tab.set s.pool.used (8 * n + part) (4 * ceilDiv len 4096 + (loc.toNat % 4 - 1)) } }

/-- LEN of the pack image of a part. -/
def State.packLen (s : State) (n part : Nat) : Nat := (s.mem.word (locKey (s.locOf n part) + 16)).toNat

/-- Pages of the pool that the parts of a slot take. -/
def State.claimAll (s : State) (n : Nat) : State :=
  let s1 := if s.isHome n then
      (((s.claim n 1 (s.packLen n 1)).claim n 2 (s.packLen n 2)).claim n 4 (16 * 2 ^ (s.ctx n).hlog2)).claim n 5 (64 * (s.ctx n).nblk)
    else s
  let c := s1.count n
  s1.claim n 3 (if c.dense then 1024 * ((List.range 4096).filter (fun t => s1.ownsTile s1.orch.n s1.orch.shard t)).length else s1.packLen n 3)

/-- One slot taken from the directory region that software names again after a cold reset (R401): a part with no copy below T0 is lost. -/
def State.adoptSlot (s : State) (k n : Nat) : State :=
  let w := s.mem.words (k + 16 * n) 4
  let g := s.mem.words (k + 2 ^ 20 + 16 * n) 4
  if w.all (fun x => decide (x = 0)) then s
  else
    let h : Handle := { slot := n, gen := bitsAt (w.getD 0 0) 0 8 }
    let e : SlotEnt := { gen := h.gen, rstate := bitsAt (w.getD 0 0) 8 3, lost := bitAt (w.getD 0 0) 11, lastUse := w.getD 1 0,
                         headloc := join64 (w.getD 2 0) (w.getD 3 0), opened := true }
    if e.rstate = 0 then { s with slots := Tab.set s.slots n e }
    else
      let c := s.segRead g h s.orch.n s.orch.shard
      let (x, lost) := if s.isHome n then s.readCtx h e.headloc else (s.ctx n, false)
      let s1 := ({ s with free := s.free + 3, slots := Tab.set s.slots n { e with lost := e.lost || lost } }).setCtx n x
      (s1.setCount n { CountPart.reset with
        counts := c.getD [], dense := bitAt (g.getD 0 0) 17, lost := c.isNone, lastUse := g.getD 1 0, loc := join64 (g.getD 2 0) (g.getD 3 0),
        res := false }).claimAll n

/-- The directory region is named: after a cold reset its tables are taken from it, else they are written to it (R239, R401). -/
def State.nameDir (s : State) : State :=
  match Tab.find? s.conf.regions 3 with
  | none => s
  | some r =>
    if s.slots.isEmpty && s.counts.isEmpty then (List.range 65536).foldl (fun (s : State) n => s.adoptSlot (addrKey r.base) n) s
    else
      (s.store (addrKey r.base) (((List.range 65536).flatMap (fun n => wordsBytes (slotWords (s.slot n)))))).store (addrKey r.base + 2 ^ 20)
        ((List.range 65536).flatMap (fun n => wordsBytes (segWords (s.count n))))

/-! ## Resets (R386, R401) -/

/-- The slots homed here that were open hold after a SAFE entry (R401) (DEDUCED, log 47). -/
def State.holdHomed (s : State) : State :=
  let due := s.slots.filter (fun (e : Nat × SlotEnt) => s.isHome e.1 && decide (e.2.rstate = 1))
  let s1 := due.foldl (fun (s : State) e => s.setSlot e.1 { e.2 with rstate := 2 }) s
  { s1 with faults := { s1.faults with holdOpen := false } }

/-- What a warm reset does with a slot's T0 items: pending updates are applied, dirty parts written back, and T0 is cleared; what found no pages
is lost (R386; DESIGN CHOICE, log 72). -/
def State.warmSlot (s : State) (n : Nat) : State :=
  let c := s.ctx n
  let s1 := if c.histPend.isEmpty then s else (if c.doubling then s.setCtx n { c.doubleHist with doubling := false } else s).histApply n
  let k := s1.count n
  let s2 := if k.pend.isEmpty then s1 else (s1.setCount n k.applied).denseOut n 0
  let s3 := (s2.myParts n).foldl (fun (s : State) p => if s.inT0 n p || s.isDirty n p then s.evictItem n p else s) s2
  let left := (s3.myParts n).any (fun p => s3.isDirty n p)
  let s4 := (s3.myParts n).foldl (fun (s : State) p => s.cleanItem n p true) s3
  let s5 := s4.setCtx n { s4.ctx n with histRes := false }
  let s6 := s5.setCount n { s5.count n with bram := [] }
  if left then s6.setSlot n { s6.slot n with lost := true } else s6

/-- A warm reset's write-back (R386). -/
def State.ctxWarm (s : State) : State :=
  let s1 := (s.scx.map (·.1)).foldl (fun (s : State) n => s.warmSlot n) s
  { s1 with fetches := [] }

/-- A cold reset clears T0 and the table SRAM: the directories stand in T1 until software names their region again (R401). -/
def State.ctxCold (s : State) : State :=
  { s with slots := [], counts := [], fetches := [], scx := s.scx.filter (fun c => !s.isHome c.1), pool := { s.pool with used := [] } }

/-! ## Meanings -/

/-- HISTORY_DOUBLING_DONE. -/
def execHistoryDoublingDone (slot : Nat) (s : State) : Host.Outcome State Fault Refusal :=
  .next (if s.live && decide (s.blk ≠ .safe) then s.doubled slot else s)

/-- An expired context's pages are freed, and its pins with them (R256, R291); the slot stays EXPIRED until it is opened again. -/
def State.freeExpired (s : State) (n : Nat) : State :=
  if (s.slot n).rstate = 4 then
    let s1 := s.freeParts n
    ({ s1 with scx := Tab.del s1.scx n, fetches := s1.fetches.filter (fun f => decide (f.1 ≠ n)) }).delCount n
  else s

/-- EXPIRED_PAGES_FREED (R256). -/
def execExpiredPagesFreed (slot : Nat) (s : State) : Host.Outcome State Fault Refusal :=
  .next (if s.live && decide (s.blk ≠ .safe) then s.freeExpired slot else s)

/-- CONTEXT_EXPIRY (R255, R256): a parked context whose EXPIRY has come is EXPIRED. -/
def execContextExpiry (slot : Nat) (s : State) : Host.Outcome State Fault Refusal :=
  .next (if s.live && decide (s.blk ≠ .safe) && decide ((s.slot slot).rstate = 3) && decide ((s.ctx slot).expiry.toNat ≤ s.now) then
      s.setSlot slot { s.slot slot with rstate := 4 }
    else s)

end Sys2Proof.Machine
end

