-- ==== Sys2Proof/Machine/SyncCmds.lean ====
section
/-! DEFINITION. SYNC commands, and the messages and timers behind them (R317 to R322, R346 to R348, R373). -/

namespace Sys2Proof.Machine

/-- Checks of a counter number and reserved bits (R373): counters 0 to 63 give BAD_PARAM. -/
def badCtr (masks : List Nat) (pk : Pkt) : Option Nat :=
  firstBad [(!pk.clean masks, 0), (decide (pk.fld 0 0 10 < 64), 0)]

/-- An operation on a free counter completes with WRONG_STATE (R320). -/
def preCtr (_o : Origin) (pk : Pkt) (s : State) : Option Cpl :=
  if (s.ctr (pk.fld 0 0 10)).owner = 0 then some (Cpl.of stWrongState 0) else none

/-- SYNC.ALLOC (Table 17.16). -/
def syncAllocD : Desc :=
  { opcode := 0x0800, legal := rdyRunDrn, scope := fun _ => .local_, accepts := false,
    bad := fun pk _ => firstBad [(!pk.clean [0x7FF], 0),
      (if bitAt (pk.p 0) 10 then decide (pk.fld 0 0 10 ≠ 0) else decide (pk.fld 0 0 10 < 64), 0)],
    pre := fun _ pk s =>
      if bitAt (pk.p 0) 10 then (if s.freeCtr = none then some (Cpl.of stNoSpace 0) else none)
      else if (s.ctr (pk.fld 0 0 10)).owner ≠ 0 then some (Cpl.of stWrongState 0) else none,
    lock := noLock,
    run := fun o pk s =>
      let n := if bitAt (pk.p 0) 10 then s.freeCtr.getD 0 else pk.fld 0 0 10
      (s.setCtr n { value := 0, owner := portCode o.port, waiters := [] }).finish o (Cpl.done 0 n) }

/-- SYNC.FREE (R320, R349). -/
def syncFreeD : Desc :=
  { opcode := 0x0801, legal := rdyRunDrn, scope := fun _ => .local_, accepts := false,
    bad := fun pk _ => badCtr [0x3FF] pk,
    pre := fun o pk s =>
      let w := (s.ctr (pk.fld 0 0 10)).owner
      if w = 0 then some (Cpl.of stWrongState 0) else if w ≠ portCode o.port then some (Cpl.of stNotOwner 0) else none,
    lock := noLock,
    run := fun o pk s => (s.ctrFree (pk.fld 0 0 10)).finish o (Cpl.done 0 0) }

/-- SYNC.SET. -/
def syncSetD : Desc :=
  { opcode := 0x0802, legal := rdyRunDrn, scope := fun _ => .local_, accepts := false,
    bad := fun pk _ => badCtr [0x3FF, all32, all32] pk, pre := preCtr, lock := noLock,
    run := fun o pk s => (s.ctrSet (pk.fld 0 0 10) (pk.p64 1)).finish o (Cpl.done 0 0) }

/-- SYNC.ADD. -/
def syncAddD : Desc :=
  { opcode := 0x0803, legal := rdyRunDrn, scope := fun _ => .local_, accepts := false,
    bad := fun pk _ => badCtr [0x3FF, all32, all32] pk, pre := preCtr, lock := noLock,
    run := fun o pk s =>
      let n := pk.fld 0 0 10
      let v := (s.ctr n).value + pk.p64 1
      (s.ctrSet n v).finish o (Cpl.done (lo32 v) 0) }

/-- SYNC.READ. -/
def syncReadD : Desc :=
  { opcode := 0x0804, legal := rdyRunDrn, scope := fun _ => .local_, accepts := false,
    bad := fun pk _ => badCtr [0x3FF] pk, pre := preCtr, lock := noLock,
    run := fun o pk s =>
      let v := (s.ctr (pk.fld 0 0 10)).value
      s.finish o (Cpl.done (lo32 v) (bitsAt v 32 16)) }

/-- SYNC.WAIT (R321): a wait already met completes at once, else the ring sleeps. -/
def syncWaitD : Desc :=
  { opcode := 0x0805, legal := rdyRunDrn, scope := fun _ => .local_, accepts := false,
    bad := fun pk _ => badCtr [0x3FF, all32, all32, all32] pk, pre := preCtr, lock := noLock,
    run := fun o pk s =>
      let n := pk.fld 0 0 10
      let c := s.ctr n
      if waitMet c.value (pk.p64 1) then s.finish o (Cpl.done 0 0)
      else
        let w : Waiter := { origin := o, port := o.port, target := pk.p64 1,
                            expiry := if pk.p 3 = 0 then 0 else s.now + (pk.p 3).toNat }
        (s.setCtr n { c with waiters := c.waiters ++ [w] }).sleepRing o }

/-- SYNC.SIGNAL (R321): the add goes to the target as a SIGNAL message; the command waits for its acknowledgement. -/
def syncSignalD : Desc :=
  { opcode := 0x0806, legal := rdyRunDrn, scope := fun _ => .local_, accepts := false,
    bad := fun pk _ => badCtr [0xFFFFF, all32, all32] pk, pre := noPre, lock := noLock,
    run := fun o pk s =>
      let tag := s.orch.stag
      let dst := pk.fld 0 10 10
      (({ s with orch := { s.orch with stag := (tag + 1) % 2 ^ 16 } }).addJob
          { origin := o, opcode := pk.opcode, kind := .signal tag dst, lock := none }).sendTo dst
        (.signal { counter := pk.fld 0 0 10, ack := false, stag := tag, status := 0, addend := pk.p64 1 }) }

/-- SYNC.BARRIER (R318, R319): two rounds ahead gives WRONG_STATE. The entry itself travels as BAR, so it is made where the command
is taken (DESIGN CHOICE, log 16). -/
def syncBarrierD : Desc :=
  { opcode := 0x0807, legal := [.run, .drain], scope := fun _ => .local_, accepts := false,
    bad := fun pk _ => firstBad [(!pk.clean [0x1F], 0), (decide (pk.fld 0 0 5 < 8), 0)],
    pre := fun _ pk s => if (s.bar (pk.fld 0 0 5)).inRound then some (Cpl.of stWrongState 0) else none,
    lock := noLock,
    run := fun o pk s => s.barEnter (pk.fld 0 0 5) (some o) }

/-- SYNC.SEMACQ (R347). -/
def syncSemacqD : Desc :=
  { opcode := 0x0808, legal := allButDump, scope := fun _ => .local_, accepts := false,
    bad := noBad [0x3F],
    pre := fun o pk s => if (s.sem (pk.fld 0 0 6)).owner = portCode o.port then some (Cpl.of stWrongState 0) else none,
    lock := noLock,
    run := fun o pk s =>
      let n := pk.fld 0 0 6
      let q := s.sem n
      if q.owner = 0 then (s.setSem n (q.grant (portCode o.port))).finish o (Cpl.done 0 0)
      else (s.setSem n { q with waiters := q.waiters ++ [(o.port, o)] }).sleepRing o }

/-- SYNC.SEMREL (R346, R349). -/
def syncSemrelD : Desc :=
  { opcode := 0x0809, legal := allButDump, scope := fun _ => .local_, accepts := false,
    bad := noBad [0x3F],
    pre := fun o pk s =>
      let w := (s.sem (pk.fld 0 0 6)).owner
      if w = 0 then some (Cpl.of stWrongState 0) else if w ≠ portCode o.port then some (Cpl.of stNotOwner 0) else none,
    lock := noLock,
    run := fun o pk s => (s.semRelease (pk.fld 0 0 6)).finish o (Cpl.done 0 0) }

/-! ## Messages and timers -/

/-- A message that has arrived is for this instance alone, or for all (R309). -/
def State.forMe (s : State) (h : Hdr) : Bool := h.bcast || decide (h.dst = s.orch.shard)

/-- A message passed on: one hop more; a broadcast goes to the children, any other toward its destination (R309). One that was held
here, or that this instance sent to itself, has been passed on already. -/
def State.passOn (s : State) (h : Hdr) (b : Body) : State :=
  let m : Msg := { hdr := { h with hops := h.hops + 1 }, body := b }
  if s.orch.loop.contains { hdr := h, body := b } then s
  else if h.bcast then s.bcastOthers m else if h.dst = s.orch.shard then s else s.sendMsg m

/-- A message breaks sequence by its header alone: its hops are used up, or a buffer reported a parity error on it (R315)
(DEDUCED, log 65). -/
def hdrBroken (h : Hdr) : Bool := decide (1023 ≤ h.hops)

/-- A SIGNAL applied at its target, or its acknowledgement at the sender (R321). A SAFE instance answers none (R327). -/
def State.onSignal (s : State) (h : Hdr) (b : SignalB) : State :=
  if s.forMe h = false then s.passOn h (.signal b)
  else if b.ack then
    s.endJobs (fun j => match j.kind with
        | .signal t _ => decide (t = b.stag)
        | _ => false) (fun _ => Cpl.of b.status 0)
  else if s.working = false then s
  else
    let c := s.ctr b.counter
    let ok := decide (c.owner ≠ 0)
    let s1 := if ok then s.ctrSet b.counter (c.value + b.addend) else s
    s1.sendTo h.src (.signal { counter := b.counter, ack := true, stag := b.stag, status := if ok then stDone else stWrongState, addend := 0 })

/-- The signal timed out: FAULT (Table 15.10, Table 17.4). -/
def State.signalGone (s : State) (stag : Nat) : State :=
  s.endJobs (fun j => match j.kind with
    | .signal t _ => decide (t = stag)
    | _ => false) (fun _ => Cpl.of stFault 0x30)

/-- The wait of a ring's sleeping SYNC.WAIT has run out its timeout (R373). -/
def State.waitGone (s : State) (r : RingRef) : State :=
  let hit := fun (w : Waiter) => decide (w.expiry ≠ 0) && decide (w.expiry ≤ s.now) && (match w.origin with
    | .ring q _ => decide (q = r)
    | _ => false)
  let due := s.ctrs.flatMap (fun c => c.2.waiters.filter hit)
  due.foldl (fun s w => s.finishSleeper w.origin (Cpl.of stBusyRetry 0x20))
    { s with ctrs := Tab.mapVals s.ctrs (fun _ c => { c with waiters := c.waiters.filter (fun w => !hit w) }) }

/-- A message on CTL that a parity error touches, or that breaks sequence by its header, is discarded: a contained fault (R315). -/
def ctlSound (h : Hdr) (act : State → State) (s : State) : State :=
  if h.parity then s.contained 0x19 Site.none
  else if hdrBroken h then s.contained 0x18 Site.none
  else act s

/-! ## Meanings -/

def execSyncAlloc (pk : Pkt) (s : State) : Host.Outcome State Fault Refusal := .next (takePacket syncAllocD pk s)
def execSyncFree (pk : Pkt) (s : State) : Host.Outcome State Fault Refusal := .next (takePacket syncFreeD pk s)
def execSyncSet (pk : Pkt) (s : State) : Host.Outcome State Fault Refusal := .next (takePacket syncSetD pk s)
def execSyncAdd (pk : Pkt) (s : State) : Host.Outcome State Fault Refusal := .next (takePacket syncAddD pk s)
def execSyncRead (pk : Pkt) (s : State) : Host.Outcome State Fault Refusal := .next (takePacket syncReadD pk s)
def execSyncWait (pk : Pkt) (s : State) : Host.Outcome State Fault Refusal := .next (takePacket syncWaitD pk s)
def execSyncSignal (pk : Pkt) (s : State) : Host.Outcome State Fault Refusal := .next (takePacket syncSignalD pk s)
def execSyncBarrier (pk : Pkt) (s : State) : Host.Outcome State Fault Refusal := .next (takePacket syncBarrierD pk s)
def execSyncSemacq (pk : Pkt) (s : State) : Host.Outcome State Fault Refusal := .next (takePacket syncSemacqD pk s)
def execSyncSemrel (pk : Pkt) (s : State) : Host.Outcome State Fault Refusal := .next (takePacket syncSemrelD pk s)

/-- SIGNAL (R321). -/
def execSignal (h : Hdr) (b : SignalB) (s : State) : Host.Outcome State Fault Refusal :=
  .next (if s.live then ctlSound h (fun s => (s.arrive { hdr := h, body := .signal b }).onSignal h b) s else s)

/-- BAR (R318): a child's BAR counts its whole subtree. A barrier entry with a broken header is an Orchard error (R315). -/
def execBar (h : Hdr) (barrier tag : Nat) (s : State) : Host.Outcome State Fault Refusal :=
  .next (if s.live then
      let s1 := s.arrive { hdr := h, body := .bar barrier tag }
      if h.parity then (s1.contained 0x19 Site.none).barAbort barrier
      else if hdrBroken h then (s1.contained 0x18 Site.none).barAbort barrier
      else s1.barCount barrier tag (s1.subtree h.src)
    else s)

/-- SIGNAL_TIMEOUT (Table 15.10). -/
def execSignalTimeout (stag : Nat) (s : State) : Host.Outcome State Fault Refusal :=
  .next (if s.live then s.signalGone stag else s)

/-- WAIT_TIMEOUT (R373). -/
def execWaitTimeout (r : RingRef) (s : State) : Host.Outcome State Fault Refusal :=
  .next (if s.live then s.waitGone r else s)

end Sys2Proof.Machine
end

