-- ==== Sys2Proof/Machine/Orchard.lean ====
section
/-! DEFINITION. Orchard membership, discovery and the deadlock detector (R302 to R306, R323 to R326, R374, R434, R437). -/

namespace Sys2Proof.Machine

/-! ## Rows and punnets that end without a commit -/

/-- A punnet leaves this instance with everything it held. -/
def State.retirePunnet (s : State) (n : Nat) : State :=
  let gone := s.roots.filter (fun r => decide (r.punnet = n))
  let rows := s.rows.filter (fun r => r.home || decide (r.punnet ≠ some n))
  { s with puns := s.puns.filter (fun p => decide (p.num ≠ n)), merges := s.merges.filter (fun m => decide (m.punnet ≠ n)),
           roots := s.roots.filter (fun r => decide (r.punnet ≠ n)), rows := rows,
           asm := { s.asm with store := s.asm.store - (gone.map (fun r => r.depth)).foldl (· + ·) 0,
                               repeats := s.asm.repeats.filter (fun e => decide (e.1 ≠ n)) },
           rescore := s.rescore.filter (fun q => decide (q.hdr.punnet ≠ n)), rsbuf := s.rsbuf.filter (fun x => decide (x.punnet ≠ n)) }

/-! ## Knowledge (R304, Table 15.14 DISC) -/

/-- A link is trained. -/
def Orch.trainedPort (o : Orch) (p : Nat) : Bool := decide ((o.link p).st = 2)

/-- This instance carries the rejoined mark (R307). -/
def Orch.marked (o : Orch) : Bool := o.members.any (fun m => decide (m.shard = o.shard) && m.rejoin)

/-- This instance's own entry. -/
def State.ownEntry (s : State) : DiscEnt :=
  { addr := s.orch.addr, safe := decide (s.blk = .safe), run := decide (s.blk = .run), rejoin := s.orch.marked,
    links := (List.range 5).map (fun p => s.orch.trainedPort p), dieid := dieId,
    neigh := (List.range 5).map (fun p => if s.orch.trainedPort p then (s.orch.link p).peer else 0) }

/-- Two lists of five, entry by entry. -/
def orBits (a b : List Bool) : List Bool := (List.range 5).map (fun i => a.getD i false || b.getD i false)

/-- An entry joined with another of the same address and die. -/
def joinEnt (a b : DiscEnt) : DiscEnt :=
  { a with safe := a.safe || b.safe, run := a.run || b.run, rejoin := a.rejoin || b.rejoin, links := orBits a.links b.links,
           neigh := (List.range 5).map (fun i => if a.links.getD i false then a.neigh.getD i 0 else b.neigh.getD i 0) }

/-- Entries learned: at most 1,024, beyond which OVF is set (R304, step 6). -/
def learn : List DiscEnt × Bool → List DiscEnt → List DiscEnt × Bool
  | k, [] => k
  | (es, ovf), e :: r =>
    match es.find? (fun x => x.addr = e.addr && decide (x.dieid = e.dieid)) with
    | some _ => learn (es.map (fun x => if x.addr = e.addr ∧ x.dieid = e.dieid then joinEnt x e else x), ovf) r
    | none => if 1024 ≤ es.length then learn (es, true) r else learn (es ++ [e], ovf) r

/-- DISC sent on every trained link. -/
def State.sendDisc (s : State) : State :=
  let m : Msg := { hdr := { s.hdr 0 false 0 0 0 noHandle with src := 0 }, body := .disc s.orch.ovf s.orch.known }
  { s with orch := (List.range 5).foldl (fun o p => if o.trainedPort p then o.enqueue p m else o) s.orch }

/-- Discovery (1) or rediscovery (2) begins here. -/
def State.startDisc (s : State) (kind : Nat) : State :=
  ({ s with orch := { s.orch with disc := kind, known := [s.ownEntry], ovf := false } }).sendDisc

/-- A DISC heard: what is new is learned and sent on (R304, step 1). -/
def State.hearDisc (s : State) (ovf : Bool) (es : List DiscEnt) : State :=
  let (k, o) := learn (s.orch.known, s.orch.ovf || ovf) es
  if k = s.orch.known ∧ o = s.orch.ovf then s else ({ s with orch := { s.orch with known := k, ovf := o } }).sendDisc

/-! ## The tree (R304, steps 3 to 6; R306) -/

/-- Weight of a port's link. -/
def linkWeight (p : Nat) : Nat := if p ≤ 2 then 1 else 15

/-- Trained links of an entry: port, neighbour, weight. -/
def edgesOf (e : DiscEnt) : List (Nat × Nat × Nat) :=
  (List.range 5).filterMap (fun p => if e.links.getD p false then some (p, e.neigh.getD p 0, linkWeight p) else none)

/-- Distances improved over every link once. -/
def relax (es : List DiscEnt) (d : Tab Nat) : Tab Nat :=
  es.foldl (fun d e => match Tab.find? d e.addr with
    | none => d
    | some w => (edgesOf e).foldl (fun d x => if w + x.2.2 < Tab.get d x.2.1 (w + x.2.2 + 1) then Tab.set d x.2.1 (w + x.2.2) else d) d) d

/-- Least distances to the root. -/
def distances (es : List DiscEnt) (root : Nat) : Tab Nat := (List.range es.length).foldl (fun d _ => relax es d) [(root, 0)]

/-- The parent of an address: the neighbour on a least path with the lowest address, by its lowest port. -/
def parentOf (es : List DiscEnt) (d : Tab Nat) (a : Nat) : Option (Nat × Nat) :=
  match es.find? (fun e => e.addr = a), Tab.find? d a with
  | some e, some da =>
    let ok := (edgesOf e).filter (fun x => match Tab.find? d x.2.1 with
      | some dn => decide (dn + x.2.2 = da)
      | none => false)
    (sortBy (fun (x y : Nat × Nat × Nat) => decide (x.2.1 < y.2.1 ∨ (x.2.1 = y.2.1 ∧ x.1 < y.1))) ok).head?.map (fun x => (x.1, x.2.1))
  | _, _ => none

/-- The child of `me` from which an address descends, if it does. -/
def childToward (es : List DiscEnt) (d : Tab Nat) (me : Nat) : Nat → Nat → Option Nat
  | 0, _ => none
  | n + 1, a =>
    match parentOf es d a with
    | none => none
    | some (_, p) => if p = me then some a else childToward es d me n p

/-- This instance's port toward a neighbour, by least weight and then lowest number. -/
def portToward (e : DiscEnt) (nb : Nat) : Nat :=
  ((sortBy (fun (x y : Nat × Nat × Nat) => decide (x.2.2 < y.2.2)) ((edgesOf e).filter (fun x => decide (x.2.1 = nb)))).head?.map (·.1)).getD 0

/-- The tree as this instance sees it: root, parent, and descendants by shard index. -/
def State.setTree (s : State) (root : Nat) : State :=
  let es := s.orch.known
  let d := distances es root
  let me := s.orch.addr
  let sh := fun (a : Nat) => ((s.orch.members.find? (fun m => m.addr = a)).map (fun m => m.shard)).getD 0
  let own := s.ownEntry
  let kids := s.orch.members.filterMap (fun m =>
    if m.addr = me then none
    else (childToward es d me es.length m.addr).map (fun c => (m.shard, portToward own c, sh c)))
  let par := if me = root then none else parentOf es d me
  { s with orch := { s.orch with rootSh := sh root, parent := par.map (·.1), parentSh := (par.map (fun p => sh p.2)).getD 0, kids := kids } }

/-- An address occurs with two die identities. -/
def clash (es : List DiscEnt) : Bool := es.any (fun e => es.any (fun f => decide (e.addr = f.addr) && decide (e.dieid ≠ f.dieid)))

/-- Discovery settles into a shard group (R304). Sync counters, barriers and shared objects start empty. -/
def State.formGroup (s : State) : State :=
  let as := sortBy (fun (a b : Nat) => decide (a < b)) (s.orch.known.map (fun e => e.addr))
  let ms : List Member := as.mapIdx (fun i a => { addr := a, shard := i, state := 2, rejoin := false })
  let s1 := { s with
    orch := { s.orch with members := ms, shard := firstIdx (fun a => decide (a = s.orch.addr)) as, n := as.length, member := true, disc := 0 },
    bars := [], slots := [], scx := [], counts := [], conf := { Conf.reset with base := s.conf.base, regions := s.conf.regions, reserve := s.conf.reserve, crings := s.conf.crings },
    time := { s.time with stepOk := s.time.stepOk && !s.time.aligned } }
  ((s1.freeAllCtrs).setTree (as.headD s.orch.addr)).timeRequest

/-- The end of the ORCH.DISCOVER that this instance issued, if it did. -/
def State.endDiscover (s : State) (c : Cpl) : State := s.endJobs (fun j => decide (j.kind = .discover)) (fun _ => c)

/-- The root of a rediscovery: the lowest address among the members in RUN without the rejoined mark, else among those in RUN
(R306). What a member's DISC says stands over what was known of it before (DESIGN CHOICE, log 113). -/
def Orch.newRoot (o : Orch) : Option Nat :=
  let look := fun (m : Member) => match o.known.find? (fun e => e.addr = m.addr) with
    | some e => (m.addr, e.run, e.rejoin)
    | none => (m.addr, decide (m.state = 3), m.rejoin)
  let ls := sortBy (fun (a b : Nat × Bool × Bool) => decide (a.1 < b.1)) (o.members.map look)
  match ls.find? (fun x => x.2.1 && !x.2.2) with
  | some x => some x.1
  | none => (ls.find? (fun x => x.2.1)).map (·.1)

/-- A member's state and mark as rediscovery has heard them; one that was not heard cannot be reached, and stands in SAFE (R302). -/
def Member.heardAs (m : Member) (es : List DiscEnt) : Member :=
  match es.find? (fun e => e.addr = m.addr) with
  | none => { m with state := 5 }
  | some e => { m with state := if e.safe then 5 else if e.run then 3 else if m.state = 5 ∨ m.state = 3 then 2 else m.state, rejoin := e.rejoin }

/-- Rediscovery settles: the new root and tree; barriers start again; rows whose partial or commit has not reached its destination
get VOID, and the root waits for no acknowledgement of a punnet closed before; an instance that cannot reach the root enters SAFE (R302,
R306) (DESIGN CHOICE, log 58). -/
def State.reformGroup (s : State) : State :=
  let s1 := { s with orch := { s.orch with disc := 0, members := s.orch.members.map (fun (m : Member) => m.heardAs s.orch.known) } }
  match s1.orch.newRoot with
  | none => s1.barAbortAll
  | some r =>
    let s2 := (s1.barAbortAll).endJobs (fun j => match j.kind with
      | .switch _ _ .barrier => true
      | _ => false) (fun _ => Cpl.of stFault 0x14)
    if s2.blk = .safe then s2.setTree r
    else if s2.orch.known.any (fun e => decide (e.addr = r)) then
      let moved := decide (((s2.orch.members.find? (fun m => m.addr = r)).map (fun m => m.shard)).getD 0 ≠ s2.orch.rootSh)
      let s3 := s2.setTree r
      let s4 : State := { s3 with puns := s3.puns.map (fun (p : Punnet) => { p with acks := List.range s3.orch.n }) }
      ((s4.openRows.filter (fun x => x.punnet.isSome || moved)).foldl (fun s x => s.voidRow x 0x30) s4).pump
    else s2.fatal 0x44 Site.none

/-- DISCOVERY_SETTLED (R304 steps 2 to 6, R306). -/
def State.settled (s : State) : State :=
  match s.orch.disc with
  | 1 =>
    let alone := { s with orch := { s.orch with disc := 0 } }
    if clash s.orch.known then alone.endDiscover (Cpl.of stFault 0x40)
    else if s.orch.ovf then alone.endDiscover (Cpl.of stFault 0x41)
    else if s.orch.known.any (fun e => e.run) then alone.endDiscover (Cpl.of stWrongState 0)
    else
      let s1 := s.formGroup
      let root := ((s1.orch.members.find? (fun m => m.shard = s1.orch.rootSh)).map (fun m => m.addr)).getD 0
      s1.endDiscover (Cpl.done (w32 (root % 1024 + putBits (s1.orch.shard % 1024) 16)) s1.orch.n)
  | 2 => s.reformGroup
  | _ => s

/-! ## ORCH commands -/

/-- The address of an instance (R303). -/
def instAddr (pkg : Nat) : Nat := 8 * (pkg % 128) + Config.dieStrap.toNat

/-- Ports newly enabled train; ports newly disabled stop (R374, R329). -/
def State.setPorts (s : State) (en : Nat) : State :=
  (List.range 5).foldl (fun s p =>
    let l := s.orch.link p
    let e := en.testBit p
    if e = l.enabled then s
    else if e then ((s.setLink p { Link.reset true with enabled := true }).bump (offRetrain p)).setCause cOlink
    else s.setLink p { Link.reset false with enabled := false }) s

/-- ORCH.CONFIG (Table 15.2). -/
def orchConfigD : Desc :=
  { opcode := 0x0900, legal := [.ready], scope := fun _ => .local_, accepts := false,
    bad := fun pk _ => firstBad [
      (!pk.clean [0xFFF, 0x0FFF0FFF, 0xFFF, 0xFFFF, 0xFFFFF], 0),
      (decide (pk.fld 1 0 12 < 16 ∨ pk.fld 1 16 12 < 16 ∨ pk.fld 2 0 12 < 16 ∨ pk.fld 3 0 16 < 100 ∨ pk.fld 4 0 20 < 1000
        ∨ 1000000 < pk.fld 4 0 20), 0)],
    pre := noPre, lock := noLock,
    run := fun o pk s =>
      let c : OrchCfg := { pkg := pk.fld 0 0 7, porten := pk.fld 0 7 5, rtIn := pk.fld 1 0 12, rtOut := pk.fld 1 16 12,
                           linkto := pk.fld 2 0 12, dsettle := pk.fld 3 0 16, dlwin := pk.fld 4 0 20 }
      (({ s with orch := { s.orch with cfg := c } }).setPorts c.porten).finish o (Cpl.done 0 0) }

/-- ORCH.DISCOVER (R304). -/
def orchDiscoverD : Desc :=
  { opcode := 0x0901, legal := [.ready], scope := fun _ => .local_, accepts := false,
    bad := noBad [], pre := noPre, lock := fun _ _ => some objGroup,
    run := fun o pk s =>
      let s1 := { s with orch := { s.orch with addr := instAddr s.orch.cfg.pkg } }
      (s1.addJob { origin := o, opcode := pk.opcode, kind := .discover, lock := some objGroup }).startDisc 1 }

/-- ORCH.QUERY. -/
def orchQueryD : Desc :=
  { opcode := 0x0903, legal := allButDump, scope := fun _ => .local_, accepts := false,
    bad := fun pk _ => firstBad [(!pk.clean [0x7], 0), (decide (4 < pk.fld 0 0 3), 0)],
    pre := noPre, lock := noLock,
    run := fun o pk s =>
      let p := pk.fld 0 0 3
      let l := s.orch.link p
      let failed := (List.range 9).foldl (fun a k => a + (if l.failed.testBit k then 1 else 0)) 0
      s.finish o (Cpl.done (w32 (l.st % 4 + putBits (l.lanes % 16) 2 + putBits (b2n l.spare) 6 + putBits (failed % 32) 7))
        (s.cnt (offRetrain p) % 65536)) }

/-! ## Links and DISC -/

/-- LINK_DOWN: a link that cannot train is down, which raises OLINK; a member rediscovers (R301, R302, Table 21.2). -/
def State.linkDown (s : State) (p : Nat) : State :=
  let l := s.orch.link p
  if l.enabled = false ∨ l.st ≠ 1 then s
  else
    let s1 := (s.setLink p { l with st := 3, fresh := true, queues := [], txw := [], rxw := [] }).setCause cOlink
    if s1.orch.member then s1.startDisc 2 else s1

/-- DISC received (R304, R306): an instance that runs answers a stranger's discovery with its own entry alone (DEDUCED, log 26). -/
def State.onDisc (s : State) (p : Nat) (ovf : Bool) (es : List DiscEnt) : State :=
  let busy := decide (s.blk = .run ∨ s.blk = .drain ∨ s.blk = .safe)
  let known := es.all (fun e => s.orch.members.any (fun m => decide (m.addr = e.addr)))
  if s.orch.disc ≠ 0 then s.hearDisc ovf es
  else if busy then
    if s.orch.member && known then (s.startDisc 2).hearDisc ovf es
    else { s with orch := s.orch.enqueue p { hdr := { s.hdr 0 false 0 0 0 noHandle with src := 0 }, body := .disc false [s.ownEntry] } }
  else if s.blk = .ready then
    if s.orch.member && known && es.any (fun e => e.run || e.safe) then (s.startDisc 2).hearDisc ovf es
    else (({ s with orch := { s.orch with addr := instAddr s.orch.cfg.pkg } }).startDisc 1).hearDisc ovf es
  else s

/-! ## The deadlock detector -/

/-- Messages queued on UP, DOWN, REQ and RSP. -/
def Orch.held (o : Orch) : List Msg := (List.range 5).flatMap (fun p => [0, 1, 2, 3].flatMap (fun vc => (o.link p).queue vc))

/-- How far a punnet number lies behind the next one; the lowest number lies furthest behind (R308: modulo 2^16). -/
def State.behind (s : State) (p : Nat) : Nat := (s.asm.next + 65536 - p % 65536) % 65536

/-- Punnet numbers in ascending order of closing, without repeats. -/
def State.byAge (s : State) (ps : List Nat) : List Nat := sortBy (fun (a b : Nat) => decide (s.behind b < s.behind a)) ps.dedup

/-- The PROBE of this instance's queues (Table 15.14). -/
def State.probeBody (s : State) (prog conf still : Bool) : ProbeB :=
  let ms := s.orch.held
  { prog := prog, conf := conf, still := still, lowpun := (s.byAge (ms.map (fun m => m.hdr.punnet))).headD 0,
    nq := min 65535 ms.length }

/-- DLWIN_EXPIRY (R323). -/
def State.dlwin (s : State) : State :=
  if s.orch.held.isEmpty = false ∧ s.orch.blocked = false ∧ s.orch.moved + s.orch.cfg.dlwin ≤ s.now then
    ({ s with orch := { s.orch with blocked := true } }).sendTo s.orch.rootSh (.probe (s.probeBody false false false))
  else s

/-- Every enabled port is up, so that a purge need not wait (Table 15.11). -/
def Orch.allUp (o : Orch) : Bool := (List.range 5).all (fun p => !(o.link p).enabled || decide ((o.link p).st = 2))

/-- The root purges a punnet (R325). -/
def State.sendPurge (s : State) (p : Nat) (dbg : Bool) : State :=
  s.bcast { hdr := s.hdr 0 true 0 0 0 noHandle, body := .purge p dbg }

/-- The punnet that the root purges next: the lowest that is known to have queued messages, by the PROBEs it holds and its own queues, else the
lowest in flight (R325) (DESIGN CHOICE, log 27). -/
def State.nextPurge (s : State) : Option Nat :=
  ((s.byAge (s.orch.blockedBy.map (·.2) ++ s.orch.held.map (fun m => m.hdr.punnet))).head?).or ((s.byAge (s.puns.map (fun p => p.num))).head?)

/-- A purge that is due is sent once every port is up (R325, R327). -/
def State.purgeGo (s : State) : State :=
  match (if s.orch.purgeDue && s.orch.allUp then s.nextPurge else none) with
  | none => s
  | some p =>
    let left := s.orch.blockedBy.filter (fun b => decide (b.2 ≠ p))
    ({ s with orch := { s.orch with purgeDue := false, purges := s.orch.purges + 1, blockedBy := left } }).sendPurge p false

/-- The root purges the lowest punnet that has queued messages. -/
def State.purgeNext (s : State) : State := ({ s with orch := { s.orch with purgeDue := true } }).purgeGo

/-- A deadlock stands: counted, its interrupt raised, its punnets recorded, the first purge due (R324, R434). -/
def State.deadlock (s : State) : State :=
  let ps := (s.byAge (s.orch.blockedBy.map (·.2) ++ s.orch.held.map (fun m => m.hdr.punnet))).take 8
  (({ s with orch := { s.orch with ndl := ps.length, dlpun := ps ++ List.replicate (8 - ps.length) 0xFFFF, purges := 0 } }).setCause cDeadlock).purgeNext

/-- In BOOT and SELFTEST a CTL message is passed on and nothing more. -/
def State.starting (s : State) : Bool := decide (s.blk = .boot ∨ s.blk = .selftest)

/-- PROBE (R323, R324). The root takes the instances whose blocked probes it holds as those with queued traffic (DESIGN CHOICE, log 27). -/
def State.onProbe (s : State) (h : Hdr) (b : ProbeB) : State :=
  if s.forMe h = false then s.passOn h (.probe b)
  else if b.conf then
    s.sendTo h.src (.probe (s.probeBody (!s.orch.blocked) false s.orch.blocked))
  else if s.isRoot = false then s
  else if b.prog then
    { s with orch := { s.orch with blockedBy := s.orch.blockedBy.filter (fun x => decide (x.1 ≠ h.src)), confirm := [], purges := 0, purgeDue := false } }
  else if b.still then
    if s.orch.confirm.contains h.src then
      let c := s.orch.confirm.erase h.src
      let s1 := { s with orch := { s.orch with confirm := c } }
      if c.isEmpty ∧ s.orch.hang = false then s1.deadlock else s1
    else s
  else
    let bl := s.orch.blockedBy.filter (fun x => decide (x.1 ≠ h.src)) ++ [(h.src, b.lowpun)]
    let s1 := { s with orch := { s.orch with blockedBy := bl } }
    if s.orch.confirm.isEmpty = false ∨ s.orch.hang = true ∨ (s.orch.held.isEmpty = false ∧ s.orch.blocked = false) then s1
    else
      (bl.map (·.1)).foldl (fun s sh => s.sendTo sh (.probe { prog := false, conf := true, still := false, lowpun := 0, nq := 0 }))
        { s1 with orch := { s1.orch with confirm := bl.map (·.1) } }

/-- Queued messages of a punnet dropped on every port, and those for this instance itself (R325). A message whose first unit has left is no more
queued: the stream of its channel runs on to its end (R330). -/
def Orch.dropPunnet (o : Orch) (n : Nat) : Orch :=
  let stays := fun (m : Msg) => decide (m.hdr.punnet ≠ n)
  { o with links := Tab.mapVals o.links (fun _ l => { l with queues := Tab.mapVals l.queues (fun vc q => if vc < 4 then q.filter stays else q) }),
           loop := o.loop.filter (fun m => stays m || decide (4 ≤ m.body.vc)) }

/-- The rows of a punnet homed here whose commit has not come: with their slots there. -/
def State.uncommitted (s : State) (n : Nat) : List (Nat × Row) :=
  (s.openRows.filter (fun r => decide (r.punnet = some n) && !s.hcom.any (fun c => decide (c.key = r.key ∧ c.punnet = n)))).map (fun r =>
    (((s.punnet n).bind (fun p => p.rows.find? (fun q => decide (q.key = r.key)))).elim 0 (fun q => q.slot), r))

/-- A purge at this instance: messages dropped, the punnet retired, its rows whose commit has not come void; should that commit come later, the row
is remembered for it (R316, R325) (DEDUCED, log 112). -/
def State.purge (s : State) (n : Nat) : State :=
  let due := s.uncommitted n
  let s1 := ({ s with orch := s.orch.dropPunnet n }).contained 0x20 { Site.none with punnet := n }
  let s2 := (due.foldl (fun (s : State) e => s.voidRow e.2 0x20) s1).retirePunnet n
  let o : Orch := { s2.orch with recent := (n :: s2.orch.recent).take 256, purged := (due.map (fun e => (n, e.1, e.2.key)) ++ s2.orch.purged).take 4096 }
  ({ s2 with orch := o }).pump

/-- A punnet is in flight here or has messages queued here. -/
def State.punnetSeen (s : State) (n : Nat) : Bool := (s.punnet n).isSome || s.orch.held.any (fun m => decide (m.hdr.punnet = n))

/-- PURGE received: the root's takes effect and goes down the tree; a debugger's reaches the root first (R325, R437). -/
def State.onPurge (s : State) (h : Hdr) (n : Nat) (dbg : Bool) : State :=
  if h.bcast then (s.passOn h (.purge n dbg)).purge n
  else if s.forMe h = false then s.passOn h (.purge n dbg)
  else if s.isRoot ∧ s.punnetSeen n then s.sendPurge n dbg
  else s

/-- PURGE_RETRY_TIMER: without progress the root purges the next punnet; after four it hangs (R325). -/
def State.purgeRetry (s : State) : State :=
  if s.isRoot = false ∨ s.orch.hang = true then s
  else if s.orch.purgeDue then s.purgeGo
  else if s.orch.purges = 0 then s
  else if 4 ≤ s.orch.purges then ({ s with orch := { s.orch with hang := true, purges := 0, purgeDue := false } }).setCause cHang
  else s.purgeNext

/-! ## Meanings -/

def execOrchConfig (pk : Pkt) (s : State) : Host.Outcome State Fault Refusal := .next (takePacket orchConfigD pk s)
def execOrchDiscover (pk : Pkt) (s : State) : Host.Outcome State Fault Refusal := .next (takePacket orchDiscoverD pk s)
def execOrchQuery (pk : Pkt) (s : State) : Host.Outcome State Fault Refusal := .next (takePacket orchQueryD pk s)

/-- LINK_DOWN (R301, R302). -/
def execLinkDown (port : Nat) (s : State) : Host.Outcome State Fault Refusal := .next (if s.live then s.linkDown port else s)

/-- TRAIN (R329); a purge may have waited for the port (R327). -/
def execTrain (port : Nat) (f : Frame) (s : State) : Host.Outcome State Fault Refusal :=
  .next (let l := s.orch.link port
    if s.live && l.enabled && decide (l.st = 1) && decide (l.train.phase = 3) && frOk f then ((s.trained port f).pumpLink port).purgeGo else s)

/-- DISC (R304, R306). -/
def execDisc (port : Nat) (ovf : Bool) (entries : List DiscEnt) (s : State) : Host.Outcome State Fault Refusal :=
  .next (if s.live then s.onDisc port ovf entries else s)

/-- DLWIN_EXPIRY (R323). -/
def execDlwinExpiry (s : State) : Host.Outcome State Fault Refusal := .next (if s.live then s.dlwin else s)

/-- PROBE (R323, R324) (DESIGN CHOICE, log 69). -/
def execProbe (h : Hdr) (b : ProbeB) (s : State) : Host.Outcome State Fault Refusal :=
  .next (if s.live then ctlSound h (fun s =>
      if s.starting then s.passOn h (.probe b) else (s.arrive { hdr := h, body := .probe b }).onProbe h b) s
    else s)

/-- PURGE (R325). -/
def execPurge (h : Hdr) (punnet : Nat) (dbg : Bool) (s : State) : Host.Outcome State Fault Refusal :=
  .next (if s.live then ctlSound h (fun s =>
      if s.starting then s.passOn h (.purge punnet dbg) else (s.onPurge h punnet dbg).arrive { hdr := h, body := .purge punnet dbg }) s
    else s)

/-- PURGE_RETRY_TIMER (R325). -/
def execPurgeRetryTimer (s : State) : Host.Outcome State Fault Refusal := .next (if s.live then s.purgeRetry else s)

end Sys2Proof.Machine
end

