-- ==== Sys2Proof/Machine/Repairs.lean ====
section
/-! DEFINITION. Spares, repair entries, calibration overlays, field self-test, and the REPAIR and DIAG commands (R397, R406, R407,
R409 to R423, R375). -/

namespace Sys2Proof.Machine

/-! ## Repair entries (R417, R418) -/

def entKind (w : Word) : Nat := bitsAt w 0 4
def entSpare (w : Word) : Nat := bitsAt w 4 4
def entMacro (w : Word) : Nat := bitsAt w 8 10
def entIndex (w : Word) : Nat := bitsAt w 18 10

/-- CHK: the XOR of the seven nibbles below it. -/
def entChk (w : Word) : Nat := (List.range 7).foldl (fun a i => a ^^^ bitsAt w (4 * i) 4) 0

/-- CHK holds. -/
def entOk (w : Word) : Bool := decide (bitsAt w 28 4 = entChk w)

/-- A repair entry formed. -/
def mkEntry (kind spare sram index : Nat) : Word :=
  let a : Word := w32 (kind % 16 + putBits (spare % 16) 4 + putBits (sram % 1024) 8 + putBits (index % 1024) 18)
  w32 (a.toNat + putBits (entChk a) 28)

/-- Working units and spares of a kind (Table 20.1); rows and columns of SRAM macros have no stated number of working units. -/
def workOf (kind : Nat) : Nat := [0, 512, 256, 64, 32, 1, 64, 1024, 1024].getD kind 0
def spareOf (kind : Nat) : Nat := [0, 16, 8, 4, 2, 1, 4, 4, 2].getD kind 0

/-- The factory's repair map. -/
def repMap : List Word := (List.range 64).map (fun i => w32 (fuse (1680 + 32 * i) 32))

/-- The repair set in force, in the order of R418; entries whose CHK fails are ignored. -/
def State.repairSet (s : State) : List Word :=
  (repMap ++ s.rep.field ++ s.rep.overlay ++ s.rep.made).filter (fun w => decide (entKind w ≠ 0) && entOk w)

/-- An entry concerns a resource: its kind, and its macro for kinds 7 and 8. -/
def entOf (kind sram : Nat) (w : Word) : Bool := decide (entKind w = kind) && decide (kind < 7 ∨ entMacro w = sram)

/-- The lowest free spare of a resource (R410). -/
def State.freeSpare (s : State) (kind sram : Nat) : Option Nat :=
  (List.range (spareOf kind)).find? (fun i => !s.repairSet.any (fun w => entOf kind sram w && decide (entSpare w = i)))

/-- A repair made: the logical unit moves to the lowest free spare. With none, a compute unit is fatal, an SRAM row or column stays
under ECC with SPAREX set and the fault interrupt raised (R410, R412). -/
def State.repair (s : State) (u : Unit') : State :=
  match s.freeSpare u.kind u.sram with
  | some i => ({ s with rep := { s.rep with made := s.rep.made ++ [mkEntry u.kind i u.sram u.index] } }).bump offRepair
  | none => if u.kind ≤ 6 then s.fatal (if s.blk = .selftest then 0x45 else 0x42) { Site.none with unit := u.index } else (s.setFault 5).setCause cFault

/-- A repair scheduled: at once in READY, else at the next punnet boundary (R411, R413). -/
def State.scheduleRepair (s : State) (u : Unit') : State :=
  if s.blk = .ready then s.repair u
  else if s.rep.sched.contains u then s
  else { s with rep := { s.rep with sched := s.rep.sched ++ [u] } }

/-- Order of repairs at one boundary (Table 20.5). -/
def unitLt (a b : Unit') : Bool := decide (a.kind < b.kind ∨ (a.kind = b.kind ∧ a.index < b.index))

/-- A contained event of a unit counted in its window; 1,024 of them make it a failed unit (R397). -/
def State.unitFault (s : State) (u : Unit') (c : Nat) (x : Site) : State :=
  let s1 := (s.contained c x).unitEvent u
  if 1024 ≤ s1.unitEvents u then
    match s1.freeSpare u.kind u.sram with
    | some _ => s1.scheduleRepair u
    | none => s1.fatal 0x42 x
  else s1

/-- A single-bit error of an SRAM row: corrected, counted; four of them since the cold reset repair the row (R413). -/
def State.sramError (s : State) (u : Unit') : State :=
  let n := ((s.rep.rowErr.find? (fun e => e.1 = u)).map (fun e => e.2)).getD 0 + 1
  let s1 := s.corrected 0x01
  let s2 := { s1 with
    faults := { s1.faults with sramErr := Tab.upd s1.faults.sramErr u.sram 0 (fun v => satAdd (2 ^ 32 - 1) v 1) },
    rep := { s1.rep with rowErr := (u, n) :: s1.rep.rowErr.filter (fun e => e.1 ≠ u) } }
  if n = 4 then s2.scheduleRepair u else s2

/-! ## Calibration (R421, R422) -/

/-- A signed byte of a calibration block. -/
def calByte (m : Memory) (k i : Nat) : Int := sx8 (m.byte (k + i)).toNat

/-- The overlay a calibration block gives, over the one in force; absent fields keep their values. -/
def calOf (m : Memory) (k : Nat) (c : Cal) : Cal :=
  let p := m.word (k + 8)
  let t := m.word (k + 0x14)
  { thadj := if bitAt p 0 then (List.range 8).map (fun i => calByte m k (0x0C + i)) else c.thadj,
    tlim := if bitAt p 1 then some (bitsAt t 0 8, bitsAt t 8 8, bitsAt t 16 8) else c.tlim,
    dradj := if bitAt p 2 then (List.range 16).map (fun i => calByte m k (0x18 + i)) else c.dradj,
    skadj := if bitAt p 3 then (List.range 5).map (fun i => calByte m k (0x28 + i)) else c.skadj,
    seed := if bitAt p 4 then join64 (m.word (k + 0x30)) (m.word (k + 0x34)) else c.seed }

/-- The bounds of R421. -/
def Cal.ok (c : Cal) : Bool :=
  let t := c.tlim.getD fuseTlim
  let within := fun (l : List Int) (b : Nat) => l.all (fun x => decide (x.natAbs ≤ b))
  within c.thadj (fuseBnd 0) && within c.dradj (fuseBnd 1) && within c.skadj (fuseBnd 2)
  && decide (t.1 ≤ fuseTlim.1 ∧ t.2.1 ≤ fuseTlim.2.1 ∧ t.2.2 ≤ fuseTlim.2.2)
  && decide (t.1 < t.2.1 ∧ t.2.1 < t.2.2)

/-! ## A punnet boundary on this instance -/

/-- Repairs, overlays, calibration and the power cap come into force (R391, R411, R422). The duty that a cap leaves is a free value
from 0.1 to 1 (DESIGN CHOICE, log 24) (DESIGN CHOICE, log 53). -/
def State.unitBoundary (s : State) : State :=
  let sched := sortBy unitLt s.rep.sched
  let s1 := { s with rep := { s.rep with sched := [], overlay := s.rep.overlay ++ s.rep.pendOv.getD [], pendOv := none,
                                         cal := s.rep.pendCal.getD s.rep.cal, pendCal := none } }
  let s2 := sched.foldl (fun s u => s.repair u) s1
  match s2.pwr.capNext with
  | none => s2
  | some 0 => { s2 with pwr := { s2.pwr with cap := 0, capNext := none, capDuty := 256, capLow := false } }
  | some c =>
    let (w, s3) := s2.takeFree
    { s3 with pwr := { s3.pwr with cap := c, capNext := none, capDuty := if bitAt w 31 then 26 else 26 + w.toNat % 231, capLow := bitAt w 31 } }

/-! ## REPAIR commands -/

/-- A repair overlay is checked and its entries read: those not in force already (R419). -/
def overlayOf (s : State) (k len : Nat) : Except Cpl (List Word) :=
  let m := s.mem
  let n := bitsAt (m.word (k + 4)) 16 9
  let es := m.words (k + 0x20) n
  let used := s.repairSet ++ s.rep.pendOv.getD []
  match firstCpl [
      (m.bad k (max 32 len), Cpl.of stFault 0x03),
      (decide (m.word (k + 0x1C) ≠ crc32c (m.bytes k 0x1C)), badCrc),
      (decide (m.word k ≠ 0x50524B4A ∨ bitsAt (m.word (k + 4)) 0 16 ≠ 1 ∨ bitsAt (m.word (k + 4)) 25 7 ≠ 0 ∨ 256 < n ∨ len ≠ 32 + 4 * n), badImg),
      (!zeroWords m k 0x10 0x18, badImg),
      (decide (m.word (k + 0x18) ≠ crcWords es), badCrc),
      (decide (join64 (m.word (k + 8)) (m.word (k + 0x0C)) ≠ dieId), badImg)] with
  | some c => .error c
  | none =>
    let clash := fun (a b : Word) => entOf (entKind a) (entMacro a) b && decide (entSpare a = entSpare b ∧ entIndex a ≠ entIndex b)
    if es.all (fun w => decide (w = 0) || (entOk w && decide (1 ≤ entKind w ∧ entKind w ≤ 8 ∧ entSpare w < spareOf (entKind w))
        && !(used ++ es).any (fun x => clash w x))) then
      .ok ((es.filter (fun w => decide (w ≠ 0) && !used.contains w)).dedup)
    else .error badImg
where
  /-- a failed CRC -/
  badCrc : Cpl := Cpl.of stBadParam 0x02
  /-- a failed check -/
  badImg : Cpl := Cpl.of stBadParam 0
  /-- bytes that are zero -/
  zeroWords (m : Memory) (k a b : Nat) : Bool := (m.bytes (k + a) (b - a)).all (fun x => decide (x = 0))

/-- REPAIR.LOAD (R419): at once in READY, else at the next punnet boundary. -/
def repairLoadD : Desc :=
  { opcode := 0x0B00, legal := [.ready, .run], scope := fun _ => .local_, accepts := false,
    bad := fun pk _ => firstBad [(!pk.clean [all32, all32, all32], 0), (!addrOk false (pk.p64 0), 0x04)],
    pre := noPre, lock := fun _ _ => some objSelf,
    run := fun o pk s =>
      match overlayOf s (addrKey (pk.p64 0)) (pk.p 2).toNat with
      | .error c => s.finish o c
      | .ok es =>
        let s1 := if s.blk = .ready then { s with rep := { s.rep with overlay := s.rep.overlay ++ es } }
          else { s with rep := { s.rep with pendOv := some (s.rep.pendOv.getD [] ++ es) } }
        s1.finish o (Cpl.done 0 0) }

/-- Entries of sources 3 and 4 that no fuse holds (R419, R420). -/
def State.unburned (s : State) : List Word := (s.rep.overlay ++ s.rep.made).filter (fun w => !(repMap ++ s.rep.field).contains w)

/-- Entries placed in the unused words of the field fuses, in ascending order. -/
def burn : List Word → List Word → List Word
  | [], _ => []
  | f, [] => f
  | f :: fs, e :: es => if f = 0 then e :: burn fs es else f :: burn fs (e :: es)

/-- REPAIR.COMMIT (R420). -/
def repairCommitD : Desc :=
  { opcode := 0x0B01, legal := [.ready], scope := fun _ => .local_, accepts := false,
    bad := fun pk _ => firstBad [(!pk.clean [all32], 0), (decide (pk.p 0 ≠ 0x46495845), 0)],
    pre := fun _ _ s => if (s.rep.field.filter (fun w => w = 0)).length < s.unburned.length then some (Cpl.of stNoSpace 0) else none,
    lock := fun _ _ => some objSelf,
    run := fun o _ s => ({ s with rep := { s.rep with field := burn s.rep.field s.unburned } }).finish o (Cpl.done 0 0) }

/-- The image that REPAIR.QUERY writes (R419). -/
def State.overlayImage (s : State) : List Word :=
  let es := s.unburned
  let h : List Word := [0x50524B4A, w32 (1 + putBits es.length 16), lo32 dieId, hi32 dieId, 0, 0, crcWords es]
  h ++ [crcWords h] ++ es

/-- REPAIR.QUERY. -/
def repairQueryD : Desc :=
  { opcode := 0x0B02, legal := rdyRunDrn, scope := fun _ => .local_, accepts := false,
    bad := fun pk _ => firstBad [(!pk.clean [all32, all32], 0), (!addrOk false (pk.p64 0), 0x04)],
    pre := noPre, lock := noLock,
    run := fun o pk s => (s.storeWords (addrKey (pk.p64 0)) s.overlayImage).finish o (Cpl.done 0 0) }

/-- REPAIR.CAL (R421, R422). Bytes of the block that carry no field are 0 (R8). -/
def repairCalD : Desc :=
  { opcode := 0x0B03, legal := rdyRunDrn, scope := fun _ => .local_, accepts := false,
    bad := fun pk _ => firstBad [(!pk.clean [all32, all32], 0), (!addrOk false (pk.p64 0), 0x04)],
    pre := noPre, lock := fun _ _ => some objSelf,
    run := fun o pk s =>
      let k := addrKey (pk.p64 0)
      let m := s.mem
      let c := calOf m k (s.rep.pendCal.getD s.rep.cal)
      match firstCpl [
          (m.bad k 64, Cpl.of stFault 0x03),
          (decide (m.word (k + 0x3C) ≠ crc32c (m.bytes k 0x3C)), Cpl.of stBadParam 0x02),
          (decide (m.word k ≠ 0x4C41434A ∨ bitsAt (m.word (k + 4)) 0 16 ≠ 1 ∨ bitsAt (m.word (k + 4)) 16 16 ≠ 0
            ∨ bitsAt (m.word (k + 8)) 5 27 ≠ 0 ∨ bitsAt (m.word (k + 0x14)) 24 8 ≠ 0
            ∨ bitsAt (m.word (k + 0x2C)) 8 24 ≠ 0 ∨ m.word (k + 0x38) ≠ 0) || !c.ok, Cpl.of stBadParam 0)] with
      | some c => s.finish o c
      | none =>
        let s1 := if s.blk = .ready then { s with rep := { s.rep with cal := c } } else { s with rep := { s.rep with pendCal := some c } }
        s1.finish o (Cpl.done 0 0) }

/-! ## Field self-test (R413 to R415) -/

/-- Units of a mask, by physical number, in the order of Table 20.3. The number of SRAM macros is not stated, so their segments are
not listed (DESIGN CHOICE, log 25). -/
def unitsOf (mask : Nat) : List Unit' :=
  let all := fun (k : Nat) => (List.range (workOf k + spareOf k)).map (fun i => ({ kind := k, sram := 0, index := i } : Unit'))
  (if mask.testBit 0 then all 1 else []) ++ (if mask.testBit 1 then all 2 else []) ++ (if mask.testBit 2 then all 3 else [])
    ++ (if mask.testBit 3 then all 4 ++ all 5 else []) ++ (if mask.testBit 4 then all 6 else [])

/-- The logical unit that a physical unit serves, if any (R410): for SRAM, the row or column itself. -/
def State.logical (s : State) (u : Unit') : Option Unit' :=
  if 7 ≤ u.kind then some u
  else
    let mine := s.repairSet.filter (fun w => entOf u.kind u.sram w)
    let last := fun (l : Nat) => (mine.filter (fun w => decide (entIndex w = l))).getLast?
    if u.index < workOf u.kind then (if (last u.index).isNone then some u else none)
    else
      match mine.find? (fun w => decide (entSpare w = u.index - workOf u.kind)) with
      | some w => if last (entIndex w) = some w then some { u with index := entIndex w } else none
      | none => none

/-- The DIAG.SELFTEST pass ends when its last unit has been visited. -/
def State.endDiagPass (s : State) : State :=
  if s.rep.dleft.isEmpty then s.endJobs (fun j => decide (j.kind = .selftest)) (fun _ => Cpl.done (w32 s.rep.found) s.rep.fixed) else s

/-- A slice that ran to its end: the unit is visited; a failing unit in use is repaired (R413, R414). -/
def State.slice (s : State) (u : Unit') (fail : Bool) : State :=
  let diag := s.rep.dleft.contains u
  let left := s.rep.left.erase u
  let target := if fail then s.logical u else none
  let s1 := { s with rep := { s.rep with
    left := left, passEnd := s.rep.passEnd || (!s.rep.left.isEmpty && left.isEmpty), dleft := s.rep.dleft.erase u,
    found := if diag && fail then s.rep.found + 1 else s.rep.found,
    fixed := if diag && target.isSome then s.rep.fixed + 1 else s.rep.fixed } }
  let s2 := match target with
    | some t => s1.scheduleRepair t
    | none => s1
  s2.endDiagPass

/-- An idle window: READY, or RUN at P-IDLE (R414). -/
def State.idleWindow (s : State) : Bool := decide (s.blk = .ready) || (decide (s.blk = .run) && decide (s.pwr.cur = 2))

/-- SELFTEST_SLICE: outside an idle window the slice stops and is retried (R414). -/
def execSelftestSlice (unit : Unit') (fail : Bool) (s : State) : Host.Outcome State Fault Refusal :=
  .next (if s.live && s.idleWindow then s.slice unit fail else s)

/-- SELFTEST_PASS_TIMER: a new pass no sooner than 600 s after the last one's start; one that has not ended 60,000 s after its
start sets the self-test-starved flag (R415). -/
def execSelftestPassTimer (s : State) : Host.Outcome State Fault Refusal :=
  .next (if s.live = false then s
    else if s.rep.passEnd then
      if s.rep.passAt + 60000000000 ≤ s.now ∨ s.rep.passAt = 0 then
        { s with rep := { s.rep with left := unitsOf 0x3F, passAt := s.now, passEnd := false, starved := false } }
      else s
    else if s.rep.passAt + 6000000000000 ≤ s.now ∧ s.rep.starved = false then
      ({ s with rep := { s.rep with starved := true } }).setFault 6
    else s)

/-! ## DIAG commands -/

/-- Injection targets of Table 19.6, and the fatal ones. -/
def injTarget (t : Nat) : Bool := decide (1 ≤ t ∧ t ≤ 0x10)
def injFatal (t : Nat) : Bool := decide (t = 0x0F ∨ t = 0x10)

/-- The parameter of a target is in its range (Table 19.6): a macro, a vocabulary lane, a row slot, a frame, a table number, a consumer, a port, a lane
or unit of the sampling kind, a consumer ring; any tick count and any offset. -/
def injParam (t p : Nat) : Bool :=
  match t with
  | 1 => decide (p < 1024)
  | 2 => decide (p < 512)
  | 3 => decide (p < 512)
  | 4 => decide (p < 256)
  | 5 => decide (p < 3840)
  | 6 => decide (p < 256)
  | 7 => decide (p < 4)
  | 8 => decide (p < 5)
  | 9 => decide (p < 5)
  | 10 => decide (p < 64)
  | 11 => decide (p < 64)
  | 13 => decide (p < 16)
  | _ => true

/-- DIAG.INJECT names its target with the parameter that disarms it (R406). -/
def injDisarm (pk : Pkt) : Bool := decide (pk.fld 0 8 8 = 1 ∧ pk.p 1 = 0xFFFFFFFF)

/-- DIAG.INJECT (R9, R406, R407). -/
def diagInjectD : Desc :=
  { opcode := 0x0A00, legal := rdyRunDrn, scope := fun _ => .local_, accepts := false,
    bad := fun pk _ => firstBad [(!pk.clean [0xFFFF, all32], 0), (!injTarget (pk.fld 0 0 8), 0),
      (!injParam (pk.fld 0 0 8) (pk.p 1).toNat && !injDisarm pk, 0)],
    pre := fun _ pk s =>
      if s.dbg.injen = false ∨ (injFatal (pk.fld 0 0 8) ∧ s.dbg.injfatal = false) then some (Cpl.of stWrongState 0) else none,
    lock := noLock,
    run := fun o pk s =>
      let t := pk.fld 0 0 8
      let n := pk.fld 0 8 8
      let rest := s.faults.inj.filter (fun i => decide (i.target ≠ t))
      let inj := if injDisarm pk then rest else rest ++ [{ target := t, count := n, param := pk.p 1 }]
      ({ s with faults := { s.faults with inj := inj } }).finish o (Cpl.done 0 0) }

/-- DIAG.SELFTEST: one pass over the units of the mask (R415). -/
def diagSelftestD : Desc :=
  { opcode := 0x0A01, legal := rdyRunDrn, scope := fun _ => .local_, accepts := false,
    bad := noBad [0x3F], pre := noPre, lock := fun _ _ => some objSelf,
    run := fun o pk s =>
      let s1 := { s with rep := { s.rep with dleft := unitsOf (pk.fld 0 0 8), found := 0, fixed := 0 } }
      (s1.addJob { origin := o, opcode := pk.opcode, kind := .selftest, lock := some objSelf }).endDiagPass }

/-- Offsets of the counters of the shared window, in register-map order (Table 21.5). -/
def counterOffs : List Nat :=
  (List.range 8).map offFault ++ (List.range 15).map offEvt ++ (span 0 7).map (fun i => 0x500 + 4 * i)
    ++ [0x520, 0x524, 0x528, 0x52C, 0x540, 0x544, 0x548, 0x54C, 0x550] ++ (List.range 16).map offTbtHist
    ++ (List.range 16).map (fun i => 0x5C0 + 4 * i) ++ [0x634, 0x638] ++ (List.range 5).map offRetrain
    ++ [0x680, 0x684, 0x688, 0x68C, 0x690, 0x694] ++ (List.range 256).map offEvent ++ (List.range 256).map offVoid

/-- Counter registers of the four windows in register-map order: the ports' own, then the shared window's. -/
def snapAddrs : List Nat :=
  [0x200, 0x204, 0x208, 0x20C, 0x10200, 0x10204, 0x10208, 0x1020C] ++ counterOffs.map (fun o => 0x20000 + o)

/-- DIAG.SNAP: every counter, in register-map order. -/
def diagSnapD : Desc :=
  { opcode := 0x0A02, legal := allButDump, scope := fun _ => .local_, accepts := false,
    bad := fun pk _ => firstBad [(!pk.clean [all32, all32], 0), (!addrOk false (pk.p64 0), 0x04)],
    pre := noPre, lock := noLock,
    run := fun o pk s =>
      let ws := snapAddrs.map s.regWord
      (s.storeWords (addrKey (pk.p64 0)) ws).finish o (Cpl.done (w32 (4 * ws.length)) 0) }

/-- DIAG.TRACE. -/
def diagTraceD : Desc :=
  { opcode := 0x0A03, legal := allButDump, scope := fun _ => .local_, accepts := false,
    bad := noBad [0xFF01], pre := noPre, lock := noLock,
    run := fun o pk s => ({ s with dbg := { s.dbg with tren := bitAt (pk.p 0) 0, trclass := pk.fld 0 8 8 } }).finish o (Cpl.done 0 0) }

/-! ## Meanings -/

def execRepairLoad (pk : Pkt) (s : State) : Host.Outcome State Fault Refusal := .next (takePacket repairLoadD pk s)
def execRepairCommit (pk : Pkt) (s : State) : Host.Outcome State Fault Refusal := .next (takePacket repairCommitD pk s)
def execRepairQuery (pk : Pkt) (s : State) : Host.Outcome State Fault Refusal := .next (takePacket repairQueryD pk s)
def execRepairCal (pk : Pkt) (s : State) : Host.Outcome State Fault Refusal := .next (takePacket repairCalD pk s)
def execDiagInject (pk : Pkt) (s : State) : Host.Outcome State Fault Refusal := .next (takePacket diagInjectD pk s)
def execDiagSelftest (pk : Pkt) (s : State) : Host.Outcome State Fault Refusal := .next (takePacket diagSelftestD pk s)
def execDiagSnap (pk : Pkt) (s : State) : Host.Outcome State Fault Refusal := .next (takePacket diagSnapD pk s)
def execDiagTrace (pk : Pkt) (s : State) : Host.Outcome State Fault Refusal := .next (takePacket diagTraceD pk s)

end Sys2Proof.Machine
end

