-- ==== Sys2Proof/Machine/Debug.lean ====
section
/-! DEFINITION. The debug window's actions and the test instruments that only read (R326, R406, R435 to R441). -/

namespace Sys2Proof.Machine

/-! ## Debug access (R435) -/

/-- Injection is off and disarmed (R406). -/
def State.injOff (s : State) : State := { s with dbg := { s.dbg with injen := false, injfatal := false }, faults := { s.faults with inj := [] } }

/-- Debug access changed; when it stops being enabled INJEN and INJFATAL return to 0 (R435, Table 21.16). -/
def State.setAccess (s : State) (en tap : Bool) : State :=
  let s1 := { s with dbg := { s.dbg with en := en, tap := tap } }
  if s.debugOn && !s1.debugOn then s1.injOff else s1

/-- JG_DBG_EN: acts only with its key (R435). -/
def State.writeDbgEn (s : State) (v : Word) : State := 
  if bitsAt v 16 16 = 0x4442 then
    let s1 := s.setAccess (bitAt v 0) s.dbg.tap
    { s1 with dbg := { s1.dbg with enKey := true } }
  else s

/-- A debug-window write acts only while debug access is enabled; in P-RET, in quarantine and in a clock failure the window is held
(R424, R435). -/
def debugWrite (act : State → State) (s : State) : State := if s.live && s.debugOn then act s else s

/-- The KEY of a debug write (R436). -/
def dbgKey (v : Word) : Bool := decide (bitsAt v 16 16 = 0x4A47)

/-- JG_DBG_PURGE: forwarded to the root; no effect for a punnet that is neither queued nor in flight there (R437). -/
def State.dbgPurge (s : State) (v : Word) : State :=
  if dbgKey v = false then s
  else
    let n := bitsAt v 0 16
    if s.isRoot then (if s.punnetSeen n then s.sendPurge n true else s) else s.sendTo s.orch.rootSh (.purge n true)

/-- JG_DBG_FLUSH: a channel of a port drops its queued messages, and its credit is that of Table 15.4 in both directions: that held here, and, with
nothing left to return, that of the neighbour, whose end the same flush resets (R326; DESIGN CHOICE, log 142). -/
def State.dbgFlush (s : State) (v : Word) : State :=
  let p := bitsAt v 0 3
  let vc := bitsAt v 4 3
  if dbgKey v = false ∨ 5 ≤ p ∨ 5 ≤ vc then s
  else
    let l := s.orch.link p
    s.setLink p { l with queues := Tab.set l.queues vc [], txw := Tab.set l.txw vc [], rxw := Tab.set l.rxw vc [], owed := Tab.set l.owed vc 0,
                         credits := Tab.set l.credits vc (Tab.get Link.fullCredit vc 0) }

/-- JG_DBG_CNTVAL: the value, and the wake wire (R438). -/
def State.dbgCntval (s : State) (v : W64) : State := s.ctrSet s.dbg.cntsel v

/-- JG_DBG_SEM (R439): a port's hold that changes is abandoned first; a new owner from 0 advances GRANTS. -/
def State.dbgSem (s : State) (v : Word) : State :=
  if dbgKey v = false then s
  else
    let n := bitsAt v 0 6
    let o := bitsAt v 8 2
    let q := s.sem n
    let s1 := if (q.owner = 1 ∨ q.owner = 2) ∧ q.owner ≠ o then s.semAbandon n else s
    let q1 := s1.sem n
    s1.setSem n (if q1.owner = 0 ∧ o ≠ 0 then q1.grant o else { q1 with owner := o })

/-- HANGCLR: the hang flag clears and the detector is armed again (R326). -/
def State.hangClear (s : State) : State := { s with orch := { s.orch with hang := false, purges := 0, purgeDue := false, blockedBy := [], confirm := [] } }

/-- JG_DBG_CTL written (Table 21.16). -/
def State.dbgCtl (s : State) (v : Word) : State :=
  let s1 := { s with dbg := { s.dbg with injen := bitAt v 0, injfatal := bitAt v 1 } }
  let s2 := if bitAt v 0 then s1 else { s1 with faults := { s1.faults with inj := [] } }
  if bitAt v 2 then s2.hangClear else s2

/-- The trace word at an index (R375, R436; DESIGN CHOICE, log 5). -/
def State.traceWord (s : State) (i : Nat) : Word := Config.traceWord s.dbg.captures (i % 65536)

/-! ## Meanings -/

/-- JG_DBG_EN (R435). -/
def execJgDbgEn (by_ : PortId) (value : Word) (s : State) : Host.Outcome State Fault Refusal :=
  .next (sharedWrite by_ (fun s => s.writeDbgEn value) s)

/-- JG_DBG_PURGE (R437). -/
def execJgDbgPurge (value : Word) (s : State) : Host.Outcome State Fault Refusal := .next (debugWrite (fun s => s.dbgPurge value) s)

/-- JG_DBG_FLUSH (R326). -/
def execJgDbgFlush (value : Word) (s : State) : Host.Outcome State Fault Refusal := .next (debugWrite (fun s => s.dbgFlush value) s)

/-- JG_DBG_CNTVAL (R438). -/
def execJgDbgCntval (value : W64) (s : State) : Host.Outcome State Fault Refusal := .next (debugWrite (fun s => s.dbgCntval value) s)

/-- JG_DBG_SEM (R439). -/
def execJgDbgSem (value : Word) (s : State) : Host.Outcome State Fault Refusal := .next (debugWrite (fun s => s.dbgSem value) s)

/-- HANGCLR: a write of JG_DBG_CTL with HANGCLR set (R326). -/
def execHangclr (value : Word) (s : State) : Host.Outcome State Fault Refusal := .next (debugWrite (fun s => s.dbgCtl value) s)

/-- INJEN_CLEAR: a write of JG_DBG_CTL with INJEN clear (R406). -/
def execInjenClear (value : Word) (s : State) : Host.Outcome State Fault Refusal := .next (debugWrite (fun s => s.dbgCtl value) s)

/-- JG_DBG_TRDATA read: the index advances (R436). -/
def execJgDbgTrdata (_p : PortId) (s : State) : Host.Outcome State Fault Refusal :=
  .next (if s.live then { s with dbg := { s.dbg with tridx := (s.dbg.tridx + 1) % 65536 } } else s)

/-! ## The test access port (R440) -/

/-- DBGEN: debug access holds while the instruction is selected; Capture-DR loads JG_ID. -/
def execDbgen (s : State) : Host.Outcome State Fault Refusal :=
  .next (if s.pwr.clkFail then s else { s.setAccess s.dbg.en true with dbg := { (s.setAccess s.dbg.en true).dbg with dbgenDr := s.regWord 0x20400 } })

/-- DBGEN_DESELECT. -/
def execDbgenDeselect (s : State) : Host.Outcome State Fault Refusal := .next (s.setAccess s.dbg.en false)

/-- TEST_LOGIC_RESET: every SIB closes, every instrument is idle, DBGEN's access ends. -/
def execTestLogicReset (s : State) : Host.Outcome State Fault Refusal :=
  .next { s.setAccess s.dbg.en false with dbg := { (s.setAccess s.dbg.en false).dbg with tdr := [] } }

/-! ## Instruments that read (R441, Table 21.19) -/

/-- Bits of a TDR value. -/
def tdrBits (v lo len : Nat) : Nat := (v >>> lo) % 2 ^ len

/-- A field of a TDR value replaced. -/
def tdrPut (v lo len x : Nat) : Nat := v - putBits (tdrBits v lo len) lo + putBits (x % 2 ^ len) lo

/-- An instrument's captured value. -/
def State.setTdr (s : State) (sib v : Nat) : State := { s with dbg := { s.dbg with tdr := Tab.set s.dbg.tdr sib v } }

/-- An instrument acts when its GO bit is set, while its clock runs. -/
def instrument (sib tdr : Nat) (act : State → State) (s : State) : State :=
  if s.pwr.clkFail ∨ s.pwr.cur ≤ 1 then s
  else if tdr % 2 = 1 then act s
  else s.setTdr sib tdr

/-- STORE: the candidate, contender and rescore stores hold the data of rows that have not exited certification while a punnet is
in flight, so the word reads as zero then (R128); the layout of the stores is not stated (DESIGN CHOICE, log 28). -/
def execStore (tdr : Nat) (s : State) : Host.Outcome State Fault Refusal :=
  .next (instrument 1 tdr (fun s =>
    let w := if s.puns.isEmpty ∧ s.roots.isEmpty then (Config.sramWord (4096 + tdrBits tdr 1 2) (tdrBits tdr 3 20)).toNat else 0
    s.setTdr 1 (tdrPut (tdrPut tdr 23 64 w) 87 1 0)) s)

/-- SRAMRD: the word after correction; its contents are not laid out (DESIGN CHOICE, log 28). -/
def execSramrd (tdr : Nat) (s : State) : Host.Outcome State Fault Refusal :=
  .next (instrument 2 tdr (fun s =>
    let m := tdrBits tdr 1 10
    let i := tdrBits tdr 11 20
    let hid := !s.puns.isEmpty || !s.roots.isEmpty
    let w := if hid then 0 else (Config.sramWord m i).toNat
    let e := if hid then 0 else (Config.sramSyndrome m i).toNat
    let inj := (match s.armed 0x01 with
      | some j => decide (j.param.toNat = m)
      | none => false)
    let s1 := if inj then (s.fire 0x01).sramError { kind := 7, sram := m, index := i / 512 } else s
    s1.setTdr 2 (tdrPut (tdrPut (tdrPut (tdrPut (tdrPut tdr 31 64 w) 95 8 e) 103 1 (b2n inj)) 104 1 0) 105 1 0)) s)

/-- SLICE: whether the unit passes is the world's; here the slice may not run outside an idle window and then shows FAIL, and in one
its verdict is a free value, with a failing unit repaired (R413, R414; DESIGN CHOICE, log 29). -/
def execSlice (tdr : Nat) (s : State) : Host.Outcome State Fault Refusal :=
  .next (instrument 3 tdr (fun s =>
    let r := tdrBits tdr 1 3
    let i := tdrBits tdr 4 10
    let u : Unit' :=
      match r with
      | 0 => { kind := 1, sram := 0, index := i }
      | 1 => { kind := 2, sram := 0, index := i }
      | 2 => { kind := 3, sram := 0, index := i }
      | 3 => if i < 34 then { kind := 4, sram := 0, index := i } else { kind := 5, sram := 0, index := i - 34 }
      | 4 => { kind := 6, sram := 0, index := i }
      | _ => { kind := 7, sram := i, index := 0 }
    if s.live && s.idleWindow then
      let (w, s1) := s.takeFree
      let bad := bitAt w 0
      (s1.slice u bad).setTdr 3 (tdrPut (tdrPut (tdrPut tdr 14 1 0) 15 1 (b2n (!bad))) 16 1 (b2n bad))
    else s.setTdr 3 (tdrPut (tdrPut (tdrPut tdr 14 1 0) 15 1 0) 16 1 1)) s)

/-- FUSE: factory words 0 to 63, field fuse words 64 to 67 of 64 bits. -/
def execFuse (tdr : Nat) (s : State) : Host.Outcome State Fault Refusal :=
  .next (instrument 4 tdr (fun s =>
    let w := tdrBits tdr 1 7
    let v := if w < 64 then (Config.factoryFuse w).toNat
      else if w < 68 then (join64 (s.rep.field.getD (2 * (w - 64)) 0) (s.rep.field.getD (2 * (w - 64) + 1) 0)).toNat
      else 0
    s.setTdr 4 (tdrPut (tdrPut tdr 8 64 v) 72 1 0)) s)

/-- THERM: Capture-DR samples the eight raw readings and the detectors that have tripped since the previous capture. -/
def execTherm (raw : List Nat) (s : State) : Host.Outcome State Fault Refusal :=
  .next (if s.pwr.clkFail ∨ s.pwr.cur ≤ 1 then s
    else
      let t := (List.range 8).foldl (fun a i => a + putBits (raw.getD i 0 % 4096) (12 * i)) 0
      let d := (List.range 16).foldl (fun a i => a + (if s.pwr.droopHit.contains i then putBits 1 (96 + i) else 0)) 0
      ({ s with pwr := { s.pwr with droopHit := [] } }).setTdr 5 (t + d))

/-- TRACE: reads the trace buffer without moving JG_DBG_TRIDX. -/
def execTrace (tdr : Nat) (s : State) : Host.Outcome State Fault Refusal :=
  .next (instrument 6 tdr (fun s => s.setTdr 6 (tdrPut (tdrPut tdr 17 32 (s.traceWord (tdrBits tdr 1 16)).toNat) 49 1 0)) s)

end Sys2Proof.Machine
end

