-- ==== Sys2Proof/Machine/Dump.lean ====
section
/-! DEFINITION. Windfall captures: their sections and end, and the DUMP commands (R402 to R405, R375). -/

namespace Sys2Proof.Machine

/-! ## Sections (Table 19.4) -/

/-- Sizes of the ten sections in bytes, by STYPE. -/
def secSize (t : Nat) : Nat :=
  [0, 0x40000, 0x1000, 0x20000, 0x10000, 0x40000, 0x100000, 0x200000, 0x800000, 0x2000000, 0x800000].getD t 0

/-- FLOG: 256 entries, oldest first. -/
def State.flogWords (s : State) : List Word :=
  let ws := s.faults.log.reverse.flatMap (fun e => e.words)
  ws ++ List.replicate (1024 - ws.length) 0

/-- Stage of Table 1.2 that a row of a punnet in flight has reached. -/
def stageOf (p : Punnet) (r : PRow) : Nat := if r.exited then 8 else if p.passes.all (fun x => x.tiles.isEmpty) then 6 else if p.started then 4 else 3

/-- FLIGHT: one 32-byte entry per row slot of every punnet in flight (the order of its fields is the model's, DESIGN CHOICE, log 30). -/
def State.flightWords (s : State) : List Word :=
  let es := s.puns.flatMap (fun p => p.rows.flatMap (fun r =>
    let due := ((s.rows.find? (fun x => x.key = r.key)).map (fun x => x.due)).getD 0
    [w32 (handleNat r.key.handle + putBits (r.key.cls % 8) 24), w32 (r.key.pos % 2 ^ 24 + putBits (r.key.gidx % 32) 24),
     w32 (p.num % 65536 + putBits (stageOf p r) 16 + putBits (r.slot % 256) 24), w32 due, w32 (due / 2 ^ 32), 0, 0, 0]))
  (es ++ List.replicate (0x8000 - es.length) 0).take 0x8000

/-- ORCH: per port and channel (the order of its fields is the model's, DESIGN CHOICE, log 30). -/
def State.orchWords (s : State) : List Word :=
  let ws := (List.range 5).flatMap (fun p =>
    let l := s.orch.link p
    (List.range 5).flatMap (fun vc =>
      [w32 (min (l.occupancy vc) 65535 + putBits (Tab.get l.credits vc 0 % 65536) 16)]
        ++ (match (l.queue vc).head? with
          | some m => (hdrWords m).take 4
          | none => [0, 0, 0, 0])
        ++ [w32 (l.nextSeq % 4096 + putBits (l.lastAcc % 4096) 16), w32 l.replay.length, w32 l.st]))
  ws ++ List.replicate (0x4000 - ws.length) 0

/-- The slot table, then the segment directory. -/
def State.slotTable (s : State) : List Word := (List.range 65536).flatMap (fun n => slotWords (s.slot n))
def State.segTable (s : State) : List Word := (List.range 65536).flatMap (fun n => segWords (Tab.get s.counts n CountPart.reset))

/-- The words of a section. Sections whose layout the spec does not state are free values; CAND reads as zeros while a row has not
exited certification (R128; DESIGN CHOICE, log 30). -/
def State.secWords (s : State) (t : Nat) : List Word :=
  match t with
  | 1 => s.windowWords 0 0x10000
  | 2 => s.flogWords
  | 3 => s.flightWords
  | 4 => s.orchWords
  | 5 => (List.range 65536).map s.traceWord
  | 6 => (List.range 0x40000).map Config.kdataWord
  | 7 => s.slotTable ++ s.segTable
  | 8 => (List.range 0x200000).map (fun i => if s.puns.isEmpty then lo32 (Config.sramWord 8200 i) else 0)
  | 9 => (List.range 0x800000).map (fun i => lo32 (Config.sramWord 8201 i))
  | _ => (List.range 0x200000).map (fun i => lo32 (Config.sramWord 8202 i))

/-- The sections written from an offset: words, directory, end, and whether one was cut. -/
def State.sections (s : State) (size : Nat) : Nat → Nat → List Word × List Word × Nat × Bool
  | 0, off => ([], [], off, false)
  | n + 1, off =>
    let t := 10 - n
    if size ≤ off then
      let (ws, dir, e, _) := s.sections size n off
      (ws, [w32 t, 0, 0, 0] ++ dir, e, true)
    else
      let len := min (secSize t) (size - off)
      let cut := decide (len < secSize t)
      let body := (s.secWords t).take (len / 4)
      let (ws, dir, e, c) := s.sections size n (off + len)
      (body ++ ws, [w32 (t + putBits 1 8 + putBits (b2n cut) 9), w32 off, w32 len, crcWords body] ++ dir, e, cut || c)

/-- A capture's end: its sections, then its header with the final STATUS and both CRCs; a second error response leaves STATUS 3
(R403 to R405). -/
def State.windEnd (s : State) (err : Bool) : State :=
  match s.wind.region with
  | none => s
  | some rg =>
    let k := addrKey rg.base
    let s1 : State :=
      if err then
        let s1 : State := { s with wind := { s.wind with status := 3, written := 4096, running := false, held := true } }
        s1.storeWords k (s1.windHeader rg.len 4096 3 0 [])
      else
        let (ws, dir, e, cut) := s.sections rg.len 10 4096
        let st := if cut then 2 else 1
        let s1 : State := { s with wind := { s.wind with status := st, written := e, running := false, held := true } }
        (s1.storeWords (k + 4096) ws).storeWords k (s1.windHeader rg.len e st (crcWords ws) dir)
    let s2 : State := s1.setCause cDump
    let s3 : State := { s2 with blk := .ready }
    if s2.blk = Blk.dump then s3.endJobs (fun j => decide (j.kind = JobKind.dumpTake)) (fun _ => Cpl.done 0 0) else s2

/-! ## DUMP commands -/

/-- DUMP.CONFIG (R405): an intact header that is not acknowledged is adopted; one with a reserved bit set is faulty (R8, R10). -/
def dumpConfigD : Desc :=
  { opcode := 0x0C00, legal := rdyRunDrn, scope := fun _ => .local_, accepts := false,
    bad := fun pk _ => firstBad [(!pk.clean [all32, all32, 0x7F], 0), (!addrOk true (pk.p64 0), 0x04),
      (decide (pk.fld 2 0 7 < 2 ∨ 64 < pk.fld 2 0 7), 0)],
    pre := fun _ _ s => if s.wind.held ∧ s.wind.acked = false then some (Cpl.of stWrongState 0) else none,
    lock := fun _ _ => some objDump,
    run := fun o pk s =>
      let k := addrKey (pk.p64 0)
      let w := fun i => s.mem.word (k + 4 * i)
      let st := bitsAt (w 2) 12 2
      let ok := decide (w 0 = 0x4C464457) && decide (w 15 = crcWords ((List.range 15).map w)) && decide (st ≠ 0) && !bitAt (w 2) 14
        && decide (bitsAt (w 2) 15 17 = 0 ∧ w 12 = 0 ∧ w 13 = 0)
      let base : Windfall := { Windfall.reset with region := some { base := pk.p64 0, len := 2 ^ 20 * pk.fld 2 0 7 } }
      let wind := if ok then
          { base with held := true, manual := bitAt (w 2) 11, cause := bitsAt (w 2) 0 8, prior := bitsAt (w 2) 8 3, status := st,
                      written := (w 9).toNat, skipped := bitsAt (w 11) 0 16, trig := (join64 (w 6) (w 7)).toNat }
        else base
      ({ s with wind := wind }).finish o (Cpl.done 0 0) }

/-- DUMP.STATUS. -/
def dumpStatusD : Desc :=
  { opcode := 0x0C01, legal := allStates, scope := fun _ => .local_, accepts := false,
    bad := noBad [], pre := noPre, lock := noLock,
    run := fun o _ s =>
      let w := s.wind
      s.finish o (Cpl.done (w32 (b2n w.held + putBits (b2n w.running) 1 + putBits (w.cause % 256) 8))
        (if w.held || w.running then ceilDiv w.written 4096 else 0)) }

/-- DUMP.TAKE (R388, R402) (DESIGN CHOICE, log 111). -/
def dumpTakeD : Desc :=
  { opcode := 0x0C02, legal := [.ready], scope := fun _ => .local_, accepts := false,
    bad := noBad [],
    pre := fun _ _ s => if s.wind.region.isNone then some (Cpl.of stBadParam 0x05) else none,
    lock := fun _ _ => some objDump,
    run := fun o pk s =>
      if s.wind.held ∧ s.wind.acked = false then (s.windStart true 0 (blkCode s.blk)).finish o (Cpl.done 0 0)
      else
        (({ s with blk := .dump }).windStart true 0 (blkCode s.blk)).addJob
          { origin := o, opcode := pk.opcode, kind := .dumpTake, lock := some objDump } }

/-- DUMP.ACK (R405). -/
def dumpAckD : Desc :=
  { opcode := 0x0C03, legal := [.ready, .safe], scope := fun _ => .local_, accepts := false,
    bad := noBad [],
    pre := fun _ _ s => if s.wind.running ∨ s.wind.held = false then some (Cpl.of stWrongState 0) else none,
    lock := noLock,
    run := fun o _ s =>
      let s1 := { s with wind := { s.wind with acked := true } }
      let s2 := match s.wind.region with
        | none => s1
        | some rg =>
          let k := addrKey rg.base
          let w := fun i => s.mem.word (k + 4 * i)
          let a := (List.range 15).map (fun i => if i = 2 then w 2 ||| 0x4000 else w i)
          s1.storeWords k (a ++ [crcWords a])
      s2.finish o (Cpl.done 0 0) }

/-! ## Meanings -/

def execDumpConfig (pk : Pkt) (s : State) : Host.Outcome State Fault Refusal := .next (takePacket dumpConfigD pk s)
def execDumpStatus (pk : Pkt) (s : State) : Host.Outcome State Fault Refusal := .next (takePacket dumpStatusD pk s)
def execDumpTake (pk : Pkt) (s : State) : Host.Outcome State Fault Refusal := .next (takePacket dumpTakeD pk s)
def execDumpAck (pk : Pkt) (s : State) : Host.Outcome State Fault Refusal := .next (takePacket dumpAckD pk s)

/-- WINDFALL_DONE (R403). -/
def execWindfallDone (err : Bool) (s : State) : Host.Outcome State Fault Refusal :=
  .next (if s.live && s.wind.running then s.windEnd err else s)

/-- SAFE_ENTRY: a fatal fault with its cause (R399). -/
def execSafeEntry (cause : Nat) (s : State) : Host.Outcome State Fault Refusal :=
  .next (if s.live then s.fatal (cause % 256) Site.none else s)

/-- WATCHDOG_EXPIRY (Table 19.1, 0x40): a fatal fault; SAFE runs no firmware. -/
def execWatchdogExpiry (s : State) : Host.Outcome State Fault Refusal :=
  .next (if s.live && decide (s.blk ≠ .boot ∧ s.blk ≠ .safe) then
      (if (s.armed 0x0F).isSome then (s.fire 0x0F).fatal 0x40 { Site.none with inj := true } else s.fatal 0x40 Site.none)
    else s)

/-- TRANSFER_TIMEOUT (Table 19.1, 0x47). -/
def execTransferTimeout (s : State) : Host.Outcome State Fault Refusal :=
  .next (if s.live then s.fatal 0x47 Site.none else s)

end Sys2Proof.Machine
end

