-- ==== Sys2Proof/Machine/Profiles.lean ====
section
/-! DEFINITION. Profile records, the merge of overlays, and the PROF commands (R131, R209, R223 to R229, R364). -/

namespace Sys2Proof.Machine

/-- The fields of a profile record (Table 11.1). -/
def profOf (ws : List Word) : Profile :=
  let w := fun i => ws.getD i 0
  { temp := w 0, topp := w 1, minp := w 2, softcap := w 3, reppen := w 4, prespen := w 5, freqpen := w 6, anchorc := w 7,
    topk := bitsAt (w 8) 0 13, cand1 := bitsAt (w 8) 13 13, ntop := bitsAt (w 8) 26 5, biasset := bitsAt (w 9) 0 8,
    ngram := bitsAt (w 9) 8 3, penprompt := bitsAt (w 9) 11 1, anchorsel := bitsAt (w 9) 12 1, lpsel := bitsAt (w 9) 13 1,
    refpass := bitsAt (w 9) 14 1, valueh := bitsAt (w 9) 15 1, rewardh := bitsAt (w 9) 16 1, certpol := bitsAt (w 9) 17 1,
    latepath := bitsAt (w 9) 18 1, dlctl := bitsAt (w 9) 19 1, masksel0 := bitsAt (w 10) 0 16, masksel1 := bitsAt (w 10) 16 16,
    masksel2 := bitsAt (w 11) 0 16, masksel3 := bitsAt (w 11) 16 16, rscap := bitsAt (w 12) 0 7, rsbatch := bitsAt (w 12) 7 4,
    certmargin := bitsAt (w 12) 11 12, lptol := BitVec.ofNat 16 (bitsAt (w 13) 0 16), tbtmargin := bitsAt (w 13) 16 16,
    dlinit := bitsAt (w 14) 0 5, dlmin := bitsAt (w 14) 5 5, dlmax := bitsAt (w 14) 10 5, alo := BitVec.ofNat 16 (bitsAt (w 15) 0 16),
    ahi := BitVec.ofNat 16 (bitsAt (w 15) 16 16), ttftgoal := bitsAt (w 16) 0 24, tbtgoal := bitsAt (w 17) 0 24 }

/-- A profile record's words, PCRC included. -/
def profWords (p : Profile) (present : W64) : List Word :=
  let a := [p.temp, p.topp, p.minp, p.softcap, p.reppen, p.prespen, p.freqpen, p.anchorc,
    w32 (p.topk + putBits p.cand1 13 + putBits p.ntop 26),
    w32 (p.biasset + putBits p.ngram 8 + putBits p.penprompt 11 + putBits p.anchorsel 12 + putBits p.lpsel 13 + putBits p.refpass 14
      + putBits p.valueh 15 + putBits p.rewardh 16 + putBits p.certpol 17 + putBits p.latepath 18 + putBits p.dlctl 19),
    w32 (p.masksel0 + putBits p.masksel1 16), w32 (p.masksel2 + putBits p.masksel3 16),
    w32 (p.rscap + putBits p.rsbatch 7 + putBits p.certmargin 11), w32 (p.lptol.toNat + putBits p.tbtmargin 16),
    w32 (p.dlinit + putBits p.dlmin 5 + putBits p.dlmax 10), w32 (p.alo.toNat + putBits p.ahi.toNat 16),
    w32 p.ttftgoal, w32 p.tbtgoal] ++ List.replicate 10 0 ++ [lo32 present, hi32 present, 0]
  a ++ [crcWords a]

/-- Reserved bits of a record are zero: mask of reserved bits per word. -/
def profClean (ws : List Word) : Bool :=
  let m : List Nat := [0, 0, 0, 0, 0, 0, 0, 0, 0x80000000, 0xFFF00000, 0, 0, 0xFF800000, 0, 0xFFFF8000, 0, 0xFF000000, 0xFF000000]
    ++ List.replicate 10 all32 ++ [0, 0xFFFFFFC0, all32]
  (List.range 31).all (fun i => decide ((ws.getD i 0).toNat &&& m.getD i 0 = 0))

/-- A value lies between two others, all FP32. -/
def inR (lo hi x : F32) : Bool := fle lo x && fle x hi

/-- A MASKSEL value. -/
def maskselOk (n : Nat) : Bool := decide (n ≤ 255 ∨ n = 0xFFFF)

/-- An FP16 value from 0 to 1. -/
def f16Unit (h : F16) : Bool := inR 0 f32One (ofF16 h)

/-- Every field is within its stated range (Tables 5.3, 6.2, 9.4, 11.1; R224). -/
def Profile.ok (p : Profile) : Bool :=
  (isZero p.temp || inR 0x3B800000 0x43800000 p.temp)
  && (flt 0 p.topp && fle p.topp f32One) && inR 0 f32One p.minp
  && (isZero p.softcap || inR f32One 0x49800000 p.softcap)
  && inR 0x3D800000 0x41800000 p.reppen && fle (fabs p.prespen) 0x44800000 && fle (fabs p.freqpen) 0x44800000
  && (isFin p.anchorc && fle (fabs p.anchorc) 0x49800000)
  && decide (p.topk ≤ 4096 ∧ 16 ≤ p.cand1 ∧ p.cand1 ≤ 4096 ∧ p.ntop ≤ 20 ∧ (p.biasset < 64 ∨ p.biasset = 0xFF) ∧ p.ngram ≤ 4)
  && maskselOk p.masksel0 && maskselOk p.masksel1 && maskselOk p.masksel2 && maskselOk p.masksel3
  && decide (1 ≤ p.rscap ∧ p.rscap ≤ 64 ∧ 1 ≤ p.rsbatch ∧ p.rsbatch ≤ 8 ∧ 16 ≤ p.certmargin)
  && (fle 0 (ofF16 p.lptol))
  && decide (1 ≤ p.dlinit ∧ p.dlinit ≤ 16 ∧ 1 ≤ p.dlmin ∧ p.dlmin ≤ 16 ∧ 1 ≤ p.dlmax ∧ p.dlmax ≤ 16)
  && f16Unit p.alo && f16Unit p.ahi

/-- The cross-field rules of request-scope fields (R209, R227). -/
def Profile.crossOk (p : Profile) : Bool := decide (p.dlmin ≤ p.dlinit ∧ p.dlinit ≤ p.dlmax) && flt (ofF16 p.alo) (ofF16 p.ahi)

/-- One overlay's present fields replace those below (R225, R226). -/
def Profile.over (p q : Profile) (pr : W64) : Profile :=
  let b := fun n => bitAt pr n
  { temp := if b 0 then q.temp else p.temp, topp := if b 1 then q.topp else p.topp, minp := if b 2 then q.minp else p.minp,
    softcap := if b 3 then q.softcap else p.softcap, reppen := if b 4 then q.reppen else p.reppen,
    prespen := if b 5 then q.prespen else p.prespen, freqpen := if b 6 then q.freqpen else p.freqpen,
    anchorc := if b 7 then q.anchorc else p.anchorc, topk := if b 8 then q.topk else p.topk, cand1 := if b 9 then q.cand1 else p.cand1,
    ntop := if b 10 then q.ntop else p.ntop, biasset := if b 11 then q.biasset else p.biasset, ngram := if b 12 then q.ngram else p.ngram,
    penprompt := if b 13 then q.penprompt else p.penprompt, anchorsel := if b 14 then q.anchorsel else p.anchorsel,
    lpsel := if b 15 then q.lpsel else p.lpsel, refpass := if b 16 then q.refpass else p.refpass,
    valueh := if b 17 then q.valueh else p.valueh, rewardh := if b 18 then q.rewardh else p.rewardh,
    certpol := if b 19 then q.certpol else p.certpol, latepath := if b 20 then q.latepath else p.latepath,
    dlctl := if b 21 then q.dlctl else p.dlctl, masksel0 := if b 22 then q.masksel0 else p.masksel0,
    masksel1 := if b 23 then q.masksel1 else p.masksel1, masksel2 := if b 24 then q.masksel2 else p.masksel2,
    masksel3 := if b 25 then q.masksel3 else p.masksel3, rscap := if b 26 then q.rscap else p.rscap,
    rsbatch := if b 27 then q.rsbatch else p.rsbatch, certmargin := if b 28 then q.certmargin else p.certmargin,
    lptol := if b 29 then q.lptol else p.lptol, tbtmargin := if b 30 then q.tbtmargin else p.tbtmargin,
    dlinit := if b 31 then q.dlinit else p.dlinit, dlmin := if b 32 then q.dlmin else p.dlmin, dlmax := if b 33 then q.dlmax else p.dlmax,
    alo := if b 34 then q.alo else p.alo, ahi := if b 35 then q.ahi else p.ahi, ttftgoal := if b 36 then q.ttftgoal else p.ttftgoal,
    tbtgoal := if b 37 then q.tbtgoal else p.tbtgoal }

/-- The records of a generation that a mask uses: record 0 and the overlays it selects. -/
def usedRecs (mask : Nat) : List Nat := 0 :: (span 1 15).filter (fun i => mask.testBit (i - 1))

/-- The merge of R226. -/
def mergeProf (recs : Tab ProfRec) (mask : Nat) : Profile :=
  (span 1 15).foldl (fun p i =>
    if mask.testBit (i - 1) then p.over (Tab.get recs i ProfRec.dflt).p (Tab.get recs i ProfRec.dflt).present else p)
    (Tab.get recs 0 ProfRec.dflt).p

/-- Key of a profile record in the profile region: 4 KiB per object, the even generations of 16 records of 128 bytes before the odd ones
(Table 17.7; the places within the region are the model's, DESIGN CHOICE, log 23). -/
def State.profKey (s : State) (n g rec_ : Nat) : Option Nat :=
  (Tab.find? s.conf.regions 2).map (fun r => addrKey r.base + 4096 * n + 2048 * (g % 2) + 128 * rec_)

/-- A record of a generation reads from the region with a correct PCRC (R224). -/
def State.profRecOk (s : State) (n g i : Nat) : Bool :=
  match s.profKey n g i with
  | some k => !s.mem.bad k 128 && decide ((s.mem.words k 32).getD 31 0 = crcWords ((s.mem.words k 32).take 31))
  | none => true

/-- Every record that the merge reads has a correct PCRC (R224). -/
def State.profReadOk (s : State) (n g mask : Nat) : Bool := (usedRecs mask).all (fun i => s.profRecOk n g i)

/-- The words of the 16 records of a generation. -/
def genWords (recs : Tab ProfRec) : List Word :=
  (List.range 16).flatMap (fun i => profWords (Tab.get recs i ProfRec.dflt).p (Tab.get recs i ProfRec.dflt).present)

/-- A generation written to its place in the region. -/
def State.storeGen (s : State) (n g : Nat) (recs : Tab ProfRec) : State :=
  match s.profKey n g 0 with
  | some k => s.storeWords k (genWords recs)
  | none => s

/-- The profile region is named: every object is at generation 0, with the defaults in record 0 and empty overlays (R223). -/
def State.nameProfs (s : State) : State :=
  let kept := s.conf.swaps.filter (fun e => decide (e.2.1 < swapProf 0 ∨ swapPhase ≤ e.2.1))
  let s1 : State := { s with conf := { s.conf with profs := [], swaps := kept } }
  match s1.profKey 0 0 0 with
  | some k => let g := wordsBytes (genWords []); s1.store k ((List.range 2048).flatMap (fun _ => g))
  | none => s1

/-- PROF.WRITE (R224, R225, R227, R229, R364). -/
def profWriteD : Desc :=
  { opcode := 0x0300, legal := rdyRunDrn, scope := fun _ => .group, accepts := false,
    bad := fun pk _ => firstBad [(!pk.clean [0x3FFF, all32, all32], 0), (!addrOk false (pk.p64 1), 0x04)],
    pre := fun _ pk s =>
      let n := pk.fld 0 0 10
      let o := s.prof n
      match o.former with
      | some f => if o.stby.isNone && decide (0 < s.profPins n f.1) then some (Cpl.of stBusyRetry 0) else none
      | none => none,
    lock := fun pk _ => some (objProf (pk.fld 0 0 10)),
    run := fun o pk s =>
      let n := pk.fld 0 0 10
      let r := pk.fld 0 10 4
      let k := addrKey (pk.p64 1)
      let ws := s.mem.words k 32
      let p := profOf ws
      let pr := join64 (ws.getD 28 0) (ws.getD 29 0)
      match firstCpl [(s.mem.bad k 128, Cpl.of stFault 0x03),
          (decide (ws.getD 31 0 ≠ crcWords (ws.take 31)), badCrc),
          (!profClean ws || !p.ok || (decide (r = 0) && !p.crossOk), badImg)] with
      | some c => s.finish o c
      | none =>
        let ob := s.prof n
        let base := ob.stby.getD ob.recs
        let recs := Tab.set base r { p := p, present := pr }
        let s1 := (s.setProf n { ob with stby := some recs, former := none }).storeGen n (ob.gen + 1) recs
        (s1.tellMembers o pk).finish o (Cpl.done 0 0) }

/-- PROF.SWAP (R229, R364). -/
def profSwapD : Desc :=
  { opcode := 0x0301, legal := rdyRunDrn, scope := fun _ => .group, accepts := false,
    bad := noBad [0x3FF],
    pre := fun _ pk s => if (s.prof (pk.fld 0 0 10)).stby.isNone then some (Cpl.of stWrongState 0) else none,
    lock := fun pk _ => some (objProf (pk.fld 0 0 10)),
    run := fun o pk s =>
      let n := pk.fld 0 0 10
      let ob := s.prof n
      match ob.stby with
      | none => s
      | some recs =>
        let g := (ob.gen + 1) % 2 ^ 16
        let s1 := (s.setProf n { gen := g, recs := recs, stby := none, former := some (ob.gen, ob.recs) }).logSwap (swapProf n) g
        (s1.tellMembers o pk).finish o (Cpl.done 0 g) }

/-- PROF.READ. -/
def profReadD : Desc :=
  { opcode := 0x0302, legal := rdyRunDrn, scope := fun _ => .group, accepts := false,
    bad := fun pk _ => firstBad [(!pk.clean [0x7FFF, all32, all32], 0), (!addrOk false (pk.p64 1), 0x04)],
    pre := fun _ pk s => if bitAt (pk.p 0) 14 && (s.prof (pk.fld 0 0 10)).stby.isNone then some (Cpl.of stWrongState 0) else none,
    lock := noLock,
    run := fun o pk s =>
      let ob := s.prof (pk.fld 0 0 10)
      let stby := bitAt (pk.p 0) 14
      let r := Tab.get (if stby then ob.stby.getD [] else ob.recs) (pk.fld 0 10 4) ProfRec.dflt
      (s.storeWords (addrKey (pk.p64 1)) (profWords r.p r.present)).finish o
        (Cpl.done 0 (if stby then (ob.gen + 1) % 2 ^ 16 else ob.gen)) }

/-! ## Meanings -/

def execProfWrite (pk : Pkt) (s : State) : Host.Outcome State Fault Refusal := .next (takePacket profWriteD pk s)
def execProfSwap (pk : Pkt) (s : State) : Host.Outcome State Fault Refusal := .next (takePacket profSwapD pk s)
def execProfRead (pk : Pkt) (s : State) : Host.Outcome State Fault Refusal := .next (takePacket profReadD pk s)

end Sys2Proof.Machine
end

