-- ==== Sys2Proof/Machine/Func.lean ====
section
/-! DEFINITION. Built-in functions of spec/03_number_formats.md (Table 3.7, R79 to R84): each is evaluated in fixed point with 640
fraction bits, far below the spacing of every format, and then rounded once. That no input lies within the evaluation's error of a
rounding boundary is not proved (DEDUCED, log 13). -/

namespace Sys2Proof.Machine

/-- Fraction bits of the fixed-point evaluation. -/
def fxP : Nat := 640

/-- One, in fixed point. -/
def fxOne : Int := ((1 <<< fxP : Nat) : Int)

/-- ln 2. -/
def fxLn2 : Int := 0xb17217f7d1cf79abc9e3b39803f2f6af40f343267298b62d8a0d175b8baafa2be7b876206debac98559552fb4afa1b10ed2eae35c138214427573b291169b8253e96ca16224ae8c51acbda11317c387e

/-- sqrt (2 / pi). -/
def fxSqrt2Pi : Int := 0xcc42299ea1b284687e59e2805d5c717fa7053e60a24e0db1808e369004c73a5d3bf158aa88fa7b6e47eba75766e9d11bd6284ef2e17c2a264f1d32688be119ff30505c3fb28f9c969d9b7adccb84672b

/-- 2 / sqrt pi. -/
def fx2SqrtPi : Int := 0x120dd750429b6d11ae3a914fed7fd8688281341d7587cea2e7342b06199cc416180eb39f0b24e1e2281806c12d98f35d77a3e9ddc91c394f0e9eedf0efffd84a2a4ac3b98489b8cbd3845e8fef6ff6af9

/-- Floor shift of an Int. -/
def fxShr (a : Int) (n : Nat) : Int := a >>> n

/-- Product. -/
def fxMul (a b : Int) : Int := fxShr (a * b) fxP

/-- Quotient, floored. -/
def fxDiv (a b : Int) : Int := (a * fxOne) / b

/-- A dyadic value in fixed point (exact when its last bit is at or above 2^-640). -/
def fxOf (a : Dy) : Int :=
  let e := a.e + (fxP : Int)
  if 0 ≤ e then a.m * pow2 e else fxShr a.m (-e).toNat

/-- A fixed-point value as a dyadic value. -/
def fxDy (a : Int) : Dy := { m := a, e := -(fxP : Int) }

/-- Sum of x^k / k! from a term on. -/
def expSeries (x : Int) : Nat → Nat → Int → Int → Int
  | 0, _, _, s => s
  | n + 1, k, t, s =>
    let t' := fxMul t x / (k : Int)
    expSeries x n (k + 1) t' (s + t')

/-- n squarings. -/
def fxSquares : Nat → Int → Int
  | 0, a => a
  | n + 1, a => fxSquares n (fxMul a a)

/-- e^x: x = k ln 2 + r, e^r by its series on r / 256 and eight squarings, and the exponent k. -/
def fxExpParts (x : Int) : Int × Int :=
  let k := x / fxLn2
  let r := x - k * fxLn2
  let r8 := fxShr r 8
  let m := fxSquares 8 (expSeries r8 64 1 fxOne fxOne)
  (k, m)

/-- e^x as a dyadic value. -/
def expDy (x : Int) : Dy :=
  let (k, m) := fxExpParts x
  { m := m, e := k - (fxP : Int) }

/-- e^x in fixed point. -/
def fxExp (x : Int) : Int := fxOf (expDy x)

/-- Sum of z^(2k+1) / (2k+1) from a term on; z2 = z^2. -/
def atanhSeries (z2 : Int) : Nat → Nat → Int → Int → Int
  | 0, _, _, s => s
  | n + 1, k, t, s =>
    let t' := fxMul t z2
    atanhSeries z2 n (k + 2) t' (s + t' / (k : Int))

/-- ln m for m in [1, 2). -/
def fxLnMant (m : Int) : Int :=
  let z := fxDiv (m - fxOne) (m + fxOne)
  2 * atanhSeries (fxMul z z) 210 3 z z

/-- ln of a positive dyadic value. -/
def fxLn (a : Dy) : Int :=
  let k : Int := (a.m.natAbs.log2 : Int)
  fxLnMant (fxOf { m := a.m, e := -k }) + (k + a.e) * fxLn2

/-- Sum of (-t)^k / (k! (2k+1)) from a term on. -/
def erfSeries (t : Int) : Nat → Nat → Int → Int → Int
  | 0, _, _, s => s
  | n + 1, k, p, s =>
    let p' := -(fxMul p t) / (k : Int)
    erfSeries t n (k + 1) p' (s + p' / (2 * (k : Int) + 1))

/-- erf of a dyadic value below 4 in magnitude. -/
def fxErf (x : Dy) : Int := fxMul (fxMul fx2SqrtPi (fxOf x)) (erfSeries (fxOf (Dy.mul x x)) 500 1 fxOne fxOne)

/-- erf (x / sqrt 2) of a dyadic value below 16 in magnitude: x^2 / 2 is exact. -/
def fxErfHalf (x : Dy) : Int :=
  let t := Dy.mul x x
  fxMul (fxMul fxSqrt2Pi (fxOf x)) (erfSeries (fxOf { m := t.m, e := t.e - 1 }) 900 1 fxOne fxOne)

/-- The special values that every format shares: NaN of a format. -/
def encNanOf (f : Fmt) : Nat := f.inf * 2 ^ (f.p - 1) + 2 ^ (f.p - 2)

/-- Infinity of a format. -/
def encInfOf (f : Fmt) (neg : Bool) : Nat := f.inf * 2 ^ (f.p - 1) + (if neg then 2 ^ (f.width - 1) else 0)

/-- A zero of a format. -/
def encZeroOf (f : Fmt) (neg : Bool) : Nat := if neg then 2 ^ (f.width - 1) else 0

/-- An integer test of a dyadic value. -/
def Dy.isInt (a : Dy) : Bool := decide (0 ≤ a.e) || decide (a.m % (pow2 (-a.e) : Int) = 0)

/-- The integer part toward minus infinity. -/
def Dy.floor (a : Dy) : Int := if 0 ≤ a.e then a.m * pow2 a.e else a.m / (pow2 (-a.e) : Int)

/-- exp2 in a format (Table 3.7, Table 3.10). -/
def exp2At (f : Fmt) (b : Nat) : Nat :=
  if encNan f b then encNanOf f
  else if encInf f b then (if encNeg f b then 0 else encInfOf f false)
  else
    let x := encVal f b
    if Dy.le (Dy.ofInt 128) x then encInfOf f false
    else if Dy.le x (Dy.ofInt (-150)) then 0
    else if x.isInt then Dy.round f .rne false { m := 1, e := x.floor }
    else
      let n := x.floor
      let fr := Dy.sub x (Dy.ofInt n)
      let m := fxSquares 8 (expSeries (fxShr (fxMul (fxOf fr) fxLn2) 8) 64 1 fxOne fxOne)
      Dy.round f .rne false { m := m, e := n - (fxP : Int) }

/-- log2 in a format (Table 3.7, Table 3.10). -/
def log2At (f : Fmt) (b : Nat) : Nat :=
  if encNan f b then encNanOf f
  else if encMag f b = 0 then encInfOf f true
  else if encNeg f b then encNanOf f
  else if encInf f b then encInfOf f false
  else
    let x := encVal f b
    let k : Int := (x.m.natAbs.log2 : Int)
    let m : Dy := { m := x.m, e := -k }
    if m.m = pow2 k then Dy.round f .rne false (Dy.ofInt (k + x.e))
    else Dy.round f .rne false (fxDy (fxDiv (fxLnMant (fxOf m)) fxLn2 + (k + x.e) * fxOne))

/-- tanh of a positive fixed-point value. -/
def fxTanh (x : Int) : Int :=
  let e := fxExp (-(2 * x))
  fxDiv (fxOne - e) (fxOne + e)

/-- tanh in a format: on |x|, with the sign of x (R80). -/
def tanhAt (f : Fmt) (b : Nat) : Nat :=
  let s := encNeg f b
  if encNan f b then encNanOf f
  else if encMag f b = 0 then b
  else
    let x := Dy.abs (encVal f b)
    let one := Dy.round f .rne false (Dy.ofInt 1)
    (if encInf f b || Dy.le (Dy.ofInt 32) x then one else Dy.round f .rne false (fxDy (fxTanh (fxOf x))))
      + encZeroOf f s

/-- erf in a format: on |x|, with the sign of x (R80). -/
def erfAt (f : Fmt) (b : Nat) : Nat :=
  let s := encNeg f b
  if encNan f b then encNanOf f
  else if encMag f b = 0 then b
  else
    let x := Dy.abs (encVal f b)
    let one := Dy.round f .rne false (Dy.ofInt 1)
    (if encInf f b || Dy.le (Dy.ofInt 5) x then one else Dy.round f .rne false (fxDy (fxErf x))) + encZeroOf f s

/-- The argument of GELU-tanh's tanh, sqrt (2 / pi) (x + 0.044715 x^3). -/
def fxGeluArg (x : Dy) : Int :=
  let c := fxOf (Dy.mul x (Dy.mul x x)) * 44715 / 1000000
  fxMul fxSqrt2Pi (fxOf x + c)

/-- A GELU form in a format, by its fixed-point value on |x| < 16 (R80, R81). -/
def geluAt (g : Dy → Int) (f : Fmt) (b : Nat) : Nat :=
  let s := encNeg f b
  if encNan f b then encNanOf f
  else if encMag f b = 0 then b
  else if encInf f b then (if s then encZeroOf f true else b)
  else
    let x := encVal f b
    if Dy.le (Dy.ofInt 16) (Dy.abs x) then (if s then encZeroOf f true else b)
    else Dy.round f .rne s (fxDy (g x))

/-- 0.5 x (1 + erf (x / sqrt 2)). -/
def fxGeluErf (x : Dy) : Int := fxShr (fxMul (fxOf x) (fxOne + fxErfHalf x)) 1

/-- 0.5 x (1 + tanh y) = x / (1 + e^(-2y)). -/
def fxGeluTanh (x : Dy) : Int := fxDiv (fxOf x) (fxOne + fxExp (-(2 * fxGeluArg x)))

/-- GELU-erf in a format. -/
def geluErfAt (f : Fmt) (b : Nat) : Nat := geluAt fxGeluErf f b

/-- GELU-tanh in a format. -/
def geluTanhAt (f : Fmt) (b : Nat) : Nat := geluAt fxGeluTanh f b

def exp2 (x : F32) : F32 := BitVec.ofNat 32 (exp2At fmt32 x.toNat)
def log2 (x : F32) : F32 := BitVec.ofNat 32 (log2At fmt32 x.toNat)
def tanh (x : F32) : F32 := BitVec.ofNat 32 (tanhAt fmt32 x.toNat)
def geluErf (x : F32) : F32 := BitVec.ofNat 32 (geluErfAt fmt32 x.toNat)
def geluTanh (x : F32) : F32 := BitVec.ofNat 32 (geluTanhAt fmt32 x.toNat)

/-- GUMBEL(k) = -ln (-ln ((2k + 1) 2^-25)), exactly rounded (R82). -/
def gumbel (k : Nat) : F32 :=
  let l := fxLn { m := ((2 * k + 1 : Nat) : Int), e := -25 }
  ofDy (fxDy (-(fxLn (fxDy (-l)))))

/-- The nearest member of F (R74) to a positive dyadic value, in units of 2^-256; zero below 2^-256. -/
def toF (a : Dy) : Nat :=
  let n := a.m.natAbs * pow2 (a.e + 256)
  let d := pow2 (-(a.e + 256))
  if n < d then 0
  else
    let q := max (ilog n d - 23) 0
    roundUnits .rne false n d q * pow2 q

/-- EXPT(u) in units of 2^-256 (R74). Below -178 the term is flushed; an infinite u below is flushed as well. -/
def expt (u : F32) : Nat :=
  if isNan u then 0
  else if isInf u then 0
  else if flt u 0xC3320000 then 0
  else if isZero u then 1 <<< 256
  else toF (expDy (fxOf (val u)))

/-- The entropy term v = u * t, rounded to F (R75), in units of 2^-256. -/
def entTerm (u : F32) (t : Nat) : Int :=
  let p := Dy.mul (val u) { m := (t : Int), e := -256 }
  if p.m < 0 then -(toF (Dy.abs p) : Int) else (toF p : Int)

end Sys2Proof.Machine
end

