-- ==== Sys2Proof/Machine/ExactSum.lean ====
section
/-! DEFINITION. Order-invariant sums and the statistics derived from them (R72 to R78). -/

namespace Sys2Proof.Machine

/-- ln 2 and log2 e in FP32 (R76). -/
def ln2F : F32 := 0x3F317218
def log2eF : F32 := 0x3FB8AA3B

/-- The signed value of an accumulator in units of 2^-256 (R72). -/
def accInt (a : Acc) : Int := a.toInt

/-- An integer of units as an accumulator, modulo 2^320 (R72). -/
def accOf (n : Int) : Acc := BitVec.ofInt 320 n

/-- An accumulator's exact value. -/
def accVal (a : Acc) : Dy := { m := accInt a, e := -256 }

/-- The terms t and v of a score against an anchor (R74, R75); masked scores contribute nothing.
With u > 20 no term is formed: the sum is discarded whole (R77). -/
def sumTerms (x c : F32) : Acc × Acc :=
  if isInf x && isNeg x then (0, 0)
  else if flt 0x41A00000 (fsub x c) then (0, 0)
  else
    let u := fsub x c
    let t := expt u
    (accOf t, accOf (entTerm u t))

/-- An exact value rounded to 24 significant bits by RNE, with exponents unbounded. -/
def round24 (a : Dy) : Dy :=
  if a.m = 0 then a
  else
    let n := a.m.natAbs
    let k : Int := (n.log2 : Int) - 23
    let u : Int := roundUnits .rne false n 1 k
    { m := if a.m < 0 then -u else u, e := a.e + k }

/-- The FP32 quotient of two exact values. -/
def quotF (a b : Dy) : F32 :=
  if b.m = 0 then f32Nan
  else if a.m = 0 then 0
  else BitVec.ofNat 32 (roundBits fmt32 .rne (decide (a.m < 0) != decide (b.m < 0)) (a.m.natAbs * pow2 (a.e - b.e))
    (b.m.natAbs * pow2 (b.e - a.e)))

/-- Derived statistics of one sum (R76). -/
structure Derived where
  l   : F32
  lse : F32
  h   : F32
deriving DecidableEq, Repr

/-- The normaliser's logarithm L (R76). -/
def sumLog (s : Acc) : F32 :=
  let n := (accInt s).natAbs
  if n = 0 then f32NegInf
  else
    let k : Int := (n.log2 : Int) - 256
    let m := ofDy { m := (n : Int), e := -256 - k }
    let k' := if m = 0x40000000 then k + 1 else k
    let m' := if m = 0x40000000 then f32One else m
    fmul (fadd (ofInt k') (log2 m')) ln2F

/-- The statistics of R76 from S, E and the anchor; E is rounded, as S is, with the exponent range unbounded (DEDUCED, log 147). -/
def derive (s e : Acc) (c : F32) : Derived :=
  let l := sumLog s
  let h := if accInt s = 0 then 0 else fsub l (quotF (round24 (accVal e)) (round24 (accVal s)))
  { l := l, lse := fadd c l, h := h }

/-- The log-probability of a score (R76). -/
def lpOf (x c l : F32) : F32 := fsub (fsub x c) l

/-- The least integer not below x: the repeat pass's anchor C' (R77). -/
def ceilF (x : F32) : F32 := ofDy (Dy.ofInt (-(Dy.floor (Dy.neg (val x)))))

/-- The anchor of a sum (R73): the profile's own, or c / T under soft-cap, or 64. -/
def anchorOf (own : Bool) (anchor softcap t : F32) : F32 :=
  if own then anchor else if isZero softcap then 0x42800000 else fdiv softcap t

end Sys2Proof.Machine
end

