-- ==== Sys2Proof/Machine/Noise.lean ====
section
/-! DEFINITION. Pip keys, the mixer, Gumbel noise, and the requantiser's lane generators (spec/07_randomness.md). -/

namespace Sys2Proof.Machine

/-- Purpose codes (Table 7.2). -/
def purSample : Nat := 0
def purDraft : Nat := 1
def purAccept : Nat := 2
def purResidual : Nat := 3
def purLaneSeed : Nat := 14
def purKat : Nat := 15

/-- Left rotation of a word. -/
def rotl (x : Word) (n : Nat) : Word := x.rotateLeft n

/-- The working words of the mixer. -/
structure Mix where
  a : Word
  b : Word
  c : Word
  d : Word
deriving DecidableEq, Repr

/-- One round of the mixer (R158). -/
def mixRound (m : Mix) (p q : Nat) (rk : Word) : Mix :=
  let a := m.a + m.b
  let d := rotl (m.d ^^^ a) p
  let c := m.c + d
  let b := rotl (m.b ^^^ c) q
  { a := a + rk, b := b, c := c, d := d }

/-- The mixer: four key words to the word m (R158). -/
def mixer (w0 w1 w2 w3 : Word) : Word :=
  let m0 : Mix := { a := w2 ^^^ 0x6A3D1F47, b := w3 ^^^ 0xB514C28E, c := w0 ^^^ 0x3C97E05D, d := w1 ^^^ 0xD2F84B13 }
  let m1 := mixRound m0 13 7 (w0 + 1)
  let m2 := mixRound m1 19 11 (w1 + 2)
  let m3 := mixRound m2 5 23 ((w0 ^^^ w1) + 3)
  let m4 := mixRound m3 17 9 ((w0 + w1) + 4)
  (m4.a ^^^ m4.b) + (m4.c ^^^ m4.d)

/-- The mixer's word for a Pip key (R155, Table 7.1). -/
def pipWord (seed : W64) (pos purpose id : Nat) : Word :=
  mixer (lo32 seed) (hi32 seed) (BitVec.ofNat 32 (pos % 2 ^ 24 + (purpose % 16) * 2 ^ 24)) (BitVec.ofNat 32 (id % 2 ^ 21))

/-- The 24-bit uniform integer k of a Pip key (R158). -/
def pipK (seed : W64) (pos purpose id : Nat) : Nat := (pipWord seed pos purpose id).toNat / 256

/-- The uniform U(k), exact (R159). -/
def pipU (k : Nat) : Dy := { m := ((2 * k + 1 : Nat) : Int), e := -25 }

/-- The word of a mixer check vector: purpose 15, POS and ID the vector's number (R156, R167). The spec names no SEED for it: 0 (DESIGN
CHOICE, log 131). -/
def katWord (n : Nat) : Word := pipWord 0 n purKat n

/-- Gumbel noise of one entry (R159, R160). -/
def noise (seed : W64) (pos purpose id : Nat) : F32 := gumbel (pipK seed pos purpose id)

/-! ## Lane generators -/

/-- The RULE vector (R162). -/
def laneRule : BitVec 128 := 0x9A3C5E710D48B2F663E17C94A05B2D8F

/-- One step of the hybrid cellular automaton (R162). -/
def laneCells (c : BitVec 128) : BitVec 128 := (c <<< 1) ^^^ (c >>> 1) ^^^ (laneRule &&& c)

/-- A lane stepped, its bit pointer at 0. Its health is checked at every step: an all-zero state, or two equal output words in a row (R167). -/
def laneStep (l : Lane) : Lane :=
  let c := laneCells l.cells
  { cells := c, ptr := 0, fresh := false, sick := l.sick || decide (c = 0) || (!l.fresh && decide (bitsAt c 0 64 = bitsAt l.cells 0 64)) }

/-- A lane's seed state (R163). -/
def laneSeed (seed : W64) (pos : Nat) : Lane :=
  let w := fun j => (pipWord seed pos purLaneSeed j).toNat
  let c : Nat := w 0 + w 1 * 2 ^ 32 + w 2 * 2 ^ 64 + w 3 * 2 ^ 96
  { cells := BitVec.ofNat 128 (if c = 0 then 1 else c), ptr := 0, fresh := true, sick := false }

/-- A sick lane is replaced at a block boundary: its spare takes the current state; an all-zero state cannot be taken over, and the
spare is seeded under R163 (R166, R167, DESIGN CHOICE, log 130). `base`, `pos`: the effective base seed and the lane's own POS. -/
def Lane.replaced (l : Lane) (base : W64) (pos : Nat) : Lane := if l.cells = 0 then laneSeed base pos else { l with sick := false }

/-- All 64 logical lanes reseeded with a base position (R163, R166). -/
def lanesSeed (seed : W64) (base : Nat) : List Lane := (List.range 64).map (fun g => laneSeed seed (base + g))

/-- A draw of k bits (R164). -/
def laneDraw (k : Nat) (l : Lane) : Nat × Lane :=
  if k = 0 then (0, l)
  else
    let l' := if l.fresh || decide (64 < l.ptr + k) then laneStep l else l
    (bitsAt l'.cells l'.ptr k, { l' with ptr := l'.ptr + k })

/-- One block converted by SR (R62, R65, R165): elements in ascending index, each drawing for itself. -/
def srElems (f : WFmt) (s : Int) : List Dy → Lane → List Nat × Lane
  | [], l => ([], l)
  | x :: r, l =>
    let x' := x.scale s
    let (b, l1) := laneDraw (min 24 (f.srBits x')) l
    let (cs, l2) := srElems f s r l1
    (f.quantSr x' b :: cs, l2)

/-- A block of weights converted under SR; a block of zeros draws nothing. -/
def quantBlockSr (f : WFmt) (l : List Dy) (lane : Lane) : (Nat × List Nat) × Lane :=
  let a := maxMag l
  if a.m = 0 then ((0, l.map (fun _ => 0)), lane)
  else
    let s := f.scaleExp a
    let (cs, lane') := srElems f s l lane
    (((s + 127).toNat, cs), lane')

end Sys2Proof.Machine
end

