-- ==== Sys2Proof/Machine/Resets.lean ====
section
/-! DEFINITION. Cold, warm and quarantine resets, the check of the firmware image, and the boot sequence (R163, R352 to R354,
R383 to R388, R401, R416 to R418). -/

namespace Sys2Proof.Machine

/-! ## The fuse check (R416, R417) -/

/-- The fused bytes that FCRC covers. -/
def fuseBytes : List Byte := (List.range 508).map (fun i => BitVec.ofNat 8 (fuse (8 * i) 8))

/-- FCRC holds. -/
def fuseOk : Bool := decide (crc32c fuseBytes = w32 (fuse 4064 32))

/-- Entries that a fuse holds and whose CHK fails (R417): ignored and counted. -/
def badEntries (field : List Word) : Nat := ((repMap ++ field).filter (fun w => decide (w ≠ 0) && !entOk w)).length

/-! ## The firmware image (R352, R353) -/

/-- A 32-bit word of the image's header. -/
def fwWord (m : Memory) (k off : Nat) : Nat := (m.word (k + off)).toNat

/-- Check 1: MAGIC, FORMAT, ILEN, DLEN, ENTRY, and the reserved fields. -/
def fwHeaderOk (m : Memory) (k : Nat) : Bool :=
  let ilen := fwWord m k 0x10
  let dlen := fwWord m k 0x14
  decide (fwWord m k 0 = 0x4B524F56 ∧ fwWord m k 4 = 1 ∧ ilen % 64 = 0 ∧ 64 ≤ ilen ∧ ilen ≤ 524288 ∧ dlen % 64 = 0 ∧ dlen ≤ 1048576
    ∧ fwWord m k 0x18 < ilen ∧ fwWord m k 0x0C < 1024 ∧ fwWord m k 0x1C = 0)
  && (m.bytes (k + 0xE0) 32).all (fun x => decide (x = 0))

/-- Check 2: the key's digest is the fused hash of its slot, which is not revoked (DESIGN CHOICE, log 51). -/
def fwKeyOk (m : Memory) (k : Nat) : Bool :=
  let i := fwWord m k 0x0C / 256 % 4
  decide (sha384 (m.bytes (k + 0x20) 96) = (List.range 48).map (fun j => BitVec.ofNat 8 (fuse (128 + 384 * i + 8 * j) 8)))
  && decide (fuse (1664 + i) 1 = 0)

/-- Check 3: the security version. -/
def fwSvnOk (m : Memory) (k : Nat) : Bool := decide (fuse 1668 8 ≤ fwWord m k 0x0C % 256)

/-- Check 4: the signature over the header's first 0x80 bytes and the body. -/
def fwSigOk (m : Memory) (k : Nat) : Bool :=
  let n := fun (off : Nat) => leNat (m.bytes (k + off) 48)
  ecdsaOk (n 0x20) (n 0x50) (n 0x80) (n 0xB0)
    (sha384 (m.bytes k 0x80 ++ m.bytes (k + 0x100) (fwWord m k 0x10 + fwWord m k 0x14)))

/-- The outcome of boot step 5: 0 accepted, 1 to 4 the check of R353 that failed, 5 a fetch error (Table 21.7) (DESIGN CHOICE, log 50). -/
def fwCheck (m : Memory) (base : W64) : Nat :=
  let k := addrKey base
  if addrOk false base = false ∨ m.bad k 256 = true then 5
  else if fwHeaderOk m k = false then 1
  else if m.bad k (256 + fwWord m k 0x10 + fwWord m k 0x14) then 5
  else if fwKeyOk m k = false then 2
  else if fwSvnOk m k = false then 3
  else if fwSigOk m k = false then 4
  else 0

/-- Boot step 5 run to its end: an accepted image takes the instance to SELFTEST; any other leaves it in BOOT with the failed check
(R353, R387) (DESIGN CHOICE, log 49). -/
def State.bootImage (s : State) : State :=
  match fwCheck s.mem s.fwBase with
  | 0 => { s with blk := .selftest, boot := { step := 6, fail := false, check := 0, fwrel := s.mem.word (addrKey s.fwBase + 8) } }
  | c => { s with boot := { s.boot with step := 5, fail := true, check := c } }

/-- JG_FW_CTL written with GO: acts in boot step 4, or after a failure at step 5 (R387). -/
def State.go (s : State) : State :=
  if s.blk = .boot ∧ (s.boot.step = 4 ∨ (s.boot.step = 5 ∧ s.boot.fail = true)) then s.bootImage else s

/-! ## Boot self-test (R163, R387, R388, R410, R413) -/

/-- A unit that the boot self-test found failing is repaired if it serves. -/
def State.bootRepair (s : State) (u : Unit') : State :=
  match s.logical u with
  | some t => if s.blk = .selftest then s.repair t else s
  | none => s

/-- The member entry of this instance takes its block state. -/
def State.ownState (s : State) (st : Nat) : State :=
  { s with orch := { s.orch with members := s.orch.members.map (fun (m : Member) => if m.shard = s.orch.shard then { m with state := st } else m) } }

/-- SELFTEST ends: units repaired, lanes seeded, READY with everything that READY puts into force; or SAFE where a spare is lacking
(DESIGN CHOICE, log 52). -/
def State.selftested (s : State) (failed : List Unit') : State :=
  let s1 := (sortBy unitLt failed).foldl (fun s u => s.bootRepair u) s
  if s1.blk ≠ .selftest then s1
  else
    let s2 : State := { s1 with blk := .ready, boot := { s1.boot with step := 8 }, lanes := lanesSeed s1.baseSeed 0 }
    (s2.unitBoundary).ownState 2

/-! ## Cold reset (R383, R387, R416) -/

/-- Debug state after a cold or warm reset: the test access port is the host chip's, its instruction and the captured registers stand (R435, R440). -/
def Debug.afterReset (d : Debug) : Debug :=
  { State.reset.dbg with tap := d.tap, tdr := d.tdr, dbgenDr := d.dbgenDr, captures := d.captures }

/-- A cold reset: only what stands behind the MEM port, the field fuses, and the host's own queue outlive it. The contexts' parts below
T0 are in that memory (R401). -/
def State.coldReset (s : State) : State :=
  let s0 := if s.faults.holdOpen then s.holdHomed else s
  let s1 := s0.ctxCold
  let r := State.reset
  let t : State :=
    { r with pending := s.pending, free := s1.free, mem := s1.mem, slots := s1.slots, scx := s1.scx, counts := s1.counts,
             rep := { r.rep with field := s.rep.field }, pool := { r.pool with used := s1.pool.used }, outs := s.outs,
             dbg := s.dbg.afterReset }
  let t1 := t.bumpN offChkFail (badEntries s.rep.field)
  if fuseOk then t1
  else ({ t1 with boot := { t1.boot with step := 2, fail := true } }).fatal 0x46 Site.none

/-! ## Warm reset (R354, R383, R386) -/

/-- A port after a warm reset: it trains afresh (Table 18.2). -/
def Link.warm (l : Link) : Link := Link.reset l.enabled

/-- Orchard after a warm reset: the links train, membership stands. -/
def Orch.warm (o : Orch) : Orch :=
  { Orch.reset with
    cfg := o.cfg, addr := o.addr, shard := o.shard, n := o.n, member := o.member, members := o.members, rootSh := o.rootSh,
    parent := o.parent, parentSh := o.parentSh, kids := o.kids, links := Tab.mapVals o.links (fun _ l => l.warm) }

/-- Configuration after a warm reset: what was loading is gone, a change that waited is gone, writes in flight are gone. -/
def Conf.warm (c : Conf) : Conf :=
  { c with pend := none,
           banks := unloaded c.banks,
           crings := Tab.mapVals c.crings (fun _ q => { q with unacked := 0 }) }

/-- A warm reset: T0 is written back and cleared; the time base, repairs, tenants, membership and the configuration stand; everything
else returns to its reset value, and boot goes on at step 5 at once (R354, R386, R387, Table 18.2) (DEDUCED, log 44). -/
def State.warmReset (s : State) : State :=
  let s0 := if s.faults.holdOpen then s.holdHomed else s
  let s1 := s0.ctxWarm
  let r := State.reset
  let t : State :=
    { r with pending := s.pending, free := s1.free, mem := s1.mem, fwBase := s.fwBase, time := s.time, conf := s1.conf.warm,
             slots := s1.slots, scx := s1.scx, counts := s1.counts, tenants := s1.tenants, orch := (s1.orch.warm),
             rep := { s1.rep with left := [], passEnd := true, dleft := [], found := 0, fixed := 0, starved := false },
             pool := { r.pool with used := s1.pool.used }, outs := s1.outs, dbg := s.dbg.afterReset }
  (t.ownState 0).bootImage

/-- Whether a warm reset is asked for: by the pin, or by a write of JG_RST_CTL that sets WARM and not QUAR (R384). -/
def warmActs : WarmSrc → Bool
  | .pin => true
  | .write v => decide (bitsAt v 16 16 = 0x4A47) && bitAt v 2 && !bitAt v 3

/-! ## Quarantine (R385) -/

/-- The rows that an instance homes and that have no record get VOID, with the effects of R24 (DESIGN CHOICE, log 43). -/
def State.voidHomed (s : State) : State := s.openRows.foldl (fun s r => s.voidRow r 0x37) (s.dropCommits (fun _ => true))

/-- Quarantine: the homed rows are voided, then everything but the shared window and the record writes in hand is held. Sync objects
and the ports are reset, the Orchard ports are idle (R385, Table 18.2). -/
def State.quarantine (s : State) : State :=
  let s1 := (s.voidHomed).pump
  { s1 with
    quar := true, cpa := Port.reset, cpb := Port.reset, jobs := [], sems := [], ctrs := [], bars := [],
    ing := { s1.ing with grants := false },
    wind := if s1.wind.running then { s1.wind with running := false } else s1.wind,
    orch := { s1.orch with links := Tab.mapVals s1.orch.links (fun _ l => { Link.reset l.enabled with st := if l.enabled then 3 else 0 }), loop := [] } }

/-! ## Meanings -/

/-- COLD_RESET: acts in every state, a clock failure included (R379, R383). -/
def execColdReset (s : State) : Host.Outcome State Fault Refusal := .next s.coldReset

/-- WARM_RESET: by the pin wherever there is power and a clock; by the register wherever it can be written (DEDUCED, log 48). -/
def execWarmReset (src : WarmSrc) (s : State) : Host.Outcome State Fault Refusal :=
  .next (if s.pwr.clkFail ∨ s.pwr.cur ≤ 1 ∨ warmActs src = false then s else s.warmReset)

/-- QUARANTINE: a write of JG_RST_CTL with KEY and QUAR. -/
def execQuarantine (value : Word) (s : State) : Host.Outcome State Fault Refusal :=
  .next (if s.live && decide (bitsAt value 16 16 = 0x4A47) && bitAt value 3 then s.quarantine else s)

/-- JG_FW_CTL_GO. -/
def execJgFwCtlGo (value : Word) (s : State) : Host.Outcome State Fault Refusal :=
  .next (if s.live && bitAt value 0 then s.go else s)

/-- SELFTEST_DONE. -/
def execSelftestDone (failed : List Unit') (s : State) : Host.Outcome State Fault Refusal :=
  .next (if s.live && decide (s.blk = .selftest) then s.selftested failed else s)

end Sys2Proof.Machine
end

