-- ==== Sys2Proof/Machine/RegWrite.lean ====
section
/-! DEFINITION. Register writes of any kind, through a port or the test access port, and REGACC's reads (R6, R333, R384, R424, R425,
R427, R430, R435, R436, R441). -/

namespace Sys2Proof.Machine

/-! ## Which words the map defines (Tables 16.2, 21.1, 21.5, 21.15) -/

/-- A word of a ring block. -/
def ringDefined (o : Nat) : Bool := [0x00, 0x04, 0x08, 0x0C, 0x10, 0x18, 0x1C, 0x20, 0x24].contains o

/-- A word of a port window. -/
def portDefined (off : Nat) : Bool :=
  if 0x1000 ≤ off ∧ off < 0x2000 then ringDefined ((off - 0x1000) % 64)
  else if 0x100 ≤ off ∧ off < 0x200 then decide (off % 16 ≠ 12)
  else [0x00, 0x08, 0x0C, 0x10, 0x14, 0x18, 0x1C, 0x40, 0x44, 0x200, 0x204, 0x208, 0x20C].contains off

/-- A word of the shared window. -/
def sharedDefined (off : Nat) : Bool :=
  if off < 0x400 then decide (off % 16 = 0)
  else if 0x800 ≤ off ∧ off < 0x1000 then true
  else [(0x400, 0x404), (0x408, 0x418), (0x420, 0x42C), (0x430, 0x44C), (0x460, 0x480), (0x480, 0x4BC), (0x4C0, 0x4E8), (0x4F0, 0x4F4),
    (0x500, 0x51C), (0x520, 0x530), (0x540, 0x554), (0x558, 0x560), (0x580, 0x600), (0x600, 0x610), (0x620, 0x650), (0x660, 0x664),
    (0x680, 0x698), (0x6A0, 0x6A4)].any (fun r => decide (r.1 ≤ off ∧ off < r.2))

/-- A word of the debug window. -/
def debugDefined (off : Nat) : Bool :=
  decide (0x1000 ≤ off ∧ off < 0x2000) || decide (0x08 ≤ off ∧ off < 0x2C) || decide (0x30 ≤ off ∧ off < 0x4C) || decide (0x50 ≤ off ∧ off < 0x5C)
    || decide (off = 0)

/-- A word of the register space that is not reserved. -/
def regDefined (addr : Nat) : Bool :=
  match addr / 0x10000 with
  | 0 => portDefined (addr % 0x10000)
  | 1 => portDefined (addr % 0x10000)
  | 2 => sharedDefined (addr % 0x10000)
  | 3 => debugDefined (addr % 0x10000)
  | _ => false

/-- An access by 32 or 64 bits, aligned to its size (R424). -/
def accessOk (addr size : Nat) : Bool := decide ((size = 4 ∧ addr % 4 = 0) ∨ (size = 8 ∧ addr % 8 = 0))

/-- The access reaches a word that is not reserved. -/
def accessHits (addr size : Nat) : Bool := regDefined addr || (decide (size = 8) && regDefined (addr + 4))

/-! ## Writes by window -/

/-- A 64-bit register after a write of its whole, or of its low or high word. -/
def put64 (old v : W64) (hi : Bool) (size : Nat) : W64 :=
  if size = 8 then v else if hi then join64 (lo32 old) (lo32 v) else join64 (lo32 v) (hi32 old)

/-- The stored bits of JG_SQB_n and JG_CQB_n (Table 16.2); a reserved TIER is stored as written (DESIGN CHOICE, log 144). -/
def ringBaseBits (v : W64) : W64 := v &&& 0xFFFFFFFFFFFFF003

/-- The stored bits of JG_FW_BASE (Table 17.1). -/
def fwBaseBits (v : W64) : W64 := v &&& 0xFFFFFFFFFFFFFFC7

/-- JG_MSGA_v after a write: a TIER of 2 leaves TIER as it was (Table 21.4). -/
def msgaBits (old v : W64) : W64 := if bitsAt v 0 2 = 2 then (v &&& ~~~3) ||| (old &&& 3) else v

/-- A write into a port's own window; `v` holds the value of the whole access. -/
def State.writePort (s : State) (p : PortId) (off size : Nat) (v : W64) : State :=
  let q := s.port p
  if 0x1000 ≤ off then
    let r : RingRef := { port := p, ring := (off - 0x1000) / 64 }
    let g := s.ring r
    let free := !g.en && !g.busy
    let o := (off - 0x1000) % 64
    if o < 8 then (if free then s.setRing r { g with sqb := ringBaseBits (put64 g.sqb v (decide (o = 4)) size) } else s)
    else if o < 16 then (if free then s.setRing r { g with cqb := ringBaseBits (put64 g.cqb v (decide (o = 12)) size) } else s)
    else if o = 0x10 then s.writeRctl r (lo32 v)
    else if o = 0x18 then s.writeTail r (BitVec.ofNat 16 v.toNat)
    else if o = 0x24 then s.writeHead r (BitVec.ofNat 16 v.toNat)
    else s
  else if 0x100 ≤ off ∧ off < 0x200 then
    let n := (off - 0x100) / 16
    let a := Tab.get q.msga n 3
    if off % 16 < 8 then s.setPort p { q with msga := Tab.set q.msga n (msgaBits a (put64 a v (decide (off % 16 = 4)) size)) }
    else if off % 16 = 8 then s.setPort p { q with msgd := Tab.set q.msgd n (lo32 v) }
    else s
  else if off = 0x08 then s.clearInt p (lo32 v)
  else if off = 0x10 then (if bitsAt v 0 2 = 3 then s else s.setPort p { q with mode := bitsAt v 0 2 })
  else if off = 0x40 then s.clearCqPend p (put64 0 v false size)
  else if off = 0x44 then s.clearCqPend p (put64 0 v true 4)
  else s.writeRoute p off (lo32 v)

/-- JG_SEM_n written (Table 16.7): ABND is W1C; REL acts alone when both REQ and REL are set. -/
def State.writeSem (s : State) (who : Requester) (n : Nat) (v : Word) : State :=
  let s1 := if bitAt v 2 then s.setSem n { s.sem n with abnd := false } else s
  if bitAt v 17 then s1.semRelBy who n else if bitAt v 16 then s1.semReqBy who n else s1

/-- JG_RST_CTL written (R384): QUAR alone, else WARM alone, else the ports. -/
def State.writeRst (s : State) (v : Word) : State :=
  if bitsAt v 16 16 ≠ 0x4A47 then s
  else if bitAt v 3 then (if s.quar then s else s.quarantine)
  else if bitAt v 2 then s.warmReset
  else if s.quar then s
  else
    let s1 := if bitAt v 0 then s.resetPort .cpa else s
    if bitAt v 1 then s1.resetPort .cpb else s1

/-- A write into the shared window. -/
def State.writeShared (s : State) (who : Requester) (off size : Nat) (v : W64) : State :=
  if off < 0x400 then semWrite (off / 16) (fun s => s.writeSem who (off / 16) (lo32 v)) s
  else if off = 0x428 then s.writeRst (lo32 v)
  else if off = 0x430 then { s with fwBase := fwBaseBits (put64 s.fwBase v false size) }
  else if off = 0x434 then { s with fwBase := put64 s.fwBase v true 4 }
  else if off = 0x438 then (if s.live && bitAt v 0 then s.go else s)
  else if off = 0x448 then { s with faults := { s.faults with status := s.faults.status &&& ~~~(BitVec.ofNat 8 v.toNat) } }
  else if off = 0x4F0 then s.writeDbgEn (lo32 v)
  else s

/-- A write into the debug window, while debug access is enabled (R435). -/
def State.writeDebug (s : State) (off size : Nat) (v : W64) : State :=
  if off = 0x00 then s.dbgCtl (lo32 v)
  else if off = 0x08 then { s with dbg := { s.dbg with qsel := lo32 v &&& 0x77 } }
  else if off = 0x20 then s.dbgPurge (lo32 v)
  else if off = 0x24 then s.dbgFlush (lo32 v)
  else if off = 0x28 then { s with dbg := { s.dbg with cntsel := bitsAt v 0 10 } }
  else if off = 0x30 then s.dbgCntval (put64 (s.ctr s.dbg.cntsel).value v false size)
  else if off = 0x34 then s.dbgCntval (put64 (s.ctr s.dbg.cntsel).value v true 4)
  else if off = 0x3C then s.dbgSem (lo32 v)
  else if off = 0x40 then { s with dbg := { s.dbg with sramsel := bitsAt v 0 10 } }
  else if off = 0x50 then { s with dbg := { s.dbg with tridx := bitsAt v 0 16 } }
  else s

/-- The registers of 64 bits that a write can set. -/
def wideWrite (addr : Nat) : Bool :=
  match addr / 0x10000 with
  | 2 => decide (addr % 0x10000 = 0x430)
  | 3 => decide (addr % 0x10000 = 0x30)
  | _ =>
    let off := addr % 0x10000
    decide (off = 0x40) || (decide (0x100 ≤ off ∧ off < 0x200) && decide (off % 16 = 0))
      || (decide (0x1000 ≤ off ∧ off < 0x2000) && decide (off % 64 = 0 ∨ off % 64 = 8))

/-- One write at an address, in the window it falls into. -/
def State.writeAt (s : State) (who : Requester) (addr size : Nat) (v : W64) : State :=
  let off := addr % 0x10000
  match addr / 0x10000, who with
  | 2, _ => s.writeShared who off size v
  | 3, _ => debugWrite (fun s => s.writeDebug off size v) s
  | 0, .port .cpa => s.writePort .cpa off size v
  | 1, .port .cpb => s.writePort .cpb off size v
  | _, _ => s

/-- A legal access: a register of 64 bits takes it whole, any others word by word, low word first (DEDUCED, log 54). -/
def State.writeAccess (s : State) (who : Requester) (addr size : Nat) (v : W64) : State :=
  if size = 8 ∧ wideWrite addr = false then
    let s1 := if regDefined addr then s.writeAt who addr 4 (put64 0 v false 4) else s
    if regDefined (addr + 4) then s1.writeAt who (addr + 4) 4 (BitVec.ofNat 64 (hi32 v).toNat) else s1
  else s.writeAt who addr size v

/-- A write by a port (R333, R424): held back in a clock failure; a bad access by size, alignment, address or in P-RET, where a
semaphore's is ignored; counted in the other port's window; held in quarantine outside the shared window. -/
def State.regWrite (s : State) (p : PortId) (addr size : Nat) (v : W64) : State :=
  let win := addr / 0x10000
  if s.pwr.clkFail then s
  else if s.pwr.cur ≤ 1 ∧ win = 2 ∧ addr % 0x10000 < 0x400 ∧ accessOk addr size = true ∧ accessHits addr size = true then s
  else if s.quar = true ∧ win ≠ 2 then s
  else if accessOk addr size = false ∨ accessHits addr size = false ∨ s.pwr.cur ≤ 1 then s.badAccess p
  else if win + 1 = 3 - portCode p then s.xwrite p
  else s.writeAccess (.port p) addr size v

/-! ## REGACC (R441) -/

/-- A read through the test access port: as a port's (R424, R425), with its own latch (DESIGN CHOICE, log 57). -/
def State.tapRead (s : State) (addr size : Nat) : Nat × State :=
  if accessOk addr size = false then (0, s)
  else
    let live := (s.regWord addr).toNat
    if size = 8 then (live + 2 ^ 32 * (s.regWord (addr + 4)).toNat, s)
    else if isWide addr then (live, { s with dbg := { s.dbg with latch := some (addr, s.regWord (addr + 4)) } })
    else match s.dbg.latch with
      | some (a, w) => if a + 4 = addr then (w.toNat, { s with dbg := { s.dbg with latch := none } }) else (live, s)
      | none => (live, s)

/-- Reading JG_DBG_TRDATA advances its index (R436). -/
def State.trAdvance (s : State) (addr size : Nat) : State :=
  if addr = 0x30054 ∨ (addr = 0x30050 ∧ size = 8) then { s with dbg := { s.dbg with tridx := (s.dbg.tridx + 1) % 65536 } } else s

/-- REGACC run: a write acts as a debug write; into a port window it is ignored and sets ERR, as an access that R424 ignores does
(DEDUCED, log 56). -/
def State.regacc (s : State) (tdr : Nat) : State :=
  let addr := tdrBits tdr 3 18
  let size := if tdr.testBit 2 then 8 else 4
  let v : W64 := BitVec.ofNat 64 (tdrBits tdr 21 64)
  let done := fun (err : Bool) (d : Nat) => tdrPut (tdrPut (tdrPut tdr 21 64 d) 85 1 0) 86 1 (b2n err)
  if tdr.testBit 1 then
    let bad := decide (addr / 0x10000 ≤ 1) || !accessOk addr size || !accessHits addr size
    let s1 := if bad || !s.debugOn then s else s.writeAccess .debug addr size v
    s1.setTdr 0 (done bad v.toNat)
  else
    let (d, s1) := s.tapRead addr size
    (s1.trAdvance addr size).setTdr 0 (done (!accessOk addr size) d)

/-! ## Meanings -/

/-- REGISTER_WRITE (R6, R424). -/
def execRegisterWrite (by_ : PortId) (addr size : Nat) (value : W64) (s : State) : Host.Outcome State Fault Refusal :=
  .next (s.regWrite by_ addr size value)

/-- REGACC. -/
def execRegacc (tdr : Nat) (s : State) : Host.Outcome State Fault Refusal := .next (instrument 0 tdr (fun s => s.regacc tdr) s)

end Sys2Proof.Machine
end

