-- ==== Sys2Proof/Machine/Chain.lean ====
section
/-! DEFINITION. The transform chain, the statistics, the error bound, shard summaries and their merge, truncation and contenders
(R111 to R154). -/

namespace Sys2Proof.Machine

/-! ## Stages 2 to 6 (R130 to R141) -/

/-- Stage 2: the soft-cap. -/
def softcap (c z : F32) : F32 := if isZero c then z else fmul c (tanh (fdiv z c))

/-- Stage 3: the bias. -/
def biased (x b : F32) : F32 := if isZero b then x else fadd x b

/-- Stage 4: the penalties of a count above 0 (R135, R136). -/
def penalised (p : Profile) (c : Nat) (x3 : F32) : F32 :=
  if c = 0 then x3
  else
    let a := if p.reppen = f32One then x3 else if flt 0 x3 then fdiv x3 p.reppen else fmul x3 p.reppen
    let b := if isZero p.prespen then a else fsub a p.prespen
    if isZero p.freqpen then b else fsub b (fmul p.freqpen (ofInt c))

/-- Stage 6: the temperature. -/
def tempered (p : Profile) (x : F32) : F32 := if isZero p.temp then x else fdiv x p.temp

/-- Stages 2 to 6 of an unmasked entry with its count and bias. -/
def stages (p : Profile) (c : Nat) (b z : F32) : F32 := tempered p (penalised p c (biased (softcap p.softcap z) b))

/-- The tentative or side-list count of an entry (R138, R196). -/
def sideCount (r : PRow) (v : Nat) : Nat := ((r.sides.counts.filter (fun e => e.1 = v)).map (·.2)).foldl (· + ·) 0

/-- c_v of a row on this shard: its committed count, or the sketch's estimate on the sketch path, with the tentative count
(R134, R196, R251). -/
def countOf (r : PRow) (v : Nat) : Nat :=
  min 65535 ((match r.verdict with
    | .sketch => sketchEst r.sides.sketch v
    | _ => Tab.get r.counts v 0) + sideCount r v)

/-- An entry of a bias list; an absent one is 0. -/
def biasAt (l : List (Nat × F32)) (v : Nat) : F32 := ((l.find? (fun e => e.1 = v)).map (·.2)).getD 0

/-- A pinned image of a row: the generation current at its placement, if it is held (R185). -/
def State.pinned (s : State) (r : PRow) (key : Nat) : Option Gen := (s.tbl key).gen (s.genAt key r.tseq)

/-- The bias set's entries for a row. -/
def State.biasSet (s : State) (r : PRow) : List (Nat × F32) :=
  if r.prof.biasset = 0xFF then [] else match s.pinned r (swapTable 2 r.prof.biasset) with
    | some g => (match g.img with
      | .bias es => es
      | _ => [])
    | none => []

/-- b_v (R133). -/
def State.biasOf (s : State) (r : PRow) (v : Nat) : F32 := fadd (biasAt r.sides.biases v) (biasAt (s.biasSet r) v)

/-- MASKSEL numbers in use. -/
def maskNums (p : Profile) : List Nat := [p.masksel0, p.masksel1, p.masksel2, p.masksel3].filter (fun m => decide (m ≠ 0xFFFF))

/-- The grammar state a row runs under: its record, NVOCAB and the mask it names (R175, R176). -/
def State.gramState (s : State) (r : PRow) : Option (GState × Nat × Option Image) :=
  match r.sides.grammar with
  | none => none
  | some (g, gen, st) =>
    match (s.tbl (swapTable 1 g)).gen gen with
    | none => none
    | some im => (im.img.state st).map (fun x => (x, im.img.nvocab, (s.pinned r (swapTable 0 x.mref)).map (fun y => y.img)))

/-- Stage 5 clears an entry, or a ban does (R137, R140, R176). -/
def State.maskedOut (s : State) (r : PRow) (v : Nat) : Bool :=
  r.sides.bans.contains v || (decide (r.prof.ngram = 1) && decide (0 < countOf r v))
  || (maskNums r.prof).any (fun m => match s.pinned r (swapTable 0 m) with
    | some g => !g.img.maskBit v
    | none => true)
  || (match s.gramState r with
    | some (x, nv, mi) => !x.allows nv mi v
    | none => false)

/-! ## Row parameters -/

/-- TOPK in effect (R145). -/
def topkOf (p : Profile) (cls : Nat) : Nat := if cls = clDraft ∧ p.topk = 0 then 4096 else p.topk

/-- Some truncation stage is enabled. -/
def truncOn (p : Profile) (cls : Nat) : Bool := decide (0 < topkOf p cls) || !isZero p.minp || flt p.topp f32One

/-- Stage 8 runs for the row (R118, R141, R212). -/
def stage8 (p : Profile) (cls : Nat) : Bool := !isZero p.temp && truncOn p cls && decide (cls ≠ clScore)

/-- The candidate depth D1 (R145); NTOP for a SCORE row (R212) (DEDUCED, log 86). -/
def depthOf (p : Profile) (cls : Nat) : Nat :=
  if cls = clScore then p.ntop
  else if truncOn p cls = false ∧ isZero p.temp = true ∧ p.ntop = 0 then 0
  else max p.cand1 (max (topkOf p cls) p.ntop)

/-- The temperature at which a row's chain sum is formed (R141). -/
def sumTemp (p : Profile) : F32 := if isZero p.temp then f32One else p.temp

/-- The anchors of the chain sum and of the model sum (R73, R142). -/
def chainAnchor (p : Profile) : F32 := anchorOf (decide (p.anchorsel = 1)) p.anchorc p.softcap (sumTemp p)
def modelAnchor (p : Profile) : F32 := anchorOf false 0 p.softcap f32One

/-- Λ of R126 for LP_SAMPLED. -/
def slope (p : Profile) : F32 :=
  let t := p.reppen
  fdivUp (fmax t (fdivUp f32One t)) (sumTemp p)

/-! ## The error bound (R115, R116) -/

/-- A product in which +infinity absorbs every factor. -/
def bmul (a b : F32) : F32 := if isInf a || isInf b then f32Inf else fmulUp a b

/-- A sum in which +infinity absorbs. -/
def badd (a b : F32) : F32 := if isInf a || isInf b then f32Inf else faddUp a b

/-- ρ = RUP(1.04 N 2^-24), from the exact 1.04 = 26/25. -/
def rho (n : Nat) : F32 := BitVec.ofNat 32 (roundBits fmt32 .rup false (26 * n) (25 * 2 ^ 24))

/-- ε_v from the norms of an entry and of a row: the terms are added in the order in which R116 writes them. -/
def epsOf (n : Nat) (wn rn wb rb : F16) (v : PVec) : F32 :=
  let w := ofF16 wn
  let r := ofF16 rn
  let wb := ofF16 wb
  let rb := ofF16 rb
  let a := badd (badd (badd (bmul w v.dnN) (bmul r v.hnN)) (bmul wb v.duN)) (bmul rb v.unN)
  let m := badd (bmul (badd w r) (badd v.hnN v.dnN)) (bmul (badd wb rb) (badd v.unN v.duN))
  badd (badd a (bmul (rho n) m)) (ofDyUp { m := (n : Int), e := -149 })

/-- hi_v and lo_v (R117). -/
def hiOf (z e : F32) : F32 := if isInf e then f32Inf else faddUp z e
def loOf (z e : F32) : F32 := if isInf e then f32NegInf else fneg (faddUp e (fneg z))

/-! ## One entry, and the shard summary (R142 to R148) -/

/-- What a lane forms of one entry of one row: whether it is masked, and its candidate record; x2 beside it. -/
structure LaneOut where
  rec_   : CandRec
  x2     : F32
  doubt  : Bool
deriving DecidableEq, Repr

/-- A logit of minus infinity on LIN masks its entry; on a projected or shadow path it is a doubt (Table 6.3). -/
def linMasked (lin : Bool) (z : F32) : Bool := lin && isInf z && isNeg z

/-- A lane's work on one entry: none when it is masked (Table 6.3). -/
def State.lane (s : State) (r : PRow) (lin : Bool) (v : Nat) (z e : F32) : Option LaneOut :=
  if linMasked lin z then none
  else if s.maskedOut r v then none
  else
    let c := countOf r v
    let b := s.biasOf r v
    let x2 := softcap r.prof.softcap z
    let x := stages r.prof c b z
    some { rec_ := { id := v, zf := z, eps := e, x := x, xhi := stages r.prof c b (hiOf z e), xlo := stages r.prof c b (loOf z e) },
           x2 := x2, doubt := !isFin z || !isFin x || !isFin x2 }

/-- An empty STAT (Table 6.7). -/
def StatB0 : StatB :=
  { sq := 0, eq := 0, mq := 0, meq := 0, xmax := f32NegInf, x2max := f32NegInf, epsmax := 0, wx := 0, wx2 := 0, cnt := 0,
    chain0 := false, chain20 := false, model0 := false, model20 := false, doubt := false, late := 0, why := 0 }

/-- 20 in FP32. -/
def f32Twenty : F32 := 0x41A00000

/-- The first of two causes; of two in one partial the lower code (R396). -/
def lowWhy (a b : Nat) : Nat := if a = 0 then b else if b = 0 then a else min a b

/-- An entry added to STAT. -/
def statAdd (r : PRow) (t : StatB) (o : LaneOut) : StatB :=
  let u := fsub o.rec_.x r.anchor
  let m := fsub o.x2 r.manchor
  let (st, et) := sumTerms o.rec_.x r.anchor
  let (mt, me) := sumTerms o.x2 r.manchor
  { sq := t.sq + st, eq := t.eq + et, mq := t.mq + mt, meq := t.meq + me, xmax := fmax t.xmax o.rec_.x, x2max := fmax t.x2max o.x2,
    epsmax := fmax t.epsmax o.rec_.eps, wx := fmax t.wx (fabs o.rec_.x), wx2 := fmax t.wx2 (fabs o.x2), cnt := t.cnt + 1,
    chain0 := t.chain0 || flt 0 u, chain20 := t.chain20 || flt f32Twenty u, model0 := t.model0 || flt 0 m,
    model20 := t.model20 || flt f32Twenty m, doubt := t.doubt || o.doubt, late := t.late,
    why := if o.doubt then lowWhy t.why 0x1C else t.why }

/-- Merge of STAT partials (Table 6.5, R311). -/
def statMerge (a b : StatB) : StatB :=
  { sq := a.sq + b.sq, eq := a.eq + b.eq, mq := a.mq + b.mq, meq := a.meq + b.meq, xmax := fmax a.xmax b.xmax,
    x2max := fmax a.x2max b.x2max, epsmax := fmax a.epsmax b.epsmax, wx := fmax a.wx b.wx, wx2 := fmax a.wx2 b.wx2,
    cnt := a.cnt + b.cnt, chain0 := a.chain0 || b.chain0, chain20 := a.chain20 || b.chain20, model0 := a.model0 || b.model0,
    model20 := a.model20 || b.model20, doubt := a.doubt || b.doubt, late := max a.late b.late,
    why := lowWhy a.why b.why }

/-- Candidate order: descending x, then ascending id. -/
def candLt (a b : CandRec) : Bool := flt b.x a.x || (!flt a.x b.x && decide (a.id < b.id))

/-- An entry follows a key in candidate order (R150). -/
def followsKey (kx : F32) (kid : Nat) (c : CandRec) : Bool := flt c.x kx || (!flt kx c.x && decide (kid < c.id))

/-- The first records of a list that THRESH admits: those that pass λ, at most r, and no more once their terms reach Dm (R150). -/
def threshCut (anchor : F32) (t : ThreshB) : Nat → Int → List CandRec → List CandRec
  | _, _, [] => []
  | n, q, c :: r =>
    let pass := match t.mp with
      | some (lam, xm) => fle lam (fsub c.x xm)
      | none => true
    if n = 0 ∨ pass = false then []
    else
      let q1 := q + accInt (sumTerms c.x anchor).1
      match t.dm with
      | some d => if accInt d ≤ q1 then [c] else c :: threshCut anchor t (n - 1) q1 r
      | none => c :: threshCut anchor t (n - 1) q1 r

/-- Order of contenders: descending U, then ascending id (R118). -/
def winLt (a b : WinRec) : Bool := flt b.u a.u || (!flt a.u b.u && decide (a.id < b.id))

/-- The fast winner's order: largest S, then lowest id (R147). -/
def fastLt (a b : WinRec) : Bool := flt b.s a.s || (!flt a.s b.s && decide (a.id < b.id))

/-- The better of two fast winners. -/
def betterFast : Option WinRec → Option WinRec → Option WinRec
  | none, b => b
  | a, none => a
  | some a, some b => if fastLt b a then some b else some a

/-- No entry. -/
def WinB0 : WinB := { fast := none, spill := f32NegInf, conts := [] }

/-- A sorted list of contenders cut to 64; the spill takes the first one cut. -/
def winCut (fast : Option WinRec) (spill : F32) (l : List WinRec) : WinB :=
  { fast := fast, conts := l.take 64, spill := match l[64]? with
      | some w => fmax spill w.u
      | none => spill }

/-- WIN of a list of entries. -/
def winOf (l : List WinRec) : WinB := winCut (l.foldl (fun a w => betterFast a (some w)) none) f32NegInf (sortBy winLt l)

/-- Merge of WIN partials (R118). -/
def winMerge (a b : WinB) : WinB := winCut (betterFast a.fast b.fast) (fmax a.spill b.spill) (mergeBy winLt b.conts a.conts)

/-- TOPM order: descending x2, then ascending id. -/
def topmLt (a b : Nat × F32) : Bool := flt b.2 a.2 || (!flt a.2 b.2 && decide (a.1 < b.1))

/-- A noise value added, or none at temperature 0 (R147). -/
def withNoise (g : Option F32) (x : F32) : F32 := match g with
  | some n => fadd x n
  | none => x

/-- The noise of an entry, none at temperature 0. -/
def noiseOf (p : Profile) (seed : W64) (pos purpose v : Nat) : Option F32 := if isZero p.temp then none else some (noise seed pos purpose v)

/-- A candidate record as a WIN record with its noise (R118). -/
def winRecOf (g : Option F32) (c : CandRec) : WinRec :=
  { id := c.id, z := c.zf, eps := c.eps, s := withNoise g c.x, u := withNoise g c.xhi, x := c.x, l := withNoise g c.xlo }

/-- A row sends WIN, and with which purpose (Table 6.5, R202). -/
def winPurpose (p : Profile) (k : RowKey) (draftn : Nat) : Option Nat :=
  if k.cls = clScore then none
  else if k.cls = clVerify ∧ k.gidx < draftn then some purResidual
  else if stage8 p k.cls then none
  else some (if k.cls = clDraft then purDraft else purSample)

/-- An empty partial. -/
def PartSum0 : PartSum := { stat := StatB0, cand := [], win := WinB0, topm := [], tgt := none, rset := [] }

/-- The purpose of a row's own draw (R147, Table 7.1). -/
def drawPurpose (cls : Nat) : Nat := if cls = clDraft then purDraft else purSample

/-- A row sends a TOPM partial: with LPSEL 1, which does not apply to SCORE rows (Table 6.5, R213) (DEDUCED, log 126). -/
def topmOn (p : Profile) (cls : Nat) : Bool := decide (p.lpsel = 1 ∧ cls ≠ clScore)

/-- A row's partials over a list of entries with their logits and bounds. `ref`: a reference pass, which sends the model fields and
the target alone (R217, R311) (DEDUCED, log 93). A logit that is not finite is a doubt whether or not its entry is masked (R69, R132). -/
def State.partOf (s : State) (r : PRow) (rd : Rdesc) (seed : W64) (ref : Bool) (es : List (Nat × F32 × F32)) : PartSum :=
  let r := if ref then { r with manchor := r.ranchor, prof := { r.prof with temp := f32One, reppen := f32One, prespen := 0, freqpen := 0, biasset := 0xFF },
                                sides := { r.sides with biases := [] } } else r
  let lin := decide (2 ≤ rd.hsrc)
  let os := es.filterMap (fun e => s.lane r lin e.1 e.2.1 e.2.2)
  let bad := es.any (fun e => !isFin e.2.1 && !linMasked lin e.2.1)
  let st0 := os.foldl (statAdd r) StatB0
  let st := if bad then { st0 with doubt := true, why := lowWhy st0.why 0x1C } else st0
  let d1 := depthOf r.prof rd.cls
  let all := sortBy candLt (os.map (fun o => o.rec_))
  let cand := match r.thresh with
    | none => all.take d1
    | some t => threshCut r.anchor t t.r 0 (all.filter (fun c => followsKey t.kx t.kid c))
  let set := if rd.cls = clVerify then Tab.get r.sides.ret rd.gidx [] else []
  let win := match winPurpose r.prof r.key rd.draftn with
    | none => WinB0
    | some pu => winOf ((os.filter (fun o => !set.contains o.rec_.id)).map (fun o => winRecOf (noiseOf r.prof seed rd.pos pu o.rec_.id) o.rec_))
  let tgt := if rd.cls = clScore then (os.find? (fun o => decide (o.rec_.id = rd.target))).map (fun o => o.rec_) else none
  if ref then { PartSum0 with stat := { st with sq := 0, eq := 0, xmax := f32NegInf, wx := 0, chain0 := false, chain20 := false }, tgt := tgt }
  else
    { stat := st, cand := cand, win := win,
      topm := if topmOn r.prof rd.cls then (sortBy topmLt (os.map (fun o => (o.rec_.id, o.x2)))).take r.prof.ntop else [],
      tgt := tgt, rset := sortBy (fun (a b : CandRec) => decide (a.id < b.id)) ((os.filter (fun o => set.contains o.rec_.id)).map (fun o => o.rec_)) }

/-- Merge of a row's partials of two disjoint ranges (R148, R150). -/
def partMerge (r : PRow) (cls : Nat) (a b : PartSum) : PartSum :=
  { stat := statMerge a.stat b.stat,
    cand := match r.thresh with
      | none => (mergeBy candLt b.cand a.cand).take (depthOf r.prof cls)
      | some t => threshCut r.anchor t t.r 0 (mergeBy candLt b.cand a.cand),
    win := winMerge a.win b.win, topm := (mergeBy topmLt b.topm a.topm).take r.prof.ntop,
    tgt := match a.tgt with
      | some t => some t
      | none => b.tgt,
    rset := mergeBy (fun (x y : CandRec) => decide (x.id < y.id)) b.rset a.rset }

/-! ## Truncation (R146, R149 to R151) -/

/-- λ of min-p. -/
def lambda (p : Profile) : F32 := fmul (log2 p.minp) ln2F

/-- The R74 term of a score in units of 2^-256. -/
def term (c x : F32) : Nat := (accInt (sumTerms x c).1).toNat

/-- Term sum of a list of records. -/
def termSum (c : F32) (l : List CandRec) : Nat := l.foldl (fun a e => a + term c e.x) 0

/-- Records from the first on that pass min-p; the first always passes. -/
def minpPass (lam xmax : F32) : List CandRec → List CandRec
  | [] => []
  | e :: r => e :: r.takeWhile (fun c => fle lam (fsub c.x xmax))

/-- The shortest prefix whose term sum is at least P, at least one entry; none when the list ends first. -/
def topPrefix (c : F32) (target : Nat) : Nat → List CandRec → Option (List CandRec)
  | _, [] => none
  | q, e :: r =>
    let q1 := q + term c e.x
    if target ≤ q1 then some [e] else (topPrefix c target q1 r).map (fun l => e :: l)

/-- P = ceil(p Q2), exactly. -/
def nucleusTarget (topp : F32) (q2 : Nat) : Nat :=
  let d := val topp
  ceilDiv (d.m.natAbs * pow2 d.e * q2) (pow2 (-d.e))

/-- What truncation comes to: E settled (with TRUNC), or a second round with its threshold. -/
inductive Trunc where
  | settled (e : List CandRec) (trunc : Bool)
  | second (t : ThreshB)
deriving DecidableEq, Repr

/-- Stage 8 over the candidate list of a row. `extra`: entries that a second round returned and the limit r it had (DEDUCED, log 88). A round
that returned exactly r entries leaves E2 open, whatever the prefix reaches (R151). -/
def truncate (p : Profile) (cls : Nat) (c : F32) (st : StatB) (l : List CandRec) (extra : Option (Nat × Nat)) : Trunc :=
  let k := topkOf p cls
  let e1 := if 0 < k then l.take k else l
  let mp := !isZero p.minp
  let e2 := if mp then minpPass (lambda p) st.xmax e1 else e1
  let closed0 := decide (0 < k) || decide (st.cnt ≤ l.length) || decide (e2.length < l.length)
  let closed := closed0 || (match extra with
    | some (n, r) => decide (n < r)
    | none => false)
  let tp := flt p.topp f32One
  let whole := !mp && decide (k = 0)
  let q2 := if whole then (accInt st.sq).toNat else termSum c e2
  let pt := nucleusTarget p.topp q2
  let settle : Option (List CandRec) :=
    if tp then (if closed ∨ (whole = true ∧ extra = none) then (match topPrefix c pt 0 e2 with
        | some e => some e
        | none => if closed0 = true ∧ whole = false then some e2 else if st.cnt ≤ l.length then some e2 else none)
      else none)
    else if closed then some e2 else none
  match settle with
  | some e => .settled e false
  | none =>
    match extra with
    | some _ => .settled e2 true
    | none =>
      let last := l.getLast?
      .second { kid := (last.map (fun e => e.id)).getD 0, kx := (last.map (fun e => e.x)).getD f32NegInf, r := 4096 - l.length,
                mp := if mp then some (lambda p, st.xmax) else none,
                dm := if !mp && !st.chain20 && !st.model20 then some (accOf ((pt : Int) - (termSum c l : Int))) else none,
                ca := none, cm := none, cr := none }

/-- The contenders and spill of a set of entries (R118). -/
def contendersOf (l : List WinRec) : WinB := winOf l

end Sys2Proof.Machine
end

