-- ==== Sys2Proof/Machine/Prelude.lean ====
section
/-! DEFINITION. The prelude, the projection of one entry, its shadow evaluation and the auxiliary heads, as functions of values
(R63, R66 to R71, R86 to R89, R99, R105, R106, R115). -/

namespace Sys2Proof.Machine

/-! ## Lists in blocks -/

/-- A list cut into pieces of `k` elements. -/
def chunks {α : Type} (k : Nat) : Nat → List α → List (List α)
  | 0, _ => []
  | n + 1, l => if l.isEmpty then [] else l.take k :: chunks k n (l.drop k)

/-- A list in blocks of `k`. -/
def blocksOf {α : Type} (k : Nat) (l : List α) : List (List α) := chunks k l.length l

/-! ## Normalisation (R87 to R89) -/

/-- A node of the pairwise tree: its leaves, its mean (or mean square), its m2. -/
structure NNode where
  n  : Nat
  a  : F32
  m2 : F32
deriving DecidableEq, Repr

/-- RNE of a quotient of whole numbers. -/
def ratF (a b : Nat) : F32 := BitVec.ofNat 32 (roundBits fmt32 .rne false a b)

/-- Two nodes merged (R87). -/
def NNode.merge (layer : Bool) (x y : NNode) : NNode :=
  let n := x.n + y.n
  let d := fsub y.a x.a
  { n := n, a := fadd x.a (fmul d (ratF y.n n)),
    m2 := if layer then fadd (fadd x.m2 y.m2) (fmul (fmul d d) (ratF (x.n * y.n) n)) else 0 }

/-- One level of the tree. -/
def pairUp (layer : Bool) : List NNode → List NNode
  | a :: b :: r => NNode.merge layer a b :: pairUp layer r
  | l => l

/-- The levels of the tree until one node is left; also whether every node on the way was finite. -/
def treeUp (layer : Bool) : Nat → List NNode → Option NNode
  | 0, l => l.head?
  | k + 1, l =>
    if l.all (fun x => isFin x.a && isFin x.m2) = false then none
    else if l.length ≤ 1 then l.head?
    else treeUp layer k (pairUp layer l)

/-- The normalised vector h_n, or none where R89 voids the row. An exact zero has the sign + (DESIGN CHOICE, log 149). -/
def normalise (hs : HeadSet) (gain bias : Option (List BF16)) (h : List BF16) : Option (List BF16) :=
  if h.any b16Bad then none
  else if hs.norm = 0 then some h
  else
    let layer := decide (hs.norm = 2)
    let xs := h.map ofB16
    match treeUp layer 20 (xs.map (fun x => { n := 1, a := if layer then x else fmul x x, m2 := 0 })) with
    | none => none
    | some t =>
      if (isFin t.a && isFin t.m2) = false then none
      else
      let v := fadd (if layer then fdiv t.m2 (ofInt h.length) else t.a) hs.eps
      if isFin v = false ∨ fle v 0 = true then none
      else
        let r := val (rsqrt v)
        let g := fun (i : Nat) => match gain with
          | some l => b16Val (l.getD i 0)
          | none => Dy.ofInt 1
        let b := fun (i : Nat) => match bias with
          | some l => b16Val (l.getD i 0)
          | none => Dy.zero
        let ys := xs.mapIdx (fun i x =>
          let c := if layer then fsub x t.a else x
          if isFin c then ofDy (Dy.add (Dy.mul (Dy.mul (val c) r) (g i)) (b i)) else f32Nan)
        let hn := ys.map toB16
        if ys.any (fun y => !isFin y) || hn.any b16Bad then none else some hn

/-! ## Quantisation and norms (R63, R68, R115) -/

/-- A vector quantised in blocks of `k` (R63). -/
def quantVec (k : Nat) (l : List Dy) : QVec :=
  let bs := (blocksOf k l).map (fun b => quantBlock .e4m3 b)
  { codes := bs.flatMap (·.2), scales := bs.map (·.1) }

/-- The value of an element of a quantised vector whose blocks have `k` elements. -/
def QVec.value (q : QVec) (k i : Nat) : Dy :=
  { m := e4Units (q.codes.getD i 0), e := (q.scales.getD (i / k) 0 : Int) - 127 - 9 }

/-- Square root of an exact sum of squares, rounded up once to FP32. -/
def normUp (l : List Dy) : F32 :=
  let s := l.foldl (fun a x => Dy.add a (Dy.mul x x)) Dy.zero
  if s.m = 0 then 0 else sqrtDy .rup s

/-- A row's vectors before any pre-tile (R88, R115). -/
def pvecOf (hn : List BF16) : PVec :=
  let xs := hn.map b16Val
  let a := quantVec 128 xs
  { hn := hn, a := a, u := [], uq := { codes := [], scales := [] }, hnN := normUp xs,
    dnN := normUp (xs.mapIdx (fun i x => Dy.sub (a.value 128 i) x)), unN := 0, duN := 0 }

/-! ## Projection (R66, R67) -/

/-- I_b of one weight block and 32 activations. -/
def blockSum (f : WFmt) (w a : List Nat) : Int := ((w.zip a).map (fun (p : Nat × Nat) => f.units p.1 * e4Units p.2)).foldl (· + ·) 0

/-- One block added to the accumulator (R67): P_b is added exactly, with one rounding. -/
def addBlock (f : WFmt) (acc : F32) (w : WBlock) (a : List Nat) (sa : Nat) : F32 :=
  let i := blockSum f w.codes a
  if i = 0 then acc
  else if isFin acc then ofDy (Dy.add (val acc) { m := i, e := (w.scale : Int) - 127 + ((sa : Int) - 127) + f.exp - 9 })
  else acc

/-- Blocks against a quantised vector whose scales cover `k` elements. -/
def dotBlocks (f : WFmt) (k : Nat) (q : QVec) (ws : List WBlock) (acc : F32) : F32 :=
  (ws.zip ((blocksOf 32 q.codes).mapIdx (fun i b => (i, b)))).foldl
    (fun acc p => addBlock f acc p.1 p.2.2 (q.scales.getD (32 * p.2.1 / k) 0)) acc

/-- The logit of an entry: its hidden blocks, then its augmentation blocks (R67, R68). -/
def logitOf (f : WFmt) (e : WEntry) (aug : Option (WFmt × WEntry)) (v : PVec) : F32 :=
  let z := dotBlocks f 128 v.a e.blocks 0
  match aug with
  | some (g, x) => dotBlocks g 64 v.uq x.blocks z
  | none => z

/-- The variant vector of a row from its A_v (R99), in BF16, then quantised over p_v elements (R68). An infinite
element is quantised as the number that its bits would be (DESIGN CHOICE, log 148). -/
def withVariant (a : List (List WBlock)) (v : PVec) : PVec :=
  let p := if a.length ≤ 32 then 32 else 64
  let u := (a.map (fun row => toB16 (dotBlocks .e4m3 128 v.a row 0))) ++ List.replicate (64 - a.length) 0
  let xs := u.map b16Val
  let q := quantVec 64 (xs.take p)
  { v with u := u, uq := q, unN := normUp xs, duN := normUp ((xs.take p).mapIdx (fun i x => Dy.sub (q.value 64 i) x)) }

/-! ## Shadow evaluation (R70) -/

/-- Products accumulated element by element; a zero product leaves the accumulator unchanged. -/
def shadowDot : List BF16 → List BF16 → F32 → F32
  | w :: ws, x :: xs, acc =>
    let p := Dy.mul (b16Val w) (b16Val x)
    shadowDot ws xs (if p.m = 0 ∨ isFin acc = false then acc else ofDy (Dy.add (val acc) p))
  | _, _, acc => acc

/-! ## Auxiliary heads (R105, R106) -/

/-- z_j of rows of W1. -/
def auxZ (x : AuxHead) (v : PVec) (lo n : Nat) : List F32 :=
  (span lo n).map (fun j => fadd (dotBlocks .e4m3 128 v.a (x.w1.getD j []) 0) (x.b1.getD j 0))

/-- The output of a head from its z. -/
def auxOut (x : AuxHead) (zs : List F32) : F32 :=
  let gs := zs.map (fun z => if x.gelu then geluTanh z else geluErf z)
  if gs.any (fun g => !isFin g) then f32Nan
  else fadd (dotBlocks .e4m3 128 (quantVec 128 (gs.map val)) x.w2 0) x.b2

end Sys2Proof.Machine
end

