-- ==== Sys2Proof/Machine/BankMem.lean ====
section
/-! DEFINITION. A bank in memory: where the parts of a bank and of its variants lie in the slot's regions, how they are written there and how
the array and the Selection Engine read them (R96, R98, R99, R101, R105, R114, R280, R285, R287, R293, Table 14.2). -/

namespace Sys2Proof.Machine

/-! ## Formats and tiles -/

/-- The main format by its code. -/
def fmtOf : Nat → WFmt
  | 0 => .fp4
  | 1 => .int4
  | 2 => .int2
  | _ => .ternary

/-- p_v of a rank (R99). -/
def padRank (r : Nat) : Nat := if r ≤ 32 then 32 else 64

/-- Ids of a main tile. -/
def tileIds (t : Nat) : List Nat := span (512 * t) 512

/-- Ids of an outlier tile: the bank's outlier entries in ascending id, 512 a tile (R101). -/
def Bank.outlIds (b : Bank) (i : Nat) : List Nat := (b.data.outl.drop (512 * i)).take 512

/-- The rank of a variant of a bank. -/
def Bank.rank (b : Bank) (v : Nat) : Nat := ((Tab.find? b.vars v).map (fun x => x.rank)).getD 0

/-- Bytes of a block record of 512 lanes: codes, then scales (R96). -/
def recBytes (f : WFmt) : Nat := 2048 * f.bits + 512

/-- Bytes of a main tile's codes and scales, and of an outlier tile with its id list (Table 14.2). -/
def tileSize (fmt d : Nat) : Nat := recBytes (fmtOf fmt) * (d / 32)
def outlSize (d : Nat) : Nat := 2048 + 528 * d

/-- Code bytes of a variant on an instance with `t` tiles: A_v, then per tile the blocks of B_v (Table 14.2). -/
def varCode (d t rank : Nat) : Nat := rank * (d + d / 32) + t * ((padRank rank / 2 + padRank rank / 32) * 512)

/-- Side bytes of a variant: per tile its norm list and the shadow of B_v. -/
def varSide (t rank : Nat) : Nat := t * (2048 + 1024 * rank)

/-- Bytes of an auxiliary head: W1 and w2 with their scales, b1, b2. -/
def auxSize (d : Nat) : Nat := 1056 * d + 1056 + 4100

/-! ## Where the parts lie (R280; the order within a region is a DESIGN CHOICE, log 107) -/

/-- The key at which a region begins. -/
def regionKey (r : Option Region) : Nat := (r.map (fun r => addrKey r.base)).getD 0

/-- The index of a tile in this instance's range, and how many tiles that has. -/
def State.tileIdx (s : State) (h t : Nat) : Nat := t - (s.ownTiles h).headD 0
def State.tileNum (s : State) (h : Nat) : Nat := (s.ownTiles h).length

/-- A main tile in the code region. -/
def State.mainKey (s : State) (h k t : Nat) : Nat := regionKey (s.bank h k).code + tileSize (s.bank h k).fmt (s.head h).d * s.tileIdx h t

/-- An outlier tile in the code region: its id list, then its block records. -/
def State.outlKey (s : State) (h k j : Nat) : Nat :=
  regionKey (s.bank h k).code + tileSize (s.bank h k).fmt (s.head h).d * s.tileNum h + outlSize (s.head h).d * j

/-- Code bytes of a bank with `no` outlier entries, without variants. -/
def State.codeBytes (s : State) (h fmt no : Nat) : Nat := s.tileNum h * tileSize fmt (s.head h).d + ceilDiv no 512 * outlSize (s.head h).d

/-- The norm list of a main tile and of an outlier tile in the side region. -/
def State.mainList (s : State) (h k t : Nat) : Nat := regionKey (s.bank h k).side + 2112 * s.tileIdx h t
def State.outlList (s : State) (h k j : Nat) : Nat := regionKey (s.bank h k).side + 2112 * s.tileNum h + 2048 * j

/-- Gain, bias and the auxiliary heads behind the norm lists, each only when present. -/
def State.gainKey (s : State) (h k : Nat) : Nat := s.outlList h k (ceilDiv (s.bank h k).data.outl.length 512)
def State.biasKey (s : State) (h k : Nat) : Nat := s.gainKey h k + 2 * (s.head h).d * b2n (s.bank h k).data.gain
def State.auxKeyOf (s : State) (h k : Nat) (reward : Bool) : Nat :=
  s.biasKey h k + 2 * (s.head h).d * b2n (s.bank h k).data.bias + (if reward then auxSize (s.head h).d * b2n (s.bank h k).data.value else 0)

/-- Side bytes of a bank part, without variants. -/
def sideSize (t no d : Nat) (gain bias value reward : Bool) : Nat :=
  t * 2112 + ceilDiv no 512 * 2048 + 2 * d * (b2n gain + b2n bias) + auxSize d * (b2n value + b2n reward)

/-- The first place, from `base` on, where `need` bytes lie clear of the places in use. -/
def firstFit (base need : Nat) (used : List (Nat × Nat)) : Nat :=
  (sortBy (fun (a b : Nat × Nat) => decide (a.1 < b.1)) used).foldl (fun a u => if a + need ≤ u.1 then a else max a (u.1 + u.2)) base

/-- Where one more variant of a rank is put in the code and side regions of a slot, as offsets. -/
def State.varPlace (s : State) (h k rank : Nat) : Nat × Nat :=
  let b := s.bank h k
  let x := b.data
  let d := (s.head h).d
  let t := s.tileNum h
  (firstFit (s.codeBytes h b.fmt x.outl.length) (varCode d t rank) (b.vars.map (fun v => (v.2.code, varCode d t v.2.rank))),
   firstFit (sideSize t x.outl.length d x.gain x.bias x.value x.reward) (varSide t rank) (b.vars.map (fun v => (v.2.side, varSide t v.2.rank))))

/-- A row of A_v: its codes, then its scales. -/
def State.varRowKey (s : State) (h k : Nat) (x : Variant) (r : Nat) : Nat :=
  regionKey (s.bank h k).code + x.code + ((s.head h).d + (s.head h).d / 32) * r

/-- The blocks of B_v for a tile. -/
def State.varTileKey (s : State) (h k : Nat) (x : Variant) (t : Nat) : Nat :=
  s.varRowKey h k x x.rank + recBytes .fp4 * (padRank x.rank / 32) * s.tileIdx h t

/-- The WB and RB list of a tile, and the shadow of B_v for it. -/
def State.varList (s : State) (h k : Nat) (x : Variant) (t : Nat) : Nat :=
  regionKey (s.bank h k).side + x.side + (2048 + 1024 * x.rank) * s.tileIdx h t

/-- The key of an entry's B_v shadow. -/
def State.varShadow (s : State) (h k : Nat) (x : Variant) (id : Nat) : Nat :=
  s.varList h k x (id / 512) + 2048 + 2 * x.rank * (id % 512)

/-- The key of an entry's shadow row: in the source in adopt mode, else in the slot's shadow region from the range's first entry on
(R287). -/
def State.shadowKey (s : State) (h k v : Nat) : Nat :=
  let b := s.bank h k
  let d := (s.head h).d
  if b.blk.adopt then addrKey b.blk.main + 2 * d * v else regionKey b.shadow + 2 * d * (v - 512 * (s.ownTiles h).headD 0)

/-! ## Reading -/

/-- BF16 values in memory. -/
def Memory.bf16s (m : Memory) (k n : Nat) : List BF16 := (List.range n).map (fun i => BitVec.ofNat 16 (m.num (k + 2 * i) 2))

/-- Codes unpacked from bytes, low element first (R60). -/
def unpackCodes (f : WFmt) (bs : List Byte) : List Nat :=
  bs.flatMap (fun b => (List.range (8 / f.bits)).map (fun i => bitsAt b (f.bits * i) f.bits))

/-- One lane's block of a block record. -/
def Memory.laneBlock (m : Memory) (f : WFmt) (k lane : Nat) : WBlock :=
  { codes := unpackCodes f (m.bytes (k + 4 * f.bits * lane) (4 * f.bits)), scale := (m.byte (k + 2048 * f.bits + lane)).toNat }

/-- One lane's blocks of a run of block records. -/
def Memory.laneBlocks (m : Memory) (f : WFmt) (k lane n : Nat) : List WBlock := (List.range n).map (fun b => m.laneBlock f (k + recBytes f * b) lane)

/-- A row of weights of d elements stored as codes and then scales. -/
def Memory.weightRow (m : Memory) (k d : Nat) : List WBlock :=
  (List.range (d / 32)).map (fun b => { codes := unpackCodes .e4m3 (m.bytes (k + 32 * b) 32), scale := (m.byte (k + d + b)).toNat })

/-- A lane's norm-list word (Table 5.2). -/
def Memory.norms (m : Memory) (list lane : Nat) : F16 × F16 :=
  let w := m.word (list + 4 * lane)
  (BitVec.ofNat 16 (bitsAt w 0 16), BitVec.ofNat 16 (bitsAt w 16 16))

/-- An entry from its lane and its norm list. -/
def Memory.entry (m : Memory) (f : WFmt) (k list lane n : Nat) : WEntry :=
  { blocks := m.laneBlocks f k lane n, wn := (m.norms list lane).1, rn := (m.norms list lane).2 }

/-- The main form of an entry. -/
def State.mainEntry (s : State) (h k id : Nat) : WEntry :=
  s.mem.entry (fmtOf (s.bank h k).fmt) (s.mainKey h k (id / 512)) (s.mainList h k (id / 512)) (id % 512) ((s.head h).d / 32)

/-- The E4M3 form of the outlier entry at a position of the bank's list. -/
def State.outlEntry (s : State) (h k i : Nat) : WEntry :=
  s.mem.entry .e4m3 (s.outlKey h k (i / 512) + 2048) (s.outlList h k (i / 512)) (i % 512) ((s.head h).d / 32)

/-- B_v's blocks for an entry. In an outlier tile they are E4M3 codes of the same values (R102): a block sum and its scale are then the same
numbers, so the model reads the stored FP4 ones (DEDUCED, log 39). -/
def State.varEntry (s : State) (h k : Nat) (x : Variant) (id : Nat) : WEntry :=
  s.mem.entry .fp4 (s.varTileKey h k x (id / 512)) (s.varList h k x (id / 512)) (id % 512) (padRank x.rank / 32)

/-- The variant of a bank whose part is written here. -/
def Bank.variant (b : Bank) (v : Nat) : Option Variant := (Tab.find? b.vars v).filter (fun x => x.here)

/-- The rows of A_v. -/
def State.varRows (s : State) (h k : Nat) (x : Variant) : List (List WBlock) :=
  (List.range x.rank).map (fun r => s.mem.weightRow (s.varRowKey h k x r) (s.head h).d)

/-- Gain and bias of a bank. -/
def State.bankGain (s : State) (h k : Nat) : Option (List BF16) :=
  if (s.bank h k).data.gain then some (s.mem.bf16s (s.gainKey h k) (s.head h).d) else none
def State.bankBias (s : State) (h k : Nat) : Option (List BF16) :=
  if (s.bank h k).data.bias then some (s.mem.bf16s (s.biasKey h k) (s.head h).d) else none

/-- A bank carries an auxiliary head on this instance. -/
def Bank.hasAux (b : Bank) (reward : Bool) : Bool := if reward then b.data.reward else b.data.value

/-- The parts of an auxiliary head: W1 as two tiles of block records, w2 with its scales, b1, b2. -/
def State.auxPart (s : State) (h k : Nat) (reward : Bool) (i : Nat) : Nat :=
  let d := (s.head h).d
  s.auxKeyOf h k reward + [0, 528 * d, 1056 * d, 1056 * d + 1056, 1056 * d + 1056 + 4096].getD i 0

/-- An auxiliary head of a bank. -/
def State.auxOf (s : State) (h k : Nat) (reward : Bool) : Option AuxHead :=
  let b := s.bank h k
  if b.hasAux reward then
    let d := (s.head h).d
    let p := s.auxPart h k reward
    some { w1 := (List.range 1024).map (fun j => s.mem.laneBlocks .e4m3 (p (j / 512)) (j % 512) (d / 32)),
           b1 := s.mem.words (p 3) 1024, gelu := b.blk.gelu.testBit (b2n reward),
           w2 := s.mem.weightRow (p 2) 1024, b2 := s.mem.word (p 4) }
  else none

/-! ## What the loader reads of a tile (R97, R98) -/

/-- A run of codes and a run of scales in memory. -/
structure Piece where
  f    : WFmt
  code : Nat
  n    : Nat
  scl  : Nat
  m    : Nat
deriving DecidableEq, Repr

/-- A whole block record. -/
def pieceRec (f : WFmt) (k : Nat) : Piece := { f := f, code := k, n := 2048 * f.bits, scl := k + 2048 * f.bits, m := 512 }

/-- One lane of a block record. -/
def pieceLane (f : WFmt) (k lane : Nat) : Piece := { f := f, code := k + 4 * f.bits * lane, n := 4 * f.bits, scl := k + 2048 * f.bits + lane, m := 1 }

/-- Bytes of a piece. -/
def Piece.size (p : Piece) : Nat := p.n + p.m

/-- A read of a piece fails: an uncorrectable error, a scale of 0xFF, or a code that no bank may hold (R58 to R60, R98). -/
def Piece.bad (p : Piece) (m : Memory) : Bool :=
  m.bad p.code p.n || m.bad p.scl p.m || (m.bytes p.scl p.m).any (fun b => decide (b = 255))
  || (unpackCodes p.f (m.bytes p.code p.n)).any (fun c => p.f.badCode c)

/-- The pieces of a segment of a tile: 64 blocks of each lane, hidden blocks first and then the blocks of the variants of the pass in ascending
number; a segment of a pre-tile takes the same run of each of its rows of A_v. -/
def State.segPieces (s : State) (h k : Nat) (vs : List Variant) (t : TileRef) (seg : Nat) : List Piece :=
  let b := s.bank h k
  let nb := (s.head h).d / 32
  let hid := fun (f : WFmt) (key : Nat) => ((span (64 * seg) 64).filter (fun j => decide (j < nb))).map (fun j => pieceRec f (key + recBytes f * j))
  let aug := fun (g : Variant → Nat → List Piece) =>
    let all := vs.flatMap (fun x => (List.range (padRank x.rank / 32)).map (fun j => (x, j)))
    (((all.zipIdx nb).filter (fun e => decide (e.2 / 64 = seg))).flatMap (fun e => g e.1.1 e.1.2))
  match t with
  | .main t => hid (fmtOf b.fmt) (s.mainKey h k t) ++ aug (fun x j => [pieceRec .fp4 (s.varTileKey h k x t + recBytes .fp4 * j)])
  | .outl i => hid .e4m3 (s.outlKey h k i + 2048)
      ++ aug (fun x j => (b.outlIds i).map (fun id => pieceLane .fp4 (s.varTileKey h k x (id / 512) + recBytes .fp4 * j) (id % 512)))
  | .pre i =>
    let rows := ((vs.flatMap (fun x => (List.range x.rank).map (fun r => s.varRowKey h k x r))).drop (512 * i)).take 512
    let n := min 64 (nb - 64 * seg)
    rows.map (fun key => { f := .e4m3, code := key + 2048 * seg, n := 32 * n, scl := key + 32 * nb + 64 * seg, m := n })
  | .aux w j =>
    hid .e4m3 (s.auxPart h k w j)
      ++ (if j = 0 ∧ seg = 0 then [{ f := .e4m3, code := s.auxPart h k w 2, n := 1024, scl := s.auxPart h k w 2 + 1024, m := 32 }] else [])

/-! ## Writing -/

/-- Codes packed into bytes, low element first (R60). -/
def packCodes (f : WFmt) (cs : List Nat) : List Byte :=
  let k := 8 / f.bits
  (blocksOf k cs).map (fun g => BitVec.ofNat 8 ((g.zipIdx).foldl (fun a x => a + (x.1 % 2 ^ f.bits) * 2 ^ (f.bits * x.2)) 0))

/-- A block that pads a lane. -/
def WBlock.zero : WBlock := { codes := List.replicate 32 0, scale := 0 }

/-- Block records of 512 lanes: codes in lane order, then scales (R96). -/
def laneRecords (f : WFmt) (nb : Nat) (ls : List (List WBlock)) : List Byte :=
  (List.range nb).flatMap (fun b =>
    ls.flatMap (fun l => packCodes f (l.getD b WBlock.zero).codes) ++ ls.map (fun l => BitVec.ofNat 8 (l.getD b WBlock.zero).scale))

/-- A list filled up to 512 with a value. -/
def pad512 {α : Type} (x : α) (l : List α) : List α := l ++ List.replicate (512 - l.length) x

/-- A tile's block records. -/
def tileBytes (f : WFmt) (nb : Nat) (es : List WEntry) : List Byte := laneRecords f nb (pad512 [] (es.map (fun e => e.blocks)))

/-- A norm list (Table 5.2). -/
def listBytes (es : List WEntry) : List Byte :=
  wordsBytes (pad512 0 (es.map (fun e => w32 (e.wn.toNat + putBits e.rn.toNat 16))))

/-- A tile header: bit lane set where the lane is an outlier entry (R285). -/
def headerBytes (outl : List Bool) : List Byte :=
  (blocksOf 8 outl).map (fun g => BitVec.ofNat 8 ((g.zipIdx).foldl (fun a x => a + b2n x.1 * 2 ^ x.2) 0))

/-- The id list of an outlier tile: bit 31 marks a padding lane (R96). -/
def idListBytes (ids : List Nat) : List Byte := wordsBytes (pad512 0x80000000 (ids.map w32))

/-- A row of weights as codes and then scales. -/
def rowBytes (bs : List WBlock) : List Byte := (bs.flatMap (fun b => b.codes)).map (BitVec.ofNat 8) ++ bs.map (fun b => BitVec.ofNat 8 b.scale)

/-- BF16 values as bytes. -/
def b16Bytes (l : List BF16) : List Byte := l.flatMap (fun x => natBytes 2 x.toNat)

/-- An auxiliary head as bytes, in the order of `auxPart`. -/
def auxBytes (d : Nat) (x : AuxHead) : List Byte :=
  laneRecords .e4m3 (d / 32) (x.w1.take 512) ++ laneRecords .e4m3 (d / 32) (x.w1.drop 512) ++ rowBytes x.w2 ++ wordsBytes x.b1 ++ wordsBytes [x.b2]

/-- What the requantiser forms of a bank (R285). -/
structure BankParts where
  main   : Tab WEntry
  outl   : Tab WEntry
  gain   : Option (List BF16)
  bias   : Option (List BF16)
  value  : Option AuxHead
  reward : Option AuxHead
deriving DecidableEq, Repr

/-- The loader's record of the parts. -/
def BankParts.data (x : BankParts) (next : Nat) : BankData :=
  { outl := x.outl.map (·.1), gain := x.gain.isSome, bias := x.bias.isSome, value := x.value.isSome, reward := x.reward.isSome, next := next }

/-- Entries of a table in a list of ids. -/
def entriesOf (t : Tab WEntry) (ids : List Nat) : List WEntry := ids.map (fun id => Tab.get t id { blocks := [], wn := 0, rn := 0 })

/-- An optional part stored. -/
def State.storeOpt (s : State) (k : Nat) (bs : Option (List Byte)) : State := match bs with
  | some l => s.store k l
  | none => s

/-- A bank part written to the slot's regions: main tiles with their lists and headers, outlier tiles with their id lists and norm lists, gain,
bias, auxiliary heads, and in copy mode the shadow (R280, R285, R287). The slot names the parts already. -/
def State.writeBank (s : State) (h k : Nat) (x : BankParts) : State :=
  let b := s.bank h k
  let d := (s.head h).d
  let ts := s.ownTiles h
  let s1 := ts.foldl (fun (s : State) t =>
    let es := entriesOf x.main (tileIds t)
    (s.store (s.mainKey h k t) (tileBytes (fmtOf b.fmt) (d / 32) es)).store (s.mainList h k t)
      (listBytes es ++ headerBytes ((tileIds t).map (fun id => b.data.outl.contains id)))) s
  let s2 := (List.range (ceilDiv b.data.outl.length 512)).foldl (fun (s : State) j =>
    let ids := b.outlIds j
    let es := entriesOf x.outl ids
    (s.store (s.outlKey h k j) (idListBytes ids ++ tileBytes .e4m3 (d / 32) es)).store (s.outlList h k j) (listBytes es)) s1
  let s3 := ((s2.storeOpt (s.gainKey h k) (x.gain.map b16Bytes)).storeOpt (s.biasKey h k) (x.bias.map b16Bytes))
  let s4 := (s3.storeOpt (s.auxKeyOf h k false) (x.value.map (auxBytes d))).storeOpt (s.auxKeyOf h k true) (x.reward.map (auxBytes d))
  if b.blk.adopt then s4
  else
    let lo := 512 * ts.headD 0
    let n := min (512 * ts.length) ((s.head h).v - lo)
    s4.store (regionKey b.shadow) (s.mem.bytes (addrKey b.blk.main + 2 * d * lo) (2 * d * n))

/-- A variant's part written: the rows of A_v, then tile by tile the blocks of B_v, their list and their shadow (R99, R293). -/
def State.writeVar (s : State) (h k : Nat) (x : Variant) (a : List (List WBlock)) (bt : Tab WEntry) (src : Nat → List BF16) : State :=
  let s1 := s.store (s.varRowKey h k x 0) (a.flatMap rowBytes)
  (s.ownTiles h).foldl (fun (s : State) t =>
    let es := entriesOf bt (tileIds t)
    (s.store (s.varTileKey h k x t) (tileBytes .fp4 (padRank x.rank / 32) es)).store (s.varList h k x t)
      (listBytes es ++ b16Bytes ((tileIds t).flatMap (fun id => if id < (s.head h).v then src id else List.replicate x.rank 0)))) s1

end Sys2Proof.Machine
end

