-- ==== Sys2Proof/Machine/Certify.lean ====
section
/-! DEFINITION. What the root computes of a row: certification, log-probabilities and their bounds, top lists, KL estimates, and the
decision of a verify group (R119 to R127, R143, R152, R195 to R203, R213, R218, R234). -/

namespace Sys2Proof.Machine

/-! ## Certification without re-scores (R119) -/

/-- The fast winner is certified at once. -/
def fastCertified (w : WinRec) (b : WinB) : Bool := b.conts.all (fun c => decide (c.id = w.id) || flt c.u w.l) && flt b.spill w.l

/-! ## The rescore loop (R120) -/

/-- A contender that cannot beat the best re-scored one. -/
def closedBy (t : F32) (id : Nat) (c : WinRec) : Bool := flt c.u t || (feq c.u t && decide (id < c.id))

/-- What the loop does next. -/
inductive LoopNext where
  | certified (r : RspB)
  | cap
  | timeout
  | send (ids : List WinRec)
deriving DecidableEq, Repr

/-- The next batch: at most m contenders from position i, ending before the first closed one. -/
def batchFrom (best : Option (F32 × RspB)) (l : List WinRec) (m : Nat) : List WinRec :=
  (l.take m).takeWhile (fun c => match best with
    | some (t, r) => !closedBy t r.id c
    | none => true)

/-- One pass of the loop, from its top to its next request or its exit. -/
def Loop.next (l : Loop) (rscap rsbatch : Nat) (late : Bool) : LoopNext :=
  let n := l.conts.length
  let ends := match l.best, l.conts[l.i]? with
    | some (t, r), some c => closedBy t r.id c
    | some _, none => true
    | none, _ => false
  match l.best, ends with
  | some (t, r), true => if flt l.spill t then .certified r else .cap
  | _, _ =>
    if n ≤ l.i ∨ rscap ≤ l.done then .cap
    else if late then .timeout
    else .send (batchFrom l.best (l.conts.drop l.i) (min rsbatch (rscap - l.done)))

/-- The better of the best reply and another (R120): larger T, then lower id. -/
def betterReply (a : Option (F32 × RspB)) (t : F32) (r : RspB) : Option (F32 × RspB) :=
  match a with
  | none => some (t, r)
  | some (t', r') => if flt t' t || (!flt t t' && decide (r.id < r'.id)) then some (t, r) else a

/-! ## Log-probabilities (R76, R126, R143) -/

/-- One sum as the root reports it: its accumulators, its anchor, ε_max and W over its entries. -/
structure SumAt where
  s   : Acc
  e   : Acc
  c   : F32
  eps : F32
  w   : F32
deriving DecidableEq, Repr

/-- lp of a score. -/
def SumAt.lp (q : SumAt) (x : F32) : F32 := lpOf x q.c (sumLog q.s)

/-- The distance of two scores, rounded up. -/
def distUp (x c : F32) : F32 := if fle c x then badd x (fneg c) else badd c (fneg x)

/-- δ_r of R126; every operation rounds up, and the terms are added in the order in which R126 writes them. -/
def SumAt.delta (q : SumAt) (x : F32) : F32 :=
  let a := badd (badd (badd f32One (fabs (sumLog q.s))) (distUp x q.c)) (bmul 0x40800000 q.w)
  let b := bmul 0x35800000 a
  if accInt q.s = 0 then b else badd b (ofDyUp { m := ((2 ^ 400 / (accInt q.s).natAbs + 1 : Nat) : Int), e := -379 })

/-- LPBND as FP16, rounded up; above 65,504 it is +infinity. -/
def SumAt.bound (q : SumAt) (lam epsTok x : F32) : F16 := toF16 .rup (badd (bmul lam (badd epsTok q.eps)) (q.delta x))

/-- The chain sum and the model sum of a STAT with their anchors. -/
def chainSum (t : StatB) (c : F32) : SumAt := { s := t.sq, e := t.eq, c := c, eps := t.epsmax, w := t.wx }
def modelSum (t : StatB) (c : F32) : SumAt := { s := t.mq, e := t.meq, c := c, eps := t.epsmax, w := t.wx2 }

/-- The sums over a truncated E (R143). Its ε_max and W are the largest over the entries of E itself, "the entries of the sum" of R126, and
not STAT's, which cover every unmasked entry (DESIGN CHOICE, log 127). -/
def setSum (l : List CandRec) (c : F32) : SumAt :=
  { s := l.foldl (fun a e => a + (sumTerms e.x c).1) 0, e := l.foldl (fun a e => a + (sumTerms e.x c).2) 0, c := c,
    eps := l.foldl (fun a e => fmax a e.eps) 0, w := l.foldl (fun a e => fmax a (fabs e.x)) 0 }

/-- The anchors in force for a row's sums: C' of R77 where a repeat pass recomputed the sum. -/
def chainC (p : Profile) (t : StatB) : F32 := if t.chain20 then ceilF t.xmax else chainAnchor p
def modelC (p : Profile) (t : StatB) : F32 := if t.model20 then ceilF t.x2max else modelAnchor p

/-- LOGPROB, LPBND and the other quantity of a row's token (R143, R126). -/
structure LpOut where
  logprob : F32
  lpalt   : F32
  bnd     : F16
deriving DecidableEq, Repr

/-- E of a row: the truncated set, or every unmasked entry. -/
def sampledSum (p : Profile) (t : StatB) (e : Option (List CandRec)) : SumAt :=
  match e with
  | some l => setSum l (chainC p t)
  | none => chainSum t (chainC p t)

/-- LP_SAMPLED is +0 exactly at T = 0 or when E has one entry. -/
def exactZero (p : Profile) (t : StatB) (e : Option (List CandRec)) : Bool :=
  isZero p.temp || decide ((match e with
    | some l => l.length
    | none => t.cnt) = 1)

/-- The log-probabilities of a chosen token (DEDUCED, logs 87, 127). -/
def lpOut (p : Profile) (t : StatB) (e : Option (List CandRec)) (w : Chosen) : LpOut :=
  let q := sampledSum p t e
  let m := modelSum t (modelC p t)
  let zero := exactZero p t e
  let x2 := softcap p.softcap w.z
  let eps := if w.shadow then 0 else w.eps
  let sampled := if zero then 0 else q.lp w.x
  let model := m.lp x2
  if p.lpsel = 1 then { logprob := model, lpalt := sampled, bnd := m.bound f32One eps x2 }
  else { logprob := sampled, lpalt := model, bnd := if zero then 0 else q.bound (slope p) eps w.x }

/-- Flag LPB: LPBND exceeds LPTOL. -/
def lpbFlag (p : Profile) (b : F16) : Bool := flt (ofF16 p.lptol) (ofF16 b)

/-- The list of R152 for a chosen token. -/
def topList (p : Profile) (s : PartSum) (e : Option (List CandRec)) (w : Chosen) (lp : LpOut) : List (Nat × F32) :=
  if p.ntop = 0 then []
  else if p.lpsel = 1 then
    let m := modelSum s.stat (modelC p s.stat)
    s.topm.map (fun x => (x.1, if x.1 = w.id then lp.logprob else m.lp x.2))
  else if isZero p.temp then [(w.id, 0)]
  else
    let q := sampledSum p s.stat e
    ((e.getD s.cand).take p.ntop).map (fun c => (c.id, if c.id = w.id then lp.logprob else q.lp c.x))

/-! ## SCORE rows (R213, R218) -/

/-- EXP(y) of R218. -/
def expK (y : F32) : F32 := exp2 (fmul y log2eF)

/-- KL1, KL2, KL3. -/
def klOf (a b : F32) : F32 × F32 × F32 :=
  if (isInf a && isNeg a) || (isInf b && isNeg b) then (f32Nan, f32Nan, f32Nan)
  else
    let r := fsub b a
    let r2 := fmul r r
    let k3 := if flt (fabs r) 0x3D800000 then fadd (fmul r2 0x3F000000) (fdiv (fmul r2 r) 0x40C00000)
      else fsub (fsub (expK r) f32One) r
    (fsub a b, fmul r2 0x3F000000, if flt k3 0 then 0 else k3)

/-- The list of a SCORE row, in candidate order with the chain sum: LPSEL does not apply (R213, DEDUCED, log 126). -/
def scoreTop (p : Profile) (s : PartSum) : List (Nat × F32) :=
  (s.cand.take p.ntop).map (fun c => (c.id, (chainSum s.stat (chainC p s.stat)).lp c.x))

/-! ## Retained sets and acceptance (R194 to R200) -/

/-- A score listed in a retained set. -/
def retScore (r : RetSet) (v : Nat) : Option F32 := (r.ents.find? (fun e => e.1 = v)).map (·.2)

/-- t of a listed entry. -/
def retTq (r : RetSet) (v : Nat) : Nat := match retScore r v with
  | some x => if r.zero then 1 <<< 256 else term r.anch x
  | none => 0

/-- The set puts doubt on a row that reads it (R195). -/
def retDoubt (r : RetSet) : Bool := r.bad || (!r.zero && decide (accInt r.qd = 0))

/-- The argmax of a VERIFY row: best of its records and of the entries outside its set (R147). -/
def argmaxOf (recs : List CandRec) (w : WinB) : Option Nat :=
  (betterFast w.fast ((sortBy candLt recs).head?.map (fun c => winRecOf none c))).map (fun x => x.id)

/-- S_V of a VERIFY row (R199). -/
def sv (p : Profile) (t : StatB) (e : Option (List CandRec)) : Nat := (accInt (sampledSum p t e).s).natAbs

/-- t of an entry in a VERIFY row, 0 outside E_V (R199). -/
def tv (p : Profile) (s : PartSum) (e : Option (List CandRec)) (v : Nat) : Nat :=
  if isZero p.temp then (if argmaxOf s.rset s.win = some v then 1 else 0)
  else match (e.getD s.rset).find? (fun c => decide (c.id = v)) with
    | some c => term (chainC p s.stat) c.x
    | none => 0

/-- The exact acceptance test (R200). -/
def accepts (p : Profile) (s : PartSum) (e : Option (List CandRec)) (r : RetSet) (k : Nat) : Bool :=
  let q := if r.zero then (1, 1) else (retTq r r.dtoken, (accInt r.qd).natAbs)
  let pq := if isZero p.temp then (tv p s e r.dtoken, 1) else (tv p s e r.dtoken, sv p s.stat e)
  decide ((2 * k + 1) * q.1 * pq.2 < 2 ^ 25 * pq.1 * q.2)

/-- Drafts accepted before the first rejection. -/
def acceptRun (seed : W64) (clen : Nat) : Nat → List (Profile × PartSum × Option (List CandRec) × RetSet) → Nat
  | n, [] => n
  | n, (p, s, e, r) :: rest => if accepts p s e r (pipK seed (clen + n) purAccept 0) then acceptRun seed clen (n + 1) rest else n

/-- The correction c_v of an entry at a score; none when it is excluded (R201, R234). -/
def correction (p : Profile) (s : PartSum) (e : Option (List CandRec)) (r : RetSet) (v : Nat) (x : F32) : Option F32 :=
  match retScore r v with
  | none => some 0
  | some _ =>
    if isZero p.temp then
      (if argmaxOf s.rset s.win = some v ∧ !(r.zero || decide ((retTq r v : Int) = accInt r.qd)) then some 0 else none)
    else if r.zero then none
    else
      let rho := quotF { m := ((retTq r v * sv p s.stat e : Nat) : Int), e := 0 } { m := ((term (chainC p s.stat) x * (accInt r.qd).natAbs : Nat) : Int), e := 0 }
      if isNan rho || fle f32One rho then none
      else some (fmul (log2 (fsub f32One rho)) ln2F)

/-- x + c_v, rounded first; x itself when c_v is 0 (R201). -/
def corrected_ (c : Option F32) (x : F32) : F32 := match c with
  | none => f32NegInf
  | some c => if isZero c then x else fadd x c

/-- The contenders of a residual draw (R201 to R203): the entries of E_V left, with purpose 3 noise. -/
def residual (seed : W64) (pos : Nat) (p : Profile) (s : PartSum) (e : Option (List CandRec)) (r : RetSet) : WinB :=
  let f := fun (c : CandRec) (v x : F32) => withNoise (noiseOf p seed pos purResidual c.id) (corrected_ (correction p s e r c.id v) x)
  let left := fun (l : List CandRec) => (l.filter (fun c => (correction p s e r c.id c.x).isSome)).map (fun c =>
    ({ id := c.id, z := c.zf, eps := c.eps, s := f c c.x c.x, u := f c c.xhi c.xhi, x := c.x, l := f c c.xlo c.xlo } : WinRec))
  match e with
  | some l => winOf (left l)
  | none => winMerge (winOf (left s.rset)) s.win

/-- The plain draw of row n when rounding leaves no entry (R201). -/
def residualPlain (seed : W64) (pos : Nat) (p : Profile) (s : PartSum) (e : Option (List CandRec)) : WinB :=
  let f := fun (c : CandRec) => winRecOf (noiseOf p seed pos purResidual c.id) c
  match e with
  | some l => winOf (l.map f)
  | none => winMerge (winOf (s.rset.map f)) s.win

end Sys2Proof.Machine
end

