-- ==== Sys2Proof/Machine/Sides.lean ====
section
/-! DEFINITION. What a row is at its placement: configuration in force, its merged profile, its pins, its tentative state, its side
lists, and the causes that void it (R138, R177, R181, R185, R187, R190 to R192, R196, R202, R226, R230, R250, R313). -/

namespace Sys2Proof.Machine

/-! ## Configuration sets (R230) -/

/-- The values that CFG.SET carries. -/
def setVals (pk : Pkt) : CfgVals :=
  { gather := pk.fld 2 0 16, copyskew := pk.fld 3 0 12, egressres := pk.fld 4 0 8, rqshare := pk.fld 5 0 7, forceovl := pk.fld 6 0 15 }

/-- The set that CFG.SET carries; every field of the base set counts as present. -/
def setOf (pk : Pkt) : CfgSet := { present := if pk.fld 0 0 4 = 0 then 0x1F else pk.fld 1 0 5, vals := setVals pk }

/-- A set rewritten. -/
def State.putSet (s : State) (n : Nat) (v : CfgSet) : State :=
  if n = 0 then { s with conf := { s.conf with base := v } } else { s with conf := { s.conf with ovl := Tab.set s.conf.ovl n v } }

/-- An overlay set merged over the base set. -/
def CfgVals.over (a : CfgVals) (b : CfgSet) : CfgVals :=
  let t := fun n => b.present.testBit n
  { gather := if t 0 then b.vals.gather else a.gather, copyskew := if t 1 then b.vals.copyskew else a.copyskew,
    egressres := if t 2 then b.vals.egressres else a.egressres, rqshare := if t 3 then b.vals.rqshare else a.rqshare,
    forceovl := if t 4 then b.vals.forceovl else a.forceovl }

/-- The values of a phase. -/
def Conf.valsAt (c : Conf) (ph : Nat) : CfgVals :=
  if ph = 0 then c.base.vals
  else match Tab.find? c.ovl ph with
    | some o => c.base.vals.over o
    | none => c.base.vals

/-- The values in force. -/
def State.cfg (s : State) : CfgVals := s.conf.valsAt s.conf.phase

/-! ## Rows and requests -/

/-- The key of a CLOSE entry. -/
def closeKey (c : CloseRow) : RowKey := { handle := c.handle, pos := c.pos, cls := c.cls, gidx := c.gidx }

/-- Index of a row in the tentative ring: entries it sees as tentative (R181, R196). -/
def tentIdx (x : Scx) (k : RowKey) : Nat := if k.cls = clVerify then k.gidx else if k.cls = clDraft then k.pos - x.clen else 0

/-- A row's tentative state is valid (R191, R192, R181). -/
def tentOk (x : Scx) (k : RowKey) (draftn : Nat) : Bool :=
  if k.cls = clDraft then decide (x.clen ≤ k.pos ∧ k.pos - x.clen ≤ x.tent.length)
  else if k.cls = clVerify then decide (k.pos = x.clen + k.gidx ∧ draftn ≤ x.tent.length)
  else true

/-- The grammar state of ring entry j (R180). -/
def Scx.ringState (x : Scx) (j : Nat) : Nat := if j = 0 then x.cstate else ((x.tent[j - 1]?).map (fun t => t.state)).getD 0

/-- The history and the last tokens of a request after a token at a position, outside any part (R137, R196). -/
def Scx.histStep (x : Scx) (i t : Nat) : Scx :=
  let y := if x.histCounts i then (x.histAdd (histKey (x.recent.take (x.rs.ngram - 1)).reverse) t).1 else x
  { y with recent := (t :: x.recent).take 3 }

/-- The ban list of a row, with its tentative tokens (R137, R196). -/
def rowBans (x : Scx) (k : RowKey) : List Nat :=
  let y := ((x.tent.take (tentIdx x k)).zipIdx).foldl (fun (y : Scx) e => y.histStep (x.clen + e.2) e.1.tok) x
  y.bans k.pos y.recent

/-- Occurrences of the tentative tokens a row sees, by ascending id (R196). -/
def rowCounts (x : Scx) (k : RowKey) : List (Nat × Nat) :=
  let ts := (x.tent.take (tentIdx x k)).map (fun t => t.tok)
  sortBy (fun (a b : Nat × Nat) => decide (a.1 < b.1)) (ts.dedup.map (fun v => (v, ts.count v)))

/-- The side lists of a row whose home this instance is (R138, R177, R196, R202, R250). -/
def rowSides (x : Scx) (k : RowKey) (p : Profile) (draftn : Nat) : Sides :=
  { counts := if usesCount p then rowCounts x k else [],
    biases := x.bias, bans := if x.histRes then rowBans x k else [],
    sketch := if p.latepath = 1 then (if x.sketch.isEmpty then sketchZero else x.sketch) else [],
    ret := if k.cls = clVerify ∧ k.gidx < draftn then [(k.gidx, ((x.tent[k.gidx]?).map (fun t => t.ret.ents.map (·.1))).getD [])] else [],
    sets := if k.cls = clVerify ∧ k.gidx < draftn then (x.tent[k.gidx]?).toList.map (fun t => (k.gidx, t.ret)) else [],
    grammar := x.gram.map (fun g => (g, x.ggen, x.ringState (tentIdx x k))) }

/-- A side body joined to what a row holds (Table 15.14). -/
def Sides.add (x : Sides) : SideB → Sides
  | .counts _ l => { x with counts := x.counts ++ l }
  | .biases _ l => { x with biases := x.biases ++ l }
  | .bans _ l => { x with bans := x.bans ++ l }
  | .sketch l => { x with sketch := l }
  | .retset j _ l => { x with ret := Tab.upd x.ret j [] (· ++ l) }
  | .retdata j r => { x with sets := Tab.set x.sets j r }
  | .grammar g n st => { x with grammar := some (g, n, st) }

/-- The side bodies that a shard is sent: its part of each list that is not empty; the root also the sets that it tests drafts against (R202). -/
def Sides.bodies (x : Sides) (mine : Nat → Bool) (root : Bool) : List SideB :=
  let c := x.counts.filter (fun e => mine e.1)
  let b := x.biases.filter (fun e => mine e.1)
  let n := x.bans.filter mine
  (if c.isEmpty then [] else [SideB.counts false c]) ++ (if b.isEmpty then [] else [SideB.biases false b])
  ++ (if n.isEmpty then [] else [SideB.bans false n]) ++ (if x.sketch.isEmpty then [] else [SideB.sketch x.sketch])
  ++ x.ret.map (fun r => SideB.retset r.1 false (r.2.filter mine))
  ++ (if root then x.sets.map (fun r => SideB.retdata r.1 r.2) else [])
  ++ (x.grammar.map (fun g => SideB.grammar g.1 g.2.1 g.2.2)).toList

/-- Side lists sent to every other shard (R247). -/
def State.sendSides (s : State) (num hset : Nat) (r : PRow) (x : Sides) : State :=
  ((List.range s.orch.n).filter (fun i => decide (i ≠ s.orch.shard))).foldl (fun (s : State) i =>
    (x.bodies (fun v => decide (s.ownerOf hset v = i)) (decide (i = s.orch.rootSh))).foldl (fun (s : State) b =>
      s.sendMsg { hdr := s.hdr i false num r.slot 0 r.key.handle, body := .side b }) s) s

/-! ## Forming a row (R185, R187, R226, R313) -/

/-- The profile generation a placement resolves to. -/
def State.profGen (s : State) (n tseq : Nat) : Nat := s.genAt (swapProf n) tseq

/-- A request whose grammar has a compatible newer generation moves to it at a placement (R187). -/
def State.moveGrammar (s : State) (n tseq : Nat) : State :=
  let x := s.ctx n
  match x.gram with
  | none => s
  | some g =>
    let k := swapTable 1 g
    let want := s.genAt k tseq
    match (s.tbl k).gen x.ggen, (s.tbl k).gen want with
    | some a, some b => if want ≠ x.ggen ∧ compatible a.img b.img = true then s.setCtx n { x with ggen := want } else s
    | _, _ => s

/-- The mask that a grammar state names, if it uses one (R176). -/
def State.mrefOf (s : State) (x : Scx) (st : Nat) : Option Nat :=
  match x.gram with
  | none => none
  | some g => match (s.tbl (swapTable 1 g)).gen x.ggen with
    | none => none
    | some im => match im.img.state st with
      | some q => if q.mode = 1 ∨ q.mode = 3 then some q.mref else none
      | none => none

/-- The masks and the bias set a row names. -/
def State.namedTables (s : State) (x : Scx) (k : RowKey) (p : Profile) : List Nat :=
  ((maskNums p ++ (s.mrefOf x (x.ringState (tentIdx x k))).toList).map (fun m => swapTable 0 m))
  ++ (if p.biasset = 0xFF then [] else [swapTable 2 p.biasset])

/-- Bank states in which a bank projects rows placed now. -/
def servingSt : List BankSt := [.active, .retained]

/-- The slot whose bank projects an epoch of a head set. -/
def State.projSlot (s : State) (h : Nat) (e : Half) (rep : Bool) : Option Nat :=
  s.slotOf h e (if rep then [.active, .retained, .draining] else servingSt)

/-- A variant can be used in a bank (R100, R293). -/
def Bank.hasVariant (b : Bank) (v : Nat) : Bool := ((Tab.find? b.vars v).map (fun x => x.usable)).getD false

/-- A SCORE row that gets a reference pass (R216, R217). -/
def State.wantsRef (s : State) (rd : Rdesc) (p : Profile) : Bool :=
  decide (rd.cls = clScore ∧ p.refpass = 1 ∧ rd.hsrc ≤ 1) && (s.slotIn rd.hset .reference).isSome

/-- A close fixes an epoch for a head set whose bank is not the ACTIVE one here: nothing of the head set is projected in the punnet (R289). -/
def State.mismatch (s : State) (epochs : List Half) (h : Nat) : Bool :=
  decide (epochs.getD h 0xFFFF ≠ 0xFFFF ∧ s.activeEpoch h ≠ epochs.getD h 0xFFFF)

/-- The causes that a placement finds, lowest code first. `mism`: the epochs of the row's head set do not match. -/
def State.placeCause (s : State) (x : Scx) (rd : Rdesc) (p : Profile) (profOk : Bool) (tseq : Nat) (mism : Bool) (ep : Half) : Cause :=
  let gramGone := match x.gram with
    | some g => ((s.tbl (swapTable 1 g)).gen x.ggen).isNone
    | none => false
  let retBad := decide (rd.cls = clVerify ∧ rd.gidx < rd.draftn) && (((x.tent[rd.gidx]?).map (fun t => retDoubt t.ret)).getD false)
  let bank := s.projSlot rd.hset ep false
  firstBad [
    (s.isLost rd.handle.slot, 0x13), (gramGone, 0x14), (!profOk, 0x15),
    (decide (rd.hsrc ≤ 1) && (mism || (decide (ep ≠ 0xFFFF) && bank.isNone)), 0x1A),
    (retBad, 0x1E), (!tentOk x rd.key rd.draftn, 0x35),
    (decide (rd.hsrc ≤ 1 ∧ ep = 0xFFFF), 0x36),
    (decide (rd.hsrc ≤ 1 ∧ rd.variant ≠ 127) && !((bank.map (fun k => (s.bank rd.hset k).hasVariant rd.variant)).getD false), 0x36),
    ((s.namedTables x rd.key p).any (fun k => ((s.tbl k).gen (s.genAt k tseq)).isNone), 0x36)]

/-- The fields of a row's merged profile that the request fixed at REQ.OPEN (R227): no overlay, swap or phase changes them. -/
def ReqScope.over (q : ReqScope) (p : Profile) : Profile :=
  { p with ngram := q.ngram, penprompt := q.penprompt, dlctl := q.dlctl, dlinit := q.dlinit, dlmin := q.dlmin, dlmax := q.dlmax, alo := q.alo,
           ahi := q.ahi, ttftgoal := q.ttftgoal, tbtgoal := q.tbtgoal, tbtmargin := q.tbtmargin }

/-- A row slot of a punnet, for a row placed first (R226, R313) (DEDUCED, log 128). `rd`: the copy this instance admitted, if it did (R14). -/
def State.formRow (s : State) (epochs : List Half) (rd : Option Rdesc) (c : CloseRow) : PRow :=
  let n := c.handle.slot
  let x := s.ctx n
  let g := s.profGen x.prof c.tseq
  let recs := (s.prof x.prof).recsOf g
  let p := x.rs.over (mergeProf (recs.getD []) c.ovl)
  let ok := recs.isSome && s.profReadOk x.prof g c.ovl
  let h := (rd.map (fun r => r.hset)).getD 0
  let ep := (x.pin h).getD (epochs.getD h 0xFFFF)
  let cause : Cause := match rd with
    | none => some 0x1B
    | some r => s.placeCause x r p ok c.tseq (s.mismatch epochs h) ep
  let cp := s.count n
  { key := (closeKey c), slot := c.slot, rep := false, tseq := c.tseq, counts := cp.applied.counts, epoch := ep,
    prof := p, profOk := ok, profPin := (x.prof, g),
    pins := ((s.namedTables x (closeKey c) p).map (fun k => (k, s.genAt k c.tseq))) ++ (x.gram.map (fun g => (swapTable 1 g, x.ggen))).toList,
    active := cause.isNone, cause := cause, verdict := .unset, anchor := chainAnchor p, manchor := modelAnchor p, ranchor := modelAnchor p,
    clen := x.clen, before := (x.tent.take (tentIdx x (closeKey c))).map (fun t => t.ver),
    sides := if s.isHome n then rowSides x (closeKey c) p ((rd.map (fun r => r.draftn)).getD 0) else Sides.none,
    vecs := [], sums := [], thresh := none,
    refH := (rd.filter (fun r => s.wantsRef r p)).map (fun r => r.hset), look := none, looked := s.isHome n && x.histRes, exited := false }

/-- The slot of a row that is placed again (R77, R150): everything its first placement fixed stays. -/
def PRow.again (r : PRow) (slot : Nat) : PRow :=
  { r with slot := slot, rep := true, vecs := [], sums := [], exited := false,
           anchor := ((r.thresh.bind (fun t => t.ca))).getD r.anchor, manchor := ((r.thresh.bind (fun t => t.cm))).getD r.manchor,
           ranchor := ((r.thresh.bind (fun t => t.cr))).getD r.ranchor }

/-! ## Bank passes (R91) -/

/-- Distinct epochs of a head set's rows in the order of R91: the punnet's own first, the others ascending. -/
def passEpochs (e0 : Half) (es : List Half) : List Half :=
  let d := (es.filter (fun e => decide (e ≠ 0xFFFF))).dedup
  (if d.contains e0 then [e0] else []) ++ sortBy (fun (a b : Half) => decide (a.toNat < b.toNat)) (d.filter (fun e => decide (e ≠ e0)))

/-- The passes of a punnet. -/
def State.passList (s : State) (epochs : List Half) (rows : List (PRow × Rdesc)) : List Pass :=
  (List.range 4).flatMap (fun h =>
    let rs := rows.filter (fun r => decide (r.2.hset = h ∧ r.2.hsrc ≤ 1))
    let e0 := epochs.getD h 0xFFFF
    (passEpochs e0 (rs.map (fun r => r.1.epoch))).map (fun e =>
      { hset := h, bank := (s.projSlot h e (rs.any (fun r => r.1.rep && decide (r.1.epoch = e)))).getD 4, epoch := e,
        kind := if e = e0 then .active else .pinned, tiles := [] })
    ++ (match s.slotIn h .reference with
      | some k => if rs.any (fun r => s.wantsRef r.2 r.1.prof && (!r.1.rep || ((r.1.thresh.map (fun t => t.cr.isSome)).getD false))) then
          [{ hset := h, bank := k, epoch := (s.bank h k).epoch, kind := .reference, tiles := [] }] else []
      | none => []))

/-- Indices of the passes that a row takes part in; a row of LIN has the one index 0. -/
def rowPasses (ps : List Pass) (r : PRow) (rd : Rdesc) : List Nat :=
  if 2 ≤ rd.hsrc then [0]
  else ((ps.zipIdx).filter (fun e => decide (e.1.hset = rd.hset) && (match e.1.kind with
    | .reference => decide (rd.cls = clScore ∧ r.prof.refpass = 1) && (!r.rep || ((r.thresh.map (fun t => t.cr.isSome)).getD false))
    | _ => decide (e.1.epoch = r.epoch)))).map (·.2)

/-- A pass is a reference pass. -/
def isRefPass (ps : List Pass) (i : Nat) (rd : Rdesc) : Bool :=
  decide (rd.hsrc ≤ 1) && ((ps[i]?).map (fun p => decide (p.kind = .reference))).getD false

end Sys2Proof.Machine
end

