-- ==== Sys2Proof/Machine/Punnets.lean ====
section
/-! DEFINITION. Punnets on one instance: the punnet boundary, the forming of a punnet from a CLOSE message, its retirement, and what
messages of a row in flight must fit (R18, R19, R91, R167, R231, R289, R313, R315). -/

namespace Sys2Proof.Machine

/-- Shards of the group that are not in SAFE; an instance alone is its own group (R53). -/
def State.liveShards (s : State) : List Nat :=
  if s.orch.member then (s.orch.members.filter (fun m => decide (m.state ≠ 5 ∨ m.shard = s.orch.shard))).map (fun m => m.shard)
  else [s.orch.shard]

/-! ## Messages of rows in flight (R315) -/

/-- A punnet number that has not been closed here yet. -/
def State.ahead (s : State) (n : Nat) : Bool := decide (s.behind n = 0 ∨ 32768 ≤ s.behind n)

/-- A message of a row of a punnet in flight acts; one for a punnet retired is stale; one that comes before its CLOSE waits; any other
breaks sequence, as a message with a broken header or touched by a parity error does (R315). -/
def State.rowMsg (s : State) (m : Msg) (act : State → State) : State :=
  let h := m.hdr
  let slot := fun (s : State) => match s.punnet h.punnet with
    | some p => if p.rows.any (fun r => decide (r.slot = h.rslot)) then some h.rslot else none
    | none => none
  let bad := fun (c : Nat) => ((s.contained c { Site.none with punnet := h.punnet, handle := some h.handle, rslot := h.rslot }).doubtAt
    h.punnet (slot s) c)
  if h.parity then bad 0x19
  else if hdrBroken h then bad 0x18
  else match s.punnet h.punnet with
    | some p => if p.rows.any (fun r => decide (r.slot = h.rslot)) && decide (h.pass = 0 ∨ h.pass < p.passes.length) then act s else bad 0x18
    | none =>
      if s.orch.recent.contains h.punnet then
        ({ s with orch := { s.orch with stale := s.orch.stale + 1 } }).bump offStale
      else if s.ahead h.punnet then { s with orch := { s.orch with loop := s.orch.loop ++ [m] } }
      else bad 0x18

/-- A row slot of a punnet. -/
def State.prow (s : State) (num slot : Nat) : Option PRow := (s.punnet num).bind (fun p => p.rows.find? (fun r => decide (r.slot = slot)))

/-- A row slot changed. -/
def State.updRow (s : State) (num slot : Nat) (f : PRow → PRow) : State :=
  { s with puns := s.puns.map (fun (p : Punnet) => if p.num = num then { p with rows := p.rows.map (fun (r : PRow) =>
      if r.slot = slot then f r else r) } else p) }

/-- A punnet changed. -/
def State.updPun (s : State) (num : Nat) (f : Punnet → Punnet) : State :=
  { s with puns := s.puns.map (fun (p : Punnet) => if p.num = num then f p else p) }

/-- A row slot forms the sums of a repeat pass alone (R77): its threshold collects no entry. -/
def PRow.sumsOnly (r : PRow) : Bool := decide (r.thresh.map (fun t => t.r) = some 0)

/-- The admitted copy behind a row slot; that of a repeat pass stands with the row's first slot, which certification still uses. -/
def State.copyOf (s : State) (num : Nat) (k : RowKey) : Option Row :=
  (s.rows.find? (fun r => decide (r.key = k ∧ r.punnet = some num))).or
    (if (s.punnet num).any (fun p => p.rows.any (fun r => decide (r.key = k) && r.rep && r.sumsOnly)) then
      s.rows.find? (fun r => decide (r.key = k) && r.punnet.isSome) else none)

/-! ## The punnet boundary (R167, R231, R411) -/

/-- Rows not yet placed take the egress reserve in force (R279). -/
def State.reserveAgain (s : State) : State :=
  { s with rows := s.rows.map (fun (r : Row) => if r.punnet.isNone then { r with reserve := s.cfg.egressres } else r) }

/-- The change that waits at the root comes into force (R231). -/
def State.takePend (s : State) : State :=
  match s.conf.pend with
  | none => s
  | some pk =>
    let n := pk.fld 0 0 4
    let s1 : State := { s with conf := { s.conf with pend := none } }
    (if pk.opcode = 0x0201 then ({ s1 with conf := { s1.conf with phase := n } }).logSwap swapPhase n else s1.putSet n (setOf pk)).reserveAgain

/-- A set that the root has changed comes into force at a member with the first punnet that it applies to (R231). -/
def State.takeDue (s : State) (num : Nat) : State :=
  let due := s.conf.due.filter (fun e => decide (e.1 = num))
  due.foldl (fun (s : State) e => s.putSet e.2.1 e.2.2) { s with conf := { s.conf with due := s.conf.due.filter (fun e => decide (e.1 ≠ num)) } }

/-- A sampling unit that failed is replaced by a spare at the next boundary; with no spare the fault is fatal (R413, R414). -/
def State.replaceAtBoundary (s : State) (u : Unit') : State :=
  match s.freeSpare u.kind u.sram with
  | some _ => { s with rep := { s.rep with sched := s.rep.sched ++ [u] } }
  | none => s.fatal 0x42 { Site.none with unit := u.index, inj := true }

/-- Noise is formed for a row: it draws at a temperature (R157, R212). -/
def PRow.noisy (r : PRow) : Bool := decide (r.key.cls ≠ clScore) && !isZero r.prof.temp

/-- A rotating check fails: the rows in flight whose noise the unit formed, or for a special-function unit whose values, get doubt, and the fault is
contained (R167, Table 19.1). -/
def State.checkFails (s : State) (u : Unit') (cause : Nat) : State :=
  let due := (s.puns.filter (fun p => p.started)).flatMap (fun p =>
    (p.rows.filter (fun r => decide (cause ≠ 0x16) || r.noisy)).map (fun r => (p.num, r.slot)))
  (due.foldl (fun (s : State) x => s.doubtAt x.1 (some x.2) cause) s).contained cause { Site.none with unit := u.index, inj := true }

/-- A rotating check that an injection makes fail (R167, Table 19.1). -/
def State.healthCheck (s : State) (target cause : Nat) : State :=
  match s.armed target with
  | none => s
  | some j =>
    let u : Unit' := { kind := 3, sram := 0, index := j.param.toNat % 64 }
    ((s.fire target).checkFails u cause).replaceAtBoundary u

/-- Everything a punnet boundary brings on this instance: the phase, bank states, switches, repairs and checks. -/
def State.boundary (s : State) (num : Nat) (b : CloseB) : State :=
  let s1 := s.takeDue num
  let s2 := ({ s1 with conf := { s1.conf with phase := b.phase } }).reserveAgain
  let s3 := s2.banksBoundary
  let s4 := (List.range 4).foldl (fun (s : State) h =>
    let e := b.epochs.getD h 0xFFFF
    if e = 0xFFFF then s else s.bankSwitch h e) s3
  ((s4.unitBoundary).healthCheck 0x0A 0x16).healthCheck 0x0B 0x17

/-- A CLOSE changes the ACTIVE bank of some head set. -/
def State.switches (s : State) (b : CloseB) : Bool :=
  (List.range 4).any (fun h => decide (b.epochs.getD h 0xFFFF ≠ 0xFFFF ∧ s.activeEpoch h ≠ b.epochs.getD h 0xFFFF))

/-! ## Forming a punnet (R18, R19, R313) -/

/-- The lowest free in-flight index (R90). -/
def State.freeIdx (s : State) : Nat := ((List.range 16).find? (fun i => s.puns.all (fun p => decide (p.idx ≠ i)))).getD 0

/-- The first row that satisfies a test, changed. -/
def changeFirst {α : Type} (p : α → Bool) (f : α → α) : List α → List α
  | [] => []
  | x :: r => if p x then f x :: r else x :: changeFirst p f r

/-- The row slot that waits to be placed again. -/
def State.oldRow (s : State) (k : RowKey) : Option (Nat × PRow) :=
  ((s.puns.flatMap (fun p => p.rows.map (fun r => (p.num, r)))).filter (fun e => decide (e.2.key = k) && !e.2.exited && e.2.thresh.isSome)).getLast?

/-- One row of a CLOSE taken into the punnet (DEDUCED, log 84). A second round takes the row over from its first slot; a repeat pass for sums
alone stands beside it, since certification goes on there (R77, Table 5.7). -/
def State.placeOne (s : State) (num : Nat) (epochs : List Half) (c : CloseRow) : State × PRow × Option Rdesc :=
  let k := closeKey c
  match (if c.rep then s.oldRow k else none) with
  | some (old, r) =>
    let rd := (s.copyOf old k).map (fun x => x.rd)
    if r.sumsOnly then (s, r.again c.slot, rd)
    else
    let s1 := s.updRow old r.slot (fun r => { r with exited := true })
    ({ s1 with rows := s1.rows.map (fun (x : Row) => if x.key = k ∧ x.punnet = some old then { x with punnet := some num } else x) },
      r.again c.slot, rd)
  | none =>
    let s1 := s.moveGrammar c.handle.slot c.tseq
    let hit := fun (r : Row) => decide (r.key = k) && r.punnet.isNone
    let rd := (s1.rows.find? hit).map (fun r => r.rd)
    let s2 : State := { s1 with rows := changeFirst hit (fun r => { r with punnet := some num, reserve := s1.cfg.egressres }) s1.rows }
    (s2, s1.formRow epochs rd c, rd)

/-- All rows of a CLOSE, in slot order. -/
def State.placeAll (num : Nat) (epochs : List Half) : List CloseRow → State → State × List (PRow × Option Rdesc)
  | [], s => (s, [])
  | c :: r, s =>
    let (s1, p, d) := s.placeOne num epochs c
    let (s2, l) := State.placeAll num epochs r s1
    (s2, (p, d) :: l)

/-- A class 1 cause that a placement found here is a contained fault; a copy missing at the home itself is no fault of its own, and an epoch
mismatch is one event of its head set. -/
def State.placeFault (s : State) (num : Nat) (r : PRow) : State :=
  match r.cause with
  | some c =>
    if causeClass c ≠ 1 ∨ r.rep ∨ c = 0x1A ∨ (c = 0x1B ∧ s.isHome r.key.handle.slot) then s
    else s.contained c (Site.row num r.key r.slot)
  | none => s

/-- The fetches that a placement starts here (R247): at the home STRICT, the history lookup and Bramble's records, on every shard the COUNT part. -/
def State.startFetches (s : State) (r : PRow) : State :=
  let n := r.key.handle.slot
  let x := s.ctx n
  let s1 := if usesCount r.prof then (s.touchCount n).startFetch n .count else s
  let s2 := if r.sides.grammar.isSome then s1.startFetch n .bramble else s1
  if s2.isHome n = false then s2
  else
    let s3 := s2.startFetch n .head
    let s4 := if needsStrict x r.key then s3.startFetch n .strict else s3
    if 2 ≤ x.rs.ngram then s4.startFetch n .hist else s4

/-- A CLOSE with rows forms a punnet; a cause that a copy met before now stands; the home of each row sends its side lists (R247). -/
def State.formPunnet (s : State) (num : Nat) (b : CloseB) : State :=
  let (s1, l) := State.placeAll num b.epochs b.rows s
  let rows := l.map (·.1)
  let known := l.filterMap (fun e => e.2.map (fun d => (e.1, d)))
  let p : Punnet :=
    { num := num, idx := s1.freeIdx, phase := b.phase, epochs := b.epochs, rows := rows,
      passes := s1.passList b.epochs known, closed := s.now, started := false, projStart := 0, loaded := [], badTiles := [],
      drains := [], sent := 0, auxZ := [], acks := [] }
  let s2 := ({ s1 with puns := s1.puns ++ [p] }).wakeArray
  let s3 := rows.foldl (fun (s : State) r => s.placeFault num r) s2
  let off := (List.range 4).filter (fun h => known.any (fun e => decide (e.2.hset = h ∧ e.1.cause = some 0x1A) && !e.1.rep))
  let s3 := off.foldl (fun (s : State) _ => s.contained 0x1A { Site.none with punnet := num }) s3
  let s3 := rows.foldl (fun (s : State) r => match (s.copyOf num r.key).bind (fun c => c.cause) with
    | some c => s.doubtAt num (some r.slot) c
    | none => s) s3
  let s4 := known.foldl (fun (s : State) e =>
    if e.1.rep ∨ s.isHome e.1.key.handle.slot = false then s else s.sendSides num e.2.hset e.1 e.1.sides) s3
  (rows.foldl (fun (s : State) r => if r.rep then s else s.startFetches r) s4).trim []

/-- An acknowledgement of a close held at the root (R289). -/
def State.gotAck (s : State) (num sh : Nat) : State :=
  { s.updPun num (fun p => if p.rows.isEmpty then { p with acks := sh :: p.acks } else p) with
    jobs := s.jobs.map (fun (j : Job) => match j.kind with
      | .switch h e (.acks n l) => if n = num then { j with kind := .switch h e (.acks n (sh :: l)) } else j
      | _ => j) }

/-- A close applied on this instance (R19, R289, R313): the boundary, the punnet, and the acknowledgement of a marker or a switch. At
the root a marker stands among the punnets until it is acknowledged. -/
def State.applyClose (s : State) (num : Nat) (b : CloseB) : State :=
  let sw := s.switches b
  let s1 := s.boundary num b
  let o : Orch := { s1.orch with purged := s1.orch.purged.filter (fun e => decide (e.1 ≠ num)) }
  let s2 : State := { s1 with asm := { s1.asm with next := (num + 1) % 65536 }, orch := o }
  let s3 :=
    if b.rows.isEmpty then
      if s2.isRoot then
        let p : Punnet :=
          { num := num, idx := s2.freeIdx, phase := b.phase, epochs := b.epochs, rows := [], passes := [],
            closed := s2.now, started := true, projStart := 0, loaded := [], badTiles := [], drains := [], sent := 0, auxZ := [], acks := [] }
        { s2 with puns := s2.puns ++ [p] }
      else s2
    else s2.formPunnet num b
  if b.rows.isEmpty ∨ sw then
    if s3.isRoot then s3.gotAck num s3.orch.shard else s3.sendTo s3.orch.rootSh (.cmd (.ack num 1))
  else s3

/-! ## Retirement -/

/-- This instance has nothing left to do for a punnet: its rows have exited and none of its rows awaits a record here. -/
def State.punHere (s : State) (p : Punnet) : Bool := p.rows.all (fun r => r.exited) && s.rows.all (fun r => decide (r.punnet ≠ some p.num))

/-- A punnet retires here. The root keeps it until every member has said that it has issued its records, and a marker until every instance has
acknowledged it (R18, R289, DESIGN CHOICE, log 42). -/
def State.punDone (s : State) (p : Punnet) : Bool :=
  let heard := fun (sh : Nat) => p.acks.contains sh
  if p.rows.isEmpty then s.liveShards.all heard
  else s.punHere p && (!s.isRoot || s.liveShards.all (fun sh => decide (sh = s.orch.shard) || heard sh))

/-- Punnets that are done retire; the numbers of the last ones are kept, so that late messages are told from errors (R315). A member tells the
root, which keeps the last 64 times of R262. -/
def State.retireDone (s : State) : State :=
  (s.puns.filter (fun p => s.punDone p)).foldl (fun (s : State) p =>
    let s1 := s.retirePunnet p.num
    let back := if s1.isRoot && !p.rows.isEmpty && !p.passes.isEmpty then ((s1.now - p.projStart) :: s1.asm.back).take 64 else s1.asm.back
    let s2 : State := { s1 with orch := { s1.orch with recent := (p.num :: s1.orch.recent).take 256 }, asm := { s1.asm with back := back } }
    if s2.isRoot then s2 else s2.sendTo s2.orch.rootSh (.cmd (.ack p.num 10))) s

/-! ## THRESH, and bans that come late -/

/-- THRESH at an instance (R150, R77): kept for the row's repeat. -/
def State.onThresh (s : State) (h : Hdr) (b : ThreshB) : State :=
  (s.passOn h (.thresh b)).rowMsg { hdr := h, body := .thresh b } (fun s => s.updRow h.punnet h.rslot (fun r => { r with thresh := some b }))

/-- The ban list of rows that were placed before their history arrived, sent when it does (R247, R249). -/
def State.lateBans (s : State) (n : Nat) : State :=
  let x := s.ctx n
  if s.isHome n = false ∨ x.histRes = false ∨ x.rs.ngram < 2 then s
  else
    (s.puns.filter (fun p => !p.started)).foldl (fun (s : State) p =>
      (p.rows.filter (fun r => decide (r.key.handle.slot = n) && !r.looked && !r.rep)).foldl (fun (s : State) r =>
        let l := rowBans x r.key
        let s1 := s.updRow p.num r.slot (fun r => { r with looked := true, sides := { r.sides with bans := l } })
        match s1.copyOf p.num r.key with
        | none => s1
        | some c => if l.isEmpty then s1 else s1.sendSides p.num c.rd.hset r { Sides.none with bans := l }) s) s

end Sys2Proof.Machine
end

