-- ==== Sys2Proof/Machine/Commit.lean ====
section
/-! DEFINITION. Commits: what a COMMIT message changes on every instance, the records the home writes of it, lookups, auxiliary outputs,
and fallback records at the deadline (R22 to R26, R41, R182 to R184, R191, R198, R204 to R211, R268, R274 to R277, R314, R316). -/

namespace Sys2Proof.Machine

/-! ## Hash chain (R275, R276) -/

/-- The starting value of a block's hash. -/
def hashStart (prev : W64) (code : Nat) : W64 := prev ^^^ 0x6C8E9CF57A3B1D42 ^^^ BitVec.ofNat 64 code

/-- One token of the loop. -/
def hashTok (h : W64) (t : Nat) : W64 :=
  let a := (h ^^^ BitVec.ofNat 64 (t + 1)) * 0x9E6D5A4B3C210F87
  a ^^^ (a >>> 29)

/-- The end of a block. -/
def hashEnd (h : W64) : W64 :=
  let a := (h ^^^ (h >>> 32)) * 0xD4A17B3C9E25F06B
  let b := a ^^^ (a >>> 29)
  if b = 0 then 1 else b

/-- Tokens of a block. -/
def Scx.blockLen (x : Scx) : Nat := 16 * 2 ^ x.bsize

/-- The token at a position hashed: the context, and the HREC of a block that it completes (R276). -/
def Scx.hashAt (x : Scx) (h : Handle) (i t : Nat) : Scx × Option (List Word) :=
  if x.hashon = false then (x, none)
  else
    let r := hashTok x.rhash t
    let b := x.blockLen
    if i % b = b - 1 then
      let e := hashEnd r
      ({ x with lhash := e, rhash := hashStart e x.bsize }, some (hrecWords h i e x.lhash (i / b * b) x.bsize))
    else ({ x with rhash := r }, none)

/-! ## Effects of committed tokens -/

/-- The state after a token and whether it is FINAL, for a row's grammar (R182). -/
def State.delta (s : State) (r : PRow) (t : Nat) : Nat × Bool :=
  match r.sides.grammar with
  | none => (0, false)
  | some (g, gen, st) =>
    match (s.tbl (swapTable 1 g)).gen gen with
    | none => (0, false)
    | some im =>
      let nx := (((im.img.state st).bind (fun q => q.next t))).getD 0
      (nx, ((im.img.state nx).map (fun q => q.final)).getD false)

/-- Committed tokens taken into the context of a request from a position on: at the home history, sketch and hash chain too. The HRECs
they complete, with their positions. -/
def State.commitTokens (s : State) (h : Handle) : Nat → List Nat → State × List (Nat × List Word)
  | _, [] => (s, [])
  | i, t :: r =>
    let n := h.slot
    if s.isHome n then
      let s1 := s.histCommit n i t false
      let x := s1.ctx n
      let (y, hr) := ({ x with sketch := sketchAdd x.sketch t, clen := i + 1, dirty := true }).hashAt h i t
      let (s2, l) := (s1.setCtx n y).commitTokens h (i + 1) r
      (s2, (hr.map (fun w => (i, w))).toList ++ l)
    else
      let x := s.ctx n
      (s.setCtx n { x with clen := i + 1, recent := (t :: x.recent).take 3 }).commitTokens h (i + 1) r

/-- Tentative charges held by entries. -/
def heldCharges (l : List Tent) : Nat := (l.filter (fun t => t.chg)).length

/-- Accepted drafts of a group's commit whose entries still stand with a charge: that charge becomes final (R198). -/
def finalCharges (x : Scx) (k : RowKey) (b : CommitB) : Nat :=
  if x.clen + b.nacc = k.pos then (((x.tent.take b.nacc).zip b.toks).filter (fun e => e.1.chg && decide (e.1.tok = e.2))).length else 0

/-- The charge of a record itself (Table 1.5, R198, R268). A group's commit charges every committed position that no held charge pays for; a
draft beyond the ring of 16 holds none (TCHG is at most 16, Table 12.2; DEDUCED, log 80). -/
def ownCharge (x : Scx) (k : RowKey) (b : CommitB) : Nat :=
  if b.kind = kDropped ∨ b.kind = kScore then 1
  else if b.kind ≠ kToken ∧ b.kind ≠ kEnd then 0
  else if k.cls = clDraft then (if 16 ≤ k.pos - x.clen then 0 else 1)
  else if b.commits then (if k.cls = clVerify then b.nacc + 1 - finalCharges x k b else 1)
  else 0

/-- Tentative charges that a record's exit returns (R193, R198). -/
def tentReturns (x : Scx) (k : RowKey) (b : CommitB) : Nat :=
  if b.kind ≠ kToken ∧ b.kind ≠ kEnd then 0
  else if k.cls = clDraft then heldCharges (x.tent.drop (k.pos - x.clen))
  else if b.commits then heldCharges x.tent - (if k.cls = clVerify then finalCharges x k b else 0)
  else 0

/-- What a record's exit adds to the charges of its request, tentative charges that it returns counted (R193, R198, R268). -/
def chargeOf (x : Scx) (k : RowKey) (b : CommitB) : Int := (ownCharge x k b : Int) - (tentReturns x k b : Int)

/-- Charges added to a count, which stays in 64 bits. -/
def addCharge (c : Nat) (d : Int) : Nat := min (2 ^ 64 - 1) ((c : Int) + d).toNat

/-- A DRAFT row's placement still stands: the committed length, and below it the very entries it saw (R191). -/
def draftStands (x : Scx) (r : PRow) : Bool :=
  decide (x.clen = r.clen) && decide ((x.tent.take (r.key.pos - r.clen)).map (fun t => t.ver) = r.before)

/-- The retained set of a DRAFT row's token record (R194). -/
def retSetOf (k : RowKey) (ep : Half) (b : CommitB) : RetSet :=
  match b.draft with
  | some d => { pos := k.pos, zero := d.zero, depoch := ep, dtoken := b.token, anch := d.anch, qd := d.qd,
                ents := sortBy (fun (a b : Nat × F32) => decide (a.1 < b.1)) d.ents, bad := false }
  | none => { pos := k.pos, zero := true, depoch := ep, dtoken := b.token, anch := 0, qd := accOf (2 ^ 256), ents := [], bad := false }

/-- The draft-length controller after a CREC (R210). -/
def Scx.control (x : Scx) (nacc ndraft : Nat) : Scx :=
  let a := fadd x.alpha (fdiv (fsub (ratF nacc ndraft) x.alpha) 0x41000000)
  let z := if nacc = 0 then x.zrun + 1 else 0
  let y : Scx := { x with alpha := a, zrun := if 2 ≤ z then 0 else z, ngrp := (x.ngrp + 1) % 65536 }
  if 2 ≤ z then { y with dlen := max x.rs.dlmin (x.dlen / 2) }
  else if flt a (ofF16 x.rs.alo) then { y with dlen := max x.rs.dlmin (x.dlen - 1) }
  else if flt (ofF16 x.rs.ahi) a && decide (x.dlen ≤ ndraft) then { y with dlen := min x.rs.dlmax (x.dlen + 1) }
  else y

/-- The advice word written (R211). -/
def State.advise (s : State) (n : Nat) : State :=
  let x := s.ctx n
  match Tab.find? s.conf.regions 6 with
  | some rg =>
    if x.rs.dlctl = 1 then
      s.storeWords (addrKey rg.base + 4 * n) [w32 (x.dlen % 32 + putBits (x.gen % 256) 8 + putBits (x.ngrp % 65536) 16)]
    else s
  | none => s

/-- The request's context after a commit at this instance, with the HRECs completed. `next`: the grammar state that the lookup gave. -/
def State.takeCommit (s : State) (r : PRow) (draftn : Nat) (b : CommitB) (next : Nat) : State × List (Nat × List Word) :=
  let k := r.key
  let n := k.handle.slot
  let x := s.ctx n
  if b.kind ≠ kToken ∧ b.kind ≠ kEnd then (s, [])
  else if k.cls = clDraft then
    let j := k.pos - x.clen
    if draftStands x r then
      let e : Tent := { tok := b.token, chg := true, state := next, ret := retSetOf k r.epoch b, ver := x.drafts }
      (s.setCtx n { x with dirty := true, sdirty := true, drafts := x.drafts + 1, tent := (x.tent.take j ++ [e]).take 16 }, [])
    else (s, [])
  else if b.commits then
    let base := k.pos + 1 - b.toks.length
    let (s0, hr) := s.commitTokens k.handle base b.toks
    let s1 := s0.writeHist n
    let z := s1.ctx n
    let z1 : Scx := { z with tent := [], cstate := if r.sides.grammar.isSome then next else z.cstate, dirty := true, sdirty := true }
    if k.cls = clVerify ∧ s.isHome n = true then ((s1.setCtx n (z1.control b.nacc draftn)).advise n, hr)
    else (s1.setCtx n z1, hr)
  else (s, [])

/-! ## Records at the home (R39 to R47, R205, R206) -/

/-- A record held by egress for a row. -/
def State.egRec (s : State) (r : Row) (ring due : Nat) (ws : List Word) (stamp : Bool) (key : Option RowKey) (sample : Bool) : EgRec :=
  { ring := ring, words := ws, stamp := stamp, done := 0, due := due, missed := false, key := key, handle := r.key.handle,
    sample := sample && s.isHome r.key.handle.slot, prompt := none, hset := none, grp := 0 }

/-- The token-ring records of a row from its commit: TREC, XREC, VREC (R46, R47, R107). -/
def State.rowRecs (s : State) (r : Row) (p : Profile) (b : CommitB) (kind nhrec due : Nat) (crec : Bool) : List EgRec :=
  let ring := (s.ctx r.key.handle.slot).tring
  let ep := s.rowEpoch r
  let vrec := decide (p.valueh = 1 ∨ p.rewardh = 1)
  let t : Trec :=
    { handle := r.key.handle, kind := kind, pos := r.key.pos, flags := b.flags &&& 0x6F, token := b.token,
      nacc := if crec || decide (kind = kDropped) then b.nacc else 0, logprob := b.logprob, lpbnd := b.lpbnd, entropy := b.entropy, epoch := ep,
      nhrec := nhrec, crec := crec, xrec := b.xv, vrec := vrec }
  let sample := decide (kind = kToken ∨ kind = kEnd) && b.commits
  let valid := b2n r.auxv.isSome + 2 * b2n r.auxr.isSome
  [{ s.egRec r ring due (trecWords t) true (some r.key) sample with hset := some r.rd.hset }]
  ++ (if b.xv then [s.egRec r ring due (xrecWords r.key.handle r.key.pos b.xvals b.top) false none false] else [])
  ++ (if vrec then [s.egRec r ring due (vrecWords r.key.handle r.key.pos (r.auxv.getD 0) (r.auxr.getD 0) valid) false none false] else [])

/-- A homed row settled: its record stands with egress. -/
def State.settleRow (s : State) (r : Row) (charged : Bool) : State :=
  { s with rows := s.rows.map (fun (x : Row) => if x.seq = r.seq then { x with decided := true, charged := charged } else x) }

/-- The homed row of a commit that has no settled record. -/
def State.homeRow (s : State) (c : HomeCommit) : Option Row :=
  s.rows.find? (fun r => decide (r.key = c.key ∧ r.punnet = some c.punnet) && r.home && !r.decided)

/-- The kind of a committing record once its lookup is known (R184). -/
def HomeCommit.kindNow (c : HomeCommit) : Nat :=
  if c.body.kind = kToken ∧ c.body.commits = true ∧ ((c.look.map (fun l => l.final)).getD false) = true then kEnd else c.body.kind

/-- A kind that carries the chosen token. -/
def kindFull (k : Nat) : Bool := decide (k = kToken ∨ k = kEnd ∨ k = kDropped ∨ k = kScore)

/-- KV-ring records of a commit: the CREC of a group, then its HRECs in position order (R47, R205, R206). -/
def State.kvRecs (s : State) (r : Row) (due : Nat) (crec : Option (List Word)) (hr : List (Nat × List Word)) : List EgRec :=
  let ring := (s.ctx r.key.handle.slot).kvring
  (crec.map (fun w => s.egRec r ring due w true none false)).toList ++ hr.map (fun h => s.egRec r ring due h.2 false none false)

/-- A commit that comes to a fallback record gives its charge back (R268). -/
def State.unpaid (s : State) (c : HomeCommit) : State := if c.charge = 0 then s else s.giveBack c.key.handle.slot c.charge

/-- One row's commit recorded at its home, outside a decided group. -/
def State.record1 (s : State) (c : HomeCommit) : State :=
  match s.homeRow c with
  | none => s
  | some r =>
    let q := c.row
    let b := c.body
    let late := decide (r.key.cls = clDraft ∧ b.kind = kToken) && !draftStands (s.ctx r.key.handle.slot) q
    if late = true ∨ b.kind = kDefer then (s.unpaid c).fallback r kDefer
    else if b.kind = kHold then s.fallback r kHold
    else if kindFull b.kind = false then s.voidRow r b.cause
    else
      let (s1, hr) := s.takeCommit q r.rd.draftn b ((c.look.map (fun l => l.next)).getD 0)
      (s1.settleRow r (decide (c.charge ≠ 0))).emit
        (s1.rowRecs r q.prof b c.kindNow hr.length r.due false ++ s1.kvRecs r r.due none hr)

/-- A full record of one row of a decided group. -/
def State.groupRow (s : State) (w : HomeCommit) (hr : List (Nat × List Word)) (due : Nat) (c : HomeCommit) : List EgRec :=
  match s.homeRow c with
  | none => []
  | some r =>
    if kindFull c.body.kind = false then
      [{ s.trecRec r (fallbackTrec r.key kDefer (s.ctx r.key.handle.slot).fill (s.rowEpoch r)) false with due := due }]
    else
      s.rowRecs r c.row.prof c.body c.kindNow (hr.filter (fun h => decide (h.1 = r.key.pos))).length due
        (decide (c.rslot = w.rslot))

/-- The commits of a verify group in GIDX order: records together on the token ring, then CREC and HRECs (R204, R205). The CREC's EPOCH is the epoch
fixed for the group's punnet (R206; Table 2.6 names the verifying bank's, which for a pinning request is another: DEDUCED, log 135). -/
def State.recordGroup (s : State) (cs : List HomeCommit) : State :=
  match cs.find? (fun c => c.body.commits) with
  | none => cs.foldl (fun (s : State) c => s.record1 c) s
  | some w =>
    match s.homeRow w with
    | none => s
    | some rw =>
      let n := rw.key.handle.slot
      let plen := rw.key.pos - w.body.nacc
      let due := cs.foldl (fun a c => match s.homeRow c with
        | some r => min a r.due
        | none => a) rw.due
      let (s1, hr) := s.takeCommit w.row rw.rd.draftn w.body ((w.look.map (fun l => l.next)).getD 0)
      let recs := cs.flatMap (fun c => s1.groupRow w hr due c)
      let crec := crecWords rw.key.handle rw.key.pos (plen + w.body.toks.length) plen w.body.nacc rw.rd.draftn w.epoch
      let s2 := cs.foldl (fun (t : State) c => match s1.homeRow c with
        | none => t
        | some r => t.settleRow r (decide (c.charge ≠ 0))) s1
      s2.emit (recs ++ s1.kvRecs rw due (some crec) hr)

/-- A commit held at the home needs nothing more. -/
def HomeCommit.ready (c : HomeCommit) : Bool := !c.need || c.look.isSome

/-- The commits held for the verify group of one of them, in GIDX order. -/
def State.groupOf (s : State) (c : HomeCommit) : List HomeCommit :=
  sortBy (fun (a b : HomeCommit) => decide (a.key.gidx < b.key.gidx))
    (s.hcom.filter (fun x => decide (x.key.handle = c.key.handle ∧ x.key.cls = clVerify ∧ x.key.pos + c.key.gidx = c.key.pos + x.key.gidx)))

/-- DRAFTN of the row behind a commit. -/
def State.draftnOf (s : State) (c : HomeCommit) : Nat := ((s.copyOf c.punnet c.key).map (fun r => r.rd.draftn)).getD 0

/-- Held commits that are ready are recorded: a row's own at once, a group's together. -/
def State.flushCommits : Nat → State → State
  | 0, s => s
  | k + 1, s =>
    match s.hcom.find? (fun c => c.ready && (decide (c.key.cls ≠ clVerify)
        || (decide (s.draftnOf c + 1 ≤ (s.groupOf c).length) && (s.groupOf c).all (fun x => x.ready)))) with
    | none => s
    | some c =>
      if c.key.cls = clVerify then
        let g := s.groupOf c
        State.flushCommits k (({ s with hcom := s.hcom.filter (fun x => !g.contains x) }).recordGroup g)
      else State.flushCommits k (({ s with hcom := s.hcom.erase c }).record1 c)

/-- A COMMIT with COMMITS = 1 that comes after the row's fallback record: the context is lost, the charge returned (R316, R268). -/
def State.lateCommit (s : State) (k : RowKey) (charge : Nat) : State :=
  let n := k.handle.slot
  let s1 := ((s.setSlot n { s.slot n with lost := true }).contained 0x1F (Site.key k)).bump offLateCommit
  s1.giveBack n charge

/-- The slot of a row's repeat pass leaves with the row. -/
def State.exitRepeat (s : State) (k : RowKey) : State :=
  { s with puns := s.puns.map (fun (p : Punnet) => { p with rows := p.rows.map (fun (r : PRow) =>
      if r.key = k ∧ r.rep = true then { r with exited := true } else r) }) }

/-- A commit at an instance: counts on the owners, the lookup of the owner of its last token, the context, and at the home the records
(R182, R314). -/
def State.applyCommit (s : State) (num slot : Nat) (r : PRow) (b : CommitB) : State :=
  let k := r.key
  let n := k.handle.slot
  let home := s.isHome n
  let hset := ((s.copyOf num k).map (fun c => c.rd.hset)).getD 0
  let dn := ((s.copyOf num k).map (fun c => c.rd.draftn)).getD 0
  let s0 := (s.updRow num slot (fun r => { r with exited := true })).exitRepeat k
  let d := chargeOf (s.ctx n) k b
  let own := ownCharge (s.ctx n) k b
  let s0 := if home then s0.countReturned (tentReturns (s.ctx n) k b) else s0
  let s1 := if d = 0 then s0 else s0.setCtx n { s0.ctx n with charged := addCharge (s0.ctx n).charged d, dirty := (s0.ctx n).dirty || home }
  let s2 := if b.commits then (b.toks.foldl (fun (s : State) t => s.countToken n t) s1).touchCount n else s1
  let looked := r.sides.grammar.isSome && (b.commits || (decide (k.cls = clDraft ∧ b.kind = kToken)))
  let last := (b.toks.getLast?).getD b.token
  let (nx, fin) := s.delta r last
  let look : LkupB := { next := nx, final := fin, idx := b.toks.length - 1, token := last }
  let mine := decide (s.ownerOf hset last = s.orch.shard)
  if home then
    let c : HomeCommit :=
      { punnet := num, rslot := slot, key := k, row := r, epoch := ((s.punnet num).elim [] (fun p => p.epochs)).getD hset 0xFFFF, body := b, need := looked, look := if mine then some look else r.look,
        charge := own }
    match s2.homeRow c with
    | none => if b.commits then s2.lateCommit k own else if own = 0 then s2 else s2.giveBack n own
    | some _ =>
      let s3 : State := { s2 with hcom := s2.hcom ++ [c] }
      (State.flushCommits s3.hcom.length s3).pump
  else
    let s3 := if looked && mine then s2.sendMsg { hdr := s2.hdr (s2.homeOf n) false num slot 0 k.handle, body := .lkup look } else s2
    let (s4, _) := s3.takeCommit r dn b nx
    { s4 with rows := s4.rows.filter (fun x => !(decide (x.key = k ∧ x.punnet = some num))) }

/-- The commit of a row that a purge has made void (R316): the context is lost, or a charge that commits nothing is returned. -/
def State.purgedCommit (s : State) (e : Nat × Nat × RowKey) (b : CommitB) : State :=
  let k := e.2.2
  let s1 : State := { s with orch := { s.orch with purged := s.orch.purged.erase e } }
  if (s.slot k.handle.slot).gen ≠ k.handle.gen ∨ (s.slot k.handle.slot).rstate = 0 then s1
  else
    let own := ownCharge (s.ctx k.handle.slot) k b
    if b.commits then s1.lateCommit k own else if own = 0 then s1 else s1.giveBack k.handle.slot own

/-- COMMIT at an instance (R314, R315): a second one for a row breaks sequence. -/
def State.onCommit (s : State) (h : Hdr) (b : CommitB) : State :=
  let s0 := s.passOn h (.commit b)
  match (if h.parity || hdrBroken h then none else s.orch.purged.find? (fun e => decide (e.1 = h.punnet ∧ e.2.1 = h.rslot))) with
  | some e => s0.purgedCommit e b
  | none => s0.rowMsg { hdr := h, body := .commit b } (fun s =>
    match s.prow h.punnet h.rslot with
    | none => s
    | some r =>
      if r.exited then (s.contained 0x18 (Site.row h.punnet r.key h.rslot)).doubtAt h.punnet (some h.rslot) 0x18
      else s.applyCommit h.punnet h.rslot r b)

/-- LKUP at the home (R182); one that comes before its COMMIT is kept. -/
def State.onLkup (s : State) (h : Hdr) (b : LkupB) : State :=
  if s.forMe h = false then s.passOn h (.lkup b)
  else
    let mine := fun (c : HomeCommit) => decide (c.punnet = h.punnet ∧ c.rslot = h.rslot)
    let act := fun (s : State) =>
      let s1 : State := { s with hcom := s.hcom.map (fun (c : HomeCommit) => if mine c && c.look.isNone then { c with look := some b } else c) }
      (State.flushCommits s1.hcom.length s1).pump
    if h.parity = false ∧ hdrBroken h = false ∧ (s.punnet h.punnet).isNone = true ∧ s.hcom.any mine = true then act s
    else s.rowMsg { hdr := h, body := .lkup b } (fun s =>
      if s.hcom.any mine then act s else s.updRow h.punnet h.rslot (fun r => { r with look := some b }))

/-- A record that has not been begun takes an auxiliary output (R107). -/
def EgRec.aux (r : EgRec) (pos : Nat) (b : AuxB) : EgRec :=
  let v := if b.reward then r.words.getD 2 0 else b.out
  let w := if b.reward then b.out else r.words.getD 3 0
  { r with words := vrecWords r.handle pos v w ((bitsAt (r.words.getD 4 0) 0 2) ||| (if b.reward then 2 else 1)) }

/-- AUX at the home: a finite output that comes before the TREC is issued stands in the row's VREC (R107). -/
def State.onAux (s : State) (h : Hdr) (b : AuxB) : State :=
  if s.forMe h = false then s.passOn h (.aux b)
  else s.rowMsg { hdr := h, body := .aux b } (fun s =>
    match s.prow h.punnet h.rslot with
    | none => s
    | some p =>
      if b.finite = false then s
      else
        let grps := (s.eg.queue.filter (fun e => decide (e.key = some p.key ∧ e.done = 0))).map (fun e => e.grp)
        let vrec := fun (e : EgRec) => decide (e.handle = p.key.handle ∧ e.done = 0 ∧ bitsAt (e.words.getD 0 0) 24 4 = 4 ∧ e.key = none
          ∧ bitsAt (e.words.getD 1 0) 0 24 = p.key.pos) && grps.contains e.grp
        { s with
          rows := s.rows.map (fun (r : Row) => if r.key = p.key ∧ r.punnet = some h.punnet ∧ r.decided = false then
            (if b.reward then { r with auxr := some b.out } else { r with auxv := some b.out }) else r),
          eg := { s.eg with queue := s.eg.queue.map (fun (e : EgRec) => if vrec e then e.aux p.key.pos b else e) } })

/-! ## The deadline at the home (R23, R204) -/

/-- Rows that share a deadline's outcome with a row: the rows of its verify group, else itself. -/
def State.fateOf (s : State) (r : Row) : List Row :=
  if r.key.cls = clVerify then
    s.rows.filter (fun x => x.home && !x.decided && decide (x.key.cls = clVerify ∧ x.key.handle = r.key.handle ∧ x.rd.tag = r.rd.tag
      ∧ x.key.pos + r.key.gidx = r.key.pos + x.key.gidx))
  else [r]

/-- The context was late under STRICT at this instance's fetch deadline. -/
def State.lateHere (s : State) (r : Row) : Bool :=
  match r.punnet.bind (fun n => s.punnet n) with
  | some p => p.rows.any (fun q => decide (q.key = r.key ∧ q.verdict = .defer ∧ q.cause = none))
  | none => false

/-- The fallback record of a row whose time has come (Table 1.4): DEFER for a late context, else VOID. -/
def State.expire (s : State) (r : Row) : State :=
  let g := s.fateOf r
  let cause := (g.filterMap (fun x => x.cause)).head?
  if cause = none ∧ g.any (fun x => s.lateHere x) = true then
    g.foldl (fun (s : State) x => s.fallback x kDefer) s
  else g.foldl (fun (s : State) x => s.voidRow x (cause.getD 0x30)) s

/-- A row's deadline on this instance: the home settles it; a copy that waits for its placement is dropped. -/
def State.deadlineHere (s : State) (k : RowKey) : State :=
  match s.rows.find? (fun r => decide (r.key = k ∧ r.due ≤ s.now) && !r.decided) with
  | none => s
  | some r =>
    if r.home then ((s.dropCommits (fun c => decide (c.key = k) || (s.fateOf r).any (fun x => decide (x.key = c.key)))).expire r).pump
    else if r.punnet = none then { s with rows := s.rows.filter (fun x => decide (x.seq ≠ r.seq)) }
    else s

end Sys2Proof.Machine
end

