-- ==== Sys2Proof/Machine/Root.lean ====
section
/-! DEFINITION. A row at the root: the combine, the second round and the repeat pass, certification with its rescore loop, the decision of a
verify group, SCORE targets, and the commit or fallback record that the row ends in (R77, R113 to R127, R142 to R153, R190 to R206, R212
to R218, R234, R268, R271). -/

namespace Sys2Proof.Machine

/-! ## Rows at the root -/

/-- Merge class of the records of a VERIFY row's retained set, which a second CAND message carries (DESIGN CHOICE, log 35). -/
def mcRset : Nat := 0x104

/-- The partials that each shard sends for a row in one bank pass, by merge class (Table 6.5, R202, R214, R217). A second round sends STAT
and the entries it collected; a repeat pass sends STAT alone. -/
def rowClasses (p : Profile) (k : RowKey) (draftn : Nat) (ref : Bool) (t : Option ThreshB) : List Nat :=
  match t with
  | some t => 3 :: (if ref = true ∨ t.r = 0 then [] else [4])
  | none =>
    if ref then [3, 7]
    else 3 :: (if depthOf p k.cls = 0 then [] else [4]) ++ (if (winPurpose p k draftn).isSome then [5] else [])
      ++ (if topmOn p k.cls = true ∧ p.ntop ≠ 0 then [6] else []) ++ (if k.cls = clScore then [7] else [])
      ++ (if k.cls = clVerify ∧ k.gidx < draftn then [mcRset] else [])

/-- A row at the root. -/
def State.root (s : State) (num slot : Nat) : Option RootRow := s.roots.find? (fun r => decide (r.punnet = num ∧ r.rslot = slot))

/-- A row at the root changed. -/
def State.updRoot (s : State) (num slot : Nat) (f : RootRow → RootRow) : State :=
  { s with roots := s.roots.map (fun (r : RootRow) => if r.punnet = num ∧ r.rslot = slot then f r else r) }

/-- Where a row's repeat pass stands (R77). -/
def RootRow.repAt (r : RootRow) : Option (Nat × Nat) := r.rep.map (fun x => (x.1, x.2.1))

/-- A row at the root by its slot, or by the slot of its repeat pass. -/
def State.rootAt (s : State) (num slot : Nat) : Option RootRow :=
  s.roots.find? (fun r => decide ((r.punnet = num ∧ r.rslot = slot) ∨ r.repAt = some (num, slot)))

/-- Its own pass's partial, and that of its reference pass. -/
def RootRow.main (r : RootRow) : PartSum := Tab.get r.sums 0 PartSum0
def RootRow.ref (r : RootRow) : Option PartSum := Tab.find? r.sums 1

/-- Issue-by tick. -/
def RootRow.due (r : RootRow) : Nat := r.admTick + r.rd.deadline - r.reserve

/-- The rows at the root that share a row's fate: its verify group in GIDX order, else itself (R208). -/
def State.groupRoots (s : State) (r : RootRow) : List RootRow :=
  if r.key.cls = clVerify then
    sortBy (fun (a b : RootRow) => decide (a.key.gidx < b.key.gidx))
      (s.roots.filter (fun x => decide (x.key.cls = clVerify ∧ x.key.handle = r.key.handle ∧ x.key.pos + r.key.gidx = r.key.pos + x.key.gidx)))
  else [r]

/-- The certification cutoff (R123); of a group, that of its earliest deadline (R204). -/
def State.cutoff (s : State) (r : RootRow) : Nat :=
  (s.groupRoots r).foldl (fun a x => min a x.due) r.due - r.prof.certmargin

/-- The cutoff has come. -/
def State.late (s : State) (r : RootRow) : Bool := decide (s.cutoff r ≤ s.now)

/-! ## Settling a row (R23, R268, R314) -/

/-- A charge on a request's tenant (R268); a negative one returns tentative charges. -/
def State.charge (s : State) (slot : Nat) (d : Int) : State :=
  if d = 0 then s
  else
    let n := (s.ctx slot).tenant
    let t := Tab.get s.tenants n Tenant.reset
    { s with tenants := Tab.set s.tenants n { t with charged := addCharge t.charged d, bal := if t.limit then t.bal - d else t.bal } }

/-- A row leaves the root with its commit: its share of the candidate store is freed, its charge made, the commit sent to every other
instance and taken here. -/
def State.settleRoot (s : State) (r : RootRow) (b : CommitB) : State :=
  let s1 : State := { s with
    roots := s.roots.filter (fun x => !decide (x.punnet = r.punnet ∧ x.rslot = r.rslot)),
    asm := { s.asm with store := s.asm.store - r.depth, repeats := s.asm.repeats.filter (fun e => decide (e ≠ (r.punnet, r.rslot))) } }
  let s2 := s1.charge r.key.handle.slot (chargeOf (s1.ctx r.key.handle.slot) r.key b)
  match s2.prow r.punnet r.rslot with
  | none => s2
  | some p =>
    let m : Msg := { hdr := s2.hdr 0 true r.punnet r.rslot 0 r.key.handle, body := .commit b }
    (s2.bcastOthers m).applyCommit r.punnet r.rslot p b

/-- XREC values of a row that reports none. -/
def xvalsNone : XVals := { lpalt := 0, lse := 0, lpref := f32Nan, kl1 := f32Nan, kl2 := f32Nan, kl3 := f32Nan }

/-- The commit of a fallback record. -/
def fallbackBody (kind cause : Nat) : CommitB :=
  { token := 0, kind := kind, flags := 0, commits := false, logprob := 0, lpbnd := 0, entropy := 0, nacc := 0, toks := [], xv := false,
    xvals := xvalsNone, top := [], draft := none, cause := cause }

/-- A row ends in a fallback record, with every row of its verify group (R208). -/
def State.failRow (s : State) (r : RootRow) (kind cause : Nat) : State :=
  (s.groupRoots r).foldl (fun (s : State) x => s.settleRoot x (fallbackBody kind (x.cause.getD cause))) s

/-- A doubt exit (Table 5.4). -/
def State.doubtExit (s : State) (r : RootRow) (cause : Nat) : State := (s.bump offDoubtx).failRow r kVoid cause

/-- A row whose partials carry doubt gets VOID; an error in a norm list is a doubt exit of certification (R148, Table 5.4). -/
def State.doubtVoid (s : State) (r : RootRow) (cause : Nat) : State := if cause = 0x12 then s.doubtExit r cause else s.failRow r kVoid cause

/-! ## Record values -/

/-- Flags of a record (Table 2.3): APPROX, UNCERT, TRUNC, LPB, SPEC, ANCHOR. -/
def RootRow.flags (r : RootRow) (lpb spec : Bool) : Nat :=
  b2n (decide (r.late = 1)) + 2 * b2n r.uncert + 4 * b2n r.trunc + 8 * b2n lpb + 32 * b2n spec + 64 * b2n r.anchorF

/-- The commit of a row whose token is settled, but for what it commits (R143, R126, R152). -/
def RootRow.tokenBody (r : RootRow) (w : Chosen) : CommitB :=
  let p := r.prof
  let s := r.main
  let o := lpOut p s.stat r.elig w
  let d := derive s.stat.sq s.stat.eq (chainC p s.stat)
  { token := w.id, kind := kToken, flags := r.flags (lpbFlag p o.bnd) (decide (r.key.cls = clDraft)), commits := false, logprob := o.logprob,
    lpbnd := o.bnd, entropy := toB16 d.h, nacc := 0, toks := [], xv := decide (p.ntop ≠ 0),
    xvals := { xvalsNone with lpalt := o.lpalt, lse := d.lse }, top := topList p s r.elig w o, draft := none, cause := 0 }

/-- The score of an entry at z_f, as the row's partials hold it. -/
def RootRow.scoreAt (r : RootRow) (w : Chosen) : F32 :=
  ((r.main.win.fast.toList ++ r.main.win.conts).find? (fun c => decide (c.id = w.id))).map (fun c => c.x) |>.getD w.x

/-- The distribution of a DRAFT row for its retained set (R194, R195). -/
def RootRow.draftOf (r : RootRow) (w : Chosen) : DraftB :=
  if isZero r.prof.temp then { anch := r.scoreAt w, qd := accOf (2 ^ 256), zero := true, ents := [(w.id, r.scoreAt w)] }
  else
    let e := r.elig.getD []
    let c := chainC r.prof r.main.stat
    { anch := c, qd := (setSum e c).s, zero := false, ents := e.map (fun x => (x.id, x.x)) }

/-- A candidate as a chosen token that was not re-scored. -/
def chosenOf (c : CandRec) : Chosen := { id := c.id, z := c.zf, x := c.x, eps := c.eps, shadow := false }

/-- A re-scored contender as a chosen token. -/
def chosenRsp (q : RspB) : Chosen := { id := q.id, z := q.zs, x := q.xpre, eps := 0, shadow := true }

/-! ## Exits -/

/-- A token that ends its sequence by position (R273). -/
def endsAt (pos : Nat) : Nat := if pos + 1 = 2 ^ 24 then kEnd else kToken

/-- A DECODE, FIRST or DRAFT row exits certification with its token (R41, R191, R271). -/
def State.exitRow (s : State) (r : RootRow) (w : Chosen) : State :=
  let b := r.tokenBody w
  let x := s.ctx r.key.handle.slot
  if x.canc then s.settleRoot r { b with kind := kDropped }
  else if r.key.cls = clDraft then
    if ((s.prow r.punnet r.rslot).map (fun q => draftStands x q)).getD false then s.settleRoot r { b with draft := some (r.draftOf w) }
    else s.settleRoot r (fallbackBody kDefer 0)
  else s.settleRoot r { b with kind := endsAt r.rd.pos, commits := true, toks := [w.id] }

/-- The token of an accepted draft in its VERIFY row (Table 9.2). -/
def RootRow.accepted (r : RootRow) (tok : Nat) : Chosen :=
  match ((r.elig.getD r.main.rset) ++ r.main.rset).find? (fun c => decide (c.id = tok)) with
  | some c => chosenOf c
  | none => { id := tok, z := 0, x := f32NegInf, eps := 0, shadow := false }

/-- The retained set that a VERIFY row tests its draft against, as the home sent it when the group was placed (R202). -/
def State.testSet (s : State) (r : RootRow) : Option RetSet := (s.prow r.punnet r.rslot).bind (fun q => Tab.find? q.sides.sets r.key.gidx)

/-- A decided group exits: rows below the last one commit nothing of their own, row n carries every token, later rows get DEFER (R205,
Table 9.2, Table 9.3). -/
def State.exitGroup (s : State) (r : RootRow) (w : Chosen) : State :=
  let g := (s.groupRoots r).map (fun x => if x.key = r.key then r else x)
  let approx := g.any (fun x => decide (x.late = 1))
  let n := r.key.gidx
  let x := s.ctx r.key.handle.slot
  let ds := (g.take n).map (fun y => ((s.testSet y).map (fun t => t.dtoken)).getD 0)
  g.foldl (fun (s : State) y =>
    let y1 : RootRow := { y with late := if approx then 1 else y.late }
    if y.key.gidx < n then
      let b := y1.tokenBody (y1.accepted (ds.getD y.key.gidx 0))
      s.settleRoot y (if x.canc then { b with kind := kDropped } else b)
    else if y.key.gidx = n then
      let b := { y1.tokenBody w with nacc := n }
      s.settleRoot y (if x.canc then { b with kind := kDropped } else { b with kind := endsAt r.rd.pos, commits := true, toks := ds ++ [w.id] })
    else s.settleRoot y (fallbackBody kDefer 0)) s

/-- A row exits certification with its token. A row that awaits the sums of a repeat pass holds its record until they come (Table 5.7); a
group is not decided before they have. -/
def State.exitWith (s : State) (r : RootRow) (w : Chosen) : State :=
  if r.key.cls = clVerify then s.exitGroup r w
  else if r.pendSum then s.updRoot r.punnet r.rslot (fun _ => { r with stage := .settled, winner := some w })
  else s.exitRow r w

/-- A cap or timeout exit by the row's policy (Table 5.4): the best re-scored contender, or the fast winner. -/
def State.policyExit (s : State) (r : RootRow) (off : Nat) (best : Option (F32 × RspB)) : State :=
  let s1 := s.bump off
  if r.prof.certpol = 0 then s1.failRow r kVoid 0x31
  else match (best.map (fun b => chosenRsp b.2)).or r.winner with
    | some w => s1.exitWith { r with uncert := true } w
    | none => s1.failRow r kVoid 0x31

/-! ## Rescore requests (R120, R122, R127) -/

/-- The index of a row's own pass in its punnet. -/
def State.ownPass (s : State) (r : RootRow) : Nat :=
  let ps := ((s.punnet r.punnet).map (fun p => p.passes)).getD []
  (r.passes.find? (fun i => !isRefPass ps i r.rd)).getD 0

/-- The index of its reference pass. -/
def State.refPass (s : State) (r : RootRow) : Nat :=
  let ps := ((s.punnet r.punnet).map (fun p => p.passes)).getD []
  (r.passes.find? (fun i => isRefPass ps i r.rd)).getD 0

/-- A rescore request that waits for a lane of this instance's Rescore Unit. -/
def State.queueRsq (s : State) (h : Hdr) (b : RsqB) : State := { s with rescore := s.rescore ++ [{ hdr := h, body := b, lane := false }] }

/-- A rescore request sent to the owner of an id; this instance's own is queued here. -/
def State.sendRsq (s : State) (r : RootRow) (pass id : Nat) (tgt : Bool) (eps : F32) : State :=
  let o := s.ownerOf r.rd.hset id
  let h := s.hdr o false r.punnet r.rslot pass r.key.handle
  let b : RsqB := { id := id, tgt := tgt, eps := eps, cutoff := BitVec.ofNat 32 (s.cutoff r) }
  if o = s.orch.shard then s.queueRsq h b else s.sendMsg { hdr := h, body := .rsq b }

/-- Some owner of these ids is in SAFE. -/
def State.ownerSafe (s : State) (hset : Nat) (ids : List Nat) : Bool := ids.any (fun v => !s.liveShards.contains (s.ownerOf hset v))

/-- The rescore loop goes on until it sends or exits (R120). -/
def State.loopGo (s : State) (num slot : Nat) : State :=
  match s.root num slot with
  | none => s
  | some r =>
    match r.stage with
    | .loop l =>
      match l.next r.prof.rscap r.prof.rsbatch (s.late r) with
      | .certified q => (if r.fast = some q.id then s else s.bump offOverride).exitWith r (chosenRsp q)
      | .cap => s.policyExit r offCapx l.best
      | .timeout => s.policyExit r offTimex l.best
      | .send cs =>
        let ids := cs.map (fun c => c.id)
        if s.ownerSafe r.rd.hset ids then s.doubtExit r 0x30
        else
          cs.foldl (fun (s : State) c => s.sendRsq r (s.ownPass r) c.id false c.eps)
            (s.updRoot num slot (fun r => { r with stage := .loop { l with batch := ids, replies := [] } }))
    | _ => s

/-- Certification of a draw (R113, R119, R120, R124, R127). -/
def State.certify (s : State) (r : RootRow) (b : WinB) (draw : Nat) : State :=
  match b.fast with
  | none => s.failRow r kVoid 0x32
  | some w =>
    let ch : Chosen := { id := w.id, z := w.z, x := w.x, eps := w.eps, shadow := false }
    let r1 : RootRow := { r with fast := some w.id, winner := some ch, draw := draw }
    if 2 ≤ r.rd.hsrc then s.exitWith r1 ch
    else if fastCertified w b then (s.bump offCertFast).exitWith r1 ch
    else if s.late r then s
    else
      let l : Loop := { conts := b.conts, spill := b.spill, i := 0, done := 0, best := none, batch := [], replies := [] }
      ((s.bump offCertLoop).updRoot r.punnet r.rslot (fun _ => { r1 with stage := .loop l })).loopGo r.punnet r.rslot

/-! ## SCORE rows (R127, R213, R218, R222) -/

/-- A SCORE row's record, from the replies it has; without one, from z_f. -/
def State.exitScore (s : State) (r : RootRow) (za zr : Option RspB) : State :=
  let p := r.prof
  let t := r.main.stat
  let q := chainSum t (chainC p t)
  let m := modelSum t (modelC p t)
  let d := derive t.sq t.eq (chainC p t)
  let v : Option (F32 × F32 × F32) := r.main.tgt.map (fun c => match za with
    | some a => (a.xpre, softcap p.softcap a.zs, 0)
    | none => (c.x, softcap p.softcap c.zf, c.eps))
  let lp := (v.map (fun e => q.lp e.1)).getD f32NegInf
  let bnd := (v.map (fun e => q.bound (slope p) e.2.2 e.1)).getD 0
  let alt := (v.map (fun e => m.lp e.2.1)).getD f32NegInf
  let lpref := match r.ref with
    | none => f32Nan
    | some f => (f.tgt.map (fun c => (modelSum f.stat (modelC p f.stat)).lp (softcap p.softcap ((zr.map (fun a => a.zs)).getD c.zf)))).getD f32NegInf
  let kl := if r.ref.isSome then klOf alt lpref else (f32Nan, f32Nan, f32Nan)
  let kind := if (s.ctx r.key.handle.slot).canc then kDropped else kScore
  let b : CommitB :=
    { token := r.rd.target, kind := kind, flags := r.flags (lpbFlag p bnd) false, commits := false, logprob := lp, lpbnd := bnd,
      entropy := toB16 d.h, nacc := 0, toks := [], xv := decide (kind = kScore ∨ p.ntop ≠ 0),
      xvals := { lpalt := alt, lse := d.lse, lpref := lpref, kl1 := kl.1, kl2 := kl.2.1, kl3 := kl.2.2 },
      top := (scoreTop p r.main).map (fun e => if e.1 = r.rd.target then (e.1, lp) else e), draft := none,
      cause := 0 }
  s.settleRoot r b

/-- A SCORE row has its replies: its record, unless it awaits the sums of a repeat pass (Table 5.7). -/
def State.scoreDone (s : State) (r : RootRow) (za zr : Option RspB) : State :=
  if r.pendSum then s.updRoot r.punnet r.rslot (fun _ => { r with stage := .scored za zr }) else s.exitScore r za zr

/-- A SCORE row at its cap or cutoff (R222). -/
def State.policyScore (s : State) (r : RootRow) (off : Nat) (za zr : Option RspB) : State :=
  let s1 := s.bump off
  if r.prof.certpol = 0 then s1.failRow r kVoid 0x31 else s1.scoreDone { r with uncert := true } za zr

/-- The target's re-scores go on: `left` lists those not yet sent, 0 for the row's own bank and 1 for REFERENCE (R214). -/
def State.targetsGo (s : State) (num slot : Nat) : State :=
  match s.root num slot with
  | none => s
  | some r =>
    match r.stage with
    | .targets left za zr out done =>
      if out ≠ 0 then s
      else if left.isEmpty then s.scoreDone r za zr
      else if r.prof.rscap ≤ done then s.policyScore r offCapx za zr
      else if s.late r then s.policyScore r offTimex za zr
      else if s.ownerSafe r.rd.hset [r.rd.target] then s.doubtExit r 0x30
      else
        let now := left.take (min r.prof.rsbatch (r.prof.rscap - done))
        let eps := fun (k : Nat) => (((Tab.get r.sums k PartSum0).tgt).map (fun c => c.eps)).getD 0
        now.foldl (fun (s : State) k => s.sendRsq r (if k = 1 then s.refPass r else s.ownPass r) r.rd.target true (eps k))
          (s.updRoot num slot (fun r => { r with stage := .targets (left.drop now.length) za zr now.length done }))
    | _ => s

/-- Certification of a SCORE row starts: a masked target and a row of LIN are not re-scored (R144, R127). -/
def State.startTargets (s : State) (r : RootRow) : State :=
  if r.main.tgt.isNone ∨ 2 ≤ r.rd.hsrc then s.scoreDone r none none
  else
    (s.updRoot r.punnet r.rslot (fun _ => { r with stage := .targets (if r.ref.isSome then [0, 1] else [0]) none none 0 0 })).targetsGo r.punnet r.rslot

/-! ## Verify groups (R190, R200 to R204) -/

/-- Drafts of a group with what their rows test them against. -/
def State.groupTests (s : State) (g : List RootRow) : List (Profile × PartSum × Option (List CandRec) × RetSet) :=
  g.filterMap (fun r => (s.testSet r).map (fun t => (r.prof, r.main, r.elig, t)))

/-- The contenders of a row's own draw: of E with the noise added at the root, or the merged WIN partial (R118). -/
def RootRow.drawWin (r : RootRow) (seed : W64) : WinB :=
  match r.elig with
  | some e => winOf (e.map (fun c => winRecOf (noiseOf r.prof seed r.rd.pos (drawPurpose r.key.cls) c.id) c))
  | none => r.main.win

/-- A group whose rows have all been combined is decided on the ring as it stood at the placement: the drafts are tested, a draft that ends
the sequence ends the group (R183), else row n takes its residual or bonus draw and certifies it (Table 9.3). -/
def State.decideGroup (s : State) (g : List RootRow) : State :=
  match g with
  | [] => s
  | r0 :: _ =>
    let seed := (s.ctx r0.key.handle.slot).seed
    let base := r0.rd.pos - r0.key.gidx
    let d := r0.rd.draftn
    let n := acceptRun seed base 0 (s.groupTests (g.take d))
    let ends := fun (j : Nat) => match g[j]?, (g[j]?).bind (fun r => s.testSet r) with
      | some r, some t => decide (base + j + 1 = 2 ^ 24) || ((s.prow r.punnet r.rslot).map (fun q => (s.delta q t.dtoken).2)).getD false
      | _, _ => false
    match (List.range n).find? ends with
    | some j => match g[j]?, (g[j]?).bind (fun r => s.testSet r) with
      | some r, some t => s.exitGroup r (r.accepted t.dtoken)
      | _, _ => s
    | none => match g[n]? with
      | none => s
      | some r =>
        match (if n < d then s.testSet r else none) with
        | none => s.certify r (r.drawWin seed) 0
        | some t =>
          let b := residual seed r.rd.pos r.prof r.main r.elig t
          if b.fast.isSome then s.certify r b 3 else s.certify r (residualPlain seed r.rd.pos r.prof r.main r.elig) 19

/-! ## The combine -/

/-- A verify group whose rows have all been combined, with every sum they await and every set they are tested against, is decided. -/
def State.groupGo (s : State) (r : RootRow) : State :=
  let g := s.groupRoots r
  if g.length = r.rd.draftn + 1 ∧ g.all (fun x => decide (x.stage = .group) && !x.pendSum
      && (decide (x.key.gidx = r.rd.draftn) || (s.testSet x).isSome)) then s.decideGroup g else s

/-- SIDE at a shard (Table 15.14) (DEDUCED, log 82). A retained set may be the last thing that a verify group waits for. -/
def State.onSide (s : State) (h : Hdr) (b : SideB) : State :=
  if s.forMe h = false then s.passOn h (.side b)
  else s.rowMsg { hdr := h, body := .side b } (fun s =>
    let s0 := s.updRow h.punnet h.rslot (fun r => { r with sides := r.sides.add b })
    let s1 := match b with
      | .grammar _ _ _ => s0.startFetch h.handle.slot .bramble
      | .sketch _ => s0.trim []
      | _ => s0
    match s1.root h.punnet h.rslot with
    | some r => if r.stage = .group then s1.groupGo r else s1
    | none => s1)

/-- A row whose E is settled goes on to certification. -/
def State.selected (s : State) (r : RootRow) : State :=
  if r.key.cls = clScore then s.startTargets r
  else if r.key.cls = clVerify then
    (s.updRoot r.punnet r.rslot (fun _ => { r with stage := .group })).groupGo r
  else s.certify r (r.drawWin (s.ctx r.key.handle.slot).seed) 0

/-- The new anchors of a repeat pass in a threshold message (R77, R142, Table 10.2). -/
def RootRow.anchors (r : RootRow) (b : ThreshB) : ThreshB :=
  let t := r.main.stat
  { b with ca := if t.chain20 then some (ceilF t.xmax) else none, cm := if t.model20 then some (ceilF t.x2max) else none,
           cr := r.ref.map (fun f => modelC r.prof f.stat) }

/-- A row is to be placed again: its threshold goes down the tree ahead of the close that carries it (R150, R77, R313). -/
def State.sendThresh (s : State) (r : RootRow) (t : ThreshB) : State :=
  let s1 := (s.updRoot r.punnet r.rslot (fun _ => r)).updRow r.punnet r.rslot (fun p => { p with thresh := some t })
  let s2 : State := { s1 with asm := { s1.asm with repeats := s1.asm.repeats ++ [(r.punnet, r.rslot)] } }
  s2.bcastOthers { hdr := s2.hdr 0 true r.punnet r.rslot 0 r.key.handle, body := .thresh t }

/-- A second round, which forms the sums again as well where they need it (R150). -/
def State.sendAgain (s : State) (r : RootRow) (b : ThreshB) : State :=
  let t := r.anchors b
  s.sendThresh { r with stage := .second, got := [], again := some (0, t.r) } t

/-- The threshold after the last entry of L, with no cut. -/
def openThresh (l : List CandRec) (r : Nat) : ThreshB :=
  { kid := ((l.getLast?).map (fun e => e.id)).getD 0, kx := ((l.getLast?).map (fun e => e.x)).getD f32NegInf, r := r, mp := none, dm := none,
    ca := none, cm := none, cr := none }

/-- The repeat pass of R77, which forms sums alone: the row goes on to certification meanwhile (Table 5.7). -/
def RootRow.repeated (r : RootRow) : RootRow := { r with pendSum := true, got := [], again := none }
def State.sendSums (s : State) (r : RootRow) (need : Bool) : State := if need then s.sendThresh r.repeated (r.anchors (openThresh r.main.cand 0)) else s
def RootRow.afterSums (r : RootRow) (need : Bool) : RootRow := if need then r.repeated else r

/-- Top-p runs over every unmasked entry while their sum is to be formed again. -/
def sumOpen (p : Profile) (cls : Nat) (t : StatB) : Bool := t.chain20 && flt p.topp f32One && isZero p.minp && decide (topkOf p cls = 0)

/-- COMBINE_DONE (R144, R149, R151): the root holds every partial of a row's pass (DEDUCED, log 89). -/
def State.combineDone (s : State) (r : RootRow) : State :=
  let p := r.prof
  let cls := r.key.cls
  let t := r.main.stat
  let first := decide (r.stage = .combine)
  let again := first && (t.chain20 || t.model20 || ((r.ref.map (fun f => f.stat.model20)).getD false))
  let r1 : RootRow := { r with anchorF := t.chain0 || t.model0 || ((r.ref.map (fun f => f.stat.model0)).getD false) }
  if r.late = 2 then s.failRow r kDefer 0
  else if t.cnt = 0 then
    if cls = clScore then s.exitScore r1 none none else (s.bump offEmptyRow).failRow r kVoid 0x32
  else if stage8 p cls then
    match truncate p cls (chainC p t) t r.main.cand (if first then none else r.again) with
    | .settled e tr =>
      if first ∧ sumOpen p cls t = true then s.sendAgain r1 (openThresh r.main.cand (4096 - r.main.cand.length))
      else (s.sendSums r1 again).selected { r1.afterSums again with elig := some e, trunc := tr }
    | .second b => if first then s.sendAgain r1 b else s.selected { r1 with elig := some r.main.cand, trunc := true }
  else (s.sendSums r1 again).selected (r1.afterSums again)

/-- One class of a partial joined to what the root holds of the row; in a second round the sums are replaced and the entries appended. -/
def joinPart (second : Bool) (mclass : Nat) (a x : PartSum) : PartSum :=
  if mclass = 3 then
    if second then { a with stat := { a.stat with sq := x.stat.sq, eq := x.stat.eq, mq := x.stat.mq, meq := x.stat.meq } }
    else { a with stat := x.stat }
  else if mclass = 4 then { a with cand := if second then a.cand ++ x.cand else x.cand }
  else if mclass = 5 then { a with win := x.win }
  else if mclass = 6 then { a with topm := x.topm }
  else if mclass = 7 then { a with tgt := x.tgt }
  else { a with rset := x.rset }

/-- The sums of a repeat pass have come: the record that waited for them follows (Table 5.7). -/
def State.sumsDone (s : State) (r : RootRow) : State :=
  let s1 := s.updRoot r.punnet r.rslot (fun _ => r)
  match r.stage, r.winner with
  | .settled, some w => s1.exitRow r w
  | .scored za zr, _ => s1.exitScore r za zr
  | .group, _ => s1.groupGo r
  | _, _ => s1

/-- A merged partial reaches the root (R148): doubt settles the row at once, and so does a late context (R22, R249); with the last partial of
its passes the combine is done. -/
def State.rootPart (s : State) (num slot pass mclass : Nat) (x : PartSum) : State :=
  match s.rootAt num slot with
  | none => s
  | some r =>
    let ps := ((s.punnet num).map (fun p => p.passes)).getD []
    let ref := isRefPass ps pass r.rd
    let sums := decide (r.repAt = some (num, slot))
    let passes := if sums then (r.rep.map (fun x => x.2.2)).getD [] else r.passes
    let second := sums || decide (r.stage = .second)
    if (second || decide (r.stage = .combine)) = false ∨ r.got.contains (pass, mclass) = true ∨ passes.contains pass = false then s
    else if mclass = 3 ∧ x.stat.doubt = true then s.doubtVoid r (if x.stat.why = 0 then 0x30 else x.stat.why)
    else if r.cause.isSome then s.doubtVoid r (r.cause.getD 0x30)
    else if mclass = 3 ∧ x.stat.late = 2 then s.failRow r kDefer 0
    else
      let k := b2n ref
      let th := (s.prow num slot).bind (fun p => p.thresh)
      let r1 : RootRow := { r with
        got := (pass, mclass) :: r.got, sums := Tab.set r.sums k (joinPart second mclass (Tab.get r.sums k PartSum0) x),
        late := if mclass = 3 then max r.late x.stat.late else r.late,
        again := if second = true ∧ mclass = 4 then r.again.map (fun a => (x.cand.length, a.2)) else r.again }
      if passes.all (fun i => (rowClasses r.prof r.key r.rd.draftn (isRefPass ps i r.rd) th).all (fun c => r1.got.contains (i, c))) then
        if sums then s.sumsDone { r1 with pendSum := false } else (s.updRoot r.punnet r.rslot (fun _ => r1)).combineDone r1
      else s.updRoot r.punnet r.rslot (fun _ => r1)

/-- A row of the root whose own context was late at its fetch deadline is settled there (R22, R249). -/
def State.rootDefer (s : State) (num slot : Nat) : State :=
  match s.rootAt num slot, s.prow num slot with
  | some r, some q => if q.verdict = .defer ∧ r.cause = none ∧ q.cause = none then s.failRow r kDefer 0 else s
  | _, _ => s

/-! ## Replies and the cutoff -/

/-- The noise of the draw that a row certifies. -/
def State.rootNoise (s : State) (r : RootRow) (id : Nat) : Option F32 :=
  noiseOf r.prof (s.ctx r.key.handle.slot).seed r.rd.pos (if r.draw = 0 then drawPurpose r.key.cls else purResidual) id

/-- T_v of a reply: its score with the draw's correction and noise (R203). -/
def State.rootT (s : State) (r : RootRow) (q : RspB) : F32 :=
  let c := if r.draw = 3 then match s.testSet r with
    | some t => correction r.prof r.main r.elig t q.id q.xpre
    | none => some 0
    else some 0
  withNoise (s.rootNoise r q.id) (corrected_ c q.xpre)

/-- The noise that a reply carries is not the row's (R167). -/
def State.noiseBad (s : State) (r : RootRow) (q : RspB) : Bool := match s.rootNoise r q.id with
  | some g => decide (g ≠ q.g)
  | none => false

/-- A rescore reply at the root; one at or after the cutoff is discarded (R120, R123). A reply with doubt stands as a NaN until its round is
complete. -/
def State.takeRsp (s : State) (h : Hdr) (b : RspB) : State :=
  match s.root h.punnet h.rslot with
  | none => s
  | some r =>
    if s.late r then s
    else
      let q : RspB := if h.doubt then { b with zs := f32Nan } else b
      match r.stage with
      | .loop l =>
        if l.batch.contains q.id = false ∨ l.replies.any (fun x => decide (x.id = q.id)) = true then s
        else if isNan q.zs = false ∧ s.noiseBad r q = true then
          ((s.bump offNoisex).contained 0x16 (Site.row h.punnet r.key h.rslot)).doubtExit r 0x16
        else
          let rs := l.replies ++ [q]
          if rs.length < l.batch.length then s.updRoot h.punnet h.rslot (fun r => { r with stage := .loop { l with replies := rs } })
          else if rs.any (fun x => isNan x.zs) then s.doubtExit r 0x12
          else
            let n := l.batch.length
            let l1 : Loop := { l with best := rs.foldl (fun a x => betterReply a (s.rootT r x) x) l.best, done := l.done + n, i := l.i + n,
                                      batch := [], replies := [] }
            (s.updRoot h.punnet h.rslot (fun r => { r with stage := .loop l1 })).loopGo h.punnet h.rslot
      | .targets left za zr out done =>
        if out = 0 ∨ q.id ≠ r.rd.target then s
        else if isNan q.zs then s.doubtExit r 0x12
        else
          let ref := isRefPass (((s.punnet h.punnet).map (fun p => p.passes)).getD []) h.pass r.rd
          let za1 := if ref then za else some q
          let zr1 := if ref then some q else zr
          (s.updRoot h.punnet h.rslot (fun r => { r with stage := .targets left za1 zr1 (out - 1) (done + 1) })).targetsGo h.punnet h.rslot
      | _ => s

/-- CERT_CUTOFF (R120, R123, R124): a loop or a target that is still open exits by timeout. -/
def State.certCutoff (s : State) (num slot : Nat) : State :=
  match s.root num slot with
  | none => s
  | some r =>
    if s.late r = false then s
    else match r.stage with
      | .loop l => s.policyExit r offTimex l.best
      | .targets _ za zr _ _ => s.policyScore r offTimex za zr
      | _ => s

/-- A row unfinished at its deadline leaves the root; its home writes the fallback record (R23). -/
def State.rootDeadline (s : State) (k : RowKey) : State :=
  match s.roots.find? (fun r => decide (r.key = k ∧ r.due ≤ s.now)) with
  | none => s
  | some r => if r.late = 2 then s.failRow r kDefer 0 else s.failRow r kVoid 0x30

/-- Rows that wait for a shard which has entered SAFE (Table 5.4): a re-score it owns is a doubt. -/
def State.rootShardSafe (s : State) (sh : Nat) : State :=
  s.roots.foldl (fun (s : State) r =>
    let hit := match r.stage with
      | .loop l => l.batch.any (fun v => decide (s.ownerOf r.rd.hset v = sh) && !l.replies.any (fun q => decide (q.id = v)))
      | .targets _ _ _ out _ => decide (out ≠ 0 ∧ s.ownerOf r.rd.hset r.rd.target = sh)
      | _ => false
    if hit then s.doubtExit r 0x30 else s) s

end Sys2Proof.Machine
end

