-- ==== Sys2Proof/Machine/Flow.lean ====
section
/-! DEFINITION. The data path of one instance: residency verdicts, the prelude, tiles, the projection, selection, shard summaries and their
merge, the Rescore Unit and the auxiliary heads (R86 to R107, R114 to R117, R122, R148, R247 to R252, R311, R315). -/

namespace Sys2Proof.Machine

/-! ## Rows of a pass -/

/-- A row slot takes part in a bank pass and is active in it (R91). -/
def State.activeIn (s : State) (p : Punnet) (i : Nat) (r : PRow) : Bool :=
  r.active && r.cause.isNone && !r.exited && (match s.copyOf p.num r.key with
    | some c => decide (c.rd.hsrc ≤ 1) && (rowPasses p.passes r c.rd).contains i
    | none => false)

/-- The active rows of a pass with their descriptors. -/
def State.activeRows (s : State) (p : Punnet) (i : Nat) : List (PRow × Rdesc) :=
  p.rows.filterMap (fun r => if s.activeIn p i r then (s.copyOf p.num r.key).map (fun c => (r, c.rd)) else none)

/-- The distinct variants of a pass in ascending number (R100); a reference pass has none (R217). -/
def passVars (ps : Pass) (rs : List (PRow × Rdesc)) : List Nat :=
  if ps.kind = .reference then []
  else sortBy (fun (a b : Nat) => decide (a < b)) ((rs.map (fun r => r.2.variant)).filter (fun v => decide (v ≠ 127))).dedup

/-- w_a of a pass (R100). -/
def State.augWidth (s : State) (ps : Pass) (rs : List (PRow × Rdesc)) : Nat :=
  ((passVars ps rs).map (fun v => padRank ((s.bank ps.hset ps.bank).rank v))).foldl (· + ·) 0

/-! ## Tiles (R92, R99, R104, R105) -/

/-- An entry is cleared by the row's vocabulary masks or its Bramble mask (R104). -/
def State.vocabMasked (s : State) (r : PRow) (v : Nat) : Bool :=
  (maskNums r.prof).any (fun m => match s.pinned r (swapTable 0 m) with
    | some g => !g.img.maskBit v
    | none => true)
  || (match s.gramState r with
    | some (x, nv, mi) => !x.allows nv mi v
    | none => false)

/-- Bramble's summary bit of a tile for a grammar state (R178): by mode alone; deny entries, missing transitions and NVOCAB clear none. -/
def GState.summary (g : GState) (mask : Option Image) (t : Nat) : Bool :=
  let mk := (mask.map (fun i => (tileIds t).any (fun v => i.maskBit v))).getD false
  let al := g.allow.any (fun v => decide (v / 512 = t))
  match g.mode with
  | 0 => true
  | 1 => mk
  | 2 => al
  | _ => mk || al

/-- A main tile is masked for a row: its summary bit is 0, or the row's vocabulary masks clear every entry (R104, R178). -/
def State.tileMasked (s : State) (h t : Nat) (r : PRow) : Bool :=
  (match s.gramState r with
    | some (x, _, mi) => !x.summary mi t
    | none => false)
  || (tileIds t).all (fun v => decide ((s.head h).v ≤ v) || (maskNums r.prof).any (fun m => match s.pinned r (swapTable 0 m) with
    | some g => !g.img.maskBit v
    | none => true))

/-- Every listed entry of an outlier tile is masked for every active row (R102). -/
def State.allMasked (s : State) (rs : List (PRow × Rdesc)) (ids : List Nat) : Bool := rs.all (fun r => ids.all (fun v => s.vocabMasked r.1 v))

/-- The tiles of a pass on this instance, in the order of R92. A pass without active rows has none (R91). -/
def State.tilesFor (s : State) (p : Punnet) (i : Nat) (ps : Pass) : List TileRef :=
  let rs := s.activeRows p i
  if rs.isEmpty then []
  else
    let b := s.bank ps.hset ps.bank
    let lanes := ((passVars ps rs).map (fun v => b.rank v)).foldl (· + ·) 0
    (List.range (ceilDiv lanes 512)).map TileRef.pre
    ++ ((s.ownTiles ps.hset).filter (fun t => !rs.all (fun r => s.tileMasked ps.hset t r.1))).map TileRef.main
    ++ ((List.range (ceilDiv b.data.outl.length 512)).filter (fun j => !s.allMasked rs (b.outlIds j))).map TileRef.outl

/-- Segments of a tile (R97). -/
def State.tileSegs (s : State) (p : Punnet) (i : Nat) (t : TileRef) : Nat :=
  match p.passes[i]? with
  | none => 0
  | some ps =>
    let d := (s.head ps.hset).d
    match t with
    | .main _ => ceilDiv (d + s.augWidth ps (s.activeRows p i)) 2048
    | .outl _ => ceilDiv (d + s.augWidth ps (s.activeRows p i)) 2048
    | _ => ceilDiv d 2048

/-- This instance runs an auxiliary head (R107). -/
def State.runsAux (s : State) (reward : Bool) : Bool := decide (s.orch.shard = if reward then s.orch.n - 1 else 0)

/-- The rows of a pass that request an auxiliary head which its bank carries (R105). -/
def State.auxRows (s : State) (p : Punnet) (i : Nat) (reward : Bool) : List PRow :=
  match p.passes[i]? with
  | none => []
  | some ps =>
    if ps.kind = .reference ∨ (s.bank ps.hset ps.bank).hasAux reward = false ∨ s.runsAux reward = false then []
    else (s.activeRows p i).filterMap (fun r => if (if reward then r.1.prof.rewardh else r.1.prof.valueh) = 1 then some r.1 else none)

/-- Key of a row's z. -/
def auxKey (slot : Nat) (reward : Bool) : Nat := 2 * slot + b2n reward

/-- The auxiliary tiles still to run, once every pass has closed (R92). -/
def State.auxLeft (s : State) (p : Punnet) : List (Nat × TileRef) :=
  (List.range p.passes.length).flatMap (fun i => [false, true].flatMap (fun w =>
    let rs := s.auxRows p i w
    if rs.isEmpty then []
    else
      let done := rs.foldl (fun a r => min a ((Tab.get p.auxZ (auxKey r.slot w) []).length / 512)) 2
      (span done (2 - done)).map (fun j => (i, TileRef.aux w j))))

/-- The array has taken every tile of a punnet; the logits of the last may still drain. -/
def State.tilesDone (s : State) (p : Punnet) : Bool := p.started && p.passes.all (fun x => x.tiles.isEmpty) && (s.auxLeft p).isEmpty

/-- Every tile of a punnet has been projected and closed on this instance. -/
def State.projected (s : State) (p : Punnet) : Bool := s.tilesDone p && p.drains.isEmpty

/-! ## Residency (R247 to R249) -/

/-- Tokens that a row may commit (R252): one, or every position of its verify group. -/
def State.mayCommit (s : State) (num : Nat) (r : PRow) : Nat :=
  if r.key.cls = clDraft ∨ r.key.cls = clScore then 0
  else if r.key.cls = clVerify then ((s.copyOf num r.key).map (fun c => c.rd.draftn + 1)).getD 1
  else 1

/-- The verdict of an instance at a row's fetch deadline (Table 12.7) (DESIGN CHOICE, log 92). A full pending list defers every row that would
add to it (R252). -/
def State.verdictOf (s : State) (num : Nat) (r : PRow) : Verdict :=
  let n := r.key.handle.slot
  let x := s.ctx n
  let c := s.count n
  let home := s.isHome n
  let strict := decide (r.prof.latepath = 0)
  let uses := usesCount r.prof && !c.dense
  let hist := home && decide (2 ≤ x.rs.ngram) && !r.looked
  let count := uses && (!c.res || !c.pend.isEmpty)
  let full := fun (l : Nat) => decide (256 < l + s.mayCommit num r)
  let gram := match r.sides.grammar with
    | some g => !c.bram.contains g
    | none => x.gram.isSome
  if home && (!x.headRes || (needsStrict x r.key && !x.strictRes)) then .defer
  else if gram then .defer
  else if (uses && decide (256 ≤ c.pend.length)) || (!c.res && !c.dense && full c.pend.length) || (home && decide (2 ≤ x.rs.ngram) && !x.histRes && full x.histPend.length) then .defer
  else if strict && (hist || count) then .defer
  else if count then .sketch
  else if hist then .noban
  else .resident

/-- LATE of a verdict (Table 15.7). -/
def lateOf : Verdict → Nat
  | .defer => 2
  | .sketch => 1
  | .noban => 1
  | _ => 0

/-- Verdicts of the rows of a punnet that have none yet (R248). -/
def State.judge (s : State) (num : Nat) : State :=
  match s.punnet num with
  | none => s
  | some p => p.rows.foldl (fun (s : State) r =>
      if r.verdict ≠ .unset then s
      else
        let v := s.verdictOf num r
        s.updRow num r.slot (fun r => { r with verdict := v, active := r.active && decide (v ≠ .defer) })) s

/-! ## The merge of partials (R148, R315) -/

/-- The children of this node in the tree. -/
def Orch.kidShards (o : Orch) : List Nat := (o.kids.filter (fun k => decide (k.1 = k.2.2))).map (fun k => k.1)

/-- The body that carries one class of a partial. -/
def partBody (mclass : Nat) (x : PartSum) : Body :=
  if mclass = 3 then .stat x.stat else if mclass = 4 then .cand x.cand else if mclass = 5 then .win x.win else if mclass = 6 then .topm x.topm
  else if mclass = 7 then .tgt x.tgt else .cand x.rset

/-- A partial of one class from a subtree, or from this instance itself, joins the row's merge. With the last one the merge goes up, or is
the root's. -/
def State.mergeIn (s : State) (num pass slot mclass sh : Nat) (x : PartSum) : State :=
  match s.prow num slot with
  | none => s
  | some r =>
    let mine := fun (m : MergeEnt) => decide (m.punnet = num ∧ m.pass = pass ∧ m.rslot = slot ∧ m.mclass = mclass)
    let heard := sh :: ((s.merges.find? mine).map (fun m => m.heard)).getD []
    let sum := match s.merges.find? mine with
      | some m => partMerge r r.key.cls m.sum x
      | none => x
    let rest := s.merges.filter (fun m => !mine m)
    if (s.orch.shard :: s.orch.kidShards).all (fun k => heard.contains k) then
      let s1 : State := { s with merges := rest }
      if s1.isRoot then s1.rootPart num slot pass mclass sum
      else s1.sendMsg { hdr := { s1.hdr s1.orch.parentSh false num slot pass r.key.handle with doubt := decide (mclass = 3) && sum.stat.doubt },
                        body := partBody mclass sum }
    else { s with merges := rest ++ [{ punnet := num, pass := pass, rslot := slot, mclass := mclass, heard := heard, sum := sum }] }

/-- A child has sent a class of a row's pass already. -/
def State.heardFrom (s : State) (num pass slot mclass sh : Nat) : Bool :=
  s.merges.any (fun m => decide (m.punnet = num ∧ m.pass = pass ∧ m.rslot = slot ∧ m.mclass = mclass) && m.heard.contains sh)

/-- A partial received at a node: from a child, once for each class (R315). -/
def State.onPart (s : State) (m : Msg) (mclass : State → Nat) (x : PartSum) : State :=
  let h := m.hdr
  if s.forMe h = false then s.passOn h m.body
  else s.rowMsg m (fun s =>
    let c := mclass s
    if s.orch.kidShards.contains h.src = false ∨ s.heardFrom h.punnet h.pass h.rslot c h.src = true then
      (s.contained 0x18 { Site.none with punnet := h.punnet, handle := some h.handle, rslot := h.rslot }).doubtAt h.punnet (some h.rslot) 0x18
    else
      let s1 := if h.doubt && decide (c ≠ 3) then s.doubtAt h.punnet (some h.rslot) 0x22 else s
      s1.mergeIn h.punnet h.pass h.rslot c h.src x)

/-- A CAND message is the row's candidate list, or, where that has come or the row has none, its retained set's records (DESIGN CHOICE, log 35). -/
def State.candClass (s : State) (h : Hdr) : Nat :=
  match s.prow h.punnet h.rslot with
  | none => 4
  | some r =>
    if r.key.cls = clVerify ∧ (depthOf r.prof r.key.cls = 0 ∨ s.heardFrom h.punnet h.pass h.rslot 4 h.src = true) then mcRset else 4

/-! ## Shard summaries -/

/-- A row's partial of a pass as this instance sends it: with its verdict and its doubt. -/
def PRow.partial_ (r : PRow) (i : Nat) : PartSum :=
  let x := if r.active && r.cause.isNone then Tab.get r.sums i PartSum0 else PartSum0
  { x with stat := { x.stat with late := lateOf r.verdict, doubt := r.cause.isSome, why := r.cause.getD 0 } }

/-- The summary of one row for one pass, STAT ahead of the rest. A row whose copy this instance lacks sends doubt alone. -/
def State.rowSummary (s : State) (p : Punnet) (i : Nat) (r : PRow) : State :=
  match s.copyOf p.num r.key with
  | none => s.mergeIn p.num i r.slot 3 s.orch.shard (r.partial_ i)
  | some c =>
    if (rowPasses p.passes r c.rd).contains i then
      (rowClasses r.prof r.key c.rd.draftn (isRefPass p.passes i c.rd) r.thresh).foldl (fun (s : State) k =>
        s.mergeIn p.num i r.slot k s.orch.shard (r.partial_ i)) s
    else s

/-- SHARD_SUMMARY (R148, R315): the rows of a pass in ascending slot. -/
def State.summary (s : State) (num i : Nat) : State :=
  match s.punnet num with
  | none => s
  | some p =>
    (sortBy (fun (a b : PRow) => decide (a.slot < b.slot)) p.rows).foldl (fun (s : State) r =>
      match s.prow num r.slot with
      | some r => if r.exited then s else s.rowSummary p i r
      | none => s) s

/-- Summaries of the passes whose last tile has closed, in order; a punnet without a pass has one, for its rows of LIN. -/
def State.summaries (num : Nat) : Nat → State → State
  | 0, s => s
  | k + 1, s =>
    match s.punnet num with
    | none => s
    | some p =>
      let closed := match p.passes[p.sent]? with
        | some x => x.tiles.isEmpty && p.drains.all (fun d => decide (d.pass ≠ p.sent))
        | none => true
      if p.sent < max 1 p.passes.length ∧ closed = true then
        State.summaries num k ((s.updPun num (fun p => { p with sent := p.sent + 1 })).summary num p.sent)
      else s

/-- A row's partial over some entries of a pass joined to what it has. An entry with doubt makes the row void (R69, R132). -/
def State.addPart (s : State) (num slot i : Nat) (ref : Bool) (es : List (Nat × F32 × F32)) : State :=
  match s.prow num slot, (s.prow num slot).bind (fun r => s.copyOf num r.key) with
  | some r, some c =>
    let x := s.partOf r c.rd (s.ctx r.key.handle.slot).seed ref es
    let s1 := s.updRow num slot (fun r => { r with sums := Tab.set r.sums i (match Tab.find? r.sums i with
      | some y => partMerge r r.key.cls y x
      | none => x) })
    if x.stat.doubt ∧ r.cause = none then (s1.contained 0x1C (Site.row num r.key slot)).doubtAt num (some slot) 0x1C else s1
  | _, _ => s

/-! ## PRELUDE_DONE (R87 to R90) -/

/-- Bytes of a row slot's entry in the normalised-vector region (R90). -/
def State.entrySize (s : State) : Nat := 2 * s.dMax + 192

/-- The key of a row slot's entry, in the normalised-vector region or the reference vector region. -/
def State.entryKey (s : State) (p : Punnet) (slot : Nat) (ref : Bool) : Option Nat :=
  (Tab.find? s.conf.regions (b2n ref)).map (fun r => addrKey r.base + (256 * p.idx + slot) * s.entrySize)

/-- A row's entry written (R90, R217). -/
def State.writeEntry (s : State) (p : Punnet) (slot : Nat) (ref : Bool) (v : PVec) : State :=
  match s.entryKey p slot ref with
  | none => s
  | some k =>
    let u := v.u ++ List.replicate (64 - v.u.length) 0
    ((s.store k (b16Bytes v.hn)).store (k + 2 * s.dMax) (b16Bytes u)).storeWords (k + 2 * s.dMax + 128)
      ([v.hnN, v.dnN, v.unN, v.duN] ++ List.replicate 12 0)

/-- A row becomes void for a cause that this instance detects. -/
def State.rowFault (s : State) (num : Nat) (r : PRow) (c : Nat) (inj : Bool) : State :=
  (s.contained c { Site.row num r.key r.slot with inj := inj }).doubtAt num (some r.slot) c

/-- The hidden vector of a row: inline, or behind HPTR. -/
def State.hiddenOf (s : State) (c : Row) : List BF16 :=
  if c.rd.hsrc = 1 then s.mem.bf16s (memKey c.rd.tier c.rd.hptr) (s.head c.rd.hset).d else c.hidden

/-- The read of a hidden vector behind HPTR meets an uncorrectable error. -/
def State.hiddenBad (s : State) (c : Row) : Bool := decide (c.rd.hsrc = 1) && s.mem.bad (memKey c.rd.tier c.rd.hptr) (2 * (s.head c.rd.hset).d)

/-- The vectors of a row for its passes; none where R89 voids it. -/
def State.rowVecs (s : State) (p : Punnet) (r : PRow) (c : Row) : Option (Tab PVec) :=
  (rowPasses p.passes r c.rd).foldl (fun (a : Option (Tab PVec)) i =>
    match a, p.passes[i]? with
    | some t, some ps =>
      (normalise (s.head ps.hset) (s.bankGain ps.hset ps.bank) (s.bankBias ps.hset ps.bank) (s.hiddenOf c)).map (fun hn => Tab.set t i (pvecOf hn))
    | _, _ => none) (some [])

/-- An armed target that passes a test of its parameter. -/
def State.hits (s : State) (t : Nat) (ok : Word → Bool) : Bool := match s.armed t with
  | some j => ok j.param
  | none => false

/-- An injection that the prelude of a row meets: its target and its cause (R407). -/
def State.preludeInj (s : State) (r : PRow) (c : Row) (slot : Nat) : Option (Nat × Nat) :=
  if s.hits 0x07 (fun v => decide (v = 3 ∧ r.key.cls = clVerify ∧ r.key.gidx < c.rd.draftn)) then some (0x07, 0x1E)
  else if (s.armed 0x05).isSome ∧ r.sides ≠ Sides.none then some (0x05, 0x22)
  else if s.hits 0x04 (fun v => decide (v.toNat = slot)) then some (0x04, 0x11)
  else if s.hits 0x07 (fun v => decide (v = 0 ∧ c.rd.hsrc = 1)) then some (0x07, 0x11)
  else none

/-- The pinned mask or grammar generation of a row that an injected error meets (R188, Table 19.6). -/
def State.pinHit (s : State) (r : PRow) : Option (Nat × Nat) :=
  (s.armed 0x06).bind (fun j => r.pins.find? (fun q => decide (q.1 % 256 = j.param.toNat ∧ q.1 < 512)))

/-- The prelude of one row. -/
def State.preludeRow (s : State) (p : Punnet) (ecc : List (Nat × Ecc)) (slot : Nat) : State :=
  match s.prow p.num slot, (s.prow p.num slot).bind (fun r => s.copyOf p.num r.key) with
  | some r, some c =>
    let e := ((ecc.find? (fun e => decide (e.1 = slot))).map (fun e => e.2)).getD .clean
    if r.active = false ∨ r.cause.isSome = true ∨ r.exited = true then s
    else match s.pinHit r with
    | some q => (s.fire 0x06).genGone q.1 q.2 true
    | none =>
      if 2 ≤ c.rd.hsrc then s
      else match s.preludeInj r c slot with
      | some j => (s.fire j.1).rowFault p.num r j.2 true
      | none =>
      if e = .uncorrectable ∨ s.hiddenBad c = true then s.rowFault p.num r 0x11 false
      else
        let s2 := if e = .corrected then s.corrected (if c.rd.hsrc = 1 then 0x02 else 0x01) else s
        match s2.rowVecs p r c with
        | none => s2.rowFault p.num r 0x1C false
        | some t =>
          t.foldl (fun (s : State) v => s.writeEntry p slot (isRefPass p.passes v.1 c.rd) v.2) (s2.updRow p.num slot (fun r => { r with vecs := t }))
  | _, _ => s

/-- The partial of a row of LIN: its logits for the instance's own tiles (R71, R127) (DEDUCED, log 85). -/
def State.linRow (s : State) (num slot : Nat) : State :=
  match (s.prow num slot).bind (fun r => s.copyOf num r.key) with
  | none => s
  | some c =>
    if c.rd.hsrc ≤ 1 then s
    else
      let es := ((s.ownTiles c.rd.hset).flatMap tileIds).zip c.logits
      s.addPart num slot 0 false ((es.filter (fun e => decide (e.1 < (s.head c.rd.hset).v))).map (fun e => (e.1, e.2, 0)))

/-- Every row of a punnet that still counts has its payload here. -/
def State.dataHere (s : State) (p : Punnet) : Bool :=
  p.rows.all (fun r => r.exited || r.cause.isSome || (match s.copyOf p.num r.key with
    | some c => c.gotData || decide (c.rd.hsrc = 1)
    | none => true))

/-- A punnet's turn for the prelude: those closed before it have started, and one of the two activation banks is free (R90): it is held until
the array has taken every tile of its punnet. -/
def State.turn (s : State) (num : Nat) : Bool :=
  ((s.puns.takeWhile (fun p => decide (p.num ≠ num))).filter (fun p => !p.rows.isEmpty)).all (fun p => p.started)
  && decide ((s.puns.filter (fun p => p.started && !p.passes.isEmpty && !s.tilesDone p)).length < 2)

/-- PRELUDE_DONE: the fetch deadline, the prelude of every row, the tiles of every pass; then the first bank pass begins. A row whose context is
late at the root has its DEFER at once (R22). -/
def State.preludeDone (s : State) (num : Nat) (ecc : List (Nat × Ecc)) : State :=
  match s.punnet num with
  | none => s
  | some p =>
    if p.started ∨ p.rows.isEmpty ∨ s.turn num = false ∨ s.dataHere p = false then s
    else
      let slots := p.rows.map (fun r => r.slot)
      let s1 := s.judge num
      let s2 := slots.foldl (fun (s : State) k => s.preludeRow p ecc k) s1
      let s3 := slots.foldl (fun (s : State) k => s.linRow num k) s2
      match s3.punnet num with
      | none => s3
      | some q =>
        let q1 : Punnet := { q with started := true, projStart := s.now, passes := q.passes.mapIdx (fun i x => { x with tiles := s3.tilesFor q i x }) }
        let s4 := s3.updPun num (fun _ => q1)
        let s5 : State := if s4.isRoot ∧ q.passes.isEmpty = false then
            { s4 with asm := { s4.asm with front := ((s.now - q.closed) :: s4.asm.front).take 64 } } else s4
        slots.foldl (fun (s : State) k => s.rootDefer num k) (State.summaries num (q.passes.length + 1) s5)

/-! ## Weights and the array (R93, R97, R98) -/

/-- The tile that the array takes next: of the first punnet whose tiles it has not taken, in the order of its passes. -/
def State.nextTile (s : State) : Option (Nat × Nat × TileRef) :=
  match s.puns.find? (fun p => !p.rows.isEmpty && !s.tilesDone p) with
  | none => none
  | some p =>
    if p.started = false then none
    else match (p.passes.zipIdx).find? (fun x => !x.1.tiles.isEmpty) with
      | some (x, i) => x.tiles.head?.map (fun t => (p.num, i, t))
      | none => (s.auxLeft p).head?.map (fun t => (p.num, t.1, t.2))

/-- A tile that a punnet still has to project. -/
def State.tileDue (s : State) (p : Punnet) (i : Nat) (t : TileRef) : Bool :=
  ((p.passes[i]?).map (fun x => x.tiles.contains t)).getD false || (s.auxLeft p).contains (i, t)

/-- The segments that a punnet still needs, in the order of R92; a tile that met an error is not fetched again (R98). -/
def State.punSegs (s : State) (p : Punnet) : List SegRef :=
  let tiles := (p.passes.zipIdx).flatMap (fun x => x.1.tiles.map (fun t => (x.2, t))) ++ s.auxLeft p
  (tiles.filter (fun x => !p.badTiles.contains x)).flatMap (fun x =>
    (List.range (s.tileSegs p x.1 x.2)).map (fun g => { punnet := p.num, pass := x.1, tile := x.2, seg := g }))

/-- A segment has been read by the array or stands in a tile buffer. -/
def State.segHere (s : State) (p : Punnet) (x : SegRef) : Bool :=
  p.loaded.contains (x.pass, x.tile, x.seg) || s.loader.read.contains x || s.loader.fill.contains x

/-- The segment that the loader fetches next (R97). -/
def State.nextSeg (s : State) : Option SegRef :=
  ((s.puns.filter (fun p => p.started && !p.rows.isEmpty)).flatMap (fun p => (s.punSegs p).filter (fun x => !s.segHere p x))).head?

/-- The variants of a pass that are written here, in ascending number. -/
def State.passVariants (s : State) (p : Punnet) (i : Nat) (ps : Pass) : List Variant :=
  (passVars ps (s.activeRows p i)).filterMap (fun v => (s.bank ps.hset ps.bank).variant v)

/-- What the loader reads of a segment. -/
def State.piecesOf (s : State) (x : SegRef) : List Piece :=
  match s.punnet x.punnet with
  | none => []
  | some p => match p.passes[x.pass]? with
    | none => []
    | some ps => s.segPieces ps.hset ps.bank (s.passVariants p x.pass ps) x.tile x.seg

/-- Bytes of a segment, and of one tile buffer. -/
def State.segBytes (s : State) (x : SegRef) : Nat := ((s.piecesOf x).map Piece.size).foldl (· + ·) 0
def bufferSize : Nat := 4 * 2 ^ 20

/-- The buffer that fills has room for a segment. -/
def State.bufferFits (s : State) (x : SegRef) : Bool :=
  decide ((s.loader.fill.map (fun y => s.segBytes y)).foldl (· + ·) 0 + s.segBytes x ≤ bufferSize)

/-- WEIGHT_SEGMENT_LOADED (R97, R98): the next segment of the stream goes into the buffer that fills. An uncorrectable error, a scale of 0xFF or
a code that no bank may hold voids every row active in the pass; the tile is not fetched again. -/
def State.segment (s : State) (num i : Nat) (t : TileRef) (seg : Nat) (ecc : Ecc) : State :=
  let x : SegRef := { punnet := num, pass := i, tile := t, seg := seg }
  match s.punnet num with
  | none => s
  | some p =>
    if s.nextSeg ≠ some x ∨ s.bufferFits x = false then s
    else
      let inj := if (s.armed 0x02).isSome then some 0x02 else if (s.armed 0x03).isSome then some 0x03 else none
      let s1 := match inj with
        | some k => s.fire k
        | none => s
      if inj.isSome ∨ ecc = .uncorrectable ∨ (s.piecesOf x).any (fun y => y.bad s.mem) = true then
        let rs := (s1.activeRows p i).map (fun r => r.1)
        let s2 := s1.updPun num (fun p => { p with badTiles := (i, t) :: p.badTiles })
        let s3 := s2.contained 0x10 { Site.none with punnet := num, inj := inj.isSome }
        rs.foldl (fun (s : State) r => s.doubtAt num (some r.slot) 0x10) s3
      else
        let s2 : State := { s1 with loader := { s1.loader with fill := s1.loader.fill ++ [x] } }
        if ecc = .corrected then s2.corrected 0x02 else s2

/-- Every segment of a tile has been read by the array. -/
def State.tileHere (s : State) (p : Punnet) (i : Nat) (t : TileRef) : Bool :=
  p.badTiles.contains (i, t) || (List.range (s.tileSegs p i t)).all (fun g => p.loaded.contains (i, t, g))

/-- Tiles whose finished logits hold an accumulator of every cell (R93). -/
def State.drainCount (s : State) : Nat := (s.puns.map (fun p => p.drains.length)).foldl (· + ·) 0

/-- A segment in a buffer belongs to a tile that is still to be projected. -/
def State.segDue (s : State) (x : SegRef) : Bool := match s.punnet x.punnet with
  | some p => p.started && s.tileDue p x.pass x.tile
  | none => false

/-- The array reads its buffer while an accumulator is free; the two buffers swap when it has read the last segment (R93, R97). -/
def State.feedArray : Nat → State → State
  | 0, s => s
  | k + 1, s =>
    match s.loader.read with
    | [] => if s.loader.fill.isEmpty then s else State.feedArray k { s with loader := { read := s.loader.fill, fill := [] } }
    | x :: r =>
      let s1 : State := { s with loader := { s.loader with read := r } }
      if s.segDue x = false then State.feedArray k s1
      else if s.nextTile = some (x.punnet, x.pass, x.tile) ∧ s.drainCount < 2 then
        State.feedArray k (s1.updPun x.punnet (fun p => { p with loaded := (x.pass, x.tile, x.seg) :: p.loaded }))
      else s

/-- The array reads what it can of its buffers. -/
def State.feed (s : State) : State := State.feedArray (s.loader.read.length + s.loader.fill.length + 2) s

/-- The variant of a row in a pass, where its part is written here; a reference pass has none (R217). -/
def State.rowVariant (s : State) (ps : Pass) (rd : Rdesc) : Option Variant :=
  if rd.variant = 127 ∨ ps.kind = .reference then none else (s.bank ps.hset ps.bank).variant rd.variant

/-- The logits of a tile for one active row (R67, R68, R101, R102): the absent lanes of a main tile and padding give none. -/
def State.tileLogits (s : State) (ps : Pass) (i : Nat) (t : TileRef) (r : PRow) (rd : Rdesc) : List (Nat × F32) :=
  let h := ps.hset
  let k := ps.bank
  let b := s.bank h k
  let v := Tab.get r.vecs i (pvecOf [])
  let aug := fun (id : Nat) => (s.rowVariant ps rd).map (fun x => (WFmt.fp4, s.varEntry h k x id))
  match t with
  | .main m => (tileIds m).filterMap (fun id =>
      if (s.head h).v ≤ id ∨ b.data.outl.contains id = true then none else some (id, logitOf (fmtOf b.fmt) (s.mainEntry h k id) (aug id) v))
  | .outl j => ((b.outlIds j).zipIdx).map (fun e => (e.1, logitOf .e4m3 (s.outlEntry h k (512 * j + e.2)) (aug e.1) v))
  | _ => []

/-- The variant vector of a row once its pre-tiles are projected (R99). -/
def State.setVariant (s : State) (p : Punnet) (i : Nat) (ps : Pass) (r : PRow) (rd : Rdesc) : State :=
  match s.rowVariant ps rd, Tab.find? r.vecs i with
  | some x, some v =>
    let v1 := withVariant (s.varRows ps.hset ps.bank x) v
    (s.updRow p.num r.slot (fun r => { r with vecs := Tab.set r.vecs i v1 })).writeEntry p r.slot false v1
  | _, _ => s

/-- The first tile of a pass leaves its list, and its segments the buffers. -/
def Punnet.dropTile (p : Punnet) (i : Nat) (t : TileRef) : Punnet :=
  { p with passes := p.passes.mapIdx (fun j x => if j = i then { x with tiles := x.tiles.drop 1 } else x),
           loaded := p.loaded.filter (fun e => decide ((e.1, e.2.1) ≠ (i, t))) }

/-- The tiles of the passes from one on are fixed when the pass before has none left: a pass whose rows have all become inactive is not run
(R91). -/
def State.openPass (num : Nat) : Nat → Nat → State → State
  | 0, _, s => s
  | k + 1, j, s =>
    match s.punnet num with
    | none => s
    | some p => match p.passes[j]? with
      | none => s
      | some ps =>
        let ts := s.tilesFor p j ps
        let s1 := s.updPun num (fun p => { p with passes := p.passes.mapIdx (fun i x => if i = j then { x with tiles := ts } else x) })
        if ts.isEmpty then State.openPass num k (j + 1) s1 else s1

/-- A tile of a pass is taken; with the last one the next pass opens. -/
def State.takeTile (s : State) (num i : Nat) (t : TileRef) : State :=
  let s1 := s.updPun num (fun p => p.dropTile i t)
  match (s1.punnet num).bind (fun p => p.passes[i]?) with
  | some ps => if ps.tiles.isEmpty then State.openPass num (((s1.punnet num).map (fun p => p.passes.length)).getD 0) (i + 1) s1 else s1
  | none => s1

/-- The end of a punnet's projection is noted (R262). -/
def State.endProjection (s : State) (num : Nat) : State :=
  match s.punnet num with
  | some p => if s.projected p then s.updPun num (fun p => { p with projStart := s.now }) else s
  | none => s

/-- Errors that the array meets in a row's activation blocks (R58, R110): an uncorrectable one, or a scale of 0xFF, voids the row, and its slot
is inactive. -/
def State.bankErrors (s : State) (num i : Nat) (ecc : List (Nat × Ecc)) : State :=
  match s.punnet num with
  | none => s
  | some p => (s.activeRows p i).foldl (fun (s : State) r =>
      let e := ((ecc.find? (fun e => decide (e.1 = r.1.slot))).map (fun e => e.2)).getD .clean
      if e = .uncorrectable ∨ ((Tab.get r.1.vecs i (pvecOf [])).a.scales).contains 255 = true then s.rowFault num r.1 0x11 false
      else if e = .corrected then s.corrected 0x01 else s) s

/-- TILE_PROJECTED: a pre-tile gives the variant vectors, a main or outlier tile's logits drain to selection, an auxiliary tile gives half
of z (R93, R99, R106). -/
def State.project (s : State) (num i : Nat) (t : TileRef) (ecc : List (Nat × Ecc)) : State :=
  match s.punnet num with
  | none => s
  | some p0 =>
    if s.nextTile ≠ some (num, i, t) ∨ 2 ≤ s.drainCount ∨ s.tileHere p0 i t = false then s
    else
      let s := s.bankErrors num i ecc
      match s.punnet num with
      | none => s
      | some p => match p.passes[i]?, t with
        | some ps, .pre _ =>
          let more := match (ps.tiles.drop 1).head? with
            | some (.pre _) => true
            | _ => false
          let s1 := if more then s else (s.activeRows p i).foldl (fun (s : State) r =>
            if r.2.variant = 127 then s else s.setVariant p i ps r.1 r.2) s
          State.summaries num (p.passes.length + 1) (s1.takeTile num i t)
        | some ps, .aux w j =>
          match s.auxOf ps.hset ps.bank w with
          | none => s
          | some h =>
            let zs := (s.auxRows p i w).map (fun r => (auxKey r.slot w, auxZ h (Tab.get r.vecs i (pvecOf [])) (512 * j) 512))
            (s.updPun num (fun p => { p with auxZ := zs.foldl (fun a e => Tab.upd a e.1 [] (· ++ e.2)) p.auxZ,
                                             loaded := p.loaded.filter (fun e => decide ((e.1, e.2.1) ≠ (i, t))) })).endProjection num
        | some ps, _ =>
          let ls := (s.activeRows p i).map (fun r => (r.1.slot, s.tileLogits ps i t r.1 r.2))
          (s.takeTile num i t).updPun num (fun p => { p with drains := p.drains ++ [{ pass := i, tile := t, logits := ls }] })
        | none, _ => s

/-! ## Selection (R116, R153) -/

/-- ε_v of an entry of a tile for a row (R116), from the norm lists that came with the tile. -/
def State.entryEps (s : State) (ps : Pass) (i : Nat) (t : TileRef) (id : Nat) (r : PRow) (rd : Rdesc) : F32 :=
  let h := ps.hset
  let k := ps.bank
  let w := match t with
    | .outl j => s.mem.norms (s.outlList h k j) (((s.bank h k).outlIds j).idxOf id)
    | _ => s.mem.norms (s.mainList h k (id / 512)) (id % 512)
  match s.rowVariant ps rd with
  | none => epsOf (s.head h).d w.1 w.2 0 0 (Tab.get r.vecs i (pvecOf []))
  | some x =>
    let y := s.mem.norms (s.varList h k x (id / 512)) (id % 512)
    epsOf ((s.head h).d + padRank x.rank) w.1 w.2 y.1 y.2 (Tab.get r.vecs i (pvecOf []))

/-- A norm list that selection reads for a tile and a row meets an uncorrectable error (R114, R124). -/
def State.listBad (s : State) (ps : Pass) (t : TileRef) (rd : Rdesc) : Bool :=
  let h := ps.hset
  let k := ps.bank
  match t with
  | .main m => s.mem.bad (s.mainList h k m) 2048 || (s.rowVariant ps rd).any (fun x => s.mem.bad (s.varList h k x m) 2048)
  | .outl j => s.mem.bad (s.outlList h k j) 2048
      || (s.rowVariant ps rd).any (fun x => ((s.bank h k).outlIds j).any (fun id => s.mem.bad (s.varList h k x (id / 512) + 4 * (id % 512)) 4))
  | _ => false

/-- The entries of a drained tile join one row's partial; an error in a norm list is a doubt (Table 5.4). -/
def State.closeRow (s : State) (p : Punnet) (i : Nat) (ps : Pass) (d : Drain) (r : PRow) (rd : Rdesc) : State :=
  if s.listBad ps d.tile rd then s.rowFault p.num r 0x12 false
  else s.addPart p.num r.slot i (isRefPass p.passes i rd) ((Tab.get d.logits r.slot []).map (fun e => (e.1, e.2, s.entryEps ps i d.tile e.1 r rd)))

/-- SELECTION_TILE_CLOSED: the tile's entries join the rows' partials; with the last tile of a pass the shard summary goes. Tiles drain in the
order in which they were projected. -/
def State.closeTile (s : State) (num i : Nat) (t : TileRef) : State :=
  match s.punnet num with
  | none => s
  | some p =>
    match p.drains.head?, p.passes[i]? with
    | some d, some ps =>
      if d.pass ≠ i ∨ d.tile ≠ t then s
      else
        let s1 := (s.activeRows p i).foldl (fun (s : State) r => s.closeRow p i ps d r.1 r.2) s
        (State.summaries num (p.passes.length + 1) (s1.updPun num (fun p => { p with drains := p.drains.drop 1 }))).endProjection num
    | _, _ => s

/-! ## The Rescore Unit (R122) -/

/-- A rescore request at its owner. -/
def State.onRsq (s : State) (h : Hdr) (b : RsqB) : State :=
  if s.forMe h = false then s.passOn h (.rsq b)
  else s.rowMsg { hdr := h, body := .rsq b } (fun s => s.queueRsq h b)

/-- Lanes of the Rescore Unit, and bytes of its buffer. -/
def rsLanes : Nat := 32
def rsBufSize : Nat := 2 * 2 ^ 20

/-- A row's place in the rescore buffer: h_n and the 64 elements of u. -/
def RsRow.size (x : RsRow) : Nat := 2 * x.hn.length + 128

/-- A request reads the entry of the reference vector region. -/
def State.rsqRef (s : State) (q : Rescore) : Bool := match s.punnet q.hdr.punnet with
  | some p => ((p.passes[q.hdr.pass]?).map (fun x => decide (x.kind = .reference))).getD false
  | none => false

/-- The buffered row of a request. -/
def State.rsRow (s : State) (q : Rescore) : Option RsRow :=
  s.rsbuf.find? (fun x => decide (x.punnet = q.hdr.punnet ∧ x.rslot = q.hdr.rslot ∧ x.ref = s.rsqRef q))

/-- The read of a row's entry into the rescore buffer (R90, R122). Without a region the vectors are those of the prelude. -/
def State.readRow (s : State) (q : Rescore) : Option RsRow :=
  match s.punnet q.hdr.punnet, s.prow q.hdr.punnet q.hdr.rslot with
  | some p, some r =>
    let ref := s.rsqRef q
    let v := Tab.get r.vecs q.hdr.pass (pvecOf [])
    match s.entryKey p r.slot ref with
    | some k =>
      let n := v.hn.length
      some { punnet := p.num, rslot := r.slot, ref := ref, hn := s.mem.bf16s k n, u := s.mem.bf16s (k + 2 * s.dMax) 64,
             bad := s.mem.bad k (2 * n) || s.mem.bad (k + 2 * s.dMax) 128 }
    | none => some { punnet := p.num, rslot := r.slot, ref := ref, hn := v.hn, u := v.u, bad := false }
  | _, _ => none

/-- How long a request still has to its cutoff, over the wrap of the tick: the order in which the lanes take requests (R122). -/
def State.rsqOrder (s : State) (q : Rescore) : Nat := (q.body.cutoff.toNat + 2 ^ 31 + (2 ^ 32 - s.now % 2 ^ 32)) % 2 ^ 32

/-- A waiting request that a lane could take: its row is buffered, or fits. -/
def State.rsqFits (s : State) (q : Rescore) : Bool :=
  !q.lane && ((s.rsRow q).isSome || (s.readRow q).any (fun x => decide ((s.rsbuf.map RsRow.size).foldl (· + ·) 0 + x.size ≤ rsBufSize)))

/-- A lane takes a request; on the first of its row the entry is read. -/
def State.startLane (s : State) (q : Rescore) : State :=
  let s1 : State := { s with rescore := changeFirst (fun x => decide (x = q)) (fun x => { x with lane := true }) s.rescore }
  if (s.rsRow q).isSome then s1 else { s1 with rsbuf := s1.rsbuf ++ (s.readRow q).toList }

/-- Free lanes take waiting requests, earliest cutoff first (R122). -/
def State.startLanes : Nat → State → State
  | 0, s => s
  | k + 1, s =>
    if rsLanes ≤ (s.rescore.filter (fun q => q.lane)).length then s
    else match (sortBy (fun (a b : Rescore) => decide (s.rsqOrder a < s.rsqOrder b)) (s.rescore.filter (fun q => s.rsqFits q))).head? with
      | none => s
      | some q => State.startLanes k (s.startLane q)

/-- The Rescore Unit goes on: a row whose loop has exited has left the buffer, with its requests (DEDUCED, log 90); free lanes take new ones. -/
def State.rescoreGo (s : State) : State :=
  let open_ := fun (n k : Nat) => ((s.prow n k).map (fun r => !r.exited)).getD false
  let s1 : State := { s with rescore := s.rescore.filter (fun q => open_ q.hdr.punnet q.hdr.rslot), rsbuf := s.rsbuf.filter (fun x => open_ x.punnet x.rslot) }
  State.startLanes s1.rescore.length s1

/-- A reply sent to the root (DESIGN CHOICE, log 91). -/
def State.sendRsp (s : State) (h : Hdr) (doubt : Bool) (b : RspB) : State :=
  let h1 : Hdr := { s.hdr s.orch.rootSh false h.punnet h.rslot h.pass h.handle with doubt := doubt }
  if s.isRoot then s.takeRsp h1 b else s.sendMsg { hdr := h1, body := .rsp b }

/-- The shadow logit of an entry for a buffered row, and whether a read of it fails (R70, R111). -/
def State.shadowOf (s : State) (p : Punnet) (i id : Nat) (y : RsRow) (rd : Rdesc) : F32 × Bool :=
  match p.passes[i]? with
  | some ps =>
    let h := ps.hset
    let b := ps.bank
    let d := (s.head h).d
    let k := s.shadowKey h b id
    let x := s.rowVariant ps rd
    let wb := (x.map (fun x => s.mem.bf16s (s.varShadow h b x id) x.rank)).getD []
    let z := shadowDot (s.mem.bf16s k d ++ wb) (y.hn ++ y.u.take wb.length) 0
    (z, s.mem.bad k (2 * d) || x.any (fun x => s.mem.bad (s.varShadow h b x id) (2 * x.rank)) || y.bad || !isFin z)
  | none => (f32Nan, true)

/-- RESCORE_DONE: the shadow logit, the score and the noise of an entry, sent to the root (R120, R122); a re-score that has ended is counted
where it ran (R125) (DEDUCED, log 90). -/
def State.rescored (s : State) (num slot pass id : Nat) (ecc : Ecc) : State :=
  match s.rescore.find? (fun q => q.lane && decide (q.hdr.punnet = num ∧ q.hdr.rslot = slot ∧ q.hdr.pass = pass ∧ q.body.id = id)), s.punnet num, s.prow num slot with
  | some q, some p, some r =>
    let s0 : State := ({ s with rescore := s.rescore.erase q }).bump offRescore
    match s.copyOf num r.key, s.rsRow q with
    | some c, some y =>
      let inj := match s.armed 0x07 with
        | some j => decide (j.param = 1)
        | none => false
      let s1 := if inj then s0.fire 0x07 else s0
      let held := match s.armed 0x0C with
        | some j => decide (q.body.cutoff.toNat ≤ (s.now + j.param.toNat) % 2 ^ 32)
        | none => false
      let s2 := if (s.armed 0x0C).isSome then s1.fire 0x0C else s1
      let s3 := if ecc = .corrected then s2.corrected 0x02 else s2
      let (z, bad) := s.shadowOf p pass id y c.rd
      let ref := isRefPass p.passes pass c.rd
      let x := if ref then some (softcap r.prof.softcap z) else (s.lane r false id z 0).map (fun o => o.rec_.x)
      let pu := if r.key.cls = clVerify ∧ r.key.gidx < c.rd.draftn then purResidual else drawPurpose r.key.cls
      let g := if q.body.tgt then none else noiseOf r.prof (s.ctx r.key.handle.slot).seed c.rd.pos pu id
      let fail := bad || inj || decide (ecc = .uncorrectable)
      let xp := x.getD f32NegInf
      let b : RspB := { id := id, zs := z, t := withNoise g xp, xpre := xp, g := g.getD 0 }
      let s4 := if fail then s3.contained 0x12 { Site.row num r.key slot with inj := inj } else s3
      if held then s4 else s4.sendRsp q.hdr (fail || !isFin xp) b
    | _, _ => s0
  | _, _, _ => s

/-- RSP at the root, or on its way. -/
def State.onRsp (s : State) (h : Hdr) (b : RspB) : State :=
  if s.forMe h = false then s.passOn h (.rsp b)
  else s.rowMsg { hdr := h, body := .rsp b } (fun s => if s.isRoot then s.takeRsp h b else s)

/-! ## Auxiliary heads (R106, R107) -/

/-- AUX_HEAD_DONE: the output goes to the row's home. -/
def State.auxDone (s : State) (num slot : Nat) (reward : Bool) : State :=
  match s.punnet num, s.prow num slot with
  | some p, some r =>
    let zs := Tab.get p.auxZ (auxKey slot reward) []
    match (List.range p.passes.length).find? (fun i => (s.auxRows p i reward).any (fun x => decide (x.slot = slot))) with
    | none => s
    | some i =>
      match (p.passes[i]?).bind (fun ps => s.auxOf ps.hset ps.bank reward) with
      | none => s
      | some h =>
        if zs.length < 1024 then s
        else
          let o := auxOut h zs
          let b : AuxB := { out := o, reward := reward, finite := isFin o }
          let hd := s.hdr (s.homeOf r.key.handle.slot) false num slot i r.key.handle
          if s.isHome r.key.handle.slot then s.onAux hd b else s.sendMsg { hdr := hd, body := .aux b }
  | _, _ => s

/-! ## Partials as they are received -/

def State.onStat (s : State) (h : Hdr) (b : StatB) : State := s.onPart { hdr := h, body := .stat b } (fun _ => 3) { PartSum0 with stat := b }
def State.onWin (s : State) (h : Hdr) (b : WinB) : State := s.onPart { hdr := h, body := .win b } (fun _ => 5) { PartSum0 with win := b }
def State.onTopm (s : State) (h : Hdr) (b : List (Nat × F32)) : State := s.onPart { hdr := h, body := .topm b } (fun _ => 6) { PartSum0 with topm := b }
def State.onTgt (s : State) (h : Hdr) (b : Option CandRec) : State := s.onPart { hdr := h, body := .tgt b } (fun _ => 7) { PartSum0 with tgt := b }

/-- CAND: candidates, or the records of a retained set. -/
def State.onCand (s : State) (h : Hdr) (b : List CandRec) : State :=
  s.onPart { hdr := h, body := .cand b } (fun s => s.candClass h)
    (if s.candClass h = 4 then { PartSum0 with cand := b } else { PartSum0 with rset := b })

end Sys2Proof.Machine
end

