-- ==== Sys2Proof/Machine/Assembler.lean ====
section
/-! DEFINITION. The assembler at the root: admit notices, the balance test, placeability, bound sets, the order and the fit of rows, the
service estimate, the closing of punnets and marker punnets (R18 to R20, R53 to R55, R153, R221, R226, R228, R231, R260 to R263, R269,
R289, R290). -/

namespace Sys2Proof.Machine

/-! ## Rows that are answered without being placed -/

/-- This instance's copy of a row that has not been placed. -/
def State.unplaced (s : State) (k : RowKey) : Option Row := s.rows.find? (fun r => decide (r.key = k ∧ r.punnet = none) && !r.decided)

/-- The root's order to answer a row that was not placed: its home writes the record, others drop their copy (DESIGN CHOICE, log 36). -/
def State.settleHere (s : State) (k : RowKey) (kind cause : Nat) : State :=
  match s.unplaced k with
  | none => s
  | some r =>
    let out := if kind = kHold then s.fallback r kHold else s.voidRow r cause
    if r.home then out.pump else { s with rows := s.rows.filter (fun x => decide (x.seq ≠ r.seq)) }

/-! ## The entries of a row at the root

Each instance's notices of one key pair with the rows of that key in order: a notice goes to the first entry that has none of its shard. -/

/-- The assembler's entry of a row that may still be placed. -/
def State.asmRow (s : State) (k : RowKey) : Option AsmRow := s.asm.rows.find? (fun a => decide (a.key = k) && !a.gone)

/-- An entry replaced where it stands, or added at the end. -/
def State.putAsm (s : State) (old new : AsmRow) : State :=
  { s with asm := { s.asm with rows := s.asm.rows.takeWhile (fun a => decide (a ≠ old)) ++ new :: (s.asm.rows.dropWhile (fun a => decide (a ≠ old))).drop 1 } }

/-- A row's entry removed. -/
def State.dropAsm (s : State) (k : RowKey) : State :=
  { s with asm := { s.asm with rows := s.asm.rows.eraseP (fun a => decide (a.key = k) && !a.gone) } }

/-- The order to answer a row, sent to one shard or taken here. -/
def State.tellSettle (s : State) (sh : Nat) (k : RowKey) (kind cause : Nat) : State :=
  if sh = s.orch.shard then s.settleHere k kind cause
  else s.sendMsg { hdr := s.hdr sh false 0 0 0 k.handle, body := .cmd (.settle k kind cause) }

/-- Copies of answered rows are dropped on the shards that have reported them, the oldest row of the key first; an entry leaves when every
instance not in SAFE has dropped its copy (R37, Table 2.11). -/
def State.sweep : Nat → State → RowKey → State
  | 0, s, _ => s
  | n + 1, s, k =>
    match s.asm.rows.find? (fun a => decide (a.key = k)) with
    | none => s
    | some a =>
      if a.gone = false then s
      else
        let due := ((a.notices.map (fun x => x.shard)).filter (fun sh => !a.told.contains sh)).dedup
        let told := a.told ++ due
        let s1 := due.foldl (fun (s : State) sh => s.tellSettle sh k kHold 0) s
        if s.liveShards.all (fun sh => told.contains sh || decide (sh = s.homeOf k.handle.slot)) then
          State.sweep n { s1 with asm := { s1.asm with rows := s1.asm.rows.erase a } } k
        else s1.putAsm a { a with told := told }

/-- A row whose record its home has written, or writes on the root's order: the other instances drop their copies. -/
def State.retireAsm (s : State) (k : RowKey) : State :=
  match s.asmRow k with
  | none => s
  | some a =>
    let s1 := s.putAsm a { a with gone := true, told := [s.homeOf k.handle.slot] }
    s1.sweep s1.asm.rows.length k

/-- The notices still missing for an answered row are not waited for: its copies did not come within the limits set for them. -/
def State.forget (s : State) (k : RowKey) : State :=
  { s with asm := { s.asm with rows := s.asm.rows.eraseP (fun a => decide (a.key = k) && a.gone) } }

/-- A row that the root answers without placing it: its home writes the record, the other instances drop their copies. -/
def State.settleUnplaced (s : State) (k : RowKey) (kind cause : Nat) : State :=
  match s.asmRow k with
  | none => s
  | some _ => (s.tellSettle (s.homeOf k.handle.slot) k kind cause).retireAsm k

/-! ## Admit notices (R53, R269) -/

/-- The home's admission tick of a row. -/
def State.homeAdm (s : State) (a : AsmRow) : Option Nat := (a.notices.find? (fun n => decide (n.shard = s.homeOf a.key.handle.slot))).map (fun n => n.tick)

/-- The assembler's rows of a row's verify group in GIDX order. -/
def State.asmGroup (s : State) (k : RowKey) : List AsmRow :=
  sortBy (fun (a b : AsmRow) => decide (a.key.gidx < b.key.gidx))
    (s.asm.rows.filter (fun a => decide (a.key.cls = clVerify ∧ a.key.handle = k.handle ∧ a.key.pos + k.gidx = k.pos + a.key.gidx) && !a.gone))

/-- Some notices of a row disagree on its DCRC. -/
def AsmRow.differs (a : AsmRow) : Bool := a.notices.any (fun x => a.notices.any (fun y => decide (x.dcrc ≠ y.dcrc)))

/-- A row whose copies differ is void (R53). -/
def State.checkCopies (s : State) (k : RowKey) : State :=
  match s.asmRow k with
  | some a => if a.homeTick.isSome ∧ a.differs = true then (s.contained 0x1B (Site.key k)).settleUnplaced k kVoid 0x1B else s
  | none => s

/-- The tenant of a request has a limit and no balance left. -/
def State.poorNow (s : State) (slot : Nat) : Bool :=
  let t := Tab.get s.tenants (s.ctx slot).tenant Tenant.reset
  t.limit && decide (t.bal ≤ 0)

/-- The balance test made at the home's notice of a row, whose result the rows of its verify group take: the last of them decides (R269). -/
def State.testBalance (s : State) (k : RowKey) : State :=
  let p := s.poorNow k.handle.slot
  { s with asm := { s.asm with rows := s.asm.rows.map (fun (a : AsmRow) =>
      if a.gone = false ∧ (a.key = k ∨ (k.cls = clVerify ∧ a.key.cls = clVerify ∧ a.key.handle = k.handle ∧ a.key.pos + k.gidx = k.pos + a.key.gidx))
        then { a with poor := p } else a) } }

/-- The result of the balance test on some rows: with no balance left each gets HOLD (R269). -/
def State.endBalance (s : State) (poor : Bool) (ks : List RowKey) : State :=
  match ks with
  | [] => s
  | k :: _ =>
    if poor then
      let n := (s.ctx k.handle.slot).tenant
      let t := Tab.get s.tenants n Tenant.reset
      ks.foldl (fun (s : State) k => s.settleUnplaced k kHold 0)
        { s with tenants := Tab.set s.tenants n { t with nhold := satAdd (2 ^ 32 - 1) t.nhold ks.length } }
    else { s with asm := { s.asm with rows := s.asm.rows.map (fun (a : AsmRow) => if ks.contains a.key ∧ a.gone = false then { a with passed := true } else a) } }

/-- A row whose home has reported it, and of a verify group the whole group, takes the result of its test (R269; DEDUCED, log 115). -/
def State.balance (s : State) (k : RowKey) : State :=
  match s.asmRow k with
  | none => s
  | some a =>
    if a.passed = true ∨ a.homeTick = none then s
    else if k.cls = clVerify then
      let g := s.asmGroup k
      let d := (g.filterMap (fun x => (s.unplaced x.key).map (fun r => r.rd.draftn))).head?
      if d = some (g.length - 1) ∧ g.all (fun x => x.homeTick.isSome) = true then s.endBalance a.poor (g.map (fun x => x.key)) else s
    else s.endBalance a.poor [k]

/-- A row that is in a punnet at the root. -/
def State.inFlight (s : State) (k : RowKey) : Bool :=
  s.roots.any (fun r => decide (r.key = k)) || ((s.asm.punOpen.map (fun o => o.rows.any (fun p => decide (p.key = k)))).getD false)

/-- An admit notice at the root. `dead`: the root's own copy shows that the home answers the row at once, or that it is the later of two rows
in flight under one key; its notices are discarded, unless the home reports the row after all (R37, Table 2.11; DEDUCED, log 136). -/
def State.takeNotice (s : State) (k : RowKey) (sh : Nat) (dcrc : Word) (tick : Nat) (dead : Bool) : State :=
  if s.isRoot = false then s
  else
    let a := (s.asm.rows.find? (fun a => decide (a.key = k) && !a.notices.any (fun n => decide (n.shard = sh)))).getD
      { key := k, notices := [], homeTick := none, passed := false, poor := false, gone := false, told := [] }
    let home := decide (sh = s.homeOf k.handle.slot)
    let a1 : AsmRow := { a with
      notices := a.notices ++ [{ shard := sh, dcrc := dcrc, tick := tick }],
      homeTick := if home && !dead then some s.now else a.homeTick,
      gone := dead || (a.gone && !home), told := if dead && home then sh :: a.told else a.told }
    let s1 := s.putAsm a a1
    if a1.gone then s1.sweep s1.asm.rows.length k
    else ((if home then s1.testBalance k else s1).checkCopies k).balance k

/-- The tick whose low 32 bits a message carries, at most 2^32 - 1 ticks ago. -/
def State.wideTick (s : State) (w : Word) : Nat := s.now - (BitVec.ofNat 32 s.now - w).toNat

/-- ADMIT at the root (R310). -/
def State.onAdmit (s : State) (h : Hdr) (b : AdmitB) : State :=
  if s.forMe h = false then s.passOn h (.admitMsg b)
  else if h.parity then s.contained 0x19 { Site.none with handle := some h.handle }
  else if hdrBroken h then s.contained 0x18 { Site.none with handle := some h.handle }
  else s.takeNotice { handle := h.handle, pos := b.pos, cls := b.cls, gidx := b.gidx } h.src b.dcrc (s.wideTick b.tick) false

/-- A row admitted here is reported to the root (R53). -/
def State.notify (s : State) (r : Row) (dead : Bool) : State :=
  if s.isRoot then s.takeNotice r.key s.orch.shard r.rd.dcrc r.admTick dead
  else
    let b : AdmitB := { pos := r.key.pos, cls := r.key.cls, gidx := r.key.gidx, subseq := r.rd.subseq, dcrc := r.rd.dcrc, tick := BitVec.ofNat 32 r.admTick }
    s.sendMsg { hdr := s.hdr s.orch.rootSh false 0 0 0 r.key.handle, body := .admitMsg b }

/-! ## Placeable rows -/

/-- A descriptor is faulty (R10): a reserved value, or the target of a SCORE row at or above its head set's vocabulary (R215). -/
def State.rdBad (s : State) (rd : Rdesc) : Bool := rd.bad || (decide (rd.cls = clScore) && decide ((s.head rd.hset).v ≤ rd.target))

/-- A row is placeable (R53, R269): notices from every instance not in SAFE that agree, the balance test passed, and a descriptor
without a reserved value. -/
def State.placeable (s : State) (a : AsmRow) : Bool :=
  a.homeTick.isSome && s.liveShards.all (fun sh => a.notices.any (fun n => decide (n.shard = sh))) && !a.differs && a.passed
  && ((s.unplaced a.key).map (fun r => !s.rdBad r.rd)).getD false && !s.inFlight a.key

/-- A row that may be placed: `due` its issue-by tick, `seen` the tick of the home's notice, `adm` the home's admission tick. `rep`: the
punnet and slot of a row that is placed again. -/
structure Cand where
  rd   : Rdesc
  key  : RowKey
  due  : Nat
  seen : Nat
  adm  : Nat
  rep  : Option (Nat × Nat)
deriving DecidableEq, Repr

/-- The order of R260. -/
def Cand.lt (a b : Cand) : Bool :=
  decide (a.due < b.due ∨ (a.due = b.due ∧ (a.seen < b.seen ∨ (a.seen = b.seen ∧ (a.key.handle.slot < b.key.handle.slot
    ∨ (a.key.handle.slot = b.key.handle.slot ∧ a.key.pos < b.key.pos))))))

/-- The placeable rows in order. -/
def State.cands (s : State) : List Cand :=
  sortBy Cand.lt (s.asm.rows.filterMap (fun a =>
    if a.gone = false ∧ s.placeable a = true then
      match s.unplaced a.key, s.homeAdm a with
      | some r, some t =>
        some { rd := r.rd, key := a.key, due := t + r.rd.deadline - s.cfg.egressres, seen := a.homeTick.getD 0, adm := t, rep := none }
      | _, _ => none
    else none))

/-- What binds a row to others (R55): its verify group, its tag, or nothing. -/
def Cand.setId (c : Cand) : Nat × Nat × Nat × Nat :=
  if c.key.cls = clVerify then (2, c.rd.tag, c.key.handle.slot + putBits c.key.handle.gen 16, c.key.pos - c.key.gidx)
  else if c.rd.tag ≠ 0 then (1, c.rd.tag, 0, 0)
  else (0, c.key.cls, c.key.handle.slot + putBits c.key.handle.gen 16, c.key.pos)

/-- A set that may be placed: a verify group must be whole and carry a tag. -/
def wholeSet (u : List Cand) : Bool :=
  u.all (fun c => decide (c.key.cls ≠ clVerify) || (decide (c.rd.tag ≠ 0 ∧ u.length = c.rd.draftn + 1)))

/-- Rows and bound sets that are placeable, in the order of R260. -/
def State.units (s : State) : List (List Cand) :=
  let cs := s.cands
  ((cs.map Cand.setId).dedup.map (fun i => cs.filter (fun c => decide (c.setId = i)))).filter wholeSet

/-- The units ordered by their first rows. -/
def orderUnits (us : List (List Cand)) : List (List Cand) :=
  sortBy (fun (a b : List Cand) => match a.head?, b.head? with
    | some x, some y => x.lt y
    | _, _ => false) us

/-- Rows that wait to be placed again, as units of their own. -/
def State.repeatUnits (s : State) : List (List Cand) :=
  s.asm.repeats.filterMap (fun e => (s.root e.1 e.2).map (fun r =>
    [{ rd := r.rd, key := r.key, due := r.due, seen := 0, adm := r.admTick, rep := some e }]))

/-! ## The service estimate (R108, R262) -/

/-- A row as the estimate sees it. -/
structure Load where
  rd    : Rdesc
  prof  : Profile
  epoch : Half
deriving DecidableEq, Repr

/-- The bank of an auxiliary head is loaded (Table 17.10). -/
def Bank.carries (b : Bank) (reward : Bool) : Bool := addrV (b.blk.aux.getD (if reward then 4 else 0) 0)

/-- Outlier entries of a bank on an instance, from its ready report. -/
def Bank.outlOn (b : Bank) (i : Nat) : Nat := ((b.reports.find? (fun r => decide (r.1 = i))).map (fun r => r.2.outl)).getD 0

/-- ACLK cycles in which the loader reads a number of bytes: 512 GB/s at 1.6 GHz, less the requantiser's share while a load converts, of which
it uses at most 256 GB/s (R108, R109, R285; DESIGN CHOICE, log 114). -/
def State.readCycles (s : State) (bytes : Nat) : Nat :=
  let loads := allSlots.any (fun x => decide ((s.bank x.1 x.2).st = .loading) || (s.bank x.1 x.2).vars.any (fun v => v.2.go && decide (v.2.reports.length < s.orch.n)))
  ceilDiv (160 * bytes) (51200 - (if loads then min 25600 (512 * s.cfg.rqshare) else 0))

/-- ACLK cycles of one bank pass on an instance (R95, R108, Table 4.3). -/
def State.passCycles (s : State) (i h k : Nat) (ranks : List Nat) : Nat :=
  let b := s.bank h k
  let d := (s.head h).d
  let wa := (ranks.map padRank).foldl (· + ·) 0
  let rows := ranks.foldl (· + ·) 0
  let pre := fun (n : Nat) => max (2 * d) (s.readCycles (n * (d + d / 32)))
  let main := if b.fmt ≤ 1 then max (max (d + wa) 1536) (s.readCycles (272 * (d + wa)))
    else max (max (d / 2 + wa) 1536) (s.readCycles (144 * d + 272 * wa))
  let outl := max (max (2 * (d + wa)) 1536) (s.readCycles (2048 + 528 * (d + wa)))
  rows / 512 * pre 512 + (if rows % 512 = 0 then 0 else pre (rows % 512)) + tileCnt (tilesOf (s.head h).v) s.orch.n i * main
    + ceilDiv (b.outlOn i) 512 * outl

/-- Cycles of the passes of one head set on an instance. -/
def State.headCycles (s : State) (i h : Nat) (ls : List Load) : Nat :=
  let rs := ls.filter (fun l => decide (l.rd.hset = h ∧ l.rd.hsrc ≤ 1))
  let es := ((rs.map (fun l => l.epoch)).filter (fun e => decide (e ≠ 0xFFFF))).dedup
  let own := es.foldl (fun a e => match s.projSlot h e true with
    | none => a
    | some k =>
      let b := s.bank h k
      let here := rs.filter (fun l => decide (l.epoch = e))
      let vs := ((here.map (fun l => l.rd.variant)).filter (fun v => decide (v ≠ 127))).dedup
      let ax := fun (reward : Bool) => decide (i = if reward then s.orch.n - 1 else 0) && b.carries reward
        && here.any (fun l => decide ((if reward then l.prof.rewardh else l.prof.valueh) = 1))
      a + s.passCycles i h k (vs.map (fun v => b.rank v)) + (b2n (ax false) + b2n (ax true)) * max (4 * (s.head h).d) (s.readCycles (1056 * (s.head h).d))) 0
  match s.slotIn h .reference with
  | some k => if rs.any (fun l => s.wantsRef l.rd l.prof) then own + s.passCycles i h k [] else own
  | none => own

/-- C of R262: the largest number of cycles on any instance (DESIGN CHOICE, log 125). -/
def State.cycles (s : State) (ls : List Load) : Nat :=
  (List.range s.orch.n).foldl (fun a i => max a (((List.range 4).map (fun h => s.headCycles i h ls)).foldl (· + ·) 0)) 0

/-- A time of R262: the largest of the last 64, 2,000 while there is none. -/
def worstOf (l : List Nat) : Nat := if l.isEmpty then 2000 else l.foldl max 0

/-- E of R262 (DESIGN CHOICE, log 114). -/
def State.estimate (s : State) (ls : List Load) : Nat := worstOf s.asm.front + ceilDiv (s.cycles ls) 16 + worstOf s.asm.back

/-! ## What a placement fixes -/

/-- A row's profile at a placement (R226, R229). -/
def State.placeProf (s : State) (k : RowKey) (ovl tseq : Nat) : Profile :=
  let n := (s.ctx k.handle.slot).prof
  (s.ctx k.handle.slot).rs.over (mergeProf (((s.prof n).recsOf (s.profGen n tseq)).getD []) ovl)

/-- The epoch that the next close fixes for a head set (R19, R289). -/
def State.closeEpoch (s : State) (h : Nat) : Half :=
  ((s.jobs.filterMap (fun j => match j.kind with
    | .switch g e .closing => if g = h then some e else none
    | _ => none)).head?).getD (s.activeEpoch h)

/-- The load of a row to be placed now. -/
def State.loadOf (s : State) (c : Cand) : Load :=
  match c.rep.bind (fun e => s.root e.1 e.2) with
  | some r => { rd := r.rd, prof := r.prof, epoch := ((s.prow r.punnet r.rslot).map (fun p => p.epoch)).getD 0xFFFF }
  | none =>
    { rd := c.rd, prof := s.placeProf c.key (c.rd.ovl ||| s.cfg.forceovl) s.conf.tseq,
      epoch := ((s.ctx c.key.handle.slot).pin c.rd.hset).getD (s.closeEpoch c.rd.hset) }

/-- The load of a placed row. -/
def State.loadPlaced (s : State) (p : Placed) : Load :=
  match (if p.rep then s.roots.find? (fun r => decide (r.key = p.key)) else none) with
  | some r => { rd := r.rd, prof := r.prof, epoch := ((s.prow r.punnet r.rslot).map (fun p => p.epoch)).getD 0xFFFF }
  | none =>
    match s.rows.find? (fun r => decide (r.key = p.key ∧ r.punnet = none)) with
    | some r => { rd := r.rd, prof := s.placeProf p.key p.ovl p.tseq,
                  epoch := ((s.ctx p.key.handle.slot).pin r.rd.hset).getD (s.closeEpoch r.rd.hset) }
    | none => { rd := rdescOf [], prof := Profile.dflt, epoch := 0xFFFF }

/-- Bytes of the candidate store that a row takes (R153, R202). -/
def State.storeOf (s : State) (c : Cand) (p : Profile) : Nat :=
  match c.rep.bind (fun e => s.root e.1 e.2) with
  | some r => 24 * ((r.again.map (fun a => a.2)).getD 0)
  | none =>
    let x := s.ctx c.key.handle.slot
    24 * (depthOf p c.key.cls
      + (if c.key.cls = clVerify ∧ c.key.gidx < c.rd.draftn then ((x.tent[c.key.gidx]?).map (fun t => t.ret.ents.length)).getD 0 else 0))

/-- Bytes of the candidate store. -/
def storeSize : Nat := 8 * 2 ^ 20

/-- A set of loads fits one punnet (R20). -/
def State.loadsFit (s : State) (ls : List Load) : Bool :=
  let wide := ls.any (fun l => decide (16384 < (s.head l.rd.hset).d))
  let vs := ((ls.filter (fun l => decide (l.rd.variant ≠ 127))).map (fun l => (l.rd.hset, l.rd.variant))).dedup
  decide (ls.length ≤ (if wide then 128 else 256) ∧ vs.length ≤ 16)

/-- The punnet under assembly is full. -/
def State.full (s : State) (o : OpenPun) : Bool :=
  decide ((if (o.rows.map (fun p => s.loadPlaced p)).any (fun l => decide (16384 < (s.head l.rd.hset).d)) then 128 else 256) ≤ o.rows.length)

/-- Bytes that a unit takes. -/
def State.unitStore (s : State) (u : List Cand) : Nat := (u.map (fun c => s.storeOf c (s.loadOf c).prof)).foldl (· + ·) 0

/-- A unit fits the punnet under assembly and the free store. -/
def State.fits (s : State) (o : OpenPun) (u : List Cand) : Bool :=
  s.loadsFit (o.rows.map (fun p => s.loadPlaced p) ++ u.map (fun c => s.loadOf c))
  && decide (s.asm.store + (o.rows.map (fun p => p.depth)).foldl (· + ·) 0 + s.unitStore u ≤ storeSize)

/-- A unit that no punnet can hold, or a verify group whose rows carry different overlays: void on every row (R55, R228), with cause 0x35
(DESIGN CHOICE for a bound set that is no verify group, log 146). -/
def State.hopeless (s : State) (u : List Cand) : Bool :=
  !s.loadsFit (u.map (fun c => s.loadOf c)) || decide (storeSize < s.unitStore u)
  || (u.any (fun c => decide (c.key.cls = clVerify ∧ c.rep = none)) && u.any (fun c => u.any (fun d => decide (c.rd.ovl ≠ d.rd.ovl))))

/-- Some placed row is short of its close margin under an estimate (R54, R262). -/
def State.short (s : State) (o : OpenPun) (e : Nat) : Bool := o.rows.any (fun p => decide (p.issueBy + p.reserve < s.now + e + p.margin))

/-- The estimate of the punnet under assembly with a unit added. -/
def State.estimateWith (s : State) (o : OpenPun) (u : List Cand) : Nat :=
  s.estimate (o.rows.map (fun p => s.loadPlaced p) ++ u.map (fun c => s.loadOf c))

/-! ## The choice of the next row (R261, R263) -/

/-- The next unit: rows placed again first, then R261's choice, then score rows; a score row that would leave a placed row short waits
(R221). -/
def State.nextUnit (s : State) (o : OpenPun) : Option (List Cand) :=
  let placed := fun (u : List Cand) => u.any (fun c => o.rows.any (fun p => decide (p.key = c.key)))
  match (s.repeatUnits.filter (fun u => !placed u)).head? with
  | some u => some u
  | none =>
    let us := orderUnits s.units
    let score := fun (u : List Cand) => u.all (fun c => decide (c.key.cls = clScore))
    let q := us.filter (fun u => !score u)
    match q.head? with
    | some x =>
      let gen := x.any (fun c => decide (c.key.cls ≠ clFirst ∧ c.key.cls ≠ clScore))
      let due := (x.head?.map (fun c => c.due)).getD 0
      let margin := (x.head?.map (fun c => (s.ctx c.key.handle.slot).rs.tbtmargin)).getD 0
      if gen = true ∧ s.now + s.estimateWith o x + margin < due then
        some ((q.find? (fun u => u.any (fun c => decide (c.key.cls = clFirst)))).getD x)
      else some x
    | none => (us.head?).bind (fun u => if s.short o (s.estimateWith o u) then none else some u)

/-! ## Placing and closing -/

/-- A unit placed in the punnet under assembly; each row takes the next slot (R54). -/
def State.placeUnit (s : State) (o : OpenPun) (u : List Cand) : State :=
  let o1 := u.foldl (fun (o : OpenPun) c =>
    let l := s.loadOf c
    let r := c.rep.bind (fun e => s.root e.1 e.2)
    let res := (r.map (fun r => r.reserve)).getD s.cfg.egressres
    let x := s.ctx c.key.handle.slot
    let p : Placed :=
      { key := c.key, slot := o.rows.length, ovl := c.rd.ovl ||| s.cfg.forceovl, rep := c.rep.isSome, tseq := s.conf.tseq, issueBy := c.due,
        reserve := res, margin := res + l.prof.certmargin, depth := s.storeOf c l.prof,
        pins := if c.rep.isSome then [] else (s.namedTables x c.key l.prof).map (fun k => (k, s.genAt k s.conf.tseq)),
        profPin := if c.rep.isSome then none else some (x.prof, s.profGen x.prof s.conf.tseq) }
    { o with rows := o.rows ++ [p] }) o
  { s with asm := { s.asm with punOpen := some o1 } }

/-- The CLOSE entry of a placed row. -/
def Placed.entry (p : Placed) : CloseRow :=
  { handle := p.key.handle, slot := p.slot, pos := p.key.pos, cls := p.key.cls, gidx := p.key.gidx, ovl := p.ovl, rep := p.rep, tseq := p.tseq }

/-- The root's row of a slot placed first. -/
def State.newRoot (s : State) (num : Nat) (adm : Nat) (p : Placed) : Option RootRow :=
  match s.prow num p.slot with
  | none => none
  | some r =>
    let rd := ((s.copyOf num p.key).map (fun c => c.rd)).getD (rdescOf [])
    let ps := ((s.punnet num).map (fun q => q.passes)).getD []
    let bad := decide (rd.cls = clScore) && decide ((s.head rd.hset).v ≤ rd.target)
    some { punnet := num, rslot := p.slot, key := p.key, rd := rd, prof := r.prof, admTick := adm, reserve := p.reserve,
           passes := rowPasses ps r rd, got := [], sums := [], stage := .combine, cause := if bad then Cause.join r.cause 0x1D else r.cause,
           late := 0, elig := none, trunc := false, fast := none, winner := none, uncert := false, anchorF := false, again := none,
           depth := p.depth, draw := 0, pendSum := false, rep := none }

/-- The root's row of a slot placed again: a second round moves it there, a repeat pass for sums alone stands beside it (R77, R150). -/
def State.oldRoot (s : State) (num : Nat) (p : Placed) (r : RootRow) : RootRow :=
  match s.prow num p.slot with
  | none => r
  | some q =>
    let passes := rowPasses (((s.punnet num).map (fun x => x.passes)).getD []) q r.rd
    if q.sumsOnly then { r with rep := some (num, p.slot, passes), got := [] }
    else { r with punnet := num, rslot := p.slot, passes := passes, got := [], depth := r.depth + p.depth }

/-- A SCORE row asks for a reference pass that it does not get (R216). -/
def State.refMissing (s : State) (r : RootRow) : Bool := decide (r.rd.cls = clScore ∧ r.prof.refpass = 1) && !s.wantsRef r.rd r.prof

/-- The switches that a close carries now wait for its acknowledgements (R289). -/
def State.startAcks (s : State) (num : Nat) : State :=
  { s with jobs := s.jobs.map (fun (j : Job) => match j.kind with
      | .switch h e .closing => { j with kind := .switch h e (.acks num []) }
      | _ => j) }

/-- The slots that leave their state at this boundary: the root tells every member before the CLOSE (Table 14.1, DESIGN CHOICE, log 110). -/
def State.tellVacates (s : State) : State :=
  (allSlots.filter (fun x => s.vacates x.1 x.2)).foldl (fun (s : State) x =>
    (s.setVacate x.1 x.2).bcastOthers { hdr := s.hdr 0 true 0 0 0 noHandle, body := .cmd (.ack (4 * x.1 + x.2) 8) }) s

/-- The close of a punnet with its rows, or of a marker punnet with none (R54, R289, R313). -/
def State.closeWith (s0 : State) (ps : List Placed) : State :=
  let s := s0.tellVacates
  let num := s.asm.next
  let b : CloseB := { phase := s.conf.phase, epochs := (List.range 4).map (fun h => s.closeEpoch h), rows := ps.map Placed.entry }
  let adm := fun (k : RowKey) => ((s.asmRow k).bind (fun a => s.homeAdm a)).getD 0
  let adms := ps.map (fun p => (p, adm p.key))
  let again := s.asm.repeats.filter (fun e => ps.any (fun p => p.rep && ((s.root e.1 e.2).map (fun r => decide (r.key = p.key))).getD false))
  let s1 : State := { s.startAcks num with asm := { s.asm with
    punOpen := none, rows := ((ps.filter (fun p => !p.rep)).foldl (fun (s : State) p => s.dropAsm p.key) s).asm.rows,
    repeats := s.asm.repeats.filter (fun e => !again.contains e), store := s.asm.store + (ps.map (fun p => p.depth)).foldl (· + ·) 0 } }
  let s2 := (s1.bcastOthers { hdr := s1.hdr 0 true num 0 0 noHandle, body := .close b }).applyClose num b
  let old := s2.roots.map (fun r => if again.contains (r.punnet, r.rslot) then
    ((ps.find? (fun p => p.rep && decide (p.key = r.key))).map (fun p => s2.oldRoot num p r)).getD r else r)
  let new := adms.filterMap (fun e => if e.1.rep then none else s2.newRoot num e.2 e.1)
  let s3 : State := { s2 with roots := old ++ new }
  s3.bumpN offRefMiss (new.filter (fun r => s3.refMissing r)).length

/-- The punnet under assembly is closed. A row placed again whose row has left the root meanwhile is not in it. -/
def State.closeOpen (s : State) (o : OpenPun) : State :=
  let ps := o.rows.filter (fun p => !p.rep || s.roots.any (fun r => decide (r.key = p.key)))
  if ps.isEmpty then { s with asm := { s.asm with punOpen := none } } else s.closeWith ps

/-- A change waits for a punnet boundary (R231, R289, R290, Table 14.1). -/
def State.boundaryDue (s : State) : Bool :=
  s.conf.pend.isSome || s.bankDue || s.jobs.any (fun j => match j.kind with
    | .switch _ _ .closing => true
    | _ => false)

/-- The boundary before a punnet opens: a waiting change comes into force, the members are told, and the command that asked for it ends (R231). -/
def State.openBoundary (s : State) : State :=
  match s.conf.pend with
  | none => s
  | some pk =>
    let s1 := s.takePend.tellFrom s.asm.next pk
    s1.endJobs (fun j => decide (j.kind = .phase)) (fun j => if j.opcode = 0x0201 then Cpl.done (w32 s1.asm.next) 0 else Cpl.done 0 0)

/-- A new punnet under assembly. -/
def State.openPunnet (s : State) : State :=
  let s1 := s.openBoundary
  { s1 with asm := { s1.asm with punOpen := some { opened := s1.now, gather := s1.cfg.gather, rows := [] } } }

/-- Rows or repeats wait to be placed. -/
def State.waiting (s : State) : Bool := !s.repeatUnits.isEmpty || !s.units.isEmpty

/-- The assembler's work at one tick (R54): it opens punnets, places rows and closes punnets until nothing more is due. -/
def State.assembleGo : Nat → State → State
  | 0, s => s
  | k + 1, s =>
    match s.asm.punOpen with
    | none =>
      if 16 ≤ s.puns.length then s
      else if s.waiting then State.assembleGo k s.openPunnet
      else if s.boundaryDue then State.assembleGo k (s.openBoundary.closeWith [])
      else s
    | some o =>
      if o.rows.isEmpty = false ∧ o.opened + o.gather < s.now then State.assembleGo k (s.closeOpen o)
      else match s.nextUnit o with
        | some u =>
          if s.hopeless u then State.assembleGo k (u.foldl (fun (s : State) c => s.settleUnplaced c.key kVoid 0x35) s)
          else if s.fits o u = true ∧ s.short o (s.estimateWith o u) = false then State.assembleGo k (s.placeUnit o u)
          else if o.rows.isEmpty then { s with asm := { s.asm with punOpen := none } }
          else State.assembleGo k (s.closeOpen o)
        | none =>
          if o.rows.isEmpty then { s with asm := { s.asm with punOpen := none } }
          else if s.full o = true ∨ o.opened + o.gather ≤ s.now ∨ s.short o (s.estimateWith o []) = true then State.assembleGo k (s.closeOpen o)
          else s

/-- The assembler runs at the root of a group that serves or is being set up. -/
def State.assemble (s : State) : State :=
  if s.isRoot = true ∧ s.live = true ∧ (s.blk = .ready ∨ s.blk = .run ∨ s.blk = .drain) then
    State.assembleGo (4 * (s.asm.rows.length + s.asm.repeats.length) + 24) s
  else s

/-! ## Copy skew and deadlines -/

/-- A copy of a row whose home left the group is discarded when the copy-skew limit runs out, and counted as an ingress reject (R385). -/
def State.dropStray (s : State) (k : RowKey) : State :=
  match s.unplaced k with
  | some r =>
    let lost := s.orch.members.any (fun m => decide (m.shard = s.homeOf k.handle.slot ∧ m.state = 5))
    if r.home = false ∧ lost = true ∧ r.admTick + s.cfg.copyskew ≤ s.now then
      (({ s with rows := s.rows.filter (fun x => decide (x.seq ≠ r.seq)) } : State).dropAsm k).bump offIngRej
    else s
  | none => s

/-- COPY_SKEW_EXPIRY at the root (R53, R55): a row that is not placeable within the limit after its home admission is void; so is a verify group that
is not complete within the limit after its first row's, such as one without one tag that is not 0 (R190). -/
def State.skewExpired (s : State) (k : RowKey) : State :=
  if s.isRoot = false then s
  else match s.asmRow k with
    | none => s
    | some a =>
      let past := fun (x : AsmRow) => ((s.homeAdm x).map (fun t => decide (t + s.cfg.copyskew ≤ s.now))).getD false
      if k.cls = clVerify then
        let g := s.asmGroup k
        let d := (g.filterMap (fun x => (s.unplaced x.key).map (fun r => r.rd.draftn))).head?
        let tags := g.filterMap (fun x => (s.unplaced x.key).map (fun r => r.rd.tag))
        let whole := decide (d = some (g.length - 1)) && g.all (fun x => s.placeable x || s.inFlight x.key)
          && tags.all (fun (t : Nat) => decide (t ≠ 0 ∧ tags.head? = some t))
        if g.any past = true ∧ whole = false then g.foldl (fun (s : State) x => (s.settleUnplaced x.key kVoid 0x35).forget x.key) s else s
      else if past a = true ∧ s.placeable a = false ∧ s.inFlight k = false then ((s.contained 0x1B (Site.key k)).settleUnplaced k kVoid 0x1B).forget k
      else s

/-- A row that waits at the assembler past its deadline leaves it (R23); the home has written its record. -/
def State.asmDeadline (s : State) (k : RowKey) : State :=
  match s.asmRow k, s.unplaced k with
  | some a, some r =>
    if ((s.homeAdm a).getD r.admTick) + r.rd.deadline - s.cfg.egressres ≤ s.now ∧ s.inFlight k = false then (s.retireAsm k).forget k else s
  | some _, none => if s.inFlight k then s else s.dropAsm k
  | none, _ => s

/-! ## CLOSE at a member (R313, R315) -/

/-- CLOSE at a member: the next punnet in order. -/
def State.onClose (s : State) (h : Hdr) (b : CloseB) : State :=
  let s1 := s.passOn h (.close b)
  if h.parity then s1.contained 0x19 { Site.none with punnet := h.punnet }
  else if hdrBroken h ∨ h.punnet ≠ s.asm.next ∨ s.isRoot = true then s1.contained 0x18 { Site.none with punnet := h.punnet }
  else s1.applyClose h.punnet b

end Sys2Proof.Machine
end

