-- ==== Sys2Proof/Machine/Ingress.lean ====
section
/-! DEFINITION. The stream ports and TEG: descriptors, payloads, credits, acknowledgements and failed rings (R10, R18, R22, R24, R37,
R38, R50 to R52, R269, R271, R272, R398, R400, Table 1.4, Table 2.11). -/

namespace Sys2Proof.Machine

/-! ## Credits (R18, R50) -/

/-- Ingress grants credits: it has been started, or the instance is in SAFE, and fewer than 16 punnets are in flight. -/
def State.granting (s : State) : Bool :=
  s.live && (decide (s.blk = .safe) || (s.ing.grants && decide (s.puns.length < 16)))

/-- Beats are buffered and taken at once, so every credit not held by the sender goes back while ingress grants. -/
def State.grantCredits (s : State) : State :=
  if s.granting = false then s
  else
    let h := 64 - s.ing.hinCr
    let l := 64 - s.ing.linCr
    let s1 := if h = 0 then s else s.drive (.credit .hin h)
    let s2 := if l = 0 then s1 else s1.drive (.credit .lin l)
    { s2 with ing := { s2.ing with hinCr := 64, linCr := 64 } }

/-- The sender's credits on a port. -/
def Ingress.credits (g : Ingress) : StreamPort → Nat
  | .hin => g.hinCr
  | .lin => g.linCr

/-- Credits spent. -/
def Ingress.spend (g : Ingress) (p : StreamPort) (n : Nat) : Ingress := match p with
  | .hin => { g with hinCr := g.hinCr - n }
  | .lin => { g with linCr := g.linCr - n }

/-- The beats of a payload spend a credit each; past those held they spend credits that were returned while it came (R50). -/
def State.spendBeats (s : State) (p : StreamPort) (n : Nat) : State :=
  let more := n - s.ing.credits p
  let s1 := if more = 0 then s else s.drive (.credit p more)
  { s1 with ing := s1.ing.spend p n }

/-- The message in arrival on a port. -/
def Ingress.msg (g : Ingress) : StreamPort → Option InMsg
  | .hin => g.hinMsg
  | .lin => g.linMsg

def Ingress.setMsg (g : Ingress) (p : StreamPort) (m : Option InMsg) : Ingress := match p with
  | .hin => { g with hinMsg := m }
  | .lin => { g with linMsg := m }

/-! ## Descriptors -/

/-- Payload beats of a row (R51). -/
def State.payBeats (s : State) (rd : Rdesc) : Nat :=
  if rd.hsrc = 0 then (s.head rd.hset).d / 32
  else if rd.hsrc = 1 then 0
  else (s.ownTiles rd.hset).length * (if rd.hsrc = 2 then 16 else 32)

/-- A row's port: LIN for HSRC 2 and 3 (R51). -/
def Rdesc.port (rd : Rdesc) : StreamPort := if 2 ≤ rd.hsrc then .lin else .hin

/-- A rejected descriptor (R37); a handle that was closed, while its generation is the slot's last, raises no interrupt (R272). -/
def State.ingReject (s : State) (crcOk : Bool) (h : Handle) : State :=
  let s1 := s.bump offIngRej
  let e := s.slot h.slot
  if crcOk = true ∧ h.gen = e.gen ∧ e.rstate = 0 ∧ e.opened = true then s1 else s1.setCause cIngRej

/-- A row's handle is open (R37, R236). -/
def State.admits (s : State) (h : Handle) : Bool := decide ((s.slot h.slot).gen = h.gen) && decide ((s.slot h.slot).rstate = 1 ∨ (s.slot h.slot).rstate = 2)

/-- The position rule of R38. -/
def posOk (x : Scx) (rd : Rdesc) : Bool :=
  if rd.cls = clDecode ∨ rd.cls = clFirst then decide (rd.pos = x.clen)
  else if rd.cls = clVerify then decide (rd.pos = x.clen + rd.gidx)
  else true

/-- The cause that the home finds at admission, lowest code first (Table 2.11, R38) (DEDUCED, log 129). -/
def State.admitCause (s : State) (rd : Rdesc) (wrong : Bool) : Cause :=
  let dup := s.rows.any (fun r => decide (r.key = rd.key))
  firstBad [(s.isLost rd.handle.slot, 0x13), (s.rdBad rd, 0x1D), (decide (rd.deadline = 0 ∨ rd.deadline < s.cfg.egressres), 0x33),
    (wrong || !posOk (s.ctx rd.handle.slot) rd || dup, 0x34)]

/-- A request's further rows get HOLD: it is in HOLD, or cancelled (R24, R271). -/
def State.holds (s : State) (n : Nat) : Bool := decide ((s.slot n).rstate = 2) || (s.ctx n).canc

/-- The record that the home owes a row at once: VOID for a doubt, else HOLD for a request that holds or is cancelled, else VOID for another
cause (Table 1.5, R24, R271). A root that is the home discards the row's notices (R37). -/
def State.settleAdmit (s : State) (r : Row) : State :=
  let told := fun (s : State) => if s.isRoot then s.notify r true else s
  match r.cause with
  | some c =>
    if causeClass c = 1 then told ((s.contained c (Site.key r.key)).voidRow r c)
    else if s.holds r.key.handle.slot then told (s.fallback r kHold)
    else told (s.voidRow r c)
  | none => if s.holds r.key.handle.slot then told (s.fallback r kHold) else s.notify r false

/-- A row of the descriptor, admitted now. -/
def State.newRow (s : State) (rd : Rdesc) (cause : Cause) : Row :=
  { seq := s.ing.seq + 1, rd := rd, key := rd.key, admTick := s.now, home := s.isHome rd.handle.slot, hidden := [], logits := [],
    gotData := decide (s.payBeats rd = 0), cause := cause, punnet := none, reserve := s.cfg.egressres, decided := false, charged := false,
    auxv := none, auxr := none }

/-- The rows of a verify group at the root when one more of its rows is admitted that is a second of its GIDX, or that finds the request in
HOLD: all get VOID, or HOLD those not placed (Table 2.11, Table 9.3). -/
def State.groupAnswer (s : State) (k : RowKey) (dup held : Bool) : State :=
  if s.isRoot = false ∨ k.cls ≠ clVerify ∨ (dup || held) = false then s
  else
    let s1 := (s.asmGroup k).foldl (fun (s : State) a =>
      if s.inFlight a.key = false then s.settleUnplaced a.key (if dup then kVoid else kHold) (if dup then 0x34 else 0)
      else if dup then { s with rows := s.rows.map (fun (x : Row) => if x.key = a.key ∧ x.decided = false then { x with cause := Cause.join x.cause 0x34 } else x) }
      else s) s
    match s1.roots.find? (fun x => decide (x.key.cls = clVerify ∧ x.key.handle = k.handle ∧ x.key.pos + k.gidx = k.pos + x.key.gidx)) with
    | none => s1
    | some r => if dup then s1.failRow r kVoid 0x34 else s1

/-- A descriptor that passes its checks is admitted (R37). On another instance it is kept and reported as any row. -/
def State.admitRow (s : State) (rd : Rdesc) (wrong : Bool) : State :=
  let home := s.isHome rd.handle.slot
  let dup := s.rows.any (fun r => decide (r.key = rd.key))
  let held := decide ((s.slot rd.handle.slot).rstate = 2)
  let r := s.newRow rd (if home then s.admitCause rd wrong else if wrong then some 0x34 else none)
  let s0 : State := { s with ing := { s.ing with seq := r.seq }, rows := s.rows ++ [r] }
  let s1 := if home then (s0.touch rd.handle.slot).startFetch rd.handle.slot .head else s0
  if home then ((s1.settleAdmit r).groupAnswer r.key dup held).pump
  else (s1.notify r (dup || s.holds rd.handle.slot || (s.admitCause rd false).any (fun c => decide (c ≠ 0x34)))).groupAnswer r.key dup held

/-- A descriptor in SAFE: the egress table answers for rows homed here, others are discarded (R400). -/
def State.safeRow (s : State) (rd : Rdesc) : State :=
  if s.isHome rd.handle.slot = false then s
  else
    let r := s.newRow rd (some 0x37)
    (({ s with ing := { s.ing with seq := r.seq }, rows := s.rows ++ [r] }).voidSafe r 0x37).pump

/-- The message that a FIRST beat cuts short had the wrong length (R51). -/
def State.cutShort (s : State) (seq : Nat) : State :=
  match s.rows.find? (fun r => decide (r.seq = seq) && !r.decided) with
  | none => s
  | some r =>
    if s.blk = .safe then s
    else if r.home then ((s.voidRow r 0x34).retireAsm r.key).pump
    else { s with rows := s.rows.map (fun (x : Row) => if x.seq = seq then { x with cause := Cause.join x.cause 0x34 } else x) }

/-- RDESC_ACCEPT: a descriptor beat on a stream port (DEDUCED, log 105) (DEDUCED, log 120). -/
def State.rdescBeat (s : State) (p : StreamPort) (beat : List Word) (last : Bool) : State :=
  if s.ing.credits p = 0 then s
  else
    let s0 := match s.ing.msg p with
      | some m => if m.seq = 0 then s else s.cutShort m.seq
      | none => s
    let rd := rdescOf beat
    let ok := dcrcOk beat
    let beats := s.payBeats rd
    let s1 : State := { s0 with ing := (s0.ing.spend p 1).setMsg p none }
    let wrong := decide (rd.port ≠ p) || (last && decide (beats ≠ 0)) || (!last && decide (beats = 0))
    let flush := fun (s : State) (seq : Nat) => if last then s else { s with ing := s.ing.setMsg p (some { seq := seq, beats := beats }) }
    if ok = false ∨ s1.admits rd.handle = false then flush (s1.ingReject ok rd.handle) 0
    else if s1.blk = .safe then flush (s1.safeRow rd) 0
    else
      let s2 := s1.admitRow rd wrong
      flush s2 (if wrong then 0 else s2.ing.seq)

/-! ## Payloads (R51) -/

/-- A LIN logit that puts doubt on its row: NaN or +∞; −∞ masks its entry (Table 3.11). -/
def linBad (x : F32) : Bool := !isFin x && decide (x ≠ f32NegInf)

/-- Inputs of a row that put doubt on it, the padding past the vocabulary aside (R85, Table 3.11, R89). -/
def State.inputBad (s : State) (rd : Rdesc) (l : List F32) : Bool :=
  if 2 ≤ rd.hsrc then
    (((s.ownTiles rd.hset).flatMap tileIds).zip l).any (fun e => decide (e.1 < (s.head rd.hset).v) && linBad e.2)
  else l.any (fun x => !isFin x)

/-- BF16 elements of a payload. -/
def asB16 (l : List Word) : List BF16 := l.map (fun w => BitVec.ofNat 16 w.toNat)

/-- The row's data as it arrived. -/
def Row.withData (r : Row) (elems : List Word) : Row :=
  if r.rd.hsrc = 0 then { r with hidden := asB16 elems, gotData := true }
  else { r with logits := if r.rd.hsrc = 2 then (asB16 elems).map ofB16 else elems, gotData := true }

/-- A row named by a cause while it is admitted or placed here; a row of the home that is not placed yet is void at once only for its
port or length. -/
def State.rowCause (s : State) (seq c : Nat) (inj : Bool) : State :=
  match s.rows.find? (fun r => decide (r.seq = seq) && !r.decided) with
  | none => s
  | some r =>
    let s1 := s.contained c { Site.row (r.punnet.getD 0xFFFF) r.key 0xFF with inj := inj }
    match r.punnet with
    | some n => match (s1.punnet n).bind (fun p => p.rows.find? (fun q => decide (q.key = r.key))) with
      | some q => s1.doubtAt n (some q.slot) c
      | none => s1
    | none => { s1 with rows := s1.rows.map (fun (x : Row) => if x.seq = seq then { x with cause := Cause.join x.cause c } else x) }

/-- PAYLOAD_END: the payload of the message in arrival, its count of beats and its elements. While no credits are granted it cannot end on more
beats than the credits held (R18, R50). -/
def State.payload (s : State) (p : StreamPort) (beats : Nat) (elems : List Word) (ecc : Ecc) : State :=
  match s.ing.msg p with
  | none => s
  | some m =>
    if s.granting = false ∧ s.ing.credits p < beats then s
    else
    let s0 := s.spendBeats p beats
    let s1 : State := { s0 with ing := s0.ing.setMsg p none }
    if m.seq = 0 ∨ s1.blk = .safe then s1
    else if beats ≠ m.beats then s1.cutShort m.seq
    else
      match s1.rows.find? (fun r => decide (r.seq = m.seq)) with
      | none => s1
      | some r =>
        let s2 : State := { s1 with rows := s1.rows.map (fun (x : Row) => if x.seq = m.seq then x.withData elems else x) }
        if ecc = .uncorrectable then s2.rowCause m.seq 0x11 false
        else
          let s3 := if ecc = .corrected then s2.corrected 0x01 else s2
          let vals := if r.rd.hsrc = 3 then elems else (asB16 elems).map ofB16
          if s3.inputBad r.rd vals then s3.rowCause m.seq 0x1C false else s3

/-! ## Failed rings (R398) -/

/-- Requests that name a ring. -/
def State.ringUsers (s : State) (ring : Nat) : List Nat :=
  (s.scx.filter (fun (c : Nat × Scx) => decide ((s.slot c.1).rstate ≠ 0) && decide (c.2.tring = ring ∨ c.2.kvring = ring))).map (fun c => c.1)

/-- A settled record that has not been issued is taken back: its charge returns and, for a draft, its entry holds none any more (R268). -/
def State.takeBack (s : State) (r : Row) : State :=
  if r.charged = false then s
  else
    let n := r.key.handle.slot
    let x := s.ctx n
    let j := r.key.pos - x.clen
    let s1 := if r.key.cls = clDraft then s.setCtx n { x with tent := x.tent.mapIdx (fun i t => if i = j then { t with chg := false } else t) } else s
    s1.giveBack n 1

/-- A homed row of a request whose ring failed gets VOID, whatever was settled for it. -/
def State.ringVoid (s : State) (r : Row) : State :=
  let s1 := (if r.decided then s.takeBack r else s).dropCommits (fun c => decide (c.key = r.key))
  let s2 : State := { s1 with
    rows := s1.rows.map (fun (x : Row) => if x.seq = r.seq then { x with decided := false, charged := false } else x),
    eg := { s1.eg with queue := s1.eg.queue.filter (fun e => decide (e.key ≠ some r.key)) } }
  s2.voidRow { r with cause := Cause.join r.cause 0x21 } 0x21

/-- A consumer ring fails. The side records of its requests that were not begun are dropped with their rows; a request whose REQ.OPEN waits
for its prompt HRECs opens in HOLD (R370). -/
def State.ringFail (s : State) (ring : Nat) (inj : Bool) : State :=
  let users := s.ringUsers ring
  let s1 := ((s.setCring ring { s.cring ring with failed := true }).contained 0x21 { Site.none with unit := ring, inj := inj }).setCause cFault
  let waiting := fun (r : Row) => r.home && users.contains r.key.handle.slot
      && (!r.decided || s1.eg.queue.any (fun e => decide (e.key = some r.key ∧ e.done = 0)))
  let rows := s1.rows.filter waiting
  let s2 : State := { s1 with eg := { s1.eg with queue := s1.eg.queue.filter (fun e =>
    !(decide (e.done = 0 ∧ e.key = none ∧ e.prompt = none) && rows.any (fun r => decide (r.key.handle = e.handle)))) } }
  let s3 := rows.foldl (fun (s : State) r => s.ringVoid r) s2
  let opening := fun (j : Job) => match j.kind with
    | .openNotify n => decide ((s.ctx n).kvring = ring)
    | _ => false
  let held := (s3.jobs.filter opening).foldl (fun (s : State) j => match j.kind with
    | .openNotify n => s.enterHold n
    | _ => s) s3
  (held.endJobs opening (fun j => match j.kind with
    | .openNotify n => { status := stFault, res0 := w32 (handleNat { slot := n, gen := (held.ctx n).gen }), res1 := 0, detail := 0x06 }
    | _ => Cpl.of stFault 0x06)).pump

/-! ## TEG -/

/-- A prompt HREC that the ring does not take while its REQ.OPEN waits is counted undelivered (R370, R398). -/
def State.openLost (s : State) (w : TegWrite) : State :=
  let mine := fun (j : Job) => match j.kind with
    | .openNotify n => decide ((s.ctx n).kvring = w.ring ∧ bitsAt (w.words.getD 0 0) 0 24 = handleNat { slot := n, gen := (s.ctx n).gen })
    | _ => false
  if w.notify = false ∧ s.jobs.any mine = true then s.undelivered else s

/-- TEG_ACK: an error response is answered by one reissue, a second one fails the ring (R52, R398). -/
def State.teg (s : State) (tag : Nat) (err : Bool) : State :=
  match s.eg.outst.find? (fun w => decide (w.tag = tag)) with
  | none => s
  | some w =>
    let inj : Bool := match s.armed 0x0D with
      | some j => decide (j.param.toNat = w.ring)
      | none => false
    let s1 := if inj then s.fire 0x0D else s
    if err = false ∧ inj = false then (s1.tegOk w).pump
    else if w.retry = false then s1.tegRetry w
    else
      let c := s1.cring w.ring
      let s2 : State := { s1.setCring w.ring { c with unacked := if w.notify then c.unacked else c.unacked - 1 } with
        eg := { s1.eg with outst := s1.eg.outst.erase w } }
      if c.failed then s2.pump else (s2.openLost w).ringFail w.ring inj

/-- Fabric credits returned (R52). -/
def State.fabricCredit (s : State) (n : Nat) : State := (({ s with eg := { s.eg with fabric := s.eg.fabric + n } }).pump).notifyAll

/-- Ring credits returned, which count units (R52). -/
def State.ringCredit (s : State) (ring n : Nat) : State :=
  let c := s.cring ring
  ((s.setCring ring { c with credits := c.credits + n }).pump).notifyAll

end Sys2Proof.Machine
end

