-- ==== Sys2Proof/Machine/Cfg.lean ====
section
/-! DEFINITION. The CFG commands (R47, R90, R223, R230, R231, R280, R363, Table 17.6, Table 17.7). -/

namespace Sys2Proof.Machine

/-! ## Configuration sets and phases (R230, R231) -/

/-- Values within Table 11.2. -/
def CfgVals.ok (v : CfgVals) : Bool := decide (8 ≤ v.egressres ∧ v.rqshare ≤ 100)

/-- A job that lasts until the change is in force. -/
def State.phaseJob (s : State) (o : Origin) (pk : Pkt) : State :=
  s.addJob { origin := o, opcode := pk.opcode, kind := .phase, lock := some objPhase }

/-- CFG.SET. A set in force changes at the next punnet boundary, any other at once; every field of the base set counts as present. -/
def cfgSetD : Desc :=
  { opcode := 0x0200, legal := rdyRunDrn, scope := fun _ => .group, accepts := false,
    bad := fun pk _ => firstBad [(!pk.clean [0xF, 0x1F, 0xFFFF, 0xFFF, 0xFF, 0x7F, 0x7FFF], 0), (decide (8 < pk.fld 0 0 4), 0), (!(setVals pk).ok, 0)],
    pre := fun _ pk s =>
      let n := pk.fld 0 0 4
      if (n = 0 ∨ n = s.conf.phase) ∧ s.conf.pend.isSome = true then some (Cpl.of stBusyRetry 0) else none,
    lock := noLock,
    run := fun o pk s =>
      let n := pk.fld 0 0 4
      if n = 0 ∨ n = s.conf.phase then ({ s with conf := { s.conf with pend := some pk } }).phaseJob o pk
      else ((s.putSet n (setOf pk)).tellFrom s.asm.next pk).finish o (Cpl.done 0 0) }

/-- CFG.PHASE. A member logs the swap when the root's copy comes; the phase itself comes with the CLOSE (R231, R313). -/
def cfgPhaseD : Desc :=
  { opcode := 0x0201, legal := rdyRunDrn, scope := fun _ => .group, accepts := false,
    bad := fun pk _ => firstBad [(!pk.clean [0xF], 0), (decide (8 < pk.fld 0 0 4), 0)],
    pre := fun _ _ s => if s.conf.pend.isSome then some (Cpl.of stBusyRetry 0) else none,
    lock := noLock,
    run := fun o pk s => match o with
      | .member => s.logSwap swapPhase (pk.fld 0 0 4)
      | _ => ({ s with conf := { s.conf with pend := some pk } }).phaseJob o pk }

/-! ## Regions (Table 17.7) -/

/-- The size that a vector region needs for a largest hidden dimension (R90). -/
def vecSize (dmax : Nat) : Nat := 16 * 256 * (2 * dmax + 192)

/-- The least size of a region in bytes. -/
def State.leastSize (s : State) (code reserve : Nat) : Nat :=
  match code with
  | 0 => vecSize s.dMax
  | 1 => vecSize s.dMax
  | 2 => 4 * 2 ^ 20
  | 3 => 2 * 2 ^ 20
  | 4 => 2 * reserve * 4096
  | 5 => 4096
  | _ => 256 * 1024

/-- The tier that a region's address may name: T1 but for the T2 pool and the advice table (DETAIL 0x04 of Table 17.4 names no T1
address where T2 is meant). -/
def regionAddr (code : Nat) (w : W64) : Bool := addrOk (decide (code ≠ 5 ∧ code ≠ 6)) w

/-- CFG.REGION. Naming the profile region sets every object to generation 0 with its defaults (R223); naming the directory takes its tables from it
after a cold reset (R401). -/
def cfgRegionD : Desc :=
  { opcode := 0x0202, legal := rdyRunDrn, scope := fun _ => .local_, accepts := false,
    bad := fun pk _ =>
      let c := pk.fld 0 0 3
      firstBad [(!pk.clean [0x7, all32, all32, all32, if c = 4 then 0xFFFF else 0], 0), (decide (c = 7), 0), (!regionAddr c (pk.p64 1), 0x04)],
    pre := fun _ pk s =>
      let c := pk.fld 0 0 3
      if c ≠ 6 ∧ s.blk ≠ .ready then some (Cpl.of stWrongState 0)
      else if (pk.p 3).toNat * 4096 < s.leastSize c (pk.fld 4 0 16) then some (Cpl.of stBadParam 0x05) else none,
    lock := noLock,
    run := fun o pk s =>
      let c := pk.fld 0 0 3
      let s1 : State := { s with conf := { s.conf with
        regions := Tab.set s.conf.regions c { base := pk.p64 1, len := (pk.p 3).toNat * 4096 },
        reserve := if c = 4 then pk.fld 4 0 16 else s.conf.reserve } }
      let s2 := match c with
        | 2 => s1.nameProfs
        | 3 => s1.nameDir
        | _ => s1
      s2.finish o (Cpl.done 0 0) }

/-! ## Consumer rings (R47, R49) -/

/-- An open request names a ring. -/
def State.ringNamed (s : State) (r : Nat) : Bool :=
  s.scx.any (fun (c : Nat × Scx) => decide ((s.slot c.1).rstate = 1 ∨ (s.slot c.1).rstate = 2) && decide (c.2.tring = r ∨ c.2.kvring = r))

/-- A base aligned to the ring's size. -/
def ringAligned (w : W64) (log2u : Nat) : Bool := decide (w.toNat / 64 * 64 % (32 * 2 ^ log2u) = 0)

/-- CFG.RING. EN sets PI to 0 and the credits to the ring's size, and clears a failed flag once no request names the ring (R398). -/
def cfgRingD : Desc :=
  { opcode := 0x0203, legal := rdyRunDrn, scope := fun _ => .local_, accepts := false,
    bad := fun pk _ => firstBad [(!pk.clean [0x3FF, all32, all32, all32, all32], 0), (decide (pk.fld 0 4 5 < 6 ∨ 16 < pk.fld 0 4 5), 0),
      (!addrOk false (pk.p64 1) || !addrOk false (pk.p64 3) || !ringAligned (pk.p64 1) (pk.fld 0 4 5), 0x04)],
    pre := fun _ pk s => if s.ringNamed (pk.fld 0 0 4) then some (Cpl.of stWrongState 0) else none,
    lock := noLock,
    run := fun o pk s =>
      let r := pk.fld 0 0 4
      let c := s.cring r
      let en := bitAt (pk.p 0) 9
      let n := pk.fld 0 4 5
      let c1 : CRing := { c with log2u := n, en := en, base := pk.p64 1, notify := pk.p64 3 }
      let c2 : CRing := if en then { c1 with pi := 0, notified := 0, credits := 2 ^ n, failed := c.failed && !(s.ringUsers r).isEmpty } else c1
      (s.setCring r c2).finish o (Cpl.done 0 0) }

/-! ## Head sets and slots -/

/-- D_max with one head set's dimension replaced. -/
def State.dMaxWith (s : State) (h d : Nat) : Nat := (List.range 4).foldl (fun a i => max a (if i = h then d else (s.head i).d)) 0

/-- CFG.HEADSET (Table 4.1, R90) (DESIGN CHOICE, log 121). The COUNT parts of open requests follow the new ranges (R235). -/
def cfgHeadsetD : Desc :=
  { opcode := 0x0204, legal := rdyRunDrn, scope := fun _ => .group, accepts := false,
    bad := fun pk _ =>
      let d := pk.fld 2 0 16
      firstBad [(!pk.clean [0xF, 0x3FFFFF, 0xFFFF, all32], 0), (decide (pk.fld 0 2 2 = 3), 0),
        (decide (pk.fld 1 0 22 = 0 ∨ 2 ^ 21 < pk.fld 1 0 22 ∨ d % 128 ≠ 0 ∨ d < 128 ∨ 32768 < d), 0),
        (!(isFin (pk.p 3) && fle 0 (pk.p 3)), 0)],
    pre := fun _ pk s =>
      let h := pk.fld 0 0 2
      let m := s.dMaxWith h (pk.fld 2 0 16)
      let small := fun (c : Nat) => match Tab.find? s.conf.regions c with
        | some r => decide (r.len < vecSize m)
        | none => decide (c = 0)
      if (List.range 4).any (fun k => decide ((s.bank h k).st ≠ .empty)) then some (Cpl.of stWrongState 0)
      else if s.blk ≠ .ready ∧ s.dMax < m then some (Cpl.of stWrongState 0)
      else if small 0 || small 1 then some (Cpl.of stBadParam 0x05) else none,
    lock := fun pk _ => some (objHead (pk.fld 0 0 2)),
    run := fun o pk s =>
      let v : HeadSet := { norm := pk.fld 0 2 2, eps := pk.p 3, v := pk.fld 1 0 22, d := pk.fld 2 0 16 }
      let s1 : State := { s with conf := { s.conf with heads := Tab.set s.conf.heads (pk.fld 0 0 2) v } }
      ((s1.tellMembers o pk).repartition s).finish o (Cpl.done 0 0) }

/-- CFG.SLOT (R280). -/
def cfgSlotD : Desc :=
  { opcode := 0x0205, legal := rdyRunDrn, scope := fun _ => .local_, accepts := false,
    bad := fun pk _ => firstBad [(!pk.clean [0x3F, all32, all32, all32], 0), (decide (pk.fld 0 4 2 = 3), 0), (!addrOk true (pk.p64 1), 0x04)],
    pre := fun _ pk s => if (s.bank (pk.fld 0 0 2) (pk.fld 0 2 2)).st = .empty then none else some (Cpl.of stWrongState 0),
    lock := noLock,
    run := fun o pk s =>
      let h := pk.fld 0 0 2
      let k := pk.fld 0 2 2
      let b := s.bank h k
      let r : Region := { base := pk.p64 1, len := (pk.p 3).toNat * 4096 }
      let b1 : Bank := match pk.fld 0 4 2 with
        | 0 => { b with code := some r }
        | 1 => { b with side := some r }
        | _ => { b with shadow := some r }
      (s.setBank h k b1).finish o (Cpl.done 0 0) }

end Sys2Proof.Machine
end

