-- ==== Sys2Proof/Machine/Requant.lean ====
section
/-! DEFINITION. The requantiser: an instance's part of a bank or a variant, formed from its BF16 sources (R62, R65, R96, R99, R114, R165,
R166, R284 to R287, R293). -/

namespace Sys2Proof.Machine

/-! ## Blocks -/

/-- The requantiser at work: the lanes, the number of the next block, the lanes replaced so far, and what a spare is seeded with when its
lane's state cannot be taken over (the effective base seed and the POS of lane 0). -/
structure Conv where
  lanes : List Lane
  next  : Nat
  hits  : List Nat
  base  : W64
  pos   : Nat
deriving DecidableEq, Repr

/-- A block is done by a lane: the next number, and a lane that its health check found sick is replaced (R167). -/
def Conv.advance (c : Conv) (g : Nat) (l : Lane) : Conv :=
  if l.sick then { c with lanes := setAt c.lanes g (l.replaced c.base (c.pos + g)), next := c.next + 1, hits := c.hits ++ [g] }
  else { c with lanes := setAt c.lanes g l, next := c.next + 1 }

/-- One weight block converted: block j goes to lane j mod 64 in SR mode; a padding block is zero and is numbered alone (R165, R285). -/
def Conv.block (c : Conv) (f : WFmt) (sr : Bool) (ws : Option (List BF16)) : WBlock × Conv :=
  match ws with
  | none => (WBlock.zero, { c with next := c.next + 1 })
  | some l =>
    let xs := l.map b16Val
    if sr then
      let g := c.next % 64
      let r := quantBlockSr f xs (c.lanes.getD g Lane.zero)
      ({ codes := r.1.2, scale := r.1.1 }, c.advance g r.2)
    else
      let r := quantBlock f xs
      ({ codes := r.2, scale := r.1 }, { c with next := c.next + 1 })

/-- A run of blocks, in order (DEDUCED, log 75). -/
def Conv.run (f : WFmt) (sr : Bool) : List (Option (List BF16)) → Conv → List WBlock × Conv
  | [], c => ([], c)
  | x :: r, c =>
    let (b, c1) := c.block f sr x
    let (bs, c2) := Conv.run f sr r c1
    (b :: bs, c2)

/-- The blocks of one row of weights. -/
def rowBlocks (ws : List BF16) : List (Option (List BF16)) := (blocksOf 32 ws).map some

/-- Rows of weights converted one after the other. -/
def Conv.rows (f : WFmt) (sr : Bool) : List (List BF16) → Conv → List (List WBlock) × Conv
  | [], c => ([], c)
  | x :: r, c =>
    let (b, c1) := Conv.run f sr (rowBlocks x) c
    let (bs, c2) := Conv.rows f sr r c1
    (b :: bs, c2)

/-- Exact values of a block (R66). -/
def WBlock.values (f : WFmt) (b : WBlock) : List Dy := b.codes.map (fun c => { m := f.units c, e := (b.scale : Int) - 127 + f.exp })

/-- An entry with its norms (R114): the codes' own, and their distance from the source. -/
def entryOf (f : WFmt) (ws : List BF16) (bs : List WBlock) : WEntry :=
  let q := bs.flatMap (fun b => b.values f)
  let xs := ws.map b16Val ++ List.replicate (q.length - ws.length) Dy.zero
  { blocks := bs, wn := toF16 .rup (normUp q), rn := toF16 .rup (normUp ((xs.zip q).map (fun p => Dy.sub p.1 p.2))) }

/-- The main lane of an outlier entry: zero codes and scales, norm word 0 (R285). -/
def WEntry.cleared (e : WEntry) : WEntry :=
  { blocks := e.blocks.map (fun b => { codes := b.codes.map (fun _ => 0), scale := 0 }), wn := 0, rn := 0 }

/-! ## Tiles -/

/-- The entries of a tile of 512 lanes: block by block and lane by lane (R285); entries beyond V are padding. -/
def convTile (f : WFmt) (sr : Bool) (v d t : Nat) (src : Nat → List BF16) (c : Conv) : Tab WEntry × Conv :=
  let nb := d / 32
  let ws := (tileIds t).map (fun id => if id < v then some (src id) else none)
  let order := (List.range nb).flatMap (fun b => ws.map (fun w => w.map (fun l => (l.drop (32 * b)).take 32)))
  let (bs, c1) := Conv.run f sr order c
  let es := (ws.zipIdx).map (fun w =>
    let mine := (List.range nb).map (fun b => bs.getD (512 * b + w.2) { codes := [], scale := 0 })
    (512 * t + w.2, entryOf f (w.1.getD []) mine))
  (es, c1)

/-- Main tiles in ascending order. -/
def convTiles (f : WFmt) (sr : Bool) (v d : Nat) (src : Nat → List BF16) : List Nat → Conv → Tab WEntry × Conv
  | [], c => ([], c)
  | t :: r, c =>
    let (es, c1) := convTile f sr v d t src c
    let (fs, c2) := convTiles f sr v d src r c1
    (es ++ fs, c2)

/-- RN exceeds OUTTHR times WN, on exact values (R286, mode 2). -/
def overThr (thr : F16) (e : WEntry) : Bool :=
  if f16Bad e.rn then !f16Bad e.wn
  else if f16Bad e.wn then false
  else Dy.lt (Dy.mul (encVal fmt16 thr.toNat) (encVal fmt16 e.wn.toNat)) (encVal fmt16 e.rn.toNat)

/-- Outlier entries converted to E4M3 in ascending id. -/
def convOutl (sr : Bool) (src : Nat → List BF16) : List Nat → Conv → Tab WEntry × Conv
  | [], c => ([], c)
  | id :: r, c =>
    let (bs, c1) := Conv.run .e4m3 sr (rowBlocks (src id)) c
    let (es, c2) := convOutl sr src r c1
    ((id, entryOf .e4m3 (src id) bs) :: es, c2)

/-! ## Sources -/

/-- BF16 vectors of a source: row r of d. -/
def Memory.rowAt (m : Memory) (a : W64) (d r : Nat) : List BF16 := m.bf16s (addrKey a + 2 * d * r) d

/-- The ids of the outlier list. -/
def LoadBlk.listIds (b : LoadBlk) (m : Memory) : List Nat := (m.words (addrKey b.outlist) b.outcnt).map (fun w => bitsAt w 0 21)

/-- The outlier list holds a word with a reserved bit (R8). -/
def LoadBlk.listBad (b : LoadBlk) (m : Memory) : Bool := (m.words (addrKey b.outlist) b.outcnt).any (fun w => decide (2 ^ 21 ≤ w.toNat))

/-- An auxiliary head that the block names, converted: W1, then w2 (R284, R285). -/
def convAux (m : Memory) (b : LoadBlk) (d i : Nat) (sr : Bool) (c : Conv) : AuxHead × Conv :=
  let a := fun (k : Nat) => b.aux.getD (4 * i + k) 0
  let (w1, c1) := Conv.rows .e4m3 sr ((List.range 1024).map (fun r => m.rowAt (a 0) d r)) c
  let (w2, c2) := Conv.run .e4m3 sr (rowBlocks (m.rowAt (a 2) 1024 0)) c1
  ({ w1 := w1, b1 := m.words (addrKey (a 1)) 1024, gelu := b.gelu.testBit i, w2 := w2, b2 := m.word (addrKey (a 3)) }, c2)

/-- The block names an auxiliary head (0 value, 1 reward). -/
def LoadBlk.hasAux (b : LoadBlk) (i : Nat) : Bool := addrV (b.aux.getD (4 * i) 0)

/-- An auxiliary head of a load runs here: the use is ACTIVE, the block names it and this instance runs it (R107, R292). -/
def State.auxHere (s : State) (use : Nat) (x : LoadBlk) (i : Nat) : Bool := decide (use = 0) && x.hasAux i && s.runsAux (decide (i = 1))

/-- The sources that this instance reads for a bank: key and length of each. -/
def State.loadReads (s : State) (h k : Nat) : List (Nat × Nat) :=
  let b := s.bank h k
  let x := b.blk
  let d := (s.head h).d
  let ts := s.ownTiles h
  let lo := 512 * ts.headD 0
  let n := min (512 * ts.length) ((s.head h).v - lo)
  let one := fun (a : W64) (len : Nat) => if addrV a then [(addrKey a, len)] else []
  [(addrKey x.main + 2 * d * lo, 2 * d * n)] ++ one x.gain (2 * d) ++ one x.bias (2 * d)
  ++ (if x.outmode = 1 then one x.outlist (4 * x.outcnt) else [])
  ++ [0, 1].flatMap (fun i => if s.auxHere b.use x i then
      [(addrKey (x.aux.getD (4 * i) 0), 2048 * d), (addrKey (x.aux.getD (4 * i + 1) 0), 4096), (addrKey (x.aux.getD (4 * i + 2) 0), 2048),
       (addrKey (x.aux.getD (4 * i + 3) 0), 4)] else [])

/-! ## An instance's part of a bank -/

/-- A conversion begins at a block number. SRSEED, when not 0, reseeds the lanes; the requantiser works on one load at a time, so a load
that converts is never reseeded (R166, Table 7.5; DESIGN CHOICE, log 75). -/
def State.convStart (s : State) (srseed : W64) (next : Nat) : Conv :=
  { lanes := if srseed = 0 then s.lanes else lanesSeed srseed (64 * s.orch.shard), next := next, hits := [], base := s.baseSeed,
    pos := 64 * s.orch.shard }

/-- What a conversion leaves of the lanes: their states, and each lane replaced counted and repaired with a spare (R166, R167). -/
def State.convEnd (s : State) (c : Conv) : State :=
  c.hits.foldl (fun (s : State) g => (s.corrected 0x05).repair { kind := 6, sram := 0, index := g }) { s with lanes := c.lanes }

/-- The ids of this instance's range of a head set. -/
def State.ownIds (s : State) (h : Nat) : List Nat := ((s.ownTiles h).flatMap tileIds).filter (fun id => decide (id < (s.head h).v))

/-- The part of a bank that this instance forms, and the lanes afterwards; or the DETAIL of Table 17.11. -/
def State.convBank (s : State) (h k : Nat) (c0 : Conv) : Except Nat (BankParts × Conv) :=
  let b := s.bank h k
  let x := b.blk
  let m := s.mem
  let d := (s.head h).d
  let v := (s.head h).v
  let sr := decide (x.round = 1)
  let f := fmtOf b.fmt
  let src := fun (id : Nat) => m.rowAt x.main d id
  let ts := s.ownTiles h
  let ids := s.ownIds h
  let auxOn := s.auxHere b.use x
  let auxBad := fun (i : Nat) => auxOn i && ((List.range 1024).any (fun r => (m.rowAt (x.aux.getD (4 * i) 0) d r).any b16Bad)
    || (m.rowAt (x.aux.getD (4 * i + 2) 0) 1024 0).any b16Bad)
  if (s.loadReads h k).any (fun r => m.bad r.1 r.2) then .error 0x11
  else if ids.any (fun id => (src id).any b16Bad) || auxBad 0 || auxBad 1 then .error 0x10
  else
    let (main, c1) := convTiles f sr v d src ts c0
    let outs := match x.outmode with
      | 1 => (x.listIds m).filter (fun id => ids.contains id)
      | 2 => ids.filter (fun id => ((Tab.find? main id).map (fun e => overThr x.outthr e)).getD false)
      | _ => []
    if 4096 < outs.length then .error 0x12
    else
      let (outl, c2) := convOutl sr src outs c1
      let main1 := Tab.mapVals main (fun id e => if outs.contains id then e.cleared else e)
      let (va, c3) := if auxOn 0 then (fun (r : AuxHead × Conv) => (some r.1, r.2)) (convAux m x d 0 sr c2) else (none, c2)
      let (re, c4) := if auxOn 1 then (fun (r : AuxHead × Conv) => (some r.1, r.2)) (convAux m x d 1 sr c3) else (none, c3)
      let vec := fun (a : W64) => if addrV a then some (m.rowAt a d 0) else none
      .ok ({ main := main1, outl := outl, gain := vec x.gain, bias := vec x.bias, value := va, reward := re }, c4)

/-- CRC-32C over the codes and scales of a part as they stand in memory: main tiles, outlier tiles, auxiliary heads (R288, DESIGN CHOICE,
log 38). -/
def State.bankCrc (s : State) (h k : Nat) : Word :=
  let b := s.bank h k
  let d := (s.head h).d
  let aux := fun (r : Bool) => if b.hasAux r then s.mem.bytes (s.auxPart h k r 0) (1056 * d + 1056) else []
  crc32c ((s.ownTiles h).flatMap (fun t => s.mem.bytes (s.mainKey h k t) (tileSize b.fmt d))
    ++ (List.range (ceilDiv b.data.outl.length 512)).flatMap (fun j => s.mem.bytes (s.outlKey h k j + 2048) (528 * d)) ++ aux false ++ aux true)

/-! ## Variants (R99, R293) -/

/-- A variant's part on this instance, whose blocks are numbered from the bank's next: the rows of A_v, then the column tiles of B_v in FP4,
padded to p_v. -/
def State.convVar (s : State) (h k : Nat) (x : Variant) (c0 : Conv) : Except Nat ((List (List WBlock) × Tab WEntry) × Conv) :=
  let b := s.bank h k
  let d := (s.head h).d
  let m := s.mem
  let sr := decide (b.blk.round = 1)
  let as := (List.range x.rank).map (fun r => m.rowAt x.srcA d r)
  let ids := s.ownIds h
  let src := fun (id : Nat) => m.rowAt x.srcB x.rank id
  let p := padRank x.rank
  if m.bad (addrKey x.srcA) (2 * d * x.rank) || m.bad (addrKey x.srcB + 2 * x.rank * ids.headD 0) (2 * x.rank * ids.length) then .error 0x11
  else if as.any (fun r => r.any b16Bad) || ids.any (fun id => (src id).any b16Bad) then .error 0x10
  else
    let (a, c1) := Conv.rows .e4m3 sr as c0
    let (bt, c2) := convTiles .fp4 sr (s.head h).v p (fun id => src id ++ List.replicate (p - x.rank) 0) (s.ownTiles h) c1
    .ok ((a, bt), c2)

/-! ## Room (Table 14.2) -/

/-- A region holds a number of bytes. -/
def roomIn (r : Option Region) (n : Nat) : Bool := (r.map (fun r => decide (n ≤ r.len))).getD false

/-- The code and side regions of a slot hold this instance's part of a bank with `no` outlier entries. -/
def State.partRoom (s : State) (h k fmt use no : Nat) (x : LoadBlk) : Bool :=
  let b := s.bank h k
  roomIn b.code (s.codeBytes h fmt no)
  && roomIn b.side (sideSize (s.tileNum h) no (s.head h).d (addrV x.gain) (addrV x.bias) (s.auxHere use x 0) (s.auxHere use x 1))

/-- The regions of a slot hold this instance's part of a bank; outliers that mode 1 lists are counted, those of mode 2 are known only once the
main pass has run. A bank for REFERENCE use needs the reference vector region (R217). -/
def State.loadRoom (s : State) (h k fmt use : Nat) (x : LoadBlk) : Bool :=
  let ids := s.ownIds h
  let no := if x.outmode = 1 then ((x.listIds s.mem).filter (fun id => ids.contains id)).length else 0
  s.partRoom h k fmt use no x
  && (x.adopt || roomIn (s.bank h k).shadow (2 * (s.head h).d * ids.length))
  && (decide (use = 0) || (Tab.find? s.conf.regions 1).isSome)

/-- The regions of a slot hold one more variant of a rank where it would be put. -/
def State.varRoom (s : State) (h k rank : Nat) : Bool :=
  let b := s.bank h k
  let p := s.varPlace h k rank
  roomIn b.code (p.1 + varCode (s.head h).d (s.tileNum h) rank) && roomIn b.side (p.2 + varSide (s.tileNum h) rank)

end Sys2Proof.Machine
end

