-- ==== Sys2Proof/Machine/Epoch.lean ====
section
/-! DEFINITION. The EPOCH commands, ready reports and the stages of a bank switch (R220, R280 to R293, R367 to R369, Table 17.10 to Table
17.12). -/

namespace Sys2Proof.Machine

/-! ## The load block (Table 17.10) -/

/-- Head set, slot, use, format and epoch of a load block. -/
def blkHead (ws : List Word) : Nat := bitsAt (ws.getD 0 0) 0 2
def blkSlot (ws : List Word) : Nat := bitsAt (ws.getD 0 0) 2 2
def blkUse (ws : List Word) : Nat := bitsAt (ws.getD 0 0) 4 1
def blkFmt (ws : List Word) : Nat := bitsAt (ws.getD 0 0) 5 2
def blkEpoch (ws : List Word) : Half := BitVec.ofNat 16 (bitsAt (ws.getD 0 0) 16 16)

/-- The other fields of a load block. -/
def loadBlkOf (ws : List Word) : LoadBlk :=
  let w := fun (o : Nat) => ws.getD (o / 4) 0
  let q := fun (o : Nat) => join64 (w o) (w (o + 4))
  { round := bitsAt (w 0) 7 1, outmode := bitsAt (w 0) 8 2, adopt := bitAt (w 0) 10, outthr := BitVec.ofNat 16 (bitsAt (w 4) 0 16), srseed := q 8,
    main := q 0x10, gain := q 0x18, bias := q 0x20, outlist := q 0x28, outcnt := bitsAt (w 0x30) 0 17,
    gelu := bitsAt (w 0x30) 17 2, aux := (List.range 8).map (fun i => q (0x38 + 8 * i)) }

/-- A block of a command as it stands in memory. -/
def State.blockAt (s : State) (a : W64) (n : Nat) : List Word := s.mem.words (addrKey a) n

/-- The reading of a parameter block: an uncorrectable error, then its CRC (R357). -/
def State.blockBad (s : State) (a : W64) : Option Cpl :=
  let ws := s.blockAt a 32
  firstCpl [(s.mem.bad (addrKey a) 128, Cpl.of stFault 0x03), (decide (ws.getD 31 0 ≠ crcWords (ws.take 31)), badCrc)]

/-- All four addresses of an auxiliary head, or none. -/
def LoadBlk.auxWhole (b : LoadBlk) (i : Nat) : Bool :=
  let vs := (List.range 4).map (fun k => addrV (b.aux.getD (4 * i + k) 0))
  vs.all id || vs.all (fun v => !v)

/-- OUTTHR lies between 2^-8 and 1 (R286). -/
def thrOk (h : F16) : Bool := inR 0x3B800000 f32One (ofF16 h)

/-- Values of a load block that no load may carry (DESIGN CHOICE, log 71). -/
def LoadBlk.bad (b : LoadBlk) (ws : List Word) : Bool :=
  decide (bitsAt (ws.getD 0 0) 11 5 ≠ 0 ∨ bitsAt (ws.getD 1 0) 16 16 ≠ 0 ∨ bitsAt (ws.getD 12 0) 19 13 ≠ 0 ∨ (ws.getD 13 0) ≠ 0 ∨ (ws.getD 30 0) ≠ 0
    ∨ b.outmode = 3 ∨ 65536 < b.outcnt)
  || (decide (b.outmode = 2) && !thrOk b.outthr) || !b.auxWhole 0 || !b.auxWhole 1

/-- Address words of a load block that are not well formed (Table 17.4, 0x04). -/
def LoadBlk.badAddr (b : LoadBlk) : Bool :=
  !addrOk b.adopt b.main || !addrOptOk false b.gain || !addrOptOk false b.bias || !addrOptOk false b.outlist
  || (decide (b.outmode = 1 ∧ b.outcnt ≠ 0) && !addrV b.outlist) || b.aux.any (fun a => !addrOptOk false a)

/-! ## Reports and the end of a load (R288, Table 15.14) -/

/-- The ready report of this instance for a slot. -/
def State.reportOf (s : State) (h k detail : Nat) : ReadyB :=
  let b := s.bank h k
  { epoch := b.epoch, hset := h, slot := k, fmt := b.fmt, d := (s.head h).d, v := (s.head h).v, outl := b.data.outl.length, crc := b.crc, detail := detail }

/-- The root's word on a load to the other members: a report of its own, sent down the tree (DESIGN CHOICE, log 40). -/
def State.tellLoad (s : State) (r : ReadyB) : State :=
  s.bcastOthers { hdr := s.hdr 0 true 0 0 0 noHandle, body := .cmd (.ready r) }

/-- A job that loads a slot. -/
def isLoad (h k : Nat) (j : Job) : Bool := decide (j.kind = .load h k)

/-- Every instance's regions hold its part: the root starts the load, and the slot is LOADING (R283). -/
def State.startLoad (s : State) (h k : Nat) : State :=
  let b := s.bank h k
  if b.st = .empty ∧ s.jobs.any (isLoad h k) = true ∧ (List.range s.orch.n).all (fun i => b.said.contains i) = true then
    (s.setBank h k { b with st := .loading, said := [] }).bcastOthers { hdr := s.hdr 0 true 0 0 0 noHandle, body := .cmd (.ack (4 * h + k) 7) }
  else s

/-- An instance's word that its regions hold its part, at the root. -/
def State.roomSaid (s : State) (h k sh : Nat) : State :=
  let b := s.bank h k
  if b.st = .empty ∧ s.jobs.any (isLoad h k) = true then (s.setBank h k { b with said := b.said ++ [sh] }).startLoad h k else s

/-- The root's word that a load starts, at a member that has prepared it. -/
def State.loadStarts (s : State) (h k : Nat) : State :=
  let b := s.bank h k
  if b.st = .empty then s.setBank h k { b with st := .loading, said := [] } else s

/-- A load fails: the slot is EMPTY on every instance, and the command ends (R288). -/
def State.failLoad (s : State) (h k detail : Nat) : State :=
  let r := s.reportOf h k detail
  let s1 := s.setBank h k (s.bank h k).emptied
  (s1.tellLoad r).endJobs (isLoad h k) (fun _ => if detail = 0x05 then Cpl.of stBadParam 0x05 else Cpl.of stFault detail)

/-- Every instance has reported: the slot is READY when the reports agree (R288). -/
def State.checkLoad (s : State) (h k : Nat) : State :=
  let b := s.bank h k
  if b.st ≠ .loading ∨ (List.range s.orch.n).any (fun i => !(b.reports.any (fun r => decide (r.1 = i)))) then s
  else
    let same := b.reports.all (fun r => decide (r.2.epoch = b.epoch ∧ r.2.fmt = b.fmt ∧ r.2.d = (s.head h).d ∧ r.2.v = (s.head h).v))
    if same then
      let n := (b.reports.map (fun r => r.2.outl)).foldl (· + ·) 0
      let s1 := s.setBank h k { b with st := .ready, outl := n }
      (s1.tellLoad { s1.reportOf h k 0 with outl := n }).endJobs (isLoad h k) (fun _ => Cpl.done (w32 n) b.epoch.toNat)
    else s.failLoad h k 0x13

/-- Jobs that load a variant into a slot. -/
def isVload (h k : Nat) (j : Job) : Bool := match j.kind with
  | .vload g l _ => decide (g = h ∧ l = k)
  | _ => false

/-- Variants of a slot that not every instance has reported leave it (DESIGN CHOICE, log 74). -/
def State.dropVars (s : State) (h k : Nat) : State :=
  let b := s.bank h k
  s.setBank h k { b with vars := b.vars.filter (fun (v : Nat × Variant) => decide (s.orch.n ≤ v.2.reports.length)) }

/-- A variant load fails. -/
def State.failVload (s : State) (h k detail : Nat) : State :=
  let r := s.reportOf h k detail
  ((s.dropVars h k).tellLoad r).endJobs (isVload h k) (fun _ => if detail = 0x05 then Cpl.of stBadParam 0x05 else Cpl.of stFault detail)

/-- A ready report at the root. In the check before a load starts only a failure of that load counts. -/
def State.rootReady (s : State) (sh : Nat) (r : ReadyB) : State :=
  let h := r.hset
  let k := r.slot
  let b := s.bank h k
  if b.st = .empty ∧ s.jobs.any (isLoad h k) = true then
    if r.detail ≠ 0 ∧ b.epoch = r.epoch then s.failLoad h k r.detail else s
  else if b.st = .loading then
    if r.detail ≠ 0 then s.failLoad h k r.detail
    else (s.setBank h k { b with reports := b.reports.filter (fun x => decide (x.1 ≠ sh)) ++ [(sh, r)] }).checkLoad h k
  else if r.detail ≠ 0 ∧ s.jobs.any (isVload h k) = true then s.failVload h k r.detail
  else s

/-- The root's word on a load at a member. -/
def State.memberReady (s : State) (r : ReadyB) : State :=
  let h := r.hset
  let k := r.slot
  let b := s.bank h k
  if b.st = .loading then
    if r.detail = 0 then s.setBank h k { b with st := .ready, outl := r.outl } else s.setBank h k b.emptied
  else if b.st = .empty then s.setBank h k b.emptied
  else if r.detail ≠ 0 then s.dropVars h k
  else s

/-- This instance's report sent to the root, or taken there. -/
def State.sendReady (s : State) (h k detail : Nat) : State :=
  let r := s.reportOf h k detail
  if s.isRoot then s.rootReady s.orch.shard r else s.sendTo s.orch.rootSh (.cmd (.ready r))

/-- Number that names a variant in an acknowledgement (DESIGN CHOICE, log 41). -/
def varRef (h k v : Nat) : Nat := v + 64 * (4 * h + k)

/-- A variant's shards that have answered, with one more. -/
def Variant.heard (x : Variant) (sh : Nat) : List Nat := if x.reports.contains sh then x.reports else x.reports ++ [sh]

/-- An instance's word, at the root, that its regions hold a variant: with the last one the load starts everywhere (R293). -/
def State.varRoomSaid (s : State) (h k v sh : Nat) : State :=
  let b := s.bank h k
  match Tab.find? b.vars v with
  | none => s
  | some x =>
    if x.go then s
    else
      let full := decide (s.orch.n ≤ (x.heard sh).length)
      let s1 := s.setBank h k { b with vars := Tab.set b.vars v { x with reports := if full then [] else x.heard sh, go := full } }
      if full then s1.bcastOthers { hdr := s1.hdr 0 true 0 0 0 noHandle, body := .cmd (.ack (varRef h k v) 9) } else s1

/-- The root's word that a variant's load starts, at a member. -/
def State.varStarts (s : State) (h k v : Nat) : State :=
  let b := s.bank h k
  match Tab.find? b.vars v with
  | none => s
  | some x => s.setBank h k { b with vars := Tab.set b.vars v { x with go := true } }

/-- A member's report of a variant at the root: with the last one the command ends and every member learns of it (R293). -/
def State.rootVariant (s : State) (h k v sh : Nat) : State :=
  let b := s.bank h k
  match (Tab.find? b.vars v).filter (fun x => x.go) with
  | none => s
  | some x =>
    let x1 : Variant := { x with reports := x.heard sh }
    let s1 := s.setBank h k { b with vars := Tab.set b.vars v x1 }
    if x1.reports.length < s.orch.n then s1
    else
      (s1.bcastOthers { hdr := s1.hdr 0 true 0 0 0 noHandle, body := .cmd (.ack (varRef h k v) 2) }).endJobs
        (fun j => decide (j.kind = .vload h k v)) (fun _ => Cpl.done 0 0)

/-- The root's word that a variant is ready everywhere, at a member. -/
def State.memberVariant (s : State) (h k v : Nat) : State :=
  let b := s.bank h k
  match Tab.find? b.vars v with
  | none => s
  | some x => s.setBank h k { b with vars := Tab.set b.vars v { x with reports := List.range s.orch.n } }

/-! ## REQUANT_PART_DONE -/

/-- This instance's part of a bank is done: formed, written and reported (R285, R288). A part that fails leaves the lanes as the load found or
seeded them: its draws are dropped (DESIGN CHOICE, log 150). -/
def State.bankPart (s : State) (h k : Nat) (err : LoadErr) : State :=
  let b := s.bank h k
  if b.st ≠ .loading ∨ b.reports.any (fun r => decide (r.1 = s.orch.shard)) = true then s
  else
    let c0 := s.convStart b.blk.srseed 0
    let s0 := s.convEnd c0
    if err = .memory then s0.sendReady h k 0x11
    else match s.convBank h k c0 with
      | .error d => s0.sendReady h k d
      | .ok (x, c) =>
        if s.partRoom h k b.fmt b.use x.outl.length b.blk = false then s0.sendReady h k 0x05
        else
          let s1 := ((s.convEnd c).setBank h k { b with data := x.data c.next }).writeBank h k x
          let s2 := s1.setBank h k { s1.bank h k with crc := s1.bankCrc h k }
          let s3 := if s2.isRoot then s2 else s2.setBank h k { s2.bank h k with reports := [(s2.orch.shard, s2.reportOf h k 0)] }
          s3.sendReady h k 0

/-- This instance's part of a variant is done (R293). -/
def State.varPart (s : State) (h k v : Nat) (err : LoadErr) : State :=
  let b := s.bank h k
  match (Tab.find? b.vars v).filter (fun x => x.go) with
  | none => s
  | some x =>
    if x.reports.contains s.orch.shard ∨ (b.st ≠ .ready ∧ b.st ≠ .active ∧ b.st ≠ .retained) then s
    else if err = .memory then s.sendReady h k 0x11
    else match s.convVar h k x (s.convStart 0 b.data.next) with
      | .error d => s.sendReady h k d
      | .ok (y, c) =>
        let x1 : Variant := { x with here := true, reports := if s.isRoot then x.reports else [s.orch.shard] }
        let s1 := (s.convEnd c).setBank h k { b with data := { b.data with next := c.next }, vars := Tab.set b.vars v x1 }
        let s2 := s1.writeVar h k x1 y.1 y.2 (fun id => s.mem.rowAt x.srcB x.rank id)
        if s2.isRoot then s2.rootVariant h k v s2.orch.shard else s2.sendTo s2.orch.rootSh (.cmd (.ack (varRef h k v) 2))

/-- REQUANT_PART_DONE. -/
def State.requantDone (s : State) (h k : Nat) (v : Option Nat) (err : LoadErr) : State :=
  match v with
  | none => s.bankPart h k err
  | some v => s.varPart h k v err

/-! ## EPOCH.LOAD -/

/-- Another load of the head set for the same use, or of the same epoch, that is being prepared: BUSY_RETRY until it starts or fails (DESIGN
CHOICE, log 132). -/
def State.preparing (s : State) (h use : Nat) (e : Half) : Bool :=
  (List.range 4).any (fun i => s.jobs.any (isLoad h i) && decide ((s.bank h i).st = .empty ∧ ((s.bank h i).use = use ∨ (s.bank h i).epoch = e)))

/-- Object checks of EPOCH.LOAD at the root (R281, R283, R287, R357). -/
def epochLoadPre (pk : Pkt) (s : State) : Option Cpl :=
  match s.blockBad (pk.p64 0) with
  | some c => some c
  | none =>
    let ws := s.blockAt (pk.p64 0) 32
    let b := loadBlkOf ws
    let h := blkHead ws
    let k := blkSlot ws
    let e := blkEpoch ws
    let use := blkUse ws
    let bp := Cpl.of stBadParam
    firstCpl [
      (b.bad ws, bp 0), (b.badAddr, bp 0x04),
      (decide ((s.bank h k).st = .draining), Cpl.of stBusyRetry 0),
      (decide (e = 0xFFFF) || (List.range 4).any (fun i => decide ((s.bank h i).st ≠ .empty ∧ (s.bank h i).epoch = e)), bp 0),
      (decide ((s.bank h k).st ≠ .empty), bp 0),
      (decide ((s.head h).d = 0), bp 0),
      (decide (b.outmode = 1) && s.mem.bad (addrKey b.outlist) (4 * b.outcnt), Cpl.of stFault 0x03),
      (decide (b.outmode = 1) && (!ascending (b.listIds s.mem) || b.listBad s.mem), bp 0),
      (!s.loadRoom h k (blkFmt ws) use b, bp 0x05),
      ((s.slotUse h .loading use).isSome || (s.slotUse h .ready use).isSome, bp 0),
      (s.preparing h use e, Cpl.of stBusyRetry 0)]

/-- A load is prepared in its slot, which is still EMPTY (R283). -/
def State.prepare (s : State) (ws : List Word) : State :=
  let h := blkHead ws
  let k := blkSlot ws
  s.setBank h k { (s.bank h k).emptied with use := blkUse ws, fmt := blkFmt ws, epoch := blkEpoch ws, blk := loadBlkOf ws, said := [s.orch.shard] }

/-- EPOCH.LOAD. Each instance checks its own regions, and the root starts the load when all have said that they hold its part (R283,
DESIGN CHOICE, log 42). -/
def epochLoadD : Desc :=
  { opcode := 0x0500, legal := rdyRunDrn, scope := fun _ => .group, accepts := false,
    bad := fun pk _ => firstBad [(!pk.clean [all32, all32], 0), (!addrOk false (pk.p64 0), 0x04)],
    pre := fun _ pk s => epochLoadPre pk s,
    lock := fun pk s => let ws := s.blockAt (pk.p64 0) 32; some (objBank (blkHead ws) (blkSlot ws)),
    run := fun o pk s =>
      let ws := s.blockAt (pk.p64 0) 32
      let h := blkHead ws
      let k := blkSlot ws
      match o with
      | .member =>
        let s1 := s.prepare ws
        if s.loadRoom h k (blkFmt ws) (blkUse ws) (loadBlkOf ws) then s1.sendTo s1.orch.rootSh (.cmd (.ack (4 * h + k) 7))
        else s1.sendReady h k 0x05
      | _ =>
        let s1 := (s.prepare ws).addJob { origin := o, opcode := pk.opcode, kind := .load h k, lock := some (objBank h k) }
        (s1.tellMembers o pk).startLoad h k }

/-! ## EPOCH.SWITCH -/

/-- Head set and epoch of an EPOCH command. -/
def epochHead (pk : Pkt) : Nat := pk.fld 0 0 2
def epochOf (pk : Pkt) : Half := BitVec.ofNat 16 (pk.fld 1 0 16)

/-- The READY bank of an epoch for ACTIVE use. -/
def State.incoming (s : State) (h : Nat) (e : Half) : Option Nat :=
  (List.range 4).find? (fun k => decide ((s.bank h k).st = .ready ∧ (s.bank h k).use = 0 ∧ (s.bank h k).epoch = e))

/-- The stage of the switch of a head set, if there is one. -/
def State.switchOf (s : State) (h : Nat) : Option SwStage :=
  (s.jobs.filterMap (fun j => match j.kind with
    | .switch g _ st => if g = h then some st else none
    | _ => none)).head?

/-- The packet of a switch as the root sends it to the members. -/
def switchPkt (h : Nat) (e : Half) : Pkt :=
  { src := { port := .cpa, ring := 0 }, w0 := 0x0501, tag := 0, params := [w32 h, w32 e.toNat], kcrc := 0, readErr := false }

/-- A switch begins: the members are told, and every instance that holds the slot READY enters the barrier round of the head set
(R289, step 1). -/
def State.beginSwitch (s : State) (h : Nat) (e : Half) : State :=
  let s1 : State := { s with jobs := s.jobs.map (fun (j : Job) => match j.kind with
      | .switch g f .deferred => if g = h ∧ f = e then { j with kind := .switch h e .barrier } else j
      | _ => j) }
  (s1.bcastOthers { hdr := s1.hdr 0 true 0 0 0 noHandle, body := .cmd (.fwd .cpa 0 0 (switchPkt h e)) }).barEnter h none

/-- A completion of EPOCH.SWITCH without a switch punnet yet: RES1 holds the epoch (Table 17.19). -/
def switchCpl (status : Nat) (e : Half) : Cpl := { Cpl.of status 0 with res1 := e.toNat }

/-- EPOCH.SWITCH (R289, R290). -/
def epochSwitchD : Desc :=
  { opcode := 0x0501, legal := rdyRunDrn, scope := fun _ => .group, accepts := true,
    bad := noBad [0x3, 0xFFFF],
    pre := fun _ pk s =>
      let h := epochHead pk
      if s.switchOf h = some .deferred then some (Cpl.of stBusyRetry 0)
      else if (s.incoming h (epochOf pk)).isNone then some (Cpl.of stWrongState 0) else none,
    lock := fun pk _ => some (objHead (epochHead pk)),
    run := fun o pk s =>
      let h := epochHead pk
      let e := epochOf pk
      match o with
      | .member => if (s.incoming h e).isSome then s.barEnter h none else s
      | _ =>
        let s1 := s.addJob { origin := o, opcode := pk.opcode, kind := .switch h e .deferred, lock := some (objHead h) }
        if (s.slotIn h .retained).isSome then (s1.complete o false (switchCpl stAccepted e)).setCause cDeferred
        else s1.beginSwitch h e }

/-- A barrier round of a head set's switch has completed: the next close carries it (R289, step 2). -/
def State.switchReleased (s : State) (h : Nat) : State :=
  { s with jobs := s.jobs.map (fun (j : Job) => match j.kind with
      | .switch g e .barrier => if g = h then { j with kind := .switch g e .closing } else j
      | _ => j) }

/-- Deferred switches whose RETAINED bank has gone begin; a round that was broken off ends its switch with FAULT; a switch that every
instance has acknowledged is done (R289, R290, Table 14.5). -/
def State.advanceSwitches (s : State) : State :=
  let due := s.jobs.filterMap (fun j => match j.kind with
    | .switch h e .deferred => if (s.slotIn h .retained).isNone then some (h, e) else none
    | _ => none)
  let s1 := due.foldl (fun (s : State) x => s.beginSwitch x.1 x.2) s
  let s2 := s1.endJobs (fun j => match j.kind with
    | .switch h _ .barrier => !(s1.bar h).inRound
    | _ => false) (fun _ => Cpl.of stFault 0x14)
  let full := fun (j : Job) => match j.kind with
    | .switch _ _ (.acks _ l) => s2.liveShards.all (fun sh => l.contains sh)
    | _ => false
  let done := s2.jobs.filter full
  let s3 := s2.endJobs full (fun j => match j.kind with
    | .switch _ e (.acks n _) => Cpl.done (w32 n) e.toNat
    | _ => Cpl.done 0 0)
  done.foldl (fun (s : State) j => match j.kind with
    | .switch h e (.acks n _) =>
      (s.setCause cEpoch).bcastOthers { hdr := s.hdr 0 true 0 0 0 noHandle, body := .event (.epoch h e n) }
    | _ => s) s3

/-! ## EPOCH.REFSET and EPOCH.DROP (R220, R292) -/

/-- A row that needs a head set's reference pass is admitted and its record is not issued (R220). -/
def State.refBusy (s : State) (h : Nat) : Bool :=
  s.rows.any (fun r => decide (r.rd.hset = h ∧ r.punnet = none) && s.wantsRef r.rd (s.placeProf r.key (r.rd.ovl ||| s.cfg.forceovl) s.conf.tseq))
  || s.puns.any (fun p => p.rows.any (fun r => decide (r.refH = some h) && s.rowHolds r))

/-- The REFERENCE bank of a head set replaced by a READY one, or by none. -/
def State.setRef (s : State) (h : Nat) (new : Option Nat) : State :=
  let s1 := match s.slotIn h .reference with
    | some o => s.setBank h o { s.bank h o with st := .draining, vacate := false }
    | none => s
  match new with
  | some k => s1.setBank h k { s1.bank h k with st := .reference }
  | none => s1

/-- The READY bank of an epoch for REFERENCE use. -/
def State.refReady (s : State) (h : Nat) (e : Half) : Option Nat :=
  (List.range 4).find? (fun k => decide ((s.bank h k).st = .ready ∧ (s.bank h k).use = 1 ∧ (s.bank h k).epoch = e))

/-- EPOCH.REFSET: the model's commands stand between placements, so it applies at once (DESIGN CHOICE, log 76). -/
def epochRefsetD : Desc :=
  { opcode := 0x0502, legal := rdyRunDrn, scope := fun _ => .group, accepts := false,
    bad := noBad [0x3, 0xFFFF],
    pre := fun _ pk s =>
      let h := epochHead pk
      if (s.refReady h (epochOf pk)).isNone then some (Cpl.of stWrongState 0)
      else if s.refBusy h then some (Cpl.of stBusyRetry 0) else none,
    lock := fun pk s => (s.refReady (epochHead pk) (epochOf pk)).map (fun k => objBank (epochHead pk) k),
    run := fun o pk s =>
      let h := epochHead pk
      match s.refReady h (epochOf pk) with
      | none => s
      | some k => ((s.setRef h (some k)).tellMembers o pk).finish o (Cpl.done 0 0) }

/-- The slot of an epoch that holds a bank. -/
def State.anySlot (s : State) (h : Nat) (e : Half) : Option Nat :=
  (List.range 4).find? (fun k => decide ((s.bank h k).st ≠ .empty ∧ (s.bank h k).epoch = e))

/-- The switch to an epoch that runs, not deferred. -/
def State.switching (s : State) (h : Nat) (e : Half) : Bool := s.jobs.any (fun j => match j.kind with
  | .switch g f st => decide (g = h ∧ f = e ∧ st ≠ .deferred)
  | _ => false)

/-- Object checks of EPOCH.DROP. -/
def epochDropPre (pk : Pkt) (s : State) : Option Cpl :=
  let h := epochHead pk
  match s.anySlot h (epochOf pk) with
  | none => some (Cpl.of stWrongState 0)
  | some k =>
    match (s.bank h k).st with
    | .loading => none
    | .ready => if s.switching h (epochOf pk) then some (Cpl.of stBusyRetry 0) else none
    | .reference => if s.refBusy h then some (Cpl.of stBusyRetry 0) else none
    | _ => some (Cpl.of stWrongState 0)

/-- EPOCH.DROP. -/
def epochDropD : Desc :=
  { opcode := 0x0503, legal := rdyRunDrn, scope := fun _ => .group, accepts := false,
    bad := noBad [0x3, 0xFFFF],
    pre := fun _ pk s => epochDropPre pk s,
    lock := noLock,
    run := fun o pk s =>
      let h := epochHead pk
      let e := epochOf pk
      match s.anySlot h e with
      | none => s
      | some k =>
        let b := s.bank h k
        let s1 := match b.st with
          | .loading => match o with
            | .member => s.setBank h k b.emptied
            | _ => s.failLoad h k 0x15
          | .ready =>
            let s1 := s.endJobs (fun j => decide (j.kind = JobKind.switch h e .deferred)) (fun _ => switchCpl stAbandoned e)
            (s1.endJobs (isVload h k) (fun _ => Cpl.of stFault 0x15)).setBank h k b.emptied
          | _ => s.setRef h none
        (s1.tellMembers o pk).finish o (Cpl.done 0 0) }

/-! ## Variants (R293) -/

/-- The slot of a bank that may take or give up a variant. -/
def State.varSlot (s : State) (h : Nat) (e : Half) : Option Nat := s.slotOf h e [.ready, .active]

/-- EPOCH.VLOAD. The number of a variant that has been freed and whose rows have not drained answers BUSY_RETRY (DESIGN CHOICE, log 133). -/
def epochVloadD : Desc :=
  { opcode := 0x0504, legal := rdyRunDrn, scope := fun _ => .group, accepts := false,
    bad := fun pk _ => firstBad [(!pk.clean [0x3, 0xFFFF, 0x1FFF, all32, all32, all32, all32], 0), (decide (pk.fld 2 6 7 = 0 ∨ 64 < pk.fld 2 6 7), 0),
      (!addrOk false (pk.p64 3) || !addrOk false (pk.p64 5), 0x04)],
    pre := fun _ pk s =>
      let h := epochHead pk
      match s.varSlot h (epochOf pk) with
      | none => some (Cpl.of stWrongState 0)
      | some k =>
        if ((Tab.find? (s.bank h k).vars (pk.fld 2 0 6)).map (fun x => s.locked (objBank h k) || x.gone)).getD false then
          some (Cpl.of stBusyRetry 0)
        else if (Tab.find? (s.bank h k).vars (pk.fld 2 0 6)).isSome then some (Cpl.of stWrongState 0)
        else if s.varRoom h k (pk.fld 2 6 7) then none else some (Cpl.of stBadParam 0x05),
    lock := fun pk s => (s.varSlot (epochHead pk) (epochOf pk)).map (fun k => objBank (epochHead pk) k),
    run := fun o pk s =>
      let h := epochHead pk
      match s.varSlot h (epochOf pk) with
      | none => s
      | some k =>
        let v := pk.fld 2 0 6
        let p := s.varPlace h k (pk.fld 2 6 7)
        let x : Variant := { rank := pk.fld 2 6 7, srcA := pk.p64 3, srcB := pk.p64 5, reports := [], go := false, usable := false, freeing := false,
                             gone := false, here := false, code := p.1, side := p.2 }
        let b := s.bank h k
        let s1 := s.setBank h k { b with vars := Tab.set b.vars v x }
        match o with
        | .member =>
          if s.varRoom h k x.rank then s1.sendTo s1.orch.rootSh (.cmd (.ack (varRef h k v) 9)) else s.sendReady h k 0x05
        | _ =>
          let s2 := (s1.addJob { origin := o, opcode := pk.opcode, kind := .vload h k v, lock := some (objBank h k) }).tellMembers o pk
          s2.varRoomSaid h k v s2.orch.shard }

/-- The slot of an epoch in which a variant is resident. -/
def State.varHome (s : State) (h : Nat) (e : Half) (v : Nat) : Option Nat :=
  (s.slotOf h e [.ready, .active, .retained, .draining]).bind (fun k =>
    if ((Tab.find? (s.bank h k).vars v).map (fun x => decide (s.orch.n ≤ x.reports.length) && !x.freeing)).getD false then some k else none)

/-- EPOCH.VFREE. -/
def epochVfreeD : Desc :=
  { opcode := 0x0505, legal := rdyRunDrn, scope := fun _ => .group, accepts := false,
    bad := noBad [0x3, 0xFFFF, 0x3F],
    pre := fun _ pk s => if (s.varHome (epochHead pk) (epochOf pk) (pk.fld 2 0 6)).isNone then some (Cpl.of stWrongState 0) else none,
    lock := fun pk s => (s.varHome (epochHead pk) (epochOf pk) (pk.fld 2 0 6)).map (fun k => objBank (epochHead pk) k),
    run := fun o pk s =>
      let h := epochHead pk
      let v := pk.fld 2 0 6
      match s.varHome h (epochOf pk) v with
      | none => s
      | some k =>
        let b := s.bank h k
        let s1 := s.setBank h k { b with vars := b.vars.map (fun (x : Nat × Variant) => if x.1 = v then (v, { x.2 with freeing := true }) else x) }
        match o with
        | .member => s1
        | _ => (s1.addJob { origin := o, opcode := pk.opcode, kind := .vfree h k v, lock := some (objBank h k) }).tellMembers o pk }

/-- A variant that EPOCH.VFREE named is absent from a boundary on (R293). -/
def State.advanceVfree (s : State) : State :=
  s.endJobs (fun j => match j.kind with
    | .vfree h k v => ((Tab.find? (s.bank h k).vars v).map (fun x => x.gone)).getD true
    | _ => false) (fun _ => Cpl.done 0 0)

/-! ## EPOCH.QUERY (R369) -/

/-- State codes of R369. -/
def bankCode : BankSt → Nat
  | .empty => 0
  | .loading => 1
  | .ready => 2
  | .active => 3
  | .retained => 4
  | .reference => 5
  | .draining => 6

/-- A slot entry. -/
def State.slotEntry (s : State) (h k : Nat) : SlotEntB :=
  let b := s.bank h k
  if b.st = .empty then { state := 0, use := 0, fmt := 0, epoch := 0, pins := 0, outl := 0, crc := 0 }
  else { state := bankCode b.st, use := b.use, fmt := b.fmt, epoch := b.epoch, pins := s.bankPins h b.epoch, outl := b.outl, crc := b.crc }

/-- EPOCH.QUERY. -/
def epochQueryD : Desc :=
  { opcode := 0x0506, legal := rdyRunDrn, scope := fun _ => .group, accepts := false,
    bad := fun pk _ => firstBad [(!pk.clean [0x3, all32, all32], 0), (!addrOk false (pk.p64 1), 0x04)],
    pre := noPre, lock := noLock,
    run := fun o pk s =>
      let h := epochHead pk
      let ws := (List.range 4).flatMap (fun k => slotEntWords (s.slotEntry h k))
      (s.storeWords (addrKey (pk.p64 1)) ws).finish o (Cpl.done (w32 (b2n (decide (s.switchOf h = some .deferred)))) 0) }

end Sys2Proof.Machine
end

