-- ==== Sys2Proof/Machine/Req.lean ====
section
/-! DEFINITION. The REQ commands and what a request's opening, closing and cancelling change (R193, R210, R227, R236, R241, R255, R256, R271,
R272, R274, R277, R291, R370, R371, Table 17.13, Table 17.14). -/

namespace Sys2Proof.Machine

/-- A request-scope command's packet sent to every other member, to be applied there (DEDUCED, log 10). -/
def State.tellEach (s : State) (o : Origin) (pk : Pkt) : State :=
  match o with
  | .member => s
  | _ => ((List.range s.orch.n).filter (fun i => decide (i ≠ s.orch.shard))).foldl (fun (s : State) i =>
      s.sendTo i (.cmd (.fwd pk.src.port pk.src.ring 0 pk))) s

/-- The home of the slot in P0. -/
def homeScope : Pkt → Scope := fun _ => .home

/-! ## Common checks (R371) -/

/-- A row of the request is admitted on this instance, its home, and its record is not issued. -/
def State.reqBusy (s : State) (n : Nat) : Bool :=
  s.rows.any (fun r => r.home && decide (r.key.handle.slot = n)) || s.hcom.any (fun c => decide (c.key.handle.slot = n))

/-- The handle names no request. -/
def State.noReq (s : State) (h : Handle) : Bool := decide ((s.slot h.slot).rstate = 0 ∨ (s.slot h.slot).gen ≠ h.gen)

/-- Object checks of a command on a request: its handle, then a cancel that runs (Table 16.9), then its own. -/
def reqPre (own : Pkt → State → Option Cpl) : Origin → Pkt → State → Option Cpl := fun _ pk s =>
  if s.noReq pk.handle then some (Cpl.of stWrongState 0)
  else if (s.ctx pk.handle.slot).canc then some (Cpl.of stBusyRetry 0)
  else own pk s

/-- The lock of a request. -/
def reqLock : Pkt → State → Option (Nat × Nat) := fun pk _ => some (objReq (pk.fld 0 0 16))

/-! ## The end of a request -/

/-- Tentative entries are discarded and their charges returned (R193). -/
def State.dropTent (s : State) (n : Nat) : State :=
  let x := s.ctx n
  let d : Int := heldCharges x.tent
  let s0 := if s.isHome n then s.countReturned d.toNat else s
  let s1 := if s0.isRoot then s0.charge n (-d) else s0
  s1.setCtx n { x with tent := [], charged := addCharge x.charged (-d), dirty := x.dirty || !x.tent.isEmpty, sdirty := x.sdirty || !x.tent.isEmpty }

/-- A request closes on this instance: tentative state, pins and parts go, RSTATE becomes FREE, and the command that waits for it ends
(R193, R272, R291, Table 17.14). -/
def State.closeSlot (s : State) (n : Nat) : State :=
  let s1 := (s.dropTent n).freeParts n
  let s2 := s1.setSlot n { s1.slot n with rstate := 0, lost := false }
  let s2 := s2.delCount n
  let h : Handle := { slot := n, gen := (s2.slot n).gen }
  let s3 : State := { s2 with
    scx := Tab.del s2.scx n, fetches := s2.fetches.filter (fun f => decide (f.1 ≠ n)),
    eg := { s2.eg with closed := s2.eg.closed ++ (if s2.eg.ready.any (fun r => decide (r.handle = h)) then [(h, (s2.ctx n).lat)] else []) },
    rows := s2.rows.filter (fun r => r.home || decide (r.key.handle.slot ≠ n) || r.punnet.isSome),
    asm := { s2.asm with rows := s2.asm.rows.filter (fun a => decide (a.key.handle.slot ≠ n) || s2.inFlight a.key) } }
  s3.endJobs (fun j => decide (j.kind = JobKind.cancel n)) (fun _ => Cpl.done 0 0)

/-- The REQ.CLOSE packet of a handle, as a home sends it to the other members when a cancelled request closes. -/
def closePkt (h : Handle) : Pkt :=
  { src := { port := .cpa, ring := 0 }, w0 := 0x0601, tag := 0, params := [w32 (handleNat h)], kcrc := 0, readErr := false }

/-- Cancelled requests homed here whose last owed record has been issued close (R272). -/
def State.closeCancelled (s : State) : State :=
  let due := s.scx.filter (fun (c : Nat × Scx) => c.2.canc && s.isHome c.1 && decide ((s.slot c.1).rstate ≠ 0) && !s.reqBusy c.1)
  due.foldl (fun (s : State) c =>
    let h : Handle := { slot := c.1, gen := (s.slot c.1).gen }
    (s.tellEach (.fwd 0 .cpa 0 0) (closePkt h)).closeSlot c.1) s

/-! ## REQ.OPEN -/

/-- An open block (Table 17.13). -/
structure OpenBlk where
  prof    : Nat
  ovl     : Nat
  tenant  : Nat
  fill    : Nat
  tring   : Nat
  kvring  : Nat
  seed    : W64
  pins    : List Nat
  named   : List Half
  gram    : Nat
  grmv    : Bool
  startv  : Bool
  start   : Nat
  bsize   : Nat
  hashon  : Bool
  plen    : Nat
  prompt  : W64
  nbias   : Nat
  bias    : W64
  clean   : Bool
deriving DecidableEq, Repr

/-- Words and reserved masks of an open block. -/
def openBlkOf (ws : List Word) : OpenBlk :=
  let w := fun (o : Nat) => ws.getD (o / 4) 0
  let f := fun (o lo len : Nat) => bitsAt (w o) lo len
  let rsv := [(0x00, 25), (0x04, 12), (0x08, 29), (0x0C, 0), (0x18, 8), (0x24, 28), (0x28, 3), (0x2C, 24), (0x38, 11), (0x3C, 0)]
  { prof := f 0 0 10, ovl := f 0 10 15, tenant := f 4 0 12, fill := f 8 0 21, tring := f 8 21 4, kvring := f 8 25 4,
    seed := join64 (w 0x10) (w 0x14), pins := (List.range 4).map (fun h => f 0x18 (2 * h) 2),
    named := [BitVec.ofNat 16 (f 0x1C 0 16), BitVec.ofNat 16 (f 0x1C 16 16), BitVec.ofNat 16 (f 0x20 0 16), BitVec.ofNat 16 (f 0x20 16 16)],
    gram := f 0x24 0 6, grmv := bitAt (w 0x24) 6, startv := bitAt (w 0x24) 7, start := f 0x24 8 20,
    bsize := f 0x28 0 2, hashon := bitAt (w 0x28) 2, plen := f 0x2C 0 24, prompt := join64 (w 0x30) (w 0x34),
    nbias := f 0x38 0 11, bias := join64 (w 0x40) (w 0x44),
    clean := rsv.all (fun r => decide (bitsAt (w r.1) r.2 (32 - r.2) = 0)) && (span 18 13).all (fun i => decide (ws.getD i 0 = 0)) }

/-- The open block of a packet. -/
def State.openBlk (s : State) (pk : Pkt) : OpenBlk := openBlkOf (s.blockAt (pk.p64 1) 32)

/-- Words of the prompt list. -/
def OpenBlk.promptWords (b : OpenBlk) (m : Memory) : List Word := if b.plen = 0 then [] else m.words (addrKey b.prompt) b.plen

/-- Tokens of the prompt list. -/
def OpenBlk.tokens (b : OpenBlk) (m : Memory) : List Nat := (b.promptWords m).map (fun w => bitsAt w 0 21)

/-- The request bias list; none when it is not well formed. -/
def OpenBlk.biases (b : OpenBlk) (m : Memory) : Option (List (Nat × F32)) := if b.nbias = 0 then some [] else biasList m (addrKey b.bias) b.nbias

/-- The merge of R227. -/
def State.openProf (s : State) (b : OpenBlk) : Profile := mergeProf (s.prof b.prof).recs b.ovl

/-- The epoch that a pin choice takes for a head set: none for no pin, `some none` for a choice that cannot be met (R291). -/
def State.pinOf (s : State) (b : OpenBlk) (h : Nat) : Option (Option Half) :=
  match b.pins.getD h 0 with
  | 0 => none
  | 1 => some (if s.activeEpoch h = 0xFFFF then none else some (s.activeEpoch h))
  | _ =>
    let e := b.named.getD h 0
    some (if (s.slotOf h e [.active, .retained]).isSome then some e else none)

/-- A consumer ring that REQ.OPEN may name. -/
def State.ringGood (s : State) (r : Nat) : Bool := (s.cring r).en && !(s.cring r).failed

/-- Object checks of REQ.OPEN (DESIGN CHOICE, log 79). -/
def reqOpenPre (pk : Pkt) (s : State) : Option Cpl :=
  match s.blockBad (pk.p64 1) with
  | some c => some c
  | none =>
    let b := s.openBlk pk
    let n := pk.fld 0 0 16
    let e := s.slot n
    let bp := Cpl.of stBadParam
    let ws := Cpl.of stWrongState 0
    firstCpl [
      (!b.clean || b.pins.contains 3 || decide (1024 < b.nbias), bp 0),
      (decide (0 < b.plen) && !addrOk false b.prompt || decide (0 < b.nbias) && !addrOk false b.bias
        || !addrOptOk false b.prompt || !addrOptOk false b.bias, bp 0x04),
      (decide (0 < b.plen) && s.mem.bad (addrKey b.prompt) (4 * b.plen) || decide (0 < b.nbias) && s.mem.bad (addrKey b.bias) (8 * b.nbias),
        Cpl.of stFault 0x03),
      ((b.promptWords s.mem).any (fun w => decide (2 ^ 21 ≤ w.toNat)) || (b.biases s.mem).isNone || !(s.openProf b).crossOk, bp 0),
      (decide (e.rstate = 4) && (Tab.find? s.scx n).isSome, Cpl.of stBusyRetry 0),
      (decide (e.rstate ≠ 0 ∧ e.rstate ≠ 4), ws),
      (!s.ringGood b.tring || !s.ringGood b.kvring, ws),
      ((List.range 4).any (fun h => decide (s.pinOf b h = some none)), ws),
      (b.grmv && (s.tbl (swapTable 1 b.gram)).cur.isNone, ws),
      (b.grmv && b.startv && (match (s.tbl (swapTable 1 b.gram)).cur with
        | some g => (g.img.state b.start).isNone
        | none => true), bp 0),
      (decide (s.poolFree < s.conf.reserve), Cpl.of stNoSpace 0)]

/-- The context that REQ.OPEN forms, before its prompt is taken in (R157, R180, R210, R227, R274, R291). -/
def State.newCtx (s : State) (b : OpenBlk) (gen : Nat) : Scx :=
  let p := s.openProf b
  let pin := fun (h : Nat) => (s.pinOf b h).bind id
  let g := if b.grmv then (s.tbl (swapTable 1 b.gram)).cur else none
  { Scx.zero with
    gen := gen, prof := b.prof, ovlreq := b.ovl, pgen := (s.prof b.prof).gen, tenant := b.tenant, fill := b.fill, tring := b.tring, kvring := b.kvring,
    seed := b.seed, clen := b.plen, promptlen := b.plen,
    pinmask := (List.range 4).foldl (fun a h => a + b2n (pin h).isSome * 2 ^ h) 0, pinep := (List.range 4).map (fun h => (pin h).getD 0),
    rs := { ngram := p.ngram, penprompt := p.penprompt, dlctl := p.dlctl, dlinit := p.dlinit, dlmin := p.dlmin, dlmax := p.dlmax, alo := p.alo,
            ahi := p.ahi, ttftgoal := p.ttftgoal, tbtgoal := p.tbtgoal, tbtmargin := p.tbtmargin },
    gram := g.map (fun _ => b.gram), ggen := (g.map (fun x => x.num)).getD 0,
    cstate := if b.startv && g.isSome then b.start else (g.map (fun x => x.img.start)).getD 0,
    rhash := if b.hashon then hashStart 0 b.bsize else 0, bsize := b.bsize, hashon := b.hashon,
    alpha := fmul (fadd (ofF16 p.alo) (ofF16 p.ahi)) 0x3F000000, dlen := p.dlinit, topen := BitVec.ofNat 32 s.now,
    bias := (b.biases s.mem).getD [], sketch := sketchZero, headRes := true, strictRes := true, histRes := true, dirty := true, sdirty := true }

/-- The prompt taken in, token by token: history and hash chain at the home, with the HRECs of its blocks; the sketch with PENPROMPT = 1
(R250, R254, R277). -/
def State.takePrompt (s : State) (h : Handle) : Nat → List Nat → State × List (List Word)
  | _, [] => (s, [])
  | i, t :: r =>
    let n := h.slot
    let s1 := s.histCommit n i t true
    let x := s1.ctx n
    let x1 : Scx := if x.rs.penprompt = 1 then { x with sketch := sketchAdd x.sketch t } else x
    let (y, hr) := x1.hashAt h i t
    let (s2, l) := (s1.setCtx n y).takePrompt h (i + 1) r
    (s2, hr.toList ++ l)

/-- A prompt HREC as egress holds it (R277). -/
def promptRec (h : Handle) (ring : Nat) (ws : List Word) (due : Nat) : EgRec :=
  { ring := ring, words := ws, stamp := false, done := 0, due := due, missed := true, key := none, handle := h, sample := false, prompt := some h.slot,
    hset := none, grp := 0 }

/-- A request's new items stand in T0 if it has room for them, else they are written below it. -/
def State.settleT0 (s : State) (n : Nat) : State :=
  let s1 := s.trim [(n, 1), (n, 2), (n, 3)]
  if s1.fitsT0 then s1 else s1.trim []

/-- REQ.OPEN on one instance: the slot, the context and this shard's counts, with the HRECs of the prompt at the home. -/
def State.openSlot (s : State) (pk : Pkt) : State × Handle × List (List Word) :=
  let b := s.openBlk pk
  let n := pk.fld 0 0 16
  let gen := ((s.slot n).gen + 1) % 256
  let h : Handle := { slot := n, gen := gen }
  let s1 := s.setSlot n { (s.slot n) with gen := gen, rstate := 1, lost := false, headloc := 0, opened := true, lastUse := BitVec.ofNat 32 (s.now / 1024) }
  let s2 := (s1.setCtx n (s1.newCtx b gen)).setCount n { CountPart.reset with dirty := true }
  let ts := b.tokens s.mem
  let s3 := if b.plen ≠ 0 ∧ (s2.ctx n).rs.penprompt = 1 then ts.foldl (fun (s : State) t => s.countToken n t) s2 else s2
  if s3.isHome n then
    let (s4, l) := s3.takePrompt h 0 ts
    (((s4.writeHist n).touchCount n).settleT0 n, h, l)
  else (((s3.setCtx n { s3.ctx n with recent := (ts.reverse).take 3 }).touchCount n).settleT0 n, h, [])

/-- REQ.OPEN. -/
def reqOpenD : Desc :=
  { opcode := 0x0600, legal := rdyRunDrn, scope := homeScope, accepts := false,
    bad := fun pk _ => firstBad [(!pk.clean [0xFFFF, all32, all32], 0), (!addrOk false (pk.p64 1), 0x04)],
    pre := fun _ pk s => reqOpenPre pk s,
    lock := reqLock,
    run := fun o pk s =>
      let (s1, h, hr) := s.openSlot pk
      match o with
      | .member => s1
      | _ =>
        let s2 := s1.tellEach o pk
        if hr.isEmpty then s2.finish o (Cpl.done (w32 (handleNat h)) 0)
        else
          let s3 := s2.emit (hr.map (fun w => promptRec h (s2.ctx h.slot).kvring w s2.now))
          (s3.addJob { origin := o, opcode := pk.opcode, kind := .openNotify h.slot, lock := some (objReq h.slot) }).pump }

/-- REQ.OPEN is done once the notify write that covers its prompt's HRECs has been issued (R277) (DESIGN CHOICE, log 118). -/
def State.advanceOpens (s : State) : State :=
  s.endJobs (fun j => match j.kind with
    | .openNotify n =>
      let c := s.cring (s.ctx n).kvring
      !(s.eg.queue.any (fun e => decide (e.prompt = some n))) && decide (c.unacked = 0 ∧ c.notified = c.pi)
    | _ => false) (fun j => match j.kind with
    | .openNotify n => Cpl.done (w32 (handleNat { slot := n, gen := (s.slot n).gen })) 0
    | _ => Cpl.done 0 0)

/-! ## REQ.CLOSE and REQ.CANCEL -/

/-- REQ.CLOSE. -/
def reqCloseD : Desc :=
  { opcode := 0x0601, legal := rdyRunDrn, scope := homeScope, accepts := false,
    bad := noBad [0xFFFFFF],
    pre := reqPre (fun pk s => if s.reqBusy pk.handle.slot then some (Cpl.of stBusyRetry 0) else none),
    lock := reqLock,
    run := fun o pk s =>
      match o with
      | .member => if s.noReq pk.handle then s else s.closeSlot pk.handle.slot
      | _ => ((s.tellEach o pk).closeSlot pk.handle.slot).finish o (Cpl.done 0 0) }

/-- A request is cancelled on this instance: CANC is set (R271). -/
def State.setCanc (s : State) (h : Handle) : State :=
  if s.noReq h then s
  else (s.setCtx h.slot { s.ctx h.slot with canc := true, dirty := true, headRes := (s.ctx h.slot).headRes || s.isHome h.slot }).trim [(h.slot, 1)]

/-- REQ.CANCEL at the root: tick K, and the broadcast (R271). -/
def reqCancelD : Desc :=
  { opcode := 0x0602, legal := rdyRunDrn, scope := fun _ => .group, accepts := false,
    bad := noBad [0xFFFFFF],
    pre := fun _ pk s => if s.noReq pk.handle then some (Cpl.of stWrongState 0) else none,
    lock := reqLock,
    run := fun o pk s =>
      let h := pk.handle
      let s1 := (s.setCanc h).addJob { origin := o, opcode := pk.opcode, kind := .cancel h.slot, lock := some (objReq h.slot) }
      s1.bcastOthers { hdr := s1.hdr 0 true 0 0 0 h, body := .cancel (BitVec.ofNat 64 s1.now) } }

/-- CANCEL at an instance. -/
def State.onCancel (s : State) (h : Hdr) (k : W64) : State := (s.passOn h (.cancel k)).setCanc h.handle

/-! ## REQ.PARK and REQ.RESUME (R255, R256) -/

/-- A part of a request brought to T2: an item that has changed, or has no copy below T0, is written there, any other copied unchanged. The
flag turns false where it finds no room. -/
def State.toT2 (a : State × Bool) (n part : Nat) : State × Bool :=
  let s := a.1
  let list := decide (part ≤ 3) && !(decide (part = 3) && (s.count n).dense)
  let t := if list && (s.isDirty n part || decide (s.usedOf n part = 0)) then
      (((if part = 1 then s.keepTail n else s).freePart n part).writeTo n part 1 true (s.partImage n part)).map (fun t => t.cleanItem n part false)
    else s.moveTo n part 1
  match t with
  | some t => (t, a.2)
  | none => (s, false)

/-- Every part that this instance holds of a request brought to T2, raw ones included, HEAD last since its core names the places of the others;
whether all found room (R255). -/
def State.allToT2 (s : State) (n : Nat) : State × Bool :=
  (if s.isHome n then [4, 5, 2, 3, 1] else [3]).foldl (fun a p => State.toT2 a n p) (s, true)

/-- Raw parts moved back to T1 (R256). -/
def State.rawBack (s : State) (n : Nat) : State :=
  [3, 4, 5].foldl (fun (s : State) p => if s.locOf n p = 0 ∨ bitAt (s.locOf n p) 2 = true then s else (s.moveTo n p 0).getD s) s

/-- T0 items released, those that have changed once they are written back (R242, R255). -/
def State.releaseT0 (s : State) (n : Nat) : State :=
  let s1 := (s.myParts n).reverse.foldl (fun (s : State) p => if s.inT0 n p then s.evictItem n p else s) s
  let s2 := s1.setCtx n { s1.ctx n with histRes := false }
  s2.setCount n { s2.count n with bram := [] }

/-- REQ.PARK in force on one instance (DESIGN CHOICE, log 78) (DEDUCED, log 122). -/
def State.park (s : State) (n ttl hint : Nat) : State :=
  let s1 := s.dropTent n
  let s2 := if hint = 1 then (s1.allToT2 n).1 else s1
  let s3 := s2.setCtx n { s2.ctx n with expiry := if ttl = 0 then BitVec.allOnes 64 else BitVec.ofNat 64 (s2.now + ttl * 10 ^ 8) }
  let s4 := (if hint = 1 then (s3.releaseT0 n).allToT2 n else (s3.releaseT0 n, true)).1
  s4.setSlot n { s4.slot n with rstate := 3 }

/-- REQ.PARK's packet for a slot, as its home sends it once every instance has found room in T2. -/
def parkPkt (h : Handle) (ttl : Nat) : Pkt :=
  { src := { port := .cpa, ring := 0 }, w0 := 0x0603, tag := 0, params := [w32 (handleNat h), w32 ttl, 1], kcrc := 0, readErr := false }

/-- An instance other than the home moves its part to T2, and says whether it found room (R255, DESIGN CHOICE, log 42). -/
def State.parkAsked (s : State) (n : Nat) : State :=
  let (s1, ok) := (s.dropTent n).allToT2 n
  s1.sendTo (s1.homeOf n) (.cmd (.ack n (if ok then 14 else 15)))

/-- An answer at the home. With the last one the request is parked, or stays open for want of room (R255, Table 12.10). -/
def State.parkSaid (s : State) (n sh : Nat) (ok : Bool) : State :=
  let s1 : State := { s with jobs := s.jobs.map (fun (j : Job) => match j.kind with
      | .park m t l f => if m = n ∧ l.contains sh = false then { j with kind := .park m t (sh :: l) (f || !ok) } else j
      | _ => j) }
  match s1.jobs.findSome? (fun j => match j.kind with
      | .park m t l f => if m = n ∧ s1.orch.n ≤ l.length then some (t, f) else none
      | _ => none) with
  | none => s1
  | some (t, full) =>
    let mine := fun (j : Job) => match j.kind with
      | .park m _ _ _ => decide (m = n)
      | _ => false
    let h : Handle := { slot := n, gen := (s1.slot n).gen }
    if s1.reqBusy n then (s1.rawBack n).endJobs mine (fun _ => Cpl.of stBusyRetry 0)
    else if full then (s1.rawBack n).endJobs mine (fun _ => Cpl.of stNoSpace 0)
    else ((s1.tellEach (.fwd 0 .cpa 0 0) (parkPkt h t)).park n t 1).endJobs mine (fun _ => Cpl.done 0 0)

/-- REQ.PARK. With the T2 hint every instance looks for room first. -/
def reqParkD : Desc :=
  { opcode := 0x0603, legal := rdyRunDrn, scope := homeScope, accepts := false,
    bad := noBad [0xFFFFFF, 0xFFFFFF, 0x1],
    pre := reqPre (fun pk s =>
      if s.reqBusy pk.handle.slot then some (Cpl.of stBusyRetry 0)
      else if (s.slot pk.handle.slot).rstate ≠ 1 then some (Cpl.of stWrongState 0) else none),
    lock := reqLock,
    run := fun o pk s =>
      let n := pk.handle.slot
      let ttl := pk.fld 1 0 24
      let hint := pk.fld 2 0 1
      match o with
      | .member => if s.noReq pk.handle then s else s.park n ttl hint
      | _ =>
        if hint = 0 then ((s.tellEach o pk).park n ttl 0).finish o (Cpl.done 0 0)
        else
          let (s1, ok) := (s.dropTent n).allToT2 n
          let s2 := s1.addJob { origin := o, opcode := pk.opcode, kind := .park n ttl [] false, lock := some (objReq n) }
          let s3 := ((List.range s2.orch.n).filter (fun i => decide (i ≠ s2.orch.shard))).foldl (fun (s : State) i => s.sendTo i (.cmd (.ack n 14))) s2
          s3.parkSaid n s3.orch.shard ok }

/-- REQ.RESUME (DEDUCED, log 77). -/
def reqResumeD : Desc :=
  { opcode := 0x0604, legal := rdyRunDrn, scope := homeScope, accepts := false,
    bad := noBad [0xFFFFFF],
    pre := reqPre (fun pk s =>
      let e := s.slot pk.handle.slot
      if e.rstate = 4 then some (Cpl.of stExpired 0) else if e.rstate ≠ 3 then some (Cpl.of stWrongState 0) else none),
    lock := reqLock,
    run := fun o pk s =>
      let n := pk.handle.slot
      let past := decide ((s.ctx n).expiry.toNat ≤ s.now)
      let s0 := if past then s else s.rawBack n
      let s1 := s0.setSlot n { s0.slot n with rstate := if past then 4 else 1 }
      (s1.tellEach o pk).finish o (if past then Cpl.of stExpired 0 else Cpl.done 0 0) }

/-! ## REQ.RELEASE and REQ.QUERY -/

/-- A request in HOLD that may be served again: nothing lost, neither of its rings failed (R398), its grammar generation held, its pinned
epochs resident (Table 17.14). -/
def State.releasable (s : State) (n : Nat) : Bool :=
  let x := s.ctx n
  let gram := match x.gram with
    | some g => ((s.tbl (swapTable 1 g)).gen x.ggen).isSome
    | none => true
  !s.isLost n && !(s.cring x.tring).failed && !(s.cring x.kvring).failed && gram
  && (List.range 4).all (fun h => match x.pin h with
    | some e => (s.slotOf h e [.active, .retained]).isSome
    | none => true)

/-- REQ.RELEASE. -/
def reqReleaseD : Desc :=
  { opcode := 0x0605, legal := rdyRunDrn, scope := homeScope, accepts := false,
    bad := noBad [0xFFFFFF],
    pre := reqPre (fun pk s =>
      let n := pk.handle.slot
      if (s.slot n).rstate ≠ 2 ∨ s.releasable n = false then some (Cpl.of stWrongState 0) else none),
    lock := reqLock,
    run := fun o pk s =>
      let n := pk.handle.slot
      ((s.setSlot n { s.slot n with rstate := 1 }).tellEach o pk).finish o (Cpl.done 0 0) }

/-- REQ.QUERY: the core as it stands. -/
def reqQueryD : Desc :=
  { opcode := 0x0606, legal := rdyRunDrn, scope := homeScope, accepts := false,
    bad := fun pk _ => firstBad [(!pk.clean [0xFFFFFF, all32, all32], 0), (!addrOk false (pk.p64 1), 0x04)],
    pre := fun _ pk s => if s.noReq pk.handle then some (Cpl.of stWrongState 0) else none,
    lock := noLock,
    run := fun o pk s =>
      let n := pk.handle.slot
      let e := s.slot n
      (s.storeWords (addrKey (pk.p64 1)) (s.coreWords n)).finish o (Cpl.done (w32 (e.rstate % 8 + putBits (b2n e.lost) 3)) 0) }

end Sys2Proof.Machine
end

