-- ==== Sys2Proof/Machine/Save.lean ====
section
/-! DEFINITION. Saving and restoring the contexts of an instance: raw history pages, the reading of pack images, the save image of R362, and
the restore of R258 and R166 (R237, R239, R242 to R246, R253, R258, R361, R362). -/

namespace Sys2Proof.Machine

/-! ## SYS.SAVE (R361, R362) -/

/-- The parts of a context that this instance holds written back where they have changed; they stay in T0 (DESIGN CHOICE, log 72). -/
def State.saveSlot (s : State) (n : Nat) : State :=
  if (s.slot n).rstate = 0 then s
  else (s.myParts n).reverse.foldl (fun (s : State) p =>
    if s.isDirty n p = false ∧ s.usedOf n p ≠ 0 then s
    else
      let t := s.writeBack n p
      if t.usedOf n p = 0 then t else t.cleanItem n p false) s

/-- A tenant record (Table 13.2). -/
def tenantWords (t : Tenant) : List Word :=
  let b : W64 := BitVec.ofInt 64 t.bal
  [lo32 b, hi32 b, w32 t.rate, w32 t.burst, w32 t.charged, w32 (t.charged / 2 ^ 32), w32 t.nhold, w32 (b2n t.limit)]

/-- Length of a save image. -/
def State.saveLen (s : State) : Nat := if s.isRoot then 0x220440 else 0x200440

/-- The save image. -/
def State.saveImage (s : State) : List Byte :=
  let body := (List.range 65536).flatMap (fun n => wordsBytes (slotWords (s.slot n)))
    ++ (List.range 65536).flatMap (fun n => wordsBytes (segWords (s.count n)))
    ++ s.lanes.flatMap (fun l => natBytes 16 l.cells.toNat)
    ++ (if s.isRoot then (List.range 4096).flatMap (fun n => wordsBytes (tenantWords (Tab.get s.tenants n Tenant.reset))) else [])
  let hd : List Word := [0x56534B4A, w32 s.orch.n, w32 s.orch.shard, w32 s.saveLen, 0, 0, 0, 0, 0, 0, 0, 0, 0, 0, crc32c body]
  wordsBytes (hd ++ [crcWords hd]) ++ body

/-- SYS.SAVE. -/
def sysSaveD : Desc :=
  { opcode := 0x0104, legal := [.ready], scope := fun _ => .local_, accepts := false,
    bad := fun pk _ => firstBad [(!pk.clean [all32, all32, all32], 0), (!addrOk true (pk.p64 0), 0x04)],
    pre := fun _ pk s => if (pk.p 2).toNat * 4096 < s.saveLen then some (Cpl.of stBadParam 0x05) else none,
    lock := fun _ _ => some objSelf,
    run := fun o pk s =>
      let s1 := ((s.scx.map (fun c => c.1)) ++ (s.counts.map (fun c => c.1))).dedup.foldl (fun (s : State) n => s.saveSlot n) s
      (s1.store (addrKey (pk.p64 0)) s1.saveImage).finish o (Cpl.done (w32 s1.saveLen) 0) }

/-! ## SYS.RESTORE (R166, R258) -/

/-- The address words that a packet lists. -/
def State.savedWords (s : State) (pk : Pkt) : List W64 :=
  (List.range (pk.fld 2 0 11)).map (fun i => join64 (s.mem.word (addrKey (pk.p64 0) + 8 * i)) (s.mem.word (addrKey (pk.p64 0) + 8 * i + 4)))

/-- Length of a save image that stands at a key. -/
def imageLen (m : Memory) (k : Nat) : Nat := (m.word (k + 0xC)).toNat

/-- An image passes its CRCs. -/
def imageOk (m : Memory) (k : Nat) : Bool :=
  let w := m.words k 16
  decide (w.getD 0 0 = 0x56534B4A ∧ (imageLen m k = 0x200440 ∨ imageLen m k = 0x220440) ∧ w.getD 15 0 = crcWords (w.take 15)
    ∧ w.getD 14 0 = crc32c (m.bytes (k + 64) (imageLen m k - 64)))

/-- An image holds no reserved bit and no reserved RSTATE (R8, R362). -/
def imageClean (m : Memory) (k : Nat) : Bool :=
  let w := m.words k 16
  let rsv := fun (at_ size n : Nat) (masks : List Nat) => (List.range n).all (fun i =>
    (masks.zipIdx).all (fun e => decide ((m.word (k + at_ + size * i + 4 * e.2)).toNat &&& e.1 = 0)))
  decide ((w.getD 1 0).toNat < 2 ^ 11 ∧ (w.getD 2 0).toNat < 2 ^ 10) && ((w.drop 4).take 10).all (fun x => decide (x = 0))
  && rsv 0x40 16 65536 [0xFFFFF000, 0, 0xFF8] && (List.range 65536).all (fun n => decide (bitsAt (m.word (k + 0x40 + 16 * n)) 8 3 ≤ 4))
  && rsv 0x100040 16 65536 [0xFFF80000, 0, 0xFF8]
  && (decide (imageLen m k < 0x220440) || rsv 0x200440 32 4096 [0, 0, 0xFF000000, 0, 0, 0, 0, 0xFFFFFFFE])

/-- The image of a saved shard. -/
def savedOf (m : Memory) (ks : List Nat) (i : Nat) : Option Nat := ks.find? (fun k => decide (bitsAt (m.word (k + 8)) 0 10 = i))

/-- The COUNT part of a restored request on this shard: the saved shards' parts merged and split by the ranges of this group (R258). -/
def State.restoredCount (s : State) (ks : List Nat) (h : Handle) : CountPart :=
  let m := s.mem
  let parts := ks.map (fun k => s.segRead (m.words (k + 0x100040 + 16 * h.slot) 4) h ks.length (bitsAt (m.word (k + 8)) 0 10))
  let counts := parts.foldl (fun (t : Tab Nat) p => (p.getD []).foldl (fun (t : Tab Nat) e =>
    if s.ownsAny e.1 then Tab.set t e.1 e.2 else t) t) []
  { CountPart.reset with
    counts := counts, dense := decide (65536 < counts.length), lost := parts.any (fun p => p.isNone), dirty := true,
    lastUse := BitVec.ofNat 32 (s.now / 1024) }

/-- A restored request takes its slot, with its pages and its dense vector; T0 is brought back to its size. -/
def State.putRestored (s : State) (n : Nat) (e : SlotEnt) (x : Scx) (c : CountPart) : State :=
  (((((s.setSlot n e).setCtx n x).setCount n c).claimAll n).denseOut n 0).trim []

/-- One context restored on this instance from the images of its saved home and of every saved shard (R258): HEAD, STRICT and history stay where
they are, the COUNT parts are merged and split by the ranges of this group. -/
def State.restoreSlot (s : State) (ks : List Nat) (n : Nat) : State :=
  let m := s.mem
  match savedOf m ks (n % ks.length) with
  | none => s
  | some k =>
    let w := m.words (k + 64 + 16 * n) 4
    let gen := bitsAt (w.getD 0 0) 0 8
    let st := bitsAt (w.getD 0 0) 8 3
    let loc := join64 (w.getD 2 0) (w.getD 3 0)
    let e : SlotEnt := { gen := gen, rstate := st, lost := bitAt (w.getD 0 0) 11, lastUse := w.getD 1 0, headloc := loc,
                         opened := decide (gen ≠ 0 ∨ st ≠ 0) }
    if st = 0 then (if gen = 0 then s else s.setSlot n e)
    else
      let h : Handle := { slot := n, gen := gen }
      let r := s.readCtx h loc
      ({ s with free := s.free + 3 } : State).putRestored n { e with lost := e.lost || r.2 } r.1 (s.restoredCount ks h)

/-- Lane states restored (R166): global lane numbers below 64 N keep their saved states; the others are seeded. The bit pointer is not saved,
so the first draw of a restored lane steps it (DEDUCED, log 70). -/
def State.restoreLanes (s : State) (ks : List Nat) : State :=
  let m := s.mem
  { s with lanes := (List.range 64).map (fun g => match savedOf m ks s.orch.shard with
      | some k => { cells := BitVec.ofNat 128 (m.num (k + 0x200040 + 16 * g) 16), ptr := 0, fresh := true, sick := false }
      | none => laneSeed s.baseSeed (64 * s.orch.shard + g)) }

/-- Tenant records restored (R361): the root uses them, the other instances keep them against a new root (DESIGN CHOICE, log 134). -/
def State.restoreTenants (s : State) (ks : List Nat) : State :=
  let m := s.mem
  match ks.find? (fun k => decide (0x220440 ≤ (m.word (k + 12)).toNat)) with
  | some k =>
    { s with tenants := (List.range 4096).foldl (fun (t : Tab Tenant) n =>
        let w := m.words (k + 0x200440 + 32 * n) 8
        let r : Tenant := { bal := (join64 (w.getD 0 0) (w.getD 1 0)).toInt, rate := bitsAt (w.getD 2 0) 0 24, burst := (w.getD 3 0).toNat,
                            charged := (join64 (w.getD 4 0) (w.getD 5 0)).toNat, nhold := (w.getD 6 0).toNat, limit := bitAt (w.getD 7 0) 0 }
        if r = Tenant.reset then t else Tab.set t n r) [] }
  | none => s

/-- SYS.RESTORE. -/
def sysRestoreD : Desc :=
  { opcode := 0x0105, legal := [.ready], scope := fun _ => .group, accepts := false,
    bad := fun pk _ => firstBad [(!pk.clean [all32, all32, 0x7FF], 0), (decide (pk.fld 2 0 11 = 0 ∨ 1024 < pk.fld 2 0 11), 0), (!addrOk false (pk.p64 0), 0x04)],
    pre := fun _ pk s =>
      if s.slots.any (fun (e : Nat × SlotEnt) => decide (e.2.rstate ≠ 0)) then some (Cpl.of stWrongState 0)
      else if s.mem.bad (addrKey (pk.p64 0)) (8 * pk.fld 2 0 11) then some (Cpl.of stFault 0x03)
      else if (s.savedWords pk).any (fun w => !addrOk true w) then some (Cpl.of stBadParam 0x04)
      else if (s.savedWords pk).any (fun w => s.mem.bad (addrKey w) (imageLen s.mem (addrKey w))) then some (Cpl.of stFault 0x03)
      else if (s.savedWords pk).any (fun w => !(imageOk s.mem (addrKey w) && imageClean s.mem (addrKey w))) then some (Cpl.of stFault 0x02) else none,
    lock := fun _ _ => some objGroup,
    run := fun o pk s =>
      let ks := (s.savedWords pk).map (fun w => addrKey w)
      let s1 := (List.range 65536).foldl (fun (s : State) n => s.restoreSlot ks n) s
      (((s1.restoreLanes ks).restoreTenants ks).tellMembers o pk).finish o (Cpl.done 0 0) }

end Sys2Proof.Machine
end

