-- ==== Sys2Proof/Machine/Ten.lean ====
section
/-! DEFINITION. Tenant budgets: TEN.SET, TEN.QUERY and the refill (R266, R267, R270, R278, R372). -/

namespace Sys2Proof.Machine

/-- A tenant record. -/
def State.tenant (s : State) (n : Nat) : Tenant := Tab.get s.tenants n Tenant.reset

/-- A tenant record replaced. -/
def State.setTenant (s : State) (n : Nat) (t : Tenant) : State := { s with tenants := Tab.set s.tenants n t }

/-- RATE written. -/
def Tenant.setRate (t : Tenant) (rate : Nat) : Tenant := { t with rate := rate }

/-- BURST written: while the budget is enforced the tokens used are preserved (R270). -/
def Tenant.setBurst (t : Tenant) (burst : Nat) : Tenant :=
  { t with burst := burst, bal := if t.limit then t.bal + ((burst : Int) - (t.burst : Int)) else t.bal }

/-- LIMIT written: from 0 to 1 the balance becomes BURST. -/
def Tenant.setLimit (t : Tenant) (l : Bool) : Tenant := { t with limit := l, bal := if l && !t.limit then (t.burst : Int) else t.bal }

/-- The fields that TEN.SET names, in the order RATE, BURST, LIMIT. -/
def Tenant.set_ (t : Tenant) (pk : Pkt) : Tenant :=
  let t1 := if bitAt (pk.p 0) 13 then t.setRate (pk.fld 1 0 24) else t
  let t2 := if bitAt (pk.p 0) 14 then t1.setBurst (pk.p 2).toNat else t1
  if bitAt (pk.p 0) 12 then t2.setLimit (bitAt (pk.p 0) 15) else t2

/-- TEN.SET. A BURST of 0 lies outside Table 13.2. Members keep the records as set, for the case that one becomes the root (R279) (DESIGN CHOICE,
log 134). -/
def tenSetD : Desc :=
  { opcode := 0x0700, legal := rdyRunDrn, scope := fun _ => .group, accepts := false,
    bad := fun pk _ => firstBad [(!pk.clean [0xFFFF, 0xFFFFFF, all32], 0), (bitAt (pk.p 0) 14 && decide (pk.p 2 = 0), 0)],
    pre := noPre, lock := noLock,
    run := fun o pk s =>
      let n := pk.fld 0 0 12
      ((s.setTenant n ((s.tenant n).set_ pk)).tellMembers o pk).finish o (Cpl.done 0 0) }

/-- TEN.QUERY: the record, and with CLEAR its meters set to 0 in the same step (R278). -/
def tenQueryD : Desc :=
  { opcode := 0x0701, legal := rdyRunDrn, scope := fun _ => .group, accepts := false,
    bad := fun pk _ => firstBad [(!pk.clean [0x1FFF, all32, all32], 0), (!addrOk false (pk.p64 1), 0x04)],
    pre := noPre, lock := noLock,
    run := fun o pk s =>
      let n := pk.fld 0 0 12
      let t := s.tenant n
      let s1 := s.storeWords (addrKey (pk.p64 1)) (tenantWords t)
      let s2 := if bitAt (pk.p 0) 12 then s1.setTenant n { t with charged := 0, nhold := 0 } else s1
      s2.finish o (Cpl.done 0 0) }

/-- One record refilled (R267). -/
def Tenant.refill (t : Tenant) : Tenant :=
  if t.limit && decide (t.bal < (t.burst : Int)) then { t with bal := min (t.burst : Int) (t.bal + (t.rate : Int)) } else t

/-- BUDGET_REFILL: every record at the root, at a tick that is a multiple of 100,000 (R267). -/
def State.refill (s : State) : State :=
  if s.isRoot = true ∧ s.now % 100000 = 0 then { s with tenants := Tab.mapVals s.tenants (fun _ t => t.refill) } else s

end Sys2Proof.Machine
end

