-- ==== Sys2Proof/Machine/Sys.lean ====
section
/-! DEFINITION. Block control: SYS.NOP, SYS.QUERY, SYS.START, SYS.DRAIN and SYS.PCAP, and how a drain ends (R361, R391, Table 17.5). -/

namespace Sys2Proof.Machine

/-- SYS.NOP. -/
def sysNopD : Desc :=
  { opcode := 0x0100, legal := allStates, scope := fun _ => .local_, accepts := false, bad := noBad [], pre := noPre, lock := noLock,
    run := fun o _ s => s.finish o (Cpl.done 0 0) }

/-- The address of the root. -/
def State.rootAddr (s : State) : Nat := ((s.orch.members.find? (fun m => decide (m.shard = s.orch.rootSh))).map (fun m => m.addr)).getD s.orch.addr

/-- SYS.QUERY. -/
def sysQueryD : Desc :=
  { opcode := 0x0101, legal := allStates, scope := fun _ => .local_, accepts := false, bad := noBad [], pre := noPre, lock := noLock,
    run := fun o _ s =>
      s.finish o (Cpl.done (w32 (blkCode s.blk + putBits (s.conf.phase % 16) 3 + putBits (s.orch.shard % 1024) 7 + putBits (s.rootAddr % 1024) 17))
        s.orch.n) }

/-- This instance enters RUN and grants credits. -/
def State.toRun (s : State) : State := { s with blk := .run, ing := { s.ing with grants := true } }

/-- Every member is marked with a block state. -/
def State.markAll (s : State) (st : Nat) : State :=
  { s with orch := { s.orch with members := s.orch.members.map (fun (m : Member) => if m.state = 5 then m else { m with state := st }) } }

/-- SYS.START: every member must be in READY. -/
def sysStartD : Desc :=
  { opcode := 0x0102, legal := [.ready], scope := fun _ => .group, accepts := false,
    bad := noBad [],
    pre := fun _ _ s =>
      if s.blk ≠ .ready ∨ s.orch.members.any (fun m => decide (m.shard ≠ s.orch.shard ∧ m.state ≠ 2)) = true then some (Cpl.of stWrongState 0) else none,
    lock := fun _ _ => some objGroup,
    run := fun o pk s =>
      match o with
      | .member => if s.blk = .ready then s.toRun.markAll 3 else s
      | _ => ((s.toRun.markAll 3).tellMembers o pk).finish o (Cpl.done 0 0) }

/-- The drain packet of one instance, as the root sends it (SYS.DRAIN with GROUP = 0). -/
def drainPkt : Pkt := { src := { port := .cpa, ring := 0 }, w0 := 0x0103, tag := 0, params := [0], kcrc := 0, readErr := false }

/-- This instance enters DRAIN: ingress grants no new credit. -/
def State.toDrain (s : State) : State := if s.blk = .run then { s with blk := .drain, ing := { s.ing with grants := false } } else s

/-- SYS.DRAIN. With GROUP the root drains itself and every other member that is not in SAFE, and waits for their completions. -/
def sysDrainD : Desc :=
  { opcode := 0x0103, legal := [.run], scope := fun pk => if bitAt (pk.p 0) 0 then .group else .local_, accepts := false,
    bad := noBad [0x1],
    pre := noPre,
    lock := fun pk _ => if bitAt (pk.p 0) 0 then some objGroup else none,
    run := fun o pk s =>
      if bitAt (pk.p 0) 0 then
        let fid := s.orch.fid
        let others := s.liveShards.filter (fun i => decide (i ≠ s.orch.shard))
        let s1 : State := { s with orch := { s.orch with fid := (fid + 1) % 2 ^ 16 } }
        let s2 := others.foldl (fun (s : State) i => s.sendTo i (.cmd (.fwd .cpa 0 fid drainPkt))) s1
        s2.toDrain.addJob { origin := o, opcode := pk.opcode, kind := .drain fid others false, lock := some objGroup }
      else if s.blk = .ready then s.finish o (Cpl.done 0 0)
      else s.toDrain.addJob { origin := o, opcode := pk.opcode, kind := .drain 0 [] false, lock := none } }

/-- Nothing is in flight on this instance: every record is issued and every punnet has retired. -/
def State.drained (s : State) : Bool :=
  s.rows.all (fun r => !r.home) && s.puns.all (fun p => p.rows.isEmpty) && s.roots.isEmpty && s.hcom.isEmpty && s.eg.queue.isEmpty

/-- A drain that has run out leaves READY; the drains that wait for nothing more end. A member tells the root (DESIGN CHOICE, log 42). -/
def State.advanceDrain (s : State) : State :=
  let s1 := if s.blk = .drain ∧ s.drained = true then
      let t : State := { s with
        blk := .ready,
        orch := { s.orch with members := s.orch.members.map (fun (m : Member) => if m.shard = s.orch.shard then { m with state := 2 } else m) } }
      if t.isRoot then t else t.sendTo t.orch.rootSh (.cmd (.ack 0 5))
    else s
  if s1.blk = .ready then
    s1.endJobs (fun j => match j.kind with
      | .drain _ [] _ => true
      | _ => false) (fun j => match j.kind with
      | .drain _ _ true => Cpl.of stFault 0x30
      | _ => Cpl.done 0 0)
  else s1

/-- A member's part of a group drain has ended, or cannot end any more. -/
def State.drainHeard (s : State) (fid : Option Nat) (sh : Nat) (bad : Bool) : State :=
  { s with jobs := s.jobs.map (fun (j : Job) => match j.kind with
      | .drain f w failed =>
        if w.contains sh = true ∧ (fid = none ∨ fid = some f) then { j with kind := .drain f (w.filter (fun x => decide (x ≠ sh))) (failed || bad) } else j
      | _ => j) }

/-- SYS.PCAP: the cap is in force from the next punnet boundary; RES0 holds the cap in force (DESIGN CHOICE, log 104). -/
def sysPcapD : Desc :=
  { opcode := 0x0106, legal := rdyRunDrn, scope := fun _ => .local_, accepts := false,
    bad := fun pk _ => firstBad [(!pk.clean [0xFF], 0), (decide (pk.fld 0 0 8 ≠ 0 ∧ (pk.fld 0 0 8 < 20 ∨ 110 < pk.fld 0 0 8)), 0)],
    pre := noPre, lock := noLock,
    run := fun o pk s => ({ s with pwr := { s.pwr with capNext := some (pk.fld 0 0 8) } }).finish o (Cpl.done (w32 (pk.fld 0 0 8)) 0) }

end Sys2Proof.Machine
end

