-- ==== Sys2Proof/Machine/Members.lean ====
section
/-! DEFINITION. The CMD, EVENT and REL messages between members of a shard group: forwarded commands and their completions, ready
reports and acknowledgements, SAFE and retention notices, the rejoin digest, time and pool events; ORCH.REJOIN; what a member that
is lost ends; the rescore lanes' check (R167, R288, R289, R293, R302, R306, R307, R318, R350, R359, R382, R399, R433). -/

namespace Sys2Proof.Machine

/-! ## A member that is lost (R28, R359, Table 14.5, Table 15.9, Table 15.10, Table 17.4) -/

/-- A member's state as this instance knows it. -/
def State.setMember (s : State) (sh st : Nat) (rej : Bool) : State :=
  { s with orch := { s.orch with members := s.orch.members.map (fun (m : Member) =>
      if m.shard = sh then { m with state := st, rejoin := m.rejoin || rej } else m) } }

/-- Loads and variant loads that wait for a report, at the root, as head set and slot. -/
def State.openLoads (s : State) : List (Nat × Nat) := s.jobs.filterMap (fun j => match j.kind with
  | .load h k => some (h, k)
  | _ => none)
def State.openVloads (s : State) : List (Nat × Nat) := (s.jobs.filterMap (fun j => match j.kind with
  | .vload h k _ => some (h, k)
  | _ => none)).dedup

/-- What a member in SAFE, or out of reach, ends here: barrier rounds, signals aimed at it, loads (R288); at the root, also a group drain's and a
rejoin's wait for it, and rows that wait for its re-score. -/
def State.memberGone (s : State) (sh : Nat) : State :=
  let s1 := s.barAbortAll.signalsGone sh
  if s1.isRoot then
    let s2 := s1.openLoads.foldl (fun (s : State) x => s.failLoad x.1 x.2 0x14) s1
    let s3 := s2.openVloads.foldl (fun (s : State) x => s.failVload x.1 x.2 0x14) s2
    let s4 := (s3.drainHeard none sh true).endJobs (fun j => decide (j.kind = JobKind.rejoin (some sh))) (fun _ => Cpl.of stFault 0x30)
    s4.rootShardSafe sh
  else { s1 with conf := { s1.conf with banks := unloaded s1.conf.banks } }

/-- A SAFE notice (R399): the member is marked, and what waited for it ends. The root tells every other member; the root's own starts
rediscovery (R306) (DESIGN CHOICE, log 59). -/
def State.onSafe (s : State) (h : Hdr) (cause : Nat) (tick : Word) : State :=
  if s.orch.members.any (fun m => decide (m.shard = h.src ∧ m.state = 5)) = true ∨ h.src = s.orch.shard then s
  else
    let s1 := (s.setMember h.src 5 false).memberGone h.src
    if s1.isRoot then
      if h.bcast then s1 else s1.bcastOthers { hdr := { h with bcast := true, dst := 0, hops := h.hops + 1 }, body := .event (.safe cause tick) }
    else if h.src = s1.orch.rootSh ∧ s1.orch.member = true ∧ s1.orch.disc = 0 then s1.startDisc 2
    else s1

/-- Rediscovery settles: members that it did not reach are lost to this instance, and signals aimed at one that was reset are abandoned (R302, R306,
Table 15.10). -/
def State.settledAll (s : State) : State :=
  let s1 := s.settled
  let gone := (s1.orch.members.filter (fun (m : Member) => decide (m.state = 5 ∧ m.shard ≠ s1.orch.shard) &&
    s.orch.members.any (fun x => decide (x.shard = m.shard ∧ x.state ≠ 5)))).map (fun m => m.shard)
  let reset := (s1.orch.members.filter (fun (m : Member) => decide (m.state ≠ 3) &&
    s.orch.members.any (fun x => decide (x.shard = m.shard ∧ x.state = 3)))).map (fun m => m.shard)
  if s.orch.disc = 2 then reset.foldl (fun (s : State) sh => s.signalsGone sh) (gone.foldl (fun (s : State) sh => s.memberGone sh) s1) else s1

/-! ## ORCH.REJOIN (R307) -/

/-- The shard of the instance that issued a command. -/
def State.issuer (s : State) : Origin → Nat
  | .fwd sh _ _ _ => sh
  | _ => s.orch.shard

/-- Current generations of tables and profile objects, with a standby present; objects at their first state are not listed. -/
def State.generations (s : State) : Tab (Nat × Bool) :=
  (s.conf.tables.map (fun (e : Nat × TblObj) => (e.1, ((e.2.cur.map (fun g => g.num)).getD 0, (TblObj.standby e.2).isSome)))
    ++ s.conf.profs.map (fun (e : Nat × ProfObj) => (swapProf e.1, (e.2.gen, e.2.stby.isSome)))).filter (fun e => decide (e.2 ≠ (0, false)))

/-- The digest for a member: the slots with that member's own CRCs. -/
def State.digest (s : State) (sh : Nat) : DigestB :=
  { nextPunnet := s.asm.next, phase := s.conf.phase, tseq := s.conf.tseq,
    slots := allSlots.map (fun x =>
      let b := s.bank x.1 x.2
      { s.slotEntry x.1 x.2 with crc := if sh = s.orch.shard then b.crc else ((b.reports.find? (fun r => r.1 = sh)).map (fun r => r.2.crc)).getD 0 }),
    tables := s.generations }

/-- Bank states by their code (R369). -/
def bankOf : Nat → BankSt
  | 1 => .loading
  | 2 => .ready
  | 3 => .active
  | 4 => .retained
  | 5 => .reference
  | 6 => .draining
  | _ => .empty

/-- A slot that the digest names is resident here: its epoch and form agree, and its codes give the digest's CRC. A load that runs at
the root is none of this instance's. -/
def State.slotMatches (s : State) (h k : Nat) (e : SlotEntB) : Bool :=
  let b := s.bank h k
  decide (e.state = 0 ∨ e.state = 1)
    || (decide (b.st ≠ .empty ∧ b.st ≠ .loading ∧ b.epoch = e.epoch ∧ b.use = e.use ∧ b.fmt = e.fmt ∧ b.crc = e.crc)
        && decide (s.bankCrc h k = e.crc))

/-- Two lists of generations name the same. -/
def sameGens (a b : Tab (Nat × Bool)) : Bool := a.all (fun e => b.contains e) && b.all (fun e => a.contains e)

/-- The check of R307 (DEDUCED, log 60) (DEDUCED, log 61). -/
def State.digestOk (s : State) (d : DigestB) : Bool :=
  allSlots.all (fun x => match d.slots[4 * x.1 + x.2]? with
    | some e => s.slotMatches x.1 x.2 e
    | none => false) && sameGens s.generations d.tables

/-- The digest's states taken over: this instance runs from the next punnet, with the rejoined mark. -/
def State.adopt (s : State) (d : DigestB) : State :=
  let s1 := allSlots.foldl (fun (s : State) x =>
    let e := d.slots.getD (4 * x.1 + x.2) { state := 0, use := 0, fmt := 0, epoch := 0, pins := 0, outl := 0, crc := 0 }
    let b := s.bank x.1 x.2
    s.setBank x.1 x.2 (if e.state = 0 ∨ e.state = 1 then b.emptied else { b with st := bankOf e.state, outl := e.outl })) s
  let s1 := s1.conf.due.foldl (fun (s : State) e => s.putSet e.2.1 e.2.2) s1
  let s2 : State := { s1 with
    conf := { s1.conf with phase := d.phase, tseq := d.tseq, pend := none, due := [], swaps := d.tables.map (fun (e : Nat × (Nat × Bool)) => (d.tseq, e.1, e.2.1)) },
    asm := { s1.asm with next := d.nextPunnet } }
  ((s2.toRun).setMember s2.orch.shard 3 true).timeRequest

/-- The root hears how a rejoin check ended (DESIGN CHOICE, log 42); an instance that rejoins has no part in punnets closed before. -/
def State.rejoined (s : State) (sh : Nat) (ok : Bool) : State :=
  let s1 : State := if ok then { s.setMember sh 3 true with puns := s.puns.map (fun (p : Punnet) => { p with acks := sh :: p.acks }) } else s
  s1.endJobs (fun j => decide (j.kind = JobKind.rejoin (some sh))) (fun _ => if ok then Cpl.done 0 0 else Cpl.of stFault 0)

/-- A digest at the instance that rejoins. -/
def State.onDigest (s : State) (d : DigestB) : State :=
  if s.blk ≠ .ready then s
  else
    let ok := s.digestOk d
    let s1 := if ok then s.adopt d else s
    if s1.isRoot then s1.rejoined s1.orch.shard ok else s1.sendTo s1.orch.rootSh (.cmd (.ack 0 (if ok then 4 else 6)))

/-- ORCH.REJOIN: the root's digest goes out once no switch runs (Table 15.11) (DESIGN CHOICE, log 62). -/
def orchRejoinD : Desc :=
  { opcode := 0x0902, legal := [.ready], scope := fun _ => .group, accepts := false,
    bad := noBad [],
    pre := fun o _ s =>
      if s.orch.member = false ∨ s.orch.members.any (fun m => decide (m.shard = s.issuer o)) = false then some (Cpl.of stWrongState 0) else none,
    lock := fun _ _ => some objGroup,
    run := fun o pk s => match o with
      | .member => s
      | _ => s.addJob { origin := o, opcode := pk.opcode, kind := .rejoin none, lock := some objGroup } }

/-- Rejoins that wait for a switch get their digest when none runs. -/
def State.advanceRejoin (s : State) : State :=
  if s.jobs.any (fun j => match j.kind with
      | .switch _ _ .deferred => false
      | .switch _ _ _ => true
      | _ => false) then s
  else
    let due := (s.jobs.filter (fun j => decide (j.kind = JobKind.rejoin none))).map (fun j => s.issuer j.origin)
    let s1 : State := { s with jobs := s.jobs.map (fun (j : Job) =>
      if j.kind = JobKind.rejoin none then { j with kind := .rejoin (some (s.issuer j.origin)) } else j) }
    due.foldl (fun (s : State) sh =>
      if sh = s.orch.shard then s.onDigest (s.digest sh) else s.sendTo sh (.event (.digest (s.digest sh)))) s1

/-! ## CMD (R350, R359, Table 15.14) -/

/-- Every command of the command reference. -/
def descs : List Desc :=
  [sysNopD, sysQueryD, sysStartD, sysDrainD, sysSaveD, sysRestoreD, sysPcapD, cfgSetD, cfgPhaseD, cfgRegionD, cfgRingD, cfgHeadsetD, cfgSlotD,
   profWriteD, profSwapD, profReadD, tblLoadD, tblSwapD, tblFreeD, tblQueryD, epochLoadD, epochSwitchD, epochRefsetD, epochDropD,
   epochVloadD, epochVfreeD, epochQueryD, reqOpenD, reqCloseD, reqCancelD, reqParkD, reqResumeD, reqReleaseD, reqQueryD, tenSetD, tenQueryD,
   syncAllocD, syncFreeD, syncSetD, syncAddD, syncReadD, syncWaitD, syncSignalD, syncBarrierD, syncSemacqD, syncSemrelD,
   orchConfigD, orchDiscoverD, orchRejoinD, orchQueryD, diagInjectD, diagSelftestD, diagSnapD, diagTraceD,
   repairLoadD, repairCommitD, repairQueryD, repairCalD, dumpConfigD, dumpStatusD, dumpTakeD, dumpAckD]

/-- The command of an opcode. -/
def descOf (op : Nat) : Option Desc := descs.find? (fun d => d.opcode = op)

/-- A forwarded command's packet at the instance it was sent to: serialised here, or a copy of one serialised elsewhere
(DEDUCED, log 68). -/
def State.onForward (s : State) (h : Hdr) (port : PortId) (ring fid : Nat) (pk : Pkt) : State :=
  match descOf pk.opcode.toNat with
  | none => s
  | some d =>
    if h.bcast = true ∨ s.serialiser d pk ≠ s.orch.shard then 
      if s.blk = .safe then s
      else if pk.opcode = 0x0200 then { s with conf := { s.conf with due := s.conf.due ++ [(h.punnet, pk.fld 0 0 4, setOf pk)] } }
      else takeMember d pk s
    else takeForwarded d h.src port ring fid pk s

/-- A completion that came back: that of a forwarded command, or of a member's part of a group drain. -/
def State.onCompletion (s : State) (h : Hdr) (fid : Nat) (c : CplB) : State :=
  let r : Cpl := { status := c.status, res0 := c.res0, res1 := c.res1.toNat, detail := c.detail }
  if c.final = false then
    (s.jobs.filter (fun j => decide (j.kind = JobKind.forward fid))).foldl (fun (s : State) j => s.complete j.origin false r) s
  else
    let s1 := s.endJobs (fun j => decide (j.kind = JobKind.forward fid)) (fun _ => r)
    if s1.jobs.any (fun j => match j.kind with
        | .drain f w _ => decide (f = fid) && w.contains h.src
        | _ => false) then (s1.drainHeard (some fid) h.src (decide (c.status ≠ stDone))).setMember h.src 2 false
    else s1

/-- An acknowledgement (Table 15.14, CKIND 3): 1 a close, 2 a variant, 4 and 6 a rejoin check, 5 a member drained; 7 and 9 room for a bank part and
for a variant, and from the root the start of the load; 8 from the root, a slot that leaves its state; 10 the records of a punnet's rows homed at a
member are issued; 11 a request enters HOLD; 12 a charge that a home gives back; 13 a COUNT part lost; 14 and 15 room in T2 for a request that parks:
asked by the home, then answered; from 64 on a table whose generation has vanished (DESIGN CHOICE, log 41, DESIGN CHOICE, log 42). -/
def State.onAck (s : State) (h : Hdr) (n subject : Nat) : State :=
  match subject with
  | 1 => if s.isRoot then s.gotAck n h.src else s
  | 2 =>
    let hs := n / 64 / 4
    let k := n / 64 % 4
    if h.bcast then s.memberVariant hs k (n % 64) else if s.isRoot then s.rootVariant hs k (n % 64) h.src else s
  | 4 => if s.isRoot then s.rejoined h.src true else s
  | 5 => s.setMember h.src 2 false
  | 6 => if s.isRoot then s.rejoined h.src false else s
  | 7 => if h.bcast then s.loadStarts (n / 4 % 4) (n % 4) else if s.isRoot then s.roomSaid (n / 4 % 4) (n % 4) h.src else s
  | 8 => if h.bcast then s.setVacate (n / 4 % 4) (n % 4) else s
  | 9 => if h.bcast then s.varStarts (n / 64 / 4 % 4) (n / 64 % 4) (n % 64)
      else if s.isRoot then s.varRoomSaid (n / 64 / 4 % 4) (n / 64 % 4) (n % 64) h.src else s
  | 11 => if h.bcast then s.holdHere n else if s.isRoot then s.holdSaid n else s
  | 13 => s.setCtx n { s.ctx n with farLost := true }
  | 14 => if s.isHome n then s.parkSaid n h.src true else s.parkAsked n
  | 15 => if s.isHome n then s.parkSaid n h.src false else s
  | 12 => if s.isRoot then s.uncharge n 1 else s
  | 10 => if s.isRoot then s.updPun n (fun p => { p with acks := h.src :: p.acks }) else s
  | _ => if 64 ≤ subject then s.vanishSaid (subject - 64) n else s

/-- CMD at its destination. In SAFE only a forwarded command is answered, by its refusal (R359). -/
def State.onCmd (s : State) (h : Hdr) (b : CmdB) : State :=
  if s.forMe h = false then s.passOn h (.cmd b)
  else
    let s1 := if h.bcast then s.passOn h (.cmd b) else s
    match b with
    | .fwd port ring fid pk => s1.onForward h port ring fid pk
    | .cpl _ _ fid c => s1.onCompletion h fid c
    | .ready r => if s1.blk = .safe then s1 else if h.bcast then s1.memberReady r else if s1.isRoot then s1.rootReady h.src r else s1
    | .ack n subject => if s1.blk = .safe then s1 else s1.onAck h n subject
    | .counts k l lost => if s1.blk = .safe then s1 else s1.takeCounts k l lost
    | .settle k kind cause => if s1.blk = .safe then s1 else s1.settleHere k kind cause

/-! ## EVENT (Table 15.14) -/

/-- A peer that has sent its retention notice is asleep: its link is not timed (R390) (DESIGN CHOICE, log 63). -/
def State.onRetention (s : State) (sh : Nat) : State :=
  match s.orch.members.find? (fun m => m.shard = sh) with
  | none => s
  | some m => { s with orch := { s.orch with links := Tab.mapVals s.orch.links (fun _ l =>
      if l.st = 2 ∧ l.peer = m.addr then { l with asleep := true } else l) } }

/-- EVENT at an instance. A notice that is broadcast goes on down the tree; in SAFE nothing else is done with it (R327). -/
def State.onEvent (s : State) (h : Hdr) (b : EventB) : State :=
  if s.forMe h = false then s.passOn h (.event b)
  else
    let s1 := if h.bcast && decide (b ≠ .retention) then s.passOn h (.event b) else s
    if s1.blk = .safe then s1
    else match b with
      | .safe cause tick => s1.onSafe h cause tick
      | .digest d => s1.onDigest d
      | .epoch _ _ _ => s1
      | .retention => s1.onRetention h.src
      | .timeReq sent => s1.sendTo h.src (.event (.timeReply sent s1.time.tclk s1.time.tclk))
      | .timeReply sent receipt reply => s1.timeReplied sent receipt reply
      | .pool t1 t2 free hwm =>
        { s1 with pool := { s1.pool with t1 := t1.toNat, t2 := t2.toNat, free := free.toNat, hwm := hwm.toNat } }

/-- POOL_UPDATE: the root's counters go into force at the root and to every member (R433, Table 21.13) (DESIGN CHOICE, log 67). -/
def State.poolUpdate (s : State) : State :=
  if s.isRoot then
    let p := s.poolNow
    let s1 : State := { s with pool := p }
    s1.bcastOthers { hdr := s1.hdr 0 true 0 0 0 noHandle, body := .event (.pool (w32 p.t1) (w32 p.t2) (w32 p.free) (w32 p.hwm)) }
  else s

/-! ## REL, and timers -/

/-- REL: the round ends at this node, and a switch that waited for it goes on (R289, R318). -/
def State.onRel (s : State) (h : Hdr) (n tag : Nat) : State :=
  let s1 := (s.passOn h (.rel n tag)).barRelease n tag
  if n < 4 then s1.switchReleased n else s1

/-- A forwarded command that was not answered in LINKTO ticks (R359). -/
def State.forwardGone (s : State) (fid : Nat) : State :=
  let s1 := s.endJobs (fun j => decide (j.kind = JobKind.forward fid)) (fun _ => Cpl.of stFault 0x30)
  s1

/-- One failed lane of the rescore check: the rows whose replies it may have formed are those in flight that have asked for one here, and
for the acceptance unit the VERIFY rows at the root; the unit is replaced at the next boundary, or with no spare the fault is
fatal (R167, Table 7.4) (DESIGN CHOICE, log 66). -/
def State.katFail (s : State) (u : Unit') : State :=
  let hit := fun (p : Punnet) (r : PRow) =>
    if u.kind = 5 then s.isRoot && decide (r.key.cls = clVerify)
    else s.rescore.any (fun q => decide (q.hdr.punnet = p.num ∧ q.hdr.rslot = r.slot)) || decide (0 < p.sent)
  let due := s.puns.flatMap (fun p => (p.rows.filter (fun r => hit p r && !r.exited)).map (fun r => (p.num, r.slot)))
  let s1 := due.foldl (fun (s : State) x => s.doubtAt x.1 (some x.2) 0x16) s
  let s2 := s1.contained 0x16 { Site.none with unit := u.index }
  match s2.freeSpare u.kind u.sram with
  | some _ => s2.scheduleRepair u
  | none => s2.fatal 0x42 { Site.none with unit := u.index }

/-- RESCORE_KAT_TIMER: every 4,096 ticks while in RUN. -/
def State.rescoreKat (s : State) (failed : List Unit') : State :=
  if s.blk ≠ .run then s
  else failed.foldl (fun (s : State) u => if (u.kind = 4 ∨ u.kind = 5) ∧ s.blk = .run then s.katFail u else s) s

end Sys2Proof.Machine
end

