-- ==== Sys2Proof/Machine/Advance.lean ====
section
/-! DEFINITION. What the block does of itself once a command has had its effect: doubted rows are voided, punnets retire, long commands
go on, the root assembles, credits are granted and records issued (R18 to R24, R54, R289, R315, R361, R406). -/

namespace Sys2Proof.Machine

/-- A row that carries doubt at the root gets VOID; in certification that is a doubt exit (R315, Table 5.4). -/
def State.voidDoubt (s : State) (num slot : Nat) : State :=
  match s.root num slot with
  | none => s
  | some r => match r.cause, r.stage with
    | none, _ => s
    | some c, .loop _ => s.doubtExit r c
    | some c, .targets _ _ _ _ _ => s.doubtExit r c
    | some c, _ => s.doubtVoid r c

/-- Every row at the root that carries doubt. -/
def State.voidDoubts (s : State) : State :=
  ((s.roots.filter (fun r => r.cause.isSome)).map (fun r => (r.punnet, r.rslot))).foldl (fun (s : State) x => s.voidDoubt x.1 x.2) s

/-- An armed injection of an uncorrectable error in control-core memory fires (Table 19.6). -/
def State.injectCore (s : State) : State :=
  if (s.armed 0x10).isSome then (s.fire 0x10).fatal 0x41 { Site.none with inj := true } else s

/-- Long commands go on (R256, R289, R290, R293, R307, R361, R370). -/
def State.advanceJobs (s : State) : State :=
  (((((s.closeCancelled).advanceDrain).advanceSwitches).advanceVfree).advanceOpens).advanceRejoin

/-- What follows a command. In quarantine, and where no firmware serves the block, only records in hand go out (DESIGN CHOICE, log 116). -/
def State.after (s : State) : State :=
  if s.pwr.clkFail then s
  else if s.live = false then s.pump
  else if s.blk = .ready ∨ s.blk = .run ∨ s.blk = .drain then
    let s1 := s.injectCore
    if s1.blk = .safe then (s1.grantCredits).pump
    else
      let s2 := (((s1.voidDoubts).retireDone).advanceJobs).assemble
      ((((s2.retireDone).feed).rescoreGo).grantCredits).pump
  else (s.grantCredits).pump

/-- A command that the working block takes: its effect, and what follows. -/
def workStep (act : State → State) (s : State) : State := if s.working then (act s).after else s

/-- A message of a row, at a block that works; SAFE forwards none (R327). One that stood in `loop` leaves it. -/
def rowStep (h : Hdr) (b : Body) (act : State → State) (s : State) : State :=
  if s.working = false then s
  else
    let m : Msg := { hdr := h, body := b }
    let s1 := act s
    (if s.orch.loop.contains m then s1.arrive m else s1).after

/-- A message on CTL: passed on even in BOOT and SELFTEST; a parity error or a worn-out header is an Orchard error and the message is
discarded (R309, R315, R327) (DEDUCED, log 64). -/
def ctlStep (h : Hdr) (b : Body) (act : State → State) (s : State) : State :=
  if s.live = false then s
  else ctlSound h (fun s =>
    if s.starting then s.passOn h b
    else
      let m : Msg := { hdr := h, body := b }
      let s1 := act s
      (if s.orch.loop.contains m then s1.arrive m else s1).after) s

end Sys2Proof.Machine
end

