-- ==== Sys2Proof/Machine/Rows.lean ====
section
/-! DEFINITION. The meanings of the commands of the data path, of the messages between instances, and of the packets whose commands may
set the block going: each is a shared operation followed by what the block then does of itself. -/

namespace Sys2Proof.Machine

/-- A packet taken, and what follows. -/
def packetStep (d : Desc) (pk : Pkt) (s : State) : State := (takePacket d pk s).after

/-! ## Packets -/

/-- SYS.NOP. -/
def execSysNop (pk : Pkt) (s : State) : Host.Outcome State Fault Refusal := .next (packetStep sysNopD pk s)

/-- SYS.QUERY. -/
def execSysQuery (pk : Pkt) (s : State) : Host.Outcome State Fault Refusal := .next (packetStep sysQueryD pk s)

/-- SYS.START. -/
def execSysStart (pk : Pkt) (s : State) : Host.Outcome State Fault Refusal := .next (packetStep sysStartD pk s)

/-- SYS.DRAIN. -/
def execSysDrain (pk : Pkt) (s : State) : Host.Outcome State Fault Refusal := .next (packetStep sysDrainD pk s)

/-- SYS.SAVE. -/
def execSysSave (pk : Pkt) (s : State) : Host.Outcome State Fault Refusal := .next (packetStep sysSaveD pk s)

/-- SYS.RESTORE. -/
def execSysRestore (pk : Pkt) (s : State) : Host.Outcome State Fault Refusal := .next (packetStep sysRestoreD pk s)

/-- SYS.PCAP. -/
def execSysPcap (pk : Pkt) (s : State) : Host.Outcome State Fault Refusal := .next (packetStep sysPcapD pk s)

/-- CFG.SET. -/
def execCfgSet (pk : Pkt) (s : State) : Host.Outcome State Fault Refusal := .next (packetStep cfgSetD pk s)

/-- CFG.PHASE. -/
def execCfgPhase (pk : Pkt) (s : State) : Host.Outcome State Fault Refusal := .next (packetStep cfgPhaseD pk s)

/-- CFG.REGION. -/
def execCfgRegion (pk : Pkt) (s : State) : Host.Outcome State Fault Refusal := .next (packetStep cfgRegionD pk s)

/-- CFG.RING. -/
def execCfgRing (pk : Pkt) (s : State) : Host.Outcome State Fault Refusal := .next (packetStep cfgRingD pk s)

/-- CFG.HEADSET. -/
def execCfgHeadset (pk : Pkt) (s : State) : Host.Outcome State Fault Refusal := .next (packetStep cfgHeadsetD pk s)

/-- CFG.SLOT. -/
def execCfgSlot (pk : Pkt) (s : State) : Host.Outcome State Fault Refusal := .next (packetStep cfgSlotD pk s)

/-- EPOCH.LOAD. -/
def execEpochLoad (pk : Pkt) (s : State) : Host.Outcome State Fault Refusal := .next (packetStep epochLoadD pk s)

/-- EPOCH.SWITCH. -/
def execEpochSwitch (pk : Pkt) (s : State) : Host.Outcome State Fault Refusal := .next (packetStep epochSwitchD pk s)

/-- EPOCH.REFSET. -/
def execEpochRefset (pk : Pkt) (s : State) : Host.Outcome State Fault Refusal := .next (packetStep epochRefsetD pk s)

/-- EPOCH.DROP. -/
def execEpochDrop (pk : Pkt) (s : State) : Host.Outcome State Fault Refusal := .next (packetStep epochDropD pk s)

/-- EPOCH.VLOAD. -/
def execEpochVload (pk : Pkt) (s : State) : Host.Outcome State Fault Refusal := .next (packetStep epochVloadD pk s)

/-- EPOCH.VFREE. -/
def execEpochVfree (pk : Pkt) (s : State) : Host.Outcome State Fault Refusal := .next (packetStep epochVfreeD pk s)

/-- EPOCH.QUERY. -/
def execEpochQuery (pk : Pkt) (s : State) : Host.Outcome State Fault Refusal := .next (packetStep epochQueryD pk s)

/-- REQ.OPEN. -/
def execReqOpen (pk : Pkt) (s : State) : Host.Outcome State Fault Refusal := .next (packetStep reqOpenD pk s)

/-- REQ.CLOSE. -/
def execReqClose (pk : Pkt) (s : State) : Host.Outcome State Fault Refusal := .next (packetStep reqCloseD pk s)

/-- REQ.CANCEL. -/
def execReqCancel (pk : Pkt) (s : State) : Host.Outcome State Fault Refusal := .next (packetStep reqCancelD pk s)

/-- REQ.PARK. -/
def execReqPark (pk : Pkt) (s : State) : Host.Outcome State Fault Refusal := .next (packetStep reqParkD pk s)

/-- REQ.RESUME. -/
def execReqResume (pk : Pkt) (s : State) : Host.Outcome State Fault Refusal := .next (packetStep reqResumeD pk s)

/-- REQ.RELEASE. -/
def execReqRelease (pk : Pkt) (s : State) : Host.Outcome State Fault Refusal := .next (packetStep reqReleaseD pk s)

/-- REQ.QUERY. -/
def execReqQuery (pk : Pkt) (s : State) : Host.Outcome State Fault Refusal := .next (packetStep reqQueryD pk s)

/-- TEN.SET. -/
def execTenSet (pk : Pkt) (s : State) : Host.Outcome State Fault Refusal := .next (packetStep tenSetD pk s)

/-- TEN.QUERY. -/
def execTenQuery (pk : Pkt) (s : State) : Host.Outcome State Fault Refusal := .next (packetStep tenQueryD pk s)

/-- ORCH.REJOIN. -/
def execOrchRejoin (pk : Pkt) (s : State) : Host.Outcome State Fault Refusal := .next (packetStep orchRejoinD pk s)

/-! ## Stream ports and TEG -/

/-- RDESC_ACCEPT (R37, R38, R51). Descriptors are taken wherever firmware has been reached, and in SAFE by hardware (R400). -/
def execRdescAccept (p : StreamPort) (beat : List Word) (last : Bool) (s : State) : Host.Outcome State Fault Refusal :=
  .next (if s.live && decide (s.blk = .ready ∨ s.blk = .run ∨ s.blk = .drain ∨ s.blk = .safe) then (s.rdescBeat p beat last).after else s)

/-- PAYLOAD_END (R51). -/
def execPayloadEnd (p : StreamPort) (beats : Nat) (elems : List Word) (ecc : Ecc) (s : State) : Host.Outcome State Fault Refusal :=
  .next (if s.live && decide (s.blk = .ready ∨ s.blk = .run ∨ s.blk = .drain ∨ s.blk = .safe) then (s.payload p beats elems ecc).after else s)

/-- TEG_ACK (R52, R398): record writes in hand are completed in every state that has a clock, quarantine included (R385). -/
def execTegAck (tag : Nat) (err : Bool) (s : State) : Host.Outcome State Fault Refusal :=
  .next (if s.pwr.clkFail ∨ s.pwr.cur ≤ 1 then s else (s.teg tag err).after)

/-- TEG_FABRIC_CREDIT (R52). -/
def execTegFabricCredit (n : Nat) (s : State) : Host.Outcome State Fault Refusal :=
  .next (if s.pwr.clkFail ∨ s.pwr.cur ≤ 1 then s else (s.fabricCredit n).after)

/-- TEG_RING_CREDIT (R52). -/
def execTegRingCredit (ring n : Nat) (s : State) : Host.Outcome State Fault Refusal :=
  .next (if s.pwr.clkFail ∨ s.pwr.cur ≤ 1 then s else (s.ringCredit ring n).after)

/-! ## The assembler -/

/-- ADMIT (R53, R310). -/
def execAdmit (h : Hdr) (b : AdmitB) (s : State) : Host.Outcome State Fault Refusal :=
  .next (rowStep h (.admitMsg b) (fun s => s.onAdmit h b) s)

/-- COPY_SKEW_EXPIRY (R53, R55). -/
def execCopySkewExpiry (key : RowKey) (s : State) : Host.Outcome State Fault Refusal :=
  .next (workStep (fun s => (s.dropStray key).skewExpired key) s)

/-- GATHER_WINDOW_EXPIRY (R54): the assembler looks at the clock. -/
def execGatherWindowExpiry (s : State) : Host.Outcome State Fault Refusal :=
  .next (workStep (fun s => s) s)

/-- CLOSE_MARGIN_REACHED (R54, R261): the assembler looks at the clock. -/
def execCloseMarginReached (s : State) : Host.Outcome State Fault Refusal :=
  .next (workStep (fun s => s) s)

/-- CLOSE (R313). -/
def execClose (h : Hdr) (b : CloseB) (s : State) : Host.Outcome State Fault Refusal :=
  .next (rowStep h (.close b) (fun s => s.onClose h b) s)

/-! ## Rows in flight -/

/-- PART_FETCH_DONE (R238, R246, R247, R249, R252): a history that arrives brings the ban lists it was wanted for. -/
def execPartFetchDone (handle : Handle) (part : Part) (ecc : Ecc) (s : State) : Host.Outcome State Fault Refusal :=
  .next (workStep (fun s => (s.partFetched handle part ecc).lateBans handle.slot) s)

/-- PRELUDE_DONE (R87 to R90, R249). -/
def execPreludeDone (punnet : Nat) (ecc : List (Nat × Ecc)) (s : State) : Host.Outcome State Fault Refusal :=
  .next (workStep (fun s => s.preludeDone punnet ecc) s)

/-- WEIGHT_SEGMENT_LOADED (R97, R98). -/
def execWeightSegmentLoaded (punnet pass : Nat) (tile : TileRef) (seg : Nat) (ecc : Ecc) (s : State) : Host.Outcome State Fault Refusal :=
  .next (workStep (fun s => s.segment punnet pass tile seg ecc) s)

/-- TILE_PROJECTED (R92 to R102, R110). -/
def execTileProjected (punnet pass : Nat) (done : TileEnd) (s : State) : Host.Outcome State Fault Refusal :=
  .next (workStep (fun s => s.project punnet pass done.tile done.ecc) s)

/-- SELECTION_TILE_CLOSED (R131 to R148). -/
def execSelectionTileClosed (punnet pass : Nat) (tile : TileRef) (s : State) : Host.Outcome State Fault Refusal :=
  .next (workStep (fun s => s.closeTile punnet pass tile) s)

/-- AUX_HEAD_DONE (R106, R107). -/
def execAuxHeadDone (punnet rslot : Nat) (reward : Bool) (s : State) : Host.Outcome State Fault Refusal :=
  .next (workStep (fun s => s.auxDone punnet rslot reward) s)

/-- STAT (R148, R311). -/
def execStat (h : Hdr) (b : StatB) (s : State) : Host.Outcome State Fault Refusal :=
  .next (rowStep h (.stat b) (fun s => s.onStat h b) s)

/-- CAND (R148, R312). -/
def execCand (h : Hdr) (b : List CandRec) (s : State) : Host.Outcome State Fault Refusal :=
  .next (rowStep h (.cand b) (fun s => s.onCand h b) s)

/-- WIN (R148, R312). -/
def execWin (h : Hdr) (b : WinB) (s : State) : Host.Outcome State Fault Refusal :=
  .next (rowStep h (.win b) (fun s => s.onWin h b) s)

/-- TOPM (R148, R312). -/
def execTopm (h : Hdr) (b : List (Nat × F32)) (s : State) : Host.Outcome State Fault Refusal :=
  .next (rowStep h (.topm b) (fun s => s.onTopm h b) s)

/-- TGT (R148, R312). -/
def execTgt (h : Hdr) (b : Option CandRec) (s : State) : Host.Outcome State Fault Refusal :=
  .next (rowStep h (.tgt b) (fun s => s.onTgt h b) s)

/-- THRESH (R150). -/
def execThresh (h : Hdr) (b : ThreshB) (s : State) : Host.Outcome State Fault Refusal :=
  .next (rowStep h (.thresh b) (fun s => s.onThresh h b) s)

/-- RSQ (R122). -/
def execRsq (h : Hdr) (b : RsqB) (s : State) : Host.Outcome State Fault Refusal :=
  .next (rowStep h (.rsq b) (fun s => s.onRsq h b) s)

/-- RESCORE_DONE (R120, R122). -/
def execRescoreDone (punnet rslot pass id : Nat) (ecc : Ecc) (s : State) : Host.Outcome State Fault Refusal :=
  .next (workStep (fun s => s.rescored punnet rslot pass id ecc) s)

/-- RSP (R120, R122). -/
def execRsp (h : Hdr) (b : RspB) (s : State) : Host.Outcome State Fault Refusal :=
  .next (rowStep h (.rsp b) (fun s => s.onRsp h b) s)

/-- CERT_CUTOFF (R123). -/
def execCertCutoff (punnet rslot : Nat) (s : State) : Host.Outcome State Fault Refusal :=
  .next (workStep (fun s => s.certCutoff punnet rslot) s)

/-- COMMIT (R314, R316). -/
def execCommit (h : Hdr) (b : CommitB) (s : State) : Host.Outcome State Fault Refusal :=
  .next (rowStep h (.commit b) (fun s => s.onCommit h b) s)

/-- LKUP (R182). -/
def execLkup (h : Hdr) (b : LkupB) (s : State) : Host.Outcome State Fault Refusal :=
  .next (rowStep h (.lkup b) (fun s => s.onLkup h b) s)

/-- AUX (R107). -/
def execAux (h : Hdr) (b : AuxB) (s : State) : Host.Outcome State Fault Refusal :=
  .next (rowStep h (.aux b) (fun s => s.onAux h b) s)

/-- SIDE (R138, R177, R202, R250). -/
def execSide (h : Hdr) (b : SideB) (s : State) : Host.Outcome State Fault Refusal :=
  .next (rowStep h (.side b) (fun s => s.onSide h b) s)

/-- CANCEL (R271); one that breaks sequence by its header, or that a parity error touches, is discarded (R315). -/
def execCancel (h : Hdr) (k : W64) (s : State) : Host.Outcome State Fault Refusal :=
  .next (rowStep h (.cancel k) (fun s => ctlSound h (fun s => s.onCancel h k) s) s)

/-- DEADLINE_REACHED (R22, R23): the home writes the fallback record, the root lets the row go. -/
def execDeadlineReached (key : RowKey) (s : State) : Host.Outcome State Fault Refusal :=
  .next (workStep (fun s => ((s.deadlineHere key).rootDeadline key).asmDeadline key) s)

/-! ## Timers and engines -/

/-- BUDGET_REFILL (R267). -/
def execBudgetRefill (s : State) : Host.Outcome State Fault Refusal :=
  .next (workStep (fun s => s.refill) s)

/-- REQUANT_PART_DONE (R285, R288, R293). -/
def execRequantPartDone (hset slot : Nat) (variant : Option Nat) (err : LoadErr) (s : State) : Host.Outcome State Fault Refusal :=
  .next (workStep (fun s => s.requantDone hset slot variant err) s)

/-- RESCORE_KAT_TIMER (R167). -/
def execRescoreKatTimer (failed : List Unit') (s : State) : Host.Outcome State Fault Refusal :=
  .next (workStep (fun s => s.rescoreKat failed) s)

/-- FORWARD_TIMEOUT (R359). -/
def execForwardTimeout (fid : Nat) (s : State) : Host.Outcome State Fault Refusal :=
  .next (if s.live then (s.forwardGone fid).after else s)

/-- POOL_UPDATE (R241, R433). -/
def execPoolUpdate (s : State) : Host.Outcome State Fault Refusal :=
  .next (workStep (fun s => s.poolUpdate) s)

/-- DISCOVERY_SETTLED (R304, R306). -/
def execDiscoverySettled (s : State) : Host.Outcome State Fault Refusal :=
  .next (if s.live then (s.settledAll).after else s)

/-! ## CTL messages -/

/-- REL (R318). -/
def execRel (h : Hdr) (barrier tag : Nat) (s : State) : Host.Outcome State Fault Refusal :=
  .next (ctlStep h (.rel barrier tag) (fun s => s.onRel h barrier tag) s)

/-- CMD (R350, R359). -/
def execCmd (h : Hdr) (b : CmdB) (s : State) : Host.Outcome State Fault Refusal :=
  .next (ctlStep h (.cmd b) (fun s => s.onCmd h b) s)

/-- EVENT (R307, R382, R390, R399, R433). -/
def execEvent (h : Hdr) (b : EventB) (s : State) : Host.Outcome State Fault Refusal :=
  .next (ctlStep h (.event b) (fun s => s.onEvent h b) s)

end Sys2Proof.Machine
end

