-- ==== Sys2Proof/Machine/Dispatch.lean ====
section
/-! DEFINITION. One arm per command of spec/opcode_table.json: each a direct call of its meaning. -/

namespace Sys2Proof.Machine

def exec (i : Instr) (s : State) : Host.Outcome State Fault Refusal :=
  match i with
  | .sysNop pk => Sys2Proof.Machine.execSysNop pk s
  | .sysQuery pk => Sys2Proof.Machine.execSysQuery pk s
  | .sysStart pk => Sys2Proof.Machine.execSysStart pk s
  | .sysDrain pk => Sys2Proof.Machine.execSysDrain pk s
  | .sysSave pk => Sys2Proof.Machine.execSysSave pk s
  | .sysRestore pk => Sys2Proof.Machine.execSysRestore pk s
  | .sysPcap pk => Sys2Proof.Machine.execSysPcap pk s
  | .cfgSet pk => Sys2Proof.Machine.execCfgSet pk s
  | .cfgPhase pk => Sys2Proof.Machine.execCfgPhase pk s
  | .cfgRegion pk => Sys2Proof.Machine.execCfgRegion pk s
  | .cfgRing pk => Sys2Proof.Machine.execCfgRing pk s
  | .cfgHeadset pk => Sys2Proof.Machine.execCfgHeadset pk s
  | .cfgSlot pk => Sys2Proof.Machine.execCfgSlot pk s
  | .profWrite pk => Sys2Proof.Machine.execProfWrite pk s
  | .profSwap pk => Sys2Proof.Machine.execProfSwap pk s
  | .profRead pk => Sys2Proof.Machine.execProfRead pk s
  | .tblLoad pk => Sys2Proof.Machine.execTblLoad pk s
  | .tblSwap pk => Sys2Proof.Machine.execTblSwap pk s
  | .tblFree pk => Sys2Proof.Machine.execTblFree pk s
  | .tblQuery pk => Sys2Proof.Machine.execTblQuery pk s
  | .epochLoad pk => Sys2Proof.Machine.execEpochLoad pk s
  | .epochSwitch pk => Sys2Proof.Machine.execEpochSwitch pk s
  | .epochRefset pk => Sys2Proof.Machine.execEpochRefset pk s
  | .epochDrop pk => Sys2Proof.Machine.execEpochDrop pk s
  | .epochVload pk => Sys2Proof.Machine.execEpochVload pk s
  | .epochVfree pk => Sys2Proof.Machine.execEpochVfree pk s
  | .epochQuery pk => Sys2Proof.Machine.execEpochQuery pk s
  | .reqOpen pk => Sys2Proof.Machine.execReqOpen pk s
  | .reqClose pk => Sys2Proof.Machine.execReqClose pk s
  | .reqCancel pk => Sys2Proof.Machine.execReqCancel pk s
  | .reqPark pk => Sys2Proof.Machine.execReqPark pk s
  | .reqResume pk => Sys2Proof.Machine.execReqResume pk s
  | .reqRelease pk => Sys2Proof.Machine.execReqRelease pk s
  | .reqQuery pk => Sys2Proof.Machine.execReqQuery pk s
  | .tenSet pk => Sys2Proof.Machine.execTenSet pk s
  | .tenQuery pk => Sys2Proof.Machine.execTenQuery pk s
  | .syncAlloc pk => Sys2Proof.Machine.execSyncAlloc pk s
  | .syncFree pk => Sys2Proof.Machine.execSyncFree pk s
  | .syncSet pk => Sys2Proof.Machine.execSyncSet pk s
  | .syncAdd pk => Sys2Proof.Machine.execSyncAdd pk s
  | .syncRead pk => Sys2Proof.Machine.execSyncRead pk s
  | .syncWait pk => Sys2Proof.Machine.execSyncWait pk s
  | .syncSignal pk => Sys2Proof.Machine.execSyncSignal pk s
  | .syncBarrier pk => Sys2Proof.Machine.execSyncBarrier pk s
  | .syncSemacq pk => Sys2Proof.Machine.execSyncSemacq pk s
  | .syncSemrel pk => Sys2Proof.Machine.execSyncSemrel pk s
  | .orchConfig pk => Sys2Proof.Machine.execOrchConfig pk s
  | .orchDiscover pk => Sys2Proof.Machine.execOrchDiscover pk s
  | .orchRejoin pk => Sys2Proof.Machine.execOrchRejoin pk s
  | .orchQuery pk => Sys2Proof.Machine.execOrchQuery pk s
  | .diagInject pk => Sys2Proof.Machine.execDiagInject pk s
  | .diagSelftest pk => Sys2Proof.Machine.execDiagSelftest pk s
  | .diagSnap pk => Sys2Proof.Machine.execDiagSnap pk s
  | .diagTrace pk => Sys2Proof.Machine.execDiagTrace pk s
  | .repairLoad pk => Sys2Proof.Machine.execRepairLoad pk s
  | .repairCommit pk => Sys2Proof.Machine.execRepairCommit pk s
  | .repairQuery pk => Sys2Proof.Machine.execRepairQuery pk s
  | .repairCal pk => Sys2Proof.Machine.execRepairCal pk s
  | .dumpConfig pk => Sys2Proof.Machine.execDumpConfig pk s
  | .dumpStatus pk => Sys2Proof.Machine.execDumpStatus pk s
  | .dumpTake pk => Sys2Proof.Machine.execDumpTake pk s
  | .dumpAck pk => Sys2Proof.Machine.execDumpAck pk s
  | .doorbell by_ r tail => Sys2Proof.Machine.execDoorbell by_ r tail s
  | .jgCqhWrite by_ r head => Sys2Proof.Machine.execJgCqhWrite by_ r head s
  | .ringEnable by_ r value => Sys2Proof.Machine.execRingEnable by_ r value s
  | .cqWriteAck r err => Sys2Proof.Machine.execCqWriteAck r err s
  | .intStatusClear by_ win value => Sys2Proof.Machine.execIntStatusClear by_ win value s
  | .cqPendClear by_ win value => Sys2Proof.Machine.execCqPendClear by_ win value s
  | .intRouteMaskWrite by_ win reg value => Sys2Proof.Machine.execIntRouteMaskWrite by_ win reg value s
  | .msgWriteResponse p vec err => Sys2Proof.Machine.execMsgWriteResponse p vec err s
  | .semReq by_ n => Sys2Proof.Machine.execSemReq by_ n s
  | .semRel by_ n => Sys2Proof.Machine.execSemRel by_ n s
  | .portReset value => Sys2Proof.Machine.execPortReset value s
  | .warmReset src => Sys2Proof.Machine.execWarmReset src s
  | .quarantine value => Sys2Proof.Machine.execQuarantine value s
  | .coldReset => Sys2Proof.Machine.execColdReset s
  | .jgFwCtlGo value => Sys2Proof.Machine.execJgFwCtlGo value s
  | .selftestDone failed => Sys2Proof.Machine.execSelftestDone failed s
  | .pllLockLoss => Sys2Proof.Machine.execPllLockLoss s
  | .tclkTick => Sys2Proof.Machine.execTclkTick s
  | .timeAlign => Sys2Proof.Machine.execTimeAlign s
  | .pmReqRun => Sys2Proof.Machine.execPmReqRun s
  | .pmReqRet => Sys2Proof.Machine.execPmReqRet s
  | .pmReqOff => Sys2Proof.Machine.execPmReqOff s
  | .pmTransitionDone locked => Sys2Proof.Machine.execPmTransitionDone locked s
  | .idleTimeout => Sys2Proof.Machine.execIdleTimeout s
  | .thermalSample raw => Sys2Proof.Machine.execThermalSample raw s
  | .droopTrip detector => Sys2Proof.Machine.execDroopTrip detector s
  | .rdescAccept p beat last => Sys2Proof.Machine.execRdescAccept p beat last s
  | .payloadEnd p beats elems ecc => Sys2Proof.Machine.execPayloadEnd p beats elems ecc s
  | .tegAck tag err => Sys2Proof.Machine.execTegAck tag err s
  | .tegFabricCredit n => Sys2Proof.Machine.execTegFabricCredit n s
  | .tegRingCredit ring n => Sys2Proof.Machine.execTegRingCredit ring n s
  | .admitMsg h b => Sys2Proof.Machine.execAdmit h b s
  | .copySkewExpiry key => Sys2Proof.Machine.execCopySkewExpiry key s
  | .gatherWindowExpiry => Sys2Proof.Machine.execGatherWindowExpiry s
  | .closeMarginReached => Sys2Proof.Machine.execCloseMarginReached s
  | .close h b => Sys2Proof.Machine.execClose h b s
  | .partFetchDone handle part ecc => Sys2Proof.Machine.execPartFetchDone handle part ecc s
  | .preludeDone punnet ecc => Sys2Proof.Machine.execPreludeDone punnet ecc s
  | .weightSegmentLoaded punnet pass tile seg ecc => Sys2Proof.Machine.execWeightSegmentLoaded punnet pass tile seg ecc s
  | .tileProjected punnet pass done => Sys2Proof.Machine.execTileProjected punnet pass done s
  | .selectionTileClosed punnet pass tile => Sys2Proof.Machine.execSelectionTileClosed punnet pass tile s
  | .auxHeadDone punnet rslot reward => Sys2Proof.Machine.execAuxHeadDone punnet rslot reward s
  | .stat h b => Sys2Proof.Machine.execStat h b s
  | .cand h b => Sys2Proof.Machine.execCand h b s
  | .win h b => Sys2Proof.Machine.execWin h b s
  | .topm h b => Sys2Proof.Machine.execTopm h b s
  | .tgt h b => Sys2Proof.Machine.execTgt h b s
  | .thresh h b => Sys2Proof.Machine.execThresh h b s
  | .rsq h b => Sys2Proof.Machine.execRsq h b s
  | .rescoreDone punnet rslot pass id ecc => Sys2Proof.Machine.execRescoreDone punnet rslot pass id ecc s
  | .rsp h b => Sys2Proof.Machine.execRsp h b s
  | .certCutoff punnet rslot => Sys2Proof.Machine.execCertCutoff punnet rslot s
  | .commit h b => Sys2Proof.Machine.execCommit h b s
  | .lkup h b => Sys2Proof.Machine.execLkup h b s
  | .aux h b => Sys2Proof.Machine.execAux h b s
  | .side h b => Sys2Proof.Machine.execSide h b s
  | .cancel h k => Sys2Proof.Machine.execCancel h k s
  | .deadlineReached key => Sys2Proof.Machine.execDeadlineReached key s
  | .contextExpiry slot => Sys2Proof.Machine.execContextExpiry slot s
  | .expiredPagesFreed slot => Sys2Proof.Machine.execExpiredPagesFreed slot s
  | .historyDoublingDone slot => Sys2Proof.Machine.execHistoryDoublingDone slot s
  | .budgetRefill => Sys2Proof.Machine.execBudgetRefill s
  | .requantPartDone hset slot variant err => Sys2Proof.Machine.execRequantPartDone hset slot variant err s
  | .bar h barrier tag => Sys2Proof.Machine.execBar h barrier tag s
  | .rel h barrier tag => Sys2Proof.Machine.execRel h barrier tag s
  | .signal h b => Sys2Proof.Machine.execSignal h b s
  | .cmd h b => Sys2Proof.Machine.execCmd h b s
  | .event h b => Sys2Proof.Machine.execEvent h b s
  | .probe h b => Sys2Proof.Machine.execProbe h b s
  | .purge h punnet dbg => Sys2Proof.Machine.execPurge h punnet dbg s
  | .disc port ovf entries => Sys2Proof.Machine.execDisc port ovf entries s
  | .discoverySettled => Sys2Proof.Machine.execDiscoverySettled s
  | .dlwinExpiry => Sys2Proof.Machine.execDlwinExpiry s
  | .purgeRetryTimer => Sys2Proof.Machine.execPurgeRetryTimer s
  | .dataFrame port f => Sys2Proof.Machine.execDataFrame port f s
  | .nakFrame port f => Sys2Proof.Machine.execNakFrame port f s
  | .idleFrame port f => Sys2Proof.Machine.execIdleFrame port f s
  | .train port f => Sys2Proof.Machine.execTrain port f s
  | .retrain port f => Sys2Proof.Machine.execRetrain port f s
  | .trainingWord port group lane words => Sys2Proof.Machine.execTrainingWord port group lane words s
  | .replayTimer port => Sys2Proof.Machine.execReplayTimer port s
  | .idleTimer port => Sys2Proof.Machine.execIdleTimer port s
  | .linktoExpiry port => Sys2Proof.Machine.execLinktoExpiry port s
  | .linkDown port => Sys2Proof.Machine.execLinkDown port s
  | .signalTimeout stag => Sys2Proof.Machine.execSignalTimeout stag s
  | .forwardTimeout fid => Sys2Proof.Machine.execForwardTimeout fid s
  | .waitTimeout r => Sys2Proof.Machine.execWaitTimeout r s
  | .rescoreKatTimer failed => Sys2Proof.Machine.execRescoreKatTimer failed s
  | .watchdogExpiry => Sys2Proof.Machine.execWatchdogExpiry s
  | .transferTimeout => Sys2Proof.Machine.execTransferTimeout s
  | .safeEntry cause => Sys2Proof.Machine.execSafeEntry cause s
  | .windfallDone err => Sys2Proof.Machine.execWindfallDone err s
  | .selftestSlice unit fail => Sys2Proof.Machine.execSelftestSlice unit fail s
  | .selftestPassTimer => Sys2Proof.Machine.execSelftestPassTimer s
  | .lowWordRead p addr => Sys2Proof.Machine.execLowWordRead p addr s
  | .jgDbgEn by_ value => Sys2Proof.Machine.execJgDbgEn by_ value s
  | .jgDbgPurge value => Sys2Proof.Machine.execJgDbgPurge value s
  | .jgDbgFlush value => Sys2Proof.Machine.execJgDbgFlush value s
  | .jgDbgCntval value => Sys2Proof.Machine.execJgDbgCntval value s
  | .jgDbgSem value => Sys2Proof.Machine.execJgDbgSem value s
  | .hangclr value => Sys2Proof.Machine.execHangclr value s
  | .injenClear value => Sys2Proof.Machine.execInjenClear value s
  | .jgDbgTrdata p => Sys2Proof.Machine.execJgDbgTrdata p s
  | .registerWrite by_ addr size value => Sys2Proof.Machine.execRegisterWrite by_ addr size value s
  | .dbgen => Sys2Proof.Machine.execDbgen s
  | .testLogicReset => Sys2Proof.Machine.execTestLogicReset s
  | .regacc tdr => Sys2Proof.Machine.execRegacc tdr s
  | .store tdr => Sys2Proof.Machine.execStore tdr s
  | .sramrd tdr => Sys2Proof.Machine.execSramrd tdr s
  | .slice tdr => Sys2Proof.Machine.execSlice tdr s
  | .fuse tdr => Sys2Proof.Machine.execFuse tdr s
  | .therm raw => Sys2Proof.Machine.execTherm raw s
  | .trace tdr => Sys2Proof.Machine.execTrace tdr s
  | .poolUpdate => Sys2Proof.Machine.execPoolUpdate s
  | .dbgenDeselect => Sys2Proof.Machine.execDbgenDeselect s

end Sys2Proof.Machine
end

