-- ==== Sys2Proof/WellFormed.lean ====
section
/-! DEFINITION. Which commands are well formed: every operand within the width that the spec gives its field. The meanings are total
on ill-formed commands too; this says what a sender on the wires or in a queue can spell. -/

namespace Sys2Proof

/-- A value of a field of `n` bits. -/
def fits (n v : Nat) : Bool := decide (v < 2 ^ n)

/-- A handle: SLOT of 16 bits, GEN of 8 (R36). -/
def Handle.wf (h : Handle) : Bool := fits 16 h.slot && fits 8 h.gen

/-- A row key: POS of 24 bits, CLASS of 3, GIDX of 5 (R38, Table 2.1). -/
def RowKey.wf (k : RowKey) : Bool := k.handle.wf && fits 24 k.pos && fits 3 k.cls && fits 5 k.gidx

/-- A command ring: 64 on each port (R332). -/
def RingRef.wf (r : RingRef) : Bool := fits 6 r.ring

/-- A command packet: thirteen parameter words (R356). -/
def Pkt.wf (pk : Pkt) : Bool := pk.src.wf && decide (pk.params.length = 13)

/-- A message header, field by field (Table 15.5); a broadcast has DST 0. -/
def Hdr.wf (h : Hdr) : Bool :=
  fits 10 h.src && fits 10 h.dst && fits 16 h.punnet && fits 8 h.rslot && decide (h.pass ≤ 11) && h.handle.wf && fits 10 h.hops
  && (!h.bcast || decide (h.dst = 0))

/-- A vocabulary id (Table 6.4). -/
def idWf (v : Nat) : Bool := fits 21 v

/-- A link port of an instance: five (R296). -/
def portWf (p : Nat) : Bool := decide (p < 5)

/-- A link frame: NU units of sixteen words each (Table 15.3). -/
def Frame.wf (f : Frame) : Bool := decide (f.payload.length % 16 = 0) && decide (f.payload.length ≤ 240)

/-- A row entry of CLOSE (R313). -/
def CloseRow.wf (r : CloseRow) : Bool :=
  r.handle.wf && fits 8 r.slot && fits 24 r.pos && fits 3 r.cls && fits 5 r.gidx && fits 16 r.ovl && fits 32 r.tseq

/-- A head-set number, a bank slot: four of each (R280, R363). -/
def headWf (h : Nat) : Bool := fits 2 h

/-- A tile of a pass: a tile number fits the vocabulary's count of tiles (R92). -/
def TileRef.wf : TileRef → Bool
  | .pre i => fits 12 i
  | .main t => fits 14 t
  | .outl i => fits 12 i
  | .aux _ i => decide (i < 2)

/-- A test data register's captured value: at most 107 bits (Table 21.19). -/
def tdrWf (v : Nat) : Bool := fits 192 v

/-- The body of a SIGNAL: counter of 10 bits, STAG of 16, STATUS of 8 (Table 15.14). -/
def SignalB.wf (b : SignalB) : Bool := fits 10 b.counter && fits 16 b.stag && fits 8 b.status

/-- A command is well formed. -/
def Instr.wf : Instr → Bool
  | .sysNop pk | .sysQuery pk | .sysStart pk | .sysDrain pk | .sysSave pk | .sysRestore pk | .sysPcap pk => pk.wf
  | .cfgSet pk | .cfgPhase pk | .cfgRegion pk | .cfgRing pk | .cfgHeadset pk | .cfgSlot pk => pk.wf
  | .profWrite pk | .profSwap pk | .profRead pk => pk.wf
  | .tblLoad pk | .tblSwap pk | .tblFree pk | .tblQuery pk => pk.wf
  | .epochLoad pk | .epochSwitch pk | .epochRefset pk | .epochDrop pk | .epochVload pk | .epochVfree pk | .epochQuery pk => pk.wf
  | .reqOpen pk | .reqClose pk | .reqCancel pk | .reqPark pk | .reqResume pk | .reqRelease pk | .reqQuery pk => pk.wf
  | .tenSet pk | .tenQuery pk => pk.wf
  | .syncAlloc pk | .syncFree pk | .syncSet pk | .syncAdd pk | .syncRead pk | .syncWait pk | .syncSignal pk | .syncBarrier pk
  | .syncSemacq pk | .syncSemrel pk => pk.wf
  | .orchConfig pk | .orchDiscover pk | .orchRejoin pk | .orchQuery pk => pk.wf
  | .diagInject pk | .diagSelftest pk | .diagSnap pk | .diagTrace pk => pk.wf
  | .repairLoad pk | .repairCommit pk | .repairQuery pk | .repairCal pk => pk.wf
  | .dumpConfig pk | .dumpStatus pk | .dumpTake pk | .dumpAck pk => pk.wf
  | .doorbell _ r _ | .jgCqhWrite _ r _ | .ringEnable _ r _ | .cqWriteAck r _ | .waitTimeout r => r.wf
  | .intStatusClear _ _ _ | .cqPendClear _ _ _ => true
  | .intRouteMaskWrite _ _ reg _ => decide (reg = 0x0C ∨ reg = 0x18 ∨ reg = 0x1C)
  | .msgWriteResponse _ vec _ => fits 4 vec
  | .semReq _ n | .semRel _ n => fits 6 n
  | .portReset _ | .warmReset _ | .quarantine _ | .coldReset | .jgFwCtlGo _ | .selftestDone _ | .pllLockLoss | .tclkTick
  | .timeAlign | .pmReqRun | .pmReqRet | .pmReqOff | .pmTransitionDone _ | .idleTimeout => true
  | .thermalSample raw | .therm raw => decide (raw.length = 8) && raw.all (fits 12)
  | .droopTrip d => fits 4 d
  | .rdescAccept _ beat _ => decide (beat.length = 16)
  | .payloadEnd _ _ _ _ => true
  | .tegAck tag _ => fits 6 tag
  | .tegFabricCredit _ => true
  | .tegRingCredit ring _ => fits 6 ring
  | .admitMsg h b => h.wf && fits 24 b.pos && fits 3 b.cls && fits 5 b.gidx
  | .copySkewExpiry key | .deadlineReached key => key.wf
  | .gatherWindowExpiry | .closeMarginReached | .budgetRefill | .discoverySettled | .dlwinExpiry | .purgeRetryTimer
  | .watchdogExpiry | .transferTimeout | .selftestPassTimer | .poolUpdate => true
  | .close h b => h.wf && fits 4 b.phase && b.rows.all CloseRow.wf && decide (b.rows.length ≤ 256)
  | .partFetchDone handle _ _ => handle.wf
  | .preludeDone punnet _ => fits 16 punnet
  | .weightSegmentLoaded punnet pass tile _ _ => fits 16 punnet && decide (pass ≤ 11) && tile.wf
  | .tileProjected punnet pass done => fits 16 punnet && decide (pass ≤ 11) && done.tile.wf
  | .selectionTileClosed punnet pass tile => fits 16 punnet && decide (pass ≤ 11) && tile.wf
  | .auxHeadDone punnet rslot _ => fits 16 punnet && fits 8 rslot
  | .stat h b => h.wf && fits 22 b.cnt && fits 2 b.late
  | .cand h b => h.wf && b.all (fun r => idWf r.id)
  | .win h b => h.wf && b.conts.all (fun r => idWf r.id)
  | .topm h b => h.wf && b.all (fun r => idWf r.1)
  | .tgt h b => h.wf && b.toList.all (fun r => idWf r.id)
  | .thresh h b => h.wf && idWf b.kid
  | .rsq h b => h.wf && idWf b.id
  | .rescoreDone punnet rslot pass id _ => fits 16 punnet && fits 8 rslot && decide (pass ≤ 11) && idWf id
  | .rsp h b => h.wf && idWf b.id
  | .certCutoff punnet rslot => fits 16 punnet && fits 8 rslot
  | .commit h b => h.wf && idWf b.token && fits 4 b.kind && fits 7 b.flags
  | .lkup h b => h.wf && fits 20 b.next && idWf b.token
  | .aux h _ => h.wf
  | .side h _ => h.wf
  | .cancel h _ => h.wf
  | .contextExpiry slot | .expiredPagesFreed slot | .historyDoublingDone slot => fits 16 slot
  | .requantPartDone hset slot v _ => headWf hset && headWf slot && v.toList.all (fits 6)
  | .bar h barrier tag | .rel h barrier tag => h.wf && fits 5 barrier && fits 2 tag
  | .signal h b => h.wf && b.wf
  | .cmd h _ | .event h _ | .probe h _ => h.wf
  | .purge h punnet _ => h.wf && fits 16 punnet
  | .disc port _ entries => portWf port && entries.all (fun e => fits 10 e.addr)
  | .dataFrame port f | .nakFrame port f | .idleFrame port f | .train port f | .retrain port f => portWf port && f.wf
  | .trainingWord port group lane words => portWf port && fits 1 group && fits 5 lane && decide (words.length ≤ 4)
  | .replayTimer port | .idleTimer port | .linktoExpiry port | .linkDown port => portWf port
  | .signalTimeout stag => fits 16 stag
  | .forwardTimeout fid => fits 16 fid
  | .rescoreKatTimer _ => true
  | .safeEntry cause => fits 8 cause
  | .windfallDone _ => true
  | .selftestSlice _ _ => true
  | .lowWordRead _ addr => fits 21 addr
  | .jgDbgEn _ _ | .jgDbgPurge _ | .jgDbgFlush _ | .jgDbgCntval _ | .jgDbgSem _ | .hangclr _ | .injenClear _ | .jgDbgTrdata _ => true
  | .registerWrite _ addr size _ => fits 21 addr && decide (size = 1 ∨ size = 2 ∨ size = 4 ∨ size = 8)
  | .dbgen | .testLogicReset | .dbgenDeselect => true
  | .regacc tdr | .store tdr | .sramrd tdr | .slice tdr | .fuse tdr | .trace tdr => tdrWf tdr

end Sys2Proof
end

