-- ==== Sys2Proof/Safety.lean ====
section
/-! DEFINITION. What the statements about this machine are said in: the invariant that every step keeps, when a packet starts, when a
message of a row is acted on, and which commands reset the instance. -/

namespace Sys2Proof.Machine

/-- The invariant of every step: memory in its canonical form, and a fault log of at most 256 entries (R397). -/
def State.Inv (s : State) : Prop := s.mem.wf ∧ s.faults.log.length ≤ 256

/-- A packet that the taking instance lets start (R336, R339, R341): it stands at the head of an enabled ring that is served and awake, it
was read without error, its KCRC holds, its opcode is `op`, its bits outside `masks` are zero, the block state is one of `legal`, its FENCE
is satisfied, and the CQ has room for the `k` completions it may write. -/
structure Starts (s : State) (pk : Pkt) (op k : Nat) (masks : List Nat) (legal : List Blk) : Prop where
  serving : s.serving = true
  enabled : (s.ring pk.src).en = true
  waits   : (s.ring pk.src).untaken ≠ 0
  read    : pk.readErr = false
  kcrc    : pk.kcrcOk = true
  opcode  : pk.opcode.toNat = op
  clean   : pk.clean masks = true
  fence   : pk.fence = true → (s.ring pk.src).outst = []
  awake   : (s.ring pk.src).asleep = false
  room    : (s.ring pk.src).room k = true
  state   : legal.contains s.blk = true

/-- The origin of a packet that starts now: its ring, and the number it gets among the commands taken. -/
def State.origin (s : State) (pk : Pkt) : Origin := .ring pk.src s.cmdId

/-- The state in which a packet that starts has been taken from its ring, with `k` CQ slots reserved (R341). -/
def State.taken (s : State) (pk : Pkt) (k : Nat) : State := s.take pk k pk.noint

/-- A packet that starts is taken, and its command's final completion is issued (R340, R341, R343). -/
def State.answers (s : State) (pk : Pkt) (k : Nat) (c : Cpl) : State := (s.taken pk k).finish (s.origin pk) c

/-- What the block does of itself after a command, where it does. -/
def State.goOn (s : State) (b : Bool) : State := if b then s.after else s

/-- A message that stood in `loop` leaves it once it has had its effect (log 81). -/
def State.taking (s : State) (m : Msg) (u : State) : State := if s.orch.loop.contains m then u.arrive m else u

/-- A message of a row whose punnet and row slot are in flight here, and whose header is sound (R315). -/
structure Lands (s : State) (m : Msg) (p : Punnet) (r : PRow) : Prop where
  working : s.working = true
  sound   : m.hdr.parity = false ∧ hdrBroken m.hdr = false
  punnet  : s.punnet m.hdr.punnet = some p
  row     : p.rows.find? (fun r => decide (r.slot = m.hdr.rslot)) = some r
  pass    : m.hdr.pass = 0 ∨ m.hdr.pass < p.passes.length

end Sys2Proof.Machine

namespace Sys2Proof

/-- The commands that reset the instance, or may: the two resets, and writes of registers by number, which reach JG_RST_CTL. -/
def Instr.mayReset : Instr → Bool
  | .coldReset => true
  | .warmReset _ => true
  | .registerWrite _ _ _ _ => true
  | .regacc _ => true
  | _ => false

/-- The commands of the command rings: each with what the command reference says of it, its packet, and whether the block goes on of
itself once it has had its effect. -/
def Instr.packet? : Instr → Option (Machine.Desc × Pkt × Bool)
  | .sysNop pk => some (Machine.sysNopD, pk, true)
  | .sysQuery pk => some (Machine.sysQueryD, pk, true)
  | .sysStart pk => some (Machine.sysStartD, pk, true)
  | .sysDrain pk => some (Machine.sysDrainD, pk, true)
  | .sysSave pk => some (Machine.sysSaveD, pk, true)
  | .sysRestore pk => some (Machine.sysRestoreD, pk, true)
  | .sysPcap pk => some (Machine.sysPcapD, pk, true)
  | .cfgSet pk => some (Machine.cfgSetD, pk, true)
  | .cfgPhase pk => some (Machine.cfgPhaseD, pk, true)
  | .cfgRegion pk => some (Machine.cfgRegionD, pk, true)
  | .cfgRing pk => some (Machine.cfgRingD, pk, true)
  | .cfgHeadset pk => some (Machine.cfgHeadsetD, pk, true)
  | .cfgSlot pk => some (Machine.cfgSlotD, pk, true)
  | .profWrite pk => some (Machine.profWriteD, pk, false)
  | .profSwap pk => some (Machine.profSwapD, pk, false)
  | .profRead pk => some (Machine.profReadD, pk, false)
  | .tblLoad pk => some (Machine.tblLoadD, pk, false)
  | .tblSwap pk => some (Machine.tblSwapD, pk, false)
  | .tblFree pk => some (Machine.tblFreeD, pk, false)
  | .tblQuery pk => some (Machine.tblQueryD, pk, false)
  | .epochLoad pk => some (Machine.epochLoadD, pk, true)
  | .epochSwitch pk => some (Machine.epochSwitchD, pk, true)
  | .epochRefset pk => some (Machine.epochRefsetD, pk, true)
  | .epochDrop pk => some (Machine.epochDropD, pk, true)
  | .epochVload pk => some (Machine.epochVloadD, pk, true)
  | .epochVfree pk => some (Machine.epochVfreeD, pk, true)
  | .epochQuery pk => some (Machine.epochQueryD, pk, true)
  | .reqOpen pk => some (Machine.reqOpenD, pk, true)
  | .reqClose pk => some (Machine.reqCloseD, pk, true)
  | .reqCancel pk => some (Machine.reqCancelD, pk, true)
  | .reqPark pk => some (Machine.reqParkD, pk, true)
  | .reqResume pk => some (Machine.reqResumeD, pk, true)
  | .reqRelease pk => some (Machine.reqReleaseD, pk, true)
  | .reqQuery pk => some (Machine.reqQueryD, pk, true)
  | .tenSet pk => some (Machine.tenSetD, pk, true)
  | .tenQuery pk => some (Machine.tenQueryD, pk, true)
  | .syncAlloc pk => some (Machine.syncAllocD, pk, false)
  | .syncFree pk => some (Machine.syncFreeD, pk, false)
  | .syncSet pk => some (Machine.syncSetD, pk, false)
  | .syncAdd pk => some (Machine.syncAddD, pk, false)
  | .syncRead pk => some (Machine.syncReadD, pk, false)
  | .syncWait pk => some (Machine.syncWaitD, pk, false)
  | .syncSignal pk => some (Machine.syncSignalD, pk, false)
  | .syncBarrier pk => some (Machine.syncBarrierD, pk, false)
  | .syncSemacq pk => some (Machine.syncSemacqD, pk, false)
  | .syncSemrel pk => some (Machine.syncSemrelD, pk, false)
  | .orchConfig pk => some (Machine.orchConfigD, pk, false)
  | .orchDiscover pk => some (Machine.orchDiscoverD, pk, false)
  | .orchRejoin pk => some (Machine.orchRejoinD, pk, true)
  | .orchQuery pk => some (Machine.orchQueryD, pk, false)
  | .diagInject pk => some (Machine.diagInjectD, pk, false)
  | .diagSelftest pk => some (Machine.diagSelftestD, pk, false)
  | .diagSnap pk => some (Machine.diagSnapD, pk, false)
  | .diagTrace pk => some (Machine.diagTraceD, pk, false)
  | .repairLoad pk => some (Machine.repairLoadD, pk, false)
  | .repairCommit pk => some (Machine.repairCommitD, pk, false)
  | .repairQuery pk => some (Machine.repairQueryD, pk, false)
  | .repairCal pk => some (Machine.repairCalD, pk, false)
  | .dumpConfig pk => some (Machine.dumpConfigD, pk, false)
  | .dumpStatus pk => some (Machine.dumpStatusD, pk, false)
  | .dumpTake pk => some (Machine.dumpTakeD, pk, false)
  | .dumpAck pk => some (Machine.dumpAckD, pk, false)
  | _ => none

end Sys2Proof
end

