-- ==== Sys2Proof/Certificates/Slice0/Obligations.lean ====
section
/-! DEFINITION. The statements about this machine, for the provers. -/

open Sys2Proof Sys2Proof.Machine

/-! ## The queue, the outcomes, the invariant, reset -/

/-- A step takes the command at the front of the queue and runs it on the state with the queue's rest; on an empty queue the block idles (log 1). No
row of the opcode table gives bits: no word spells a command, and a fetched word leaves the state as it was. -/
def Obligations.StepTakesFrontCommand : Prop :=
  ((∀ (c : Instr) (r : List Instr) (s : State), step { s with pending := c :: r } = exec c { s with pending := r })
  ∧ ∀ s : State, s.pending = [] → step s = .next s)
  ∧ (∀ (nbits w : Nat) (s : State), decodeTableWord nbits w = none ∧ s.withFetchWord nbits w = s)

/-- Every command answers a next state in every state: no fault class of R394 stops the block, and each has an outcome that is a state. The model has
no refusal: this is a property of the model, not a rule. -/
def Obligations.EveryCommandAnswersNext : Prop :=
  ∀ (c : Instr) (s : State), ∃ t, exec c s = .next t

/-- A step leaves the queue with its front removed and nothing else changed: no command, a reset among them, adds, drops or reorders a command that
waits. The queue is the model's (log 46). -/
def Obligations.QueueIsFirstInFirstOut : Prop :=
  ∀ s t : State, step s = .next t → t.pending = s.pending.tail

/-- The invariant is kept by every step: memory stays in its canonical form, so that equal memories are equal data, and the fault log holds at most
the 256 entries of R397. The canonical form is the model's (log 7). -/
def Obligations.StepKeepsInvariant : Prop :=
  ∀ s t : State, s.Inv → step s = .next t → t.Inv

/-- The invariant holds right after reset. -/
def Obligations.ResetMeetsInvariant : Prop :=
 State.reset.Inv

/-- What reset leaves, of the values the spec gives: block state BOOT, waiting in boot step 4 (Table 18.4); TCLK at 0 (R380); P-IDLE (Table 21.10); 64
credits for the senders of HIN and LIN and no grant (R50); every ring disabled with its fields at 0 (Table 16.3); every interrupt masked and none
pending, line delivery, message vectors off (R427, Table 21.3, Table 21.4); semaphores and counters free (Table 16.7, R320); counters at 0 (R426); no
fault, no entry in the log, no SAFE (Table 21.8, Table 21.9); the configuration of Table 11.2; no capture (R402). The die is one whose fuses read good
(log 45), and a value that the spec does not give is zero (log 2). -/
def Obligations.ResetValues : Prop :=
  let s := State.reset
  s.blk = .boot ∧ s.boot.step = 4 ∧ s.time.tclk = 0 ∧ s.pwr.cur = 2 ∧ s.ing.hinCr = 64 ∧ s.ing.linCr = 64 ∧ s.ing.grants = false
  ∧ (∀ r : RingRef, s.ring r = Ring.reset) ∧ Ring.reset.rctl = 0
  ∧ (∀ p : PortId, (s.port p).intStatus = 0 ∧ (s.port p).intMask = 0xFFFF ∧ (s.port p).mode = 0 ∧ (s.port p).cqPend = 0
      ∧ (s.port p).route0 = 0 ∧ (s.port p).route1 = 0 ∧ ∀ v, Tab.get (s.port p).msga v 3 = 3 ∧ Tab.get (s.port p).msgd v 0 = 0)
  ∧ (∀ n, (s.sem n).reg = 0) ∧ (∀ n, (s.ctr n).owner = 0) ∧ (∀ off, s.cnt off = 0)
  ∧ s.safeStatus = 0 ∧ s.faults.status = 0 ∧ s.faults.log = []
  ∧ s.conf.base.vals = { gather := 200, copyskew := 256, egressres := 32, rqshare := 25, forceovl := 0 } ∧ s.conf.phase = 0
  ∧ s.wind.region = none ∧ s.wind.held = false ∧ s.quar = false ∧ s.pwr.clkFail = false

/-- SAFE and quarantine end only by a reset: no command but a cold reset, a warm reset, or a register write or access that may be one, takes the block
out of SAFE or lifts its quarantine. -/
def Obligations.OnlyResetLeavesSafeOrQuarantine : Prop :=
  ∀ (c : Instr) (s t : State), c.mayReset = false → exec c s = .next t →
    (s.blk = .safe → t.blk = .safe) ∧ (s.quar = true → t.quar = true)

/-- After a loss of PLL lock everything is held: no command but a cold reset changes anything, save that the test access port, which has a clock of
its own, still leaves DBGEN and its own state when it is reset or selects another instruction. That everything else is held is the model's reading
(log 108). -/
def Obligations.ClockFailureHoldsEverything : Prop :=
  ∀ (c : Instr) (s : State), s.pwr.clkFail = true → c ≠ .coldReset → c ≠ .testLogicReset → c ≠ .dbgenDeselect → exec c s = .next s

/-! ## Command rings -/

/-- The checks of R339 in their order, and R341 for a packet whose KCRC fails, for every command of a ring whose packet stands readable at the head of
an enabled ring that is served. The command's own parameter and object checks are those of its descriptor. Which row takes a packet is the model's
split of it (log 8); the room that a packet with a bad KCRC needs is a reading (log 96). -/
def Obligations.FirstFailingCheckDecides : Prop :=
  ∀ (c : Instr) (d : Desc) (pk : Pkt) (b : Bool) (s : State), c.packet? = some (d, pk, b) →
    s.serving = true → (s.ring pk.src).en = true → (s.ring pk.src).untaken ≠ 0 → pk.readErr = false →
    let k := if d.accepts then 2 else 1
    -- 1: the KCRC
    (pk.kcrcOk = false → (s.ring pk.src).room 1 = true →
      exec c s = .next (((s.take pk 1 false).finish (s.origin pk) (Cpl.of stBadParam 0x01)).goOn b))
    ∧ (pk.kcrcOk = true → s.takeable pk k = true →
      -- 2: the opcode
      (definedOpcode pk.opcode.toNat = false → exec c s = .next ((s.answers pk k (Cpl.of stBadOpcode 0)).goOn b))
      ∧ (pk.opcode.toNat = d.opcode → definedOpcode d.opcode = true →
        -- 3: SAFE
        (s.blk = .safe → safeOpcode d.opcode = false → exec c s = .next ((s.answers pk k (Cpl.of stSafeState 0)).goOn b))
        ∧ ((s.blk = .safe → safeOpcode d.opcode = true) →
          -- 4: the fields
          (∀ x, d.bad pk s = some x → exec c s = .next ((s.answers pk k (Cpl.of stBadParam x)).goOn b))
          ∧ (d.bad pk s = none →
            -- 5: the block state
            (d.legal.contains s.blk = false → exec c s = .next ((s.answers pk k (Cpl.of stWrongState 0)).goOn b))
            ∧ (d.legal.contains s.blk = true → s.serialiser d pk = s.orch.shard →
              -- 5 and 6: the object's state and owner
              (∀ x, d.pre (s.origin pk) pk (s.taken pk k) = some x → exec c s = .next ((s.answers pk k x).goOn b))
              ∧ (d.pre (s.origin pk) pk (s.taken pk k) = none →
                -- 7: the lock
                (∀ x, d.lock pk (s.taken pk k) = some x → (s.taken pk k).locked x = true →
                  exec c s = .next ((s.answers pk k (Cpl.of stBusyRetry 0)).goOn b))
                ∧ ((∀ x, d.lock pk (s.taken pk k) = some x → (s.taken pk k).locked x = false) →
                  exec c s = .next ((d.run (s.origin pk) pk (s.taken pk k)).goOn b))))))))

/-- What taking a packet and answering it does to the rings: SQH passes the packet; the command is listed with its TAG, OPCODE and reservation until
its completion is written; the completion names them, with FINAL set, behind the completions that already wait; no other ring changes. The completion
goes out only for a command that the ring lists: the number of a new command is none of those listed. -/
def Obligations.TakenPacketIsAnsweredOnItsRing : Prop :=
  ∀ (s : State) (pk : Pkt) (k : Nat) (x : Cpl), (∀ o ∈ (s.ring pk.src).outst, o.id ≠ s.cmdId) →
    let t := s.answers pk k x
    (t.ring pk.src = { s.ring pk.src with
        sqh := (s.ring pk.src).sqh + 1,
        outst := (s.ring pk.src).outst ++ [{ id := s.cmdId, tag := pk.tag, opcode := pk.opcode, noint := pk.noint, reserve := k }],
        cqw := (s.ring pk.src).cqw ++ [{ id := s.cmdId, words := cplWords pk.tag pk.opcode pk.src.ring true 0 x, final := true,
                                         intr := !pk.noint, retry := false }] })
    ∧ (∀ r, r ≠ pk.src → t.ring r = s.ring r)
    ∧ t.cmdId = s.cmdId + 1 ∧ t.mem = s.mem ∧ t.blk = s.blk ∧ t.conf = s.conf ∧ t.slots = s.slots ∧ t.rows = s.rows ∧ t.orch = s.orch
    ∧ t.sems = s.sems ∧ t.ctrs = s.ctrs ∧ t.faults = s.faults ∧ t.cnts = s.cnts

/-- The numbers of the commands that a ring lists are below the number that the next command gets: every step keeps this, so the completion of a new
command is never taken for another's. -/
def Obligations.CommandNumbersStayFresh : Prop :=
  ∀ s t : State, (∀ r, ∀ o ∈ (s.ring r).outst, o.id < s.cmdId) → step s = .next t → ∀ r, ∀ o ∈ (t.ring r).outst, o.id < t.cmdId

/-- A ring waits, and its packet stays, while its CQ has no room, while a FENCE finds an earlier command without its final completion, or while its
last command sleeps; a ring without untaken packets, disabled, or not served gives none (R341, R342). A command whose object another instance
serialises is taken and forwarded there in a CMD message with the number by which its completion will come back (R350, R359); nothing completes yet.
-/
def Obligations.PacketsThatDoNotStartHere : Prop :=
  (∀ (c : Instr) (d : Desc) (pk : Pkt) (b : Bool) (s : State), c.packet? = some (d, pk, b) →
    (s.serving = false ∨ (s.ring pk.src).en = false ∨ (s.ring pk.src).untaken = 0
      ∨ (pk.readErr = false ∧ pk.kcrcOk = true
        ∧ ((pk.fence = true ∧ (s.ring pk.src).outst ≠ []) ∨ (s.ring pk.src).asleep = true
          ∨ (s.ring pk.src).room (if d.accepts then 2 else 1) = false))) →
    exec c s = .next (s.goOn b))
  ∧ (∀ (c : Instr) (d : Desc) (pk : Pkt) (b : Bool) (s : State), c.packet? = some (d, pk, b) →
    ∀ masks, Starts s pk d.opcode (if d.accepts then 2 else 1) masks d.legal → definedOpcode d.opcode = true →
    (s.blk = .safe → safeOpcode d.opcode = true) → d.bad pk s = none → s.serialiser d pk ≠ s.orch.shard →
    let u := s.taken pk (if d.accepts then 2 else 1)
    exec c s = .next ((({ u with
        orch := { u.orch with fid := (u.orch.fid + 1) % 2 ^ 16 },
        jobs := u.jobs ++ [{ origin := s.origin pk, opcode := pk.opcode, kind := .forward u.orch.fid, lock := none }] } : State).sendTo
          (s.serialiser d pk) (.cmd (.fwd pk.src.port pk.src.ring u.orch.fid pk))).goOn b))

/-- R336 whole, with Table 16.4: what a ring error does, each of its four conditions, that a stopped ring gives no packet, that the commands already
taken still complete and their completions are written while the write succeeds, and the restart by EN. -/
def Obligations.RingErrorsStopTheRing : Prop :=
  (∀ (s : State) (r : RingRef) (n : Nat),
    let t := s.ringError r n
    t.ring r = { s.ring r with err := true, errcode := n, errcnt := satAdd 255 (s.ring r).errcnt 1, en := false }
    ∧ bitAt (t.port r.port).intStatus cRingErr = true
    ∧ (∀ q, q ≠ r → t.ring q = s.ring q))
  ∧ (∀ (s : State) (r : RingRef) (tail : Half), s.live = true → (s.ring r).en = true → 2 ^ (s.ring r).sqlog < (tail - (s.ring r).sqh).toNat →
      exec (.doorbell r.port r tail) s = .next (s.ringError r 1))
  ∧ (∀ (s : State) (r : RingRef) (head : Half), s.live = true → 2 ^ (s.ring r).cqlog < ((s.ring r).cqt - head).toNat →
      exec (.jgCqhWrite r.port r head) s = .next (s.ringError r 2))
  ∧ (∀ (c : Instr) (d : Desc) (pk : Pkt) (b : Bool) (s : State), c.packet? = some (d, pk, b) → s.serving = true →
      (s.ring pk.src).en = true → (s.ring pk.src).untaken ≠ 0 → pk.readErr = true →
      exec c s = .next ((s.ringError pk.src 3).goOn b))
  ∧ (∀ (s : State) (r : RingRef) (w : CqWrite) (rest : List CqWrite), s.live = true → (s.ring r).cqw = w :: rest → w.retry = true →
      exec (.cqWriteAck r true) s = .next ((s.setRing r ((s.ring r).written w)).ringError r 3))
  ∧ (∀ (s : State) (r : RingRef) (v : Word), s.live = true → bitAt v 0 = true → ((s.ring r).ctl v).en = false →
      ((s.ring r).ctl v).sizesOk = false →
      exec (.ringEnable r.port r v) s = .next (((s.setRing r ((s.ring r).ctl v)).refresh r.port false).ringError r 4))
  ∧ (∀ (c : Instr) (d : Desc) (pk : Pkt) (b : Bool) (s : State), c.packet? = some (d, pk, b) → (s.ring pk.src).en = false →
      exec c s = .next (s.goOn b))
  ∧ (∀ (s : State) (r : RingRef) (v : Word), s.live = true → bitAt v 0 = true → (s.ring r).en = false → ((s.ring r).ctl v).sizesOk = true →
      exec (.ringEnable r.port r v) s
        = .next ((s.setRing r { (s.ring r).ctl v with en := true, sqt := 0, sqh := 0, cqt := 0, cqh := 0 }).refresh r.port false))
  ∧ (∀ (s : State) (r : RingRef) (id : Nat) (x : Cpl) (o : Outst), (s.ring r).en = false →
      (s.ring r).outst.find? (fun o => decide (o.id = id)) = some o →
      ((s.finish (.ring r id) x).ring r).cqw
        = (s.ring r).cqw ++ [{ id := id, words := cplWords o.tag o.opcode r.ring true 0 x, final := true, intr := !o.noint, retry := false }])
  ∧ (∀ (s : State) (r : RingRef) (w : CqWrite) (rest : List CqWrite), s.live = true → (s.ring r).en = false → (s.ring r).cqw = w :: rest →
      ∃ t, exec (.cqWriteAck r false) s = .next t ∧ (t.ring r).cqw = rest ∧ (t.ring r).cqt = (s.ring r).cqt + 1
        ∧ t.mem = (s.storeWords (ringBase (s.ring r).cqb + 16 * ((s.ring r).cqt.toNat % 2 ^ (s.ring r).cqlog))
            (withPhase w.words (1 - (s.ring r).cqt.toNat / 2 ^ (s.ring r).cqlog % 2))).mem)

/-- JG_RCTL_n written (Table 16.3): CIE is taken, ERR falls where 1 is written, and SQLOG, CQLOG and VEC are taken only while EN and BUSY are 0; EN
from 0 to 1 sets the four indices to 0 (R335); EN written 0 stops the ring. Only that ring changes, but for what the vectors then show. Doorbells and
heads (R335): a tail written to an enabled ring becomes SQT, one written to a disabled ring is ignored; a head becomes CQH. -/
def Obligations.RingRegisterWrites : Prop :=
  (∀ (s : State) (r : RingRef) (v : Word), s.live = true →
    let q := s.ring r
    let idle := !q.en && !q.busy
    let q1 : Ring := { q with
      cie := bitAt v 13, err := q.err && !bitAt v 14,
      sqlog := if idle then bitsAt v 1 4 else q.sqlog, cqlog := if idle then bitsAt v 5 4 else q.cqlog,
      vec := if idle then bitsAt v 9 4 else q.vec }
    (bitAt v 0 = false → exec (.ringEnable r.port r v) s = .next ((s.setRing r { q1 with en := false }).refresh r.port false))
    ∧ (bitAt v 0 = true → q.en = true → exec (.ringEnable r.port r v) s = .next ((s.setRing r q1).refresh r.port false))
    ∧ (bitAt v 0 = true → q.en = false → q1.sizesOk = true →
        exec (.ringEnable r.port r v) s
          = .next ((s.setRing r { q1 with en := true, sqt := 0, sqh := 0, cqt := 0, cqh := 0 }).refresh r.port false)))
  ∧ (∀ (s : State) (r : RingRef) (x : Half), s.live = true →
    ((s.ring r).en = false → exec (.doorbell r.port r x) s = .next s)
    ∧ ((s.ring r).en = true → (x - (s.ring r).sqh).toNat ≤ 2 ^ (s.ring r).sqlog →
        exec (.doorbell r.port r x) s = .next (s.setRing r { s.ring r with sqt := x }))
    ∧ (((s.ring r).cqt - x).toNat ≤ 2 ^ (s.ring r).cqlog →
        exec (.jgCqhWrite r.port r x) s = .next (s.setRing r { s.ring r with cqh := x })))

/-- The response to a completion write (R335, R338, R343, R344): an acknowledged entry stands in the CQ at slot CQT with the phase of that pass, and
only then CQT advances, the command leaves its ring when the completion is final, and JG_CQ_PEND is set where CIE and the packet allow it; a first
error response has it written again; with nothing written the response means nothing. That the entry stands in memory only at its acknowledgement is a
reading (log 98). -/
def Obligations.CompletionWriteResponse : Prop :=
  ∀ (s : State) (r : RingRef), s.live = true →
    ((s.ring r).cqw = [] → ∀ e, exec (.cqWriteAck r e) s = .next s)
    ∧ ∀ (w : CqWrite) (rest : List CqWrite), (s.ring r).cqw = w :: rest →
      (w.retry = false → exec (.cqWriteAck r true) s = .next (s.setRing r { s.ring r with cqw := { w with retry := true } :: rest }))
      ∧ (let q := s.ring r
         let q1 : Ring := { q with
           cqw := rest, cqt := q.cqt + 1,
           outst := if w.final then q.outst.filter (fun o => o.id ≠ w.id)
             else q.outst.map (fun o => if o.id = w.id then { o with reserve := o.reserve - 1 } else o) }
         let u := (s.storeWords (ringBase q.cqb + 16 * (q.cqt.toNat % 2 ^ q.cqlog)) (withPhase w.words (1 - q.cqt.toNat / 2 ^ q.cqlog % 2))).setRing r q1
         exec (.cqWriteAck r false) s
           = .next (if q.cie && w.intr then
               (u.setPort r.port { u.port r.port with cqPend := (u.port r.port).cqPend ||| BitVec.ofNat 64 (2 ^ r.ring) }).refresh r.port false
             else u))

/-! ## Interrupts, message writes, the other port's window -/

/-- The interrupt registers of a port (R344, R430, Table 21.1): a write to JG_INT_STATUS or JG_CQ_PEND clears the flags written as 1 and no others;
JG_INT_MASK and the routes take what is written; the vectors are brought up to date after each. -/
def Obligations.InterruptRegisterWrites : Prop :=
  ∀ (s : State) (p : PortId) (v : Word) (w : W64), s.live = true →
    let q := s.port p
    exec (.intStatusClear p p v) s
      = .next ((s.setPort p { q with intStatus := q.intStatus &&& ~~~(BitVec.ofNat 15 (bitsAt v 0 15)) }).refresh p true)
    ∧ exec (.cqPendClear p p w) s = .next ((s.setPort p { q with cqPend := q.cqPend &&& ~~~w }).refresh p true)
    ∧ exec (.intRouteMaskWrite p p 0x0C v) s = .next ((s.setPort p { q with intMask := BitVec.ofNat 16 v.toNat }).refresh p false)
    ∧ exec (.intRouteMaskWrite p p 0x18 v) s = .next ((s.setPort p { q with route0 := v }).refresh p false)
    ∧ exec (.intRouteMaskWrite p p 0x1C v) s = .next ((s.setPort p { q with route1 := v &&& 0x0FFFFFFF }).refresh p false)

/-- R430: a write to JG_INT_STATUS that also sets reserved bits or bit 15 does what the defined bits alone do; JG_CQ_PEND, which bit 15 shows, stays.
-/
def Obligations.ReservedStatusBitsAreIgnored : Prop :=
  ∀ (s : State) (p : PortId) (v : Word), s.live = true →
    exec (.intStatusClear p p v) s = exec (.intStatusClear p p (v &&& 0x7FFF)) s
    ∧ ∃ t, exec (.intStatusClear p p v) s = .next t ∧ (t.port p).cqPend = (s.port p).cqPend
      ∧ ∀ b, b < 15 → bitAt (t.port p).intStatus b = (bitAt (s.port p).intStatus b && !bitAt v b)

/-- Pending summaries and message delivery (R345, R428, R429): after a change a vector's bit of JG_INT_PEND shows whether an unmasked cause is routed
to it, or an unmasked completion of a ring that names it; a message write is issued for a vector exactly when message delivery is on, its address is
not off, and its summary has gone from 0 to 1 or stayed nonzero after a W1C write; in line delivery the line is asserted exactly when a summary is
nonzero. -/
def Obligations.PendingSummariesAndMessages : Prop :=
  ∀ (q : Port) (w1c : Bool),
    let t := q.refresh w1c
    t.vpend = q.summary
    ∧ (∀ v, v < 16 → (bitAt q.summary v = true ↔
        (∃ b, b < 15 ∧ bitAt q.intStatus b = true ∧ bitAt q.intMask b = false
          ∧ (if b < 8 then bitsAt q.route0 (4 * b) 4 else bitsAt q.route1 (4 * (b - 8)) 4) = v)
        ∨ (bitAt q.intMask 15 = false ∧ ∃ n, n < 64 ∧ bitAt q.cqPend n = true ∧ (q.ring n).vec = v)))
    ∧ (∃ new : List (Nat × Bool), t.msgOut = q.msgOut ++ new
        ∧ ∀ v x, (v, x) ∈ new ↔ x = false ∧ v < 16 ∧ bitAt q.summary v = true ∧ q.mode ≠ 0 ∧ bitsAt (Tab.get q.msga v 3) 0 2 ≤ 1
            ∧ (w1c = true ∨ bitAt q.vpend v = false))
    ∧ (q.intLine = true ↔ q.mode ≠ 1 ∧ q.summary ≠ 0)
    ∧ t.intStatus = q.intStatus ∧ t.cqPend = q.cqPend ∧ t.intMask = q.intMask ∧ t.rings = q.rings

/-- R431, the response to a message write: an error has it issued once more; a second error drops it and advances JG_MSGERR_CNT; the pending summary
stays, so the next W1C write that leaves it nonzero sends again. An acknowledged message stands in memory at JG_MSGA. -/
def Obligations.MessageWriteResponse : Prop :=
  ∀ (s : State) (p : PortId) (v : Nat) (m : Nat × Bool), s.live = true → (s.port p).msgOut.find? (fun x => x.1 = v) = some m →
    let q := s.port p
    let dropped : Port := { q with msgOut := q.msgOut.erase m, msgerr := satAdd (2 ^ 32 - 1) q.msgerr 1 }
    (m.2 = false → exec (.msgWriteResponse p v true) s
      = .next ((s.setPort p { q with msgOut := (v, true) :: q.msgOut.erase m }).drive (.message p v)))
    ∧ (m.2 = true → exec (.msgWriteResponse p v true) s = .next (s.setPort p dropped)
        ∧ dropped.summary = q.summary
        ∧ (v < 16 → q.sumBit v = true → q.msgOn v = true → (v, false) ∈ (dropped.refresh true).msgOut))
    ∧ exec (.msgWriteResponse p v false) s
      = .next ((s.setPort p { q with msgOut := q.msgOut.erase m }).storeWords
          (memKey ((Tab.get q.msga v 3).toNat % 4) ((Tab.get q.msga v 3).toNat / 4 * 4)) [Tab.get q.msgd v 0])

/-- A port's register writes (R424, Tables 16.2, 21.3, 21.4): a ring's queue bases are taken while the ring is disabled and idle and ignored
otherwise, JG_INT_CFG takes MODE but for 3, JG_MSGD_v is taken, and a write of a wrong size or alignment, or to a reserved address, is ignored and
counted. R425: a 32-bit read of the low word of a 64-bit RO/V register latches its high word of that cycle for the reading port, and changes nothing
else. R333: a port's write into the other port's window does nothing but advance the writing port's cross-write counter, whichever register it names;
a write into the debug window does nothing while debug access is off. That MODE is taken without a message is the model's choice (log 55). -/
def Obligations.PortWindowAccesses : Prop :=
  (∀ (s : State) (p : PortId) (v : W64), s.live = true →
    let base := if p = .cpa then 0 else 0x10000
    let q := s.port p
    (∀ n, n < 64 →
      let r : RingRef := { port := p, ring := n }
      ((s.ring r).en = false → (s.ring r).outst = [] →
        exec (.registerWrite p (base + 0x1000 + 64 * n) 8 v) s = .next (s.setRing r { s.ring r with sqb := v &&& 0xFFFFFFFFFFFFF003 })
        ∧ exec (.registerWrite p (base + 0x1008 + 64 * n) 8 v) s = .next (s.setRing r { s.ring r with cqb := v &&& 0xFFFFFFFFFFFFF003 }))
      ∧ ((s.ring r).en = true ∨ (s.ring r).outst ≠ [] → exec (.registerWrite p (base + 0x1000 + 64 * n) 8 v) s = .next s))
    ∧ exec (.registerWrite p (base + 0x10) 4 v) s = .next (if bitsAt v 0 2 = 3 then s else s.setPort p { q with mode := bitsAt v 0 2 })
    ∧ (∀ n, n < 16 → exec (.registerWrite p (base + 0x108 + 16 * n) 4 v) s = .next (s.setPort p { q with msgd := Tab.set q.msgd n (lo32 v) }))
    ∧ (∀ addr size, accessOk addr size = false ∨ accessHits addr size = false →
        exec (.registerWrite p addr size v) s = .next (s.setPort p { q with badacc := satAdd (2 ^ 32 - 1) q.badacc 1 })))
  ∧ (∀ (s : State) (p : PortId) (addr : Nat), s.pwr.clkFail = false → isWide addr = true →
    exec (.lowWordRead p addr) s = .next (s.setPort p { s.port p with latch := some (addr, s.regWord (addr + 4)) }))
  ∧ (∀ (s : State) (b w : PortId), s.live = true → b ≠ w →
    let counted : Host.Outcome State Fault Refusal :=
      .next (s.setPort b { s.port b with xwr := satAdd (2 ^ 32 - 1) (s.port b).xwr 1 })
    (∀ r : RingRef, r.port = w → ∀ (x : Half) (v : Word), exec (.doorbell b r x) s = counted ∧ exec (.jgCqhWrite b r x) s = counted
        ∧ exec (.ringEnable b r v) s = counted)
    ∧ (∀ (v : Word) (x : W64) (reg : Nat), exec (.intStatusClear b w v) s = counted ∧ exec (.cqPendClear b w x) s = counted
        ∧ exec (.intRouteMaskWrite b w reg v) s = counted)
    ∧ (∀ (addr size : Nat) (x : W64), addr / 0x10000 = (if w = .cpa then 0 else 1) → accessOk addr size = true → accessHits addr size = true →
        exec (.registerWrite b addr size x) s = counted)
    ∧ (∀ (addr : Nat) (x : W64), addr / 0x10000 = 3 → accessOk addr 4 = true → regDefined addr = true → s.debugOn = false →
        exec (.registerWrite b addr 4 x) s = .next s))

/-! ## Semaphores -/

/-- REQ and REL of R346, by a port and by a debugger: a free semaphore is granted to who asks and GRANTS advances modulo 256; a held one is not; the
owner's release frees it, or grants it to the command that has slept longest, which completes with DONE; a release by another port is ignored and
counted. A write of JG_SEM_n with both REQ and REL set acts as REL alone, and one with REQ alone as a request (R346). -/
def Obligations.SemaphoreRequestAndRelease : Prop :=
  (∀ (s : State) (n : Nat), s.live = true → n < 64 →
    let q := s.sem n
    (∀ p : PortId,
      (q.owner = 0 → exec (.semReq (.port p) n) s = .next (s.setSem n { q with owner := portCode p, grants := (q.grants + 1) % 256 }))
      ∧ (q.owner ≠ 0 → exec (.semReq (.port p) n) s = .next s)
      ∧ (q.owner = portCode p → q.waiters = [] → exec (.semRel (.port p) n) s = .next (s.setSem n { q with owner := 0 }))
      ∧ (∀ w o rest, q.owner = portCode p → q.waiters = (w, o) :: rest →
          exec (.semRel (.port p) n) s
            = .next ((s.setSem n { q with owner := portCode w, grants := (q.grants + 1) % 256, waiters := rest }).finishSleeper o (Cpl.done 0 0)))
      ∧ (q.owner ≠ portCode p → exec (.semRel (.port p) n) s
          = .next (s.setPort p { s.port p with semmis := satAdd (2 ^ 32 - 1) (s.port p).semmis 1 })))
    ∧ (s.debugOn = true → q.owner = 0 →
        exec (.semReq .debug n) s = .next (s.setSem n { q with owner := 3, grants := (q.grants + 1) % 256 }))
    ∧ (s.debugOn = true → q.owner = 3 → q.waiters = [] → exec (.semRel .debug n) s = .next (s.setSem n { q with owner := 0 }))
    ∧ (s.debugOn = false → exec (.semReq .debug n) s = .next s ∧ exec (.semRel .debug n) s = .next s))
  ∧ (∀ (s : State) (p : PortId) (n : Nat) (v : W64), s.live = true → n < 64 → bitAt v 2 = false →
    (bitAt v 17 = true → exec (.registerWrite p (0x20000 + 16 * n) 4 v) s = exec (.semRel (.port p) n) s)
    ∧ (bitAt v 17 = false → bitAt v 16 = true → exec (.registerWrite p (0x20000 + 16 * n) 4 v) s = exec (.semReq (.port p) n) s))

/-- SYNC.SEMACQ and SYNC.SEMREL (R346, R347, Table 17.16): a free semaphore is granted to the issuing port and the command is done; one held by
another has the command sleep at its ring, last of the waiters; the port that holds it gets WRONG_STATE. A release by the owner is done, and frees the
semaphore or grants it to the oldest waiter; of a free one it is WRONG_STATE, of another's NOT_OWNER. SYNC.ALLOC to SYNC.WAIT (R320, R321, Table
17.16): each operation on an allocated counter, with its results; one on a free counter is WRONG_STATE; an unmet wait has the ring sleep. Which free
counter ANY gives is the model's choice (log 15). -/
def Obligations.SyncCommands : Prop :=
  (∀ (s : State) (pk : Pkt),
    let n := pk.fld 0 0 6
    let q := s.sem n
    let me := portCode pk.src.port
    let u := s.taken pk 1
    (Starts s pk 0x0808 1 [0x3F] allButDump →
      (q.owner = 0 → exec (.syncSemacq pk) s
        = .next ((u.setSem n { q with owner := me, grants := (q.grants + 1) % 256 }).finish (s.origin pk) (Cpl.done 0 0)))
      ∧ (q.owner = me → exec (.syncSemacq pk) s = .next (s.answers pk 1 (Cpl.of stWrongState 0)))
      ∧ (q.owner ≠ 0 → q.owner ≠ me → exec (.syncSemacq pk) s
        = .next ((u.setSem n { q with waiters := q.waiters ++ [(pk.src.port, s.origin pk)] }).setRing pk.src { u.ring pk.src with asleep := true })))
    ∧ (Starts s pk 0x0809 1 [0x3F] allButDump →
      (q.owner = 0 → exec (.syncSemrel pk) s = .next (s.answers pk 1 (Cpl.of stWrongState 0)))
      ∧ (q.owner ≠ 0 → q.owner ≠ me → exec (.syncSemrel pk) s = .next (s.answers pk 1 (Cpl.of stNotOwner 0)))
      ∧ (q.owner = me → q.waiters = [] → exec (.syncSemrel pk) s
        = .next ((u.setSem n { q with owner := 0 }).finish (s.origin pk) (Cpl.done 0 0)))
      ∧ (∀ w o rest, q.owner = me → q.waiters = (w, o) :: rest → exec (.syncSemrel pk) s
        = .next (((u.setSem n { q with owner := portCode w, grants := (q.grants + 1) % 256, waiters := rest }).finishSleeper o
            (Cpl.done 0 0)).finish (s.origin pk) (Cpl.done 0 0)))))
  ∧ (∀ (s : State) (pk : Pkt),
    let n := pk.fld 0 0 10
    let c := s.ctr n
    let u := s.taken pk 1
    let me := portCode pk.src.port
    let expiry := if pk.p 3 = 0 then 0 else s.now + (pk.p 3).toNat
    let w : Waiter := { origin := s.origin pk, port := pk.src.port, target := pk.p64 1, expiry := expiry }
    (Starts s pk 0x0800 1 [0x7FF] rdyRunDrn →
      (bitAt (pk.p 0) 10 = false → 64 ≤ n →
        (c.owner = 0 → exec (.syncAlloc pk) s
          = .next ((u.setCtr n { value := 0, owner := me, waiters := [] }).finish (s.origin pk) (Cpl.done 0 n)))
        ∧ (c.owner ≠ 0 → exec (.syncAlloc pk) s = .next (s.answers pk 1 (Cpl.of stWrongState 0))))
      ∧ (bitAt (pk.p 0) 10 = true → n = 0 →
        (∀ m, s.freeCtr = some m → exec (.syncAlloc pk) s
          = .next ((u.setCtr m { value := 0, owner := me, waiters := [] }).finish (s.origin pk) (Cpl.done 0 m)))
        ∧ (s.freeCtr = none → exec (.syncAlloc pk) s = .next (s.answers pk 1 (Cpl.of stNoSpace 0)))))
    ∧ (64 ≤ n →
      (Starts s pk 0x0801 1 [0x3FF] rdyRunDrn →
        (c.owner = me → exec (.syncFree pk) s = .next ((u.ctrFree n).finish (s.origin pk) (Cpl.done 0 0)))
        ∧ (c.owner = 0 → exec (.syncFree pk) s = .next (s.answers pk 1 (Cpl.of stWrongState 0)))
        ∧ (c.owner ≠ 0 → c.owner ≠ me → exec (.syncFree pk) s = .next (s.answers pk 1 (Cpl.of stNotOwner 0))))
      ∧ (Starts s pk 0x0802 1 [0x3FF, all32, all32] rdyRunDrn → c.owner ≠ 0 →
          exec (.syncSet pk) s = .next ((u.ctrSet n (pk.p64 1)).finish (s.origin pk) (Cpl.done 0 0)))
      ∧ (Starts s pk 0x0803 1 [0x3FF, all32, all32] rdyRunDrn → c.owner ≠ 0 →
          exec (.syncAdd pk) s = .next ((u.ctrSet n (c.value + pk.p64 1)).finish (s.origin pk) (Cpl.done (lo32 (c.value + pk.p64 1)) 0)))
      ∧ (Starts s pk 0x0804 1 [0x3FF] rdyRunDrn → c.owner ≠ 0 →
          exec (.syncRead pk) s = .next (s.answers pk 1 (Cpl.done (lo32 c.value) (bitsAt c.value 32 16))))
      ∧ (Starts s pk 0x0805 1 [0x3FF, all32, all32, all32] rdyRunDrn → c.owner ≠ 0 →
          (0 ≤ (c.value - pk.p64 1).toInt → exec (.syncWait pk) s = .next (s.answers pk 1 (Cpl.done 0 0)))
          ∧ ((c.value - pk.p64 1).toInt < 0 → exec (.syncWait pk) s
            = .next ((u.setCtr n { c with waiters := c.waiters ++ [w] }).setRing pk.src { u.ring pk.src with asleep := true })))
      ∧ (c.owner = 0 →
        (Starts s pk 0x0802 1 [0x3FF, all32, all32] rdyRunDrn → exec (.syncSet pk) s = .next (s.answers pk 1 (Cpl.of stWrongState 0)))
        ∧ (Starts s pk 0x0803 1 [0x3FF, all32, all32] rdyRunDrn → exec (.syncAdd pk) s = .next (s.answers pk 1 (Cpl.of stWrongState 0)))
        ∧ (Starts s pk 0x0804 1 [0x3FF] rdyRunDrn → exec (.syncRead pk) s = .next (s.answers pk 1 (Cpl.of stWrongState 0)))
        ∧ (Starts s pk 0x0805 1 [0x3FF, all32, all32, all32] rdyRunDrn → exec (.syncWait pk) s = .next (s.answers pk 1 (Cpl.of stWrongState 0))))))

/-! ## Sync counters -/

/-- A counter set by any command (R321): it takes the value; the waits that the value satisfies leave it and the others stay, in their order; no other
counter changes; a ring whose sleeping command was satisfied is awake. WAIT_TIMEOUT (R373): the waits of that ring whose time has run out leave their
counters, whose values stay; every other wait stays. -/
def Obligations.CounterUpdateWakesWaiters : Prop :=
  (∀ (s : State) (n : Nat) (v : W64),
    let t := s.ctrSet n v
    t.ctr n = { s.ctr n with value := v, waiters := (s.ctr n).waiters.filter (fun w => decide ((v - w.target).toInt < 0)) }
    ∧ (∀ m, m ≠ n → t.ctr m = s.ctr m)
    ∧ ∀ w ∈ (s.ctr n).waiters, 0 ≤ (v - w.target).toInt → ∀ r id, w.origin = .ring r id → (∃ o ∈ (s.ring r).outst, o.id = id) →
        (t.ring r).asleep = false)
  ∧ (∀ (s : State) (r : RingRef), s.live = true → ∃ t, exec (.waitTimeout r) s = .next t
    ∧ ∀ n, (t.ctr n).value = (s.ctr n).value ∧ (t.ctr n).owner = (s.ctr n).owner
      ∧ ∀ w, w ∈ (t.ctr n).waiters ↔ w ∈ (s.ctr n).waiters
          ∧ ¬ (w.expiry ≠ 0 ∧ w.expiry ≤ s.now ∧ ∃ id, w.origin = .ring r id))

/-- SYNC.SIGNAL and the messages and timer behind it (R321, Table 15.10): the add goes to its target as a SIGNAL; at the target an allocated counter
takes it and the acknowledgement says DONE, a free one does not and it says WRONG_STATE; the acknowledgement ends the command that waits for it with
that status; LINKTO ticks without one end it with FAULT. -/
def Obligations.RemoteSignals : Prop :=
  (∀ (s : State) (pk : Pkt), Starts s pk 0x0806 1 [0xFFFFF, all32, all32] rdyRunDrn → 64 ≤ pk.fld 0 0 10 →
    let u := s.taken pk 1
    exec (.syncSignal pk) s = .next (({ u with
        orch := { u.orch with stag := (u.orch.stag + 1) % 2 ^ 16 },
        jobs := u.jobs ++ [{ origin := s.origin pk, opcode := pk.opcode, kind := .signal u.orch.stag (pk.fld 0 10 10), lock := none }] } : State).sendTo
          (pk.fld 0 10 10)
          (.signal { counter := pk.fld 0 0 10, ack := false, stag := u.orch.stag, status := 0, addend := pk.p64 1 })))
  ∧ (∀ (s : State) (h : Hdr) (b : SignalB), s.working = true → h.parity = false → h.hops < 1023 → s.orch.loop = [] → s.forMe h = true →
      b.ack = false →
      ((s.ctr b.counter).owner ≠ 0 → exec (.signal h b) s
        = .next ((s.ctrSet b.counter ((s.ctr b.counter).value + b.addend)).sendTo h.src
            (.signal { counter := b.counter, ack := true, stag := b.stag, status := stDone, addend := 0 })))
      ∧ ((s.ctr b.counter).owner = 0 → exec (.signal h b) s
        = .next (s.sendTo h.src (.signal { counter := b.counter, ack := true, stag := b.stag, status := stWrongState, addend := 0 }))))
  ∧ (∀ (s : State) (l1 l2 : List Job) (j : Job) (stag dst : Nat), s.live = true → s.jobs = l1 ++ j :: l2 → j.kind = .signal stag dst →
      (∀ x ∈ l1 ++ l2, ∀ d, x.kind ≠ .signal stag d) →
      let rest : State := { s with jobs := l1 ++ l2 }
      exec (.signalTimeout stag) s = .next (rest.finish j.origin (Cpl.of stFault 0x30))
      ∧ ∀ (h : Hdr) (b : SignalB), h.parity = false → h.hops < 1023 → s.orch.loop = [] → s.forMe h = true → b.ack = true → b.stag = stag →
          exec (.signal h b) s = .next (rest.finish j.origin (Cpl.of b.status 0)))

/-! ## Barriers -/

/-- Barrier rounds at a node (R318, R319): an entry carries the tag of the instance's next round, which advances; entries for the open tag and for the
next are counted apart; a full subtree sends one BAR up, or at the root REL down the tree; any other tag is an Orchard sequence error, and the barrier
starts again. An instance that has not left its round cannot enter again. REL (R318): the node passes it down, clears the round's counter and opens
the next tag with what was counted for it; the entries of this instance complete with DONE. For a barrier of a port, what the block then does of
itself follows. That the own entry is counted at once is the model's choice (log 16). -/
def Obligations.BarrierRounds : Prop :=
  ((∀ (s : State) (n tag k : Nat),
    let b := s.bar n
    (tag = b.openTag → b.cntOpen + k ≠ s.subtreeSize → s.barCount n tag k = s.setBar n { b with cntOpen := b.cntOpen + k })
    ∧ (tag = b.openTag → b.cntOpen + k = s.subtreeSize → s.isRoot = false →
        s.barCount n tag k = (s.setBar n { b with cntOpen := b.cntOpen + k }).sendTo s.orch.rootSh (.bar n tag))
    ∧ (tag = b.openTag → b.cntOpen + k = s.subtreeSize → s.isRoot = true →
        s.barCount n tag k = (s.setBar n { b with cntOpen := b.cntOpen + k }).bcast { hdr := s.hdr 0 true 0 0 0 noHandle, body := .rel n tag })
    ∧ (tag ≠ b.openTag → tag = (b.openTag + 1) % 4 → s.barCount n tag k = s.setBar n { b with cntNext := b.cntNext + k })
    ∧ (tag ≠ b.openTag → tag ≠ (b.openTag + 1) % 4 → s.barCount n tag k = (s.contained 0x18 Site.none).barAbort n))
  ∧ (∀ (s : State) (pk : Pkt), Starts s pk 0x0807 1 [0x1F] [.run, .drain] → 8 ≤ pk.fld 0 0 5 →
      let n := pk.fld 0 0 5
      let b := s.bar n
      (b.inRound = false → exec (.syncBarrier pk) s
        = .next (((s.taken pk 1).setBar n { b with nextTag := (b.nextTag + 1) % 4, inRound := true, entered := b.entered ++ [s.origin pk] }).barCount
            n b.nextTag 1))
      ∧ (b.inRound = true → exec (.syncBarrier pk) s = .next (s.answers pk 1 (Cpl.of stWrongState 0))))
  ∧ (∀ (s : State) (h : Hdr) (n tag : Nat), s.live = true → s.orch.loop = [] → h.parity = false → h.hops < 1023 →
      exec (.bar h n tag) s = .next (s.barCount n tag (if h.src = s.orch.shard then 1 else (s.orch.kids.filter (fun k => k.2.2 = h.src)).length))))
  ∧ (∀ (s : State) (h : Hdr) (n tag : Nat) (o : Origin), s.live = true → s.blk ≠ .boot → s.blk ≠ .selftest → h.parity = false → h.hops < 1023 →
    s.orch.loop = [] → h.bcast = true → 8 ≤ n → (s.bar n).entered = [o] →
    let u := s.bcastOthers { hdr := { h with hops := h.hops + 1 }, body := .rel n tag }
    exec (.rel h n tag) s
      = .next ((u.setBar n { s.bar n with openTag := (tag + 1) % 4, cntOpen := (s.bar n).cntNext, cntNext := 0, entered := [], inRound := false }).finish
          o (Cpl.done 0 0)).after)

/-! ## Block control, saving, configuration -/

/-- SYS.NOP, SYS.QUERY, SYS.START, SYS.DRAIN and SYS.PCAP (Table 17.5, R361, R391): NOP is done; QUERY answers the block state, the phase, the shard,
the root's address and the number of members; START at the root, with every other member in READY, enters RUN there and at the members and grants
credits; DRAIN enters DRAIN, grants no more, and waits; with GROUP the root drains every other member that is not in SAFE too; PCAP leaves the cap for
the next punnet boundary. That PCAP completes at once (log 104), that a group command reaches members as its packet (log 10), and the member's drain
acknowledgement (log 42) are the model's choices. -/
def Obligations.BlockControlCommands : Prop :=
  ∀ (s : State) (pk : Pkt),
    let u := s.taken pk 1
    (Starts s pk 0x0100 1 [] allStates → exec (.sysNop pk) s = .next (s.answers pk 1 (Cpl.done 0 0)).after)
    ∧ (Starts s pk 0x0101 1 [] allStates → exec (.sysQuery pk) s
        = .next (s.answers pk 1 (Cpl.done (w32 (blkCode s.blk + putBits (s.conf.phase % 16) 3 + putBits (s.orch.shard % 1024) 7
            + putBits (s.rootAddr % 1024) 17)) s.orch.n)).after)
    ∧ (Starts s pk 0x0102 1 [] [.ready] → s.isRoot = true →
        ((∃ m ∈ s.orch.members, m.shard ≠ s.orch.shard ∧ m.state ≠ 2) → exec (.sysStart pk) s = .next (s.answers pk 1 (Cpl.of stWrongState 0)).after)
        ∧ ((∀ m ∈ s.orch.members, m.shard ≠ s.orch.shard → m.state = 2) → s.locked objGroup = false → exec (.sysStart pk) s
            = .next ((({ u with blk := .run, ing := { u.ing with grants := true } } : State).markAll 3).tellMembers (s.origin pk) pk
                |>.finish (s.origin pk) (Cpl.done 0 0)).after))
    ∧ (Starts s pk 0x0103 1 [1] [.run] →
        (bitAt (pk.p 0) 0 = false → exec (.sysDrain pk) s
          = .next ({ u with
              blk := .drain, ing := { u.ing with grants := false },
              jobs := u.jobs ++ [{ origin := s.origin pk, opcode := pk.opcode, kind := .drain 0 [] false, lock := none }] } : State).after)
        ∧ (bitAt (pk.p 0) 0 = true → s.isRoot = true → s.locked objGroup = false →
          let others := s.liveShards.filter (fun i => decide (i ≠ s.orch.shard))
          let v := others.foldl (fun (x : State) i => x.sendTo i (.cmd (.fwd .cpa 0 s.orch.fid drainPkt)))
            ({ u with orch := { u.orch with fid := (s.orch.fid + 1) % 2 ^ 16 } } : State)
          exec (.sysDrain pk) s
            = .next (v.toDrain.addJob { origin := s.origin pk, opcode := pk.opcode, kind := .drain s.orch.fid others false, lock := some objGroup }).after))
    ∧ (Starts s pk 0x0106 1 [0xFF] rdyRunDrn → (pk.fld 0 0 8 = 0 ∨ (20 ≤ pk.fld 0 0 8 ∧ pk.fld 0 0 8 ≤ 110)) → exec (.sysPcap pk) s
        = .next (({ u with pwr := { u.pwr with capNext := some (pk.fld 0 0 8) } } : State).finish (s.origin pk) (Cpl.done (w32 (pk.fld 0 0 8)) 0)).after)

/-- SYS.SAVE and SYS.RESTORE (Table 17.5, R166, R258): SAVE, in a region large enough, writes every dirty context back and stores the save image at
the address, and answers its length; a smaller region is BAD_PARAM 0x05 and stores nothing. RESTORE at the root, with no slot in use and every listed
image whole, restores every slot, the lanes and the tenants, here and at the members; with a slot in use it is WRONG_STATE, an unreadable list or
image is FAULT 0x03, a listed address that names no image is BAD_PARAM 0x04, and an image with a wrong CRC or a reserved bit set is FAULT 0x02. What a
save writes back, where a lane's bit pointer and the last tokens stand are partly the model's choices (log 70, log 72, log 138). -/
def Obligations.SaveAndRestoreCommands : Prop :=
  ∀ (s : State) (pk : Pkt),
    let u := s.taken pk 1
    let o := s.origin pk
    (Starts s pk 0x0104 1 [all32, all32, all32] [.ready] → addrOk true (pk.p64 0) = true →
      ((pk.p 2).toNat * 4096 < s.saveLen → exec (.sysSave pk) s = .next (s.answers pk 1 (Cpl.of stBadParam 0x05)).after)
      ∧ (s.saveLen ≤ (pk.p 2).toNat * 4096 → s.locked objSelf = false →
        let t := (s.scx.map (fun c => c.1) ++ s.counts.map (fun c => c.1)).dedup.foldl (fun (x : State) n => x.saveSlot n) u
        exec (.sysSave pk) s = .next ((t.store (addrKey (pk.p64 0)) t.saveImage).finish o (Cpl.done (w32 t.saveLen) 0)).after))
    ∧ (Starts s pk 0x0105 1 [all32, all32, 0x7FF] [.ready] → addrOk false (pk.p64 0) = true → 1 ≤ pk.fld 2 0 11 → pk.fld 2 0 11 ≤ 1024 →
        s.isRoot = true →
      let bad (w : W64) : Bool := s.mem.bad (addrKey w) (imageLen s.mem (addrKey w))
      let whole (w : W64) : Bool := imageOk s.mem (addrKey w) && imageClean s.mem (addrKey w)
      ((∃ e ∈ s.slots, e.2.rstate ≠ 0) → exec (.sysRestore pk) s = .next (s.answers pk 1 (Cpl.of stWrongState 0)).after)
      ∧ ((∀ e ∈ s.slots, e.2.rstate = 0) →
        (s.mem.bad (addrKey (pk.p64 0)) (8 * pk.fld 2 0 11) = true → exec (.sysRestore pk) s = .next (s.answers pk 1 (Cpl.of stFault 0x03)).after)
        ∧ (s.mem.bad (addrKey (pk.p64 0)) (8 * pk.fld 2 0 11) = false →
          ((∃ w ∈ s.savedWords pk, addrOk true w = false) → exec (.sysRestore pk) s = .next (s.answers pk 1 (Cpl.of stBadParam 0x04)).after)
          ∧ ((∀ w ∈ s.savedWords pk, addrOk true w = true) →
            ((∃ w ∈ s.savedWords pk, bad w = true) → exec (.sysRestore pk) s = .next (s.answers pk 1 (Cpl.of stFault 0x03)).after)
            ∧ ((∀ w ∈ s.savedWords pk, bad w = false) →
              ((∃ w ∈ s.savedWords pk, whole w = false) → exec (.sysRestore pk) s = .next (s.answers pk 1 (Cpl.of stFault 0x02)).after)
              ∧ ((∀ w ∈ s.savedWords pk, whole w = true) → s.locked objGroup = false →
                let ks := (s.savedWords pk).map (fun w => addrKey w)
                exec (.sysRestore pk) s
                  = .next (((((List.range 65536).foldl (fun (x : State) n => x.restoreSlot ks n) u).restoreLanes ks).restoreTenants ks).tellMembers o pk
                      |>.finish o (Cpl.done 0 0)).after))))))

/-- CFG.SET to CFG.SLOT (Table 17.6, Table 17.7, R47, R49, R230, R231, R280): an overlay not in force is set at once and the base set or the one in
force at the next punnet boundary, as is a phase, while BUSY_RETRY meets a second; a region (the directory's brings its tables in), a consumer ring, a
head set and a slot's region take what the packet says where the state allows it; a ring that an open request names, and a slot that is not EMPTY, are
WRONG_STATE; too small a region is BAD_PARAM 0x05. Members take group commands as packets (log 10), and a change that waits comes into force as log 83
says. -/
def Obligations.ConfigurationCommands : Prop :=
  ∀ (s : State) (pk : Pkt),
    let u := s.taken pk 1
    let o := s.origin pk
    let n := pk.fld 0 0 4
    let job : Job := { origin := o, opcode := pk.opcode, kind := .phase, lock := some objPhase }
    (Starts s pk 0x0200 1 [0xF, 0x1F, 0xFFFF, 0xFFF, 0xFF, 0x7F, 0x7FFF] rdyRunDrn → s.isRoot = true → n ≤ 8 → (setVals pk).ok = true →
      (n ≠ 0 → n ≠ s.conf.phase → exec (.cfgSet pk) s
        = .next ((({ u with conf := { u.conf with ovl := Tab.set u.conf.ovl n { present := pk.fld 1 0 5, vals := setVals pk } } } : State).tellFrom
            s.asm.next pk).finish o (Cpl.done 0 0)).after)
      ∧ (n = 0 ∨ n = s.conf.phase →
        (s.conf.pend ≠ none → exec (.cfgSet pk) s = .next (s.answers pk 1 (Cpl.of stBusyRetry 0)).after)
        ∧ (s.conf.pend = none → exec (.cfgSet pk) s
          = .next (({ u with conf := { u.conf with pend := some pk } } : State).addJob job).after)))
    ∧ (Starts s pk 0x0201 1 [0xF] rdyRunDrn → s.isRoot = true → n ≤ 8 →
      (s.conf.pend ≠ none → exec (.cfgPhase pk) s = .next (s.answers pk 1 (Cpl.of stBusyRetry 0)).after)
      ∧ (s.conf.pend = none → exec (.cfgPhase pk) s
        = .next (({ u with conf := { u.conf with pend := some pk } } : State).addJob job).after))
    ∧ (∀ c, c = pk.fld 0 0 3 → c ≠ 7 → Starts s pk 0x0202 1 [0x7, all32, all32, all32, if c = 4 then 0xFFFF else 0] rdyRunDrn →
        regionAddr c (pk.p64 1) = true → (c = 6 ∨ s.blk = .ready) →
      ((pk.p 3).toNat * 4096 < s.leastSize c (pk.fld 4 0 16) → exec (.cfgRegion pk) s = .next (s.answers pk 1 (Cpl.of stBadParam 0x05)).after)
      ∧ (s.leastSize c (pk.fld 4 0 16) ≤ (pk.p 3).toNat * 4096 →
        let r : Region := { base := pk.p64 1, len := (pk.p 3).toNat * 4096 }
        (c ≠ 2 → c ≠ 3 → c ≠ 4 → exec (.cfgRegion pk) s
          = .next (({ u with conf := { u.conf with regions := Tab.set u.conf.regions c r } } : State).finish o (Cpl.done 0 0)).after)
        ∧ (c = 4 → exec (.cfgRegion pk) s
          = .next (({ u with conf := { u.conf with regions := Tab.set u.conf.regions c r, reserve := pk.fld 4 0 16 } } : State).finish o (Cpl.done 0 0)).after)
        ∧ (c = 3 → exec (.cfgRegion pk) s
          = .next ((({ u with conf := { u.conf with regions := Tab.set u.conf.regions c r } } : State).nameDir).finish o (Cpl.done 0 0)).after)
        ∧ (c = 2 → ∃ t : State, exec (.cfgRegion pk) s = .next t.after ∧ t.conf.regions = Tab.set s.conf.regions 2 r ∧ t.conf.profs = [])))
    ∧ (Starts s pk 0x0203 1 [0x3FF, all32, all32, all32, all32] rdyRunDrn → 6 ≤ pk.fld 0 4 5 → pk.fld 0 4 5 ≤ 16 →
        addrOk false (pk.p64 1) = true → addrOk false (pk.p64 3) = true → ringAligned (pk.p64 1) (pk.fld 0 4 5) = true →
      (s.ringNamed n = true → exec (.cfgRing pk) s = .next (s.answers pk 1 (Cpl.of stWrongState 0)).after)
      ∧ (s.ringNamed n = false →
        (bitAt (pk.p 0) 9 = true → s.ringUsers n = [] → exec (.cfgRing pk) s
          = .next ((u.setCring n { s.cring n with
              log2u := pk.fld 0 4 5, en := true, base := pk.p64 1, notify := pk.p64 3, pi := 0, notified := 0, credits := 2 ^ pk.fld 0 4 5,
              failed := false }).finish o (Cpl.done 0 0)).after)
        ∧ (bitAt (pk.p 0) 9 = false → exec (.cfgRing pk) s
          = .next ((u.setCring n { s.cring n with log2u := pk.fld 0 4 5, en := false, base := pk.p64 1, notify := pk.p64 3 }).finish o (Cpl.done 0 0)).after)))
    ∧ (Starts s pk 0x0204 1 [0xF, 0x3FFFFF, 0xFFFF, all32] rdyRunDrn → s.isRoot = true → pk.fld 0 2 2 ≠ 3 → 1 ≤ pk.fld 1 0 22 →
        pk.fld 1 0 22 ≤ 2 ^ 21 → pk.fld 2 0 16 % 128 = 0 → 128 ≤ pk.fld 2 0 16 → pk.fld 2 0 16 ≤ 32768 → isFin (pk.p 3) = true → fle 0 (pk.p 3) = true →
      let h := pk.fld 0 0 2
      let m := s.dMaxWith h (pk.fld 2 0 16)
      ((∃ k, k < 4 ∧ (s.bank h k).st ≠ .empty) → exec (.cfgHeadset pk) s = .next (s.answers pk 1 (Cpl.of stWrongState 0)).after)
      ∧ ((∀ k, k < 4 → (s.bank h k).st = .empty) → (s.blk = .ready ∨ m ≤ s.dMax) → (∃ r, Tab.find? s.conf.regions 0 = some r ∧ vecSize m ≤ r.len) →
          (∀ r, Tab.find? s.conf.regions 1 = some r → vecSize m ≤ r.len) → s.locked (objHead h) = false → exec (.cfgHeadset pk) s
        = .next (((({ u with conf := { u.conf with
            heads := Tab.set u.conf.heads h { norm := pk.fld 0 2 2, eps := pk.p 3, v := pk.fld 1 0 22, d := pk.fld 2 0 16 } } } : State).tellMembers
            o pk).repartition u).finish o (Cpl.done 0 0)).after))
    ∧ (Starts s pk 0x0205 1 [0x3F, all32, all32, all32] rdyRunDrn → pk.fld 0 4 2 ≠ 3 → addrOk true (pk.p64 1) = true →
      let b := s.bank (pk.fld 0 0 2) (pk.fld 0 2 2)
      let r : Region := { base := pk.p64 1, len := (pk.p 3).toNat * 4096 }
      let gives (b : Bank) : Host.Outcome State Fault Refusal := .next ((u.setBank (pk.fld 0 0 2) (pk.fld 0 2 2) b).finish o (Cpl.done 0 0)).after
      (b.st ≠ .empty → exec (.cfgSlot pk) s = .next (s.answers pk 1 (Cpl.of stWrongState 0)).after)
      ∧ (b.st = .empty →
        (pk.fld 0 4 2 = 0 → exec (.cfgSlot pk) s = gives { b with code := some r })
        ∧ (pk.fld 0 4 2 = 1 → exec (.cfgSlot pk) s = gives { b with side := some r })
        ∧ (pk.fld 0 4 2 = 2 → exec (.cfgSlot pk) s = gives { b with shadow := some r })))

/-! ## Profiles, tables, banks -/

/-- PROF.WRITE, PROF.SWAP and PROF.READ (R224, R225, R227, R229, R364, Table 17.8): a record that reads, whose PCRC holds and whose fields are within
their ranges stands in the standby generation, whose 16 records stand in the profile region where one is named; a bad one is refused by the first
check that fails. A swap makes the standby generation current, with the next number, and the former one is kept for those who pin it. A read stores
the record asked for and answers its generation. Where a record stands in the region is the model's choice (log 23). -/
def Obligations.ProfileCommands : Prop :=
  ∀ (s : State) (pk : Pkt), s.isRoot = true →
    let u := s.taken pk 1
    let o := s.origin pk
    let n := pk.fld 0 0 10
    let r := pk.fld 0 10 4
    let ob := s.prof n
    (Starts s pk 0x0300 1 [0x3FFF, all32, all32] rdyRunDrn → addrOk false (pk.p64 1) = true → s.locked (objProf n) = false →
        (ob.stby ≠ none ∨ ∀ f, ob.former = some f → s.profPins n f.1 = 0) →
      let k := addrKey (pk.p64 1)
      let ws := s.mem.words k 32
      (s.mem.bad k 128 = true → exec (.profWrite pk) s = .next (s.answers pk 1 (Cpl.of stFault 0x03)))
      ∧ (s.mem.bad k 128 = false →
        (ws.getD 31 0 ≠ crcWords (ws.take 31) → exec (.profWrite pk) s = .next (s.answers pk 1 (Cpl.of stBadParam 0x02)))
        ∧ (ws.getD 31 0 = crcWords (ws.take 31) →
          (profClean ws = false ∨ (profOf ws).ok = false ∨ (r = 0 ∧ (profOf ws).crossOk = false) →
            exec (.profWrite pk) s = .next (s.answers pk 1 (Cpl.of stBadParam 0)))
          ∧ (profClean ws = true → (profOf ws).ok = true → (r = 0 → (profOf ws).crossOk = true) →
            let rec_ : ProfRec := { p := profOf ws, present := join64 (ws.getD 28 0) (ws.getD 29 0) }
            let recs := Tab.set (ob.stby.getD ob.recs) r rec_
            let v := u.setProf n { ob with stby := some recs, former := none }
            (s.profKey n (ob.gen + 1) 0 = none → exec (.profWrite pk) s = .next ((v.tellMembers o pk).finish o (Cpl.done 0 0)))
            ∧ (∀ key, s.profKey n (ob.gen + 1) 0 = some key →
              exec (.profWrite pk) s = .next (((v.storeWords key (genWords recs)).tellMembers o pk).finish o (Cpl.done 0 0)))))))
    ∧ (Starts s pk 0x0301 1 [0x3FF] rdyRunDrn →
      (ob.stby = none → exec (.profSwap pk) s = .next (s.answers pk 1 (Cpl.of stWrongState 0)))
      ∧ (∀ recs, ob.stby = some recs → s.locked (objProf n) = false →
        let g := (ob.gen + 1) % 2 ^ 16
        exec (.profSwap pk) s
          = .next ((((u.setProf n { gen := g, recs := recs, stby := none, former := some (ob.gen, ob.recs) }).logSwap (swapProf n) g).tellMembers
              o pk).finish o (Cpl.done 0 g))))
    ∧ (Starts s pk 0x0302 1 [0x7FFF, all32, all32] rdyRunDrn → addrOk false (pk.p64 1) = true →
      (bitAt (pk.p 0) 14 = true → ob.stby = none → exec (.profRead pk) s = .next (s.answers pk 1 (Cpl.of stWrongState 0)))
      ∧ (bitAt (pk.p 0) 14 = false →
        let x := Tab.get ob.recs r ProfRec.dflt
        exec (.profRead pk) s = .next ((u.storeWords (addrKey (pk.p64 1)) (profWords x.p x.present)).finish o (Cpl.done 0 ob.gen)))
      ∧ (∀ recs, bitAt (pk.p 0) 14 = true → ob.stby = some recs →
        let x := Tab.get recs r ProfRec.dflt
        exec (.profRead pk) s
          = .next ((u.storeWords (addrKey (pk.p64 1)) (profWords x.p x.present)).finish o (Cpl.done 0 ((ob.gen + 1) % 2 ^ 16)))))

/-- TBL.LOAD, TBL.SWAP, TBL.FREE and TBL.QUERY (R174, R185, R188, R365, Table 17.9): a whole image becomes the standby of its object, a bad one is
answered with the first check it fails, and a pinned former generation in the second slot is BUSY_RETRY; a swap makes the standby current with the
next number, and keeps a pinned current one as former; a freed generation that is not pinned goes, a pinned one only with FORCE, and then the rows
that pin it are void; a query answers pins, standby, second slot and generation. That an image is kept as it was read, and the bound of its lists, are
the model's choices (log 151, log 152). -/
def Obligations.TableCommands : Prop :=
  ∀ (s : State) (pk : Pkt), s.isRoot = true → tblNumOk pk = true →
    let u := s.taken pk 1
    let o := s.origin pk
    let k := tblKey pk
    let t := s.tbl k
    let free := s.locked (objTable (pk.fld 0 0 2) (pk.fld 0 2 8)) = false
    (Starts s pk 0x0400 1 [0x3FF, all32, all32, all32] rdyRunDrn → addrOk true (pk.p64 1) = true →
      (s.secondFree k = false → exec (.tblLoad pk) s = .next (s.answers pk 1 (Cpl.of stBusyRetry 0)))
      ∧ (s.secondFree k = true → free →
        (∀ c, readImage s.mem (pk.fld 0 0 2) (addrKey (pk.p64 1)) (pk.p 3).toNat = .error c →
          exec (.tblLoad pk) s = .next (s.answers pk 1 c))
        ∧ (∀ img, readImage s.mem (pk.fld 0 0 2) (addrKey (pk.p64 1)) (pk.p 3).toNat = .ok img →
          exec (.tblLoad pk) s = .next (((u.setTbl k { t with second := .standby img }).tellMembers o pk).finish o (Cpl.done 0 0)))))
    ∧ (Starts s pk 0x0401 1 [0x3FF] rdyRunDrn →
      (t.standby = none → exec (.tblSwap pk) s = .next (s.answers pk 1 (Cpl.of stWrongState 0)))
      ∧ (∀ img, t.second = .standby img → free →
        let g := (t.last + 1) % 2 ^ 16
        let swapped (x : Second) := ((((u.setTbl k { t with cur := some { num := g, img := img }, second := x, last := g }).logSwap k g).tellMembers
          o pk).finish o (Cpl.done 0 g))
        (t.cur = none → exec (.tblSwap pk) s = .next (swapped .empty))
        ∧ (∀ c, t.cur = some c → s.tblPins k c.num = 0 → exec (.tblSwap pk) s = .next (swapped .empty))
        ∧ (∀ c, t.cur = some c → 0 < s.tblPins k c.num → exec (.tblSwap pk) s = .next (swapped (.former c)))))
    ∧ (Starts s pk 0x0402 1 [0xFFF] rdyRunDrn →
      let cur := bitAt (pk.p 0) 11
      let force := bitAt (pk.p 0) 10
      let done (x : State) : Host.Outcome State Fault Refusal := .next ((x.tellMembers o pk).finish o (Cpl.done 0 0))
      (((cur = true ∧ t.cur = none) ∨ (cur = false ∧ t.second = .empty)) → exec (.tblFree pk) s = .next (s.answers pk 1 (Cpl.of stWrongState 0)))
      ∧ (∀ c, cur = true → t.cur = some c → 0 < s.tblPins k c.num → force = false →
          exec (.tblFree pk) s = .next (s.answers pk 1 (Cpl.of stBusyRetry 0)))
      ∧ (free →
        (∀ c, cur = true → t.cur = some c → s.tblPins k c.num = 0 → exec (.tblFree pk) s = done (u.setTbl k { t with cur := none }))
        ∧ (∀ c, cur = true → t.cur = some c → 0 < s.tblPins k c.num → force = true →
          exec (.tblFree pk) s = done ((u.setTbl k { t with cur := none }).tblVanish k c.num false))
        ∧ (∀ img, cur = false → t.second = .standby img → exec (.tblFree pk) s = done (u.setTbl k { t with second := .empty }))
        ∧ (∀ g, cur = false → t.second = .former g → 0 < s.tblPins k g.num → force = true →
          exec (.tblFree pk) s = done ((u.setTbl k { t with second := .empty }).tblVanish k g.num false))))
    ∧ (Starts s pk 0x0403 1 [0x3FF] rdyRunDrn →
      (t.cur = none → t.standby = none → s.secondFree k = true → exec (.tblQuery pk) s = .next (s.answers pk 1 (Cpl.of stWrongState 0)))
      ∧ (∀ c, t.cur = some c → exec (.tblQuery pk) s
        = .next (s.answers pk 1 (Cpl.done (w32 (min (s.tblPins k c.num) 65535 + putBits (b2n t.standby.isSome) 16 + putBits (b2n (!s.secondFree k)) 17))
            c.num))))

/-- The allow set of a grammar state (R175): by mode everything, what the mask allows, the allow list, or mask and allow list without the deny list;
and of these the entries below NVOCAB that lead to a next state, by a transition of their own or by the default. -/
def Obligations.GrammarAllowSet : Prop :=
  ∀ (g : GState) (nv : Nat) (mask : Option Image) (v : Nat),
    let m := (mask.map (fun i => i.maskBit v)).getD false
    g.allows nv mask v = true ↔
      ((g.mode = 0) ∨ (g.mode = 1 ∧ m = true) ∨ (g.mode = 2 ∧ v ∈ g.allow) ∨ (3 ≤ g.mode ∧ (m = true ∨ v ∈ g.allow) ∧ v ∉ g.deny))
      ∧ v < nv ∧ ((∃ e ∈ g.trans, e.1 = v) ∨ ∃ d, g.dflt = some d)

/-- EPOCH.LOAD and REQUANT_PART_DONE (R281, R283, R285 to R288, Table 17.10, Table 14.1): a load whose checks pass is prepared in its slot, which
stays EMPTY until every instance has said that its regions hold its part; then it is LOADING, and the command stays open until each has reported. A
part that is done is written, and reported with its CRC; a read error is reported with DETAIL 0x11, a conversion that fails with its own, and a part
that does not fit with 0x05. At the root a failed report empties the slot and ends the command with FAULT; reports that disagree fail the load too,
and with the last of those that agree the slot is READY. How members hear the start and the end of a load, the bytes under the bank CRC, and the
status of a load that meets one being prepared are the model's choices (log 38, log 40, log 42, log 132). -/
def Obligations.BankLoadCommands : Prop :=
  (∀ (s : State) (pk : Pkt), Starts s pk 0x0500 1 [all32, all32] rdyRunDrn → addrOk false (pk.p64 0) = true → s.isRoot = true →
    let u := s.taken pk 1
    let o := s.origin pk
    let ws := s.blockAt (pk.p64 0) 32
    let h := blkHead ws
    let k := blkSlot ws
    (∀ c, epochLoadPre pk u = some c → exec (.epochLoad pk) s = .next (s.answers pk 1 c).after)
    ∧ (epochLoadPre pk u = none → s.locked (objBank h k) = false →
      let v := (((u.prepare ws).addJob { origin := o, opcode := pk.opcode, kind := .load h k, lock := some (objBank h k) }).tellMembers o pk).startLoad h k
      exec (.epochLoad pk) s = .next v.after
      ∧ (s.orch.n = 1 → s.orch.shard = 0 → (v.bank h k).st = .loading)
      ∧ (∀ i, i < s.orch.n → i ≠ s.orch.shard → (v.bank h k).st = .empty)))
  ∧ (∀ (s : State) (h k : Nat), s.working = true → (s.bank h k).st = .loading → (∀ r ∈ (s.bank h k).reports, r.1 ≠ s.orch.shard) →
    let b := s.bank h k
    let c0 := s.convStart b.blk.srseed 0
    let s0 := s.convEnd c0
    (exec (.requantPartDone h k none .memory) s = .next (s0.sendReady h k 0x11).after)
    ∧ (∀ d, s.convBank h k c0 = .error d → exec (.requantPartDone h k none .none) s = .next (s0.sendReady h k d).after)
    ∧ (∀ x c, s.convBank h k c0 = .ok (x, c) →
      (s.partRoom h k b.fmt b.use x.outl.length b.blk = false → exec (.requantPartDone h k none .none) s = .next (s0.sendReady h k 0x05).after)
      ∧ (s.partRoom h k b.fmt b.use x.outl.length b.blk = true → s.isRoot = true →
        let v := ((s.convEnd c).setBank h k { b with data := x.data c.next }).writeBank h k x
        exec (.requantPartDone h k none .none) s = .next ((v.setBank h k { v.bank h k with crc := v.bankCrc h k }).sendReady h k 0).after)))
  ∧ (∀ (s : State) (h k : Nat) (v : Nat) (x : Variant), s.working = true → (s.bank h k).st = .active → Tab.find? (s.bank h k).vars v = some x →
      x.go = true → x.reports.contains s.orch.shard = false →
    exec (.requantPartDone h k (some v) .memory) s = .next (s.sendReady h k 0x11).after)
  ∧ (∀ (s : State) (sh : Nat) (r : ReadyB), (s.bank r.hset r.slot).st = .loading → r.detail ≠ 0 →
    ((s.rootReady sh r).bank r.hset r.slot).st = .empty)
  ∧ (∀ (s : State) (h k : Nat), (s.bank h k).st = .loading → (∀ i, i < s.orch.n → ∃ r ∈ (s.bank h k).reports, r.1 = i) →
    let same (r : ReadyB) : Prop := r.epoch = (s.bank h k).epoch ∧ r.fmt = (s.bank h k).fmt ∧ r.d = (s.head h).d ∧ r.v = (s.head h).v
    ((∀ r ∈ (s.bank h k).reports, same r.2) → ((s.checkLoad h k).bank h k).st = .ready)
    ∧ ((∃ r ∈ (s.bank h k).reports, ¬same r.2) → ((s.checkLoad h k).bank h k).st = .empty))

/-- EPOCH.SWITCH, EPOCH.REFSET, EPOCH.DROP and EPOCH.QUERY (R220, R289, R290, R292, R369): a switch with no READY bank of its epoch is WRONG_STATE;
one behind a RETAINED bank is ACCEPTED and deferred, with its cause set; any other begins: the members are told and the barrier of the head set is
entered. REFSET replaces the REFERENCE bank unless rows need it. DROP ends a load, a READY bank or a REFERENCE bank. QUERY stores the four slot
entries. EPOCH.VLOAD and EPOCH.VFREE (R293): a variant of an epoch with no READY or ACTIVE bank, or one whose number is taken, is WRONG_STATE; the
number of one that is freed and has not drained is BUSY_RETRY; one that fits is listed on every instance, its load starts when each has said that its
regions hold it, and the command stays open until each has it; a resident one that is freed is marked, and goes at a boundary. That REFSET applies at
once, the DETAIL of a dropped load, and the status for a variant that still drains are the model's choices (log 74, log 76, log 133). -/
def Obligations.BankRoleAndVariantCommands : Prop :=
  (∀ (s : State) (pk : Pkt), s.isRoot = true →
    let o := s.origin pk
    let h := epochHead pk
    let e := epochOf pk
    (Starts s pk 0x0501 2 [0x3, 0xFFFF] rdyRunDrn → s.switchOf h ≠ some .deferred →
      let u := s.taken pk 2
      let v := u.addJob { origin := o, opcode := pk.opcode, kind := .switch h e .deferred, lock := some (objHead h) }
      (s.incoming h e = none → exec (.epochSwitch pk) s = .next (s.answers pk 2 (Cpl.of stWrongState 0)).after)
      ∧ (s.incoming h e ≠ none → s.locked (objHead h) = false →
        (s.slotIn h .retained ≠ none →
          exec (.epochSwitch pk) s = .next (((v.complete o false (switchCpl stAccepted (epochOf pk))).setCause cDeferred).after))
        ∧ (s.slotIn h .retained = none → exec (.epochSwitch pk) s = .next (v.beginSwitch h e).after)))
    ∧ (Starts s pk 0x0502 1 [0x3, 0xFFFF] rdyRunDrn →
      let u := s.taken pk 1
      (s.refReady h e = none → exec (.epochRefset pk) s = .next (s.answers pk 1 (Cpl.of stWrongState 0)).after)
      ∧ (∀ k, s.refReady h e = some k →
        (s.refBusy h = true → exec (.epochRefset pk) s = .next (s.answers pk 1 (Cpl.of stBusyRetry 0)).after)
        ∧ (s.refBusy h = false → s.locked (objBank h k) = false →
          exec (.epochRefset pk) s = .next (((u.setRef h (some k)).tellMembers o pk).finish o (Cpl.done 0 0)).after)))
    ∧ (Starts s pk 0x0503 1 [0x3, 0xFFFF] rdyRunDrn →
      let u := s.taken pk 1
      (s.anySlot h e = none → exec (.epochDrop pk) s = .next (s.answers pk 1 (Cpl.of stWrongState 0)).after)
      ∧ (∀ k, s.anySlot h e = some k →
        ((s.bank h k).st = .loading →
          exec (.epochDrop pk) s = .next (((u.failLoad h k 0x15).tellMembers o pk).finish o (Cpl.done 0 0)).after)
        ∧ ((s.bank h k).st = .ready →
          (s.switching h e = true → exec (.epochDrop pk) s = .next (s.answers pk 1 (Cpl.of stBusyRetry 0)).after)
          ∧ (s.switching h e = false →
            let v := u.endJobs (fun j => decide (j.kind = JobKind.switch h e .deferred)) (fun _ => switchCpl stAbandoned e)
            let w := (v.endJobs (isVload h k) (fun _ => Cpl.of stFault 0x15)).setBank h k (s.bank h k).emptied
            exec (.epochDrop pk) s = .next ((w.tellMembers o pk).finish o (Cpl.done 0 0)).after))
        ∧ ((s.bank h k).st = .active → exec (.epochDrop pk) s = .next (s.answers pk 1 (Cpl.of stWrongState 0)).after)
        ∧ ((s.bank h k).st = .reference → s.refBusy h = true → exec (.epochDrop pk) s = .next (s.answers pk 1 (Cpl.of stBusyRetry 0)).after)
        ∧ ((s.bank h k).st = .reference → s.refBusy h = false →
          exec (.epochDrop pk) s = .next (((u.setRef h none).tellMembers o pk).finish o (Cpl.done 0 0)).after)))
    ∧ (Starts s pk 0x0506 1 [0x3, all32, all32] rdyRunDrn → addrOk false (pk.p64 1) = true →
      exec (.epochQuery pk) s
        = .next (((s.taken pk 1).storeWords (addrKey (pk.p64 1)) ((List.range 4).flatMap (fun k => slotEntWords (s.slotEntry h k)))).finish o
            (Cpl.done (w32 (b2n (decide (s.switchOf h = some .deferred)))) 0)).after))
  ∧ (∀ (s : State) (pk : Pkt), s.isRoot = true →
    let u := s.taken pk 1
    let o := s.origin pk
    let h := epochHead pk
    let e := epochOf pk
    let v := pk.fld 2 0 6
    (Starts s pk 0x0504 1 [0x3, 0xFFFF, 0x1FFF, all32, all32, all32, all32] rdyRunDrn → 1 ≤ pk.fld 2 6 7 → pk.fld 2 6 7 ≤ 64 →
        addrOk false (pk.p64 3) = true → addrOk false (pk.p64 5) = true →
      (s.varSlot h e = none → exec (.epochVload pk) s = .next (s.answers pk 1 (Cpl.of stWrongState 0)).after)
      ∧ (∀ k, s.varSlot h e = some k → s.locked (objBank h k) = false →
        let b := s.bank h k
        (∀ y, Tab.find? b.vars v = some y → y.gone = false → exec (.epochVload pk) s = .next (s.answers pk 1 (Cpl.of stWrongState 0)).after)
        ∧ (∀ y, Tab.find? b.vars v = some y → y.gone = true → exec (.epochVload pk) s = .next (s.answers pk 1 (Cpl.of stBusyRetry 0)).after)
        ∧ (Tab.find? b.vars v = none → s.varRoom h k (pk.fld 2 6 7) = false →
          exec (.epochVload pk) s = .next (s.answers pk 1 (Cpl.of stBadParam 0x05)).after)
        ∧ (Tab.find? b.vars v = none → s.varRoom h k (pk.fld 2 6 7) = true →
          let at_ := s.varPlace h k (pk.fld 2 6 7)
          let x : Variant := { rank := pk.fld 2 6 7, srcA := pk.p64 3, srcB := pk.p64 5, reports := [], go := false, usable := false, freeing := false,
                               gone := false, here := false, code := at_.1, side := at_.2 }
          let w := ((u.setBank h k { b with vars := Tab.set b.vars v x }).addJob
            { origin := o, opcode := pk.opcode, kind := .vload h k v, lock := some (objBank h k) }).tellMembers o pk
          exec (.epochVload pk) s = .next (w.varRoomSaid h k v s.orch.shard).after)))
    ∧ (Starts s pk 0x0505 1 [0x3, 0xFFFF, 0x3F] rdyRunDrn →
      (s.varHome h e v = none → exec (.epochVfree pk) s = .next (s.answers pk 1 (Cpl.of stWrongState 0)).after)
      ∧ (∀ k, s.varHome h e v = some k → s.locked (objBank h k) = false →
        let b := s.bank h k
        exec (.epochVfree pk) s = .next ((((u.setBank h k { b with
            vars := b.vars.map (fun (x : Nat × Variant) => if x.1 = v then (v, { x.2 with freeing := true }) else x) }).addJob
          { origin := o, opcode := pk.opcode, kind := .vfree h k v, lock := some (objBank h k) }).tellMembers o pk).after))))

/-! ## Requests and tenants -/

/-- REQ.OPEN, REQ.CLOSE, REQ.CANCEL, REQ.RELEASE, REQ.QUERY and CANCEL (R193, R271, R272, R277, R370, R371, Table 17.14): at the home of the slot an
open block that passes its checks opens it under the next generation, tells the other members, and is done at once, or once its prompt's HRECs are
out. A close ends it, unless a row of it is in flight. A cancel, at the root, marks it and is broadcast with its tick; every instance that hears the
broadcast marks it. A release takes it from HOLD to OPEN. A query stores its core. A handle that names no request is WRONG_STATE. The first generation
of a slot (log 9) and when a prompt is done (log 118) are the model's choices. -/
def Obligations.RequestCommands : Prop :=
  ∀ (s : State) (pk : Pkt),
    let u := s.taken pk 1
    let o := s.origin pk
    let n := pk.fld 0 0 16
    let hd := pk.handle
    let free := s.locked (objReq n) = false
    (s.isHome n = true →
      (Starts s pk 0x0600 1 [0xFFFF, all32, all32] rdyRunDrn → addrOk false (pk.p64 1) = true →
        (∀ c, reqOpenPre pk u = some c → exec (.reqOpen pk) s = .next (s.answers pk 1 c).after)
        ∧ (reqOpenPre pk u = none → free →
          let x := u.openSlot pk
          x.2.1 = { slot := n, gen := ((s.slot n).gen + 1) % 256 }
          ∧ (x.2.2 = [] → exec (.reqOpen pk) s
              = .next ((x.1.tellEach o pk).finish o (Cpl.done (w32 (handleNat { slot := n, gen := ((s.slot n).gen + 1) % 256 })) 0)).after)
          ∧ (x.2.2 ≠ [] →
              let v := x.1.tellEach o pk
              exec (.reqOpen pk) s = .next ((((v.emit (x.2.2.map (fun w => promptRec x.2.1 (v.ctx n).kvring w v.now))).addJob
                { origin := o, opcode := pk.opcode, kind := .openNotify n, lock := some (objReq n) }).pump).after))))
      ∧ (Starts s pk 0x0601 1 [0xFFFFFF] rdyRunDrn →
        (s.noReq hd = true → exec (.reqClose pk) s = .next (s.answers pk 1 (Cpl.of stWrongState 0)).after)
        ∧ (s.noReq hd = false → (s.ctx hd.slot).canc = false →
          (s.reqBusy hd.slot = true → exec (.reqClose pk) s = .next (s.answers pk 1 (Cpl.of stBusyRetry 0)).after)
          ∧ (s.reqBusy hd.slot = false → free →
            exec (.reqClose pk) s = .next (((u.tellEach o pk).closeSlot hd.slot).finish o (Cpl.done 0 0)).after
            ∧ (((u.tellEach o pk).closeSlot hd.slot).slot hd.slot).rstate = 0)))
      ∧ (Starts s pk 0x0605 1 [0xFFFFFF] rdyRunDrn → s.noReq hd = false → (s.ctx hd.slot).canc = false →
        ((s.slot hd.slot).rstate ≠ 2 ∨ s.releasable hd.slot = false → exec (.reqRelease pk) s = .next (s.answers pk 1 (Cpl.of stWrongState 0)).after)
        ∧ ((s.slot hd.slot).rstate = 2 → s.releasable hd.slot = true → free →
          exec (.reqRelease pk) s
            = .next (((u.setSlot hd.slot { s.slot hd.slot with rstate := 1 }).tellEach o pk).finish o (Cpl.done 0 0)).after))
      ∧ (Starts s pk 0x0606 1 [0xFFFFFF, all32, all32] rdyRunDrn → addrOk false (pk.p64 1) = true →
        (s.noReq hd = true → exec (.reqQuery pk) s = .next (s.answers pk 1 (Cpl.of stWrongState 0)).after)
        ∧ (s.noReq hd = false → exec (.reqQuery pk) s
          = .next ((u.storeWords (addrKey (pk.p64 1)) (s.coreWords hd.slot)).finish o
              (Cpl.done (w32 ((s.slot hd.slot).rstate % 8 + putBits (b2n (s.slot hd.slot).lost) 3)) 0)).after)))
    ∧ (Starts s pk 0x0602 1 [0xFFFFFF] rdyRunDrn → s.isRoot = true →
      (s.noReq hd = true → exec (.reqCancel pk) s = .next (s.answers pk 1 (Cpl.of stWrongState 0)).after)
      ∧ (s.noReq hd = false → free →
        let v := (u.setCanc hd).addJob
          { origin := o, opcode := pk.opcode, kind := .cancel hd.slot, lock := some (objReq hd.slot) }
        exec (.reqCancel pk) s = .next (v.bcastOthers { hdr := v.hdr 0 true 0 0 0 hd, body := .cancel (BitVec.ofNat 64 v.now) }).after))
    ∧ (∀ (h : Hdr) (k : W64), s.working = true → h.parity = false → hdrBroken h = false →
        exec (.cancel h k) s = .next (s.taking { hdr := h, body := .cancel k } ((s.passOn h (.cancel k)).setCanc h.handle)).after)

/-- REQ.PARK, REQ.RESUME and what time does to a context (R254 to R256, Table 17.14): an open request that is not in flight parks at once, with the
time its TTL gives; with the T2 hint every instance first moves its parts down and says whether it found room (log 42). A parked one resumes before
that time, its raw parts back in T1; past it, it is EXPIRED, as CONTEXT_EXPIRY makes it when the time has come; then its pages are freed. A doubled
history is resident again in the larger table, its pending pairs recorded. NO_SPACE without a region, and parts already moved (log 78, log 122), and
RESUME of an expired context (log 77) are readings. -/
def Obligations.ParkedContexts : Prop :=
  (∀ (s : State) (pk : Pkt),
    let u := s.taken pk 1
    let o := s.origin pk
    let hd := pk.handle
    s.isHome (pk.fld 0 0 16) = true → s.noReq hd = false → (s.ctx hd.slot).canc = false →
      (Starts s pk 0x0603 1 [0xFFFFFF, 0xFFFFFF, 0x1] rdyRunDrn →
        let n := hd.slot
        let x := (u.tellEach o pk).park n (pk.fld 1 0 24) 0
        let y := (u.dropTent n).allToT2 n
        let others := (List.range y.1.orch.n).filter (fun i => decide (i ≠ y.1.orch.shard))
        (s.reqBusy hd.slot = true → exec (.reqPark pk) s = .next (s.answers pk 1 (Cpl.of stBusyRetry 0)).after)
        ∧ (s.reqBusy hd.slot = false → (s.slot hd.slot).rstate ≠ 1 → exec (.reqPark pk) s = .next (s.answers pk 1 (Cpl.of stWrongState 0)).after)
        ∧ (s.reqBusy hd.slot = false → (s.slot hd.slot).rstate = 1 → s.locked (objReq (pk.fld 0 0 16)) = false →
          (pk.fld 2 0 1 = 0 → exec (.reqPark pk) s = .next (x.finish o (Cpl.done 0 0)).after ∧ (x.slot n).rstate = 3)
          ∧ (pk.fld 2 0 1 = 1 →
            let v := others.foldl (fun (t : State) i => t.sendTo i (.cmd (.ack n 14)))
              (y.1.addJob { origin := o, opcode := pk.opcode, kind := .park n (pk.fld 1 0 24) [] false, lock := some (objReq n) })
            exec (.reqPark pk) s = .next (v.parkSaid n v.orch.shard y.2).after)))
      ∧ (Starts s pk 0x0604 1 [0xFFFFFF] rdyRunDrn →
        ((s.slot hd.slot).rstate = 4 → exec (.reqResume pk) s = .next (s.answers pk 1 (Cpl.of stExpired 0)).after)
        ∧ ((s.slot hd.slot).rstate = 1 → exec (.reqResume pk) s = .next (s.answers pk 1 (Cpl.of stWrongState 0)).after)
        ∧ ((s.slot hd.slot).rstate = 3 → s.locked (objReq (pk.fld 0 0 16)) = false →
          (s.now < (s.ctx hd.slot).expiry.toNat → exec (.reqResume pk) s
            = .next ((((u.rawBack hd.slot).setSlot hd.slot { (u.rawBack hd.slot).slot hd.slot with rstate := 1 }).tellEach o pk).finish o
                (Cpl.done 0 0)).after)
          ∧ ((s.ctx hd.slot).expiry.toNat ≤ s.now → exec (.reqResume pk) s
            = .next (((u.setSlot hd.slot { s.slot hd.slot with rstate := 4 }).tellEach o pk).finish o (Cpl.of stExpired 0)).after))))
  ∧ (∀ (s : State) (n : Nat), s.live = true → s.blk ≠ .safe →
    ((s.slot n).rstate = 3 → (s.ctx n).expiry.toNat ≤ s.now → exec (.contextExpiry n) s = .next (s.setSlot n { s.slot n with rstate := 4 }))
    ∧ ((s.slot n).rstate ≠ 3 ∨ s.now < (s.ctx n).expiry.toNat → exec (.contextExpiry n) s = .next s)
    ∧ ((s.slot n).rstate = 4 → ∃ t, exec (.expiredPagesFreed n) s = .next t ∧ Tab.find? t.scx n = none ∧ Tab.find? t.counts n = none
        ∧ (∀ p, 1 ≤ p → p ≤ 5 → t.usedOf n p = 0) ∧ (t.slot n).rstate = 4)
    ∧ ((s.ctx n).doubling = true → exec (.historyDoublingDone n) s
        = .next ((s.setCtx n { (s.ctx n).doubleHist with doubling := false }).histApply n))
    ∧ ((s.ctx n).doubling = false → exec (.historyDoublingDone n) s = .next s))

/-- Tenant budgets (R267, R270, R278, R372, Table 17.15): TEN.SET changes the fields it names, BURST moving an enforced balance by as much and a new
LIMIT filling it; TEN.QUERY stores the record, and with CLEAR zeroes its meters; a refill, at the root on a multiple of 100,000 ticks, adds RATE to
every enforced balance below BURST, up to BURST. That members keep the settings is the model's choice (log 134). -/
def Obligations.TenantBudgets : Prop :=
  (∀ (s : State) (pk : Pkt), s.isRoot = true →
    let u := s.taken pk 1
    let o := s.origin pk
    let n := pk.fld 0 0 12
    let t := s.tenant n
    (Starts s pk 0x0700 1 [0xFFFF, 0xFFFFFF, all32] rdyRunDrn → (bitAt (pk.p 0) 14 = true → pk.p 2 ≠ 0) →
      let burst := (pk.p 2).toNat
      let b := if bitAt (pk.p 0) 14 then burst else t.burst
      let bal := if bitAt (pk.p 0) 14 ∧ t.limit = true then t.bal + ((burst : Int) - (t.burst : Int)) else t.bal
      exec (.tenSet pk) s = .next ((u.setTenant n { t with
        rate := if bitAt (pk.p 0) 13 then pk.fld 1 0 24 else t.rate,
        burst := b,
        limit := if bitAt (pk.p 0) 12 then bitAt (pk.p 0) 15 else t.limit,
        bal := if bitAt (pk.p 0) 12 ∧ bitAt (pk.p 0) 15 ∧ t.limit = false then (b : Int) else bal }).tellMembers o pk |>.finish o (Cpl.done 0 0)).after)
    ∧ (Starts s pk 0x0701 1 [0x1FFF, all32, all32] rdyRunDrn → addrOk false (pk.p64 1) = true →
      let v := u.storeWords (addrKey (pk.p64 1)) (tenantWords t)
      (bitAt (pk.p 0) 12 = false → exec (.tenQuery pk) s = .next (v.finish o (Cpl.done 0 0)).after)
      ∧ (bitAt (pk.p 0) 12 = true → exec (.tenQuery pk) s = .next ((v.setTenant n { t with charged := 0, nhold := 0 }).finish o (Cpl.done 0 0)).after)))
  ∧ (∀ (s : State), s.working = true →
    (s.isRoot = true → s.now % 100000 = 0 → ∃ t, exec .budgetRefill s = .next (State.after t) ∧ ∀ n x, Tab.find? s.tenants n = some x →
      Tab.find? t.tenants n = some { x with
        bal := if x.limit = true ∧ x.bal < (x.burst : Int) then min (x.burst : Int) (x.bal + (x.rate : Int)) else x.bal })
    ∧ (s.isRoot = false ∨ s.now % 100000 ≠ 0 → exec .budgetRefill s = .next s.after))

/-! ## The shard group; diagnosis, repair and captures -/

/-- ORCH.CONFIG, ORCH.DISCOVER, ORCH.QUERY, ORCH.REJOIN, DISC and DISCOVERY_SETTLED (R302 to R307, R374, Table 17.18): the configuration is taken and
the ports follow it; discovery gives the instance its address, starts with its own entry alone, sends it on every trained link, and ends when it
settles: a clash of addresses is FAULT 0x40, too many instances FAULT 0x41, a member in RUN WRONG_STATE, and else a group forms, the root is the
lowest address, and the command answers root and shard. An entry that is new is learned and sent on; one that is known changes nothing. A rejoin waits
for its digest. That an instance in RUN answers DISC with its own entry is a reading (log 26). -/
def Obligations.DiscoveryAndMembership : Prop :=
  (∀ (s : State) (pk : Pkt),
    let u := s.taken pk 1
    let o := s.origin pk
    (Starts s pk 0x0900 1 [0xFFF, 0x0FFF0FFF, 0xFFF, 0xFFFF, 0xFFFFF] [.ready] → 16 ≤ pk.fld 1 0 12 → 16 ≤ pk.fld 1 16 12 → 16 ≤ pk.fld 2 0 12 →
        100 ≤ pk.fld 3 0 16 → 1000 ≤ pk.fld 4 0 20 → pk.fld 4 0 20 ≤ 1000000 →
      exec (.orchConfig pk) s = .next ((({ u with orch := { u.orch with
          cfg := { pkg := pk.fld 0 0 7, porten := pk.fld 0 7 5, rtIn := pk.fld 1 0 12, rtOut := pk.fld 1 16 12, linkto := pk.fld 2 0 12,
                   dsettle := pk.fld 3 0 16, dlwin := pk.fld 4 0 20 } } } : State).setPorts (pk.fld 0 7 5)).finish o (Cpl.done 0 0)))
    ∧ (Starts s pk 0x0901 1 [] [.ready] → s.locked objGroup = false →
      let v : State := { u with
        orch := { u.orch with addr := instAddr u.orch.cfg.pkg },
        jobs := u.jobs ++ [{ origin := o, opcode := pk.opcode, kind := .discover, lock := some objGroup }] }
      exec (.orchDiscover pk) s = .next ({ v with orch := { v.orch with disc := 1, known := [v.ownEntry], ovf := false } } : State).sendDisc)
    ∧ (Starts s pk 0x0902 1 [] [.ready] → s.isRoot = true → s.locked objGroup = false →
      (s.orch.member = false ∨ (∀ m ∈ s.orch.members, m.shard ≠ s.orch.shard) →
        exec (.orchRejoin pk) s = .next (s.answers pk 1 (Cpl.of stWrongState 0)).after)
      ∧ (s.orch.member = true → (∃ m ∈ s.orch.members, m.shard = s.orch.shard) → exec (.orchRejoin pk) s
        = .next ({ u with jobs := u.jobs ++ [{ origin := o, opcode := pk.opcode, kind := .rejoin none, lock := some objGroup }] } : State).after))
    ∧ (Starts s pk 0x0903 1 [0x7] allButDump → pk.fld 0 0 3 ≤ 4 →
      let l := s.orch.link (pk.fld 0 0 3)
      ∃ failed, failed ≤ 9 ∧ exec (.orchQuery pk) s
        = .next (s.answers pk 1 (Cpl.done (w32 (l.st % 4 + putBits (l.lanes % 16) 2 + putBits (b2n l.spare) 6 + putBits (failed % 32) 7))
            (s.cnt (offRetrain (pk.fld 0 0 3)) % 65536)))))
  ∧ (∀ (s : State) (p : Nat) (ovf : Bool) (es : List DiscEnt), s.live = true → s.orch.disc ≠ 0 →
    (learn (s.orch.known, s.orch.ovf || ovf) es = (s.orch.known, s.orch.ovf) → exec (.disc p ovf es) s = .next s)
    ∧ (learn (s.orch.known, s.orch.ovf || ovf) es ≠ (s.orch.known, s.orch.ovf) →
      let k := learn (s.orch.known, s.orch.ovf || ovf) es
      exec (.disc p ovf es) s = .next ({ s with orch := { s.orch with known := k.1, ovf := k.2 } } : State).sendDisc))
  ∧ (∀ (s : State), s.live = true → s.orch.disc = 1 →
    let alone : State := { s with orch := { s.orch with disc := 0 } }
    (clash s.orch.known = true → exec .discoverySettled s = .next (alone.endDiscover (Cpl.of stFault 0x40)).after)
    ∧ (clash s.orch.known = false → s.orch.ovf = true → exec .discoverySettled s = .next (alone.endDiscover (Cpl.of stFault 0x41)).after)
    ∧ (clash s.orch.known = false → s.orch.ovf = false → (∃ e ∈ s.orch.known, e.run = true) →
      exec .discoverySettled s = .next (alone.endDiscover (Cpl.of stWrongState 0)).after)
    ∧ (clash s.orch.known = false → s.orch.ovf = false → (∀ e ∈ s.orch.known, e.run = false) →
      let g := s.formGroup
      ∃ root, exec .discoverySettled s
        = .next (g.endDiscover (Cpl.done (w32 (root % 1024 + putBits (g.orch.shard % 1024) 16)) g.orch.n)).after
        ∧ g.orch.n = s.orch.known.length ∧ g.orch.member = true ∧ g.orch.disc = 0))

/-- DIAG.INJECT, DIAG.SELFTEST, DIAG.SNAP and DIAG.TRACE (R375, R406, R407, R415, Table 17.19): an injection whose parameter is out of its target's
range is BAD_PARAM; one is armed where injection is enabled, and the fatal targets where that is too, and is WRONG_STATE elsewhere; a self-test lists
the units of its mask and lasts until each has been visited; a snapshot stores every counter; the trace takes its enable and class. Where an armed
target fires is the model's choice (log 117). -/
def Obligations.DiagnosisCommands : Prop :=
  ∀ (s : State) (pk : Pkt),
    let u := s.taken pk 1
    let o := s.origin pk
    (Starts s pk 0x0A00 1 [0xFFFF, all32] rdyRunDrn → 1 ≤ pk.fld 0 0 8 → pk.fld 0 0 8 ≤ 0x10 →
      let t := pk.fld 0 0 8
      let rest := s.faults.inj.filter (fun i => decide (i.target ≠ t))
      let inRange := injParam t (pk.p 1).toNat = true ∨ (pk.fld 0 8 8 = 1 ∧ pk.p 1 = 0xFFFFFFFF)
      (¬inRange → exec (.diagInject pk) s = .next (s.answers pk 1 (Cpl.of stBadParam 0)))
      ∧ (inRange → s.dbg.injen = false ∨ (0x0F ≤ t ∧ s.dbg.injfatal = false) →
        exec (.diagInject pk) s = .next (s.answers pk 1 (Cpl.of stWrongState 0)))
      ∧ (injParam t (pk.p 1).toNat = true → s.dbg.injen = true → (t < 0x0F ∨ s.dbg.injfatal = true) →
          (pk.fld 0 8 8 ≠ 1 ∨ pk.p 1 ≠ 0xFFFFFFFF) → exec (.diagInject pk) s
        = .next (({ u with faults := { u.faults with inj := rest ++ [{ target := t, count := pk.fld 0 8 8, param := pk.p 1 }] } } : State).finish o
            (Cpl.done 0 0)))
      ∧ (s.dbg.injen = true → (t < 0x0F ∨ s.dbg.injfatal = true) → pk.fld 0 8 8 = 1 → pk.p 1 = 0xFFFFFFFF → exec (.diagInject pk) s
        = .next (({ u with faults := { u.faults with inj := rest } } : State).finish o (Cpl.done 0 0))))
    ∧ (Starts s pk 0x0A01 1 [0x3F] rdyRunDrn → s.locked objSelf = false →
      exec (.diagSelftest pk) s = .next (({ u with
        rep := { u.rep with dleft := unitsOf (pk.fld 0 0 8), found := 0, fixed := 0 },
        jobs := u.jobs ++ [{ origin := o, opcode := pk.opcode, kind := .selftest, lock := some objSelf }] } : State).endDiagPass))
    ∧ (Starts s pk 0x0A02 1 [all32, all32] allButDump → addrOk false (pk.p64 0) = true →
      exec (.diagSnap pk) s = .next ((u.storeWords (addrKey (pk.p64 0)) (snapAddrs.map u.regWord)).finish o (Cpl.done (w32 (4 * snapAddrs.length)) 0)))
    ∧ (Starts s pk 0x0A03 1 [0xFF01] allButDump →
      exec (.diagTrace pk) s
        = .next (({ u with dbg := { u.dbg with tren := bitAt (pk.p 0) 0, trclass := pk.fld 0 8 8 } } : State).finish o (Cpl.done 0 0)))

/-- REPAIR.LOAD, REPAIR.COMMIT, REPAIR.QUERY and REPAIR.CAL (R411, R419 to R422, Table 17.20): an overlay that passes its checks is in force at once
in READY and at the next punnet boundary in RUN, a bad one is refused; a commit needs its key and room in the fuses, burns the entries no fuse holds,
and leaves the others; a query stores the overlay's image; a calibration block within its bounds is taken as an overlay is. When an overlay comes into
force, and that the commands complete at once, are the model's choices (log 53, log 104). -/
def Obligations.RepairCommands : Prop :=
  ∀ (s : State) (pk : Pkt), s.locked objSelf = false →
    let u := s.taken pk 1
    let o := s.origin pk
    (Starts s pk 0x0B00 1 [all32, all32, all32] [.ready, .run] → addrOk false (pk.p64 0) = true →
      (∀ c, overlayOf u (addrKey (pk.p64 0)) (pk.p 2).toNat = .error c → exec (.repairLoad pk) s = .next (s.answers pk 1 c))
      ∧ (∀ es, overlayOf u (addrKey (pk.p64 0)) (pk.p 2).toNat = .ok es →
        (s.blk = .ready → exec (.repairLoad pk) s
          = .next (({ u with rep := { u.rep with overlay := u.rep.overlay ++ es } } : State).finish o (Cpl.done 0 0)))
        ∧ (s.blk = .run → exec (.repairLoad pk) s
          = .next (({ u with rep := { u.rep with pendOv := some (u.rep.pendOv.getD [] ++ es) } } : State).finish o (Cpl.done 0 0)))))
    ∧ (Starts s pk 0x0B01 1 [all32] [.ready] →
      let n := (s.rep.field.filter (fun w => w = 0)).length
      (pk.p 0 ≠ 0x46495845 → exec (.repairCommit pk) s = .next (s.answers pk 1 (Cpl.of stBadParam 0)))
      ∧ (pk.p 0 = 0x46495845 → n < s.unburned.length → exec (.repairCommit pk) s = .next (s.answers pk 1 (Cpl.of stNoSpace 0)))
      ∧ (pk.p 0 = 0x46495845 → s.unburned.length ≤ n → exec (.repairCommit pk) s
          = .next (({ u with rep := { u.rep with field := burn s.rep.field s.unburned } } : State).finish o (Cpl.done 0 0))
          ∧ (burn s.rep.field s.unburned).length = s.rep.field.length ∧ (∀ e ∈ s.unburned, e ∈ burn s.rep.field s.unburned)
          ∧ ∀ (i : Nat) (w : Word), s.rep.field[i]? = some w → w ≠ 0 → (burn s.rep.field s.unburned)[i]? = some w))
    ∧ (Starts s pk 0x0B02 1 [all32, all32] rdyRunDrn → addrOk false (pk.p64 0) = true →
      exec (.repairQuery pk) s = .next ((u.storeWords (addrKey (pk.p64 0)) s.overlayImage).finish o (Cpl.done 0 0)))
    ∧ (Starts s pk 0x0B03 1 [all32, all32] rdyRunDrn → addrOk false (pk.p64 0) = true →
      let k := addrKey (pk.p64 0)
      let m := s.mem
      let c := calOf m k (s.rep.pendCal.getD s.rep.cal)
      (m.bad k 64 = true → exec (.repairCal pk) s = .next (s.answers pk 1 (Cpl.of stFault 0x03)))
      ∧ (m.bad k 64 = false → m.word (k + 0x3C) ≠ crc32c (m.bytes k 0x3C) → exec (.repairCal pk) s = .next (s.answers pk 1 (Cpl.of stBadParam 0x02)))
      ∧ (m.bad k 64 = false → m.word (k + 0x3C) = crc32c (m.bytes k 0x3C) →
        (c.ok = false ∨ m.word k ≠ 0x4C41434A ∨ m.word (k + 4) ≠ 1 ∨ bitsAt (m.word (k + 8)) 5 27 ≠ 0 ∨ bitsAt (m.word (k + 0x14)) 24 8 ≠ 0
            ∨ bitsAt (m.word (k + 0x2C)) 8 24 ≠ 0 ∨ m.word (k + 0x38) ≠ 0 →
          exec (.repairCal pk) s = .next (s.answers pk 1 (Cpl.of stBadParam 0)))
        ∧ (c.ok = true → m.word k = 0x4C41434A → m.word (k + 4) = 1 → bitsAt (m.word (k + 8)) 5 27 = 0 → bitsAt (m.word (k + 0x14)) 24 8 = 0 →
            bitsAt (m.word (k + 0x2C)) 8 24 = 0 → m.word (k + 0x38) = 0 →
          (s.blk = .ready → exec (.repairCal pk) s = .next (({ u with rep := { u.rep with cal := c } } : State).finish o (Cpl.done 0 0)))
          ∧ (s.blk ≠ .ready → exec (.repairCal pk) s = .next (({ u with rep := { u.rep with pendCal := some c } } : State).finish o (Cpl.done 0 0))))))

/-- DUMP.CONFIG, DUMP.STATUS, DUMP.TAKE, DUMP.ACK and WINDFALL_DONE (R388, R402 to R405, Table 17.21): a region is taken unless a capture is held that
is not acknowledged; a capture asked for in READY takes the block to DUMP, runs, and ends there with READY and the command done; without a region it
is BAD_PARAM 0x05; an acknowledgement marks what is held, and its header; with nothing held it is WRONG_STATE. The order of fields within two sections
(log 30) and the statuses of TAKE and ACK in corner cases (log 111) are the model's choices. -/
def Obligations.WindfallCommands : Prop :=
  (∀ (s : State) (pk : Pkt),
    let u := s.taken pk 1
    let o := s.origin pk
    (Starts s pk 0x0C00 1 [all32, all32, 0x7F] rdyRunDrn → addrOk true (pk.p64 0) = true → 2 ≤ pk.fld 2 0 7 → pk.fld 2 0 7 ≤ 64 →
      (s.wind.held = true → s.wind.acked = false → exec (.dumpConfig pk) s = .next (s.answers pk 1 (Cpl.of stWrongState 0)))
      ∧ ((s.wind.held = false ∨ s.wind.acked = true) → s.locked objDump = false → ∃ w, exec (.dumpConfig pk) s
          = .next (({ u with wind := w } : State).finish o (Cpl.done 0 0))
          ∧ w.region = some { base := pk.p64 0, len := 2 ^ 20 * pk.fld 2 0 7 } ∧ w.running = false
          ∧ (s.mem.word (addrKey (pk.p64 0)) ≠ 0x4C464457 → w.held = false)))
    ∧ (Starts s pk 0x0C01 1 [] allStates →
      exec (.dumpStatus pk) s = .next (s.answers pk 1 (Cpl.done (w32 (b2n s.wind.held + putBits (b2n s.wind.running) 1 + putBits (s.wind.cause % 256) 8))
        (if s.wind.held || s.wind.running then ceilDiv s.wind.written 4096 else 0))))
    ∧ (Starts s pk 0x0C02 1 [] [.ready] →
      (s.wind.region = none → exec (.dumpTake pk) s = .next (s.answers pk 1 (Cpl.of stBadParam 0x05)))
      ∧ (s.wind.region ≠ none → s.locked objDump = false → (s.wind.held = false ∨ s.wind.acked = true) → exec (.dumpTake pk) s
        = .next ((({ u with blk := .dump } : State).windStart true 0 (blkCode s.blk)).addJob
            { origin := o, opcode := pk.opcode, kind := .dumpTake, lock := some objDump })))
    ∧ (Starts s pk 0x0C03 1 [] [.ready, .safe] →
      (s.wind.running = true ∨ s.wind.held = false → exec (.dumpAck pk) s = .next (s.answers pk 1 (Cpl.of stWrongState 0)))
      ∧ (s.wind.running = false → s.wind.held = true → ∀ rg, s.wind.region = some rg →
        let w := fun i => s.mem.word (addrKey rg.base + 4 * i)
        let a := (List.range 15).map (fun i => if i = 2 then w 2 ||| 0x4000 else w i)
        exec (.dumpAck pk) s = .next ((({ u with wind := { u.wind with acked := true } } : State).storeWords (addrKey rg.base)
          (a ++ [crcWords a])).finish o (Cpl.done 0 0)))))
  ∧ (∀ (s : State) (err : Bool), s.live = true →
    (s.wind.running = false → exec (.windfallDone err) s = .next s)
    ∧ (s.wind.running = true → s.wind.region ≠ none → s.blk = .dump → ∃ t, exec (.windfallDone err) s = .next t ∧ t.blk = .ready
        ∧ t.wind.running = false ∧ t.wind.held = true
        ∧ (err = true → t.wind.status = 3) ∧ (err = false → t.wind.status = 1 ∨ t.wind.status = 2)))

/-! ## Resets, boot, power, time, sensors -/

/-- COLD_RESET, WARM_RESET, QUARANTINE and PORT_RESET (R351, R354, R383 to R386, Table 18.2): a cold reset acts in every state; it leaves the waiting
commands, and the configuration, the time base, the ports and the tenants of a fresh instance, in BOOT step 4 unless its fuses fail their check, which
is fatal. A warm reset keeps the time base, tenants, membership and the repairs, resets ports and semaphores, and boots at step 5. Quarantine needs
the key; it resets the ports, frees semaphores and counters, and holds. A port reset needs the key too, and returns the ports it names to their reset
values. What a warm reset keeps is a reading of Table 18.2 (log 44), the fuses are Config's (log 3, log 45), and the image is checked in the same step
(log 49). -/
def Obligations.ResetCommands : Prop :=
  (∀ s : State, ∃ t, exec .coldReset s = .next t ∧ t.pending = s.pending ∧ t.conf = Conf.reset ∧ t.time.tclk = 0 ∧ t.tenants = [] ∧ t.quar = false
      ∧ t.pwr.clkFail = false ∧ t.sems = [] ∧ (∀ r, t.ring r = Ring.reset) ∧ t.rep.field = s.rep.field ∧ t.blk = if fuseOk then .boot else .safe)
  ∧ (∀ s : State, s.pwr.clkFail = false → 2 ≤ s.pwr.cur → ∀ src, warmActs src = true → ∃ t, exec (.warmReset src) s = .next t ∧ t.pending = s.pending
      ∧ t.time = s.time ∧ t.tenants = s.tenants ∧ t.orch.shard = s.orch.shard ∧ t.orch.rootSh = s.orch.rootSh ∧ t.orch.n = s.orch.n
      ∧ t.rep.field = s.rep.field ∧ t.rep.overlay = s.rep.overlay ∧ t.rep.made = s.rep.made
      ∧ t.quar = false ∧ t.sems = [] ∧ (∀ p, t.port p = Port.reset) ∧ t.blk = if fwCheck t.mem s.fwBase = 0 then .selftest else .boot)
  ∧ (∀ v : Word, warmActs (.write v) = true ↔ (bitsAt v 16 16 = 0x4A47 ∧ bitAt v 2 = true ∧ bitAt v 3 = false))
  ∧ (∀ (s : State) (v : Word), s.live = true →
      (bitsAt v 16 16 = 0x4A47 → bitAt v 3 = true → ∃ t, exec (.quarantine v) s = .next t ∧ t.quar = true ∧ t.sems = [] ∧ t.ctrs = [] ∧ t.bars = [] ∧ t.jobs = []
        ∧ (∀ p, t.port p = Port.reset) ∧ t.hcom = [] ∧ t.ing.grants = false ∧ t.wind.running = false)
      ∧ (bitsAt v 16 16 ≠ 0x4A47 ∨ bitAt v 3 = false → exec (.quarantine v) s = .next s))
  ∧ (∀ (s : State) (v : Word), s.live = true →
      (bitsAt v 16 16 = 0x4A47 → bitAt v 2 = false → bitAt v 3 = false →
        (bitAt v 0 = true → bitAt v 1 = false → exec (.portReset v) s = .next (s.resetPort .cpa))
        ∧ (bitAt v 0 = false → bitAt v 1 = true → exec (.portReset v) s = .next (s.resetPort .cpb))
        ∧ (bitAt v 0 = true → bitAt v 1 = true → exec (.portReset v) s = .next ((s.resetPort .cpa).resetPort .cpb))
        ∧ (bitAt v 0 = false → bitAt v 1 = false → exec (.portReset v) s = .next s))
      ∧ (bitsAt v 16 16 ≠ 0x4A47 ∨ bitAt v 2 = true ∨ bitAt v 3 = true → exec (.portReset v) s = .next s))
  ∧ (∀ (s : State) (p : PortId), ((s.resetPort p).port p).intStatus = 0 ∧ ((s.resetPort p).port p).intMask = 0xFFFF
      ∧ ((s.resetPort p).port p).cqPend = 0 ∧ ∀ n, ((s.resetPort p).port p).ring n = Ring.reset)

/-- Boot (R353, R387, Table 18.4): GO, in step 4 or after a failure at step 5, has the image checked: an accepted one takes the instance to SELFTEST
with its release, any other leaves it in BOOT with the check that failed; elsewhere GO does nothing. A boot self-test that finds nothing ends in
READY, the lanes seeded and what was pending in force. The image is checked within the step (log 49, log 50, log 51), and SELFTEST_DONE names physical
units (log 52). -/
def Obligations.BootSequence : Prop :=
  ∀ (s : State), s.live = true →
    (∀ v : Word, bitAt v 0 = true → s.blk = .boot → (s.boot.step = 4 ∨ (s.boot.step = 5 ∧ s.boot.fail = true)) →
      exec (.jgFwCtlGo v) s = .next (if fwCheck s.mem s.fwBase = 0 then
          { s with blk := .selftest, boot := { step := 6, fail := false, check := 0, fwrel := s.mem.word (addrKey s.fwBase + 8) } }
        else { s with boot := { s.boot with step := 5, fail := true, check := fwCheck s.mem s.fwBase } }))
    ∧ (∀ v : Word, (bitAt v 0 = false ∨ s.blk ≠ .boot ∨ s.boot.step = 6) → exec (.jgFwCtlGo v) s = .next s)
    ∧ (s.blk = .selftest → exec (.selftestDone []) s
        = .next ((({ s with blk := .ready, boot := { s.boot with step := 8 }, lanes := lanesSeed s.baseSeed 0 } : State).unitBoundary).ownState 2))
    ∧ (∀ failed, s.blk ≠ .selftest → exec (.selftestDone failed) s = .next s)

/-- Power states (R389, R390, Table 18.6, Table 18.9): a request is refused while one runs; RUN from P-RET begins the way out, and is acknowledged
elsewhere; RET is taken in READY alone, OFF in READY, BOOT or SAFE; a transition that ends is acknowledged, but one out of P-RET without lock is
refused and stays. With no row in flight, no load and no second round, P-RUN becomes P-IDLE. PM_REQ_RUN outside P-RET is acknowledged (log 19), the
model's choice. -/
def Obligations.PowerStates : Prop :=
  ∀ (s : State), s.pwr.clkFail = false →
    (s.pwr.cur ≠ 0 → s.quar = false →
      (s.pwr.req ≠ none → exec .pmReqRun s = .next (s.drive .pmNak) ∧ exec .pmReqRet s = .next (s.drive .pmNak) ∧ exec .pmReqOff s = .next (s.drive .pmNak))
      ∧ (s.pwr.req = none →
        (s.pwr.cur = 1 → exec .pmReqRun s = .next { s with pwr := { s.pwr with req := some 3 } })
        ∧ (s.pwr.cur ≠ 1 → exec .pmReqRun s = .next (s.drive .pmAck))
        ∧ (s.blk ≠ .ready → exec .pmReqRet s = .next (s.drive .pmNak))
        ∧ (s.blk = .ready → s.isRoot = true → exec .pmReqRet s =
            let v := s.bcastOthers { hdr := s.hdr 0 true 0 0 0 noHandle, body := .event .retention }
            .next { v with pwr := { v.pwr with req := some 1 } })
        ∧ (s.blk = .ready ∨ s.blk = .boot → exec .pmReqOff s = .next { s with pwr := { s.pwr with req := some 0 } })
        ∧ (s.blk = .safe → s.wind.running = true → exec .pmReqOff s = .next (s.drive .pmNak))
        ∧ (s.blk = .safe → s.wind.running = false → exec .pmReqOff s = .next { s with pwr := { s.pwr with req := some 0 } })
        ∧ (s.blk = .run → exec .pmReqOff s = .next (s.drive .pmNak))))
    ∧ (∀ locked,
      (s.pwr.req = none → exec (.pmTransitionDone locked) s = .next s)
      ∧ (s.pwr.req = some 3 → exec (.pmTransitionDone false) s = .next (({ s with pwr := { s.pwr with req := none } } : State).drive .pmNak))
      ∧ (s.pwr.req = some 3 → exec (.pmTransitionDone true) s = .next ((({ s with
          pwr := { s.pwr with cur := 2, req := none }, orch := s.orch.retrainAll, time := { s.time with stepOk := true } } : State).timeRequest).drive .pmAck))
      ∧ (∀ n, n < 3 → s.pwr.req = some n → exec (.pmTransitionDone locked) s
          = .next (({ s with pwr := { s.pwr with cur := n, req := none }, orch := s.orch.sleepAll true } : State).drive .pmAck)))
    ∧ (s.live = true → s.blk = .run → s.pwr.cur = 3 → s.asm.punOpen = none → s.asm.repeats = [] → s.jobs = [] →
      (s.puns = [] → exec .idleTimeout s = .next { s with pwr := { s.pwr with cur := 2 } })
      ∧ (s.puns ≠ [] → exec .idleTimeout s = .next s))

/-- The time base and the sensors (R379, R380, R382, R392, R416, Table 18.8): a loss of lock asserts CLKFAIL; a tick advances the counter, by one but
for the slew, which moves it by one more or holds it at most once in 1,024 ticks; a clock never steps back; the root aligns to nothing and a member
asks its parent; a thermal level is entered at its threshold and left 5 degrees below it, sets its cause when it changes, and level 3 is fatal; a
droop is counted and its detector kept for the next reading. That time moves only at TCLK_TICK is the model's (log 124). -/
def Obligations.ClocksAndSensors : Prop :=
  (∀ s : State, 2 ≤ s.pwr.cur → s.pwr.clkFail = false →
      exec .pllLockLoss s = .next (({ s with pwr := { s.pwr with clkFail := true } } : State).drive .clkFail))
  ∧ (∀ t : Time,
      (t.slew = 0 → t.tick = { t with tclk := t.tclk + 1 })
      ∧ (t.slew ≠ 0 → t.tclk.toNat < t.lastSlew + 1024 → t.tick = { t with tclk := t.tclk + 1 })
      ∧ (0 < t.slew → t.lastSlew + 1024 ≤ t.tclk.toNat → t.tick = { t with tclk := t.tclk + 2, slew := t.slew - 1, lastSlew := t.tclk.toNat + 2 })
      ∧ (t.slew < 0 → t.lastSlew + 1024 ≤ t.tclk.toNat → t.tick = { t with slew := t.slew + 1, lastSlew := t.tclk.toNat })
      ∧ ∀ target, target < 2 ^ 64 → t.tclk.toNat ≤ (t.align target).tclk.toNat ∧ ((t.align target).tclk ≠ t.tclk → t.stepOk = true))
  ∧ (∀ s : State, s.pwr.clkFail = false → s.pwr.cur ≠ 0 → s.live = false → ∃ t, exec .tclkTick s = .next t ∧ t.time = s.time.tick ∧ t.orch = s.orch)
  ∧ (∀ s : State, s.live = true → ∃ t, exec .tclkTick s = .next t ∧ t.time = s.time.tick)
  ∧ (∀ s : State, s.live = true →
      (s.isRoot = true → exec .timeAlign s = .next { s with time := { s.time with aligned := true } })
      ∧ (s.isRoot = false → exec .timeAlign s = .next (s.sendTo s.orch.parentSh (.event (.timeReq s.time.tclk)))))
  ∧ (∀ (s : State) (raw : List Nat), s.live = true → s.armed 0x0E = none →
      let ts := (List.range 8).map (fun i => s.trimmed i (raw.getD i 0))
      let l := s.levelFor (ts.foldl max (ts.getD 0 0))
      let u : State := { s with pwr := { s.pwr with sense := (List.range 8).map (fun i => (i, ts.getD i 0)), thLevel := l } }
      exec (.thermalSample raw) s
        = .next (if l = s.pwr.thLevel then u else if l = 3 then (u.setCause cThermal).fatal 0x43 Site.none else u.setCause cThermal))
  ∧ (∀ (s : State) (hot : Int),
      s.levelFor hot ≤ 3
      ∧ (∀ l, 1 ≤ l → l ≤ 3 → s.levelAt l ≤ hot → l ≤ s.levelFor hot)
      ∧ (∀ l, l = s.levelFor hot → 1 ≤ l → s.levelAt l ≤ hot ∨ (l ≤ s.pwr.thLevel ∧ s.levelAt l - 40 < hot)))
  ∧ (∀ (s : State) (d : Nat), s.live = true → ∃ t, exec (.droopTrip d) s = .next t ∧ d ∈ t.pwr.droopHit
      ∧ (∀ x ∈ s.pwr.droopHit, x ∈ t.pwr.droopHit) ∧ t.cnt offDroop = satAdd (2 ^ 32 - 1) (s.cnt offDroop) 1)

/-! ## Stream ports and TEG -/

/-- Descriptors and payloads (R37, R38, R50, R51, R400, Table 2.11): a beat takes one credit, and none is taken without it; a descriptor whose DCRC or
handle fails is counted, makes no row, and its payload is passed over; any other is admitted now, with the cause of the lowest code that its checks
give, and a second row of one GIDX, or one that finds HOLD, answers its verify group; in SAFE the home answers it with cause 0x37 and other instances
with nothing. The payload that ends a message takes its beats' credits, and does not end on more than are held while none is granted; a wrong count of
beats is cause 0x34. Descriptors in READY (log 105), the cause of a message that is cut short (log 120), and how long a row counts as in flight (log
129) are readings. -/
def Obligations.StreamPortsTakeRows : Prop :=
  ∀ (s : State) (p : StreamPort), s.live = true → (s.blk = .ready ∨ s.blk = .run ∨ s.blk = .drain ∨ s.blk = .safe) →
    (∀ beat last, s.ing.credits p = 0 → exec (.rdescAccept p beat last) s = .next s.after)
    ∧ (∀ (beat : List Word) (last : Bool), 0 < s.ing.credits p → s.ing.msg p = none →
        let rd := rdescOf beat
        let n := s.payBeats rd
        let s1 : State := { s with ing := (s.ing.spend p 1).setMsg p none }
        let wrong := decide (rd.port ≠ p) || (last && decide (n ≠ 0)) || (!last && decide (n = 0))
        s1.ing.credits p = s.ing.credits p - 1
        ∧ ((dcrcOk beat = false ∨ s.admits rd.handle = false) → ∃ u : State,
            exec (.rdescAccept p beat last) s = .next u.after ∧ u.rows = s.rows ∧ u.eg = s.eg
            ∧ u.cnt offIngRej = satAdd (2 ^ 32 - 1) (s.cnt offIngRej) 1
            ∧ u.ing = if last then s1.ing else s1.ing.setMsg p (some { seq := 0, beats := n }))
        ∧ (dcrcOk beat = true → s.admits rd.handle = true → s.blk = .safe →
            (s.isHome rd.handle.slot = true → s1.safeRow rd = (({ s1 with
                ing := { s1.ing with seq := s.ing.seq + 1 }, rows := s.rows ++ [s1.newRow rd (some 0x37)] } : State).voidSafe
                  (s1.newRow rd (some 0x37)) 0x37).pump)
            ∧ (s.isHome rd.handle.slot = false → s1.safeRow rd = s1)
            ∧ (last = true → exec (.rdescAccept p beat last) s = .next (s1.safeRow rd).after))
        ∧ (dcrcOk beat = true → s.admits rd.handle = true → s.blk ≠ .safe →
            exec (.rdescAccept p beat last) s = .next (if last then (s1.admitRow rd wrong).after else
              ({ s1.admitRow rd wrong with ing := (s1.admitRow rd wrong).ing.setMsg p (some {
                  seq := if wrong then 0 else (s1.admitRow rd wrong).ing.seq, beats := n }) } : State).after)
            ∧ (s.isHome rd.handle.slot = true → s1.admitRow rd wrong =
                ((((({ s1 with ing := { s1.ing with seq := s.ing.seq + 1 }, rows := s.rows ++ [s1.newRow rd (s1.admitCause rd wrong)] } : State).touch
                  rd.handle.slot).startFetch rd.handle.slot .head).settleAdmit (s1.newRow rd (s1.admitCause rd wrong))).groupAnswer rd.key
                    (s.rows.any (fun r => decide (r.key = rd.key))) (decide ((s.slot rd.handle.slot).rstate = 2))).pump)
            ∧ (let r := s1.newRow rd (s1.admitCause rd wrong)
               r.key = rd.key ∧ r.admTick = s.now ∧ r.rd = rd ∧ r.reserve = s.cfg.egressres ∧ r.punnet = none ∧ r.decided = false)))
    ∧ (∀ (rd : Rdesc) (wrong : Bool),
        let x := s.ctx rd.handle.slot
        let misplaced := ((rd.cls = clDecode ∨ rd.cls = clFirst) ∧ rd.pos ≠ x.clen) ∨ (rd.cls = clVerify ∧ rd.pos ≠ x.clen + rd.gidx)
        s.admitCause rd wrong
          = if s.isLost rd.handle.slot = true then some 0x13
            else if rd.bad = true ∨ (rd.cls = clScore ∧ (s.head rd.hset).v ≤ rd.target) then some 0x1D
            else if rd.deadline = 0 ∨ rd.deadline < s.cfg.egressres then some 0x33
            else if wrong = true ∨ misplaced ∨ (∃ r ∈ s.rows, r.key = rd.key) then some 0x34
            else none)
    ∧ (∀ n elems ecc, s.ing.msg p = none → exec (.payloadEnd p n elems ecc) s = .next s.after)
    ∧ (∀ (m : InMsg) (n : Nat) (elems : List Word) (ecc : Ecc), s.ing.msg p = some m →
        let s0 := s.spendBeats p n
        let s1 : State := { s0 with ing := s0.ing.setMsg p none }
        (s.granting = false → s.ing.credits p < n → exec (.payloadEnd p n elems ecc) s = .next s.after)
        ∧ ((s.granting = true ∨ n ≤ s.ing.credits p) →
        (m.seq = 0 ∨ s.blk = .safe → exec (.payloadEnd p n elems ecc) s = .next s1.after)
        ∧ (m.seq ≠ 0 → s.blk ≠ .safe → n ≠ m.beats → exec (.payloadEnd p n elems ecc) s = .next (s1.cutShort m.seq).after)
        ∧ (∀ r : Row, m.seq ≠ 0 → s.blk ≠ .safe → n = m.beats → s.rows.find? (fun r => decide (r.seq = m.seq)) = some r →
            s1.inputBad r.rd (if r.rd.hsrc = 3 then elems else (asB16 elems).map ofB16) = false →
            exec (.payloadEnd p n elems .clean) s = .next ({ s1 with
              rows := s.rows.map (fun (x : Row) => if x.seq = m.seq then x.withData elems else x) } : State).after)))

/-- Records on TEG (R47, R48, R52, R398): the record at the front is written beat by beat, where the ring's buffer continues, and each beat takes one
fabric credit and as many ring credits as units; the last unit of a record shares its beat with the first of the next for that ring, where both stand
whole and the ring has the credit; one that does not fit in what is left of the buffer is preceded by PAD; one for a failed ring is discarded and
counted. An acknowledged write stands in memory; a first error response repeats it as it was; a second one fails the ring; credits that return let
records go on. The reissue takes no credit (log 17), two records share a beat where they can (log 99), and a write stands in memory at its
acknowledgement (log 98). -/
def Obligations.RecordsLeaveByCredits : Prop :=
  (∀ (s : State) (r : EgRec) (rest : List EgRec), s.eg.queue = r :: rest →
    let c := s.cring r.ring
    let n := min 2 (r.units - r.done)
    (c.failed = true → s.egStep = some ((({ s with eg := { s.eg with queue := rest } } : State).undelivered).dropRow r.key))
    ∧ (c.failed = false → r.done = 0 → c.left < r.units → s.egStep = some { s with
        eg := { s.eg with queue := padRec r.ring (min 7 c.left) r.due :: r :: rest } })
    ∧ (c.failed = false → (r.done = 0 → r.units ≤ c.left) → (s.eg.fabric = 0 ∨ c.credits < n) → s.egStep = none)
    ∧ (c.failed = false → (r.done = 0 → r.units ≤ c.left) → s.eg.fabric ≠ 0 → n ≤ c.credits → (∀ w ∈ s.eg.outst, w.tag ≠ s.eg.tag) →
        s.egStep = some (s.egBeat r rest))
    ∧ (let t := s.egBeat r rest
       let m := n + b2n (s.partner r rest).isSome
       (t.cring r.ring).credits = c.credits - m ∧ (t.cring r.ring).pi = (c.pi + m) % 2 ^ 32 ∧ t.eg.fabric = s.eg.fabric - 1
       ∧ (∃ w : TegWrite, t.eg.outst = s.eg.outst ++ [w] ∧ w.tag = s.eg.tag ∧ w.ring = r.ring ∧ w.notify = false
          ∧ w.addr = addrKey c.base + 32 * (c.pi % 2 ^ c.log2u)
          ∧ (s.partner r rest = none → w.words = ((s.issued r).drop (8 * r.done)).take (8 * n))
          ∧ (∀ q, s.partner r rest = some q → w.words = ((s.issued r).drop (8 * r.done)).take (8 * n) ++ (s.issued q).take 8))))
  ∧ (∀ (s : State) (r q : EgRec) (rest : List EgRec), s.partner r rest = some q → rest.head? = some q ∧ r.units - r.done = 1 ∧ q.ring = r.ring
      ∧ q.done = 0 ∧ 1 + q.units ≤ (s.cring r.ring).left ∧ 2 ≤ (s.cring r.ring).credits)
  ∧ (∀ s : State, s.pwr.clkFail = false → 2 ≤ s.pwr.cur →
      (∀ tag err, (∀ w ∈ s.eg.outst, w.tag ≠ tag) → exec (.tegAck tag err) s = .next s.after)
      ∧ (∀ (tag : Nat) (w : TegWrite), s.eg.outst.find? (fun w => decide (w.tag = tag)) = some w → s.armed 0x0D = none →
          (exec (.tegAck tag false) s = .next ((s.tegOk w).pump).after ∧ (s.tegOk w).mem = s.mem.store w.addr (wordsBytes w.words))
          ∧ (w.retry = false → exec (.tegAck tag true) s = .next ({ s with
              eg := { s.eg with outst := s.eg.outst.map (fun x => if x = w then { w with retry := true } else x) },
              outs := .teg w.tag w.notify w.addr w.words :: s.outs } : State).after)
          ∧ (w.retry = true → (s.cring w.ring).failed = false → exec (.tegAck tag true) s = .next (((({ s.setCring w.ring { s.cring w.ring with
                unacked := if w.notify then (s.cring w.ring).unacked else (s.cring w.ring).unacked - 1 } with
              eg := { s.eg with outst := s.eg.outst.erase w } } : State).openLost w).ringFail w.ring false)).after))
      ∧ (∀ n, exec (.tegFabricCredit n) s = .next ((({ s with eg := { s.eg with fabric := s.eg.fabric + n } } : State).pump).notifyAll).after)
      ∧ (∀ r n, exec (.tegRingCredit r n) s
          = .next (((s.setCring r { s.cring r with credits := (s.cring r).credits + n }).pump).notifyAll).after))

/-! ## The assembler -/

/-- The assembler (R20, R53 to R55, R269, R310, R313, R315, R385): an admit notice joins the first entry of its row that has none of its instance, and
is passed on where it is not for this one; a row whose tenant has no balance left is answered HOLD, any other passes; a row not placeable in time is
void with cause 0x1B, and a copy whose home left the group is dropped and counted; at the timers of its gather window and of the deadlines the root
closes an open punnet whose window is over, or whose rows would be late if it waited on. A member applies the closes in their order and takes any
other for an Orchard error. A row's deadline (R22, R23, Table 1.4): a home whose row has no settled record at its issue-by tick writes one, VOID with
the row's cause or 0x30; before that tick, and for a row that is settled or unknown, nothing is written; the root lets the row go. Each of ADMIT,
CLOSE, COPY_SKEW_EXPIRY, GATHER_WINDOW_EXPIRY, CLOSE_MARGIN_REACHED and DEADLINE_REACHED completes (answers a next state) for every state and operands
that meet conditions on them alone. The moments at which the assembler looks, and how unplaced rows are answered, are the model's choices (log 36, log
116). -/
def Obligations.AssemblerCommands : Prop :=
  (∀ s : State, s.working = true →
    exec .gatherWindowExpiry s = .next s.after ∧ exec .closeMarginReached s = .next s.after
    ∧ (let w := ((s.injectCore.voidDoubts).retireDone).advanceJobs
       let ends := fun (u : State) => (((u.retireDone.feed).rescoreGo).grantCredits).pump
       ∀ o : OpenPun, s.blk ≠ .dump → s.injectCore.blk ≠ .safe → w.isRoot = true → w.live = true → (w.blk = .ready ∨ w.blk = .run ∨ w.blk = .drain) →
        w.asm.punOpen = some o → o.rows ≠ [] →
        (o.opened + o.gather < w.now ∨ (w.nextUnit o = none ∧ (o.opened + o.gather ≤ w.now ∨ w.short o (w.estimateWith o []) = true))) →
        ∃ k, exec .gatherWindowExpiry s = .next (ends (State.assembleGo k (w.closeOpen o)))
          ∧ exec .closeMarginReached s = .next (ends (State.assembleGo k (w.closeOpen o))))
    ∧ (∀ (h : Hdr) (b : AdmitB), s.forMe h = true → h.parity = false → hdrBroken h = false → s.isRoot = true →
        let k : RowKey := { handle := h.handle, pos := b.pos, cls := b.cls, gidx := b.gidx }
        let a := (s.asm.rows.find? (fun a => decide (a.key = k) && !a.notices.any (fun n => decide (n.shard = h.src)))).getD
          { key := k, notices := [], homeTick := none, passed := false, poor := false, gone := false, told := [] }
        let home := decide (h.src = s.homeOf k.handle.slot)
        let a1 : AsmRow := { a with
          notices := a.notices ++ [{ shard := h.src, dcrc := b.dcrc, tick := s.wideTick b.tick }],
          homeTick := if home then some s.now else a.homeTick, gone := a.gone && !home }
        let v := s.putAsm a a1
        a1 ∈ v.asm.rows
        ∧ (a1.gone = true → exec (.admitMsg h b) s
          = .next (s.taking { hdr := h, body := .admitMsg b } (v.sweep v.asm.rows.length k)).after)
        ∧ (a1.gone = false → exec (.admitMsg h b) s
          = .next (s.taking { hdr := h, body := .admitMsg b } (((if home then v.testBalance k else v).checkCopies k).balance k)).after))
    ∧ (∀ (h : Hdr) (b : AdmitB), s.forMe h = false →
        exec (.admitMsg h b) s = .next (s.taking { hdr := h, body := .admitMsg b } (s.passOn h (.admitMsg b))).after)
    ∧ (∀ k : RowKey,
        let n := (s.ctx k.handle.slot).tenant
        let t := Tab.get s.tenants n Tenant.reset
        (∀ a : AsmRow, a ∈ (s.testBalance k).asm.rows → a.key = k → a.gone = false → (a.poor = true ↔ t.limit = true ∧ t.bal ≤ 0))
        ∧ s.endBalance true [k] = ({ s with tenants := Tab.set s.tenants n { t with nhold := satAdd (2 ^ 32 - 1) t.nhold 1 } } : State).settleUnplaced k kHold 0
        ∧ (∀ a : AsmRow, a ∈ (s.endBalance false [k]).asm.rows → a.key = k → a.gone = false → a.passed = true))
    ∧ (∀ k : RowKey, (s.isRoot = false ∨ s.asmRow k = none → exec (.copySkewExpiry k) s = .next (s.dropStray k).after)
        ∧ (∀ r : Row, s.unplaced k = some r → r.home = false → r.admTick + s.cfg.copyskew ≤ s.now →
            (∃ m ∈ s.orch.members, m.shard = s.homeOf k.handle.slot ∧ m.state = 5) →
            s.dropStray k = (({ s with rows := s.rows.filter (fun x => decide (x.seq ≠ r.seq)) } : State).dropAsm k).bump offIngRej)
        ∧ (∀ (a : AsmRow) (t : Nat), s.isRoot = true → s.asmRow k = some a → k.cls ≠ clVerify → s.homeAdm a = some t →
            (∀ m ∈ s.orch.members, m.shard = s.homeOf k.handle.slot → m.state ≠ 5) →
            (s.now < t + s.cfg.copyskew → exec (.copySkewExpiry k) s = .next s.after)
            ∧ (t + s.cfg.copyskew ≤ s.now → s.placeable a = false → s.inFlight k = false →
                exec (.copySkewExpiry k) s = .next (((s.contained 0x1B (Site.key k)).settleUnplaced k kVoid 0x1B).forget k).after)))
    ∧ (∀ (h : Hdr) (b : CloseB),
        let v := s.passOn h (.close b)
        let x := { Site.none with punnet := h.punnet }
        (h.parity = true → exec (.close h b) s = .next (s.taking { hdr := h, body := .close b } (v.contained 0x19 x)).after)
        ∧ (h.parity = false → hdrBroken h = true ∨ s.isRoot = true →
            exec (.close h b) s = .next (s.taking { hdr := h, body := .close b } (v.contained 0x18 x)).after))
    ∧ (∀ (h : Hdr) (b : CloseB), h.parity = false → hdrBroken h = false → s.isRoot = false →
        (h.punnet = s.asm.next → exec (.close h b) s
          = .next (s.taking { hdr := h, body := .close b } ((s.passOn h (.close b)).applyClose h.punnet b)).after)
        ∧ (h.punnet ≠ s.asm.next → exec (.close h b) s
            = .next (s.taking { hdr := h, body := .close b } ((s.passOn h (.close b)).contained 0x18 { Site.none with punnet := h.punnet })).after)))
  ∧ (∀ (s : State) (k : RowKey), s.working = true →
    exec (.deadlineReached k) s = .next (((s.deadlineHere k).rootDeadline k).asmDeadline k).after
    ∧ ((∀ r ∈ s.rows, r.key = k → r.decided = true ∨ s.now < r.due) → s.deadlineHere k = s)
    ∧ (∀ r : Row, s.rows.find? (fun r => decide (r.key = k ∧ r.due ≤ s.now) && !r.decided) = some r → r.home = true → k.cls ≠ clVerify →
        r.punnet = none → s.hcom = [] →
        s.deadlineHere k = ((s.voidRow r (r.cause.getD 0x30)).pump)))

/-! ## Rows in flight -/

/-- The data path of a punnet (R87, R93, R97, R98, R102, R106, R110, R114, R246, R248, R252): a part whose fetch began here is resident with its
pending updates, one that fails its checks or meets an uncorrectable error is lost, and one that was not asked for does nothing; the prelude of a
punnet runs once, in its turn and with its payloads here; the next segment of the weight stream goes into the tile buffer that fills, and a bad one
makes every active row of the pass doubtful and the tile is not fetched again; the array takes the tiles in order, and drains a main or outlier tile's
logits to selection; selection takes the tiles in the order in which they drained. When the fetch deadline is judged, and where injections fire, are
the model's choices (log 92, log 117). -/
def Obligations.DataPathCommands : Prop :=
  ∀ s : State, s.working = true →
    (∀ (h : Handle) (part : Part) (ecc : Ecc),
      (((s.slot h.slot).gen ≠ h.gen ∨ (s.slot h.slot).rstate = 0 ∨ s.fetches.contains (h.slot, part) = false) → s.partFetched h part ecc = s)
      ∧ exec (.partFetchDone h part ecc) s = .next ((s.partFetched h part ecc).lateBans h.slot).after
      ∧ ((s.slot h.slot).gen = h.gen → (s.slot h.slot).rstate ≠ 0 → s.fetches.contains (h.slot, part) = true → s.armed 0x07 = none → s.armed 0x05 = none →
          let gone : State := { s with fetches := s.fetches.erase (h.slot, part) }
          (s.partIn h.slot part = none → s.partFetched h part ecc = s)
          ∧ (∀ t, s.partIn h.slot part = some t →
            (s.imageGood h part = true → s.partFetched h part .clean = t ∧ s.partFetched h part .corrected = t.corrected 0x02)
            ∧ (s.imageGood h part = false → ecc ≠ .uncorrectable → s.partFetched h part ecc = gone.losePart h.slot h part false)
            ∧ s.partFetched h part .uncorrectable = gone.fetchFails h part false)))
    ∧ (∀ num ecc, s.punnet num = none → exec (.preludeDone num ecc) s = .next s.after)
    ∧ (∀ (num : Nat) (ecc : List (Nat × Ecc)) (p : Punnet), s.punnet num = some p →
        (p.started = true ∨ p.rows = [] ∨ s.turn num = false ∨ s.dataHere p = false → exec (.preludeDone num ecc) s = .next s.after)
        ∧ exec (.preludeDone num ecc) s = .next (s.preludeDone num ecc).after)
    ∧ (∀ (num i : Nat) (t : TileRef) (seg : Nat) (p : Punnet), s.punnet num = some p →
        let x : SegRef := { punnet := num, pass := i, tile := t, seg := seg }
        (∀ ecc, s.nextSeg ≠ some x ∨ s.bufferFits x = false → exec (.weightSegmentLoaded num i t seg ecc) s = .next s.after)
        ∧ (s.nextSeg = some x → s.bufferFits x = true → s.armed 0x02 = none → s.armed 0x03 = none →
          let s1 : State := { s with loader := { s.loader with fill := s.loader.fill ++ [x] } }
          let lost := ((s.activeRows p i).map (fun r => r.1)).foldl (fun (s : State) r => s.doubtAt num (some r.slot) 0x10)
            ((s.updPun num (fun p => { p with badTiles := (i, t) :: p.badTiles })).contained 0x10 { Site.none with punnet := num })
          ((∀ y ∈ s.piecesOf x, y.bad s.mem = false) →
            exec (.weightSegmentLoaded num i t seg .clean) s = .next s1.after
            ∧ exec (.weightSegmentLoaded num i t seg .corrected) s = .next (s1.corrected 0x02).after)
          ∧ ((∃ y ∈ s.piecesOf x, y.bad s.mem = true) → ∀ ecc, exec (.weightSegmentLoaded num i t seg ecc) s = .next lost.after)
          ∧ exec (.weightSegmentLoaded num i t seg .uncorrectable) s = .next lost.after))
    ∧ (∀ (num i : Nat) (t : TileRef) (ecc : List (Nat × Ecc)) (p : Punnet), s.punnet num = some p →
        (s.nextTile ≠ some (num, i, t) ∨ 2 ≤ s.drainCount ∨ s.tileHere p i t = false → exec (.tileProjected num i { tile := t, ecc := ecc }) s = .next s.after)
        ∧ (∀ (u : State) (q : Punnet) (ps : Pass), s.nextTile = some (num, i, t) → s.drainCount < 2 → s.tileHere p i t = true →
            s.bankErrors num i ecc = u → u.punnet num = some q → q.passes[i]? = some ps → (∃ k, t = .main k ∨ t = .outl k) →
            exec (.tileProjected num i { tile := t, ecc := ecc }) s = .next ((u.takeTile num i t).updPun num (fun w => { w with drains := w.drains ++ [{
              pass := i, tile := t, logits := (u.activeRows q i).map (fun r => (r.1.slot, u.tileLogits ps i t r.1 r.2)) }] })).after)
        ∧ s.bankErrors num i [] = (s.activeRows p i).foldl (fun (s : State) r =>
            if ((Tab.get r.1.vecs i (pvecOf [])).a.scales).contains 255 = true then s.rowFault num r.1 0x11 false else s) s)
    ∧ (∀ (num i : Nat) (t : TileRef) (p : Punnet), s.punnet num = some p →
        (p.drains = [] → exec (.selectionTileClosed num i t) s = .next s.after)
        ∧ (∀ (d : Drain) (ds : List Drain) (ps : Pass), p.drains = d :: ds → p.passes[i]? = some ps →
            (d.pass ≠ i ∨ d.tile ≠ t → exec (.selectionTileClosed num i t) s = .next s.after)
            ∧ (d.pass = i → d.tile = t → exec (.selectionTileClosed num i t) s = .next
                (((State.summaries num (p.passes.length + 1) (((s.activeRows p i).foldl (fun (s : State) r =>
                  s.closeRow p i ps d r.1 r.2) s).updPun num (fun p => { p with drains := p.drains.drop 1 }))).endProjection num)).after)))
    ∧ (∀ (p : Punnet) (i : Nat) (ps : Pass) (d : Drain) (r : PRow) (rd : Rdesc),
        (s.listBad ps d.tile rd = true → s.closeRow p i ps d r rd = s.rowFault p.num r 0x12 false)
        ∧ (s.listBad ps d.tile rd = false → s.closeRow p i ps d r rd = s.addPart p.num r.slot i (isRefPass p.passes i rd)
            ((Tab.get d.logits r.slot []).map (fun e => (e.1, e.2, s.entryEps ps i d.tile e.1 r rd)))))
    ∧ (∀ num slot reward, s.punnet num = none → exec (.auxHeadDone num slot reward) s = .next s.after)
    ∧ (∀ num slot reward, exec (.auxHeadDone num slot reward) s = .next (s.auxDone num slot reward).after)

/-- Partials (R148, R311, R312, R315): a STAT, CAND, WIN, TOPM or TGT for another instance goes on its way; at a node, one of a child, the first of
its class for the row and pass, joins the row's merge, and goes no further while a child or the node itself is missing; one of any other sender, or a
second one, is an Orchard error and doubt on the row. The sums of two partials do not depend on their order. Each of STAT, CAND, WIN, TOPM and TGT
completes (answers a next state) for every state and operands that meet conditions on them alone. The retained set's CAND (log 35) and the model's own
fields (log 34) are its choices. -/
def Obligations.PartialsMergeInAnyOrder : Prop :=
  (∀ (a b c : StatB),
    (statMerge a b).sq = (statMerge b a).sq ∧ (statMerge a b).eq = (statMerge b a).eq ∧ (statMerge a b).mq = (statMerge b a).mq
    ∧ (statMerge a b).meq = (statMerge b a).meq ∧ (statMerge a b).cnt = (statMerge b a).cnt ∧ (statMerge a b).doubt = (statMerge b a).doubt
    ∧ (statMerge a b).late = (statMerge b a).late
    ∧ (statMerge (statMerge a b) c).sq = (statMerge a (statMerge b c)).sq ∧ (statMerge (statMerge a b) c).mq = (statMerge a (statMerge b c)).mq
    ∧ (statMerge (statMerge a b) c).eq = (statMerge a (statMerge b c)).eq ∧ (statMerge (statMerge a b) c).meq = (statMerge a (statMerge b c)).meq
    ∧ (statMerge (statMerge a b) c).cnt = (statMerge a (statMerge b c)).cnt)
  ∧ (∀ (s : State) (h : Hdr), s.working = true → s.forMe h = false →
      (∀ b, exec (.stat h b) s = .next (s.taking { hdr := h, body := .stat b } (s.passOn h (.stat b))).after)
      ∧ (∀ b, exec (.cand h b) s = .next (s.taking { hdr := h, body := .cand b } (s.passOn h (.cand b))).after)
      ∧ (∀ b, exec (.win h b) s = .next (s.taking { hdr := h, body := .win b } (s.passOn h (.win b))).after)
      ∧ (∀ b, exec (.topm h b) s = .next (s.taking { hdr := h, body := .topm b } (s.passOn h (.topm b))).after)
      ∧ (∀ b, exec (.tgt h b) s = .next (s.taking { hdr := h, body := .tgt b } (s.passOn h (.tgt b))).after))
  ∧ (∀ (s : State) (h : Hdr) (p : Punnet) (r : PRow), s.forMe h = true →
      let joins (c : Instr) (b : Body) (k : Nat) (x : PartSum) : Prop :=
        Lands s { hdr := h, body := b } p r →
        let m : Msg := { hdr := h, body := b }
        let kid := s.orch.kidShards.contains h.src = true ∧ s.heardFrom h.punnet h.pass h.rslot k h.src = false
        let d := if h.doubt = true ∧ k ≠ 3 then s.doubtAt h.punnet (some h.rslot) 0x22 else s
        let u := d.mergeIn h.punnet h.pass h.rslot k h.src x
        let heard := h.src :: ((d.merges.find? (fun e => decide (e.punnet = h.punnet ∧ e.pass = h.pass ∧ e.rslot = h.rslot ∧ e.mclass = k))).map
          (fun e => e.heard)).getD []
        (¬kid → exec c s = .next (s.taking m ((s.contained 0x18 { Site.none with punnet := h.punnet, handle := some h.handle, rslot := h.rslot }).doubtAt
          h.punnet (some h.rslot) 0x18)).after)
        ∧ (kid → exec c s = .next (s.taking m u).after)
        ∧ ((d.orch.shard :: d.orch.kidShards).all (fun k => heard.contains k) = false →
            u.orch = d.orch ∧ u.roots = d.roots ∧ u.heardFrom h.punnet h.pass h.rslot k h.src = true)
      (∀ b, joins (.stat h b) (.stat b) 3 { PartSum0 with stat := b })
      ∧ (∀ b, joins (.cand h b) (.cand b) (s.candClass h) (if s.candClass h = 4 then { PartSum0 with cand := b } else { PartSum0 with rset := b }))
      ∧ (∀ b, joins (.win h b) (.win b) 5 { PartSum0 with win := b })
      ∧ (∀ b, joins (.topm h b) (.topm b) 6 { PartSum0 with topm := b })
      ∧ (∀ b, joins (.tgt h b) (.tgt b) 7 { PartSum0 with tgt := b }))

/-! ## Certification -/

/-- Certification (R77, R120, R122 to R125, R150): a threshold goes down the tree and is kept by the row it names; a rescore request waits at its
owner for a lane; a finished re-score leaves it, is counted, and sends the shadow logit, score and noise to the root, while one that nobody asked for
changes nothing; a reply that comes at or after the cutoff is discarded, one for a loop that misses more is held, and a reply with doubt ends a loop
whose last reply it is; the cutoff ends an open loop by the row's policy, and changes nothing for a row that it has not reached. Each of THRESH, RSQ,
RESCORE_DONE, RSP and CERT_CUTOFF completes (answers a next state) for every state and operands that meet conditions on them alone. Fields of THRESH
and WIN that the wire has not (log 34) are the model's. -/
def Obligations.CertificationCommands : Prop :=
  (∀ (s : State) (h : Hdr) (b : ThreshB) (p : Punnet) (r : PRow), Lands s { hdr := h, body := .thresh b } p r →
      exec (.thresh h b) s
        = .next (s.taking { hdr := h, body := .thresh b } ((s.passOn h (.thresh b)).updRow h.punnet h.rslot (fun r => { r with thresh := some b }))).after)
  ∧ (∀ (s : State) (h : Hdr), s.working = true → s.forMe h = false →
      (∀ b, exec (.rsq h b) s = .next (s.taking { hdr := h, body := .rsq b } (s.passOn h (.rsq b))).after)
      ∧ (∀ b, exec (.rsp h b) s = .next (s.taking { hdr := h, body := .rsp b } (s.passOn h (.rsp b))).after))
  ∧ (∀ (s : State) (h : Hdr) (b : RsqB) (p : Punnet) (r : PRow), Lands s { hdr := h, body := .rsq b } p r → s.forMe h = true →
      exec (.rsq h b) s
        = .next (s.taking { hdr := h, body := .rsq b } { s with rescore := s.rescore ++ [{ hdr := h, body := b, lane := false }] }).after)
  ∧ (∀ (s : State) (h : Hdr) (b : RspB) (p : Punnet) (r : PRow), Lands s { hdr := h, body := .rsp b } p r → s.forMe h = true →
      let m : Msg := { hdr := h, body := .rsp b }
      (s.isRoot = false → exec (.rsp h b) s = .next (s.taking m s).after)
      ∧ (s.isRoot = true → exec (.rsp h b) s = .next (s.taking m (s.takeRsp h b)).after
        ∧ (s.root h.punnet h.rslot = none → s.takeRsp h b = s)
        ∧ (∀ q : RootRow, s.root h.punnet h.rslot = some q →
            (s.late q = true → s.takeRsp h b = s)
            ∧ (∀ l : Loop, q.stage = .loop l → s.late q = false →
                (l.batch.contains b.id = false ∨ l.replies.any (fun x => decide (x.id = b.id)) = true → s.takeRsp h b = s)
                ∧ (l.batch.contains b.id = true → l.replies.any (fun x => decide (x.id = b.id)) = false → h.doubt = true →
                    (l.replies.length + 1 < l.batch.length → s.takeRsp h b = s.updRoot h.punnet h.rslot (fun r => { r with
                      stage := .loop { l with replies := l.replies ++ [{ b with zs := f32Nan }] } }))
                    ∧ (l.batch.length ≤ l.replies.length + 1 → s.takeRsp h b = s.doubtExit q 0x12))
                ∧ (l.batch.contains b.id = true → l.replies.any (fun x => decide (x.id = b.id)) = false → h.doubt = false → s.noiseBad q b = false →
                    l.replies.length + 1 < l.batch.length → s.takeRsp h b = s.updRoot h.punnet h.rslot (fun r => { r with
                      stage := .loop { l with replies := l.replies ++ [b] } }))))))
  ∧ (∀ s : State, s.working = true →
      (∀ num slot, (s.root num slot = none → exec (.certCutoff num slot) s = .next s.after)
        ∧ (∀ q : RootRow, s.root num slot = some q →
            (s.late q = false → exec (.certCutoff num slot) s = .next s.after)
            ∧ (∀ l : Loop, s.late q = true → q.stage = .loop l → exec (.certCutoff num slot) s = .next (s.policyExit q offTimex l.best).after
                ∧ (q.prof.certpol = 0 → s.policyExit q offTimex l.best = (s.bump offTimex).failRow q kVoid 0x31))))
      ∧ (∀ num slot pass id ecc,
          let asked (q : Rescore) : Bool := q.lane && decide (q.hdr.punnet = num ∧ q.hdr.rslot = slot ∧ q.hdr.pass = pass ∧ q.body.id = id)
          (s.rescore.find? asked = none → exec (.rescoreDone num slot pass id ecc) s = .next s.after)
          ∧ (∀ (q : Rescore) (p : Punnet) (r : PRow) (c : Row) (y : RsRow), s.rescore.find? asked = some q → s.punnet num = some p → s.prow num slot = some r →
              s.copyOf num r.key = some c → s.rsRow q = some y → s.armed 0x07 = none → s.armed 0x0C = none → (s.shadowOf p pass id y c.rd).2 = false →
              let u := ({ s with rescore := s.rescore.erase q } : State).bump offRescore
              let z := (s.shadowOf p pass id y c.rd).1
              let x := (if isRefPass p.passes pass c.rd then some (softcap r.prof.softcap z) else (s.lane r false id z 0).map (fun o => o.rec_.x)).getD f32NegInf
              let pu := if r.key.cls = clVerify ∧ r.key.gidx < c.rd.draftn then purResidual else drawPurpose r.key.cls
              let g := if q.body.tgt then none else noiseOf r.prof (s.ctx r.key.handle.slot).seed c.rd.pos pu id
              let b : RspB := { id := id, zs := z, t := withNoise g x, xpre := x, g := g.getD 0 }
              exec (.rescoreDone num slot pass id .clean) s = .next (u.sendRsp q.hdr (!isFin x) b).after)
          ∧ exec (.rescoreDone num slot pass id ecc) s = .next (s.rescored num slot pass id ecc).after))

/-! ## Commits and what goes with them -/

/-- COMMIT, LKUP, AUX and SIDE (R107, R138, R177, R182, R202, R247, R250, R314 to R316): a commit goes down the tree and acts once for each row, a
second one is an Orchard error, and one for a row that a purge has voided loses the context; a lookup is held by the commits of its row that have
none, which are then recorded if nothing is missing, or by the row where its commit has not come; a finite auxiliary output is kept with its row while
the row has no record, and with its VREC while that is not begun, any other is dropped; a side list is added to those of its row slot, where a verify
group may wait for it. One for another instance goes on its way. Each of COMMIT, LKUP, AUX and SIDE completes (answers a next state) for every state
and operands that meet conditions on them alone. COMMIT's cause is the model's own field (log 12). -/
def Obligations.CommitMessages : Prop :=
  (∀ (s : State) (h : Hdr) (b : CommitB) (p : Punnet) (r : PRow), Lands s { hdr := h, body := .commit b } p r →
      let m : Msg := { hdr := h, body := .commit b }
      let v := s.passOn h (.commit b)
      let gone := s.orch.purged.find? (fun e => decide (e.1 = h.punnet ∧ e.2.1 = h.rslot))
      (gone = none → r.exited = true → exec (.commit h b) s
        = .next (s.taking m ((v.contained 0x18 (Site.row h.punnet r.key h.rslot)).doubtAt h.punnet (some h.rslot) 0x18)).after)
      ∧ (gone = none → r.exited = false → exec (.commit h b) s = .next (s.taking m (v.applyCommit h.punnet h.rslot r b)).after)
      ∧ (∀ e, gone = some e → exec (.commit h b) s = .next (s.taking m (v.purgedCommit e b)).after))
  ∧ (∀ (s : State) (h : Hdr), s.working = true → s.forMe h = false →
      (∀ b, exec (.lkup h b) s = .next (s.taking { hdr := h, body := .lkup b } (s.passOn h (.lkup b))).after)
      ∧ (∀ b, exec (.aux h b) s = .next (s.taking { hdr := h, body := .aux b } (s.passOn h (.aux b))).after)
      ∧ (∀ b, exec (.side h b) s = .next (s.taking { hdr := h, body := .side b } (s.passOn h (.side b))).after))
  ∧ (∀ (s : State) (h : Hdr) (b : LkupB) (p : Punnet) (r : PRow), Lands s { hdr := h, body := .lkup b } p r → s.forMe h = true →
      let m : Msg := { hdr := h, body := .lkup b }
      let mine (c : HomeCommit) : Bool := decide (c.punnet = h.punnet ∧ c.rslot = h.rslot)
      let s1 : State := { s with hcom := s.hcom.map (fun (c : HomeCommit) => if mine c && c.look.isNone then { c with look := some b } else c) }
      (s.hcom.any mine = true → exec (.lkup h b) s = .next (s.taking m (State.flushCommits s1.hcom.length s1).pump).after)
      ∧ (s.hcom.any mine = false → exec (.lkup h b) s = .next (s.taking m (s.updRow h.punnet h.rslot (fun r => { r with look := some b }))).after))
  ∧ (∀ (s : State) (h : Hdr) (b : AuxB) (p : Punnet) (r : PRow), Lands s { hdr := h, body := .aux b } p r → s.forMe h = true →
      let m : Msg := { hdr := h, body := .aux b }
      (b.finite = false → exec (.aux h b) s = .next (s.taking m s).after)
      ∧ (b.finite = true → ∃ u, exec (.aux h b) s = .next (s.taking m u).after
          ∧ u.rows = s.rows.map (fun (x : Row) => if x.key = r.key ∧ x.punnet = some h.punnet ∧ x.decided = false then
              (if b.reward then { x with auxr := some b.out } else { x with auxv := some b.out }) else x)
          ∧ u.eg.queue.length = s.eg.queue.length
          ∧ (∀ (i : Nat) (e : EgRec), s.eg.queue[i]? = some e → e.done ≠ 0 ∨ e.handle ≠ r.key.handle → u.eg.queue[i]? = some e)))
  ∧ (∀ (s : State) (h : Hdr) (b : SideB) (p : Punnet) (r : PRow), Lands s { hdr := h, body := .side b } p r → s.forMe h = true →
      let m : Msg := { hdr := h, body := .side b }
      let u := s.updRow h.punnet h.rslot (fun r => { r with sides := r.sides.add b })
      let w := match b with
        | .grammar _ _ _ => u.startFetch h.handle.slot .bramble
        | .sketch _ => u.trim []
        | _ => u
      ((∀ q, w.root h.punnet h.rslot = some q → q.stage ≠ .group) → exec (.side h b) s = .next (s.taking m w).after)
      ∧ (∀ q, w.root h.punnet h.rslot = some q → q.stage = .group → exec (.side h b) s = .next (s.taking m (w.groupGo q)).after))

/-! ## Control messages and their timers -/

/-- Messages on CTL (R309, R315, R318, R323 to R325, R359, R399, R433, Table 15.14): a broken header or a parity error is contained and the message
dropped; before READY a message is passed on and nothing else; the round of a REL ends; a command for another instance goes on its way, a completion
ends the command that was forwarded, an acknowledged close is counted; a pool event sets the counters, a time request is answered; a confirming PROBE
is answered, a progress PROBE at the root clears what it held; a PURGE sent down the tree takes effect, and at the root one of a punnet that nothing
holds does nothing. The last confirmation of a standing probe declares the deadlock. A timed-out forward completes with FAULT; the detector's timers
act as R323 to R325 say, and a purge that is due waits until every port is up. Each of REL, CMD, EVENT, PROBE, PURGE, FORWARD_TIMEOUT, DLWIN_EXPIRY,
PURGE_RETRY_TIMER and POOL_UPDATE completes (answers a next state) for every state and operands that meet conditions on them alone. Acknowledgement
subjects from 5 on (log 42) and the settle message (log 36) are the model's; who is asked in a deadlock, and which rows a purge makes void, are
readings (log 27, log 112). -/
def Obligations.ControlMessages : Prop :=
  (∀ (s : State) (h : Hdr), s.live = true → h.parity = true ∨ hdrBroken h = true →
    let u := s.contained (if h.parity then 0x19 else 0x18) Site.none
    (∀ n tag, exec (.rel h n tag) s = .next u) ∧ (∀ b, exec (.cmd h b) s = .next u) ∧ (∀ b, exec (.event h b) s = .next u)
    ∧ (∀ b, exec (.probe h b) s = .next u) ∧ (∀ n d, exec (.purge h n d) s = .next u))
  ∧ (∀ (s : State) (h : Hdr), s.live = true → h.parity = false → hdrBroken h = false → s.blk = .boot ∨ s.blk = .selftest →
    (∀ n tag, exec (.rel h n tag) s = .next (s.passOn h (.rel n tag))) ∧ (∀ b, exec (.cmd h b) s = .next (s.passOn h (.cmd b)))
    ∧ (∀ b, exec (.event h b) s = .next (s.passOn h (.event b))) ∧ (∀ b, exec (.probe h b) s = .next (s.passOn h (.probe b)))
    ∧ (∀ n d, exec (.purge h n d) s = .next (s.passOn h (.purge n d))))
  ∧ (∀ (s : State) (h : Hdr), s.live = true → h.parity = false → hdrBroken h = false → s.blk ≠ .boot → s.blk ≠ .selftest →
    let took := fun (b : Body) (u : State) => (s.taking { hdr := h, body := b } u).after
    (∀ n tag, exec (.rel h n tag) s = .next (took (.rel n tag) (if n < 4 then ((s.passOn h (.rel n tag)).barRelease n tag).switchReleased n
      else (s.passOn h (.rel n tag)).barRelease n tag)))
    ∧ (s.forMe h = false → (∀ b, exec (.cmd h b) s = .next (took (.cmd b) (s.passOn h (.cmd b))))
        ∧ (∀ b, exec (.event h b) s = .next (took (.event b) (s.passOn h (.event b))))
        ∧ (∀ b, exec (.probe h b) s = .next ((s.arrive { hdr := h, body := .probe b }).passOn h (.probe b))))
    ∧ (h.bcast = false → h.dst = s.orch.shard →
        (∀ p r fid c, exec (.cmd h (.cpl p r fid c)) s = .next (took (.cmd (.cpl p r fid c)) (s.onCompletion h fid c)))
        ∧ (∀ p r fid pk, exec (.cmd h (.fwd p r fid pk)) s = .next (took (.cmd (.fwd p r fid pk)) (s.onForward h p r fid pk)))
        ∧ (s.blk ≠ .safe →
            (∀ n, s.isRoot = true → exec (.cmd h (.ack n 1)) s = .next (took (.cmd (.ack n 1)) (s.gotAck n h.src)))
            ∧ (∀ k l lost, exec (.cmd h (.counts k l lost)) s = .next (took (.cmd (.counts k l lost)) (s.takeCounts k l lost)))
            ∧ (∀ k kind cause, exec (.cmd h (.settle k kind cause)) s = .next (took (.cmd (.settle k kind cause)) (s.settleHere k kind cause)))
            ∧ (∀ sent, exec (.event h (.timeReq sent)) s
                = .next (took (.event (.timeReq sent)) (s.sendTo h.src (.event (.timeReply sent s.time.tclk s.time.tclk)))))
            ∧ (∀ a b c d, exec (.event h (.pool a b c d)) s = .next (took (.event (.pool a b c d)) { s with
                pool := { s.pool with t1 := a.toNat, t2 := b.toNat, free := c.toNat, hwm := d.toNat } })))
        ∧ (∀ b : ProbeB,
            let a := s.arrive { hdr := h, body := .probe b }
            (b.conf = true → exec (.probe h b) s = .next (a.sendTo h.src (.probe (a.probeBody (!s.orch.blocked) false s.orch.blocked))))
            ∧ (b.conf = false → s.isRoot = false → exec (.probe h b) s = .next a)
            ∧ (b.conf = false → s.isRoot = true → b.prog = true → exec (.probe h b) s = .next { a with orch := { a.orch with
                blockedBy := s.orch.blockedBy.filter (fun x => decide (x.1 ≠ h.src)), confirm := [], purges := 0, purgeDue := false } })
            ∧ (b.conf = false → s.isRoot = true → b.prog = false → b.still = true → s.orch.confirm = [h.src] → s.orch.hang = false →
                exec (.probe h b) s = .next ({ a with orch := { a.orch with confirm := [] } } : State).deadlock))
        ∧ (∀ n d, s.isRoot = true → s.punnetSeen n = false → exec (.purge h n d) s = .next (s.arrive { hdr := h, body := .purge n d })))
    ∧ (∀ n d, h.bcast = true → ∃ t, exec (.purge h n d) s = .next t ∧ (∀ p ∈ t.puns, p.num ≠ n) ∧ (∀ r ∈ t.roots, r.punnet ≠ n)))
  ∧ (∀ s : State, s.live = true →
    (∀ fid, exec (.forwardTimeout fid) s = .next (s.endJobs (fun j => decide (j.kind = .forward fid)) (fun _ => Cpl.of stFault 0x30)).after)
    ∧ ((s.orch.held = [] ∨ s.orch.blocked = true ∨ s.now < s.orch.moved + s.orch.cfg.dlwin) → exec .dlwinExpiry s = .next s)
    ∧ (s.orch.held ≠ [] → s.orch.blocked = false → s.orch.moved + s.orch.cfg.dlwin ≤ s.now → exec .dlwinExpiry s = .next
        (({ s with orch := { s.orch with blocked := true } } : State).sendTo s.orch.rootSh (.probe (s.probeBody false false false))))
    ∧ ((s.isRoot = false ∨ (s.orch.purges = 0 ∧ s.orch.purgeDue = false) ∨ s.orch.hang = true) → exec .purgeRetryTimer s = .next s)
    ∧ (s.isRoot = true → s.orch.hang = false →
      (s.orch.purgeDue = true → exec .purgeRetryTimer s = .next s.purgeGo)
      ∧ (s.orch.purgeDue = false → 1 ≤ s.orch.purges → s.orch.purges < 4 → exec .purgeRetryTimer s = .next s.purgeNext)
      ∧ (s.orch.purgeDue = false → 4 ≤ s.orch.purges → exec .purgeRetryTimer s
        = .next (({ s with orch := { s.orch with hang := true, purges := 0, purgeDue := false } } : State).setCause cHang)))
    ∧ (s.orch.allUp = false → s.purgeNext = { s with orch := { s.orch with purgeDue := true } })
    ∧ (∀ p, s.orch.allUp = true → s.nextPurge = some p → 
        let o : Orch :=
          { s.orch with purgeDue := false, purges := s.orch.purges + 1, blockedBy := s.orch.blockedBy.filter (fun b => decide (b.2 ≠ p)) }
        s.purgeNext = ({ s with orch := o } : State).sendPurge p false))
  ∧ (∀ s : State, s.working = true →
    (s.isRoot = false → exec .poolUpdate s = .next s.after)
    ∧ (s.isRoot = true → exec .poolUpdate s = .next (({ s with pool := s.poolNow } : State).bcastOthers {
        hdr := s.hdr 0 true 0 0 0 noHandle,
        body := .event (.pool (w32 s.poolNow.t1) (w32 s.poolNow.t2) (w32 s.poolNow.free) (w32 s.poolNow.hwm)) }).after))

/-! ## Links -/

/-- Frames (R298 to R301, R329, R330): a port that is not up takes none; a frame whose CRC fails is discarded and answered with one NAK; a DATA frame
is accepted only in sequence, and any other is discarded with one NAK; every valid frame acknowledges and returns credit; a NAK has the held frames
sent again; a DATA frame takes no more than the credit of its channel and stays in the replay buffer; a port that has nothing to send sends IDLE with
what it owes; a silent port retrains. Each of DATA_FRAME, NAK_FRAME, IDLE_FRAME, RETRAIN, REPLAY_TIMER, IDLE_TIMER and LINKTO_EXPIRY completes
(answers a next state) for every state and operands that meet conditions on them alone. Packing, lane accounting and the moment of owed credits are
the model's choices (log 20, log 21, log 22). -/
def Obligations.LinkFrames : Prop :=
  ∀ (s : State) (p : Nat) (f : Frame),
    let l := s.orch.link p
    let heard := s.setLink p { l.heard f with asleep := false }
    ((s.live = false ∨ l.enabled = false ∨ l.st ≠ 2) →
      exec (.dataFrame p f) s = .next s ∧ exec (.nakFrame p f) s = .next s ∧ exec (.idleFrame p f) s = .next s)
    ∧ (s.live = true → l.enabled = true → l.st = 2 →
      (frOk f = false → exec (.dataFrame p f) s = .next ((s.badFrame p).nak p) ∧ exec (.nakFrame p f) s = .next ((s.badFrame p).nak p)
        ∧ exec (.idleFrame p f) s = .next ((s.badFrame p).nak p))
      ∧ (frOk f = true →
        exec (.idleFrame p f) s = .next (heard.pumpLink p)
        ∧ exec (.nakFrame p f) s = .next (((heard.corrected 0x03).replay p).pumpLink p)
        ∧ (frSeq f ≠ (l.lastAcc + 1) % 4096 → exec (.dataFrame p f) s = .next ((heard.nak p).pumpLink p))
        ∧ (frSeq f = (l.lastAcc + 1) % 4096 → s.armed 0x09 = none → exec (.dataFrame p f) s = .next ((heard.acceptData p f).pumpLink p)))
      ∧ (frOk f = true → exec (.retrain p f) s = .next (s.retrain p 0 false))
      ∧ (l.asleep = false →
        exec (.linktoExpiry p) s = .next (s.retrain p 0 true)
        ∧ exec (.replayTimer p) s = .next (s.replay p)
        ∧ (s.pumpLink p = s → exec (.idleTimer p) s = .next ((s.setLink p l.paid).driveFrame p (mkFrame ftIdle 0 0 l.lastAcc 0 l.owes.1 l.owes.2 0 [])))))
    ∧ (l.nakSent = true → s.nak p = s) ∧ (l.replay = [] → s.replay p = s)
    ∧ (∀ vc ws, Tab.get l.txw vc [] = ws → ws ≠ [] →
        let n := min (min 8 (ws.length / 16)) (Tab.get l.credits vc 0)
        Tab.get (l.sendData vc).1.credits vc 0 = Tab.get l.credits vc 0 - n ∧ (l.sendData vc).2.payload = ws.take (16 * n)
        ∧ (l.sendData vc).1.replay = l.replay ++ [(l.sendData vc).2] ∧ (l.sendData vc).1.nextSeq = (l.nextSeq + 1) % 4096)

/-- Training (R301, R302, R328, R329): a retrain takes a port out of use and raises the Orchard link cause; words train a port that is enabled, on its
one lane group; the TRAIN frame of a port whose lanes are done brings it up, afresh if either side is fresh; a port that cannot train is down, and a
member of a group then rediscovers. Each of TRAIN, TRAINING_WORD and LINK_DOWN completes (answers a next state) for every state and operands that meet
conditions on them alone. One lane group per port is the model's choice (log 103). -/
def Obligations.LinkTraining : Prop :=
  ∀ (s : State) (p : Nat), s.live = true →
    let l := s.orch.link p
    (∀ reason send, ((s.retrain p reason send).orch.link p).st = 1
      ∧ bitAt (s.retrain p reason send).cpa.intStatus cOlink = true ∧ bitAt (s.retrain p reason send).cpb.intStatus cOlink = true)
    ∧ (∀ g lane ws, (l.enabled = false ∨ g ≠ 0 ∨ 9 ≤ lane) → exec (.trainingWord p g lane ws) s = .next s)
    ∧ (∀ lane ws, l.enabled = true → l.st = 1 → lane < 9 → (l.train.word l.failed lane ws).phase = l.train.phase →
        exec (.trainingWord p 0 lane ws) s = .next (s.setLink p { l with train := l.train.word l.failed lane ws }))
    ∧ (∀ f : Frame, (l.enabled = false ∨ l.st ≠ 1 ∨ l.train.phase ≠ 3 ∨ frOk f = false) → exec (.train p f) s = .next s)
    ∧ (∀ f : Frame, l.enabled = true → l.st = 1 → l.train.phase = 3 → frOk f = true → exec (.train p f) s = .next ((s.trained p f).pumpLink p).purgeGo
        ∧ ((s.trained p f).orch.link p).st = 2 ∧ ((s.trained p f).orch.link p).peer = bitsAt (f.payload.getD 0 0) 0 10
        ∧ (l.fresh = true → ((s.trained p f).orch.link p).nextSeq = 0 ∧ ((s.trained p f).orch.link p).credits = Link.fullCredit))
    ∧ ((l.enabled = false ∨ l.st ≠ 1) → exec (.linkDown p) s = .next s)
    ∧ (l.enabled = true → l.st = 1 → s.orch.member = false →
        exec (.linkDown p) s = .next ((s.setLink p { l with st := 3, fresh := true, queues := [], txw := [], rxw := [] }).setCause cOlink))
    ∧ (l.enabled = true → l.st = 1 → s.orch.member = true →
        exec (.linkDown p) s = .next (((s.setLink p { l with st := 3, fresh := true, queues := [], txw := [], rxw := [] }).setCause cOlink).startDisc 2))

/-! ## Debug and test access -/

/-- A purge by hand (R325, R435 to R437): another instance than the root forwards it; the root sends the purge of R325 for a punnet that is queued or
in flight there, and does nothing for any other; without the key nothing happens. JG_DBG_PURGE completes (answers a next state) for every state and
operands that meet conditions on them alone. -/
def Obligations.DebugPurge : Prop :=
  ∀ (s : State) (v : Word), s.live = true → s.debugOn = true →
    (bitsAt v 16 16 = 0x4A47 →
      (s.isRoot = false → exec (.jgDbgPurge v) s = .next (s.sendTo s.orch.rootSh (.purge (bitsAt v 0 16) true)))
      ∧ (s.isRoot = true → s.punnetSeen (bitsAt v 0 16) = false → exec (.jgDbgPurge v) s = .next s)
      ∧ (s.isRoot = true → s.punnetSeen (bitsAt v 0 16) = true → exec (.jgDbgPurge v) s
          = .next (s.bcast { hdr := s.hdr 0 true 0 0 0 noHandle, body := .purge (bitsAt v 0 16) true }))
      ∧ (∀ n, let t := s.purge n
          t.cnt (offEvent 0x20) = satAdd (2 ^ 32 - 1) (s.cnt (offEvent 0x20)) 1 ∧ (∀ p ∈ t.puns, p.num ≠ n) ∧ (∀ r ∈ t.roots, r.punnet ≠ n)
          ∧ ∀ (port vc : Nat), vc < 4 → ∀ m ∈ (t.orch.link port).queue vc, m.hdr.punnet ≠ n))
    ∧ (bitsAt v 16 16 ≠ 0x4A47 → exec (.jgDbgPurge v) s = .next s)

/-- The other debug writes (R326, R406, R435, R436, R438, Table 21.16): the window acts only while debug access is enabled; JG_DBG_EN acts only with
its key; a flush drops what a channel of a port holds, gives it its full credit, and leaves it nothing to return; a counter takes a value without
changing its owner and wakes the waits it satisfies; HANGCLR clears the hang flag, and a clear INJEN disarms every target; reading the trace data
advances its index. R439's writes of a semaphore (R435, R436): OWNER becomes the value written; a port's hold that another takes is abandoned first,
with ABND, ABNDCNT and its waiters' completions; GRANTS advances when OWNER passes from 0 to another value. Each of JG_DBG_FLUSH, JG_DBG_CNTVAL,
JG_DBG_SEM, HANGCLR, INJEN_CLEAR, JG_DBG_EN and JG_DBG_TRDATA completes (answers a next state) for every state and operands that meet conditions on
them alone. -/
def Obligations.DebugWrites : Prop :=
  ((∀ (s : State) (v : Word) (x : W64), s.live = false ∨ s.debugOn = false →
    exec (.jgDbgPurge v) s = .next s ∧ exec (.jgDbgFlush v) s = .next s ∧ exec (.jgDbgCntval x) s = .next s ∧ exec (.jgDbgSem v) s = .next s
    ∧ exec (.hangclr v) s = .next s ∧ exec (.injenClear v) s = .next s)
  ∧ (∀ (s : State) (v : Word) (x : W64), s.live = true → s.debugOn = true →
    ((bitsAt v 16 16 ≠ 0x4A47 ∨ 5 ≤ bitsAt v 0 3 ∨ 5 ≤ bitsAt v 4 3) → exec (.jgDbgFlush v) s = .next s)
    ∧ (bitsAt v 16 16 = 0x4A47 → bitsAt v 0 3 < 5 → bitsAt v 4 3 < 5 → ∃ t, exec (.jgDbgFlush v) s = .next t
        ∧ (t.orch.link (bitsAt v 0 3)).queue (bitsAt v 4 3) = []
        ∧ Tab.get (t.orch.link (bitsAt v 0 3)).owed (bitsAt v 4 3) 0 = 0 ∧ Tab.get (t.orch.link (bitsAt v 0 3)).txw (bitsAt v 4 3) [] = []
        ∧ Tab.get (t.orch.link (bitsAt v 0 3)).rxw (bitsAt v 4 3) [] = []
        ∧ Tab.get (t.orch.link (bitsAt v 0 3)).credits (bitsAt v 4 3) 0 = Tab.get Link.fullCredit (bitsAt v 4 3) 0
        ∧ (∀ vc, vc ≠ bitsAt v 4 3 → (t.orch.link (bitsAt v 0 3)).queue vc = (s.orch.link (bitsAt v 0 3)).queue vc)
        ∧ (∀ p, p ≠ bitsAt v 0 3 → t.orch.link p = s.orch.link p))
    ∧ (∃ t, exec (.jgDbgCntval x) s = .next t ∧ (t.ctr s.dbg.cntsel).value = x ∧ (t.ctr s.dbg.cntsel).owner = (s.ctr s.dbg.cntsel).owner
        ∧ (∀ w ∈ (t.ctr s.dbg.cntsel).waiters, w ∈ (s.ctr s.dbg.cntsel).waiters ∧ (x - w.target).toInt < 0)
        ∧ (∀ n, n ≠ s.dbg.cntsel → t.ctr n = s.ctr n))
    ∧ (let u : State := { s with dbg := { s.dbg with injen := bitAt v 0, injfatal := bitAt v 1 },
                                  faults := if bitAt v 0 then s.faults else { s.faults with inj := [] } }
       let t := if bitAt v 2 then u.hangClear else u
       exec (.hangclr v) s = .next t ∧ exec (.injenClear v) s = .next t ∧ (bitAt v 2 = true → t.orch.hang = false)
       ∧ (bitAt v 0 = false → t.faults.inj = [])))
  ∧ (∀ (s : State) (p : PortId) (v : Word), s.pwr.clkFail = false → 2 ≤ s.pwr.cur →
      (bitsAt v 16 16 ≠ 0x4442 → exec (.jgDbgEn p v) s = .next s)
      ∧ (bitsAt v 16 16 = 0x4442 → ∃ t, exec (.jgDbgEn p v) s = .next t ∧ t.dbg.en = bitAt v 0 ∧ t.dbg.enKey = true ∧ t.dbg.tap = s.dbg.tap
          ∧ (s.debugOn = true → t.debugOn = false → t.dbg.injen = false ∧ t.dbg.injfatal = false ∧ t.faults.inj = [])))
  ∧ (∀ (s : State) (p : PortId), s.live = true →
      exec (.jgDbgTrdata p) s = .next { s with dbg := { s.dbg with tridx := (s.dbg.tridx + 1) % 65536 } }))
  ∧ (∀ (s : State) (v : Word), s.live = true → s.debugOn = true → bitsAt v 16 16 = 0x4A47 →
    let n := bitsAt v 0 6
    let o := bitsAt v 8 2
    let q := s.sem n
    ((q.owner = 1 ∨ q.owner = 2) → q.owner ≠ o →
      exec (.jgDbgSem v) s = .next ((s.semAbandon n).setSem n
        { q with owner := o, grants := if o ≠ 0 then (q.grants + 1) % 256 else q.grants, abnd := true, abndcnt := satAdd 255 q.abndcnt 1, waiters := [] }))
    ∧ (q.owner = 0 → o ≠ 0 → exec (.jgDbgSem v) s = .next (s.setSem n { q with owner := o, grants := (q.grants + 1) % 256 }))
    ∧ (q.owner ≠ 0 → (q.owner = o ∨ (q.owner ≠ 1 ∧ q.owner ≠ 2)) → exec (.jgDbgSem v) s = .next (s.setSem n { q with owner := o }))
    ∧ (q.owner = 0 → o = 0 → exec (.jgDbgSem v) s = .next (s.setSem n { q with owner := 0 })))

/-- The test access port (R413, R414, R440, R441, Table 21.18, Table 21.19): DBGEN gives debug access while it is selected, and Test-Logic-Reset ends
it and leaves every instrument idle; without GO an instrument keeps what was shifted in; REGACC writes as a debug write, and not into a port's window;
the stores and the SRAM read as zero while a row has not exited certification; a slice outside an idle window shows FAIL; FUSE, THERM and TRACE give
their words, and THERM clears the trips it reports. Each of REGACC, STORE, SRAMRD, SLICE, FUSE, THERM, TRACE, DBGEN, DBGEN_DESELECT and
TEST_LOGIC_RESET completes (answers a next state) for every state and operands that meet conditions on them alone. The words of stores, SRAM and
trace, and a slice's verdict, are free values (log 5, log 28, log 29). -/
def Obligations.TestAccess : Prop :=
  (∀ s : State, exec .dbgenDeselect s = .next (s.setAccess s.dbg.en false)
    ∧ (∃ t, exec .testLogicReset s = .next t ∧ t.dbg.tap = false ∧ t.dbg.tdr = [] ∧ t.dbg.en = s.dbg.en))
  ∧ (∀ s : State, s.pwr.clkFail = false → ∃ t, exec .dbgen s = .next t ∧ t.debugOn = true ∧ t.dbg.en = s.dbg.en ∧ t.faults = s.faults)
  ∧ (∀ s : State, s.pwr.clkFail = false → 2 ≤ s.pwr.cur →
    (∀ v, v % 2 = 0 → exec (.regacc v) s = .next (s.setTdr 0 v) ∧ exec (.store v) s = .next (s.setTdr 1 v) ∧ exec (.sramrd v) s = .next (s.setTdr 2 v)
      ∧ exec (.slice v) s = .next (s.setTdr 3 v) ∧ exec (.fuse v) s = .next (s.setTdr 4 v) ∧ exec (.trace v) s = .next (s.setTdr 6 v))
    ∧ (∀ v, v % 2 = 1 →
      (v.testBit 1 = true → tdrBits v 3 18 < 0x20000 → ∃ t, exec (.regacc v) s = .next t ∧ t = s.setTdr 0 (Tab.get t.dbg.tdr 0 0))
      ∧ (v.testBit 1 = true → v.testBit 2 = false → 0x20000 ≤ tdrBits v 3 18 → accessOk (tdrBits v 3 18) 4 = true → accessHits (tdrBits v 3 18) 4 = true →
          s.debugOn = true → exec (.regacc v) s
            = .next ((s.writeAccess .debug (tdrBits v 3 18) 4 (BitVec.ofNat 64 (tdrBits v 21 64))).setTdr 0
                (tdrPut (tdrPut (tdrPut v 21 64 (BitVec.ofNat 64 (tdrBits v 21 64)).toNat) 85 1 0) 86 1 0)))
      ∧ (v.testBit 1 = false → v.testBit 2 = false → accessOk (tdrBits v 3 18) 4 = true → isWide (tdrBits v 3 18) = false → s.dbg.latch = none →
          exec (.regacc v) s = .next ((s.trAdvance (tdrBits v 3 18) 4).setTdr 0
            (tdrPut (tdrPut (tdrPut v 21 64 (s.regWord (tdrBits v 3 18)).toNat) 85 1 0) 86 1 0)))
      ∧ (s.puns ≠ [] ∨ s.roots ≠ [] → exec (.store v) s = .next (s.setTdr 1 (tdrPut (tdrPut v 23 64 0) 87 1 0)))
      ∧ (s.puns ≠ [] ∨ s.roots ≠ [] → s.armed 0x01 = none →
          exec (.sramrd v) s = .next (s.setTdr 2 (tdrPut (tdrPut (tdrPut (tdrPut (tdrPut v 31 64 0) 95 8 0) 103 1 0) 104 1 0) 105 1 0)))
      ∧ (s.live = false ∨ s.idleWindow = false → exec (.slice v) s = .next (s.setTdr 3 (tdrPut (tdrPut (tdrPut v 14 1 0) 15 1 0) 16 1 1)))
      ∧ (∀ w, tdrBits v 1 7 = w → 64 ≤ w → w < 68 → exec (.fuse v) s = .next (s.setTdr 4 (tdrPut (tdrPut v 8 64
          (join64 (s.rep.field.getD (2 * (w - 64)) 0) (s.rep.field.getD (2 * (w - 64) + 1) 0)).toNat) 72 1 0)))
      ∧ exec (.trace v) s = .next (s.setTdr 6 (tdrPut (tdrPut v 17 32 (s.traceWord (tdrBits v 1 16)).toNat) 49 1 0)))
    ∧ (∀ raw, ∃ t, exec (.therm raw) s = .next t ∧ t.pwr.droopHit = [] ∧ t.faults = s.faults ∧ t.pwr.cur = s.pwr.cur))

/-! ## Faults, the safe state, self-test -/

/-- The fault log (R397, Table 19.2): an event like the newest entry advances its REPEAT, up to 127; any other becomes the newest of at most 256
entries, and the wrap flag is set when the oldest is lost; nothing but the log and that flag with its counter changes. -/
def Obligations.FaultLogKeepsTheNewest : Prop :=
  ∀ (s : State) (c : Nat) (x : Site),
    let t := s.logFault c x
    (∀ h r, s.faults.log = h :: r → h.cause = c → h.unit = x.unit % 64 → h.punnet = x.punnet →
      t = { s with faults := { s.faults with log := { h with rep := min 127 (h.rep + 1) } :: r } })
    ∧ ((∀ h r, s.faults.log = h :: r → ¬(h.cause = c ∧ h.unit = x.unit % 64 ∧ h.punnet = x.punnet)) →
        ∃ e : FLog, e.cause = c ∧ e.cls = causeClass c ∧ e.unit = x.unit % 64 ∧ e.punnet = x.punnet ∧ e.handle = x.handle ∧ e.rep = 0
          ∧ e.tick = BitVec.ofNat 32 s.now ∧ t.faults.log = (e :: s.faults.log).take 256
          ∧ (256 ≤ s.faults.log.length → t.faults.status = s.faults.status ||| 16)
          ∧ (s.faults.log.length < 256 → t.faults.status = s.faults.status))
    ∧ t.mem = s.mem ∧ t.blk = s.blk ∧ t.rows = s.rows ∧ t.eg = s.eg ∧ t.orch = s.orch ∧ t.cpa = s.cpa ∧ t.cpb = s.cpb

/-- Entry into SAFE (R394, R399, R400): a fatal fault takes the instance to SAFE with its cause and the state it was in, every row homed here gets a
settled record, no commit is held any more, and no load or switch runs on; in SAFE itself a fatal fault leaves the status of the entry as it is.
Firmware's own entry, the watchdog and a transfer that hangs are fatal; the watchdog does not run in BOOT. Each of SAFE_ENTRY, WATCHDOG_EXPIRY and
TRANSFER_TIMEOUT completes (answers a next state) for every state and operands that meet conditions on them alone. That records in hand still go out
is a reading (log 101). -/
def Obligations.FatalFaultsEnterSafe : Prop :=
  (∀ (s : State) (c : Nat) (x : Site), s.blk ≠ .safe →
    let t := s.fatal c x
    t.blk = .safe ∧ t.faults.safe = true ∧ t.faults.scause = c ∧ t.faults.prior = blkCode s.blk
    ∧ (∀ r ∈ t.rows, r.home = true → r.decided = true) ∧ t.hcom = [] ∧ (∀ j ∈ t.jobs, safeCpl j = none))
  ∧ (∀ (s : State) (c : Nat) (x : Site), s.blk = .safe →
    let t := s.fatal c x
    t.blk = .safe ∧ t.faults.scause = s.faults.scause ∧ t.faults.prior = s.faults.prior ∧ t.faults.stick = s.faults.stick ∧ t.rows = s.rows)
  ∧ (∀ s : State, s.live = true →
    (∀ c, exec (.safeEntry c) s = .next (s.fatal (c % 256) Site.none))
    ∧ (s.blk = .boot ∨ s.blk = .safe → exec .watchdogExpiry s = .next s)
    ∧ (s.blk ≠ .boot → s.blk ≠ .safe → s.armed 0x0F = none → exec .watchdogExpiry s = .next (s.fatal 0x40 Site.none))
    ∧ exec .transferTimeout s = .next (s.fatal 0x47 Site.none))

/-- Self-test in the field (R167, R413 to R415): a slice runs in an idle window alone; a failing unit that serves is repaired at once in READY; a new
pass begins no sooner than 600 s after the last began, one that has not ended after 60,000 s sets the self-test-starved flag; the rescore lanes are
checked in RUN alone. Each of SELFTEST_SLICE, SELFTEST_PASS_TIMER and RESCORE_KAT_TIMER completes (answers a next state) for every state and operands
that meet conditions on them alone. That unit numbers are physical is the model's choice (log 52). -/
def Obligations.FieldSelfTest : Prop :=
  ∀ s : State, s.live = true →
    (∀ u f, s.idleWindow = false → exec (.selftestSlice u f) s = .next s)
    ∧ (∀ u, s.idleWindow = true → exec (.selftestSlice u false) s = .next (({ s with rep := { s.rep with
          left := s.rep.left.erase u, passEnd := s.rep.passEnd || (!s.rep.left.isEmpty && (s.rep.left.erase u).isEmpty),
          dleft := s.rep.dleft.erase u } } : State).endDiagPass))
    ∧ (∀ u t, s.blk = .ready → s.logical u = some t → ∃ v : State, exec (.selftestSlice u true) s = .next (v.repair t).endDiagPass
        ∧ v.rep.made = s.rep.made ∧ v.rep.left = s.rep.left.erase u ∧ v.blk = s.blk)
    ∧ (s.rep.passEnd = true → (s.rep.passAt + 60000000000 ≤ s.now ∨ s.rep.passAt = 0) → exec .selftestPassTimer s = .next { s with rep := { s.rep with
        left := unitsOf 0x3F, passAt := s.now, passEnd := false, starved := false } })
    ∧ (s.rep.passEnd = true → s.now < s.rep.passAt + 60000000000 → s.rep.passAt ≠ 0 → exec .selftestPassTimer s = .next s)
    ∧ (s.rep.passEnd = false → s.rep.passAt + 6000000000000 ≤ s.now → s.rep.starved = false → exec .selftestPassTimer s
        = .next (({ s with rep := { s.rep with starved := true } } : State).setFault 6))
    ∧ (s.rep.passEnd = false → s.now < s.rep.passAt + 6000000000000 → exec .selftestPassTimer s = .next s)
    ∧ (s.working = true → s.blk ≠ .run → ∀ us, exec (.rescoreKatTimer us) s = .next s.after)
    ∧ (s.blk = .run → ∀ u : Unit', u.kind = 4 ∨ u.kind = 5 → exec (.rescoreKatTimer [u]) s = .next (s.katFail u).after)
end

