-- ==== Sys2Proof/Laws/Memory.lean ====
section
/-! SUPPORT. The laws of memory: what a byte reads as after a store, and that a store keeps the canonical form. -/

namespace Sys2Proof.Laws

open Sys2Proof.Machine

theorem cellAt_append (a b : List Host.Cell) (k : Nat) :
    cellAt (a ++ b) k = if (a.any (fun c => decide (c.1 = k))) = true then cellAt a k else cellAt b k := by
  induction a with
  | nil => simp
  | cons c r ih =>
    obtain ⟨x, v⟩ := c
    simp only [List.cons_append, cellAt, List.any_cons, Bool.or_eq_true, decide_eq_true_eq]
    by_cases h : k = x
    · simp [h]
    · simp [h, Ne.symm h, ih]

theorem cellAt_none (l : List Host.Cell) (k : Nat) (h : ∀ c ∈ l, c.1 ≠ k) : cellAt l k = 0 := by
  induction l with
  | nil => rfl
  | cons c r ih =>
    obtain ⟨x, v⟩ := c
    simp only [cellAt]
    rw [if_neg (Ne.symm (h (x, v) (List.mem_cons_self ..)))]
    exact ih (fun c hc => h c (List.mem_cons_of_mem _ hc))

theorem cellAt_filter (l : List Host.Cell) (p : Host.Cell → Bool) (k : Nat) (h : ∀ v, p (k, v) = true) : cellAt (l.filter p) k = cellAt l k := by
  induction l with
  | nil => rfl
  | cons c r ih =>
    obtain ⟨x, v⟩ := c
    by_cases hk : k = x
    · subst hk
      rw [List.filter_cons_of_pos (h v)]
      simp [cellAt]
    · by_cases hp : p (x, v) = true
      · rw [List.filter_cons_of_pos hp]; simp [cellAt, hk, ih]
      · rw [List.filter_cons_of_neg hp]; simp [cellAt, hk, ih]

/-- The cells of a byte string lie at its addresses and list no zero. -/
theorem newCells_ge (bs : List Byte) : ∀ k, ∀ c ∈ newCells k bs, k ≤ c.1 ∧ c.1 < k + bs.length ∧ c.2 ≠ 0 := by
  induction bs with
  | nil => intro k c hc; simp [newCells] at hc
  | cons b r ih =>
    intro k c hc
    unfold newCells at hc
    split at hc
    · have := ih (k + 1) c hc
      refine ⟨by omega, ?_, this.2.2⟩
      have h2 := this.2.1
      simp only [List.length_cons]; omega
    · rcases List.mem_cons.1 hc with rfl | hc
      · simp_all
      · have := ih (k + 1) c hc
        refine ⟨by omega, ?_, this.2.2⟩
        have h2 := this.2.1
        simp only [List.length_cons]; omega

theorem newCells_sorted (bs : List Byte) : ∀ k, (newCells k bs).Pairwise (fun a b => a.1 < b.1) := by
  induction bs with
  | nil => intro k; simp [newCells]
  | cons b r ih =>
    intro k
    unfold newCells
    split
    · exact ih (k + 1)
    · refine List.pairwise_cons.2 ⟨fun c hc => ?_, ih (k + 1)⟩
      have := (newCells_ge r (k + 1) c hc).1
      show k < c.1; omega

theorem cellAt_newCells (bs : List Byte) : ∀ k a, cellAt (newCells k bs) a = if k ≤ a ∧ a < k + bs.length then bs.getD (a - k) 0 else 0 := by
  induction bs with
  | nil => intro k a; simp [newCells, cellAt]
  | cons b r ih =>
    intro k a
    unfold newCells
    by_cases hka : a = k
    · subst hka
      have hz : cellAt (newCells (a + 1) r) a = 0 := cellAt_none _ _ (fun c hc => by have := (newCells_ge r (a + 1) c hc).1; omega)
      split
      · rename_i hb; simp [hz, hb]
      · simp [cellAt]
    · have h1 : (a - k) = (a - (k + 1)) + 1 ∨ a < k := by omega
      have key : cellAt (newCells (k + 1) r) a = if k ≤ a ∧ a < k + (b :: r).length then (b :: r).getD (a - k) 0 else 0 := by
        rw [ih]
        rcases h1 with h1 | h1
        · rw [h1, List.getD_cons_succ]
          have : (k + 1 ≤ a ∧ a < k + 1 + r.length) ↔ (k ≤ a ∧ a < k + (b :: r).length) := by simp only [List.length_cons]; omega
          simp only [this]
        · rw [if_neg (by omega), if_neg (by omega)]
      split
      · exact key
      · simp only [cellAt, hka, if_false]; exact key

/-- A byte read after a store: the stored byte inside, the old one outside. -/
theorem byte_store (m : Memory) (k : Nat) (bs : List Byte) (a : Nat) :
    (m.store k bs).byte a = if k ≤ a ∧ a < k + bs.length then bs.getD (a - k) 0 else m.byte a := by
  unfold Memory.byte Memory.store
  dsimp only
  rw [List.append_assoc, cellAt_append]
  by_cases h1 : a < k
  · rw [if_neg (c := k ≤ a ∧ a < k + bs.length) (by omega)]
    split
    · exact cellAt_filter _ _ _ (fun v => by simp [h1])
    · rename_i hn
      rw [cellAt_none (newCells k bs ++ _) a]
      · symm; refine cellAt_none _ _ (fun c hc hca => hn ?_)
        exact List.any_eq_true.2 ⟨c, List.mem_filter.2 ⟨hc, by simp [hca, h1]⟩, by simp [hca]⟩
      · intro c hc
        rcases List.mem_append.1 hc with hc | hc
        · have := (newCells_ge bs k c hc).1; omega
        · have := of_decide_eq_true (List.mem_filter.1 hc).2; omega
  · have hlow : (List.any (m.cells.filter (fun c => decide (c.1 < k))) (fun c => decide (c.1 = a))) = false := by
      refine List.any_eq_false.2 (fun c hc => ?_)
      have := of_decide_eq_true (List.mem_filter.1 hc).2
      simp only [decide_eq_true_eq]; omega
    rw [if_neg (by simp [hlow]), cellAt_append]
    by_cases h2 : a < k + bs.length
    · rw [if_pos (c := k ≤ a ∧ a < k + bs.length) (by omega)]
      have hhigh : cellAt (m.cells.filter (fun c => decide (k + bs.length ≤ c.1))) a = 0 :=
        cellAt_none _ _ (fun c hc => by have := of_decide_eq_true (List.mem_filter.1 hc).2; omega)
      have hnew := cellAt_newCells bs k a
      rw [if_pos (by omega)] at hnew
      split
      · exact hnew
      · rename_i hn
        rw [hhigh, ← hnew]
        symm; refine cellAt_none _ _ (fun c hc hca => hn (List.any_eq_true.2 ⟨c, hc, by simp [hca]⟩))
    · rw [if_neg (c := k ≤ a ∧ a < k + bs.length) (by omega)]
      have hn : (List.any (newCells k bs) (fun c => decide (c.1 = a))) = false := by
        refine List.any_eq_false.2 (fun c hc => ?_)
        have := (newCells_ge bs k c hc).2.1
        simp only [decide_eq_true_eq]; omega
      rw [if_neg (by simp [hn])]
      exact cellAt_filter _ _ _ (fun v => by simp; omega)

/-- A store keeps the canonical form. -/
theorem store_wf (m : Memory) (k : Nat) (bs : List Byte) (h : m.wf) : (m.store k bs).wf := by
  obtain ⟨h1, h2⟩ := h
  refine ⟨?_, ?_⟩
  · show List.Pairwise _ (_ ++ _ ++ _)
    rw [List.pairwise_append, List.pairwise_append]
    refine ⟨⟨h1.filter _, newCells_sorted bs k, ?_⟩, h1.filter _, ?_⟩
    · intro x hx y hy
      have hy := newCells_ge bs k y hy
      have hx := of_decide_eq_true (List.mem_filter.1 hx).2
      omega
    · intro x hx y hy
      have hy := of_decide_eq_true (List.mem_filter.1 hy).2
      rcases List.mem_append.1 hx with hx | hx
      · have hx := of_decide_eq_true (List.mem_filter.1 hx).2
        omega
      · have hx := newCells_ge bs k x hx
        omega
  · intro c hc
    rcases List.mem_append.1 hc with hc | hc
    · rcases List.mem_append.1 hc with hc | hc
      · exact h2 c (List.mem_filter.1 hc).1
      · exact (newCells_ge bs k c hc).2.2
    · exact h2 c (List.mem_filter.1 hc).1

/-- Memory that lists nothing has the canonical form. -/
theorem empty_wf : Memory.empty.wf := ⟨List.Pairwise.nil, fun _ h => absurd h (List.not_mem_nil)⟩

end Sys2Proof.Laws
end

