-- ==== Sys2Proof/Laws/Tab.lean ====
section
/-! SUPPORT. The laws of a keyed table: what a key reads as after a write, after a removal, and after a change of every value. -/

namespace Sys2Proof.Laws

variable {α β : Type}

theorem tab_find_set (t : Tab α) (n m : Nat) (v : α) : Tab.find? (Tab.set t n v) m = if m = n then some v else Tab.find? t m := by
  induction t with
  | nil => simp [Tab.set, Tab.find?]
  | cons e r ih =>
    obtain ⟨k, x⟩ := e
    unfold Tab.set
    by_cases h1 : n < k
    · rw [if_pos h1]; simp only [Tab.find?]
    · rw [if_neg h1]
      by_cases h2 : n = k
      · subst h2
        rw [if_pos rfl]
        simp only [Tab.find?]
        by_cases h3 : m = n <;> simp [h3]
      · rw [if_neg h2]
        simp only [Tab.find?, ih]
        by_cases h3 : m = k
        · subst h3; simp [Ne.symm h2]
        · simp [h3]

theorem tab_get_set (t : Tab α) (n m : Nat) (v d : α) : Tab.get (Tab.set t n v) m d = if m = n then v else Tab.get t m d := by
  unfold Tab.get
  rw [tab_find_set]
  by_cases h : m = n <;> simp [h]

@[simp] theorem tab_get_set_self (t : Tab α) (n : Nat) (v d : α) : Tab.get (Tab.set t n v) n d = v := by
  rw [tab_get_set, if_pos rfl]

theorem tab_get_set_ne (t : Tab α) {n m : Nat} (h : m ≠ n) (v d : α) : Tab.get (Tab.set t n v) m d = Tab.get t m d := by
  rw [tab_get_set, if_neg h]

theorem tab_find_mapVals (t : Tab α) (f : Nat → α → β) (m : Nat) : Tab.find? (Tab.mapVals t f) m = (Tab.find? t m).map (f m) := by
  induction t with
  | nil => rfl
  | cons e r ih =>
    obtain ⟨k, x⟩ := e
    have h : Tab.mapVals ((k, x) :: r) f = (k, f k x) :: Tab.mapVals r f := rfl
    rw [h]
    simp only [Tab.find?, ih]
    by_cases hm : m = k
    · subst hm; simp
    · simp [hm]

theorem tab_find_del (t : Tab α) (n m : Nat) : Tab.find? (Tab.del t n) m = if m = n then none else Tab.find? t m := by
  induction t with
  | nil => simp [Tab.del, Tab.find?]
  | cons e r ih =>
    obtain ⟨k, x⟩ := e
    unfold Tab.del at ih ⊢
    rw [List.filter_cons]
    by_cases h : k = n
    · subst h
      simp only [ne_eq, not_true_eq_false, decide_false, Bool.false_eq_true, if_false, ih, Tab.find?]
      by_cases hm : m = k <;> simp [hm]
    · simp only [ne_eq, h, not_false_eq_true, decide_true, if_true, Tab.find?, ih]
      by_cases hm : m = k
      · subst hm; simp [h]
      · simp [hm]

end Sys2Proof.Laws
end

