-- ==== Sys2Proof/Laws/Keeps/Base.lean ====
section
/-! SUPPORT. What every operation of the block but a reset keeps: the queue of commands, the canonical form of memory, the bound of the
fault log, the numbers of the commands that the rings list, and the three conditions that only a reset ends (quarantine, clock failure,
SAFE). One lemma for each operation follows in
the files beside this one. -/

namespace Sys2Proof.Laws
open Sys2Proof.Machine

/-- Every command that a ring of the port lists has a number below `k`. -/
def IdsBelow (k : Nat) (p : Port) : Prop := ∀ n, ∀ o ∈ (p.ring n).outst, o.id < k

/-- The numbers of the commands that the rings list are below the next command's number. -/
def Fresh (s : State) : Prop := IdsBelow s.cmdId s.cpa ∧ IdsBelow s.cmdId s.cpb

/-- A ring lists no number that the other does not. -/
def RingSub (q r : Ring) : Prop := ∀ o ∈ q.outst, ∃ o' ∈ r.outst, o'.id = o.id

/-- A port's rings list no number that the other's do not. -/
def PortSub (q p : Port) : Prop := ∀ n, RingSub (q.ring n) (p.ring n)

theorem RingSub.of {q r : Ring} (h : q.outst = r.outst) : RingSub q r := fun o ho => ⟨o, h ▸ ho, rfl⟩

theorem PortSub.of {q p : Port} (h : q.rings = p.rings) : PortSub q p := fun n => RingSub.of (by unfold Port.ring; rw [h])

theorem PortSub.reset (p : Port) : PortSub Port.reset p := fun _ _ ho => nomatch ho

theorem PortSub.ids {q p : Port} (h : PortSub q p) {k : Nat} (hp : IdsBelow k p) : IdsBelow k q := fun n o ho => by
  obtain ⟨o', h1, h2⟩ := h n o ho
  exact h2 ▸ hp n o' h1

theorem PortSub.setRing {p : Port} {n : Nat} {q : Ring} (h : RingSub q (p.ring n)) : PortSub (p.setRing n q) p := fun m => by
  by_cases hm : m = n
  · subst hm
    have : (p.setRing m q).ring m = q := tab_get_set_self p.rings m q Ring.reset
    rw [this]; exact h
  · have : (p.setRing n q).ring m = p.ring m := tab_get_set_ne p.rings hm q Ring.reset
    rw [this]; exact RingSub.of rfl

/-- `s` is reached from `a` by an operation of the block that is no reset. -/
def Keeps (a s : State) : Prop :=
  s.pending = a.pending ∧ (a.mem.wf → s.mem.wf) ∧ (a.faults.log.length ≤ 256 → s.faults.log.length ≤ 256)
  ∧ (a.quar = true → s.quar = true) ∧ (a.pwr.clkFail = true → s.pwr.clkFail = true) ∧ (a.blk = Blk.safe → s.blk = Blk.safe)
  ∧ (Fresh a → Fresh s)

theorem Keeps.refl (a : State) : Keeps a a := ⟨rfl, id, id, id, id, id, id⟩

theorem Keeps.ite {c : Prop} [Decidable c] {a x y : State} (hx : Keeps a x) (hy : Keeps a y) : Keeps a (if c then x else y) := by
  split <;> assumption

theorem Keeps.foldl {α : Type} {a : State} {l : List α} {f : State → α → State} {x : State}
    (hx : Keeps a x) (hf : ∀ s b, Keeps a s → Keeps a (f s b)) : Keeps a (l.foldl f x) := by
  induction l generalizing x with
  | nil => exact hx
  | cons b r ih => exact ih (hf _ _ hx)

theorem Keeps.upd {a x t : State} (h : Keeps a x) (h1 : t.pending = x.pending) (h2 : t.mem = x.mem)
    (h3 : t.faults.log = x.faults.log) (h4 : t.quar = x.quar) (h5 : t.pwr.clkFail = x.pwr.clkFail) (h6 : t.blk = x.blk)
    (h7 : t.cmdId = x.cmdId) (h8 : t.cpa = x.cpa) (h9 : t.cpb = x.cpb) :
    Keeps a t := by
  obtain ⟨p1, p2, p3, p4, p5, p6, p7⟩ := h
  exact ⟨h1.trans p1, h2 ▸ p2, h3 ▸ p3, h4 ▸ p4, h5 ▸ p5, h6 ▸ p6, fun hh => by unfold Fresh; rw [h7, h8, h9]; exact p7 hh⟩

theorem Keeps.mk {a x : State} (h : Keeps a x) {v_pending v_free v_mem v_blk v_boot v_fwBase v_quar v_time v_pwr v_cpa v_cpb v_cmdId v_jobs v_sems v_ctrs v_bars v_cnts v_latcap v_conf v_slots v_scx v_counts v_fetches v_tails v_tenants v_ing v_rows v_asm v_puns v_merges v_roots v_hcom v_rescore v_loader v_rsbuf v_eg v_orch v_faults v_wind v_rep v_lanes v_dbg v_pool v_outs}
    (h1 : v_pending = x.pending) (h2 : v_mem = x.mem) (h3 : v_faults.log = x.faults.log) (h4 : v_quar = x.quar)
    (h5 : v_pwr.clkFail = x.pwr.clkFail) (h6 : v_blk = x.blk)
    (h7 : v_cmdId = x.cmdId) (h8 : v_cpa = x.cpa) (h9 : v_cpb = x.cpb) :
    Keeps a (State.mk v_pending v_free v_mem v_blk v_boot v_fwBase v_quar v_time v_pwr v_cpa v_cpb v_cmdId v_jobs v_sems v_ctrs v_bars v_cnts v_latcap v_conf v_slots v_scx v_counts v_fetches v_tails v_tenants v_ing v_rows v_asm v_puns v_merges v_roots v_hcom v_rescore v_loader v_rsbuf v_eg v_orch v_faults v_wind v_rep v_lanes v_dbg v_pool v_outs) := by
  obtain ⟨p1, p2, p3, p4, p5, p6, p7⟩ := h
  subst h1 h2 h4 h6 h7 h8 h9
  exact ⟨p1, p2, fun hh => h3 ▸ p3 hh, p4, fun hh => h5 ▸ p5 hh, p6, p7⟩

theorem Keeps.mkBlk {a x : State} (h : Keeps a x) {v_pending v_free v_mem v_blk v_boot v_fwBase v_quar v_time v_pwr v_cpa v_cpb v_cmdId v_jobs v_sems v_ctrs v_bars v_cnts v_latcap v_conf v_slots v_scx v_counts v_fetches v_tails v_tenants v_ing v_rows v_asm v_puns v_merges v_roots v_hcom v_rescore v_loader v_rsbuf v_eg v_orch v_faults v_wind v_rep v_lanes v_dbg v_pool v_outs}
    (h1 : v_pending = x.pending) (h2 : v_mem = x.mem) (h3 : v_faults.log = x.faults.log) (h4 : v_quar = x.quar)
    (h5 : v_pwr.clkFail = x.pwr.clkFail) (h6 : x.blk ≠ Blk.safe)
    (h7 : v_cmdId = x.cmdId) (h8 : v_cpa = x.cpa) (h9 : v_cpb = x.cpb) :
    Keeps a (State.mk v_pending v_free v_mem v_blk v_boot v_fwBase v_quar v_time v_pwr v_cpa v_cpb v_cmdId v_jobs v_sems v_ctrs v_bars v_cnts v_latcap v_conf v_slots v_scx v_counts v_fetches v_tails v_tenants v_ing v_rows v_asm v_puns v_merges v_roots v_hcom v_rescore v_loader v_rsbuf v_eg v_orch v_faults v_wind v_rep v_lanes v_dbg v_pool v_outs) := by
  obtain ⟨p1, p2, p3, p4, p5, p6, p7⟩ := h
  subst h1 h2 h4 h7 h8 h9
  exact ⟨p1, p2, fun hh => h3 ▸ p3 hh, p4, fun hh => h5 ▸ p5 hh, fun hh => absurd (p6 hh) h6, p7⟩


/-- What every operation keeps, resets among them. -/
def KeepsAll (a s : State) : Prop :=
  s.pending = a.pending ∧ (a.mem.wf → s.mem.wf) ∧ (a.faults.log.length ≤ 256 → s.faults.log.length ≤ 256)
  ∧ (Fresh a → Fresh s)

theorem Keeps.all {a s : State} (h : Keeps a s) : KeepsAll a s := ⟨h.1, h.2.1, h.2.2.1, h.2.2.2.2.2.2⟩

theorem KeepsAll.refl (a : State) : KeepsAll a a := ⟨rfl, id, id, id⟩

theorem KeepsAll.trans {a b c : State} (h : KeepsAll a b) (g : KeepsAll b c) : KeepsAll a c :=
  ⟨g.1.trans h.1, fun w => g.2.1 (h.2.1 w), fun w => g.2.2.1 (h.2.2.1 w), fun w => g.2.2.2 (h.2.2.2 w)⟩

theorem KeepsAll.ite {c : Prop} [Decidable c] {a x y : State} (hx : KeepsAll a x) (hy : KeepsAll a y) :
    KeepsAll a (if c then x else y) := by
  split <;> assumption

/-- The block state may change where it is not SAFE. -/
theorem Keeps.toBlk {a x : State} (h : Keeps a x) (hb : x.blk ≠ Blk.safe) (b : Blk) : Keeps a { x with blk := b } := by
  obtain ⟨p1, p2, p3, p4, p5, p6, p7⟩ := h
  exact ⟨p1, p2, p3, p4, p5, fun hh => absurd (p6 hh) hb, p7⟩

theorem keeps_State_store (a : State) (s : State) (k : Nat) (bs : List Byte) (h : Keeps a s) : Keeps a (s.store k bs) := by
  obtain ⟨p1, p2, p3, p4, p5, p6, p7⟩ := h
  exact ⟨p1, fun w => store_wf _ _ _ (p2 w), p3, p4, p5, p6, p7⟩

end Sys2Proof.Laws
end

