-- ==== Sys2Proof/Laws/Keeps/Ops.lean ====
section
/-! SUPPORT. What the operations of Machine/Ops.lean keep (Laws/Keeps/Base.lean). -/

namespace Sys2Proof.Laws

open Sys2Proof.Machine

set_option linter.unreachableTactic false
set_option linter.unusedTactic false
set_option linter.unusedVariables false

theorem keeps_State_storeWords (a₀ : State) (s : State) (k : Nat) (ws : List Word) (hk : Keeps a₀ s) : Keeps a₀ (State.storeWords s k ws) := by
  unfold State.storeWords
  try dsimp only
  repeat' first
    | with_reducible assumption
    | ((with_reducible refine RingSub.of ?_) ; exact rfl) | ((with_reducible refine PortSub.of ?_) ; exact rfl) | with_reducible exact PortSub.reset _
    | (intro x hx)
    | (with_reducible exact Keeps.mk (by assumption) rfl rfl rfl rfl rfl rfl rfl rfl rfl)
    | with_reducible apply keeps_State_store
    | with_reducible apply Keeps.ite
    | with_reducible refine Keeps.foldl ?_ (fun s b hb => ?_)
    | split
    | (with_reducible apply Keeps.mk ; rotate_left ; iterate 9 (exact rfl))

theorem keeps_State_bumpN (a₀ : State) (s : State) (off n : Nat) (hk : Keeps a₀ s) : Keeps a₀ (State.bumpN s off n) := by
  unfold State.bumpN
  try dsimp only
  repeat' first
    | with_reducible assumption
    | ((with_reducible refine RingSub.of ?_) ; exact rfl) | ((with_reducible refine PortSub.of ?_) ; exact rfl) | with_reducible exact PortSub.reset _
    | (intro x hx)
    | (with_reducible exact Keeps.mk (by assumption) rfl rfl rfl rfl rfl rfl rfl rfl rfl)
    
    | with_reducible apply Keeps.ite
    | with_reducible refine Keeps.foldl ?_ (fun s b hb => ?_)
    | split
    | (with_reducible apply Keeps.mk ; rotate_left ; iterate 9 (exact rfl))

theorem keeps_State_bump (a₀ : State) (s : State) (off : Nat) (hk : Keeps a₀ s) : Keeps a₀ (State.bump s off) := by
  unfold State.bump
  try dsimp only
  repeat' first
    | with_reducible assumption
    | ((with_reducible refine RingSub.of ?_) ; exact rfl) | ((with_reducible refine PortSub.of ?_) ; exact rfl) | with_reducible exact PortSub.reset _
    | (intro x hx)
    | (with_reducible exact Keeps.mk (by assumption) rfl rfl rfl rfl rfl rfl rfl rfl rfl)
    | with_reducible apply keeps_State_bumpN
    | with_reducible apply Keeps.ite
    | with_reducible refine Keeps.foldl ?_ (fun s b hb => ?_)
    | split
    | (with_reducible apply Keeps.mk ; rotate_left ; iterate 9 (exact rfl))

theorem keeps_State_bump64N (a₀ : State) (s : State) (off n : Nat) (hk : Keeps a₀ s) : Keeps a₀ (State.bump64N s off n) := by
  unfold State.bump64N
  try dsimp only
  repeat' first
    | with_reducible assumption
    | ((with_reducible refine RingSub.of ?_) ; exact rfl) | ((with_reducible refine PortSub.of ?_) ; exact rfl) | with_reducible exact PortSub.reset _
    | (intro x hx)
    | (with_reducible exact Keeps.mk (by assumption) rfl rfl rfl rfl rfl rfl rfl rfl rfl)
    
    | with_reducible apply Keeps.ite
    | with_reducible refine Keeps.foldl ?_ (fun s b hb => ?_)
    | split
    | (with_reducible apply Keeps.mk ; rotate_left ; iterate 9 (exact rfl))

theorem keeps_State_setPort (a₀ : State) (s : State) (p : PortId) (q : Port) (hk : Keeps a₀ s) (hq : PortSub q (s.port p)) :
    Keeps a₀ (State.setPort s p q) := by
  obtain ⟨p1, p2, p3, p4, p5, p6, p7⟩ := hk
  unfold State.setPort
  cases p
  · exact ⟨p1, p2, p3, p4, p5, p6, fun hh => ⟨hq.ids (p7 hh).1, (p7 hh).2⟩⟩
  · exact ⟨p1, p2, p3, p4, p5, p6, fun hh => ⟨(p7 hh).1, hq.ids (p7 hh).2⟩⟩

theorem keeps_State_setRing (a₀ : State) (s : State) (r : RingRef) (q : Ring) (hk : Keeps a₀ s) (hq : RingSub q (s.ring r)) :
    Keeps a₀ (State.setRing s r q) := by
  unfold State.setRing
  exact keeps_State_setPort a₀ s r.port _ hk (PortSub.setRing hq)

theorem keeps_State_refresh (a₀ : State) (s : State) (pid : PortId) (w1c : Bool) (hk : Keeps a₀ s) : Keeps a₀ (State.refresh s pid w1c) := by
  unfold State.refresh
  try dsimp only
  repeat' first
    | with_reducible assumption
    | ((with_reducible refine RingSub.of ?_) ; exact rfl) | ((with_reducible refine PortSub.of ?_) ; exact rfl) | with_reducible exact PortSub.reset _
    | (intro x hx)
    | (with_reducible exact Keeps.mk (by assumption) rfl rfl rfl rfl rfl rfl rfl rfl rfl)
    | with_reducible apply keeps_State_setPort
    | with_reducible apply Keeps.ite
    | with_reducible refine Keeps.foldl ?_ (fun s b hb => ?_)
    | split
    | (with_reducible apply Keeps.mk ; rotate_left ; iterate 9 (exact rfl))

theorem keeps_State_setCause1 (a₀ : State) (s : State) (pid : PortId) (b : Nat) (hk : Keeps a₀ s) : Keeps a₀ (State.setCause1 s pid b) := by
  unfold State.setCause1
  try dsimp only
  repeat' first
    | with_reducible assumption
    | ((with_reducible refine RingSub.of ?_) ; exact rfl) | ((with_reducible refine PortSub.of ?_) ; exact rfl) | with_reducible exact PortSub.reset _
    | (intro x hx)
    | (with_reducible exact Keeps.mk (by assumption) rfl rfl rfl rfl rfl rfl rfl rfl rfl)
    | with_reducible apply keeps_State_setPort | with_reducible apply keeps_State_refresh
    | with_reducible apply Keeps.ite
    | with_reducible refine Keeps.foldl ?_ (fun s b hb => ?_)
    | split
    | (with_reducible apply Keeps.mk ; rotate_left ; iterate 9 (exact rfl))

theorem keeps_State_setCause (a₀ : State) (s : State) (b : Nat) (hk : Keeps a₀ s) : Keeps a₀ (State.setCause s b) := by
  unfold State.setCause
  try dsimp only
  repeat' first
    | with_reducible assumption
    | ((with_reducible refine RingSub.of ?_) ; exact rfl) | ((with_reducible refine PortSub.of ?_) ; exact rfl) | with_reducible exact PortSub.reset _
    | (intro x hx)
    | (with_reducible exact Keeps.mk (by assumption) rfl rfl rfl rfl rfl rfl rfl rfl rfl)
    | with_reducible apply keeps_State_bump | with_reducible apply keeps_State_setCause1
    | with_reducible apply Keeps.ite
    | with_reducible refine Keeps.foldl ?_ (fun s b hb => ?_)
    | split
    | (with_reducible apply Keeps.mk ; rotate_left ; iterate 9 (exact rfl))

theorem keeps_State_setCauseOne (a₀ : State) (s : State) (pid : PortId) (b : Nat) (hk : Keeps a₀ s) : Keeps a₀ (State.setCauseOne s pid b) := by
  unfold State.setCauseOne
  try dsimp only
  repeat' first
    | with_reducible assumption
    | ((with_reducible refine RingSub.of ?_) ; exact rfl) | ((with_reducible refine PortSub.of ?_) ; exact rfl) | with_reducible exact PortSub.reset _
    | (intro x hx)
    | (with_reducible exact Keeps.mk (by assumption) rfl rfl rfl rfl rfl rfl rfl rfl rfl)
    | with_reducible apply keeps_State_bump | with_reducible apply keeps_State_setCause1
    | with_reducible apply Keeps.ite
    | with_reducible refine Keeps.foldl ?_ (fun s b hb => ?_)
    | split
    | (with_reducible apply Keeps.mk ; rotate_left ; iterate 9 (exact rfl))

theorem keeps_State_setFault (a₀ : State) (s : State) (f : Nat) (hk : Keeps a₀ s) : Keeps a₀ (State.setFault s f) := by
  unfold State.setFault
  try dsimp only
  repeat' first
    | with_reducible assumption
    | ((with_reducible refine RingSub.of ?_) ; exact rfl) | ((with_reducible refine PortSub.of ?_) ; exact rfl) | with_reducible exact PortSub.reset _
    | (intro x hx)
    | (with_reducible exact Keeps.mk (by assumption) rfl rfl rfl rfl rfl rfl rfl rfl rfl)
    | with_reducible apply keeps_State_bump
    | with_reducible apply Keeps.ite
    | with_reducible refine Keeps.foldl ?_ (fun s b hb => ?_)
    | split
    | (with_reducible apply Keeps.mk ; rotate_left ; iterate 9 (exact rfl))

theorem keeps_State_logFault (a : State) (s : State) (c : Nat) (x : Site) (h : Keeps a s) : Keeps a (s.logFault c x) := by
  unfold State.logFault
  try dsimp only
  split
  · obtain ⟨p1, p2, p3, p4, p5, p6, p7⟩ := h
    exact ⟨p1, p2, fun _ => Nat.le_of_lt_succ (by simp), p4, p5, p6, p7⟩
  · rename_i e r hl
    split
    · obtain ⟨p1, p2, p3, p4, p5, p6, p7⟩ := h
      exact ⟨p1, p2, fun hh => by have := p3 hh; rw [hl] at this; simpa using this, p4, p5, p6, p7⟩
    · have hk : ∀ (f : FLog) (x : Nat), Keeps a { s with faults := { s.faults with log := (f :: e :: r).take 256, logNew := x } } := fun _ _ => by
        obtain ⟨p1, p2, p3, p4, p5, p6, p7⟩ := h
        exact ⟨p1, p2, fun hh => by show (List.take 256 _).length ≤ 256; rw [List.length_take]; exact Nat.min_le_left _ _, p4, p5, p6, p7⟩
      split
      · apply keeps_State_setFault; exact hk _ _
      · exact hk _ _

theorem keeps_State_corrected (a₀ : State) (s : State) (c : Nat) (hk : Keeps a₀ s) : Keeps a₀ (State.corrected s c) := by
  unfold State.corrected
  try dsimp only
  repeat' first
    | with_reducible assumption
    | ((with_reducible refine RingSub.of ?_) ; exact rfl) | ((with_reducible refine PortSub.of ?_) ; exact rfl) | with_reducible exact PortSub.reset _
    | (intro x hx)
    | (with_reducible exact Keeps.mk (by assumption) rfl rfl rfl rfl rfl rfl rfl rfl rfl)
    | with_reducible apply keeps_State_bump | with_reducible apply keeps_State_setFault
    | with_reducible apply Keeps.ite
    | with_reducible refine Keeps.foldl ?_ (fun s b hb => ?_)
    | split
    | (with_reducible apply Keeps.mk ; rotate_left ; iterate 9 (exact rfl))

theorem keeps_State_contained (a₀ : State) (s : State) (c : Nat) (x : Site) (hk : Keeps a₀ s) : Keeps a₀ (State.contained s c x) := by
  unfold State.contained
  try dsimp only
  repeat' first
    | with_reducible assumption
    | ((with_reducible refine RingSub.of ?_) ; exact rfl) | ((with_reducible refine PortSub.of ?_) ; exact rfl) | with_reducible exact PortSub.reset _
    | (intro x hx)
    | (with_reducible exact Keeps.mk (by assumption) rfl rfl rfl rfl rfl rfl rfl rfl rfl)
    | with_reducible apply keeps_State_bump | with_reducible apply keeps_State_setCause | with_reducible apply keeps_State_setFault | with_reducible apply keeps_State_logFault
    | with_reducible apply Keeps.ite
    | with_reducible refine Keeps.foldl ?_ (fun s b hb => ?_)
    | split
    | (with_reducible apply Keeps.mk ; rotate_left ; iterate 9 (exact rfl))

theorem keeps_State_unitEvent (a₀ : State) (s : State) (u : Unit') (hk : Keeps a₀ s) : Keeps a₀ (State.unitEvent s u) := by
  unfold State.unitEvent
  try dsimp only
  repeat' first
    | with_reducible assumption
    | ((with_reducible refine RingSub.of ?_) ; exact rfl) | ((with_reducible refine PortSub.of ?_) ; exact rfl) | with_reducible exact PortSub.reset _
    | (intro x hx)
    | (with_reducible exact Keeps.mk (by assumption) rfl rfl rfl rfl rfl rfl rfl rfl rfl)
    
    | with_reducible apply Keeps.ite
    | with_reducible refine Keeps.foldl ?_ (fun s b hb => ?_)
    | split
    | (with_reducible apply Keeps.mk ; rotate_left ; iterate 9 (exact rfl))

theorem keeps_State_countVoid (a₀ : State) (s : State) (c : Nat) (hk : Keeps a₀ s) : Keeps a₀ (State.countVoid s c) := by
  unfold State.countVoid
  try dsimp only
  repeat' first
    | with_reducible assumption
    | ((with_reducible refine RingSub.of ?_) ; exact rfl) | ((with_reducible refine PortSub.of ?_) ; exact rfl) | with_reducible exact PortSub.reset _
    | (intro x hx)
    | (with_reducible exact Keeps.mk (by assumption) rfl rfl rfl rfl rfl rfl rfl rfl rfl)
    | with_reducible apply keeps_State_bump | with_reducible apply keeps_State_setFault
    | with_reducible apply Keeps.ite
    | with_reducible refine Keeps.foldl ?_ (fun s b hb => ?_)
    | split
    | (with_reducible apply Keeps.mk ; rotate_left ; iterate 9 (exact rfl))

theorem keeps_State_drive (a₀ : State) (s : State) (o : Out) (hk : Keeps a₀ s) : Keeps a₀ (State.drive s o) := by
  unfold State.drive
  try dsimp only
  repeat' first
    | with_reducible assumption
    | ((with_reducible refine RingSub.of ?_) ; exact rfl) | ((with_reducible refine PortSub.of ?_) ; exact rfl) | with_reducible exact PortSub.reset _
    | (intro x hx)
    | (with_reducible exact Keeps.mk (by assumption) rfl rfl rfl rfl rfl rfl rfl rfl rfl)
    
    | with_reducible apply Keeps.ite
    | with_reducible refine Keeps.foldl ?_ (fun s b hb => ?_)
    | split
    | (with_reducible apply Keeps.mk ; rotate_left ; iterate 9 (exact rfl))

theorem keeps_State_fire (a₀ : State) (s : State) (t : Nat) (hk : Keeps a₀ s) : Keeps a₀ (State.fire s t) := by
  unfold State.fire
  try dsimp only
  repeat' first
    | with_reducible assumption
    | ((with_reducible refine RingSub.of ?_) ; exact rfl) | ((with_reducible refine PortSub.of ?_) ; exact rfl) | with_reducible exact PortSub.reset _
    | (intro x hx)
    | (with_reducible exact Keeps.mk (by assumption) rfl rfl rfl rfl rfl rfl rfl rfl rfl)
    | with_reducible apply keeps_State_bump
    | with_reducible apply Keeps.ite
    | with_reducible refine Keeps.foldl ?_ (fun s b hb => ?_)
    | split
    | (with_reducible apply Keeps.mk ; rotate_left ; iterate 9 (exact rfl))

theorem keeps_State_sendMsg (a₀ : State) (s : State) (m : Msg) (hk : Keeps a₀ s) : Keeps a₀ (State.sendMsg s m) := by
  unfold State.sendMsg
  try dsimp only
  repeat' first
    | with_reducible assumption
    | ((with_reducible refine RingSub.of ?_) ; exact rfl) | ((with_reducible refine PortSub.of ?_) ; exact rfl) | with_reducible exact PortSub.reset _
    | (intro x hx)
    | (with_reducible exact Keeps.mk (by assumption) rfl rfl rfl rfl rfl rfl rfl rfl rfl)
    
    | with_reducible apply Keeps.ite
    | with_reducible refine Keeps.foldl ?_ (fun s b hb => ?_)
    | split
    | (with_reducible apply Keeps.mk ; rotate_left ; iterate 9 (exact rfl))

theorem keeps_State_bcast (a₀ : State) (s : State) (m : Msg) (hk : Keeps a₀ s) : Keeps a₀ (State.bcast s m) := by
  unfold State.bcast
  try dsimp only
  repeat' first
    | with_reducible assumption
    | ((with_reducible refine RingSub.of ?_) ; exact rfl) | ((with_reducible refine PortSub.of ?_) ; exact rfl) | with_reducible exact PortSub.reset _
    | (intro x hx)
    | (with_reducible exact Keeps.mk (by assumption) rfl rfl rfl rfl rfl rfl rfl rfl rfl)
    
    | with_reducible apply Keeps.ite
    | with_reducible refine Keeps.foldl ?_ (fun s b hb => ?_)
    | split
    | (with_reducible apply Keeps.mk ; rotate_left ; iterate 9 (exact rfl))

theorem keeps_State_bcastOthers (a₀ : State) (s : State) (m : Msg) (hk : Keeps a₀ s) : Keeps a₀ (State.bcastOthers s m) := by
  unfold State.bcastOthers
  try dsimp only
  repeat' first
    | with_reducible assumption
    | ((with_reducible refine RingSub.of ?_) ; exact rfl) | ((with_reducible refine PortSub.of ?_) ; exact rfl) | with_reducible exact PortSub.reset _
    | (intro x hx)
    | (with_reducible exact Keeps.mk (by assumption) rfl rfl rfl rfl rfl rfl rfl rfl rfl)
    
    | with_reducible apply Keeps.ite
    | with_reducible refine Keeps.foldl ?_ (fun s b hb => ?_)
    | split
    | (with_reducible apply Keeps.mk ; rotate_left ; iterate 9 (exact rfl))

theorem keeps_State_sendTo (a₀ : State) (s : State) (dst : Nat) (b : Body) (hk : Keeps a₀ s) : Keeps a₀ (State.sendTo s dst b) := by
  unfold State.sendTo
  try dsimp only
  repeat' first
    | with_reducible assumption
    | ((with_reducible refine RingSub.of ?_) ; exact rfl) | ((with_reducible refine PortSub.of ?_) ; exact rfl) | with_reducible exact PortSub.reset _
    | (intro x hx)
    | (with_reducible exact Keeps.mk (by assumption) rfl rfl rfl rfl rfl rfl rfl rfl rfl)
    | with_reducible apply keeps_State_sendMsg
    | with_reducible apply Keeps.ite
    | with_reducible refine Keeps.foldl ?_ (fun s b hb => ?_)
    | split
    | (with_reducible apply Keeps.mk ; rotate_left ; iterate 9 (exact rfl))

theorem keeps_State_arrive (a₀ : State) (s : State) (m : Msg) (hk : Keeps a₀ s) : Keeps a₀ (State.arrive s m) := by
  unfold State.arrive
  try dsimp only
  repeat' first
    | with_reducible assumption
    | ((with_reducible refine RingSub.of ?_) ; exact rfl) | ((with_reducible refine PortSub.of ?_) ; exact rfl) | with_reducible exact PortSub.reset _
    | (intro x hx)
    | (with_reducible exact Keeps.mk (by assumption) rfl rfl rfl rfl rfl rfl rfl rfl rfl)
    
    | with_reducible apply Keeps.ite
    | with_reducible refine Keeps.foldl ?_ (fun s b hb => ?_)
    | split
    | (with_reducible apply Keeps.mk ; rotate_left ; iterate 9 (exact rfl))

theorem keeps_State_complete (a₀ : State) (s : State) (o : Origin) (final : Bool) (c : Cpl) (hk : Keeps a₀ s) :
    Keeps a₀ (State.complete s o final c) := by
  unfold State.complete
  split
  · refine keeps_State_setRing _ _ _ _ hk ?_
    unfold Ring.complete
    split <;> exact RingSub.of rfl
  · exact keeps_State_sendTo _ _ _ _ hk
  · exact hk

theorem keeps_State_finish (a₀ : State) (s : State) (o : Origin) (c : Cpl) (hk : Keeps a₀ s) : Keeps a₀ (State.finish s o c) := by
  unfold State.finish
  try dsimp only
  repeat' first
    | with_reducible assumption
    | ((with_reducible refine RingSub.of ?_) ; exact rfl) | ((with_reducible refine PortSub.of ?_) ; exact rfl) | with_reducible exact PortSub.reset _
    | (intro x hx)
    | (with_reducible exact Keeps.mk (by assumption) rfl rfl rfl rfl rfl rfl rfl rfl rfl)
    | with_reducible apply keeps_State_complete
    | with_reducible apply Keeps.ite
    | with_reducible refine Keeps.foldl ?_ (fun s b hb => ?_)
    | split
    | (with_reducible apply Keeps.mk ; rotate_left ; iterate 9 (exact rfl))

theorem keeps_State_addJob (a₀ : State) (s : State) (j : Job) (hk : Keeps a₀ s) : Keeps a₀ (State.addJob s j) := by
  unfold State.addJob
  try dsimp only
  repeat' first
    | with_reducible assumption
    | ((with_reducible refine RingSub.of ?_) ; exact rfl) | ((with_reducible refine PortSub.of ?_) ; exact rfl) | with_reducible exact PortSub.reset _
    | (intro x hx)
    | (with_reducible exact Keeps.mk (by assumption) rfl rfl rfl rfl rfl rfl rfl rfl rfl)
    
    | with_reducible apply Keeps.ite
    | with_reducible refine Keeps.foldl ?_ (fun s b hb => ?_)
    | split
    | (with_reducible apply Keeps.mk ; rotate_left ; iterate 9 (exact rfl))

theorem keeps_State_endJobs (a₀ : State) (s : State) (p : Job → Bool) (c : Job → Cpl) (hk : Keeps a₀ s) : Keeps a₀ (State.endJobs s p c) := by
  unfold State.endJobs
  try dsimp only
  repeat' first
    | with_reducible assumption
    | ((with_reducible refine RingSub.of ?_) ; exact rfl) | ((with_reducible refine PortSub.of ?_) ; exact rfl) | with_reducible exact PortSub.reset _
    | (intro x hx)
    | (with_reducible exact Keeps.mk (by assumption) rfl rfl rfl rfl rfl rfl rfl rfl rfl)
    | with_reducible apply keeps_State_finish
    | with_reducible apply Keeps.ite
    | with_reducible refine Keeps.foldl ?_ (fun s b hb => ?_)
    | split
    | (with_reducible apply Keeps.mk ; rotate_left ; iterate 9 (exact rfl))

theorem keeps_State_signalsGone (a₀ : State) (s : State) (sh : Nat) (hk : Keeps a₀ s) : Keeps a₀ (State.signalsGone s sh) := by
  unfold State.signalsGone
  try dsimp only
  repeat' first
    | with_reducible assumption
    | ((with_reducible refine RingSub.of ?_) ; exact rfl) | ((with_reducible refine PortSub.of ?_) ; exact rfl) | with_reducible exact PortSub.reset _
    | (intro x hx)
    | (with_reducible exact Keeps.mk (by assumption) rfl rfl rfl rfl rfl rfl rfl rfl rfl)
    | with_reducible apply keeps_State_endJobs
    | with_reducible apply Keeps.ite
    | with_reducible refine Keeps.foldl ?_ (fun s b hb => ?_)
    | split
    | (with_reducible apply Keeps.mk ; rotate_left ; iterate 9 (exact rfl))

end Sys2Proof.Laws
end

