-- ==== Sys2Proof/Laws/Keeps/Rings.lean ====
section
/-! SUPPORT. What the operations of Machine/Rings.lean keep (Laws/Keeps/Base.lean). -/

namespace Sys2Proof.Laws

open Sys2Proof.Machine

set_option linter.unreachableTactic false
set_option linter.unusedTactic false
set_option linter.unusedVariables false

theorem keeps_State_ringError (a₀ : State) (s : State) (r : RingRef) (code : Nat) (hk : Keeps a₀ s) : Keeps a₀ (State.ringError s r code) := by
  unfold State.ringError
  try dsimp only
  repeat' first
    | with_reducible assumption
    | ((with_reducible refine RingSub.of ?_) ; exact rfl) | ((with_reducible refine PortSub.of ?_) ; exact rfl) | with_reducible exact PortSub.reset _
    | (intro x hx)
    | (with_reducible exact Keeps.mk (by assumption) rfl rfl rfl rfl rfl rfl rfl rfl rfl)
    | with_reducible apply keeps_State_setRing | with_reducible apply keeps_State_setCauseOne
    | with_reducible apply Keeps.ite
    | with_reducible refine Keeps.foldl ?_ (fun s b hb => ?_)
    | split
    | (with_reducible apply Keeps.mk ; rotate_left ; iterate 9 (exact rfl))

theorem keeps_State_take (a₀ : State) (s : State) (pk : Pkt) (reserve : Nat) (noint : Bool) (hk : Keeps a₀ s) :
    Keeps a₀ (State.take s pk reserve noint) := by
  have key : ∀ p : Port, IdsBelow s.cmdId p → ∀ q : Ring,
      q.outst = (p.ring pk.src.ring).outst ++ [{ id := s.cmdId, tag := pk.tag, opcode := pk.opcode, noint := noint, reserve := reserve }] →
      IdsBelow (s.cmdId + 1) (p.setRing pk.src.ring q) := by
    intro p hp q hq n o ho
    by_cases hn : n = pk.src.ring
    · subst hn
      rw [show ((p.setRing pk.src.ring _).ring pk.src.ring) = _ from tab_get_set_self p.rings pk.src.ring _ Ring.reset] at ho
      rw [hq] at ho
      rcases List.mem_append.mp ho with h1 | h1
      · have := hp _ o h1
        omega
      · rw [List.mem_singleton.mp h1]; exact Nat.lt_succ_self _
    · rw [show (p.setRing pk.src.ring _).ring n = p.ring n from tab_get_set_ne p.rings hn _ Ring.reset] at ho
      have := hp n o ho
      omega
  have mono : ∀ p : Port, IdsBelow s.cmdId p → IdsBelow (s.cmdId + 1) p := fun p hp n o ho => Nat.lt_succ_of_lt (hp n o ho)
  obtain ⟨p1, p2, p3, p4, p5, p6, p7⟩ := hk
  unfold State.take State.setRing State.setPort
  cases hp : pk.src.port
  · exact ⟨p1, p2, p3, p4, p5, p6, fun hh => ⟨key _ (p7 hh).1 _ (by unfold State.ring; rw [hp]; rfl), mono _ (p7 hh).2⟩⟩
  · exact ⟨p1, p2, p3, p4, p5, p6, fun hh => ⟨mono _ (p7 hh).1, key _ (p7 hh).2 _ (by unfold State.ring; rw [hp]; rfl)⟩⟩

theorem keeps_State_start (a : State) (s : State) (d : Desc) (o : Origin) (pk : Pkt)
    (hd : ∀ (o : Origin) (pk : Pkt) (x : State), (x.blk = Blk.safe → d.legal.contains Blk.safe = true) → Keeps a x → Keeps a (d.run o pk x))
    (hs : s.blk = Blk.safe → d.legal.contains Blk.safe = true) (h : Keeps a s) : Keeps a (State.start s d o pk) := by
  unfold State.start
  repeat' first
    | with_reducible assumption
    | with_reducible apply keeps_State_finish
    | exact hd _ _ _ hs h
    | split

theorem keeps_State_forward (a₀ : State) (s : State) (o : Origin) (pk : Pkt) (dst : Nat) (hk : Keeps a₀ s) : Keeps a₀ (State.forward s o pk dst) := by
  unfold State.forward
  try dsimp only
  repeat' first
    | with_reducible assumption
    | ((with_reducible refine RingSub.of ?_) ; exact rfl) | ((with_reducible refine PortSub.of ?_) ; exact rfl) | with_reducible exact PortSub.reset _
    | (intro x hx)
    | (with_reducible exact Keeps.mk (by assumption) rfl rfl rfl rfl rfl rfl rfl rfl rfl)
    | with_reducible apply keeps_State_sendTo | with_reducible apply keeps_State_addJob
    | with_reducible apply Keeps.ite
    | with_reducible refine Keeps.foldl ?_ (fun s b hb => ?_)
    | split
    | (with_reducible apply Keeps.mk ; rotate_left ; iterate 9 (exact rfl))

theorem take_blk (s : State) (pk : Pkt) (n : Nat) (b : Bool) : (s.take pk n b).blk = s.blk := by
  unfold State.take State.setRing State.setPort
  cases pk.src.port <;> rfl

theorem reject_none_legal (s : State) (d : Desc) (pk : Pkt) (h : s.reject d pk = none) : d.legal.contains s.blk = true := by
  unfold State.reject at h
  repeat' split at h
  all_goals simp_all

theorem keeps_takePacket (a : State) (d : Desc) (pk : Pkt) (s : State)
    (hd : ∀ (o : Origin) (pk : Pkt) (x : State), (x.blk = Blk.safe → d.legal.contains Blk.safe = true) → Keeps a x → Keeps a (d.run o pk x))
    (h : Keeps a s) : Keeps a (takePacket d pk s) := by
  unfold takePacket
  dsimp only
  refine Keeps.ite h (Keeps.ite (keeps_State_ringError _ _ _ _ h) (Keeps.ite h (Keeps.ite h ?_)))
  have ht := fun (n : Nat) (b : Bool) => keeps_State_take a s pk n b h
  cases hr : s.reject d pk with
  | some c => exact keeps_State_finish _ _ _ _ (ht _ _)
  | none =>
    have hl := reject_none_legal s d pk hr
    refine Keeps.ite (keeps_State_start _ _ _ _ _ hd (fun hb => ?_) (ht _ _)) (keeps_State_forward _ _ _ _ _ (ht _ _))
    rw [take_blk] at hb
    rw [← hb]; exact hl

theorem keeps_takeForwarded (a : State) (d : Desc) (src : Nat) (port : PortId) (ring fid : Nat) (pk : Pkt) (s : State)
    (hd : ∀ (o : Origin) (pk : Pkt) (x : State), (x.blk = Blk.safe → d.legal.contains Blk.safe = true) → Keeps a x → Keeps a (d.run o pk x))
    (h : Keeps a s) : Keeps a (takeForwarded d src port ring fid pk s) := by
  unfold takeForwarded
  dsimp only
  split
  · exact keeps_State_finish _ _ _ _ h
  · rename_i hb
    exact keeps_State_start _ _ _ _ _ hd (fun hh => absurd hh hb) h

theorem keeps_takeMember (a : State) (d : Desc) (pk : Pkt) (s : State)
    (hd : ∀ (o : Origin) (pk : Pkt) (x : State), (x.blk = Blk.safe → d.legal.contains Blk.safe = true) → Keeps a x → Keeps a (d.run o pk x))
    (hb : s.blk ≠ Blk.safe) (h : Keeps a s) : Keeps a (takeMember d pk s) :=
  hd _ _ _ (fun hh => absurd hh hb) h

theorem keeps_State_tellMembers (a₀ : State) (s : State) (o : Origin) (pk : Pkt) (hk : Keeps a₀ s) : Keeps a₀ (State.tellMembers s o pk) := by
  unfold State.tellMembers
  try dsimp only
  repeat' first
    | with_reducible assumption
    | ((with_reducible refine RingSub.of ?_) ; exact rfl) | ((with_reducible refine PortSub.of ?_) ; exact rfl) | with_reducible exact PortSub.reset _
    | (intro x hx)
    | (with_reducible exact Keeps.mk (by assumption) rfl rfl rfl rfl rfl rfl rfl rfl rfl)
    | with_reducible apply keeps_State_bcastOthers
    | with_reducible apply Keeps.ite
    | with_reducible refine Keeps.foldl ?_ (fun s b hb => ?_)
    | split
    | (with_reducible apply Keeps.mk ; rotate_left ; iterate 9 (exact rfl))

theorem keeps_State_tellFrom (a₀ : State) (s : State) (num : Nat) (pk : Pkt) (hk : Keeps a₀ s) : Keeps a₀ (State.tellFrom s num pk) := by
  unfold State.tellFrom
  try dsimp only
  repeat' first
    | with_reducible assumption
    | ((with_reducible refine RingSub.of ?_) ; exact rfl) | ((with_reducible refine PortSub.of ?_) ; exact rfl) | with_reducible exact PortSub.reset _
    | (intro x hx)
    | (with_reducible exact Keeps.mk (by assumption) rfl rfl rfl rfl rfl rfl rfl rfl rfl)
    | with_reducible apply keeps_State_bcastOthers
    | with_reducible apply Keeps.ite
    | with_reducible refine Keeps.foldl ?_ (fun s b hb => ?_)
    | split
    | (with_reducible apply Keeps.mk ; rotate_left ; iterate 9 (exact rfl))

theorem keeps_State_sleepRing (a₀ : State) (s : State) (o : Origin) (hk : Keeps a₀ s) : Keeps a₀ (State.sleepRing s o) := by
  unfold State.sleepRing
  try dsimp only
  repeat' first
    | with_reducible assumption
    | ((with_reducible refine RingSub.of ?_) ; exact rfl) | ((with_reducible refine PortSub.of ?_) ; exact rfl) | with_reducible exact PortSub.reset _
    | (intro x hx)
    | (with_reducible exact Keeps.mk (by assumption) rfl rfl rfl rfl rfl rfl rfl rfl rfl)
    | with_reducible apply keeps_State_setRing
    | with_reducible apply Keeps.ite
    | with_reducible refine Keeps.foldl ?_ (fun s b hb => ?_)
    | split
    | (with_reducible apply Keeps.mk ; rotate_left ; iterate 9 (exact rfl))

theorem keeps_State_finishSleeper (a₀ : State) (s : State) (o : Origin) (c : Cpl) (hk : Keeps a₀ s) : Keeps a₀ (State.finishSleeper s o c) := by
  unfold State.finishSleeper
  try dsimp only
  repeat' first
    | with_reducible assumption
    | ((with_reducible refine RingSub.of ?_) ; exact rfl) | ((with_reducible refine PortSub.of ?_) ; exact rfl) | with_reducible exact PortSub.reset _
    | (intro x hx)
    | (with_reducible exact Keeps.mk (by assumption) rfl rfl rfl rfl rfl rfl rfl rfl rfl)
    | with_reducible apply keeps_State_setRing | with_reducible apply keeps_State_finish
    | with_reducible apply Keeps.ite
    | with_reducible refine Keeps.foldl ?_ (fun s b hb => ?_)
    | split
    | (with_reducible apply Keeps.mk ; rotate_left ; iterate 9 (exact rfl))

end Sys2Proof.Laws
end

