-- ==== Sys2Proof/Laws/Keeps/Sync.lean ====
section
/-! SUPPORT. What the operations of Machine/Sync.lean keep (Laws/Keeps/Base.lean). -/

namespace Sys2Proof.Laws

open Sys2Proof.Machine

set_option linter.unreachableTactic false
set_option linter.unusedTactic false
set_option linter.unusedVariables false

theorem keeps_State_setSem (a₀ : State) (s : State) (n : Nat) (q : Sem) (hk : Keeps a₀ s) : Keeps a₀ (State.setSem s n q) := by
  unfold State.setSem
  try dsimp only
  repeat' first
    | with_reducible assumption
    | ((with_reducible refine RingSub.of ?_) ; exact rfl) | ((with_reducible refine PortSub.of ?_) ; exact rfl) | with_reducible exact PortSub.reset _
    | (intro x hx)
    | (with_reducible exact Keeps.mk (by assumption) rfl rfl rfl rfl rfl rfl rfl rfl rfl)
    
    | with_reducible apply Keeps.ite
    | with_reducible refine Keeps.foldl ?_ (fun s b hb => ?_)
    | split
    | (with_reducible apply Keeps.mk ; rotate_left ; iterate 9 (exact rfl))

theorem keeps_State_semRequest (a₀ : State) (s : State) (n code : Nat) (hk : Keeps a₀ s) : Keeps a₀ (State.semRequest s n code) := by
  unfold State.semRequest
  try dsimp only
  repeat' first
    | with_reducible assumption
    | ((with_reducible refine RingSub.of ?_) ; exact rfl) | ((with_reducible refine PortSub.of ?_) ; exact rfl) | with_reducible exact PortSub.reset _
    | (intro x hx)
    | (with_reducible exact Keeps.mk (by assumption) rfl rfl rfl rfl rfl rfl rfl rfl rfl)
    | with_reducible apply keeps_State_setSem
    | with_reducible apply Keeps.ite
    | with_reducible refine Keeps.foldl ?_ (fun s b hb => ?_)
    | split
    | (with_reducible apply Keeps.mk ; rotate_left ; iterate 9 (exact rfl))

theorem keeps_State_semRelease (a₀ : State) (s : State) (n : Nat) (hk : Keeps a₀ s) : Keeps a₀ (State.semRelease s n) := by
  unfold State.semRelease
  try dsimp only
  repeat' first
    | with_reducible assumption
    | ((with_reducible refine RingSub.of ?_) ; exact rfl) | ((with_reducible refine PortSub.of ?_) ; exact rfl) | with_reducible exact PortSub.reset _
    | (intro x hx)
    | (with_reducible exact Keeps.mk (by assumption) rfl rfl rfl rfl rfl rfl rfl rfl rfl)
    | with_reducible apply keeps_State_finishSleeper | with_reducible apply keeps_State_setSem
    | with_reducible apply Keeps.ite
    | with_reducible refine Keeps.foldl ?_ (fun s b hb => ?_)
    | split
    | (with_reducible apply Keeps.mk ; rotate_left ; iterate 9 (exact rfl))

theorem keeps_State_semAbandon (a₀ : State) (s : State) (n : Nat) (hk : Keeps a₀ s) : Keeps a₀ (State.semAbandon s n) := by
  unfold State.semAbandon
  try dsimp only
  repeat' first
    | with_reducible assumption
    | ((with_reducible refine RingSub.of ?_) ; exact rfl) | ((with_reducible refine PortSub.of ?_) ; exact rfl) | with_reducible exact PortSub.reset _
    | (intro x hx)
    | (with_reducible exact Keeps.mk (by assumption) rfl rfl rfl rfl rfl rfl rfl rfl rfl)
    | with_reducible apply keeps_State_finishSleeper | with_reducible apply keeps_State_setSem
    | with_reducible apply Keeps.ite
    | with_reducible refine Keeps.foldl ?_ (fun s b hb => ?_)
    | split
    | (with_reducible apply Keeps.mk ; rotate_left ; iterate 9 (exact rfl))

theorem keeps_State_setCtr (a₀ : State) (s : State) (n : Nat) (c : Ctr) (hk : Keeps a₀ s) : Keeps a₀ (State.setCtr s n c) := by
  unfold State.setCtr
  try dsimp only
  repeat' first
    | with_reducible assumption
    | ((with_reducible refine RingSub.of ?_) ; exact rfl) | ((with_reducible refine PortSub.of ?_) ; exact rfl) | with_reducible exact PortSub.reset _
    | (intro x hx)
    | (with_reducible exact Keeps.mk (by assumption) rfl rfl rfl rfl rfl rfl rfl rfl rfl)
    
    | with_reducible apply Keeps.ite
    | with_reducible refine Keeps.foldl ?_ (fun s b hb => ?_)
    | split
    | (with_reducible apply Keeps.mk ; rotate_left ; iterate 9 (exact rfl))

theorem keeps_State_ctrSet (a₀ : State) (s : State) (n : Nat) (v : W64) (hk : Keeps a₀ s) : Keeps a₀ (State.ctrSet s n v) := by
  unfold State.ctrSet
  try dsimp only
  repeat' first
    | with_reducible assumption
    | ((with_reducible refine RingSub.of ?_) ; exact rfl) | ((with_reducible refine PortSub.of ?_) ; exact rfl) | with_reducible exact PortSub.reset _
    | (intro x hx)
    | (with_reducible exact Keeps.mk (by assumption) rfl rfl rfl rfl rfl rfl rfl rfl rfl)
    | with_reducible apply keeps_State_finishSleeper | with_reducible apply keeps_State_setCtr
    | with_reducible apply Keeps.ite
    | with_reducible refine Keeps.foldl ?_ (fun s b hb => ?_)
    | split
    | (with_reducible apply Keeps.mk ; rotate_left ; iterate 9 (exact rfl))

theorem keeps_State_ctrFree (a₀ : State) (s : State) (n : Nat) (hk : Keeps a₀ s) : Keeps a₀ (State.ctrFree s n) := by
  unfold State.ctrFree
  try dsimp only
  repeat' first
    | with_reducible assumption
    | ((with_reducible refine RingSub.of ?_) ; exact rfl) | ((with_reducible refine PortSub.of ?_) ; exact rfl) | with_reducible exact PortSub.reset _
    | (intro x hx)
    | (with_reducible exact Keeps.mk (by assumption) rfl rfl rfl rfl rfl rfl rfl rfl rfl)
    | with_reducible apply keeps_State_finishSleeper | with_reducible apply keeps_State_setCtr
    | with_reducible apply Keeps.ite
    | with_reducible refine Keeps.foldl ?_ (fun s b hb => ?_)
    | split
    | (with_reducible apply Keeps.mk ; rotate_left ; iterate 9 (exact rfl))

theorem keeps_State_setBar (a₀ : State) (s : State) (n : Nat) (b : Barrier) (hk : Keeps a₀ s) : Keeps a₀ (State.setBar s n b) := by
  unfold State.setBar
  try dsimp only
  repeat' first
    | with_reducible assumption
    | ((with_reducible refine RingSub.of ?_) ; exact rfl) | ((with_reducible refine PortSub.of ?_) ; exact rfl) | with_reducible exact PortSub.reset _
    | (intro x hx)
    | (with_reducible exact Keeps.mk (by assumption) rfl rfl rfl rfl rfl rfl rfl rfl rfl)
    
    | with_reducible apply Keeps.ite
    | with_reducible refine Keeps.foldl ?_ (fun s b hb => ?_)
    | split
    | (with_reducible apply Keeps.mk ; rotate_left ; iterate 9 (exact rfl))

theorem keeps_State_barAbort (a₀ : State) (s : State) (n : Nat) (hk : Keeps a₀ s) : Keeps a₀ (State.barAbort s n) := by
  unfold State.barAbort
  try dsimp only
  repeat' first
    | with_reducible assumption
    | ((with_reducible refine RingSub.of ?_) ; exact rfl) | ((with_reducible refine PortSub.of ?_) ; exact rfl) | with_reducible exact PortSub.reset _
    | (intro x hx)
    | (with_reducible exact Keeps.mk (by assumption) rfl rfl rfl rfl rfl rfl rfl rfl rfl)
    | with_reducible apply keeps_State_finish | with_reducible apply keeps_State_setBar
    | with_reducible apply Keeps.ite
    | with_reducible refine Keeps.foldl ?_ (fun s b hb => ?_)
    | split
    | (with_reducible apply Keeps.mk ; rotate_left ; iterate 9 (exact rfl))

theorem keeps_State_barAbortAll (a₀ : State) (s : State) (hk : Keeps a₀ s) : Keeps a₀ (State.barAbortAll s) := by
  unfold State.barAbortAll
  try dsimp only
  repeat' first
    | with_reducible assumption
    | ((with_reducible refine RingSub.of ?_) ; exact rfl) | ((with_reducible refine PortSub.of ?_) ; exact rfl) | with_reducible exact PortSub.reset _
    | (intro x hx)
    | (with_reducible exact Keeps.mk (by assumption) rfl rfl rfl rfl rfl rfl rfl rfl rfl)
    | with_reducible apply keeps_State_barAbort
    | with_reducible apply Keeps.ite
    | with_reducible refine Keeps.foldl ?_ (fun s b hb => ?_)
    | split
    | (with_reducible apply Keeps.mk ; rotate_left ; iterate 9 (exact rfl))

theorem keeps_State_barCount (a₀ : State) (s : State) (n tag entries : Nat) (hk : Keeps a₀ s) : Keeps a₀ (State.barCount s n tag entries) := by
  unfold State.barCount
  try dsimp only
  repeat' first
    | with_reducible assumption
    | ((with_reducible refine RingSub.of ?_) ; exact rfl) | ((with_reducible refine PortSub.of ?_) ; exact rfl) | with_reducible exact PortSub.reset _
    | (intro x hx)
    | (with_reducible exact Keeps.mk (by assumption) rfl rfl rfl rfl rfl rfl rfl rfl rfl)
    | with_reducible apply keeps_State_contained | with_reducible apply keeps_State_bcast | with_reducible apply keeps_State_sendTo | with_reducible apply keeps_State_setBar | with_reducible apply keeps_State_barAbort
    | with_reducible apply Keeps.ite
    | with_reducible refine Keeps.foldl ?_ (fun s b hb => ?_)
    | split
    | (with_reducible apply Keeps.mk ; rotate_left ; iterate 9 (exact rfl))

theorem keeps_State_barEnter (a₀ : State) (s : State) (n : Nat) (o : Option Origin) (hk : Keeps a₀ s) : Keeps a₀ (State.barEnter s n o) := by
  unfold State.barEnter
  try dsimp only
  repeat' first
    | with_reducible assumption
    | ((with_reducible refine RingSub.of ?_) ; exact rfl) | ((with_reducible refine PortSub.of ?_) ; exact rfl) | with_reducible exact PortSub.reset _
    | (intro x hx)
    | (with_reducible exact Keeps.mk (by assumption) rfl rfl rfl rfl rfl rfl rfl rfl rfl)
    | with_reducible apply keeps_State_setBar | with_reducible apply keeps_State_barCount
    | with_reducible apply Keeps.ite
    | with_reducible refine Keeps.foldl ?_ (fun s b hb => ?_)
    | split
    | (with_reducible apply Keeps.mk ; rotate_left ; iterate 9 (exact rfl))

theorem keeps_State_barRelease (a₀ : State) (s : State) (n tag : Nat) (hk : Keeps a₀ s) : Keeps a₀ (State.barRelease s n tag) := by
  unfold State.barRelease
  try dsimp only
  repeat' first
    | with_reducible assumption
    | ((with_reducible refine RingSub.of ?_) ; exact rfl) | ((with_reducible refine PortSub.of ?_) ; exact rfl) | with_reducible exact PortSub.reset _
    | (intro x hx)
    | (with_reducible exact Keeps.mk (by assumption) rfl rfl rfl rfl rfl rfl rfl rfl rfl)
    | with_reducible apply keeps_State_finish | with_reducible apply keeps_State_setBar
    | with_reducible apply Keeps.ite
    | with_reducible refine Keeps.foldl ?_ (fun s b hb => ?_)
    | split
    | (with_reducible apply Keeps.mk ; rotate_left ; iterate 9 (exact rfl))

theorem keeps_State_resetPort (a₀ : State) (s : State) (p : PortId) (hk : Keeps a₀ s) : Keeps a₀ (State.resetPort s p) := by
  unfold State.resetPort
  try dsimp only
  repeat' first
    | with_reducible assumption
    | ((with_reducible refine RingSub.of ?_) ; exact rfl) | ((with_reducible refine PortSub.of ?_) ; exact rfl) | with_reducible exact PortSub.reset _
    | (intro x hx)
    | (with_reducible exact Keeps.mk (by assumption) rfl rfl rfl rfl rfl rfl rfl rfl rfl)
    | with_reducible apply keeps_State_setPort | with_reducible apply keeps_State_semAbandon | with_reducible apply keeps_State_ctrFree
    | with_reducible apply Keeps.ite
    | with_reducible refine Keeps.foldl ?_ (fun s b hb => ?_)
    | split
    | (with_reducible apply Keeps.mk ; rotate_left ; iterate 9 (exact rfl))

end Sys2Proof.Laws
end

