-- ==== Sys2Proof/Laws/Keeps/Ports.lean ====
section
/-! SUPPORT. What the operations of Machine/Ports.lean keep (Laws/Keeps/Base.lean). -/

namespace Sys2Proof.Laws

open Sys2Proof.Machine

set_option linter.unreachableTactic false
set_option linter.unusedTactic false
set_option linter.unusedVariables false

theorem keeps_State_xwrite (a₀ : State) (s : State) (by_ : PortId) (hk : Keeps a₀ s) : Keeps a₀ (State.xwrite s by_) := by
  unfold State.xwrite
  try dsimp only
  repeat' first
    | with_reducible assumption
    | ((with_reducible refine RingSub.of ?_) ; exact rfl) | ((with_reducible refine PortSub.of ?_) ; exact rfl) | with_reducible exact PortSub.reset _
    | (intro x hx)
    | (with_reducible exact Keeps.mk (by assumption) rfl rfl rfl rfl rfl rfl rfl rfl rfl)
    | with_reducible apply keeps_State_setPort
    | with_reducible apply Keeps.ite
    | with_reducible refine Keeps.foldl ?_ (fun s b hb => ?_)
    | split
    | (with_reducible apply Keeps.mk ; rotate_left ; iterate 9 (exact rfl))

theorem keeps_State_badAccess (a₀ : State) (s : State) (by_ : PortId) (hk : Keeps a₀ s) : Keeps a₀ (State.badAccess s by_) := by
  unfold State.badAccess
  try dsimp only
  repeat' first
    | with_reducible assumption
    | ((with_reducible refine RingSub.of ?_) ; exact rfl) | ((with_reducible refine PortSub.of ?_) ; exact rfl) | with_reducible exact PortSub.reset _
    | (intro x hx)
    | (with_reducible exact Keeps.mk (by assumption) rfl rfl rfl rfl rfl rfl rfl rfl rfl)
    | with_reducible apply keeps_State_setPort
    | with_reducible apply Keeps.ite
    | with_reducible refine Keeps.foldl ?_ (fun s b hb => ?_)
    | split
    | (with_reducible apply Keeps.mk ; rotate_left ; iterate 9 (exact rfl))

theorem keeps_portWrite (a₀ : State) (by_ win : PortId) (act : State → State) (s : State) (hact : ∀ x : State, Keeps a₀ x → Keeps a₀ (act x)) (hk : Keeps a₀ s) : Keeps a₀ (portWrite by_ win act s) := by
  unfold portWrite
  try dsimp only
  repeat' first
    | with_reducible assumption
    | ((with_reducible refine RingSub.of ?_) ; exact rfl) | ((with_reducible refine PortSub.of ?_) ; exact rfl) | with_reducible exact PortSub.reset _
    | (intro x hx)
    | (with_reducible exact Keeps.mk (by assumption) rfl rfl rfl rfl rfl rfl rfl rfl rfl)
    | apply hact
    | with_reducible apply keeps_State_xwrite | with_reducible apply keeps_State_badAccess
    | with_reducible apply Keeps.ite
    | with_reducible refine Keeps.foldl ?_ (fun s b hb => ?_)
    | split
    | (with_reducible apply Keeps.mk ; rotate_left ; iterate 9 (exact rfl))

theorem keeps_sharedWrite (a₀ : State) (by_ : PortId) (act : State → State) (s : State) (hact : ∀ x : State, Keeps a₀ x → Keeps a₀ (act x)) (hk : Keeps a₀ s) : Keeps a₀ (sharedWrite by_ act s) := by
  unfold sharedWrite
  try dsimp only
  repeat' first
    | with_reducible assumption
    | ((with_reducible refine RingSub.of ?_) ; exact rfl) | ((with_reducible refine PortSub.of ?_) ; exact rfl) | with_reducible exact PortSub.reset _
    | (intro x hx)
    | (with_reducible exact Keeps.mk (by assumption) rfl rfl rfl rfl rfl rfl rfl rfl rfl)
    | apply hact
    | with_reducible apply keeps_State_badAccess
    | with_reducible apply Keeps.ite
    | with_reducible refine Keeps.foldl ?_ (fun s b hb => ?_)
    | split
    | (with_reducible apply Keeps.mk ; rotate_left ; iterate 9 (exact rfl))

theorem keeps_State_writeTail (a₀ : State) (s : State) (r : RingRef) (tail : Half) (hk : Keeps a₀ s) : Keeps a₀ (State.writeTail s r tail) := by
  unfold State.writeTail
  try dsimp only
  repeat' first
    | with_reducible assumption
    | ((with_reducible refine RingSub.of ?_) ; exact rfl) | ((with_reducible refine PortSub.of ?_) ; exact rfl) | with_reducible exact PortSub.reset _
    | (intro x hx)
    | (with_reducible exact Keeps.mk (by assumption) rfl rfl rfl rfl rfl rfl rfl rfl rfl)
    | with_reducible apply keeps_State_setRing | with_reducible apply keeps_State_ringError
    | with_reducible apply Keeps.ite
    | with_reducible refine Keeps.foldl ?_ (fun s b hb => ?_)
    | split
    | (with_reducible apply Keeps.mk ; rotate_left ; iterate 9 (exact rfl))

theorem keeps_State_writeHead (a₀ : State) (s : State) (r : RingRef) (head : Half) (hk : Keeps a₀ s) : Keeps a₀ (State.writeHead s r head) := by
  unfold State.writeHead
  try dsimp only
  repeat' first
    | with_reducible assumption
    | ((with_reducible refine RingSub.of ?_) ; exact rfl) | ((with_reducible refine PortSub.of ?_) ; exact rfl) | with_reducible exact PortSub.reset _
    | (intro x hx)
    | (with_reducible exact Keeps.mk (by assumption) rfl rfl rfl rfl rfl rfl rfl rfl rfl)
    | with_reducible apply keeps_State_setRing | with_reducible apply keeps_State_ringError
    | with_reducible apply Keeps.ite
    | with_reducible refine Keeps.foldl ?_ (fun s b hb => ?_)
    | split
    | (with_reducible apply Keeps.mk ; rotate_left ; iterate 9 (exact rfl))

theorem keeps_State_writeRctl (a₀ : State) (s : State) (r : RingRef) (v : Word) (hk : Keeps a₀ s) : Keeps a₀ (State.writeRctl s r v) := by
  unfold State.writeRctl
  try dsimp only
  repeat' first
    | with_reducible assumption
    | ((with_reducible refine RingSub.of ?_) ; exact rfl) | ((with_reducible refine PortSub.of ?_) ; exact rfl) | with_reducible exact PortSub.reset _
    | (intro x hx)
    | (with_reducible exact Keeps.mk (by assumption) rfl rfl rfl rfl rfl rfl rfl rfl rfl)
    | with_reducible apply keeps_State_setRing | with_reducible apply keeps_State_refresh | with_reducible apply keeps_State_ringError
    | with_reducible apply Keeps.ite
    | with_reducible refine Keeps.foldl ?_ (fun s b hb => ?_)
    | split
    | (with_reducible apply Keeps.mk ; rotate_left ; iterate 9 (exact rfl))

theorem written_sub (q : Ring) (w : CqWrite) : RingSub (q.written w) q := by
  intro o ho
  unfold Ring.written at ho
  dsimp only at ho
  split at ho
  · exact ⟨o, (List.mem_filter.mp ho).1, rfl⟩
  · obtain ⟨o', h1, rfl⟩ := List.mem_map.mp ho
    refine ⟨o', h1, ?_⟩
    split <;> rfl

theorem keeps_State_cqAck (a₀ : State) (s : State) (r : RingRef) (err : Bool) (hk : Keeps a₀ s) : Keeps a₀ (State.cqAck s r err) := by
  have hw := written_sub (s.ring r)
  unfold State.cqAck
  dsimp only
  split
  · exact hk
  rename_i w rest hq
  refine Keeps.ite (Keeps.ite ?_ ?_) (Keeps.ite ?_ ?_)
  · exact keeps_State_ringError _ _ _ _ (keeps_State_setRing _ _ _ _ hk (hw w))
  · exact keeps_State_setRing _ _ _ _ hk (RingSub.of rfl)
  · exact keeps_State_refresh _ _ _ _ (keeps_State_setPort _ _ _ _
      (keeps_State_setRing _ _ _ _ (keeps_State_storeWords _ _ _ _ hk) (fun o ho => hw w o ho)) (PortSub.of rfl))
  · exact keeps_State_setRing _ _ _ _ (keeps_State_storeWords _ _ _ _ hk) (fun o ho => hw w o ho)

theorem keeps_State_clearInt (a₀ : State) (s : State) (p : PortId) (v : Word) (hk : Keeps a₀ s) : Keeps a₀ (State.clearInt s p v) := by
  unfold State.clearInt
  try dsimp only
  repeat' first
    | with_reducible assumption
    | ((with_reducible refine RingSub.of ?_) ; exact rfl) | ((with_reducible refine PortSub.of ?_) ; exact rfl) | with_reducible exact PortSub.reset _
    | (intro x hx)
    | (with_reducible exact Keeps.mk (by assumption) rfl rfl rfl rfl rfl rfl rfl rfl rfl)
    | with_reducible apply keeps_State_setPort | with_reducible apply keeps_State_refresh
    | with_reducible apply Keeps.ite
    | with_reducible refine Keeps.foldl ?_ (fun s b hb => ?_)
    | split
    | (with_reducible apply Keeps.mk ; rotate_left ; iterate 9 (exact rfl))

theorem keeps_State_clearCqPend (a₀ : State) (s : State) (p : PortId) (v : W64) (hk : Keeps a₀ s) : Keeps a₀ (State.clearCqPend s p v) := by
  unfold State.clearCqPend
  try dsimp only
  repeat' first
    | with_reducible assumption
    | ((with_reducible refine RingSub.of ?_) ; exact rfl) | ((with_reducible refine PortSub.of ?_) ; exact rfl) | with_reducible exact PortSub.reset _
    | (intro x hx)
    | (with_reducible exact Keeps.mk (by assumption) rfl rfl rfl rfl rfl rfl rfl rfl rfl)
    | with_reducible apply keeps_State_setPort | with_reducible apply keeps_State_refresh
    | with_reducible apply Keeps.ite
    | with_reducible refine Keeps.foldl ?_ (fun s b hb => ?_)
    | split
    | (with_reducible apply Keeps.mk ; rotate_left ; iterate 9 (exact rfl))

theorem keeps_State_writeRoute (a₀ : State) (s : State) (p : PortId) (off : Nat) (v : Word) (hk : Keeps a₀ s) : Keeps a₀ (State.writeRoute s p off v) := by
  unfold State.writeRoute
  try dsimp only
  repeat' first
    | with_reducible assumption
    | ((with_reducible refine RingSub.of ?_) ; exact rfl) | ((with_reducible refine PortSub.of ?_) ; exact rfl) | with_reducible exact PortSub.reset _
    | (intro x hx)
    | (with_reducible exact Keeps.mk (by assumption) rfl rfl rfl rfl rfl rfl rfl rfl rfl)
    | with_reducible apply keeps_State_setPort | with_reducible apply keeps_State_refresh
    | with_reducible apply Keeps.ite
    | with_reducible refine Keeps.foldl ?_ (fun s b hb => ?_)
    | split
    | (with_reducible apply Keeps.mk ; rotate_left ; iterate 9 (exact rfl))

theorem keeps_State_msgAck (a₀ : State) (s : State) (p : PortId) (v : Nat) (err : Bool) (hk : Keeps a₀ s) : Keeps a₀ (State.msgAck s p v err) := by
  unfold State.msgAck
  try dsimp only
  repeat' first
    | with_reducible assumption
    | ((with_reducible refine RingSub.of ?_) ; exact rfl) | ((with_reducible refine PortSub.of ?_) ; exact rfl) | with_reducible exact PortSub.reset _
    | (intro x hx)
    | (with_reducible exact Keeps.mk (by assumption) rfl rfl rfl rfl rfl rfl rfl rfl rfl)
    | with_reducible apply keeps_State_storeWords | with_reducible apply keeps_State_setPort | with_reducible apply keeps_State_drive
    | with_reducible apply Keeps.ite
    | with_reducible refine Keeps.foldl ?_ (fun s b hb => ?_)
    | split
    | (with_reducible apply Keeps.mk ; rotate_left ; iterate 9 (exact rfl))

theorem keeps_State_semReqBy (a₀ : State) (s : State) (r : Requester) (n : Nat) (hk : Keeps a₀ s) : Keeps a₀ (State.semReqBy s r n) := by
  unfold State.semReqBy
  try dsimp only
  repeat' first
    | with_reducible assumption
    | ((with_reducible refine RingSub.of ?_) ; exact rfl) | ((with_reducible refine PortSub.of ?_) ; exact rfl) | with_reducible exact PortSub.reset _
    | (intro x hx)
    | (with_reducible exact Keeps.mk (by assumption) rfl rfl rfl rfl rfl rfl rfl rfl rfl)
    | with_reducible apply keeps_State_semRequest
    | with_reducible apply Keeps.ite
    | with_reducible refine Keeps.foldl ?_ (fun s b hb => ?_)
    | split
    | (with_reducible apply Keeps.mk ; rotate_left ; iterate 9 (exact rfl))

theorem keeps_State_semRelBy (a₀ : State) (s : State) (r : Requester) (n : Nat) (hk : Keeps a₀ s) : Keeps a₀ (State.semRelBy s r n) := by
  unfold State.semRelBy
  try dsimp only
  repeat' first
    | with_reducible assumption
    | ((with_reducible refine RingSub.of ?_) ; exact rfl) | ((with_reducible refine PortSub.of ?_) ; exact rfl) | with_reducible exact PortSub.reset _
    | (intro x hx)
    | (with_reducible exact Keeps.mk (by assumption) rfl rfl rfl rfl rfl rfl rfl rfl rfl)
    | with_reducible apply keeps_State_setPort | with_reducible apply keeps_State_semRelease
    | with_reducible apply Keeps.ite
    | with_reducible refine Keeps.foldl ?_ (fun s b hb => ?_)
    | split
    | (with_reducible apply Keeps.mk ; rotate_left ; iterate 9 (exact rfl))

theorem keeps_semWrite (a₀ : State) (n : Nat) (act : State → State) (s : State) (hact : ∀ x : State, Keeps a₀ x → Keeps a₀ (act x)) (hk : Keeps a₀ s) : Keeps a₀ (semWrite n act s) := by
  unfold semWrite
  try dsimp only
  repeat' first
    | with_reducible assumption
    | ((with_reducible refine RingSub.of ?_) ; exact rfl) | ((with_reducible refine PortSub.of ?_) ; exact rfl) | with_reducible exact PortSub.reset _
    | (intro x hx)
    | (with_reducible exact Keeps.mk (by assumption) rfl rfl rfl rfl rfl rfl rfl rfl rfl)
    | apply hact
    | with_reducible apply Keeps.ite
    | with_reducible refine Keeps.foldl ?_ (fun s b hb => ?_)
    | split
    | (with_reducible apply Keeps.mk ; rotate_left ; iterate 9 (exact rfl))

end Sys2Proof.Laws
end

