-- ==== Sys2Proof/Laws/Keeps/Egress.lean ====
section
/-! SUPPORT. What the operations of Machine/Egress.lean keep (Laws/Keeps/Base.lean). -/

namespace Sys2Proof.Laws

open Sys2Proof.Machine

set_option linter.unreachableTactic false
set_option linter.unusedTactic false
set_option linter.unusedVariables false

theorem keeps_State_setCring (a₀ : State) (s : State) (r : Nat) (c : CRing) (hk : Keeps a₀ s) : Keeps a₀ (State.setCring s r c) := by
  unfold State.setCring
  try dsimp only
  repeat' first
    | with_reducible assumption
    | ((with_reducible refine RingSub.of ?_) ; exact rfl) | ((with_reducible refine PortSub.of ?_) ; exact rfl) | with_reducible exact PortSub.reset _
    | (intro x hx)
    | (with_reducible exact Keeps.mk (by assumption) rfl rfl rfl rfl rfl rfl rfl rfl rfl)
    
    | with_reducible apply Keeps.ite
    | with_reducible refine Keeps.foldl ?_ (fun s b hb => ?_)
    | split
    | (with_reducible apply Keeps.mk ; rotate_left ; iterate 9 (exact rfl))

theorem keeps_State_undelivered (a₀ : State) (s : State) (hk : Keeps a₀ s) : Keeps a₀ (State.undelivered s) := by
  unfold State.undelivered
  try dsimp only
  repeat' first
    | with_reducible assumption
    | ((with_reducible refine RingSub.of ?_) ; exact rfl) | ((with_reducible refine PortSub.of ?_) ; exact rfl) | with_reducible exact PortSub.reset _
    | (intro x hx)
    | (with_reducible exact Keeps.mk (by assumption) rfl rfl rfl rfl rfl rfl rfl rfl rfl)
    | with_reducible apply keeps_State_bump | with_reducible apply keeps_State_setFault
    | with_reducible apply Keeps.ite
    | with_reducible refine Keeps.foldl ?_ (fun s b hb => ?_)
    | split
    | (with_reducible apply Keeps.mk ; rotate_left ; iterate 9 (exact rfl))

theorem keeps_State_dropRow (a₀ : State) (s : State) (k : Option RowKey) (hk : Keeps a₀ s) : Keeps a₀ (State.dropRow s k) := by
  unfold State.dropRow
  try dsimp only
  repeat' first
    | with_reducible assumption
    | ((with_reducible refine RingSub.of ?_) ; exact rfl) | ((with_reducible refine PortSub.of ?_) ; exact rfl) | with_reducible exact PortSub.reset _
    | (intro x hx)
    | (with_reducible exact Keeps.mk (by assumption) rfl rfl rfl rfl rfl rfl rfl rfl rfl)
    
    | with_reducible apply Keeps.ite
    | with_reducible refine Keeps.foldl ?_ (fun s b hb => ?_)
    | split
    | (with_reducible apply Keeps.mk ; rotate_left ; iterate 9 (exact rfl))

theorem keeps_State_trecIssued (a₀ : State) (s : State) (r : EgRec) (hk : Keeps a₀ s) : Keeps a₀ (State.trecIssued s r) := by
  unfold State.trecIssued
  try dsimp only
  repeat' first
    | with_reducible assumption
    | ((with_reducible refine RingSub.of ?_) ; exact rfl) | ((with_reducible refine PortSub.of ?_) ; exact rfl) | with_reducible exact PortSub.reset _
    | (intro x hx)
    | (with_reducible exact Keeps.mk (by assumption) rfl rfl rfl rfl rfl rfl rfl rfl rfl)
    | with_reducible apply keeps_State_bump64N | with_reducible apply keeps_State_dropRow
    | with_reducible apply Keeps.ite
    | with_reducible refine Keeps.foldl ?_ (fun s b hb => ?_)
    | split
    | (with_reducible apply Keeps.mk ; rotate_left ; iterate 9 (exact rfl))

theorem keeps_State_egBeat (a₀ : State) (s : State) (r : EgRec) (rest : List EgRec) (hk : Keeps a₀ s) : Keeps a₀ (State.egBeat s r rest) := by
  unfold State.egBeat
  try dsimp only
  repeat' first
    | with_reducible assumption
    | ((with_reducible refine RingSub.of ?_) ; exact rfl) | ((with_reducible refine PortSub.of ?_) ; exact rfl) | with_reducible exact PortSub.reset _
    | (intro x hx)
    | (with_reducible exact Keeps.mk (by assumption) rfl rfl rfl rfl rfl rfl rfl rfl rfl)
    | with_reducible apply keeps_State_setCring | with_reducible apply keeps_State_trecIssued | with_reducible apply keeps_State_teg
    | with_reducible apply Keeps.ite
    | with_reducible refine Keeps.foldl ?_ (fun s b hb => ?_)
    | split
    | (with_reducible apply Keeps.mk ; rotate_left ; iterate 9 (exact rfl))

theorem keeps_State_egStep (a : State) (s t : State) (he : s.egStep = some t) (hk : Keeps a s) : Keeps a t := by
  unfold State.egStep at he
  dsimp only at he
  repeat' split at he
  all_goals first
    | (cases he; done)
    | (obtain rfl := Option.some.inj he
       repeat' first
        | with_reducible assumption
        | with_reducible apply keeps_State_dropRow | with_reducible apply keeps_State_undelivered | with_reducible apply keeps_State_egBeat
        | (with_reducible apply Keeps.mk ; rotate_left ; iterate 9 (exact rfl)))

theorem keeps_egRun (a : State) (n : Nat) (s : State) (hk : Keeps a s) : Keeps a (egRun n s) := by
  induction n generalizing s with
  | zero => exact hk
  | succ n ih =>
    unfold egRun
    split
    · exact hk
    · rename_i t he
      exact ih t (keeps_State_egStep a s t he hk)

theorem keeps_State_missCheck (a₀ : State) (s : State) (hk : Keeps a₀ s) : Keeps a₀ (State.missCheck s) := by
  unfold State.missCheck
  try dsimp only
  repeat' first
    | with_reducible assumption
    | ((with_reducible refine RingSub.of ?_) ; exact rfl) | ((with_reducible refine PortSub.of ?_) ; exact rfl) | with_reducible exact PortSub.reset _
    | (intro x hx)
    | (with_reducible exact Keeps.mk (by assumption) rfl rfl rfl rfl rfl rfl rfl rfl rfl)
    | with_reducible apply keeps_State_bumpN | with_reducible apply keeps_State_setCause
    | with_reducible apply Keeps.ite
    | with_reducible refine Keeps.foldl ?_ (fun s b hb => ?_)
    | split
    | (with_reducible apply Keeps.mk ; rotate_left ; iterate 9 (exact rfl))

theorem keeps_State_pump (a₀ : State) (s : State) (hk : Keeps a₀ s) : Keeps a₀ (State.pump s) := by
  unfold State.pump
  try dsimp only
  repeat' first
    | with_reducible assumption
    | ((with_reducible refine RingSub.of ?_) ; exact rfl) | ((with_reducible refine PortSub.of ?_) ; exact rfl) | with_reducible exact PortSub.reset _
    | (intro x hx)
    | (with_reducible exact Keeps.mk (by assumption) rfl rfl rfl rfl rfl rfl rfl rfl rfl)
    | with_reducible apply keeps_egRun | with_reducible apply keeps_State_missCheck
    | with_reducible apply Keeps.ite
    | with_reducible refine Keeps.foldl ?_ (fun s b hb => ?_)
    | split
    | (with_reducible apply Keeps.mk ; rotate_left ; iterate 9 (exact rfl))

theorem keeps_State_emit (a₀ : State) (s : State) (rs : List EgRec) (hk : Keeps a₀ s) : Keeps a₀ (State.emit s rs) := by
  unfold State.emit
  try dsimp only
  repeat' first
    | with_reducible assumption
    | ((with_reducible refine RingSub.of ?_) ; exact rfl) | ((with_reducible refine PortSub.of ?_) ; exact rfl) | with_reducible exact PortSub.reset _
    | (intro x hx)
    | (with_reducible exact Keeps.mk (by assumption) rfl rfl rfl rfl rfl rfl rfl rfl rfl)
    
    | with_reducible apply Keeps.ite
    | with_reducible refine Keeps.foldl ?_ (fun s b hb => ?_)
    | split
    | (with_reducible apply Keeps.mk ; rotate_left ; iterate 9 (exact rfl))

theorem keeps_State_setCtx (a₀ : State) (s : State) (slot : Nat) (c : Scx) (hk : Keeps a₀ s) : Keeps a₀ (State.setCtx s slot c) := by
  unfold State.setCtx
  try dsimp only
  repeat' first
    | with_reducible assumption
    | ((with_reducible refine RingSub.of ?_) ; exact rfl) | ((with_reducible refine PortSub.of ?_) ; exact rfl) | with_reducible exact PortSub.reset _
    | (intro x hx)
    | (with_reducible exact Keeps.mk (by assumption) rfl rfl rfl rfl rfl rfl rfl rfl rfl)
    
    | with_reducible apply Keeps.ite
    | with_reducible refine Keeps.foldl ?_ (fun s b hb => ?_)
    | split
    | (with_reducible apply Keeps.mk ; rotate_left ; iterate 9 (exact rfl))

theorem dirStore_wf (s : State) (k : Nat) (ws : List Word) (w : s.mem.wf) : (s.dirStore k ws).wf := by
  unfold State.dirStore
  split
  · exact w
  · exact store_wf _ _ _ w

theorem keeps_State_setSlot (a₀ : State) (s : State) (n : Nat) (e : SlotEnt) (hk : Keeps a₀ s) : Keeps a₀ (State.setSlot s n e) := by
  obtain ⟨p1, p2, p3, p4, p5, p6, p7⟩ := hk
  exact ⟨p1, fun w => dirStore_wf _ _ _ (p2 w), p3, p4, p5, p6, p7⟩

theorem keeps_State_setCount (a₀ : State) (s : State) (n : Nat) (c : CountPart) (hk : Keeps a₀ s) : Keeps a₀ (State.setCount s n c) := by
  obtain ⟨p1, p2, p3, p4, p5, p6, p7⟩ := hk
  exact ⟨p1, fun w => dirStore_wf _ _ _ (p2 w), p3, p4, p5, p6, p7⟩

theorem keeps_State_delCount (a₀ : State) (s : State) (n : Nat) (hk : Keeps a₀ s) : Keeps a₀ (State.delCount s n) := by
  obtain ⟨p1, p2, p3, p4, p5, p6, p7⟩ := hk
  exact ⟨p1, fun w => dirStore_wf _ _ _ (p2 w), p3, p4, p5, p6, p7⟩

theorem keeps_State_latMiss (a₀ : State) (s : State) (h : Handle) (kind off cause excess : Nat) (hk : Keeps a₀ s) : Keeps a₀ (State.latMiss s h kind off cause excess) := by
  unfold State.latMiss
  try dsimp only
  repeat' first
    | with_reducible assumption
    | ((with_reducible refine RingSub.of ?_) ; exact rfl) | ((with_reducible refine PortSub.of ?_) ; exact rfl) | with_reducible exact PortSub.reset _
    | (intro x hx)
    | (with_reducible exact Keeps.mk (by assumption) rfl rfl rfl rfl rfl rfl rfl rfl rfl)
    | with_reducible apply keeps_State_bump | with_reducible apply keeps_State_setCause
    | with_reducible apply Keeps.ite
    | with_reducible refine Keeps.foldl ?_ (fun s b hb => ?_)
    | split
    | (with_reducible apply Keeps.mk ; rotate_left ; iterate 9 (exact rfl))

theorem keeps_State_setLast (a₀ : State) (s : State) (h : Handle) (now : Word) (hk : Keeps a₀ s) : Keeps a₀ (State.setLast s h now) := by
  unfold State.setLast
  try dsimp only
  repeat' first
    | with_reducible assumption
    | ((with_reducible refine RingSub.of ?_) ; exact rfl) | ((with_reducible refine PortSub.of ?_) ; exact rfl) | with_reducible exact PortSub.reset _
    | (intro x hx)
    | (with_reducible exact Keeps.mk (by assumption) rfl rfl rfl rfl rfl rfl rfl rfl rfl)
    | with_reducible apply keeps_State_setCtx
    | with_reducible apply Keeps.ite
    | with_reducible refine Keeps.foldl ?_ (fun s b hb => ?_)
    | split
    | (with_reducible apply Keeps.mk ; rotate_left ; iterate 9 (exact rfl))

theorem keeps_State_latency (a₀ : State) (s : State) (h : Handle) (hk : Keeps a₀ s) : Keeps a₀ (State.latency s h) := by
  unfold State.latency
  try dsimp only
  repeat' first
    | with_reducible assumption
    | ((with_reducible refine RingSub.of ?_) ; exact rfl) | ((with_reducible refine PortSub.of ?_) ; exact rfl) | with_reducible exact PortSub.reset _
    | (intro x hx)
    | (with_reducible exact Keeps.mk (by assumption) rfl rfl rfl rfl rfl rfl rfl rfl rfl)
    | with_reducible apply keeps_State_bump | with_reducible apply keeps_State_latMiss | with_reducible apply keeps_State_setLast
    | with_reducible apply Keeps.ite
    | with_reducible refine Keeps.foldl ?_ (fun s b hb => ?_)
    | split
    | (with_reducible apply Keeps.mk ; rotate_left ; iterate 9 (exact rfl))

theorem keeps_State_tokensReady (a₀ : State) (s : State) (ring : Nat) (hk : Keeps a₀ s) : Keeps a₀ (State.tokensReady s ring) := by
  unfold State.tokensReady
  try dsimp only
  repeat' first
    | with_reducible assumption
    | ((with_reducible refine RingSub.of ?_) ; exact rfl) | ((with_reducible refine PortSub.of ?_) ; exact rfl) | with_reducible exact PortSub.reset _
    | (intro x hx)
    | (with_reducible exact Keeps.mk (by assumption) rfl rfl rfl rfl rfl rfl rfl rfl rfl)
    | with_reducible apply keeps_State_setCring | with_reducible apply keeps_State_latency | with_reducible apply keeps_State_notify | with_reducible apply keeps_State_teg
    | with_reducible apply Keeps.ite
    | with_reducible refine Keeps.foldl ?_ (fun s b hb => ?_)
    | split
    | (with_reducible apply Keeps.mk ; rotate_left ; iterate 9 (exact rfl))

theorem keeps_State_notifyAll (a₀ : State) (s : State) (hk : Keeps a₀ s) : Keeps a₀ (State.notifyAll s) := by
  unfold State.notifyAll
  try dsimp only
  repeat' first
    | with_reducible assumption
    | ((with_reducible refine RingSub.of ?_) ; exact rfl) | ((with_reducible refine PortSub.of ?_) ; exact rfl) | with_reducible exact PortSub.reset _
    | (intro x hx)
    | (with_reducible exact Keeps.mk (by assumption) rfl rfl rfl rfl rfl rfl rfl rfl rfl)
    | with_reducible apply keeps_State_tokensReady
    | with_reducible apply Keeps.ite
    | with_reducible refine Keeps.foldl ?_ (fun s b hb => ?_)
    | split
    | (with_reducible apply Keeps.mk ; rotate_left ; iterate 9 (exact rfl))

theorem keeps_State_tegOk (a₀ : State) (s : State) (w : TegWrite) (hk : Keeps a₀ s) : Keeps a₀ (State.tegOk s w) := by
  unfold State.tegOk
  try dsimp only
  repeat' first
    | with_reducible assumption
    | ((with_reducible refine RingSub.of ?_) ; exact rfl) | ((with_reducible refine PortSub.of ?_) ; exact rfl) | with_reducible exact PortSub.reset _
    | (intro x hx)
    | (with_reducible exact Keeps.mk (by assumption) rfl rfl rfl rfl rfl rfl rfl rfl rfl)
    | with_reducible apply keeps_State_storeWords | with_reducible apply keeps_State_setCring | with_reducible apply keeps_State_notifyAll | with_reducible apply keeps_State_notify
    | with_reducible apply Keeps.ite
    | with_reducible refine Keeps.foldl ?_ (fun s b hb => ?_)
    | split
    | (with_reducible apply Keeps.mk ; rotate_left ; iterate 9 (exact rfl))

theorem keeps_State_tegRetry (a₀ : State) (s : State) (w : TegWrite) (hk : Keeps a₀ s) : Keeps a₀ (State.tegRetry s w) := by
  unfold State.tegRetry
  try dsimp only
  repeat' first
    | with_reducible assumption
    | ((with_reducible refine RingSub.of ?_) ; exact rfl) | ((with_reducible refine PortSub.of ?_) ; exact rfl) | with_reducible exact PortSub.reset _
    | (intro x hx)
    | (with_reducible exact Keeps.mk (by assumption) rfl rfl rfl rfl rfl rfl rfl rfl rfl)
    | with_reducible apply keeps_State_notify | with_reducible apply keeps_State_teg
    | with_reducible apply Keeps.ite
    | with_reducible refine Keeps.foldl ?_ (fun s b hb => ?_)
    | split
    | (with_reducible apply Keeps.mk ; rotate_left ; iterate 9 (exact rfl))

end Sys2Proof.Laws
end

