-- ==== Sys2Proof/Laws/Keeps/Serve.lean ====
section
/-! SUPPORT. What the operations of Machine/Serve.lean keep (Laws/Keeps/Base.lean). -/

namespace Sys2Proof.Laws

open Sys2Proof.Machine

set_option linter.unreachableTactic false
set_option linter.unusedTactic false
set_option linter.unusedVariables false

theorem keeps_State_markDecided (a₀ : State) (s : State) (k : RowKey) (charged : Bool) (hk : Keeps a₀ s) : Keeps a₀ (State.markDecided s k charged) := by
  unfold State.markDecided
  try dsimp only
  repeat' first
    | with_reducible assumption
    | ((with_reducible refine RingSub.of ?_) ; exact rfl) | ((with_reducible refine PortSub.of ?_) ; exact rfl) | with_reducible exact PortSub.reset _
    | (intro x hx)
    | (with_reducible exact Keeps.mk (by assumption) rfl rfl rfl rfl rfl rfl rfl rfl rfl)
    
    | with_reducible apply Keeps.ite
    | with_reducible refine Keeps.foldl ?_ (fun s b hb => ?_)
    | split
    | (with_reducible apply Keeps.mk ; rotate_left ; iterate 9 (exact rfl))

theorem keeps_State_fallback (a₀ : State) (s : State) (r : Row) (kind : Nat) (hk : Keeps a₀ s) : Keeps a₀ (State.fallback s r kind) := by
  unfold State.fallback
  try dsimp only
  repeat' first
    | with_reducible assumption
    | ((with_reducible refine RingSub.of ?_) ; exact rfl) | ((with_reducible refine PortSub.of ?_) ; exact rfl) | with_reducible exact PortSub.reset _
    | (intro x hx)
    | (with_reducible exact Keeps.mk (by assumption) rfl rfl rfl rfl rfl rfl rfl rfl rfl)
    | with_reducible apply keeps_State_emit
    | with_reducible apply Keeps.ite
    | with_reducible refine Keeps.foldl ?_ (fun s b hb => ?_)
    | split
    | (with_reducible apply Keeps.mk ; rotate_left ; iterate 9 (exact rfl))

theorem keeps_State_holdHere (a₀ : State) (s : State) (slot : Nat) (hk : Keeps a₀ s) : Keeps a₀ (State.holdHere s slot) := by
  unfold State.holdHere
  try dsimp only
  repeat' first
    | with_reducible assumption
    | ((with_reducible refine RingSub.of ?_) ; exact rfl) | ((with_reducible refine PortSub.of ?_) ; exact rfl) | with_reducible exact PortSub.reset _
    | (intro x hx)
    | (with_reducible exact Keeps.mk (by assumption) rfl rfl rfl rfl rfl rfl rfl rfl rfl)
    | with_reducible apply keeps_State_setSlot
    | with_reducible apply Keeps.ite
    | with_reducible refine Keeps.foldl ?_ (fun s b hb => ?_)
    | split
    | (with_reducible apply Keeps.mk ; rotate_left ; iterate 9 (exact rfl))

theorem keeps_State_enterHold (a₀ : State) (s : State) (slot : Nat) (hk : Keeps a₀ s) : Keeps a₀ (State.enterHold s slot) := by
  unfold State.enterHold
  try dsimp only
  repeat' first
    | with_reducible assumption
    | ((with_reducible refine RingSub.of ?_) ; exact rfl) | ((with_reducible refine PortSub.of ?_) ; exact rfl) | with_reducible exact PortSub.reset _
    | (intro x hx)
    | (with_reducible exact Keeps.mk (by assumption) rfl rfl rfl rfl rfl rfl rfl rfl rfl)
    | with_reducible apply keeps_State_bcastOthers | with_reducible apply keeps_State_sendTo | with_reducible apply keeps_State_holdHere
    | with_reducible apply Keeps.ite
    | with_reducible refine Keeps.foldl ?_ (fun s b hb => ?_)
    | split
    | (with_reducible apply Keeps.mk ; rotate_left ; iterate 9 (exact rfl))

theorem keeps_State_holdSaid (a₀ : State) (s : State) (slot : Nat) (hk : Keeps a₀ s) : Keeps a₀ (State.holdSaid s slot) := by
  unfold State.holdSaid
  try dsimp only
  repeat' first
    | with_reducible assumption
    | ((with_reducible refine RingSub.of ?_) ; exact rfl) | ((with_reducible refine PortSub.of ?_) ; exact rfl) | with_reducible exact PortSub.reset _
    | (intro x hx)
    | (with_reducible exact Keeps.mk (by assumption) rfl rfl rfl rfl rfl rfl rfl rfl rfl)
    | with_reducible apply keeps_State_bcastOthers | with_reducible apply keeps_State_holdHere
    | with_reducible apply Keeps.ite
    | with_reducible refine Keeps.foldl ?_ (fun s b hb => ?_)
    | split
    | (with_reducible apply Keeps.mk ; rotate_left ; iterate 9 (exact rfl))

theorem keeps_State_voidRow (a₀ : State) (s : State) (r : Row) (cause : Nat) (hk : Keeps a₀ s) : Keeps a₀ (State.voidRow s r cause) := by
  unfold State.voidRow
  try dsimp only
  repeat' first
    | with_reducible assumption
    | ((with_reducible refine RingSub.of ?_) ; exact rfl) | ((with_reducible refine PortSub.of ?_) ; exact rfl) | with_reducible exact PortSub.reset _
    | (intro x hx)
    | (with_reducible exact Keeps.mk (by assumption) rfl rfl rfl rfl rfl rfl rfl rfl rfl)
    | with_reducible apply keeps_State_countVoid | with_reducible apply keeps_State_fallback | with_reducible apply keeps_State_enterHold
    | with_reducible apply Keeps.ite
    | with_reducible refine Keeps.foldl ?_ (fun s b hb => ?_)
    | split
    | (with_reducible apply Keeps.mk ; rotate_left ; iterate 9 (exact rfl))

theorem keeps_State_voidSafe (a₀ : State) (s : State) (r : Row) (cause : Nat) (hk : Keeps a₀ s) : Keeps a₀ (State.voidSafe s r cause) := by
  unfold State.voidSafe
  try dsimp only
  repeat' first
    | with_reducible assumption
    | ((with_reducible refine RingSub.of ?_) ; exact rfl) | ((with_reducible refine PortSub.of ?_) ; exact rfl) | with_reducible exact PortSub.reset _
    | (intro x hx)
    | (with_reducible exact Keeps.mk (by assumption) rfl rfl rfl rfl rfl rfl rfl rfl rfl)
    | with_reducible apply keeps_State_countVoid | with_reducible apply keeps_State_fallback
    | with_reducible apply Keeps.ite
    | with_reducible refine Keeps.foldl ?_ (fun s b hb => ?_)
    | split
    | (with_reducible apply Keeps.mk ; rotate_left ; iterate 9 (exact rfl))

theorem keeps_State_countReturned (a₀ : State) (s : State) (n : Nat) (hk : Keeps a₀ s) : Keeps a₀ (State.countReturned s n) := by
  unfold State.countReturned
  try dsimp only
  repeat' first
    | with_reducible assumption
    | ((with_reducible refine RingSub.of ?_) ; exact rfl) | ((with_reducible refine PortSub.of ?_) ; exact rfl) | with_reducible exact PortSub.reset _
    | (intro x hx)
    | (with_reducible exact Keeps.mk (by assumption) rfl rfl rfl rfl rfl rfl rfl rfl rfl)
    | with_reducible apply keeps_State_bump64N
    | with_reducible apply Keeps.ite
    | with_reducible refine Keeps.foldl ?_ (fun s b hb => ?_)
    | split
    | (with_reducible apply Keeps.mk ; rotate_left ; iterate 9 (exact rfl))

theorem keeps_State_uncharge (a₀ : State) (s : State) (slot d : Nat) (hk : Keeps a₀ s) : Keeps a₀ (State.uncharge s slot d) := by
  unfold State.uncharge
  try dsimp only
  repeat' first
    | with_reducible assumption
    | ((with_reducible refine RingSub.of ?_) ; exact rfl) | ((with_reducible refine PortSub.of ?_) ; exact rfl) | with_reducible exact PortSub.reset _
    | (intro x hx)
    | (with_reducible exact Keeps.mk (by assumption) rfl rfl rfl rfl rfl rfl rfl rfl rfl)
    | with_reducible apply keeps_State_setCtx
    | with_reducible apply Keeps.ite
    | with_reducible refine Keeps.foldl ?_ (fun s b hb => ?_)
    | split
    | (with_reducible apply Keeps.mk ; rotate_left ; iterate 9 (exact rfl))

theorem keeps_State_giveBack (a₀ : State) (s : State) (slot d : Nat) (hk : Keeps a₀ s) : Keeps a₀ (State.giveBack s slot d) := by
  unfold State.giveBack
  try dsimp only
  repeat' first
    | with_reducible assumption
    | ((with_reducible refine RingSub.of ?_) ; exact rfl) | ((with_reducible refine PortSub.of ?_) ; exact rfl) | with_reducible exact PortSub.reset _
    | (intro x hx)
    | (with_reducible exact Keeps.mk (by assumption) rfl rfl rfl rfl rfl rfl rfl rfl rfl)
    | with_reducible apply keeps_State_sendTo | with_reducible apply keeps_State_countReturned | with_reducible apply keeps_State_uncharge
    | with_reducible apply Keeps.ite
    | with_reducible refine Keeps.foldl ?_ (fun s b hb => ?_)
    | split
    | (with_reducible apply Keeps.mk ; rotate_left ; iterate 9 (exact rfl))

theorem keeps_State_dropCommits (a₀ : State) (s : State) (p : HomeCommit → Bool) (hk : Keeps a₀ s) : Keeps a₀ (State.dropCommits s p) := by
  unfold State.dropCommits
  try dsimp only
  repeat' first
    | with_reducible assumption
    | ((with_reducible refine RingSub.of ?_) ; exact rfl) | ((with_reducible refine PortSub.of ?_) ; exact rfl) | with_reducible exact PortSub.reset _
    | (intro x hx)
    | (with_reducible exact Keeps.mk (by assumption) rfl rfl rfl rfl rfl rfl rfl rfl rfl)
    | with_reducible apply keeps_State_giveBack | with_reducible apply keeps_State_charge
    | with_reducible apply Keeps.ite
    | with_reducible refine Keeps.foldl ?_ (fun s b hb => ?_)
    | split
    | (with_reducible apply Keeps.mk ; rotate_left ; iterate 9 (exact rfl))

theorem keeps_State_windStart (a₀ : State) (s : State) (manual : Bool) (cause prior : Nat) (hk : Keeps a₀ s) : Keeps a₀ (State.windStart s manual cause prior) := by
  unfold State.windStart
  try dsimp only
  repeat' first
    | with_reducible assumption
    | ((with_reducible refine RingSub.of ?_) ; exact rfl) | ((with_reducible refine PortSub.of ?_) ; exact rfl) | with_reducible exact PortSub.reset _
    | (intro x hx)
    | (with_reducible exact Keeps.mk (by assumption) rfl rfl rfl rfl rfl rfl rfl rfl rfl)
    | with_reducible apply keeps_State_storeWords
    | with_reducible apply Keeps.ite
    | with_reducible refine Keeps.foldl ?_ (fun s b hb => ?_)
    | split
    | (with_reducible apply Keeps.mk ; rotate_left ; iterate 9 (exact rfl))

theorem keeps_State_freeAllCtrs (a₀ : State) (s : State) (hk : Keeps a₀ s) : Keeps a₀ (State.freeAllCtrs s) := by
  unfold State.freeAllCtrs
  try dsimp only
  repeat' first
    | with_reducible assumption
    | ((with_reducible refine RingSub.of ?_) ; exact rfl) | ((with_reducible refine PortSub.of ?_) ; exact rfl) | with_reducible exact PortSub.reset _
    | (intro x hx)
    | (with_reducible exact Keeps.mk (by assumption) rfl rfl rfl rfl rfl rfl rfl rfl rfl)
    | with_reducible apply keeps_State_ctrFree
    | with_reducible apply Keeps.ite
    | with_reducible refine Keeps.foldl ?_ (fun s b hb => ?_)
    | split
    | (with_reducible apply Keeps.mk ; rotate_left ; iterate 9 (exact rfl))

theorem keeps_State_safeNotice (a₀ : State) (s : State) (cause : Nat) (hk : Keeps a₀ s) : Keeps a₀ (State.safeNotice s cause) := by
  unfold State.safeNotice
  try dsimp only
  repeat' first
    | with_reducible assumption
    | ((with_reducible refine RingSub.of ?_) ; exact rfl) | ((with_reducible refine PortSub.of ?_) ; exact rfl) | with_reducible exact PortSub.reset _
    | (intro x hx)
    | (with_reducible exact Keeps.mk (by assumption) rfl rfl rfl rfl rfl rfl rfl rfl rfl)
    | with_reducible apply keeps_State_bcastOthers | with_reducible apply keeps_State_sendTo
    | with_reducible apply Keeps.ite
    | with_reducible refine Keeps.foldl ?_ (fun s b hb => ?_)
    | split
    | (with_reducible apply Keeps.mk ; rotate_left ; iterate 9 (exact rfl))

theorem keeps_State_enterSafe (a : State) (s : State) (cause : Nat) (hk : Keeps a s) : Keeps a (s.enterSafe cause) := by
  have key : ∀ (f : Faults) (w : Windfall) (c : Conf), f.log = s.faults.log → Keeps a { s with blk := .safe, faults := f, wind := w, conf := c } := by
    intro f w c hf
    obtain ⟨p1, p2, p3, p4, p5, p6, p7⟩ := hk
    exact ⟨p1, p2, fun hh => hf ▸ p3 hh, p4, p5, fun _ => rfl, p7⟩
  unfold State.enterSafe
  dsimp only
  repeat' first
    | with_reducible apply keeps_State_windStart | with_reducible apply keeps_State_pump
    | with_reducible refine Keeps.foldl ?_ (fun s b hb => ?_)
    | with_reducible apply keeps_State_voidSafe | with_reducible apply keeps_State_dropCommits | with_reducible apply keeps_State_barAbortAll
    | with_reducible apply keeps_State_freeAllCtrs | with_reducible apply keeps_State_endJobs | with_reducible apply keeps_State_safeNotice
    | with_reducible apply keeps_State_setCause
    | with_reducible assumption
    | exact key _ _ _ rfl

theorem keeps_State_fatal (a₀ : State) (s : State) (cause : Nat) (x : Site) (hk : Keeps a₀ s) : Keeps a₀ (State.fatal s cause x) := by
  unfold State.fatal
  try dsimp only
  repeat' first
    | with_reducible assumption
    | ((with_reducible refine RingSub.of ?_) ; exact rfl) | ((with_reducible refine PortSub.of ?_) ; exact rfl) | with_reducible exact PortSub.reset _
    | (intro x hx)
    | (with_reducible exact Keeps.mk (by assumption) rfl rfl rfl rfl rfl rfl rfl rfl rfl)
    | with_reducible apply keeps_State_bump | with_reducible apply keeps_State_setFault | with_reducible apply keeps_State_logFault | with_reducible apply keeps_State_enterSafe
    | with_reducible apply Keeps.ite
    | with_reducible refine Keeps.foldl ?_ (fun s b hb => ?_)
    | split
    | (with_reducible apply Keeps.mk ; rotate_left ; iterate 9 (exact rfl))

end Sys2Proof.Laws
end

