-- ==== Sys2Proof/Laws/Keeps/Link.lean ====
section
/-! SUPPORT. What the operations of Machine/Link.lean keep (Laws/Keeps/Base.lean). -/

namespace Sys2Proof.Laws

open Sys2Proof.Machine

set_option linter.unreachableTactic false
set_option linter.unusedTactic false
set_option linter.unusedVariables false

theorem keeps_State_progress (a₀ : State) (s : State) (hk : Keeps a₀ s) : Keeps a₀ (State.progress s) := by
  unfold State.progress
  try dsimp only
  repeat' first
    | with_reducible assumption
    | ((with_reducible refine RingSub.of ?_) ; exact rfl) | ((with_reducible refine PortSub.of ?_) ; exact rfl) | with_reducible exact PortSub.reset _
    | (intro x hx)
    | (with_reducible exact Keeps.mk (by assumption) rfl rfl rfl rfl rfl rfl rfl rfl rfl)
    | with_reducible apply keeps_State_sendTo
    | with_reducible apply Keeps.ite
    | with_reducible refine Keeps.foldl ?_ (fun s b hb => ?_)
    | split
    | (with_reducible apply Keeps.mk ; rotate_left ; iterate 9 (exact rfl))

theorem keeps_State_pumpLink (a₀ : State) (s : State) (p : Nat) (hk : Keeps a₀ s) : Keeps a₀ (State.pumpLink s p) := by
  unfold State.pumpLink
  try dsimp only
  repeat' first
    | with_reducible assumption
    | ((with_reducible refine RingSub.of ?_) ; exact rfl) | ((with_reducible refine PortSub.of ?_) ; exact rfl) | with_reducible exact PortSub.reset _
    | (intro x hx)
    | (with_reducible exact Keeps.mk (by assumption) rfl rfl rfl rfl rfl rfl rfl rfl rfl)
    | with_reducible apply keeps_State_fire | with_reducible apply keeps_State_progress | with_reducible apply keeps_State_setLink
    | with_reducible apply Keeps.ite
    | with_reducible refine Keeps.foldl ?_ (fun s b hb => ?_)
    | split
    | (with_reducible apply Keeps.mk ; rotate_left ; iterate 9 (exact rfl))

theorem keeps_State_pumpLinks (a₀ : State) (s : State) (hk : Keeps a₀ s) : Keeps a₀ (State.pumpLinks s) := by
  unfold State.pumpLinks
  try dsimp only
  repeat' first
    | with_reducible assumption
    | ((with_reducible refine RingSub.of ?_) ; exact rfl) | ((with_reducible refine PortSub.of ?_) ; exact rfl) | with_reducible exact PortSub.reset _
    | (intro x hx)
    | (with_reducible exact Keeps.mk (by assumption) rfl rfl rfl rfl rfl rfl rfl rfl rfl)
    | with_reducible apply keeps_State_pumpLink
    | with_reducible apply Keeps.ite
    | with_reducible refine Keeps.foldl ?_ (fun s b hb => ?_)
    | split
    | (with_reducible apply Keeps.mk ; rotate_left ; iterate 9 (exact rfl))

theorem keeps_State_driveFrame (a₀ : State) (s : State) (p : Nat) (f : Frame) (hk : Keeps a₀ s) : Keeps a₀ (State.driveFrame s p f) := by
  unfold State.driveFrame
  try dsimp only
  repeat' first
    | with_reducible assumption
    | ((with_reducible refine RingSub.of ?_) ; exact rfl) | ((with_reducible refine PortSub.of ?_) ; exact rfl) | with_reducible exact PortSub.reset _
    | (intro x hx)
    | (with_reducible exact Keeps.mk (by assumption) rfl rfl rfl rfl rfl rfl rfl rfl rfl)
    | with_reducible apply keeps_State_drive
    | with_reducible apply Keeps.ite
    | with_reducible refine Keeps.foldl ?_ (fun s b hb => ?_)
    | split
    | (with_reducible apply Keeps.mk ; rotate_left ; iterate 9 (exact rfl))

theorem keeps_State_setLink (a₀ : State) (s : State) (p : Nat) (l : Link) (hk : Keeps a₀ s) : Keeps a₀ (State.setLink s p l) := by
  unfold State.setLink
  try dsimp only
  repeat' first
    | with_reducible assumption
    | ((with_reducible refine RingSub.of ?_) ; exact rfl) | ((with_reducible refine PortSub.of ?_) ; exact rfl) | with_reducible exact PortSub.reset _
    | (intro x hx)
    | (with_reducible exact Keeps.mk (by assumption) rfl rfl rfl rfl rfl rfl rfl rfl rfl)
    
    | with_reducible apply Keeps.ite
    | with_reducible refine Keeps.foldl ?_ (fun s b hb => ?_)
    | split
    | (with_reducible apply Keeps.mk ; rotate_left ; iterate 9 (exact rfl))

theorem keeps_State_retrain (a₀ : State) (s : State) (p reason : Nat) (send : Bool) (hk : Keeps a₀ s) : Keeps a₀ (State.retrain s p reason send) := by
  unfold State.retrain
  try dsimp only
  repeat' first
    | with_reducible assumption
    | ((with_reducible refine RingSub.of ?_) ; exact rfl) | ((with_reducible refine PortSub.of ?_) ; exact rfl) | with_reducible exact PortSub.reset _
    | (intro x hx)
    | (with_reducible exact Keeps.mk (by assumption) rfl rfl rfl rfl rfl rfl rfl rfl rfl)
    | with_reducible apply keeps_State_bump | with_reducible apply keeps_State_setCause | with_reducible apply keeps_State_driveFrame | with_reducible apply keeps_State_setLink
    | with_reducible apply Keeps.ite
    | with_reducible refine Keeps.foldl ?_ (fun s b hb => ?_)
    | split
    | (with_reducible apply Keeps.mk ; rotate_left ; iterate 9 (exact rfl))

theorem keeps_State_nak (a₀ : State) (s : State) (p : Nat) (hk : Keeps a₀ s) : Keeps a₀ (State.nak s p) := by
  unfold State.nak
  try dsimp only
  repeat' first
    | with_reducible assumption
    | ((with_reducible refine RingSub.of ?_) ; exact rfl) | ((with_reducible refine PortSub.of ?_) ; exact rfl) | with_reducible exact PortSub.reset _
    | (intro x hx)
    | (with_reducible exact Keeps.mk (by assumption) rfl rfl rfl rfl rfl rfl rfl rfl rfl)
    | with_reducible apply keeps_State_driveFrame | with_reducible apply keeps_State_setLink
    | with_reducible apply Keeps.ite
    | with_reducible refine Keeps.foldl ?_ (fun s b hb => ?_)
    | split
    | (with_reducible apply Keeps.mk ; rotate_left ; iterate 9 (exact rfl))

theorem keeps_State_badFrame (a₀ : State) (s : State) (p : Nat) (hk : Keeps a₀ s) : Keeps a₀ (State.badFrame s p) := by
  unfold State.badFrame
  try dsimp only
  repeat' first
    | with_reducible assumption
    | ((with_reducible refine RingSub.of ?_) ; exact rfl) | ((with_reducible refine PortSub.of ?_) ; exact rfl) | with_reducible exact PortSub.reset _
    | (intro x hx)
    | (with_reducible exact Keeps.mk (by assumption) rfl rfl rfl rfl rfl rfl rfl rfl rfl)
    | with_reducible apply keeps_State_corrected | with_reducible apply keeps_State_setLink | with_reducible apply keeps_State_retrain
    | with_reducible apply Keeps.ite
    | with_reducible refine Keeps.foldl ?_ (fun s b hb => ?_)
    | split
    | (with_reducible apply Keeps.mk ; rotate_left ; iterate 9 (exact rfl))

theorem keeps_State_replay (a₀ : State) (s : State) (p : Nat) (hk : Keeps a₀ s) : Keeps a₀ (State.replay s p) := by
  unfold State.replay
  try dsimp only
  repeat' first
    | with_reducible assumption
    | ((with_reducible refine RingSub.of ?_) ; exact rfl) | ((with_reducible refine PortSub.of ?_) ; exact rfl) | with_reducible exact PortSub.reset _
    | (intro x hx)
    | (with_reducible exact Keeps.mk (by assumption) rfl rfl rfl rfl rfl rfl rfl rfl rfl)
    | with_reducible apply keeps_State_setLink | with_reducible apply keeps_State_retrain
    | with_reducible apply Keeps.ite
    | with_reducible refine Keeps.foldl ?_ (fun s b hb => ?_)
    | split
    | (with_reducible apply Keeps.mk ; rotate_left ; iterate 9 (exact rfl))

theorem keeps_State_acceptData (a₀ : State) (s : State) (p : Nat) (f : Frame) (hk : Keeps a₀ s) : Keeps a₀ (State.acceptData s p f) := by
  unfold State.acceptData
  try dsimp only
  repeat' first
    | with_reducible assumption
    | ((with_reducible refine RingSub.of ?_) ; exact rfl) | ((with_reducible refine PortSub.of ?_) ; exact rfl) | with_reducible exact PortSub.reset _
    | (intro x hx)
    | (with_reducible exact Keeps.mk (by assumption) rfl rfl rfl rfl rfl rfl rfl rfl rfl)
    | with_reducible apply keeps_State_contained | with_reducible apply keeps_State_progress | with_reducible apply keeps_State_setLink | with_reducible apply keeps_State_payload
    | with_reducible apply Keeps.ite
    | with_reducible refine Keeps.foldl ?_ (fun s b hb => ?_)
    | split
    | (with_reducible apply Keeps.mk ; rotate_left ; iterate 9 (exact rfl))

theorem keeps_State_trainWord (a₀ : State) (s : State) (p group lane : Nat) (ws : List Word) (hk : Keeps a₀ s) : Keeps a₀ (State.trainWord s p group lane ws) := by
  unfold State.trainWord
  try dsimp only
  repeat' first
    | with_reducible assumption
    | ((with_reducible refine RingSub.of ?_) ; exact rfl) | ((with_reducible refine PortSub.of ?_) ; exact rfl) | with_reducible exact PortSub.reset _
    | (intro x hx)
    | (with_reducible exact Keeps.mk (by assumption) rfl rfl rfl rfl rfl rfl rfl rfl rfl)
    | with_reducible apply keeps_State_drive | with_reducible apply keeps_State_driveFrame | with_reducible apply keeps_State_setLink | with_reducible apply keeps_State_retrain
    | with_reducible apply Keeps.ite
    | with_reducible refine Keeps.foldl ?_ (fun s b hb => ?_)
    | split
    | (with_reducible apply Keeps.mk ; rotate_left ; iterate 9 (exact rfl))

theorem keeps_State_peerReset (a₀ : State) (s : State) (l : Link) (f : Frame) (hk : Keeps a₀ s) : Keeps a₀ (State.peerReset s l f) := by
  unfold State.peerReset
  try dsimp only
  repeat' first
    | with_reducible assumption
    | ((with_reducible refine RingSub.of ?_) ; exact rfl) | ((with_reducible refine PortSub.of ?_) ; exact rfl) | with_reducible exact PortSub.reset _
    | (intro x hx)
    | (with_reducible exact Keeps.mk (by assumption) rfl rfl rfl rfl rfl rfl rfl rfl rfl)
    | with_reducible apply keeps_State_signalsGone | with_reducible apply keeps_State_payload
    | with_reducible apply Keeps.ite
    | with_reducible refine Keeps.foldl ?_ (fun s b hb => ?_)
    | split
    | (with_reducible apply Keeps.mk ; rotate_left ; iterate 9 (exact rfl))

theorem keeps_State_trained (a₀ : State) (s : State) (p : Nat) (f : Frame) (hk : Keeps a₀ s) : Keeps a₀ (s.trained p f) := by
  have h0 := keeps_State_peerReset a₀ s (s.orch.link p) f hk
  unfold State.trained
  dsimp only
  generalize s.peerReset (s.orch.link p) f = t at h0 ⊢
  have h1 : ∀ l x o, Keeps a₀ ({ ((t.setLink p l).driveFrame p x).driveFrame p x with outs := o } : State) := fun l x o =>
    Keeps.mk (keeps_State_driveFrame _ _ _ _ (keeps_State_driveFrame _ _ _ _ (keeps_State_setLink _ _ _ _ h0))) rfl rfl rfl rfl rfl rfl rfl rfl rfl
  exact Keeps.ite (keeps_State_setCause _ _ _ (keeps_State_corrected _ _ _ (h1 _ _ _))) (h1 _ _ _)

theorem keeps_frameAt (a₀ : State) (p : Nat) (f : Frame) (act : State → State) (s : State) (hact : ∀ x : State, Keeps a₀ x → Keeps a₀ (act x)) (hk : Keeps a₀ s) : Keeps a₀ (frameAt p f act s) := by
  unfold frameAt
  try dsimp only
  repeat' first
    | with_reducible assumption
    | ((with_reducible refine RingSub.of ?_) ; exact rfl) | ((with_reducible refine PortSub.of ?_) ; exact rfl) | with_reducible exact PortSub.reset _
    | (intro x hx)
    | (with_reducible exact Keeps.mk (by assumption) rfl rfl rfl rfl rfl rfl rfl rfl rfl)
    | apply hact
    | with_reducible apply keeps_State_pumpLink | with_reducible apply keeps_State_setLink | with_reducible apply keeps_State_nak | with_reducible apply keeps_State_badFrame
    | with_reducible apply Keeps.ite
    | with_reducible refine Keeps.foldl ?_ (fun s b hb => ?_)
    | split
    | (with_reducible apply Keeps.mk ; rotate_left ; iterate 9 (exact rfl))

end Sys2Proof.Laws
end

