-- ==== Sys2Proof/Laws/Keeps/Tables.lean ====
section
/-! SUPPORT. What the operations of Machine/Tables.lean keep (Laws/Keeps/Base.lean). -/

namespace Sys2Proof.Laws

open Sys2Proof.Machine

set_option linter.unreachableTactic false
set_option linter.unusedTactic false
set_option linter.unusedVariables false

theorem keeps_tblLoadD (a : State) (o : Origin) (pk : Pkt) (s : State) (hs : s.blk = Blk.safe → tblLoadD.legal.contains Blk.safe = true) (hk : Keeps a s) : Keeps a (tblLoadD.run o pk s) := by
  simp only [tblLoadD]
  repeat' first
    | with_reducible assumption
    | ((with_reducible refine RingSub.of ?_) ; exact rfl) | ((with_reducible refine PortSub.of ?_) ; exact rfl) | with_reducible exact PortSub.reset _
    | (intro x hx)
    | (with_reducible exact Keeps.mk (by assumption) rfl rfl rfl rfl rfl rfl rfl rfl rfl)
    | with_reducible apply keeps_State_finish | with_reducible apply keeps_State_tellMembers | with_reducible apply keeps_State_setTbl
    | with_reducible apply Keeps.ite
    | with_reducible refine Keeps.foldl ?_ (fun s b hb => ?_)
    | split
    | (with_reducible apply Keeps.mk ; rotate_left ; iterate 9 (exact rfl))

theorem keeps_State_tblSwap (a₀ : State) (s : State) (k : Nat) (img : Image) (hk : Keeps a₀ s) : Keeps a₀ (State.tblSwap s k img) := by
  unfold State.tblSwap
  try dsimp only
  repeat' first
    | with_reducible assumption
    | ((with_reducible refine RingSub.of ?_) ; exact rfl) | ((with_reducible refine PortSub.of ?_) ; exact rfl) | with_reducible exact PortSub.reset _
    | (intro x hx)
    | (with_reducible exact Keeps.mk (by assumption) rfl rfl rfl rfl rfl rfl rfl rfl rfl)
    | with_reducible apply keeps_State_logSwap | with_reducible apply keeps_State_setTbl
    | with_reducible apply Keeps.ite
    | with_reducible refine Keeps.foldl ?_ (fun s b hb => ?_)
    | split
    | (with_reducible apply Keeps.mk ; rotate_left ; iterate 9 (exact rfl))

theorem keeps_tblSwapD (a : State) (o : Origin) (pk : Pkt) (s : State) (hs : s.blk = Blk.safe → tblSwapD.legal.contains Blk.safe = true) (hk : Keeps a s) : Keeps a (tblSwapD.run o pk s) := by
  simp only [tblSwapD]
  repeat' first
    | with_reducible assumption
    | ((with_reducible refine RingSub.of ?_) ; exact rfl) | ((with_reducible refine PortSub.of ?_) ; exact rfl) | with_reducible exact PortSub.reset _
    | (intro x hx)
    | (with_reducible exact Keeps.mk (by assumption) rfl rfl rfl rfl rfl rfl rfl rfl rfl)
    | with_reducible apply keeps_State_finish | with_reducible apply keeps_State_tellMembers | with_reducible apply keeps_State_tblSwap
    | with_reducible apply Keeps.ite
    | with_reducible refine Keeps.foldl ?_ (fun s b hb => ?_)
    | split
    | (with_reducible apply Keeps.mk ; rotate_left ; iterate 9 (exact rfl))

theorem keeps_State_tblVanish (a₀ : State) (s : State) (k g : Nat) (inj : Bool) (hk : Keeps a₀ s) : Keeps a₀ (State.tblVanish s k g inj) := by
  unfold State.tblVanish
  try dsimp only
  repeat' first
    | with_reducible assumption
    | ((with_reducible refine RingSub.of ?_) ; exact rfl) | ((with_reducible refine PortSub.of ?_) ; exact rfl) | with_reducible exact PortSub.reset _
    | (intro x hx)
    | (with_reducible exact Keeps.mk (by assumption) rfl rfl rfl rfl rfl rfl rfl rfl rfl)
    | with_reducible apply keeps_State_contained | with_reducible apply keeps_State_setTbl | with_reducible apply keeps_State_doubtAt
    | with_reducible apply Keeps.ite
    | with_reducible refine Keeps.foldl ?_ (fun s b hb => ?_)
    | split
    | (with_reducible apply Keeps.mk ; rotate_left ; iterate 9 (exact rfl))

theorem keeps_tblFreeD (a : State) (o : Origin) (pk : Pkt) (s : State) (hs : s.blk = Blk.safe → tblFreeD.legal.contains Blk.safe = true) (hk : Keeps a s) : Keeps a (tblFreeD.run o pk s) := by
  simp only [tblFreeD]
  repeat' first
    | with_reducible assumption
    | ((with_reducible refine RingSub.of ?_) ; exact rfl) | ((with_reducible refine PortSub.of ?_) ; exact rfl) | with_reducible exact PortSub.reset _
    | (intro x hx)
    | (with_reducible exact Keeps.mk (by assumption) rfl rfl rfl rfl rfl rfl rfl rfl rfl)
    | with_reducible apply keeps_State_finish | with_reducible apply keeps_State_tellMembers | with_reducible apply keeps_State_setTbl | with_reducible apply keeps_State_tblVanish
    | with_reducible apply Keeps.ite
    | with_reducible refine Keeps.foldl ?_ (fun s b hb => ?_)
    | split
    | (with_reducible apply Keeps.mk ; rotate_left ; iterate 9 (exact rfl))

theorem keeps_tblQueryD (a : State) (o : Origin) (pk : Pkt) (s : State) (hs : s.blk = Blk.safe → tblQueryD.legal.contains Blk.safe = true) (hk : Keeps a s) : Keeps a (tblQueryD.run o pk s) := by
  simp only [tblQueryD]
  repeat' first
    | with_reducible assumption
    | ((with_reducible refine RingSub.of ?_) ; exact rfl) | ((with_reducible refine PortSub.of ?_) ; exact rfl) | with_reducible exact PortSub.reset _
    | (intro x hx)
    | (with_reducible exact Keeps.mk (by assumption) rfl rfl rfl rfl rfl rfl rfl rfl rfl)
    | with_reducible apply keeps_State_finish
    | with_reducible apply Keeps.ite
    | with_reducible refine Keeps.foldl ?_ (fun s b hb => ?_)
    | split
    | (with_reducible apply Keeps.mk ; rotate_left ; iterate 9 (exact rfl))

end Sys2Proof.Laws
end

