-- ==== Sys2Proof/Laws/Keeps/Contexts.lean ====
section
/-! SUPPORT. What the operations of Machine/Contexts.lean keep (Laws/Keeps/Base.lean). -/

namespace Sys2Proof.Laws

open Sys2Proof.Machine

set_option linter.unreachableTactic false
set_option linter.unusedTactic false
set_option linter.unusedVariables false

theorem keeps_State_setLoc (a₀ : State) (s : State) (n part : Nat) (w : W64) (hk : Keeps a₀ s) : Keeps a₀ (State.setLoc s n part w) := by
  unfold State.setLoc
  try dsimp only
  repeat' first
    | with_reducible assumption
    | ((with_reducible refine RingSub.of ?_) ; exact rfl) | ((with_reducible refine PortSub.of ?_) ; exact rfl) | with_reducible exact PortSub.reset _
    | (intro x hx)
    | (with_reducible exact Keeps.mk (by assumption) rfl rfl rfl rfl rfl rfl rfl rfl rfl)
    | with_reducible apply keeps_State_setCtx | with_reducible apply keeps_State_setSlot | with_reducible apply keeps_State_setCount
    | with_reducible apply Keeps.ite
    | with_reducible refine Keeps.foldl ?_ (fun s b hb => ?_)
    | split
    | (with_reducible apply Keeps.mk ; rotate_left ; iterate 9 (exact rfl))

theorem keeps_State_freePart (a₀ : State) (s : State) (n part : Nat) (hk : Keeps a₀ s) : Keeps a₀ (State.freePart s n part) := by
  unfold State.freePart
  try dsimp only
  repeat' first
    | with_reducible assumption
    | ((with_reducible refine RingSub.of ?_) ; exact rfl) | ((with_reducible refine PortSub.of ?_) ; exact rfl) | with_reducible exact PortSub.reset _
    | (intro x hx)
    | (with_reducible exact Keeps.mk (by assumption) rfl rfl rfl rfl rfl rfl rfl rfl rfl)
    | with_reducible apply keeps_State_setLoc
    | with_reducible apply Keeps.ite
    | with_reducible refine Keeps.foldl ?_ (fun s b hb => ?_)
    | split
    | (with_reducible apply Keeps.mk ; rotate_left ; iterate 9 (exact rfl))

theorem keeps_State_freeParts (a₀ : State) (s : State) (n : Nat) (hk : Keeps a₀ s) : Keeps a₀ (State.freeParts s n) := by
  unfold State.freeParts
  try dsimp only
  repeat' first
    | with_reducible assumption
    | ((with_reducible refine RingSub.of ?_) ; exact rfl) | ((with_reducible refine PortSub.of ?_) ; exact rfl) | with_reducible exact PortSub.reset _
    | (intro x hx)
    | (with_reducible exact Keeps.mk (by assumption) rfl rfl rfl rfl rfl rfl rfl rfl rfl)
    | with_reducible apply keeps_State_freePart
    | with_reducible apply Keeps.ite
    | with_reducible refine Keeps.foldl ?_ (fun s b hb => ?_)
    | split
    | (with_reducible apply Keeps.mk ; rotate_left ; iterate 9 (exact rfl))

theorem keeps_State_writeTo (a : State) (s t : State) (n part tier : Nat) (packed : Bool) (bs : List Byte)
    (he : s.writeTo n part tier packed bs = some t) (hk : Keeps a s) : Keeps a t := by
  unfold State.writeTo at he
  obtain ⟨p, -, rfl⟩ := Option.map_eq_some_iff.mp he
  apply keeps_State_setLoc
  apply keeps_State_store
  exact Keeps.mk hk rfl rfl rfl rfl rfl rfl rfl rfl rfl

theorem keeps_State_moveTo (a : State) (s t : State) (n part tier : Nat) (he : s.moveTo n part tier = some t) (hk : Keeps a s) : Keeps a t := by
  unfold State.moveTo at he
  dsimp only at he
  split at he
  · obtain rfl := Option.some.inj he
    exact hk
  · exact keeps_State_writeTo a _ t _ _ _ _ _ he (keeps_State_freePart _ _ _ _ hk)

theorem keeps_State_roomT1 (a : State) (pages k : Nat) (s : State) (hk : Keeps a s) : Keeps a (State.roomT1 pages k s) := by
  induction k generalizing s with
  | zero => exact hk
  | succ k ih =>
    unfold State.roomT1
    split
    · exact hk
    · split
      · exact hk
      · split
        · rename_i t ht
          exact ih t (keeps_State_moveTo a s t _ _ _ ht hk)
        · exact hk

theorem keeps_State_writeT1 (a₀ : State) (s : State) (n part : Nat) (packed : Bool) (bs : List Byte) (hk : Keeps a₀ s) :
    Keeps a₀ (State.writeT1 s n part packed bs) := by
  have h0 := keeps_State_freePart a₀ s n part hk
  unfold State.writeT1
  extract_lets s0
  split
  · rename_i t ht
    exact keeps_State_writeTo a₀ _ t _ _ _ _ _ ht (keeps_State_roomT1 _ _ _ _ h0)
  · exact keeps_State_setCause _ _ _ h0

theorem keeps_State_writeRaw (a₀ : State) (s : State) (n part : Nat) (bs : List Byte) (hk : Keeps a₀ s) : Keeps a₀ (State.writeRaw s n part bs) := by
  unfold State.writeRaw
  try dsimp only
  repeat' first
    | with_reducible assumption
    | ((with_reducible refine RingSub.of ?_) ; exact rfl) | ((with_reducible refine PortSub.of ?_) ; exact rfl) | with_reducible exact PortSub.reset _
    | (intro x hx)
    | (with_reducible exact Keeps.mk (by assumption) rfl rfl rfl rfl rfl rfl rfl rfl rfl)
    | with_reducible apply keeps_State_store | with_reducible apply keeps_State_writeT1
    | with_reducible apply Keeps.ite
    | with_reducible refine Keeps.foldl ?_ (fun s b hb => ?_)
    | split
    | (with_reducible apply Keeps.mk ; rotate_left ; iterate 9 (exact rfl))

theorem keeps_State_keepTail (a₀ : State) (s : State) (n : Nat) (hk : Keeps a₀ s) : Keeps a₀ (State.keepTail s n) := by
  unfold State.keepTail
  try dsimp only
  repeat' first
    | with_reducible assumption
    | ((with_reducible refine RingSub.of ?_) ; exact rfl) | ((with_reducible refine PortSub.of ?_) ; exact rfl) | with_reducible exact PortSub.reset _
    | (intro x hx)
    | (with_reducible exact Keeps.mk (by assumption) rfl rfl rfl rfl rfl rfl rfl rfl rfl)
    
    | with_reducible apply Keeps.ite
    | with_reducible refine Keeps.foldl ?_ (fun s b hb => ?_)
    | split
    | (with_reducible apply Keeps.mk ; rotate_left ; iterate 9 (exact rfl))

theorem keeps_State_writeBack (a₀ : State) (s : State) (n part : Nat) (hk : Keeps a₀ s) : Keeps a₀ (State.writeBack s n part) := by
  unfold State.writeBack
  try dsimp only
  repeat' first
    | with_reducible assumption
    | ((with_reducible refine RingSub.of ?_) ; exact rfl) | ((with_reducible refine PortSub.of ?_) ; exact rfl) | with_reducible exact PortSub.reset _
    | (intro x hx)
    | (with_reducible exact Keeps.mk (by assumption) rfl rfl rfl rfl rfl rfl rfl rfl rfl)
    | with_reducible apply keeps_State_writeT1 | with_reducible apply keeps_State_writeRaw | with_reducible apply keeps_State_keepTail
    | with_reducible apply Keeps.ite
    | with_reducible refine Keeps.foldl ?_ (fun s b hb => ?_)
    | split
    | (with_reducible apply Keeps.mk ; rotate_left ; iterate 9 (exact rfl))

theorem keeps_State_writeHist (a₀ : State) (s : State) (n : Nat) (hk : Keeps a₀ s) : Keeps a₀ (State.writeHist s n) := by
  unfold State.writeHist
  try dsimp only
  repeat' first
    | with_reducible assumption
    | ((with_reducible refine RingSub.of ?_) ; exact rfl) | ((with_reducible refine PortSub.of ?_) ; exact rfl) | with_reducible exact PortSub.reset _
    | (intro x hx)
    | (with_reducible exact Keeps.mk (by assumption) rfl rfl rfl rfl rfl rfl rfl rfl rfl)
    | with_reducible apply keeps_State_setCtx | with_reducible apply keeps_State_writeRaw
    | with_reducible apply Keeps.ite
    | with_reducible refine Keeps.foldl ?_ (fun s b hb => ?_)
    | split
    | (with_reducible apply Keeps.mk ; rotate_left ; iterate 9 (exact rfl))

theorem keeps_State_cleanItem (a₀ : State) (s : State) (n part : Nat) (out : Bool) (hk : Keeps a₀ s) : Keeps a₀ (State.cleanItem s n part out) := by
  unfold State.cleanItem
  try dsimp only
  repeat' first
    | with_reducible assumption
    | ((with_reducible refine RingSub.of ?_) ; exact rfl) | ((with_reducible refine PortSub.of ?_) ; exact rfl) | with_reducible exact PortSub.reset _
    | (intro x hx)
    | (with_reducible exact Keeps.mk (by assumption) rfl rfl rfl rfl rfl rfl rfl rfl rfl)
    | with_reducible apply keeps_State_setCtx | with_reducible apply keeps_State_setCount
    | with_reducible apply Keeps.ite
    | with_reducible refine Keeps.foldl ?_ (fun s b hb => ?_)
    | split
    | (with_reducible apply Keeps.mk ; rotate_left ; iterate 9 (exact rfl))

theorem keeps_State_evictItem (a₀ : State) (s : State) (n part : Nat) (hk : Keeps a₀ s) : Keeps a₀ (State.evictItem s n part) := by
  unfold State.evictItem
  try dsimp only
  repeat' first
    | with_reducible assumption
    | ((with_reducible refine RingSub.of ?_) ; exact rfl) | ((with_reducible refine PortSub.of ?_) ; exact rfl) | with_reducible exact PortSub.reset _
    | (intro x hx)
    | (with_reducible exact Keeps.mk (by assumption) rfl rfl rfl rfl rfl rfl rfl rfl rfl)
    | with_reducible apply keeps_State_writeBack | with_reducible apply keeps_State_cleanItem
    | with_reducible apply Keeps.ite
    | with_reducible refine Keeps.foldl ?_ (fun s b hb => ?_)
    | split
    | (with_reducible apply Keeps.mk ; rotate_left ; iterate 9 (exact rfl))

theorem keeps_State_makeRoom (a : State) (k : Nat) (tried : List (Nat × Nat)) (s : State) (hk : Keeps a s) : Keeps a (State.makeRoom k tried s) := by
  induction k generalizing s tried with
  | zero => exact hk
  | succ k ih =>
    unfold State.makeRoom
    split
    · exact hk
    · split
      · exact ih _ _ (keeps_State_evictItem _ _ _ _ hk)
      · exact hk

theorem keeps_State_trim (a : State) (s : State) (keep : List (Nat × Nat)) (hk : Keeps a s) : Keeps a (State.trim s keep) :=
  keeps_State_makeRoom _ _ _ _ hk

theorem keeps_State_touch (a₀ : State) (s : State) (n : Nat) (hk : Keeps a₀ s) : Keeps a₀ (State.touch s n) := by
  unfold State.touch
  try dsimp only
  repeat' first
    | with_reducible assumption
    | ((with_reducible refine RingSub.of ?_) ; exact rfl) | ((with_reducible refine PortSub.of ?_) ; exact rfl) | with_reducible exact PortSub.reset _
    | (intro x hx)
    | (with_reducible exact Keeps.mk (by assumption) rfl rfl rfl rfl rfl rfl rfl rfl rfl)
    | with_reducible apply keeps_State_setSlot
    | with_reducible apply Keeps.ite
    | with_reducible refine Keeps.foldl ?_ (fun s b hb => ?_)
    | split
    | (with_reducible apply Keeps.mk ; rotate_left ; iterate 9 (exact rfl))

theorem keeps_State_touchCount (a₀ : State) (s : State) (n : Nat) (hk : Keeps a₀ s) : Keeps a₀ (State.touchCount s n) := by
  unfold State.touchCount
  try dsimp only
  repeat' first
    | with_reducible assumption
    | ((with_reducible refine RingSub.of ?_) ; exact rfl) | ((with_reducible refine PortSub.of ?_) ; exact rfl) | with_reducible exact PortSub.reset _
    | (intro x hx)
    | (with_reducible exact Keeps.mk (by assumption) rfl rfl rfl rfl rfl rfl rfl rfl rfl)
    | with_reducible apply keeps_State_setCount
    | with_reducible apply Keeps.ite
    | with_reducible refine Keeps.foldl ?_ (fun s b hb => ?_)
    | split
    | (with_reducible apply Keeps.mk ; rotate_left ; iterate 9 (exact rfl))

theorem keeps_State_denseOut (a₀ : State) (s : State) (n v : Nat) (hk : Keeps a₀ s) : Keeps a₀ (State.denseOut s n v) := by
  unfold State.denseOut
  try dsimp only
  repeat' first
    | with_reducible assumption
    | ((with_reducible refine RingSub.of ?_) ; exact rfl) | ((with_reducible refine PortSub.of ?_) ; exact rfl) | with_reducible exact PortSub.reset _
    | (intro x hx)
    | (with_reducible exact Keeps.mk (by assumption) rfl rfl rfl rfl rfl rfl rfl rfl rfl)
    | with_reducible apply keeps_State_store | with_reducible apply keeps_State_freePart | with_reducible apply keeps_State_writeRaw
    | with_reducible apply Keeps.ite
    | with_reducible refine Keeps.foldl ?_ (fun s b hb => ?_)
    | split
    | (with_reducible apply Keeps.mk ; rotate_left ; iterate 9 (exact rfl))

theorem keeps_State_countToken (a₀ : State) (s : State) (n v : Nat) (hk : Keeps a₀ s) : Keeps a₀ (State.countToken s n v) := by
  unfold State.countToken
  try dsimp only
  repeat' first
    | with_reducible assumption
    | ((with_reducible refine RingSub.of ?_) ; exact rfl) | ((with_reducible refine PortSub.of ?_) ; exact rfl) | with_reducible exact PortSub.reset _
    | (intro x hx)
    | (with_reducible exact Keeps.mk (by assumption) rfl rfl rfl rfl rfl rfl rfl rfl rfl)
    | with_reducible apply keeps_State_setCount | with_reducible apply keeps_State_denseOut
    | with_reducible apply Keeps.ite
    | with_reducible refine Keeps.foldl ?_ (fun s b hb => ?_)
    | split
    | (with_reducible apply Keeps.mk ; rotate_left ; iterate 9 (exact rfl))

theorem keeps_State_putCounts (a₀ : State) (s : State) (n : Nat) (t : Tab Nat) (lost : Bool) (hk : Keeps a₀ s) : Keeps a₀ (State.putCounts s n t lost) := by
  unfold State.putCounts
  try dsimp only
  repeat' first
    | with_reducible assumption
    | ((with_reducible refine RingSub.of ?_) ; exact rfl) | ((with_reducible refine PortSub.of ?_) ; exact rfl) | with_reducible exact PortSub.reset _
    | (intro x hx)
    | (with_reducible exact Keeps.mk (by assumption) rfl rfl rfl rfl rfl rfl rfl rfl rfl)
    | with_reducible apply keeps_State_setCount | with_reducible apply keeps_State_freePart | with_reducible apply keeps_State_trim | with_reducible apply keeps_State_denseOut
    | with_reducible apply Keeps.ite
    | with_reducible refine Keeps.foldl ?_ (fun s b hb => ?_)
    | split
    | (with_reducible apply Keeps.mk ; rotate_left ; iterate 9 (exact rfl))

theorem keeps_State_repartition (a₀ : State) (s old : State) (hk : Keeps a₀ s) : Keeps a₀ (State.repartition s old) := by
  unfold State.repartition
  refine Keeps.foldl hk (fun s e hs => ?_)
  extract_lets n c mine s1
  have h1 : Keeps a₀ s1 := by
    refine Keeps.foldl hs (fun s j hj => ?_)
    extract_lets l
    exact Keeps.ite hj (keeps_State_sendTo _ _ _ _ hj)
  exact Keeps.ite h1 (keeps_State_putCounts _ _ _ _ _ h1)

theorem keeps_State_takeCounts (a₀ : State) (s : State) (h : Handle) (l : List (Nat × Nat)) (lost : Bool) (hk : Keeps a₀ s) : Keeps a₀ (State.takeCounts s h l lost) := by
  unfold State.takeCounts
  try dsimp only
  repeat' first
    | with_reducible assumption
    | ((with_reducible refine RingSub.of ?_) ; exact rfl) | ((with_reducible refine PortSub.of ?_) ; exact rfl) | with_reducible exact PortSub.reset _
    | (intro x hx)
    | (with_reducible exact Keeps.mk (by assumption) rfl rfl rfl rfl rfl rfl rfl rfl rfl)
    | with_reducible apply keeps_State_putCounts
    | with_reducible apply Keeps.ite
    | with_reducible refine Keeps.foldl ?_ (fun s b hb => ?_)
    | split
    | (with_reducible apply Keeps.mk ; rotate_left ; iterate 9 (exact rfl))

theorem keeps_State_histRecord (a₀ : State) (s : State) (n k t : Nat) (open_ : Bool) (hk : Keeps a₀ s) : Keeps a₀ (State.histRecord s n k t open_) := by
  unfold State.histRecord
  try dsimp only
  repeat' first
    | with_reducible assumption
    | ((with_reducible refine RingSub.of ?_) ; exact rfl) | ((with_reducible refine PortSub.of ?_) ; exact rfl) | with_reducible exact PortSub.reset _
    | (intro x hx)
    | (with_reducible exact Keeps.mk (by assumption) rfl rfl rfl rfl rfl rfl rfl rfl rfl)
    | with_reducible apply keeps_State_bump | with_reducible apply keeps_State_setCtx
    | with_reducible apply Keeps.ite
    | with_reducible refine Keeps.foldl ?_ (fun s b hb => ?_)
    | split
    | (with_reducible apply Keeps.mk ; rotate_left ; iterate 9 (exact rfl))

theorem keeps_State_histCommit (a₀ : State) (s : State) (n i t : Nat) (open_ : Bool) (hk : Keeps a₀ s) : Keeps a₀ (State.histCommit s n i t open_) := by
  unfold State.histCommit
  try dsimp only
  repeat' first
    | with_reducible assumption
    | ((with_reducible refine RingSub.of ?_) ; exact rfl) | ((with_reducible refine PortSub.of ?_) ; exact rfl) | with_reducible exact PortSub.reset _
    | (intro x hx)
    | (with_reducible exact Keeps.mk (by assumption) rfl rfl rfl rfl rfl rfl rfl rfl rfl)
    | with_reducible apply keeps_State_take | with_reducible apply keeps_State_setCtx | with_reducible apply keeps_State_histRecord
    | with_reducible apply Keeps.ite
    | with_reducible refine Keeps.foldl ?_ (fun s b hb => ?_)
    | split
    | (with_reducible apply Keeps.mk ; rotate_left ; iterate 9 (exact rfl))

theorem keeps_State_histApply (a₀ : State) (s : State) (n : Nat) (hk : Keeps a₀ s) : Keeps a₀ (State.histApply s n) := by
  unfold State.histApply
  try dsimp only
  repeat' first
    | with_reducible assumption
    | ((with_reducible refine RingSub.of ?_) ; exact rfl) | ((with_reducible refine PortSub.of ?_) ; exact rfl) | with_reducible exact PortSub.reset _
    | (intro x hx)
    | (with_reducible exact Keeps.mk (by assumption) rfl rfl rfl rfl rfl rfl rfl rfl rfl)
    | with_reducible apply keeps_State_setCtx | with_reducible apply keeps_State_writeHist | with_reducible apply keeps_State_histRecord
    | with_reducible apply Keeps.ite
    | with_reducible refine Keeps.foldl ?_ (fun s b hb => ?_)
    | split
    | (with_reducible apply Keeps.mk ; rotate_left ; iterate 9 (exact rfl))

theorem keeps_State_losePart (a₀ : State) (s : State) (n : Nat) (h : Handle) (part : Part) (inj : Bool) (hk : Keeps a₀ s) : Keeps a₀ (State.losePart s n h part inj) := by
  unfold State.losePart
  try dsimp only
  repeat' first
    | with_reducible assumption
    | ((with_reducible refine RingSub.of ?_) ; exact rfl) | ((with_reducible refine PortSub.of ?_) ; exact rfl) | with_reducible exact PortSub.reset _
    | (intro x hx)
    | (with_reducible exact Keeps.mk (by assumption) rfl rfl rfl rfl rfl rfl rfl rfl rfl)
    | with_reducible apply keeps_State_contained | with_reducible apply keeps_State_sendTo | with_reducible apply keeps_State_setSlot | with_reducible apply keeps_State_setCount
    | with_reducible apply Keeps.ite
    | with_reducible refine Keeps.foldl ?_ (fun s b hb => ?_)
    | split
    | (with_reducible apply Keeps.mk ; rotate_left ; iterate 9 (exact rfl))

theorem keeps_State_startFetch (a₀ : State) (s : State) (n : Nat) (p : Part) (hk : Keeps a₀ s) : Keeps a₀ (State.startFetch s n p) := by
  unfold State.startFetch
  try dsimp only
  repeat' first
    | with_reducible assumption
    | ((with_reducible refine RingSub.of ?_) ; exact rfl) | ((with_reducible refine PortSub.of ?_) ; exact rfl) | with_reducible exact PortSub.reset _
    | (intro x hx)
    | (with_reducible exact Keeps.mk (by assumption) rfl rfl rfl rfl rfl rfl rfl rfl rfl)
    
    | with_reducible apply Keeps.ite
    | with_reducible refine Keeps.foldl ?_ (fun s b hb => ?_)
    | split
    | (with_reducible apply Keeps.mk ; rotate_left ; iterate 9 (exact rfl))

theorem keeps_State_partIn (a : State) (s t : State) (n : Nat) (part : Part) (he : s.partIn n part = some t) (hk : Keeps a s) : Keeps a t := by
  have key : ∀ (s1 : State) (l : List (Nat × Nat)) (x : List (Nat × Part)), Keeps a s1 →
      (if (s1.trim l).fitsT0 then some ({ s1.trim l with fetches := x } : State) else none) = some t → Keeps a t := by
    intro s1 l x h1 h2
    split at h2
    · obtain rfl := Option.some.inj h2
      exact Keeps.mk (keeps_State_trim _ _ _ h1) rfl rfl rfl rfl rfl rfl rfl rfl rfl
    · cases h2
  unfold State.partIn at he
  cases part <;> dsimp only at he
  · exact key _ _ _ (keeps_State_setCtx _ _ _ _ hk) he
  · exact key _ _ _ (keeps_State_setCtx _ _ _ _ hk) he
  all_goals
    refine key _ _ _ ?_ he
    repeat' first
      | with_reducible assumption
      | with_reducible apply keeps_State_denseOut | with_reducible apply keeps_State_touchCount | with_reducible apply keeps_State_setCount | with_reducible apply keeps_State_histApply
      | with_reducible apply Keeps.ite

theorem keeps_State_genGone (a₀ : State) (s : State) (k g : Nat) (inj : Bool) (hk : Keeps a₀ s) : Keeps a₀ (State.genGone s k g inj) := by
  unfold State.genGone
  try dsimp only
  repeat' first
    | with_reducible assumption
    | ((with_reducible refine RingSub.of ?_) ; exact rfl) | ((with_reducible refine PortSub.of ?_) ; exact rfl) | with_reducible exact PortSub.reset _
    | (intro x hx)
    | (with_reducible exact Keeps.mk (by assumption) rfl rfl rfl rfl rfl rfl rfl rfl rfl)
    | with_reducible apply keeps_State_bcastOthers | with_reducible apply keeps_State_sendTo | with_reducible apply keeps_State_tblVanish
    | with_reducible apply Keeps.ite
    | with_reducible refine Keeps.foldl ?_ (fun s b hb => ?_)
    | split
    | (with_reducible apply Keeps.mk ; rotate_left ; iterate 9 (exact rfl))

theorem keeps_State_grammarGone (a₀ : State) (s : State) (n : Nat) (hk : Keeps a₀ s) : Keeps a₀ (State.grammarGone s n) := by
  unfold State.grammarGone
  try dsimp only
  repeat' first
    | with_reducible assumption
    | ((with_reducible refine RingSub.of ?_) ; exact rfl) | ((with_reducible refine PortSub.of ?_) ; exact rfl) | with_reducible exact PortSub.reset _
    | (intro x hx)
    | (with_reducible exact Keeps.mk (by assumption) rfl rfl rfl rfl rfl rfl rfl rfl rfl)
    | with_reducible apply keeps_State_genGone
    | with_reducible apply Keeps.ite
    | with_reducible refine Keeps.foldl ?_ (fun s b hb => ?_)
    | split
    | (with_reducible apply Keeps.mk ; rotate_left ; iterate 9 (exact rfl))

theorem keeps_State_vanishSaid (a₀ : State) (s : State) (k g : Nat) (hk : Keeps a₀ s) : Keeps a₀ (State.vanishSaid s k g) := by
  unfold State.vanishSaid
  try dsimp only
  repeat' first
    | with_reducible assumption
    | ((with_reducible refine RingSub.of ?_) ; exact rfl) | ((with_reducible refine PortSub.of ?_) ; exact rfl) | with_reducible exact PortSub.reset _
    | (intro x hx)
    | (with_reducible exact Keeps.mk (by assumption) rfl rfl rfl rfl rfl rfl rfl rfl rfl)
    | with_reducible apply keeps_State_bcastOthers | with_reducible apply keeps_State_tblVanish
    | with_reducible apply Keeps.ite
    | with_reducible refine Keeps.foldl ?_ (fun s b hb => ?_)
    | split
    | (with_reducible apply Keeps.mk ; rotate_left ; iterate 9 (exact rfl))

theorem keeps_State_fetchFails (a₀ : State) (s : State) (h : Handle) (part : Part) (inj : Bool) (hk : Keeps a₀ s) : Keeps a₀ (State.fetchFails s h part inj) := by
  unfold State.fetchFails
  try dsimp only
  repeat' first
    | with_reducible assumption
    | ((with_reducible refine RingSub.of ?_) ; exact rfl) | ((with_reducible refine PortSub.of ?_) ; exact rfl) | with_reducible exact PortSub.reset _
    | (intro x hx)
    | (with_reducible exact Keeps.mk (by assumption) rfl rfl rfl rfl rfl rfl rfl rfl rfl)
    | with_reducible apply keeps_State_setCtx | with_reducible apply keeps_State_losePart | with_reducible apply keeps_State_grammarGone
    | with_reducible apply Keeps.ite
    | with_reducible refine Keeps.foldl ?_ (fun s b hb => ?_)
    | split
    | (with_reducible apply Keeps.mk ; rotate_left ; iterate 9 (exact rfl))

theorem keeps_State_partFetched (a₀ : State) (s : State) (h : Handle) (part : Part) (ecc : Ecc) (hk : Keeps a₀ s) :
    Keeps a₀ (State.partFetched s h part ecc) := by
  unfold State.partFetched
  dsimp only
  split
  · exact hk
  · split
    · exact hk
    · rename_i t ht
      have h1 : Keeps a₀ t := keeps_State_partIn _ _ _ _ _ ht hk
      have h2 : Keeps a₀ ({ s with fetches := s.fetches.erase (h.slot, part) } : State) := Keeps.mk hk rfl rfl rfl rfl rfl rfl rfl rfl rfl
      generalize ({ s with fetches := s.fetches.erase (h.slot, part) } : State) = g at h2 ⊢
      split
      · apply keeps_State_fetchFails
        exact Keeps.ite (keeps_State_fire _ _ _ h2) (Keeps.ite (keeps_State_fire _ _ _ h2) h2)
      · exact Keeps.ite (keeps_State_corrected _ _ _ h1) (keeps_State_losePart _ _ _ _ _ _ h2)
      · exact Keeps.ite h1 (keeps_State_losePart _ _ _ _ _ _ h2)

theorem keeps_State_doubled (a₀ : State) (s : State) (n : Nat) (hk : Keeps a₀ s) : Keeps a₀ (State.doubled s n) := by
  unfold State.doubled
  try dsimp only
  repeat' first
    | with_reducible assumption
    | ((with_reducible refine RingSub.of ?_) ; exact rfl) | ((with_reducible refine PortSub.of ?_) ; exact rfl) | with_reducible exact PortSub.reset _
    | (intro x hx)
    | (with_reducible exact Keeps.mk (by assumption) rfl rfl rfl rfl rfl rfl rfl rfl rfl)
    | with_reducible apply keeps_State_setCtx | with_reducible apply keeps_State_histApply
    | with_reducible apply Keeps.ite
    | with_reducible refine Keeps.foldl ?_ (fun s b hb => ?_)
    | split
    | (with_reducible apply Keeps.mk ; rotate_left ; iterate 9 (exact rfl))

theorem keeps_State_claim (a₀ : State) (s : State) (n part len : Nat) (hk : Keeps a₀ s) : Keeps a₀ (State.claim s n part len) := by
  unfold State.claim
  try dsimp only
  repeat' first
    | with_reducible assumption
    | ((with_reducible refine RingSub.of ?_) ; exact rfl) | ((with_reducible refine PortSub.of ?_) ; exact rfl) | with_reducible exact PortSub.reset _
    | (intro x hx)
    | (with_reducible exact Keeps.mk (by assumption) rfl rfl rfl rfl rfl rfl rfl rfl rfl)
    
    | with_reducible apply Keeps.ite
    | with_reducible refine Keeps.foldl ?_ (fun s b hb => ?_)
    | split
    | (with_reducible apply Keeps.mk ; rotate_left ; iterate 9 (exact rfl))

theorem keeps_State_claimAll (a₀ : State) (s : State) (n : Nat) (hk : Keeps a₀ s) : Keeps a₀ (State.claimAll s n) := by
  unfold State.claimAll
  try dsimp only
  repeat' first
    | with_reducible assumption
    | ((with_reducible refine RingSub.of ?_) ; exact rfl) | ((with_reducible refine PortSub.of ?_) ; exact rfl) | with_reducible exact PortSub.reset _
    | (intro x hx)
    | (with_reducible exact Keeps.mk (by assumption) rfl rfl rfl rfl rfl rfl rfl rfl rfl)
    | with_reducible apply keeps_State_claim
    | with_reducible apply Keeps.ite
    | with_reducible refine Keeps.foldl ?_ (fun s b hb => ?_)
    | split
    | (with_reducible apply Keeps.mk ; rotate_left ; iterate 9 (exact rfl))

theorem keeps_State_adoptSlot (a₀ : State) (s : State) (k n : Nat) (hk : Keeps a₀ s) : Keeps a₀ (State.adoptSlot s k n) := by
  unfold State.adoptSlot
  try dsimp only
  repeat' first
    | with_reducible assumption
    | ((with_reducible refine RingSub.of ?_) ; exact rfl) | ((with_reducible refine PortSub.of ?_) ; exact rfl) | with_reducible exact PortSub.reset _
    | (intro x hx)
    | (with_reducible exact Keeps.mk (by assumption) rfl rfl rfl rfl rfl rfl rfl rfl rfl)
    | with_reducible apply keeps_State_setCtx | with_reducible apply keeps_State_setCount | with_reducible apply keeps_State_claimAll
    | with_reducible apply Keeps.ite
    | with_reducible refine Keeps.foldl ?_ (fun s b hb => ?_)
    | split
    | (with_reducible apply Keeps.mk ; rotate_left ; iterate 9 (exact rfl))

theorem keeps_State_nameDir (a₀ : State) (s : State) (hk : Keeps a₀ s) : Keeps a₀ (State.nameDir s) := by
  unfold State.nameDir
  try dsimp only
  repeat' first
    | with_reducible assumption
    | ((with_reducible refine RingSub.of ?_) ; exact rfl) | ((with_reducible refine PortSub.of ?_) ; exact rfl) | with_reducible exact PortSub.reset _
    | (intro x hx)
    | (with_reducible exact Keeps.mk (by assumption) rfl rfl rfl rfl rfl rfl rfl rfl rfl)
    | with_reducible apply keeps_State_store | with_reducible apply keeps_State_adoptSlot
    | with_reducible apply Keeps.ite
    | with_reducible refine Keeps.foldl ?_ (fun s b hb => ?_)
    | split
    | (with_reducible apply Keeps.mk ; rotate_left ; iterate 9 (exact rfl))

theorem keeps_State_holdHomed (a₀ : State) (s : State) (hk : Keeps a₀ s) : Keeps a₀ (State.holdHomed s) := by
  unfold State.holdHomed
  try dsimp only
  repeat' first
    | with_reducible assumption
    | ((with_reducible refine RingSub.of ?_) ; exact rfl) | ((with_reducible refine PortSub.of ?_) ; exact rfl) | with_reducible exact PortSub.reset _
    | (intro x hx)
    | (with_reducible exact Keeps.mk (by assumption) rfl rfl rfl rfl rfl rfl rfl rfl rfl)
    | with_reducible apply keeps_State_setSlot
    | with_reducible apply Keeps.ite
    | with_reducible refine Keeps.foldl ?_ (fun s b hb => ?_)
    | split
    | (with_reducible apply Keeps.mk ; rotate_left ; iterate 9 (exact rfl))

theorem keeps_State_warmSlot (a₀ : State) (s : State) (n : Nat) (hk : Keeps a₀ s) : Keeps a₀ (State.warmSlot s n) := by
  unfold State.warmSlot
  try dsimp only
  repeat' first
    | with_reducible assumption
    | ((with_reducible refine RingSub.of ?_) ; exact rfl) | ((with_reducible refine PortSub.of ?_) ; exact rfl) | with_reducible exact PortSub.reset _
    | (intro x hx)
    | (with_reducible exact Keeps.mk (by assumption) rfl rfl rfl rfl rfl rfl rfl rfl rfl)
    | with_reducible apply keeps_State_setCtx | with_reducible apply keeps_State_setSlot | with_reducible apply keeps_State_setCount | with_reducible apply keeps_State_cleanItem | with_reducible apply keeps_State_evictItem | with_reducible apply keeps_State_denseOut | with_reducible apply keeps_State_histApply
    | with_reducible apply Keeps.ite
    | with_reducible refine Keeps.foldl ?_ (fun s b hb => ?_)
    | split
    | (with_reducible apply Keeps.mk ; rotate_left ; iterate 9 (exact rfl))

theorem keeps_State_ctxWarm (a₀ : State) (s : State) (hk : Keeps a₀ s) : Keeps a₀ (State.ctxWarm s) := by
  unfold State.ctxWarm
  try dsimp only
  repeat' first
    | with_reducible assumption
    | ((with_reducible refine RingSub.of ?_) ; exact rfl) | ((with_reducible refine PortSub.of ?_) ; exact rfl) | with_reducible exact PortSub.reset _
    | (intro x hx)
    | (with_reducible exact Keeps.mk (by assumption) rfl rfl rfl rfl rfl rfl rfl rfl rfl)
    | with_reducible apply keeps_State_warmSlot
    | with_reducible apply Keeps.ite
    | with_reducible refine Keeps.foldl ?_ (fun s b hb => ?_)
    | split
    | (with_reducible apply Keeps.mk ; rotate_left ; iterate 9 (exact rfl))

theorem keeps_State_ctxCold (a₀ : State) (s : State) (hk : Keeps a₀ s) : Keeps a₀ (State.ctxCold s) := by
  unfold State.ctxCold
  try dsimp only
  repeat' first
    | with_reducible assumption
    | ((with_reducible refine RingSub.of ?_) ; exact rfl) | ((with_reducible refine PortSub.of ?_) ; exact rfl) | with_reducible exact PortSub.reset _
    | (intro x hx)
    | (with_reducible exact Keeps.mk (by assumption) rfl rfl rfl rfl rfl rfl rfl rfl rfl)
    
    | with_reducible apply Keeps.ite
    | with_reducible refine Keeps.foldl ?_ (fun s b hb => ?_)
    | split
    | (with_reducible apply Keeps.mk ; rotate_left ; iterate 9 (exact rfl))

theorem keeps_State_freeExpired (a₀ : State) (s : State) (n : Nat) (hk : Keeps a₀ s) : Keeps a₀ (State.freeExpired s n) := by
  unfold State.freeExpired
  try dsimp only
  repeat' first
    | with_reducible assumption
    | ((with_reducible refine RingSub.of ?_) ; exact rfl) | ((with_reducible refine PortSub.of ?_) ; exact rfl) | with_reducible exact PortSub.reset _
    | (intro x hx)
    | (with_reducible exact Keeps.mk (by assumption) rfl rfl rfl rfl rfl rfl rfl rfl rfl)
    | with_reducible apply keeps_State_delCount | with_reducible apply keeps_State_freeParts
    | with_reducible apply Keeps.ite
    | with_reducible refine Keeps.foldl ?_ (fun s b hb => ?_)
    | split
    | (with_reducible apply Keeps.mk ; rotate_left ; iterate 9 (exact rfl))

end Sys2Proof.Laws
end

