-- ==== Sys2Proof/Laws/Keeps/SyncCmds.lean ====
section
/-! SUPPORT. What the operations of Machine/SyncCmds.lean keep (Laws/Keeps/Base.lean). -/

namespace Sys2Proof.Laws

open Sys2Proof.Machine

set_option linter.unreachableTactic false
set_option linter.unusedTactic false
set_option linter.unusedVariables false

theorem keeps_syncAllocD (a : State) (o : Origin) (pk : Pkt) (s : State) (hs : s.blk = Blk.safe → syncAllocD.legal.contains Blk.safe = true) (hk : Keeps a s) : Keeps a (syncAllocD.run o pk s) := by
  simp only [syncAllocD]
  repeat' first
    | with_reducible assumption
    | ((with_reducible refine RingSub.of ?_) ; exact rfl) | ((with_reducible refine PortSub.of ?_) ; exact rfl) | with_reducible exact PortSub.reset _
    | (intro x hx)
    | (with_reducible exact Keeps.mk (by assumption) rfl rfl rfl rfl rfl rfl rfl rfl rfl)
    | with_reducible apply keeps_State_finish | with_reducible apply keeps_State_setCtr
    | with_reducible apply Keeps.ite
    | with_reducible refine Keeps.foldl ?_ (fun s b hb => ?_)
    | split
    | (with_reducible apply Keeps.mk ; rotate_left ; iterate 9 (exact rfl))

theorem keeps_syncFreeD (a : State) (o : Origin) (pk : Pkt) (s : State) (hs : s.blk = Blk.safe → syncFreeD.legal.contains Blk.safe = true) (hk : Keeps a s) : Keeps a (syncFreeD.run o pk s) := by
  simp only [syncFreeD]
  repeat' first
    | with_reducible assumption
    | ((with_reducible refine RingSub.of ?_) ; exact rfl) | ((with_reducible refine PortSub.of ?_) ; exact rfl) | with_reducible exact PortSub.reset _
    | (intro x hx)
    | (with_reducible exact Keeps.mk (by assumption) rfl rfl rfl rfl rfl rfl rfl rfl rfl)
    | with_reducible apply keeps_State_finish | with_reducible apply keeps_State_ctrFree
    | with_reducible apply Keeps.ite
    | with_reducible refine Keeps.foldl ?_ (fun s b hb => ?_)
    | split
    | (with_reducible apply Keeps.mk ; rotate_left ; iterate 9 (exact rfl))

theorem keeps_syncSetD (a : State) (o : Origin) (pk : Pkt) (s : State) (hs : s.blk = Blk.safe → syncSetD.legal.contains Blk.safe = true) (hk : Keeps a s) : Keeps a (syncSetD.run o pk s) := by
  simp only [syncSetD]
  repeat' first
    | with_reducible assumption
    | ((with_reducible refine RingSub.of ?_) ; exact rfl) | ((with_reducible refine PortSub.of ?_) ; exact rfl) | with_reducible exact PortSub.reset _
    | (intro x hx)
    | (with_reducible exact Keeps.mk (by assumption) rfl rfl rfl rfl rfl rfl rfl rfl rfl)
    | with_reducible apply keeps_State_finish | with_reducible apply keeps_State_ctrSet
    | with_reducible apply Keeps.ite
    | with_reducible refine Keeps.foldl ?_ (fun s b hb => ?_)
    | split
    | (with_reducible apply Keeps.mk ; rotate_left ; iterate 9 (exact rfl))

theorem keeps_syncAddD (a : State) (o : Origin) (pk : Pkt) (s : State) (hs : s.blk = Blk.safe → syncAddD.legal.contains Blk.safe = true) (hk : Keeps a s) : Keeps a (syncAddD.run o pk s) := by
  simp only [syncAddD]
  repeat' first
    | with_reducible assumption
    | ((with_reducible refine RingSub.of ?_) ; exact rfl) | ((with_reducible refine PortSub.of ?_) ; exact rfl) | with_reducible exact PortSub.reset _
    | (intro x hx)
    | (with_reducible exact Keeps.mk (by assumption) rfl rfl rfl rfl rfl rfl rfl rfl rfl)
    | with_reducible apply keeps_State_finish | with_reducible apply keeps_State_ctrSet
    | with_reducible apply Keeps.ite
    | with_reducible refine Keeps.foldl ?_ (fun s b hb => ?_)
    | split
    | (with_reducible apply Keeps.mk ; rotate_left ; iterate 9 (exact rfl))

theorem keeps_syncReadD (a : State) (o : Origin) (pk : Pkt) (s : State) (hs : s.blk = Blk.safe → syncReadD.legal.contains Blk.safe = true) (hk : Keeps a s) : Keeps a (syncReadD.run o pk s) := by
  simp only [syncReadD]
  repeat' first
    | with_reducible assumption
    | ((with_reducible refine RingSub.of ?_) ; exact rfl) | ((with_reducible refine PortSub.of ?_) ; exact rfl) | with_reducible exact PortSub.reset _
    | (intro x hx)
    | (with_reducible exact Keeps.mk (by assumption) rfl rfl rfl rfl rfl rfl rfl rfl rfl)
    | with_reducible apply keeps_State_finish
    | with_reducible apply Keeps.ite
    | with_reducible refine Keeps.foldl ?_ (fun s b hb => ?_)
    | split
    | (with_reducible apply Keeps.mk ; rotate_left ; iterate 9 (exact rfl))

theorem keeps_syncWaitD (a : State) (o : Origin) (pk : Pkt) (s : State) (hs : s.blk = Blk.safe → syncWaitD.legal.contains Blk.safe = true) (hk : Keeps a s) : Keeps a (syncWaitD.run o pk s) := by
  simp only [syncWaitD]
  repeat' first
    | with_reducible assumption
    | ((with_reducible refine RingSub.of ?_) ; exact rfl) | ((with_reducible refine PortSub.of ?_) ; exact rfl) | with_reducible exact PortSub.reset _
    | (intro x hx)
    | (with_reducible exact Keeps.mk (by assumption) rfl rfl rfl rfl rfl rfl rfl rfl rfl)
    | with_reducible apply keeps_State_finish | with_reducible apply keeps_State_sleepRing | with_reducible apply keeps_State_setCtr
    | with_reducible apply Keeps.ite
    | with_reducible refine Keeps.foldl ?_ (fun s b hb => ?_)
    | split
    | (with_reducible apply Keeps.mk ; rotate_left ; iterate 9 (exact rfl))

theorem keeps_syncSignalD (a : State) (o : Origin) (pk : Pkt) (s : State) (hs : s.blk = Blk.safe → syncSignalD.legal.contains Blk.safe = true) (hk : Keeps a s) : Keeps a (syncSignalD.run o pk s) := by
  simp only [syncSignalD]
  repeat' first
    | with_reducible assumption
    | ((with_reducible refine RingSub.of ?_) ; exact rfl) | ((with_reducible refine PortSub.of ?_) ; exact rfl) | with_reducible exact PortSub.reset _
    | (intro x hx)
    | (with_reducible exact Keeps.mk (by assumption) rfl rfl rfl rfl rfl rfl rfl rfl rfl)
    | with_reducible apply keeps_State_sendTo | with_reducible apply keeps_State_addJob
    | with_reducible apply Keeps.ite
    | with_reducible refine Keeps.foldl ?_ (fun s b hb => ?_)
    | split
    | (with_reducible apply Keeps.mk ; rotate_left ; iterate 9 (exact rfl))

theorem keeps_syncBarrierD (a : State) (o : Origin) (pk : Pkt) (s : State) (hs : s.blk = Blk.safe → syncBarrierD.legal.contains Blk.safe = true) (hk : Keeps a s) : Keeps a (syncBarrierD.run o pk s) := by
  simp only [syncBarrierD]
  repeat' first
    | with_reducible assumption
    | ((with_reducible refine RingSub.of ?_) ; exact rfl) | ((with_reducible refine PortSub.of ?_) ; exact rfl) | with_reducible exact PortSub.reset _
    | (intro x hx)
    | (with_reducible exact Keeps.mk (by assumption) rfl rfl rfl rfl rfl rfl rfl rfl rfl)
    | with_reducible apply keeps_State_barEnter
    | with_reducible apply Keeps.ite
    | with_reducible refine Keeps.foldl ?_ (fun s b hb => ?_)
    | split
    | (with_reducible apply Keeps.mk ; rotate_left ; iterate 9 (exact rfl))

theorem keeps_syncSemacqD (a : State) (o : Origin) (pk : Pkt) (s : State) (hs : s.blk = Blk.safe → syncSemacqD.legal.contains Blk.safe = true) (hk : Keeps a s) : Keeps a (syncSemacqD.run o pk s) := by
  simp only [syncSemacqD]
  repeat' first
    | with_reducible assumption
    | ((with_reducible refine RingSub.of ?_) ; exact rfl) | ((with_reducible refine PortSub.of ?_) ; exact rfl) | with_reducible exact PortSub.reset _
    | (intro x hx)
    | (with_reducible exact Keeps.mk (by assumption) rfl rfl rfl rfl rfl rfl rfl rfl rfl)
    | with_reducible apply keeps_State_finish | with_reducible apply keeps_State_sleepRing | with_reducible apply keeps_State_setSem
    | with_reducible apply Keeps.ite
    | with_reducible refine Keeps.foldl ?_ (fun s b hb => ?_)
    | split
    | (with_reducible apply Keeps.mk ; rotate_left ; iterate 9 (exact rfl))

theorem keeps_syncSemrelD (a : State) (o : Origin) (pk : Pkt) (s : State) (hs : s.blk = Blk.safe → syncSemrelD.legal.contains Blk.safe = true) (hk : Keeps a s) : Keeps a (syncSemrelD.run o pk s) := by
  simp only [syncSemrelD]
  repeat' first
    | with_reducible assumption
    | ((with_reducible refine RingSub.of ?_) ; exact rfl) | ((with_reducible refine PortSub.of ?_) ; exact rfl) | with_reducible exact PortSub.reset _
    | (intro x hx)
    | (with_reducible exact Keeps.mk (by assumption) rfl rfl rfl rfl rfl rfl rfl rfl rfl)
    | with_reducible apply keeps_State_finish | with_reducible apply keeps_State_semRelease
    | with_reducible apply Keeps.ite
    | with_reducible refine Keeps.foldl ?_ (fun s b hb => ?_)
    | split
    | (with_reducible apply Keeps.mk ; rotate_left ; iterate 9 (exact rfl))

theorem keeps_State_passOn (a₀ : State) (s : State) (h : Hdr) (b : Body) (hk : Keeps a₀ s) : Keeps a₀ (State.passOn s h b) := by
  unfold State.passOn
  try dsimp only
  repeat' first
    | with_reducible assumption
    | ((with_reducible refine RingSub.of ?_) ; exact rfl) | ((with_reducible refine PortSub.of ?_) ; exact rfl) | with_reducible exact PortSub.reset _
    | (intro x hx)
    | (with_reducible exact Keeps.mk (by assumption) rfl rfl rfl rfl rfl rfl rfl rfl rfl)
    | with_reducible apply keeps_State_sendMsg | with_reducible apply keeps_State_bcast | with_reducible apply keeps_State_bcastOthers
    | with_reducible apply Keeps.ite
    | with_reducible refine Keeps.foldl ?_ (fun s b hb => ?_)
    | split
    | (with_reducible apply Keeps.mk ; rotate_left ; iterate 9 (exact rfl))

theorem keeps_State_onSignal (a₀ : State) (s : State) (h : Hdr) (b : SignalB) (hk : Keeps a₀ s) : Keeps a₀ (State.onSignal s h b) := by
  unfold State.onSignal
  try dsimp only
  repeat' first
    | with_reducible assumption
    | ((with_reducible refine RingSub.of ?_) ; exact rfl) | ((with_reducible refine PortSub.of ?_) ; exact rfl) | with_reducible exact PortSub.reset _
    | (intro x hx)
    | (with_reducible exact Keeps.mk (by assumption) rfl rfl rfl rfl rfl rfl rfl rfl rfl)
    | with_reducible apply keeps_State_sendTo | with_reducible apply keeps_State_endJobs | with_reducible apply keeps_State_ctrSet | with_reducible apply keeps_State_passOn
    | with_reducible apply Keeps.ite
    | with_reducible refine Keeps.foldl ?_ (fun s b hb => ?_)
    | split
    | (with_reducible apply Keeps.mk ; rotate_left ; iterate 9 (exact rfl))

theorem keeps_State_signalGone (a₀ : State) (s : State) (stag : Nat) (hk : Keeps a₀ s) : Keeps a₀ (State.signalGone s stag) := by
  unfold State.signalGone
  try dsimp only
  repeat' first
    | with_reducible assumption
    | ((with_reducible refine RingSub.of ?_) ; exact rfl) | ((with_reducible refine PortSub.of ?_) ; exact rfl) | with_reducible exact PortSub.reset _
    | (intro x hx)
    | (with_reducible exact Keeps.mk (by assumption) rfl rfl rfl rfl rfl rfl rfl rfl rfl)
    | with_reducible apply keeps_State_endJobs
    | with_reducible apply Keeps.ite
    | with_reducible refine Keeps.foldl ?_ (fun s b hb => ?_)
    | split
    | (with_reducible apply Keeps.mk ; rotate_left ; iterate 9 (exact rfl))

theorem keeps_State_waitGone (a₀ : State) (s : State) (r : RingRef) (hk : Keeps a₀ s) : Keeps a₀ (State.waitGone s r) := by
  unfold State.waitGone
  try dsimp only
  repeat' first
    | with_reducible assumption
    | ((with_reducible refine RingSub.of ?_) ; exact rfl) | ((with_reducible refine PortSub.of ?_) ; exact rfl) | with_reducible exact PortSub.reset _
    | (intro x hx)
    | (with_reducible exact Keeps.mk (by assumption) rfl rfl rfl rfl rfl rfl rfl rfl rfl)
    | with_reducible apply keeps_State_finishSleeper
    | with_reducible apply Keeps.ite
    | with_reducible refine Keeps.foldl ?_ (fun s b hb => ?_)
    | split
    | (with_reducible apply Keeps.mk ; rotate_left ; iterate 9 (exact rfl))

theorem keeps_ctlSound (a₀ : State) (h : Hdr) (act : State → State) (s : State) (hact : ∀ x : State, Keeps a₀ x → Keeps a₀ (act x)) (hk : Keeps a₀ s) : Keeps a₀ (ctlSound h act s) := by
  unfold ctlSound
  try dsimp only
  repeat' first
    | with_reducible assumption
    | ((with_reducible refine RingSub.of ?_) ; exact rfl) | ((with_reducible refine PortSub.of ?_) ; exact rfl) | with_reducible exact PortSub.reset _
    | (intro x hx)
    | (with_reducible exact Keeps.mk (by assumption) rfl rfl rfl rfl rfl rfl rfl rfl rfl)
    | apply hact
    | with_reducible apply keeps_State_contained
    | with_reducible apply Keeps.ite
    | with_reducible refine Keeps.foldl ?_ (fun s b hb => ?_)
    | split
    | (with_reducible apply Keeps.mk ; rotate_left ; iterate 9 (exact rfl))

end Sys2Proof.Laws
end

