-- ==== Sys2Proof/Laws/Keeps/Repairs.lean ====
section
/-! SUPPORT. What the operations of Machine/Repairs.lean keep (Laws/Keeps/Base.lean). -/

namespace Sys2Proof.Laws

open Sys2Proof.Machine

set_option linter.unreachableTactic false
set_option linter.unusedTactic false
set_option linter.unusedVariables false

theorem keeps_State_repair (a₀ : State) (s : State) (u : Unit') (hk : Keeps a₀ s) : Keeps a₀ (State.repair s u) := by
  unfold State.repair
  try dsimp only
  repeat' first
    | with_reducible assumption
    | ((with_reducible refine RingSub.of ?_) ; exact rfl) | ((with_reducible refine PortSub.of ?_) ; exact rfl) | with_reducible exact PortSub.reset _
    | (intro x hx)
    | (with_reducible exact Keeps.mk (by assumption) rfl rfl rfl rfl rfl rfl rfl rfl rfl)
    | with_reducible apply keeps_State_bump | with_reducible apply keeps_State_setCause | with_reducible apply keeps_State_setFault | with_reducible apply keeps_State_fatal
    | with_reducible apply Keeps.ite
    | with_reducible refine Keeps.foldl ?_ (fun s b hb => ?_)
    | split
    | (with_reducible apply Keeps.mk ; rotate_left ; iterate 9 (exact rfl))

theorem keeps_State_scheduleRepair (a₀ : State) (s : State) (u : Unit') (hk : Keeps a₀ s) : Keeps a₀ (State.scheduleRepair s u) := by
  unfold State.scheduleRepair
  try dsimp only
  repeat' first
    | with_reducible assumption
    | ((with_reducible refine RingSub.of ?_) ; exact rfl) | ((with_reducible refine PortSub.of ?_) ; exact rfl) | with_reducible exact PortSub.reset _
    | (intro x hx)
    | (with_reducible exact Keeps.mk (by assumption) rfl rfl rfl rfl rfl rfl rfl rfl rfl)
    | with_reducible apply keeps_State_repair
    | with_reducible apply Keeps.ite
    | with_reducible refine Keeps.foldl ?_ (fun s b hb => ?_)
    | split
    | (with_reducible apply Keeps.mk ; rotate_left ; iterate 9 (exact rfl))

theorem keeps_State_unitFault (a₀ : State) (s : State) (u : Unit') (c : Nat) (x : Site) (hk : Keeps a₀ s) : Keeps a₀ (State.unitFault s u c x) := by
  unfold State.unitFault
  try dsimp only
  repeat' first
    | with_reducible assumption
    | ((with_reducible refine RingSub.of ?_) ; exact rfl) | ((with_reducible refine PortSub.of ?_) ; exact rfl) | with_reducible exact PortSub.reset _
    | (intro x hx)
    | (with_reducible exact Keeps.mk (by assumption) rfl rfl rfl rfl rfl rfl rfl rfl rfl)
    | with_reducible apply keeps_State_contained | with_reducible apply keeps_State_unitEvent | with_reducible apply keeps_State_fatal | with_reducible apply keeps_State_scheduleRepair
    | with_reducible apply Keeps.ite
    | with_reducible refine Keeps.foldl ?_ (fun s b hb => ?_)
    | split
    | (with_reducible apply Keeps.mk ; rotate_left ; iterate 9 (exact rfl))

theorem keeps_State_sramError (a₀ : State) (s : State) (u : Unit') (hk : Keeps a₀ s) : Keeps a₀ (State.sramError s u) := by
  unfold State.sramError
  try dsimp only
  repeat' first
    | with_reducible assumption
    | ((with_reducible refine RingSub.of ?_) ; exact rfl) | ((with_reducible refine PortSub.of ?_) ; exact rfl) | with_reducible exact PortSub.reset _
    | (intro x hx)
    | (with_reducible exact Keeps.mk (by assumption) rfl rfl rfl rfl rfl rfl rfl rfl rfl)
    | with_reducible apply keeps_State_corrected | with_reducible apply keeps_State_scheduleRepair
    | with_reducible apply Keeps.ite
    | with_reducible refine Keeps.foldl ?_ (fun s b hb => ?_)
    | split
    | (with_reducible apply Keeps.mk ; rotate_left ; iterate 9 (exact rfl))

theorem keeps_State_unitBoundary (a : State) (s : State) (hk : Keeps a s) : Keeps a (State.unitBoundary s) := by
  unfold State.unitBoundary
  extract_lets sched rp s1 s2
  have h2 : Keeps a s2 := by
    refine Keeps.foldl (x := s1) ?_ (fun s b hb => keeps_State_repair a s b hb)
    exact Keeps.mk hk rfl rfl rfl rfl rfl rfl rfl rfl rfl
  clear_value s2
  unfold State.takeFree
  split
  · exact h2
  · exact Keeps.mk h2 rfl rfl rfl rfl rfl rfl rfl rfl rfl
  · exact Keeps.mk h2 rfl rfl rfl rfl rfl rfl rfl rfl rfl

theorem keeps_repairLoadD (a : State) (o : Origin) (pk : Pkt) (s : State) (hs : s.blk = Blk.safe → repairLoadD.legal.contains Blk.safe = true) (hk : Keeps a s) : Keeps a (repairLoadD.run o pk s) := by
  simp only [repairLoadD]
  repeat' first
    | with_reducible assumption
    | ((with_reducible refine RingSub.of ?_) ; exact rfl) | ((with_reducible refine PortSub.of ?_) ; exact rfl) | with_reducible exact PortSub.reset _
    | (intro x hx)
    | (with_reducible exact Keeps.mk (by assumption) rfl rfl rfl rfl rfl rfl rfl rfl rfl)
    | with_reducible apply keeps_State_finish
    | with_reducible apply Keeps.ite
    | with_reducible refine Keeps.foldl ?_ (fun s b hb => ?_)
    | split
    | (with_reducible apply Keeps.mk ; rotate_left ; iterate 9 (exact rfl))

theorem keeps_repairCommitD (a : State) (o : Origin) (pk : Pkt) (s : State) (hs : s.blk = Blk.safe → repairCommitD.legal.contains Blk.safe = true) (hk : Keeps a s) : Keeps a (repairCommitD.run o pk s) := by
  simp only [repairCommitD]
  repeat' first
    | with_reducible assumption
    | ((with_reducible refine RingSub.of ?_) ; exact rfl) | ((with_reducible refine PortSub.of ?_) ; exact rfl) | with_reducible exact PortSub.reset _
    | (intro x hx)
    | (with_reducible exact Keeps.mk (by assumption) rfl rfl rfl rfl rfl rfl rfl rfl rfl)
    | with_reducible apply keeps_State_finish
    | with_reducible apply Keeps.ite
    | with_reducible refine Keeps.foldl ?_ (fun s b hb => ?_)
    | split
    | (with_reducible apply Keeps.mk ; rotate_left ; iterate 9 (exact rfl))

theorem keeps_repairQueryD (a : State) (o : Origin) (pk : Pkt) (s : State) (hs : s.blk = Blk.safe → repairQueryD.legal.contains Blk.safe = true) (hk : Keeps a s) : Keeps a (repairQueryD.run o pk s) := by
  simp only [repairQueryD]
  repeat' first
    | with_reducible assumption
    | ((with_reducible refine RingSub.of ?_) ; exact rfl) | ((with_reducible refine PortSub.of ?_) ; exact rfl) | with_reducible exact PortSub.reset _
    | (intro x hx)
    | (with_reducible exact Keeps.mk (by assumption) rfl rfl rfl rfl rfl rfl rfl rfl rfl)
    | with_reducible apply keeps_State_storeWords | with_reducible apply keeps_State_finish
    | with_reducible apply Keeps.ite
    | with_reducible refine Keeps.foldl ?_ (fun s b hb => ?_)
    | split
    | (with_reducible apply Keeps.mk ; rotate_left ; iterate 9 (exact rfl))

theorem keeps_repairCalD (a : State) (o : Origin) (pk : Pkt) (s : State) (hs : s.blk = Blk.safe → repairCalD.legal.contains Blk.safe = true) (hk : Keeps a s) : Keeps a (repairCalD.run o pk s) := by
  simp only [repairCalD]
  repeat' first
    | with_reducible assumption
    | ((with_reducible refine RingSub.of ?_) ; exact rfl) | ((with_reducible refine PortSub.of ?_) ; exact rfl) | with_reducible exact PortSub.reset _
    | (intro x hx)
    | (with_reducible exact Keeps.mk (by assumption) rfl rfl rfl rfl rfl rfl rfl rfl rfl)
    | with_reducible apply keeps_State_finish
    | with_reducible apply Keeps.ite
    | with_reducible refine Keeps.foldl ?_ (fun s b hb => ?_)
    | split
    | (with_reducible apply Keeps.mk ; rotate_left ; iterate 9 (exact rfl))

theorem keeps_State_endDiagPass (a₀ : State) (s : State) (hk : Keeps a₀ s) : Keeps a₀ (State.endDiagPass s) := by
  unfold State.endDiagPass
  try dsimp only
  repeat' first
    | with_reducible assumption
    | ((with_reducible refine RingSub.of ?_) ; exact rfl) | ((with_reducible refine PortSub.of ?_) ; exact rfl) | with_reducible exact PortSub.reset _
    | (intro x hx)
    | (with_reducible exact Keeps.mk (by assumption) rfl rfl rfl rfl rfl rfl rfl rfl rfl)
    | with_reducible apply keeps_State_endJobs
    | with_reducible apply Keeps.ite
    | with_reducible refine Keeps.foldl ?_ (fun s b hb => ?_)
    | split
    | (with_reducible apply Keeps.mk ; rotate_left ; iterate 9 (exact rfl))

theorem keeps_State_slice (a₀ : State) (s : State) (u : Unit') (fail : Bool) (hk : Keeps a₀ s) : Keeps a₀ (State.slice s u fail) := by
  unfold State.slice
  try dsimp only
  repeat' first
    | with_reducible assumption
    | ((with_reducible refine RingSub.of ?_) ; exact rfl) | ((with_reducible refine PortSub.of ?_) ; exact rfl) | with_reducible exact PortSub.reset _
    | (intro x hx)
    | (with_reducible exact Keeps.mk (by assumption) rfl rfl rfl rfl rfl rfl rfl rfl rfl)
    | with_reducible apply keeps_State_scheduleRepair | with_reducible apply keeps_State_endDiagPass
    | with_reducible apply Keeps.ite
    | with_reducible refine Keeps.foldl ?_ (fun s b hb => ?_)
    | split
    | (with_reducible apply Keeps.mk ; rotate_left ; iterate 9 (exact rfl))

theorem keeps_diagInjectD (a : State) (o : Origin) (pk : Pkt) (s : State) (hs : s.blk = Blk.safe → diagInjectD.legal.contains Blk.safe = true) (hk : Keeps a s) : Keeps a (diagInjectD.run o pk s) := by
  simp only [diagInjectD]
  repeat' first
    | with_reducible assumption
    | ((with_reducible refine RingSub.of ?_) ; exact rfl) | ((with_reducible refine PortSub.of ?_) ; exact rfl) | with_reducible exact PortSub.reset _
    | (intro x hx)
    | (with_reducible exact Keeps.mk (by assumption) rfl rfl rfl rfl rfl rfl rfl rfl rfl)
    | with_reducible apply keeps_State_finish
    | with_reducible apply Keeps.ite
    | with_reducible refine Keeps.foldl ?_ (fun s b hb => ?_)
    | split
    | (with_reducible apply Keeps.mk ; rotate_left ; iterate 9 (exact rfl))

theorem keeps_diagSelftestD (a : State) (o : Origin) (pk : Pkt) (s : State) (hs : s.blk = Blk.safe → diagSelftestD.legal.contains Blk.safe = true) (hk : Keeps a s) : Keeps a (diagSelftestD.run o pk s) := by
  simp only [diagSelftestD]
  repeat' first
    | with_reducible assumption
    | ((with_reducible refine RingSub.of ?_) ; exact rfl) | ((with_reducible refine PortSub.of ?_) ; exact rfl) | with_reducible exact PortSub.reset _
    | (intro x hx)
    | (with_reducible exact Keeps.mk (by assumption) rfl rfl rfl rfl rfl rfl rfl rfl rfl)
    | with_reducible apply keeps_State_addJob | with_reducible apply keeps_State_endDiagPass
    | with_reducible apply Keeps.ite
    | with_reducible refine Keeps.foldl ?_ (fun s b hb => ?_)
    | split
    | (with_reducible apply Keeps.mk ; rotate_left ; iterate 9 (exact rfl))

theorem keeps_diagSnapD (a : State) (o : Origin) (pk : Pkt) (s : State) (hs : s.blk = Blk.safe → diagSnapD.legal.contains Blk.safe = true) (hk : Keeps a s) : Keeps a (diagSnapD.run o pk s) := by
  simp only [diagSnapD]
  repeat' first
    | with_reducible assumption
    | ((with_reducible refine RingSub.of ?_) ; exact rfl) | ((with_reducible refine PortSub.of ?_) ; exact rfl) | with_reducible exact PortSub.reset _
    | (intro x hx)
    | (with_reducible exact Keeps.mk (by assumption) rfl rfl rfl rfl rfl rfl rfl rfl rfl)
    | with_reducible apply keeps_State_storeWords | with_reducible apply keeps_State_finish
    | with_reducible apply Keeps.ite
    | with_reducible refine Keeps.foldl ?_ (fun s b hb => ?_)
    | split
    | (with_reducible apply Keeps.mk ; rotate_left ; iterate 9 (exact rfl))

theorem keeps_diagTraceD (a : State) (o : Origin) (pk : Pkt) (s : State) (hs : s.blk = Blk.safe → diagTraceD.legal.contains Blk.safe = true) (hk : Keeps a s) : Keeps a (diagTraceD.run o pk s) := by
  simp only [diagTraceD]
  repeat' first
    | with_reducible assumption
    | ((with_reducible refine RingSub.of ?_) ; exact rfl) | ((with_reducible refine PortSub.of ?_) ; exact rfl) | with_reducible exact PortSub.reset _
    | (intro x hx)
    | (with_reducible exact Keeps.mk (by assumption) rfl rfl rfl rfl rfl rfl rfl rfl rfl)
    | with_reducible apply keeps_State_finish
    | with_reducible apply Keeps.ite
    | with_reducible refine Keeps.foldl ?_ (fun s b hb => ?_)
    | split
    | (with_reducible apply Keeps.mk ; rotate_left ; iterate 9 (exact rfl))

end Sys2Proof.Laws
end

