-- ==== Sys2Proof/Laws/Keeps/Dump.lean ====
section
/-! SUPPORT. What the operations of Machine/Dump.lean keep (Laws/Keeps/Base.lean). -/

namespace Sys2Proof.Laws

open Sys2Proof.Machine

set_option linter.unreachableTactic false
set_option linter.unusedTactic false
set_option linter.unusedVariables false

theorem keeps_State_windEnd (a : State) (s : State) (err : Bool) (hk : Keeps a s) : Keeps a (s.windEnd err) := by
  unfold State.windEnd
  split
  · exact hk
  · extract_lets k w0 w1 s1 s2 s3
    have h1 : Keeps a s1 := by
      show Keeps a (if err then _ else _)
      refine Keeps.ite ?_ ?_
      · with_reducible apply keeps_State_storeWords
        exact Keeps.mk hk rfl rfl rfl rfl rfl rfl rfl rfl rfl
      · split
        with_reducible apply keeps_State_storeWords
        with_reducible apply keeps_State_storeWords
        exact Keeps.mk hk rfl rfl rfl rfl rfl rfl rfl rfl rfl
    have h2 : Keeps a s2 := keeps_State_setCause _ _ _ h1
    clear_value s2
    split
    · rename_i hb
      exact keeps_State_endJobs _ _ _ _ (Keeps.toBlk h2 (by rw [hb]; decide) .ready)
    · exact h2

theorem keeps_dumpConfigD (a : State) (o : Origin) (pk : Pkt) (s : State) (hs : s.blk = Blk.safe → dumpConfigD.legal.contains Blk.safe = true) (hk : Keeps a s) : Keeps a (dumpConfigD.run o pk s) := by
  simp only [dumpConfigD]
  repeat' first
    | with_reducible assumption
    | ((with_reducible refine RingSub.of ?_) ; exact rfl) | ((with_reducible refine PortSub.of ?_) ; exact rfl) | with_reducible exact PortSub.reset _
    | (intro x hx)
    | (with_reducible exact Keeps.mk (by assumption) rfl rfl rfl rfl rfl rfl rfl rfl rfl)
    | with_reducible apply keeps_State_finish
    | with_reducible apply Keeps.ite
    | with_reducible refine Keeps.foldl ?_ (fun s b hb => ?_)
    | split
    | (with_reducible apply Keeps.mk ; rotate_left ; iterate 9 (exact rfl))

theorem keeps_dumpStatusD (a : State) (o : Origin) (pk : Pkt) (s : State) (hs : s.blk = Blk.safe → dumpStatusD.legal.contains Blk.safe = true) (hk : Keeps a s) : Keeps a (dumpStatusD.run o pk s) := by
  simp only [dumpStatusD]
  repeat' first
    | with_reducible assumption
    | ((with_reducible refine RingSub.of ?_) ; exact rfl) | ((with_reducible refine PortSub.of ?_) ; exact rfl) | with_reducible exact PortSub.reset _
    | (intro x hx)
    | (with_reducible exact Keeps.mk (by assumption) rfl rfl rfl rfl rfl rfl rfl rfl rfl)
    | with_reducible apply keeps_State_finish
    | with_reducible apply Keeps.ite
    | with_reducible refine Keeps.foldl ?_ (fun s b hb => ?_)
    | split
    | (with_reducible apply Keeps.mk ; rotate_left ; iterate 9 (exact rfl))

theorem keeps_dumpTakeD (a : State) (o : Origin) (pk : Pkt) (s : State) (hs : s.blk = Blk.safe → dumpTakeD.legal.contains Blk.safe = true) (hk : Keeps a s) : Keeps a (dumpTakeD.run o pk s) := by
  have hb : s.blk ≠ Blk.safe := fun h => absurd (hs h) (by decide)
  simp only [dumpTakeD]
  refine Keeps.ite ?_ ?_
  · exact keeps_State_finish _ _ _ _ (keeps_State_windStart _ _ _ _ _ hk)
  · exact keeps_State_addJob _ _ _ (keeps_State_windStart _ _ _ _ _ (Keeps.toBlk hk hb .dump))

theorem keeps_dumpAckD (a : State) (o : Origin) (pk : Pkt) (s : State) (hs : s.blk = Blk.safe → dumpAckD.legal.contains Blk.safe = true) (hk : Keeps a s) : Keeps a (dumpAckD.run o pk s) := by
  simp only [dumpAckD]
  repeat' first
    | with_reducible assumption
    | ((with_reducible refine RingSub.of ?_) ; exact rfl) | ((with_reducible refine PortSub.of ?_) ; exact rfl) | with_reducible exact PortSub.reset _
    | (intro x hx)
    | (with_reducible exact Keeps.mk (by assumption) rfl rfl rfl rfl rfl rfl rfl rfl rfl)
    | with_reducible apply keeps_State_storeWords | with_reducible apply keeps_State_finish
    | with_reducible apply Keeps.ite
    | with_reducible refine Keeps.foldl ?_ (fun s b hb => ?_)
    | split
    | (with_reducible apply Keeps.mk ; rotate_left ; iterate 9 (exact rfl))

end Sys2Proof.Laws
end

