-- ==== Sys2Proof/Laws/Keeps/Profiles.lean ====
section
/-! SUPPORT. What the operations of Machine/Profiles.lean keep (Laws/Keeps/Base.lean). -/

namespace Sys2Proof.Laws

open Sys2Proof.Machine

set_option linter.unreachableTactic false
set_option linter.unusedTactic false
set_option linter.unusedVariables false

theorem keeps_State_storeGen (a₀ : State) (s : State) (n g : Nat) (recs : Tab ProfRec) (hk : Keeps a₀ s) : Keeps a₀ (State.storeGen s n g recs) := by
  unfold State.storeGen
  try dsimp only
  repeat' first
    | with_reducible assumption
    | ((with_reducible refine RingSub.of ?_) ; exact rfl) | ((with_reducible refine PortSub.of ?_) ; exact rfl) | with_reducible exact PortSub.reset _
    | (intro x hx)
    | (with_reducible exact Keeps.mk (by assumption) rfl rfl rfl rfl rfl rfl rfl rfl rfl)
    | with_reducible apply keeps_State_storeWords
    | with_reducible apply Keeps.ite
    | with_reducible refine Keeps.foldl ?_ (fun s b hb => ?_)
    | split
    | (with_reducible apply Keeps.mk ; rotate_left ; iterate 9 (exact rfl))

theorem keeps_State_nameProfs (a₀ : State) (s : State) (hk : Keeps a₀ s) : Keeps a₀ (State.nameProfs s) := by
  unfold State.nameProfs
  try dsimp only
  repeat' first
    | with_reducible assumption
    | ((with_reducible refine RingSub.of ?_) ; exact rfl) | ((with_reducible refine PortSub.of ?_) ; exact rfl) | with_reducible exact PortSub.reset _
    | (intro x hx)
    | (with_reducible exact Keeps.mk (by assumption) rfl rfl rfl rfl rfl rfl rfl rfl rfl)
    | with_reducible apply keeps_State_store
    | with_reducible apply Keeps.ite
    | with_reducible refine Keeps.foldl ?_ (fun s b hb => ?_)
    | split
    | (with_reducible apply Keeps.mk ; rotate_left ; iterate 9 (exact rfl))

theorem keeps_profWriteD (a : State) (o : Origin) (pk : Pkt) (s : State) (hs : s.blk = Blk.safe → profWriteD.legal.contains Blk.safe = true) (hk : Keeps a s) : Keeps a (profWriteD.run o pk s) := by
  simp only [profWriteD]
  repeat' first
    | with_reducible assumption
    | ((with_reducible refine RingSub.of ?_) ; exact rfl) | ((with_reducible refine PortSub.of ?_) ; exact rfl) | with_reducible exact PortSub.reset _
    | (intro x hx)
    | (with_reducible exact Keeps.mk (by assumption) rfl rfl rfl rfl rfl rfl rfl rfl rfl)
    | with_reducible apply keeps_State_finish | with_reducible apply keeps_State_take | with_reducible apply keeps_State_tellMembers | with_reducible apply keeps_State_setProf | with_reducible apply keeps_State_storeGen
    | with_reducible apply Keeps.ite
    | with_reducible refine Keeps.foldl ?_ (fun s b hb => ?_)
    | split
    | (with_reducible apply Keeps.mk ; rotate_left ; iterate 9 (exact rfl))

theorem keeps_profSwapD (a : State) (o : Origin) (pk : Pkt) (s : State) (hs : s.blk = Blk.safe → profSwapD.legal.contains Blk.safe = true) (hk : Keeps a s) : Keeps a (profSwapD.run o pk s) := by
  simp only [profSwapD]
  repeat' first
    | with_reducible assumption
    | ((with_reducible refine RingSub.of ?_) ; exact rfl) | ((with_reducible refine PortSub.of ?_) ; exact rfl) | with_reducible exact PortSub.reset _
    | (intro x hx)
    | (with_reducible exact Keeps.mk (by assumption) rfl rfl rfl rfl rfl rfl rfl rfl rfl)
    | with_reducible apply keeps_State_finish | with_reducible apply keeps_State_tellMembers | with_reducible apply keeps_State_logSwap | with_reducible apply keeps_State_setProf
    | with_reducible apply Keeps.ite
    | with_reducible refine Keeps.foldl ?_ (fun s b hb => ?_)
    | split
    | (with_reducible apply Keeps.mk ; rotate_left ; iterate 9 (exact rfl))

theorem keeps_profReadD (a : State) (o : Origin) (pk : Pkt) (s : State) (hs : s.blk = Blk.safe → profReadD.legal.contains Blk.safe = true) (hk : Keeps a s) : Keeps a (profReadD.run o pk s) := by
  simp only [profReadD]
  repeat' first
    | with_reducible assumption
    | ((with_reducible refine RingSub.of ?_) ; exact rfl) | ((with_reducible refine PortSub.of ?_) ; exact rfl) | with_reducible exact PortSub.reset _
    | (intro x hx)
    | (with_reducible exact Keeps.mk (by assumption) rfl rfl rfl rfl rfl rfl rfl rfl rfl)
    | with_reducible apply keeps_State_storeWords | with_reducible apply keeps_State_finish
    | with_reducible apply Keeps.ite
    | with_reducible refine Keeps.foldl ?_ (fun s b hb => ?_)
    | split
    | (with_reducible apply Keeps.mk ; rotate_left ; iterate 9 (exact rfl))

end Sys2Proof.Laws
end

