-- ==== Sys2Proof/Laws/Keeps/Resets.lean ====
section
/-! SUPPORT. What the operations of Machine/Resets.lean keep (Laws/Keeps/Base.lean). -/

namespace Sys2Proof.Laws

open Sys2Proof.Machine

set_option linter.unreachableTactic false
set_option linter.unusedTactic false
set_option linter.unusedVariables false

theorem keeps_State_bootImage (a : State) (s : State) (hb : s.blk ≠ Blk.safe) (hk : Keeps a s) : Keeps a s.bootImage := by
  unfold State.bootImage
  split
  · exact Keeps.mkBlk hk rfl rfl rfl rfl rfl hb rfl rfl rfl
  · exact Keeps.mk hk rfl rfl rfl rfl rfl rfl rfl rfl rfl

theorem keeps_State_go (a : State) (s : State) (hk : Keeps a s) : Keeps a s.go := by
  unfold State.go
  split
  · rename_i h
    exact keeps_State_bootImage _ _ (by rw [h.1]; decide) hk
  · exact hk

theorem keeps_State_bootRepair (a₀ : State) (s : State) (u : Unit') (hk : Keeps a₀ s) : Keeps a₀ (State.bootRepair s u) := by
  unfold State.bootRepair
  try dsimp only
  repeat' first
    | with_reducible assumption
    | ((with_reducible refine RingSub.of ?_) ; exact rfl) | ((with_reducible refine PortSub.of ?_) ; exact rfl) | with_reducible exact PortSub.reset _
    | (intro x hx)
    | (with_reducible exact Keeps.mk (by assumption) rfl rfl rfl rfl rfl rfl rfl rfl rfl)
    | with_reducible apply keeps_State_repair
    | with_reducible apply Keeps.ite
    | with_reducible refine Keeps.foldl ?_ (fun s b hb => ?_)
    | split
    | (with_reducible apply Keeps.mk ; rotate_left ; iterate 9 (exact rfl))

theorem keeps_State_ownState (a₀ : State) (s : State) (st : Nat) (hk : Keeps a₀ s) : Keeps a₀ (State.ownState s st) := by
  unfold State.ownState
  try dsimp only
  repeat' first
    | with_reducible assumption
    | ((with_reducible refine RingSub.of ?_) ; exact rfl) | ((with_reducible refine PortSub.of ?_) ; exact rfl) | with_reducible exact PortSub.reset _
    | (intro x hx)
    | (with_reducible exact Keeps.mk (by assumption) rfl rfl rfl rfl rfl rfl rfl rfl rfl)
    
    | with_reducible apply Keeps.ite
    | with_reducible refine Keeps.foldl ?_ (fun s b hb => ?_)
    | split
    | (with_reducible apply Keeps.mk ; rotate_left ; iterate 9 (exact rfl))

theorem keeps_State_selftested (a : State) (s : State) (failed : List Unit') (hk : Keeps a s) : Keeps a (s.selftested failed) := by
  unfold State.selftested
  have h1 : Keeps a ((sortBy unitLt failed).foldl (fun s u => s.bootRepair u) s) :=
    Keeps.foldl hk (fun s b hb => keeps_State_bootRepair _ _ _ hb)
  generalize (sortBy unitLt failed).foldl (fun s u => s.bootRepair u) s = s1 at h1 ⊢
  dsimp only
  split
  · exact h1
  · rename_i hb
    have hb : s1.blk = Blk.selftest := Decidable.of_not_not hb
    refine keeps_State_ownState _ _ _ (keeps_State_unitBoundary _ _ ?_)
    exact Keeps.mkBlk h1 rfl rfl rfl rfl rfl (by rw [hb]; decide) rfl rfl rfl

theorem keeps_State_voidHomed (a₀ : State) (s : State) (hk : Keeps a₀ s) : Keeps a₀ (State.voidHomed s) := by
  unfold State.voidHomed
  try dsimp only
  repeat' first
    | with_reducible assumption
    | ((with_reducible refine RingSub.of ?_) ; exact rfl) | ((with_reducible refine PortSub.of ?_) ; exact rfl) | with_reducible exact PortSub.reset _
    | (intro x hx)
    | (with_reducible exact Keeps.mk (by assumption) rfl rfl rfl rfl rfl rfl rfl rfl rfl)
    | with_reducible apply keeps_State_voidRow | with_reducible apply keeps_State_dropCommits
    | with_reducible apply Keeps.ite
    | with_reducible refine Keeps.foldl ?_ (fun s b hb => ?_)
    | split
    | (with_reducible apply Keeps.mk ; rotate_left ; iterate 9 (exact rfl))

theorem keeps_State_quarantine (a : State) (s : State) (hk : Keeps a s) : Keeps a s.quarantine := by
  have h1 : Keeps a (s.voidHomed).pump := keeps_State_pump _ _ (keeps_State_voidHomed _ _ hk)
  unfold State.quarantine
  generalize (s.voidHomed).pump = s1 at h1 ⊢
  obtain ⟨p1, p2, p3, p4, p5, p6, p7⟩ := h1
  exact ⟨p1, p2, p3, fun _ => rfl, p5, p6, fun _ => ⟨fun _ _ ho => (nomatch ho), fun _ _ ho => (nomatch ho)⟩⟩

/-- What a cold reset keeps: the queue, the canonical form of memory, and a fault log within its bound. -/
theorem coldReset_keeps (s : State) :
    s.coldReset.pending = s.pending ∧ (s.mem.wf → s.coldReset.mem.wf) ∧ s.coldReset.faults.log.length ≤ 256 ∧ Fresh s.coldReset := by
  have h1 : Keeps s ((if s.faults.holdOpen then s.holdHomed else s).ctxCold) :=
    keeps_State_ctxCold _ _ (Keeps.ite (keeps_State_holdHomed _ _ (Keeps.refl s)) (Keeps.refl s))
  unfold State.coldReset
  extract_lets s0 s1 r x1 x2 t t1
  have ht : t.pending = s.pending ∧ (s.mem.wf → t.mem.wf) ∧ t.faults.log.length ≤ 256 ∧ Fresh t :=
    ⟨rfl, h1.2.1, Nat.zero_le 256, fun _ _ ho => (nomatch ho), fun _ _ ho => (nomatch ho)⟩
  clear_value t
  have h2 : Keeps t t1 := keeps_State_bumpN _ _ _ _ (Keeps.refl t)
  have h3 : ∀ u, Keeps t u → u.pending = s.pending ∧ (s.mem.wf → u.mem.wf) ∧ u.faults.log.length ≤ 256 ∧ Fresh u :=
    fun u hu => ⟨hu.1.trans ht.1, fun h => hu.2.1 (ht.2.1 h), hu.2.2.1 ht.2.2.1, hu.2.2.2.2.2.2 ht.2.2.2⟩
  clear_value t1
  split
  · exact h3 _ h2
  · exact h3 _ (keeps_State_fatal _ _ _ _ (Keeps.mk h2 rfl rfl rfl rfl rfl rfl rfl rfl rfl))

/-- What a warm reset keeps. -/
theorem warmReset_keeps (s : State) :
    s.warmReset.pending = s.pending ∧ (s.mem.wf → s.warmReset.mem.wf) ∧ s.warmReset.faults.log.length ≤ 256 ∧ Fresh s.warmReset := by
  have h1 : Keeps s ((if s.faults.holdOpen then s.holdHomed else s).ctxWarm) :=
    keeps_State_ctxWarm _ _ (Keeps.ite (keeps_State_holdHomed _ _ (Keeps.refl s)) (Keeps.refl s))
  unfold State.warmReset
  extract_lets s0 s1 r x1 x2 t
  have ht : t.pending = s.pending ∧ (s.mem.wf → t.mem.wf) ∧ t.faults.log.length ≤ 256 ∧ t.blk = Blk.boot ∧ Fresh t :=
    ⟨rfl, h1.2.1, Nat.zero_le 256, rfl, fun _ _ ho => (nomatch ho), fun _ _ ho => (nomatch ho)⟩
  clear_value t
  have h2 : Keeps t ((t.ownState 0).bootImage) :=
    keeps_State_bootImage _ _ (by show t.blk ≠ _; rw [ht.2.2.2.1]; decide) (keeps_State_ownState _ _ _ (Keeps.refl t))
  exact ⟨h2.1.trans ht.1, fun h => h2.2.1 (ht.2.1 h), h2.2.2.1 ht.2.2.1, h2.2.2.2.2.2.2 ht.2.2.2.2⟩

end Sys2Proof.Laws
end

