-- ==== Sys2Proof/Laws/Keeps/RegWrite.lean ====
section
/-! SUPPORT. What the operations of Machine/RegWrite.lean keep (Laws/Keeps/Base.lean). -/

namespace Sys2Proof.Laws

open Sys2Proof.Machine

set_option linter.unreachableTactic false
set_option linter.unusedTactic false
set_option linter.unusedVariables false

theorem keeps_State_writePort (a₀ : State) (s : State) (p : PortId) (off size : Nat) (v : W64) (hk : Keeps a₀ s) : Keeps a₀ (State.writePort s p off size v) := by
  unfold State.writePort
  try dsimp only
  repeat' first
    | with_reducible assumption
    | ((with_reducible refine RingSub.of ?_) ; exact rfl) | ((with_reducible refine PortSub.of ?_) ; exact rfl) | with_reducible exact PortSub.reset _
    | (intro x hx)
    | (with_reducible exact Keeps.mk (by assumption) rfl rfl rfl rfl rfl rfl rfl rfl rfl)
    | with_reducible apply keeps_State_setPort | with_reducible apply keeps_State_setRing | with_reducible apply keeps_State_writeTail | with_reducible apply keeps_State_writeHead | with_reducible apply keeps_State_writeRctl | with_reducible apply keeps_State_clearInt | with_reducible apply keeps_State_clearCqPend | with_reducible apply keeps_State_writeRoute
    | with_reducible apply Keeps.ite
    | with_reducible refine Keeps.foldl ?_ (fun s b hb => ?_)
    | split
    | (with_reducible apply Keeps.mk ; rotate_left ; iterate 9 (exact rfl))

theorem keeps_State_writeSem (a₀ : State) (s : State) (who : Requester) (n : Nat) (v : Word) (hk : Keeps a₀ s) : Keeps a₀ (State.writeSem s who n v) := by
  unfold State.writeSem
  try dsimp only
  repeat' first
    | with_reducible assumption
    | ((with_reducible refine RingSub.of ?_) ; exact rfl) | ((with_reducible refine PortSub.of ?_) ; exact rfl) | with_reducible exact PortSub.reset _
    | (intro x hx)
    | (with_reducible exact Keeps.mk (by assumption) rfl rfl rfl rfl rfl rfl rfl rfl rfl)
    | with_reducible apply keeps_State_setSem | with_reducible apply keeps_State_semReqBy | with_reducible apply keeps_State_semRelBy
    | with_reducible apply Keeps.ite
    | with_reducible refine Keeps.foldl ?_ (fun s b hb => ?_)
    | split
    | (with_reducible apply Keeps.mk ; rotate_left ; iterate 9 (exact rfl))

theorem keepsAll_warmReset (a s : State) (h : KeepsAll a s) : KeepsAll a s.warmReset := by
  obtain ⟨p1, p2, p3, p4⟩ := warmReset_keeps s
  exact h.trans ⟨p1, p2, fun _ => p3, fun _ => p4⟩

theorem keepsAll_writeRst (a s : State) (v : Word) (h : KeepsAll a s) : KeepsAll a (s.writeRst v) := by
  have hr : ∀ (x : State) (p : PortId), KeepsAll a x → KeepsAll a (x.resetPort p) := fun x p hx =>
    hx.trans (keeps_State_resetPort _ _ _ (Keeps.refl x)).all
  unfold State.writeRst
  refine KeepsAll.ite h (KeepsAll.ite (KeepsAll.ite h (h.trans (keeps_State_quarantine _ _ (Keeps.refl s)).all)) ?_)
  refine KeepsAll.ite (keepsAll_warmReset _ _ h) (KeepsAll.ite h ?_)
  exact KeepsAll.ite (hr _ _ (KeepsAll.ite (hr _ _ h) h)) (KeepsAll.ite (hr _ _ h) h)

theorem keepsAll_writeShared (a s : State) (who : Requester) (off size : Nat) (v : W64) (h : KeepsAll a s) :
    KeepsAll a (s.writeShared who off size v) := by
  have hk : ∀ x : State, Keeps s x → KeepsAll a x := fun x hx => h.trans hx.all
  unfold State.writeShared
  refine KeepsAll.ite (hk _ (keeps_semWrite _ _ _ _ (fun x hx => keeps_State_writeSem _ _ _ _ _ hx) (Keeps.refl s))) ?_
  refine KeepsAll.ite (keepsAll_writeRst _ _ _ h) ?_
  refine KeepsAll.ite (hk _ (Keeps.mk (Keeps.refl s) rfl rfl rfl rfl rfl rfl rfl rfl rfl)) ?_
  refine KeepsAll.ite (hk _ (Keeps.mk (Keeps.refl s) rfl rfl rfl rfl rfl rfl rfl rfl rfl)) ?_
  refine KeepsAll.ite (KeepsAll.ite (hk _ (keeps_State_go _ _ (Keeps.refl s))) h) ?_
  refine KeepsAll.ite (hk _ (Keeps.mk (Keeps.refl s) rfl rfl rfl rfl rfl rfl rfl rfl rfl)) ?_
  exact KeepsAll.ite (hk _ (keeps_State_writeDbgEn _ _ _ (Keeps.refl s))) h

theorem keeps_State_writeDebug (a₀ : State) (s : State) (off size : Nat) (v : W64) (hk : Keeps a₀ s) : Keeps a₀ (State.writeDebug s off size v) := by
  unfold State.writeDebug
  try dsimp only
  repeat' first
    | with_reducible assumption
    | ((with_reducible refine RingSub.of ?_) ; exact rfl) | ((with_reducible refine PortSub.of ?_) ; exact rfl) | with_reducible exact PortSub.reset _
    | (intro x hx)
    | (with_reducible exact Keeps.mk (by assumption) rfl rfl rfl rfl rfl rfl rfl rfl rfl)
    | with_reducible apply keeps_State_dbgPurge | with_reducible apply keeps_State_dbgFlush | with_reducible apply keeps_State_dbgCntval | with_reducible apply keeps_State_dbgSem | with_reducible apply keeps_State_dbgCtl
    | with_reducible apply Keeps.ite
    | with_reducible refine Keeps.foldl ?_ (fun s b hb => ?_)
    | split
    | (with_reducible apply Keeps.mk ; rotate_left ; iterate 9 (exact rfl))

theorem keepsAll_writeAt (a s : State) (who : Requester) (addr size : Nat) (v : W64) (h : KeepsAll a s) :
    KeepsAll a (s.writeAt who addr size v) := by
  have hk : ∀ x : State, Keeps s x → KeepsAll a x := fun x hx => h.trans hx.all
  unfold State.writeAt
  dsimp only
  split
  · exact keepsAll_writeShared _ _ _ _ _ _ h
  · exact hk _ (keeps_debugWrite _ _ _ (fun x hx => keeps_State_writeDebug _ _ _ _ _ hx) (Keeps.refl s))
  · exact hk _ (keeps_State_writePort _ _ _ _ _ _ (Keeps.refl s))
  · exact hk _ (keeps_State_writePort _ _ _ _ _ _ (Keeps.refl s))
  · exact h

theorem keepsAll_writeAccess (a s : State) (who : Requester) (addr size : Nat) (v : W64) (h : KeepsAll a s) :
    KeepsAll a (s.writeAccess who addr size v) := by
  unfold State.writeAccess
  refine KeepsAll.ite ?_ (keepsAll_writeAt _ _ _ _ _ _ h)
  have h1 : KeepsAll a (if regDefined addr then s.writeAt who addr 4 (put64 0 v false 4) else s) :=
    KeepsAll.ite (keepsAll_writeAt _ _ _ _ _ _ h) h
  exact KeepsAll.ite (keepsAll_writeAt _ _ _ _ _ _ h1) h1

theorem keepsAll_regWrite (a s : State) (p : PortId) (addr size : Nat) (v : W64) (h : KeepsAll a s) :
    KeepsAll a (s.regWrite p addr size v) := by
  have hk : ∀ x : State, Keeps s x → KeepsAll a x := fun x hx => h.trans hx.all
  unfold State.regWrite
  refine KeepsAll.ite h (KeepsAll.ite h (KeepsAll.ite h ?_))
  refine KeepsAll.ite (hk _ (keeps_State_badAccess _ _ _ (Keeps.refl s))) ?_
  exact KeepsAll.ite (hk _ (keeps_State_xwrite _ _ _ (Keeps.refl s))) (keepsAll_writeAccess _ _ _ _ _ _ h)

theorem keeps_State_tapRead (a s : State) (addr size : Nat) (hk : Keeps a s) : Keeps a (s.tapRead addr size).2 := by
  have hl : ∀ d : Debug, Keeps a { s with dbg := d } := fun d => Keeps.mk hk rfl rfl rfl rfl rfl rfl rfl rfl rfl
  unfold State.tapRead
  split
  · exact hk
  dsimp only
  split
  · exact hk
  split
  · exact hl _
  split
  · split
    · exact hl _
    · exact hk
  · exact hk

theorem keeps_State_trAdvance (a₀ : State) (s : State) (addr size : Nat) (hk : Keeps a₀ s) : Keeps a₀ (State.trAdvance s addr size) := by
  unfold State.trAdvance
  try dsimp only
  repeat' first
    | with_reducible assumption
    | ((with_reducible refine RingSub.of ?_) ; exact rfl) | ((with_reducible refine PortSub.of ?_) ; exact rfl) | with_reducible exact PortSub.reset _
    | (intro x hx)
    | (with_reducible exact Keeps.mk (by assumption) rfl rfl rfl rfl rfl rfl rfl rfl rfl)
    
    | with_reducible apply Keeps.ite
    | with_reducible refine Keeps.foldl ?_ (fun s b hb => ?_)
    | split
    | (with_reducible apply Keeps.mk ; rotate_left ; iterate 9 (exact rfl))

theorem keepsAll_regacc (a s : State) (tdr : Nat) (h : KeepsAll a s) : KeepsAll a (s.regacc tdr) := by
  have hs : ∀ (x : State) (n v : Nat), KeepsAll a x → KeepsAll a (x.setTdr n v) := fun x n v hx =>
    hx.trans (keeps_State_setTdr _ _ _ _ (Keeps.refl x)).all
  unfold State.regacc
  extract_lets addr size v done
  split
  · exact hs _ _ _ (KeepsAll.ite h (keepsAll_writeAccess _ _ _ _ _ _ h))
  · exact hs _ _ _ (h.trans (keeps_State_trAdvance _ _ _ _ (keeps_State_tapRead _ _ _ _ (Keeps.refl s))).all)

end Sys2Proof.Laws
end

