-- ==== Sys2Proof/Laws/Keeps/Punnets.lean ====
section
/-! SUPPORT. What the operations of Machine/Punnets.lean keep (Laws/Keeps/Base.lean). -/

namespace Sys2Proof.Laws

open Sys2Proof.Machine

set_option linter.unreachableTactic false
set_option linter.unusedTactic false
set_option linter.unusedVariables false

theorem keeps_State_rowMsg (a₀ : State) (s : State) (m : Msg) (act : State → State) (hact : ∀ x : State, Keeps a₀ x → Keeps a₀ (act x)) (hk : Keeps a₀ s) : Keeps a₀ (State.rowMsg s m act) := by
  unfold State.rowMsg
  try dsimp only
  repeat' first
    | with_reducible assumption
    | ((with_reducible refine RingSub.of ?_) ; exact rfl) | ((with_reducible refine PortSub.of ?_) ; exact rfl) | with_reducible exact PortSub.reset _
    | (intro x hx)
    | (with_reducible exact Keeps.mk (by assumption) rfl rfl rfl rfl rfl rfl rfl rfl rfl)
    | apply hact
    | with_reducible apply keeps_State_bump | with_reducible apply keeps_State_contained | with_reducible apply keeps_State_doubtAt
    | with_reducible apply Keeps.ite
    | with_reducible refine Keeps.foldl ?_ (fun s b hb => ?_)
    | split
    | (with_reducible apply Keeps.mk ; rotate_left ; iterate 9 (exact rfl))

theorem keeps_State_updRow (a₀ : State) (s : State) (num slot : Nat) (f : PRow → PRow) (hk : Keeps a₀ s) : Keeps a₀ (State.updRow s num slot f) := by
  unfold State.updRow
  try dsimp only
  repeat' first
    | with_reducible assumption
    | ((with_reducible refine RingSub.of ?_) ; exact rfl) | ((with_reducible refine PortSub.of ?_) ; exact rfl) | with_reducible exact PortSub.reset _
    | (intro x hx)
    | (with_reducible exact Keeps.mk (by assumption) rfl rfl rfl rfl rfl rfl rfl rfl rfl)
    
    | with_reducible apply Keeps.ite
    | with_reducible refine Keeps.foldl ?_ (fun s b hb => ?_)
    | split
    | (with_reducible apply Keeps.mk ; rotate_left ; iterate 9 (exact rfl))

theorem keeps_State_updPun (a₀ : State) (s : State) (num : Nat) (f : Punnet → Punnet) (hk : Keeps a₀ s) : Keeps a₀ (State.updPun s num f) := by
  unfold State.updPun
  try dsimp only
  repeat' first
    | with_reducible assumption
    | ((with_reducible refine RingSub.of ?_) ; exact rfl) | ((with_reducible refine PortSub.of ?_) ; exact rfl) | with_reducible exact PortSub.reset _
    | (intro x hx)
    | (with_reducible exact Keeps.mk (by assumption) rfl rfl rfl rfl rfl rfl rfl rfl rfl)
    
    | with_reducible apply Keeps.ite
    | with_reducible refine Keeps.foldl ?_ (fun s b hb => ?_)
    | split
    | (with_reducible apply Keeps.mk ; rotate_left ; iterate 9 (exact rfl))

theorem keeps_State_reserveAgain (a₀ : State) (s : State) (hk : Keeps a₀ s) : Keeps a₀ (State.reserveAgain s) := by
  unfold State.reserveAgain
  try dsimp only
  repeat' first
    | with_reducible assumption
    | ((with_reducible refine RingSub.of ?_) ; exact rfl) | ((with_reducible refine PortSub.of ?_) ; exact rfl) | with_reducible exact PortSub.reset _
    | (intro x hx)
    | (with_reducible exact Keeps.mk (by assumption) rfl rfl rfl rfl rfl rfl rfl rfl rfl)
    
    | with_reducible apply Keeps.ite
    | with_reducible refine Keeps.foldl ?_ (fun s b hb => ?_)
    | split
    | (with_reducible apply Keeps.mk ; rotate_left ; iterate 9 (exact rfl))

theorem keeps_State_takePend (a₀ : State) (s : State) (hk : Keeps a₀ s) : Keeps a₀ (State.takePend s) := by
  unfold State.takePend
  try dsimp only
  repeat' first
    | with_reducible assumption
    | ((with_reducible refine RingSub.of ?_) ; exact rfl) | ((with_reducible refine PortSub.of ?_) ; exact rfl) | with_reducible exact PortSub.reset _
    | (intro x hx)
    | (with_reducible exact Keeps.mk (by assumption) rfl rfl rfl rfl rfl rfl rfl rfl rfl)
    | with_reducible apply keeps_State_logSwap | with_reducible apply keeps_State_putSet | with_reducible apply keeps_State_reserveAgain
    | with_reducible apply Keeps.ite
    | with_reducible refine Keeps.foldl ?_ (fun s b hb => ?_)
    | split
    | (with_reducible apply Keeps.mk ; rotate_left ; iterate 9 (exact rfl))

theorem keeps_State_takeDue (a₀ : State) (s : State) (num : Nat) (hk : Keeps a₀ s) : Keeps a₀ (State.takeDue s num) := by
  unfold State.takeDue
  try dsimp only
  repeat' first
    | with_reducible assumption
    | ((with_reducible refine RingSub.of ?_) ; exact rfl) | ((with_reducible refine PortSub.of ?_) ; exact rfl) | with_reducible exact PortSub.reset _
    | (intro x hx)
    | (with_reducible exact Keeps.mk (by assumption) rfl rfl rfl rfl rfl rfl rfl rfl rfl)
    | with_reducible apply keeps_State_putSet
    | with_reducible apply Keeps.ite
    | with_reducible refine Keeps.foldl ?_ (fun s b hb => ?_)
    | split
    | (with_reducible apply Keeps.mk ; rotate_left ; iterate 9 (exact rfl))

theorem keeps_State_replaceAtBoundary (a₀ : State) (s : State) (u : Unit') (hk : Keeps a₀ s) : Keeps a₀ (State.replaceAtBoundary s u) := by
  unfold State.replaceAtBoundary
  try dsimp only
  repeat' first
    | with_reducible assumption
    | ((with_reducible refine RingSub.of ?_) ; exact rfl) | ((with_reducible refine PortSub.of ?_) ; exact rfl) | with_reducible exact PortSub.reset _
    | (intro x hx)
    | (with_reducible exact Keeps.mk (by assumption) rfl rfl rfl rfl rfl rfl rfl rfl rfl)
    | with_reducible apply keeps_State_fatal
    | with_reducible apply Keeps.ite
    | with_reducible refine Keeps.foldl ?_ (fun s b hb => ?_)
    | split
    | (with_reducible apply Keeps.mk ; rotate_left ; iterate 9 (exact rfl))

theorem keeps_State_checkFails (a₀ : State) (s : State) (u : Unit') (cause : Nat) (hk : Keeps a₀ s) : Keeps a₀ (State.checkFails s u cause) := by
  unfold State.checkFails
  try dsimp only
  repeat' first
    | with_reducible assumption
    | ((with_reducible refine RingSub.of ?_) ; exact rfl) | ((with_reducible refine PortSub.of ?_) ; exact rfl) | with_reducible exact PortSub.reset _
    | (intro x hx)
    | (with_reducible exact Keeps.mk (by assumption) rfl rfl rfl rfl rfl rfl rfl rfl rfl)
    | with_reducible apply keeps_State_contained | with_reducible apply keeps_State_doubtAt
    | with_reducible apply Keeps.ite
    | with_reducible refine Keeps.foldl ?_ (fun s b hb => ?_)
    | split
    | (with_reducible apply Keeps.mk ; rotate_left ; iterate 9 (exact rfl))

theorem keeps_State_healthCheck (a₀ : State) (s : State) (target cause : Nat) (hk : Keeps a₀ s) : Keeps a₀ (State.healthCheck s target cause) := by
  unfold State.healthCheck
  try dsimp only
  repeat' first
    | with_reducible assumption
    | ((with_reducible refine RingSub.of ?_) ; exact rfl) | ((with_reducible refine PortSub.of ?_) ; exact rfl) | with_reducible exact PortSub.reset _
    | (intro x hx)
    | (with_reducible exact Keeps.mk (by assumption) rfl rfl rfl rfl rfl rfl rfl rfl rfl)
    | with_reducible apply keeps_State_fire | with_reducible apply keeps_State_replaceAtBoundary | with_reducible apply keeps_State_checkFails
    | with_reducible apply Keeps.ite
    | with_reducible refine Keeps.foldl ?_ (fun s b hb => ?_)
    | split
    | (with_reducible apply Keeps.mk ; rotate_left ; iterate 9 (exact rfl))

theorem keeps_State_boundary (a₀ : State) (s : State) (num : Nat) (b : CloseB) (hk : Keeps a₀ s) : Keeps a₀ (State.boundary s num b) := by
  unfold State.boundary
  try dsimp only
  repeat' first
    | with_reducible assumption
    | ((with_reducible refine RingSub.of ?_) ; exact rfl) | ((with_reducible refine PortSub.of ?_) ; exact rfl) | with_reducible exact PortSub.reset _
    | (intro x hx)
    | (with_reducible exact Keeps.mk (by assumption) rfl rfl rfl rfl rfl rfl rfl rfl rfl)
    | with_reducible apply keeps_State_banksBoundary | with_reducible apply keeps_State_bankSwitch | with_reducible apply keeps_State_unitBoundary | with_reducible apply keeps_State_reserveAgain | with_reducible apply keeps_State_takeDue | with_reducible apply keeps_State_healthCheck
    | with_reducible apply Keeps.ite
    | with_reducible refine Keeps.foldl ?_ (fun s b hb => ?_)
    | split
    | (with_reducible apply Keeps.mk ; rotate_left ; iterate 9 (exact rfl))

theorem keeps_State_placeOne (a : State) (s : State) (num : Nat) (epochs : List Half) (c : CloseRow) (hk : Keeps a s) :
    Keeps a (s.placeOne num epochs c).1 := by
  unfold State.placeOne
  dsimp only
  split
  · split
    · exact hk
    · have h1 := keeps_State_updRow a s ‹Nat› (‹PRow›).slot (fun r => { r with exited := true }) hk
      exact Keeps.mk h1 rfl rfl rfl rfl rfl rfl rfl rfl rfl
  · have h1 := keeps_State_moveGrammar a s c.handle.slot c.tseq hk
    exact Keeps.mk h1 rfl rfl rfl rfl rfl rfl rfl rfl rfl

theorem keeps_State_placeAll (a : State) (num : Nat) (epochs : List Half) (l : List CloseRow) (s : State) (hk : Keeps a s) :
    Keeps a (State.placeAll num epochs l s).1 := by
  induction l generalizing s with
  | nil => exact hk
  | cons c r ih => exact ih _ (keeps_State_placeOne a s num epochs c hk)

theorem keeps_State_placeFault (a₀ : State) (s : State) (num : Nat) (r : PRow) (hk : Keeps a₀ s) : Keeps a₀ (State.placeFault s num r) := by
  unfold State.placeFault
  try dsimp only
  repeat' first
    | with_reducible assumption
    | ((with_reducible refine RingSub.of ?_) ; exact rfl) | ((with_reducible refine PortSub.of ?_) ; exact rfl) | with_reducible exact PortSub.reset _
    | (intro x hx)
    | (with_reducible exact Keeps.mk (by assumption) rfl rfl rfl rfl rfl rfl rfl rfl rfl)
    | with_reducible apply keeps_State_contained
    | with_reducible apply Keeps.ite
    | with_reducible refine Keeps.foldl ?_ (fun s b hb => ?_)
    | split
    | (with_reducible apply Keeps.mk ; rotate_left ; iterate 9 (exact rfl))

theorem keeps_State_startFetches (a₀ : State) (s : State) (r : PRow) (hk : Keeps a₀ s) : Keeps a₀ (State.startFetches s r) := by
  unfold State.startFetches
  try dsimp only
  repeat' first
    | with_reducible assumption
    | ((with_reducible refine RingSub.of ?_) ; exact rfl) | ((with_reducible refine PortSub.of ?_) ; exact rfl) | with_reducible exact PortSub.reset _
    | (intro x hx)
    | (with_reducible exact Keeps.mk (by assumption) rfl rfl rfl rfl rfl rfl rfl rfl rfl)
    | with_reducible apply keeps_State_touchCount | with_reducible apply keeps_State_startFetch
    | with_reducible apply Keeps.ite
    | with_reducible refine Keeps.foldl ?_ (fun s b hb => ?_)
    | split
    | (with_reducible apply Keeps.mk ; rotate_left ; iterate 9 (exact rfl))

theorem keeps_State_formPunnet (a₀ : State) (s : State) (num : Nat) (b : CloseB) (hk : Keeps a₀ s) : Keeps a₀ (State.formPunnet s num b) := by
  unfold State.formPunnet
  try dsimp only
  repeat' first
    | with_reducible assumption
    | ((with_reducible refine RingSub.of ?_) ; exact rfl) | ((with_reducible refine PortSub.of ?_) ; exact rfl) | with_reducible exact PortSub.reset _
    | (intro x hx)
    | (with_reducible exact Keeps.mk (by assumption) rfl rfl rfl rfl rfl rfl rfl rfl rfl)
    | with_reducible apply keeps_State_contained | with_reducible apply keeps_State_wakeArray | with_reducible apply keeps_State_doubtAt | with_reducible apply keeps_State_trim | with_reducible apply keeps_State_sendSides | with_reducible apply keeps_State_placeAll | with_reducible apply keeps_State_placeFault | with_reducible apply keeps_State_startFetches
    | with_reducible apply Keeps.ite
    | with_reducible refine Keeps.foldl ?_ (fun s b hb => ?_)
    | split
    | (with_reducible apply Keeps.mk ; rotate_left ; iterate 9 (exact rfl))

theorem keeps_State_gotAck (a₀ : State) (s : State) (num sh : Nat) (hk : Keeps a₀ s) : Keeps a₀ (State.gotAck s num sh) := by
  unfold State.gotAck
  try dsimp only
  repeat' first
    | with_reducible assumption
    | ((with_reducible refine RingSub.of ?_) ; exact rfl) | ((with_reducible refine PortSub.of ?_) ; exact rfl) | with_reducible exact PortSub.reset _
    | (intro x hx)
    | (with_reducible exact Keeps.mk (by assumption) rfl rfl rfl rfl rfl rfl rfl rfl rfl)
    | with_reducible apply keeps_State_updPun
    | with_reducible apply Keeps.ite
    | with_reducible refine Keeps.foldl ?_ (fun s b hb => ?_)
    | split
    | (with_reducible apply Keeps.mk ; rotate_left ; iterate 9 (exact rfl))

theorem keeps_State_applyClose (a₀ : State) (s : State) (num : Nat) (b : CloseB) (hk : Keeps a₀ s) : Keeps a₀ (State.applyClose s num b) := by
  unfold State.applyClose
  try dsimp only
  repeat' first
    | with_reducible assumption
    | ((with_reducible refine RingSub.of ?_) ; exact rfl) | ((with_reducible refine PortSub.of ?_) ; exact rfl) | with_reducible exact PortSub.reset _
    | (intro x hx)
    | (with_reducible exact Keeps.mk (by assumption) rfl rfl rfl rfl rfl rfl rfl rfl rfl)
    | with_reducible apply keeps_State_sendTo | with_reducible apply keeps_State_boundary | with_reducible apply keeps_State_formPunnet | with_reducible apply keeps_State_gotAck
    | with_reducible apply Keeps.ite
    | with_reducible refine Keeps.foldl ?_ (fun s b hb => ?_)
    | split
    | (with_reducible apply Keeps.mk ; rotate_left ; iterate 9 (exact rfl))

theorem keeps_State_retireDone (a₀ : State) (s : State) (hk : Keeps a₀ s) : Keeps a₀ (State.retireDone s) := by
  unfold State.retireDone
  try dsimp only
  repeat' first
    | with_reducible assumption
    | ((with_reducible refine RingSub.of ?_) ; exact rfl) | ((with_reducible refine PortSub.of ?_) ; exact rfl) | with_reducible exact PortSub.reset _
    | (intro x hx)
    | (with_reducible exact Keeps.mk (by assumption) rfl rfl rfl rfl rfl rfl rfl rfl rfl)
    | with_reducible apply keeps_State_sendTo | with_reducible apply keeps_State_take | with_reducible apply keeps_State_retirePunnet
    | with_reducible apply Keeps.ite
    | with_reducible refine Keeps.foldl ?_ (fun s b hb => ?_)
    | split
    | (with_reducible apply Keeps.mk ; rotate_left ; iterate 9 (exact rfl))

theorem keeps_State_onThresh (a₀ : State) (s : State) (h : Hdr) (b : ThreshB) (hk : Keeps a₀ s) : Keeps a₀ (State.onThresh s h b) := by
  unfold State.onThresh
  try dsimp only
  repeat' first
    | with_reducible assumption
    | ((with_reducible refine RingSub.of ?_) ; exact rfl) | ((with_reducible refine PortSub.of ?_) ; exact rfl) | with_reducible exact PortSub.reset _
    | (intro x hx)
    | (with_reducible exact Keeps.mk (by assumption) rfl rfl rfl rfl rfl rfl rfl rfl rfl)
    | with_reducible apply keeps_State_passOn | with_reducible apply keeps_State_rowMsg | with_reducible apply keeps_State_updRow
    | with_reducible apply Keeps.ite
    | with_reducible refine Keeps.foldl ?_ (fun s b hb => ?_)
    | split
    | (with_reducible apply Keeps.mk ; rotate_left ; iterate 9 (exact rfl))

theorem keeps_State_lateBans (a₀ : State) (s : State) (n : Nat) (hk : Keeps a₀ s) : Keeps a₀ (State.lateBans s n) := by
  unfold State.lateBans
  try dsimp only
  repeat' first
    | with_reducible assumption
    | ((with_reducible refine RingSub.of ?_) ; exact rfl) | ((with_reducible refine PortSub.of ?_) ; exact rfl) | with_reducible exact PortSub.reset _
    | (intro x hx)
    | (with_reducible exact Keeps.mk (by assumption) rfl rfl rfl rfl rfl rfl rfl rfl rfl)
    | with_reducible apply keeps_State_sendSides | with_reducible apply keeps_State_updRow
    | with_reducible apply Keeps.ite
    | with_reducible refine Keeps.foldl ?_ (fun s b hb => ?_)
    | split
    | (with_reducible apply Keeps.mk ; rotate_left ; iterate 9 (exact rfl))

end Sys2Proof.Laws
end

