-- ==== Sys2Proof/Laws/Keeps/Commit.lean ====
section
/-! SUPPORT. What the operations of Machine/Commit.lean keep (Laws/Keeps/Base.lean). -/

namespace Sys2Proof.Laws

open Sys2Proof.Machine

set_option linter.unreachableTactic false
set_option linter.unusedTactic false
set_option linter.unusedVariables false

theorem keeps_State_commitTokens (a : State) (s : State) (h : Handle) (i : Nat) (l : List Nat) (hk : Keeps a s) :
    Keeps a (s.commitTokens h i l).1 := by
  induction l generalizing s i with
  | nil => exact hk
  | cons t r ih =>
    unfold State.commitTokens
    dsimp only
    split
    · exact ih _ _ (keeps_State_setCtx _ _ _ _ (keeps_State_histCommit _ _ _ _ _ _ hk))
    · exact ih _ _ (keeps_State_setCtx _ _ _ _ hk)

theorem keeps_State_advise (a₀ : State) (s : State) (n : Nat) (hk : Keeps a₀ s) : Keeps a₀ (State.advise s n) := by
  unfold State.advise
  try dsimp only
  repeat' first
    | with_reducible assumption
    | ((with_reducible refine RingSub.of ?_) ; exact rfl) | ((with_reducible refine PortSub.of ?_) ; exact rfl) | with_reducible exact PortSub.reset _
    | (intro x hx)
    | (with_reducible exact Keeps.mk (by assumption) rfl rfl rfl rfl rfl rfl rfl rfl rfl)
    | with_reducible apply keeps_State_storeWords
    | with_reducible apply Keeps.ite
    | with_reducible refine Keeps.foldl ?_ (fun s b hb => ?_)
    | split
    | (with_reducible apply Keeps.mk ; rotate_left ; iterate 9 (exact rfl))

theorem keeps_State_takeCommit (a : State) (s : State) (r : PRow) (draftn : Nat) (b : CommitB) (next : Nat) (hk : Keeps a s) :
    Keeps a (s.takeCommit r draftn b next).1 := by
  have hc := keeps_State_commitTokens a s r.key.handle (r.key.pos + 1 - b.toks.length) b.toks hk
  unfold State.takeCommit
  dsimp only
  split
  · exact hk
  split
  · split
    · exact keeps_State_setCtx _ _ _ _ hk
    · exact hk
  split
  · generalize State.commitTokens s r.key.handle (r.key.pos + 1 - b.toks.length) b.toks = e at hc ⊢
    split
    · exact keeps_State_advise _ _ _ (keeps_State_setCtx _ _ _ _ (keeps_State_writeHist _ _ _ hc))
    · exact keeps_State_setCtx _ _ _ _ (keeps_State_writeHist _ _ _ hc)
  · exact hk

theorem keeps_State_settleRow (a₀ : State) (s : State) (r : Row) (charged : Bool) (hk : Keeps a₀ s) : Keeps a₀ (State.settleRow s r charged) := by
  unfold State.settleRow
  try dsimp only
  repeat' first
    | with_reducible assumption
    | ((with_reducible refine RingSub.of ?_) ; exact rfl) | ((with_reducible refine PortSub.of ?_) ; exact rfl) | with_reducible exact PortSub.reset _
    | (intro x hx)
    | (with_reducible exact Keeps.mk (by assumption) rfl rfl rfl rfl rfl rfl rfl rfl rfl)
    
    | with_reducible apply Keeps.ite
    | with_reducible refine Keeps.foldl ?_ (fun s b hb => ?_)
    | split
    | (with_reducible apply Keeps.mk ; rotate_left ; iterate 9 (exact rfl))

theorem keeps_State_unpaid (a₀ : State) (s : State) (c : HomeCommit) (hk : Keeps a₀ s) : Keeps a₀ (State.unpaid s c) := by
  unfold State.unpaid
  try dsimp only
  repeat' first
    | with_reducible assumption
    | ((with_reducible refine RingSub.of ?_) ; exact rfl) | ((with_reducible refine PortSub.of ?_) ; exact rfl) | with_reducible exact PortSub.reset _
    | (intro x hx)
    | (with_reducible exact Keeps.mk (by assumption) rfl rfl rfl rfl rfl rfl rfl rfl rfl)
    | with_reducible apply keeps_State_giveBack | with_reducible apply keeps_State_charge
    | with_reducible apply Keeps.ite
    | with_reducible refine Keeps.foldl ?_ (fun s b hb => ?_)
    | split
    | (with_reducible apply Keeps.mk ; rotate_left ; iterate 9 (exact rfl))

theorem keeps_State_record1 (a₀ : State) (s : State) (c : HomeCommit) (hk : Keeps a₀ s) : Keeps a₀ (State.record1 s c) := by
  unfold State.record1
  try dsimp only
  repeat' first
    | with_reducible assumption
    | ((with_reducible refine RingSub.of ?_) ; exact rfl) | ((with_reducible refine PortSub.of ?_) ; exact rfl) | with_reducible exact PortSub.reset _
    | (intro x hx)
    | (with_reducible exact Keeps.mk (by assumption) rfl rfl rfl rfl rfl rfl rfl rfl rfl)
    | with_reducible apply keeps_State_emit | with_reducible apply keeps_State_fallback | with_reducible apply keeps_State_voidRow | with_reducible apply keeps_State_takeCommit | with_reducible apply keeps_State_settleRow | with_reducible apply keeps_State_unpaid | with_reducible apply keeps_State_charge
    | with_reducible apply Keeps.ite
    | with_reducible refine Keeps.foldl ?_ (fun s b hb => ?_)
    | split
    | (with_reducible apply Keeps.mk ; rotate_left ; iterate 9 (exact rfl))

theorem keeps_State_recordGroup (a₀ : State) (s : State) (cs : List HomeCommit) (hk : Keeps a₀ s) : Keeps a₀ (State.recordGroup s cs) := by
  unfold State.recordGroup
  try dsimp only
  repeat' first
    | with_reducible assumption
    | ((with_reducible refine RingSub.of ?_) ; exact rfl) | ((with_reducible refine PortSub.of ?_) ; exact rfl) | with_reducible exact PortSub.reset _
    | (intro x hx)
    | (with_reducible exact Keeps.mk (by assumption) rfl rfl rfl rfl rfl rfl rfl rfl rfl)
    | with_reducible apply keeps_State_emit | with_reducible apply keeps_State_takeCommit | with_reducible apply keeps_State_settleRow | with_reducible apply keeps_State_record1 | with_reducible apply keeps_State_charge
    | with_reducible apply Keeps.ite
    | with_reducible refine Keeps.foldl ?_ (fun s b hb => ?_)
    | split
    | (with_reducible apply Keeps.mk ; rotate_left ; iterate 9 (exact rfl))

theorem keeps_State_flushCommits (a : State) (k : Nat) (s : State) (hk : Keeps a s) : Keeps a (State.flushCommits k s) := by
  induction k generalizing s with
  | zero => exact hk
  | succ k ih =>
    unfold State.flushCommits
    split
    · exact hk
    · refine Keeps.ite ?_ ?_
      · exact ih _ (keeps_State_recordGroup _ _ _ (Keeps.mk hk rfl rfl rfl rfl rfl rfl rfl rfl rfl))
      · exact ih _ (keeps_State_record1 _ _ _ (Keeps.mk hk rfl rfl rfl rfl rfl rfl rfl rfl rfl))

theorem keeps_State_lateCommit (a₀ : State) (s : State) (k : RowKey) (charge : Nat) (hk : Keeps a₀ s) : Keeps a₀ (State.lateCommit s k charge) := by
  unfold State.lateCommit
  try dsimp only
  repeat' first
    | with_reducible assumption
    | ((with_reducible refine RingSub.of ?_) ; exact rfl) | ((with_reducible refine PortSub.of ?_) ; exact rfl) | with_reducible exact PortSub.reset _
    | (intro x hx)
    | (with_reducible exact Keeps.mk (by assumption) rfl rfl rfl rfl rfl rfl rfl rfl rfl)
    | with_reducible apply keeps_State_bump | with_reducible apply keeps_State_contained | with_reducible apply keeps_State_setSlot | with_reducible apply keeps_State_giveBack
    | with_reducible apply Keeps.ite
    | with_reducible refine Keeps.foldl ?_ (fun s b hb => ?_)
    | split
    | (with_reducible apply Keeps.mk ; rotate_left ; iterate 9 (exact rfl))

theorem keeps_State_exitRepeat (a₀ : State) (s : State) (k : RowKey) (hk : Keeps a₀ s) : Keeps a₀ (State.exitRepeat s k) := by
  unfold State.exitRepeat
  try dsimp only
  repeat' first
    | with_reducible assumption
    | ((with_reducible refine RingSub.of ?_) ; exact rfl) | ((with_reducible refine PortSub.of ?_) ; exact rfl) | with_reducible exact PortSub.reset _
    | (intro x hx)
    | (with_reducible exact Keeps.mk (by assumption) rfl rfl rfl rfl rfl rfl rfl rfl rfl)
    
    | with_reducible apply Keeps.ite
    | with_reducible refine Keeps.foldl ?_ (fun s b hb => ?_)
    | split
    | (with_reducible apply Keeps.mk ; rotate_left ; iterate 9 (exact rfl))

theorem keeps_State_applyCommit (a₀ : State) (s : State) (num slot : Nat) (r : PRow) (b : CommitB) (hk : Keeps a₀ s) : Keeps a₀ (State.applyCommit s num slot r b) := by
  unfold State.applyCommit
  try dsimp only
  repeat' first
    | with_reducible assumption
    | ((with_reducible refine RingSub.of ?_) ; exact rfl) | ((with_reducible refine PortSub.of ?_) ; exact rfl) | with_reducible exact PortSub.reset _
    | (intro x hx)
    | (with_reducible exact Keeps.mk (by assumption) rfl rfl rfl rfl rfl rfl rfl rfl rfl)
    | with_reducible apply keeps_State_sendMsg | with_reducible apply keeps_State_pump | with_reducible apply keeps_State_setCtx | with_reducible apply keeps_State_countReturned | with_reducible apply keeps_State_giveBack | with_reducible apply keeps_State_touchCount | with_reducible apply keeps_State_countToken | with_reducible apply keeps_State_updRow | with_reducible apply keeps_State_takeCommit | with_reducible apply keeps_State_flushCommits | with_reducible apply keeps_State_lateCommit | with_reducible apply keeps_State_exitRepeat
    | with_reducible apply Keeps.ite
    | with_reducible refine Keeps.foldl ?_ (fun s b hb => ?_)
    | split
    | (with_reducible apply Keeps.mk ; rotate_left ; iterate 9 (exact rfl))

theorem keeps_State_purgedCommit (a₀ : State) (s : State) (e : Nat × Nat × RowKey) (b : CommitB) (hk : Keeps a₀ s) : Keeps a₀ (State.purgedCommit s e b) := by
  unfold State.purgedCommit
  try dsimp only
  repeat' first
    | with_reducible assumption
    | ((with_reducible refine RingSub.of ?_) ; exact rfl) | ((with_reducible refine PortSub.of ?_) ; exact rfl) | with_reducible exact PortSub.reset _
    | (intro x hx)
    | (with_reducible exact Keeps.mk (by assumption) rfl rfl rfl rfl rfl rfl rfl rfl rfl)
    | with_reducible apply keeps_State_giveBack | with_reducible apply keeps_State_lateCommit
    | with_reducible apply Keeps.ite
    | with_reducible refine Keeps.foldl ?_ (fun s b hb => ?_)
    | split
    | (with_reducible apply Keeps.mk ; rotate_left ; iterate 9 (exact rfl))

theorem keeps_State_onCommit (a₀ : State) (s : State) (h : Hdr) (b : CommitB) (hk : Keeps a₀ s) : Keeps a₀ (State.onCommit s h b) := by
  unfold State.onCommit
  try dsimp only
  repeat' first
    | with_reducible assumption
    | ((with_reducible refine RingSub.of ?_) ; exact rfl) | ((with_reducible refine PortSub.of ?_) ; exact rfl) | with_reducible exact PortSub.reset _
    | (intro x hx)
    | (with_reducible exact Keeps.mk (by assumption) rfl rfl rfl rfl rfl rfl rfl rfl rfl)
    | with_reducible apply keeps_State_contained | with_reducible apply keeps_State_doubtAt | with_reducible apply keeps_State_passOn | with_reducible apply keeps_State_rowMsg | with_reducible apply keeps_State_applyCommit | with_reducible apply keeps_State_purgedCommit
    | with_reducible apply Keeps.ite
    | with_reducible refine Keeps.foldl ?_ (fun s b hb => ?_)
    | split
    | (with_reducible apply Keeps.mk ; rotate_left ; iterate 9 (exact rfl))

theorem keeps_State_onLkup (a₀ : State) (s : State) (h : Hdr) (b : LkupB) (hk : Keeps a₀ s) : Keeps a₀ (State.onLkup s h b) := by
  unfold State.onLkup
  try dsimp only
  repeat' first
    | with_reducible assumption
    | ((with_reducible refine RingSub.of ?_) ; exact rfl) | ((with_reducible refine PortSub.of ?_) ; exact rfl) | with_reducible exact PortSub.reset _
    | (intro x hx)
    | (with_reducible exact Keeps.mk (by assumption) rfl rfl rfl rfl rfl rfl rfl rfl rfl)
    | with_reducible apply keeps_State_pump | with_reducible apply keeps_State_passOn | with_reducible apply keeps_State_rowMsg | with_reducible apply keeps_State_updRow | with_reducible apply keeps_State_flushCommits
    | with_reducible apply Keeps.ite
    | with_reducible refine Keeps.foldl ?_ (fun s b hb => ?_)
    | split
    | (with_reducible apply Keeps.mk ; rotate_left ; iterate 9 (exact rfl))

theorem keeps_State_onAux (a₀ : State) (s : State) (h : Hdr) (b : AuxB) (hk : Keeps a₀ s) : Keeps a₀ (State.onAux s h b) := by
  unfold State.onAux
  try dsimp only
  repeat' first
    | with_reducible assumption
    | ((with_reducible refine RingSub.of ?_) ; exact rfl) | ((with_reducible refine PortSub.of ?_) ; exact rfl) | with_reducible exact PortSub.reset _
    | (intro x hx)
    | (with_reducible exact Keeps.mk (by assumption) rfl rfl rfl rfl rfl rfl rfl rfl rfl)
    | with_reducible apply keeps_State_passOn | with_reducible apply keeps_State_rowMsg
    | with_reducible apply Keeps.ite
    | with_reducible refine Keeps.foldl ?_ (fun s b hb => ?_)
    | split
    | (with_reducible apply Keeps.mk ; rotate_left ; iterate 9 (exact rfl))

theorem keeps_State_expire (a₀ : State) (s : State) (r : Row) (hk : Keeps a₀ s) : Keeps a₀ (State.expire s r) := by
  unfold State.expire
  try dsimp only
  repeat' first
    | with_reducible assumption
    | ((with_reducible refine RingSub.of ?_) ; exact rfl) | ((with_reducible refine PortSub.of ?_) ; exact rfl) | with_reducible exact PortSub.reset _
    | (intro x hx)
    | (with_reducible exact Keeps.mk (by assumption) rfl rfl rfl rfl rfl rfl rfl rfl rfl)
    | with_reducible apply keeps_State_fallback | with_reducible apply keeps_State_voidRow
    | with_reducible apply Keeps.ite
    | with_reducible refine Keeps.foldl ?_ (fun s b hb => ?_)
    | split
    | (with_reducible apply Keeps.mk ; rotate_left ; iterate 9 (exact rfl))

theorem keeps_State_deadlineHere (a₀ : State) (s : State) (k : RowKey) (hk : Keeps a₀ s) : Keeps a₀ (State.deadlineHere s k) := by
  unfold State.deadlineHere
  try dsimp only
  repeat' first
    | with_reducible assumption
    | ((with_reducible refine RingSub.of ?_) ; exact rfl) | ((with_reducible refine PortSub.of ?_) ; exact rfl) | with_reducible exact PortSub.reset _
    | (intro x hx)
    | (with_reducible exact Keeps.mk (by assumption) rfl rfl rfl rfl rfl rfl rfl rfl rfl)
    | with_reducible apply keeps_State_pump | with_reducible apply keeps_State_dropCommits | with_reducible apply keeps_State_expire
    | with_reducible apply Keeps.ite
    | with_reducible refine Keeps.foldl ?_ (fun s b hb => ?_)
    | split
    | (with_reducible apply Keeps.mk ; rotate_left ; iterate 9 (exact rfl))

end Sys2Proof.Laws
end

