-- ==== Sys2Proof/Laws/Keeps/Flow.lean ====
section
/-! SUPPORT. What the operations of Machine/Flow.lean keep (Laws/Keeps/Base.lean). -/

namespace Sys2Proof.Laws

open Sys2Proof.Machine

set_option linter.unreachableTactic false
set_option linter.unusedTactic false
set_option linter.unusedVariables false

theorem keeps_State_judge (a₀ : State) (s : State) (num : Nat) (hk : Keeps a₀ s) : Keeps a₀ (State.judge s num) := by
  unfold State.judge
  try dsimp only
  repeat' first
    | with_reducible assumption
    | ((with_reducible refine RingSub.of ?_) ; exact rfl) | ((with_reducible refine PortSub.of ?_) ; exact rfl) | with_reducible exact PortSub.reset _
    | (intro x hx)
    | (with_reducible exact Keeps.mk (by assumption) rfl rfl rfl rfl rfl rfl rfl rfl rfl)
    | with_reducible apply keeps_State_updRow
    | with_reducible apply Keeps.ite
    | with_reducible refine Keeps.foldl ?_ (fun s b hb => ?_)
    | split
    | (with_reducible apply Keeps.mk ; rotate_left ; iterate 9 (exact rfl))

theorem keeps_State_mergeIn (a₀ : State) (s : State) (num pass slot mclass sh : Nat) (x : PartSum) (hk : Keeps a₀ s) : Keeps a₀ (State.mergeIn s num pass slot mclass sh x) := by
  unfold State.mergeIn
  try dsimp only
  repeat' first
    | with_reducible assumption
    | ((with_reducible refine RingSub.of ?_) ; exact rfl) | ((with_reducible refine PortSub.of ?_) ; exact rfl) | with_reducible exact PortSub.reset _
    | (intro x hx)
    | (with_reducible exact Keeps.mk (by assumption) rfl rfl rfl rfl rfl rfl rfl rfl rfl)
    | with_reducible apply keeps_State_sendMsg | with_reducible apply keeps_State_rootPart
    | with_reducible apply Keeps.ite
    | with_reducible refine Keeps.foldl ?_ (fun s b hb => ?_)
    | split
    | (with_reducible apply Keeps.mk ; rotate_left ; iterate 9 (exact rfl))

theorem keeps_State_onPart (a₀ : State) (s : State) (m : Msg) (mclass : State → Nat) (x : PartSum) (hk : Keeps a₀ s) : Keeps a₀ (State.onPart s m mclass x) := by
  unfold State.onPart
  try dsimp only
  repeat' first
    | with_reducible assumption
    | ((with_reducible refine RingSub.of ?_) ; exact rfl) | ((with_reducible refine PortSub.of ?_) ; exact rfl) | with_reducible exact PortSub.reset _
    | (intro x hx)
    | (with_reducible exact Keeps.mk (by assumption) rfl rfl rfl rfl rfl rfl rfl rfl rfl)
    | with_reducible apply keeps_State_contained | with_reducible apply keeps_State_doubtAt | with_reducible apply keeps_State_passOn | with_reducible apply keeps_State_rowMsg | with_reducible apply keeps_State_mergeIn
    | with_reducible apply Keeps.ite
    | with_reducible refine Keeps.foldl ?_ (fun s b hb => ?_)
    | split
    | (with_reducible apply Keeps.mk ; rotate_left ; iterate 9 (exact rfl))

theorem keeps_State_rowSummary (a₀ : State) (s : State) (p : Punnet) (i : Nat) (r : PRow) (hk : Keeps a₀ s) : Keeps a₀ (State.rowSummary s p i r) := by
  unfold State.rowSummary
  try dsimp only
  repeat' first
    | with_reducible assumption
    | ((with_reducible refine RingSub.of ?_) ; exact rfl) | ((with_reducible refine PortSub.of ?_) ; exact rfl) | with_reducible exact PortSub.reset _
    | (intro x hx)
    | (with_reducible exact Keeps.mk (by assumption) rfl rfl rfl rfl rfl rfl rfl rfl rfl)
    | with_reducible apply keeps_State_mergeIn
    | with_reducible apply Keeps.ite
    | with_reducible refine Keeps.foldl ?_ (fun s b hb => ?_)
    | split
    | (with_reducible apply Keeps.mk ; rotate_left ; iterate 9 (exact rfl))

theorem keeps_State_summary (a₀ : State) (s : State) (num i : Nat) (hk : Keeps a₀ s) : Keeps a₀ (State.summary s num i) := by
  unfold State.summary
  try dsimp only
  repeat' first
    | with_reducible assumption
    | ((with_reducible refine RingSub.of ?_) ; exact rfl) | ((with_reducible refine PortSub.of ?_) ; exact rfl) | with_reducible exact PortSub.reset _
    | (intro x hx)
    | (with_reducible exact Keeps.mk (by assumption) rfl rfl rfl rfl rfl rfl rfl rfl rfl)
    | with_reducible apply keeps_State_rowSummary
    | with_reducible apply Keeps.ite
    | with_reducible refine Keeps.foldl ?_ (fun s b hb => ?_)
    | split
    | (with_reducible apply Keeps.mk ; rotate_left ; iterate 9 (exact rfl))

theorem keeps_State_summaries (a : State) (num k : Nat) (s : State) (hk : Keeps a s) : Keeps a (State.summaries num k s) := by
  induction k generalizing s with
  | zero => exact hk
  | succ k ih =>
    unfold State.summaries
    split
    · exact hk
    · exact Keeps.ite (ih _ (keeps_State_summary _ _ _ _ (keeps_State_updPun _ _ _ _ hk))) hk

theorem keeps_State_addPart (a₀ : State) (s : State) (num slot i : Nat) (ref : Bool) (es : List (Nat × F32 × F32)) (hk : Keeps a₀ s) : Keeps a₀ (State.addPart s num slot i ref es) := by
  unfold State.addPart
  try dsimp only
  repeat' first
    | with_reducible assumption
    | ((with_reducible refine RingSub.of ?_) ; exact rfl) | ((with_reducible refine PortSub.of ?_) ; exact rfl) | with_reducible exact PortSub.reset _
    | (intro x hx)
    | (with_reducible exact Keeps.mk (by assumption) rfl rfl rfl rfl rfl rfl rfl rfl rfl)
    | with_reducible apply keeps_State_contained | with_reducible apply keeps_State_doubtAt | with_reducible apply keeps_State_updRow
    | with_reducible apply Keeps.ite
    | with_reducible refine Keeps.foldl ?_ (fun s b hb => ?_)
    | split
    | (with_reducible apply Keeps.mk ; rotate_left ; iterate 9 (exact rfl))

theorem keeps_State_writeEntry (a₀ : State) (s : State) (p : Punnet) (slot : Nat) (ref : Bool) (v : PVec) (hk : Keeps a₀ s) : Keeps a₀ (State.writeEntry s p slot ref v) := by
  unfold State.writeEntry
  try dsimp only
  repeat' first
    | with_reducible assumption
    | ((with_reducible refine RingSub.of ?_) ; exact rfl) | ((with_reducible refine PortSub.of ?_) ; exact rfl) | with_reducible exact PortSub.reset _
    | (intro x hx)
    | (with_reducible exact Keeps.mk (by assumption) rfl rfl rfl rfl rfl rfl rfl rfl rfl)
    | with_reducible apply keeps_State_store | with_reducible apply keeps_State_storeWords
    | with_reducible apply Keeps.ite
    | with_reducible refine Keeps.foldl ?_ (fun s b hb => ?_)
    | split
    | (with_reducible apply Keeps.mk ; rotate_left ; iterate 9 (exact rfl))

theorem keeps_State_rowFault (a₀ : State) (s : State) (num : Nat) (r : PRow) (c : Nat) (inj : Bool) (hk : Keeps a₀ s) : Keeps a₀ (State.rowFault s num r c inj) := by
  unfold State.rowFault
  try dsimp only
  repeat' first
    | with_reducible assumption
    | ((with_reducible refine RingSub.of ?_) ; exact rfl) | ((with_reducible refine PortSub.of ?_) ; exact rfl) | with_reducible exact PortSub.reset _
    | (intro x hx)
    | (with_reducible exact Keeps.mk (by assumption) rfl rfl rfl rfl rfl rfl rfl rfl rfl)
    | with_reducible apply keeps_State_contained | with_reducible apply keeps_State_doubtAt
    | with_reducible apply Keeps.ite
    | with_reducible refine Keeps.foldl ?_ (fun s b hb => ?_)
    | split
    | (with_reducible apply Keeps.mk ; rotate_left ; iterate 9 (exact rfl))

theorem keeps_State_preludeRow (a₀ : State) (s : State) (p : Punnet) (ecc : List (Nat × Ecc)) (slot : Nat) (hk : Keeps a₀ s) : Keeps a₀ (State.preludeRow s p ecc slot) := by
  unfold State.preludeRow
  try dsimp only
  repeat' first
    | with_reducible assumption
    | ((with_reducible refine RingSub.of ?_) ; exact rfl) | ((with_reducible refine PortSub.of ?_) ; exact rfl) | with_reducible exact PortSub.reset _
    | (intro x hx)
    | (with_reducible exact Keeps.mk (by assumption) rfl rfl rfl rfl rfl rfl rfl rfl rfl)
    | with_reducible apply keeps_State_corrected | with_reducible apply keeps_State_fire | with_reducible apply keeps_State_genGone | with_reducible apply keeps_State_updRow | with_reducible apply keeps_State_writeEntry | with_reducible apply keeps_State_rowFault
    | with_reducible apply Keeps.ite
    | with_reducible refine Keeps.foldl ?_ (fun s b hb => ?_)
    | split
    | (with_reducible apply Keeps.mk ; rotate_left ; iterate 9 (exact rfl))

theorem keeps_State_linRow (a₀ : State) (s : State) (num slot : Nat) (hk : Keeps a₀ s) : Keeps a₀ (State.linRow s num slot) := by
  unfold State.linRow
  try dsimp only
  repeat' first
    | with_reducible assumption
    | ((with_reducible refine RingSub.of ?_) ; exact rfl) | ((with_reducible refine PortSub.of ?_) ; exact rfl) | with_reducible exact PortSub.reset _
    | (intro x hx)
    | (with_reducible exact Keeps.mk (by assumption) rfl rfl rfl rfl rfl rfl rfl rfl rfl)
    | with_reducible apply keeps_State_addPart
    | with_reducible apply Keeps.ite
    | with_reducible refine Keeps.foldl ?_ (fun s b hb => ?_)
    | split
    | (with_reducible apply Keeps.mk ; rotate_left ; iterate 9 (exact rfl))

theorem keeps_State_preludeDone (a₀ : State) (s : State) (num : Nat) (ecc : List (Nat × Ecc)) (hk : Keeps a₀ s) : Keeps a₀ (State.preludeDone s num ecc) := by
  unfold State.preludeDone
  try dsimp only
  repeat' first
    | with_reducible assumption
    | ((with_reducible refine RingSub.of ?_) ; exact rfl) | ((with_reducible refine PortSub.of ?_) ; exact rfl) | with_reducible exact PortSub.reset _
    | (intro x hx)
    | (with_reducible exact Keeps.mk (by assumption) rfl rfl rfl rfl rfl rfl rfl rfl rfl)
    | with_reducible apply keeps_State_take | with_reducible apply keeps_State_updPun | with_reducible apply keeps_State_rootDefer | with_reducible apply keeps_State_judge | with_reducible apply keeps_State_summaries | with_reducible apply keeps_State_preludeRow | with_reducible apply keeps_State_linRow
    | with_reducible apply Keeps.ite
    | with_reducible refine Keeps.foldl ?_ (fun s b hb => ?_)
    | split
    | (with_reducible apply Keeps.mk ; rotate_left ; iterate 9 (exact rfl))

theorem keeps_State_segment (a₀ : State) (s : State) (num i : Nat) (t : TileRef) (seg : Nat) (ecc : Ecc) (hk : Keeps a₀ s) : Keeps a₀ (State.segment s num i t seg ecc) := by
  unfold State.segment
  try dsimp only
  repeat' first
    | with_reducible assumption
    | ((with_reducible refine RingSub.of ?_) ; exact rfl) | ((with_reducible refine PortSub.of ?_) ; exact rfl) | with_reducible exact PortSub.reset _
    | (intro x hx)
    | (with_reducible exact Keeps.mk (by assumption) rfl rfl rfl rfl rfl rfl rfl rfl rfl)
    | with_reducible apply keeps_State_corrected | with_reducible apply keeps_State_contained | with_reducible apply keeps_State_fire | with_reducible apply keeps_State_doubtAt | with_reducible apply keeps_State_updPun
    | with_reducible apply Keeps.ite
    | with_reducible refine Keeps.foldl ?_ (fun s b hb => ?_)
    | split
    | (with_reducible apply Keeps.mk ; rotate_left ; iterate 9 (exact rfl))

theorem keeps_State_feedArray (a : State) (k : Nat) (s : State) (hk : Keeps a s) : Keeps a (State.feedArray k s) := by
  induction k generalizing s with
  | zero => exact hk
  | succ k ih =>
    unfold State.feedArray
    dsimp only
    split
    · exact Keeps.ite hk (ih _ (Keeps.mk hk rfl rfl rfl rfl rfl rfl rfl rfl rfl))
    · rename_i x r _
      have h1 : Keeps a ({ s with loader := { s.loader with read := r } } : State) := Keeps.mk hk rfl rfl rfl rfl rfl rfl rfl rfl rfl
      exact Keeps.ite (ih _ h1) (Keeps.ite (ih _ (keeps_State_updPun _ _ _ _ h1)) hk)

theorem keeps_State_feed (a : State) (s : State) (hk : Keeps a s) : Keeps a (State.feed s) := keeps_State_feedArray _ _ _ hk

theorem keeps_State_setVariant (a₀ : State) (s : State) (p : Punnet) (i : Nat) (ps : Pass) (r : PRow) (rd : Rdesc) (hk : Keeps a₀ s) : Keeps a₀ (State.setVariant s p i ps r rd) := by
  unfold State.setVariant
  try dsimp only
  repeat' first
    | with_reducible assumption
    | ((with_reducible refine RingSub.of ?_) ; exact rfl) | ((with_reducible refine PortSub.of ?_) ; exact rfl) | with_reducible exact PortSub.reset _
    | (intro x hx)
    | (with_reducible exact Keeps.mk (by assumption) rfl rfl rfl rfl rfl rfl rfl rfl rfl)
    | with_reducible apply keeps_State_updRow | with_reducible apply keeps_State_writeEntry
    | with_reducible apply Keeps.ite
    | with_reducible refine Keeps.foldl ?_ (fun s b hb => ?_)
    | split
    | (with_reducible apply Keeps.mk ; rotate_left ; iterate 9 (exact rfl))

theorem keeps_State_openPass (a : State) (num k j : Nat) (s : State) (hk : Keeps a s) : Keeps a (State.openPass num k j s) := by
  induction k generalizing s j with
  | zero => exact hk
  | succ k ih =>
    unfold State.openPass
    dsimp only
    split
    · exact hk
    · split
      · exact hk
      · have h1 := fun p => keeps_State_updPun a s num p hk
        exact Keeps.ite (ih _ _ (h1 _)) (h1 _)

theorem keeps_State_takeTile (a : State) (s : State) (num i : Nat) (t : TileRef) (hk : Keeps a s) : Keeps a (State.takeTile s num i t) := by
  have h1 := keeps_State_updPun a s num (fun p => p.dropTile i t) hk
  unfold State.takeTile
  dsimp only
  split
  · exact Keeps.ite (keeps_State_openPass _ _ _ _ _ h1) h1
  · exact h1

theorem keeps_State_endProjection (a₀ : State) (s : State) (num : Nat) (hk : Keeps a₀ s) : Keeps a₀ (State.endProjection s num) := by
  unfold State.endProjection
  try dsimp only
  repeat' first
    | with_reducible assumption
    | ((with_reducible refine RingSub.of ?_) ; exact rfl) | ((with_reducible refine PortSub.of ?_) ; exact rfl) | with_reducible exact PortSub.reset _
    | (intro x hx)
    | (with_reducible exact Keeps.mk (by assumption) rfl rfl rfl rfl rfl rfl rfl rfl rfl)
    | with_reducible apply keeps_State_updPun
    | with_reducible apply Keeps.ite
    | with_reducible refine Keeps.foldl ?_ (fun s b hb => ?_)
    | split
    | (with_reducible apply Keeps.mk ; rotate_left ; iterate 9 (exact rfl))

theorem keeps_State_bankErrors (a₀ : State) (s : State) (num i : Nat) (ecc : List (Nat × Ecc)) (hk : Keeps a₀ s) : Keeps a₀ (State.bankErrors s num i ecc) := by
  unfold State.bankErrors
  try dsimp only
  repeat' first
    | with_reducible assumption
    | ((with_reducible refine RingSub.of ?_) ; exact rfl) | ((with_reducible refine PortSub.of ?_) ; exact rfl) | with_reducible exact PortSub.reset _
    | (intro x hx)
    | (with_reducible exact Keeps.mk (by assumption) rfl rfl rfl rfl rfl rfl rfl rfl rfl)
    | with_reducible apply keeps_State_corrected | with_reducible apply keeps_State_rowFault
    | with_reducible apply Keeps.ite
    | with_reducible refine Keeps.foldl ?_ (fun s b hb => ?_)
    | split
    | (with_reducible apply Keeps.mk ; rotate_left ; iterate 9 (exact rfl))

theorem keeps_State_project (a₀ : State) (s : State) (num i : Nat) (t : TileRef) (ecc : List (Nat × Ecc)) (hk : Keeps a₀ s) : Keeps a₀ (State.project s num i t ecc) := by
  unfold State.project
  try dsimp only
  repeat' first
    | with_reducible assumption
    | ((with_reducible refine RingSub.of ?_) ; exact rfl) | ((with_reducible refine PortSub.of ?_) ; exact rfl) | with_reducible exact PortSub.reset _
    | (intro x hx)
    | (with_reducible exact Keeps.mk (by assumption) rfl rfl rfl rfl rfl rfl rfl rfl rfl)
    | with_reducible apply keeps_State_updPun | with_reducible apply keeps_State_summaries | with_reducible apply keeps_State_setVariant | with_reducible apply keeps_State_takeTile | with_reducible apply keeps_State_endProjection | with_reducible apply keeps_State_bankErrors
    | with_reducible apply Keeps.ite
    | with_reducible refine Keeps.foldl ?_ (fun s b hb => ?_)
    | split
    | (with_reducible apply Keeps.mk ; rotate_left ; iterate 9 (exact rfl))

theorem keeps_State_closeRow (a₀ : State) (s : State) (p : Punnet) (i : Nat) (ps : Pass) (d : Drain) (r : PRow) (rd : Rdesc) (hk : Keeps a₀ s) : Keeps a₀ (State.closeRow s p i ps d r rd) := by
  unfold State.closeRow
  try dsimp only
  repeat' first
    | with_reducible assumption
    | ((with_reducible refine RingSub.of ?_) ; exact rfl) | ((with_reducible refine PortSub.of ?_) ; exact rfl) | with_reducible exact PortSub.reset _
    | (intro x hx)
    | (with_reducible exact Keeps.mk (by assumption) rfl rfl rfl rfl rfl rfl rfl rfl rfl)
    | with_reducible apply keeps_State_addPart | with_reducible apply keeps_State_rowFault
    | with_reducible apply Keeps.ite
    | with_reducible refine Keeps.foldl ?_ (fun s b hb => ?_)
    | split
    | (with_reducible apply Keeps.mk ; rotate_left ; iterate 9 (exact rfl))

theorem keeps_State_closeTile (a₀ : State) (s : State) (num i : Nat) (t : TileRef) (hk : Keeps a₀ s) : Keeps a₀ (State.closeTile s num i t) := by
  unfold State.closeTile
  try dsimp only
  repeat' first
    | with_reducible assumption
    | ((with_reducible refine RingSub.of ?_) ; exact rfl) | ((with_reducible refine PortSub.of ?_) ; exact rfl) | with_reducible exact PortSub.reset _
    | (intro x hx)
    | (with_reducible exact Keeps.mk (by assumption) rfl rfl rfl rfl rfl rfl rfl rfl rfl)
    | with_reducible apply keeps_State_updPun | with_reducible apply keeps_State_summaries | with_reducible apply keeps_State_endProjection | with_reducible apply keeps_State_closeRow
    | with_reducible apply Keeps.ite
    | with_reducible refine Keeps.foldl ?_ (fun s b hb => ?_)
    | split
    | (with_reducible apply Keeps.mk ; rotate_left ; iterate 9 (exact rfl))

theorem keeps_State_onRsq (a₀ : State) (s : State) (h : Hdr) (b : RsqB) (hk : Keeps a₀ s) : Keeps a₀ (State.onRsq s h b) := by
  unfold State.onRsq
  try dsimp only
  repeat' first
    | with_reducible assumption
    | ((with_reducible refine RingSub.of ?_) ; exact rfl) | ((with_reducible refine PortSub.of ?_) ; exact rfl) | with_reducible exact PortSub.reset _
    | (intro x hx)
    | (with_reducible exact Keeps.mk (by assumption) rfl rfl rfl rfl rfl rfl rfl rfl rfl)
    | with_reducible apply keeps_State_passOn | with_reducible apply keeps_State_rowMsg | with_reducible apply keeps_State_queueRsq
    | with_reducible apply Keeps.ite
    | with_reducible refine Keeps.foldl ?_ (fun s b hb => ?_)
    | split
    | (with_reducible apply Keeps.mk ; rotate_left ; iterate 9 (exact rfl))

theorem keeps_State_startLane (a₀ : State) (s : State) (q : Rescore) (hk : Keeps a₀ s) : Keeps a₀ (State.startLane s q) := by
  unfold State.startLane
  try dsimp only
  repeat' first
    | with_reducible assumption
    | ((with_reducible refine RingSub.of ?_) ; exact rfl) | ((with_reducible refine PortSub.of ?_) ; exact rfl) | with_reducible exact PortSub.reset _
    | (intro x hx)
    | (with_reducible exact Keeps.mk (by assumption) rfl rfl rfl rfl rfl rfl rfl rfl rfl)
    
    | with_reducible apply Keeps.ite
    | with_reducible refine Keeps.foldl ?_ (fun s b hb => ?_)
    | split
    | (with_reducible apply Keeps.mk ; rotate_left ; iterate 9 (exact rfl))

theorem keeps_State_startLanes (a : State) (k : Nat) (s : State) (hk : Keeps a s) : Keeps a (State.startLanes k s) := by
  induction k generalizing s with
  | zero => exact hk
  | succ k ih =>
    unfold State.startLanes
    split
    · exact hk
    · split
      · exact hk
      · exact ih _ (keeps_State_startLane _ _ _ hk)

theorem keeps_State_rescoreGo (a : State) (s : State) (hk : Keeps a s) : Keeps a (State.rescoreGo s) :=
  keeps_State_startLanes _ _ _ (Keeps.mk hk rfl rfl rfl rfl rfl rfl rfl rfl rfl)

theorem keeps_State_sendRsp (a₀ : State) (s : State) (h : Hdr) (doubt : Bool) (b : RspB) (hk : Keeps a₀ s) : Keeps a₀ (State.sendRsp s h doubt b) := by
  unfold State.sendRsp
  try dsimp only
  repeat' first
    | with_reducible assumption
    | ((with_reducible refine RingSub.of ?_) ; exact rfl) | ((with_reducible refine PortSub.of ?_) ; exact rfl) | with_reducible exact PortSub.reset _
    | (intro x hx)
    | (with_reducible exact Keeps.mk (by assumption) rfl rfl rfl rfl rfl rfl rfl rfl rfl)
    | with_reducible apply keeps_State_sendMsg | with_reducible apply keeps_State_takeRsp
    | with_reducible apply Keeps.ite
    | with_reducible refine Keeps.foldl ?_ (fun s b hb => ?_)
    | split
    | (with_reducible apply Keeps.mk ; rotate_left ; iterate 9 (exact rfl))

theorem keeps_State_rescored (a₀ : State) (s : State) (num slot pass id : Nat) (ecc : Ecc) (hk : Keeps a₀ s) : Keeps a₀ (State.rescored s num slot pass id ecc) := by
  unfold State.rescored
  try dsimp only
  repeat' first
    | with_reducible assumption
    | ((with_reducible refine RingSub.of ?_) ; exact rfl) | ((with_reducible refine PortSub.of ?_) ; exact rfl) | with_reducible exact PortSub.reset _
    | (intro x hx)
    | (with_reducible exact Keeps.mk (by assumption) rfl rfl rfl rfl rfl rfl rfl rfl rfl)
    | with_reducible apply keeps_State_bump | with_reducible apply keeps_State_corrected | with_reducible apply keeps_State_contained | with_reducible apply keeps_State_fire | with_reducible apply keeps_State_sendRsp
    | with_reducible apply Keeps.ite
    | with_reducible refine Keeps.foldl ?_ (fun s b hb => ?_)
    | split
    | (with_reducible apply Keeps.mk ; rotate_left ; iterate 9 (exact rfl))

theorem keeps_State_onRsp (a₀ : State) (s : State) (h : Hdr) (b : RspB) (hk : Keeps a₀ s) : Keeps a₀ (State.onRsp s h b) := by
  unfold State.onRsp
  try dsimp only
  repeat' first
    | with_reducible assumption
    | ((with_reducible refine RingSub.of ?_) ; exact rfl) | ((with_reducible refine PortSub.of ?_) ; exact rfl) | with_reducible exact PortSub.reset _
    | (intro x hx)
    | (with_reducible exact Keeps.mk (by assumption) rfl rfl rfl rfl rfl rfl rfl rfl rfl)
    | with_reducible apply keeps_State_passOn | with_reducible apply keeps_State_rowMsg | with_reducible apply keeps_State_takeRsp
    | with_reducible apply Keeps.ite
    | with_reducible refine Keeps.foldl ?_ (fun s b hb => ?_)
    | split
    | (with_reducible apply Keeps.mk ; rotate_left ; iterate 9 (exact rfl))

theorem keeps_State_auxDone (a₀ : State) (s : State) (num slot : Nat) (reward : Bool) (hk : Keeps a₀ s) : Keeps a₀ (State.auxDone s num slot reward) := by
  unfold State.auxDone
  try dsimp only
  repeat' first
    | with_reducible assumption
    | ((with_reducible refine RingSub.of ?_) ; exact rfl) | ((with_reducible refine PortSub.of ?_) ; exact rfl) | with_reducible exact PortSub.reset _
    | (intro x hx)
    | (with_reducible exact Keeps.mk (by assumption) rfl rfl rfl rfl rfl rfl rfl rfl rfl)
    | with_reducible apply keeps_State_sendMsg | with_reducible apply keeps_State_onAux
    | with_reducible apply Keeps.ite
    | with_reducible refine Keeps.foldl ?_ (fun s b hb => ?_)
    | split
    | (with_reducible apply Keeps.mk ; rotate_left ; iterate 9 (exact rfl))

theorem keeps_State_onStat (a₀ : State) (s : State) (h : Hdr) (b : StatB) (hk : Keeps a₀ s) : Keeps a₀ (State.onStat s h b) := by
  unfold State.onStat
  try dsimp only
  repeat' first
    | with_reducible assumption
    | ((with_reducible refine RingSub.of ?_) ; exact rfl) | ((with_reducible refine PortSub.of ?_) ; exact rfl) | with_reducible exact PortSub.reset _
    | (intro x hx)
    | (with_reducible exact Keeps.mk (by assumption) rfl rfl rfl rfl rfl rfl rfl rfl rfl)
    | with_reducible apply keeps_State_onPart
    | with_reducible apply Keeps.ite
    | with_reducible refine Keeps.foldl ?_ (fun s b hb => ?_)
    | split
    | (with_reducible apply Keeps.mk ; rotate_left ; iterate 9 (exact rfl))

theorem keeps_State_onWin (a₀ : State) (s : State) (h : Hdr) (b : WinB) (hk : Keeps a₀ s) : Keeps a₀ (State.onWin s h b) := by
  unfold State.onWin
  try dsimp only
  repeat' first
    | with_reducible assumption
    | ((with_reducible refine RingSub.of ?_) ; exact rfl) | ((with_reducible refine PortSub.of ?_) ; exact rfl) | with_reducible exact PortSub.reset _
    | (intro x hx)
    | (with_reducible exact Keeps.mk (by assumption) rfl rfl rfl rfl rfl rfl rfl rfl rfl)
    | with_reducible apply keeps_State_onPart
    | with_reducible apply Keeps.ite
    | with_reducible refine Keeps.foldl ?_ (fun s b hb => ?_)
    | split
    | (with_reducible apply Keeps.mk ; rotate_left ; iterate 9 (exact rfl))

theorem keeps_State_onTopm (a₀ : State) (s : State) (h : Hdr) (b : List (Nat × F32)) (hk : Keeps a₀ s) : Keeps a₀ (State.onTopm s h b) := by
  unfold State.onTopm
  try dsimp only
  repeat' first
    | with_reducible assumption
    | ((with_reducible refine RingSub.of ?_) ; exact rfl) | ((with_reducible refine PortSub.of ?_) ; exact rfl) | with_reducible exact PortSub.reset _
    | (intro x hx)
    | (with_reducible exact Keeps.mk (by assumption) rfl rfl rfl rfl rfl rfl rfl rfl rfl)
    | with_reducible apply keeps_State_onPart
    | with_reducible apply Keeps.ite
    | with_reducible refine Keeps.foldl ?_ (fun s b hb => ?_)
    | split
    | (with_reducible apply Keeps.mk ; rotate_left ; iterate 9 (exact rfl))

theorem keeps_State_onTgt (a₀ : State) (s : State) (h : Hdr) (b : Option CandRec) (hk : Keeps a₀ s) : Keeps a₀ (State.onTgt s h b) := by
  unfold State.onTgt
  try dsimp only
  repeat' first
    | with_reducible assumption
    | ((with_reducible refine RingSub.of ?_) ; exact rfl) | ((with_reducible refine PortSub.of ?_) ; exact rfl) | with_reducible exact PortSub.reset _
    | (intro x hx)
    | (with_reducible exact Keeps.mk (by assumption) rfl rfl rfl rfl rfl rfl rfl rfl rfl)
    | with_reducible apply keeps_State_onPart
    | with_reducible apply Keeps.ite
    | with_reducible refine Keeps.foldl ?_ (fun s b hb => ?_)
    | split
    | (with_reducible apply Keeps.mk ; rotate_left ; iterate 9 (exact rfl))

theorem keeps_State_onCand (a₀ : State) (s : State) (h : Hdr) (b : List CandRec) (hk : Keeps a₀ s) : Keeps a₀ (State.onCand s h b) := by
  unfold State.onCand
  try dsimp only
  repeat' first
    | with_reducible assumption
    | ((with_reducible refine RingSub.of ?_) ; exact rfl) | ((with_reducible refine PortSub.of ?_) ; exact rfl) | with_reducible exact PortSub.reset _
    | (intro x hx)
    | (with_reducible exact Keeps.mk (by assumption) rfl rfl rfl rfl rfl rfl rfl rfl rfl)
    | with_reducible apply keeps_State_onPart
    | with_reducible apply Keeps.ite
    | with_reducible refine Keeps.foldl ?_ (fun s b hb => ?_)
    | split
    | (with_reducible apply Keeps.mk ; rotate_left ; iterate 9 (exact rfl))

end Sys2Proof.Laws
end

