-- ==== Sys2Proof/Laws/Keeps/Assembler.lean ====
section
/-! SUPPORT. What the operations of Machine/Assembler.lean keep (Laws/Keeps/Base.lean). -/

namespace Sys2Proof.Laws

open Sys2Proof.Machine

set_option linter.unreachableTactic false
set_option linter.unusedTactic false
set_option linter.unusedVariables false

theorem keeps_State_settleHere (a₀ : State) (s : State) (k : RowKey) (kind cause : Nat) (hk : Keeps a₀ s) : Keeps a₀ (State.settleHere s k kind cause) := by
  unfold State.settleHere
  try dsimp only
  repeat' first
    | with_reducible assumption
    | ((with_reducible refine RingSub.of ?_) ; exact rfl) | ((with_reducible refine PortSub.of ?_) ; exact rfl) | with_reducible exact PortSub.reset _
    | (intro x hx)
    | (with_reducible exact Keeps.mk (by assumption) rfl rfl rfl rfl rfl rfl rfl rfl rfl)
    | with_reducible apply keeps_State_pump | with_reducible apply keeps_State_fallback | with_reducible apply keeps_State_voidRow
    | with_reducible apply Keeps.ite
    | with_reducible refine Keeps.foldl ?_ (fun s b hb => ?_)
    | split
    | (with_reducible apply Keeps.mk ; rotate_left ; iterate 9 (exact rfl))

theorem keeps_State_putAsm (a₀ : State) (s : State) (old new : AsmRow) (hk : Keeps a₀ s) : Keeps a₀ (State.putAsm s old new) := by
  unfold State.putAsm
  try dsimp only
  repeat' first
    | with_reducible assumption
    | ((with_reducible refine RingSub.of ?_) ; exact rfl) | ((with_reducible refine PortSub.of ?_) ; exact rfl) | with_reducible exact PortSub.reset _
    | (intro x hx)
    | (with_reducible exact Keeps.mk (by assumption) rfl rfl rfl rfl rfl rfl rfl rfl rfl)
    
    | with_reducible apply Keeps.ite
    | with_reducible refine Keeps.foldl ?_ (fun s b hb => ?_)
    | split
    | (with_reducible apply Keeps.mk ; rotate_left ; iterate 9 (exact rfl))

theorem keeps_State_dropAsm (a₀ : State) (s : State) (k : RowKey) (hk : Keeps a₀ s) : Keeps a₀ (State.dropAsm s k) := by
  unfold State.dropAsm
  try dsimp only
  repeat' first
    | with_reducible assumption
    | ((with_reducible refine RingSub.of ?_) ; exact rfl) | ((with_reducible refine PortSub.of ?_) ; exact rfl) | with_reducible exact PortSub.reset _
    | (intro x hx)
    | (with_reducible exact Keeps.mk (by assumption) rfl rfl rfl rfl rfl rfl rfl rfl rfl)
    
    | with_reducible apply Keeps.ite
    | with_reducible refine Keeps.foldl ?_ (fun s b hb => ?_)
    | split
    | (with_reducible apply Keeps.mk ; rotate_left ; iterate 9 (exact rfl))

theorem keeps_State_tellSettle (a₀ : State) (s : State) (sh : Nat) (k : RowKey) (kind cause : Nat) (hk : Keeps a₀ s) : Keeps a₀ (State.tellSettle s sh k kind cause) := by
  unfold State.tellSettle
  try dsimp only
  repeat' first
    | with_reducible assumption
    | ((with_reducible refine RingSub.of ?_) ; exact rfl) | ((with_reducible refine PortSub.of ?_) ; exact rfl) | with_reducible exact PortSub.reset _
    | (intro x hx)
    | (with_reducible exact Keeps.mk (by assumption) rfl rfl rfl rfl rfl rfl rfl rfl rfl)
    | with_reducible apply keeps_State_sendMsg | with_reducible apply keeps_State_settleHere
    | with_reducible apply Keeps.ite
    | with_reducible refine Keeps.foldl ?_ (fun s b hb => ?_)
    | split
    | (with_reducible apply Keeps.mk ; rotate_left ; iterate 9 (exact rfl))

theorem keeps_State_sweep (a : State) (n : Nat) (s : State) (k : RowKey) (hk : Keeps a s) : Keeps a (State.sweep n s k) := by
  induction n generalizing s with
  | zero => exact hk
  | succ n ih =>
    unfold State.sweep
    dsimp only
    split
    · exact hk
    · refine Keeps.ite hk ?_
      have h1 : ∀ l : List Nat, Keeps a (l.foldl (fun (s : State) sh => s.tellSettle sh k kHold 0) s) :=
        fun l => Keeps.foldl hk (fun s b hb => keeps_State_tellSettle _ _ _ _ _ _ hb)
      exact Keeps.ite (ih _ (Keeps.mk (h1 _) rfl rfl rfl rfl rfl rfl rfl rfl rfl)) (keeps_State_putAsm _ _ _ _ (h1 _))

theorem keeps_State_retireAsm (a₀ : State) (s : State) (k : RowKey) (hk : Keeps a₀ s) : Keeps a₀ (State.retireAsm s k) := by
  unfold State.retireAsm
  try dsimp only
  repeat' first
    | with_reducible assumption
    | ((with_reducible refine RingSub.of ?_) ; exact rfl) | ((with_reducible refine PortSub.of ?_) ; exact rfl) | with_reducible exact PortSub.reset _
    | (intro x hx)
    | (with_reducible exact Keeps.mk (by assumption) rfl rfl rfl rfl rfl rfl rfl rfl rfl)
    | with_reducible apply keeps_State_putAsm | with_reducible apply keeps_State_sweep
    | with_reducible apply Keeps.ite
    | with_reducible refine Keeps.foldl ?_ (fun s b hb => ?_)
    | split
    | (with_reducible apply Keeps.mk ; rotate_left ; iterate 9 (exact rfl))

theorem keeps_State_forget (a₀ : State) (s : State) (k : RowKey) (hk : Keeps a₀ s) : Keeps a₀ (State.forget s k) := by
  unfold State.forget
  try dsimp only
  repeat' first
    | with_reducible assumption
    | ((with_reducible refine RingSub.of ?_) ; exact rfl) | ((with_reducible refine PortSub.of ?_) ; exact rfl) | with_reducible exact PortSub.reset _
    | (intro x hx)
    | (with_reducible exact Keeps.mk (by assumption) rfl rfl rfl rfl rfl rfl rfl rfl rfl)
    
    | with_reducible apply Keeps.ite
    | with_reducible refine Keeps.foldl ?_ (fun s b hb => ?_)
    | split
    | (with_reducible apply Keeps.mk ; rotate_left ; iterate 9 (exact rfl))

theorem keeps_State_settleUnplaced (a₀ : State) (s : State) (k : RowKey) (kind cause : Nat) (hk : Keeps a₀ s) : Keeps a₀ (State.settleUnplaced s k kind cause) := by
  unfold State.settleUnplaced
  try dsimp only
  repeat' first
    | with_reducible assumption
    | ((with_reducible refine RingSub.of ?_) ; exact rfl) | ((with_reducible refine PortSub.of ?_) ; exact rfl) | with_reducible exact PortSub.reset _
    | (intro x hx)
    | (with_reducible exact Keeps.mk (by assumption) rfl rfl rfl rfl rfl rfl rfl rfl rfl)
    | with_reducible apply keeps_State_tellSettle | with_reducible apply keeps_State_retireAsm
    | with_reducible apply Keeps.ite
    | with_reducible refine Keeps.foldl ?_ (fun s b hb => ?_)
    | split
    | (with_reducible apply Keeps.mk ; rotate_left ; iterate 9 (exact rfl))

theorem keeps_State_checkCopies (a₀ : State) (s : State) (k : RowKey) (hk : Keeps a₀ s) : Keeps a₀ (State.checkCopies s k) := by
  unfold State.checkCopies
  try dsimp only
  repeat' first
    | with_reducible assumption
    | ((with_reducible refine RingSub.of ?_) ; exact rfl) | ((with_reducible refine PortSub.of ?_) ; exact rfl) | with_reducible exact PortSub.reset _
    | (intro x hx)
    | (with_reducible exact Keeps.mk (by assumption) rfl rfl rfl rfl rfl rfl rfl rfl rfl)
    | with_reducible apply keeps_State_contained | with_reducible apply keeps_State_settleUnplaced
    | with_reducible apply Keeps.ite
    | with_reducible refine Keeps.foldl ?_ (fun s b hb => ?_)
    | split
    | (with_reducible apply Keeps.mk ; rotate_left ; iterate 9 (exact rfl))

theorem keeps_State_testBalance (a₀ : State) (s : State) (k : RowKey) (hk : Keeps a₀ s) : Keeps a₀ (State.testBalance s k) := by
  unfold State.testBalance
  try dsimp only
  repeat' first
    | with_reducible assumption
    | ((with_reducible refine RingSub.of ?_) ; exact rfl) | ((with_reducible refine PortSub.of ?_) ; exact rfl) | with_reducible exact PortSub.reset _
    | (intro x hx)
    | (with_reducible exact Keeps.mk (by assumption) rfl rfl rfl rfl rfl rfl rfl rfl rfl)
    
    | with_reducible apply Keeps.ite
    | with_reducible refine Keeps.foldl ?_ (fun s b hb => ?_)
    | split
    | (with_reducible apply Keeps.mk ; rotate_left ; iterate 9 (exact rfl))

theorem keeps_State_endBalance (a₀ : State) (s : State) (poor : Bool) (ks : List RowKey) (hk : Keeps a₀ s) : Keeps a₀ (State.endBalance s poor ks) := by
  unfold State.endBalance
  try dsimp only
  repeat' first
    | with_reducible assumption
    | ((with_reducible refine RingSub.of ?_) ; exact rfl) | ((with_reducible refine PortSub.of ?_) ; exact rfl) | with_reducible exact PortSub.reset _
    | (intro x hx)
    | (with_reducible exact Keeps.mk (by assumption) rfl rfl rfl rfl rfl rfl rfl rfl rfl)
    | with_reducible apply keeps_State_settleUnplaced
    | with_reducible apply Keeps.ite
    | with_reducible refine Keeps.foldl ?_ (fun s b hb => ?_)
    | split
    | (with_reducible apply Keeps.mk ; rotate_left ; iterate 9 (exact rfl))

theorem keeps_State_balance (a₀ : State) (s : State) (k : RowKey) (hk : Keeps a₀ s) : Keeps a₀ (State.balance s k) := by
  unfold State.balance
  try dsimp only
  repeat' first
    | with_reducible assumption
    | ((with_reducible refine RingSub.of ?_) ; exact rfl) | ((with_reducible refine PortSub.of ?_) ; exact rfl) | with_reducible exact PortSub.reset _
    | (intro x hx)
    | (with_reducible exact Keeps.mk (by assumption) rfl rfl rfl rfl rfl rfl rfl rfl rfl)
    | with_reducible apply keeps_State_endBalance
    | with_reducible apply Keeps.ite
    | with_reducible refine Keeps.foldl ?_ (fun s b hb => ?_)
    | split
    | (with_reducible apply Keeps.mk ; rotate_left ; iterate 9 (exact rfl))

theorem keeps_State_takeNotice (a₀ : State) (s : State) (k : RowKey) (sh : Nat) (dcrc : Word) (tick : Nat) (dead : Bool) (hk : Keeps a₀ s) :
    Keeps a₀ (s.takeNotice k sh dcrc tick dead) := by
  unfold State.takeNotice
  dsimp only
  refine Keeps.ite hk ?_
  have h1 : ∀ x y, Keeps a₀ (s.putAsm x y) := fun x y => keeps_State_putAsm _ _ _ _ hk
  refine Keeps.ite (keeps_State_sweep _ _ _ _ (h1 _ _)) (keeps_State_balance _ _ _ (keeps_State_checkCopies _ _ _ ?_))
  exact Keeps.ite (keeps_State_testBalance _ _ _ (h1 _ _)) (h1 _ _)

theorem keeps_State_onAdmit (a₀ : State) (s : State) (h : Hdr) (b : AdmitB) (hk : Keeps a₀ s) : Keeps a₀ (State.onAdmit s h b) := by
  unfold State.onAdmit
  try dsimp only
  repeat' first
    | with_reducible assumption
    | ((with_reducible refine RingSub.of ?_) ; exact rfl) | ((with_reducible refine PortSub.of ?_) ; exact rfl) | with_reducible exact PortSub.reset _
    | (intro x hx)
    | (with_reducible exact Keeps.mk (by assumption) rfl rfl rfl rfl rfl rfl rfl rfl rfl)
    | with_reducible apply keeps_State_contained | with_reducible apply keeps_State_passOn | with_reducible apply keeps_State_takeNotice
    | with_reducible apply Keeps.ite
    | with_reducible refine Keeps.foldl ?_ (fun s b hb => ?_)
    | split
    | (with_reducible apply Keeps.mk ; rotate_left ; iterate 9 (exact rfl))

theorem keeps_State_notify (a₀ : State) (s : State) (r : Row) (dead : Bool) (hk : Keeps a₀ s) : Keeps a₀ (State.notify s r dead) := by
  unfold State.notify
  try dsimp only
  repeat' first
    | with_reducible assumption
    | ((with_reducible refine RingSub.of ?_) ; exact rfl) | ((with_reducible refine PortSub.of ?_) ; exact rfl) | with_reducible exact PortSub.reset _
    | (intro x hx)
    | (with_reducible exact Keeps.mk (by assumption) rfl rfl rfl rfl rfl rfl rfl rfl rfl)
    | with_reducible apply keeps_State_sendMsg | with_reducible apply keeps_State_takeNotice
    | with_reducible apply Keeps.ite
    | with_reducible refine Keeps.foldl ?_ (fun s b hb => ?_)
    | split
    | (with_reducible apply Keeps.mk ; rotate_left ; iterate 9 (exact rfl))

theorem keeps_State_placeUnit (a₀ : State) (s : State) (o : OpenPun) (u : List Cand) (hk : Keeps a₀ s) : Keeps a₀ (State.placeUnit s o u) := by
  unfold State.placeUnit
  try dsimp only
  repeat' first
    | with_reducible assumption
    | ((with_reducible refine RingSub.of ?_) ; exact rfl) | ((with_reducible refine PortSub.of ?_) ; exact rfl) | with_reducible exact PortSub.reset _
    | (intro x hx)
    | (with_reducible exact Keeps.mk (by assumption) rfl rfl rfl rfl rfl rfl rfl rfl rfl)
    
    | with_reducible apply Keeps.ite
    | with_reducible refine Keeps.foldl ?_ (fun s b hb => ?_)
    | split
    | (with_reducible apply Keeps.mk ; rotate_left ; iterate 9 (exact rfl))

theorem keeps_State_startAcks (a₀ : State) (s : State) (num : Nat) (hk : Keeps a₀ s) : Keeps a₀ (State.startAcks s num) := by
  unfold State.startAcks
  try dsimp only
  repeat' first
    | with_reducible assumption
    | ((with_reducible refine RingSub.of ?_) ; exact rfl) | ((with_reducible refine PortSub.of ?_) ; exact rfl) | with_reducible exact PortSub.reset _
    | (intro x hx)
    | (with_reducible exact Keeps.mk (by assumption) rfl rfl rfl rfl rfl rfl rfl rfl rfl)
    
    | with_reducible apply Keeps.ite
    | with_reducible refine Keeps.foldl ?_ (fun s b hb => ?_)
    | split
    | (with_reducible apply Keeps.mk ; rotate_left ; iterate 9 (exact rfl))

theorem keeps_State_tellVacates (a₀ : State) (s : State) (hk : Keeps a₀ s) : Keeps a₀ (State.tellVacates s) := by
  unfold State.tellVacates
  try dsimp only
  repeat' first
    | with_reducible assumption
    | ((with_reducible refine RingSub.of ?_) ; exact rfl) | ((with_reducible refine PortSub.of ?_) ; exact rfl) | with_reducible exact PortSub.reset _
    | (intro x hx)
    | (with_reducible exact Keeps.mk (by assumption) rfl rfl rfl rfl rfl rfl rfl rfl rfl)
    | with_reducible apply keeps_State_bcastOthers | with_reducible apply keeps_State_setVacate
    | with_reducible apply Keeps.ite
    | with_reducible refine Keeps.foldl ?_ (fun s b hb => ?_)
    | split
    | (with_reducible apply Keeps.mk ; rotate_left ; iterate 9 (exact rfl))

theorem keeps_State_closeWith (a : State) (s : State) (ps : List Placed) (hk : Keeps a s) : Keeps a (s.closeWith ps) := by
  have h0 := keeps_State_tellVacates a s hk
  unfold State.closeWith
  extract_lets s num b adm adms again s0 asm s1 s2 old new s3
  have h1 : Keeps a s1 := Keeps.mk (keeps_State_startAcks a s num h0) rfl rfl rfl rfl rfl rfl rfl rfl rfl
  have h2 : Keeps a s2 := keeps_State_applyClose _ _ _ _ (keeps_State_bcastOthers _ _ _ h1)
  exact keeps_State_bumpN _ _ _ _ (Keeps.mk h2 rfl rfl rfl rfl rfl rfl rfl rfl rfl)

theorem keeps_State_closeOpen (a : State) (s : State) (o : OpenPun) (hk : Keeps a s) : Keeps a (s.closeOpen o) := by
  unfold State.closeOpen
  exact Keeps.ite (Keeps.mk hk rfl rfl rfl rfl rfl rfl rfl rfl rfl) (keeps_State_closeWith _ _ _ hk)

theorem keeps_State_openBoundary (a₀ : State) (s : State) (hk : Keeps a₀ s) : Keeps a₀ (State.openBoundary s) := by
  unfold State.openBoundary
  try dsimp only
  repeat' first
    | with_reducible assumption
    | ((with_reducible refine RingSub.of ?_) ; exact rfl) | ((with_reducible refine PortSub.of ?_) ; exact rfl) | with_reducible exact PortSub.reset _
    | (intro x hx)
    | (with_reducible exact Keeps.mk (by assumption) rfl rfl rfl rfl rfl rfl rfl rfl rfl)
    | with_reducible apply keeps_State_endJobs | with_reducible apply keeps_State_tellFrom | with_reducible apply keeps_State_takePend
    | with_reducible apply Keeps.ite
    | with_reducible refine Keeps.foldl ?_ (fun s b hb => ?_)
    | split
    | (with_reducible apply Keeps.mk ; rotate_left ; iterate 9 (exact rfl))

theorem keeps_State_openPunnet (a₀ : State) (s : State) (hk : Keeps a₀ s) : Keeps a₀ (State.openPunnet s) := by
  unfold State.openPunnet
  try dsimp only
  repeat' first
    | with_reducible assumption
    | ((with_reducible refine RingSub.of ?_) ; exact rfl) | ((with_reducible refine PortSub.of ?_) ; exact rfl) | with_reducible exact PortSub.reset _
    | (intro x hx)
    | (with_reducible exact Keeps.mk (by assumption) rfl rfl rfl rfl rfl rfl rfl rfl rfl)
    | with_reducible apply keeps_State_openBoundary
    | with_reducible apply Keeps.ite
    | with_reducible refine Keeps.foldl ?_ (fun s b hb => ?_)
    | split
    | (with_reducible apply Keeps.mk ; rotate_left ; iterate 9 (exact rfl))

theorem keeps_State_assembleGo (a : State) (k : Nat) (s : State) (hk : Keeps a s) : Keeps a (State.assembleGo k s) := by
  induction k generalizing s with
  | zero => exact hk
  | succ k ih =>
    unfold State.assembleGo
    split
    · refine Keeps.ite hk (Keeps.ite (ih _ (keeps_State_openPunnet _ _ hk)) (Keeps.ite (ih _ ?_) hk))
      exact keeps_State_closeWith _ _ _ (keeps_State_openBoundary _ _ hk)
    · refine Keeps.ite (ih _ (keeps_State_closeOpen _ _ _ hk)) ?_
      have hn : ∀ o : Option OpenPun, Keeps a { s with asm := { s.asm with punOpen := o } } := fun _ => Keeps.mk hk rfl rfl rfl rfl rfl rfl rfl rfl rfl
      split
      · refine Keeps.ite (ih _ (Keeps.foldl hk (fun s b hb => keeps_State_settleUnplaced _ _ _ _ _ hb))) ?_
        exact Keeps.ite (ih _ (keeps_State_placeUnit _ _ _ _ hk)) (Keeps.ite (hn _) (ih _ (keeps_State_closeOpen _ _ _ hk)))
      · exact Keeps.ite (hn _) (Keeps.ite (ih _ (keeps_State_closeOpen _ _ _ hk)) hk)

theorem keeps_State_assemble (a₀ : State) (s : State) (hk : Keeps a₀ s) : Keeps a₀ (State.assemble s) := by
  unfold State.assemble
  try dsimp only
  repeat' first
    | with_reducible assumption
    | ((with_reducible refine RingSub.of ?_) ; exact rfl) | ((with_reducible refine PortSub.of ?_) ; exact rfl) | with_reducible exact PortSub.reset _
    | (intro x hx)
    | (with_reducible exact Keeps.mk (by assumption) rfl rfl rfl rfl rfl rfl rfl rfl rfl)
    | with_reducible apply keeps_State_assembleGo
    | with_reducible apply Keeps.ite
    | with_reducible refine Keeps.foldl ?_ (fun s b hb => ?_)
    | split
    | (with_reducible apply Keeps.mk ; rotate_left ; iterate 9 (exact rfl))

theorem keeps_State_dropStray (a₀ : State) (s : State) (k : RowKey) (hk : Keeps a₀ s) : Keeps a₀ (State.dropStray s k) := by
  unfold State.dropStray
  try dsimp only
  repeat' first
    | with_reducible assumption
    | ((with_reducible refine RingSub.of ?_) ; exact rfl) | ((with_reducible refine PortSub.of ?_) ; exact rfl) | with_reducible exact PortSub.reset _
    | (intro x hx)
    | (with_reducible exact Keeps.mk (by assumption) rfl rfl rfl rfl rfl rfl rfl rfl rfl)
    | with_reducible apply keeps_State_bump | with_reducible apply keeps_State_dropAsm
    | with_reducible apply Keeps.ite
    | with_reducible refine Keeps.foldl ?_ (fun s b hb => ?_)
    | split
    | (with_reducible apply Keeps.mk ; rotate_left ; iterate 9 (exact rfl))

theorem keeps_State_skewExpired (a₀ : State) (s : State) (k : RowKey) (hk : Keeps a₀ s) : Keeps a₀ (State.skewExpired s k) := by
  unfold State.skewExpired
  try dsimp only
  repeat' first
    | with_reducible assumption
    | ((with_reducible refine RingSub.of ?_) ; exact rfl) | ((with_reducible refine PortSub.of ?_) ; exact rfl) | with_reducible exact PortSub.reset _
    | (intro x hx)
    | (with_reducible exact Keeps.mk (by assumption) rfl rfl rfl rfl rfl rfl rfl rfl rfl)
    | with_reducible apply keeps_State_contained | with_reducible apply keeps_State_forget | with_reducible apply keeps_State_settleUnplaced
    | with_reducible apply Keeps.ite
    | with_reducible refine Keeps.foldl ?_ (fun s b hb => ?_)
    | split
    | (with_reducible apply Keeps.mk ; rotate_left ; iterate 9 (exact rfl))

theorem keeps_State_asmDeadline (a₀ : State) (s : State) (k : RowKey) (hk : Keeps a₀ s) : Keeps a₀ (State.asmDeadline s k) := by
  unfold State.asmDeadline
  try dsimp only
  repeat' first
    | with_reducible assumption
    | ((with_reducible refine RingSub.of ?_) ; exact rfl) | ((with_reducible refine PortSub.of ?_) ; exact rfl) | with_reducible exact PortSub.reset _
    | (intro x hx)
    | (with_reducible exact Keeps.mk (by assumption) rfl rfl rfl rfl rfl rfl rfl rfl rfl)
    | with_reducible apply keeps_State_dropAsm | with_reducible apply keeps_State_retireAsm | with_reducible apply keeps_State_forget
    | with_reducible apply Keeps.ite
    | with_reducible refine Keeps.foldl ?_ (fun s b hb => ?_)
    | split
    | (with_reducible apply Keeps.mk ; rotate_left ; iterate 9 (exact rfl))

theorem keeps_State_onClose (a₀ : State) (s : State) (h : Hdr) (b : CloseB) (hk : Keeps a₀ s) : Keeps a₀ (State.onClose s h b) := by
  unfold State.onClose
  try dsimp only
  repeat' first
    | with_reducible assumption
    | ((with_reducible refine RingSub.of ?_) ; exact rfl) | ((with_reducible refine PortSub.of ?_) ; exact rfl) | with_reducible exact PortSub.reset _
    | (intro x hx)
    | (with_reducible exact Keeps.mk (by assumption) rfl rfl rfl rfl rfl rfl rfl rfl rfl)
    | with_reducible apply keeps_State_contained | with_reducible apply keeps_State_passOn | with_reducible apply keeps_State_applyClose
    | with_reducible apply Keeps.ite
    | with_reducible refine Keeps.foldl ?_ (fun s b hb => ?_)
    | split
    | (with_reducible apply Keeps.mk ; rotate_left ; iterate 9 (exact rfl))

end Sys2Proof.Laws
end

