-- ==== Sys2Proof/Laws/Keeps/Cfg.lean ====
section
/-! SUPPORT. What the operations of Machine/Cfg.lean keep (Laws/Keeps/Base.lean). -/

namespace Sys2Proof.Laws

open Sys2Proof.Machine

set_option linter.unreachableTactic false
set_option linter.unusedTactic false
set_option linter.unusedVariables false

theorem keeps_State_phaseJob (a₀ : State) (s : State) (o : Origin) (pk : Pkt) (hk : Keeps a₀ s) : Keeps a₀ (State.phaseJob s o pk) := by
  unfold State.phaseJob
  try dsimp only
  repeat' first
    | with_reducible assumption
    | ((with_reducible refine RingSub.of ?_) ; exact rfl) | ((with_reducible refine PortSub.of ?_) ; exact rfl) | with_reducible exact PortSub.reset _
    | (intro x hx)
    | (with_reducible exact Keeps.mk (by assumption) rfl rfl rfl rfl rfl rfl rfl rfl rfl)
    | with_reducible apply keeps_State_addJob
    | with_reducible apply Keeps.ite
    | with_reducible refine Keeps.foldl ?_ (fun s b hb => ?_)
    | split
    | (with_reducible apply Keeps.mk ; rotate_left ; iterate 9 (exact rfl))

theorem keeps_cfgSetD (a : State) (o : Origin) (pk : Pkt) (s : State) (hs : s.blk = Blk.safe → cfgSetD.legal.contains Blk.safe = true) (hk : Keeps a s) : Keeps a (cfgSetD.run o pk s) := by
  simp only [cfgSetD]
  repeat' first
    | with_reducible assumption
    | ((with_reducible refine RingSub.of ?_) ; exact rfl) | ((with_reducible refine PortSub.of ?_) ; exact rfl) | with_reducible exact PortSub.reset _
    | (intro x hx)
    | (with_reducible exact Keeps.mk (by assumption) rfl rfl rfl rfl rfl rfl rfl rfl rfl)
    | with_reducible apply keeps_State_finish | with_reducible apply keeps_State_tellFrom | with_reducible apply keeps_State_putSet | with_reducible apply keeps_State_phaseJob
    | with_reducible apply Keeps.ite
    | with_reducible refine Keeps.foldl ?_ (fun s b hb => ?_)
    | split
    | (with_reducible apply Keeps.mk ; rotate_left ; iterate 9 (exact rfl))

theorem keeps_cfgPhaseD (a : State) (o : Origin) (pk : Pkt) (s : State) (hs : s.blk = Blk.safe → cfgPhaseD.legal.contains Blk.safe = true) (hk : Keeps a s) : Keeps a (cfgPhaseD.run o pk s) := by
  simp only [cfgPhaseD]
  repeat' first
    | with_reducible assumption
    | ((with_reducible refine RingSub.of ?_) ; exact rfl) | ((with_reducible refine PortSub.of ?_) ; exact rfl) | with_reducible exact PortSub.reset _
    | (intro x hx)
    | (with_reducible exact Keeps.mk (by assumption) rfl rfl rfl rfl rfl rfl rfl rfl rfl)
    | with_reducible apply keeps_State_logSwap | with_reducible apply keeps_State_phaseJob
    | with_reducible apply Keeps.ite
    | with_reducible refine Keeps.foldl ?_ (fun s b hb => ?_)
    | split
    | (with_reducible apply Keeps.mk ; rotate_left ; iterate 9 (exact rfl))

theorem keeps_cfgRegionD (a : State) (o : Origin) (pk : Pkt) (s : State) (hs : s.blk = Blk.safe → cfgRegionD.legal.contains Blk.safe = true) (hk : Keeps a s) : Keeps a (cfgRegionD.run o pk s) := by
  simp only [cfgRegionD]
  repeat' first
    | with_reducible assumption
    | ((with_reducible refine RingSub.of ?_) ; exact rfl) | ((with_reducible refine PortSub.of ?_) ; exact rfl) | with_reducible exact PortSub.reset _
    | (intro x hx)
    | (with_reducible exact Keeps.mk (by assumption) rfl rfl rfl rfl rfl rfl rfl rfl rfl)
    | with_reducible apply keeps_State_finish | with_reducible apply keeps_State_nameDir | with_reducible apply keeps_State_nameProfs
    | with_reducible apply Keeps.ite
    | with_reducible refine Keeps.foldl ?_ (fun s b hb => ?_)
    | split
    | (with_reducible apply Keeps.mk ; rotate_left ; iterate 9 (exact rfl))

theorem keeps_cfgRingD (a : State) (o : Origin) (pk : Pkt) (s : State) (hs : s.blk = Blk.safe → cfgRingD.legal.contains Blk.safe = true) (hk : Keeps a s) : Keeps a (cfgRingD.run o pk s) := by
  simp only [cfgRingD]
  repeat' first
    | with_reducible assumption
    | ((with_reducible refine RingSub.of ?_) ; exact rfl) | ((with_reducible refine PortSub.of ?_) ; exact rfl) | with_reducible exact PortSub.reset _
    | (intro x hx)
    | (with_reducible exact Keeps.mk (by assumption) rfl rfl rfl rfl rfl rfl rfl rfl rfl)
    | with_reducible apply keeps_State_finish | with_reducible apply keeps_State_setCring
    | with_reducible apply Keeps.ite
    | with_reducible refine Keeps.foldl ?_ (fun s b hb => ?_)
    | split
    | (with_reducible apply Keeps.mk ; rotate_left ; iterate 9 (exact rfl))

theorem keeps_cfgHeadsetD (a : State) (o : Origin) (pk : Pkt) (s : State) (hs : s.blk = Blk.safe → cfgHeadsetD.legal.contains Blk.safe = true) (hk : Keeps a s) : Keeps a (cfgHeadsetD.run o pk s) := by
  simp only [cfgHeadsetD]
  repeat' first
    | with_reducible assumption
    | ((with_reducible refine RingSub.of ?_) ; exact rfl) | ((with_reducible refine PortSub.of ?_) ; exact rfl) | with_reducible exact PortSub.reset _
    | (intro x hx)
    | (with_reducible exact Keeps.mk (by assumption) rfl rfl rfl rfl rfl rfl rfl rfl rfl)
    | with_reducible apply keeps_State_finish | with_reducible apply keeps_State_tellMembers | with_reducible apply keeps_State_repartition
    | with_reducible apply Keeps.ite
    | with_reducible refine Keeps.foldl ?_ (fun s b hb => ?_)
    | split
    | (with_reducible apply Keeps.mk ; rotate_left ; iterate 9 (exact rfl))

theorem keeps_cfgSlotD (a : State) (o : Origin) (pk : Pkt) (s : State) (hs : s.blk = Blk.safe → cfgSlotD.legal.contains Blk.safe = true) (hk : Keeps a s) : Keeps a (cfgSlotD.run o pk s) := by
  simp only [cfgSlotD]
  repeat' first
    | with_reducible assumption
    | ((with_reducible refine RingSub.of ?_) ; exact rfl) | ((with_reducible refine PortSub.of ?_) ; exact rfl) | with_reducible exact PortSub.reset _
    | (intro x hx)
    | (with_reducible exact Keeps.mk (by assumption) rfl rfl rfl rfl rfl rfl rfl rfl rfl)
    | with_reducible apply keeps_State_finish | with_reducible apply keeps_State_setBank
    | with_reducible apply Keeps.ite
    | with_reducible refine Keeps.foldl ?_ (fun s b hb => ?_)
    | split
    | (with_reducible apply Keeps.mk ; rotate_left ; iterate 9 (exact rfl))

end Sys2Proof.Laws
end

