-- ==== Sys2Proof/Laws/Keeps/Req.lean ====
section
/-! SUPPORT. What the operations of Machine/Req.lean keep (Laws/Keeps/Base.lean). -/

namespace Sys2Proof.Laws

open Sys2Proof.Machine

set_option linter.unreachableTactic false
set_option linter.unusedTactic false
set_option linter.unusedVariables false

theorem keeps_State_tellEach (a₀ : State) (s : State) (o : Origin) (pk : Pkt) (hk : Keeps a₀ s) : Keeps a₀ (State.tellEach s o pk) := by
  unfold State.tellEach
  try dsimp only
  repeat' first
    | with_reducible assumption
    | ((with_reducible refine RingSub.of ?_) ; exact rfl) | ((with_reducible refine PortSub.of ?_) ; exact rfl) | with_reducible exact PortSub.reset _
    | (intro x hx)
    | (with_reducible exact Keeps.mk (by assumption) rfl rfl rfl rfl rfl rfl rfl rfl rfl)
    | with_reducible apply keeps_State_sendTo
    | with_reducible apply Keeps.ite
    | with_reducible refine Keeps.foldl ?_ (fun s b hb => ?_)
    | split
    | (with_reducible apply Keeps.mk ; rotate_left ; iterate 9 (exact rfl))

theorem keeps_State_dropTent (a₀ : State) (s : State) (n : Nat) (hk : Keeps a₀ s) : Keeps a₀ (State.dropTent s n) := by
  unfold State.dropTent
  try dsimp only
  repeat' first
    | with_reducible assumption
    | ((with_reducible refine RingSub.of ?_) ; exact rfl) | ((with_reducible refine PortSub.of ?_) ; exact rfl) | with_reducible exact PortSub.reset _
    | (intro x hx)
    | (with_reducible exact Keeps.mk (by assumption) rfl rfl rfl rfl rfl rfl rfl rfl rfl)
    | with_reducible apply keeps_State_setCtx | with_reducible apply keeps_State_countReturned | with_reducible apply keeps_State_charge
    | with_reducible apply Keeps.ite
    | with_reducible refine Keeps.foldl ?_ (fun s b hb => ?_)
    | split
    | (with_reducible apply Keeps.mk ; rotate_left ; iterate 9 (exact rfl))

theorem keeps_State_closeSlot (a₀ : State) (s : State) (n : Nat) (hk : Keeps a₀ s) : Keeps a₀ (State.closeSlot s n) := by
  unfold State.closeSlot
  try dsimp only
  repeat' first
    | with_reducible assumption
    | ((with_reducible refine RingSub.of ?_) ; exact rfl) | ((with_reducible refine PortSub.of ?_) ; exact rfl) | with_reducible exact PortSub.reset _
    | (intro x hx)
    | (with_reducible exact Keeps.mk (by assumption) rfl rfl rfl rfl rfl rfl rfl rfl rfl)
    | with_reducible apply keeps_State_endJobs | with_reducible apply keeps_State_setSlot | with_reducible apply keeps_State_delCount | with_reducible apply keeps_State_freeParts | with_reducible apply keeps_State_dropTent
    | with_reducible apply Keeps.ite
    | with_reducible refine Keeps.foldl ?_ (fun s b hb => ?_)
    | split
    | (with_reducible apply Keeps.mk ; rotate_left ; iterate 9 (exact rfl))

theorem keeps_State_closeCancelled (a₀ : State) (s : State) (hk : Keeps a₀ s) : Keeps a₀ (State.closeCancelled s) := by
  unfold State.closeCancelled
  try dsimp only
  repeat' first
    | with_reducible assumption
    | ((with_reducible refine RingSub.of ?_) ; exact rfl) | ((with_reducible refine PortSub.of ?_) ; exact rfl) | with_reducible exact PortSub.reset _
    | (intro x hx)
    | (with_reducible exact Keeps.mk (by assumption) rfl rfl rfl rfl rfl rfl rfl rfl rfl)
    | with_reducible apply keeps_State_tellEach | with_reducible apply keeps_State_closeSlot
    | with_reducible apply Keeps.ite
    | with_reducible refine Keeps.foldl ?_ (fun s b hb => ?_)
    | split
    | (with_reducible apply Keeps.mk ; rotate_left ; iterate 9 (exact rfl))

theorem keeps_State_takePrompt (a : State) (s : State) (h : Handle) (i : Nat) (l : List Nat) (hk : Keeps a s) :
    Keeps a (s.takePrompt h i l).1 := by
  induction l generalizing s i with
  | nil => exact hk
  | cons t r ih => exact ih _ _ (keeps_State_setCtx _ _ _ _ (keeps_State_histCommit _ _ _ _ _ _ hk))

theorem keeps_State_settleT0 (a₀ : State) (s : State) (n : Nat) (hk : Keeps a₀ s) : Keeps a₀ (State.settleT0 s n) := by
  unfold State.settleT0
  try dsimp only
  repeat' first
    | with_reducible assumption
    | ((with_reducible refine RingSub.of ?_) ; exact rfl) | ((with_reducible refine PortSub.of ?_) ; exact rfl) | with_reducible exact PortSub.reset _
    | (intro x hx)
    | (with_reducible exact Keeps.mk (by assumption) rfl rfl rfl rfl rfl rfl rfl rfl rfl)
    | with_reducible apply keeps_State_trim
    | with_reducible apply Keeps.ite
    | with_reducible refine Keeps.foldl ?_ (fun s b hb => ?_)
    | split
    | (with_reducible apply Keeps.mk ; rotate_left ; iterate 9 (exact rfl))

theorem keeps_State_openSlot (a : State) (s : State) (pk : Pkt) (hk : Keeps a s) : Keeps a (s.openSlot pk).1 := by
  unfold State.openSlot
  extract_lets b n gen h x0 s1 x1 s2 ts s3
  have h1 : Keeps a s1 := keeps_State_setSlot _ _ _ _ hk
  have h2 : Keeps a s2 := keeps_State_setCount _ _ _ _ (keeps_State_setCtx _ _ _ _ h1)
  have h3 : Keeps a s3 := Keeps.ite (Keeps.foldl h2 (fun s b hb => keeps_State_countToken _ _ _ _ hb)) h2
  clear_value s3
  split
  · exact keeps_State_settleT0 _ _ _ (keeps_State_touchCount _ _ _ (keeps_State_writeHist _ _ _ (keeps_State_takePrompt _ _ _ _ _ h3)))
  · exact keeps_State_settleT0 _ _ _ (keeps_State_touchCount _ _ _ (keeps_State_setCtx _ _ _ _ h3))

theorem keeps_reqOpenD (a : State) (o : Origin) (pk : Pkt) (s : State) (hs : s.blk = Blk.safe → reqOpenD.legal.contains Blk.safe = true) (hk : Keeps a s) :
    Keeps a (reqOpenD.run o pk s) := by
  have h1 := keeps_State_openSlot a s pk hk
  simp only [reqOpenD]
  generalize State.openSlot s pk = e at h1 ⊢
  obtain ⟨s1, h, hr⟩ := e
  cases o with
  | member => exact h1
  | ring r id =>
    exact Keeps.ite (keeps_State_finish _ _ _ _ (keeps_State_tellEach _ _ _ _ h1))
      (keeps_State_pump _ _ (keeps_State_addJob _ _ _ (keeps_State_emit _ _ _ (keeps_State_tellEach _ _ _ _ h1))))
  | fwd sh p r f =>
    exact Keeps.ite (keeps_State_finish _ _ _ _ (keeps_State_tellEach _ _ _ _ h1))
      (keeps_State_pump _ _ (keeps_State_addJob _ _ _ (keeps_State_emit _ _ _ (keeps_State_tellEach _ _ _ _ h1))))

theorem keeps_State_advanceOpens (a₀ : State) (s : State) (hk : Keeps a₀ s) : Keeps a₀ (State.advanceOpens s) := by
  unfold State.advanceOpens
  try dsimp only
  repeat' first
    | with_reducible assumption
    | ((with_reducible refine RingSub.of ?_) ; exact rfl) | ((with_reducible refine PortSub.of ?_) ; exact rfl) | with_reducible exact PortSub.reset _
    | (intro x hx)
    | (with_reducible exact Keeps.mk (by assumption) rfl rfl rfl rfl rfl rfl rfl rfl rfl)
    | with_reducible apply keeps_State_endJobs
    | with_reducible apply Keeps.ite
    | with_reducible refine Keeps.foldl ?_ (fun s b hb => ?_)
    | split
    | (with_reducible apply Keeps.mk ; rotate_left ; iterate 9 (exact rfl))

theorem keeps_reqCloseD (a : State) (o : Origin) (pk : Pkt) (s : State) (hs : s.blk = Blk.safe → reqCloseD.legal.contains Blk.safe = true) (hk : Keeps a s) : Keeps a (reqCloseD.run o pk s) := by
  simp only [reqCloseD]
  repeat' first
    | with_reducible assumption
    | ((with_reducible refine RingSub.of ?_) ; exact rfl) | ((with_reducible refine PortSub.of ?_) ; exact rfl) | with_reducible exact PortSub.reset _
    | (intro x hx)
    | (with_reducible exact Keeps.mk (by assumption) rfl rfl rfl rfl rfl rfl rfl rfl rfl)
    | with_reducible apply keeps_State_finish | with_reducible apply keeps_State_tellEach | with_reducible apply keeps_State_closeSlot
    | with_reducible apply Keeps.ite
    | with_reducible refine Keeps.foldl ?_ (fun s b hb => ?_)
    | split
    | (with_reducible apply Keeps.mk ; rotate_left ; iterate 9 (exact rfl))

theorem keeps_State_setCanc (a₀ : State) (s : State) (h : Handle) (hk : Keeps a₀ s) : Keeps a₀ (State.setCanc s h) := by
  unfold State.setCanc
  try dsimp only
  repeat' first
    | with_reducible assumption
    | ((with_reducible refine RingSub.of ?_) ; exact rfl) | ((with_reducible refine PortSub.of ?_) ; exact rfl) | with_reducible exact PortSub.reset _
    | (intro x hx)
    | (with_reducible exact Keeps.mk (by assumption) rfl rfl rfl rfl rfl rfl rfl rfl rfl)
    | with_reducible apply keeps_State_setCtx | with_reducible apply keeps_State_trim
    | with_reducible apply Keeps.ite
    | with_reducible refine Keeps.foldl ?_ (fun s b hb => ?_)
    | split
    | (with_reducible apply Keeps.mk ; rotate_left ; iterate 9 (exact rfl))

theorem keeps_reqCancelD (a : State) (o : Origin) (pk : Pkt) (s : State) (hs : s.blk = Blk.safe → reqCancelD.legal.contains Blk.safe = true) (hk : Keeps a s) : Keeps a (reqCancelD.run o pk s) := by
  simp only [reqCancelD]
  repeat' first
    | with_reducible assumption
    | ((with_reducible refine RingSub.of ?_) ; exact rfl) | ((with_reducible refine PortSub.of ?_) ; exact rfl) | with_reducible exact PortSub.reset _
    | (intro x hx)
    | (with_reducible exact Keeps.mk (by assumption) rfl rfl rfl rfl rfl rfl rfl rfl rfl)
    | with_reducible apply keeps_State_bcastOthers | with_reducible apply keeps_State_addJob | with_reducible apply keeps_State_setCanc
    | with_reducible apply Keeps.ite
    | with_reducible refine Keeps.foldl ?_ (fun s b hb => ?_)
    | split
    | (with_reducible apply Keeps.mk ; rotate_left ; iterate 9 (exact rfl))

theorem keeps_State_onCancel (a₀ : State) (s : State) (h : Hdr) (k : W64) (hk : Keeps a₀ s) : Keeps a₀ (State.onCancel s h k) := by
  unfold State.onCancel
  try dsimp only
  repeat' first
    | with_reducible assumption
    | ((with_reducible refine RingSub.of ?_) ; exact rfl) | ((with_reducible refine PortSub.of ?_) ; exact rfl) | with_reducible exact PortSub.reset _
    | (intro x hx)
    | (with_reducible exact Keeps.mk (by assumption) rfl rfl rfl rfl rfl rfl rfl rfl rfl)
    | with_reducible apply keeps_State_passOn | with_reducible apply keeps_State_setCanc
    | with_reducible apply Keeps.ite
    | with_reducible refine Keeps.foldl ?_ (fun s b hb => ?_)
    | split
    | (with_reducible apply Keeps.mk ; rotate_left ; iterate 9 (exact rfl))

theorem keeps_State_toT2 (a₀ : State) (a : State × Bool) (n part : Nat) (hk : Keeps a₀ a.1) : Keeps a₀ (State.toT2 a n part).1 := by
  unfold State.toT2
  dsimp only
  split
  · rename_i t ht
    split at ht
    · obtain ⟨u, hu, rfl⟩ := Option.map_eq_some_iff.mp ht
      exact keeps_State_cleanItem _ _ _ _ _ (keeps_State_writeTo _ _ _ _ _ _ _ _ hu
        (keeps_State_freePart _ _ _ _ (Keeps.ite (keeps_State_keepTail _ _ _ hk) hk)))
    · exact keeps_State_moveTo _ _ _ _ _ _ ht hk
  · exact hk

theorem keeps_State_allToT2 (a₀ : State) (s : State) (n : Nat) (hk : Keeps a₀ s) : Keeps a₀ (s.allToT2 n).1 := by
  have key : ∀ (l : List Nat) (e : State × Bool), Keeps a₀ e.1 → Keeps a₀ (l.foldl (fun a p => State.toT2 a n p) e).1 := by
    intro l
    induction l with
    | nil => intro e he; exact he
    | cons p r ih => intro e he; exact ih _ (keeps_State_toT2 _ _ _ _ he)
  exact key _ _ hk

theorem keeps_State_rawBack (a₀ : State) (s : State) (n : Nat) (hk : Keeps a₀ s) : Keeps a₀ (s.rawBack n) := by
  unfold State.rawBack
  refine Keeps.foldl hk (fun s p hs => Keeps.ite hs ?_)
  cases h : s.moveTo n p 0 with
  | none => exact hs
  | some t => exact keeps_State_moveTo _ _ _ _ _ _ h hs

theorem keeps_State_releaseT0 (a₀ : State) (s : State) (n : Nat) (hk : Keeps a₀ s) : Keeps a₀ (State.releaseT0 s n) := by
  unfold State.releaseT0
  try dsimp only
  repeat' first
    | with_reducible assumption
    | ((with_reducible refine RingSub.of ?_) ; exact rfl) | ((with_reducible refine PortSub.of ?_) ; exact rfl) | with_reducible exact PortSub.reset _
    | (intro x hx)
    | (with_reducible exact Keeps.mk (by assumption) rfl rfl rfl rfl rfl rfl rfl rfl rfl)
    | with_reducible apply keeps_State_setCtx | with_reducible apply keeps_State_setCount | with_reducible apply keeps_State_evictItem
    | with_reducible apply Keeps.ite
    | with_reducible refine Keeps.foldl ?_ (fun s b hb => ?_)
    | split
    | (with_reducible apply Keeps.mk ; rotate_left ; iterate 9 (exact rfl))

theorem keeps_State_park (a₀ : State) (s : State) (n ttl hint : Nat) (hk : Keeps a₀ s) : Keeps a₀ (s.park n ttl hint) := by
  unfold State.park
  extract_lets s1 s2 x s3 s4
  have h1 : Keeps a₀ s1 := keeps_State_dropTent _ _ _ hk
  have h2 : Keeps a₀ s2 := Keeps.ite (keeps_State_allToT2 _ _ _ h1) h1
  have h3 : Keeps a₀ (s3.releaseT0 n) := keeps_State_releaseT0 _ _ _ (keeps_State_setCtx _ _ _ _ h2)
  have h4 : Keeps a₀ s4 := by
    show Keeps a₀ (if hint = 1 then (s3.releaseT0 n).allToT2 n else (s3.releaseT0 n, true)).1
    split
    · exact keeps_State_allToT2 _ _ _ h3
    · exact h3
  exact keeps_State_setSlot _ _ _ _ h4

theorem keeps_State_parkAsked (a₀ : State) (s : State) (n : Nat) (hk : Keeps a₀ s) : Keeps a₀ (s.parkAsked n) :=
  keeps_State_sendTo _ _ _ _ (keeps_State_allToT2 _ _ _ (keeps_State_dropTent _ _ _ hk))

theorem keeps_State_parkSaid (a₀ : State) (s : State) (n sh : Nat) (ok : Bool) (hk : Keeps a₀ s) : Keeps a₀ (State.parkSaid s n sh ok) := by
  unfold State.parkSaid
  try dsimp only
  repeat' first
    | with_reducible assumption
    | ((with_reducible refine RingSub.of ?_) ; exact rfl) | ((with_reducible refine PortSub.of ?_) ; exact rfl) | with_reducible exact PortSub.reset _
    | (intro x hx)
    | (with_reducible exact Keeps.mk (by assumption) rfl rfl rfl rfl rfl rfl rfl rfl rfl)
    | with_reducible apply keeps_State_endJobs | with_reducible apply keeps_State_tellEach | with_reducible apply keeps_State_rawBack | with_reducible apply keeps_State_park
    | with_reducible apply Keeps.ite
    | with_reducible refine Keeps.foldl ?_ (fun s b hb => ?_)
    | split
    | (with_reducible apply Keeps.mk ; rotate_left ; iterate 9 (exact rfl))

theorem keeps_reqParkD (a : State) (o : Origin) (pk : Pkt) (s : State) (hs : s.blk = Blk.safe → reqParkD.legal.contains Blk.safe = true) (hk : Keeps a s) :
    Keeps a (reqParkD.run o pk s) := by
  have h1 : Keeps a ((s.dropTent pk.handle.slot).allToT2 pk.handle.slot).1 := keeps_State_allToT2 _ _ _ (keeps_State_dropTent _ _ _ hk)
  simp only [reqParkD]
  split
  · exact Keeps.ite hk (keeps_State_park _ _ _ _ _ hk)
  · refine Keeps.ite (keeps_State_finish _ _ _ _ (keeps_State_park _ _ _ _ _ (keeps_State_tellEach _ _ _ _ hk))) ?_
    generalize (s.dropTent pk.handle.slot).allToT2 pk.handle.slot = e at h1 ⊢
    exact keeps_State_parkSaid _ _ _ _ _ (Keeps.foldl (keeps_State_addJob _ _ _ h1) (fun s b hb => keeps_State_sendTo _ _ _ _ hb))

theorem keeps_reqResumeD (a : State) (o : Origin) (pk : Pkt) (s : State) (hs : s.blk = Blk.safe → reqResumeD.legal.contains Blk.safe = true) (hk : Keeps a s) : Keeps a (reqResumeD.run o pk s) := by
  simp only [reqResumeD]
  repeat' first
    | with_reducible assumption
    | ((with_reducible refine RingSub.of ?_) ; exact rfl) | ((with_reducible refine PortSub.of ?_) ; exact rfl) | with_reducible exact PortSub.reset _
    | (intro x hx)
    | (with_reducible exact Keeps.mk (by assumption) rfl rfl rfl rfl rfl rfl rfl rfl rfl)
    | with_reducible apply keeps_State_finish | with_reducible apply keeps_State_setSlot | with_reducible apply keeps_State_tellEach | with_reducible apply keeps_State_rawBack
    | with_reducible apply Keeps.ite
    | with_reducible refine Keeps.foldl ?_ (fun s b hb => ?_)
    | split
    | (with_reducible apply Keeps.mk ; rotate_left ; iterate 9 (exact rfl))

theorem keeps_reqReleaseD (a : State) (o : Origin) (pk : Pkt) (s : State) (hs : s.blk = Blk.safe → reqReleaseD.legal.contains Blk.safe = true) (hk : Keeps a s) : Keeps a (reqReleaseD.run o pk s) := by
  simp only [reqReleaseD]
  repeat' first
    | with_reducible assumption
    | ((with_reducible refine RingSub.of ?_) ; exact rfl) | ((with_reducible refine PortSub.of ?_) ; exact rfl) | with_reducible exact PortSub.reset _
    | (intro x hx)
    | (with_reducible exact Keeps.mk (by assumption) rfl rfl rfl rfl rfl rfl rfl rfl rfl)
    | with_reducible apply keeps_State_finish | with_reducible apply keeps_State_setSlot | with_reducible apply keeps_State_tellEach
    | with_reducible apply Keeps.ite
    | with_reducible refine Keeps.foldl ?_ (fun s b hb => ?_)
    | split
    | (with_reducible apply Keeps.mk ; rotate_left ; iterate 9 (exact rfl))

theorem keeps_reqQueryD (a : State) (o : Origin) (pk : Pkt) (s : State) (hs : s.blk = Blk.safe → reqQueryD.legal.contains Blk.safe = true) (hk : Keeps a s) : Keeps a (reqQueryD.run o pk s) := by
  simp only [reqQueryD]
  repeat' first
    | with_reducible assumption
    | ((with_reducible refine RingSub.of ?_) ; exact rfl) | ((with_reducible refine PortSub.of ?_) ; exact rfl) | with_reducible exact PortSub.reset _
    | (intro x hx)
    | (with_reducible exact Keeps.mk (by assumption) rfl rfl rfl rfl rfl rfl rfl rfl rfl)
    | with_reducible apply keeps_State_storeWords | with_reducible apply keeps_State_finish
    | with_reducible apply Keeps.ite
    | with_reducible refine Keeps.foldl ?_ (fun s b hb => ?_)
    | split
    | (with_reducible apply Keeps.mk ; rotate_left ; iterate 9 (exact rfl))

end Sys2Proof.Laws
end

