-- ==== Sys2Proof/Laws/Keeps/Sys.lean ====
section
/-! SUPPORT. What the operations of Machine/Sys.lean keep (Laws/Keeps/Base.lean). -/

namespace Sys2Proof.Laws

open Sys2Proof.Machine

set_option linter.unreachableTactic false
set_option linter.unusedTactic false
set_option linter.unusedVariables false

theorem keeps_sysNopD (a : State) (o : Origin) (pk : Pkt) (s : State) (hs : s.blk = Blk.safe → sysNopD.legal.contains Blk.safe = true) (hk : Keeps a s) : Keeps a (sysNopD.run o pk s) := by
  simp only [sysNopD]
  repeat' first
    | with_reducible assumption
    | ((with_reducible refine RingSub.of ?_) ; exact rfl) | ((with_reducible refine PortSub.of ?_) ; exact rfl) | with_reducible exact PortSub.reset _
    | (intro x hx)
    | (with_reducible exact Keeps.mk (by assumption) rfl rfl rfl rfl rfl rfl rfl rfl rfl)
    | with_reducible apply keeps_State_finish
    | with_reducible apply Keeps.ite
    | with_reducible refine Keeps.foldl ?_ (fun s b hb => ?_)
    | split
    | (with_reducible apply Keeps.mk ; rotate_left ; iterate 9 (exact rfl))

theorem keeps_sysQueryD (a : State) (o : Origin) (pk : Pkt) (s : State) (hs : s.blk = Blk.safe → sysQueryD.legal.contains Blk.safe = true) (hk : Keeps a s) : Keeps a (sysQueryD.run o pk s) := by
  simp only [sysQueryD]
  repeat' first
    | with_reducible assumption
    | ((with_reducible refine RingSub.of ?_) ; exact rfl) | ((with_reducible refine PortSub.of ?_) ; exact rfl) | with_reducible exact PortSub.reset _
    | (intro x hx)
    | (with_reducible exact Keeps.mk (by assumption) rfl rfl rfl rfl rfl rfl rfl rfl rfl)
    | with_reducible apply keeps_State_finish
    | with_reducible apply Keeps.ite
    | with_reducible refine Keeps.foldl ?_ (fun s b hb => ?_)
    | split
    | (with_reducible apply Keeps.mk ; rotate_left ; iterate 9 (exact rfl))

theorem keeps_State_toRun (a : State) (s : State) (hb : s.blk ≠ Blk.safe) (hk : Keeps a s) : Keeps a s.toRun :=
  Keeps.mkBlk hk rfl rfl rfl rfl rfl hb rfl rfl rfl

theorem keeps_State_markAll (a₀ : State) (s : State) (st : Nat) (hk : Keeps a₀ s) : Keeps a₀ (State.markAll s st) := by
  unfold State.markAll
  try dsimp only
  repeat' first
    | with_reducible assumption
    | ((with_reducible refine RingSub.of ?_) ; exact rfl) | ((with_reducible refine PortSub.of ?_) ; exact rfl) | with_reducible exact PortSub.reset _
    | (intro x hx)
    | (with_reducible exact Keeps.mk (by assumption) rfl rfl rfl rfl rfl rfl rfl rfl rfl)
    
    | with_reducible apply Keeps.ite
    | with_reducible refine Keeps.foldl ?_ (fun s b hb => ?_)
    | split
    | (with_reducible apply Keeps.mk ; rotate_left ; iterate 9 (exact rfl))

theorem keeps_sysStartD (a : State) (o : Origin) (pk : Pkt) (s : State) (hs : s.blk = Blk.safe → sysStartD.legal.contains Blk.safe = true) (hk : Keeps a s) :
    Keeps a (sysStartD.run o pk s) := by
  have hb : s.blk ≠ Blk.safe := fun h => absurd (hs h) (by decide)
  have h1 := keeps_State_toRun a s hb hk
  simp only [sysStartD]
  split
  · exact Keeps.ite (keeps_State_markAll _ _ _ h1) hk
  · exact keeps_State_finish _ _ _ _ (keeps_State_tellMembers _ _ _ _ (keeps_State_markAll _ _ _ h1))

theorem keeps_State_toDrain (a : State) (s : State) (hk : Keeps a s) : Keeps a s.toDrain := by
  unfold State.toDrain
  split
  · rename_i hb
    exact Keeps.mkBlk hk rfl rfl rfl rfl rfl (by rw [hb]; decide) rfl rfl rfl
  · exact hk

theorem keeps_sysDrainD (a : State) (o : Origin) (pk : Pkt) (s : State) (hs : s.blk = Blk.safe → sysDrainD.legal.contains Blk.safe = true) (hk : Keeps a s) : Keeps a (sysDrainD.run o pk s) := by
  simp only [sysDrainD]
  repeat' first
    | with_reducible assumption
    | ((with_reducible refine RingSub.of ?_) ; exact rfl) | ((with_reducible refine PortSub.of ?_) ; exact rfl) | with_reducible exact PortSub.reset _
    | (intro x hx)
    | (with_reducible exact Keeps.mk (by assumption) rfl rfl rfl rfl rfl rfl rfl rfl rfl)
    | with_reducible apply keeps_State_sendTo | with_reducible apply keeps_State_finish | with_reducible apply keeps_State_addJob | with_reducible apply keeps_State_toDrain
    | with_reducible apply Keeps.ite
    | with_reducible refine Keeps.foldl ?_ (fun s b hb => ?_)
    | split
    | (with_reducible apply Keeps.mk ; rotate_left ; iterate 9 (exact rfl))

theorem keeps_State_advanceDrain (a : State) (s : State) (hk : Keeps a s) : Keeps a s.advanceDrain := by
  unfold State.advanceDrain
  extract_lets x0 t s1
  have h1 : Keeps a s1 := by
    show Keeps a (ite _ _ _)
    split
    · rename_i hb
      have ht : ∀ o : Orch, Keeps a { s with blk := .ready, orch := o } := fun o =>
        Keeps.mkBlk hk rfl rfl rfl rfl rfl (by rw [hb.1]; decide) rfl rfl rfl
      exact Keeps.ite (ht _) (keeps_State_sendTo _ _ _ _ (ht _))
    · exact hk
  clear_value s1
  exact Keeps.ite (keeps_State_endJobs _ _ _ _ h1) h1

theorem keeps_State_drainHeard (a₀ : State) (s : State) (fid : Option Nat) (sh : Nat) (bad : Bool) (hk : Keeps a₀ s) : Keeps a₀ (State.drainHeard s fid sh bad) := by
  unfold State.drainHeard
  try dsimp only
  repeat' first
    | with_reducible assumption
    | ((with_reducible refine RingSub.of ?_) ; exact rfl) | ((with_reducible refine PortSub.of ?_) ; exact rfl) | with_reducible exact PortSub.reset _
    | (intro x hx)
    | (with_reducible exact Keeps.mk (by assumption) rfl rfl rfl rfl rfl rfl rfl rfl rfl)
    
    | with_reducible apply Keeps.ite
    | with_reducible refine Keeps.foldl ?_ (fun s b hb => ?_)
    | split
    | (with_reducible apply Keeps.mk ; rotate_left ; iterate 9 (exact rfl))

theorem keeps_sysPcapD (a : State) (o : Origin) (pk : Pkt) (s : State) (hs : s.blk = Blk.safe → sysPcapD.legal.contains Blk.safe = true) (hk : Keeps a s) : Keeps a (sysPcapD.run o pk s) := by
  simp only [sysPcapD]
  repeat' first
    | with_reducible assumption
    | ((with_reducible refine RingSub.of ?_) ; exact rfl) | ((with_reducible refine PortSub.of ?_) ; exact rfl) | with_reducible exact PortSub.reset _
    | (intro x hx)
    | (with_reducible exact Keeps.mk (by assumption) rfl rfl rfl rfl rfl rfl rfl rfl rfl)
    | with_reducible apply keeps_State_finish
    | with_reducible apply Keeps.ite
    | with_reducible refine Keeps.foldl ?_ (fun s b hb => ?_)
    | split
    | (with_reducible apply Keeps.mk ; rotate_left ; iterate 9 (exact rfl))

end Sys2Proof.Laws
end

