-- ==== Sys2Proof/Laws/Keeps/Members.lean ====
section
/-! SUPPORT. What the operations of Machine/Members.lean keep (Laws/Keeps/Base.lean). -/

namespace Sys2Proof.Laws

open Sys2Proof.Machine

set_option linter.unreachableTactic false
set_option linter.unusedTactic false
set_option linter.unusedVariables false

theorem keeps_State_setMember (a₀ : State) (s : State) (sh st : Nat) (rej : Bool) (hk : Keeps a₀ s) : Keeps a₀ (State.setMember s sh st rej) := by
  unfold State.setMember
  try dsimp only
  repeat' first
    | with_reducible assumption
    | ((with_reducible refine RingSub.of ?_) ; exact rfl) | ((with_reducible refine PortSub.of ?_) ; exact rfl) | with_reducible exact PortSub.reset _
    | (intro x hx)
    | (with_reducible exact Keeps.mk (by assumption) rfl rfl rfl rfl rfl rfl rfl rfl rfl)
    
    | with_reducible apply Keeps.ite
    | with_reducible refine Keeps.foldl ?_ (fun s b hb => ?_)
    | split
    | (with_reducible apply Keeps.mk ; rotate_left ; iterate 9 (exact rfl))

theorem keeps_State_memberGone (a₀ : State) (s : State) (sh : Nat) (hk : Keeps a₀ s) : Keeps a₀ (State.memberGone s sh) := by
  unfold State.memberGone
  try dsimp only
  repeat' first
    | with_reducible assumption
    | ((with_reducible refine RingSub.of ?_) ; exact rfl) | ((with_reducible refine PortSub.of ?_) ; exact rfl) | with_reducible exact PortSub.reset _
    | (intro x hx)
    | (with_reducible exact Keeps.mk (by assumption) rfl rfl rfl rfl rfl rfl rfl rfl rfl)
    | with_reducible apply keeps_State_endJobs | with_reducible apply keeps_State_signalsGone | with_reducible apply keeps_State_barAbortAll | with_reducible apply keeps_State_rootShardSafe | with_reducible apply keeps_State_failLoad | with_reducible apply keeps_State_failVload | with_reducible apply keeps_State_drainHeard
    | with_reducible apply Keeps.ite
    | with_reducible refine Keeps.foldl ?_ (fun s b hb => ?_)
    | split
    | (with_reducible apply Keeps.mk ; rotate_left ; iterate 9 (exact rfl))

theorem keeps_State_onSafe (a₀ : State) (s : State) (h : Hdr) (cause : Nat) (tick : Word) (hk : Keeps a₀ s) : Keeps a₀ (State.onSafe s h cause tick) := by
  unfold State.onSafe
  try dsimp only
  repeat' first
    | with_reducible assumption
    | ((with_reducible refine RingSub.of ?_) ; exact rfl) | ((with_reducible refine PortSub.of ?_) ; exact rfl) | with_reducible exact PortSub.reset _
    | (intro x hx)
    | (with_reducible exact Keeps.mk (by assumption) rfl rfl rfl rfl rfl rfl rfl rfl rfl)
    | with_reducible apply keeps_State_bcast | with_reducible apply keeps_State_bcastOthers | with_reducible apply keeps_State_startDisc | with_reducible apply keeps_State_setMember | with_reducible apply keeps_State_memberGone
    | with_reducible apply Keeps.ite
    | with_reducible refine Keeps.foldl ?_ (fun s b hb => ?_)
    | split
    | (with_reducible apply Keeps.mk ; rotate_left ; iterate 9 (exact rfl))

theorem keeps_State_settledAll (a₀ : State) (s : State) (hk : Keeps a₀ s) : Keeps a₀ (State.settledAll s) := by
  unfold State.settledAll
  try dsimp only
  repeat' first
    | with_reducible assumption
    | ((with_reducible refine RingSub.of ?_) ; exact rfl) | ((with_reducible refine PortSub.of ?_) ; exact rfl) | with_reducible exact PortSub.reset _
    | (intro x hx)
    | (with_reducible exact Keeps.mk (by assumption) rfl rfl rfl rfl rfl rfl rfl rfl rfl)
    | with_reducible apply keeps_State_signalsGone | with_reducible apply keeps_State_settled | with_reducible apply keeps_State_memberGone
    | with_reducible apply Keeps.ite
    | with_reducible refine Keeps.foldl ?_ (fun s b hb => ?_)
    | split
    | (with_reducible apply Keeps.mk ; rotate_left ; iterate 9 (exact rfl))

theorem foldl_blk {α : Type} (f : State → α → State) (hf : ∀ s b, (f s b).blk = s.blk) (l : List α) (s : State) :
    (l.foldl f s).blk = s.blk := by
  induction l generalizing s with
  | nil => rfl
  | cons b r ih => exact (ih _).trans (hf _ _)

theorem putSet_blk (s : State) (n : Nat) (v : CfgSet) : (s.putSet n v).blk = s.blk := by
  unfold State.putSet
  repeat' split
  all_goals rfl

theorem keeps_State_adopt (a : State) (s : State) (d : DigestB) (hb : s.blk ≠ Blk.safe) (hk : Keeps a s) : Keeps a (s.adopt d) := by
  unfold State.adopt
  extract_lets s1 s2
  have h1 : Keeps a s1 ∧ s1.blk ≠ Blk.safe := by
    refine ⟨Keeps.foldl hk (fun s b hb => keeps_State_setBank _ _ _ _ _ hb), ?_⟩
    have := foldl_blk (fun (s : State) (x : Nat × Nat) =>
      let e := d.slots.getD (4 * x.1 + x.2) { state := 0, use := 0, fmt := 0, epoch := 0, pins := 0, outl := 0, crc := 0 }
      let b := s.bank x.1 x.2
      s.setBank x.1 x.2 (if e.state = 0 ∨ e.state = 1 then b.emptied else { b with st := bankOf e.state, outl := e.outl })) (fun _ _ => rfl) allSlots s
    exact fun h => hb (this.symm.trans h)
  clear_value s1
  have h2 : Keeps a s2 ∧ s2.blk ≠ Blk.safe := by
    refine ⟨Keeps.foldl h1.1 (fun s b hb => keeps_State_putSet _ _ _ _ hb), ?_⟩
    have := foldl_blk (fun (s : State) (e : Nat × Nat × CfgSet) => s.putSet e.2.1 e.2.2) (fun s e => putSet_blk s _ _) s1.conf.due s1
    exact fun h => h1.2 (this.symm.trans h)
  clear_value s2
  refine keeps_State_timeRequest _ _ (keeps_State_setMember _ _ _ _ _ (keeps_State_toRun _ _ h2.2 ?_))
  exact Keeps.mk h2.1 rfl rfl rfl rfl rfl rfl rfl rfl rfl

theorem keeps_State_rejoined (a₀ : State) (s : State) (sh : Nat) (ok : Bool) (hk : Keeps a₀ s) : Keeps a₀ (State.rejoined s sh ok) := by
  unfold State.rejoined
  try dsimp only
  repeat' first
    | with_reducible assumption
    | ((with_reducible refine RingSub.of ?_) ; exact rfl) | ((with_reducible refine PortSub.of ?_) ; exact rfl) | with_reducible exact PortSub.reset _
    | (intro x hx)
    | (with_reducible exact Keeps.mk (by assumption) rfl rfl rfl rfl rfl rfl rfl rfl rfl)
    | with_reducible apply keeps_State_endJobs | with_reducible apply keeps_State_setMember
    | with_reducible apply Keeps.ite
    | with_reducible refine Keeps.foldl ?_ (fun s b hb => ?_)
    | split
    | (with_reducible apply Keeps.mk ; rotate_left ; iterate 9 (exact rfl))

theorem keeps_State_onDigest (a : State) (s : State) (d : DigestB) (hk : Keeps a s) : Keeps a (s.onDigest d) := by
  unfold State.onDigest
  split
  · exact hk
  · rename_i hb
    have hb : s.blk = Blk.ready := Decidable.of_not_not hb
    extract_lets ok s1
    have h1 : Keeps a s1 := Keeps.ite (keeps_State_adopt _ _ _ (by rw [hb]; decide) hk) hk
    clear_value s1
    exact Keeps.ite (keeps_State_rejoined _ _ _ _ h1) (keeps_State_sendTo _ _ _ _ h1)

theorem keeps_orchRejoinD (a : State) (o : Origin) (pk : Pkt) (s : State) (hs : s.blk = Blk.safe → orchRejoinD.legal.contains Blk.safe = true) (hk : Keeps a s) : Keeps a (orchRejoinD.run o pk s) := by
  simp only [orchRejoinD]
  repeat' first
    | with_reducible assumption
    | ((with_reducible refine RingSub.of ?_) ; exact rfl) | ((with_reducible refine PortSub.of ?_) ; exact rfl) | with_reducible exact PortSub.reset _
    | (intro x hx)
    | (with_reducible exact Keeps.mk (by assumption) rfl rfl rfl rfl rfl rfl rfl rfl rfl)
    | with_reducible apply keeps_State_addJob
    | with_reducible apply Keeps.ite
    | with_reducible refine Keeps.foldl ?_ (fun s b hb => ?_)
    | split
    | (with_reducible apply Keeps.mk ; rotate_left ; iterate 9 (exact rfl))

theorem keeps_State_advanceRejoin (a₀ : State) (s : State) (hk : Keeps a₀ s) : Keeps a₀ (State.advanceRejoin s) := by
  unfold State.advanceRejoin
  try dsimp only
  repeat' first
    | with_reducible assumption
    | ((with_reducible refine RingSub.of ?_) ; exact rfl) | ((with_reducible refine PortSub.of ?_) ; exact rfl) | with_reducible exact PortSub.reset _
    | (intro x hx)
    | (with_reducible exact Keeps.mk (by assumption) rfl rfl rfl rfl rfl rfl rfl rfl rfl)
    | with_reducible apply keeps_State_sendTo | with_reducible apply keeps_State_onDigest
    | with_reducible apply Keeps.ite
    | with_reducible refine Keeps.foldl ?_ (fun s b hb => ?_)
    | split
    | (with_reducible apply Keeps.mk ; rotate_left ; iterate 9 (exact rfl))

/-- Every command's effect keeps what it must. -/
theorem keeps_descs (a : State) : ∀ d ∈ descs, ∀ (o : Origin) (pk : Pkt) (x : State),
    (x.blk = Blk.safe → d.legal.contains Blk.safe = true) → Keeps a x → Keeps a (d.run o pk x) := by
  intro d hd
  simp only [descs, List.mem_cons, List.not_mem_nil, or_false] at hd
  rcases hd with rfl | rfl | rfl | rfl | rfl | rfl | rfl | rfl | rfl | rfl | rfl | rfl | rfl | rfl | rfl | rfl | rfl | rfl | rfl | rfl
    | rfl | rfl | rfl | rfl | rfl | rfl | rfl | rfl | rfl | rfl | rfl | rfl | rfl | rfl | rfl | rfl | rfl | rfl | rfl | rfl | rfl | rfl
    | rfl | rfl | rfl | rfl | rfl | rfl | rfl | rfl | rfl | rfl | rfl | rfl | rfl | rfl | rfl | rfl | rfl | rfl | rfl | rfl
  all_goals intro o pk x hs hk
  · exact keeps_sysNopD a o pk x hs hk
  · exact keeps_sysQueryD a o pk x hs hk
  · exact keeps_sysStartD a o pk x hs hk
  · exact keeps_sysDrainD a o pk x hs hk
  · exact keeps_sysSaveD a o pk x hs hk
  · exact keeps_sysRestoreD a o pk x hs hk
  · exact keeps_sysPcapD a o pk x hs hk
  · exact keeps_cfgSetD a o pk x hs hk
  · exact keeps_cfgPhaseD a o pk x hs hk
  · exact keeps_cfgRegionD a o pk x hs hk
  · exact keeps_cfgRingD a o pk x hs hk
  · exact keeps_cfgHeadsetD a o pk x hs hk
  · exact keeps_cfgSlotD a o pk x hs hk
  · exact keeps_profWriteD a o pk x hs hk
  · exact keeps_profSwapD a o pk x hs hk
  · exact keeps_profReadD a o pk x hs hk
  · exact keeps_tblLoadD a o pk x hs hk
  · exact keeps_tblSwapD a o pk x hs hk
  · exact keeps_tblFreeD a o pk x hs hk
  · exact keeps_tblQueryD a o pk x hs hk
  · exact keeps_epochLoadD a o pk x hs hk
  · exact keeps_epochSwitchD a o pk x hs hk
  · exact keeps_epochRefsetD a o pk x hs hk
  · exact keeps_epochDropD a o pk x hs hk
  · exact keeps_epochVloadD a o pk x hs hk
  · exact keeps_epochVfreeD a o pk x hs hk
  · exact keeps_epochQueryD a o pk x hs hk
  · exact keeps_reqOpenD a o pk x hs hk
  · exact keeps_reqCloseD a o pk x hs hk
  · exact keeps_reqCancelD a o pk x hs hk
  · exact keeps_reqParkD a o pk x hs hk
  · exact keeps_reqResumeD a o pk x hs hk
  · exact keeps_reqReleaseD a o pk x hs hk
  · exact keeps_reqQueryD a o pk x hs hk
  · exact keeps_tenSetD a o pk x hs hk
  · exact keeps_tenQueryD a o pk x hs hk
  · exact keeps_syncAllocD a o pk x hs hk
  · exact keeps_syncFreeD a o pk x hs hk
  · exact keeps_syncSetD a o pk x hs hk
  · exact keeps_syncAddD a o pk x hs hk
  · exact keeps_syncReadD a o pk x hs hk
  · exact keeps_syncWaitD a o pk x hs hk
  · exact keeps_syncSignalD a o pk x hs hk
  · exact keeps_syncBarrierD a o pk x hs hk
  · exact keeps_syncSemacqD a o pk x hs hk
  · exact keeps_syncSemrelD a o pk x hs hk
  · exact keeps_orchConfigD a o pk x hs hk
  · exact keeps_orchDiscoverD a o pk x hs hk
  · exact keeps_orchRejoinD a o pk x hs hk
  · exact keeps_orchQueryD a o pk x hs hk
  · exact keeps_diagInjectD a o pk x hs hk
  · exact keeps_diagSelftestD a o pk x hs hk
  · exact keeps_diagSnapD a o pk x hs hk
  · exact keeps_diagTraceD a o pk x hs hk
  · exact keeps_repairLoadD a o pk x hs hk
  · exact keeps_repairCommitD a o pk x hs hk
  · exact keeps_repairQueryD a o pk x hs hk
  · exact keeps_repairCalD a o pk x hs hk
  · exact keeps_dumpConfigD a o pk x hs hk
  · exact keeps_dumpStatusD a o pk x hs hk
  · exact keeps_dumpTakeD a o pk x hs hk
  · exact keeps_dumpAckD a o pk x hs hk

theorem keeps_State_onForward (a : State) (s : State) (h : Hdr) (port : PortId) (ring fid : Nat) (pk : Pkt) (hk : Keeps a s) :
    Keeps a (s.onForward h port ring fid pk) := by
  unfold State.onForward
  split
  · exact hk
  · rename_i d hd
    have hm : d ∈ descs := List.mem_of_find?_eq_some hd
    split
    · split
      · exact hk
      · rename_i hb
        refine Keeps.ite (Keeps.mk hk rfl rfl rfl rfl rfl rfl rfl rfl rfl) ?_
        exact keeps_takeMember a d pk s (keeps_descs a d hm) hb hk
    · exact keeps_takeForwarded a d h.src port ring fid pk s (keeps_descs a d hm) hk

theorem keeps_State_onCompletion (a₀ : State) (s : State) (h : Hdr) (fid : Nat) (c : CplB) (hk : Keeps a₀ s) : Keeps a₀ (State.onCompletion s h fid c) := by
  unfold State.onCompletion
  try dsimp only
  repeat' first
    | with_reducible assumption
    | ((with_reducible refine RingSub.of ?_) ; exact rfl) | ((with_reducible refine PortSub.of ?_) ; exact rfl) | with_reducible exact PortSub.reset _
    | (intro x hx)
    | (with_reducible exact Keeps.mk (by assumption) rfl rfl rfl rfl rfl rfl rfl rfl rfl)
    | with_reducible apply keeps_State_complete | with_reducible apply keeps_State_endJobs | with_reducible apply keeps_State_forward | with_reducible apply keeps_State_drainHeard | with_reducible apply keeps_State_setMember
    | with_reducible apply Keeps.ite
    | with_reducible refine Keeps.foldl ?_ (fun s b hb => ?_)
    | split
    | (with_reducible apply Keeps.mk ; rotate_left ; iterate 9 (exact rfl))

theorem keeps_State_onAck (a₀ : State) (s : State) (h : Hdr) (n subject : Nat) (hk : Keeps a₀ s) : Keeps a₀ (State.onAck s h n subject) := by
  unfold State.onAck
  try dsimp only
  repeat' first
    | with_reducible assumption
    | ((with_reducible refine RingSub.of ?_) ; exact rfl) | ((with_reducible refine PortSub.of ?_) ; exact rfl) | with_reducible exact PortSub.reset _
    | (intro x hx)
    | (with_reducible exact Keeps.mk (by assumption) rfl rfl rfl rfl rfl rfl rfl rfl rfl)
    | with_reducible apply keeps_State_bcast | with_reducible apply keeps_State_setCtx | with_reducible apply keeps_State_holdHere | with_reducible apply keeps_State_holdSaid | with_reducible apply keeps_State_uncharge | with_reducible apply keeps_State_setVacate | with_reducible apply keeps_State_vanishSaid | with_reducible apply keeps_State_updPun | with_reducible apply keeps_State_gotAck | with_reducible apply keeps_State_roomSaid | with_reducible apply keeps_State_loadStarts | with_reducible apply keeps_State_varRoomSaid | with_reducible apply keeps_State_varStarts | with_reducible apply keeps_State_rootVariant | with_reducible apply keeps_State_memberVariant | with_reducible apply keeps_State_parkAsked | with_reducible apply keeps_State_parkSaid | with_reducible apply keeps_State_setMember | with_reducible apply keeps_State_rejoined
    | with_reducible apply Keeps.ite
    | with_reducible refine Keeps.foldl ?_ (fun s b hb => ?_)
    | split
    | (with_reducible apply Keeps.mk ; rotate_left ; iterate 9 (exact rfl))

theorem keeps_State_onCmd (a₀ : State) (s : State) (h : Hdr) (b : CmdB) (hk : Keeps a₀ s) : Keeps a₀ (State.onCmd s h b) := by
  unfold State.onCmd
  try dsimp only
  repeat' first
    | with_reducible assumption
    | ((with_reducible refine RingSub.of ?_) ; exact rfl) | ((with_reducible refine PortSub.of ?_) ; exact rfl) | with_reducible exact PortSub.reset _
    | (intro x hx)
    | (with_reducible exact Keeps.mk (by assumption) rfl rfl rfl rfl rfl rfl rfl rfl rfl)
    | with_reducible apply keeps_State_bcast | with_reducible apply keeps_State_takeCounts | with_reducible apply keeps_State_passOn | with_reducible apply keeps_State_settleHere | with_reducible apply keeps_State_rootReady | with_reducible apply keeps_State_memberReady | with_reducible apply keeps_State_onForward | with_reducible apply keeps_State_onCompletion | with_reducible apply keeps_State_onAck
    | with_reducible apply Keeps.ite
    | with_reducible refine Keeps.foldl ?_ (fun s b hb => ?_)
    | split
    | (with_reducible apply Keeps.mk ; rotate_left ; iterate 9 (exact rfl))

theorem keeps_State_onRetention (a₀ : State) (s : State) (sh : Nat) (hk : Keeps a₀ s) : Keeps a₀ (State.onRetention s sh) := by
  unfold State.onRetention
  try dsimp only
  repeat' first
    | with_reducible assumption
    | ((with_reducible refine RingSub.of ?_) ; exact rfl) | ((with_reducible refine PortSub.of ?_) ; exact rfl) | with_reducible exact PortSub.reset _
    | (intro x hx)
    | (with_reducible exact Keeps.mk (by assumption) rfl rfl rfl rfl rfl rfl rfl rfl rfl)
    
    | with_reducible apply Keeps.ite
    | with_reducible refine Keeps.foldl ?_ (fun s b hb => ?_)
    | split
    | (with_reducible apply Keeps.mk ; rotate_left ; iterate 9 (exact rfl))

theorem keeps_State_onEvent (a₀ : State) (s : State) (h : Hdr) (b : EventB) (hk : Keeps a₀ s) : Keeps a₀ (State.onEvent s h b) := by
  unfold State.onEvent
  try dsimp only
  repeat' first
    | with_reducible assumption
    | ((with_reducible refine RingSub.of ?_) ; exact rfl) | ((with_reducible refine PortSub.of ?_) ; exact rfl) | with_reducible exact PortSub.reset _
    | (intro x hx)
    | (with_reducible exact Keeps.mk (by assumption) rfl rfl rfl rfl rfl rfl rfl rfl rfl)
    | with_reducible apply keeps_State_bcast | with_reducible apply keeps_State_sendTo | with_reducible apply keeps_State_timeReplied | with_reducible apply keeps_State_passOn | with_reducible apply keeps_State_onSafe | with_reducible apply keeps_State_onDigest | with_reducible apply keeps_State_onRetention
    | with_reducible apply Keeps.ite
    | with_reducible refine Keeps.foldl ?_ (fun s b hb => ?_)
    | split
    | (with_reducible apply Keeps.mk ; rotate_left ; iterate 9 (exact rfl))

theorem keeps_State_poolUpdate (a₀ : State) (s : State) (hk : Keeps a₀ s) : Keeps a₀ (State.poolUpdate s) := by
  unfold State.poolUpdate
  try dsimp only
  repeat' first
    | with_reducible assumption
    | ((with_reducible refine RingSub.of ?_) ; exact rfl) | ((with_reducible refine PortSub.of ?_) ; exact rfl) | with_reducible exact PortSub.reset _
    | (intro x hx)
    | (with_reducible exact Keeps.mk (by assumption) rfl rfl rfl rfl rfl rfl rfl rfl rfl)
    | with_reducible apply keeps_State_bcastOthers
    | with_reducible apply Keeps.ite
    | with_reducible refine Keeps.foldl ?_ (fun s b hb => ?_)
    | split
    | (with_reducible apply Keeps.mk ; rotate_left ; iterate 9 (exact rfl))

theorem keeps_State_onRel (a₀ : State) (s : State) (h : Hdr) (n tag : Nat) (hk : Keeps a₀ s) : Keeps a₀ (State.onRel s h n tag) := by
  unfold State.onRel
  try dsimp only
  repeat' first
    | with_reducible assumption
    | ((with_reducible refine RingSub.of ?_) ; exact rfl) | ((with_reducible refine PortSub.of ?_) ; exact rfl) | with_reducible exact PortSub.reset _
    | (intro x hx)
    | (with_reducible exact Keeps.mk (by assumption) rfl rfl rfl rfl rfl rfl rfl rfl rfl)
    | with_reducible apply keeps_State_barRelease | with_reducible apply keeps_State_passOn | with_reducible apply keeps_State_switchReleased
    | with_reducible apply Keeps.ite
    | with_reducible refine Keeps.foldl ?_ (fun s b hb => ?_)
    | split
    | (with_reducible apply Keeps.mk ; rotate_left ; iterate 9 (exact rfl))

theorem keeps_State_forwardGone (a₀ : State) (s : State) (fid : Nat) (hk : Keeps a₀ s) : Keeps a₀ (State.forwardGone s fid) := by
  unfold State.forwardGone
  try dsimp only
  repeat' first
    | with_reducible assumption
    | ((with_reducible refine RingSub.of ?_) ; exact rfl) | ((with_reducible refine PortSub.of ?_) ; exact rfl) | with_reducible exact PortSub.reset _
    | (intro x hx)
    | (with_reducible exact Keeps.mk (by assumption) rfl rfl rfl rfl rfl rfl rfl rfl rfl)
    | with_reducible apply keeps_State_endJobs | with_reducible apply keeps_State_forward
    | with_reducible apply Keeps.ite
    | with_reducible refine Keeps.foldl ?_ (fun s b hb => ?_)
    | split
    | (with_reducible apply Keeps.mk ; rotate_left ; iterate 9 (exact rfl))

theorem keeps_State_katFail (a₀ : State) (s : State) (u : Unit') (hk : Keeps a₀ s) : Keeps a₀ (State.katFail s u) := by
  unfold State.katFail
  try dsimp only
  repeat' first
    | with_reducible assumption
    | ((with_reducible refine RingSub.of ?_) ; exact rfl) | ((with_reducible refine PortSub.of ?_) ; exact rfl) | with_reducible exact PortSub.reset _
    | (intro x hx)
    | (with_reducible exact Keeps.mk (by assumption) rfl rfl rfl rfl rfl rfl rfl rfl rfl)
    | with_reducible apply keeps_State_contained | with_reducible apply keeps_State_fatal | with_reducible apply keeps_State_doubtAt | with_reducible apply keeps_State_scheduleRepair
    | with_reducible apply Keeps.ite
    | with_reducible refine Keeps.foldl ?_ (fun s b hb => ?_)
    | split
    | (with_reducible apply Keeps.mk ; rotate_left ; iterate 9 (exact rfl))

theorem keeps_State_rescoreKat (a₀ : State) (s : State) (failed : List Unit') (hk : Keeps a₀ s) : Keeps a₀ (State.rescoreKat s failed) := by
  unfold State.rescoreKat
  try dsimp only
  repeat' first
    | with_reducible assumption
    | ((with_reducible refine RingSub.of ?_) ; exact rfl) | ((with_reducible refine PortSub.of ?_) ; exact rfl) | with_reducible exact PortSub.reset _
    | (intro x hx)
    | (with_reducible exact Keeps.mk (by assumption) rfl rfl rfl rfl rfl rfl rfl rfl rfl)
    | with_reducible apply keeps_State_katFail
    | with_reducible apply Keeps.ite
    | with_reducible refine Keeps.foldl ?_ (fun s b hb => ?_)
    | split
    | (with_reducible apply Keeps.mk ; rotate_left ; iterate 9 (exact rfl))

end Sys2Proof.Laws
end

