-- ==== Sys2Proof/Laws/Keeps/Rows.lean ====
section
/-! SUPPORT. What the operations of Machine/Rows.lean keep (Laws/Keeps/Base.lean). -/

namespace Sys2Proof.Laws

open Sys2Proof.Machine

set_option linter.unreachableTactic false
set_option linter.unusedTactic false
set_option linter.unusedVariables false

theorem keeps_packetStep (a₀ : State) (d : Desc) (pk : Pkt) (s : State) (hd : ∀ (o : Origin) (pk : Pkt) (x : State), (x.blk = Blk.safe → d.legal.contains Blk.safe = true) → Keeps a₀ x → Keeps a₀ (d.run o pk x)) (hk : Keeps a₀ s) : Keeps a₀ (packetStep d pk s) := by
  unfold packetStep
  try dsimp only
  repeat' first
    | with_reducible assumption
    | ((with_reducible refine RingSub.of ?_) ; exact rfl) | ((with_reducible refine PortSub.of ?_) ; exact rfl) | with_reducible exact PortSub.reset _
    | (intro x hx)
    | (with_reducible exact Keeps.mk (by assumption) rfl rfl rfl rfl rfl rfl rfl rfl rfl)
    | with_reducible apply keeps_takePacket | with_reducible apply keeps_State_after
    | with_reducible apply Keeps.ite
    | with_reducible refine Keeps.foldl ?_ (fun s b hb => ?_)
    | split
    | (with_reducible apply Keeps.mk ; rotate_left ; iterate 9 (exact rfl))

end Sys2Proof.Laws
end

