-- ==== Sys2Proof/Laws/Keeps/Exec.lean ====
section
/-! SUPPORT. What each command's meaning keeps (Laws/Keeps/Base.lean); the four that reset or may reset keep less. -/

namespace Sys2Proof.Laws

open Sys2Proof Sys2Proof.Machine

set_option linter.unreachableTactic false
set_option linter.unusedTactic false
set_option linter.unusedVariables false

theorem keeps_execSysNop (pk : Pkt) (s : State) (t : State) (h : execSysNop pk s = .next t) : Keeps s t := by
  obtain rfl := Host.Outcome.next.inj h
  unfold packetStep
  refine keeps_State_after _ _ ?_
  exact keeps_takePacket _ _ _ _ (keeps_sysNopD s) (Keeps.refl s)
theorem keeps_execSysQuery (pk : Pkt) (s : State) (t : State) (h : execSysQuery pk s = .next t) : Keeps s t := by
  obtain rfl := Host.Outcome.next.inj h
  unfold packetStep
  refine keeps_State_after _ _ ?_
  exact keeps_takePacket _ _ _ _ (keeps_sysQueryD s) (Keeps.refl s)
theorem keeps_execSysStart (pk : Pkt) (s : State) (t : State) (h : execSysStart pk s = .next t) : Keeps s t := by
  obtain rfl := Host.Outcome.next.inj h
  unfold packetStep
  refine keeps_State_after _ _ ?_
  exact keeps_takePacket _ _ _ _ (keeps_sysStartD s) (Keeps.refl s)
theorem keeps_execSysDrain (pk : Pkt) (s : State) (t : State) (h : execSysDrain pk s = .next t) : Keeps s t := by
  obtain rfl := Host.Outcome.next.inj h
  unfold packetStep
  refine keeps_State_after _ _ ?_
  exact keeps_takePacket _ _ _ _ (keeps_sysDrainD s) (Keeps.refl s)
theorem keeps_execSysSave (pk : Pkt) (s : State) (t : State) (h : execSysSave pk s = .next t) : Keeps s t := by
  obtain rfl := Host.Outcome.next.inj h
  unfold packetStep
  refine keeps_State_after _ _ ?_
  exact keeps_takePacket _ _ _ _ (keeps_sysSaveD s) (Keeps.refl s)
theorem keeps_execSysRestore (pk : Pkt) (s : State) (t : State) (h : execSysRestore pk s = .next t) : Keeps s t := by
  obtain rfl := Host.Outcome.next.inj h
  unfold packetStep
  refine keeps_State_after _ _ ?_
  exact keeps_takePacket _ _ _ _ (keeps_sysRestoreD s) (Keeps.refl s)
theorem keeps_execSysPcap (pk : Pkt) (s : State) (t : State) (h : execSysPcap pk s = .next t) : Keeps s t := by
  obtain rfl := Host.Outcome.next.inj h
  unfold packetStep
  refine keeps_State_after _ _ ?_
  exact keeps_takePacket _ _ _ _ (keeps_sysPcapD s) (Keeps.refl s)
theorem keeps_execCfgSet (pk : Pkt) (s : State) (t : State) (h : execCfgSet pk s = .next t) : Keeps s t := by
  obtain rfl := Host.Outcome.next.inj h
  unfold packetStep
  refine keeps_State_after _ _ ?_
  exact keeps_takePacket _ _ _ _ (keeps_cfgSetD s) (Keeps.refl s)
theorem keeps_execCfgPhase (pk : Pkt) (s : State) (t : State) (h : execCfgPhase pk s = .next t) : Keeps s t := by
  obtain rfl := Host.Outcome.next.inj h
  unfold packetStep
  refine keeps_State_after _ _ ?_
  exact keeps_takePacket _ _ _ _ (keeps_cfgPhaseD s) (Keeps.refl s)
theorem keeps_execCfgRegion (pk : Pkt) (s : State) (t : State) (h : execCfgRegion pk s = .next t) : Keeps s t := by
  obtain rfl := Host.Outcome.next.inj h
  unfold packetStep
  refine keeps_State_after _ _ ?_
  exact keeps_takePacket _ _ _ _ (keeps_cfgRegionD s) (Keeps.refl s)
theorem keeps_execCfgRing (pk : Pkt) (s : State) (t : State) (h : execCfgRing pk s = .next t) : Keeps s t := by
  obtain rfl := Host.Outcome.next.inj h
  unfold packetStep
  refine keeps_State_after _ _ ?_
  exact keeps_takePacket _ _ _ _ (keeps_cfgRingD s) (Keeps.refl s)
theorem keeps_execCfgHeadset (pk : Pkt) (s : State) (t : State) (h : execCfgHeadset pk s = .next t) : Keeps s t := by
  obtain rfl := Host.Outcome.next.inj h
  unfold packetStep
  refine keeps_State_after _ _ ?_
  exact keeps_takePacket _ _ _ _ (keeps_cfgHeadsetD s) (Keeps.refl s)
theorem keeps_execCfgSlot (pk : Pkt) (s : State) (t : State) (h : execCfgSlot pk s = .next t) : Keeps s t := by
  obtain rfl := Host.Outcome.next.inj h
  unfold packetStep
  refine keeps_State_after _ _ ?_
  exact keeps_takePacket _ _ _ _ (keeps_cfgSlotD s) (Keeps.refl s)
theorem keeps_execProfWrite (pk : Pkt) (s : State) (t : State) (h : execProfWrite pk s = .next t) : Keeps s t := by
  obtain rfl := Host.Outcome.next.inj h
  exact keeps_takePacket _ _ _ _ (keeps_profWriteD s) (Keeps.refl s)
theorem keeps_execProfSwap (pk : Pkt) (s : State) (t : State) (h : execProfSwap pk s = .next t) : Keeps s t := by
  obtain rfl := Host.Outcome.next.inj h
  exact keeps_takePacket _ _ _ _ (keeps_profSwapD s) (Keeps.refl s)
theorem keeps_execProfRead (pk : Pkt) (s : State) (t : State) (h : execProfRead pk s = .next t) : Keeps s t := by
  obtain rfl := Host.Outcome.next.inj h
  exact keeps_takePacket _ _ _ _ (keeps_profReadD s) (Keeps.refl s)
theorem keeps_execTblLoad (pk : Pkt) (s : State) (t : State) (h : execTblLoad pk s = .next t) : Keeps s t := by
  obtain rfl := Host.Outcome.next.inj h
  exact keeps_takePacket _ _ _ _ (keeps_tblLoadD s) (Keeps.refl s)
theorem keeps_execTblSwap (pk : Pkt) (s : State) (t : State) (h : execTblSwap pk s = .next t) : Keeps s t := by
  obtain rfl := Host.Outcome.next.inj h
  exact keeps_takePacket _ _ _ _ (keeps_tblSwapD s) (Keeps.refl s)
theorem keeps_execTblFree (pk : Pkt) (s : State) (t : State) (h : execTblFree pk s = .next t) : Keeps s t := by
  obtain rfl := Host.Outcome.next.inj h
  exact keeps_takePacket _ _ _ _ (keeps_tblFreeD s) (Keeps.refl s)
theorem keeps_execTblQuery (pk : Pkt) (s : State) (t : State) (h : execTblQuery pk s = .next t) : Keeps s t := by
  obtain rfl := Host.Outcome.next.inj h
  exact keeps_takePacket _ _ _ _ (keeps_tblQueryD s) (Keeps.refl s)
theorem keeps_execEpochLoad (pk : Pkt) (s : State) (t : State) (h : execEpochLoad pk s = .next t) : Keeps s t := by
  obtain rfl := Host.Outcome.next.inj h
  unfold packetStep
  refine keeps_State_after _ _ ?_
  exact keeps_takePacket _ _ _ _ (keeps_epochLoadD s) (Keeps.refl s)
theorem keeps_execEpochSwitch (pk : Pkt) (s : State) (t : State) (h : execEpochSwitch pk s = .next t) : Keeps s t := by
  obtain rfl := Host.Outcome.next.inj h
  unfold packetStep
  refine keeps_State_after _ _ ?_
  exact keeps_takePacket _ _ _ _ (keeps_epochSwitchD s) (Keeps.refl s)
theorem keeps_execEpochRefset (pk : Pkt) (s : State) (t : State) (h : execEpochRefset pk s = .next t) : Keeps s t := by
  obtain rfl := Host.Outcome.next.inj h
  unfold packetStep
  refine keeps_State_after _ _ ?_
  exact keeps_takePacket _ _ _ _ (keeps_epochRefsetD s) (Keeps.refl s)
theorem keeps_execEpochDrop (pk : Pkt) (s : State) (t : State) (h : execEpochDrop pk s = .next t) : Keeps s t := by
  obtain rfl := Host.Outcome.next.inj h
  unfold packetStep
  refine keeps_State_after _ _ ?_
  exact keeps_takePacket _ _ _ _ (keeps_epochDropD s) (Keeps.refl s)
theorem keeps_execEpochVload (pk : Pkt) (s : State) (t : State) (h : execEpochVload pk s = .next t) : Keeps s t := by
  obtain rfl := Host.Outcome.next.inj h
  unfold packetStep
  refine keeps_State_after _ _ ?_
  exact keeps_takePacket _ _ _ _ (keeps_epochVloadD s) (Keeps.refl s)
theorem keeps_execEpochVfree (pk : Pkt) (s : State) (t : State) (h : execEpochVfree pk s = .next t) : Keeps s t := by
  obtain rfl := Host.Outcome.next.inj h
  unfold packetStep
  refine keeps_State_after _ _ ?_
  exact keeps_takePacket _ _ _ _ (keeps_epochVfreeD s) (Keeps.refl s)
theorem keeps_execEpochQuery (pk : Pkt) (s : State) (t : State) (h : execEpochQuery pk s = .next t) : Keeps s t := by
  obtain rfl := Host.Outcome.next.inj h
  unfold packetStep
  refine keeps_State_after _ _ ?_
  exact keeps_takePacket _ _ _ _ (keeps_epochQueryD s) (Keeps.refl s)
theorem keeps_execReqOpen (pk : Pkt) (s : State) (t : State) (h : execReqOpen pk s = .next t) : Keeps s t := by
  obtain rfl := Host.Outcome.next.inj h
  unfold packetStep
  refine keeps_State_after _ _ ?_
  exact keeps_takePacket _ _ _ _ (keeps_reqOpenD s) (Keeps.refl s)
theorem keeps_execReqClose (pk : Pkt) (s : State) (t : State) (h : execReqClose pk s = .next t) : Keeps s t := by
  obtain rfl := Host.Outcome.next.inj h
  unfold packetStep
  refine keeps_State_after _ _ ?_
  exact keeps_takePacket _ _ _ _ (keeps_reqCloseD s) (Keeps.refl s)
theorem keeps_execReqCancel (pk : Pkt) (s : State) (t : State) (h : execReqCancel pk s = .next t) : Keeps s t := by
  obtain rfl := Host.Outcome.next.inj h
  unfold packetStep
  refine keeps_State_after _ _ ?_
  exact keeps_takePacket _ _ _ _ (keeps_reqCancelD s) (Keeps.refl s)
theorem keeps_execReqPark (pk : Pkt) (s : State) (t : State) (h : execReqPark pk s = .next t) : Keeps s t := by
  obtain rfl := Host.Outcome.next.inj h
  unfold packetStep
  refine keeps_State_after _ _ ?_
  exact keeps_takePacket _ _ _ _ (keeps_reqParkD s) (Keeps.refl s)
theorem keeps_execReqResume (pk : Pkt) (s : State) (t : State) (h : execReqResume pk s = .next t) : Keeps s t := by
  obtain rfl := Host.Outcome.next.inj h
  unfold packetStep
  refine keeps_State_after _ _ ?_
  exact keeps_takePacket _ _ _ _ (keeps_reqResumeD s) (Keeps.refl s)
theorem keeps_execReqRelease (pk : Pkt) (s : State) (t : State) (h : execReqRelease pk s = .next t) : Keeps s t := by
  obtain rfl := Host.Outcome.next.inj h
  unfold packetStep
  refine keeps_State_after _ _ ?_
  exact keeps_takePacket _ _ _ _ (keeps_reqReleaseD s) (Keeps.refl s)
theorem keeps_execReqQuery (pk : Pkt) (s : State) (t : State) (h : execReqQuery pk s = .next t) : Keeps s t := by
  obtain rfl := Host.Outcome.next.inj h
  unfold packetStep
  refine keeps_State_after _ _ ?_
  exact keeps_takePacket _ _ _ _ (keeps_reqQueryD s) (Keeps.refl s)
theorem keeps_execTenSet (pk : Pkt) (s : State) (t : State) (h : execTenSet pk s = .next t) : Keeps s t := by
  obtain rfl := Host.Outcome.next.inj h
  unfold packetStep
  refine keeps_State_after _ _ ?_
  exact keeps_takePacket _ _ _ _ (keeps_tenSetD s) (Keeps.refl s)
theorem keeps_execTenQuery (pk : Pkt) (s : State) (t : State) (h : execTenQuery pk s = .next t) : Keeps s t := by
  obtain rfl := Host.Outcome.next.inj h
  unfold packetStep
  refine keeps_State_after _ _ ?_
  exact keeps_takePacket _ _ _ _ (keeps_tenQueryD s) (Keeps.refl s)
theorem keeps_execSyncAlloc (pk : Pkt) (s : State) (t : State) (h : execSyncAlloc pk s = .next t) : Keeps s t := by
  obtain rfl := Host.Outcome.next.inj h
  exact keeps_takePacket _ _ _ _ (keeps_syncAllocD s) (Keeps.refl s)
theorem keeps_execSyncFree (pk : Pkt) (s : State) (t : State) (h : execSyncFree pk s = .next t) : Keeps s t := by
  obtain rfl := Host.Outcome.next.inj h
  exact keeps_takePacket _ _ _ _ (keeps_syncFreeD s) (Keeps.refl s)
theorem keeps_execSyncSet (pk : Pkt) (s : State) (t : State) (h : execSyncSet pk s = .next t) : Keeps s t := by
  obtain rfl := Host.Outcome.next.inj h
  exact keeps_takePacket _ _ _ _ (keeps_syncSetD s) (Keeps.refl s)
theorem keeps_execSyncAdd (pk : Pkt) (s : State) (t : State) (h : execSyncAdd pk s = .next t) : Keeps s t := by
  obtain rfl := Host.Outcome.next.inj h
  exact keeps_takePacket _ _ _ _ (keeps_syncAddD s) (Keeps.refl s)
theorem keeps_execSyncRead (pk : Pkt) (s : State) (t : State) (h : execSyncRead pk s = .next t) : Keeps s t := by
  obtain rfl := Host.Outcome.next.inj h
  exact keeps_takePacket _ _ _ _ (keeps_syncReadD s) (Keeps.refl s)
theorem keeps_execSyncWait (pk : Pkt) (s : State) (t : State) (h : execSyncWait pk s = .next t) : Keeps s t := by
  obtain rfl := Host.Outcome.next.inj h
  exact keeps_takePacket _ _ _ _ (keeps_syncWaitD s) (Keeps.refl s)
theorem keeps_execSyncSignal (pk : Pkt) (s : State) (t : State) (h : execSyncSignal pk s = .next t) : Keeps s t := by
  obtain rfl := Host.Outcome.next.inj h
  exact keeps_takePacket _ _ _ _ (keeps_syncSignalD s) (Keeps.refl s)
theorem keeps_execSyncBarrier (pk : Pkt) (s : State) (t : State) (h : execSyncBarrier pk s = .next t) : Keeps s t := by
  obtain rfl := Host.Outcome.next.inj h
  exact keeps_takePacket _ _ _ _ (keeps_syncBarrierD s) (Keeps.refl s)
theorem keeps_execSyncSemacq (pk : Pkt) (s : State) (t : State) (h : execSyncSemacq pk s = .next t) : Keeps s t := by
  obtain rfl := Host.Outcome.next.inj h
  exact keeps_takePacket _ _ _ _ (keeps_syncSemacqD s) (Keeps.refl s)
theorem keeps_execSyncSemrel (pk : Pkt) (s : State) (t : State) (h : execSyncSemrel pk s = .next t) : Keeps s t := by
  obtain rfl := Host.Outcome.next.inj h
  exact keeps_takePacket _ _ _ _ (keeps_syncSemrelD s) (Keeps.refl s)
theorem keeps_execOrchConfig (pk : Pkt) (s : State) (t : State) (h : execOrchConfig pk s = .next t) : Keeps s t := by
  obtain rfl := Host.Outcome.next.inj h
  exact keeps_takePacket _ _ _ _ (keeps_orchConfigD s) (Keeps.refl s)
theorem keeps_execOrchDiscover (pk : Pkt) (s : State) (t : State) (h : execOrchDiscover pk s = .next t) : Keeps s t := by
  obtain rfl := Host.Outcome.next.inj h
  exact keeps_takePacket _ _ _ _ (keeps_orchDiscoverD s) (Keeps.refl s)
theorem keeps_execOrchRejoin (pk : Pkt) (s : State) (t : State) (h : execOrchRejoin pk s = .next t) : Keeps s t := by
  obtain rfl := Host.Outcome.next.inj h
  unfold packetStep
  refine keeps_State_after _ _ ?_
  exact keeps_takePacket _ _ _ _ (keeps_orchRejoinD s) (Keeps.refl s)
theorem keeps_execOrchQuery (pk : Pkt) (s : State) (t : State) (h : execOrchQuery pk s = .next t) : Keeps s t := by
  obtain rfl := Host.Outcome.next.inj h
  exact keeps_takePacket _ _ _ _ (keeps_orchQueryD s) (Keeps.refl s)
theorem keeps_execDiagInject (pk : Pkt) (s : State) (t : State) (h : execDiagInject pk s = .next t) : Keeps s t := by
  obtain rfl := Host.Outcome.next.inj h
  exact keeps_takePacket _ _ _ _ (keeps_diagInjectD s) (Keeps.refl s)
theorem keeps_execDiagSelftest (pk : Pkt) (s : State) (t : State) (h : execDiagSelftest pk s = .next t) : Keeps s t := by
  obtain rfl := Host.Outcome.next.inj h
  exact keeps_takePacket _ _ _ _ (keeps_diagSelftestD s) (Keeps.refl s)
theorem keeps_execDiagSnap (pk : Pkt) (s : State) (t : State) (h : execDiagSnap pk s = .next t) : Keeps s t := by
  obtain rfl := Host.Outcome.next.inj h
  exact keeps_takePacket _ _ _ _ (keeps_diagSnapD s) (Keeps.refl s)
theorem keeps_execDiagTrace (pk : Pkt) (s : State) (t : State) (h : execDiagTrace pk s = .next t) : Keeps s t := by
  obtain rfl := Host.Outcome.next.inj h
  exact keeps_takePacket _ _ _ _ (keeps_diagTraceD s) (Keeps.refl s)
theorem keeps_execRepairLoad (pk : Pkt) (s : State) (t : State) (h : execRepairLoad pk s = .next t) : Keeps s t := by
  obtain rfl := Host.Outcome.next.inj h
  exact keeps_takePacket _ _ _ _ (keeps_repairLoadD s) (Keeps.refl s)
theorem keeps_execRepairCommit (pk : Pkt) (s : State) (t : State) (h : execRepairCommit pk s = .next t) : Keeps s t := by
  obtain rfl := Host.Outcome.next.inj h
  exact keeps_takePacket _ _ _ _ (keeps_repairCommitD s) (Keeps.refl s)
theorem keeps_execRepairQuery (pk : Pkt) (s : State) (t : State) (h : execRepairQuery pk s = .next t) : Keeps s t := by
  obtain rfl := Host.Outcome.next.inj h
  exact keeps_takePacket _ _ _ _ (keeps_repairQueryD s) (Keeps.refl s)
theorem keeps_execRepairCal (pk : Pkt) (s : State) (t : State) (h : execRepairCal pk s = .next t) : Keeps s t := by
  obtain rfl := Host.Outcome.next.inj h
  exact keeps_takePacket _ _ _ _ (keeps_repairCalD s) (Keeps.refl s)
theorem keeps_execDumpConfig (pk : Pkt) (s : State) (t : State) (h : execDumpConfig pk s = .next t) : Keeps s t := by
  obtain rfl := Host.Outcome.next.inj h
  exact keeps_takePacket _ _ _ _ (keeps_dumpConfigD s) (Keeps.refl s)
theorem keeps_execDumpStatus (pk : Pkt) (s : State) (t : State) (h : execDumpStatus pk s = .next t) : Keeps s t := by
  obtain rfl := Host.Outcome.next.inj h
  exact keeps_takePacket _ _ _ _ (keeps_dumpStatusD s) (Keeps.refl s)
theorem keeps_execDumpTake (pk : Pkt) (s : State) (t : State) (h : execDumpTake pk s = .next t) : Keeps s t := by
  obtain rfl := Host.Outcome.next.inj h
  exact keeps_takePacket _ _ _ _ (keeps_dumpTakeD s) (Keeps.refl s)
theorem keeps_execDumpAck (pk : Pkt) (s : State) (t : State) (h : execDumpAck pk s = .next t) : Keeps s t := by
  obtain rfl := Host.Outcome.next.inj h
  exact keeps_takePacket _ _ _ _ (keeps_dumpAckD s) (Keeps.refl s)
theorem keeps_execDoorbell (by_ : PortId) (r : RingRef) (tail : Half) (s : State) (t : State) (hx : execDoorbell by_ r tail s = .next t) : Keeps s t := by
  have hk := Keeps.refl s
  have hx := Host.Outcome.next.inj hx
  subst hx
  try dsimp only
  repeat' first
    | with_reducible assumption
    | (intro x hx)
    | (with_reducible exact Keeps.mk (by assumption) rfl rfl rfl rfl rfl rfl rfl rfl rfl)
    | with_reducible apply keeps_portWrite | with_reducible apply keeps_State_writeTail
    | with_reducible apply Keeps.ite
    | with_reducible refine Keeps.foldl ?_ (fun s b hb => ?_)
    | split
    | (with_reducible apply Keeps.mk ; rotate_left ; iterate 9 (exact rfl))
theorem keeps_execJgCqhWrite (by_ : PortId) (r : RingRef) (head : Half) (s : State) (t : State) (hx : execJgCqhWrite by_ r head s = .next t) : Keeps s t := by
  have hk := Keeps.refl s
  have hx := Host.Outcome.next.inj hx
  subst hx
  try dsimp only
  repeat' first
    | with_reducible assumption
    | (intro x hx)
    | (with_reducible exact Keeps.mk (by assumption) rfl rfl rfl rfl rfl rfl rfl rfl rfl)
    | with_reducible apply keeps_portWrite | with_reducible apply keeps_State_writeHead
    | with_reducible apply Keeps.ite
    | with_reducible refine Keeps.foldl ?_ (fun s b hb => ?_)
    | split
    | (with_reducible apply Keeps.mk ; rotate_left ; iterate 9 (exact rfl))
theorem keeps_execRingEnable (by_ : PortId) (r : RingRef) (value : Word) (s : State) (t : State) (hx : execRingEnable by_ r value s = .next t) : Keeps s t := by
  have hk := Keeps.refl s
  have hx := Host.Outcome.next.inj hx
  subst hx
  try dsimp only
  repeat' first
    | with_reducible assumption
    | (intro x hx)
    | (with_reducible exact Keeps.mk (by assumption) rfl rfl rfl rfl rfl rfl rfl rfl rfl)
    | with_reducible apply keeps_portWrite | with_reducible apply keeps_State_writeRctl
    | with_reducible apply Keeps.ite
    | with_reducible refine Keeps.foldl ?_ (fun s b hb => ?_)
    | split
    | (with_reducible apply Keeps.mk ; rotate_left ; iterate 9 (exact rfl))
theorem keeps_execCqWriteAck (r : RingRef) (err : Bool) (s : State) (t : State) (hx : execCqWriteAck r err s = .next t) : Keeps s t := by
  have hk := Keeps.refl s
  have hx := Host.Outcome.next.inj hx
  subst hx
  try dsimp only
  repeat' first
    | with_reducible assumption
    | (intro x hx)
    | (with_reducible exact Keeps.mk (by assumption) rfl rfl rfl rfl rfl rfl rfl rfl rfl)
    | with_reducible apply keeps_State_cqAck
    | with_reducible apply Keeps.ite
    | with_reducible refine Keeps.foldl ?_ (fun s b hb => ?_)
    | split
    | (with_reducible apply Keeps.mk ; rotate_left ; iterate 9 (exact rfl))
theorem keeps_execIntStatusClear (by_ win : PortId) (value : Word) (s : State) (t : State) (hx : execIntStatusClear by_ win value s = .next t) : Keeps s t := by
  have hk := Keeps.refl s
  have hx := Host.Outcome.next.inj hx
  subst hx
  try dsimp only
  repeat' first
    | with_reducible assumption
    | (intro x hx)
    | (with_reducible exact Keeps.mk (by assumption) rfl rfl rfl rfl rfl rfl rfl rfl rfl)
    | with_reducible apply keeps_portWrite | with_reducible apply keeps_State_clearInt
    | with_reducible apply Keeps.ite
    | with_reducible refine Keeps.foldl ?_ (fun s b hb => ?_)
    | split
    | (with_reducible apply Keeps.mk ; rotate_left ; iterate 9 (exact rfl))
theorem keeps_execCqPendClear (by_ win : PortId) (value : W64) (s : State) (t : State) (hx : execCqPendClear by_ win value s = .next t) : Keeps s t := by
  have hk := Keeps.refl s
  have hx := Host.Outcome.next.inj hx
  subst hx
  try dsimp only
  repeat' first
    | with_reducible assumption
    | (intro x hx)
    | (with_reducible exact Keeps.mk (by assumption) rfl rfl rfl rfl rfl rfl rfl rfl rfl)
    | with_reducible apply keeps_portWrite | with_reducible apply keeps_State_clearCqPend
    | with_reducible apply Keeps.ite
    | with_reducible refine Keeps.foldl ?_ (fun s b hb => ?_)
    | split
    | (with_reducible apply Keeps.mk ; rotate_left ; iterate 9 (exact rfl))
theorem keeps_execIntRouteMaskWrite (by_ win : PortId) (reg : Nat) (value : Word) (s : State) (t : State) (hx : execIntRouteMaskWrite by_ win reg value s = .next t) : Keeps s t := by
  have hk := Keeps.refl s
  have hx := Host.Outcome.next.inj hx
  subst hx
  try dsimp only
  repeat' first
    | with_reducible assumption
    | (intro x hx)
    | (with_reducible exact Keeps.mk (by assumption) rfl rfl rfl rfl rfl rfl rfl rfl rfl)
    | with_reducible apply keeps_portWrite | with_reducible apply keeps_State_writeRoute
    | with_reducible apply Keeps.ite
    | with_reducible refine Keeps.foldl ?_ (fun s b hb => ?_)
    | split
    | (with_reducible apply Keeps.mk ; rotate_left ; iterate 9 (exact rfl))
theorem keeps_execMsgWriteResponse (p : PortId) (vec : Nat) (err : Bool) (s : State) (t : State) (hx : execMsgWriteResponse p vec err s = .next t) : Keeps s t := by
  have hk := Keeps.refl s
  have hx := Host.Outcome.next.inj hx
  subst hx
  try dsimp only
  repeat' first
    | with_reducible assumption
    | (intro x hx)
    | (with_reducible exact Keeps.mk (by assumption) rfl rfl rfl rfl rfl rfl rfl rfl rfl)
    | with_reducible apply keeps_State_msgAck
    | with_reducible apply Keeps.ite
    | with_reducible refine Keeps.foldl ?_ (fun s b hb => ?_)
    | split
    | (with_reducible apply Keeps.mk ; rotate_left ; iterate 9 (exact rfl))
theorem keeps_execSemReq (by_ : Requester) (n : Nat) (s : State) (t : State) (hx : execSemReq by_ n s = .next t) : Keeps s t := by
  have hk := Keeps.refl s
  have hx := Host.Outcome.next.inj hx
  subst hx
  try dsimp only
  repeat' first
    | with_reducible assumption
    | (intro x hx)
    | (with_reducible exact Keeps.mk (by assumption) rfl rfl rfl rfl rfl rfl rfl rfl rfl)
    | with_reducible apply keeps_State_semReqBy | with_reducible apply keeps_semWrite
    | with_reducible apply Keeps.ite
    | with_reducible refine Keeps.foldl ?_ (fun s b hb => ?_)
    | split
    | (with_reducible apply Keeps.mk ; rotate_left ; iterate 9 (exact rfl))
theorem keeps_execSemRel (by_ : Requester) (n : Nat) (s : State) (t : State) (hx : execSemRel by_ n s = .next t) : Keeps s t := by
  have hk := Keeps.refl s
  have hx := Host.Outcome.next.inj hx
  subst hx
  try dsimp only
  repeat' first
    | with_reducible assumption
    | (intro x hx)
    | (with_reducible exact Keeps.mk (by assumption) rfl rfl rfl rfl rfl rfl rfl rfl rfl)
    | with_reducible apply keeps_State_semRelBy | with_reducible apply keeps_semWrite
    | with_reducible apply Keeps.ite
    | with_reducible refine Keeps.foldl ?_ (fun s b hb => ?_)
    | split
    | (with_reducible apply Keeps.mk ; rotate_left ; iterate 9 (exact rfl))
theorem keeps_execPortReset (value : Word) (s : State) (t : State) (hx : execPortReset value s = .next t) : Keeps s t := by
  have hk := Keeps.refl s
  have hx := Host.Outcome.next.inj hx
  subst hx
  try dsimp only
  repeat' first
    | with_reducible assumption
    | (intro x hx)
    | (with_reducible exact Keeps.mk (by assumption) rfl rfl rfl rfl rfl rfl rfl rfl rfl)
    | with_reducible apply keeps_State_resetPort
    | with_reducible apply Keeps.ite
    | with_reducible refine Keeps.foldl ?_ (fun s b hb => ?_)
    | split
    | (with_reducible apply Keeps.mk ; rotate_left ; iterate 9 (exact rfl))
theorem keeps_execQuarantine (value : Word) (s : State) (t : State) (hx : execQuarantine value s = .next t) : Keeps s t := by
  have hk := Keeps.refl s
  have hx := Host.Outcome.next.inj hx
  subst hx
  try dsimp only
  repeat' first
    | with_reducible assumption
    | (intro x hx)
    | (with_reducible exact Keeps.mk (by assumption) rfl rfl rfl rfl rfl rfl rfl rfl rfl)
    | with_reducible apply keeps_State_quarantine
    | with_reducible apply Keeps.ite
    | with_reducible refine Keeps.foldl ?_ (fun s b hb => ?_)
    | split
    | (with_reducible apply Keeps.mk ; rotate_left ; iterate 9 (exact rfl))
theorem keeps_execJgFwCtlGo (value : Word) (s : State) (t : State) (hx : execJgFwCtlGo value s = .next t) : Keeps s t := by
  have hk := Keeps.refl s
  have hx := Host.Outcome.next.inj hx
  subst hx
  try dsimp only
  repeat' first
    | with_reducible assumption
    | (intro x hx)
    | (with_reducible exact Keeps.mk (by assumption) rfl rfl rfl rfl rfl rfl rfl rfl rfl)
    | with_reducible apply keeps_State_go
    | with_reducible apply Keeps.ite
    | with_reducible refine Keeps.foldl ?_ (fun s b hb => ?_)
    | split
    | (with_reducible apply Keeps.mk ; rotate_left ; iterate 9 (exact rfl))
theorem keeps_execSelftestDone (failed : List Unit') (s : State) (t : State) (hx : execSelftestDone failed s = .next t) : Keeps s t := by
  have hk := Keeps.refl s
  have hx := Host.Outcome.next.inj hx
  subst hx
  try dsimp only
  repeat' first
    | with_reducible assumption
    | (intro x hx)
    | (with_reducible exact Keeps.mk (by assumption) rfl rfl rfl rfl rfl rfl rfl rfl rfl)
    | with_reducible apply keeps_State_selftested
    | with_reducible apply Keeps.ite
    | with_reducible refine Keeps.foldl ?_ (fun s b hb => ?_)
    | split
    | (with_reducible apply Keeps.mk ; rotate_left ; iterate 9 (exact rfl))
theorem keeps_execPllLockLoss (s t : State) (hx : execPllLockLoss s = .next t) : Keeps s t := by
  have hx := Host.Outcome.next.inj hx
  subst hx
  refine Keeps.ite (keeps_State_drive _ _ _ ?_) (Keeps.refl s)
  exact ⟨rfl, id, id, id, fun _ => rfl, id, id⟩
theorem keeps_execTclkTick (s : State) (t : State) (hx : execTclkTick s = .next t) : Keeps s t := by
  have hk := Keeps.refl s
  have hx := Host.Outcome.next.inj hx
  subst hx
  try dsimp only
  repeat' first
    | with_reducible assumption
    | (intro x hx)
    | (with_reducible exact Keeps.mk (by assumption) rfl rfl rfl rfl rfl rfl rfl rfl rfl)
    | with_reducible apply keeps_State_pumpLinks
    | with_reducible apply Keeps.ite
    | with_reducible refine Keeps.foldl ?_ (fun s b hb => ?_)
    | split
    | (with_reducible apply Keeps.mk ; rotate_left ; iterate 9 (exact rfl))
theorem keeps_execTimeAlign (s : State) (t : State) (hx : execTimeAlign s = .next t) : Keeps s t := by
  have hk := Keeps.refl s
  have hx := Host.Outcome.next.inj hx
  subst hx
  try dsimp only
  repeat' first
    | with_reducible assumption
    | (intro x hx)
    | (with_reducible exact Keeps.mk (by assumption) rfl rfl rfl rfl rfl rfl rfl rfl rfl)
    | with_reducible apply keeps_State_timeRequest
    | with_reducible apply Keeps.ite
    | with_reducible refine Keeps.foldl ?_ (fun s b hb => ?_)
    | split
    | (with_reducible apply Keeps.mk ; rotate_left ; iterate 9 (exact rfl))
theorem keeps_execPmReqRun (s : State) (t : State) (hx : execPmReqRun s = .next t) : Keeps s t := by
  have hk := Keeps.refl s
  have hx := Host.Outcome.next.inj hx
  subst hx
  try dsimp only
  repeat' first
    | with_reducible assumption
    | (intro x hx)
    | (with_reducible exact Keeps.mk (by assumption) rfl rfl rfl rfl rfl rfl rfl rfl rfl)
    | with_reducible apply keeps_State_drive | with_reducible apply keeps_State_pmNak
    | with_reducible apply Keeps.ite
    | with_reducible refine Keeps.foldl ?_ (fun s b hb => ?_)
    | split
    | (with_reducible apply Keeps.mk ; rotate_left ; iterate 9 (exact rfl))
theorem keeps_execPmReqRet (s : State) (t : State) (hx : execPmReqRet s = .next t) : Keeps s t := by
  have hk := Keeps.refl s
  have hx := Host.Outcome.next.inj hx
  subst hx
  try dsimp only
  repeat' first
    | with_reducible assumption
    | (intro x hx)
    | (with_reducible exact Keeps.mk (by assumption) rfl rfl rfl rfl rfl rfl rfl rfl rfl)
    | with_reducible apply keeps_State_bcastOthers | with_reducible apply keeps_State_sendTo | with_reducible apply keeps_State_pmNak
    | with_reducible apply Keeps.ite
    | with_reducible refine Keeps.foldl ?_ (fun s b hb => ?_)
    | split
    | (with_reducible apply Keeps.mk ; rotate_left ; iterate 9 (exact rfl))
theorem keeps_execPmReqOff (s : State) (t : State) (hx : execPmReqOff s = .next t) : Keeps s t := by
  have hk := Keeps.refl s
  have hx := Host.Outcome.next.inj hx
  subst hx
  try dsimp only
  repeat' first
    | with_reducible assumption
    | (intro x hx)
    | (with_reducible exact Keeps.mk (by assumption) rfl rfl rfl rfl rfl rfl rfl rfl rfl)
    | with_reducible apply keeps_State_pmNak
    | with_reducible apply Keeps.ite
    | with_reducible refine Keeps.foldl ?_ (fun s b hb => ?_)
    | split
    | (with_reducible apply Keeps.mk ; rotate_left ; iterate 9 (exact rfl))
theorem keeps_execPmTransitionDone (locked : Bool) (s : State) (t : State) (hx : execPmTransitionDone locked s = .next t) : Keeps s t := by
  have hk := Keeps.refl s
  have hx := Host.Outcome.next.inj hx
  subst hx
  try dsimp only
  repeat' first
    | with_reducible assumption
    | (intro x hx)
    | (with_reducible exact Keeps.mk (by assumption) rfl rfl rfl rfl rfl rfl rfl rfl rfl)
    | with_reducible apply keeps_State_drive | with_reducible apply keeps_State_timeRequest | with_reducible apply keeps_State_pmNak
    | with_reducible apply Keeps.ite
    | with_reducible refine Keeps.foldl ?_ (fun s b hb => ?_)
    | split
    | (with_reducible apply Keeps.mk ; rotate_left ; iterate 9 (exact rfl))
theorem keeps_execIdleTimeout (s : State) (t : State) (hx : execIdleTimeout s = .next t) : Keeps s t := by
  have hk := Keeps.refl s
  have hx := Host.Outcome.next.inj hx
  subst hx
  try dsimp only
  repeat' first
    | with_reducible assumption
    | (intro x hx)
    | (with_reducible exact Keeps.mk (by assumption) rfl rfl rfl rfl rfl rfl rfl rfl rfl)
    | with_reducible apply Keeps.ite
    | with_reducible refine Keeps.foldl ?_ (fun s b hb => ?_)
    | split
    | (with_reducible apply Keeps.mk ; rotate_left ; iterate 9 (exact rfl))
theorem keeps_execThermalSample (raw : List Nat) (s : State) (t : State) (hx : execThermalSample raw s = .next t) : Keeps s t := by
  have hk := Keeps.refl s
  have hx := Host.Outcome.next.inj hx
  subst hx
  try dsimp only
  repeat' first
    | with_reducible assumption
    | (intro x hx)
    | (with_reducible exact Keeps.mk (by assumption) rfl rfl rfl rfl rfl rfl rfl rfl rfl)
    | with_reducible apply keeps_State_setCause | with_reducible apply keeps_State_fire | with_reducible apply keeps_State_fatal
    | with_reducible apply Keeps.ite
    | with_reducible refine Keeps.foldl ?_ (fun s b hb => ?_)
    | split
    | (with_reducible apply Keeps.mk ; rotate_left ; iterate 9 (exact rfl))
theorem keeps_execDroopTrip (detector : Nat) (s : State) (t : State) (hx : execDroopTrip detector s = .next t) : Keeps s t := by
  have hk := Keeps.refl s
  have hx := Host.Outcome.next.inj hx
  subst hx
  try dsimp only
  repeat' first
    | with_reducible assumption
    | (intro x hx)
    | (with_reducible exact Keeps.mk (by assumption) rfl rfl rfl rfl rfl rfl rfl rfl rfl)
    | with_reducible apply keeps_State_bump
    | with_reducible apply Keeps.ite
    | with_reducible refine Keeps.foldl ?_ (fun s b hb => ?_)
    | split
    | (with_reducible apply Keeps.mk ; rotate_left ; iterate 9 (exact rfl))
theorem keeps_execRdescAccept (p : StreamPort) (beat : List Word) (last : Bool) (s : State) (t : State) (hx : execRdescAccept p beat last s = .next t) : Keeps s t := by
  have hk := Keeps.refl s
  have hx := Host.Outcome.next.inj hx
  subst hx
  try dsimp only
  repeat' first
    | with_reducible assumption
    | (intro x hx)
    | (with_reducible exact Keeps.mk (by assumption) rfl rfl rfl rfl rfl rfl rfl rfl rfl)
    | with_reducible apply keeps_State_rdescBeat | with_reducible apply keeps_State_after
    | with_reducible apply Keeps.ite
    | with_reducible refine Keeps.foldl ?_ (fun s b hb => ?_)
    | split
    | (with_reducible apply Keeps.mk ; rotate_left ; iterate 9 (exact rfl))
theorem keeps_execPayloadEnd (p : StreamPort) (beats : Nat) (elems : List Word) (ecc : Ecc) (s : State) (t : State) (hx : execPayloadEnd p beats elems ecc s = .next t) : Keeps s t := by
  have hk := Keeps.refl s
  have hx := Host.Outcome.next.inj hx
  subst hx
  try dsimp only
  repeat' first
    | with_reducible assumption
    | (intro x hx)
    | (with_reducible exact Keeps.mk (by assumption) rfl rfl rfl rfl rfl rfl rfl rfl rfl)
    | with_reducible apply keeps_State_payload | with_reducible apply keeps_State_after
    | with_reducible apply Keeps.ite
    | with_reducible refine Keeps.foldl ?_ (fun s b hb => ?_)
    | split
    | (with_reducible apply Keeps.mk ; rotate_left ; iterate 9 (exact rfl))
theorem keeps_execTegAck (tag : Nat) (err : Bool) (s : State) (t : State) (hx : execTegAck tag err s = .next t) : Keeps s t := by
  have hk := Keeps.refl s
  have hx := Host.Outcome.next.inj hx
  subst hx
  try dsimp only
  repeat' first
    | with_reducible assumption
    | (intro x hx)
    | (with_reducible exact Keeps.mk (by assumption) rfl rfl rfl rfl rfl rfl rfl rfl rfl)
    | with_reducible apply keeps_State_teg | with_reducible apply keeps_State_after
    | with_reducible apply Keeps.ite
    | with_reducible refine Keeps.foldl ?_ (fun s b hb => ?_)
    | split
    | (with_reducible apply Keeps.mk ; rotate_left ; iterate 9 (exact rfl))
theorem keeps_execTegFabricCredit (n : Nat) (s : State) (t : State) (hx : execTegFabricCredit n s = .next t) : Keeps s t := by
  have hk := Keeps.refl s
  have hx := Host.Outcome.next.inj hx
  subst hx
  try dsimp only
  repeat' first
    | with_reducible assumption
    | (intro x hx)
    | (with_reducible exact Keeps.mk (by assumption) rfl rfl rfl rfl rfl rfl rfl rfl rfl)
    | with_reducible apply keeps_State_fabricCredit | with_reducible apply keeps_State_after
    | with_reducible apply Keeps.ite
    | with_reducible refine Keeps.foldl ?_ (fun s b hb => ?_)
    | split
    | (with_reducible apply Keeps.mk ; rotate_left ; iterate 9 (exact rfl))
theorem keeps_execTegRingCredit (ring n : Nat) (s : State) (t : State) (hx : execTegRingCredit ring n s = .next t) : Keeps s t := by
  have hk := Keeps.refl s
  have hx := Host.Outcome.next.inj hx
  subst hx
  try dsimp only
  repeat' first
    | with_reducible assumption
    | (intro x hx)
    | (with_reducible exact Keeps.mk (by assumption) rfl rfl rfl rfl rfl rfl rfl rfl rfl)
    | with_reducible apply keeps_State_ringCredit | with_reducible apply keeps_State_after
    | with_reducible apply Keeps.ite
    | with_reducible refine Keeps.foldl ?_ (fun s b hb => ?_)
    | split
    | (with_reducible apply Keeps.mk ; rotate_left ; iterate 9 (exact rfl))
theorem keeps_execAdmit (h : Hdr) (b : AdmitB) (s : State) (t : State) (hx : execAdmit h b s = .next t) : Keeps s t := by
  have hk := Keeps.refl s
  have hx := Host.Outcome.next.inj hx
  subst hx
  try dsimp only
  repeat' first
    | with_reducible assumption
    | (intro x hx)
    | (with_reducible exact Keeps.mk (by assumption) rfl rfl rfl rfl rfl rfl rfl rfl rfl)
    | with_reducible apply keeps_State_onAdmit | with_reducible apply keeps_rowStep
    | with_reducible apply Keeps.ite
    | with_reducible refine Keeps.foldl ?_ (fun s b hb => ?_)
    | split
    | (with_reducible apply Keeps.mk ; rotate_left ; iterate 9 (exact rfl))
theorem keeps_execCopySkewExpiry (key : RowKey) (s : State) (t : State) (hx : execCopySkewExpiry key s = .next t) : Keeps s t := by
  have hk := Keeps.refl s
  have hx := Host.Outcome.next.inj hx
  subst hx
  try dsimp only
  repeat' first
    | with_reducible assumption
    | (intro x hx)
    | (with_reducible exact Keeps.mk (by assumption) rfl rfl rfl rfl rfl rfl rfl rfl rfl)
    | with_reducible apply keeps_State_skewExpired | with_reducible apply keeps_State_dropStray | with_reducible apply keeps_workStep
    | with_reducible apply Keeps.ite
    | with_reducible refine Keeps.foldl ?_ (fun s b hb => ?_)
    | split
    | (with_reducible apply Keeps.mk ; rotate_left ; iterate 9 (exact rfl))
theorem keeps_execGatherWindowExpiry (s : State) (t : State) (hx : execGatherWindowExpiry s = .next t) : Keeps s t := by
  have hk := Keeps.refl s
  have hx := Host.Outcome.next.inj hx
  subst hx
  try dsimp only
  repeat' first
    | with_reducible assumption
    | (intro x hx)
    | (with_reducible exact Keeps.mk (by assumption) rfl rfl rfl rfl rfl rfl rfl rfl rfl)
    | with_reducible apply keeps_workStep
    | with_reducible apply Keeps.ite
    | with_reducible refine Keeps.foldl ?_ (fun s b hb => ?_)
    | split
    | (with_reducible apply Keeps.mk ; rotate_left ; iterate 9 (exact rfl))
theorem keeps_execCloseMarginReached (s : State) (t : State) (hx : execCloseMarginReached s = .next t) : Keeps s t := by
  have hk := Keeps.refl s
  have hx := Host.Outcome.next.inj hx
  subst hx
  try dsimp only
  repeat' first
    | with_reducible assumption
    | (intro x hx)
    | (with_reducible exact Keeps.mk (by assumption) rfl rfl rfl rfl rfl rfl rfl rfl rfl)
    | with_reducible apply keeps_workStep
    | with_reducible apply Keeps.ite
    | with_reducible refine Keeps.foldl ?_ (fun s b hb => ?_)
    | split
    | (with_reducible apply Keeps.mk ; rotate_left ; iterate 9 (exact rfl))
theorem keeps_execClose (h : Hdr) (b : CloseB) (s : State) (t : State) (hx : execClose h b s = .next t) : Keeps s t := by
  have hk := Keeps.refl s
  have hx := Host.Outcome.next.inj hx
  subst hx
  try dsimp only
  repeat' first
    | with_reducible assumption
    | (intro x hx)
    | (with_reducible exact Keeps.mk (by assumption) rfl rfl rfl rfl rfl rfl rfl rfl rfl)
    | with_reducible apply keeps_State_onClose | with_reducible apply keeps_rowStep
    | with_reducible apply Keeps.ite
    | with_reducible refine Keeps.foldl ?_ (fun s b hb => ?_)
    | split
    | (with_reducible apply Keeps.mk ; rotate_left ; iterate 9 (exact rfl))
theorem keeps_execPartFetchDone (handle : Handle) (part : Part) (ecc : Ecc) (s : State) (t : State) (hx : execPartFetchDone handle part ecc s = .next t) : Keeps s t := by
  have hk := Keeps.refl s
  have hx := Host.Outcome.next.inj hx
  subst hx
  try dsimp only
  repeat' first
    | with_reducible assumption
    | (intro x hx)
    | (with_reducible exact Keeps.mk (by assumption) rfl rfl rfl rfl rfl rfl rfl rfl rfl)
    | with_reducible apply keeps_State_partFetched | with_reducible apply keeps_State_lateBans | with_reducible apply keeps_workStep
    | with_reducible apply Keeps.ite
    | with_reducible refine Keeps.foldl ?_ (fun s b hb => ?_)
    | split
    | (with_reducible apply Keeps.mk ; rotate_left ; iterate 9 (exact rfl))
theorem keeps_execPreludeDone (punnet : Nat) (ecc : List (Nat × Ecc)) (s : State) (t : State) (hx : execPreludeDone punnet ecc s = .next t) : Keeps s t := by
  have hk := Keeps.refl s
  have hx := Host.Outcome.next.inj hx
  subst hx
  try dsimp only
  repeat' first
    | with_reducible assumption
    | (intro x hx)
    | (with_reducible exact Keeps.mk (by assumption) rfl rfl rfl rfl rfl rfl rfl rfl rfl)
    | with_reducible apply keeps_State_preludeDone | with_reducible apply keeps_workStep
    | with_reducible apply Keeps.ite
    | with_reducible refine Keeps.foldl ?_ (fun s b hb => ?_)
    | split
    | (with_reducible apply Keeps.mk ; rotate_left ; iterate 9 (exact rfl))
theorem keeps_execWeightSegmentLoaded (punnet pass : Nat) (tile : TileRef) (seg : Nat) (ecc : Ecc) (s : State) (t : State) (hx : execWeightSegmentLoaded punnet pass tile seg ecc s = .next t) : Keeps s t := by
  have hk := Keeps.refl s
  have hx := Host.Outcome.next.inj hx
  subst hx
  try dsimp only
  repeat' first
    | with_reducible assumption
    | (intro x hx)
    | (with_reducible exact Keeps.mk (by assumption) rfl rfl rfl rfl rfl rfl rfl rfl rfl)
    | with_reducible apply keeps_State_segment | with_reducible apply keeps_workStep
    | with_reducible apply Keeps.ite
    | with_reducible refine Keeps.foldl ?_ (fun s b hb => ?_)
    | split
    | (with_reducible apply Keeps.mk ; rotate_left ; iterate 9 (exact rfl))
theorem keeps_execTileProjected (punnet pass : Nat) (done : TileEnd) (s : State) (t : State) (hx : execTileProjected punnet pass done s = .next t) : Keeps s t := by
  have hk := Keeps.refl s
  have hx := Host.Outcome.next.inj hx
  subst hx
  try dsimp only
  repeat' first
    | with_reducible assumption
    | (intro x hx)
    | (with_reducible exact Keeps.mk (by assumption) rfl rfl rfl rfl rfl rfl rfl rfl rfl)
    | with_reducible apply keeps_State_project | with_reducible apply keeps_workStep
    | with_reducible apply Keeps.ite
    | with_reducible refine Keeps.foldl ?_ (fun s b hb => ?_)
    | split
    | (with_reducible apply Keeps.mk ; rotate_left ; iterate 9 (exact rfl))
theorem keeps_execSelectionTileClosed (punnet pass : Nat) (tile : TileRef) (s : State) (t : State) (hx : execSelectionTileClosed punnet pass tile s = .next t) : Keeps s t := by
  have hk := Keeps.refl s
  have hx := Host.Outcome.next.inj hx
  subst hx
  try dsimp only
  repeat' first
    | with_reducible assumption
    | (intro x hx)
    | (with_reducible exact Keeps.mk (by assumption) rfl rfl rfl rfl rfl rfl rfl rfl rfl)
    | with_reducible apply keeps_State_closeTile | with_reducible apply keeps_workStep
    | with_reducible apply Keeps.ite
    | with_reducible refine Keeps.foldl ?_ (fun s b hb => ?_)
    | split
    | (with_reducible apply Keeps.mk ; rotate_left ; iterate 9 (exact rfl))
theorem keeps_execAuxHeadDone (punnet rslot : Nat) (reward : Bool) (s : State) (t : State) (hx : execAuxHeadDone punnet rslot reward s = .next t) : Keeps s t := by
  have hk := Keeps.refl s
  have hx := Host.Outcome.next.inj hx
  subst hx
  try dsimp only
  repeat' first
    | with_reducible assumption
    | (intro x hx)
    | (with_reducible exact Keeps.mk (by assumption) rfl rfl rfl rfl rfl rfl rfl rfl rfl)
    | with_reducible apply keeps_State_auxDone | with_reducible apply keeps_workStep
    | with_reducible apply Keeps.ite
    | with_reducible refine Keeps.foldl ?_ (fun s b hb => ?_)
    | split
    | (with_reducible apply Keeps.mk ; rotate_left ; iterate 9 (exact rfl))
theorem keeps_execStat (h : Hdr) (b : StatB) (s : State) (t : State) (hx : execStat h b s = .next t) : Keeps s t := by
  have hk := Keeps.refl s
  have hx := Host.Outcome.next.inj hx
  subst hx
  try dsimp only
  repeat' first
    | with_reducible assumption
    | (intro x hx)
    | (with_reducible exact Keeps.mk (by assumption) rfl rfl rfl rfl rfl rfl rfl rfl rfl)
    | with_reducible apply keeps_State_onStat | with_reducible apply keeps_rowStep
    | with_reducible apply Keeps.ite
    | with_reducible refine Keeps.foldl ?_ (fun s b hb => ?_)
    | split
    | (with_reducible apply Keeps.mk ; rotate_left ; iterate 9 (exact rfl))
theorem keeps_execCand (h : Hdr) (b : List CandRec) (s : State) (t : State) (hx : execCand h b s = .next t) : Keeps s t := by
  have hk := Keeps.refl s
  have hx := Host.Outcome.next.inj hx
  subst hx
  try dsimp only
  repeat' first
    | with_reducible assumption
    | (intro x hx)
    | (with_reducible exact Keeps.mk (by assumption) rfl rfl rfl rfl rfl rfl rfl rfl rfl)
    | with_reducible apply keeps_State_onCand | with_reducible apply keeps_rowStep
    | with_reducible apply Keeps.ite
    | with_reducible refine Keeps.foldl ?_ (fun s b hb => ?_)
    | split
    | (with_reducible apply Keeps.mk ; rotate_left ; iterate 9 (exact rfl))
theorem keeps_execWin (h : Hdr) (b : WinB) (s : State) (t : State) (hx : execWin h b s = .next t) : Keeps s t := by
  have hk := Keeps.refl s
  have hx := Host.Outcome.next.inj hx
  subst hx
  try dsimp only
  repeat' first
    | with_reducible assumption
    | (intro x hx)
    | (with_reducible exact Keeps.mk (by assumption) rfl rfl rfl rfl rfl rfl rfl rfl rfl)
    | with_reducible apply keeps_State_onWin | with_reducible apply keeps_rowStep
    | with_reducible apply Keeps.ite
    | with_reducible refine Keeps.foldl ?_ (fun s b hb => ?_)
    | split
    | (with_reducible apply Keeps.mk ; rotate_left ; iterate 9 (exact rfl))
theorem keeps_execTopm (h : Hdr) (b : List (Nat × F32)) (s : State) (t : State) (hx : execTopm h b s = .next t) : Keeps s t := by
  have hk := Keeps.refl s
  have hx := Host.Outcome.next.inj hx
  subst hx
  try dsimp only
  repeat' first
    | with_reducible assumption
    | (intro x hx)
    | (with_reducible exact Keeps.mk (by assumption) rfl rfl rfl rfl rfl rfl rfl rfl rfl)
    | with_reducible apply keeps_State_onTopm | with_reducible apply keeps_rowStep
    | with_reducible apply Keeps.ite
    | with_reducible refine Keeps.foldl ?_ (fun s b hb => ?_)
    | split
    | (with_reducible apply Keeps.mk ; rotate_left ; iterate 9 (exact rfl))
theorem keeps_execTgt (h : Hdr) (b : Option CandRec) (s : State) (t : State) (hx : execTgt h b s = .next t) : Keeps s t := by
  have hk := Keeps.refl s
  have hx := Host.Outcome.next.inj hx
  subst hx
  try dsimp only
  repeat' first
    | with_reducible assumption
    | (intro x hx)
    | (with_reducible exact Keeps.mk (by assumption) rfl rfl rfl rfl rfl rfl rfl rfl rfl)
    | with_reducible apply keeps_State_onTgt | with_reducible apply keeps_rowStep
    | with_reducible apply Keeps.ite
    | with_reducible refine Keeps.foldl ?_ (fun s b hb => ?_)
    | split
    | (with_reducible apply Keeps.mk ; rotate_left ; iterate 9 (exact rfl))
theorem keeps_execThresh (h : Hdr) (b : ThreshB) (s : State) (t : State) (hx : execThresh h b s = .next t) : Keeps s t := by
  have hk := Keeps.refl s
  have hx := Host.Outcome.next.inj hx
  subst hx
  try dsimp only
  repeat' first
    | with_reducible assumption
    | (intro x hx)
    | (with_reducible exact Keeps.mk (by assumption) rfl rfl rfl rfl rfl rfl rfl rfl rfl)
    | with_reducible apply keeps_State_onThresh | with_reducible apply keeps_rowStep
    | with_reducible apply Keeps.ite
    | with_reducible refine Keeps.foldl ?_ (fun s b hb => ?_)
    | split
    | (with_reducible apply Keeps.mk ; rotate_left ; iterate 9 (exact rfl))
theorem keeps_execRsq (h : Hdr) (b : RsqB) (s : State) (t : State) (hx : execRsq h b s = .next t) : Keeps s t := by
  have hk := Keeps.refl s
  have hx := Host.Outcome.next.inj hx
  subst hx
  try dsimp only
  repeat' first
    | with_reducible assumption
    | (intro x hx)
    | (with_reducible exact Keeps.mk (by assumption) rfl rfl rfl rfl rfl rfl rfl rfl rfl)
    | with_reducible apply keeps_State_onRsq | with_reducible apply keeps_rowStep
    | with_reducible apply Keeps.ite
    | with_reducible refine Keeps.foldl ?_ (fun s b hb => ?_)
    | split
    | (with_reducible apply Keeps.mk ; rotate_left ; iterate 9 (exact rfl))
theorem keeps_execRescoreDone (punnet rslot pass id : Nat) (ecc : Ecc) (s : State) (t : State) (hx : execRescoreDone punnet rslot pass id ecc s = .next t) : Keeps s t := by
  have hk := Keeps.refl s
  have hx := Host.Outcome.next.inj hx
  subst hx
  try dsimp only
  repeat' first
    | with_reducible assumption
    | (intro x hx)
    | (with_reducible exact Keeps.mk (by assumption) rfl rfl rfl rfl rfl rfl rfl rfl rfl)
    | with_reducible apply keeps_State_rescored | with_reducible apply keeps_workStep
    | with_reducible apply Keeps.ite
    | with_reducible refine Keeps.foldl ?_ (fun s b hb => ?_)
    | split
    | (with_reducible apply Keeps.mk ; rotate_left ; iterate 9 (exact rfl))
theorem keeps_execRsp (h : Hdr) (b : RspB) (s : State) (t : State) (hx : execRsp h b s = .next t) : Keeps s t := by
  have hk := Keeps.refl s
  have hx := Host.Outcome.next.inj hx
  subst hx
  try dsimp only
  repeat' first
    | with_reducible assumption
    | (intro x hx)
    | (with_reducible exact Keeps.mk (by assumption) rfl rfl rfl rfl rfl rfl rfl rfl rfl)
    | with_reducible apply keeps_State_onRsp | with_reducible apply keeps_rowStep
    | with_reducible apply Keeps.ite
    | with_reducible refine Keeps.foldl ?_ (fun s b hb => ?_)
    | split
    | (with_reducible apply Keeps.mk ; rotate_left ; iterate 9 (exact rfl))
theorem keeps_execCertCutoff (punnet rslot : Nat) (s : State) (t : State) (hx : execCertCutoff punnet rslot s = .next t) : Keeps s t := by
  have hk := Keeps.refl s
  have hx := Host.Outcome.next.inj hx
  subst hx
  try dsimp only
  repeat' first
    | with_reducible assumption
    | (intro x hx)
    | (with_reducible exact Keeps.mk (by assumption) rfl rfl rfl rfl rfl rfl rfl rfl rfl)
    | with_reducible apply keeps_State_certCutoff | with_reducible apply keeps_workStep
    | with_reducible apply Keeps.ite
    | with_reducible refine Keeps.foldl ?_ (fun s b hb => ?_)
    | split
    | (with_reducible apply Keeps.mk ; rotate_left ; iterate 9 (exact rfl))
theorem keeps_execCommit (h : Hdr) (b : CommitB) (s : State) (t : State) (hx : execCommit h b s = .next t) : Keeps s t := by
  have hk := Keeps.refl s
  have hx := Host.Outcome.next.inj hx
  subst hx
  try dsimp only
  repeat' first
    | with_reducible assumption
    | (intro x hx)
    | (with_reducible exact Keeps.mk (by assumption) rfl rfl rfl rfl rfl rfl rfl rfl rfl)
    | with_reducible apply keeps_State_onCommit | with_reducible apply keeps_rowStep
    | with_reducible apply Keeps.ite
    | with_reducible refine Keeps.foldl ?_ (fun s b hb => ?_)
    | split
    | (with_reducible apply Keeps.mk ; rotate_left ; iterate 9 (exact rfl))
theorem keeps_execLkup (h : Hdr) (b : LkupB) (s : State) (t : State) (hx : execLkup h b s = .next t) : Keeps s t := by
  have hk := Keeps.refl s
  have hx := Host.Outcome.next.inj hx
  subst hx
  try dsimp only
  repeat' first
    | with_reducible assumption
    | (intro x hx)
    | (with_reducible exact Keeps.mk (by assumption) rfl rfl rfl rfl rfl rfl rfl rfl rfl)
    | with_reducible apply keeps_State_onLkup | with_reducible apply keeps_rowStep
    | with_reducible apply Keeps.ite
    | with_reducible refine Keeps.foldl ?_ (fun s b hb => ?_)
    | split
    | (with_reducible apply Keeps.mk ; rotate_left ; iterate 9 (exact rfl))
theorem keeps_execAux (h : Hdr) (b : AuxB) (s : State) (t : State) (hx : execAux h b s = .next t) : Keeps s t := by
  have hk := Keeps.refl s
  have hx := Host.Outcome.next.inj hx
  subst hx
  try dsimp only
  repeat' first
    | with_reducible assumption
    | (intro x hx)
    | (with_reducible exact Keeps.mk (by assumption) rfl rfl rfl rfl rfl rfl rfl rfl rfl)
    | with_reducible apply keeps_State_onAux | with_reducible apply keeps_rowStep
    | with_reducible apply Keeps.ite
    | with_reducible refine Keeps.foldl ?_ (fun s b hb => ?_)
    | split
    | (with_reducible apply Keeps.mk ; rotate_left ; iterate 9 (exact rfl))
theorem keeps_execSide (h : Hdr) (b : SideB) (s : State) (t : State) (hx : execSide h b s = .next t) : Keeps s t := by
  have hk := Keeps.refl s
  have hx := Host.Outcome.next.inj hx
  subst hx
  try dsimp only
  repeat' first
    | with_reducible assumption
    | (intro x hx)
    | (with_reducible exact Keeps.mk (by assumption) rfl rfl rfl rfl rfl rfl rfl rfl rfl)
    | with_reducible apply keeps_State_onSide | with_reducible apply keeps_rowStep
    | with_reducible apply Keeps.ite
    | with_reducible refine Keeps.foldl ?_ (fun s b hb => ?_)
    | split
    | (with_reducible apply Keeps.mk ; rotate_left ; iterate 9 (exact rfl))
theorem keeps_execCancel (h : Hdr) (k : W64) (s : State) (t : State) (hx : execCancel h k s = .next t) : Keeps s t := by
  have hk := Keeps.refl s
  have hx := Host.Outcome.next.inj hx
  subst hx
  try dsimp only
  repeat' first
    | with_reducible assumption
    | (intro x hx)
    | (with_reducible exact Keeps.mk (by assumption) rfl rfl rfl rfl rfl rfl rfl rfl rfl)
    | with_reducible apply keeps_State_onCancel | with_reducible apply keeps_ctlSound | with_reducible apply keeps_rowStep
    | with_reducible apply Keeps.ite
    | with_reducible refine Keeps.foldl ?_ (fun s b hb => ?_)
    | split
    | (with_reducible apply Keeps.mk ; rotate_left ; iterate 9 (exact rfl))
theorem keeps_execDeadlineReached (key : RowKey) (s : State) (t : State) (hx : execDeadlineReached key s = .next t) : Keeps s t := by
  have hk := Keeps.refl s
  have hx := Host.Outcome.next.inj hx
  subst hx
  try dsimp only
  repeat' first
    | with_reducible assumption
    | (intro x hx)
    | (with_reducible exact Keeps.mk (by assumption) rfl rfl rfl rfl rfl rfl rfl rfl rfl)
    | with_reducible apply keeps_State_deadlineHere | with_reducible apply keeps_State_rootDeadline | with_reducible apply keeps_State_asmDeadline | with_reducible apply keeps_workStep
    | with_reducible apply Keeps.ite
    | with_reducible refine Keeps.foldl ?_ (fun s b hb => ?_)
    | split
    | (with_reducible apply Keeps.mk ; rotate_left ; iterate 9 (exact rfl))
theorem keeps_execContextExpiry (slot : Nat) (s : State) (t : State) (hx : execContextExpiry slot s = .next t) : Keeps s t := by
  have hk := Keeps.refl s
  have hx := Host.Outcome.next.inj hx
  subst hx
  try dsimp only
  repeat' first
    | with_reducible assumption
    | (intro x hx)
    | (with_reducible exact Keeps.mk (by assumption) rfl rfl rfl rfl rfl rfl rfl rfl rfl)
    | with_reducible apply keeps_State_setSlot
    | with_reducible apply Keeps.ite
    | with_reducible refine Keeps.foldl ?_ (fun s b hb => ?_)
    | split
    | (with_reducible apply Keeps.mk ; rotate_left ; iterate 9 (exact rfl))
theorem keeps_execExpiredPagesFreed (slot : Nat) (s : State) (t : State) (hx : execExpiredPagesFreed slot s = .next t) : Keeps s t := by
  have hk := Keeps.refl s
  have hx := Host.Outcome.next.inj hx
  subst hx
  try dsimp only
  repeat' first
    | with_reducible assumption
    | (intro x hx)
    | (with_reducible exact Keeps.mk (by assumption) rfl rfl rfl rfl rfl rfl rfl rfl rfl)
    | with_reducible apply keeps_State_freeExpired
    | with_reducible apply Keeps.ite
    | with_reducible refine Keeps.foldl ?_ (fun s b hb => ?_)
    | split
    | (with_reducible apply Keeps.mk ; rotate_left ; iterate 9 (exact rfl))
theorem keeps_execHistoryDoublingDone (slot : Nat) (s : State) (t : State) (hx : execHistoryDoublingDone slot s = .next t) : Keeps s t := by
  have hk := Keeps.refl s
  have hx := Host.Outcome.next.inj hx
  subst hx
  try dsimp only
  repeat' first
    | with_reducible assumption
    | (intro x hx)
    | (with_reducible exact Keeps.mk (by assumption) rfl rfl rfl rfl rfl rfl rfl rfl rfl)
    | with_reducible apply keeps_State_doubled
    | with_reducible apply Keeps.ite
    | with_reducible refine Keeps.foldl ?_ (fun s b hb => ?_)
    | split
    | (with_reducible apply Keeps.mk ; rotate_left ; iterate 9 (exact rfl))
theorem keeps_execBudgetRefill (s : State) (t : State) (hx : execBudgetRefill s = .next t) : Keeps s t := by
  have hk := Keeps.refl s
  have hx := Host.Outcome.next.inj hx
  subst hx
  try dsimp only
  repeat' first
    | with_reducible assumption
    | (intro x hx)
    | (with_reducible exact Keeps.mk (by assumption) rfl rfl rfl rfl rfl rfl rfl rfl rfl)
    | with_reducible apply keeps_State_refill | with_reducible apply keeps_workStep
    | with_reducible apply Keeps.ite
    | with_reducible refine Keeps.foldl ?_ (fun s b hb => ?_)
    | split
    | (with_reducible apply Keeps.mk ; rotate_left ; iterate 9 (exact rfl))
theorem keeps_execRequantPartDone (hset slot : Nat) (variant : Option Nat) (err : LoadErr) (s : State) (t : State) (hx : execRequantPartDone hset slot variant err s = .next t) : Keeps s t := by
  have hk := Keeps.refl s
  have hx := Host.Outcome.next.inj hx
  subst hx
  try dsimp only
  repeat' first
    | with_reducible assumption
    | (intro x hx)
    | (with_reducible exact Keeps.mk (by assumption) rfl rfl rfl rfl rfl rfl rfl rfl rfl)
    | with_reducible apply keeps_State_requantDone | with_reducible apply keeps_workStep
    | with_reducible apply Keeps.ite
    | with_reducible refine Keeps.foldl ?_ (fun s b hb => ?_)
    | split
    | (with_reducible apply Keeps.mk ; rotate_left ; iterate 9 (exact rfl))
theorem keeps_execBar (h : Hdr) (barrier tag : Nat) (s : State) (t : State) (hx : execBar h barrier tag s = .next t) : Keeps s t := by
  have hk := Keeps.refl s
  have hx := Host.Outcome.next.inj hx
  subst hx
  try dsimp only
  repeat' first
    | with_reducible assumption
    | (intro x hx)
    | (with_reducible exact Keeps.mk (by assumption) rfl rfl rfl rfl rfl rfl rfl rfl rfl)
    | with_reducible apply keeps_State_contained | with_reducible apply keeps_State_arrive | with_reducible apply keeps_State_barAbort | with_reducible apply keeps_State_barCount
    | with_reducible apply Keeps.ite
    | with_reducible refine Keeps.foldl ?_ (fun s b hb => ?_)
    | split
    | (with_reducible apply Keeps.mk ; rotate_left ; iterate 9 (exact rfl))
theorem keeps_execRel (h : Hdr) (barrier tag : Nat) (s : State) (t : State) (hx : execRel h barrier tag s = .next t) : Keeps s t := by
  have hk := Keeps.refl s
  have hx := Host.Outcome.next.inj hx
  subst hx
  try dsimp only
  repeat' first
    | with_reducible assumption
    | (intro x hx)
    | (with_reducible exact Keeps.mk (by assumption) rfl rfl rfl rfl rfl rfl rfl rfl rfl)
    | with_reducible apply keeps_State_onRel | with_reducible apply keeps_ctlStep
    | with_reducible apply Keeps.ite
    | with_reducible refine Keeps.foldl ?_ (fun s b hb => ?_)
    | split
    | (with_reducible apply Keeps.mk ; rotate_left ; iterate 9 (exact rfl))
theorem keeps_execSignal (h : Hdr) (b : SignalB) (s : State) (t : State) (hx : execSignal h b s = .next t) : Keeps s t := by
  have hk := Keeps.refl s
  have hx := Host.Outcome.next.inj hx
  subst hx
  try dsimp only
  repeat' first
    | with_reducible assumption
    | (intro x hx)
    | (with_reducible exact Keeps.mk (by assumption) rfl rfl rfl rfl rfl rfl rfl rfl rfl)
    | with_reducible apply keeps_ctlSound | with_reducible apply keeps_State_arrive | with_reducible apply keeps_State_onSignal
    | with_reducible apply Keeps.ite
    | with_reducible refine Keeps.foldl ?_ (fun s b hb => ?_)
    | split
    | (with_reducible apply Keeps.mk ; rotate_left ; iterate 9 (exact rfl))
theorem keeps_execCmd (h : Hdr) (b : CmdB) (s : State) (t : State) (hx : execCmd h b s = .next t) : Keeps s t := by
  have hk := Keeps.refl s
  have hx := Host.Outcome.next.inj hx
  subst hx
  try dsimp only
  repeat' first
    | with_reducible assumption
    | (intro x hx)
    | (with_reducible exact Keeps.mk (by assumption) rfl rfl rfl rfl rfl rfl rfl rfl rfl)
    | with_reducible apply keeps_State_onCmd | with_reducible apply keeps_ctlStep
    | with_reducible apply Keeps.ite
    | with_reducible refine Keeps.foldl ?_ (fun s b hb => ?_)
    | split
    | (with_reducible apply Keeps.mk ; rotate_left ; iterate 9 (exact rfl))
theorem keeps_execEvent (h : Hdr) (b : EventB) (s : State) (t : State) (hx : execEvent h b s = .next t) : Keeps s t := by
  have hk := Keeps.refl s
  have hx := Host.Outcome.next.inj hx
  subst hx
  try dsimp only
  repeat' first
    | with_reducible assumption
    | (intro x hx)
    | (with_reducible exact Keeps.mk (by assumption) rfl rfl rfl rfl rfl rfl rfl rfl rfl)
    | with_reducible apply keeps_State_onEvent | with_reducible apply keeps_ctlStep
    | with_reducible apply Keeps.ite
    | with_reducible refine Keeps.foldl ?_ (fun s b hb => ?_)
    | split
    | (with_reducible apply Keeps.mk ; rotate_left ; iterate 9 (exact rfl))
theorem keeps_execProbe (h : Hdr) (b : ProbeB) (s : State) (t : State) (hx : execProbe h b s = .next t) : Keeps s t := by
  have hk := Keeps.refl s
  have hx := Host.Outcome.next.inj hx
  subst hx
  try dsimp only
  repeat' first
    | with_reducible assumption
    | (intro x hx)
    | (with_reducible exact Keeps.mk (by assumption) rfl rfl rfl rfl rfl rfl rfl rfl rfl)
    | with_reducible apply keeps_ctlSound | with_reducible apply keeps_State_passOn | with_reducible apply keeps_State_arrive | with_reducible apply keeps_State_onProbe
    | with_reducible apply Keeps.ite
    | with_reducible refine Keeps.foldl ?_ (fun s b hb => ?_)
    | split
    | (with_reducible apply Keeps.mk ; rotate_left ; iterate 9 (exact rfl))
theorem keeps_execPurge (h : Hdr) (punnet : Nat) (dbg : Bool) (s : State) (t : State) (hx : execPurge h punnet dbg s = .next t) : Keeps s t := by
  have hk := Keeps.refl s
  have hx := Host.Outcome.next.inj hx
  subst hx
  try dsimp only
  repeat' first
    | with_reducible assumption
    | (intro x hx)
    | (with_reducible exact Keeps.mk (by assumption) rfl rfl rfl rfl rfl rfl rfl rfl rfl)
    | with_reducible apply keeps_ctlSound | with_reducible apply keeps_State_passOn | with_reducible apply keeps_State_arrive | with_reducible apply keeps_State_purge | with_reducible apply keeps_State_onPurge
    | with_reducible apply Keeps.ite
    | with_reducible refine Keeps.foldl ?_ (fun s b hb => ?_)
    | split
    | (with_reducible apply Keeps.mk ; rotate_left ; iterate 9 (exact rfl))
theorem keeps_execDisc (port : Nat) (ovf : Bool) (entries : List DiscEnt) (s : State) (t : State) (hx : execDisc port ovf entries s = .next t) : Keeps s t := by
  have hk := Keeps.refl s
  have hx := Host.Outcome.next.inj hx
  subst hx
  try dsimp only
  repeat' first
    | with_reducible assumption
    | (intro x hx)
    | (with_reducible exact Keeps.mk (by assumption) rfl rfl rfl rfl rfl rfl rfl rfl rfl)
    | with_reducible apply keeps_State_onDisc
    | with_reducible apply Keeps.ite
    | with_reducible refine Keeps.foldl ?_ (fun s b hb => ?_)
    | split
    | (with_reducible apply Keeps.mk ; rotate_left ; iterate 9 (exact rfl))
theorem keeps_execDiscoverySettled (s : State) (t : State) (hx : execDiscoverySettled s = .next t) : Keeps s t := by
  have hk := Keeps.refl s
  have hx := Host.Outcome.next.inj hx
  subst hx
  try dsimp only
  repeat' first
    | with_reducible assumption
    | (intro x hx)
    | (with_reducible exact Keeps.mk (by assumption) rfl rfl rfl rfl rfl rfl rfl rfl rfl)
    | with_reducible apply keeps_State_settledAll | with_reducible apply keeps_State_after
    | with_reducible apply Keeps.ite
    | with_reducible refine Keeps.foldl ?_ (fun s b hb => ?_)
    | split
    | (with_reducible apply Keeps.mk ; rotate_left ; iterate 9 (exact rfl))
theorem keeps_execDlwinExpiry (s : State) (t : State) (hx : execDlwinExpiry s = .next t) : Keeps s t := by
  have hk := Keeps.refl s
  have hx := Host.Outcome.next.inj hx
  subst hx
  try dsimp only
  repeat' first
    | with_reducible assumption
    | (intro x hx)
    | (with_reducible exact Keeps.mk (by assumption) rfl rfl rfl rfl rfl rfl rfl rfl rfl)
    | with_reducible apply keeps_State_dlwin
    | with_reducible apply Keeps.ite
    | with_reducible refine Keeps.foldl ?_ (fun s b hb => ?_)
    | split
    | (with_reducible apply Keeps.mk ; rotate_left ; iterate 9 (exact rfl))
theorem keeps_execPurgeRetryTimer (s : State) (t : State) (hx : execPurgeRetryTimer s = .next t) : Keeps s t := by
  have hk := Keeps.refl s
  have hx := Host.Outcome.next.inj hx
  subst hx
  try dsimp only
  repeat' first
    | with_reducible assumption
    | (intro x hx)
    | (with_reducible exact Keeps.mk (by assumption) rfl rfl rfl rfl rfl rfl rfl rfl rfl)
    | with_reducible apply keeps_State_purgeRetry
    | with_reducible apply Keeps.ite
    | with_reducible refine Keeps.foldl ?_ (fun s b hb => ?_)
    | split
    | (with_reducible apply Keeps.mk ; rotate_left ; iterate 9 (exact rfl))
theorem keeps_execDataFrame (port : Nat) (f : Frame) (s : State) (t : State) (hx : execDataFrame port f s = .next t) : Keeps s t := by
  have hk := Keeps.refl s
  have hx := Host.Outcome.next.inj hx
  subst hx
  try dsimp only
  repeat' first
    | with_reducible assumption
    | (intro x hx)
    | (with_reducible exact Keeps.mk (by assumption) rfl rfl rfl rfl rfl rfl rfl rfl rfl)
    | with_reducible apply keeps_State_contained | with_reducible apply keeps_State_fire | with_reducible apply keeps_State_nak | with_reducible apply keeps_State_acceptData | with_reducible apply keeps_frameAt
    | with_reducible apply Keeps.ite
    | with_reducible refine Keeps.foldl ?_ (fun s b hb => ?_)
    | split
    | (with_reducible apply Keeps.mk ; rotate_left ; iterate 9 (exact rfl))
theorem keeps_execNakFrame (port : Nat) (f : Frame) (s : State) (t : State) (hx : execNakFrame port f s = .next t) : Keeps s t := by
  have hk := Keeps.refl s
  have hx := Host.Outcome.next.inj hx
  subst hx
  try dsimp only
  repeat' first
    | with_reducible assumption
    | (intro x hx)
    | (with_reducible exact Keeps.mk (by assumption) rfl rfl rfl rfl rfl rfl rfl rfl rfl)
    | with_reducible apply keeps_State_corrected | with_reducible apply keeps_State_replay | with_reducible apply keeps_frameAt
    | with_reducible apply Keeps.ite
    | with_reducible refine Keeps.foldl ?_ (fun s b hb => ?_)
    | split
    | (with_reducible apply Keeps.mk ; rotate_left ; iterate 9 (exact rfl))
theorem keeps_execIdleFrame (port : Nat) (f : Frame) (s : State) (t : State) (hx : execIdleFrame port f s = .next t) : Keeps s t := by
  have hk := Keeps.refl s
  have hx := Host.Outcome.next.inj hx
  subst hx
  try dsimp only
  repeat' first
    | with_reducible assumption
    | (intro x hx)
    | (with_reducible exact Keeps.mk (by assumption) rfl rfl rfl rfl rfl rfl rfl rfl rfl)
    | with_reducible apply keeps_frameAt
    | with_reducible apply Keeps.ite
    | with_reducible refine Keeps.foldl ?_ (fun s b hb => ?_)
    | split
    | (with_reducible apply Keeps.mk ; rotate_left ; iterate 9 (exact rfl))
theorem keeps_execTrain (port : Nat) (f : Frame) (s : State) (t : State) (hx : execTrain port f s = .next t) : Keeps s t := by
  have hk := Keeps.refl s
  have hx := Host.Outcome.next.inj hx
  subst hx
  try dsimp only
  repeat' first
    | with_reducible assumption
    | (intro x hx)
    | (with_reducible exact Keeps.mk (by assumption) rfl rfl rfl rfl rfl rfl rfl rfl rfl)
    | with_reducible apply keeps_State_purgeGo | with_reducible apply keeps_State_pumpLink | with_reducible apply keeps_State_trained
    | with_reducible apply Keeps.ite
    | with_reducible refine Keeps.foldl ?_ (fun s b hb => ?_)
    | split
    | (with_reducible apply Keeps.mk ; rotate_left ; iterate 9 (exact rfl))
theorem keeps_execRetrain (port : Nat) (f : Frame) (s : State) (t : State) (hx : execRetrain port f s = .next t) : Keeps s t := by
  have hk := Keeps.refl s
  have hx := Host.Outcome.next.inj hx
  subst hx
  try dsimp only
  repeat' first
    | with_reducible assumption
    | (intro x hx)
    | (with_reducible exact Keeps.mk (by assumption) rfl rfl rfl rfl rfl rfl rfl rfl rfl)
    | with_reducible apply keeps_State_retrain
    | with_reducible apply Keeps.ite
    | with_reducible refine Keeps.foldl ?_ (fun s b hb => ?_)
    | split
    | (with_reducible apply Keeps.mk ; rotate_left ; iterate 9 (exact rfl))
theorem keeps_execTrainingWord (port group lane : Nat) (words : List Word) (s : State) (t : State) (hx : execTrainingWord port group lane words s = .next t) : Keeps s t := by
  have hk := Keeps.refl s
  have hx := Host.Outcome.next.inj hx
  subst hx
  try dsimp only
  repeat' first
    | with_reducible assumption
    | (intro x hx)
    | (with_reducible exact Keeps.mk (by assumption) rfl rfl rfl rfl rfl rfl rfl rfl rfl)
    | with_reducible apply keeps_State_trainWord
    | with_reducible apply Keeps.ite
    | with_reducible refine Keeps.foldl ?_ (fun s b hb => ?_)
    | split
    | (with_reducible apply Keeps.mk ; rotate_left ; iterate 9 (exact rfl))
theorem keeps_execReplayTimer (port : Nat) (s : State) (t : State) (hx : execReplayTimer port s = .next t) : Keeps s t := by
  have hk := Keeps.refl s
  have hx := Host.Outcome.next.inj hx
  subst hx
  try dsimp only
  repeat' first
    | with_reducible assumption
    | (intro x hx)
    | (with_reducible exact Keeps.mk (by assumption) rfl rfl rfl rfl rfl rfl rfl rfl rfl)
    | with_reducible apply keeps_State_replay
    | with_reducible apply Keeps.ite
    | with_reducible refine Keeps.foldl ?_ (fun s b hb => ?_)
    | split
    | (with_reducible apply Keeps.mk ; rotate_left ; iterate 9 (exact rfl))
theorem keeps_execIdleTimer (port : Nat) (s : State) (t : State) (hx : execIdleTimer port s = .next t) : Keeps s t := by
  have hk := Keeps.refl s
  have hx := Host.Outcome.next.inj hx
  subst hx
  try dsimp only
  repeat' first
    | with_reducible assumption
    | (intro x hx)
    | (with_reducible exact Keeps.mk (by assumption) rfl rfl rfl rfl rfl rfl rfl rfl rfl)
    | with_reducible apply keeps_State_pumpLink | with_reducible apply keeps_State_driveFrame | with_reducible apply keeps_State_setLink
    | with_reducible apply Keeps.ite
    | with_reducible refine Keeps.foldl ?_ (fun s b hb => ?_)
    | split
    | (with_reducible apply Keeps.mk ; rotate_left ; iterate 9 (exact rfl))
theorem keeps_execLinktoExpiry (port : Nat) (s : State) (t : State) (hx : execLinktoExpiry port s = .next t) : Keeps s t := by
  have hk := Keeps.refl s
  have hx := Host.Outcome.next.inj hx
  subst hx
  try dsimp only
  repeat' first
    | with_reducible assumption
    | (intro x hx)
    | (with_reducible exact Keeps.mk (by assumption) rfl rfl rfl rfl rfl rfl rfl rfl rfl)
    | with_reducible apply keeps_State_retrain
    | with_reducible apply Keeps.ite
    | with_reducible refine Keeps.foldl ?_ (fun s b hb => ?_)
    | split
    | (with_reducible apply Keeps.mk ; rotate_left ; iterate 9 (exact rfl))
theorem keeps_execLinkDown (port : Nat) (s : State) (t : State) (hx : execLinkDown port s = .next t) : Keeps s t := by
  have hk := Keeps.refl s
  have hx := Host.Outcome.next.inj hx
  subst hx
  try dsimp only
  repeat' first
    | with_reducible assumption
    | (intro x hx)
    | (with_reducible exact Keeps.mk (by assumption) rfl rfl rfl rfl rfl rfl rfl rfl rfl)
    | with_reducible apply keeps_State_linkDown
    | with_reducible apply Keeps.ite
    | with_reducible refine Keeps.foldl ?_ (fun s b hb => ?_)
    | split
    | (with_reducible apply Keeps.mk ; rotate_left ; iterate 9 (exact rfl))
theorem keeps_execSignalTimeout (stag : Nat) (s : State) (t : State) (hx : execSignalTimeout stag s = .next t) : Keeps s t := by
  have hk := Keeps.refl s
  have hx := Host.Outcome.next.inj hx
  subst hx
  try dsimp only
  repeat' first
    | with_reducible assumption
    | (intro x hx)
    | (with_reducible exact Keeps.mk (by assumption) rfl rfl rfl rfl rfl rfl rfl rfl rfl)
    | with_reducible apply keeps_State_signalGone
    | with_reducible apply Keeps.ite
    | with_reducible refine Keeps.foldl ?_ (fun s b hb => ?_)
    | split
    | (with_reducible apply Keeps.mk ; rotate_left ; iterate 9 (exact rfl))
theorem keeps_execForwardTimeout (fid : Nat) (s : State) (t : State) (hx : execForwardTimeout fid s = .next t) : Keeps s t := by
  have hk := Keeps.refl s
  have hx := Host.Outcome.next.inj hx
  subst hx
  try dsimp only
  repeat' first
    | with_reducible assumption
    | (intro x hx)
    | (with_reducible exact Keeps.mk (by assumption) rfl rfl rfl rfl rfl rfl rfl rfl rfl)
    | with_reducible apply keeps_State_forwardGone | with_reducible apply keeps_State_after
    | with_reducible apply Keeps.ite
    | with_reducible refine Keeps.foldl ?_ (fun s b hb => ?_)
    | split
    | (with_reducible apply Keeps.mk ; rotate_left ; iterate 9 (exact rfl))
theorem keeps_execWaitTimeout (r : RingRef) (s : State) (t : State) (hx : execWaitTimeout r s = .next t) : Keeps s t := by
  have hk := Keeps.refl s
  have hx := Host.Outcome.next.inj hx
  subst hx
  try dsimp only
  repeat' first
    | with_reducible assumption
    | (intro x hx)
    | (with_reducible exact Keeps.mk (by assumption) rfl rfl rfl rfl rfl rfl rfl rfl rfl)
    | with_reducible apply keeps_State_waitGone
    | with_reducible apply Keeps.ite
    | with_reducible refine Keeps.foldl ?_ (fun s b hb => ?_)
    | split
    | (with_reducible apply Keeps.mk ; rotate_left ; iterate 9 (exact rfl))
theorem keeps_execRescoreKatTimer (failed : List Unit') (s : State) (t : State) (hx : execRescoreKatTimer failed s = .next t) : Keeps s t := by
  have hk := Keeps.refl s
  have hx := Host.Outcome.next.inj hx
  subst hx
  try dsimp only
  repeat' first
    | with_reducible assumption
    | (intro x hx)
    | (with_reducible exact Keeps.mk (by assumption) rfl rfl rfl rfl rfl rfl rfl rfl rfl)
    | with_reducible apply keeps_State_rescoreKat | with_reducible apply keeps_workStep
    | with_reducible apply Keeps.ite
    | with_reducible refine Keeps.foldl ?_ (fun s b hb => ?_)
    | split
    | (with_reducible apply Keeps.mk ; rotate_left ; iterate 9 (exact rfl))
theorem keeps_execWatchdogExpiry (s : State) (t : State) (hx : execWatchdogExpiry s = .next t) : Keeps s t := by
  have hk := Keeps.refl s
  have hx := Host.Outcome.next.inj hx
  subst hx
  try dsimp only
  repeat' first
    | with_reducible assumption
    | (intro x hx)
    | (with_reducible exact Keeps.mk (by assumption) rfl rfl rfl rfl rfl rfl rfl rfl rfl)
    | with_reducible apply keeps_State_fire | with_reducible apply keeps_State_fatal
    | with_reducible apply Keeps.ite
    | with_reducible refine Keeps.foldl ?_ (fun s b hb => ?_)
    | split
    | (with_reducible apply Keeps.mk ; rotate_left ; iterate 9 (exact rfl))
theorem keeps_execTransferTimeout (s : State) (t : State) (hx : execTransferTimeout s = .next t) : Keeps s t := by
  have hk := Keeps.refl s
  have hx := Host.Outcome.next.inj hx
  subst hx
  try dsimp only
  repeat' first
    | with_reducible assumption
    | (intro x hx)
    | (with_reducible exact Keeps.mk (by assumption) rfl rfl rfl rfl rfl rfl rfl rfl rfl)
    | with_reducible apply keeps_State_fatal
    | with_reducible apply Keeps.ite
    | with_reducible refine Keeps.foldl ?_ (fun s b hb => ?_)
    | split
    | (with_reducible apply Keeps.mk ; rotate_left ; iterate 9 (exact rfl))
theorem keeps_execSafeEntry (cause : Nat) (s : State) (t : State) (hx : execSafeEntry cause s = .next t) : Keeps s t := by
  have hk := Keeps.refl s
  have hx := Host.Outcome.next.inj hx
  subst hx
  try dsimp only
  repeat' first
    | with_reducible assumption
    | (intro x hx)
    | (with_reducible exact Keeps.mk (by assumption) rfl rfl rfl rfl rfl rfl rfl rfl rfl)
    | with_reducible apply keeps_State_fatal
    | with_reducible apply Keeps.ite
    | with_reducible refine Keeps.foldl ?_ (fun s b hb => ?_)
    | split
    | (with_reducible apply Keeps.mk ; rotate_left ; iterate 9 (exact rfl))
theorem keeps_execWindfallDone (err : Bool) (s : State) (t : State) (hx : execWindfallDone err s = .next t) : Keeps s t := by
  have hk := Keeps.refl s
  have hx := Host.Outcome.next.inj hx
  subst hx
  try dsimp only
  repeat' first
    | with_reducible assumption
    | (intro x hx)
    | (with_reducible exact Keeps.mk (by assumption) rfl rfl rfl rfl rfl rfl rfl rfl rfl)
    | with_reducible apply keeps_State_windEnd
    | with_reducible apply Keeps.ite
    | with_reducible refine Keeps.foldl ?_ (fun s b hb => ?_)
    | split
    | (with_reducible apply Keeps.mk ; rotate_left ; iterate 9 (exact rfl))
theorem keeps_execSelftestSlice (unit : Unit') (fail : Bool) (s : State) (t : State) (hx : execSelftestSlice unit fail s = .next t) : Keeps s t := by
  have hk := Keeps.refl s
  have hx := Host.Outcome.next.inj hx
  subst hx
  try dsimp only
  repeat' first
    | with_reducible assumption
    | (intro x hx)
    | (with_reducible exact Keeps.mk (by assumption) rfl rfl rfl rfl rfl rfl rfl rfl rfl)
    | with_reducible apply keeps_State_slice
    | with_reducible apply Keeps.ite
    | with_reducible refine Keeps.foldl ?_ (fun s b hb => ?_)
    | split
    | (with_reducible apply Keeps.mk ; rotate_left ; iterate 9 (exact rfl))
theorem keeps_execSelftestPassTimer (s : State) (t : State) (hx : execSelftestPassTimer s = .next t) : Keeps s t := by
  have hk := Keeps.refl s
  have hx := Host.Outcome.next.inj hx
  subst hx
  try dsimp only
  repeat' first
    | with_reducible assumption
    | (intro x hx)
    | (with_reducible exact Keeps.mk (by assumption) rfl rfl rfl rfl rfl rfl rfl rfl rfl)
    | with_reducible apply keeps_State_setFault
    | with_reducible apply Keeps.ite
    | with_reducible refine Keeps.foldl ?_ (fun s b hb => ?_)
    | split
    | (with_reducible apply Keeps.mk ; rotate_left ; iterate 9 (exact rfl))
theorem keeps_execLowWordRead (p : PortId) (addr : Nat) (s : State) (t : State) (hx : execLowWordRead p addr s = .next t) : Keeps s t := by
  have hk := Keeps.refl s
  have hx := Host.Outcome.next.inj hx
  subst hx
  refine Keeps.ite hk (Keeps.ite (keeps_State_setPort _ _ _ _ hk (PortSub.of rfl)) (Keeps.ite (keeps_State_badAccess _ _ _ hk) ?_))
  split
  · exact hk
  · exact Keeps.ite (keeps_State_setPort _ _ _ _ hk (PortSub.of rfl)) hk
theorem keeps_execJgDbgEn (by_ : PortId) (value : Word) (s : State) (t : State) (hx : execJgDbgEn by_ value s = .next t) : Keeps s t := by
  have hk := Keeps.refl s
  have hx := Host.Outcome.next.inj hx
  subst hx
  try dsimp only
  repeat' first
    | with_reducible assumption
    | (intro x hx)
    | (with_reducible exact Keeps.mk (by assumption) rfl rfl rfl rfl rfl rfl rfl rfl rfl)
    | with_reducible apply keeps_sharedWrite | with_reducible apply keeps_State_writeDbgEn
    | with_reducible apply Keeps.ite
    | with_reducible refine Keeps.foldl ?_ (fun s b hb => ?_)
    | split
    | (with_reducible apply Keeps.mk ; rotate_left ; iterate 9 (exact rfl))
theorem keeps_execJgDbgPurge (value : Word) (s : State) (t : State) (hx : execJgDbgPurge value s = .next t) : Keeps s t := by
  have hk := Keeps.refl s
  have hx := Host.Outcome.next.inj hx
  subst hx
  try dsimp only
  repeat' first
    | with_reducible assumption
    | (intro x hx)
    | (with_reducible exact Keeps.mk (by assumption) rfl rfl rfl rfl rfl rfl rfl rfl rfl)
    | with_reducible apply keeps_debugWrite | with_reducible apply keeps_State_dbgPurge
    | with_reducible apply Keeps.ite
    | with_reducible refine Keeps.foldl ?_ (fun s b hb => ?_)
    | split
    | (with_reducible apply Keeps.mk ; rotate_left ; iterate 9 (exact rfl))
theorem keeps_execJgDbgFlush (value : Word) (s : State) (t : State) (hx : execJgDbgFlush value s = .next t) : Keeps s t := by
  have hk := Keeps.refl s
  have hx := Host.Outcome.next.inj hx
  subst hx
  try dsimp only
  repeat' first
    | with_reducible assumption
    | (intro x hx)
    | (with_reducible exact Keeps.mk (by assumption) rfl rfl rfl rfl rfl rfl rfl rfl rfl)
    | with_reducible apply keeps_debugWrite | with_reducible apply keeps_State_dbgFlush
    | with_reducible apply Keeps.ite
    | with_reducible refine Keeps.foldl ?_ (fun s b hb => ?_)
    | split
    | (with_reducible apply Keeps.mk ; rotate_left ; iterate 9 (exact rfl))
theorem keeps_execJgDbgCntval (value : W64) (s : State) (t : State) (hx : execJgDbgCntval value s = .next t) : Keeps s t := by
  have hk := Keeps.refl s
  have hx := Host.Outcome.next.inj hx
  subst hx
  try dsimp only
  repeat' first
    | with_reducible assumption
    | (intro x hx)
    | (with_reducible exact Keeps.mk (by assumption) rfl rfl rfl rfl rfl rfl rfl rfl rfl)
    | with_reducible apply keeps_debugWrite | with_reducible apply keeps_State_dbgCntval
    | with_reducible apply Keeps.ite
    | with_reducible refine Keeps.foldl ?_ (fun s b hb => ?_)
    | split
    | (with_reducible apply Keeps.mk ; rotate_left ; iterate 9 (exact rfl))
theorem keeps_execJgDbgSem (value : Word) (s : State) (t : State) (hx : execJgDbgSem value s = .next t) : Keeps s t := by
  have hk := Keeps.refl s
  have hx := Host.Outcome.next.inj hx
  subst hx
  try dsimp only
  repeat' first
    | with_reducible assumption
    | (intro x hx)
    | (with_reducible exact Keeps.mk (by assumption) rfl rfl rfl rfl rfl rfl rfl rfl rfl)
    | with_reducible apply keeps_debugWrite | with_reducible apply keeps_State_dbgSem
    | with_reducible apply Keeps.ite
    | with_reducible refine Keeps.foldl ?_ (fun s b hb => ?_)
    | split
    | (with_reducible apply Keeps.mk ; rotate_left ; iterate 9 (exact rfl))
theorem keeps_execHangclr (value : Word) (s : State) (t : State) (hx : execHangclr value s = .next t) : Keeps s t := by
  have hk := Keeps.refl s
  have hx := Host.Outcome.next.inj hx
  subst hx
  try dsimp only
  repeat' first
    | with_reducible assumption
    | (intro x hx)
    | (with_reducible exact Keeps.mk (by assumption) rfl rfl rfl rfl rfl rfl rfl rfl rfl)
    | with_reducible apply keeps_debugWrite | with_reducible apply keeps_State_dbgCtl
    | with_reducible apply Keeps.ite
    | with_reducible refine Keeps.foldl ?_ (fun s b hb => ?_)
    | split
    | (with_reducible apply Keeps.mk ; rotate_left ; iterate 9 (exact rfl))
theorem keeps_execInjenClear (value : Word) (s : State) (t : State) (hx : execInjenClear value s = .next t) : Keeps s t := by
  have hk := Keeps.refl s
  have hx := Host.Outcome.next.inj hx
  subst hx
  try dsimp only
  repeat' first
    | with_reducible assumption
    | (intro x hx)
    | (with_reducible exact Keeps.mk (by assumption) rfl rfl rfl rfl rfl rfl rfl rfl rfl)
    | with_reducible apply keeps_debugWrite | with_reducible apply keeps_State_dbgCtl
    | with_reducible apply Keeps.ite
    | with_reducible refine Keeps.foldl ?_ (fun s b hb => ?_)
    | split
    | (with_reducible apply Keeps.mk ; rotate_left ; iterate 9 (exact rfl))
theorem keeps_execJgDbgTrdata (up0 : PortId) (s : State) (t : State) (hx : execJgDbgTrdata up0 s = .next t) : Keeps s t := by
  have hk := Keeps.refl s
  have hx := Host.Outcome.next.inj hx
  subst hx
  try dsimp only
  repeat' first
    | with_reducible assumption
    | (intro x hx)
    | (with_reducible exact Keeps.mk (by assumption) rfl rfl rfl rfl rfl rfl rfl rfl rfl)
    | with_reducible apply Keeps.ite
    | with_reducible refine Keeps.foldl ?_ (fun s b hb => ?_)
    | split
    | (with_reducible apply Keeps.mk ; rotate_left ; iterate 9 (exact rfl))
theorem keeps_execDbgen (s : State) (t : State) (hx : execDbgen s = .next t) : Keeps s t := by
  have hk := Keeps.refl s
  have hx := Host.Outcome.next.inj hx
  subst hx
  try dsimp only
  repeat' first
    | with_reducible assumption
    | (intro x hx)
    | (with_reducible exact Keeps.mk (by assumption) rfl rfl rfl rfl rfl rfl rfl rfl rfl)
    | with_reducible apply keeps_State_setAccess
    | with_reducible apply Keeps.ite
    | with_reducible refine Keeps.foldl ?_ (fun s b hb => ?_)
    | split
    | (with_reducible apply Keeps.mk ; rotate_left ; iterate 9 (exact rfl))
theorem keeps_execTestLogicReset (s : State) (t : State) (hx : execTestLogicReset s = .next t) : Keeps s t := by
  have hk := Keeps.refl s
  have hx := Host.Outcome.next.inj hx
  subst hx
  try dsimp only
  repeat' first
    | with_reducible assumption
    | (intro x hx)
    | (with_reducible exact Keeps.mk (by assumption) rfl rfl rfl rfl rfl rfl rfl rfl rfl)
    | with_reducible apply keeps_State_setAccess
    | with_reducible apply Keeps.ite
    | with_reducible refine Keeps.foldl ?_ (fun s b hb => ?_)
    | split
    | (with_reducible apply Keeps.mk ; rotate_left ; iterate 9 (exact rfl))
theorem keeps_execStore (tdr : Nat) (s : State) (t : State) (hx : execStore tdr s = .next t) : Keeps s t := by
  have hk := Keeps.refl s
  have hx := Host.Outcome.next.inj hx
  subst hx
  try dsimp only
  repeat' first
    | with_reducible assumption
    | (intro x hx)
    | (with_reducible exact Keeps.mk (by assumption) rfl rfl rfl rfl rfl rfl rfl rfl rfl)
    | with_reducible apply keeps_State_setTdr | with_reducible apply keeps_instrument
    | with_reducible apply keeps_instrument
    | with_reducible apply Keeps.ite
    | with_reducible refine Keeps.foldl ?_ (fun s b hb => ?_)
    | split
    | (with_reducible apply Keeps.mk ; rotate_left ; iterate 9 (exact rfl))
theorem keeps_execSramrd (tdr : Nat) (s t : State) (hx : execSramrd tdr s = .next t) : Keeps s t := by
  have hx := Host.Outcome.next.inj hx
  subst hx
  refine keeps_instrument _ _ _ _ _ (fun x hx => ?_) (Keeps.refl s)
  exact keeps_State_setTdr _ _ _ _ (Keeps.ite (keeps_State_sramError _ _ _ (keeps_State_fire _ _ _ hx)) hx)

theorem keeps_execSlice (tdr : Nat) (s t : State) (hx : execSlice tdr s = .next t) : Keeps s t := by
  have hx := Host.Outcome.next.inj hx
  subst hx
  refine keeps_instrument _ _ _ _ _ (fun x hx => ?_) (Keeps.refl s)
  extract_lets r i u
  clear_value u
  have h1 : Keeps s x.takeFree.2 := Keeps.mk hx rfl rfl rfl rfl rfl rfl rfl rfl rfl
  exact Keeps.ite (keeps_State_setTdr _ _ _ _ (keeps_State_slice _ _ _ _ h1)) (keeps_State_setTdr _ _ _ _ hx)

theorem keeps_execFuse (tdr : Nat) (s : State) (t : State) (hx : execFuse tdr s = .next t) : Keeps s t := by
  have hk := Keeps.refl s
  have hx := Host.Outcome.next.inj hx
  subst hx
  try dsimp only
  repeat' first
    | with_reducible assumption
    | (intro x hx)
    | (with_reducible exact Keeps.mk (by assumption) rfl rfl rfl rfl rfl rfl rfl rfl rfl)
    | with_reducible apply keeps_State_setTdr | with_reducible apply keeps_instrument
    | with_reducible apply keeps_instrument
    | with_reducible apply Keeps.ite
    | with_reducible refine Keeps.foldl ?_ (fun s b hb => ?_)
    | split
    | (with_reducible apply Keeps.mk ; rotate_left ; iterate 9 (exact rfl))
theorem keeps_execTherm (raw : List Nat) (s : State) (t : State) (hx : execTherm raw s = .next t) : Keeps s t := by
  have hk := Keeps.refl s
  have hx := Host.Outcome.next.inj hx
  subst hx
  try dsimp only
  repeat' first
    | with_reducible assumption
    | (intro x hx)
    | (with_reducible exact Keeps.mk (by assumption) rfl rfl rfl rfl rfl rfl rfl rfl rfl)
    | with_reducible apply keeps_State_setTdr
    | with_reducible apply Keeps.ite
    | with_reducible refine Keeps.foldl ?_ (fun s b hb => ?_)
    | split
    | (with_reducible apply Keeps.mk ; rotate_left ; iterate 9 (exact rfl))
theorem keeps_execTrace (tdr : Nat) (s : State) (t : State) (hx : execTrace tdr s = .next t) : Keeps s t := by
  have hk := Keeps.refl s
  have hx := Host.Outcome.next.inj hx
  subst hx
  try dsimp only
  repeat' first
    | with_reducible assumption
    | (intro x hx)
    | (with_reducible exact Keeps.mk (by assumption) rfl rfl rfl rfl rfl rfl rfl rfl rfl)
    | with_reducible apply keeps_State_setTdr | with_reducible apply keeps_instrument
    | with_reducible apply keeps_instrument
    | with_reducible apply Keeps.ite
    | with_reducible refine Keeps.foldl ?_ (fun s b hb => ?_)
    | split
    | (with_reducible apply Keeps.mk ; rotate_left ; iterate 9 (exact rfl))
theorem keeps_execPoolUpdate (s : State) (t : State) (hx : execPoolUpdate s = .next t) : Keeps s t := by
  have hk := Keeps.refl s
  have hx := Host.Outcome.next.inj hx
  subst hx
  try dsimp only
  repeat' first
    | with_reducible assumption
    | (intro x hx)
    | (with_reducible exact Keeps.mk (by assumption) rfl rfl rfl rfl rfl rfl rfl rfl rfl)
    | with_reducible apply keeps_State_poolUpdate | with_reducible apply keeps_workStep
    | with_reducible apply Keeps.ite
    | with_reducible refine Keeps.foldl ?_ (fun s b hb => ?_)
    | split
    | (with_reducible apply Keeps.mk ; rotate_left ; iterate 9 (exact rfl))
theorem keeps_execDbgenDeselect (s : State) (t : State) (hx : execDbgenDeselect s = .next t) : Keeps s t := by
  have hk := Keeps.refl s
  have hx := Host.Outcome.next.inj hx
  subst hx
  try dsimp only
  repeat' first
    | with_reducible assumption
    | (intro x hx)
    | (with_reducible exact Keeps.mk (by assumption) rfl rfl rfl rfl rfl rfl rfl rfl rfl)
    | with_reducible apply keeps_State_setAccess
    | with_reducible apply Keeps.ite
    | with_reducible refine Keeps.foldl ?_ (fun s b hb => ?_)
    | split
    | (with_reducible apply Keeps.mk ; rotate_left ; iterate 9 (exact rfl))

theorem keeps_execColdReset (s t : State) (hx : execColdReset s = .next t) : KeepsAll s t := by
  have hx := Host.Outcome.next.inj hx
  subst hx
  obtain ⟨p1, p2, p3, p4⟩ := coldReset_keeps s
  exact ⟨p1, p2, fun _ => p3, fun _ => p4⟩

theorem keeps_execWarmReset (src : WarmSrc) (s t : State) (hx : execWarmReset src s = .next t) : KeepsAll s t := by
  have hx := Host.Outcome.next.inj hx
  subst hx
  exact KeepsAll.ite (KeepsAll.refl s) (keepsAll_warmReset _ _ (KeepsAll.refl s))

theorem keeps_execRegisterWrite (by_ : PortId) (addr size : Nat) (value : W64) (s t : State) (hx : execRegisterWrite by_ addr size value s = .next t) :
    KeepsAll s t := by
  have hx := Host.Outcome.next.inj hx
  subst hx
  exact keepsAll_regWrite _ _ _ _ _ _ (KeepsAll.refl s)

theorem keeps_execRegacc (tdr : Nat) (s t : State) (hx : execRegacc tdr s = .next t) : KeepsAll s t := by
  have hx := Host.Outcome.next.inj hx
  subst hx
  unfold instrument
  exact KeepsAll.ite (KeepsAll.refl s) (KeepsAll.ite (keepsAll_regacc _ _ _ (KeepsAll.refl s))
    (keeps_State_setTdr _ _ _ _ (Keeps.refl s)).all)

end Sys2Proof.Laws
end

