-- ==== Sys2Proof/Laws/Packets.lean ====
section
/-! SUPPORT. What the taking of a packet does, said once: a packet that starts runs its command at the instance that serialises it, and
one that does not is answered or left (R336, R339, R341, R350). -/

namespace Sys2Proof.Laws

open Sys2Proof.Machine

/-- A packet that starts is takeable. -/
theorem starts_takeable {s : State} {pk : Pkt} {op k : Nat} {masks : List Nat} {legal : List Blk} (h : Starts s pk op k masks legal) :
    s.takeable pk k = true := by
  unfold State.takeable
  simp only [h.kcrc, if_true, h.awake, h.room, Bool.not_false, Bool.and_true, Bool.not_eq_true', Bool.and_eq_false_imp]
  intro hf
  simp [h.fence hf]

/-- The opcode of a command of a descriptor is defined, whichever it is. -/
theorem reject_none {s : State} {pk : Pkt} {op k : Nat} {masks : List Nat} {legal : List Blk} {d : Desc}
    (h : Starts s pk op k masks legal) (hd : definedOpcode op = true) (hl : d.legal = legal)
    (hs : s.blk = Blk.safe → safeOpcode op = true) (hb : d.bad pk s = none) : s.reject d pk = none := by
  unfold State.reject
  rw [if_neg (by simp [h.kcrc]), if_neg (by simp [h.opcode, hd]), if_neg (by rw [h.opcode]; intro hc; simp [hs hc.1] at hc), hb]
  have := h.state
  rw [← hl] at this
  simp only [this, if_true]

/-- A packet that starts, and passes its command's parameter checks, runs at this instance when this instance serialises it. -/
theorem takePacket_starts {s : State} {pk : Pkt} {op k : Nat} {masks : List Nat} {legal : List Blk} {d : Desc}
    (h : Starts s pk op k masks legal) (hop : d.opcode = op) (hk : k = if d.accepts then 2 else 1) (hd : definedOpcode op = true)
    (hl : d.legal = legal) (hs : s.blk = Blk.safe → safeOpcode op = true) (hb : d.bad pk s = none)
    (hser : s.serialiser d pk = s.orch.shard) :
    takePacket d pk s = (s.taken pk k).start d (s.origin pk) pk := by
  subst hk
  have hr := reject_none h hd hl hs hb
  have ht := starts_takeable h
  have ho := h.opcode
  unfold takePacket
  dsimp only
  rw [if_neg (by simp [h.serving, h.enabled, h.waits]), if_neg (by simp [h.read]), if_neg (by simp [ho, hop]), if_neg (by simp [ht]), hr]
  simp only [hser, if_true, h.kcrc, Bool.not_true, Bool.false_eq_true, if_false, Bool.not_false, Bool.true_and]
  rfl

/-- The same, with the object checks passed and no lock in the way. -/
theorem takePacket_runs {s : State} {pk : Pkt} {op k : Nat} {masks : List Nat} {legal : List Blk} {d : Desc}
    (h : Starts s pk op k masks legal) (hop : d.opcode = op) (hk : k = if d.accepts then 2 else 1) (hd : definedOpcode op = true)
    (hl : d.legal = legal) (hs : s.blk = Blk.safe → safeOpcode op = true) (hb : d.bad pk s = none)
    (hser : s.serialiser d pk = s.orch.shard) (hp : d.pre (s.origin pk) pk (s.taken pk k) = none)
    (hlk : ∀ x, d.lock pk (s.taken pk k) = some x → (s.taken pk k).locked x = false) :
    takePacket d pk s = d.run (s.origin pk) pk (s.taken pk k) := by
  rw [takePacket_starts h hop hk hd hl hs hb hser]
  unfold State.start
  rw [hp]
  cases hx : d.lock pk (s.taken pk k) with
  | none => rfl
  | some x => simp [hlk x hx]

/-- The same, where an object check fails: the packet is answered with its completion. -/
theorem takePacket_pre {s : State} {pk : Pkt} {op k : Nat} {masks : List Nat} {legal : List Blk} {d : Desc} {x : Cpl}
    (h : Starts s pk op k masks legal) (hop : d.opcode = op) (hk : k = if d.accepts then 2 else 1) (hd : definedOpcode op = true)
    (hl : d.legal = legal) (hs : s.blk = Blk.safe → safeOpcode op = true) (hb : d.bad pk s = none)
    (hser : s.serialiser d pk = s.orch.shard) (hp : d.pre (s.origin pk) pk (s.taken pk k) = some x) :
    takePacket d pk s = s.answers pk k x := by
  rw [takePacket_starts h hop hk hd hl hs hb hser]
  unfold State.start
  rw [hp]
  rfl

/-- Every command of a ring is taken by the one protocol. -/
theorem exec_packet {c : Instr} {d : Desc} {pk : Pkt} {b : Bool} (h : c.packet? = some (d, pk, b)) (s : State) :
    exec c s = .next ((takePacket d pk s).goOn b) := by
  cases c <;> simp only [Instr.packet?, Option.some.injEq, Prod.mk.injEq, reduceCtorEq] at h <;>
    (obtain ⟨rfl, rfl, rfl⟩ := h; rfl)

/-- A packet that starts, passes the checks and meets no lock runs its command where that is serialised here. -/
theorem exec_runs {c : Instr} {d : Desc} {b : Bool} {s : State} {pk : Pkt} {op k : Nat} {masks : List Nat} {legal : List Blk}
    (hc : c.packet? = some (d, pk, b)) (h : Starts s pk op k masks legal) (hop : d.opcode = op) (hk : k = if d.accepts then 2 else 1)
    (hd : definedOpcode op = true) (hl : d.legal = legal) (hs : s.blk = Blk.safe → safeOpcode op = true) (hb : d.bad pk s = none)
    (hser : s.serialiser d pk = s.orch.shard) (hp : d.pre (s.origin pk) pk (s.taken pk k) = none)
    (hlk : ∀ x, d.lock pk (s.taken pk k) = some x → (s.taken pk k).locked x = false) :
    exec c s = .next ((d.run (s.origin pk) pk (s.taken pk k)).goOn b) := by
  rw [exec_packet hc, takePacket_runs h hop hk hd hl hs hb hser hp hlk]

/-- A packet that starts but fails an object check is answered with that check's completion. -/
theorem exec_pre {c : Instr} {d : Desc} {b : Bool} {s : State} {pk : Pkt} {op k : Nat} {masks : List Nat} {legal : List Blk} {x : Cpl}
    (hc : c.packet? = some (d, pk, b)) (h : Starts s pk op k masks legal) (hop : d.opcode = op) (hk : k = if d.accepts then 2 else 1)
    (hd : definedOpcode op = true) (hl : d.legal = legal) (hs : s.blk = Blk.safe → safeOpcode op = true) (hb : d.bad pk s = none)
    (hser : s.serialiser d pk = s.orch.shard) (hp : d.pre (s.origin pk) pk (s.taken pk k) = some x) :
    exec c s = .next ((s.answers pk k x).goOn b) := by
  rw [exec_packet hc, takePacket_pre h hop hk hd hl hs hb hser hp]

/-- The ring of a packet that has been taken (R341). -/
theorem taken_ring (s : State) (pk : Pkt) (k : Nat) :
    (s.taken pk k).ring pk.src = { s.ring pk.src with
      sqh := (s.ring pk.src).sqh + 1,
      outst := (s.ring pk.src).outst ++ [{ id := s.cmdId, tag := pk.tag, opcode := pk.opcode, noint := pk.noint, reserve := k }] } := by
  unfold State.taken State.take State.setRing State.ring
  cases pk.src.port <;> simp [State.setPort, State.port, Port.setRing, Port.ring]

end Sys2Proof.Laws
end

