-- ==== Sys2Proof/Laws/State.lean ====
section
/-! SUPPORT. What each plain update of the state leaves alone: one lemma for each field, true by unfolding. -/

namespace Sys2Proof.Laws

open Sys2Proof.Machine

@[simp] theorem store_pending (s : State) (k : Nat) (bs : List Byte) : (State.store s k bs).pending = s.pending := rfl
@[simp] theorem store_free (s : State) (k : Nat) (bs : List Byte) : (State.store s k bs).free = s.free := rfl
@[simp] theorem store_blk (s : State) (k : Nat) (bs : List Byte) : (State.store s k bs).blk = s.blk := rfl
@[simp] theorem store_boot (s : State) (k : Nat) (bs : List Byte) : (State.store s k bs).boot = s.boot := rfl
@[simp] theorem store_fwBase (s : State) (k : Nat) (bs : List Byte) : (State.store s k bs).fwBase = s.fwBase := rfl
@[simp] theorem store_quar (s : State) (k : Nat) (bs : List Byte) : (State.store s k bs).quar = s.quar := rfl
@[simp] theorem store_time (s : State) (k : Nat) (bs : List Byte) : (State.store s k bs).time = s.time := rfl
@[simp] theorem store_pwr (s : State) (k : Nat) (bs : List Byte) : (State.store s k bs).pwr = s.pwr := rfl
@[simp] theorem store_cpa (s : State) (k : Nat) (bs : List Byte) : (State.store s k bs).cpa = s.cpa := rfl
@[simp] theorem store_cpb (s : State) (k : Nat) (bs : List Byte) : (State.store s k bs).cpb = s.cpb := rfl
@[simp] theorem store_cmdId (s : State) (k : Nat) (bs : List Byte) : (State.store s k bs).cmdId = s.cmdId := rfl
@[simp] theorem store_jobs (s : State) (k : Nat) (bs : List Byte) : (State.store s k bs).jobs = s.jobs := rfl
@[simp] theorem store_sems (s : State) (k : Nat) (bs : List Byte) : (State.store s k bs).sems = s.sems := rfl
@[simp] theorem store_ctrs (s : State) (k : Nat) (bs : List Byte) : (State.store s k bs).ctrs = s.ctrs := rfl
@[simp] theorem store_bars (s : State) (k : Nat) (bs : List Byte) : (State.store s k bs).bars = s.bars := rfl
@[simp] theorem store_cnts (s : State) (k : Nat) (bs : List Byte) : (State.store s k bs).cnts = s.cnts := rfl
@[simp] theorem store_latcap (s : State) (k : Nat) (bs : List Byte) : (State.store s k bs).latcap = s.latcap := rfl
@[simp] theorem store_conf (s : State) (k : Nat) (bs : List Byte) : (State.store s k bs).conf = s.conf := rfl
@[simp] theorem store_slots (s : State) (k : Nat) (bs : List Byte) : (State.store s k bs).slots = s.slots := rfl
@[simp] theorem store_scx (s : State) (k : Nat) (bs : List Byte) : (State.store s k bs).scx = s.scx := rfl
@[simp] theorem store_counts (s : State) (k : Nat) (bs : List Byte) : (State.store s k bs).counts = s.counts := rfl
@[simp] theorem store_fetches (s : State) (k : Nat) (bs : List Byte) : (State.store s k bs).fetches = s.fetches := rfl
@[simp] theorem store_tails (s : State) (k : Nat) (bs : List Byte) : (State.store s k bs).tails = s.tails := rfl
@[simp] theorem store_tenants (s : State) (k : Nat) (bs : List Byte) : (State.store s k bs).tenants = s.tenants := rfl
@[simp] theorem store_ing (s : State) (k : Nat) (bs : List Byte) : (State.store s k bs).ing = s.ing := rfl
@[simp] theorem store_rows (s : State) (k : Nat) (bs : List Byte) : (State.store s k bs).rows = s.rows := rfl
@[simp] theorem store_asm (s : State) (k : Nat) (bs : List Byte) : (State.store s k bs).asm = s.asm := rfl
@[simp] theorem store_puns (s : State) (k : Nat) (bs : List Byte) : (State.store s k bs).puns = s.puns := rfl
@[simp] theorem store_merges (s : State) (k : Nat) (bs : List Byte) : (State.store s k bs).merges = s.merges := rfl
@[simp] theorem store_roots (s : State) (k : Nat) (bs : List Byte) : (State.store s k bs).roots = s.roots := rfl
@[simp] theorem store_hcom (s : State) (k : Nat) (bs : List Byte) : (State.store s k bs).hcom = s.hcom := rfl
@[simp] theorem store_rescore (s : State) (k : Nat) (bs : List Byte) : (State.store s k bs).rescore = s.rescore := rfl
@[simp] theorem store_loader (s : State) (k : Nat) (bs : List Byte) : (State.store s k bs).loader = s.loader := rfl
@[simp] theorem store_rsbuf (s : State) (k : Nat) (bs : List Byte) : (State.store s k bs).rsbuf = s.rsbuf := rfl
@[simp] theorem store_eg (s : State) (k : Nat) (bs : List Byte) : (State.store s k bs).eg = s.eg := rfl
@[simp] theorem store_orch (s : State) (k : Nat) (bs : List Byte) : (State.store s k bs).orch = s.orch := rfl
@[simp] theorem store_faults (s : State) (k : Nat) (bs : List Byte) : (State.store s k bs).faults = s.faults := rfl
@[simp] theorem store_wind (s : State) (k : Nat) (bs : List Byte) : (State.store s k bs).wind = s.wind := rfl
@[simp] theorem store_rep (s : State) (k : Nat) (bs : List Byte) : (State.store s k bs).rep = s.rep := rfl
@[simp] theorem store_lanes (s : State) (k : Nat) (bs : List Byte) : (State.store s k bs).lanes = s.lanes := rfl
@[simp] theorem store_dbg (s : State) (k : Nat) (bs : List Byte) : (State.store s k bs).dbg = s.dbg := rfl
@[simp] theorem store_pool (s : State) (k : Nat) (bs : List Byte) : (State.store s k bs).pool = s.pool := rfl
@[simp] theorem store_outs (s : State) (k : Nat) (bs : List Byte) : (State.store s k bs).outs = s.outs := rfl

@[simp] theorem bumpN_pending (s : State) (off n : Nat) : (State.bumpN s off n).pending = s.pending := rfl
@[simp] theorem bumpN_free (s : State) (off n : Nat) : (State.bumpN s off n).free = s.free := rfl
@[simp] theorem bumpN_mem (s : State) (off n : Nat) : (State.bumpN s off n).mem = s.mem := rfl
@[simp] theorem bumpN_blk (s : State) (off n : Nat) : (State.bumpN s off n).blk = s.blk := rfl
@[simp] theorem bumpN_boot (s : State) (off n : Nat) : (State.bumpN s off n).boot = s.boot := rfl
@[simp] theorem bumpN_fwBase (s : State) (off n : Nat) : (State.bumpN s off n).fwBase = s.fwBase := rfl
@[simp] theorem bumpN_quar (s : State) (off n : Nat) : (State.bumpN s off n).quar = s.quar := rfl
@[simp] theorem bumpN_time (s : State) (off n : Nat) : (State.bumpN s off n).time = s.time := rfl
@[simp] theorem bumpN_pwr (s : State) (off n : Nat) : (State.bumpN s off n).pwr = s.pwr := rfl
@[simp] theorem bumpN_cpa (s : State) (off n : Nat) : (State.bumpN s off n).cpa = s.cpa := rfl
@[simp] theorem bumpN_cpb (s : State) (off n : Nat) : (State.bumpN s off n).cpb = s.cpb := rfl
@[simp] theorem bumpN_cmdId (s : State) (off n : Nat) : (State.bumpN s off n).cmdId = s.cmdId := rfl
@[simp] theorem bumpN_jobs (s : State) (off n : Nat) : (State.bumpN s off n).jobs = s.jobs := rfl
@[simp] theorem bumpN_sems (s : State) (off n : Nat) : (State.bumpN s off n).sems = s.sems := rfl
@[simp] theorem bumpN_ctrs (s : State) (off n : Nat) : (State.bumpN s off n).ctrs = s.ctrs := rfl
@[simp] theorem bumpN_bars (s : State) (off n : Nat) : (State.bumpN s off n).bars = s.bars := rfl
@[simp] theorem bumpN_latcap (s : State) (off n : Nat) : (State.bumpN s off n).latcap = s.latcap := rfl
@[simp] theorem bumpN_conf (s : State) (off n : Nat) : (State.bumpN s off n).conf = s.conf := rfl
@[simp] theorem bumpN_slots (s : State) (off n : Nat) : (State.bumpN s off n).slots = s.slots := rfl
@[simp] theorem bumpN_scx (s : State) (off n : Nat) : (State.bumpN s off n).scx = s.scx := rfl
@[simp] theorem bumpN_counts (s : State) (off n : Nat) : (State.bumpN s off n).counts = s.counts := rfl
@[simp] theorem bumpN_fetches (s : State) (off n : Nat) : (State.bumpN s off n).fetches = s.fetches := rfl
@[simp] theorem bumpN_tails (s : State) (off n : Nat) : (State.bumpN s off n).tails = s.tails := rfl
@[simp] theorem bumpN_tenants (s : State) (off n : Nat) : (State.bumpN s off n).tenants = s.tenants := rfl
@[simp] theorem bumpN_ing (s : State) (off n : Nat) : (State.bumpN s off n).ing = s.ing := rfl
@[simp] theorem bumpN_rows (s : State) (off n : Nat) : (State.bumpN s off n).rows = s.rows := rfl
@[simp] theorem bumpN_asm (s : State) (off n : Nat) : (State.bumpN s off n).asm = s.asm := rfl
@[simp] theorem bumpN_puns (s : State) (off n : Nat) : (State.bumpN s off n).puns = s.puns := rfl
@[simp] theorem bumpN_merges (s : State) (off n : Nat) : (State.bumpN s off n).merges = s.merges := rfl
@[simp] theorem bumpN_roots (s : State) (off n : Nat) : (State.bumpN s off n).roots = s.roots := rfl
@[simp] theorem bumpN_hcom (s : State) (off n : Nat) : (State.bumpN s off n).hcom = s.hcom := rfl
@[simp] theorem bumpN_rescore (s : State) (off n : Nat) : (State.bumpN s off n).rescore = s.rescore := rfl
@[simp] theorem bumpN_loader (s : State) (off n : Nat) : (State.bumpN s off n).loader = s.loader := rfl
@[simp] theorem bumpN_rsbuf (s : State) (off n : Nat) : (State.bumpN s off n).rsbuf = s.rsbuf := rfl
@[simp] theorem bumpN_eg (s : State) (off n : Nat) : (State.bumpN s off n).eg = s.eg := rfl
@[simp] theorem bumpN_orch (s : State) (off n : Nat) : (State.bumpN s off n).orch = s.orch := rfl
@[simp] theorem bumpN_faults (s : State) (off n : Nat) : (State.bumpN s off n).faults = s.faults := rfl
@[simp] theorem bumpN_wind (s : State) (off n : Nat) : (State.bumpN s off n).wind = s.wind := rfl
@[simp] theorem bumpN_rep (s : State) (off n : Nat) : (State.bumpN s off n).rep = s.rep := rfl
@[simp] theorem bumpN_lanes (s : State) (off n : Nat) : (State.bumpN s off n).lanes = s.lanes := rfl
@[simp] theorem bumpN_dbg (s : State) (off n : Nat) : (State.bumpN s off n).dbg = s.dbg := rfl
@[simp] theorem bumpN_pool (s : State) (off n : Nat) : (State.bumpN s off n).pool = s.pool := rfl
@[simp] theorem bumpN_outs (s : State) (off n : Nat) : (State.bumpN s off n).outs = s.outs := rfl

@[simp] theorem bump64N_pending (s : State) (off n : Nat) : (State.bump64N s off n).pending = s.pending := rfl
@[simp] theorem bump64N_free (s : State) (off n : Nat) : (State.bump64N s off n).free = s.free := rfl
@[simp] theorem bump64N_mem (s : State) (off n : Nat) : (State.bump64N s off n).mem = s.mem := rfl
@[simp] theorem bump64N_blk (s : State) (off n : Nat) : (State.bump64N s off n).blk = s.blk := rfl
@[simp] theorem bump64N_boot (s : State) (off n : Nat) : (State.bump64N s off n).boot = s.boot := rfl
@[simp] theorem bump64N_fwBase (s : State) (off n : Nat) : (State.bump64N s off n).fwBase = s.fwBase := rfl
@[simp] theorem bump64N_quar (s : State) (off n : Nat) : (State.bump64N s off n).quar = s.quar := rfl
@[simp] theorem bump64N_time (s : State) (off n : Nat) : (State.bump64N s off n).time = s.time := rfl
@[simp] theorem bump64N_pwr (s : State) (off n : Nat) : (State.bump64N s off n).pwr = s.pwr := rfl
@[simp] theorem bump64N_cpa (s : State) (off n : Nat) : (State.bump64N s off n).cpa = s.cpa := rfl
@[simp] theorem bump64N_cpb (s : State) (off n : Nat) : (State.bump64N s off n).cpb = s.cpb := rfl
@[simp] theorem bump64N_cmdId (s : State) (off n : Nat) : (State.bump64N s off n).cmdId = s.cmdId := rfl
@[simp] theorem bump64N_jobs (s : State) (off n : Nat) : (State.bump64N s off n).jobs = s.jobs := rfl
@[simp] theorem bump64N_sems (s : State) (off n : Nat) : (State.bump64N s off n).sems = s.sems := rfl
@[simp] theorem bump64N_ctrs (s : State) (off n : Nat) : (State.bump64N s off n).ctrs = s.ctrs := rfl
@[simp] theorem bump64N_bars (s : State) (off n : Nat) : (State.bump64N s off n).bars = s.bars := rfl
@[simp] theorem bump64N_latcap (s : State) (off n : Nat) : (State.bump64N s off n).latcap = s.latcap := rfl
@[simp] theorem bump64N_conf (s : State) (off n : Nat) : (State.bump64N s off n).conf = s.conf := rfl
@[simp] theorem bump64N_slots (s : State) (off n : Nat) : (State.bump64N s off n).slots = s.slots := rfl
@[simp] theorem bump64N_scx (s : State) (off n : Nat) : (State.bump64N s off n).scx = s.scx := rfl
@[simp] theorem bump64N_counts (s : State) (off n : Nat) : (State.bump64N s off n).counts = s.counts := rfl
@[simp] theorem bump64N_fetches (s : State) (off n : Nat) : (State.bump64N s off n).fetches = s.fetches := rfl
@[simp] theorem bump64N_tails (s : State) (off n : Nat) : (State.bump64N s off n).tails = s.tails := rfl
@[simp] theorem bump64N_tenants (s : State) (off n : Nat) : (State.bump64N s off n).tenants = s.tenants := rfl
@[simp] theorem bump64N_ing (s : State) (off n : Nat) : (State.bump64N s off n).ing = s.ing := rfl
@[simp] theorem bump64N_rows (s : State) (off n : Nat) : (State.bump64N s off n).rows = s.rows := rfl
@[simp] theorem bump64N_asm (s : State) (off n : Nat) : (State.bump64N s off n).asm = s.asm := rfl
@[simp] theorem bump64N_puns (s : State) (off n : Nat) : (State.bump64N s off n).puns = s.puns := rfl
@[simp] theorem bump64N_merges (s : State) (off n : Nat) : (State.bump64N s off n).merges = s.merges := rfl
@[simp] theorem bump64N_roots (s : State) (off n : Nat) : (State.bump64N s off n).roots = s.roots := rfl
@[simp] theorem bump64N_hcom (s : State) (off n : Nat) : (State.bump64N s off n).hcom = s.hcom := rfl
@[simp] theorem bump64N_rescore (s : State) (off n : Nat) : (State.bump64N s off n).rescore = s.rescore := rfl
@[simp] theorem bump64N_loader (s : State) (off n : Nat) : (State.bump64N s off n).loader = s.loader := rfl
@[simp] theorem bump64N_rsbuf (s : State) (off n : Nat) : (State.bump64N s off n).rsbuf = s.rsbuf := rfl
@[simp] theorem bump64N_eg (s : State) (off n : Nat) : (State.bump64N s off n).eg = s.eg := rfl
@[simp] theorem bump64N_orch (s : State) (off n : Nat) : (State.bump64N s off n).orch = s.orch := rfl
@[simp] theorem bump64N_faults (s : State) (off n : Nat) : (State.bump64N s off n).faults = s.faults := rfl
@[simp] theorem bump64N_wind (s : State) (off n : Nat) : (State.bump64N s off n).wind = s.wind := rfl
@[simp] theorem bump64N_rep (s : State) (off n : Nat) : (State.bump64N s off n).rep = s.rep := rfl
@[simp] theorem bump64N_lanes (s : State) (off n : Nat) : (State.bump64N s off n).lanes = s.lanes := rfl
@[simp] theorem bump64N_dbg (s : State) (off n : Nat) : (State.bump64N s off n).dbg = s.dbg := rfl
@[simp] theorem bump64N_pool (s : State) (off n : Nat) : (State.bump64N s off n).pool = s.pool := rfl
@[simp] theorem bump64N_outs (s : State) (off n : Nat) : (State.bump64N s off n).outs = s.outs := rfl

@[simp] theorem drive_pending (s : State) (o : Out) : (State.drive s o).pending = s.pending := rfl
@[simp] theorem drive_free (s : State) (o : Out) : (State.drive s o).free = s.free := rfl
@[simp] theorem drive_mem (s : State) (o : Out) : (State.drive s o).mem = s.mem := rfl
@[simp] theorem drive_blk (s : State) (o : Out) : (State.drive s o).blk = s.blk := rfl
@[simp] theorem drive_boot (s : State) (o : Out) : (State.drive s o).boot = s.boot := rfl
@[simp] theorem drive_fwBase (s : State) (o : Out) : (State.drive s o).fwBase = s.fwBase := rfl
@[simp] theorem drive_quar (s : State) (o : Out) : (State.drive s o).quar = s.quar := rfl
@[simp] theorem drive_time (s : State) (o : Out) : (State.drive s o).time = s.time := rfl
@[simp] theorem drive_pwr (s : State) (o : Out) : (State.drive s o).pwr = s.pwr := rfl
@[simp] theorem drive_cpa (s : State) (o : Out) : (State.drive s o).cpa = s.cpa := rfl
@[simp] theorem drive_cpb (s : State) (o : Out) : (State.drive s o).cpb = s.cpb := rfl
@[simp] theorem drive_cmdId (s : State) (o : Out) : (State.drive s o).cmdId = s.cmdId := rfl
@[simp] theorem drive_jobs (s : State) (o : Out) : (State.drive s o).jobs = s.jobs := rfl
@[simp] theorem drive_sems (s : State) (o : Out) : (State.drive s o).sems = s.sems := rfl
@[simp] theorem drive_ctrs (s : State) (o : Out) : (State.drive s o).ctrs = s.ctrs := rfl
@[simp] theorem drive_bars (s : State) (o : Out) : (State.drive s o).bars = s.bars := rfl
@[simp] theorem drive_cnts (s : State) (o : Out) : (State.drive s o).cnts = s.cnts := rfl
@[simp] theorem drive_latcap (s : State) (o : Out) : (State.drive s o).latcap = s.latcap := rfl
@[simp] theorem drive_conf (s : State) (o : Out) : (State.drive s o).conf = s.conf := rfl
@[simp] theorem drive_slots (s : State) (o : Out) : (State.drive s o).slots = s.slots := rfl
@[simp] theorem drive_scx (s : State) (o : Out) : (State.drive s o).scx = s.scx := rfl
@[simp] theorem drive_counts (s : State) (o : Out) : (State.drive s o).counts = s.counts := rfl
@[simp] theorem drive_fetches (s : State) (o : Out) : (State.drive s o).fetches = s.fetches := rfl
@[simp] theorem drive_tails (s : State) (o : Out) : (State.drive s o).tails = s.tails := rfl
@[simp] theorem drive_tenants (s : State) (o : Out) : (State.drive s o).tenants = s.tenants := rfl
@[simp] theorem drive_ing (s : State) (o : Out) : (State.drive s o).ing = s.ing := rfl
@[simp] theorem drive_rows (s : State) (o : Out) : (State.drive s o).rows = s.rows := rfl
@[simp] theorem drive_asm (s : State) (o : Out) : (State.drive s o).asm = s.asm := rfl
@[simp] theorem drive_puns (s : State) (o : Out) : (State.drive s o).puns = s.puns := rfl
@[simp] theorem drive_merges (s : State) (o : Out) : (State.drive s o).merges = s.merges := rfl
@[simp] theorem drive_roots (s : State) (o : Out) : (State.drive s o).roots = s.roots := rfl
@[simp] theorem drive_hcom (s : State) (o : Out) : (State.drive s o).hcom = s.hcom := rfl
@[simp] theorem drive_rescore (s : State) (o : Out) : (State.drive s o).rescore = s.rescore := rfl
@[simp] theorem drive_loader (s : State) (o : Out) : (State.drive s o).loader = s.loader := rfl
@[simp] theorem drive_rsbuf (s : State) (o : Out) : (State.drive s o).rsbuf = s.rsbuf := rfl
@[simp] theorem drive_eg (s : State) (o : Out) : (State.drive s o).eg = s.eg := rfl
@[simp] theorem drive_orch (s : State) (o : Out) : (State.drive s o).orch = s.orch := rfl
@[simp] theorem drive_faults (s : State) (o : Out) : (State.drive s o).faults = s.faults := rfl
@[simp] theorem drive_wind (s : State) (o : Out) : (State.drive s o).wind = s.wind := rfl
@[simp] theorem drive_rep (s : State) (o : Out) : (State.drive s o).rep = s.rep := rfl
@[simp] theorem drive_lanes (s : State) (o : Out) : (State.drive s o).lanes = s.lanes := rfl
@[simp] theorem drive_dbg (s : State) (o : Out) : (State.drive s o).dbg = s.dbg := rfl
@[simp] theorem drive_pool (s : State) (o : Out) : (State.drive s o).pool = s.pool := rfl

@[simp] theorem sendMsg_pending (s : State) (m : Msg) : (State.sendMsg s m).pending = s.pending := rfl
@[simp] theorem sendMsg_free (s : State) (m : Msg) : (State.sendMsg s m).free = s.free := rfl
@[simp] theorem sendMsg_mem (s : State) (m : Msg) : (State.sendMsg s m).mem = s.mem := rfl
@[simp] theorem sendMsg_blk (s : State) (m : Msg) : (State.sendMsg s m).blk = s.blk := rfl
@[simp] theorem sendMsg_boot (s : State) (m : Msg) : (State.sendMsg s m).boot = s.boot := rfl
@[simp] theorem sendMsg_fwBase (s : State) (m : Msg) : (State.sendMsg s m).fwBase = s.fwBase := rfl
@[simp] theorem sendMsg_quar (s : State) (m : Msg) : (State.sendMsg s m).quar = s.quar := rfl
@[simp] theorem sendMsg_time (s : State) (m : Msg) : (State.sendMsg s m).time = s.time := rfl
@[simp] theorem sendMsg_pwr (s : State) (m : Msg) : (State.sendMsg s m).pwr = s.pwr := rfl
@[simp] theorem sendMsg_cpa (s : State) (m : Msg) : (State.sendMsg s m).cpa = s.cpa := rfl
@[simp] theorem sendMsg_cpb (s : State) (m : Msg) : (State.sendMsg s m).cpb = s.cpb := rfl
@[simp] theorem sendMsg_cmdId (s : State) (m : Msg) : (State.sendMsg s m).cmdId = s.cmdId := rfl
@[simp] theorem sendMsg_jobs (s : State) (m : Msg) : (State.sendMsg s m).jobs = s.jobs := rfl
@[simp] theorem sendMsg_sems (s : State) (m : Msg) : (State.sendMsg s m).sems = s.sems := rfl
@[simp] theorem sendMsg_ctrs (s : State) (m : Msg) : (State.sendMsg s m).ctrs = s.ctrs := rfl
@[simp] theorem sendMsg_bars (s : State) (m : Msg) : (State.sendMsg s m).bars = s.bars := rfl
@[simp] theorem sendMsg_cnts (s : State) (m : Msg) : (State.sendMsg s m).cnts = s.cnts := rfl
@[simp] theorem sendMsg_latcap (s : State) (m : Msg) : (State.sendMsg s m).latcap = s.latcap := rfl
@[simp] theorem sendMsg_conf (s : State) (m : Msg) : (State.sendMsg s m).conf = s.conf := rfl
@[simp] theorem sendMsg_slots (s : State) (m : Msg) : (State.sendMsg s m).slots = s.slots := rfl
@[simp] theorem sendMsg_scx (s : State) (m : Msg) : (State.sendMsg s m).scx = s.scx := rfl
@[simp] theorem sendMsg_counts (s : State) (m : Msg) : (State.sendMsg s m).counts = s.counts := rfl
@[simp] theorem sendMsg_fetches (s : State) (m : Msg) : (State.sendMsg s m).fetches = s.fetches := rfl
@[simp] theorem sendMsg_tails (s : State) (m : Msg) : (State.sendMsg s m).tails = s.tails := rfl
@[simp] theorem sendMsg_tenants (s : State) (m : Msg) : (State.sendMsg s m).tenants = s.tenants := rfl
@[simp] theorem sendMsg_ing (s : State) (m : Msg) : (State.sendMsg s m).ing = s.ing := rfl
@[simp] theorem sendMsg_rows (s : State) (m : Msg) : (State.sendMsg s m).rows = s.rows := rfl
@[simp] theorem sendMsg_asm (s : State) (m : Msg) : (State.sendMsg s m).asm = s.asm := rfl
@[simp] theorem sendMsg_puns (s : State) (m : Msg) : (State.sendMsg s m).puns = s.puns := rfl
@[simp] theorem sendMsg_merges (s : State) (m : Msg) : (State.sendMsg s m).merges = s.merges := rfl
@[simp] theorem sendMsg_roots (s : State) (m : Msg) : (State.sendMsg s m).roots = s.roots := rfl
@[simp] theorem sendMsg_hcom (s : State) (m : Msg) : (State.sendMsg s m).hcom = s.hcom := rfl
@[simp] theorem sendMsg_rescore (s : State) (m : Msg) : (State.sendMsg s m).rescore = s.rescore := rfl
@[simp] theorem sendMsg_loader (s : State) (m : Msg) : (State.sendMsg s m).loader = s.loader := rfl
@[simp] theorem sendMsg_rsbuf (s : State) (m : Msg) : (State.sendMsg s m).rsbuf = s.rsbuf := rfl
@[simp] theorem sendMsg_eg (s : State) (m : Msg) : (State.sendMsg s m).eg = s.eg := rfl
@[simp] theorem sendMsg_faults (s : State) (m : Msg) : (State.sendMsg s m).faults = s.faults := rfl
@[simp] theorem sendMsg_wind (s : State) (m : Msg) : (State.sendMsg s m).wind = s.wind := rfl
@[simp] theorem sendMsg_rep (s : State) (m : Msg) : (State.sendMsg s m).rep = s.rep := rfl
@[simp] theorem sendMsg_lanes (s : State) (m : Msg) : (State.sendMsg s m).lanes = s.lanes := rfl
@[simp] theorem sendMsg_dbg (s : State) (m : Msg) : (State.sendMsg s m).dbg = s.dbg := rfl
@[simp] theorem sendMsg_pool (s : State) (m : Msg) : (State.sendMsg s m).pool = s.pool := rfl
@[simp] theorem sendMsg_outs (s : State) (m : Msg) : (State.sendMsg s m).outs = s.outs := rfl

@[simp] theorem bcast_pending (s : State) (m : Msg) : (State.bcast s m).pending = s.pending := rfl
@[simp] theorem bcast_free (s : State) (m : Msg) : (State.bcast s m).free = s.free := rfl
@[simp] theorem bcast_mem (s : State) (m : Msg) : (State.bcast s m).mem = s.mem := rfl
@[simp] theorem bcast_blk (s : State) (m : Msg) : (State.bcast s m).blk = s.blk := rfl
@[simp] theorem bcast_boot (s : State) (m : Msg) : (State.bcast s m).boot = s.boot := rfl
@[simp] theorem bcast_fwBase (s : State) (m : Msg) : (State.bcast s m).fwBase = s.fwBase := rfl
@[simp] theorem bcast_quar (s : State) (m : Msg) : (State.bcast s m).quar = s.quar := rfl
@[simp] theorem bcast_time (s : State) (m : Msg) : (State.bcast s m).time = s.time := rfl
@[simp] theorem bcast_pwr (s : State) (m : Msg) : (State.bcast s m).pwr = s.pwr := rfl
@[simp] theorem bcast_cpa (s : State) (m : Msg) : (State.bcast s m).cpa = s.cpa := rfl
@[simp] theorem bcast_cpb (s : State) (m : Msg) : (State.bcast s m).cpb = s.cpb := rfl
@[simp] theorem bcast_cmdId (s : State) (m : Msg) : (State.bcast s m).cmdId = s.cmdId := rfl
@[simp] theorem bcast_jobs (s : State) (m : Msg) : (State.bcast s m).jobs = s.jobs := rfl
@[simp] theorem bcast_sems (s : State) (m : Msg) : (State.bcast s m).sems = s.sems := rfl
@[simp] theorem bcast_ctrs (s : State) (m : Msg) : (State.bcast s m).ctrs = s.ctrs := rfl
@[simp] theorem bcast_bars (s : State) (m : Msg) : (State.bcast s m).bars = s.bars := rfl
@[simp] theorem bcast_cnts (s : State) (m : Msg) : (State.bcast s m).cnts = s.cnts := rfl
@[simp] theorem bcast_latcap (s : State) (m : Msg) : (State.bcast s m).latcap = s.latcap := rfl
@[simp] theorem bcast_conf (s : State) (m : Msg) : (State.bcast s m).conf = s.conf := rfl
@[simp] theorem bcast_slots (s : State) (m : Msg) : (State.bcast s m).slots = s.slots := rfl
@[simp] theorem bcast_scx (s : State) (m : Msg) : (State.bcast s m).scx = s.scx := rfl
@[simp] theorem bcast_counts (s : State) (m : Msg) : (State.bcast s m).counts = s.counts := rfl
@[simp] theorem bcast_fetches (s : State) (m : Msg) : (State.bcast s m).fetches = s.fetches := rfl
@[simp] theorem bcast_tails (s : State) (m : Msg) : (State.bcast s m).tails = s.tails := rfl
@[simp] theorem bcast_tenants (s : State) (m : Msg) : (State.bcast s m).tenants = s.tenants := rfl
@[simp] theorem bcast_ing (s : State) (m : Msg) : (State.bcast s m).ing = s.ing := rfl
@[simp] theorem bcast_rows (s : State) (m : Msg) : (State.bcast s m).rows = s.rows := rfl
@[simp] theorem bcast_asm (s : State) (m : Msg) : (State.bcast s m).asm = s.asm := rfl
@[simp] theorem bcast_puns (s : State) (m : Msg) : (State.bcast s m).puns = s.puns := rfl
@[simp] theorem bcast_merges (s : State) (m : Msg) : (State.bcast s m).merges = s.merges := rfl
@[simp] theorem bcast_roots (s : State) (m : Msg) : (State.bcast s m).roots = s.roots := rfl
@[simp] theorem bcast_hcom (s : State) (m : Msg) : (State.bcast s m).hcom = s.hcom := rfl
@[simp] theorem bcast_rescore (s : State) (m : Msg) : (State.bcast s m).rescore = s.rescore := rfl
@[simp] theorem bcast_loader (s : State) (m : Msg) : (State.bcast s m).loader = s.loader := rfl
@[simp] theorem bcast_rsbuf (s : State) (m : Msg) : (State.bcast s m).rsbuf = s.rsbuf := rfl
@[simp] theorem bcast_eg (s : State) (m : Msg) : (State.bcast s m).eg = s.eg := rfl
@[simp] theorem bcast_faults (s : State) (m : Msg) : (State.bcast s m).faults = s.faults := rfl
@[simp] theorem bcast_wind (s : State) (m : Msg) : (State.bcast s m).wind = s.wind := rfl
@[simp] theorem bcast_rep (s : State) (m : Msg) : (State.bcast s m).rep = s.rep := rfl
@[simp] theorem bcast_lanes (s : State) (m : Msg) : (State.bcast s m).lanes = s.lanes := rfl
@[simp] theorem bcast_dbg (s : State) (m : Msg) : (State.bcast s m).dbg = s.dbg := rfl
@[simp] theorem bcast_pool (s : State) (m : Msg) : (State.bcast s m).pool = s.pool := rfl
@[simp] theorem bcast_outs (s : State) (m : Msg) : (State.bcast s m).outs = s.outs := rfl

@[simp] theorem bcastOthers_pending (s : State) (m : Msg) : (State.bcastOthers s m).pending = s.pending := rfl
@[simp] theorem bcastOthers_free (s : State) (m : Msg) : (State.bcastOthers s m).free = s.free := rfl
@[simp] theorem bcastOthers_mem (s : State) (m : Msg) : (State.bcastOthers s m).mem = s.mem := rfl
@[simp] theorem bcastOthers_blk (s : State) (m : Msg) : (State.bcastOthers s m).blk = s.blk := rfl
@[simp] theorem bcastOthers_boot (s : State) (m : Msg) : (State.bcastOthers s m).boot = s.boot := rfl
@[simp] theorem bcastOthers_fwBase (s : State) (m : Msg) : (State.bcastOthers s m).fwBase = s.fwBase := rfl
@[simp] theorem bcastOthers_quar (s : State) (m : Msg) : (State.bcastOthers s m).quar = s.quar := rfl
@[simp] theorem bcastOthers_time (s : State) (m : Msg) : (State.bcastOthers s m).time = s.time := rfl
@[simp] theorem bcastOthers_pwr (s : State) (m : Msg) : (State.bcastOthers s m).pwr = s.pwr := rfl
@[simp] theorem bcastOthers_cpa (s : State) (m : Msg) : (State.bcastOthers s m).cpa = s.cpa := rfl
@[simp] theorem bcastOthers_cpb (s : State) (m : Msg) : (State.bcastOthers s m).cpb = s.cpb := rfl
@[simp] theorem bcastOthers_cmdId (s : State) (m : Msg) : (State.bcastOthers s m).cmdId = s.cmdId := rfl
@[simp] theorem bcastOthers_jobs (s : State) (m : Msg) : (State.bcastOthers s m).jobs = s.jobs := rfl
@[simp] theorem bcastOthers_sems (s : State) (m : Msg) : (State.bcastOthers s m).sems = s.sems := rfl
@[simp] theorem bcastOthers_ctrs (s : State) (m : Msg) : (State.bcastOthers s m).ctrs = s.ctrs := rfl
@[simp] theorem bcastOthers_bars (s : State) (m : Msg) : (State.bcastOthers s m).bars = s.bars := rfl
@[simp] theorem bcastOthers_cnts (s : State) (m : Msg) : (State.bcastOthers s m).cnts = s.cnts := rfl
@[simp] theorem bcastOthers_latcap (s : State) (m : Msg) : (State.bcastOthers s m).latcap = s.latcap := rfl
@[simp] theorem bcastOthers_conf (s : State) (m : Msg) : (State.bcastOthers s m).conf = s.conf := rfl
@[simp] theorem bcastOthers_slots (s : State) (m : Msg) : (State.bcastOthers s m).slots = s.slots := rfl
@[simp] theorem bcastOthers_scx (s : State) (m : Msg) : (State.bcastOthers s m).scx = s.scx := rfl
@[simp] theorem bcastOthers_counts (s : State) (m : Msg) : (State.bcastOthers s m).counts = s.counts := rfl
@[simp] theorem bcastOthers_fetches (s : State) (m : Msg) : (State.bcastOthers s m).fetches = s.fetches := rfl
@[simp] theorem bcastOthers_tails (s : State) (m : Msg) : (State.bcastOthers s m).tails = s.tails := rfl
@[simp] theorem bcastOthers_tenants (s : State) (m : Msg) : (State.bcastOthers s m).tenants = s.tenants := rfl
@[simp] theorem bcastOthers_ing (s : State) (m : Msg) : (State.bcastOthers s m).ing = s.ing := rfl
@[simp] theorem bcastOthers_rows (s : State) (m : Msg) : (State.bcastOthers s m).rows = s.rows := rfl
@[simp] theorem bcastOthers_asm (s : State) (m : Msg) : (State.bcastOthers s m).asm = s.asm := rfl
@[simp] theorem bcastOthers_puns (s : State) (m : Msg) : (State.bcastOthers s m).puns = s.puns := rfl
@[simp] theorem bcastOthers_merges (s : State) (m : Msg) : (State.bcastOthers s m).merges = s.merges := rfl
@[simp] theorem bcastOthers_roots (s : State) (m : Msg) : (State.bcastOthers s m).roots = s.roots := rfl
@[simp] theorem bcastOthers_hcom (s : State) (m : Msg) : (State.bcastOthers s m).hcom = s.hcom := rfl
@[simp] theorem bcastOthers_rescore (s : State) (m : Msg) : (State.bcastOthers s m).rescore = s.rescore := rfl
@[simp] theorem bcastOthers_loader (s : State) (m : Msg) : (State.bcastOthers s m).loader = s.loader := rfl
@[simp] theorem bcastOthers_rsbuf (s : State) (m : Msg) : (State.bcastOthers s m).rsbuf = s.rsbuf := rfl
@[simp] theorem bcastOthers_eg (s : State) (m : Msg) : (State.bcastOthers s m).eg = s.eg := rfl
@[simp] theorem bcastOthers_faults (s : State) (m : Msg) : (State.bcastOthers s m).faults = s.faults := rfl
@[simp] theorem bcastOthers_wind (s : State) (m : Msg) : (State.bcastOthers s m).wind = s.wind := rfl
@[simp] theorem bcastOthers_rep (s : State) (m : Msg) : (State.bcastOthers s m).rep = s.rep := rfl
@[simp] theorem bcastOthers_lanes (s : State) (m : Msg) : (State.bcastOthers s m).lanes = s.lanes := rfl
@[simp] theorem bcastOthers_dbg (s : State) (m : Msg) : (State.bcastOthers s m).dbg = s.dbg := rfl
@[simp] theorem bcastOthers_pool (s : State) (m : Msg) : (State.bcastOthers s m).pool = s.pool := rfl
@[simp] theorem bcastOthers_outs (s : State) (m : Msg) : (State.bcastOthers s m).outs = s.outs := rfl

@[simp] theorem arrive_pending (s : State) (m : Msg) : (State.arrive s m).pending = s.pending := rfl
@[simp] theorem arrive_free (s : State) (m : Msg) : (State.arrive s m).free = s.free := rfl
@[simp] theorem arrive_mem (s : State) (m : Msg) : (State.arrive s m).mem = s.mem := rfl
@[simp] theorem arrive_blk (s : State) (m : Msg) : (State.arrive s m).blk = s.blk := rfl
@[simp] theorem arrive_boot (s : State) (m : Msg) : (State.arrive s m).boot = s.boot := rfl
@[simp] theorem arrive_fwBase (s : State) (m : Msg) : (State.arrive s m).fwBase = s.fwBase := rfl
@[simp] theorem arrive_quar (s : State) (m : Msg) : (State.arrive s m).quar = s.quar := rfl
@[simp] theorem arrive_time (s : State) (m : Msg) : (State.arrive s m).time = s.time := rfl
@[simp] theorem arrive_pwr (s : State) (m : Msg) : (State.arrive s m).pwr = s.pwr := rfl
@[simp] theorem arrive_cpa (s : State) (m : Msg) : (State.arrive s m).cpa = s.cpa := rfl
@[simp] theorem arrive_cpb (s : State) (m : Msg) : (State.arrive s m).cpb = s.cpb := rfl
@[simp] theorem arrive_cmdId (s : State) (m : Msg) : (State.arrive s m).cmdId = s.cmdId := rfl
@[simp] theorem arrive_jobs (s : State) (m : Msg) : (State.arrive s m).jobs = s.jobs := rfl
@[simp] theorem arrive_sems (s : State) (m : Msg) : (State.arrive s m).sems = s.sems := rfl
@[simp] theorem arrive_ctrs (s : State) (m : Msg) : (State.arrive s m).ctrs = s.ctrs := rfl
@[simp] theorem arrive_bars (s : State) (m : Msg) : (State.arrive s m).bars = s.bars := rfl
@[simp] theorem arrive_cnts (s : State) (m : Msg) : (State.arrive s m).cnts = s.cnts := rfl
@[simp] theorem arrive_latcap (s : State) (m : Msg) : (State.arrive s m).latcap = s.latcap := rfl
@[simp] theorem arrive_conf (s : State) (m : Msg) : (State.arrive s m).conf = s.conf := rfl
@[simp] theorem arrive_slots (s : State) (m : Msg) : (State.arrive s m).slots = s.slots := rfl
@[simp] theorem arrive_scx (s : State) (m : Msg) : (State.arrive s m).scx = s.scx := rfl
@[simp] theorem arrive_counts (s : State) (m : Msg) : (State.arrive s m).counts = s.counts := rfl
@[simp] theorem arrive_fetches (s : State) (m : Msg) : (State.arrive s m).fetches = s.fetches := rfl
@[simp] theorem arrive_tails (s : State) (m : Msg) : (State.arrive s m).tails = s.tails := rfl
@[simp] theorem arrive_tenants (s : State) (m : Msg) : (State.arrive s m).tenants = s.tenants := rfl
@[simp] theorem arrive_ing (s : State) (m : Msg) : (State.arrive s m).ing = s.ing := rfl
@[simp] theorem arrive_rows (s : State) (m : Msg) : (State.arrive s m).rows = s.rows := rfl
@[simp] theorem arrive_asm (s : State) (m : Msg) : (State.arrive s m).asm = s.asm := rfl
@[simp] theorem arrive_puns (s : State) (m : Msg) : (State.arrive s m).puns = s.puns := rfl
@[simp] theorem arrive_merges (s : State) (m : Msg) : (State.arrive s m).merges = s.merges := rfl
@[simp] theorem arrive_roots (s : State) (m : Msg) : (State.arrive s m).roots = s.roots := rfl
@[simp] theorem arrive_hcom (s : State) (m : Msg) : (State.arrive s m).hcom = s.hcom := rfl
@[simp] theorem arrive_rescore (s : State) (m : Msg) : (State.arrive s m).rescore = s.rescore := rfl
@[simp] theorem arrive_loader (s : State) (m : Msg) : (State.arrive s m).loader = s.loader := rfl
@[simp] theorem arrive_rsbuf (s : State) (m : Msg) : (State.arrive s m).rsbuf = s.rsbuf := rfl
@[simp] theorem arrive_eg (s : State) (m : Msg) : (State.arrive s m).eg = s.eg := rfl
@[simp] theorem arrive_faults (s : State) (m : Msg) : (State.arrive s m).faults = s.faults := rfl
@[simp] theorem arrive_wind (s : State) (m : Msg) : (State.arrive s m).wind = s.wind := rfl
@[simp] theorem arrive_rep (s : State) (m : Msg) : (State.arrive s m).rep = s.rep := rfl
@[simp] theorem arrive_lanes (s : State) (m : Msg) : (State.arrive s m).lanes = s.lanes := rfl
@[simp] theorem arrive_dbg (s : State) (m : Msg) : (State.arrive s m).dbg = s.dbg := rfl
@[simp] theorem arrive_pool (s : State) (m : Msg) : (State.arrive s m).pool = s.pool := rfl
@[simp] theorem arrive_outs (s : State) (m : Msg) : (State.arrive s m).outs = s.outs := rfl

@[simp] theorem addJob_pending (s : State) (j : Job) : (State.addJob s j).pending = s.pending := rfl
@[simp] theorem addJob_free (s : State) (j : Job) : (State.addJob s j).free = s.free := rfl
@[simp] theorem addJob_mem (s : State) (j : Job) : (State.addJob s j).mem = s.mem := rfl
@[simp] theorem addJob_blk (s : State) (j : Job) : (State.addJob s j).blk = s.blk := rfl
@[simp] theorem addJob_boot (s : State) (j : Job) : (State.addJob s j).boot = s.boot := rfl
@[simp] theorem addJob_fwBase (s : State) (j : Job) : (State.addJob s j).fwBase = s.fwBase := rfl
@[simp] theorem addJob_quar (s : State) (j : Job) : (State.addJob s j).quar = s.quar := rfl
@[simp] theorem addJob_time (s : State) (j : Job) : (State.addJob s j).time = s.time := rfl
@[simp] theorem addJob_pwr (s : State) (j : Job) : (State.addJob s j).pwr = s.pwr := rfl
@[simp] theorem addJob_cpa (s : State) (j : Job) : (State.addJob s j).cpa = s.cpa := rfl
@[simp] theorem addJob_cpb (s : State) (j : Job) : (State.addJob s j).cpb = s.cpb := rfl
@[simp] theorem addJob_cmdId (s : State) (j : Job) : (State.addJob s j).cmdId = s.cmdId := rfl
@[simp] theorem addJob_sems (s : State) (j : Job) : (State.addJob s j).sems = s.sems := rfl
@[simp] theorem addJob_ctrs (s : State) (j : Job) : (State.addJob s j).ctrs = s.ctrs := rfl
@[simp] theorem addJob_bars (s : State) (j : Job) : (State.addJob s j).bars = s.bars := rfl
@[simp] theorem addJob_cnts (s : State) (j : Job) : (State.addJob s j).cnts = s.cnts := rfl
@[simp] theorem addJob_latcap (s : State) (j : Job) : (State.addJob s j).latcap = s.latcap := rfl
@[simp] theorem addJob_conf (s : State) (j : Job) : (State.addJob s j).conf = s.conf := rfl
@[simp] theorem addJob_slots (s : State) (j : Job) : (State.addJob s j).slots = s.slots := rfl
@[simp] theorem addJob_scx (s : State) (j : Job) : (State.addJob s j).scx = s.scx := rfl
@[simp] theorem addJob_counts (s : State) (j : Job) : (State.addJob s j).counts = s.counts := rfl
@[simp] theorem addJob_fetches (s : State) (j : Job) : (State.addJob s j).fetches = s.fetches := rfl
@[simp] theorem addJob_tails (s : State) (j : Job) : (State.addJob s j).tails = s.tails := rfl
@[simp] theorem addJob_tenants (s : State) (j : Job) : (State.addJob s j).tenants = s.tenants := rfl
@[simp] theorem addJob_ing (s : State) (j : Job) : (State.addJob s j).ing = s.ing := rfl
@[simp] theorem addJob_rows (s : State) (j : Job) : (State.addJob s j).rows = s.rows := rfl
@[simp] theorem addJob_asm (s : State) (j : Job) : (State.addJob s j).asm = s.asm := rfl
@[simp] theorem addJob_puns (s : State) (j : Job) : (State.addJob s j).puns = s.puns := rfl
@[simp] theorem addJob_merges (s : State) (j : Job) : (State.addJob s j).merges = s.merges := rfl
@[simp] theorem addJob_roots (s : State) (j : Job) : (State.addJob s j).roots = s.roots := rfl
@[simp] theorem addJob_hcom (s : State) (j : Job) : (State.addJob s j).hcom = s.hcom := rfl
@[simp] theorem addJob_rescore (s : State) (j : Job) : (State.addJob s j).rescore = s.rescore := rfl
@[simp] theorem addJob_loader (s : State) (j : Job) : (State.addJob s j).loader = s.loader := rfl
@[simp] theorem addJob_rsbuf (s : State) (j : Job) : (State.addJob s j).rsbuf = s.rsbuf := rfl
@[simp] theorem addJob_eg (s : State) (j : Job) : (State.addJob s j).eg = s.eg := rfl
@[simp] theorem addJob_orch (s : State) (j : Job) : (State.addJob s j).orch = s.orch := rfl
@[simp] theorem addJob_faults (s : State) (j : Job) : (State.addJob s j).faults = s.faults := rfl
@[simp] theorem addJob_wind (s : State) (j : Job) : (State.addJob s j).wind = s.wind := rfl
@[simp] theorem addJob_rep (s : State) (j : Job) : (State.addJob s j).rep = s.rep := rfl
@[simp] theorem addJob_lanes (s : State) (j : Job) : (State.addJob s j).lanes = s.lanes := rfl
@[simp] theorem addJob_dbg (s : State) (j : Job) : (State.addJob s j).dbg = s.dbg := rfl
@[simp] theorem addJob_pool (s : State) (j : Job) : (State.addJob s j).pool = s.pool := rfl
@[simp] theorem addJob_outs (s : State) (j : Job) : (State.addJob s j).outs = s.outs := rfl

@[simp] theorem setSem_pending (s : State) (n : Nat) (q : Sem) : (State.setSem s n q).pending = s.pending := rfl
@[simp] theorem setSem_free (s : State) (n : Nat) (q : Sem) : (State.setSem s n q).free = s.free := rfl
@[simp] theorem setSem_mem (s : State) (n : Nat) (q : Sem) : (State.setSem s n q).mem = s.mem := rfl
@[simp] theorem setSem_blk (s : State) (n : Nat) (q : Sem) : (State.setSem s n q).blk = s.blk := rfl
@[simp] theorem setSem_boot (s : State) (n : Nat) (q : Sem) : (State.setSem s n q).boot = s.boot := rfl
@[simp] theorem setSem_fwBase (s : State) (n : Nat) (q : Sem) : (State.setSem s n q).fwBase = s.fwBase := rfl
@[simp] theorem setSem_quar (s : State) (n : Nat) (q : Sem) : (State.setSem s n q).quar = s.quar := rfl
@[simp] theorem setSem_time (s : State) (n : Nat) (q : Sem) : (State.setSem s n q).time = s.time := rfl
@[simp] theorem setSem_pwr (s : State) (n : Nat) (q : Sem) : (State.setSem s n q).pwr = s.pwr := rfl
@[simp] theorem setSem_cpa (s : State) (n : Nat) (q : Sem) : (State.setSem s n q).cpa = s.cpa := rfl
@[simp] theorem setSem_cpb (s : State) (n : Nat) (q : Sem) : (State.setSem s n q).cpb = s.cpb := rfl
@[simp] theorem setSem_cmdId (s : State) (n : Nat) (q : Sem) : (State.setSem s n q).cmdId = s.cmdId := rfl
@[simp] theorem setSem_jobs (s : State) (n : Nat) (q : Sem) : (State.setSem s n q).jobs = s.jobs := rfl
@[simp] theorem setSem_ctrs (s : State) (n : Nat) (q : Sem) : (State.setSem s n q).ctrs = s.ctrs := rfl
@[simp] theorem setSem_bars (s : State) (n : Nat) (q : Sem) : (State.setSem s n q).bars = s.bars := rfl
@[simp] theorem setSem_cnts (s : State) (n : Nat) (q : Sem) : (State.setSem s n q).cnts = s.cnts := rfl
@[simp] theorem setSem_latcap (s : State) (n : Nat) (q : Sem) : (State.setSem s n q).latcap = s.latcap := rfl
@[simp] theorem setSem_conf (s : State) (n : Nat) (q : Sem) : (State.setSem s n q).conf = s.conf := rfl
@[simp] theorem setSem_slots (s : State) (n : Nat) (q : Sem) : (State.setSem s n q).slots = s.slots := rfl
@[simp] theorem setSem_scx (s : State) (n : Nat) (q : Sem) : (State.setSem s n q).scx = s.scx := rfl
@[simp] theorem setSem_counts (s : State) (n : Nat) (q : Sem) : (State.setSem s n q).counts = s.counts := rfl
@[simp] theorem setSem_fetches (s : State) (n : Nat) (q : Sem) : (State.setSem s n q).fetches = s.fetches := rfl
@[simp] theorem setSem_tails (s : State) (n : Nat) (q : Sem) : (State.setSem s n q).tails = s.tails := rfl
@[simp] theorem setSem_tenants (s : State) (n : Nat) (q : Sem) : (State.setSem s n q).tenants = s.tenants := rfl
@[simp] theorem setSem_ing (s : State) (n : Nat) (q : Sem) : (State.setSem s n q).ing = s.ing := rfl
@[simp] theorem setSem_rows (s : State) (n : Nat) (q : Sem) : (State.setSem s n q).rows = s.rows := rfl
@[simp] theorem setSem_asm (s : State) (n : Nat) (q : Sem) : (State.setSem s n q).asm = s.asm := rfl
@[simp] theorem setSem_puns (s : State) (n : Nat) (q : Sem) : (State.setSem s n q).puns = s.puns := rfl
@[simp] theorem setSem_merges (s : State) (n : Nat) (q : Sem) : (State.setSem s n q).merges = s.merges := rfl
@[simp] theorem setSem_roots (s : State) (n : Nat) (q : Sem) : (State.setSem s n q).roots = s.roots := rfl
@[simp] theorem setSem_hcom (s : State) (n : Nat) (q : Sem) : (State.setSem s n q).hcom = s.hcom := rfl
@[simp] theorem setSem_rescore (s : State) (n : Nat) (q : Sem) : (State.setSem s n q).rescore = s.rescore := rfl
@[simp] theorem setSem_loader (s : State) (n : Nat) (q : Sem) : (State.setSem s n q).loader = s.loader := rfl
@[simp] theorem setSem_rsbuf (s : State) (n : Nat) (q : Sem) : (State.setSem s n q).rsbuf = s.rsbuf := rfl
@[simp] theorem setSem_eg (s : State) (n : Nat) (q : Sem) : (State.setSem s n q).eg = s.eg := rfl
@[simp] theorem setSem_orch (s : State) (n : Nat) (q : Sem) : (State.setSem s n q).orch = s.orch := rfl
@[simp] theorem setSem_faults (s : State) (n : Nat) (q : Sem) : (State.setSem s n q).faults = s.faults := rfl
@[simp] theorem setSem_wind (s : State) (n : Nat) (q : Sem) : (State.setSem s n q).wind = s.wind := rfl
@[simp] theorem setSem_rep (s : State) (n : Nat) (q : Sem) : (State.setSem s n q).rep = s.rep := rfl
@[simp] theorem setSem_lanes (s : State) (n : Nat) (q : Sem) : (State.setSem s n q).lanes = s.lanes := rfl
@[simp] theorem setSem_dbg (s : State) (n : Nat) (q : Sem) : (State.setSem s n q).dbg = s.dbg := rfl
@[simp] theorem setSem_pool (s : State) (n : Nat) (q : Sem) : (State.setSem s n q).pool = s.pool := rfl
@[simp] theorem setSem_outs (s : State) (n : Nat) (q : Sem) : (State.setSem s n q).outs = s.outs := rfl

@[simp] theorem setCtr_pending (s : State) (n : Nat) (c : Ctr) : (State.setCtr s n c).pending = s.pending := rfl
@[simp] theorem setCtr_free (s : State) (n : Nat) (c : Ctr) : (State.setCtr s n c).free = s.free := rfl
@[simp] theorem setCtr_mem (s : State) (n : Nat) (c : Ctr) : (State.setCtr s n c).mem = s.mem := rfl
@[simp] theorem setCtr_blk (s : State) (n : Nat) (c : Ctr) : (State.setCtr s n c).blk = s.blk := rfl
@[simp] theorem setCtr_boot (s : State) (n : Nat) (c : Ctr) : (State.setCtr s n c).boot = s.boot := rfl
@[simp] theorem setCtr_fwBase (s : State) (n : Nat) (c : Ctr) : (State.setCtr s n c).fwBase = s.fwBase := rfl
@[simp] theorem setCtr_quar (s : State) (n : Nat) (c : Ctr) : (State.setCtr s n c).quar = s.quar := rfl
@[simp] theorem setCtr_time (s : State) (n : Nat) (c : Ctr) : (State.setCtr s n c).time = s.time := rfl
@[simp] theorem setCtr_pwr (s : State) (n : Nat) (c : Ctr) : (State.setCtr s n c).pwr = s.pwr := rfl
@[simp] theorem setCtr_cpa (s : State) (n : Nat) (c : Ctr) : (State.setCtr s n c).cpa = s.cpa := rfl
@[simp] theorem setCtr_cpb (s : State) (n : Nat) (c : Ctr) : (State.setCtr s n c).cpb = s.cpb := rfl
@[simp] theorem setCtr_cmdId (s : State) (n : Nat) (c : Ctr) : (State.setCtr s n c).cmdId = s.cmdId := rfl
@[simp] theorem setCtr_jobs (s : State) (n : Nat) (c : Ctr) : (State.setCtr s n c).jobs = s.jobs := rfl
@[simp] theorem setCtr_sems (s : State) (n : Nat) (c : Ctr) : (State.setCtr s n c).sems = s.sems := rfl
@[simp] theorem setCtr_bars (s : State) (n : Nat) (c : Ctr) : (State.setCtr s n c).bars = s.bars := rfl
@[simp] theorem setCtr_cnts (s : State) (n : Nat) (c : Ctr) : (State.setCtr s n c).cnts = s.cnts := rfl
@[simp] theorem setCtr_latcap (s : State) (n : Nat) (c : Ctr) : (State.setCtr s n c).latcap = s.latcap := rfl
@[simp] theorem setCtr_conf (s : State) (n : Nat) (c : Ctr) : (State.setCtr s n c).conf = s.conf := rfl
@[simp] theorem setCtr_slots (s : State) (n : Nat) (c : Ctr) : (State.setCtr s n c).slots = s.slots := rfl
@[simp] theorem setCtr_scx (s : State) (n : Nat) (c : Ctr) : (State.setCtr s n c).scx = s.scx := rfl
@[simp] theorem setCtr_counts (s : State) (n : Nat) (c : Ctr) : (State.setCtr s n c).counts = s.counts := rfl
@[simp] theorem setCtr_fetches (s : State) (n : Nat) (c : Ctr) : (State.setCtr s n c).fetches = s.fetches := rfl
@[simp] theorem setCtr_tails (s : State) (n : Nat) (c : Ctr) : (State.setCtr s n c).tails = s.tails := rfl
@[simp] theorem setCtr_tenants (s : State) (n : Nat) (c : Ctr) : (State.setCtr s n c).tenants = s.tenants := rfl
@[simp] theorem setCtr_ing (s : State) (n : Nat) (c : Ctr) : (State.setCtr s n c).ing = s.ing := rfl
@[simp] theorem setCtr_rows (s : State) (n : Nat) (c : Ctr) : (State.setCtr s n c).rows = s.rows := rfl
@[simp] theorem setCtr_asm (s : State) (n : Nat) (c : Ctr) : (State.setCtr s n c).asm = s.asm := rfl
@[simp] theorem setCtr_puns (s : State) (n : Nat) (c : Ctr) : (State.setCtr s n c).puns = s.puns := rfl
@[simp] theorem setCtr_merges (s : State) (n : Nat) (c : Ctr) : (State.setCtr s n c).merges = s.merges := rfl
@[simp] theorem setCtr_roots (s : State) (n : Nat) (c : Ctr) : (State.setCtr s n c).roots = s.roots := rfl
@[simp] theorem setCtr_hcom (s : State) (n : Nat) (c : Ctr) : (State.setCtr s n c).hcom = s.hcom := rfl
@[simp] theorem setCtr_rescore (s : State) (n : Nat) (c : Ctr) : (State.setCtr s n c).rescore = s.rescore := rfl
@[simp] theorem setCtr_loader (s : State) (n : Nat) (c : Ctr) : (State.setCtr s n c).loader = s.loader := rfl
@[simp] theorem setCtr_rsbuf (s : State) (n : Nat) (c : Ctr) : (State.setCtr s n c).rsbuf = s.rsbuf := rfl
@[simp] theorem setCtr_eg (s : State) (n : Nat) (c : Ctr) : (State.setCtr s n c).eg = s.eg := rfl
@[simp] theorem setCtr_orch (s : State) (n : Nat) (c : Ctr) : (State.setCtr s n c).orch = s.orch := rfl
@[simp] theorem setCtr_faults (s : State) (n : Nat) (c : Ctr) : (State.setCtr s n c).faults = s.faults := rfl
@[simp] theorem setCtr_wind (s : State) (n : Nat) (c : Ctr) : (State.setCtr s n c).wind = s.wind := rfl
@[simp] theorem setCtr_rep (s : State) (n : Nat) (c : Ctr) : (State.setCtr s n c).rep = s.rep := rfl
@[simp] theorem setCtr_lanes (s : State) (n : Nat) (c : Ctr) : (State.setCtr s n c).lanes = s.lanes := rfl
@[simp] theorem setCtr_dbg (s : State) (n : Nat) (c : Ctr) : (State.setCtr s n c).dbg = s.dbg := rfl
@[simp] theorem setCtr_pool (s : State) (n : Nat) (c : Ctr) : (State.setCtr s n c).pool = s.pool := rfl
@[simp] theorem setCtr_outs (s : State) (n : Nat) (c : Ctr) : (State.setCtr s n c).outs = s.outs := rfl

@[simp] theorem setBar_pending (s : State) (n : Nat) (b : Barrier) : (State.setBar s n b).pending = s.pending := rfl
@[simp] theorem setBar_free (s : State) (n : Nat) (b : Barrier) : (State.setBar s n b).free = s.free := rfl
@[simp] theorem setBar_mem (s : State) (n : Nat) (b : Barrier) : (State.setBar s n b).mem = s.mem := rfl
@[simp] theorem setBar_blk (s : State) (n : Nat) (b : Barrier) : (State.setBar s n b).blk = s.blk := rfl
@[simp] theorem setBar_boot (s : State) (n : Nat) (b : Barrier) : (State.setBar s n b).boot = s.boot := rfl
@[simp] theorem setBar_fwBase (s : State) (n : Nat) (b : Barrier) : (State.setBar s n b).fwBase = s.fwBase := rfl
@[simp] theorem setBar_quar (s : State) (n : Nat) (b : Barrier) : (State.setBar s n b).quar = s.quar := rfl
@[simp] theorem setBar_time (s : State) (n : Nat) (b : Barrier) : (State.setBar s n b).time = s.time := rfl
@[simp] theorem setBar_pwr (s : State) (n : Nat) (b : Barrier) : (State.setBar s n b).pwr = s.pwr := rfl
@[simp] theorem setBar_cpa (s : State) (n : Nat) (b : Barrier) : (State.setBar s n b).cpa = s.cpa := rfl
@[simp] theorem setBar_cpb (s : State) (n : Nat) (b : Barrier) : (State.setBar s n b).cpb = s.cpb := rfl
@[simp] theorem setBar_cmdId (s : State) (n : Nat) (b : Barrier) : (State.setBar s n b).cmdId = s.cmdId := rfl
@[simp] theorem setBar_jobs (s : State) (n : Nat) (b : Barrier) : (State.setBar s n b).jobs = s.jobs := rfl
@[simp] theorem setBar_sems (s : State) (n : Nat) (b : Barrier) : (State.setBar s n b).sems = s.sems := rfl
@[simp] theorem setBar_ctrs (s : State) (n : Nat) (b : Barrier) : (State.setBar s n b).ctrs = s.ctrs := rfl
@[simp] theorem setBar_cnts (s : State) (n : Nat) (b : Barrier) : (State.setBar s n b).cnts = s.cnts := rfl
@[simp] theorem setBar_latcap (s : State) (n : Nat) (b : Barrier) : (State.setBar s n b).latcap = s.latcap := rfl
@[simp] theorem setBar_conf (s : State) (n : Nat) (b : Barrier) : (State.setBar s n b).conf = s.conf := rfl
@[simp] theorem setBar_slots (s : State) (n : Nat) (b : Barrier) : (State.setBar s n b).slots = s.slots := rfl
@[simp] theorem setBar_scx (s : State) (n : Nat) (b : Barrier) : (State.setBar s n b).scx = s.scx := rfl
@[simp] theorem setBar_counts (s : State) (n : Nat) (b : Barrier) : (State.setBar s n b).counts = s.counts := rfl
@[simp] theorem setBar_fetches (s : State) (n : Nat) (b : Barrier) : (State.setBar s n b).fetches = s.fetches := rfl
@[simp] theorem setBar_tails (s : State) (n : Nat) (b : Barrier) : (State.setBar s n b).tails = s.tails := rfl
@[simp] theorem setBar_tenants (s : State) (n : Nat) (b : Barrier) : (State.setBar s n b).tenants = s.tenants := rfl
@[simp] theorem setBar_ing (s : State) (n : Nat) (b : Barrier) : (State.setBar s n b).ing = s.ing := rfl
@[simp] theorem setBar_rows (s : State) (n : Nat) (b : Barrier) : (State.setBar s n b).rows = s.rows := rfl
@[simp] theorem setBar_asm (s : State) (n : Nat) (b : Barrier) : (State.setBar s n b).asm = s.asm := rfl
@[simp] theorem setBar_puns (s : State) (n : Nat) (b : Barrier) : (State.setBar s n b).puns = s.puns := rfl
@[simp] theorem setBar_merges (s : State) (n : Nat) (b : Barrier) : (State.setBar s n b).merges = s.merges := rfl
@[simp] theorem setBar_roots (s : State) (n : Nat) (b : Barrier) : (State.setBar s n b).roots = s.roots := rfl
@[simp] theorem setBar_hcom (s : State) (n : Nat) (b : Barrier) : (State.setBar s n b).hcom = s.hcom := rfl
@[simp] theorem setBar_rescore (s : State) (n : Nat) (b : Barrier) : (State.setBar s n b).rescore = s.rescore := rfl
@[simp] theorem setBar_loader (s : State) (n : Nat) (b : Barrier) : (State.setBar s n b).loader = s.loader := rfl
@[simp] theorem setBar_rsbuf (s : State) (n : Nat) (b : Barrier) : (State.setBar s n b).rsbuf = s.rsbuf := rfl
@[simp] theorem setBar_eg (s : State) (n : Nat) (b : Barrier) : (State.setBar s n b).eg = s.eg := rfl
@[simp] theorem setBar_orch (s : State) (n : Nat) (b : Barrier) : (State.setBar s n b).orch = s.orch := rfl
@[simp] theorem setBar_faults (s : State) (n : Nat) (b : Barrier) : (State.setBar s n b).faults = s.faults := rfl
@[simp] theorem setBar_wind (s : State) (n : Nat) (b : Barrier) : (State.setBar s n b).wind = s.wind := rfl
@[simp] theorem setBar_rep (s : State) (n : Nat) (b : Barrier) : (State.setBar s n b).rep = s.rep := rfl
@[simp] theorem setBar_lanes (s : State) (n : Nat) (b : Barrier) : (State.setBar s n b).lanes = s.lanes := rfl
@[simp] theorem setBar_dbg (s : State) (n : Nat) (b : Barrier) : (State.setBar s n b).dbg = s.dbg := rfl
@[simp] theorem setBar_pool (s : State) (n : Nat) (b : Barrier) : (State.setBar s n b).pool = s.pool := rfl
@[simp] theorem setBar_outs (s : State) (n : Nat) (b : Barrier) : (State.setBar s n b).outs = s.outs := rfl

@[simp] theorem setCring_pending (s : State) (r : Nat) (c : CRing) : (State.setCring s r c).pending = s.pending := rfl
@[simp] theorem setCring_free (s : State) (r : Nat) (c : CRing) : (State.setCring s r c).free = s.free := rfl
@[simp] theorem setCring_mem (s : State) (r : Nat) (c : CRing) : (State.setCring s r c).mem = s.mem := rfl
@[simp] theorem setCring_blk (s : State) (r : Nat) (c : CRing) : (State.setCring s r c).blk = s.blk := rfl
@[simp] theorem setCring_boot (s : State) (r : Nat) (c : CRing) : (State.setCring s r c).boot = s.boot := rfl
@[simp] theorem setCring_fwBase (s : State) (r : Nat) (c : CRing) : (State.setCring s r c).fwBase = s.fwBase := rfl
@[simp] theorem setCring_quar (s : State) (r : Nat) (c : CRing) : (State.setCring s r c).quar = s.quar := rfl
@[simp] theorem setCring_time (s : State) (r : Nat) (c : CRing) : (State.setCring s r c).time = s.time := rfl
@[simp] theorem setCring_pwr (s : State) (r : Nat) (c : CRing) : (State.setCring s r c).pwr = s.pwr := rfl
@[simp] theorem setCring_cpa (s : State) (r : Nat) (c : CRing) : (State.setCring s r c).cpa = s.cpa := rfl
@[simp] theorem setCring_cpb (s : State) (r : Nat) (c : CRing) : (State.setCring s r c).cpb = s.cpb := rfl
@[simp] theorem setCring_cmdId (s : State) (r : Nat) (c : CRing) : (State.setCring s r c).cmdId = s.cmdId := rfl
@[simp] theorem setCring_jobs (s : State) (r : Nat) (c : CRing) : (State.setCring s r c).jobs = s.jobs := rfl
@[simp] theorem setCring_sems (s : State) (r : Nat) (c : CRing) : (State.setCring s r c).sems = s.sems := rfl
@[simp] theorem setCring_ctrs (s : State) (r : Nat) (c : CRing) : (State.setCring s r c).ctrs = s.ctrs := rfl
@[simp] theorem setCring_bars (s : State) (r : Nat) (c : CRing) : (State.setCring s r c).bars = s.bars := rfl
@[simp] theorem setCring_cnts (s : State) (r : Nat) (c : CRing) : (State.setCring s r c).cnts = s.cnts := rfl
@[simp] theorem setCring_latcap (s : State) (r : Nat) (c : CRing) : (State.setCring s r c).latcap = s.latcap := rfl
@[simp] theorem setCring_slots (s : State) (r : Nat) (c : CRing) : (State.setCring s r c).slots = s.slots := rfl
@[simp] theorem setCring_scx (s : State) (r : Nat) (c : CRing) : (State.setCring s r c).scx = s.scx := rfl
@[simp] theorem setCring_counts (s : State) (r : Nat) (c : CRing) : (State.setCring s r c).counts = s.counts := rfl
@[simp] theorem setCring_fetches (s : State) (r : Nat) (c : CRing) : (State.setCring s r c).fetches = s.fetches := rfl
@[simp] theorem setCring_tails (s : State) (r : Nat) (c : CRing) : (State.setCring s r c).tails = s.tails := rfl
@[simp] theorem setCring_tenants (s : State) (r : Nat) (c : CRing) : (State.setCring s r c).tenants = s.tenants := rfl
@[simp] theorem setCring_ing (s : State) (r : Nat) (c : CRing) : (State.setCring s r c).ing = s.ing := rfl
@[simp] theorem setCring_rows (s : State) (r : Nat) (c : CRing) : (State.setCring s r c).rows = s.rows := rfl
@[simp] theorem setCring_asm (s : State) (r : Nat) (c : CRing) : (State.setCring s r c).asm = s.asm := rfl
@[simp] theorem setCring_puns (s : State) (r : Nat) (c : CRing) : (State.setCring s r c).puns = s.puns := rfl
@[simp] theorem setCring_merges (s : State) (r : Nat) (c : CRing) : (State.setCring s r c).merges = s.merges := rfl
@[simp] theorem setCring_roots (s : State) (r : Nat) (c : CRing) : (State.setCring s r c).roots = s.roots := rfl
@[simp] theorem setCring_hcom (s : State) (r : Nat) (c : CRing) : (State.setCring s r c).hcom = s.hcom := rfl
@[simp] theorem setCring_rescore (s : State) (r : Nat) (c : CRing) : (State.setCring s r c).rescore = s.rescore := rfl
@[simp] theorem setCring_loader (s : State) (r : Nat) (c : CRing) : (State.setCring s r c).loader = s.loader := rfl
@[simp] theorem setCring_rsbuf (s : State) (r : Nat) (c : CRing) : (State.setCring s r c).rsbuf = s.rsbuf := rfl
@[simp] theorem setCring_eg (s : State) (r : Nat) (c : CRing) : (State.setCring s r c).eg = s.eg := rfl
@[simp] theorem setCring_orch (s : State) (r : Nat) (c : CRing) : (State.setCring s r c).orch = s.orch := rfl
@[simp] theorem setCring_faults (s : State) (r : Nat) (c : CRing) : (State.setCring s r c).faults = s.faults := rfl
@[simp] theorem setCring_wind (s : State) (r : Nat) (c : CRing) : (State.setCring s r c).wind = s.wind := rfl
@[simp] theorem setCring_rep (s : State) (r : Nat) (c : CRing) : (State.setCring s r c).rep = s.rep := rfl
@[simp] theorem setCring_lanes (s : State) (r : Nat) (c : CRing) : (State.setCring s r c).lanes = s.lanes := rfl
@[simp] theorem setCring_dbg (s : State) (r : Nat) (c : CRing) : (State.setCring s r c).dbg = s.dbg := rfl
@[simp] theorem setCring_pool (s : State) (r : Nat) (c : CRing) : (State.setCring s r c).pool = s.pool := rfl
@[simp] theorem setCring_outs (s : State) (r : Nat) (c : CRing) : (State.setCring s r c).outs = s.outs := rfl

@[simp] theorem emit_pending (s : State) (rs : List EgRec) : (State.emit s rs).pending = s.pending := rfl
@[simp] theorem emit_free (s : State) (rs : List EgRec) : (State.emit s rs).free = s.free := rfl
@[simp] theorem emit_mem (s : State) (rs : List EgRec) : (State.emit s rs).mem = s.mem := rfl
@[simp] theorem emit_blk (s : State) (rs : List EgRec) : (State.emit s rs).blk = s.blk := rfl
@[simp] theorem emit_boot (s : State) (rs : List EgRec) : (State.emit s rs).boot = s.boot := rfl
@[simp] theorem emit_fwBase (s : State) (rs : List EgRec) : (State.emit s rs).fwBase = s.fwBase := rfl
@[simp] theorem emit_quar (s : State) (rs : List EgRec) : (State.emit s rs).quar = s.quar := rfl
@[simp] theorem emit_time (s : State) (rs : List EgRec) : (State.emit s rs).time = s.time := rfl
@[simp] theorem emit_pwr (s : State) (rs : List EgRec) : (State.emit s rs).pwr = s.pwr := rfl
@[simp] theorem emit_cpa (s : State) (rs : List EgRec) : (State.emit s rs).cpa = s.cpa := rfl
@[simp] theorem emit_cpb (s : State) (rs : List EgRec) : (State.emit s rs).cpb = s.cpb := rfl
@[simp] theorem emit_cmdId (s : State) (rs : List EgRec) : (State.emit s rs).cmdId = s.cmdId := rfl
@[simp] theorem emit_jobs (s : State) (rs : List EgRec) : (State.emit s rs).jobs = s.jobs := rfl
@[simp] theorem emit_sems (s : State) (rs : List EgRec) : (State.emit s rs).sems = s.sems := rfl
@[simp] theorem emit_ctrs (s : State) (rs : List EgRec) : (State.emit s rs).ctrs = s.ctrs := rfl
@[simp] theorem emit_bars (s : State) (rs : List EgRec) : (State.emit s rs).bars = s.bars := rfl
@[simp] theorem emit_cnts (s : State) (rs : List EgRec) : (State.emit s rs).cnts = s.cnts := rfl
@[simp] theorem emit_latcap (s : State) (rs : List EgRec) : (State.emit s rs).latcap = s.latcap := rfl
@[simp] theorem emit_conf (s : State) (rs : List EgRec) : (State.emit s rs).conf = s.conf := rfl
@[simp] theorem emit_slots (s : State) (rs : List EgRec) : (State.emit s rs).slots = s.slots := rfl
@[simp] theorem emit_scx (s : State) (rs : List EgRec) : (State.emit s rs).scx = s.scx := rfl
@[simp] theorem emit_counts (s : State) (rs : List EgRec) : (State.emit s rs).counts = s.counts := rfl
@[simp] theorem emit_fetches (s : State) (rs : List EgRec) : (State.emit s rs).fetches = s.fetches := rfl
@[simp] theorem emit_tails (s : State) (rs : List EgRec) : (State.emit s rs).tails = s.tails := rfl
@[simp] theorem emit_tenants (s : State) (rs : List EgRec) : (State.emit s rs).tenants = s.tenants := rfl
@[simp] theorem emit_ing (s : State) (rs : List EgRec) : (State.emit s rs).ing = s.ing := rfl
@[simp] theorem emit_rows (s : State) (rs : List EgRec) : (State.emit s rs).rows = s.rows := rfl
@[simp] theorem emit_asm (s : State) (rs : List EgRec) : (State.emit s rs).asm = s.asm := rfl
@[simp] theorem emit_puns (s : State) (rs : List EgRec) : (State.emit s rs).puns = s.puns := rfl
@[simp] theorem emit_merges (s : State) (rs : List EgRec) : (State.emit s rs).merges = s.merges := rfl
@[simp] theorem emit_roots (s : State) (rs : List EgRec) : (State.emit s rs).roots = s.roots := rfl
@[simp] theorem emit_hcom (s : State) (rs : List EgRec) : (State.emit s rs).hcom = s.hcom := rfl
@[simp] theorem emit_rescore (s : State) (rs : List EgRec) : (State.emit s rs).rescore = s.rescore := rfl
@[simp] theorem emit_loader (s : State) (rs : List EgRec) : (State.emit s rs).loader = s.loader := rfl
@[simp] theorem emit_rsbuf (s : State) (rs : List EgRec) : (State.emit s rs).rsbuf = s.rsbuf := rfl
@[simp] theorem emit_orch (s : State) (rs : List EgRec) : (State.emit s rs).orch = s.orch := rfl
@[simp] theorem emit_faults (s : State) (rs : List EgRec) : (State.emit s rs).faults = s.faults := rfl
@[simp] theorem emit_wind (s : State) (rs : List EgRec) : (State.emit s rs).wind = s.wind := rfl
@[simp] theorem emit_rep (s : State) (rs : List EgRec) : (State.emit s rs).rep = s.rep := rfl
@[simp] theorem emit_lanes (s : State) (rs : List EgRec) : (State.emit s rs).lanes = s.lanes := rfl
@[simp] theorem emit_dbg (s : State) (rs : List EgRec) : (State.emit s rs).dbg = s.dbg := rfl
@[simp] theorem emit_pool (s : State) (rs : List EgRec) : (State.emit s rs).pool = s.pool := rfl
@[simp] theorem emit_outs (s : State) (rs : List EgRec) : (State.emit s rs).outs = s.outs := rfl

@[simp] theorem setCtx_pending (s : State) (slot : Nat) (c : Scx) : (State.setCtx s slot c).pending = s.pending := rfl
@[simp] theorem setCtx_free (s : State) (slot : Nat) (c : Scx) : (State.setCtx s slot c).free = s.free := rfl
@[simp] theorem setCtx_mem (s : State) (slot : Nat) (c : Scx) : (State.setCtx s slot c).mem = s.mem := rfl
@[simp] theorem setCtx_blk (s : State) (slot : Nat) (c : Scx) : (State.setCtx s slot c).blk = s.blk := rfl
@[simp] theorem setCtx_boot (s : State) (slot : Nat) (c : Scx) : (State.setCtx s slot c).boot = s.boot := rfl
@[simp] theorem setCtx_fwBase (s : State) (slot : Nat) (c : Scx) : (State.setCtx s slot c).fwBase = s.fwBase := rfl
@[simp] theorem setCtx_quar (s : State) (slot : Nat) (c : Scx) : (State.setCtx s slot c).quar = s.quar := rfl
@[simp] theorem setCtx_time (s : State) (slot : Nat) (c : Scx) : (State.setCtx s slot c).time = s.time := rfl
@[simp] theorem setCtx_pwr (s : State) (slot : Nat) (c : Scx) : (State.setCtx s slot c).pwr = s.pwr := rfl
@[simp] theorem setCtx_cpa (s : State) (slot : Nat) (c : Scx) : (State.setCtx s slot c).cpa = s.cpa := rfl
@[simp] theorem setCtx_cpb (s : State) (slot : Nat) (c : Scx) : (State.setCtx s slot c).cpb = s.cpb := rfl
@[simp] theorem setCtx_cmdId (s : State) (slot : Nat) (c : Scx) : (State.setCtx s slot c).cmdId = s.cmdId := rfl
@[simp] theorem setCtx_jobs (s : State) (slot : Nat) (c : Scx) : (State.setCtx s slot c).jobs = s.jobs := rfl
@[simp] theorem setCtx_sems (s : State) (slot : Nat) (c : Scx) : (State.setCtx s slot c).sems = s.sems := rfl
@[simp] theorem setCtx_ctrs (s : State) (slot : Nat) (c : Scx) : (State.setCtx s slot c).ctrs = s.ctrs := rfl
@[simp] theorem setCtx_bars (s : State) (slot : Nat) (c : Scx) : (State.setCtx s slot c).bars = s.bars := rfl
@[simp] theorem setCtx_cnts (s : State) (slot : Nat) (c : Scx) : (State.setCtx s slot c).cnts = s.cnts := rfl
@[simp] theorem setCtx_latcap (s : State) (slot : Nat) (c : Scx) : (State.setCtx s slot c).latcap = s.latcap := rfl
@[simp] theorem setCtx_conf (s : State) (slot : Nat) (c : Scx) : (State.setCtx s slot c).conf = s.conf := rfl
@[simp] theorem setCtx_slots (s : State) (slot : Nat) (c : Scx) : (State.setCtx s slot c).slots = s.slots := rfl
@[simp] theorem setCtx_counts (s : State) (slot : Nat) (c : Scx) : (State.setCtx s slot c).counts = s.counts := rfl
@[simp] theorem setCtx_fetches (s : State) (slot : Nat) (c : Scx) : (State.setCtx s slot c).fetches = s.fetches := rfl
@[simp] theorem setCtx_tails (s : State) (slot : Nat) (c : Scx) : (State.setCtx s slot c).tails = s.tails := rfl
@[simp] theorem setCtx_tenants (s : State) (slot : Nat) (c : Scx) : (State.setCtx s slot c).tenants = s.tenants := rfl
@[simp] theorem setCtx_ing (s : State) (slot : Nat) (c : Scx) : (State.setCtx s slot c).ing = s.ing := rfl
@[simp] theorem setCtx_rows (s : State) (slot : Nat) (c : Scx) : (State.setCtx s slot c).rows = s.rows := rfl
@[simp] theorem setCtx_asm (s : State) (slot : Nat) (c : Scx) : (State.setCtx s slot c).asm = s.asm := rfl
@[simp] theorem setCtx_puns (s : State) (slot : Nat) (c : Scx) : (State.setCtx s slot c).puns = s.puns := rfl
@[simp] theorem setCtx_merges (s : State) (slot : Nat) (c : Scx) : (State.setCtx s slot c).merges = s.merges := rfl
@[simp] theorem setCtx_roots (s : State) (slot : Nat) (c : Scx) : (State.setCtx s slot c).roots = s.roots := rfl
@[simp] theorem setCtx_hcom (s : State) (slot : Nat) (c : Scx) : (State.setCtx s slot c).hcom = s.hcom := rfl
@[simp] theorem setCtx_rescore (s : State) (slot : Nat) (c : Scx) : (State.setCtx s slot c).rescore = s.rescore := rfl
@[simp] theorem setCtx_loader (s : State) (slot : Nat) (c : Scx) : (State.setCtx s slot c).loader = s.loader := rfl
@[simp] theorem setCtx_rsbuf (s : State) (slot : Nat) (c : Scx) : (State.setCtx s slot c).rsbuf = s.rsbuf := rfl
@[simp] theorem setCtx_eg (s : State) (slot : Nat) (c : Scx) : (State.setCtx s slot c).eg = s.eg := rfl
@[simp] theorem setCtx_orch (s : State) (slot : Nat) (c : Scx) : (State.setCtx s slot c).orch = s.orch := rfl
@[simp] theorem setCtx_faults (s : State) (slot : Nat) (c : Scx) : (State.setCtx s slot c).faults = s.faults := rfl
@[simp] theorem setCtx_wind (s : State) (slot : Nat) (c : Scx) : (State.setCtx s slot c).wind = s.wind := rfl
@[simp] theorem setCtx_rep (s : State) (slot : Nat) (c : Scx) : (State.setCtx s slot c).rep = s.rep := rfl
@[simp] theorem setCtx_lanes (s : State) (slot : Nat) (c : Scx) : (State.setCtx s slot c).lanes = s.lanes := rfl
@[simp] theorem setCtx_dbg (s : State) (slot : Nat) (c : Scx) : (State.setCtx s slot c).dbg = s.dbg := rfl
@[simp] theorem setCtx_pool (s : State) (slot : Nat) (c : Scx) : (State.setCtx s slot c).pool = s.pool := rfl
@[simp] theorem setCtx_outs (s : State) (slot : Nat) (c : Scx) : (State.setCtx s slot c).outs = s.outs := rfl

@[simp] theorem markDecided_pending (s : State) (k : RowKey) (charged : Bool) : (State.markDecided s k charged).pending = s.pending := rfl
@[simp] theorem markDecided_free (s : State) (k : RowKey) (charged : Bool) : (State.markDecided s k charged).free = s.free := rfl
@[simp] theorem markDecided_mem (s : State) (k : RowKey) (charged : Bool) : (State.markDecided s k charged).mem = s.mem := rfl
@[simp] theorem markDecided_blk (s : State) (k : RowKey) (charged : Bool) : (State.markDecided s k charged).blk = s.blk := rfl
@[simp] theorem markDecided_boot (s : State) (k : RowKey) (charged : Bool) : (State.markDecided s k charged).boot = s.boot := rfl
@[simp] theorem markDecided_fwBase (s : State) (k : RowKey) (charged : Bool) : (State.markDecided s k charged).fwBase = s.fwBase := rfl
@[simp] theorem markDecided_quar (s : State) (k : RowKey) (charged : Bool) : (State.markDecided s k charged).quar = s.quar := rfl
@[simp] theorem markDecided_time (s : State) (k : RowKey) (charged : Bool) : (State.markDecided s k charged).time = s.time := rfl
@[simp] theorem markDecided_pwr (s : State) (k : RowKey) (charged : Bool) : (State.markDecided s k charged).pwr = s.pwr := rfl
@[simp] theorem markDecided_cpa (s : State) (k : RowKey) (charged : Bool) : (State.markDecided s k charged).cpa = s.cpa := rfl
@[simp] theorem markDecided_cpb (s : State) (k : RowKey) (charged : Bool) : (State.markDecided s k charged).cpb = s.cpb := rfl
@[simp] theorem markDecided_cmdId (s : State) (k : RowKey) (charged : Bool) : (State.markDecided s k charged).cmdId = s.cmdId := rfl
@[simp] theorem markDecided_jobs (s : State) (k : RowKey) (charged : Bool) : (State.markDecided s k charged).jobs = s.jobs := rfl
@[simp] theorem markDecided_sems (s : State) (k : RowKey) (charged : Bool) : (State.markDecided s k charged).sems = s.sems := rfl
@[simp] theorem markDecided_ctrs (s : State) (k : RowKey) (charged : Bool) : (State.markDecided s k charged).ctrs = s.ctrs := rfl
@[simp] theorem markDecided_bars (s : State) (k : RowKey) (charged : Bool) : (State.markDecided s k charged).bars = s.bars := rfl
@[simp] theorem markDecided_cnts (s : State) (k : RowKey) (charged : Bool) : (State.markDecided s k charged).cnts = s.cnts := rfl
@[simp] theorem markDecided_latcap (s : State) (k : RowKey) (charged : Bool) : (State.markDecided s k charged).latcap = s.latcap := rfl
@[simp] theorem markDecided_conf (s : State) (k : RowKey) (charged : Bool) : (State.markDecided s k charged).conf = s.conf := rfl
@[simp] theorem markDecided_slots (s : State) (k : RowKey) (charged : Bool) : (State.markDecided s k charged).slots = s.slots := rfl
@[simp] theorem markDecided_scx (s : State) (k : RowKey) (charged : Bool) : (State.markDecided s k charged).scx = s.scx := rfl
@[simp] theorem markDecided_counts (s : State) (k : RowKey) (charged : Bool) : (State.markDecided s k charged).counts = s.counts := rfl
@[simp] theorem markDecided_fetches (s : State) (k : RowKey) (charged : Bool) : (State.markDecided s k charged).fetches = s.fetches := rfl
@[simp] theorem markDecided_tails (s : State) (k : RowKey) (charged : Bool) : (State.markDecided s k charged).tails = s.tails := rfl
@[simp] theorem markDecided_tenants (s : State) (k : RowKey) (charged : Bool) : (State.markDecided s k charged).tenants = s.tenants := rfl
@[simp] theorem markDecided_ing (s : State) (k : RowKey) (charged : Bool) : (State.markDecided s k charged).ing = s.ing := rfl
@[simp] theorem markDecided_asm (s : State) (k : RowKey) (charged : Bool) : (State.markDecided s k charged).asm = s.asm := rfl
@[simp] theorem markDecided_puns (s : State) (k : RowKey) (charged : Bool) : (State.markDecided s k charged).puns = s.puns := rfl
@[simp] theorem markDecided_merges (s : State) (k : RowKey) (charged : Bool) : (State.markDecided s k charged).merges = s.merges := rfl
@[simp] theorem markDecided_roots (s : State) (k : RowKey) (charged : Bool) : (State.markDecided s k charged).roots = s.roots := rfl
@[simp] theorem markDecided_hcom (s : State) (k : RowKey) (charged : Bool) : (State.markDecided s k charged).hcom = s.hcom := rfl
@[simp] theorem markDecided_rescore (s : State) (k : RowKey) (charged : Bool) : (State.markDecided s k charged).rescore = s.rescore := rfl
@[simp] theorem markDecided_loader (s : State) (k : RowKey) (charged : Bool) : (State.markDecided s k charged).loader = s.loader := rfl
@[simp] theorem markDecided_rsbuf (s : State) (k : RowKey) (charged : Bool) : (State.markDecided s k charged).rsbuf = s.rsbuf := rfl
@[simp] theorem markDecided_eg (s : State) (k : RowKey) (charged : Bool) : (State.markDecided s k charged).eg = s.eg := rfl
@[simp] theorem markDecided_orch (s : State) (k : RowKey) (charged : Bool) : (State.markDecided s k charged).orch = s.orch := rfl
@[simp] theorem markDecided_faults (s : State) (k : RowKey) (charged : Bool) : (State.markDecided s k charged).faults = s.faults := rfl
@[simp] theorem markDecided_wind (s : State) (k : RowKey) (charged : Bool) : (State.markDecided s k charged).wind = s.wind := rfl
@[simp] theorem markDecided_rep (s : State) (k : RowKey) (charged : Bool) : (State.markDecided s k charged).rep = s.rep := rfl
@[simp] theorem markDecided_lanes (s : State) (k : RowKey) (charged : Bool) : (State.markDecided s k charged).lanes = s.lanes := rfl
@[simp] theorem markDecided_dbg (s : State) (k : RowKey) (charged : Bool) : (State.markDecided s k charged).dbg = s.dbg := rfl
@[simp] theorem markDecided_pool (s : State) (k : RowKey) (charged : Bool) : (State.markDecided s k charged).pool = s.pool := rfl
@[simp] theorem markDecided_outs (s : State) (k : RowKey) (charged : Bool) : (State.markDecided s k charged).outs = s.outs := rfl

@[simp] theorem setLink_pending (s : State) (p : Nat) (l : Link) : (State.setLink s p l).pending = s.pending := rfl
@[simp] theorem setLink_free (s : State) (p : Nat) (l : Link) : (State.setLink s p l).free = s.free := rfl
@[simp] theorem setLink_mem (s : State) (p : Nat) (l : Link) : (State.setLink s p l).mem = s.mem := rfl
@[simp] theorem setLink_blk (s : State) (p : Nat) (l : Link) : (State.setLink s p l).blk = s.blk := rfl
@[simp] theorem setLink_boot (s : State) (p : Nat) (l : Link) : (State.setLink s p l).boot = s.boot := rfl
@[simp] theorem setLink_fwBase (s : State) (p : Nat) (l : Link) : (State.setLink s p l).fwBase = s.fwBase := rfl
@[simp] theorem setLink_quar (s : State) (p : Nat) (l : Link) : (State.setLink s p l).quar = s.quar := rfl
@[simp] theorem setLink_time (s : State) (p : Nat) (l : Link) : (State.setLink s p l).time = s.time := rfl
@[simp] theorem setLink_pwr (s : State) (p : Nat) (l : Link) : (State.setLink s p l).pwr = s.pwr := rfl
@[simp] theorem setLink_cpa (s : State) (p : Nat) (l : Link) : (State.setLink s p l).cpa = s.cpa := rfl
@[simp] theorem setLink_cpb (s : State) (p : Nat) (l : Link) : (State.setLink s p l).cpb = s.cpb := rfl
@[simp] theorem setLink_cmdId (s : State) (p : Nat) (l : Link) : (State.setLink s p l).cmdId = s.cmdId := rfl
@[simp] theorem setLink_jobs (s : State) (p : Nat) (l : Link) : (State.setLink s p l).jobs = s.jobs := rfl
@[simp] theorem setLink_sems (s : State) (p : Nat) (l : Link) : (State.setLink s p l).sems = s.sems := rfl
@[simp] theorem setLink_ctrs (s : State) (p : Nat) (l : Link) : (State.setLink s p l).ctrs = s.ctrs := rfl
@[simp] theorem setLink_bars (s : State) (p : Nat) (l : Link) : (State.setLink s p l).bars = s.bars := rfl
@[simp] theorem setLink_cnts (s : State) (p : Nat) (l : Link) : (State.setLink s p l).cnts = s.cnts := rfl
@[simp] theorem setLink_latcap (s : State) (p : Nat) (l : Link) : (State.setLink s p l).latcap = s.latcap := rfl
@[simp] theorem setLink_conf (s : State) (p : Nat) (l : Link) : (State.setLink s p l).conf = s.conf := rfl
@[simp] theorem setLink_slots (s : State) (p : Nat) (l : Link) : (State.setLink s p l).slots = s.slots := rfl
@[simp] theorem setLink_scx (s : State) (p : Nat) (l : Link) : (State.setLink s p l).scx = s.scx := rfl
@[simp] theorem setLink_counts (s : State) (p : Nat) (l : Link) : (State.setLink s p l).counts = s.counts := rfl
@[simp] theorem setLink_fetches (s : State) (p : Nat) (l : Link) : (State.setLink s p l).fetches = s.fetches := rfl
@[simp] theorem setLink_tails (s : State) (p : Nat) (l : Link) : (State.setLink s p l).tails = s.tails := rfl
@[simp] theorem setLink_tenants (s : State) (p : Nat) (l : Link) : (State.setLink s p l).tenants = s.tenants := rfl
@[simp] theorem setLink_ing (s : State) (p : Nat) (l : Link) : (State.setLink s p l).ing = s.ing := rfl
@[simp] theorem setLink_rows (s : State) (p : Nat) (l : Link) : (State.setLink s p l).rows = s.rows := rfl
@[simp] theorem setLink_asm (s : State) (p : Nat) (l : Link) : (State.setLink s p l).asm = s.asm := rfl
@[simp] theorem setLink_puns (s : State) (p : Nat) (l : Link) : (State.setLink s p l).puns = s.puns := rfl
@[simp] theorem setLink_merges (s : State) (p : Nat) (l : Link) : (State.setLink s p l).merges = s.merges := rfl
@[simp] theorem setLink_roots (s : State) (p : Nat) (l : Link) : (State.setLink s p l).roots = s.roots := rfl
@[simp] theorem setLink_hcom (s : State) (p : Nat) (l : Link) : (State.setLink s p l).hcom = s.hcom := rfl
@[simp] theorem setLink_rescore (s : State) (p : Nat) (l : Link) : (State.setLink s p l).rescore = s.rescore := rfl
@[simp] theorem setLink_loader (s : State) (p : Nat) (l : Link) : (State.setLink s p l).loader = s.loader := rfl
@[simp] theorem setLink_rsbuf (s : State) (p : Nat) (l : Link) : (State.setLink s p l).rsbuf = s.rsbuf := rfl
@[simp] theorem setLink_eg (s : State) (p : Nat) (l : Link) : (State.setLink s p l).eg = s.eg := rfl
@[simp] theorem setLink_faults (s : State) (p : Nat) (l : Link) : (State.setLink s p l).faults = s.faults := rfl
@[simp] theorem setLink_wind (s : State) (p : Nat) (l : Link) : (State.setLink s p l).wind = s.wind := rfl
@[simp] theorem setLink_rep (s : State) (p : Nat) (l : Link) : (State.setLink s p l).rep = s.rep := rfl
@[simp] theorem setLink_lanes (s : State) (p : Nat) (l : Link) : (State.setLink s p l).lanes = s.lanes := rfl
@[simp] theorem setLink_dbg (s : State) (p : Nat) (l : Link) : (State.setLink s p l).dbg = s.dbg := rfl
@[simp] theorem setLink_pool (s : State) (p : Nat) (l : Link) : (State.setLink s p l).pool = s.pool := rfl
@[simp] theorem setLink_outs (s : State) (p : Nat) (l : Link) : (State.setLink s p l).outs = s.outs := rfl

@[simp] theorem setBank_pending (s : State) (h k : Nat) (b : Bank) : (State.setBank s h k b).pending = s.pending := rfl
@[simp] theorem setBank_free (s : State) (h k : Nat) (b : Bank) : (State.setBank s h k b).free = s.free := rfl
@[simp] theorem setBank_mem (s : State) (h k : Nat) (b : Bank) : (State.setBank s h k b).mem = s.mem := rfl
@[simp] theorem setBank_blk (s : State) (h k : Nat) (b : Bank) : (State.setBank s h k b).blk = s.blk := rfl
@[simp] theorem setBank_boot (s : State) (h k : Nat) (b : Bank) : (State.setBank s h k b).boot = s.boot := rfl
@[simp] theorem setBank_fwBase (s : State) (h k : Nat) (b : Bank) : (State.setBank s h k b).fwBase = s.fwBase := rfl
@[simp] theorem setBank_quar (s : State) (h k : Nat) (b : Bank) : (State.setBank s h k b).quar = s.quar := rfl
@[simp] theorem setBank_time (s : State) (h k : Nat) (b : Bank) : (State.setBank s h k b).time = s.time := rfl
@[simp] theorem setBank_pwr (s : State) (h k : Nat) (b : Bank) : (State.setBank s h k b).pwr = s.pwr := rfl
@[simp] theorem setBank_cpa (s : State) (h k : Nat) (b : Bank) : (State.setBank s h k b).cpa = s.cpa := rfl
@[simp] theorem setBank_cpb (s : State) (h k : Nat) (b : Bank) : (State.setBank s h k b).cpb = s.cpb := rfl
@[simp] theorem setBank_cmdId (s : State) (h k : Nat) (b : Bank) : (State.setBank s h k b).cmdId = s.cmdId := rfl
@[simp] theorem setBank_jobs (s : State) (h k : Nat) (b : Bank) : (State.setBank s h k b).jobs = s.jobs := rfl
@[simp] theorem setBank_sems (s : State) (h k : Nat) (b : Bank) : (State.setBank s h k b).sems = s.sems := rfl
@[simp] theorem setBank_ctrs (s : State) (h k : Nat) (b : Bank) : (State.setBank s h k b).ctrs = s.ctrs := rfl
@[simp] theorem setBank_bars (s : State) (h k : Nat) (b : Bank) : (State.setBank s h k b).bars = s.bars := rfl
@[simp] theorem setBank_cnts (s : State) (h k : Nat) (b : Bank) : (State.setBank s h k b).cnts = s.cnts := rfl
@[simp] theorem setBank_latcap (s : State) (h k : Nat) (b : Bank) : (State.setBank s h k b).latcap = s.latcap := rfl
@[simp] theorem setBank_slots (s : State) (h k : Nat) (b : Bank) : (State.setBank s h k b).slots = s.slots := rfl
@[simp] theorem setBank_scx (s : State) (h k : Nat) (b : Bank) : (State.setBank s h k b).scx = s.scx := rfl
@[simp] theorem setBank_counts (s : State) (h k : Nat) (b : Bank) : (State.setBank s h k b).counts = s.counts := rfl
@[simp] theorem setBank_fetches (s : State) (h k : Nat) (b : Bank) : (State.setBank s h k b).fetches = s.fetches := rfl
@[simp] theorem setBank_tails (s : State) (h k : Nat) (b : Bank) : (State.setBank s h k b).tails = s.tails := rfl
@[simp] theorem setBank_tenants (s : State) (h k : Nat) (b : Bank) : (State.setBank s h k b).tenants = s.tenants := rfl
@[simp] theorem setBank_ing (s : State) (h k : Nat) (b : Bank) : (State.setBank s h k b).ing = s.ing := rfl
@[simp] theorem setBank_rows (s : State) (h k : Nat) (b : Bank) : (State.setBank s h k b).rows = s.rows := rfl
@[simp] theorem setBank_asm (s : State) (h k : Nat) (b : Bank) : (State.setBank s h k b).asm = s.asm := rfl
@[simp] theorem setBank_puns (s : State) (h k : Nat) (b : Bank) : (State.setBank s h k b).puns = s.puns := rfl
@[simp] theorem setBank_merges (s : State) (h k : Nat) (b : Bank) : (State.setBank s h k b).merges = s.merges := rfl
@[simp] theorem setBank_roots (s : State) (h k : Nat) (b : Bank) : (State.setBank s h k b).roots = s.roots := rfl
@[simp] theorem setBank_hcom (s : State) (h k : Nat) (b : Bank) : (State.setBank s h k b).hcom = s.hcom := rfl
@[simp] theorem setBank_rescore (s : State) (h k : Nat) (b : Bank) : (State.setBank s h k b).rescore = s.rescore := rfl
@[simp] theorem setBank_loader (s : State) (h k : Nat) (b : Bank) : (State.setBank s h k b).loader = s.loader := rfl
@[simp] theorem setBank_rsbuf (s : State) (h k : Nat) (b : Bank) : (State.setBank s h k b).rsbuf = s.rsbuf := rfl
@[simp] theorem setBank_eg (s : State) (h k : Nat) (b : Bank) : (State.setBank s h k b).eg = s.eg := rfl
@[simp] theorem setBank_orch (s : State) (h k : Nat) (b : Bank) : (State.setBank s h k b).orch = s.orch := rfl
@[simp] theorem setBank_faults (s : State) (h k : Nat) (b : Bank) : (State.setBank s h k b).faults = s.faults := rfl
@[simp] theorem setBank_wind (s : State) (h k : Nat) (b : Bank) : (State.setBank s h k b).wind = s.wind := rfl
@[simp] theorem setBank_rep (s : State) (h k : Nat) (b : Bank) : (State.setBank s h k b).rep = s.rep := rfl
@[simp] theorem setBank_lanes (s : State) (h k : Nat) (b : Bank) : (State.setBank s h k b).lanes = s.lanes := rfl
@[simp] theorem setBank_dbg (s : State) (h k : Nat) (b : Bank) : (State.setBank s h k b).dbg = s.dbg := rfl
@[simp] theorem setBank_pool (s : State) (h k : Nat) (b : Bank) : (State.setBank s h k b).pool = s.pool := rfl
@[simp] theorem setBank_outs (s : State) (h k : Nat) (b : Bank) : (State.setBank s h k b).outs = s.outs := rfl

@[simp] theorem logSwap_pending (s : State) (key gen : Nat) : (State.logSwap s key gen).pending = s.pending := rfl
@[simp] theorem logSwap_free (s : State) (key gen : Nat) : (State.logSwap s key gen).free = s.free := rfl
@[simp] theorem logSwap_mem (s : State) (key gen : Nat) : (State.logSwap s key gen).mem = s.mem := rfl
@[simp] theorem logSwap_blk (s : State) (key gen : Nat) : (State.logSwap s key gen).blk = s.blk := rfl
@[simp] theorem logSwap_boot (s : State) (key gen : Nat) : (State.logSwap s key gen).boot = s.boot := rfl
@[simp] theorem logSwap_fwBase (s : State) (key gen : Nat) : (State.logSwap s key gen).fwBase = s.fwBase := rfl
@[simp] theorem logSwap_quar (s : State) (key gen : Nat) : (State.logSwap s key gen).quar = s.quar := rfl
@[simp] theorem logSwap_time (s : State) (key gen : Nat) : (State.logSwap s key gen).time = s.time := rfl
@[simp] theorem logSwap_pwr (s : State) (key gen : Nat) : (State.logSwap s key gen).pwr = s.pwr := rfl
@[simp] theorem logSwap_cpa (s : State) (key gen : Nat) : (State.logSwap s key gen).cpa = s.cpa := rfl
@[simp] theorem logSwap_cpb (s : State) (key gen : Nat) : (State.logSwap s key gen).cpb = s.cpb := rfl
@[simp] theorem logSwap_cmdId (s : State) (key gen : Nat) : (State.logSwap s key gen).cmdId = s.cmdId := rfl
@[simp] theorem logSwap_jobs (s : State) (key gen : Nat) : (State.logSwap s key gen).jobs = s.jobs := rfl
@[simp] theorem logSwap_sems (s : State) (key gen : Nat) : (State.logSwap s key gen).sems = s.sems := rfl
@[simp] theorem logSwap_ctrs (s : State) (key gen : Nat) : (State.logSwap s key gen).ctrs = s.ctrs := rfl
@[simp] theorem logSwap_bars (s : State) (key gen : Nat) : (State.logSwap s key gen).bars = s.bars := rfl
@[simp] theorem logSwap_cnts (s : State) (key gen : Nat) : (State.logSwap s key gen).cnts = s.cnts := rfl
@[simp] theorem logSwap_latcap (s : State) (key gen : Nat) : (State.logSwap s key gen).latcap = s.latcap := rfl
@[simp] theorem logSwap_slots (s : State) (key gen : Nat) : (State.logSwap s key gen).slots = s.slots := rfl
@[simp] theorem logSwap_scx (s : State) (key gen : Nat) : (State.logSwap s key gen).scx = s.scx := rfl
@[simp] theorem logSwap_counts (s : State) (key gen : Nat) : (State.logSwap s key gen).counts = s.counts := rfl
@[simp] theorem logSwap_fetches (s : State) (key gen : Nat) : (State.logSwap s key gen).fetches = s.fetches := rfl
@[simp] theorem logSwap_tails (s : State) (key gen : Nat) : (State.logSwap s key gen).tails = s.tails := rfl
@[simp] theorem logSwap_tenants (s : State) (key gen : Nat) : (State.logSwap s key gen).tenants = s.tenants := rfl
@[simp] theorem logSwap_ing (s : State) (key gen : Nat) : (State.logSwap s key gen).ing = s.ing := rfl
@[simp] theorem logSwap_rows (s : State) (key gen : Nat) : (State.logSwap s key gen).rows = s.rows := rfl
@[simp] theorem logSwap_asm (s : State) (key gen : Nat) : (State.logSwap s key gen).asm = s.asm := rfl
@[simp] theorem logSwap_puns (s : State) (key gen : Nat) : (State.logSwap s key gen).puns = s.puns := rfl
@[simp] theorem logSwap_merges (s : State) (key gen : Nat) : (State.logSwap s key gen).merges = s.merges := rfl
@[simp] theorem logSwap_roots (s : State) (key gen : Nat) : (State.logSwap s key gen).roots = s.roots := rfl
@[simp] theorem logSwap_hcom (s : State) (key gen : Nat) : (State.logSwap s key gen).hcom = s.hcom := rfl
@[simp] theorem logSwap_rescore (s : State) (key gen : Nat) : (State.logSwap s key gen).rescore = s.rescore := rfl
@[simp] theorem logSwap_loader (s : State) (key gen : Nat) : (State.logSwap s key gen).loader = s.loader := rfl
@[simp] theorem logSwap_rsbuf (s : State) (key gen : Nat) : (State.logSwap s key gen).rsbuf = s.rsbuf := rfl
@[simp] theorem logSwap_eg (s : State) (key gen : Nat) : (State.logSwap s key gen).eg = s.eg := rfl
@[simp] theorem logSwap_orch (s : State) (key gen : Nat) : (State.logSwap s key gen).orch = s.orch := rfl
@[simp] theorem logSwap_faults (s : State) (key gen : Nat) : (State.logSwap s key gen).faults = s.faults := rfl
@[simp] theorem logSwap_wind (s : State) (key gen : Nat) : (State.logSwap s key gen).wind = s.wind := rfl
@[simp] theorem logSwap_rep (s : State) (key gen : Nat) : (State.logSwap s key gen).rep = s.rep := rfl
@[simp] theorem logSwap_lanes (s : State) (key gen : Nat) : (State.logSwap s key gen).lanes = s.lanes := rfl
@[simp] theorem logSwap_dbg (s : State) (key gen : Nat) : (State.logSwap s key gen).dbg = s.dbg := rfl
@[simp] theorem logSwap_pool (s : State) (key gen : Nat) : (State.logSwap s key gen).pool = s.pool := rfl
@[simp] theorem logSwap_outs (s : State) (key gen : Nat) : (State.logSwap s key gen).outs = s.outs := rfl

@[simp] theorem setTbl_pending (s : State) (key : Nat) (o : TblObj) : (State.setTbl s key o).pending = s.pending := rfl
@[simp] theorem setTbl_free (s : State) (key : Nat) (o : TblObj) : (State.setTbl s key o).free = s.free := rfl
@[simp] theorem setTbl_mem (s : State) (key : Nat) (o : TblObj) : (State.setTbl s key o).mem = s.mem := rfl
@[simp] theorem setTbl_blk (s : State) (key : Nat) (o : TblObj) : (State.setTbl s key o).blk = s.blk := rfl
@[simp] theorem setTbl_boot (s : State) (key : Nat) (o : TblObj) : (State.setTbl s key o).boot = s.boot := rfl
@[simp] theorem setTbl_fwBase (s : State) (key : Nat) (o : TblObj) : (State.setTbl s key o).fwBase = s.fwBase := rfl
@[simp] theorem setTbl_quar (s : State) (key : Nat) (o : TblObj) : (State.setTbl s key o).quar = s.quar := rfl
@[simp] theorem setTbl_time (s : State) (key : Nat) (o : TblObj) : (State.setTbl s key o).time = s.time := rfl
@[simp] theorem setTbl_pwr (s : State) (key : Nat) (o : TblObj) : (State.setTbl s key o).pwr = s.pwr := rfl
@[simp] theorem setTbl_cpa (s : State) (key : Nat) (o : TblObj) : (State.setTbl s key o).cpa = s.cpa := rfl
@[simp] theorem setTbl_cpb (s : State) (key : Nat) (o : TblObj) : (State.setTbl s key o).cpb = s.cpb := rfl
@[simp] theorem setTbl_cmdId (s : State) (key : Nat) (o : TblObj) : (State.setTbl s key o).cmdId = s.cmdId := rfl
@[simp] theorem setTbl_jobs (s : State) (key : Nat) (o : TblObj) : (State.setTbl s key o).jobs = s.jobs := rfl
@[simp] theorem setTbl_sems (s : State) (key : Nat) (o : TblObj) : (State.setTbl s key o).sems = s.sems := rfl
@[simp] theorem setTbl_ctrs (s : State) (key : Nat) (o : TblObj) : (State.setTbl s key o).ctrs = s.ctrs := rfl
@[simp] theorem setTbl_bars (s : State) (key : Nat) (o : TblObj) : (State.setTbl s key o).bars = s.bars := rfl
@[simp] theorem setTbl_cnts (s : State) (key : Nat) (o : TblObj) : (State.setTbl s key o).cnts = s.cnts := rfl
@[simp] theorem setTbl_latcap (s : State) (key : Nat) (o : TblObj) : (State.setTbl s key o).latcap = s.latcap := rfl
@[simp] theorem setTbl_slots (s : State) (key : Nat) (o : TblObj) : (State.setTbl s key o).slots = s.slots := rfl
@[simp] theorem setTbl_scx (s : State) (key : Nat) (o : TblObj) : (State.setTbl s key o).scx = s.scx := rfl
@[simp] theorem setTbl_counts (s : State) (key : Nat) (o : TblObj) : (State.setTbl s key o).counts = s.counts := rfl
@[simp] theorem setTbl_fetches (s : State) (key : Nat) (o : TblObj) : (State.setTbl s key o).fetches = s.fetches := rfl
@[simp] theorem setTbl_tails (s : State) (key : Nat) (o : TblObj) : (State.setTbl s key o).tails = s.tails := rfl
@[simp] theorem setTbl_tenants (s : State) (key : Nat) (o : TblObj) : (State.setTbl s key o).tenants = s.tenants := rfl
@[simp] theorem setTbl_ing (s : State) (key : Nat) (o : TblObj) : (State.setTbl s key o).ing = s.ing := rfl
@[simp] theorem setTbl_rows (s : State) (key : Nat) (o : TblObj) : (State.setTbl s key o).rows = s.rows := rfl
@[simp] theorem setTbl_asm (s : State) (key : Nat) (o : TblObj) : (State.setTbl s key o).asm = s.asm := rfl
@[simp] theorem setTbl_puns (s : State) (key : Nat) (o : TblObj) : (State.setTbl s key o).puns = s.puns := rfl
@[simp] theorem setTbl_merges (s : State) (key : Nat) (o : TblObj) : (State.setTbl s key o).merges = s.merges := rfl
@[simp] theorem setTbl_roots (s : State) (key : Nat) (o : TblObj) : (State.setTbl s key o).roots = s.roots := rfl
@[simp] theorem setTbl_hcom (s : State) (key : Nat) (o : TblObj) : (State.setTbl s key o).hcom = s.hcom := rfl
@[simp] theorem setTbl_rescore (s : State) (key : Nat) (o : TblObj) : (State.setTbl s key o).rescore = s.rescore := rfl
@[simp] theorem setTbl_loader (s : State) (key : Nat) (o : TblObj) : (State.setTbl s key o).loader = s.loader := rfl
@[simp] theorem setTbl_rsbuf (s : State) (key : Nat) (o : TblObj) : (State.setTbl s key o).rsbuf = s.rsbuf := rfl
@[simp] theorem setTbl_eg (s : State) (key : Nat) (o : TblObj) : (State.setTbl s key o).eg = s.eg := rfl
@[simp] theorem setTbl_orch (s : State) (key : Nat) (o : TblObj) : (State.setTbl s key o).orch = s.orch := rfl
@[simp] theorem setTbl_faults (s : State) (key : Nat) (o : TblObj) : (State.setTbl s key o).faults = s.faults := rfl
@[simp] theorem setTbl_wind (s : State) (key : Nat) (o : TblObj) : (State.setTbl s key o).wind = s.wind := rfl
@[simp] theorem setTbl_rep (s : State) (key : Nat) (o : TblObj) : (State.setTbl s key o).rep = s.rep := rfl
@[simp] theorem setTbl_lanes (s : State) (key : Nat) (o : TblObj) : (State.setTbl s key o).lanes = s.lanes := rfl
@[simp] theorem setTbl_dbg (s : State) (key : Nat) (o : TblObj) : (State.setTbl s key o).dbg = s.dbg := rfl
@[simp] theorem setTbl_pool (s : State) (key : Nat) (o : TblObj) : (State.setTbl s key o).pool = s.pool := rfl
@[simp] theorem setTbl_outs (s : State) (key : Nat) (o : TblObj) : (State.setTbl s key o).outs = s.outs := rfl

@[simp] theorem setProf_pending (s : State) (n : Nat) (o : ProfObj) : (State.setProf s n o).pending = s.pending := rfl
@[simp] theorem setProf_free (s : State) (n : Nat) (o : ProfObj) : (State.setProf s n o).free = s.free := rfl
@[simp] theorem setProf_mem (s : State) (n : Nat) (o : ProfObj) : (State.setProf s n o).mem = s.mem := rfl
@[simp] theorem setProf_blk (s : State) (n : Nat) (o : ProfObj) : (State.setProf s n o).blk = s.blk := rfl
@[simp] theorem setProf_boot (s : State) (n : Nat) (o : ProfObj) : (State.setProf s n o).boot = s.boot := rfl
@[simp] theorem setProf_fwBase (s : State) (n : Nat) (o : ProfObj) : (State.setProf s n o).fwBase = s.fwBase := rfl
@[simp] theorem setProf_quar (s : State) (n : Nat) (o : ProfObj) : (State.setProf s n o).quar = s.quar := rfl
@[simp] theorem setProf_time (s : State) (n : Nat) (o : ProfObj) : (State.setProf s n o).time = s.time := rfl
@[simp] theorem setProf_pwr (s : State) (n : Nat) (o : ProfObj) : (State.setProf s n o).pwr = s.pwr := rfl
@[simp] theorem setProf_cpa (s : State) (n : Nat) (o : ProfObj) : (State.setProf s n o).cpa = s.cpa := rfl
@[simp] theorem setProf_cpb (s : State) (n : Nat) (o : ProfObj) : (State.setProf s n o).cpb = s.cpb := rfl
@[simp] theorem setProf_cmdId (s : State) (n : Nat) (o : ProfObj) : (State.setProf s n o).cmdId = s.cmdId := rfl
@[simp] theorem setProf_jobs (s : State) (n : Nat) (o : ProfObj) : (State.setProf s n o).jobs = s.jobs := rfl
@[simp] theorem setProf_sems (s : State) (n : Nat) (o : ProfObj) : (State.setProf s n o).sems = s.sems := rfl
@[simp] theorem setProf_ctrs (s : State) (n : Nat) (o : ProfObj) : (State.setProf s n o).ctrs = s.ctrs := rfl
@[simp] theorem setProf_bars (s : State) (n : Nat) (o : ProfObj) : (State.setProf s n o).bars = s.bars := rfl
@[simp] theorem setProf_cnts (s : State) (n : Nat) (o : ProfObj) : (State.setProf s n o).cnts = s.cnts := rfl
@[simp] theorem setProf_latcap (s : State) (n : Nat) (o : ProfObj) : (State.setProf s n o).latcap = s.latcap := rfl
@[simp] theorem setProf_slots (s : State) (n : Nat) (o : ProfObj) : (State.setProf s n o).slots = s.slots := rfl
@[simp] theorem setProf_scx (s : State) (n : Nat) (o : ProfObj) : (State.setProf s n o).scx = s.scx := rfl
@[simp] theorem setProf_counts (s : State) (n : Nat) (o : ProfObj) : (State.setProf s n o).counts = s.counts := rfl
@[simp] theorem setProf_fetches (s : State) (n : Nat) (o : ProfObj) : (State.setProf s n o).fetches = s.fetches := rfl
@[simp] theorem setProf_tails (s : State) (n : Nat) (o : ProfObj) : (State.setProf s n o).tails = s.tails := rfl
@[simp] theorem setProf_tenants (s : State) (n : Nat) (o : ProfObj) : (State.setProf s n o).tenants = s.tenants := rfl
@[simp] theorem setProf_ing (s : State) (n : Nat) (o : ProfObj) : (State.setProf s n o).ing = s.ing := rfl
@[simp] theorem setProf_rows (s : State) (n : Nat) (o : ProfObj) : (State.setProf s n o).rows = s.rows := rfl
@[simp] theorem setProf_asm (s : State) (n : Nat) (o : ProfObj) : (State.setProf s n o).asm = s.asm := rfl
@[simp] theorem setProf_puns (s : State) (n : Nat) (o : ProfObj) : (State.setProf s n o).puns = s.puns := rfl
@[simp] theorem setProf_merges (s : State) (n : Nat) (o : ProfObj) : (State.setProf s n o).merges = s.merges := rfl
@[simp] theorem setProf_roots (s : State) (n : Nat) (o : ProfObj) : (State.setProf s n o).roots = s.roots := rfl
@[simp] theorem setProf_hcom (s : State) (n : Nat) (o : ProfObj) : (State.setProf s n o).hcom = s.hcom := rfl
@[simp] theorem setProf_rescore (s : State) (n : Nat) (o : ProfObj) : (State.setProf s n o).rescore = s.rescore := rfl
@[simp] theorem setProf_loader (s : State) (n : Nat) (o : ProfObj) : (State.setProf s n o).loader = s.loader := rfl
@[simp] theorem setProf_rsbuf (s : State) (n : Nat) (o : ProfObj) : (State.setProf s n o).rsbuf = s.rsbuf := rfl
@[simp] theorem setProf_eg (s : State) (n : Nat) (o : ProfObj) : (State.setProf s n o).eg = s.eg := rfl
@[simp] theorem setProf_orch (s : State) (n : Nat) (o : ProfObj) : (State.setProf s n o).orch = s.orch := rfl
@[simp] theorem setProf_faults (s : State) (n : Nat) (o : ProfObj) : (State.setProf s n o).faults = s.faults := rfl
@[simp] theorem setProf_wind (s : State) (n : Nat) (o : ProfObj) : (State.setProf s n o).wind = s.wind := rfl
@[simp] theorem setProf_rep (s : State) (n : Nat) (o : ProfObj) : (State.setProf s n o).rep = s.rep := rfl
@[simp] theorem setProf_lanes (s : State) (n : Nat) (o : ProfObj) : (State.setProf s n o).lanes = s.lanes := rfl
@[simp] theorem setProf_dbg (s : State) (n : Nat) (o : ProfObj) : (State.setProf s n o).dbg = s.dbg := rfl
@[simp] theorem setProf_pool (s : State) (n : Nat) (o : ProfObj) : (State.setProf s n o).pool = s.pool := rfl
@[simp] theorem setProf_outs (s : State) (n : Nat) (o : ProfObj) : (State.setProf s n o).outs = s.outs := rfl

@[simp] theorem hangClear_pending (s : State) : (State.hangClear s).pending = s.pending := rfl
@[simp] theorem hangClear_free (s : State) : (State.hangClear s).free = s.free := rfl
@[simp] theorem hangClear_mem (s : State) : (State.hangClear s).mem = s.mem := rfl
@[simp] theorem hangClear_blk (s : State) : (State.hangClear s).blk = s.blk := rfl
@[simp] theorem hangClear_boot (s : State) : (State.hangClear s).boot = s.boot := rfl
@[simp] theorem hangClear_fwBase (s : State) : (State.hangClear s).fwBase = s.fwBase := rfl
@[simp] theorem hangClear_quar (s : State) : (State.hangClear s).quar = s.quar := rfl
@[simp] theorem hangClear_time (s : State) : (State.hangClear s).time = s.time := rfl
@[simp] theorem hangClear_pwr (s : State) : (State.hangClear s).pwr = s.pwr := rfl
@[simp] theorem hangClear_cpa (s : State) : (State.hangClear s).cpa = s.cpa := rfl
@[simp] theorem hangClear_cpb (s : State) : (State.hangClear s).cpb = s.cpb := rfl
@[simp] theorem hangClear_cmdId (s : State) : (State.hangClear s).cmdId = s.cmdId := rfl
@[simp] theorem hangClear_jobs (s : State) : (State.hangClear s).jobs = s.jobs := rfl
@[simp] theorem hangClear_sems (s : State) : (State.hangClear s).sems = s.sems := rfl
@[simp] theorem hangClear_ctrs (s : State) : (State.hangClear s).ctrs = s.ctrs := rfl
@[simp] theorem hangClear_bars (s : State) : (State.hangClear s).bars = s.bars := rfl
@[simp] theorem hangClear_cnts (s : State) : (State.hangClear s).cnts = s.cnts := rfl
@[simp] theorem hangClear_latcap (s : State) : (State.hangClear s).latcap = s.latcap := rfl
@[simp] theorem hangClear_conf (s : State) : (State.hangClear s).conf = s.conf := rfl
@[simp] theorem hangClear_slots (s : State) : (State.hangClear s).slots = s.slots := rfl
@[simp] theorem hangClear_scx (s : State) : (State.hangClear s).scx = s.scx := rfl
@[simp] theorem hangClear_counts (s : State) : (State.hangClear s).counts = s.counts := rfl
@[simp] theorem hangClear_fetches (s : State) : (State.hangClear s).fetches = s.fetches := rfl
@[simp] theorem hangClear_tails (s : State) : (State.hangClear s).tails = s.tails := rfl
@[simp] theorem hangClear_tenants (s : State) : (State.hangClear s).tenants = s.tenants := rfl
@[simp] theorem hangClear_ing (s : State) : (State.hangClear s).ing = s.ing := rfl
@[simp] theorem hangClear_rows (s : State) : (State.hangClear s).rows = s.rows := rfl
@[simp] theorem hangClear_asm (s : State) : (State.hangClear s).asm = s.asm := rfl
@[simp] theorem hangClear_puns (s : State) : (State.hangClear s).puns = s.puns := rfl
@[simp] theorem hangClear_merges (s : State) : (State.hangClear s).merges = s.merges := rfl
@[simp] theorem hangClear_roots (s : State) : (State.hangClear s).roots = s.roots := rfl
@[simp] theorem hangClear_hcom (s : State) : (State.hangClear s).hcom = s.hcom := rfl
@[simp] theorem hangClear_rescore (s : State) : (State.hangClear s).rescore = s.rescore := rfl
@[simp] theorem hangClear_loader (s : State) : (State.hangClear s).loader = s.loader := rfl
@[simp] theorem hangClear_rsbuf (s : State) : (State.hangClear s).rsbuf = s.rsbuf := rfl
@[simp] theorem hangClear_eg (s : State) : (State.hangClear s).eg = s.eg := rfl
@[simp] theorem hangClear_faults (s : State) : (State.hangClear s).faults = s.faults := rfl
@[simp] theorem hangClear_wind (s : State) : (State.hangClear s).wind = s.wind := rfl
@[simp] theorem hangClear_rep (s : State) : (State.hangClear s).rep = s.rep := rfl
@[simp] theorem hangClear_lanes (s : State) : (State.hangClear s).lanes = s.lanes := rfl
@[simp] theorem hangClear_dbg (s : State) : (State.hangClear s).dbg = s.dbg := rfl
@[simp] theorem hangClear_pool (s : State) : (State.hangClear s).pool = s.pool := rfl
@[simp] theorem hangClear_outs (s : State) : (State.hangClear s).outs = s.outs := rfl

@[simp] theorem setTdr_pending (s : State) (sib v : Nat) : (State.setTdr s sib v).pending = s.pending := rfl
@[simp] theorem setTdr_free (s : State) (sib v : Nat) : (State.setTdr s sib v).free = s.free := rfl
@[simp] theorem setTdr_mem (s : State) (sib v : Nat) : (State.setTdr s sib v).mem = s.mem := rfl
@[simp] theorem setTdr_blk (s : State) (sib v : Nat) : (State.setTdr s sib v).blk = s.blk := rfl
@[simp] theorem setTdr_boot (s : State) (sib v : Nat) : (State.setTdr s sib v).boot = s.boot := rfl
@[simp] theorem setTdr_fwBase (s : State) (sib v : Nat) : (State.setTdr s sib v).fwBase = s.fwBase := rfl
@[simp] theorem setTdr_quar (s : State) (sib v : Nat) : (State.setTdr s sib v).quar = s.quar := rfl
@[simp] theorem setTdr_time (s : State) (sib v : Nat) : (State.setTdr s sib v).time = s.time := rfl
@[simp] theorem setTdr_pwr (s : State) (sib v : Nat) : (State.setTdr s sib v).pwr = s.pwr := rfl
@[simp] theorem setTdr_cpa (s : State) (sib v : Nat) : (State.setTdr s sib v).cpa = s.cpa := rfl
@[simp] theorem setTdr_cpb (s : State) (sib v : Nat) : (State.setTdr s sib v).cpb = s.cpb := rfl
@[simp] theorem setTdr_cmdId (s : State) (sib v : Nat) : (State.setTdr s sib v).cmdId = s.cmdId := rfl
@[simp] theorem setTdr_jobs (s : State) (sib v : Nat) : (State.setTdr s sib v).jobs = s.jobs := rfl
@[simp] theorem setTdr_sems (s : State) (sib v : Nat) : (State.setTdr s sib v).sems = s.sems := rfl
@[simp] theorem setTdr_ctrs (s : State) (sib v : Nat) : (State.setTdr s sib v).ctrs = s.ctrs := rfl
@[simp] theorem setTdr_bars (s : State) (sib v : Nat) : (State.setTdr s sib v).bars = s.bars := rfl
@[simp] theorem setTdr_cnts (s : State) (sib v : Nat) : (State.setTdr s sib v).cnts = s.cnts := rfl
@[simp] theorem setTdr_latcap (s : State) (sib v : Nat) : (State.setTdr s sib v).latcap = s.latcap := rfl
@[simp] theorem setTdr_conf (s : State) (sib v : Nat) : (State.setTdr s sib v).conf = s.conf := rfl
@[simp] theorem setTdr_slots (s : State) (sib v : Nat) : (State.setTdr s sib v).slots = s.slots := rfl
@[simp] theorem setTdr_scx (s : State) (sib v : Nat) : (State.setTdr s sib v).scx = s.scx := rfl
@[simp] theorem setTdr_counts (s : State) (sib v : Nat) : (State.setTdr s sib v).counts = s.counts := rfl
@[simp] theorem setTdr_fetches (s : State) (sib v : Nat) : (State.setTdr s sib v).fetches = s.fetches := rfl
@[simp] theorem setTdr_tails (s : State) (sib v : Nat) : (State.setTdr s sib v).tails = s.tails := rfl
@[simp] theorem setTdr_tenants (s : State) (sib v : Nat) : (State.setTdr s sib v).tenants = s.tenants := rfl
@[simp] theorem setTdr_ing (s : State) (sib v : Nat) : (State.setTdr s sib v).ing = s.ing := rfl
@[simp] theorem setTdr_rows (s : State) (sib v : Nat) : (State.setTdr s sib v).rows = s.rows := rfl
@[simp] theorem setTdr_asm (s : State) (sib v : Nat) : (State.setTdr s sib v).asm = s.asm := rfl
@[simp] theorem setTdr_puns (s : State) (sib v : Nat) : (State.setTdr s sib v).puns = s.puns := rfl
@[simp] theorem setTdr_merges (s : State) (sib v : Nat) : (State.setTdr s sib v).merges = s.merges := rfl
@[simp] theorem setTdr_roots (s : State) (sib v : Nat) : (State.setTdr s sib v).roots = s.roots := rfl
@[simp] theorem setTdr_hcom (s : State) (sib v : Nat) : (State.setTdr s sib v).hcom = s.hcom := rfl
@[simp] theorem setTdr_rescore (s : State) (sib v : Nat) : (State.setTdr s sib v).rescore = s.rescore := rfl
@[simp] theorem setTdr_loader (s : State) (sib v : Nat) : (State.setTdr s sib v).loader = s.loader := rfl
@[simp] theorem setTdr_rsbuf (s : State) (sib v : Nat) : (State.setTdr s sib v).rsbuf = s.rsbuf := rfl
@[simp] theorem setTdr_eg (s : State) (sib v : Nat) : (State.setTdr s sib v).eg = s.eg := rfl
@[simp] theorem setTdr_orch (s : State) (sib v : Nat) : (State.setTdr s sib v).orch = s.orch := rfl
@[simp] theorem setTdr_faults (s : State) (sib v : Nat) : (State.setTdr s sib v).faults = s.faults := rfl
@[simp] theorem setTdr_wind (s : State) (sib v : Nat) : (State.setTdr s sib v).wind = s.wind := rfl
@[simp] theorem setTdr_rep (s : State) (sib v : Nat) : (State.setTdr s sib v).rep = s.rep := rfl
@[simp] theorem setTdr_lanes (s : State) (sib v : Nat) : (State.setTdr s sib v).lanes = s.lanes := rfl
@[simp] theorem setTdr_pool (s : State) (sib v : Nat) : (State.setTdr s sib v).pool = s.pool := rfl
@[simp] theorem setTdr_outs (s : State) (sib v : Nat) : (State.setTdr s sib v).outs = s.outs := rfl

@[simp] theorem ownState_pending (s : State) (st : Nat) : (State.ownState s st).pending = s.pending := rfl
@[simp] theorem ownState_free (s : State) (st : Nat) : (State.ownState s st).free = s.free := rfl
@[simp] theorem ownState_mem (s : State) (st : Nat) : (State.ownState s st).mem = s.mem := rfl
@[simp] theorem ownState_blk (s : State) (st : Nat) : (State.ownState s st).blk = s.blk := rfl
@[simp] theorem ownState_boot (s : State) (st : Nat) : (State.ownState s st).boot = s.boot := rfl
@[simp] theorem ownState_fwBase (s : State) (st : Nat) : (State.ownState s st).fwBase = s.fwBase := rfl
@[simp] theorem ownState_quar (s : State) (st : Nat) : (State.ownState s st).quar = s.quar := rfl
@[simp] theorem ownState_time (s : State) (st : Nat) : (State.ownState s st).time = s.time := rfl
@[simp] theorem ownState_pwr (s : State) (st : Nat) : (State.ownState s st).pwr = s.pwr := rfl
@[simp] theorem ownState_cpa (s : State) (st : Nat) : (State.ownState s st).cpa = s.cpa := rfl
@[simp] theorem ownState_cpb (s : State) (st : Nat) : (State.ownState s st).cpb = s.cpb := rfl
@[simp] theorem ownState_cmdId (s : State) (st : Nat) : (State.ownState s st).cmdId = s.cmdId := rfl
@[simp] theorem ownState_jobs (s : State) (st : Nat) : (State.ownState s st).jobs = s.jobs := rfl
@[simp] theorem ownState_sems (s : State) (st : Nat) : (State.ownState s st).sems = s.sems := rfl
@[simp] theorem ownState_ctrs (s : State) (st : Nat) : (State.ownState s st).ctrs = s.ctrs := rfl
@[simp] theorem ownState_bars (s : State) (st : Nat) : (State.ownState s st).bars = s.bars := rfl
@[simp] theorem ownState_cnts (s : State) (st : Nat) : (State.ownState s st).cnts = s.cnts := rfl
@[simp] theorem ownState_latcap (s : State) (st : Nat) : (State.ownState s st).latcap = s.latcap := rfl
@[simp] theorem ownState_conf (s : State) (st : Nat) : (State.ownState s st).conf = s.conf := rfl
@[simp] theorem ownState_slots (s : State) (st : Nat) : (State.ownState s st).slots = s.slots := rfl
@[simp] theorem ownState_scx (s : State) (st : Nat) : (State.ownState s st).scx = s.scx := rfl
@[simp] theorem ownState_counts (s : State) (st : Nat) : (State.ownState s st).counts = s.counts := rfl
@[simp] theorem ownState_fetches (s : State) (st : Nat) : (State.ownState s st).fetches = s.fetches := rfl
@[simp] theorem ownState_tails (s : State) (st : Nat) : (State.ownState s st).tails = s.tails := rfl
@[simp] theorem ownState_tenants (s : State) (st : Nat) : (State.ownState s st).tenants = s.tenants := rfl
@[simp] theorem ownState_ing (s : State) (st : Nat) : (State.ownState s st).ing = s.ing := rfl
@[simp] theorem ownState_rows (s : State) (st : Nat) : (State.ownState s st).rows = s.rows := rfl
@[simp] theorem ownState_asm (s : State) (st : Nat) : (State.ownState s st).asm = s.asm := rfl
@[simp] theorem ownState_puns (s : State) (st : Nat) : (State.ownState s st).puns = s.puns := rfl
@[simp] theorem ownState_merges (s : State) (st : Nat) : (State.ownState s st).merges = s.merges := rfl
@[simp] theorem ownState_roots (s : State) (st : Nat) : (State.ownState s st).roots = s.roots := rfl
@[simp] theorem ownState_hcom (s : State) (st : Nat) : (State.ownState s st).hcom = s.hcom := rfl
@[simp] theorem ownState_rescore (s : State) (st : Nat) : (State.ownState s st).rescore = s.rescore := rfl
@[simp] theorem ownState_loader (s : State) (st : Nat) : (State.ownState s st).loader = s.loader := rfl
@[simp] theorem ownState_rsbuf (s : State) (st : Nat) : (State.ownState s st).rsbuf = s.rsbuf := rfl
@[simp] theorem ownState_eg (s : State) (st : Nat) : (State.ownState s st).eg = s.eg := rfl
@[simp] theorem ownState_faults (s : State) (st : Nat) : (State.ownState s st).faults = s.faults := rfl
@[simp] theorem ownState_wind (s : State) (st : Nat) : (State.ownState s st).wind = s.wind := rfl
@[simp] theorem ownState_rep (s : State) (st : Nat) : (State.ownState s st).rep = s.rep := rfl
@[simp] theorem ownState_lanes (s : State) (st : Nat) : (State.ownState s st).lanes = s.lanes := rfl
@[simp] theorem ownState_dbg (s : State) (st : Nat) : (State.ownState s st).dbg = s.dbg := rfl
@[simp] theorem ownState_pool (s : State) (st : Nat) : (State.ownState s st).pool = s.pool := rfl
@[simp] theorem ownState_outs (s : State) (st : Nat) : (State.ownState s st).outs = s.outs := rfl

@[simp] theorem updRow_pending (s : State) (num slot : Nat) (f : PRow → PRow) : (State.updRow s num slot f).pending = s.pending := rfl
@[simp] theorem updRow_free (s : State) (num slot : Nat) (f : PRow → PRow) : (State.updRow s num slot f).free = s.free := rfl
@[simp] theorem updRow_mem (s : State) (num slot : Nat) (f : PRow → PRow) : (State.updRow s num slot f).mem = s.mem := rfl
@[simp] theorem updRow_blk (s : State) (num slot : Nat) (f : PRow → PRow) : (State.updRow s num slot f).blk = s.blk := rfl
@[simp] theorem updRow_boot (s : State) (num slot : Nat) (f : PRow → PRow) : (State.updRow s num slot f).boot = s.boot := rfl
@[simp] theorem updRow_fwBase (s : State) (num slot : Nat) (f : PRow → PRow) : (State.updRow s num slot f).fwBase = s.fwBase := rfl
@[simp] theorem updRow_quar (s : State) (num slot : Nat) (f : PRow → PRow) : (State.updRow s num slot f).quar = s.quar := rfl
@[simp] theorem updRow_time (s : State) (num slot : Nat) (f : PRow → PRow) : (State.updRow s num slot f).time = s.time := rfl
@[simp] theorem updRow_pwr (s : State) (num slot : Nat) (f : PRow → PRow) : (State.updRow s num slot f).pwr = s.pwr := rfl
@[simp] theorem updRow_cpa (s : State) (num slot : Nat) (f : PRow → PRow) : (State.updRow s num slot f).cpa = s.cpa := rfl
@[simp] theorem updRow_cpb (s : State) (num slot : Nat) (f : PRow → PRow) : (State.updRow s num slot f).cpb = s.cpb := rfl
@[simp] theorem updRow_cmdId (s : State) (num slot : Nat) (f : PRow → PRow) : (State.updRow s num slot f).cmdId = s.cmdId := rfl
@[simp] theorem updRow_jobs (s : State) (num slot : Nat) (f : PRow → PRow) : (State.updRow s num slot f).jobs = s.jobs := rfl
@[simp] theorem updRow_sems (s : State) (num slot : Nat) (f : PRow → PRow) : (State.updRow s num slot f).sems = s.sems := rfl
@[simp] theorem updRow_ctrs (s : State) (num slot : Nat) (f : PRow → PRow) : (State.updRow s num slot f).ctrs = s.ctrs := rfl
@[simp] theorem updRow_bars (s : State) (num slot : Nat) (f : PRow → PRow) : (State.updRow s num slot f).bars = s.bars := rfl
@[simp] theorem updRow_cnts (s : State) (num slot : Nat) (f : PRow → PRow) : (State.updRow s num slot f).cnts = s.cnts := rfl
@[simp] theorem updRow_latcap (s : State) (num slot : Nat) (f : PRow → PRow) : (State.updRow s num slot f).latcap = s.latcap := rfl
@[simp] theorem updRow_conf (s : State) (num slot : Nat) (f : PRow → PRow) : (State.updRow s num slot f).conf = s.conf := rfl
@[simp] theorem updRow_slots (s : State) (num slot : Nat) (f : PRow → PRow) : (State.updRow s num slot f).slots = s.slots := rfl
@[simp] theorem updRow_scx (s : State) (num slot : Nat) (f : PRow → PRow) : (State.updRow s num slot f).scx = s.scx := rfl
@[simp] theorem updRow_counts (s : State) (num slot : Nat) (f : PRow → PRow) : (State.updRow s num slot f).counts = s.counts := rfl
@[simp] theorem updRow_fetches (s : State) (num slot : Nat) (f : PRow → PRow) : (State.updRow s num slot f).fetches = s.fetches := rfl
@[simp] theorem updRow_tails (s : State) (num slot : Nat) (f : PRow → PRow) : (State.updRow s num slot f).tails = s.tails := rfl
@[simp] theorem updRow_tenants (s : State) (num slot : Nat) (f : PRow → PRow) : (State.updRow s num slot f).tenants = s.tenants := rfl
@[simp] theorem updRow_ing (s : State) (num slot : Nat) (f : PRow → PRow) : (State.updRow s num slot f).ing = s.ing := rfl
@[simp] theorem updRow_rows (s : State) (num slot : Nat) (f : PRow → PRow) : (State.updRow s num slot f).rows = s.rows := rfl
@[simp] theorem updRow_asm (s : State) (num slot : Nat) (f : PRow → PRow) : (State.updRow s num slot f).asm = s.asm := rfl
@[simp] theorem updRow_merges (s : State) (num slot : Nat) (f : PRow → PRow) : (State.updRow s num slot f).merges = s.merges := rfl
@[simp] theorem updRow_roots (s : State) (num slot : Nat) (f : PRow → PRow) : (State.updRow s num slot f).roots = s.roots := rfl
@[simp] theorem updRow_hcom (s : State) (num slot : Nat) (f : PRow → PRow) : (State.updRow s num slot f).hcom = s.hcom := rfl
@[simp] theorem updRow_rescore (s : State) (num slot : Nat) (f : PRow → PRow) : (State.updRow s num slot f).rescore = s.rescore := rfl
@[simp] theorem updRow_loader (s : State) (num slot : Nat) (f : PRow → PRow) : (State.updRow s num slot f).loader = s.loader := rfl
@[simp] theorem updRow_rsbuf (s : State) (num slot : Nat) (f : PRow → PRow) : (State.updRow s num slot f).rsbuf = s.rsbuf := rfl
@[simp] theorem updRow_eg (s : State) (num slot : Nat) (f : PRow → PRow) : (State.updRow s num slot f).eg = s.eg := rfl
@[simp] theorem updRow_orch (s : State) (num slot : Nat) (f : PRow → PRow) : (State.updRow s num slot f).orch = s.orch := rfl
@[simp] theorem updRow_faults (s : State) (num slot : Nat) (f : PRow → PRow) : (State.updRow s num slot f).faults = s.faults := rfl
@[simp] theorem updRow_wind (s : State) (num slot : Nat) (f : PRow → PRow) : (State.updRow s num slot f).wind = s.wind := rfl
@[simp] theorem updRow_rep (s : State) (num slot : Nat) (f : PRow → PRow) : (State.updRow s num slot f).rep = s.rep := rfl
@[simp] theorem updRow_lanes (s : State) (num slot : Nat) (f : PRow → PRow) : (State.updRow s num slot f).lanes = s.lanes := rfl
@[simp] theorem updRow_dbg (s : State) (num slot : Nat) (f : PRow → PRow) : (State.updRow s num slot f).dbg = s.dbg := rfl
@[simp] theorem updRow_pool (s : State) (num slot : Nat) (f : PRow → PRow) : (State.updRow s num slot f).pool = s.pool := rfl
@[simp] theorem updRow_outs (s : State) (num slot : Nat) (f : PRow → PRow) : (State.updRow s num slot f).outs = s.outs := rfl

@[simp] theorem updPun_pending (s : State) (num : Nat) (f : Punnet → Punnet) : (State.updPun s num f).pending = s.pending := rfl
@[simp] theorem updPun_free (s : State) (num : Nat) (f : Punnet → Punnet) : (State.updPun s num f).free = s.free := rfl
@[simp] theorem updPun_mem (s : State) (num : Nat) (f : Punnet → Punnet) : (State.updPun s num f).mem = s.mem := rfl
@[simp] theorem updPun_blk (s : State) (num : Nat) (f : Punnet → Punnet) : (State.updPun s num f).blk = s.blk := rfl
@[simp] theorem updPun_boot (s : State) (num : Nat) (f : Punnet → Punnet) : (State.updPun s num f).boot = s.boot := rfl
@[simp] theorem updPun_fwBase (s : State) (num : Nat) (f : Punnet → Punnet) : (State.updPun s num f).fwBase = s.fwBase := rfl
@[simp] theorem updPun_quar (s : State) (num : Nat) (f : Punnet → Punnet) : (State.updPun s num f).quar = s.quar := rfl
@[simp] theorem updPun_time (s : State) (num : Nat) (f : Punnet → Punnet) : (State.updPun s num f).time = s.time := rfl
@[simp] theorem updPun_pwr (s : State) (num : Nat) (f : Punnet → Punnet) : (State.updPun s num f).pwr = s.pwr := rfl
@[simp] theorem updPun_cpa (s : State) (num : Nat) (f : Punnet → Punnet) : (State.updPun s num f).cpa = s.cpa := rfl
@[simp] theorem updPun_cpb (s : State) (num : Nat) (f : Punnet → Punnet) : (State.updPun s num f).cpb = s.cpb := rfl
@[simp] theorem updPun_cmdId (s : State) (num : Nat) (f : Punnet → Punnet) : (State.updPun s num f).cmdId = s.cmdId := rfl
@[simp] theorem updPun_jobs (s : State) (num : Nat) (f : Punnet → Punnet) : (State.updPun s num f).jobs = s.jobs := rfl
@[simp] theorem updPun_sems (s : State) (num : Nat) (f : Punnet → Punnet) : (State.updPun s num f).sems = s.sems := rfl
@[simp] theorem updPun_ctrs (s : State) (num : Nat) (f : Punnet → Punnet) : (State.updPun s num f).ctrs = s.ctrs := rfl
@[simp] theorem updPun_bars (s : State) (num : Nat) (f : Punnet → Punnet) : (State.updPun s num f).bars = s.bars := rfl
@[simp] theorem updPun_cnts (s : State) (num : Nat) (f : Punnet → Punnet) : (State.updPun s num f).cnts = s.cnts := rfl
@[simp] theorem updPun_latcap (s : State) (num : Nat) (f : Punnet → Punnet) : (State.updPun s num f).latcap = s.latcap := rfl
@[simp] theorem updPun_conf (s : State) (num : Nat) (f : Punnet → Punnet) : (State.updPun s num f).conf = s.conf := rfl
@[simp] theorem updPun_slots (s : State) (num : Nat) (f : Punnet → Punnet) : (State.updPun s num f).slots = s.slots := rfl
@[simp] theorem updPun_scx (s : State) (num : Nat) (f : Punnet → Punnet) : (State.updPun s num f).scx = s.scx := rfl
@[simp] theorem updPun_counts (s : State) (num : Nat) (f : Punnet → Punnet) : (State.updPun s num f).counts = s.counts := rfl
@[simp] theorem updPun_fetches (s : State) (num : Nat) (f : Punnet → Punnet) : (State.updPun s num f).fetches = s.fetches := rfl
@[simp] theorem updPun_tails (s : State) (num : Nat) (f : Punnet → Punnet) : (State.updPun s num f).tails = s.tails := rfl
@[simp] theorem updPun_tenants (s : State) (num : Nat) (f : Punnet → Punnet) : (State.updPun s num f).tenants = s.tenants := rfl
@[simp] theorem updPun_ing (s : State) (num : Nat) (f : Punnet → Punnet) : (State.updPun s num f).ing = s.ing := rfl
@[simp] theorem updPun_rows (s : State) (num : Nat) (f : Punnet → Punnet) : (State.updPun s num f).rows = s.rows := rfl
@[simp] theorem updPun_asm (s : State) (num : Nat) (f : Punnet → Punnet) : (State.updPun s num f).asm = s.asm := rfl
@[simp] theorem updPun_merges (s : State) (num : Nat) (f : Punnet → Punnet) : (State.updPun s num f).merges = s.merges := rfl
@[simp] theorem updPun_roots (s : State) (num : Nat) (f : Punnet → Punnet) : (State.updPun s num f).roots = s.roots := rfl
@[simp] theorem updPun_hcom (s : State) (num : Nat) (f : Punnet → Punnet) : (State.updPun s num f).hcom = s.hcom := rfl
@[simp] theorem updPun_rescore (s : State) (num : Nat) (f : Punnet → Punnet) : (State.updPun s num f).rescore = s.rescore := rfl
@[simp] theorem updPun_loader (s : State) (num : Nat) (f : Punnet → Punnet) : (State.updPun s num f).loader = s.loader := rfl
@[simp] theorem updPun_rsbuf (s : State) (num : Nat) (f : Punnet → Punnet) : (State.updPun s num f).rsbuf = s.rsbuf := rfl
@[simp] theorem updPun_eg (s : State) (num : Nat) (f : Punnet → Punnet) : (State.updPun s num f).eg = s.eg := rfl
@[simp] theorem updPun_orch (s : State) (num : Nat) (f : Punnet → Punnet) : (State.updPun s num f).orch = s.orch := rfl
@[simp] theorem updPun_faults (s : State) (num : Nat) (f : Punnet → Punnet) : (State.updPun s num f).faults = s.faults := rfl
@[simp] theorem updPun_wind (s : State) (num : Nat) (f : Punnet → Punnet) : (State.updPun s num f).wind = s.wind := rfl
@[simp] theorem updPun_rep (s : State) (num : Nat) (f : Punnet → Punnet) : (State.updPun s num f).rep = s.rep := rfl
@[simp] theorem updPun_lanes (s : State) (num : Nat) (f : Punnet → Punnet) : (State.updPun s num f).lanes = s.lanes := rfl
@[simp] theorem updPun_dbg (s : State) (num : Nat) (f : Punnet → Punnet) : (State.updPun s num f).dbg = s.dbg := rfl
@[simp] theorem updPun_pool (s : State) (num : Nat) (f : Punnet → Punnet) : (State.updPun s num f).pool = s.pool := rfl
@[simp] theorem updPun_outs (s : State) (num : Nat) (f : Punnet → Punnet) : (State.updPun s num f).outs = s.outs := rfl

@[simp] theorem reserveAgain_pending (s : State) : (State.reserveAgain s).pending = s.pending := rfl
@[simp] theorem reserveAgain_free (s : State) : (State.reserveAgain s).free = s.free := rfl
@[simp] theorem reserveAgain_mem (s : State) : (State.reserveAgain s).mem = s.mem := rfl
@[simp] theorem reserveAgain_blk (s : State) : (State.reserveAgain s).blk = s.blk := rfl
@[simp] theorem reserveAgain_boot (s : State) : (State.reserveAgain s).boot = s.boot := rfl
@[simp] theorem reserveAgain_fwBase (s : State) : (State.reserveAgain s).fwBase = s.fwBase := rfl
@[simp] theorem reserveAgain_quar (s : State) : (State.reserveAgain s).quar = s.quar := rfl
@[simp] theorem reserveAgain_time (s : State) : (State.reserveAgain s).time = s.time := rfl
@[simp] theorem reserveAgain_pwr (s : State) : (State.reserveAgain s).pwr = s.pwr := rfl
@[simp] theorem reserveAgain_cpa (s : State) : (State.reserveAgain s).cpa = s.cpa := rfl
@[simp] theorem reserveAgain_cpb (s : State) : (State.reserveAgain s).cpb = s.cpb := rfl
@[simp] theorem reserveAgain_cmdId (s : State) : (State.reserveAgain s).cmdId = s.cmdId := rfl
@[simp] theorem reserveAgain_jobs (s : State) : (State.reserveAgain s).jobs = s.jobs := rfl
@[simp] theorem reserveAgain_sems (s : State) : (State.reserveAgain s).sems = s.sems := rfl
@[simp] theorem reserveAgain_ctrs (s : State) : (State.reserveAgain s).ctrs = s.ctrs := rfl
@[simp] theorem reserveAgain_bars (s : State) : (State.reserveAgain s).bars = s.bars := rfl
@[simp] theorem reserveAgain_cnts (s : State) : (State.reserveAgain s).cnts = s.cnts := rfl
@[simp] theorem reserveAgain_latcap (s : State) : (State.reserveAgain s).latcap = s.latcap := rfl
@[simp] theorem reserveAgain_conf (s : State) : (State.reserveAgain s).conf = s.conf := rfl
@[simp] theorem reserveAgain_slots (s : State) : (State.reserveAgain s).slots = s.slots := rfl
@[simp] theorem reserveAgain_scx (s : State) : (State.reserveAgain s).scx = s.scx := rfl
@[simp] theorem reserveAgain_counts (s : State) : (State.reserveAgain s).counts = s.counts := rfl
@[simp] theorem reserveAgain_fetches (s : State) : (State.reserveAgain s).fetches = s.fetches := rfl
@[simp] theorem reserveAgain_tails (s : State) : (State.reserveAgain s).tails = s.tails := rfl
@[simp] theorem reserveAgain_tenants (s : State) : (State.reserveAgain s).tenants = s.tenants := rfl
@[simp] theorem reserveAgain_ing (s : State) : (State.reserveAgain s).ing = s.ing := rfl
@[simp] theorem reserveAgain_asm (s : State) : (State.reserveAgain s).asm = s.asm := rfl
@[simp] theorem reserveAgain_puns (s : State) : (State.reserveAgain s).puns = s.puns := rfl
@[simp] theorem reserveAgain_merges (s : State) : (State.reserveAgain s).merges = s.merges := rfl
@[simp] theorem reserveAgain_roots (s : State) : (State.reserveAgain s).roots = s.roots := rfl
@[simp] theorem reserveAgain_hcom (s : State) : (State.reserveAgain s).hcom = s.hcom := rfl
@[simp] theorem reserveAgain_rescore (s : State) : (State.reserveAgain s).rescore = s.rescore := rfl
@[simp] theorem reserveAgain_loader (s : State) : (State.reserveAgain s).loader = s.loader := rfl
@[simp] theorem reserveAgain_rsbuf (s : State) : (State.reserveAgain s).rsbuf = s.rsbuf := rfl
@[simp] theorem reserveAgain_eg (s : State) : (State.reserveAgain s).eg = s.eg := rfl
@[simp] theorem reserveAgain_orch (s : State) : (State.reserveAgain s).orch = s.orch := rfl
@[simp] theorem reserveAgain_faults (s : State) : (State.reserveAgain s).faults = s.faults := rfl
@[simp] theorem reserveAgain_wind (s : State) : (State.reserveAgain s).wind = s.wind := rfl
@[simp] theorem reserveAgain_rep (s : State) : (State.reserveAgain s).rep = s.rep := rfl
@[simp] theorem reserveAgain_lanes (s : State) : (State.reserveAgain s).lanes = s.lanes := rfl
@[simp] theorem reserveAgain_dbg (s : State) : (State.reserveAgain s).dbg = s.dbg := rfl
@[simp] theorem reserveAgain_pool (s : State) : (State.reserveAgain s).pool = s.pool := rfl
@[simp] theorem reserveAgain_outs (s : State) : (State.reserveAgain s).outs = s.outs := rfl

@[simp] theorem settleRow_pending (s : State) (r : Row) (charged : Bool) : (State.settleRow s r charged).pending = s.pending := rfl
@[simp] theorem settleRow_free (s : State) (r : Row) (charged : Bool) : (State.settleRow s r charged).free = s.free := rfl
@[simp] theorem settleRow_mem (s : State) (r : Row) (charged : Bool) : (State.settleRow s r charged).mem = s.mem := rfl
@[simp] theorem settleRow_blk (s : State) (r : Row) (charged : Bool) : (State.settleRow s r charged).blk = s.blk := rfl
@[simp] theorem settleRow_boot (s : State) (r : Row) (charged : Bool) : (State.settleRow s r charged).boot = s.boot := rfl
@[simp] theorem settleRow_fwBase (s : State) (r : Row) (charged : Bool) : (State.settleRow s r charged).fwBase = s.fwBase := rfl
@[simp] theorem settleRow_quar (s : State) (r : Row) (charged : Bool) : (State.settleRow s r charged).quar = s.quar := rfl
@[simp] theorem settleRow_time (s : State) (r : Row) (charged : Bool) : (State.settleRow s r charged).time = s.time := rfl
@[simp] theorem settleRow_pwr (s : State) (r : Row) (charged : Bool) : (State.settleRow s r charged).pwr = s.pwr := rfl
@[simp] theorem settleRow_cpa (s : State) (r : Row) (charged : Bool) : (State.settleRow s r charged).cpa = s.cpa := rfl
@[simp] theorem settleRow_cpb (s : State) (r : Row) (charged : Bool) : (State.settleRow s r charged).cpb = s.cpb := rfl
@[simp] theorem settleRow_cmdId (s : State) (r : Row) (charged : Bool) : (State.settleRow s r charged).cmdId = s.cmdId := rfl
@[simp] theorem settleRow_jobs (s : State) (r : Row) (charged : Bool) : (State.settleRow s r charged).jobs = s.jobs := rfl
@[simp] theorem settleRow_sems (s : State) (r : Row) (charged : Bool) : (State.settleRow s r charged).sems = s.sems := rfl
@[simp] theorem settleRow_ctrs (s : State) (r : Row) (charged : Bool) : (State.settleRow s r charged).ctrs = s.ctrs := rfl
@[simp] theorem settleRow_bars (s : State) (r : Row) (charged : Bool) : (State.settleRow s r charged).bars = s.bars := rfl
@[simp] theorem settleRow_cnts (s : State) (r : Row) (charged : Bool) : (State.settleRow s r charged).cnts = s.cnts := rfl
@[simp] theorem settleRow_latcap (s : State) (r : Row) (charged : Bool) : (State.settleRow s r charged).latcap = s.latcap := rfl
@[simp] theorem settleRow_conf (s : State) (r : Row) (charged : Bool) : (State.settleRow s r charged).conf = s.conf := rfl
@[simp] theorem settleRow_slots (s : State) (r : Row) (charged : Bool) : (State.settleRow s r charged).slots = s.slots := rfl
@[simp] theorem settleRow_scx (s : State) (r : Row) (charged : Bool) : (State.settleRow s r charged).scx = s.scx := rfl
@[simp] theorem settleRow_counts (s : State) (r : Row) (charged : Bool) : (State.settleRow s r charged).counts = s.counts := rfl
@[simp] theorem settleRow_fetches (s : State) (r : Row) (charged : Bool) : (State.settleRow s r charged).fetches = s.fetches := rfl
@[simp] theorem settleRow_tails (s : State) (r : Row) (charged : Bool) : (State.settleRow s r charged).tails = s.tails := rfl
@[simp] theorem settleRow_tenants (s : State) (r : Row) (charged : Bool) : (State.settleRow s r charged).tenants = s.tenants := rfl
@[simp] theorem settleRow_ing (s : State) (r : Row) (charged : Bool) : (State.settleRow s r charged).ing = s.ing := rfl
@[simp] theorem settleRow_asm (s : State) (r : Row) (charged : Bool) : (State.settleRow s r charged).asm = s.asm := rfl
@[simp] theorem settleRow_puns (s : State) (r : Row) (charged : Bool) : (State.settleRow s r charged).puns = s.puns := rfl
@[simp] theorem settleRow_merges (s : State) (r : Row) (charged : Bool) : (State.settleRow s r charged).merges = s.merges := rfl
@[simp] theorem settleRow_roots (s : State) (r : Row) (charged : Bool) : (State.settleRow s r charged).roots = s.roots := rfl
@[simp] theorem settleRow_hcom (s : State) (r : Row) (charged : Bool) : (State.settleRow s r charged).hcom = s.hcom := rfl
@[simp] theorem settleRow_rescore (s : State) (r : Row) (charged : Bool) : (State.settleRow s r charged).rescore = s.rescore := rfl
@[simp] theorem settleRow_loader (s : State) (r : Row) (charged : Bool) : (State.settleRow s r charged).loader = s.loader := rfl
@[simp] theorem settleRow_rsbuf (s : State) (r : Row) (charged : Bool) : (State.settleRow s r charged).rsbuf = s.rsbuf := rfl
@[simp] theorem settleRow_eg (s : State) (r : Row) (charged : Bool) : (State.settleRow s r charged).eg = s.eg := rfl
@[simp] theorem settleRow_orch (s : State) (r : Row) (charged : Bool) : (State.settleRow s r charged).orch = s.orch := rfl
@[simp] theorem settleRow_faults (s : State) (r : Row) (charged : Bool) : (State.settleRow s r charged).faults = s.faults := rfl
@[simp] theorem settleRow_wind (s : State) (r : Row) (charged : Bool) : (State.settleRow s r charged).wind = s.wind := rfl
@[simp] theorem settleRow_rep (s : State) (r : Row) (charged : Bool) : (State.settleRow s r charged).rep = s.rep := rfl
@[simp] theorem settleRow_lanes (s : State) (r : Row) (charged : Bool) : (State.settleRow s r charged).lanes = s.lanes := rfl
@[simp] theorem settleRow_dbg (s : State) (r : Row) (charged : Bool) : (State.settleRow s r charged).dbg = s.dbg := rfl
@[simp] theorem settleRow_pool (s : State) (r : Row) (charged : Bool) : (State.settleRow s r charged).pool = s.pool := rfl
@[simp] theorem settleRow_outs (s : State) (r : Row) (charged : Bool) : (State.settleRow s r charged).outs = s.outs := rfl

@[simp] theorem exitRepeat_pending (s : State) (k : RowKey) : (State.exitRepeat s k).pending = s.pending := rfl
@[simp] theorem exitRepeat_free (s : State) (k : RowKey) : (State.exitRepeat s k).free = s.free := rfl
@[simp] theorem exitRepeat_mem (s : State) (k : RowKey) : (State.exitRepeat s k).mem = s.mem := rfl
@[simp] theorem exitRepeat_blk (s : State) (k : RowKey) : (State.exitRepeat s k).blk = s.blk := rfl
@[simp] theorem exitRepeat_boot (s : State) (k : RowKey) : (State.exitRepeat s k).boot = s.boot := rfl
@[simp] theorem exitRepeat_fwBase (s : State) (k : RowKey) : (State.exitRepeat s k).fwBase = s.fwBase := rfl
@[simp] theorem exitRepeat_quar (s : State) (k : RowKey) : (State.exitRepeat s k).quar = s.quar := rfl
@[simp] theorem exitRepeat_time (s : State) (k : RowKey) : (State.exitRepeat s k).time = s.time := rfl
@[simp] theorem exitRepeat_pwr (s : State) (k : RowKey) : (State.exitRepeat s k).pwr = s.pwr := rfl
@[simp] theorem exitRepeat_cpa (s : State) (k : RowKey) : (State.exitRepeat s k).cpa = s.cpa := rfl
@[simp] theorem exitRepeat_cpb (s : State) (k : RowKey) : (State.exitRepeat s k).cpb = s.cpb := rfl
@[simp] theorem exitRepeat_cmdId (s : State) (k : RowKey) : (State.exitRepeat s k).cmdId = s.cmdId := rfl
@[simp] theorem exitRepeat_jobs (s : State) (k : RowKey) : (State.exitRepeat s k).jobs = s.jobs := rfl
@[simp] theorem exitRepeat_sems (s : State) (k : RowKey) : (State.exitRepeat s k).sems = s.sems := rfl
@[simp] theorem exitRepeat_ctrs (s : State) (k : RowKey) : (State.exitRepeat s k).ctrs = s.ctrs := rfl
@[simp] theorem exitRepeat_bars (s : State) (k : RowKey) : (State.exitRepeat s k).bars = s.bars := rfl
@[simp] theorem exitRepeat_cnts (s : State) (k : RowKey) : (State.exitRepeat s k).cnts = s.cnts := rfl
@[simp] theorem exitRepeat_latcap (s : State) (k : RowKey) : (State.exitRepeat s k).latcap = s.latcap := rfl
@[simp] theorem exitRepeat_conf (s : State) (k : RowKey) : (State.exitRepeat s k).conf = s.conf := rfl
@[simp] theorem exitRepeat_slots (s : State) (k : RowKey) : (State.exitRepeat s k).slots = s.slots := rfl
@[simp] theorem exitRepeat_scx (s : State) (k : RowKey) : (State.exitRepeat s k).scx = s.scx := rfl
@[simp] theorem exitRepeat_counts (s : State) (k : RowKey) : (State.exitRepeat s k).counts = s.counts := rfl
@[simp] theorem exitRepeat_fetches (s : State) (k : RowKey) : (State.exitRepeat s k).fetches = s.fetches := rfl
@[simp] theorem exitRepeat_tails (s : State) (k : RowKey) : (State.exitRepeat s k).tails = s.tails := rfl
@[simp] theorem exitRepeat_tenants (s : State) (k : RowKey) : (State.exitRepeat s k).tenants = s.tenants := rfl
@[simp] theorem exitRepeat_ing (s : State) (k : RowKey) : (State.exitRepeat s k).ing = s.ing := rfl
@[simp] theorem exitRepeat_rows (s : State) (k : RowKey) : (State.exitRepeat s k).rows = s.rows := rfl
@[simp] theorem exitRepeat_asm (s : State) (k : RowKey) : (State.exitRepeat s k).asm = s.asm := rfl
@[simp] theorem exitRepeat_merges (s : State) (k : RowKey) : (State.exitRepeat s k).merges = s.merges := rfl
@[simp] theorem exitRepeat_roots (s : State) (k : RowKey) : (State.exitRepeat s k).roots = s.roots := rfl
@[simp] theorem exitRepeat_hcom (s : State) (k : RowKey) : (State.exitRepeat s k).hcom = s.hcom := rfl
@[simp] theorem exitRepeat_rescore (s : State) (k : RowKey) : (State.exitRepeat s k).rescore = s.rescore := rfl
@[simp] theorem exitRepeat_loader (s : State) (k : RowKey) : (State.exitRepeat s k).loader = s.loader := rfl
@[simp] theorem exitRepeat_rsbuf (s : State) (k : RowKey) : (State.exitRepeat s k).rsbuf = s.rsbuf := rfl
@[simp] theorem exitRepeat_eg (s : State) (k : RowKey) : (State.exitRepeat s k).eg = s.eg := rfl
@[simp] theorem exitRepeat_orch (s : State) (k : RowKey) : (State.exitRepeat s k).orch = s.orch := rfl
@[simp] theorem exitRepeat_faults (s : State) (k : RowKey) : (State.exitRepeat s k).faults = s.faults := rfl
@[simp] theorem exitRepeat_wind (s : State) (k : RowKey) : (State.exitRepeat s k).wind = s.wind := rfl
@[simp] theorem exitRepeat_rep (s : State) (k : RowKey) : (State.exitRepeat s k).rep = s.rep := rfl
@[simp] theorem exitRepeat_lanes (s : State) (k : RowKey) : (State.exitRepeat s k).lanes = s.lanes := rfl
@[simp] theorem exitRepeat_dbg (s : State) (k : RowKey) : (State.exitRepeat s k).dbg = s.dbg := rfl
@[simp] theorem exitRepeat_pool (s : State) (k : RowKey) : (State.exitRepeat s k).pool = s.pool := rfl
@[simp] theorem exitRepeat_outs (s : State) (k : RowKey) : (State.exitRepeat s k).outs = s.outs := rfl

@[simp] theorem updRoot_pending (s : State) (num slot : Nat) (f : RootRow → RootRow) : (State.updRoot s num slot f).pending = s.pending := rfl
@[simp] theorem updRoot_free (s : State) (num slot : Nat) (f : RootRow → RootRow) : (State.updRoot s num slot f).free = s.free := rfl
@[simp] theorem updRoot_mem (s : State) (num slot : Nat) (f : RootRow → RootRow) : (State.updRoot s num slot f).mem = s.mem := rfl
@[simp] theorem updRoot_blk (s : State) (num slot : Nat) (f : RootRow → RootRow) : (State.updRoot s num slot f).blk = s.blk := rfl
@[simp] theorem updRoot_boot (s : State) (num slot : Nat) (f : RootRow → RootRow) : (State.updRoot s num slot f).boot = s.boot := rfl
@[simp] theorem updRoot_fwBase (s : State) (num slot : Nat) (f : RootRow → RootRow) : (State.updRoot s num slot f).fwBase = s.fwBase := rfl
@[simp] theorem updRoot_quar (s : State) (num slot : Nat) (f : RootRow → RootRow) : (State.updRoot s num slot f).quar = s.quar := rfl
@[simp] theorem updRoot_time (s : State) (num slot : Nat) (f : RootRow → RootRow) : (State.updRoot s num slot f).time = s.time := rfl
@[simp] theorem updRoot_pwr (s : State) (num slot : Nat) (f : RootRow → RootRow) : (State.updRoot s num slot f).pwr = s.pwr := rfl
@[simp] theorem updRoot_cpa (s : State) (num slot : Nat) (f : RootRow → RootRow) : (State.updRoot s num slot f).cpa = s.cpa := rfl
@[simp] theorem updRoot_cpb (s : State) (num slot : Nat) (f : RootRow → RootRow) : (State.updRoot s num slot f).cpb = s.cpb := rfl
@[simp] theorem updRoot_cmdId (s : State) (num slot : Nat) (f : RootRow → RootRow) : (State.updRoot s num slot f).cmdId = s.cmdId := rfl
@[simp] theorem updRoot_jobs (s : State) (num slot : Nat) (f : RootRow → RootRow) : (State.updRoot s num slot f).jobs = s.jobs := rfl
@[simp] theorem updRoot_sems (s : State) (num slot : Nat) (f : RootRow → RootRow) : (State.updRoot s num slot f).sems = s.sems := rfl
@[simp] theorem updRoot_ctrs (s : State) (num slot : Nat) (f : RootRow → RootRow) : (State.updRoot s num slot f).ctrs = s.ctrs := rfl
@[simp] theorem updRoot_bars (s : State) (num slot : Nat) (f : RootRow → RootRow) : (State.updRoot s num slot f).bars = s.bars := rfl
@[simp] theorem updRoot_cnts (s : State) (num slot : Nat) (f : RootRow → RootRow) : (State.updRoot s num slot f).cnts = s.cnts := rfl
@[simp] theorem updRoot_latcap (s : State) (num slot : Nat) (f : RootRow → RootRow) : (State.updRoot s num slot f).latcap = s.latcap := rfl
@[simp] theorem updRoot_conf (s : State) (num slot : Nat) (f : RootRow → RootRow) : (State.updRoot s num slot f).conf = s.conf := rfl
@[simp] theorem updRoot_slots (s : State) (num slot : Nat) (f : RootRow → RootRow) : (State.updRoot s num slot f).slots = s.slots := rfl
@[simp] theorem updRoot_scx (s : State) (num slot : Nat) (f : RootRow → RootRow) : (State.updRoot s num slot f).scx = s.scx := rfl
@[simp] theorem updRoot_counts (s : State) (num slot : Nat) (f : RootRow → RootRow) : (State.updRoot s num slot f).counts = s.counts := rfl
@[simp] theorem updRoot_fetches (s : State) (num slot : Nat) (f : RootRow → RootRow) : (State.updRoot s num slot f).fetches = s.fetches := rfl
@[simp] theorem updRoot_tails (s : State) (num slot : Nat) (f : RootRow → RootRow) : (State.updRoot s num slot f).tails = s.tails := rfl
@[simp] theorem updRoot_tenants (s : State) (num slot : Nat) (f : RootRow → RootRow) : (State.updRoot s num slot f).tenants = s.tenants := rfl
@[simp] theorem updRoot_ing (s : State) (num slot : Nat) (f : RootRow → RootRow) : (State.updRoot s num slot f).ing = s.ing := rfl
@[simp] theorem updRoot_rows (s : State) (num slot : Nat) (f : RootRow → RootRow) : (State.updRoot s num slot f).rows = s.rows := rfl
@[simp] theorem updRoot_asm (s : State) (num slot : Nat) (f : RootRow → RootRow) : (State.updRoot s num slot f).asm = s.asm := rfl
@[simp] theorem updRoot_puns (s : State) (num slot : Nat) (f : RootRow → RootRow) : (State.updRoot s num slot f).puns = s.puns := rfl
@[simp] theorem updRoot_merges (s : State) (num slot : Nat) (f : RootRow → RootRow) : (State.updRoot s num slot f).merges = s.merges := rfl
@[simp] theorem updRoot_hcom (s : State) (num slot : Nat) (f : RootRow → RootRow) : (State.updRoot s num slot f).hcom = s.hcom := rfl
@[simp] theorem updRoot_rescore (s : State) (num slot : Nat) (f : RootRow → RootRow) : (State.updRoot s num slot f).rescore = s.rescore := rfl
@[simp] theorem updRoot_loader (s : State) (num slot : Nat) (f : RootRow → RootRow) : (State.updRoot s num slot f).loader = s.loader := rfl
@[simp] theorem updRoot_rsbuf (s : State) (num slot : Nat) (f : RootRow → RootRow) : (State.updRoot s num slot f).rsbuf = s.rsbuf := rfl
@[simp] theorem updRoot_eg (s : State) (num slot : Nat) (f : RootRow → RootRow) : (State.updRoot s num slot f).eg = s.eg := rfl
@[simp] theorem updRoot_orch (s : State) (num slot : Nat) (f : RootRow → RootRow) : (State.updRoot s num slot f).orch = s.orch := rfl
@[simp] theorem updRoot_faults (s : State) (num slot : Nat) (f : RootRow → RootRow) : (State.updRoot s num slot f).faults = s.faults := rfl
@[simp] theorem updRoot_wind (s : State) (num slot : Nat) (f : RootRow → RootRow) : (State.updRoot s num slot f).wind = s.wind := rfl
@[simp] theorem updRoot_rep (s : State) (num slot : Nat) (f : RootRow → RootRow) : (State.updRoot s num slot f).rep = s.rep := rfl
@[simp] theorem updRoot_lanes (s : State) (num slot : Nat) (f : RootRow → RootRow) : (State.updRoot s num slot f).lanes = s.lanes := rfl
@[simp] theorem updRoot_dbg (s : State) (num slot : Nat) (f : RootRow → RootRow) : (State.updRoot s num slot f).dbg = s.dbg := rfl
@[simp] theorem updRoot_pool (s : State) (num slot : Nat) (f : RootRow → RootRow) : (State.updRoot s num slot f).pool = s.pool := rfl
@[simp] theorem updRoot_outs (s : State) (num slot : Nat) (f : RootRow → RootRow) : (State.updRoot s num slot f).outs = s.outs := rfl

@[simp] theorem queueRsq_pending (s : State) (h : Hdr) (b : RsqB) : (State.queueRsq s h b).pending = s.pending := rfl
@[simp] theorem queueRsq_free (s : State) (h : Hdr) (b : RsqB) : (State.queueRsq s h b).free = s.free := rfl
@[simp] theorem queueRsq_mem (s : State) (h : Hdr) (b : RsqB) : (State.queueRsq s h b).mem = s.mem := rfl
@[simp] theorem queueRsq_blk (s : State) (h : Hdr) (b : RsqB) : (State.queueRsq s h b).blk = s.blk := rfl
@[simp] theorem queueRsq_boot (s : State) (h : Hdr) (b : RsqB) : (State.queueRsq s h b).boot = s.boot := rfl
@[simp] theorem queueRsq_fwBase (s : State) (h : Hdr) (b : RsqB) : (State.queueRsq s h b).fwBase = s.fwBase := rfl
@[simp] theorem queueRsq_quar (s : State) (h : Hdr) (b : RsqB) : (State.queueRsq s h b).quar = s.quar := rfl
@[simp] theorem queueRsq_time (s : State) (h : Hdr) (b : RsqB) : (State.queueRsq s h b).time = s.time := rfl
@[simp] theorem queueRsq_pwr (s : State) (h : Hdr) (b : RsqB) : (State.queueRsq s h b).pwr = s.pwr := rfl
@[simp] theorem queueRsq_cpa (s : State) (h : Hdr) (b : RsqB) : (State.queueRsq s h b).cpa = s.cpa := rfl
@[simp] theorem queueRsq_cpb (s : State) (h : Hdr) (b : RsqB) : (State.queueRsq s h b).cpb = s.cpb := rfl
@[simp] theorem queueRsq_cmdId (s : State) (h : Hdr) (b : RsqB) : (State.queueRsq s h b).cmdId = s.cmdId := rfl
@[simp] theorem queueRsq_jobs (s : State) (h : Hdr) (b : RsqB) : (State.queueRsq s h b).jobs = s.jobs := rfl
@[simp] theorem queueRsq_sems (s : State) (h : Hdr) (b : RsqB) : (State.queueRsq s h b).sems = s.sems := rfl
@[simp] theorem queueRsq_ctrs (s : State) (h : Hdr) (b : RsqB) : (State.queueRsq s h b).ctrs = s.ctrs := rfl
@[simp] theorem queueRsq_bars (s : State) (h : Hdr) (b : RsqB) : (State.queueRsq s h b).bars = s.bars := rfl
@[simp] theorem queueRsq_cnts (s : State) (h : Hdr) (b : RsqB) : (State.queueRsq s h b).cnts = s.cnts := rfl
@[simp] theorem queueRsq_latcap (s : State) (h : Hdr) (b : RsqB) : (State.queueRsq s h b).latcap = s.latcap := rfl
@[simp] theorem queueRsq_conf (s : State) (h : Hdr) (b : RsqB) : (State.queueRsq s h b).conf = s.conf := rfl
@[simp] theorem queueRsq_slots (s : State) (h : Hdr) (b : RsqB) : (State.queueRsq s h b).slots = s.slots := rfl
@[simp] theorem queueRsq_scx (s : State) (h : Hdr) (b : RsqB) : (State.queueRsq s h b).scx = s.scx := rfl
@[simp] theorem queueRsq_counts (s : State) (h : Hdr) (b : RsqB) : (State.queueRsq s h b).counts = s.counts := rfl
@[simp] theorem queueRsq_fetches (s : State) (h : Hdr) (b : RsqB) : (State.queueRsq s h b).fetches = s.fetches := rfl
@[simp] theorem queueRsq_tails (s : State) (h : Hdr) (b : RsqB) : (State.queueRsq s h b).tails = s.tails := rfl
@[simp] theorem queueRsq_tenants (s : State) (h : Hdr) (b : RsqB) : (State.queueRsq s h b).tenants = s.tenants := rfl
@[simp] theorem queueRsq_ing (s : State) (h : Hdr) (b : RsqB) : (State.queueRsq s h b).ing = s.ing := rfl
@[simp] theorem queueRsq_rows (s : State) (h : Hdr) (b : RsqB) : (State.queueRsq s h b).rows = s.rows := rfl
@[simp] theorem queueRsq_asm (s : State) (h : Hdr) (b : RsqB) : (State.queueRsq s h b).asm = s.asm := rfl
@[simp] theorem queueRsq_puns (s : State) (h : Hdr) (b : RsqB) : (State.queueRsq s h b).puns = s.puns := rfl
@[simp] theorem queueRsq_merges (s : State) (h : Hdr) (b : RsqB) : (State.queueRsq s h b).merges = s.merges := rfl
@[simp] theorem queueRsq_roots (s : State) (h : Hdr) (b : RsqB) : (State.queueRsq s h b).roots = s.roots := rfl
@[simp] theorem queueRsq_hcom (s : State) (h : Hdr) (b : RsqB) : (State.queueRsq s h b).hcom = s.hcom := rfl
@[simp] theorem queueRsq_loader (s : State) (h : Hdr) (b : RsqB) : (State.queueRsq s h b).loader = s.loader := rfl
@[simp] theorem queueRsq_rsbuf (s : State) (h : Hdr) (b : RsqB) : (State.queueRsq s h b).rsbuf = s.rsbuf := rfl
@[simp] theorem queueRsq_eg (s : State) (h : Hdr) (b : RsqB) : (State.queueRsq s h b).eg = s.eg := rfl
@[simp] theorem queueRsq_orch (s : State) (h : Hdr) (b : RsqB) : (State.queueRsq s h b).orch = s.orch := rfl
@[simp] theorem queueRsq_faults (s : State) (h : Hdr) (b : RsqB) : (State.queueRsq s h b).faults = s.faults := rfl
@[simp] theorem queueRsq_wind (s : State) (h : Hdr) (b : RsqB) : (State.queueRsq s h b).wind = s.wind := rfl
@[simp] theorem queueRsq_rep (s : State) (h : Hdr) (b : RsqB) : (State.queueRsq s h b).rep = s.rep := rfl
@[simp] theorem queueRsq_lanes (s : State) (h : Hdr) (b : RsqB) : (State.queueRsq s h b).lanes = s.lanes := rfl
@[simp] theorem queueRsq_dbg (s : State) (h : Hdr) (b : RsqB) : (State.queueRsq s h b).dbg = s.dbg := rfl
@[simp] theorem queueRsq_pool (s : State) (h : Hdr) (b : RsqB) : (State.queueRsq s h b).pool = s.pool := rfl
@[simp] theorem queueRsq_outs (s : State) (h : Hdr) (b : RsqB) : (State.queueRsq s h b).outs = s.outs := rfl

@[simp] theorem putAsm_pending (s : State) (old new : AsmRow) : (State.putAsm s old new).pending = s.pending := rfl
@[simp] theorem putAsm_free (s : State) (old new : AsmRow) : (State.putAsm s old new).free = s.free := rfl
@[simp] theorem putAsm_mem (s : State) (old new : AsmRow) : (State.putAsm s old new).mem = s.mem := rfl
@[simp] theorem putAsm_blk (s : State) (old new : AsmRow) : (State.putAsm s old new).blk = s.blk := rfl
@[simp] theorem putAsm_boot (s : State) (old new : AsmRow) : (State.putAsm s old new).boot = s.boot := rfl
@[simp] theorem putAsm_fwBase (s : State) (old new : AsmRow) : (State.putAsm s old new).fwBase = s.fwBase := rfl
@[simp] theorem putAsm_quar (s : State) (old new : AsmRow) : (State.putAsm s old new).quar = s.quar := rfl
@[simp] theorem putAsm_time (s : State) (old new : AsmRow) : (State.putAsm s old new).time = s.time := rfl
@[simp] theorem putAsm_pwr (s : State) (old new : AsmRow) : (State.putAsm s old new).pwr = s.pwr := rfl
@[simp] theorem putAsm_cpa (s : State) (old new : AsmRow) : (State.putAsm s old new).cpa = s.cpa := rfl
@[simp] theorem putAsm_cpb (s : State) (old new : AsmRow) : (State.putAsm s old new).cpb = s.cpb := rfl
@[simp] theorem putAsm_cmdId (s : State) (old new : AsmRow) : (State.putAsm s old new).cmdId = s.cmdId := rfl
@[simp] theorem putAsm_jobs (s : State) (old new : AsmRow) : (State.putAsm s old new).jobs = s.jobs := rfl
@[simp] theorem putAsm_sems (s : State) (old new : AsmRow) : (State.putAsm s old new).sems = s.sems := rfl
@[simp] theorem putAsm_ctrs (s : State) (old new : AsmRow) : (State.putAsm s old new).ctrs = s.ctrs := rfl
@[simp] theorem putAsm_bars (s : State) (old new : AsmRow) : (State.putAsm s old new).bars = s.bars := rfl
@[simp] theorem putAsm_cnts (s : State) (old new : AsmRow) : (State.putAsm s old new).cnts = s.cnts := rfl
@[simp] theorem putAsm_latcap (s : State) (old new : AsmRow) : (State.putAsm s old new).latcap = s.latcap := rfl
@[simp] theorem putAsm_conf (s : State) (old new : AsmRow) : (State.putAsm s old new).conf = s.conf := rfl
@[simp] theorem putAsm_slots (s : State) (old new : AsmRow) : (State.putAsm s old new).slots = s.slots := rfl
@[simp] theorem putAsm_scx (s : State) (old new : AsmRow) : (State.putAsm s old new).scx = s.scx := rfl
@[simp] theorem putAsm_counts (s : State) (old new : AsmRow) : (State.putAsm s old new).counts = s.counts := rfl
@[simp] theorem putAsm_fetches (s : State) (old new : AsmRow) : (State.putAsm s old new).fetches = s.fetches := rfl
@[simp] theorem putAsm_tails (s : State) (old new : AsmRow) : (State.putAsm s old new).tails = s.tails := rfl
@[simp] theorem putAsm_tenants (s : State) (old new : AsmRow) : (State.putAsm s old new).tenants = s.tenants := rfl
@[simp] theorem putAsm_ing (s : State) (old new : AsmRow) : (State.putAsm s old new).ing = s.ing := rfl
@[simp] theorem putAsm_rows (s : State) (old new : AsmRow) : (State.putAsm s old new).rows = s.rows := rfl
@[simp] theorem putAsm_puns (s : State) (old new : AsmRow) : (State.putAsm s old new).puns = s.puns := rfl
@[simp] theorem putAsm_merges (s : State) (old new : AsmRow) : (State.putAsm s old new).merges = s.merges := rfl
@[simp] theorem putAsm_roots (s : State) (old new : AsmRow) : (State.putAsm s old new).roots = s.roots := rfl
@[simp] theorem putAsm_hcom (s : State) (old new : AsmRow) : (State.putAsm s old new).hcom = s.hcom := rfl
@[simp] theorem putAsm_rescore (s : State) (old new : AsmRow) : (State.putAsm s old new).rescore = s.rescore := rfl
@[simp] theorem putAsm_loader (s : State) (old new : AsmRow) : (State.putAsm s old new).loader = s.loader := rfl
@[simp] theorem putAsm_rsbuf (s : State) (old new : AsmRow) : (State.putAsm s old new).rsbuf = s.rsbuf := rfl
@[simp] theorem putAsm_eg (s : State) (old new : AsmRow) : (State.putAsm s old new).eg = s.eg := rfl
@[simp] theorem putAsm_orch (s : State) (old new : AsmRow) : (State.putAsm s old new).orch = s.orch := rfl
@[simp] theorem putAsm_faults (s : State) (old new : AsmRow) : (State.putAsm s old new).faults = s.faults := rfl
@[simp] theorem putAsm_wind (s : State) (old new : AsmRow) : (State.putAsm s old new).wind = s.wind := rfl
@[simp] theorem putAsm_rep (s : State) (old new : AsmRow) : (State.putAsm s old new).rep = s.rep := rfl
@[simp] theorem putAsm_lanes (s : State) (old new : AsmRow) : (State.putAsm s old new).lanes = s.lanes := rfl
@[simp] theorem putAsm_dbg (s : State) (old new : AsmRow) : (State.putAsm s old new).dbg = s.dbg := rfl
@[simp] theorem putAsm_pool (s : State) (old new : AsmRow) : (State.putAsm s old new).pool = s.pool := rfl
@[simp] theorem putAsm_outs (s : State) (old new : AsmRow) : (State.putAsm s old new).outs = s.outs := rfl

@[simp] theorem dropAsm_pending (s : State) (k : RowKey) : (State.dropAsm s k).pending = s.pending := rfl
@[simp] theorem dropAsm_free (s : State) (k : RowKey) : (State.dropAsm s k).free = s.free := rfl
@[simp] theorem dropAsm_mem (s : State) (k : RowKey) : (State.dropAsm s k).mem = s.mem := rfl
@[simp] theorem dropAsm_blk (s : State) (k : RowKey) : (State.dropAsm s k).blk = s.blk := rfl
@[simp] theorem dropAsm_boot (s : State) (k : RowKey) : (State.dropAsm s k).boot = s.boot := rfl
@[simp] theorem dropAsm_fwBase (s : State) (k : RowKey) : (State.dropAsm s k).fwBase = s.fwBase := rfl
@[simp] theorem dropAsm_quar (s : State) (k : RowKey) : (State.dropAsm s k).quar = s.quar := rfl
@[simp] theorem dropAsm_time (s : State) (k : RowKey) : (State.dropAsm s k).time = s.time := rfl
@[simp] theorem dropAsm_pwr (s : State) (k : RowKey) : (State.dropAsm s k).pwr = s.pwr := rfl
@[simp] theorem dropAsm_cpa (s : State) (k : RowKey) : (State.dropAsm s k).cpa = s.cpa := rfl
@[simp] theorem dropAsm_cpb (s : State) (k : RowKey) : (State.dropAsm s k).cpb = s.cpb := rfl
@[simp] theorem dropAsm_cmdId (s : State) (k : RowKey) : (State.dropAsm s k).cmdId = s.cmdId := rfl
@[simp] theorem dropAsm_jobs (s : State) (k : RowKey) : (State.dropAsm s k).jobs = s.jobs := rfl
@[simp] theorem dropAsm_sems (s : State) (k : RowKey) : (State.dropAsm s k).sems = s.sems := rfl
@[simp] theorem dropAsm_ctrs (s : State) (k : RowKey) : (State.dropAsm s k).ctrs = s.ctrs := rfl
@[simp] theorem dropAsm_bars (s : State) (k : RowKey) : (State.dropAsm s k).bars = s.bars := rfl
@[simp] theorem dropAsm_cnts (s : State) (k : RowKey) : (State.dropAsm s k).cnts = s.cnts := rfl
@[simp] theorem dropAsm_latcap (s : State) (k : RowKey) : (State.dropAsm s k).latcap = s.latcap := rfl
@[simp] theorem dropAsm_conf (s : State) (k : RowKey) : (State.dropAsm s k).conf = s.conf := rfl
@[simp] theorem dropAsm_slots (s : State) (k : RowKey) : (State.dropAsm s k).slots = s.slots := rfl
@[simp] theorem dropAsm_scx (s : State) (k : RowKey) : (State.dropAsm s k).scx = s.scx := rfl
@[simp] theorem dropAsm_counts (s : State) (k : RowKey) : (State.dropAsm s k).counts = s.counts := rfl
@[simp] theorem dropAsm_fetches (s : State) (k : RowKey) : (State.dropAsm s k).fetches = s.fetches := rfl
@[simp] theorem dropAsm_tails (s : State) (k : RowKey) : (State.dropAsm s k).tails = s.tails := rfl
@[simp] theorem dropAsm_tenants (s : State) (k : RowKey) : (State.dropAsm s k).tenants = s.tenants := rfl
@[simp] theorem dropAsm_ing (s : State) (k : RowKey) : (State.dropAsm s k).ing = s.ing := rfl
@[simp] theorem dropAsm_rows (s : State) (k : RowKey) : (State.dropAsm s k).rows = s.rows := rfl
@[simp] theorem dropAsm_puns (s : State) (k : RowKey) : (State.dropAsm s k).puns = s.puns := rfl
@[simp] theorem dropAsm_merges (s : State) (k : RowKey) : (State.dropAsm s k).merges = s.merges := rfl
@[simp] theorem dropAsm_roots (s : State) (k : RowKey) : (State.dropAsm s k).roots = s.roots := rfl
@[simp] theorem dropAsm_hcom (s : State) (k : RowKey) : (State.dropAsm s k).hcom = s.hcom := rfl
@[simp] theorem dropAsm_rescore (s : State) (k : RowKey) : (State.dropAsm s k).rescore = s.rescore := rfl
@[simp] theorem dropAsm_loader (s : State) (k : RowKey) : (State.dropAsm s k).loader = s.loader := rfl
@[simp] theorem dropAsm_rsbuf (s : State) (k : RowKey) : (State.dropAsm s k).rsbuf = s.rsbuf := rfl
@[simp] theorem dropAsm_eg (s : State) (k : RowKey) : (State.dropAsm s k).eg = s.eg := rfl
@[simp] theorem dropAsm_orch (s : State) (k : RowKey) : (State.dropAsm s k).orch = s.orch := rfl
@[simp] theorem dropAsm_faults (s : State) (k : RowKey) : (State.dropAsm s k).faults = s.faults := rfl
@[simp] theorem dropAsm_wind (s : State) (k : RowKey) : (State.dropAsm s k).wind = s.wind := rfl
@[simp] theorem dropAsm_rep (s : State) (k : RowKey) : (State.dropAsm s k).rep = s.rep := rfl
@[simp] theorem dropAsm_lanes (s : State) (k : RowKey) : (State.dropAsm s k).lanes = s.lanes := rfl
@[simp] theorem dropAsm_dbg (s : State) (k : RowKey) : (State.dropAsm s k).dbg = s.dbg := rfl
@[simp] theorem dropAsm_pool (s : State) (k : RowKey) : (State.dropAsm s k).pool = s.pool := rfl
@[simp] theorem dropAsm_outs (s : State) (k : RowKey) : (State.dropAsm s k).outs = s.outs := rfl

@[simp] theorem forget_pending (s : State) (k : RowKey) : (State.forget s k).pending = s.pending := rfl
@[simp] theorem forget_free (s : State) (k : RowKey) : (State.forget s k).free = s.free := rfl
@[simp] theorem forget_mem (s : State) (k : RowKey) : (State.forget s k).mem = s.mem := rfl
@[simp] theorem forget_blk (s : State) (k : RowKey) : (State.forget s k).blk = s.blk := rfl
@[simp] theorem forget_boot (s : State) (k : RowKey) : (State.forget s k).boot = s.boot := rfl
@[simp] theorem forget_fwBase (s : State) (k : RowKey) : (State.forget s k).fwBase = s.fwBase := rfl
@[simp] theorem forget_quar (s : State) (k : RowKey) : (State.forget s k).quar = s.quar := rfl
@[simp] theorem forget_time (s : State) (k : RowKey) : (State.forget s k).time = s.time := rfl
@[simp] theorem forget_pwr (s : State) (k : RowKey) : (State.forget s k).pwr = s.pwr := rfl
@[simp] theorem forget_cpa (s : State) (k : RowKey) : (State.forget s k).cpa = s.cpa := rfl
@[simp] theorem forget_cpb (s : State) (k : RowKey) : (State.forget s k).cpb = s.cpb := rfl
@[simp] theorem forget_cmdId (s : State) (k : RowKey) : (State.forget s k).cmdId = s.cmdId := rfl
@[simp] theorem forget_jobs (s : State) (k : RowKey) : (State.forget s k).jobs = s.jobs := rfl
@[simp] theorem forget_sems (s : State) (k : RowKey) : (State.forget s k).sems = s.sems := rfl
@[simp] theorem forget_ctrs (s : State) (k : RowKey) : (State.forget s k).ctrs = s.ctrs := rfl
@[simp] theorem forget_bars (s : State) (k : RowKey) : (State.forget s k).bars = s.bars := rfl
@[simp] theorem forget_cnts (s : State) (k : RowKey) : (State.forget s k).cnts = s.cnts := rfl
@[simp] theorem forget_latcap (s : State) (k : RowKey) : (State.forget s k).latcap = s.latcap := rfl
@[simp] theorem forget_conf (s : State) (k : RowKey) : (State.forget s k).conf = s.conf := rfl
@[simp] theorem forget_slots (s : State) (k : RowKey) : (State.forget s k).slots = s.slots := rfl
@[simp] theorem forget_scx (s : State) (k : RowKey) : (State.forget s k).scx = s.scx := rfl
@[simp] theorem forget_counts (s : State) (k : RowKey) : (State.forget s k).counts = s.counts := rfl
@[simp] theorem forget_fetches (s : State) (k : RowKey) : (State.forget s k).fetches = s.fetches := rfl
@[simp] theorem forget_tails (s : State) (k : RowKey) : (State.forget s k).tails = s.tails := rfl
@[simp] theorem forget_tenants (s : State) (k : RowKey) : (State.forget s k).tenants = s.tenants := rfl
@[simp] theorem forget_ing (s : State) (k : RowKey) : (State.forget s k).ing = s.ing := rfl
@[simp] theorem forget_rows (s : State) (k : RowKey) : (State.forget s k).rows = s.rows := rfl
@[simp] theorem forget_puns (s : State) (k : RowKey) : (State.forget s k).puns = s.puns := rfl
@[simp] theorem forget_merges (s : State) (k : RowKey) : (State.forget s k).merges = s.merges := rfl
@[simp] theorem forget_roots (s : State) (k : RowKey) : (State.forget s k).roots = s.roots := rfl
@[simp] theorem forget_hcom (s : State) (k : RowKey) : (State.forget s k).hcom = s.hcom := rfl
@[simp] theorem forget_rescore (s : State) (k : RowKey) : (State.forget s k).rescore = s.rescore := rfl
@[simp] theorem forget_loader (s : State) (k : RowKey) : (State.forget s k).loader = s.loader := rfl
@[simp] theorem forget_rsbuf (s : State) (k : RowKey) : (State.forget s k).rsbuf = s.rsbuf := rfl
@[simp] theorem forget_eg (s : State) (k : RowKey) : (State.forget s k).eg = s.eg := rfl
@[simp] theorem forget_orch (s : State) (k : RowKey) : (State.forget s k).orch = s.orch := rfl
@[simp] theorem forget_faults (s : State) (k : RowKey) : (State.forget s k).faults = s.faults := rfl
@[simp] theorem forget_wind (s : State) (k : RowKey) : (State.forget s k).wind = s.wind := rfl
@[simp] theorem forget_rep (s : State) (k : RowKey) : (State.forget s k).rep = s.rep := rfl
@[simp] theorem forget_lanes (s : State) (k : RowKey) : (State.forget s k).lanes = s.lanes := rfl
@[simp] theorem forget_dbg (s : State) (k : RowKey) : (State.forget s k).dbg = s.dbg := rfl
@[simp] theorem forget_pool (s : State) (k : RowKey) : (State.forget s k).pool = s.pool := rfl
@[simp] theorem forget_outs (s : State) (k : RowKey) : (State.forget s k).outs = s.outs := rfl

@[simp] theorem startAcks_pending (s : State) (num : Nat) : (State.startAcks s num).pending = s.pending := rfl
@[simp] theorem startAcks_free (s : State) (num : Nat) : (State.startAcks s num).free = s.free := rfl
@[simp] theorem startAcks_mem (s : State) (num : Nat) : (State.startAcks s num).mem = s.mem := rfl
@[simp] theorem startAcks_blk (s : State) (num : Nat) : (State.startAcks s num).blk = s.blk := rfl
@[simp] theorem startAcks_boot (s : State) (num : Nat) : (State.startAcks s num).boot = s.boot := rfl
@[simp] theorem startAcks_fwBase (s : State) (num : Nat) : (State.startAcks s num).fwBase = s.fwBase := rfl
@[simp] theorem startAcks_quar (s : State) (num : Nat) : (State.startAcks s num).quar = s.quar := rfl
@[simp] theorem startAcks_time (s : State) (num : Nat) : (State.startAcks s num).time = s.time := rfl
@[simp] theorem startAcks_pwr (s : State) (num : Nat) : (State.startAcks s num).pwr = s.pwr := rfl
@[simp] theorem startAcks_cpa (s : State) (num : Nat) : (State.startAcks s num).cpa = s.cpa := rfl
@[simp] theorem startAcks_cpb (s : State) (num : Nat) : (State.startAcks s num).cpb = s.cpb := rfl
@[simp] theorem startAcks_cmdId (s : State) (num : Nat) : (State.startAcks s num).cmdId = s.cmdId := rfl
@[simp] theorem startAcks_sems (s : State) (num : Nat) : (State.startAcks s num).sems = s.sems := rfl
@[simp] theorem startAcks_ctrs (s : State) (num : Nat) : (State.startAcks s num).ctrs = s.ctrs := rfl
@[simp] theorem startAcks_bars (s : State) (num : Nat) : (State.startAcks s num).bars = s.bars := rfl
@[simp] theorem startAcks_cnts (s : State) (num : Nat) : (State.startAcks s num).cnts = s.cnts := rfl
@[simp] theorem startAcks_latcap (s : State) (num : Nat) : (State.startAcks s num).latcap = s.latcap := rfl
@[simp] theorem startAcks_conf (s : State) (num : Nat) : (State.startAcks s num).conf = s.conf := rfl
@[simp] theorem startAcks_slots (s : State) (num : Nat) : (State.startAcks s num).slots = s.slots := rfl
@[simp] theorem startAcks_scx (s : State) (num : Nat) : (State.startAcks s num).scx = s.scx := rfl
@[simp] theorem startAcks_counts (s : State) (num : Nat) : (State.startAcks s num).counts = s.counts := rfl
@[simp] theorem startAcks_fetches (s : State) (num : Nat) : (State.startAcks s num).fetches = s.fetches := rfl
@[simp] theorem startAcks_tails (s : State) (num : Nat) : (State.startAcks s num).tails = s.tails := rfl
@[simp] theorem startAcks_tenants (s : State) (num : Nat) : (State.startAcks s num).tenants = s.tenants := rfl
@[simp] theorem startAcks_ing (s : State) (num : Nat) : (State.startAcks s num).ing = s.ing := rfl
@[simp] theorem startAcks_rows (s : State) (num : Nat) : (State.startAcks s num).rows = s.rows := rfl
@[simp] theorem startAcks_asm (s : State) (num : Nat) : (State.startAcks s num).asm = s.asm := rfl
@[simp] theorem startAcks_puns (s : State) (num : Nat) : (State.startAcks s num).puns = s.puns := rfl
@[simp] theorem startAcks_merges (s : State) (num : Nat) : (State.startAcks s num).merges = s.merges := rfl
@[simp] theorem startAcks_roots (s : State) (num : Nat) : (State.startAcks s num).roots = s.roots := rfl
@[simp] theorem startAcks_hcom (s : State) (num : Nat) : (State.startAcks s num).hcom = s.hcom := rfl
@[simp] theorem startAcks_rescore (s : State) (num : Nat) : (State.startAcks s num).rescore = s.rescore := rfl
@[simp] theorem startAcks_loader (s : State) (num : Nat) : (State.startAcks s num).loader = s.loader := rfl
@[simp] theorem startAcks_rsbuf (s : State) (num : Nat) : (State.startAcks s num).rsbuf = s.rsbuf := rfl
@[simp] theorem startAcks_eg (s : State) (num : Nat) : (State.startAcks s num).eg = s.eg := rfl
@[simp] theorem startAcks_orch (s : State) (num : Nat) : (State.startAcks s num).orch = s.orch := rfl
@[simp] theorem startAcks_faults (s : State) (num : Nat) : (State.startAcks s num).faults = s.faults := rfl
@[simp] theorem startAcks_wind (s : State) (num : Nat) : (State.startAcks s num).wind = s.wind := rfl
@[simp] theorem startAcks_rep (s : State) (num : Nat) : (State.startAcks s num).rep = s.rep := rfl
@[simp] theorem startAcks_lanes (s : State) (num : Nat) : (State.startAcks s num).lanes = s.lanes := rfl
@[simp] theorem startAcks_dbg (s : State) (num : Nat) : (State.startAcks s num).dbg = s.dbg := rfl
@[simp] theorem startAcks_pool (s : State) (num : Nat) : (State.startAcks s num).pool = s.pool := rfl
@[simp] theorem startAcks_outs (s : State) (num : Nat) : (State.startAcks s num).outs = s.outs := rfl

@[simp] theorem switchReleased_pending (s : State) (h : Nat) : (State.switchReleased s h).pending = s.pending := rfl
@[simp] theorem switchReleased_free (s : State) (h : Nat) : (State.switchReleased s h).free = s.free := rfl
@[simp] theorem switchReleased_mem (s : State) (h : Nat) : (State.switchReleased s h).mem = s.mem := rfl
@[simp] theorem switchReleased_blk (s : State) (h : Nat) : (State.switchReleased s h).blk = s.blk := rfl
@[simp] theorem switchReleased_boot (s : State) (h : Nat) : (State.switchReleased s h).boot = s.boot := rfl
@[simp] theorem switchReleased_fwBase (s : State) (h : Nat) : (State.switchReleased s h).fwBase = s.fwBase := rfl
@[simp] theorem switchReleased_quar (s : State) (h : Nat) : (State.switchReleased s h).quar = s.quar := rfl
@[simp] theorem switchReleased_time (s : State) (h : Nat) : (State.switchReleased s h).time = s.time := rfl
@[simp] theorem switchReleased_pwr (s : State) (h : Nat) : (State.switchReleased s h).pwr = s.pwr := rfl
@[simp] theorem switchReleased_cpa (s : State) (h : Nat) : (State.switchReleased s h).cpa = s.cpa := rfl
@[simp] theorem switchReleased_cpb (s : State) (h : Nat) : (State.switchReleased s h).cpb = s.cpb := rfl
@[simp] theorem switchReleased_cmdId (s : State) (h : Nat) : (State.switchReleased s h).cmdId = s.cmdId := rfl
@[simp] theorem switchReleased_sems (s : State) (h : Nat) : (State.switchReleased s h).sems = s.sems := rfl
@[simp] theorem switchReleased_ctrs (s : State) (h : Nat) : (State.switchReleased s h).ctrs = s.ctrs := rfl
@[simp] theorem switchReleased_bars (s : State) (h : Nat) : (State.switchReleased s h).bars = s.bars := rfl
@[simp] theorem switchReleased_cnts (s : State) (h : Nat) : (State.switchReleased s h).cnts = s.cnts := rfl
@[simp] theorem switchReleased_latcap (s : State) (h : Nat) : (State.switchReleased s h).latcap = s.latcap := rfl
@[simp] theorem switchReleased_conf (s : State) (h : Nat) : (State.switchReleased s h).conf = s.conf := rfl
@[simp] theorem switchReleased_slots (s : State) (h : Nat) : (State.switchReleased s h).slots = s.slots := rfl
@[simp] theorem switchReleased_scx (s : State) (h : Nat) : (State.switchReleased s h).scx = s.scx := rfl
@[simp] theorem switchReleased_counts (s : State) (h : Nat) : (State.switchReleased s h).counts = s.counts := rfl
@[simp] theorem switchReleased_fetches (s : State) (h : Nat) : (State.switchReleased s h).fetches = s.fetches := rfl
@[simp] theorem switchReleased_tails (s : State) (h : Nat) : (State.switchReleased s h).tails = s.tails := rfl
@[simp] theorem switchReleased_tenants (s : State) (h : Nat) : (State.switchReleased s h).tenants = s.tenants := rfl
@[simp] theorem switchReleased_ing (s : State) (h : Nat) : (State.switchReleased s h).ing = s.ing := rfl
@[simp] theorem switchReleased_rows (s : State) (h : Nat) : (State.switchReleased s h).rows = s.rows := rfl
@[simp] theorem switchReleased_asm (s : State) (h : Nat) : (State.switchReleased s h).asm = s.asm := rfl
@[simp] theorem switchReleased_puns (s : State) (h : Nat) : (State.switchReleased s h).puns = s.puns := rfl
@[simp] theorem switchReleased_merges (s : State) (h : Nat) : (State.switchReleased s h).merges = s.merges := rfl
@[simp] theorem switchReleased_roots (s : State) (h : Nat) : (State.switchReleased s h).roots = s.roots := rfl
@[simp] theorem switchReleased_hcom (s : State) (h : Nat) : (State.switchReleased s h).hcom = s.hcom := rfl
@[simp] theorem switchReleased_rescore (s : State) (h : Nat) : (State.switchReleased s h).rescore = s.rescore := rfl
@[simp] theorem switchReleased_loader (s : State) (h : Nat) : (State.switchReleased s h).loader = s.loader := rfl
@[simp] theorem switchReleased_rsbuf (s : State) (h : Nat) : (State.switchReleased s h).rsbuf = s.rsbuf := rfl
@[simp] theorem switchReleased_eg (s : State) (h : Nat) : (State.switchReleased s h).eg = s.eg := rfl
@[simp] theorem switchReleased_orch (s : State) (h : Nat) : (State.switchReleased s h).orch = s.orch := rfl
@[simp] theorem switchReleased_faults (s : State) (h : Nat) : (State.switchReleased s h).faults = s.faults := rfl
@[simp] theorem switchReleased_wind (s : State) (h : Nat) : (State.switchReleased s h).wind = s.wind := rfl
@[simp] theorem switchReleased_rep (s : State) (h : Nat) : (State.switchReleased s h).rep = s.rep := rfl
@[simp] theorem switchReleased_lanes (s : State) (h : Nat) : (State.switchReleased s h).lanes = s.lanes := rfl
@[simp] theorem switchReleased_dbg (s : State) (h : Nat) : (State.switchReleased s h).dbg = s.dbg := rfl
@[simp] theorem switchReleased_pool (s : State) (h : Nat) : (State.switchReleased s h).pool = s.pool := rfl
@[simp] theorem switchReleased_outs (s : State) (h : Nat) : (State.switchReleased s h).outs = s.outs := rfl

@[simp] theorem setTenant_pending (s : State) (n : Nat) (t : Tenant) : (State.setTenant s n t).pending = s.pending := rfl
@[simp] theorem setTenant_free (s : State) (n : Nat) (t : Tenant) : (State.setTenant s n t).free = s.free := rfl
@[simp] theorem setTenant_mem (s : State) (n : Nat) (t : Tenant) : (State.setTenant s n t).mem = s.mem := rfl
@[simp] theorem setTenant_blk (s : State) (n : Nat) (t : Tenant) : (State.setTenant s n t).blk = s.blk := rfl
@[simp] theorem setTenant_boot (s : State) (n : Nat) (t : Tenant) : (State.setTenant s n t).boot = s.boot := rfl
@[simp] theorem setTenant_fwBase (s : State) (n : Nat) (t : Tenant) : (State.setTenant s n t).fwBase = s.fwBase := rfl
@[simp] theorem setTenant_quar (s : State) (n : Nat) (t : Tenant) : (State.setTenant s n t).quar = s.quar := rfl
@[simp] theorem setTenant_time (s : State) (n : Nat) (t : Tenant) : (State.setTenant s n t).time = s.time := rfl
@[simp] theorem setTenant_pwr (s : State) (n : Nat) (t : Tenant) : (State.setTenant s n t).pwr = s.pwr := rfl
@[simp] theorem setTenant_cpa (s : State) (n : Nat) (t : Tenant) : (State.setTenant s n t).cpa = s.cpa := rfl
@[simp] theorem setTenant_cpb (s : State) (n : Nat) (t : Tenant) : (State.setTenant s n t).cpb = s.cpb := rfl
@[simp] theorem setTenant_cmdId (s : State) (n : Nat) (t : Tenant) : (State.setTenant s n t).cmdId = s.cmdId := rfl
@[simp] theorem setTenant_jobs (s : State) (n : Nat) (t : Tenant) : (State.setTenant s n t).jobs = s.jobs := rfl
@[simp] theorem setTenant_sems (s : State) (n : Nat) (t : Tenant) : (State.setTenant s n t).sems = s.sems := rfl
@[simp] theorem setTenant_ctrs (s : State) (n : Nat) (t : Tenant) : (State.setTenant s n t).ctrs = s.ctrs := rfl
@[simp] theorem setTenant_bars (s : State) (n : Nat) (t : Tenant) : (State.setTenant s n t).bars = s.bars := rfl
@[simp] theorem setTenant_cnts (s : State) (n : Nat) (t : Tenant) : (State.setTenant s n t).cnts = s.cnts := rfl
@[simp] theorem setTenant_latcap (s : State) (n : Nat) (t : Tenant) : (State.setTenant s n t).latcap = s.latcap := rfl
@[simp] theorem setTenant_conf (s : State) (n : Nat) (t : Tenant) : (State.setTenant s n t).conf = s.conf := rfl
@[simp] theorem setTenant_slots (s : State) (n : Nat) (t : Tenant) : (State.setTenant s n t).slots = s.slots := rfl
@[simp] theorem setTenant_scx (s : State) (n : Nat) (t : Tenant) : (State.setTenant s n t).scx = s.scx := rfl
@[simp] theorem setTenant_counts (s : State) (n : Nat) (t : Tenant) : (State.setTenant s n t).counts = s.counts := rfl
@[simp] theorem setTenant_fetches (s : State) (n : Nat) (t : Tenant) : (State.setTenant s n t).fetches = s.fetches := rfl
@[simp] theorem setTenant_tails (s : State) (n : Nat) (t : Tenant) : (State.setTenant s n t).tails = s.tails := rfl
@[simp] theorem setTenant_ing (s : State) (n : Nat) (t : Tenant) : (State.setTenant s n t).ing = s.ing := rfl
@[simp] theorem setTenant_rows (s : State) (n : Nat) (t : Tenant) : (State.setTenant s n t).rows = s.rows := rfl
@[simp] theorem setTenant_asm (s : State) (n : Nat) (t : Tenant) : (State.setTenant s n t).asm = s.asm := rfl
@[simp] theorem setTenant_puns (s : State) (n : Nat) (t : Tenant) : (State.setTenant s n t).puns = s.puns := rfl
@[simp] theorem setTenant_merges (s : State) (n : Nat) (t : Tenant) : (State.setTenant s n t).merges = s.merges := rfl
@[simp] theorem setTenant_roots (s : State) (n : Nat) (t : Tenant) : (State.setTenant s n t).roots = s.roots := rfl
@[simp] theorem setTenant_hcom (s : State) (n : Nat) (t : Tenant) : (State.setTenant s n t).hcom = s.hcom := rfl
@[simp] theorem setTenant_rescore (s : State) (n : Nat) (t : Tenant) : (State.setTenant s n t).rescore = s.rescore := rfl
@[simp] theorem setTenant_loader (s : State) (n : Nat) (t : Tenant) : (State.setTenant s n t).loader = s.loader := rfl
@[simp] theorem setTenant_rsbuf (s : State) (n : Nat) (t : Tenant) : (State.setTenant s n t).rsbuf = s.rsbuf := rfl
@[simp] theorem setTenant_eg (s : State) (n : Nat) (t : Tenant) : (State.setTenant s n t).eg = s.eg := rfl
@[simp] theorem setTenant_orch (s : State) (n : Nat) (t : Tenant) : (State.setTenant s n t).orch = s.orch := rfl
@[simp] theorem setTenant_faults (s : State) (n : Nat) (t : Tenant) : (State.setTenant s n t).faults = s.faults := rfl
@[simp] theorem setTenant_wind (s : State) (n : Nat) (t : Tenant) : (State.setTenant s n t).wind = s.wind := rfl
@[simp] theorem setTenant_rep (s : State) (n : Nat) (t : Tenant) : (State.setTenant s n t).rep = s.rep := rfl
@[simp] theorem setTenant_lanes (s : State) (n : Nat) (t : Tenant) : (State.setTenant s n t).lanes = s.lanes := rfl
@[simp] theorem setTenant_dbg (s : State) (n : Nat) (t : Tenant) : (State.setTenant s n t).dbg = s.dbg := rfl
@[simp] theorem setTenant_pool (s : State) (n : Nat) (t : Tenant) : (State.setTenant s n t).pool = s.pool := rfl
@[simp] theorem setTenant_outs (s : State) (n : Nat) (t : Tenant) : (State.setTenant s n t).outs = s.outs := rfl

@[simp] theorem markAll_pending (s : State) (st : Nat) : (State.markAll s st).pending = s.pending := rfl
@[simp] theorem markAll_free (s : State) (st : Nat) : (State.markAll s st).free = s.free := rfl
@[simp] theorem markAll_mem (s : State) (st : Nat) : (State.markAll s st).mem = s.mem := rfl
@[simp] theorem markAll_blk (s : State) (st : Nat) : (State.markAll s st).blk = s.blk := rfl
@[simp] theorem markAll_boot (s : State) (st : Nat) : (State.markAll s st).boot = s.boot := rfl
@[simp] theorem markAll_fwBase (s : State) (st : Nat) : (State.markAll s st).fwBase = s.fwBase := rfl
@[simp] theorem markAll_quar (s : State) (st : Nat) : (State.markAll s st).quar = s.quar := rfl
@[simp] theorem markAll_time (s : State) (st : Nat) : (State.markAll s st).time = s.time := rfl
@[simp] theorem markAll_pwr (s : State) (st : Nat) : (State.markAll s st).pwr = s.pwr := rfl
@[simp] theorem markAll_cpa (s : State) (st : Nat) : (State.markAll s st).cpa = s.cpa := rfl
@[simp] theorem markAll_cpb (s : State) (st : Nat) : (State.markAll s st).cpb = s.cpb := rfl
@[simp] theorem markAll_cmdId (s : State) (st : Nat) : (State.markAll s st).cmdId = s.cmdId := rfl
@[simp] theorem markAll_jobs (s : State) (st : Nat) : (State.markAll s st).jobs = s.jobs := rfl
@[simp] theorem markAll_sems (s : State) (st : Nat) : (State.markAll s st).sems = s.sems := rfl
@[simp] theorem markAll_ctrs (s : State) (st : Nat) : (State.markAll s st).ctrs = s.ctrs := rfl
@[simp] theorem markAll_bars (s : State) (st : Nat) : (State.markAll s st).bars = s.bars := rfl
@[simp] theorem markAll_cnts (s : State) (st : Nat) : (State.markAll s st).cnts = s.cnts := rfl
@[simp] theorem markAll_latcap (s : State) (st : Nat) : (State.markAll s st).latcap = s.latcap := rfl
@[simp] theorem markAll_conf (s : State) (st : Nat) : (State.markAll s st).conf = s.conf := rfl
@[simp] theorem markAll_slots (s : State) (st : Nat) : (State.markAll s st).slots = s.slots := rfl
@[simp] theorem markAll_scx (s : State) (st : Nat) : (State.markAll s st).scx = s.scx := rfl
@[simp] theorem markAll_counts (s : State) (st : Nat) : (State.markAll s st).counts = s.counts := rfl
@[simp] theorem markAll_fetches (s : State) (st : Nat) : (State.markAll s st).fetches = s.fetches := rfl
@[simp] theorem markAll_tails (s : State) (st : Nat) : (State.markAll s st).tails = s.tails := rfl
@[simp] theorem markAll_tenants (s : State) (st : Nat) : (State.markAll s st).tenants = s.tenants := rfl
@[simp] theorem markAll_ing (s : State) (st : Nat) : (State.markAll s st).ing = s.ing := rfl
@[simp] theorem markAll_rows (s : State) (st : Nat) : (State.markAll s st).rows = s.rows := rfl
@[simp] theorem markAll_asm (s : State) (st : Nat) : (State.markAll s st).asm = s.asm := rfl
@[simp] theorem markAll_puns (s : State) (st : Nat) : (State.markAll s st).puns = s.puns := rfl
@[simp] theorem markAll_merges (s : State) (st : Nat) : (State.markAll s st).merges = s.merges := rfl
@[simp] theorem markAll_roots (s : State) (st : Nat) : (State.markAll s st).roots = s.roots := rfl
@[simp] theorem markAll_hcom (s : State) (st : Nat) : (State.markAll s st).hcom = s.hcom := rfl
@[simp] theorem markAll_rescore (s : State) (st : Nat) : (State.markAll s st).rescore = s.rescore := rfl
@[simp] theorem markAll_loader (s : State) (st : Nat) : (State.markAll s st).loader = s.loader := rfl
@[simp] theorem markAll_rsbuf (s : State) (st : Nat) : (State.markAll s st).rsbuf = s.rsbuf := rfl
@[simp] theorem markAll_eg (s : State) (st : Nat) : (State.markAll s st).eg = s.eg := rfl
@[simp] theorem markAll_faults (s : State) (st : Nat) : (State.markAll s st).faults = s.faults := rfl
@[simp] theorem markAll_wind (s : State) (st : Nat) : (State.markAll s st).wind = s.wind := rfl
@[simp] theorem markAll_rep (s : State) (st : Nat) : (State.markAll s st).rep = s.rep := rfl
@[simp] theorem markAll_lanes (s : State) (st : Nat) : (State.markAll s st).lanes = s.lanes := rfl
@[simp] theorem markAll_dbg (s : State) (st : Nat) : (State.markAll s st).dbg = s.dbg := rfl
@[simp] theorem markAll_pool (s : State) (st : Nat) : (State.markAll s st).pool = s.pool := rfl
@[simp] theorem markAll_outs (s : State) (st : Nat) : (State.markAll s st).outs = s.outs := rfl

@[simp] theorem drainHeard_pending (s : State) (fid : Option Nat) (sh : Nat) (bad : Bool) : (State.drainHeard s fid sh bad).pending = s.pending := rfl
@[simp] theorem drainHeard_free (s : State) (fid : Option Nat) (sh : Nat) (bad : Bool) : (State.drainHeard s fid sh bad).free = s.free := rfl
@[simp] theorem drainHeard_mem (s : State) (fid : Option Nat) (sh : Nat) (bad : Bool) : (State.drainHeard s fid sh bad).mem = s.mem := rfl
@[simp] theorem drainHeard_blk (s : State) (fid : Option Nat) (sh : Nat) (bad : Bool) : (State.drainHeard s fid sh bad).blk = s.blk := rfl
@[simp] theorem drainHeard_boot (s : State) (fid : Option Nat) (sh : Nat) (bad : Bool) : (State.drainHeard s fid sh bad).boot = s.boot := rfl
@[simp] theorem drainHeard_fwBase (s : State) (fid : Option Nat) (sh : Nat) (bad : Bool) : (State.drainHeard s fid sh bad).fwBase = s.fwBase := rfl
@[simp] theorem drainHeard_quar (s : State) (fid : Option Nat) (sh : Nat) (bad : Bool) : (State.drainHeard s fid sh bad).quar = s.quar := rfl
@[simp] theorem drainHeard_time (s : State) (fid : Option Nat) (sh : Nat) (bad : Bool) : (State.drainHeard s fid sh bad).time = s.time := rfl
@[simp] theorem drainHeard_pwr (s : State) (fid : Option Nat) (sh : Nat) (bad : Bool) : (State.drainHeard s fid sh bad).pwr = s.pwr := rfl
@[simp] theorem drainHeard_cpa (s : State) (fid : Option Nat) (sh : Nat) (bad : Bool) : (State.drainHeard s fid sh bad).cpa = s.cpa := rfl
@[simp] theorem drainHeard_cpb (s : State) (fid : Option Nat) (sh : Nat) (bad : Bool) : (State.drainHeard s fid sh bad).cpb = s.cpb := rfl
@[simp] theorem drainHeard_cmdId (s : State) (fid : Option Nat) (sh : Nat) (bad : Bool) : (State.drainHeard s fid sh bad).cmdId = s.cmdId := rfl
@[simp] theorem drainHeard_sems (s : State) (fid : Option Nat) (sh : Nat) (bad : Bool) : (State.drainHeard s fid sh bad).sems = s.sems := rfl
@[simp] theorem drainHeard_ctrs (s : State) (fid : Option Nat) (sh : Nat) (bad : Bool) : (State.drainHeard s fid sh bad).ctrs = s.ctrs := rfl
@[simp] theorem drainHeard_bars (s : State) (fid : Option Nat) (sh : Nat) (bad : Bool) : (State.drainHeard s fid sh bad).bars = s.bars := rfl
@[simp] theorem drainHeard_cnts (s : State) (fid : Option Nat) (sh : Nat) (bad : Bool) : (State.drainHeard s fid sh bad).cnts = s.cnts := rfl
@[simp] theorem drainHeard_latcap (s : State) (fid : Option Nat) (sh : Nat) (bad : Bool) : (State.drainHeard s fid sh bad).latcap = s.latcap := rfl
@[simp] theorem drainHeard_conf (s : State) (fid : Option Nat) (sh : Nat) (bad : Bool) : (State.drainHeard s fid sh bad).conf = s.conf := rfl
@[simp] theorem drainHeard_slots (s : State) (fid : Option Nat) (sh : Nat) (bad : Bool) : (State.drainHeard s fid sh bad).slots = s.slots := rfl
@[simp] theorem drainHeard_scx (s : State) (fid : Option Nat) (sh : Nat) (bad : Bool) : (State.drainHeard s fid sh bad).scx = s.scx := rfl
@[simp] theorem drainHeard_counts (s : State) (fid : Option Nat) (sh : Nat) (bad : Bool) : (State.drainHeard s fid sh bad).counts = s.counts := rfl
@[simp] theorem drainHeard_fetches (s : State) (fid : Option Nat) (sh : Nat) (bad : Bool) : (State.drainHeard s fid sh bad).fetches = s.fetches := rfl
@[simp] theorem drainHeard_tails (s : State) (fid : Option Nat) (sh : Nat) (bad : Bool) : (State.drainHeard s fid sh bad).tails = s.tails := rfl
@[simp] theorem drainHeard_tenants (s : State) (fid : Option Nat) (sh : Nat) (bad : Bool) : (State.drainHeard s fid sh bad).tenants = s.tenants := rfl
@[simp] theorem drainHeard_ing (s : State) (fid : Option Nat) (sh : Nat) (bad : Bool) : (State.drainHeard s fid sh bad).ing = s.ing := rfl
@[simp] theorem drainHeard_rows (s : State) (fid : Option Nat) (sh : Nat) (bad : Bool) : (State.drainHeard s fid sh bad).rows = s.rows := rfl
@[simp] theorem drainHeard_asm (s : State) (fid : Option Nat) (sh : Nat) (bad : Bool) : (State.drainHeard s fid sh bad).asm = s.asm := rfl
@[simp] theorem drainHeard_puns (s : State) (fid : Option Nat) (sh : Nat) (bad : Bool) : (State.drainHeard s fid sh bad).puns = s.puns := rfl
@[simp] theorem drainHeard_merges (s : State) (fid : Option Nat) (sh : Nat) (bad : Bool) : (State.drainHeard s fid sh bad).merges = s.merges := rfl
@[simp] theorem drainHeard_roots (s : State) (fid : Option Nat) (sh : Nat) (bad : Bool) : (State.drainHeard s fid sh bad).roots = s.roots := rfl
@[simp] theorem drainHeard_hcom (s : State) (fid : Option Nat) (sh : Nat) (bad : Bool) : (State.drainHeard s fid sh bad).hcom = s.hcom := rfl
@[simp] theorem drainHeard_rescore (s : State) (fid : Option Nat) (sh : Nat) (bad : Bool) : (State.drainHeard s fid sh bad).rescore = s.rescore := rfl
@[simp] theorem drainHeard_loader (s : State) (fid : Option Nat) (sh : Nat) (bad : Bool) : (State.drainHeard s fid sh bad).loader = s.loader := rfl
@[simp] theorem drainHeard_rsbuf (s : State) (fid : Option Nat) (sh : Nat) (bad : Bool) : (State.drainHeard s fid sh bad).rsbuf = s.rsbuf := rfl
@[simp] theorem drainHeard_eg (s : State) (fid : Option Nat) (sh : Nat) (bad : Bool) : (State.drainHeard s fid sh bad).eg = s.eg := rfl
@[simp] theorem drainHeard_orch (s : State) (fid : Option Nat) (sh : Nat) (bad : Bool) : (State.drainHeard s fid sh bad).orch = s.orch := rfl
@[simp] theorem drainHeard_faults (s : State) (fid : Option Nat) (sh : Nat) (bad : Bool) : (State.drainHeard s fid sh bad).faults = s.faults := rfl
@[simp] theorem drainHeard_wind (s : State) (fid : Option Nat) (sh : Nat) (bad : Bool) : (State.drainHeard s fid sh bad).wind = s.wind := rfl
@[simp] theorem drainHeard_rep (s : State) (fid : Option Nat) (sh : Nat) (bad : Bool) : (State.drainHeard s fid sh bad).rep = s.rep := rfl
@[simp] theorem drainHeard_lanes (s : State) (fid : Option Nat) (sh : Nat) (bad : Bool) : (State.drainHeard s fid sh bad).lanes = s.lanes := rfl
@[simp] theorem drainHeard_dbg (s : State) (fid : Option Nat) (sh : Nat) (bad : Bool) : (State.drainHeard s fid sh bad).dbg = s.dbg := rfl
@[simp] theorem drainHeard_pool (s : State) (fid : Option Nat) (sh : Nat) (bad : Bool) : (State.drainHeard s fid sh bad).pool = s.pool := rfl
@[simp] theorem drainHeard_outs (s : State) (fid : Option Nat) (sh : Nat) (bad : Bool) : (State.drainHeard s fid sh bad).outs = s.outs := rfl

@[simp] theorem setMember_pending (s : State) (sh st : Nat) (rej : Bool) : (State.setMember s sh st rej).pending = s.pending := rfl
@[simp] theorem setMember_free (s : State) (sh st : Nat) (rej : Bool) : (State.setMember s sh st rej).free = s.free := rfl
@[simp] theorem setMember_mem (s : State) (sh st : Nat) (rej : Bool) : (State.setMember s sh st rej).mem = s.mem := rfl
@[simp] theorem setMember_blk (s : State) (sh st : Nat) (rej : Bool) : (State.setMember s sh st rej).blk = s.blk := rfl
@[simp] theorem setMember_boot (s : State) (sh st : Nat) (rej : Bool) : (State.setMember s sh st rej).boot = s.boot := rfl
@[simp] theorem setMember_fwBase (s : State) (sh st : Nat) (rej : Bool) : (State.setMember s sh st rej).fwBase = s.fwBase := rfl
@[simp] theorem setMember_quar (s : State) (sh st : Nat) (rej : Bool) : (State.setMember s sh st rej).quar = s.quar := rfl
@[simp] theorem setMember_time (s : State) (sh st : Nat) (rej : Bool) : (State.setMember s sh st rej).time = s.time := rfl
@[simp] theorem setMember_pwr (s : State) (sh st : Nat) (rej : Bool) : (State.setMember s sh st rej).pwr = s.pwr := rfl
@[simp] theorem setMember_cpa (s : State) (sh st : Nat) (rej : Bool) : (State.setMember s sh st rej).cpa = s.cpa := rfl
@[simp] theorem setMember_cpb (s : State) (sh st : Nat) (rej : Bool) : (State.setMember s sh st rej).cpb = s.cpb := rfl
@[simp] theorem setMember_cmdId (s : State) (sh st : Nat) (rej : Bool) : (State.setMember s sh st rej).cmdId = s.cmdId := rfl
@[simp] theorem setMember_jobs (s : State) (sh st : Nat) (rej : Bool) : (State.setMember s sh st rej).jobs = s.jobs := rfl
@[simp] theorem setMember_sems (s : State) (sh st : Nat) (rej : Bool) : (State.setMember s sh st rej).sems = s.sems := rfl
@[simp] theorem setMember_ctrs (s : State) (sh st : Nat) (rej : Bool) : (State.setMember s sh st rej).ctrs = s.ctrs := rfl
@[simp] theorem setMember_bars (s : State) (sh st : Nat) (rej : Bool) : (State.setMember s sh st rej).bars = s.bars := rfl
@[simp] theorem setMember_cnts (s : State) (sh st : Nat) (rej : Bool) : (State.setMember s sh st rej).cnts = s.cnts := rfl
@[simp] theorem setMember_latcap (s : State) (sh st : Nat) (rej : Bool) : (State.setMember s sh st rej).latcap = s.latcap := rfl
@[simp] theorem setMember_conf (s : State) (sh st : Nat) (rej : Bool) : (State.setMember s sh st rej).conf = s.conf := rfl
@[simp] theorem setMember_slots (s : State) (sh st : Nat) (rej : Bool) : (State.setMember s sh st rej).slots = s.slots := rfl
@[simp] theorem setMember_scx (s : State) (sh st : Nat) (rej : Bool) : (State.setMember s sh st rej).scx = s.scx := rfl
@[simp] theorem setMember_counts (s : State) (sh st : Nat) (rej : Bool) : (State.setMember s sh st rej).counts = s.counts := rfl
@[simp] theorem setMember_fetches (s : State) (sh st : Nat) (rej : Bool) : (State.setMember s sh st rej).fetches = s.fetches := rfl
@[simp] theorem setMember_tails (s : State) (sh st : Nat) (rej : Bool) : (State.setMember s sh st rej).tails = s.tails := rfl
@[simp] theorem setMember_tenants (s : State) (sh st : Nat) (rej : Bool) : (State.setMember s sh st rej).tenants = s.tenants := rfl
@[simp] theorem setMember_ing (s : State) (sh st : Nat) (rej : Bool) : (State.setMember s sh st rej).ing = s.ing := rfl
@[simp] theorem setMember_rows (s : State) (sh st : Nat) (rej : Bool) : (State.setMember s sh st rej).rows = s.rows := rfl
@[simp] theorem setMember_asm (s : State) (sh st : Nat) (rej : Bool) : (State.setMember s sh st rej).asm = s.asm := rfl
@[simp] theorem setMember_puns (s : State) (sh st : Nat) (rej : Bool) : (State.setMember s sh st rej).puns = s.puns := rfl
@[simp] theorem setMember_merges (s : State) (sh st : Nat) (rej : Bool) : (State.setMember s sh st rej).merges = s.merges := rfl
@[simp] theorem setMember_roots (s : State) (sh st : Nat) (rej : Bool) : (State.setMember s sh st rej).roots = s.roots := rfl
@[simp] theorem setMember_hcom (s : State) (sh st : Nat) (rej : Bool) : (State.setMember s sh st rej).hcom = s.hcom := rfl
@[simp] theorem setMember_rescore (s : State) (sh st : Nat) (rej : Bool) : (State.setMember s sh st rej).rescore = s.rescore := rfl
@[simp] theorem setMember_loader (s : State) (sh st : Nat) (rej : Bool) : (State.setMember s sh st rej).loader = s.loader := rfl
@[simp] theorem setMember_rsbuf (s : State) (sh st : Nat) (rej : Bool) : (State.setMember s sh st rej).rsbuf = s.rsbuf := rfl
@[simp] theorem setMember_eg (s : State) (sh st : Nat) (rej : Bool) : (State.setMember s sh st rej).eg = s.eg := rfl
@[simp] theorem setMember_faults (s : State) (sh st : Nat) (rej : Bool) : (State.setMember s sh st rej).faults = s.faults := rfl
@[simp] theorem setMember_wind (s : State) (sh st : Nat) (rej : Bool) : (State.setMember s sh st rej).wind = s.wind := rfl
@[simp] theorem setMember_rep (s : State) (sh st : Nat) (rej : Bool) : (State.setMember s sh st rej).rep = s.rep := rfl
@[simp] theorem setMember_lanes (s : State) (sh st : Nat) (rej : Bool) : (State.setMember s sh st rej).lanes = s.lanes := rfl
@[simp] theorem setMember_dbg (s : State) (sh st : Nat) (rej : Bool) : (State.setMember s sh st rej).dbg = s.dbg := rfl
@[simp] theorem setMember_pool (s : State) (sh st : Nat) (rej : Bool) : (State.setMember s sh st rej).pool = s.pool := rfl
@[simp] theorem setMember_outs (s : State) (sh st : Nat) (rej : Bool) : (State.setMember s sh st rej).outs = s.outs := rfl

@[simp] theorem setPort_pending (s : State) (p : PortId) (q : Port) : (s.setPort p q).pending = s.pending := by cases p <;> rfl
@[simp] theorem setPort_free (s : State) (p : PortId) (q : Port) : (s.setPort p q).free = s.free := by cases p <;> rfl
@[simp] theorem setPort_mem (s : State) (p : PortId) (q : Port) : (s.setPort p q).mem = s.mem := by cases p <;> rfl
@[simp] theorem setPort_blk (s : State) (p : PortId) (q : Port) : (s.setPort p q).blk = s.blk := by cases p <;> rfl
@[simp] theorem setPort_boot (s : State) (p : PortId) (q : Port) : (s.setPort p q).boot = s.boot := by cases p <;> rfl
@[simp] theorem setPort_fwBase (s : State) (p : PortId) (q : Port) : (s.setPort p q).fwBase = s.fwBase := by cases p <;> rfl
@[simp] theorem setPort_quar (s : State) (p : PortId) (q : Port) : (s.setPort p q).quar = s.quar := by cases p <;> rfl
@[simp] theorem setPort_time (s : State) (p : PortId) (q : Port) : (s.setPort p q).time = s.time := by cases p <;> rfl
@[simp] theorem setPort_pwr (s : State) (p : PortId) (q : Port) : (s.setPort p q).pwr = s.pwr := by cases p <;> rfl
@[simp] theorem setPort_cmdId (s : State) (p : PortId) (q : Port) : (s.setPort p q).cmdId = s.cmdId := by cases p <;> rfl
@[simp] theorem setPort_jobs (s : State) (p : PortId) (q : Port) : (s.setPort p q).jobs = s.jobs := by cases p <;> rfl
@[simp] theorem setPort_sems (s : State) (p : PortId) (q : Port) : (s.setPort p q).sems = s.sems := by cases p <;> rfl
@[simp] theorem setPort_ctrs (s : State) (p : PortId) (q : Port) : (s.setPort p q).ctrs = s.ctrs := by cases p <;> rfl
@[simp] theorem setPort_bars (s : State) (p : PortId) (q : Port) : (s.setPort p q).bars = s.bars := by cases p <;> rfl
@[simp] theorem setPort_cnts (s : State) (p : PortId) (q : Port) : (s.setPort p q).cnts = s.cnts := by cases p <;> rfl
@[simp] theorem setPort_latcap (s : State) (p : PortId) (q : Port) : (s.setPort p q).latcap = s.latcap := by cases p <;> rfl
@[simp] theorem setPort_conf (s : State) (p : PortId) (q : Port) : (s.setPort p q).conf = s.conf := by cases p <;> rfl
@[simp] theorem setPort_slots (s : State) (p : PortId) (q : Port) : (s.setPort p q).slots = s.slots := by cases p <;> rfl
@[simp] theorem setPort_scx (s : State) (p : PortId) (q : Port) : (s.setPort p q).scx = s.scx := by cases p <;> rfl
@[simp] theorem setPort_counts (s : State) (p : PortId) (q : Port) : (s.setPort p q).counts = s.counts := by cases p <;> rfl
@[simp] theorem setPort_fetches (s : State) (p : PortId) (q : Port) : (s.setPort p q).fetches = s.fetches := by cases p <;> rfl
@[simp] theorem setPort_tails (s : State) (p : PortId) (q : Port) : (s.setPort p q).tails = s.tails := by cases p <;> rfl
@[simp] theorem setPort_tenants (s : State) (p : PortId) (q : Port) : (s.setPort p q).tenants = s.tenants := by cases p <;> rfl
@[simp] theorem setPort_ing (s : State) (p : PortId) (q : Port) : (s.setPort p q).ing = s.ing := by cases p <;> rfl
@[simp] theorem setPort_rows (s : State) (p : PortId) (q : Port) : (s.setPort p q).rows = s.rows := by cases p <;> rfl
@[simp] theorem setPort_asm (s : State) (p : PortId) (q : Port) : (s.setPort p q).asm = s.asm := by cases p <;> rfl
@[simp] theorem setPort_puns (s : State) (p : PortId) (q : Port) : (s.setPort p q).puns = s.puns := by cases p <;> rfl
@[simp] theorem setPort_merges (s : State) (p : PortId) (q : Port) : (s.setPort p q).merges = s.merges := by cases p <;> rfl
@[simp] theorem setPort_roots (s : State) (p : PortId) (q : Port) : (s.setPort p q).roots = s.roots := by cases p <;> rfl
@[simp] theorem setPort_hcom (s : State) (p : PortId) (q : Port) : (s.setPort p q).hcom = s.hcom := by cases p <;> rfl
@[simp] theorem setPort_rescore (s : State) (p : PortId) (q : Port) : (s.setPort p q).rescore = s.rescore := by cases p <;> rfl
@[simp] theorem setPort_loader (s : State) (p : PortId) (q : Port) : (s.setPort p q).loader = s.loader := by cases p <;> rfl
@[simp] theorem setPort_rsbuf (s : State) (p : PortId) (q : Port) : (s.setPort p q).rsbuf = s.rsbuf := by cases p <;> rfl
@[simp] theorem setPort_eg (s : State) (p : PortId) (q : Port) : (s.setPort p q).eg = s.eg := by cases p <;> rfl
@[simp] theorem setPort_orch (s : State) (p : PortId) (q : Port) : (s.setPort p q).orch = s.orch := by cases p <;> rfl
@[simp] theorem setPort_faults (s : State) (p : PortId) (q : Port) : (s.setPort p q).faults = s.faults := by cases p <;> rfl
@[simp] theorem setPort_wind (s : State) (p : PortId) (q : Port) : (s.setPort p q).wind = s.wind := by cases p <;> rfl
@[simp] theorem setPort_rep (s : State) (p : PortId) (q : Port) : (s.setPort p q).rep = s.rep := by cases p <;> rfl
@[simp] theorem setPort_lanes (s : State) (p : PortId) (q : Port) : (s.setPort p q).lanes = s.lanes := by cases p <;> rfl
@[simp] theorem setPort_dbg (s : State) (p : PortId) (q : Port) : (s.setPort p q).dbg = s.dbg := by cases p <;> rfl
@[simp] theorem setPort_pool (s : State) (p : PortId) (q : Port) : (s.setPort p q).pool = s.pool := by cases p <;> rfl
@[simp] theorem setPort_outs (s : State) (p : PortId) (q : Port) : (s.setPort p q).outs = s.outs := by cases p <;> rfl

@[simp] theorem setRing_pending (s : State) (r : RingRef) (q : Ring) : (s.setRing r q).pending = s.pending := setPort_pending _ _ _
@[simp] theorem setRing_free (s : State) (r : RingRef) (q : Ring) : (s.setRing r q).free = s.free := setPort_free _ _ _
@[simp] theorem setRing_mem (s : State) (r : RingRef) (q : Ring) : (s.setRing r q).mem = s.mem := setPort_mem _ _ _
@[simp] theorem setRing_blk (s : State) (r : RingRef) (q : Ring) : (s.setRing r q).blk = s.blk := setPort_blk _ _ _
@[simp] theorem setRing_boot (s : State) (r : RingRef) (q : Ring) : (s.setRing r q).boot = s.boot := setPort_boot _ _ _
@[simp] theorem setRing_fwBase (s : State) (r : RingRef) (q : Ring) : (s.setRing r q).fwBase = s.fwBase := setPort_fwBase _ _ _
@[simp] theorem setRing_quar (s : State) (r : RingRef) (q : Ring) : (s.setRing r q).quar = s.quar := setPort_quar _ _ _
@[simp] theorem setRing_time (s : State) (r : RingRef) (q : Ring) : (s.setRing r q).time = s.time := setPort_time _ _ _
@[simp] theorem setRing_pwr (s : State) (r : RingRef) (q : Ring) : (s.setRing r q).pwr = s.pwr := setPort_pwr _ _ _
@[simp] theorem setRing_cmdId (s : State) (r : RingRef) (q : Ring) : (s.setRing r q).cmdId = s.cmdId := setPort_cmdId _ _ _
@[simp] theorem setRing_jobs (s : State) (r : RingRef) (q : Ring) : (s.setRing r q).jobs = s.jobs := setPort_jobs _ _ _
@[simp] theorem setRing_sems (s : State) (r : RingRef) (q : Ring) : (s.setRing r q).sems = s.sems := setPort_sems _ _ _
@[simp] theorem setRing_ctrs (s : State) (r : RingRef) (q : Ring) : (s.setRing r q).ctrs = s.ctrs := setPort_ctrs _ _ _
@[simp] theorem setRing_bars (s : State) (r : RingRef) (q : Ring) : (s.setRing r q).bars = s.bars := setPort_bars _ _ _
@[simp] theorem setRing_cnts (s : State) (r : RingRef) (q : Ring) : (s.setRing r q).cnts = s.cnts := setPort_cnts _ _ _
@[simp] theorem setRing_latcap (s : State) (r : RingRef) (q : Ring) : (s.setRing r q).latcap = s.latcap := setPort_latcap _ _ _
@[simp] theorem setRing_conf (s : State) (r : RingRef) (q : Ring) : (s.setRing r q).conf = s.conf := setPort_conf _ _ _
@[simp] theorem setRing_slots (s : State) (r : RingRef) (q : Ring) : (s.setRing r q).slots = s.slots := setPort_slots _ _ _
@[simp] theorem setRing_scx (s : State) (r : RingRef) (q : Ring) : (s.setRing r q).scx = s.scx := setPort_scx _ _ _
@[simp] theorem setRing_counts (s : State) (r : RingRef) (q : Ring) : (s.setRing r q).counts = s.counts := setPort_counts _ _ _
@[simp] theorem setRing_fetches (s : State) (r : RingRef) (q : Ring) : (s.setRing r q).fetches = s.fetches := setPort_fetches _ _ _
@[simp] theorem setRing_tails (s : State) (r : RingRef) (q : Ring) : (s.setRing r q).tails = s.tails := setPort_tails _ _ _
@[simp] theorem setRing_tenants (s : State) (r : RingRef) (q : Ring) : (s.setRing r q).tenants = s.tenants := setPort_tenants _ _ _
@[simp] theorem setRing_ing (s : State) (r : RingRef) (q : Ring) : (s.setRing r q).ing = s.ing := setPort_ing _ _ _
@[simp] theorem setRing_rows (s : State) (r : RingRef) (q : Ring) : (s.setRing r q).rows = s.rows := setPort_rows _ _ _
@[simp] theorem setRing_asm (s : State) (r : RingRef) (q : Ring) : (s.setRing r q).asm = s.asm := setPort_asm _ _ _
@[simp] theorem setRing_puns (s : State) (r : RingRef) (q : Ring) : (s.setRing r q).puns = s.puns := setPort_puns _ _ _
@[simp] theorem setRing_merges (s : State) (r : RingRef) (q : Ring) : (s.setRing r q).merges = s.merges := setPort_merges _ _ _
@[simp] theorem setRing_roots (s : State) (r : RingRef) (q : Ring) : (s.setRing r q).roots = s.roots := setPort_roots _ _ _
@[simp] theorem setRing_hcom (s : State) (r : RingRef) (q : Ring) : (s.setRing r q).hcom = s.hcom := setPort_hcom _ _ _
@[simp] theorem setRing_rescore (s : State) (r : RingRef) (q : Ring) : (s.setRing r q).rescore = s.rescore := setPort_rescore _ _ _
@[simp] theorem setRing_loader (s : State) (r : RingRef) (q : Ring) : (s.setRing r q).loader = s.loader := setPort_loader _ _ _
@[simp] theorem setRing_rsbuf (s : State) (r : RingRef) (q : Ring) : (s.setRing r q).rsbuf = s.rsbuf := setPort_rsbuf _ _ _
@[simp] theorem setRing_eg (s : State) (r : RingRef) (q : Ring) : (s.setRing r q).eg = s.eg := setPort_eg _ _ _
@[simp] theorem setRing_orch (s : State) (r : RingRef) (q : Ring) : (s.setRing r q).orch = s.orch := setPort_orch _ _ _
@[simp] theorem setRing_faults (s : State) (r : RingRef) (q : Ring) : (s.setRing r q).faults = s.faults := setPort_faults _ _ _
@[simp] theorem setRing_wind (s : State) (r : RingRef) (q : Ring) : (s.setRing r q).wind = s.wind := setPort_wind _ _ _
@[simp] theorem setRing_rep (s : State) (r : RingRef) (q : Ring) : (s.setRing r q).rep = s.rep := setPort_rep _ _ _
@[simp] theorem setRing_lanes (s : State) (r : RingRef) (q : Ring) : (s.setRing r q).lanes = s.lanes := setPort_lanes _ _ _
@[simp] theorem setRing_dbg (s : State) (r : RingRef) (q : Ring) : (s.setRing r q).dbg = s.dbg := setPort_dbg _ _ _
@[simp] theorem setRing_pool (s : State) (r : RingRef) (q : Ring) : (s.setRing r q).pool = s.pool := setPort_pool _ _ _
@[simp] theorem setRing_outs (s : State) (r : RingRef) (q : Ring) : (s.setRing r q).outs = s.outs := setPort_outs _ _ _
@[simp] theorem bump_pending (s : State) (off : Nat) : (s.bump off).pending = s.pending := rfl
@[simp] theorem bump_free (s : State) (off : Nat) : (s.bump off).free = s.free := rfl
@[simp] theorem bump_mem (s : State) (off : Nat) : (s.bump off).mem = s.mem := rfl
@[simp] theorem bump_blk (s : State) (off : Nat) : (s.bump off).blk = s.blk := rfl
@[simp] theorem bump_boot (s : State) (off : Nat) : (s.bump off).boot = s.boot := rfl
@[simp] theorem bump_fwBase (s : State) (off : Nat) : (s.bump off).fwBase = s.fwBase := rfl
@[simp] theorem bump_quar (s : State) (off : Nat) : (s.bump off).quar = s.quar := rfl
@[simp] theorem bump_time (s : State) (off : Nat) : (s.bump off).time = s.time := rfl
@[simp] theorem bump_pwr (s : State) (off : Nat) : (s.bump off).pwr = s.pwr := rfl
@[simp] theorem bump_cpa (s : State) (off : Nat) : (s.bump off).cpa = s.cpa := rfl
@[simp] theorem bump_cpb (s : State) (off : Nat) : (s.bump off).cpb = s.cpb := rfl
@[simp] theorem bump_cmdId (s : State) (off : Nat) : (s.bump off).cmdId = s.cmdId := rfl
@[simp] theorem bump_jobs (s : State) (off : Nat) : (s.bump off).jobs = s.jobs := rfl
@[simp] theorem bump_sems (s : State) (off : Nat) : (s.bump off).sems = s.sems := rfl
@[simp] theorem bump_ctrs (s : State) (off : Nat) : (s.bump off).ctrs = s.ctrs := rfl
@[simp] theorem bump_bars (s : State) (off : Nat) : (s.bump off).bars = s.bars := rfl
@[simp] theorem bump_latcap (s : State) (off : Nat) : (s.bump off).latcap = s.latcap := rfl
@[simp] theorem bump_conf (s : State) (off : Nat) : (s.bump off).conf = s.conf := rfl
@[simp] theorem bump_slots (s : State) (off : Nat) : (s.bump off).slots = s.slots := rfl
@[simp] theorem bump_scx (s : State) (off : Nat) : (s.bump off).scx = s.scx := rfl
@[simp] theorem bump_counts (s : State) (off : Nat) : (s.bump off).counts = s.counts := rfl
@[simp] theorem bump_fetches (s : State) (off : Nat) : (s.bump off).fetches = s.fetches := rfl
@[simp] theorem bump_tails (s : State) (off : Nat) : (s.bump off).tails = s.tails := rfl
@[simp] theorem bump_tenants (s : State) (off : Nat) : (s.bump off).tenants = s.tenants := rfl
@[simp] theorem bump_ing (s : State) (off : Nat) : (s.bump off).ing = s.ing := rfl
@[simp] theorem bump_rows (s : State) (off : Nat) : (s.bump off).rows = s.rows := rfl
@[simp] theorem bump_asm (s : State) (off : Nat) : (s.bump off).asm = s.asm := rfl
@[simp] theorem bump_puns (s : State) (off : Nat) : (s.bump off).puns = s.puns := rfl
@[simp] theorem bump_merges (s : State) (off : Nat) : (s.bump off).merges = s.merges := rfl
@[simp] theorem bump_roots (s : State) (off : Nat) : (s.bump off).roots = s.roots := rfl
@[simp] theorem bump_hcom (s : State) (off : Nat) : (s.bump off).hcom = s.hcom := rfl
@[simp] theorem bump_rescore (s : State) (off : Nat) : (s.bump off).rescore = s.rescore := rfl
@[simp] theorem bump_loader (s : State) (off : Nat) : (s.bump off).loader = s.loader := rfl
@[simp] theorem bump_rsbuf (s : State) (off : Nat) : (s.bump off).rsbuf = s.rsbuf := rfl
@[simp] theorem bump_eg (s : State) (off : Nat) : (s.bump off).eg = s.eg := rfl
@[simp] theorem bump_orch (s : State) (off : Nat) : (s.bump off).orch = s.orch := rfl
@[simp] theorem bump_faults (s : State) (off : Nat) : (s.bump off).faults = s.faults := rfl
@[simp] theorem bump_wind (s : State) (off : Nat) : (s.bump off).wind = s.wind := rfl
@[simp] theorem bump_rep (s : State) (off : Nat) : (s.bump off).rep = s.rep := rfl
@[simp] theorem bump_lanes (s : State) (off : Nat) : (s.bump off).lanes = s.lanes := rfl
@[simp] theorem bump_dbg (s : State) (off : Nat) : (s.bump off).dbg = s.dbg := rfl
@[simp] theorem bump_pool (s : State) (off : Nat) : (s.bump off).pool = s.pool := rfl
@[simp] theorem bump_outs (s : State) (off : Nat) : (s.bump off).outs = s.outs := rfl

@[simp] theorem setFault_pending (s : State) (f : Nat) : (s.setFault f).pending = s.pending := rfl
@[simp] theorem setFault_free (s : State) (f : Nat) : (s.setFault f).free = s.free := rfl
@[simp] theorem setFault_mem (s : State) (f : Nat) : (s.setFault f).mem = s.mem := rfl
@[simp] theorem setFault_blk (s : State) (f : Nat) : (s.setFault f).blk = s.blk := rfl
@[simp] theorem setFault_boot (s : State) (f : Nat) : (s.setFault f).boot = s.boot := rfl
@[simp] theorem setFault_fwBase (s : State) (f : Nat) : (s.setFault f).fwBase = s.fwBase := rfl
@[simp] theorem setFault_quar (s : State) (f : Nat) : (s.setFault f).quar = s.quar := rfl
@[simp] theorem setFault_time (s : State) (f : Nat) : (s.setFault f).time = s.time := rfl
@[simp] theorem setFault_pwr (s : State) (f : Nat) : (s.setFault f).pwr = s.pwr := rfl
@[simp] theorem setFault_cpa (s : State) (f : Nat) : (s.setFault f).cpa = s.cpa := rfl
@[simp] theorem setFault_cpb (s : State) (f : Nat) : (s.setFault f).cpb = s.cpb := rfl
@[simp] theorem setFault_cmdId (s : State) (f : Nat) : (s.setFault f).cmdId = s.cmdId := rfl
@[simp] theorem setFault_jobs (s : State) (f : Nat) : (s.setFault f).jobs = s.jobs := rfl
@[simp] theorem setFault_sems (s : State) (f : Nat) : (s.setFault f).sems = s.sems := rfl
@[simp] theorem setFault_ctrs (s : State) (f : Nat) : (s.setFault f).ctrs = s.ctrs := rfl
@[simp] theorem setFault_bars (s : State) (f : Nat) : (s.setFault f).bars = s.bars := rfl
@[simp] theorem setFault_latcap (s : State) (f : Nat) : (s.setFault f).latcap = s.latcap := rfl
@[simp] theorem setFault_conf (s : State) (f : Nat) : (s.setFault f).conf = s.conf := rfl
@[simp] theorem setFault_slots (s : State) (f : Nat) : (s.setFault f).slots = s.slots := rfl
@[simp] theorem setFault_scx (s : State) (f : Nat) : (s.setFault f).scx = s.scx := rfl
@[simp] theorem setFault_counts (s : State) (f : Nat) : (s.setFault f).counts = s.counts := rfl
@[simp] theorem setFault_fetches (s : State) (f : Nat) : (s.setFault f).fetches = s.fetches := rfl
@[simp] theorem setFault_tails (s : State) (f : Nat) : (s.setFault f).tails = s.tails := rfl
@[simp] theorem setFault_tenants (s : State) (f : Nat) : (s.setFault f).tenants = s.tenants := rfl
@[simp] theorem setFault_ing (s : State) (f : Nat) : (s.setFault f).ing = s.ing := rfl
@[simp] theorem setFault_rows (s : State) (f : Nat) : (s.setFault f).rows = s.rows := rfl
@[simp] theorem setFault_asm (s : State) (f : Nat) : (s.setFault f).asm = s.asm := rfl
@[simp] theorem setFault_puns (s : State) (f : Nat) : (s.setFault f).puns = s.puns := rfl
@[simp] theorem setFault_merges (s : State) (f : Nat) : (s.setFault f).merges = s.merges := rfl
@[simp] theorem setFault_roots (s : State) (f : Nat) : (s.setFault f).roots = s.roots := rfl
@[simp] theorem setFault_hcom (s : State) (f : Nat) : (s.setFault f).hcom = s.hcom := rfl
@[simp] theorem setFault_rescore (s : State) (f : Nat) : (s.setFault f).rescore = s.rescore := rfl
@[simp] theorem setFault_loader (s : State) (f : Nat) : (s.setFault f).loader = s.loader := rfl
@[simp] theorem setFault_rsbuf (s : State) (f : Nat) : (s.setFault f).rsbuf = s.rsbuf := rfl
@[simp] theorem setFault_eg (s : State) (f : Nat) : (s.setFault f).eg = s.eg := rfl
@[simp] theorem setFault_orch (s : State) (f : Nat) : (s.setFault f).orch = s.orch := rfl
@[simp] theorem setFault_wind (s : State) (f : Nat) : (s.setFault f).wind = s.wind := rfl
@[simp] theorem setFault_rep (s : State) (f : Nat) : (s.setFault f).rep = s.rep := rfl
@[simp] theorem setFault_lanes (s : State) (f : Nat) : (s.setFault f).lanes = s.lanes := rfl
@[simp] theorem setFault_dbg (s : State) (f : Nat) : (s.setFault f).dbg = s.dbg := rfl
@[simp] theorem setFault_pool (s : State) (f : Nat) : (s.setFault f).pool = s.pool := rfl
@[simp] theorem setFault_outs (s : State) (f : Nat) : (s.setFault f).outs = s.outs := rfl

@[simp] theorem storeWords_pending (s : State) (k : Nat) (ws : List Word) : (s.storeWords k ws).pending = s.pending := rfl
@[simp] theorem storeWords_free (s : State) (k : Nat) (ws : List Word) : (s.storeWords k ws).free = s.free := rfl
@[simp] theorem storeWords_blk (s : State) (k : Nat) (ws : List Word) : (s.storeWords k ws).blk = s.blk := rfl
@[simp] theorem storeWords_boot (s : State) (k : Nat) (ws : List Word) : (s.storeWords k ws).boot = s.boot := rfl
@[simp] theorem storeWords_fwBase (s : State) (k : Nat) (ws : List Word) : (s.storeWords k ws).fwBase = s.fwBase := rfl
@[simp] theorem storeWords_quar (s : State) (k : Nat) (ws : List Word) : (s.storeWords k ws).quar = s.quar := rfl
@[simp] theorem storeWords_time (s : State) (k : Nat) (ws : List Word) : (s.storeWords k ws).time = s.time := rfl
@[simp] theorem storeWords_pwr (s : State) (k : Nat) (ws : List Word) : (s.storeWords k ws).pwr = s.pwr := rfl
@[simp] theorem storeWords_cpa (s : State) (k : Nat) (ws : List Word) : (s.storeWords k ws).cpa = s.cpa := rfl
@[simp] theorem storeWords_cpb (s : State) (k : Nat) (ws : List Word) : (s.storeWords k ws).cpb = s.cpb := rfl
@[simp] theorem storeWords_cmdId (s : State) (k : Nat) (ws : List Word) : (s.storeWords k ws).cmdId = s.cmdId := rfl
@[simp] theorem storeWords_jobs (s : State) (k : Nat) (ws : List Word) : (s.storeWords k ws).jobs = s.jobs := rfl
@[simp] theorem storeWords_sems (s : State) (k : Nat) (ws : List Word) : (s.storeWords k ws).sems = s.sems := rfl
@[simp] theorem storeWords_ctrs (s : State) (k : Nat) (ws : List Word) : (s.storeWords k ws).ctrs = s.ctrs := rfl
@[simp] theorem storeWords_bars (s : State) (k : Nat) (ws : List Word) : (s.storeWords k ws).bars = s.bars := rfl
@[simp] theorem storeWords_cnts (s : State) (k : Nat) (ws : List Word) : (s.storeWords k ws).cnts = s.cnts := rfl
@[simp] theorem storeWords_latcap (s : State) (k : Nat) (ws : List Word) : (s.storeWords k ws).latcap = s.latcap := rfl
@[simp] theorem storeWords_conf (s : State) (k : Nat) (ws : List Word) : (s.storeWords k ws).conf = s.conf := rfl
@[simp] theorem storeWords_slots (s : State) (k : Nat) (ws : List Word) : (s.storeWords k ws).slots = s.slots := rfl
@[simp] theorem storeWords_scx (s : State) (k : Nat) (ws : List Word) : (s.storeWords k ws).scx = s.scx := rfl
@[simp] theorem storeWords_counts (s : State) (k : Nat) (ws : List Word) : (s.storeWords k ws).counts = s.counts := rfl
@[simp] theorem storeWords_fetches (s : State) (k : Nat) (ws : List Word) : (s.storeWords k ws).fetches = s.fetches := rfl
@[simp] theorem storeWords_tails (s : State) (k : Nat) (ws : List Word) : (s.storeWords k ws).tails = s.tails := rfl
@[simp] theorem storeWords_tenants (s : State) (k : Nat) (ws : List Word) : (s.storeWords k ws).tenants = s.tenants := rfl
@[simp] theorem storeWords_ing (s : State) (k : Nat) (ws : List Word) : (s.storeWords k ws).ing = s.ing := rfl
@[simp] theorem storeWords_rows (s : State) (k : Nat) (ws : List Word) : (s.storeWords k ws).rows = s.rows := rfl
@[simp] theorem storeWords_asm (s : State) (k : Nat) (ws : List Word) : (s.storeWords k ws).asm = s.asm := rfl
@[simp] theorem storeWords_puns (s : State) (k : Nat) (ws : List Word) : (s.storeWords k ws).puns = s.puns := rfl
@[simp] theorem storeWords_merges (s : State) (k : Nat) (ws : List Word) : (s.storeWords k ws).merges = s.merges := rfl
@[simp] theorem storeWords_roots (s : State) (k : Nat) (ws : List Word) : (s.storeWords k ws).roots = s.roots := rfl
@[simp] theorem storeWords_hcom (s : State) (k : Nat) (ws : List Word) : (s.storeWords k ws).hcom = s.hcom := rfl
@[simp] theorem storeWords_rescore (s : State) (k : Nat) (ws : List Word) : (s.storeWords k ws).rescore = s.rescore := rfl
@[simp] theorem storeWords_loader (s : State) (k : Nat) (ws : List Word) : (s.storeWords k ws).loader = s.loader := rfl
@[simp] theorem storeWords_rsbuf (s : State) (k : Nat) (ws : List Word) : (s.storeWords k ws).rsbuf = s.rsbuf := rfl
@[simp] theorem storeWords_eg (s : State) (k : Nat) (ws : List Word) : (s.storeWords k ws).eg = s.eg := rfl
@[simp] theorem storeWords_orch (s : State) (k : Nat) (ws : List Word) : (s.storeWords k ws).orch = s.orch := rfl
@[simp] theorem storeWords_faults (s : State) (k : Nat) (ws : List Word) : (s.storeWords k ws).faults = s.faults := rfl
@[simp] theorem storeWords_wind (s : State) (k : Nat) (ws : List Word) : (s.storeWords k ws).wind = s.wind := rfl
@[simp] theorem storeWords_rep (s : State) (k : Nat) (ws : List Word) : (s.storeWords k ws).rep = s.rep := rfl
@[simp] theorem storeWords_lanes (s : State) (k : Nat) (ws : List Word) : (s.storeWords k ws).lanes = s.lanes := rfl
@[simp] theorem storeWords_dbg (s : State) (k : Nat) (ws : List Word) : (s.storeWords k ws).dbg = s.dbg := rfl
@[simp] theorem storeWords_pool (s : State) (k : Nat) (ws : List Word) : (s.storeWords k ws).pool = s.pool := rfl
@[simp] theorem storeWords_outs (s : State) (k : Nat) (ws : List Word) : (s.storeWords k ws).outs = s.outs := rfl

@[simp] theorem setSlot_pending (s : State) (n : Nat) (e : SlotEnt) : (s.setSlot n e).pending = s.pending := rfl
@[simp] theorem setSlot_free (s : State) (n : Nat) (e : SlotEnt) : (s.setSlot n e).free = s.free := rfl
@[simp] theorem setSlot_blk (s : State) (n : Nat) (e : SlotEnt) : (s.setSlot n e).blk = s.blk := rfl
@[simp] theorem setSlot_boot (s : State) (n : Nat) (e : SlotEnt) : (s.setSlot n e).boot = s.boot := rfl
@[simp] theorem setSlot_fwBase (s : State) (n : Nat) (e : SlotEnt) : (s.setSlot n e).fwBase = s.fwBase := rfl
@[simp] theorem setSlot_quar (s : State) (n : Nat) (e : SlotEnt) : (s.setSlot n e).quar = s.quar := rfl
@[simp] theorem setSlot_time (s : State) (n : Nat) (e : SlotEnt) : (s.setSlot n e).time = s.time := rfl
@[simp] theorem setSlot_pwr (s : State) (n : Nat) (e : SlotEnt) : (s.setSlot n e).pwr = s.pwr := rfl
@[simp] theorem setSlot_cpa (s : State) (n : Nat) (e : SlotEnt) : (s.setSlot n e).cpa = s.cpa := rfl
@[simp] theorem setSlot_cpb (s : State) (n : Nat) (e : SlotEnt) : (s.setSlot n e).cpb = s.cpb := rfl
@[simp] theorem setSlot_cmdId (s : State) (n : Nat) (e : SlotEnt) : (s.setSlot n e).cmdId = s.cmdId := rfl
@[simp] theorem setSlot_jobs (s : State) (n : Nat) (e : SlotEnt) : (s.setSlot n e).jobs = s.jobs := rfl
@[simp] theorem setSlot_sems (s : State) (n : Nat) (e : SlotEnt) : (s.setSlot n e).sems = s.sems := rfl
@[simp] theorem setSlot_ctrs (s : State) (n : Nat) (e : SlotEnt) : (s.setSlot n e).ctrs = s.ctrs := rfl
@[simp] theorem setSlot_bars (s : State) (n : Nat) (e : SlotEnt) : (s.setSlot n e).bars = s.bars := rfl
@[simp] theorem setSlot_cnts (s : State) (n : Nat) (e : SlotEnt) : (s.setSlot n e).cnts = s.cnts := rfl
@[simp] theorem setSlot_latcap (s : State) (n : Nat) (e : SlotEnt) : (s.setSlot n e).latcap = s.latcap := rfl
@[simp] theorem setSlot_conf (s : State) (n : Nat) (e : SlotEnt) : (s.setSlot n e).conf = s.conf := rfl
@[simp] theorem setSlot_scx (s : State) (n : Nat) (e : SlotEnt) : (s.setSlot n e).scx = s.scx := rfl
@[simp] theorem setSlot_counts (s : State) (n : Nat) (e : SlotEnt) : (s.setSlot n e).counts = s.counts := rfl
@[simp] theorem setSlot_fetches (s : State) (n : Nat) (e : SlotEnt) : (s.setSlot n e).fetches = s.fetches := rfl
@[simp] theorem setSlot_tails (s : State) (n : Nat) (e : SlotEnt) : (s.setSlot n e).tails = s.tails := rfl
@[simp] theorem setSlot_tenants (s : State) (n : Nat) (e : SlotEnt) : (s.setSlot n e).tenants = s.tenants := rfl
@[simp] theorem setSlot_ing (s : State) (n : Nat) (e : SlotEnt) : (s.setSlot n e).ing = s.ing := rfl
@[simp] theorem setSlot_rows (s : State) (n : Nat) (e : SlotEnt) : (s.setSlot n e).rows = s.rows := rfl
@[simp] theorem setSlot_asm (s : State) (n : Nat) (e : SlotEnt) : (s.setSlot n e).asm = s.asm := rfl
@[simp] theorem setSlot_puns (s : State) (n : Nat) (e : SlotEnt) : (s.setSlot n e).puns = s.puns := rfl
@[simp] theorem setSlot_merges (s : State) (n : Nat) (e : SlotEnt) : (s.setSlot n e).merges = s.merges := rfl
@[simp] theorem setSlot_roots (s : State) (n : Nat) (e : SlotEnt) : (s.setSlot n e).roots = s.roots := rfl
@[simp] theorem setSlot_hcom (s : State) (n : Nat) (e : SlotEnt) : (s.setSlot n e).hcom = s.hcom := rfl
@[simp] theorem setSlot_rescore (s : State) (n : Nat) (e : SlotEnt) : (s.setSlot n e).rescore = s.rescore := rfl
@[simp] theorem setSlot_loader (s : State) (n : Nat) (e : SlotEnt) : (s.setSlot n e).loader = s.loader := rfl
@[simp] theorem setSlot_rsbuf (s : State) (n : Nat) (e : SlotEnt) : (s.setSlot n e).rsbuf = s.rsbuf := rfl
@[simp] theorem setSlot_eg (s : State) (n : Nat) (e : SlotEnt) : (s.setSlot n e).eg = s.eg := rfl
@[simp] theorem setSlot_orch (s : State) (n : Nat) (e : SlotEnt) : (s.setSlot n e).orch = s.orch := rfl
@[simp] theorem setSlot_faults (s : State) (n : Nat) (e : SlotEnt) : (s.setSlot n e).faults = s.faults := rfl
@[simp] theorem setSlot_wind (s : State) (n : Nat) (e : SlotEnt) : (s.setSlot n e).wind = s.wind := rfl
@[simp] theorem setSlot_rep (s : State) (n : Nat) (e : SlotEnt) : (s.setSlot n e).rep = s.rep := rfl
@[simp] theorem setSlot_lanes (s : State) (n : Nat) (e : SlotEnt) : (s.setSlot n e).lanes = s.lanes := rfl
@[simp] theorem setSlot_dbg (s : State) (n : Nat) (e : SlotEnt) : (s.setSlot n e).dbg = s.dbg := rfl
@[simp] theorem setSlot_pool (s : State) (n : Nat) (e : SlotEnt) : (s.setSlot n e).pool = s.pool := rfl
@[simp] theorem setSlot_outs (s : State) (n : Nat) (e : SlotEnt) : (s.setSlot n e).outs = s.outs := rfl

@[simp] theorem setCount_pending (s : State) (n : Nat) (c : CountPart) : (s.setCount n c).pending = s.pending := rfl
@[simp] theorem setCount_free (s : State) (n : Nat) (c : CountPart) : (s.setCount n c).free = s.free := rfl
@[simp] theorem setCount_blk (s : State) (n : Nat) (c : CountPart) : (s.setCount n c).blk = s.blk := rfl
@[simp] theorem setCount_boot (s : State) (n : Nat) (c : CountPart) : (s.setCount n c).boot = s.boot := rfl
@[simp] theorem setCount_fwBase (s : State) (n : Nat) (c : CountPart) : (s.setCount n c).fwBase = s.fwBase := rfl
@[simp] theorem setCount_quar (s : State) (n : Nat) (c : CountPart) : (s.setCount n c).quar = s.quar := rfl
@[simp] theorem setCount_time (s : State) (n : Nat) (c : CountPart) : (s.setCount n c).time = s.time := rfl
@[simp] theorem setCount_pwr (s : State) (n : Nat) (c : CountPart) : (s.setCount n c).pwr = s.pwr := rfl
@[simp] theorem setCount_cpa (s : State) (n : Nat) (c : CountPart) : (s.setCount n c).cpa = s.cpa := rfl
@[simp] theorem setCount_cpb (s : State) (n : Nat) (c : CountPart) : (s.setCount n c).cpb = s.cpb := rfl
@[simp] theorem setCount_cmdId (s : State) (n : Nat) (c : CountPart) : (s.setCount n c).cmdId = s.cmdId := rfl
@[simp] theorem setCount_jobs (s : State) (n : Nat) (c : CountPart) : (s.setCount n c).jobs = s.jobs := rfl
@[simp] theorem setCount_sems (s : State) (n : Nat) (c : CountPart) : (s.setCount n c).sems = s.sems := rfl
@[simp] theorem setCount_ctrs (s : State) (n : Nat) (c : CountPart) : (s.setCount n c).ctrs = s.ctrs := rfl
@[simp] theorem setCount_bars (s : State) (n : Nat) (c : CountPart) : (s.setCount n c).bars = s.bars := rfl
@[simp] theorem setCount_cnts (s : State) (n : Nat) (c : CountPart) : (s.setCount n c).cnts = s.cnts := rfl
@[simp] theorem setCount_latcap (s : State) (n : Nat) (c : CountPart) : (s.setCount n c).latcap = s.latcap := rfl
@[simp] theorem setCount_conf (s : State) (n : Nat) (c : CountPart) : (s.setCount n c).conf = s.conf := rfl
@[simp] theorem setCount_slots (s : State) (n : Nat) (c : CountPart) : (s.setCount n c).slots = s.slots := rfl
@[simp] theorem setCount_scx (s : State) (n : Nat) (c : CountPart) : (s.setCount n c).scx = s.scx := rfl
@[simp] theorem setCount_fetches (s : State) (n : Nat) (c : CountPart) : (s.setCount n c).fetches = s.fetches := rfl
@[simp] theorem setCount_tails (s : State) (n : Nat) (c : CountPart) : (s.setCount n c).tails = s.tails := rfl
@[simp] theorem setCount_tenants (s : State) (n : Nat) (c : CountPart) : (s.setCount n c).tenants = s.tenants := rfl
@[simp] theorem setCount_ing (s : State) (n : Nat) (c : CountPart) : (s.setCount n c).ing = s.ing := rfl
@[simp] theorem setCount_rows (s : State) (n : Nat) (c : CountPart) : (s.setCount n c).rows = s.rows := rfl
@[simp] theorem setCount_asm (s : State) (n : Nat) (c : CountPart) : (s.setCount n c).asm = s.asm := rfl
@[simp] theorem setCount_puns (s : State) (n : Nat) (c : CountPart) : (s.setCount n c).puns = s.puns := rfl
@[simp] theorem setCount_merges (s : State) (n : Nat) (c : CountPart) : (s.setCount n c).merges = s.merges := rfl
@[simp] theorem setCount_roots (s : State) (n : Nat) (c : CountPart) : (s.setCount n c).roots = s.roots := rfl
@[simp] theorem setCount_hcom (s : State) (n : Nat) (c : CountPart) : (s.setCount n c).hcom = s.hcom := rfl
@[simp] theorem setCount_rescore (s : State) (n : Nat) (c : CountPart) : (s.setCount n c).rescore = s.rescore := rfl
@[simp] theorem setCount_loader (s : State) (n : Nat) (c : CountPart) : (s.setCount n c).loader = s.loader := rfl
@[simp] theorem setCount_rsbuf (s : State) (n : Nat) (c : CountPart) : (s.setCount n c).rsbuf = s.rsbuf := rfl
@[simp] theorem setCount_eg (s : State) (n : Nat) (c : CountPart) : (s.setCount n c).eg = s.eg := rfl
@[simp] theorem setCount_orch (s : State) (n : Nat) (c : CountPart) : (s.setCount n c).orch = s.orch := rfl
@[simp] theorem setCount_faults (s : State) (n : Nat) (c : CountPart) : (s.setCount n c).faults = s.faults := rfl
@[simp] theorem setCount_wind (s : State) (n : Nat) (c : CountPart) : (s.setCount n c).wind = s.wind := rfl
@[simp] theorem setCount_rep (s : State) (n : Nat) (c : CountPart) : (s.setCount n c).rep = s.rep := rfl
@[simp] theorem setCount_lanes (s : State) (n : Nat) (c : CountPart) : (s.setCount n c).lanes = s.lanes := rfl
@[simp] theorem setCount_dbg (s : State) (n : Nat) (c : CountPart) : (s.setCount n c).dbg = s.dbg := rfl
@[simp] theorem setCount_pool (s : State) (n : Nat) (c : CountPart) : (s.setCount n c).pool = s.pool := rfl
@[simp] theorem setCount_outs (s : State) (n : Nat) (c : CountPart) : (s.setCount n c).outs = s.outs := rfl

@[simp] theorem delCount_pending (s : State) (n : Nat) : (s.delCount n).pending = s.pending := rfl
@[simp] theorem delCount_free (s : State) (n : Nat) : (s.delCount n).free = s.free := rfl
@[simp] theorem delCount_blk (s : State) (n : Nat) : (s.delCount n).blk = s.blk := rfl
@[simp] theorem delCount_boot (s : State) (n : Nat) : (s.delCount n).boot = s.boot := rfl
@[simp] theorem delCount_fwBase (s : State) (n : Nat) : (s.delCount n).fwBase = s.fwBase := rfl
@[simp] theorem delCount_quar (s : State) (n : Nat) : (s.delCount n).quar = s.quar := rfl
@[simp] theorem delCount_time (s : State) (n : Nat) : (s.delCount n).time = s.time := rfl
@[simp] theorem delCount_pwr (s : State) (n : Nat) : (s.delCount n).pwr = s.pwr := rfl
@[simp] theorem delCount_cpa (s : State) (n : Nat) : (s.delCount n).cpa = s.cpa := rfl
@[simp] theorem delCount_cpb (s : State) (n : Nat) : (s.delCount n).cpb = s.cpb := rfl
@[simp] theorem delCount_cmdId (s : State) (n : Nat) : (s.delCount n).cmdId = s.cmdId := rfl
@[simp] theorem delCount_jobs (s : State) (n : Nat) : (s.delCount n).jobs = s.jobs := rfl
@[simp] theorem delCount_sems (s : State) (n : Nat) : (s.delCount n).sems = s.sems := rfl
@[simp] theorem delCount_ctrs (s : State) (n : Nat) : (s.delCount n).ctrs = s.ctrs := rfl
@[simp] theorem delCount_bars (s : State) (n : Nat) : (s.delCount n).bars = s.bars := rfl
@[simp] theorem delCount_cnts (s : State) (n : Nat) : (s.delCount n).cnts = s.cnts := rfl
@[simp] theorem delCount_latcap (s : State) (n : Nat) : (s.delCount n).latcap = s.latcap := rfl
@[simp] theorem delCount_conf (s : State) (n : Nat) : (s.delCount n).conf = s.conf := rfl
@[simp] theorem delCount_slots (s : State) (n : Nat) : (s.delCount n).slots = s.slots := rfl
@[simp] theorem delCount_scx (s : State) (n : Nat) : (s.delCount n).scx = s.scx := rfl
@[simp] theorem delCount_fetches (s : State) (n : Nat) : (s.delCount n).fetches = s.fetches := rfl
@[simp] theorem delCount_tails (s : State) (n : Nat) : (s.delCount n).tails = s.tails := rfl
@[simp] theorem delCount_tenants (s : State) (n : Nat) : (s.delCount n).tenants = s.tenants := rfl
@[simp] theorem delCount_ing (s : State) (n : Nat) : (s.delCount n).ing = s.ing := rfl
@[simp] theorem delCount_rows (s : State) (n : Nat) : (s.delCount n).rows = s.rows := rfl
@[simp] theorem delCount_asm (s : State) (n : Nat) : (s.delCount n).asm = s.asm := rfl
@[simp] theorem delCount_puns (s : State) (n : Nat) : (s.delCount n).puns = s.puns := rfl
@[simp] theorem delCount_merges (s : State) (n : Nat) : (s.delCount n).merges = s.merges := rfl
@[simp] theorem delCount_roots (s : State) (n : Nat) : (s.delCount n).roots = s.roots := rfl
@[simp] theorem delCount_hcom (s : State) (n : Nat) : (s.delCount n).hcom = s.hcom := rfl
@[simp] theorem delCount_rescore (s : State) (n : Nat) : (s.delCount n).rescore = s.rescore := rfl
@[simp] theorem delCount_loader (s : State) (n : Nat) : (s.delCount n).loader = s.loader := rfl
@[simp] theorem delCount_rsbuf (s : State) (n : Nat) : (s.delCount n).rsbuf = s.rsbuf := rfl
@[simp] theorem delCount_eg (s : State) (n : Nat) : (s.delCount n).eg = s.eg := rfl
@[simp] theorem delCount_orch (s : State) (n : Nat) : (s.delCount n).orch = s.orch := rfl
@[simp] theorem delCount_faults (s : State) (n : Nat) : (s.delCount n).faults = s.faults := rfl
@[simp] theorem delCount_wind (s : State) (n : Nat) : (s.delCount n).wind = s.wind := rfl
@[simp] theorem delCount_rep (s : State) (n : Nat) : (s.delCount n).rep = s.rep := rfl
@[simp] theorem delCount_lanes (s : State) (n : Nat) : (s.delCount n).lanes = s.lanes := rfl
@[simp] theorem delCount_dbg (s : State) (n : Nat) : (s.delCount n).dbg = s.dbg := rfl
@[simp] theorem delCount_pool (s : State) (n : Nat) : (s.delCount n).pool = s.pool := rfl
@[simp] theorem delCount_outs (s : State) (n : Nat) : (s.delCount n).outs = s.outs := rfl


@[simp] theorem setPort_port (s : State) (p : PortId) (q : Port) : (s.setPort p q).port p = q := by cases p <;> rfl

theorem setPort_other (s : State) {p p' : PortId} (h : p' ≠ p) (q : Port) : (s.setPort p q).port p' = s.port p' := by
  cases p <;> cases p' <;> first | rfl | exact absurd rfl h

end Sys2Proof.Laws
end

