-- ==== Sys2Proof/Laws/Ops.lean ====
section
/-! SUPPORT. What the shared operations do, said once: ports and rings, completions, packets taken, messages that land, egress, links. -/

namespace Sys2Proof.Laws

open Sys2Proof.Machine

/-! ## Ports, rings and completions -/

theorem setPort_self (s : State) (p : PortId) (q : Port) : (s.setPort p q).port p = q := by cases p <;> rfl

theorem setPort_ring (s : State) (p : PortId) (q : Port) (r : RingRef) :
   (s.setPort p q).ring r = if r.port = p then q.ring r.ring else s.ring r := by
  cases r with | mk rp rn => cases p <;> cases rp <;> simp [State.setPort, State.ring, State.port]

theorem setRing_ring (s : State) (r r' : RingRef) (q : Ring) :
   (s.setRing r q).ring r' = if r' = r then q else s.ring r' := by
  unfold State.setRing
  rw [setPort_ring]
  cases r with | mk rp rn => cases r' with | mk rp' rn' =>
   by_cases h : rp' = rp
   · subst h
     by_cases h2 : rn' = rn
     · subst h2; simp [Port.ring, Port.setRing, tab_get_set_self]
     · simp [h2, Port.ring, Port.setRing, tab_get_set_ne, State.ring]
   · simp [h]

theorem finish_ring (s : State) (o : Origin) (x : Cpl) (r : RingRef) :
   ((s.finish o x).ring r).outst = (s.ring r).outst ∧ ((s.finish o x).ring r).asleep = (s.ring r).asleep := by
  unfold State.finish State.complete
  cases o with
  | ring q id => 
    simp only
    rw [setRing_ring]
    split
    · rename_i h; subst h
      unfold Ring.complete; split <;> exact ⟨rfl, rfl⟩
    · exact ⟨rfl, rfl⟩
  | fwd => exact ⟨rfl, rfl⟩
  | member => exact ⟨rfl, rfl⟩

theorem finish_ctrs (s : State) (o : Origin) (x : Cpl) : (s.finish o x).ctrs = s.ctrs := by
  unfold State.finish State.complete
  cases o <;> simp [State.sendTo]

theorem finish_sems (u : State) (o c) : (u.finish o c).sems = u.sems := by unfold State.finish State.complete; split; exact setRing_sems _ _ _; rfl; rfl

theorem finish_conf (s : State) (o : Origin) (x : Cpl) : (s.finish o x).conf = s.conf := by
  unfold State.finish State.complete
  cases o <;> simp [State.sendTo]

theorem finish_slots (s : State) (o : Origin) (x : Cpl) : (s.finish o x).slots = s.slots := by
  unfold State.finish State.complete
  cases o <;> simp [State.sendTo]

theorem finishSleeper_ring (s : State) (o : Origin) (x : Cpl) (r : RingRef) :
   ((s.finishSleeper o x).ring r).outst = (s.ring r).outst ∧ ((s.ring r).asleep = false → ((s.finishSleeper o x).ring r).asleep = false) := by
  unfold State.finishSleeper
  cases o with
  | ring q id =>
    simp only
    have h := finish_ring s (.ring q id) x r
    split
    · rw [setRing_ring]
      split
      · rename_i h2; subst h2; exact ⟨h.1, fun _ => rfl⟩
      · exact ⟨h.1, fun a => h.2.trans a⟩
    · exact ⟨h.1, fun a => h.2.trans a⟩
  | fwd a b c d => exact ⟨(finish_ring s (.fwd a b c d) x r).1, fun a => (finish_ring s _ x r).2.trans a⟩
  | member => exact ⟨(finish_ring s .member x r).1, fun a => (finish_ring s _ x r).2.trans a⟩

theorem finishSleeper_ctrs (s : State) (o : Origin) (x : Cpl) : (s.finishSleeper o x).ctrs = s.ctrs := by
  unfold State.finishSleeper
  cases o <;> simp [finish_ctrs]
  split <;> simp [finish_ctrs]

theorem foldl_sleepers_ctrs (l : List Waiter) (x : Cpl) (s : State) : (l.foldl (fun s w => s.finishSleeper w.origin x) s).ctrs = s.ctrs := by
  induction l generalizing s with
  | nil => rfl
  | cons a r ih => rw [List.foldl_cons, ih, finishSleeper_ctrs]

theorem foldl_sleepers_awake (l : List Waiter) (x : Cpl) (s : State) (r : RingRef) (id : Nat) (ho : ∃ o ∈ (s.ring r).outst, o.id = id)
  (h : (s.ring r).asleep = false ∨ ∃ w ∈ l, w.origin = .ring r id) :
   ((l.foldl (fun s w => s.finishSleeper w.origin x) s).ring r).asleep = false := by
  induction l generalizing s with
  | nil => simpa using h
  | cons a t ih =>
    rw [List.foldl_cons]
    apply ih
    · rw [(finishSleeper_ring s a.origin x r).1]; exact ho
    · by_cases ha : a.origin = .ring r id
      · left
        rw [ha]
        unfold State.finishSleeper
        simp only
        rw [if_pos (by simpa using ho), setRing_ring, if_pos rfl]
      · obtain h | ⟨w, hw, he⟩ := h
        · left; exact (finishSleeper_ring s a.origin x r).2 h
        · rcases List.mem_cons.1 hw with rfl | hw
          · exact absurd he ha
          · right; exact ⟨w, hw, he⟩

theorem endJobs_of_one (s : State) (p : Job → Bool) (c : Job → Cpl) (l1 l2 : List Job) (j : Job) (h : s.jobs = l1 ++ j :: l2)
   (hj : p j = true) (hx : ∀ x ∈ l1 ++ l2, p x = false) :
   s.endJobs p c = ({ s with jobs := l1 ++ l2 } : State).finish j.origin (c j) := by
  unfold State.endJobs
  have h1 : l1.filter p = [] := List.filter_eq_nil_iff.2 (fun x hh => by simp [hx x (by simp [hh])])
  have h2 : l2.filter p = [] := List.filter_eq_nil_iff.2 (fun x hh => by simp [hx x (by simp [hh])])
  have g1 : l1.filter (fun j => !p j) = l1 := List.filter_eq_self.2 (fun x hh => by simp [hx x (by simp [hh])])
  have g2 : l2.filter (fun j => !p j) = l2 := List.filter_eq_self.2 (fun x hh => by simp [hx x (by simp [hh])])
  rw [h]
  simp [List.filter_append, hj, h1, h2, g1, g2]

theorem endJobs_conf (s : State) (p : Job → Bool) (f : Job → Cpl) : (s.endJobs p f).conf = s.conf := by
  unfold State.endJobs
  generalize (List.filter p s.jobs) = l
  have : ∀ (l : List Job) (x : State), (l.foldl (fun s j => s.finish j.origin (f j)) x).conf = x.conf := by
    intro l; induction l with
    | nil => intro x; rfl
    | cons a r ih => intro x; rw [List.foldl_cons, ih, finish_conf]
  rw [this]

theorem endJobs_slots (s : State) (p : Job → Bool) (f : Job → Cpl) : (s.endJobs p f).slots = s.slots := by
  unfold State.endJobs
  generalize (List.filter p s.jobs) = l
  have : ∀ (l : List Job) (x : State), (l.foldl (fun s j => s.finish j.origin (f j)) x).slots = x.slots := by
    intro l; induction l with
    | nil => intro x; rfl
    | cons a r ih => intro x; rw [List.foldl_cons, ih, finish_slots]
  rw [this]

theorem refresh_port (s : State) (p : PortId) (b : Bool) : (s.refresh p b).port p = (s.port p).refresh b := by
  cases p <;> rfl

theorem foldl_set_bits (f : Nat → Bool) (l : List Nat) (a : BitVec 16) (v : Nat) (hv : v < 16) (hl : ∀ x ∈ l, x < 16):
  (l.foldl (fun a v => if f v then a ||| BitVec.ofNat 16 (2 ^ v) else a) a).getLsbD v = (a.getLsbD v || (l.contains v && f v)) := by
  induction l generalizing a with
  | nil => simp
  | cons x r ih =>
    rw [List.foldl_cons, ih _ (fun y hy => hl y (List.mem_cons_of_mem _ hy))]
    have hx := hl x (List.mem_cons_self)
    by_cases hf : f x
    · simp only [hf, if_true, BitVec.getLsbD_or, BitVec.getLsbD_ofNat, List.contains_cons]
      by_cases h : v = x
      · subst h; simp [hf, hv]
      · simp [Ne.symm h, hv, show (v == x) = false by simpa using h]
    · by_cases h : v = x
      · subst h; simp [hf]
      · simp [hf, h]

theorem summary_bit (q : Port) (v : Nat) (hv : v < 16) : bitAt q.summary v = q.sumBit v := by
  unfold Port.summary bitAt
  rw [foldl_set_bits _ _ _ _ hv (by simp)]
  simp [hv]

theorem live_port_open {s : State} (h : s.live = true) : (s.pwr.clkFail = true ∨ s.quar = true) = False ∧ (s.pwr.cur ≤ 1) = False := by
  simp [State.live] at h; simp [h]; omega

theorem portWrite_own {s : State} (h : s.live = true) (p : PortId) (a : State → State) : portWrite p p a s = a s := by
  simp [portWrite, live_port_open h]

theorem portWrite_x {s : State} (h : s.live = true) {p w : PortId} (hp : p ≠ w) (a : State → State) : portWrite p w a s = s.xwrite p := by
  simp [portWrite, live_port_open h, hp]

theorem semWrite_live {s : State} (hl : s.live = true) {n : Nat} (hn : n < 64) (a) : semWrite n a s = a s := by
  simp [semWrite, hl]; omega

theorem regWrite_live {s : State} (hl : s.live = true) (p : PortId) (addr size : Nat) (v : W64) (h1 : accessOk addr size = true) (h2 : accessHits addr size = true)
  (h3 : addr / 0x10000 + 1 ≠ 3 - portCode p) : s.regWrite p addr size v = s.writeAccess (.port p) addr size v := by
    have := live_port_open hl
    simp only [not_or, eq_iff_iff, iff_false] at this
    unfold State.regWrite
    dsimp only
    rw [if_neg this.1.1, if_neg (fun h => this.2 h.1), if_neg (fun h => this.1.2 h.1), if_neg (by simp [h1, h2, this.2]), if_neg h3]

theorem setCtr_ctr (s : State) (n m : Nat) (c : Ctr) : (s.setCtr n c).ctr m = if m = n then c else s.ctr m := by
  unfold State.setCtr State.ctr
  simp only [tab_get_set]


/-! ## Packets taken from their rings -/

@[simp] theorem origin_port (s : State) (pk : Pkt) : (s.origin pk).port = pk.src.port := rfl

@[simp] theorem taken_sem (s : State) (pk k n) : (s.taken pk k).sem n = s.sem n := by simp [State.taken, State.take, State.sem]

@[simp] theorem taken_ctr (s : State) (pk k n) : (s.taken pk k).ctr n = s.ctr n := by simp [State.taken, State.take, State.ctr]

@[simp] theorem taken_bar (s : State) (pk k n) : (s.taken pk k).bar n = s.bar n := by simp [State.taken, State.take, State.bar]

@[simp] theorem taken_time (s : State) (pk k) : (s.taken pk k).time = s.time := by simp [State.taken, State.take]

@[simp] theorem taken_conf (s : State) (pk k) : (s.taken pk k).conf = s.conf := by simp [State.taken, State.take]

@[simp] theorem taken_orch (s : State) (pk k) : (s.taken pk k).orch = s.orch := by simp [State.taken, State.take]

@[simp] theorem taken_blk (s : State) (pk k) : (s.taken pk k).blk = s.blk := by simp [State.taken, State.take]

@[simp] theorem taken_jobs (s : State) (pk k) : (s.taken pk k).jobs = s.jobs := by simp [State.taken, State.take]

@[simp] theorem taken_slots (s : State) (pk k) : (s.taken pk k).slots = s.slots := by simp [State.taken, State.take]

@[simp] theorem taken_scx (s : State) (pk k) : (s.taken pk k).scx = s.scx := by simp [State.taken, State.take]

@[simp] theorem taken_tenants (s : State) (pk k) : (s.taken pk k).tenants = s.tenants := by simp [State.taken, State.take]

@[simp] theorem taken_mem (s : State) (pk k) : (s.taken pk k).mem = s.mem := by simp [State.taken, State.take]

@[simp] theorem taken_pwr (s : State) (pk k) : (s.taken pk k).pwr = s.pwr := by simp [State.taken, State.take]

@[simp] theorem taken_rep (s : State) (pk k) : (s.taken pk k).rep = s.rep := by simp [State.taken, State.take]

@[simp] theorem taken_wind (s : State) (pk k) : (s.taken pk k).wind = s.wind := by simp [State.taken, State.take]

@[simp] theorem taken_faults (s : State) (pk k) : (s.taken pk k).faults = s.faults := by simp [State.taken, State.take]

@[simp] theorem taken_dbg (s : State) (pk k) : (s.taken pk k).dbg = s.dbg := by simp [State.taken, State.take]

@[simp] theorem taken_rows (s : State) (pk k) : (s.taken pk k).rows = s.rows := by simp [State.taken, State.take]

@[simp] theorem taken_puns (s : State) (pk k) : (s.taken pk k).puns = s.puns := by simp [State.taken, State.take]

@[simp] theorem taken_asm (s : State) (pk k) : (s.taken pk k).asm = s.asm := by simp [State.taken, State.take]

@[simp] theorem taken_counts (s : State) (pk k) : (s.taken pk k).counts = s.counts := by simp [State.taken, State.take]

@[simp] theorem taken_pool (s : State) (pk k) : (s.taken pk k).pool = s.pool := by simp [State.taken, State.take]

@[simp] theorem taken_cnts (s : State) (pk k) : (s.taken pk k).cnts = s.cnts := by simp [State.taken, State.take]

@[simp] theorem taken_lanes (s : State) (pk k) : (s.taken pk k).lanes = s.lanes := by simp [State.taken, State.take]

@[simp] theorem taken_ing (s : State) (pk k) : (s.taken pk k).ing = s.ing := by simp [State.taken, State.take]

@[simp] theorem taken_eg (s : State) (pk k) : (s.taken pk k).eg = s.eg := by simp [State.taken, State.take]

@[simp] theorem taken_locked (s : State) (pk k x) : (s.taken pk k).locked x = s.locked x := by simp [State.locked]

theorem no_lock {d : Desc} {pk : Pkt} {s : State} (h : d.lock pk s = none) : ∀ x, d.lock pk s = some x → s.locked x = false := by
  intro x hx; rw [h] at hx; cases hx

theorem noBad_of_starts {s pk op k masks legal} (h : Starts s pk op k masks legal) : noBad masks pk s = none := by
  simp [noBad, h.clean]

theorem root_serialises {s : State} (h : s.isRoot = true) : s.orch.rootSh = s.orch.shard := by simp [State.isRoot] at h; exact h.symm

theorem home_serialises {s : State} {n} (h : s.isHome n = true) : s.homeOf n = s.orch.shard := by simpa [State.isHome, State.homeOf] using h


/-! ## Messages -/

theorem arrive_nil (s : State) (m : Msg) (h : s.orch.loop = []) : s.arrive m = s := by
  unfold State.arrive
  rw [h]
  show ({ s with orch := { s.orch with loop := [] } } : State) = s
  rw [← h]

theorem rowMsg_lands {s : State} {m : Msg} {p : Punnet} {r : PRow} (h : Lands s m p r) (act : State → State) : s.rowMsg m act = act s := by
  obtain ⟨hw, hs, hp, hr, hps⟩ := h
  have hany : p.rows.any (fun r => decide (r.slot = m.hdr.rslot)) = true := by
    rw [List.any_eq_true]; exact ⟨r, List.mem_of_find?_eq_some hr, by simpa using List.find?_some hr⟩
  unfold State.rowMsg
  simp [hs.1, hs.2, hp, hps]
  intro hx; have := (List.any_eq_true.mp hany); obtain ⟨y, hy, hy2⟩ := this; exact absurd (by simpa using hy2) (hx y hy)

theorem rowStep_lands {s : State} {h : Hdr} {b : Body} {p r} (hl : Lands s { hdr := h, body := b } p r) (act : State → State) :
    rowStep h b act s = (s.taking { hdr := h, body := b } (act s)).after := by
  unfold rowStep; simp [hl.working, State.taking]

theorem rowStep_working {s : State} (hw : s.working = true) (h b act) : rowStep h b act s = (s.taking { hdr := h, body := b } (act s)).after := by
  unfold rowStep; simp [hw, State.taking]

theorem prow_lands {s : State} {m : Msg} {p r} (hl : Lands s m p r) : s.prow m.hdr.punnet m.hdr.rslot = some r := by
  simp [State.prow, hl.punnet, hl.row]

theorem passOn_own {s : State} {h : Hdr} (b) (h1 : h.bcast = false) (h2 : h.dst = s.orch.shard) : s.passOn h b = s := by
  simp [State.passOn, h1, h2]

theorem forMe_own {s : State} {h : Hdr} (h2 : h.dst = s.orch.shard) : s.forMe h = true := by simp [State.forMe, h2]

theorem workStep_working {s : State} (hw : s.working = true) (act : State → State) : workStep act s = (act s).after := by simp [workStep, hw]

theorem onPart_lands {s : State} {m : Msg} {p r} (hl : Lands s m p r) (hf : s.forMe m.hdr = true) (mc : State → Nat) (x) :
    s.onPart m mc x = 
    (if s.orch.kidShards.contains m.hdr.src = false ∨ s.heardFrom m.hdr.punnet m.hdr.pass m.hdr.rslot (mc s) m.hdr.src = true then
      (s.contained 0x18 { Site.none with punnet := m.hdr.punnet, handle := some m.hdr.handle, rslot := m.hdr.rslot }).doubtAt m.hdr.punnet (some m.hdr.rslot) 0x18
    else
      (if m.hdr.doubt && decide (mc s ≠ 3) then s.doubtAt m.hdr.punnet (some m.hdr.rslot) 0x22 else s).mergeIn m.hdr.punnet m.hdr.pass m.hdr.rslot (mc s) m.hdr.src x) := by
  unfold State.onPart; dsimp only; rw [hf]; simp only [Bool.true_eq_false, if_false]; rw [rowMsg_lands hl]

theorem ctlStep_ok {s : State} {h : Hdr} (hl : s.live = true) (h1 : h.parity = false) (h2 : hdrBroken h = false) (hs : s.starting = false) (b act) :
    ctlStep h b act s = (s.taking { hdr := h, body := b } (act s)).after := by
  unfold ctlStep ctlSound State.taking; simp [hl, h1, h2, hs]

theorem ctlSound_ok {s : State} {h : Hdr} (h1 : h.parity = false) (h2 : hdrBroken h = false) (act) : ctlSound h act s = act s := by simp [ctlSound, h1, h2]

/-! ## Egress, causes and latency -/

theorem refresh_keeps (s : State) (p b) : (s.refresh p b).rows = s.rows ∧ (s.refresh p b).eg = s.eg ∧ (s.refresh p b).cnts = s.cnts ∧ (s.refresh p b).ing = s.ing := by
  unfold State.refresh; cases p <;> simp [State.setPort]

theorem setCause1_keeps (s : State) (p b) : (s.setCause1 p b).rows = s.rows ∧ (s.setCause1 p b).eg = s.eg ∧ (s.setCause1 p b).cnts = s.cnts ∧ (s.setCause1 p b).ing = s.ing := by
  unfold State.setCause1; obtain ⟨a, b, c, d⟩ := refresh_keeps (s.setPort p { s.port p with intStatus := (s.port p).intStatus ||| BitVec.ofNat 15 (2 ^ b) }) p false
  rw [a, b, c, d]; cases p <;> simp [State.setPort]

theorem setCause_keeps (s : State) (b) : (s.setCause b).rows = s.rows ∧ (s.setCause b).eg = s.eg ∧ (s.setCause b).ing = s.ing ∧ (s.setCause b).cnts = Tab.upd s.cnts (offEvt b) 0 (fun v => satAdd (2 ^ 32 - 1) v 1) := by
  obtain ⟨a1, a2, a3, a4⟩ := setCause1_keeps (s.setCause1 .cpa b) .cpb b
  obtain ⟨b1, b2, b3, b4⟩ := setCause1_keeps s .cpa b
  unfold State.setCause State.bump State.bumpN
  dsimp only
  refine ⟨?_, ?_, ?_, ?_⟩
  · rw [a1, b1]
  · rw [a2, b2]
  · rw [a4, b4]
  · rw [a3, b3]

theorem refresh_mem (s : State) (p b) : (s.refresh p b).mem = s.mem := by unfold State.refresh; cases p <;> rfl

theorem setCause1_mem (s : State) (p b) : (s.setCause1 p b).mem = s.mem := by unfold State.setCause1; dsimp only; rw [refresh_mem]; cases p <;> rfl

theorem setCause_mem (s : State) (b) : (s.setCause b).mem = s.mem := by
  show ((s.setCause1 .cpa b).setCause1 .cpb b).mem = _; rw [setCause1_mem, setCause1_mem]

theorem latMiss_mem (s : State) (h k o c e) : (s.latMiss h k o c e).mem = s.mem := by unfold State.latMiss; dsimp only; rw [setCause_mem]; rfl

theorem setLast_mem (s : State) (h t) : (s.setLast h t).mem = s.mem := by unfold State.setLast; split <;> rfl

theorem latency_mem (s : State) (h) : (s.latency h).mem = s.mem := by
  unfold State.latency; dsimp only
  split
  · rfl
  · split <;> split <;> first | (rw [latMiss_mem]; exact setLast_mem _ _ _) | exact setLast_mem _ _ _

theorem tokensReady_mem (s : State) (n) : (s.tokensReady n).mem = s.mem := by
  unfold State.tokensReady; dsimp only; split
  · rfl
  · have : ∀ (l : List Ready) (u : State), (l.foldl (fun s r => s.latency r.handle) u).mem = u.mem := by
      intro l; induction l with
      | nil => intro u; rfl
      | cons a l ih => intro u; rw [List.foldl_cons, ih, latency_mem]
    show (List.foldl (fun (s : State) (r : Ready) => s.latency r.handle) _ _).mem = _
    rw [this]; rfl

theorem trecIssued_keeps (s : State) (r : EgRec) : (s.trecIssued r).conf = s.conf ∧ (s.trecIssued r).eg.outst = s.eg.outst ∧ (s.trecIssued r).eg.fabric = s.eg.fabric := by
  unfold State.trecIssued; split
  · exact ⟨rfl, rfl, rfl⟩
  · dsimp only; unfold State.dropRow; split <;> exact ⟨rfl, rfl, rfl⟩

theorem ingReject_keeps (s : State) (ok h) : (s.ingReject ok h).rows = s.rows ∧ (s.ingReject ok h).eg = s.eg ∧ (s.ingReject ok h).ing = s.ing ∧ (s.ingReject ok h).cnt offIngRej = satAdd (2 ^ 32 - 1) (s.cnt offIngRej) 1 := by
  have hb : (s.bump offIngRej).rows = s.rows ∧ (s.bump offIngRej).eg = s.eg ∧ (s.bump offIngRej).ing = s.ing ∧ (s.bump offIngRej).cnt offIngRej = satAdd (2 ^ 32 - 1) (s.cnt offIngRej) 1 := by
    refine ⟨rfl, rfl, rfl, ?_⟩; unfold State.bump State.bumpN State.cnt Tab.upd; dsimp only; rw [tab_get_set_self]
  unfold State.ingReject; dsimp only
  split
  · exact hb
  · obtain ⟨a, b, c, d⟩ := setCause_keeps (s.bump offIngRej) cIngRej
    refine ⟨a.trans hb.1, b.trans hb.2.1, c.trans hb.2.2.1, ?_⟩
    rw [← hb.2.2.2]
    unfold State.cnt; rw [d]; unfold Tab.upd; rw [tab_get_set_ne _ (by decide)]

theorem credits_spend_setMsg (g : Ingress) (p n m) : ((g.spend p n).setMsg p m).credits p = g.credits p - n := by
  cases p <;> rfl

theorem setMsg_setMsg (g : Ingress) (p a b) : (g.setMsg p a).setMsg p b = g.setMsg p b := by cases p <;> rfl

theorem seq_spend_setMsg (g : Ingress) (p n m) : ((g.spend p n).setMsg p m).seq = g.seq := by cases p <;> rfl

theorem isHome_ing (s : State) (g : Ingress) (n) : ({ s with ing := g } : State).isHome n = s.isHome n := rfl

theorem admits_of_ing (s : State) (g : Ingress) (h) : ({ s with ing := g } : State).admits h = s.admits h := rfl


/-! ## Links -/

theorem link_setLink (o : Orch) (p : Nat) (l : Link) : (o.setLink p l).link p = l := by unfold Orch.setLink Orch.link; simp

theorem link_setLink_ne (o : Orch) (p q : Nat) (l : Link) (h : q ≠ p) : (o.setLink p l).link q = o.link q := by unfold Orch.setLink Orch.link; exact tab_get_set_ne _ h _ _

theorem heard_lastAcc (l : Link) (f) : (l.heard f).lastAcc = l.lastAcc := by
  unfold Link.heard Link.credited Link.acked; dsimp only; split <;> split <;> rfl


/-! ## Repairs -/

theorem burn_len : ∀ (f es : List Word), (burn f es).length = f.length
  | [], _ => by simp [burn]
  | f :: fs, [] => by simp [burn]
  | f :: fs, e :: es => by unfold burn; split <;> simp [burn_len]

theorem burn_mem : ∀ (f es : List Word), es.length ≤ (f.filter (fun w => w = 0)).length → ∀ e ∈ es, e ∈ burn f es
  | [], es => by simp; rintro rfl; simp
  | f :: fs, [] => by simp
  | f :: fs, e :: es => by
      unfold burn; intro h x hx
      by_cases hf : f = 0
      · rw [if_pos hf]; simp [hf] at h
        rcases List.mem_cons.mp hx with rfl | hx
        · exact List.mem_cons_self
        · exact List.mem_cons_of_mem _ (burn_mem fs es (by simpa using h) x hx)
      · rw [if_neg hf]; rw [List.filter_cons_of_neg (by simpa using hf)] at h
        exact List.mem_cons_of_mem _ (burn_mem fs (e :: es) h x hx)

theorem burn_keep : ∀ (f es : List Word) (i : Nat) (w : Word), f[i]? = some w → w ≠ 0 → (burn f es)[i]? = some w
  | [], _, i, w => by simp
  | f :: fs, [], i, w => fun h _ => h
  | f :: fs, e :: es, 0, w => by
      unfold burn; simp only [List.getElem?_cons_zero, Option.some.injEq]; rintro rfl hw; rw [if_neg hw]; rfl
  | f :: fs, e :: es, n + 1, w => by
      unfold burn; simp only [List.getElem?_cons_succ]; intro h hw
      split <;> (simp only [List.getElem?_cons_succ]; exact burn_keep _ _ _ _ h hw)

/-! ## A clock failure -/

theorem live_off {s : State} (h : s.pwr.clkFail = true) : s.live = false := by simp [State.live, h]

theorem working_off {s : State} (h : s.pwr.clkFail = true) : s.working = false := by simp [State.working, live_off h]

theorem serving_off {s : State} (h : s.pwr.clkFail = true) : s.serving = false := by simp [State.serving, live_off h]

theorem after_off {s : State} (h : s.pwr.clkFail = true) : s.after = s := by simp [State.after, h]

theorem takePacket_off {s : State} (h : s.pwr.clkFail = true) (d pk) : takePacket d pk s = s := by simp [takePacket, serving_off h]

theorem workStep_off {s : State} (h : s.pwr.clkFail = true) (a) : workStep a s = s := by simp [workStep, working_off h]

theorem rowStep_off {s : State} (h : s.pwr.clkFail = true) (x b a) : rowStep x b a s = s := by simp [rowStep, working_off h]

theorem ctlStep_off {s : State} (h : s.pwr.clkFail = true) (x b a) : ctlStep x b a s = s := by simp [ctlStep, live_off h]

end Sys2Proof.Laws
end

