-- ==== Sys2Proof/Tests/Slice0.lean ====
section
/-! SUPPORT. The model's own tests: an ill-formed command for each check of WellFormed, states that meet the hypotheses of the
statements, and a few steps on small states whose expected results come from the manual. -/

namespace Sys2Proof.Tests
open Sys2Proof Sys2Proof.Machine

set_option Elab.async false

/-! ## Small commands and states -/

def r0 : RingRef := { port := .cpa, ring := 0 }
def hd0 : Handle := { slot := 0, gen := 1 }

/-- A packet of ring 0 of CPA with its KCRC. -/
def mk (op : Nat) (ps : List Nat) : Pkt :=
  let ws : List Word := (List.range 13).map (fun i => BitVec.ofNat 32 (ps.getD i 0))
  let w0 : Word := BitVec.ofNat 32 op
  { src := r0, w0 := w0, tag := 7, params := ws, kcrc := crcWords (w0 :: 7 :: (List.range 13).map (fun i => ws.getD i 0)), readErr := false }

theorem mk_kcrc (op : Nat) (ps : List Nat) : (mk op ps).kcrcOk = true := decide_eq_true rfl
theorem mk_src (op : Nat) (ps : List Nat) : (mk op ps).src = r0 := rfl

/-- A message header without punnet. -/
def hdr0 : Hdr :=
  { src := 0, dst := 0, bcast := false, doubt := false, punnet := 0, rslot := 0, pass := 0, handle := hd0, hops := 0, parity := false }

/-- Ring 0 of CPA enabled with 16 slots and one packet waiting. -/
def ring1 : Ring := { Ring.reset with en := true, sqlog := 4, cqlog := 4, sqt := 1 }

/-- A root in a block state, its ring 0 with one packet waiting. -/
def inBlk (b : Blk) : State :=
  { State.reset with blk := b, boot := { State.reset.boot with step := 8 }, cpa := { Port.reset with rings := [(0, ring1)] } }
def ready : State := inBlk .ready
def run : State := { inBlk .run with ing := { State.reset.ing with grants := true } }

/-- What `Starts` asks, but for the KCRC, which `mk` gives. -/
theorem starts (s : State) (op : Nat) (ps : List Nat) (k : Nat) (masks : List Nat) (legal : List Blk)
    (h : (s.serving && (s.ring r0).en && decide ((s.ring r0).untaken ≠ 0) && decide ((mk op ps).opcode.toNat = op) && (mk op ps).clean masks
      && (!(mk op ps).fence || (s.ring r0).outst.isEmpty) && !(s.ring r0).asleep && (s.ring r0).room k && legal.contains s.blk) = true) :
    Starts s (mk op ps) op k masks legal := by
  simp only [Bool.and_eq_true, Bool.or_eq_true, Bool.not_eq_true', decide_eq_true_eq, List.isEmpty_iff] at h
  obtain ⟨⟨⟨⟨⟨⟨⟨⟨h1, h2⟩, h3⟩, h4⟩, h5⟩, h6⟩, h7⟩, h8⟩, h9⟩ := h
  exact ⟨h1, h2, h3, rfl, mk_kcrc op ps, h4, h5, fun hf => by simpa [hf, mk_src] using h6, h7, h8, h9⟩

/-! ## WellFormed: every check refuses an ill-formed command -/

theorem wf_packet_ring : (Instr.sysNop { mk 0x0100 [] with src := { port := .cpa, ring := 64 } }).wf = false := by decide
theorem wf_packet_params : (Instr.cfgSet { mk 0x0200 [] with params := [0, 0] }).wf = false := by decide +kernel
theorem wf_packet_ok : (Instr.dumpAck (mk 0x0C03 [])).wf = true := by decide
theorem wf_header_fields : (Instr.cancel { hdr0 with src := 1024 } 0).wf = false ∧ (Instr.cancel { hdr0 with dst := 1024 } 0).wf = false
    ∧ (Instr.cancel { hdr0 with punnet := 65536 } 0).wf = false ∧ (Instr.cancel { hdr0 with rslot := 256 } 0).wf = false
    ∧ (Instr.cancel { hdr0 with pass := 12 } 0).wf = false ∧ (Instr.cancel { hdr0 with hops := 1024 } 0).wf = false
    ∧ (Instr.cancel { hdr0 with bcast := true, dst := 1 } 0).wf = false ∧ (Instr.cancel hdr0 0).wf = true := by decide
theorem wf_handle : (Instr.partFetchDone { slot := 65536, gen := 0 } .head .clean).wf = false
    ∧ (Instr.partFetchDone { slot := 0, gen := 256 } .head .clean).wf = false := by decide
theorem wf_row_key : (Instr.deadlineReached { handle := hd0, pos := 2 ^ 24, cls := 0, gidx := 0 }).wf = false
    ∧ (Instr.deadlineReached { handle := hd0, pos := 0, cls := 8, gidx := 0 }).wf = false
    ∧ (Instr.copySkewExpiry { handle := hd0, pos := 0, cls := 0, gidx := 32 }).wf = false := by decide
theorem wf_ring_commands : (Instr.doorbell .cpa { port := .cpb, ring := 64 } 0).wf = false
    ∧ (Instr.jgCqhWrite .cpa { port := .cpb, ring := 64 } 0).wf = false ∧ (Instr.ringEnable .cpa { port := .cpb, ring := 64 } 0).wf = false
    ∧ (Instr.cqWriteAck { port := .cpb, ring := 64 } false).wf = false ∧ (Instr.waitTimeout { port := .cpb, ring := 64 }).wf = false := by decide
theorem wf_route_register : (Instr.intRouteMaskWrite .cpa .cpa 0x10 0).wf = false ∧ (Instr.intRouteMaskWrite .cpa .cpa 0x1C 0).wf = true := by decide
theorem wf_vector : (Instr.msgWriteResponse .cpa 16 false).wf = false := by decide
theorem wf_semaphore : (Instr.semReq .debug 64).wf = false ∧ (Instr.semRel .debug 64).wf = false := by decide
theorem wf_sensors : (Instr.thermalSample [0, 0]).wf = false ∧ (Instr.therm (List.replicate 8 4096)).wf = false
    ∧ (Instr.therm (List.replicate 8 4095)).wf = true := by decide
theorem wf_detector : (Instr.droopTrip 16).wf = false := by decide
theorem wf_descriptor : (Instr.rdescAccept .hin [0] false).wf = false := by decide
theorem wf_teg : (Instr.tegAck 64 false).wf = false ∧ (Instr.tegRingCredit 64 1).wf = false := by decide
theorem wf_admit : (Instr.admitMsg hdr0 { pos := 2 ^ 24, cls := 0, gidx := 0, subseq := 0, dcrc := 0, tick := 0 }).wf = false
    ∧ (Instr.admitMsg hdr0 { pos := 0, cls := 8, gidx := 0, subseq := 0, dcrc := 0, tick := 0 }).wf = false
    ∧ (Instr.admitMsg hdr0 { pos := 0, cls := 0, gidx := 32, subseq := 0, dcrc := 0, tick := 0 }).wf = false := by decide
def row0 : CloseRow := { handle := hd0, slot := 0, pos := 0, cls := 0, gidx := 0, ovl := 0, rep := false, tseq := 0 }
theorem wf_close : (Instr.close hdr0 { phase := 16, epochs := [], rows := [] }).wf = false
    ∧ (Instr.close hdr0 { phase := 0, epochs := [], rows := [{ row0 with slot := 256 }] }).wf = false
    ∧ (Instr.close hdr0 { phase := 0, epochs := [], rows := [{ row0 with pos := 2 ^ 24 }] }).wf = false
    ∧ (Instr.close hdr0 { phase := 0, epochs := [], rows := [{ row0 with cls := 8 }] }).wf = false
    ∧ (Instr.close hdr0 { phase := 0, epochs := [], rows := [{ row0 with gidx := 32 }] }).wf = false
    ∧ (Instr.close hdr0 { phase := 0, epochs := [], rows := [{ row0 with ovl := 65536 }] }).wf = false
    ∧ (Instr.close hdr0 { phase := 0, epochs := [], rows := [{ row0 with tseq := 2 ^ 32 }] }).wf = false
    ∧ (Instr.close hdr0 { phase := 0, epochs := [], rows := [{ row0 with handle := { slot := 65536, gen := 0 } }] }).wf = false
    ∧ (Instr.close hdr0 { phase := 15, epochs := [], rows := [row0] }).wf = true := by decide
theorem wf_close_rows : (Instr.close hdr0 { phase := 0, epochs := [], rows := List.replicate 257 row0 }).wf = false := by decide +kernel
theorem wf_tiles : (Instr.tileProjected 0 0 { tile := (.pre 4096), ecc := [] }).wf = false ∧ (Instr.tileProjected 0 0 { tile := (.main 16384), ecc := [] }).wf = false
    ∧ (Instr.selectionTileClosed 0 0 (.outl 4096)).wf = false ∧ (Instr.tileProjected 0 0 { tile := (.aux true 2), ecc := [] }).wf = false
    ∧ (Instr.tileProjected 65536 0 { tile := (.main 0), ecc := [] }).wf = false ∧ (Instr.weightSegmentLoaded 0 12 (.main 0) 0 .clean).wf = false := by decide
theorem wf_punnet : (Instr.preludeDone 65536 []).wf = false ∧ (Instr.auxHeadDone 0 256 false).wf = false
    ∧ (Instr.certCutoff 65536 0).wf = false ∧ (Instr.rescoreDone 0 0 0 (2 ^ 21) .clean).wf = false := by decide
theorem wf_partials : (Instr.stat hdr0 { StatB0 with cnt := 2 ^ 22 }).wf = false ∧ (Instr.stat hdr0 { StatB0 with late := 4 }).wf = false
    ∧ (Instr.cand hdr0 [{ id := 2 ^ 21, zf := 0, eps := 0, x := 0, xhi := 0, xlo := 0 }]).wf = false
    ∧ (Instr.topm hdr0 [(2 ^ 21, 0)]).wf = false ∧ (Instr.rsq hdr0 { id := 2 ^ 21, tgt := false, eps := 0, cutoff := 0 }).wf = false
    ∧ (Instr.rsp hdr0 { id := 2 ^ 21, zs := 0, t := 0, xpre := 0, g := 0 }).wf = false := by decide
theorem wf_contenders : (Instr.win hdr0 { fast := none, spill := 0, conts := [{ id := 2 ^ 21, z := 0, eps := 0, s := 0, u := 0, x := 0, l := 0 }] }).wf = false
    ∧ (Instr.tgt hdr0 (some { id := 2 ^ 21, zf := 0, eps := 0, x := 0, xhi := 0, xlo := 0 })).wf = false
    ∧ (Instr.thresh hdr0 { kid := 2 ^ 21, kx := 0, r := 0, mp := none, dm := none, ca := none, cm := none, cr := none }).wf = false := by decide
def commit0 : CommitB :=
  { token := 0, kind := 0, flags := 0, commits := true, logprob := 0, lpbnd := 0, entropy := 0, nacc := 0, toks := [], xv := false,
    xvals := xvalsNone, top := [], draft := none, cause := 0 }
theorem wf_commit : (Instr.commit hdr0 { commit0 with token := 2 ^ 21 }).wf = false ∧ (Instr.commit hdr0 { commit0 with kind := 16 }).wf = false
    ∧ (Instr.commit hdr0 { commit0 with flags := 128 }).wf = false := by decide
theorem wf_lookup : (Instr.lkup hdr0 { next := 2 ^ 20, final := false, idx := 0, token := 0 }).wf = false
    ∧ (Instr.lkup hdr0 { next := 0, final := false, idx := 0, token := 2 ^ 21 }).wf = false := by decide
theorem wf_slots : (Instr.contextExpiry 65536).wf = false ∧ (Instr.expiredPagesFreed 65536).wf = false
    ∧ (Instr.historyDoublingDone 65536).wf = false := by decide
theorem wf_bank_part : (Instr.requantPartDone 4 0 none .none).wf = false ∧ (Instr.requantPartDone 0 4 none .none).wf = false
    ∧ (Instr.requantPartDone 0 0 (some 64) .none).wf = false := by decide
theorem wf_barrier : (Instr.bar hdr0 32 0).wf = false ∧ (Instr.rel hdr0 0 4).wf = false := by decide
theorem wf_signal : (Instr.signal hdr0 { counter := 1024, ack := false, stag := 0, status := 0, addend := 0 }).wf = false
    ∧ (Instr.signal hdr0 { counter := 0, ack := false, stag := 65536, status := 0, addend := 0 }).wf = false
    ∧ (Instr.signal hdr0 { counter := 0, ack := false, stag := 0, status := 256, addend := 0 }).wf = false
    ∧ (Instr.signalTimeout 65536).wf = false ∧ (Instr.forwardTimeout 65536).wf = false := by decide
theorem wf_purge : (Instr.purge hdr0 65536 false).wf = false := by decide
theorem wf_disc : (Instr.disc 5 false []).wf = false
    ∧ (Instr.disc 0 false [{ addr := 1024, safe := false, run := false, rejoin := false, links := [], dieid := 0, neigh := [] }]).wf = false := by decide
def frame0 : Frame := { w0 := 0, w1 := 0, payload := [], crc := 0 }
theorem wf_frames : (Instr.idleFrame 5 frame0).wf = false ∧ (Instr.dataFrame 0 { frame0 with payload := [0] }).wf = false
    ∧ (Instr.trainingWord 0 2 0 []).wf = false ∧ (Instr.trainingWord 0 0 32 []).wf = false ∧ (Instr.trainingWord 0 0 0 [0, 0, 0, 0, 0]).wf = false
    ∧ (Instr.replayTimer 5).wf = false := by decide
theorem wf_long_frame : (Instr.dataFrame 0 { frame0 with payload := List.replicate 256 0 }).wf = false := by decide +kernel
theorem wf_cause : (Instr.safeEntry 256).wf = false := by decide
theorem wf_register : (Instr.lowWordRead .cpa (2 ^ 21)).wf = false ∧ (Instr.registerWrite .cpa (2 ^ 21) 4 0).wf = false
    ∧ (Instr.registerWrite .cpa 0 3 0).wf = false := by decide
theorem wf_test_registers : (Instr.fuse (2 ^ 192)).wf = false ∧ (Instr.regacc (2 ^ 192)).wf = false := by decide

/-! ## The hypotheses of the statements can be met: the queue, packets, ports -/

theorem wit_queue : State.reset.pending = [] ∧ (∃ t, step State.reset = .next t) ∧ ∃ t, step { State.reset with pending := [.tclkTick, .timeAlign] } = .next t :=
  ⟨rfl, ⟨_, rfl⟩, ⟨_, rfl⟩⟩
theorem wit_inv : State.reset.Inv ∧ ∃ t, step { State.reset with pending := [.tclkTick] } = .next t := ⟨⟨by decide, by decide⟩, ⟨_, rfl⟩⟩
theorem wit_safe_stays : Instr.tclkTick.mayReset = false ∧ (inBlk .safe).blk = .safe ∧ ({ ready with quar := true } : State).quar = true
    ∧ ∃ t, exec .tclkTick (inBlk .safe) = .next t := ⟨rfl, rfl, rfl, ⟨_, rfl⟩⟩
def failedClock : State := { ready with pwr := { ready.pwr with clkFail := true } }
theorem wit_clock_failure : failedClock.pwr.clkFail = true ∧ Instr.tclkTick ≠ .coldReset ∧ Instr.tclkTick ≠ .testLogicReset
    ∧ Instr.tclkTick ≠ .dbgenDeselect := by decide

/-- Safe with the rings served: SAFE was entered from RUN. -/
def safeServed : State := { inBlk .safe with faults := { State.reset.faults with safe := true, prior := 3 } }
theorem wit_checks_packet : (Instr.sysNop (mk 0x0100 [])).packet?.isSome = true ∧ ready.serving = true ∧ (ready.ring r0).en = true
    ∧ (ready.ring r0).untaken ≠ 0 ∧ ready.takeable (mk 0x0100 []) 1 = true ∧ ready.takeable (mk 0x0501 []) 2 = true := by decide +kernel
theorem wit_check_kcrc : ({ mk 0x0100 [] with kcrc := 0 } : Pkt).kcrcOk = false ∧ (ready.ring r0).room 1 = true := by decide +kernel
theorem wit_check_opcode : definedOpcode (mk 0x0107 []).opcode.toNat = false ∧ definedOpcode (mk 0x0106 []).opcode.toNat = true
    ∧ definedOpcode (mk 0x0D00 []).opcode.toNat = false := by decide +kernel
theorem wit_check_safe : safeServed.serving = true ∧ safeServed.blk = .safe ∧ safeOpcode 0x0102 = false ∧ safeOpcode 0x0101 = true
    ∧ safeServed.takeable (mk 0x0102 []) 1 = true := by decide +kernel
theorem wit_check_fields : sysPcapD.bad (mk 0x0106 [19]) run = some 0 ∧ sysPcapD.bad (mk 0x0106 [20]) run = none
    ∧ sysPcapD.bad (mk 0x0106 [110]) run = none ∧ sysPcapD.bad (mk 0x0106 [111]) run = some 0 := by decide +kernel
theorem wit_check_state : sysStartD.legal.contains run.blk = false ∧ sysStartD.legal.contains ready.blk = true
    ∧ ready.serialiser sysStartD (mk 0x0102 []) = ready.orch.shard := by decide +kernel
theorem wit_check_object : syncFreeD.pre (ready.origin (mk 0x0801 [64])) (mk 0x0801 [64]) (ready.taken (mk 0x0801 [64]) 1) = some (Cpl.of stWrongState 0)
    ∧ sysStartD.pre (ready.origin (mk 0x0102 [])) (mk 0x0102 []) (ready.taken (mk 0x0102 []) 1) = none := by decide +kernel
def groupJob : Job := { origin := .member, opcode := 0, kind := .discover, lock := some objGroup }
theorem wit_check_lock : sysStartD.lock (mk 0x0102 []) ready = some objGroup ∧ ready.locked objGroup = false
    ∧ ({ ready with jobs := [groupJob] } : State).locked objGroup = true := by decide +kernel
theorem wit_answer : ∀ o ∈ (ready.ring r0).outst, o.id ≠ ready.cmdId := by decide +kernel
theorem wit_fresh : ∀ r, ∀ o ∈ (State.reset.ring r).outst, o.id < State.reset.cmdId := by
  intro r o h; cases r with | mk p n => cases p <;> cases h

/-- The state with ring 0 of CPA changed. -/
def withRing (s : State) (f : Ring → Ring) : State := s.setRing r0 (f (s.ring r0))
def out0 : Outst := { id := 0, tag := 7, opcode := 0x0100, noint := false, reserve := 1 }
theorem wit_packet_waits : State.reset.serving = false ∧ (State.reset.ring r0).en = false
    ∧ ((withRing ready (fun q => { q with sqt := 0 })).ring r0).untaken = 0
    ∧ (mk (0x10100) []).fence = true ∧ ((withRing ready (fun q => { q with outst := [out0] })).ring r0).outst ≠ []
    ∧ ((withRing ready (fun q => { q with asleep := true })).ring r0).asleep = true
    ∧ ((withRing ready (fun q => { q with cqt := 16 })).ring r0).room 1 = false
    ∧ ((withRing ready (fun q => { q with cqt := 15 })).ring r0).room 1 = true := by decide +kernel
/-- A member whose root is shard 0. -/
def member1 (b : Blk) : State :=
  let ms : List Member := [{ addr := 0, shard := 0, state := 2, rejoin := false }, { addr := 1, shard := 1, state := 2, rejoin := false }]
  let o : Orch := { Orch.reset with shard := 1, n := 2, member := true, rootSh := 0, parent := some 0, parentSh := 0, members := ms }
  { inBlk b with orch := o }
theorem wit_forwarded : Starts (member1 .ready) (mk 0x0102 []) 0x0102 1 [] [.ready]
    ∧ (member1 .ready).serialiser sysStartD (mk 0x0102 []) ≠ (member1 .ready).orch.shard ∧ sysStartD.bad (mk 0x0102 []) (member1 .ready) = none :=
  ⟨starts _ _ _ _ _ _ (by decide +kernel), by decide +kernel, by decide +kernel⟩

theorem wit_ring_error_doorbell : ready.live = true ∧ (ready.ring r0).en = true ∧ 2 ^ (ready.ring r0).sqlog < ((17 : Half) - (ready.ring r0).sqh).toNat
    ∧ ((16 : Half) - (ready.ring r0).sqh).toNat ≤ 2 ^ (ready.ring r0).sqlog := by decide +kernel
theorem wit_ring_error_head : 2 ^ (ready.ring r0).cqlog < ((ready.ring r0).cqt - (0xFFEF : Half)).toNat
    ∧ ((ready.ring r0).cqt - (0xFFF0 : Half)).toNat ≤ 2 ^ (ready.ring r0).cqlog := by decide +kernel
def cqw0 : CqWrite := { id := 0, words := [1, 2, 3, 4], final := true, intr := true, retry := false }
def writing : State := withRing ready (fun q => { q with outst := [out0], cqw := [cqw0], cie := true, sqh := 1 })
theorem wit_ring_error_write : (({ mk 0x0100 [] with readErr := true } : Pkt).readErr = true)
    ∧ ((withRing writing (fun q => { q with cqw := [{ cqw0 with retry := true }], en := false })).ring r0).cqw = [{ cqw0 with retry := true }]
    ∧ (writing.ring r0).outst.find? (fun o => decide (o.id = 0)) = some out0 := by decide +kernel
/-- SQLOG and CQLOG of 12 and 4, EN set; SQLOG 13 is outside. -/
theorem wit_ring_sizes : (State.reset.ring r0).en = false ∧ bitAt (0x99 : Word) 0 = true ∧ ((State.reset.ring r0).ctl 0x99).sizesOk = true
    ∧ ((State.reset.ring r0).ctl 0x189).sizesOk = true ∧ ((State.reset.ring r0).ctl 0x9B).sizesOk = false
    ∧ ((State.reset.ring r0).ctl 0x87).sizesOk = false ∧ ((State.reset.ring r0).ctl 0x99).en = false ∧ State.reset.live = true := by decide +kernel
theorem wit_cq_write : writing.live = true ∧ (writing.ring r0).cqw = [cqw0] ∧ cqw0.retry = false ∧ (ready.ring r0).cqw = []
    ∧ (writing.ring r0).cie = true ∧ cqw0.intr = true := by decide +kernel
def messaged : Port := { Port.reset with mode := 1, msga := [(0, 0x1000)], msgd := [(0, 5)], msgOut := [(0, false)], intStatus := 1, intMask := 0, vpend := 1 }
theorem wit_message : ({ ready with cpa := messaged } : State).live = true ∧ messaged.msgOut.find? (fun x => x.1 = 0) = some (0, false)
    ∧ messaged.sumBit 0 = true ∧ messaged.msgOn 0 = true
    ∧ ({ messaged with msgOut := [(0, true)] } : Port).msgOut.find? (fun x => x.1 = 0) = some (0, true) := by decide +kernel
theorem wit_register_access : accessOk 0x1001 4 = false ∧ accessHits 0x30 4 = false ∧ accessOk 0x1000 8 = true ∧ accessHits 0x1000 8 = true
    ∧ isWide 0x20420 = true ∧ isWide 0x20424 = false := by decide +kernel
theorem wit_other_window : PortId.cpa ≠ PortId.cpb ∧ 0x11000 / 0x10000 = 1 ∧ accessOk 0x11000 8 = true ∧ accessHits 0x11000 8 = true
    ∧ ready.debugOn = false ∧ accessOk 0x30024 4 = true ∧ regDefined 0x30024 = true := by decide +kernel

/-! ## Semaphores, counters, barriers -/

def held (o : Nat) (ws : List (PortId × Origin)) : State := ready.setSem 63 { Sem.reset with owner := o, grants := 255, waiters := ws }
theorem wit_semaphore : (63 : Nat) < 64 ∧ (ready.sem 63).owner = 0 ∧ ((held 1 []).sem 63).owner = portCode .cpa ∧ ((held 1 []).sem 63).waiters = []
    ∧ ((held 1 [(.cpb, .member)]).sem 63).waiters = [(.cpb, .member)] ∧ ((held 2 []).sem 63).owner ≠ portCode .cpa := by decide +kernel
def debugged : State := { ready with dbg := { ready.dbg with en := true } }
theorem wit_semaphore_debug : debugged.debugOn = true ∧ debugged.live = true ∧ (({ held 3 [] with dbg := debugged.dbg } : State).sem 63).owner = 3
    ∧ ready.debugOn = false := by decide +kernel
theorem wit_semaphore_register : bitAt (0x30000 : W64) 2 = false ∧ bitAt (0x30000 : W64) 17 = true ∧ bitAt (0x10000 : W64) 17 = false
    ∧ bitAt (0x10000 : W64) 16 = true := by decide
theorem wit_semacq : Starts ready (mk 0x0808 [63]) 0x0808 1 [0x3F] allButDump ∧ Starts (held 1 []) (mk 0x0809 [63]) 0x0809 1 [0x3F] allButDump
    ∧ (mk 0x0809 [63]).fld 0 0 6 = 63 := ⟨starts _ _ _ _ _ _ (by decide +kernel), starts _ _ _ _ _ _ (by decide +kernel), by decide +kernel⟩

def allocated (n : Nat) (v : W64) (o : Nat) : State := run.setCtr n { value := v, owner := o, waiters := [] }
theorem wit_alloc : Starts run (mk 0x0800 [64]) 0x0800 1 [0x7FF] rdyRunDrn ∧ bitAt ((mk 0x0800 [64]).p 0) 10 = false ∧ 64 ≤ (mk 0x0800 [64]).fld 0 0 10
    ∧ (run.ctr 64).owner = 0 ∧ ((allocated 64 0 2).ctr 64).owner ≠ 0 :=
  ⟨starts _ _ _ _ _ _ (by decide +kernel), by decide +kernel, by decide +kernel, by decide +kernel, by decide +kernel⟩
theorem wit_alloc_any : Starts run (mk 0x0800 [0x400]) 0x0800 1 [0x7FF] rdyRunDrn ∧ bitAt ((mk 0x0800 [0x400]).p 0) 10 = true
    ∧ (mk 0x0800 [0x400]).fld 0 0 10 = 0 ∧ run.freeCtr = some 64 :=
  ⟨starts _ _ _ _ _ _ (by decide +kernel), by decide +kernel, by decide +kernel, by decide +kernel⟩
theorem wit_counter_commands : Starts (allocated 1023 4 1) (mk 0x0801 [1023]) 0x0801 1 [0x3FF] rdyRunDrn
    ∧ Starts (allocated 1023 4 1) (mk 0x0802 [1023, 5, 0]) 0x0802 1 [0x3FF, all32, all32] rdyRunDrn
    ∧ Starts (allocated 1023 4 1) (mk 0x0803 [1023, 5, 0]) 0x0803 1 [0x3FF, all32, all32] rdyRunDrn
    ∧ Starts (allocated 1023 4 1) (mk 0x0804 [1023]) 0x0804 1 [0x3FF] rdyRunDrn
    ∧ Starts (allocated 1023 4 1) (mk 0x0805 [1023, 5, 0, 9]) 0x0805 1 [0x3FF, all32, all32, all32] rdyRunDrn :=
  ⟨starts _ _ _ _ _ _ (by decide +kernel), starts _ _ _ _ _ _ (by decide +kernel), starts _ _ _ _ _ _ (by decide +kernel),
    starts _ _ _ _ _ _ (by decide +kernel), starts _ _ _ _ _ _ (by decide +kernel)⟩
/-- The value 4 meets the target 4 and not the target 5. -/
theorem wit_wait : ((allocated 1023 4 1).ctr 1023).owner = portCode r0.port ∧ ((allocated 1023 4 2).ctr 1023).owner ≠ portCode r0.port
    ∧ (((allocated 1023 4 1).ctr 1023).value - (mk 0x0805 [1023, 5]).p64 1).toInt < 0
    ∧ 0 ≤ (((allocated 1023 4 1).ctr 1023).value - (mk 0x0805 [1023, 4]).p64 1).toInt := by decide +kernel
def waiter0 : Waiter := { origin := .ring r0 0, port := .cpa, target := 5, expiry := 9 }
theorem wit_wake : (0 : Int) ≤ ((5 : W64) - waiter0.target).toInt ∧ (∃ o ∈ (writing.ring r0).outst, o.id = 0) ∧ writing.live = true
    ∧ waiter0.expiry ≠ 0 ∧ waiter0.expiry ≤ ({ ready with time := { ready.time with tclk := 9 } } : State).now := by decide +kernel

theorem wit_signal : Starts run (mk 0x0806 [64 + 1024, 1, 0]) 0x0806 1 [0xFFFFF, all32, all32] rdyRunDrn
    ∧ 64 ≤ (mk 0x0806 [64 + 1024, 1, 0]).fld 0 0 10 := ⟨starts _ _ _ _ _ _ (by decide +kernel), by decide +kernel⟩
theorem wit_signal_message : run.working = true ∧ hdr0.parity = false ∧ hdr0.hops < 1023 ∧ run.orch.loop = [] ∧ run.forMe hdr0 = true
    ∧ ((allocated 64 0 1).ctr 64).owner ≠ 0 ∧ (run.ctr 64).owner = 0 := by decide +kernel
def signalJob : Job := { origin := .ring r0 0, opcode := 0x0806, kind := .signal 3 1, lock := none }
theorem wit_signal_answer : ({ run with jobs := [signalJob] } : State).jobs = [] ++ signalJob :: [] ∧ signalJob.kind = .signal 3 1
    ∧ (∀ x ∈ ([] : List Job) ++ [], ∀ d, x.kind ≠ .signal 3 d) := ⟨rfl, rfl, fun x h => by cases h⟩

/-- A barrier of a port, at a root with one child and at a member. -/
def root2 (b : Blk) : State :=
  let ms : List Member := [{ addr := 0, shard := 0, state := 2, rejoin := false }, { addr := 1, shard := 1, state := 2, rejoin := false }]
  let o : Orch := { Orch.reset with shard := 0, n := 2, member := true, rootSh := 0, members := ms, kids := [(1, 0, 1)] }
  { inBlk b with orch := o, ing := { State.reset.ing with grants := true } }
theorem wit_barrier_count : ((root2 .run).bar 8).openTag = 0 ∧ ((root2 .run).bar 8).cntOpen + 1 ≠ (root2 .run).subtreeSize
    ∧ ((root2 .run).bar 8).cntOpen + 2 = (root2 .run).subtreeSize ∧ (root2 .run).isRoot = true ∧ (member1 .run).isRoot = false
    ∧ ((member1 .run).bar 8).cntOpen + 1 = (member1 .run).subtreeSize ∧ (1 : Nat) = (((root2 .run).bar 8).openTag + 1) % 4
    ∧ (2 : Nat) ≠ ((root2 .run).bar 8).openTag ∧ (2 : Nat) ≠ (((root2 .run).bar 8).openTag + 1) % 4 := by decide +kernel
theorem wit_barrier_command : Starts (root2 .run) (mk 0x0807 [8]) 0x0807 1 [0x1F] [.run, .drain] ∧ 8 ≤ (mk 0x0807 [8]).fld 0 0 5
    ∧ ((root2 .run).bar 8).inRound = false
    ∧ (((root2 .run).setBar 8 { Barrier.reset with inRound := true }).bar 8).inRound = true :=
  ⟨starts _ _ _ _ _ _ (by decide +kernel), by decide +kernel, by decide +kernel, by decide +kernel⟩
theorem wit_release : ((root2 .run).setBar 8 { Barrier.reset with entered := [.ring r0 0] }).bar 8 = { Barrier.reset with entered := [.ring r0 0] }
    ∧ ({ hdr0 with bcast := true } : Hdr).bcast = true ∧ (root2 .run).live = true ∧ (root2 .run).orch.loop = [] := by decide +kernel

/-! ## Block control, saving, configuration -/

theorem wit_sys : Starts ready (mk 0x0100 []) 0x0100 1 [] allStates ∧ Starts ready (mk 0x0101 []) 0x0101 1 [] allStates
    ∧ Starts ready (mk 0x0102 []) 0x0102 1 [] [.ready] ∧ Starts run (mk 0x0103 [0]) 0x0103 1 [1] [.run] ∧ Starts run (mk 0x0103 [1]) 0x0103 1 [1] [.run] :=
  ⟨starts _ _ _ _ _ _ (by decide +kernel), starts _ _ _ _ _ _ (by decide +kernel), starts _ _ _ _ _ _ (by decide +kernel),
    starts _ _ _ _ _ _ (by decide +kernel), starts _ _ _ _ _ _ (by decide +kernel)⟩
theorem wit_start_members : ready.isRoot = true ∧ (∀ m ∈ (root2 .ready).orch.members, m.shard ≠ (root2 .ready).orch.shard → m.state = 2)
    ∧ (∃ m ∈ ((root2 .ready).markAll 0).orch.members, m.shard ≠ (root2 .ready).orch.shard ∧ m.state ≠ 2) ∧ (root2 .ready).locked objGroup = false := by
  decide +kernel
theorem wit_cap : Starts run (mk 0x0106 [0]) 0x0106 1 [0xFF] rdyRunDrn ∧ Starts run (mk 0x0106 [20]) 0x0106 1 [0xFF] rdyRunDrn
    ∧ Starts run (mk 0x0106 [110]) 0x0106 1 [0xFF] rdyRunDrn ∧ (mk 0x0106 [0]).fld 0 0 8 = 0 ∧ (mk 0x0106 [20]).fld 0 0 8 = 20 ∧ (mk 0x0106 [110]).fld 0 0 8 = 110 :=
  ⟨starts _ _ _ _ _ _ (by decide +kernel), starts _ _ _ _ _ _ (by decide +kernel), starts _ _ _ _ _ _ (by decide +kernel), by decide +kernel,
    by decide +kernel, by decide +kernel⟩

/-- An address word of T1 with V, at 0x10000. -/
def addr0 : Nat := 0x10004
theorem wit_save : Starts ready (mk 0x0104 [addr0, 0, 4096]) 0x0104 1 [all32, all32, all32] [.ready] ∧ addrOk true ((mk 0x0104 [addr0, 0, 4096]).p64 0) = true
    ∧ ready.locked objSelf = false ∧ ready.saveLen ≤ ((mk 0x0104 [addr0, 0, 4096]).p 2).toNat * 4096
    ∧ ((mk 0x0104 [addr0, 0, 0]).p 2).toNat * 4096 < ready.saveLen :=
  ⟨starts _ _ _ _ _ _ (by decide +kernel), by decide +kernel, by decide +kernel, by decide +kernel, by decide +kernel⟩
def slotOpen (st : Nat) : State := ready.setSlot 0 { SlotEnt.reset with gen := 1, rstate := st }
def poisoned (s : State) : State := { s with mem := { s.mem with poison := [0x10000 / 64] } }
theorem wit_restore : Starts ready (mk 0x0105 [addr0, 0, 1]) 0x0105 1 [all32, all32, 0x7FF] [.ready]
    ∧ Starts ready (mk 0x0105 [addr0, 0, 1024]) 0x0105 1 [all32, all32, 0x7FF] [.ready]
    ∧ addrOk false ((mk 0x0105 [addr0, 0, 1]).p64 0) = true ∧ (mk 0x0105 [addr0, 0, 1]).fld 2 0 11 = 1 ∧ (mk 0x0105 [addr0, 0, 1024]).fld 2 0 11 = 1024 :=
  ⟨starts _ _ _ _ _ _ (by decide +kernel), starts _ _ _ _ _ _ (by decide +kernel), by decide +kernel, by decide +kernel, by decide +kernel⟩
theorem wit_restore_refused : (∃ e ∈ (slotOpen 1).slots, e.2.rstate ≠ 0) ∧ (∀ e ∈ ready.slots, e.2.rstate = 0)
    ∧ (poisoned ready).mem.bad (addrKey ((mk 0x0105 [addr0, 0, 1]).p64 0)) 8 = true ∧ ready.mem.bad (addrKey ((mk 0x0105 [addr0, 0, 1]).p64 0)) 8 = false
    ∧ imageOk ready.mem (addrKey ((mk 0x0105 [addr0, 0, 1]).p64 0)) = false := by decide +kernel

theorem wit_cfg_set : Starts run (mk 0x0200 [8, 0x1F, 0, 0, 8, 100, 0]) 0x0200 1 [0xF, 0x1F, 0xFFFF, 0xFFF, 0xFF, 0x7F, 0x7FFF] rdyRunDrn
    ∧ (setVals (mk 0x0200 [8, 0x1F, 0, 0, 8, 100, 0])).ok = true ∧ (mk 0x0200 [8, 0x1F, 0, 0, 8, 100, 0]).fld 0 0 4 = 8 ∧ (8 : Nat) ≠ run.conf.phase
    ∧ (0 : Nat) = run.conf.phase ∧ run.conf.pend = none ∧ ({ run.conf with pend := some (mk 0x0201 [1]) } : Conf).pend ≠ none :=
  ⟨starts _ _ _ _ _ _ (by decide +kernel), by decide +kernel, by decide +kernel, by decide, by decide, by decide, by decide⟩
theorem wit_cfg_phase : Starts run (mk 0x0201 [8]) 0x0201 1 [0xF] rdyRunDrn ∧ (mk 0x0201 [8]).fld 0 0 4 ≤ 8 :=
  ⟨starts _ _ _ _ _ _ (by decide +kernel), by decide +kernel⟩
theorem wit_cfg_region : Starts ready (mk 0x0202 [0, addr0, 0, 192, 0]) 0x0202 1 [0x7, all32, all32, all32, 0] rdyRunDrn
    ∧ regionAddr 0 ((mk 0x0202 [0, addr0, 0, 192, 0]).p64 1) = true ∧ ready.leastSize 0 0 ≤ ((mk 0x0202 [0, addr0, 0, 192, 0]).p 3).toNat * 4096
    ∧ ((mk 0x0202 [0, addr0, 0, 191, 0]).p 3).toNat * 4096 < ready.leastSize 0 0 :=
  ⟨starts _ _ _ _ _ _ (by decide +kernel), by decide +kernel, by decide +kernel, by decide +kernel⟩
theorem wit_cfg_regions : Starts ready (mk 0x0202 [2, addr0, 0, 1024, 0]) 0x0202 1 [0x7, all32, all32, all32, 0] rdyRunDrn
    ∧ ready.leastSize 2 0 ≤ ((mk 0x0202 [2, addr0, 0, 1024, 0]).p 3).toNat * 4096
    ∧ Starts ready (mk 0x0202 [4, addr0, 0, 32, 16]) 0x0202 1 [0x7, all32, all32, all32, 0xFFFF] rdyRunDrn
    ∧ ready.leastSize 4 16 ≤ ((mk 0x0202 [4, addr0, 0, 32, 16]).p 3).toNat * 4096
    ∧ regionAddr 5 (0x10005 : W64) = true ∧ regionAddr 6 (0x10005 : W64) = true ∧ regionAddr 2 (0x10005 : W64) = false :=
  ⟨starts _ _ _ _ _ _ (by decide +kernel), by decide +kernel, starts _ _ _ _ _ _ (by decide +kernel), by decide +kernel, by decide, by decide, by decide⟩
/-- Ring 3 with 2^16 units, enabled: P0 is 3 + 16 * 16 + 2^9. -/
theorem wit_cfg_ring : Starts run (mk 0x0203 [3 + 256 + 512, 0x200004, 0, addr0, 0]) 0x0203 1 [0x3FF, all32, all32, all32, all32] rdyRunDrn
    ∧ (mk 0x0203 [3 + 256 + 512, 0x200004, 0, addr0, 0]).fld 0 4 5 = 16 ∧ (mk 0x0203 [3 + 96, 0x200004, 0, addr0, 0]).fld 0 4 5 = 6
    ∧ ringAligned ((mk 0x0203 [3 + 256 + 512, 0x200004, 0, addr0, 0]).p64 1) 16 = true ∧ run.ringNamed 3 = false ∧ run.ringUsers 3 = []
    ∧ bitAt ((mk 0x0203 [3 + 256 + 512, 0x200004, 0, addr0, 0]).p 0) 9 = true :=
  ⟨starts _ _ _ _ _ _ (by decide +kernel), by decide +kernel, by decide +kernel, by decide +kernel, by decide +kernel, by decide +kernel, by decide +kernel⟩
/-- A request in slot 0, its records on ring 3. -/
def opened (b : Blk) : State :=
  { inBlk b with slots := [(0, { SlotEnt.reset with gen := 1, rstate := 1 })], scx := [(0, { Scx.zero with gen := 1, tring := 3, kvring := 3, headRes := true })] }
theorem wit_ring_named : (opened .run).ringNamed 3 = true := by decide +kernel
def withRegion (s : State) (c len : Nat) : State := { s with conf := { s.conf with regions := Tab.set s.conf.regions c { base := 0x10004, len := len } } }
/-- V of 2^21, D of 128, EPS of 0. -/
theorem wit_cfg_headset : Starts ready (mk 0x0204 [4, 0x200000, 128, 0]) 0x0204 1 [0xF, 0x3FFFFF, 0xFFFF, all32] rdyRunDrn
    ∧ (mk 0x0204 [4, 0x200000, 128, 0]).fld 1 0 22 = 2 ^ 21 ∧ (mk 0x0204 [4, 1, 32768, 0]).fld 2 0 16 = 32768 ∧ isFin ((mk 0x0204 [4, 0x200000, 128, 0]).p 3) = true
    ∧ fle 0 ((mk 0x0204 [4, 0x200000, 128, 0]).p 3) = true ∧ vecSize (ready.dMaxWith 0 128) ≤ 0x1C0000 :=
  ⟨starts _ _ _ _ _ _ (by decide +kernel), by decide +kernel, by decide +kernel, by decide +kernel, by decide +kernel, by decide +kernel⟩
def bank1 (st : BankSt) (b : Blk) : State := (inBlk b).setBank 0 1 { Bank.reset with st := st, epoch := 5 }
theorem wit_cfg_headset_regions : (∃ r, Tab.find? (withRegion ready 0 0x1C0000).conf.regions 0 = some r ∧ vecSize 128 ≤ r.len)
    ∧ (∀ k, k < 4 → ((withRegion ready 0 0x1C0000).bank 0 k).st = .empty) ∧ (withRegion ready 0 0x1C0000).locked (objHead 0) = false
    ∧ (∃ k, k < 4 ∧ ((bank1 .ready .run).bank 0 k).st ≠ .empty) :=
  ⟨⟨_, rfl, by decide⟩, by decide +kernel, by decide +kernel, ⟨1, by decide, by decide +kernel⟩⟩
theorem wit_cfg_slot : Starts ready (mk 0x0205 [4, addr0, 0, 1]) 0x0205 1 [0x3F, all32, all32, all32] rdyRunDrn
    ∧ (mk 0x0205 [4, addr0, 0, 1]).fld 0 4 2 = 0 ∧ (mk 0x0205 [20, addr0, 0, 1]).fld 0 4 2 = 1 ∧ (mk 0x0205 [36, addr0, 0, 1]).fld 0 4 2 = 2
    ∧ (mk 0x0205 [4, addr0, 0, 1]).fld 0 2 2 = 1 ∧ (ready.bank 0 1).st = .empty ∧ ((bank1 .ready .ready).bank 0 1).st ≠ .empty :=
  ⟨starts _ _ _ _ _ _ (by decide +kernel), by decide +kernel, by decide +kernel, by decide +kernel, by decide +kernel, by decide +kernel, by decide +kernel⟩

/-! ## Profiles, tables, banks -/

/-- Words stored at the block's address. -/
def stored (s : State) (ws : List Word) : State := s.storeWords 0x10000 ws
/-- A record of defaults with its PCRC. -/
def profRecord : List Word := profWords Profile.dflt 0
theorem wit_prof_write : Starts run (mk 0x0300 [1023 + 15360, addr0, 0]) 0x0300 1 [0x3FFF, all32, all32] rdyRunDrn
    ∧ run.isRoot = true ∧ run.locked (objProf 1023) = false ∧ ∀ f, (run.prof 1023).former = some f → run.profPins 1023 f.1 = 0 :=
  ⟨starts _ _ _ _ _ _ (by decide +kernel), by decide, by decide +kernel, fun f h => by cases h⟩
theorem wit_prof_record : let ws := (stored run profRecord).mem.words 0x10000 32
    (stored run profRecord).mem.bad 0x10000 128 = false ∧ ws.getD 31 0 = crcWords (ws.take 31) ∧ profClean ws = true ∧ (profOf ws).ok = true
    ∧ (profOf ws).crossOk = true := by decide +kernel
theorem wit_prof_bad : (poisoned run).mem.bad 0x10000 128 = true
    ∧ (let ws := (stored run [1]).mem.words 0x10000 32; ws.getD 31 0 ≠ crcWords (ws.take 31))
    ∧ (profOf (profWords { Profile.dflt with topp := 0 } 0)).ok = false ∧ (profOf (profWords { Profile.dflt with dlmin := 5 } 0)).crossOk = false := by
  decide +kernel
def standby1 : State := run.setProf 1023 { ProfObj.dflt with stby := some [] }
theorem wit_prof_swap : Starts standby1 (mk 0x0301 [1023]) 0x0301 1 [0x3FF] rdyRunDrn ∧ (standby1.prof 1023).stby = some [] ∧ (run.prof 1023).stby = none :=
  ⟨starts _ _ _ _ _ _ (by decide +kernel), by decide +kernel, by decide +kernel⟩
theorem wit_prof_read : Starts run (mk 0x0302 [5, addr0, 0]) 0x0302 1 [0x7FFF, all32, all32] rdyRunDrn ∧ bitAt ((mk 0x0302 [5, addr0, 0]).p 0) 14 = false
    ∧ bitAt ((mk 0x0302 [5 + 16384, addr0, 0]).p 0) 14 = true := ⟨starts _ _ _ _ _ _ (by decide +kernel), by decide +kernel, by decide +kernel⟩

/-- A bias-set image of one entry: magic, version, count, length, BCRC at 0x38, HCRC at 0x3C. -/
def biasWords : List Word :=
  let body : List Word := [5, 0x3F800000]
  let head : List Word := [0x53424956, 1, 1, 72] ++ List.replicate 10 0 ++ [crcWords body]
  head ++ [crcWords head] ++ body
theorem wit_tbl_load : Starts run (mk 0x0400 [2, addr0, 0, 72]) 0x0400 1 [0x3FF, all32, all32, all32] rdyRunDrn ∧ tblNumOk (mk 0x0400 [2, addr0, 0, 72]) = true
    ∧ run.secondFree (tblKey (mk 0x0400 [2, addr0, 0, 72])) = true :=
  ⟨starts _ _ _ _ _ _ (by decide +kernel), by decide +kernel, by decide +kernel⟩
theorem wit_tbl_image : readImage (stored run biasWords).mem 2 0x10000 72 = .ok (.bias [(5, 0x3F800000)]) := by decide +kernel
theorem wit_tbl_image_bad : readImage run.mem 2 0x10000 72 = .error (Cpl.of stBadParam 0)
    ∧ readImage (stored run (biasWords.set 4 1)).mem 2 0x10000 72 = .error (Cpl.of stBadParam 0x02) := by decide +kernel
def gen1 : Gen := { num := 1, img := .bias [(5, 0x3F800000)] }
def tabled (t : TblObj) : State := run.setTbl (tblKey (mk 0x0401 [2])) t
theorem wit_tbl_swap : Starts run (mk 0x0401 [2]) 0x0401 1 [0x3FF] rdyRunDrn
    ∧ ((tabled { TblObj.reset with second := .standby gen1.img }).tbl (tblKey (mk 0x0401 [2]))).second = .standby gen1.img
    ∧ (tabled { TblObj.reset with cur := some gen1, second := .standby gen1.img }).tblPins (tblKey (mk 0x0401 [2])) 1 = 0
    ∧ (run.tbl (tblKey (mk 0x0401 [2]))).standby = none :=
  ⟨starts _ _ _ _ _ _ (by decide +kernel), by decide +kernel, by decide +kernel, by decide +kernel⟩
theorem wit_tbl_free : Starts run (mk 0x0402 [2 + 2048]) 0x0402 1 [0xFFF] rdyRunDrn ∧ bitAt ((mk 0x0402 [2 + 2048]).p 0) 11 = true
    ∧ bitAt ((mk 0x0402 [2 + 2048 + 1024]).p 0) 10 = true ∧ (run.tbl (tblKey (mk 0x0402 [2]))).cur = none
    ∧ ((tabled { TblObj.reset with cur := some gen1 }).tbl (tblKey (mk 0x0401 [2]))).cur = some gen1 :=
  ⟨starts _ _ _ _ _ _ (by decide +kernel), by decide +kernel, by decide +kernel, by decide +kernel, by decide +kernel⟩
theorem wit_tbl_query : Starts run (mk 0x0403 [2]) 0x0403 1 [0x3FF] rdyRunDrn ∧ run.secondFree (tblKey (mk 0x0403 [2])) = true :=
  ⟨starts _ _ _ _ _ _ (by decide +kernel), by decide +kernel⟩

/-- Head set 0 of 512 entries and 128 elements, regions named for slot 0. -/
def headed (b : Blk) : State :=
  let r : Option Region := some { base := 0x20000004, len := 2 ^ 24 }
  let s := { inBlk b with conf := { Conf.reset with heads := [(0, { HeadSet.reset with v := 512, d := 128 })] } }
  s.setBank 0 0 { Bank.reset with code := r, side := r, shadow := r }
/-- A load block for slot 0: epoch 5 in FP4, its source at 0x40000. -/
def loadBlock : List Word :=
  let ws : List Word := [0x50000, 0, 0, 0, 0x40004, 0] ++ List.replicate 25 0
  ws ++ [crcWords ws]
theorem wit_epoch_load : Starts (headed .run) (mk 0x0500 [addr0, 0]) 0x0500 1 [all32, all32] rdyRunDrn
    ∧ addrOk false ((mk 0x0500 [addr0, 0]).p64 0) = true ∧ (stored (headed .run) loadBlock).locked (objBank 0 0) = false
    ∧ (epochLoadPre (mk 0x0500 [addr0, 0]) (headed .run)).isSome = true :=
  ⟨starts _ _ _ _ _ _ (by decide +kernel), by decide +kernel, by decide +kernel, by decide +kernel⟩
theorem wit_epoch_load_block : epochLoadPre (mk 0x0500 [addr0, 0]) (stored (headed .run) loadBlock) = none := by decide +kernel
def loading : State := bank1 .loading .run
theorem wit_load_parts : loading.working = true ∧ (loading.bank 0 1).st = .loading ∧ (∀ r ∈ (loading.bank 0 1).reports, r.1 ≠ loading.orch.shard)
    ∧ loading.isRoot = true ∧ (loading.bank 0 1).blk.round = 0 ∧ (loading.bank 0 1).epoch = 5 := by decide +kernel
/-- A group of one, and of two, before the load starts. -/
theorem wit_load_start : (stored (headed .run) loadBlock).orch.n = 1 ∧ (stored (headed .run) loadBlock).orch.shard = 0
    ∧ (∃ i, i < (root2 .run).orch.n ∧ i ≠ (root2 .run).orch.shard) := ⟨by decide +kernel, by decide +kernel, 1, by decide, by decide⟩
theorem wit_part_room : (headed .run).partRoom 0 1 0 0 0 LoadBlk.zero = false ∧ (headed .run).partRoom 0 0 0 0 0 LoadBlk.zero = true := by decide +kernel
/-- The empty part of a head set without tiles converts. -/
theorem wit_load_converts : (match loading.convBank 0 1 (loading.convStart 0 0) with | .ok _ => true | .error _ => false) = true := by decide +kernel
def variant0 : Variant :=
  { rank := 64, srcA := 0x40004, srcB := 0x50004, reports := [], go := true, usable := false, freeing := false, gone := false, here := false,
    code := 0, side := 0 }
def varied (st : BankSt) (v : Variant) : State := (inBlk .run).setBank 0 1 { Bank.reset with st := st, epoch := 5, vars := [(63, v)] }
theorem wit_variant_part : (varied .active variant0).working = true ∧ ((varied .active variant0).bank 0 1).st = .active
    ∧ Tab.find? ((varied .active variant0).bank 0 1).vars 63 = some variant0 ∧ variant0.reports.contains 0 = false ∧ variant0.go = true := by decide +kernel
theorem wit_switch : Starts (bank1 .ready .run) (mk 0x0501 [0, 5]) 0x0501 2 [0x3, 0xFFFF] rdyRunDrn ∧ (bank1 .ready .run).switchOf 0 ≠ some .deferred
    ∧ (bank1 .ready .run).incoming 0 5 = some 1 ∧ run.incoming 0 5 = none ∧ (bank1 .ready .run).locked (objHead 0) = false
    ∧ (bank1 .ready .run).slotIn 0 .retained = none ∧ ((bank1 .ready .run).setBank 0 2 { Bank.reset with st := .retained }).slotIn 0 .retained = some 2 :=
  ⟨starts _ _ _ _ _ _ (by decide +kernel), by decide +kernel, by decide +kernel, by decide +kernel, by decide +kernel, by decide +kernel, by decide +kernel⟩
def reference1 (st : BankSt) : State := (inBlk .run).setBank 0 1 { Bank.reset with st := st, epoch := 5, use := 1 }
theorem wit_refset : Starts (reference1 .ready) (mk 0x0502 [0, 5]) 0x0502 1 [0x3, 0xFFFF] rdyRunDrn ∧ (reference1 .ready).refReady 0 5 = some 1
    ∧ run.refReady 0 5 = none ∧ (reference1 .ready).refBusy 0 = false :=
  ⟨starts _ _ _ _ _ _ (by decide +kernel), by decide +kernel, by decide +kernel, by decide +kernel⟩
theorem wit_drop : Starts loading (mk 0x0503 [0, 5]) 0x0503 1 [0x3, 0xFFFF] rdyRunDrn ∧ loading.anySlot 0 5 = some 1 ∧ run.anySlot 0 5 = none
    ∧ (loading.bank 0 1).st = .loading ∧ ((bank1 .active .run).bank 0 1).st = .active ∧ ((reference1 .reference).bank 0 1).st = .reference
    ∧ (reference1 .reference).refBusy 0 = false :=
  ⟨starts _ _ _ _ _ _ (by decide +kernel), by decide +kernel, by decide +kernel, by decide +kernel, by decide +kernel, by decide +kernel, by decide +kernel⟩
theorem wit_epoch_query : Starts run (mk 0x0506 [0, addr0, 0]) 0x0506 1 [0x3, all32, all32] rdyRunDrn ∧ addrOk false ((mk 0x0506 [0, addr0, 0]).p64 1) = true :=
  ⟨starts _ _ _ _ _ _ (by decide +kernel), by decide +kernel⟩
/-- Rank 64 is P2 [12:6]; the least rank is 1. -/
theorem wit_vload : Starts (bank1 .active .run) (mk 0x0504 [0, 5, 64 * 64 + 63, addr0, 0, addr0, 0]) 0x0504 1 [0x3, 0xFFFF, 0x1FFF, all32, all32, all32, all32] rdyRunDrn
    ∧ (mk 0x0504 [0, 5, 64 * 64 + 63, addr0, 0, addr0, 0]).fld 2 6 7 = 64 ∧ (mk 0x0504 [0, 5, 64]).fld 2 6 7 = 1 ∧ (bank1 .active .run).varSlot 0 5 = some 1
    ∧ run.varSlot 0 5 = none ∧ (bank1 .active .run).varRoom 0 1 64 = false :=
  ⟨starts _ _ _ _ _ _ (by decide +kernel), by decide +kernel, by decide +kernel, by decide +kernel, by decide +kernel, by decide +kernel⟩
theorem wit_vload_room : ((headed .run).setBank 0 0 { (headed .run).bank 0 0 with st := .ready, epoch := 5 }).varRoom 0 0 64 = true
    ∧ Tab.find? (((headed .run).setBank 0 0 { (headed .run).bank 0 0 with st := .ready }).bank 0 0).vars 63 = none
    ∧ Tab.find? ((varied .active variant0).bank 0 1).vars 63 ≠ none := by decide +kernel
theorem wit_vfree : Starts (varied .active { variant0 with reports := [0], usable := true }) (mk 0x0505 [0, 5, 63]) 0x0505 1 [0x3, 0xFFFF, 0x3F] rdyRunDrn
    ∧ (varied .active { variant0 with reports := [0], usable := true }).varHome 0 5 63 = some 1 ∧ run.varHome 0 5 63 = none :=
  ⟨starts _ _ _ _ _ _ (by decide +kernel), by decide +kernel, by decide +kernel⟩

/-! ## Requests, tenants -/

/-- A state in which requests can open: ring 3 enabled, a pool of two times 1,024 pages of T1. -/
def serving0 : State :=
  let c : Conf := { Conf.reset with crings := [(3, { CRing.reset with en := true, credits := 64 })], regions := [(4, { base := 0x10000004, len := 2 ^ 23 })] }
  { inBlk .run with conf := c }
/-- An open block of defaults that names ring 3 twice: TRING at bit 21, KVRING at bit 25 of word 2. -/
def openBlock : List Word :=
  let ws : List Word := [0, 0, 3 * 2 ^ 21 + 3 * 2 ^ 25] ++ List.replicate 28 0
  ws ++ [crcWords ws]
theorem wit_open : Starts run (mk 0x0600 [0, addr0, 0]) 0x0600 1 [0xFFFF, all32, all32] rdyRunDrn ∧ run.isHome 0 = true
    ∧ (reqOpenPre (mk 0x0600 [0, addr0, 0]) run).isSome = true ∧ run.locked (objReq 0) = false :=
  ⟨starts _ _ _ _ _ _ (by decide +kernel), by decide +kernel, by decide +kernel, by decide +kernel⟩
theorem wit_open_block : reqOpenPre (mk 0x0600 [0, addr0, 0]) (stored serving0 openBlock) = none := by decide +kernel
theorem wit_open_prompt : ((stored serving0 openBlock).openSlot (mk 0x0600 [0, addr0, 0])).2.2 = [] := by decide +kernel
/-- Handle 0x010000: slot 0, generation 1. -/
def h1 : Nat := 0x10000
theorem wit_close : Starts (opened .run) (mk 0x0601 [h1]) 0x0601 1 [0xFFFFFF] rdyRunDrn ∧ (opened .run).noReq (mk 0x0601 [h1]).handle = false
    ∧ (opened .run).noReq (mk 0x0601 [0]).handle = true ∧ ((opened .run).ctx 0).canc = false ∧ (opened .run).reqBusy 0 = false :=
  ⟨starts _ _ _ _ _ _ (by decide +kernel), by decide +kernel, by decide +kernel, by decide +kernel, by decide +kernel⟩
theorem wit_cancel : Starts (opened .run) (mk 0x0602 [h1]) 0x0602 1 [0xFFFFFF] rdyRunDrn ∧ (opened .run).isRoot = true ∧ run.working = true ∧ run.orch.loop = [] :=
  ⟨starts _ _ _ _ _ _ (by decide +kernel), by decide, by decide +kernel, rfl⟩
def heldReq : State := (opened .run).setSlot 0 { SlotEnt.reset with gen := 1, rstate := 2 }
theorem wit_release_req : Starts heldReq (mk 0x0605 [h1]) 0x0605 1 [0xFFFFFF] rdyRunDrn ∧ (heldReq.slot 0).rstate = 2 ∧ heldReq.releasable 0 = true
    ∧ ((opened .run).slot 0).rstate ≠ 2 := ⟨starts _ _ _ _ _ _ (by decide +kernel), by decide +kernel, by decide +kernel, by decide +kernel⟩
theorem wit_req_query : Starts (opened .run) (mk 0x0606 [h1, addr0, 0]) 0x0606 1 [0xFFFFFF, all32, all32] rdyRunDrn := starts _ _ _ _ _ _ (by decide +kernel)
def inPool (s : State) : State := { s with conf := { s.conf with regions := [(4, { base := 0x10000004, len := 2 ^ 23 }), (5, { base := 0x10000005, len := 2 ^ 23 })] } }
theorem wit_park : Starts (opened .run) (mk 0x0603 [h1, 100, 1]) 0x0603 1 [0xFFFFFF, 0xFFFFFF, 0x1] rdyRunDrn ∧ ((opened .run).slot 0).rstate = 1
    ∧ (heldReq.slot 0).rstate ≠ 1 ∧ ((opened .run).locked (objReq 0)) = false :=
  ⟨starts _ _ _ _ _ _ (by decide +kernel), by decide +kernel, by decide +kernel, by decide +kernel⟩
/-- A parked request that expires at tick 9, at tick `t`. -/
def parked (st t : Nat) : State :=
  { (opened .run) with slots := [(0, { SlotEnt.reset with gen := 1, rstate := st })], time := { State.reset.time with tclk := BitVec.ofNat 64 t }
                       scx := [(0, { Scx.zero with gen := 1, expiry := 9 })] }
theorem wit_resume : Starts (parked 3 8) (mk 0x0604 [h1]) 0x0604 1 [0xFFFFFF] rdyRunDrn ∧ (parked 3 8).now < ((parked 3 8).ctx 0).expiry.toNat
    ∧ ((parked 3 9).ctx 0).expiry.toNat ≤ (parked 3 9).now ∧ ((parked 3 9).slot 0).rstate = 3 ∧ ((parked 4 9).slot 0).rstate = 4
    ∧ (parked 3 9).locked (objReq 0) = false :=
  ⟨starts _ _ _ _ _ _ (by decide +kernel), by decide +kernel, by decide +kernel, by decide +kernel, by decide +kernel, by decide +kernel⟩
theorem wit_expiry : (parked 3 9).live = true ∧ (parked 3 9).blk ≠ .safe
    ∧ (({ Scx.zero with doubling := true } : Scx).doubling = true ∧ Scx.zero.histPend = []) := by decide +kernel
/-- SET with all of RATE, BURST, LIMIT: bits 12 to 15 of P0. -/
theorem wit_ten_set : Starts run (mk 0x0700 [0xF000, 100, 1]) 0x0700 1 [0xFFFF, 0xFFFFFF, all32] rdyRunDrn
    ∧ (bitAt ((mk 0x0700 [0xF000, 100, 1]).p 0) 14 = true → (mk 0x0700 [0xF000, 100, 1]).p 2 ≠ 0)
    ∧ bitAt ((mk 0x0700 [0xF000, 100, 1]).p 0) 12 = true := ⟨starts _ _ _ _ _ _ (by decide +kernel), by decide +kernel, by decide +kernel⟩
theorem wit_ten_query : Starts run (mk 0x0701 [0x1000, addr0, 0]) 0x0701 1 [0x1FFF, all32, all32] rdyRunDrn ∧ bitAt ((mk 0x0701 [0x1000, addr0, 0]).p 0) 12 = true
    ∧ bitAt ((mk 0x0701 [0, addr0, 0]).p 0) 12 = false := ⟨starts _ _ _ _ _ _ (by decide +kernel), by decide +kernel, by decide +kernel⟩
theorem wit_refill : run.working = true ∧ run.isRoot = true ∧ ({ run with time := { run.time with tclk := 100000 } } : State).now % 100000 = 0
    ∧ ({ run with time := { run.time with tclk := 99999 } } : State).now % 100000 ≠ 0 := by decide +kernel

/-! ## The shard group, diagnosis, repair, captures -/

/-- Least and greatest values that the checks let through. -/
theorem wit_orch_config : Starts ready (mk 0x0900 [0xFFF, 0x100010, 0x10, 100, 1000]) 0x0900 1 [0xFFF, 0x0FFF0FFF, 0xFFF, 0xFFFF, 0xFFFFF] [.ready]
    ∧ (mk 0x0900 [0xFFF, 0x100010, 0x10, 100, 1000]).fld 1 0 12 = 16 ∧ (mk 0x0900 [0xFFF, 0x100010, 0x10, 100, 1000]).fld 1 16 12 = 16
    ∧ (mk 0x0900 [0xFFF, 0x100010, 0x10, 100, 1000]).fld 2 0 12 = 16 ∧ (mk 0x0900 [0xFFF, 0x100010, 0x10, 100, 1000]).fld 3 0 16 = 100
    ∧ (mk 0x0900 [0xFFF, 0x100010, 0x10, 100, 1000]).fld 4 0 20 = 1000 ∧ (mk 0x0900 [0, 0, 0, 0, 1000000]).fld 4 0 20 = 1000000 :=
  ⟨starts _ _ _ _ _ _ (by decide +kernel), by decide +kernel, by decide +kernel, by decide +kernel, by decide +kernel, by decide +kernel, by decide +kernel⟩
theorem wit_discover : Starts ready (mk 0x0901 []) 0x0901 1 [] [.ready] ∧ ready.locked objGroup = false := ⟨starts _ _ _ _ _ _ (by decide +kernel), by decide +kernel⟩
theorem wit_rejoin : Starts ready (mk 0x0902 []) 0x0902 1 [] [.ready] ∧ ready.orch.member = false ∧ (root2 .ready).isRoot = true ∧ (root2 .ready).orch.member = true
    ∧ (∃ m ∈ (root2 .ready).orch.members, m.shard = (root2 .ready).orch.shard) := ⟨starts _ _ _ _ _ _ (by decide +kernel), by decide, by decide, by decide, by decide⟩
theorem wit_orch_query : Starts ready (mk 0x0903 [4]) 0x0903 1 [0x7] allButDump ∧ (mk 0x0903 [4]).fld 0 0 3 = 4 ∧ (mk 0x0903 [0]).fld 0 0 3 = 0 :=
  ⟨starts _ _ _ _ _ _ (by decide +kernel), by decide +kernel, by decide +kernel⟩
def ent (a : Nat) (die : W64) (r : Bool) : DiscEnt := { addr := a, safe := false, run := r, rejoin := false, links := List.replicate 5 false, dieid := die, neigh := List.replicate 5 0 }
def discovering (es : List DiscEnt) (ovf : Bool) : State := { ready with orch := { Orch.reset with disc := 1, known := es, ovf := ovf } }
theorem wit_disc : (discovering [ent 0 1 false] false).live = true ∧ (discovering [ent 0 1 false] false).orch.disc ≠ 0
    ∧ learn ([ent 0 1 false], false || false) [ent 0 1 false] = ([ent 0 1 false], false)
    ∧ learn ([ent 0 1 false], false || false) [ent 8 2 false] ≠ ([ent 0 1 false], false)
    ∧ learn ([ent 0 1 false], false || true) [] ≠ ([ent 0 1 false], false) := by decide +kernel
theorem wit_settled : clash [ent 0 1 false, ent 0 2 false] = true ∧ clash [ent 0 1 false, ent 8 2 true] = false
    ∧ (discovering [ent 0 1 false] true).orch.ovf = true ∧ (∃ e ∈ [ent 0 1 false, ent 8 2 true], e.run = true)
    ∧ (∀ e ∈ [ent 0 1 false, ent 8 2 false], e.run = false) ∧ (discovering [ent 0 1 false] true).orch.disc = 1 := by decide

def injecting (fatal : Bool) : State := { run with dbg := { run.dbg with en := true, injen := true, injfatal := fatal } }
theorem wit_inject : Starts run (mk 0x0A00 [0x0101, 5]) 0x0A00 1 [0xFFFF, all32] rdyRunDrn ∧ Starts (injecting true) (mk 0x0A00 [0x0110, 0xFFFFFFFF]) 0x0A00 1 [0xFFFF, all32] rdyRunDrn
    ∧ (mk 0x0A00 [0x0101, 5]).fld 0 0 8 = 1 ∧ (mk 0x0A00 [0x0110, 0xFFFFFFFF]).fld 0 0 8 = 0x10 ∧ run.dbg.injen = false
    ∧ (mk 0x0A00 [0x0101, 5]).p 1 ≠ 0xFFFFFFFF ∧ (mk 0x0A00 [0x0110, 0xFFFFFFFF]).p 1 = 0xFFFFFFFF ∧ (mk 0x0A00 [0x0110, 0xFFFFFFFF]).fld 0 8 8 = 1 :=
  ⟨starts _ _ _ _ _ _ (by decide +kernel), starts _ _ _ _ _ _ (by decide +kernel), by decide +kernel, by decide +kernel, by decide, by decide +kernel,
    by decide +kernel, by decide +kernel⟩
theorem wit_inject_range : injParam 7 4 = false ∧ injParam 7 3 = true ∧ injParam 8 5 = false ∧ injParam 0x0D 15 = true ∧ injParam 0x0D 16 = false
    ∧ injParam 0x0C 0xFFFFFFFF = true := by decide
theorem wit_selftest_snap_trace : Starts run (mk 0x0A01 [0x3F]) 0x0A01 1 [0x3F] rdyRunDrn ∧ run.locked objSelf = false
    ∧ Starts run (mk 0x0A02 [addr0, 0]) 0x0A02 1 [all32, all32] allButDump ∧ Starts run (mk 0x0A03 [0xFF01]) 0x0A03 1 [0xFF01] allButDump :=
  ⟨starts _ _ _ _ _ _ (by decide +kernel), by decide +kernel, starts _ _ _ _ _ _ (by decide +kernel), starts _ _ _ _ _ _ (by decide +kernel)⟩
/-- A repair overlay of no entries: magic, version, CRC at 0x1C. -/
def overlayWords : List Word :=
  let ws : List Word := [0x50524B4A, 1, 0, 0, 0, 0, 0]
  ws ++ [crcWords ws]
theorem wit_repair : Starts ready (mk 0x0B00 [addr0, 0, 32]) 0x0B00 1 [all32, all32, all32] [.ready, .run]
    ∧ Starts ready (mk 0x0B01 [0x46495845]) 0x0B01 1 [all32] [.ready] ∧ (mk 0x0B01 [0x46495845]).p 0 = 0x46495845 ∧ (mk 0x0B01 [0]).p 0 ≠ 0x46495845
    ∧ Starts run (mk 0x0B02 [addr0, 0]) 0x0B02 1 [all32, all32] rdyRunDrn ∧ Starts run (mk 0x0B03 [addr0, 0]) 0x0B03 1 [all32, all32] rdyRunDrn
    ∧ ready.unburned.length ≤ (ready.rep.field.filter (fun w => w = 0)).length ∧ (poisoned run).mem.bad 0x10000 64 = true :=
  ⟨starts _ _ _ _ _ _ (by decide +kernel), starts _ _ _ _ _ _ (by decide +kernel), by decide +kernel, by decide +kernel,
    starts _ _ _ _ _ _ (by decide +kernel), starts _ _ _ _ _ _ (by decide +kernel), by decide, by decide +kernel⟩
theorem wit_overlay_bad : (match overlayOf (poisoned ready) 0x10000 32 with | .error _ => true | .ok _ => false) = true := by decide +kernel
def captured : State := { ready with wind := { Windfall.reset with region := some { base := 0x10004, len := 2 ^ 21 }, held := true } }
theorem wit_windfall : Starts run (mk 0x0C00 [addr0, 0, 2]) 0x0C00 1 [all32, all32, 0x7F] rdyRunDrn ∧ (mk 0x0C00 [addr0, 0, 2]).fld 2 0 7 = 2
    ∧ (mk 0x0C00 [addr0, 0, 64]).fld 2 0 7 = 64 ∧ captured.wind.held = true ∧ captured.wind.acked = false ∧ run.wind.held = false ∧ run.locked objDump = false
    ∧ run.mem.word 0x10000 ≠ 0x4C464457 :=
  ⟨starts _ _ _ _ _ _ (by decide +kernel), by decide +kernel, by decide +kernel, rfl, rfl, rfl, by decide +kernel, by decide +kernel⟩
theorem wit_dump : Starts ready (mk 0x0C01 []) 0x0C01 1 [] allStates ∧ Starts ready (mk 0x0C02 []) 0x0C02 1 [] [.ready] ∧ ready.wind.region = none
    ∧ captured.wind.region ≠ none ∧ Starts captured (mk 0x0C03 []) 0x0C03 1 [] [.ready, .safe] ∧ captured.wind.running = false ∧ ready.wind.held = false :=
  ⟨starts _ _ _ _ _ _ (by decide +kernel), starts _ _ _ _ _ _ (by decide +kernel), rfl, by decide, starts _ _ _ _ _ _ (by decide +kernel), rfl, rfl⟩
def capturing : State := { inBlk .dump with wind := { captured.wind with held := false, running := true } }
theorem wit_windfall_done : capturing.live = true ∧ capturing.wind.running = true ∧ capturing.wind.region ≠ none ∧ capturing.blk = .dump
    ∧ ready.wind.running = false := by decide

/-! ## Resets, boot, power, time, sensors -/

theorem wit_resets : ready.pwr.clkFail = false ∧ 2 ≤ ready.pwr.cur ∧ warmActs .pin = true ∧ warmActs (.write 0x4A470004) = true ∧ warmActs (.write 0x4A47000C) = false
    ∧ ready.live = true ∧ bitsAt (0x4A470008 : Word) 16 16 = 0x4A47 ∧ bitAt (0x4A470008 : Word) 3 = true ∧ bitAt (0x4A470003 : Word) 3 = false
    ∧ bitAt (0x4A470003 : Word) 2 = false ∧ bitAt (0x4A470003 : Word) 0 = true ∧ bitAt (0x4A470003 : Word) 1 = true ∧ bitAt (0x4A470002 : Word) 0 = false
    ∧ bitAt (0x4A470001 : Word) 1 = false ∧ bitsAt (0x4A460001 : Word) 16 16 ≠ 0x4A47 := by decide
theorem wit_boot : State.reset.live = true ∧ bitAt (1 : Word) 0 = true ∧ State.reset.blk = .boot ∧ State.reset.boot.step = 4
    ∧ (({ State.reset.boot with step := 5, fail := true } : Boot).step = 5) ∧ ready.blk ≠ .boot ∧ (inBlk .selftest).blk = .selftest ∧ ready.blk ≠ .selftest := by decide
def powered (cur : Nat) (req : Option Nat) (b : Blk) : State := { inBlk b with pwr := { State.reset.pwr with cur := cur, req := req } }
theorem wit_power : (powered 2 (some 1) .ready).pwr.req ≠ none ∧ (powered 2 none .ready).pwr.req = none ∧ (powered 1 none .ready).pwr.cur = 1
    ∧ (powered 1 none .ready).pwr.cur ≠ 0 ∧ (powered 2 none .ready).quar = false ∧ (powered 2 none .run).blk ≠ .ready ∧ (powered 2 none .ready).isRoot = true
    ∧ (powered 2 none .safe).wind.running = false ∧ (powered 1 (some 3) .ready).pwr.req = some 3 ∧ (powered 2 (some 2) .ready).pwr.req = some 2 := by decide
theorem wit_idle : (powered 3 none .run).live = true ∧ (powered 3 none .run).blk = .run ∧ (powered 3 none .run).pwr.cur = 3
    ∧ (powered 3 none .run).asm.punOpen = none ∧ (powered 3 none .run).asm.repeats = [] ∧ (powered 3 none .run).jobs = [] ∧ (powered 3 none .run).puns = [] := by decide
def slewing (n : Int) (t l : Nat) : Time := { State.reset.time with slew := n, tclk := BitVec.ofNat 64 t, lastSlew := l }
theorem wit_time : (slewing 0 0 0).slew = 0 ∧ (slewing 1 1023 0).slew ≠ 0 ∧ (slewing 1 1023 0).tclk.toNat < (slewing 1 1023 0).lastSlew + 1024
    ∧ 0 < (slewing 1 1024 0).slew ∧ (slewing 1 1024 0).lastSlew + 1024 ≤ (slewing 1 1024 0).tclk.toNat ∧ (slewing (-1) 1024 0).slew < 0
    ∧ (2 ^ 64 - 1 : Nat) < 2 ^ 64 := by decide
theorem wit_ticks : ready.live = true ∧ ({ ready with quar := true } : State).live = false ∧ ready.pwr.cur ≠ 0 ∧ ready.isRoot = true ∧ (member1 .ready).isRoot = false
    ∧ ready.armed 0x0E = none := by decide +kernel

/-! ## Stream ports, TEG, rows in flight -/

/-- Words of a descriptor with its DCRC: HSRC 1 at bit 29, generation 1 at bit 16 of word 0, a deadline in word 2, variant 127 (Table 2.1). -/
def rdWords (deadline : Nat) : List Word :=
  let ws : List Word := [BitVec.ofNat 32 (2 ^ 29 + 2 ^ 16), 0, BitVec.ofNat 32 (deadline + 127 * 2 ^ 24)] ++ List.replicate 12 0
  ws ++ [crcWords ws]
def streaming (b : Blk) : State := { opened b with ing := { State.reset.ing with hinCr := 4, linCr := 4, grants := true } }
theorem wit_ingress : (streaming .run).live = true ∧ (streaming .safe).live = true ∧ (streaming .run).ing.msg .hin = none ∧ 0 < (streaming .run).ing.credits .hin
    ∧ ({ State.reset.ing with hinCr := 0 } : Ingress).credits .hin = 0 ∧ (streaming .run).isHome hd0.slot = true ∧ (member1 .run).isHome 0 = false := by decide +kernel
theorem wit_descriptors : dcrcOk (rdWords 5000) = true ∧ (streaming .run).admits (rdescOf (rdWords 5000)).handle = true ∧ dcrcOk (List.replicate 16 1) = false
    ∧ (streaming .run).admits { slot := 1, gen := 1 } = false := by decide +kernel
/-- Every cause of a row's admission, and none. -/
theorem wit_admit_causes : (streaming .run).admitCause (rdescOf (rdWords 5000)) false = none ∧ (streaming .run).admitCause (rdescOf (rdWords 0)) false = some 0x33
    ∧ (streaming .run).admitCause (rdescOf (rdWords 5000)) true = some 0x34
    ∧ (streaming .run).admitCause { rdescOf (rdWords 5000) with reserved := true } false = some 0x1D
    ∧ (streaming .run).admitCause { rdescOf (rdWords 5000) with pos := 1 } false = some 0x34 := by decide +kernel

def k0 : RowKey := { handle := hd0, pos := 0, cls := 0, gidx := 0 }
def rowAt (pun : Option Nat) : Row :=
  { seq := 1, rd := rdescOf (rdWords 5000), key := k0, admTick := 0, home := true, hidden := [], logits := [], gotData := true, cause := none,
    punnet := pun, reserve := 0, decided := false, charged := false, auxv := none, auxr := none }
def arriving : State :=
  let s := streaming .run
  { s with rows := [rowAt none], ing := { s.ing with seq := 1, hinMsg := some { seq := 1, beats := 4 } } }
theorem wit_payload : arriving.ing.msg .hin = some { seq := 1, beats := 4 } ∧ arriving.blk ≠ .safe ∧ (arriving.rows.find? (fun r => decide (r.seq = 1))) = some (rowAt none)
    ∧ arriving.inputBad (rowAt none).rd ((asB16 [0x3F80, 0]).map ofB16) = false ∧ (4 : Nat) ≠ 3
    ∧ ({ arriving.ing with hinMsg := some { seq := 0, beats := 4 } } : Ingress).msg .hin = some { seq := 0, beats := 4 } := by decide +kernel
theorem wit_payload_waits : arriving.granting = true ∧ ({ arriving with ing := { arriving.ing with grants := false } } : State).granting = false
    ∧ arriving.ing.credits .hin < 5 ∧ 4 ≤ arriving.ing.credits .hin := by decide +kernel
theorem wit_lost : ((streaming .run).setCtx 0 { (streaming .run).ctx 0 with farLost := true }).isLost 0 = true ∧ (streaming .run).isLost 0 = false := by
  decide +kernel

def rec0 : EgRec :=
  { ring := 3, words := List.replicate 16 0, stamp := false, done := 0, due := 0, missed := false, key := some k0, handle := hd0, sample := false, prompt := none, hset := none,
    grp := 0 }
/-- Ring 3 with some credits and one record that waits. -/
def egress (failed : Bool) (credits fabric : Nat) (pi : Nat) : State :=
  let c : Conf := { Conf.reset with crings := [(3, { CRing.reset with en := true, base := 0x200004, failed := failed, credits := credits, pi := pi })] }
  { inBlk .run with conf := c, eg := { State.reset.eg with fabric := fabric, queue := [rec0] } }
theorem wit_egress : (egress true 64 1 0).eg.queue = [rec0] ∧ ((egress true 64 1 0).cring 3).failed = true ∧ ((egress false 64 1 0).cring 3).failed = false
    ∧ ((egress false 64 1 63).cring 3).left < rec0.units ∧ rec0.units ≤ ((egress false 64 1 0).cring 3).left ∧ (egress false 64 0 0).eg.fabric = 0
    ∧ ((egress false 1 1 0).cring 3).credits < min 2 rec0.units ∧ (∀ w ∈ (egress false 64 1 0).eg.outst, w.tag ≠ (egress false 64 1 0).eg.tag) := by decide +kernel
/-- Two records whose units share a beat, and one that has none to share with. -/
def half0 : EgRec := { rec0 with words := List.replicate 8 0, grp := 1 }
theorem wit_partner : (egress false 64 1 0).partner half0 [half0] = some half0 ∧ (egress false 64 1 0).partner half0 [] = none
    ∧ (egress false 64 1 63).partner half0 [half0] = none ∧ (egress false 1 1 0).partner half0 [half0] = none := by decide +kernel
def write0 (retry : Bool) : TegWrite := { tag := 0, ring := 3, notify := false, addr := 0x200000, words := List.replicate 16 1, retry := retry, grps := [0] }
def acking (retry : Bool) : State := { egress false 64 1 0 with eg := { State.reset.eg with fabric := 1, outst := [write0 retry] } }
theorem wit_ack : (acking false).pwr.clkFail = false ∧ 2 ≤ (acking false).pwr.cur ∧ (acking false).armed 0x0D = none ∧ ((acking true).cring 3).failed = false
    ∧ (acking false).eg.outst.find? (fun w => decide (w.tag = 0)) = some (write0 false) ∧ (∀ w ∈ (acking false).eg.outst, w.tag ≠ 1) := by decide +kernel

/-- A row of punnet 5 in flight here: one main tile of the head set of `headed`. -/
def prow0 : PRow :=
  { key := k0, slot := 0, rep := false, tseq := 0, counts := [], epoch := 5, prof := Profile.dflt, profOk := true, profPin := (0, 0), pins := [], active := true,
    cause := none, verdict := .unset, anchor := 0, manchor := 0, ranchor := 0, clen := 0, before := [], sides := Sides.none, vecs := [], sums := [], thresh := none,
    refH := none, look := none, looked := true, exited := false }
def pun0 (started : Bool) : Punnet :=
  { num := 5, idx := 0, phase := 0, epochs := [5, 0, 0, 0], rows := [prow0], passes := [{ hset := 0, bank := 0, epoch := 5, kind := .active, tiles := [.main 0] }],
    closed := 0, started := started, projStart := 0, loaded := [], badTiles := [], drains := [], sent := 0, auxZ := [], acks := [] }
def flying (p : Punnet) : State :=
  let s := headed .run
  { s with puns := [p], rows := [rowAt (some 5)], orch := (root2 .run).orch, slots := (opened .run).slots, scx := (opened .run).scx }
def hdr5 (src dst : Nat) : Hdr :=
  { src := src, dst := dst, bcast := false, doubt := false, punnet := 5, rslot := 0, pass := 0, handle := hd0, hops := 0, parity := false }
/-- A message of the row lands, whatever its body. -/
theorem wit_lands (b : Body) (st : Bool) : Lands (flying (pun0 st)) { hdr := hdr5 1 0, body := b } (pun0 st) prow0 := by
  cases st
  · have h : (flying (pun0 false)).punnet 5 = some (pun0 false) := by decide +kernel
    exact ⟨by decide +kernel, ⟨rfl, rfl⟩, h, rfl, .inl rfl⟩
  · have h : (flying (pun0 true)).punnet 5 = some (pun0 true) := by decide +kernel
    exact ⟨by decide +kernel, ⟨rfl, rfl⟩, h, rfl, .inl rfl⟩
theorem wit_partials : (flying (pun0 true)).forMe (hdr5 1 0) = true ∧ (flying (pun0 true)).orch.kidShards.contains 1 = true
    ∧ (flying (pun0 true)).orch.kidShards.contains 2 = false ∧ (flying (pun0 true)).heardFrom 5 0 0 3 1 = false ∧ prow0.key.cls ≠ clVerify
    ∧ ((flying (pun0 true)).orch.shard :: (flying (pun0 true)).orch.kidShards).any (fun k => !([1] : List Nat).contains k) = true := by decide +kernel
/-- A fetch of the context's head is under way. -/
def fetching : State := { streaming .run with fetches := [(0, .head)] }
theorem wit_parts : (flying (pun0 true)).working = true ∧ (streaming .run).armed 0x07 = none ∧ (streaming .run).armed 0x05 = none
    ∧ ((streaming .run).slot 0).gen = hd0.gen ∧ ((streaming .run).slot 0).rstate ≠ 0 ∧ ((streaming .run).slot 1).rstate = 0
    ∧ fetching.fetches.contains (0, .head) = true ∧ (streaming .run).fetches.contains (0, .head) = false ∧ (fetching.partIn 0 .head).isSome = true := by
  decide +kernel
def seg0 : SegRef := { punnet := 5, pass := 0, tile := .main 0, seg := 0 }
theorem wit_segments : (flying (pun0 true)).punnet 5 = some (pun0 true) ∧ (flying (pun0 true)).punnet 6 = none
    ∧ (flying (pun0 true)).nextSeg = some seg0 ∧ (flying (pun0 true)).bufferFits seg0 = true ∧ (flying (pun0 false)).nextSeg = none
    ∧ (flying (pun0 true)).armed 0x02 = none ∧ (flying (pun0 true)).armed 0x03 = none := by decide +kernel
/-- Of a bank whose regions are not named nothing is read. -/
def flying0 : State := (flying (pun0 true)).setBank 0 0 Bank.reset
theorem wit_segment_good : flying0.nextSeg = some seg0 ∧ flying0.bufferFits seg0 = true ∧ (∀ y ∈ flying0.piecesOf seg0, y.bad flying0.mem = false)
    ∧ flying0.armed 0x02 = none ∧ flying0.armed 0x03 = none ∧ flying0.working = true ∧ flying0.punnet 5 = some (pun0 true) := by decide +kernel
def bad0 : Punnet := { pun0 true with badTiles := [(0, .main 0)] }
def drained (l : List Drain) : Punnet := { pun0 true with drains := l }
def drain0 : Drain := { pass := 0, tile := .main 0, logits := [] }
theorem wit_tiles : (flying bad0).nextTile = some (5, 0, .main 0) ∧ (flying bad0).drainCount = 0 ∧ (flying bad0).tileHere bad0 0 (.main 0) = true
    ∧ bad0.passes[0]? = some { hset := 0, bank := 0, epoch := 5, kind := .active, tiles := [.main 0] } ∧ (flying (drained [drain0, drain0])).drainCount = 2
    ∧ (flying (pun0 true)).tileHere (pun0 true) 0 (.main 0) = false ∧ (flying (drained [drain0])).punnet 5 = some (drained [drain0])
    ∧ (pun0 true).drains = [] := by decide +kernel
theorem wit_prelude : (flying (pun0 true)).dataHere (pun0 true) = true ∧ (pun0 true).started = true ∧ (pun0 false).started = false := by decide +kernel

def rootRow (t : RStage) (due : Nat) : RootRow :=
  { punnet := 5, rslot := 0, key := k0, rd := { rdescOf (rdWords 5000) with deadline := due }, prof := Profile.dflt, admTick := 0, reserve := 0, passes := [0], got := [],
    sums := [], stage := t, cause := none, late := 0, elig := none, trunc := false, fast := none, winner := none, uncert := false, anchorF := false, again := none,
    depth := 0, draw := 0, pendSum := false, rep := none }
def loop0 (batch : List Nat) : Loop := { conts := [], spill := 0, i := 0, done := 0, best := none, batch := batch, replies := [] }
def atRoot (t : RStage) (due : Nat) : State := { flying (pun0 true) with roots := [rootRow t due] }
def rsp7 : RspB := { id := 7, zs := 0, t := 0, xpre := 0, g := 0 }
theorem wit_replies : (atRoot (.loop (loop0 [7, 8])) 5000).root 5 0 = some (rootRow (.loop (loop0 [7, 8])) 5000) ∧ (flying (pun0 true)).root 5 0 = none
    ∧ (atRoot (.loop (loop0 [7, 8])) 5000).late (rootRow (.loop (loop0 [7, 8])) 5000) = false ∧ (atRoot (.loop (loop0 [7])) 100).late (rootRow (.loop (loop0 [7])) 100) = true
    ∧ (loop0 [7, 8]).batch.contains 7 = true ∧ (loop0 [7, 8]).batch.contains 9 = false ∧ (loop0 [7, 8]).replies.length + 1 < (loop0 [7, 8]).batch.length
    ∧ (loop0 [7]).batch.length ≤ (loop0 [7]).replies.length + 1 ∧ (atRoot .combine 100).isRoot = true ∧ (rootRow (.loop (loop0 [7])) 100).prof.certpol = 0
    ∧ (atRoot .combine 100).working = true ∧ (atRoot .combine 100).rescore = [] := by decide +kernel
def rsq7 : Rescore := { hdr := hdr5 1 0, body := { id := 7, tgt := false, eps := 0, cutoff := 0 }, lane := true }
def rsrow0 : RsRow := { punnet := 5, rslot := 0, ref := false, hn := List.replicate 2 0x3F80, u := [], bad := false }
/-- Head set of 2 elements, so that the shadow row is short. -/
def rescoring : State :=
  let s := atRoot .combine 5000
  { s with conf := { s.conf with heads := [(0, { HeadSet.reset with v := 512, d := 2 })] }, rescore := [rsq7], rsbuf := [rsrow0] }
theorem wit_rescore : rescoring.rescore.find? (fun q => q.lane && decide (q.hdr.punnet = 5 ∧ q.hdr.rslot = 0 ∧ q.hdr.pass = 0 ∧ q.body.id = 7)) = some rsq7
    ∧ rescoring.working = true ∧ rescoring.punnet 5 = some (pun0 true) ∧ rescoring.prow 5 0 = some prow0 ∧ rescoring.copyOf 5 k0 = some (rowAt (some 5))
    ∧ rescoring.rsRow rsq7 = some rsrow0 ∧ rescoring.armed 0x07 = none ∧ rescoring.armed 0x0C = none
    ∧ (rescoring.shadowOf (pun0 true) 0 7 rsrow0 (rowAt (some 5)).rd).2 = false := by decide +kernel
def purged0 : State := { flying (pun0 true) with orch := { (flying (pun0 true)).orch with purged := [(5, 0, k0)] } }
theorem wit_commit_purged : purged0.orch.purged.find? (fun e => decide (e.1 = 5 ∧ e.2.1 = 0)) = some (5, 0, k0)
    ∧ (flying (pun0 true)).orch.purged.find? (fun e => decide (e.1 = 5 ∧ e.2.1 = 0)) = none ∧ (flying (pun0 true)).forMe (hdr5 1 0) = true
    ∧ (flying (pun0 true)).forMe (hdr5 1 1) = false := by decide +kernel
def home0 : HomeCommit :=
  { punnet := 5, rslot := 0, key := k0, row := prow0, epoch := 5, body := commit0, need := true, look := none, charge := 0 }
theorem wit_lookup : ({ flying (pun0 true) with hcom := [home0] } : State).hcom.any (fun c => decide (c.punnet = 5 ∧ c.rslot = 0)) = true
    ∧ (flying (pun0 true)).hcom.any (fun c => decide (c.punnet = 5 ∧ c.rslot = 0)) = false := by decide +kernel
theorem wit_side_group : (atRoot .group 100).root 5 0 = some (rootRow .group 100) ∧ (rootRow .group 100).stage = .group ∧ (rootRow .combine 100).stage ≠ .group
    ∧ (flying (pun0 true)).root 5 0 = none := by decide +kernel
theorem wit_commit_messages : prow0.exited = false ∧ ({ prow0 with exited := true } : PRow).exited = true ∧ (hdr5 1 0).bcast = false ∧ (hdr5 1 0).dst = (flying (pun0 true)).orch.shard
    ∧ (∃ b : AuxB, b.finite = false) ∧ (∃ b : AuxB, b.finite = true) :=
  ⟨rfl, rfl, rfl, by decide +kernel, ⟨{ out := 0, reward := false, finite := false }, rfl⟩, ⟨{ out := 0, reward := false, finite := true }, rfl⟩⟩

/-! ## Assembler, deadlines -/

def asm0 : AsmRow := { key := k0, notices := [{ shard := 0, dcrc := 0, tick := 0 }], homeTick := some 0, passed := false, poor := false, gone := false, told := [] }
def gathering (t : Nat) : State :=
  { root2 .run with asm := { State.reset.asm with rows := [asm0] }, time := { State.reset.time with tclk := BitVec.ofNat 64 t } }
theorem wit_assembler : (root2 .run).working = true ∧ (root2 .run).orch.loop = [] ∧ (root2 .run).forMe (hdr5 1 0) = true ∧ (root2 .run).forMe (hdr5 1 1) = false
    ∧ (root2 .run).inFlight k0 = false ∧ (atRoot .combine 100).inFlight k0 = true ∧ (gathering 0).asmRow k0 = some asm0 ∧ (root2 .run).asmRow k0 = none
    ∧ (gathering 0).homeAdm asm0 = some 0 ∧ (gathering 0).now < 0 + (gathering 0).cfg.copyskew ∧ 0 + (gathering 20000).cfg.copyskew ≤ (gathering 20000).now
    ∧ (gathering 0).placeable asm0 = false ∧ hdrBroken (hdr5 1 0) = false ∧ (member1 .run).isRoot = false ∧ (member1 .run).asm.next ≠ 5
    ∧ (asm0.notices.any (fun n => decide (n.shard = 1))) = false := by decide +kernel
def placed0 : Placed :=
  { key := k0, slot := 0, ovl := 0, rep := false, tseq := 0, issueBy := 5000, reserve := 0, margin := 0, depth := 0, pins := [], profPin := none }
/-- An open punnet whose window of 100 ticks is over. -/
def closing (t : Nat) : State :=
  let s := root2 .run
  { s with asm := { s.asm with punOpen := some { opened := 0, gather := 100, rows := [placed0] } },
           time := { State.reset.time with tclk := BitVec.ofNat 64 t } }
theorem wit_window : let w := (((closing 101).injectCore.voidDoubts).retireDone).advanceJobs
    (closing 101).blk ≠ .dump ∧ (closing 101).injectCore.blk ≠ .safe ∧ w.isRoot = true ∧ w.live = true ∧ w.blk = .run
    ∧ (w.asm.punOpen.map (fun o => decide (o.rows ≠ [] ∧ o.opened + o.gather < w.now))) = some true := by decide +kernel
def stray : State :=
  let s := root2 .run
  let o : Orch := { s.orch with members := s.orch.members.map (fun (m : Member) => if m.shard = 0 then { m with state := 5 } else m) }
  { s with orch := o, rows := [{ rowAt none with home := false }], time := { State.reset.time with tclk := BitVec.ofNat 64 (2 ^ 20) } }
theorem wit_stray : stray.unplaced k0 = some { rowAt none with home := false } ∧ (rowAt none).admTick + stray.cfg.copyskew ≤ stray.now
    ∧ (∃ m ∈ stray.orch.members, m.shard = stray.homeOf k0.handle.slot ∧ m.state = 5) ∧ (root2 .run).isRoot = true := by decide +kernel
def owing (limit : Bool) (bal : Int) : State := { opened .run with tenants := [(0, { Tenant.reset with limit := limit, bal := bal })] }
theorem wit_balance : let t := Tab.get (owing true 0).tenants ((owing true 0).ctx k0.handle.slot).tenant Tenant.reset
    (t.limit = true ∧ t.bal ≤ 0) ∧ (Tab.get (owing false 0).tenants ((owing false 0).ctx k0.handle.slot).tenant Tenant.reset).limit = false := by decide +kernel
def waiting (t : Nat) : State := { streaming .run with rows := [rowAt none], time := { State.reset.time with tclk := BitVec.ofNat 64 t } }
theorem wit_deadline : (waiting 0).working = true ∧ (∀ r ∈ (waiting 0).rows, r.key = k0 → r.decided = true ∨ (waiting 0).now < r.due)
    ∧ (waiting 6000).rows.find? (fun r => decide (r.key = k0 ∧ r.due ≤ (waiting 6000).now) && !r.decided) = some (rowAt none) ∧ (rowAt none).home = true
    ∧ k0.cls ≠ clVerify ∧ (waiting 6000).hcom = [] := by decide +kernel

/-! ## Messages on CTL, links -/

theorem wit_control : (root2 .run).live = true ∧ (root2 .run).isRoot = true ∧ ({ hdr5 1 0 with parity := true } : Hdr).parity = true
    ∧ hdrBroken { hdr5 1 0 with hops := 1023 } = true ∧ (root2 .run).blk ≠ .safe ∧ (hdr5 1 0).dst = (root2 .run).orch.shard ∧ (member1 .run).isRoot = false
    ∧ (root2 .run).punnetSeen 5 = false ∧ (root2 .run).forMe (hdr5 1 1) = false ∧ (root2 .run).orch.held = [] ∧ (root2 .run).orch.purges = 0
    ∧ (root2 .run).orch.hang = false ∧ State.reset.blk = .boot ∧ (inBlk .selftest).live = true := by decide +kernel
def msg5 : Msg := { hdr := hdr5 0 1, body := .rel 8 1 }
def holding (t purges : Nat) : State :=
  let s := root2 .run
  { s with orch := { s.orch with links := Tab.set s.orch.links 0 { Link.reset true with queues := [(3, [msg5])] }, purges := purges },
           time := { State.reset.time with tclk := BitVec.ofNat 64 t } }
def linked (st : Nat) (member : Bool) : State :=
  let s := inBlk .run
  { s with orch := { s.orch with member := member, links := Tab.set s.orch.links 0 { Link.reset true with st := st, train := { Training.zero with phase := 3 } } } }
theorem wit_probe : ({ (root2 .run).orch with confirm := [1] } : Orch).confirm = [1] ∧ (root2 .run).orch.hang = false ∧ (root2 .run).orch.purgeDue = false
    ∧ ({ Orch.reset with links := [(0, { Link.reset true with st := 1 })] } : Orch).allUp = false ∧ ({ Orch.reset with links := [(0, { Link.reset true with st := 2 })] } : Orch).allUp = true
    ∧ (holding 0 0).nextPurge = some 5 := by decide +kernel
theorem wit_detector : (holding 0 0).orch.held ≠ [] ∧ (holding 0 0).orch.blocked = false ∧ (holding 0 0).now < (holding 0 0).orch.moved + (holding 0 0).orch.cfg.dlwin
    ∧ (holding (2 ^ 32) 0).orch.moved + (holding (2 ^ 32) 0).orch.cfg.dlwin ≤ (holding (2 ^ 32) 0).now ∧ 4 ≤ (holding 0 4).orch.purges
    ∧ ((holding 0 4).punnetSeen 5) = true := by decide +kernel
def idle1 : Frame := mkFrame ftIdle 0 1 0 0 0 0 0 []
theorem wit_frames : (linked 2 false).live = true ∧ ((linked 2 false).orch.link 0).enabled = true ∧ ((linked 2 false).orch.link 0).st = 2 ∧ frOk idle1 = true
    ∧ frOk { idle1 with crc := ~~~idle1.crc } = false ∧ (linked 2 false).armed 0x09 = none ∧ ((linked 2 false).orch.link 0).asleep = false
    ∧ ((linked 2 false).orch.link 0).nakSent = false ∧ ((linked 2 false).orch.link 0).replay = [] ∧ (ready.orch.link 0).st ≠ 2
    ∧ ((linked 2 false).pumpLink 0).orch = (linked 2 false).orch
    ∧ frSeq idle1 ≠ (((linked 2 false).orch.link 0).lastAcc + 1) % 4096 ∨ frSeq idle1 = (((linked 2 false).orch.link 0).lastAcc + 1) % 4096 := by decide +kernel
theorem wit_training : ((linked 1 false).orch.link 0).st = 1 ∧ ((linked 1 false).orch.link 0).enabled = true ∧ ((linked 1 false).orch.link 0).train.phase = 3
    ∧ (linked 1 false).orch.member = false ∧ (linked 1 true).orch.member = true ∧ ((linked 1 false).orch.link 3).enabled = false
    ∧ ((linked 1 false).orch.link 0).fresh = true := by decide +kernel
/-- A training word changes no phase of a port that has finished its lanes. -/
theorem wit_training_word : let l := (linked 1 false).orch.link 0
    (l.train.word l.failed 0 [0]).phase = l.train.phase := by decide +kernel

/-! ## Debug, faults, self-test -/

def debugging (s : State) : State := { s with dbg := { s.dbg with en := true } }
theorem wit_debug : (debugging run).live = true ∧ (debugging run).debugOn = true ∧ run.debugOn = false ∧ bitsAt (0x4A470005 : Word) 16 16 = 0x4A47
    ∧ bitsAt (0x4A460005 : Word) 16 16 ≠ 0x4A47 ∧ (debugging (member1 .run)).isRoot = false ∧ (debugging (holding 0 0)).punnetSeen 5 = true
    ∧ (debugging run).punnetSeen 5 = false ∧ bitsAt (0x44420001 : Word) 16 16 = 0x4442 ∧ bitsAt (0x4A470023 : Word) 0 3 < 5 ∧ bitsAt (0x4A470023 : Word) 4 3 < 5
    ∧ 5 ≤ bitsAt (0x4A470025 : Word) 0 3 := by decide +kernel
/-- Semaphore 2: held by a port, free, held by another instance. -/
def semmed (o : Nat) : State := debugging { run with sems := [(2, { Sem.reset with owner := o })] }
theorem wit_debug_sem : ((semmed 1).sem 2).owner = 1 ∧ ((semmed 0).sem 2).owner = 0 ∧ ((semmed 3).sem 2).owner ≠ 1 ∧ bitsAt (0x4A470202 : Word) 0 6 = 2
    ∧ bitsAt (0x4A470202 : Word) 8 2 = 2 ∧ bitsAt (0x4A470002 : Word) 8 2 = 0 := by decide +kernel
theorem wit_tap : ready.pwr.clkFail = false ∧ 2 ≤ ready.pwr.cur ∧ (2 : Nat) % 2 = 0 ∧ (3 : Nat).testBit 1 = true ∧ tdrBits 3 3 18 < 0x20000
    ∧ tdrBits (3 + 0x20010 * 8) 3 18 = 0x20010 ∧ accessOk 0x20010 4 = true ∧ isWide 0x20010 = false ∧ ready.dbg.latch = none
    ∧ (flying (pun0 true)).puns ≠ [] ∧ run.idleWindow = false ∨ ready.idleWindow = true := by decide +kernel
theorem wit_log : (run.logFault 0x10 Site.none).faults.log ≠ [] ∧ run.faults.log = [] ∧ ((run.logFault 0x10 Site.none).logFault 0x10 Site.none).faults.log.length = 1
    ∧ ((run.logFault 0x10 Site.none).logFault 0x11 Site.none).faults.log.length = 2 := by decide +kernel
theorem wit_fatal : run.blk ≠ .safe ∧ (inBlk .safe).blk = .safe ∧ run.live = true ∧ run.armed 0x0F = none ∧ State.reset.blk = .boot := by decide +kernel
def u1 : Unit' := { kind := 1, sram := 0, index := 0 }
def passing (passEnd : Bool) (at_ now : Nat) : State :=
  { ready with rep := { ready.rep with passEnd := passEnd, passAt := at_, starved := false }, time := { State.reset.time with tclk := BitVec.ofNat 64 now } }
theorem wit_selftest : ready.live = true ∧ ready.idleWindow = true ∧ run.working = true ∧ ready.logical { u1 with kind := 7 } = some { u1 with kind := 7 } ∧ ready.working = true ∧ ready.blk ≠ .run
    ∧ ({ u1 with kind := 4 } : Unit').kind = 4 := by decide +kernel
theorem passing_now (e : Bool) (a n : Nat) (h : n < 2 ^ 64) : (passing e a n).now = n := Nat.mod_eq_of_lt h
theorem wit_selftest_timer : (passing true 0 0).rep.passAt = 0 ∧ (passing true 1 5).now < (passing true 1 5).rep.passAt + 60000000000
    ∧ (passing false 1 6000000000001).rep.passAt + 6000000000000 ≤ (passing false 1 6000000000001).now
    ∧ (passing false 1 5).now < (passing false 1 5).rep.passAt + 6000000000000 := by
  rw [passing_now _ _ _ (by omega), passing_now _ _ _ (by omega), passing_now _ _ _ (by omega)]
  exact ⟨rfl, Nat.lt_of_sub_ne_zero (by decide), Nat.le_refl _, Nat.lt_of_sub_ne_zero (by decide)⟩

/-! ## Counters and table pins -/

theorem find_const {α : Type} (c : α) (n : Nat) : ∀ l : List Nat, n ∈ l → Tab.find? (l.map (fun m => (m, c))) n = some c
  | m :: r, h => by
    simp only [List.map_cons, Tab.find?]
    split
    · rfl
    · exact find_const c n r ((List.mem_cons.1 h).resolve_left (by assumption))
def owned (ns : List Nat) : State := { ready with ctrs := ns.map (fun m => (m, { Ctr.reset with owner := 1 })) }
theorem owned_owner (ns : List Nat) (n : Nat) (h : n ∈ ns) : ((owned ns).ctr n).owner = 1 := by
  simp only [State.ctr, Tab.get, owned, find_const _ n ns h, Option.getD_some]
theorem wit_no_counter : (owned (span 64 960)).freeCtr = none ∧ run.freeCtr = some 64 := by
  refine ⟨?_, by decide +kernel⟩
  unfold State.freeCtr
  rw [List.find?_eq_none]
  intro n h
  rw [owned_owner _ n h]
  decide
/-- Generation 1 of bias set 0 is pinned by the row of punnet 5. -/
def pinning : State := flying { pun0 true with rows := [{ prow0 with pins := [(tblKey (mk 0x0401 [2]), 1)] }] }
theorem wit_tbl_pinned : 0 < pinning.tblPins (tblKey (mk 0x0401 [2])) 1 := by decide +kernel

/-! ## The manual's worked examples -/

/-- Chapter 3: in a FP4 block of scale 2^-3 a weight of 0.3125 scales to 2.5 and rounds to 2.0, code 0b0100; of its 6 random bits r, 32 and more choose 3.0. -/
theorem test_fp4_example : WFmt.fp4.quantRne { m := 5, e := -1 } = 4 ∧ WFmt.fp4.srBits { m := 160, e := -6 } = 6
    ∧ WFmt.fp4.quantSr { m := 160, e := -6 } 31 = 4 ∧ WFmt.fp4.quantSr { m := 160, e := -6 } 32 = 5 := by decide +kernel

def units28 (x c : F32) : Int × Int := let t := sumTerms x c; (accInt t.1 / 2 ^ 228, accInt t.2 / 2 ^ 228)
/-- Table 3.9: terms and products for the anchor 30, in units of 2^-28; 30 is 0x41F00000, 27 is 0x41D80000, -170 is 0xC32A0000. -/
theorem test_terms_of_table_3_9 : units28 0x41F00000 0x41F00000 = (268435456, 0) ∧ units28 0x41D80000 0x41F00000 = (13364614, -40093840)
    ∧ units28 0xC32A0000 0x41F00000 = (0, 0) := by decide +kernel
/-- The sums of that example give the ENTROPY field 0x3F73. -/
theorem test_entropy_of_table_3_9 : toB16 (derive (accOf (416880746 * 2 ^ 228)) (accOf (-211503304 * 2 ^ 228)) 0x41F00000).h = 0x3F73 := by decide +kernel

/-- Chapter 6: T 0.5, θ 1.25, α_P 0.5, α_F 0.25: 7.0 with bias 0.5 and count 3 becomes 9.5; -2.0 with count 2 becomes -7.0. -/
theorem test_chain_example :
    let p : Profile := { Profile.dflt with temp := 0x3F000000, reppen := 0x3FA00000, prespen := 0x3F000000, freqpen := 0x3E800000 }
    stages p 3 0x3F000000 0x40E00000 = 0x41180000 ∧ stages p 2 0 0xC0000000 = 0xC0E00000 := by decide +kernel

/-- Chapter 9: α 0.55 and DLEN 6; after two CRECs of no accepted token DLEN is 3 and ZRUN 0 again; 0x3EF66666 is 0.48125. -/
theorem test_draft_control_example :
    let x : Scx := { Scx.zero with alpha := 0x3F0CCCCD, dlen := 6, rs := { Scx.zero.rs with dlctl := 1, dlmin := 1, dlmax := 8, alo := 0x3666, ahi := 0x399A } }
    let y := x.control 0 6
    y.dlen = 6 ∧ y.zrun = 1 ∧ (y.control 0 6).dlen = 3 ∧ (y.control 0 6).zrun = 0 := by decide +kernel

/-- Chapter 11: overlays 3 and 7 over base profile 12. -/
theorem test_merge_example :
    let recs : Tab ProfRec := [(0, { ProfRec.dflt with p := { Profile.dflt with topp := 0x3F733333 } }),
      (3, { ProfRec.dflt with p := { Profile.dflt with temp := 0, ntop := 5 }, present := 0x401 }),
      (7, { ProfRec.dflt with p := { Profile.dflt with temp := 0x3F333333, topk := 50 }, present := 0x101 })]
    let m := mergeProf recs 0x44
    m.temp = 0x3F333333 ∧ m.ntop = 5 ∧ m.topk = 50 ∧ m.topp = 0x3F733333 ∧ depthOf m clDecode = 256 ∧ (mergeProf recs 4).temp = 0 := by decide +kernel

/-- Chapter 12: the id delta 292 and the count 65,535. -/
theorem test_counts_example : vi 292 = [0xA4, 0x02] ∧ vi 65535 = [0xFF, 0xFF, 0x03] := by decide +kernel

/-- Chapter 20: logical selection lane 37 on spare 1. -/
theorem test_repair_entry_example : mkEntry 3 1 0 37 = 0xF0940013 := by decide +kernel

/-- Chapter 2: the first words of the record of handle 0x07_0123 at position 4,095 with token 7,311. -/
theorem test_trec_example :
    (trecWords (fallbackTrec { handle := { slot := 0x123, gen := 7 }, pos := 4095, cls := 0, gidx := 0 } kToken 7311 0)).take 3 = [0x00070123, 0x00000FFF, 0x00001C8F] := by
  decide +kernel

/-- Chapter 17, Table 17.19: both completions of the deferred switch on ring 3 in phase 1. -/
theorem test_completion_example : cplWords 0xA1 0x0501 3 false 1 { status := stAccepted, res0 := 0, res1 := 0x2B, detail := 0 } = [0xA1, 0x01830501, 0, 0x2B]
    ∧ cplWords 0xA1 0x0501 3 true 1 (Cpl.done 0x4BF 0x2B) = [0xA1, 0x00C30501, 0x4BF, 0x2B] := by decide +kernel

/-- A command answers a next state with a property. -/
def answers (o : Host.Outcome State Fault Refusal) (f : State → Bool) : Bool := match o with
  | .next t => f t
  | _ => false
def ring5 : RingRef := { port := .cpb, ring := 5 }
def example16 : State :=
  let q : Ring := { Ring.reset with en := true, sqlog := 6, cqlog := 6, sqh := 0xFFF0, sqt := 0xFFF0 }
  { ready with cpb := { Port.reset with rings := [(5, q)] } }
/-- Chapter 16: tail 0x0010 claims 32 packets; 0x0040 would claim 80 and sets ERR with ERRCODE 1. -/
theorem test_doorbell_example : answers (exec (.doorbell .cpb ring5 0x0010) example16) (fun t => decide ((t.ring ring5).untaken = 32)) = true
    ∧ answers (exec (.doorbell .cpb ring5 0x0040) example16) (fun t => (t.ring ring5).err && decide ((t.ring ring5).errcode = 1)) = true := by decide +kernel

def sem5 (owner grants : Nat) (abnd : Bool) : State := { ready with sems := [(5, { Sem.reset with owner := owner, grants := grants, abnd := abnd })] }
def semIs (owner grants : Nat) (abnd : Bool) (t : State) : Bool := decide ((t.sem 5).owner = owner ∧ (t.sem 5).grants = grants ∧ (t.sem 5).abnd = abnd)
/-- Table 16.8: the grants of semaphore 5 at cycles 0 and 10,500, and the request that loses. -/
theorem test_semaphore_race : answers (exec (.semReq (.port .cpa) 5) (sem5 0 0x11 false)) (semIs 1 0x12 false) = true
    ∧ answers (exec (.semReq (.port .cpb) 5) (sem5 1 0x12 false)) (semIs 1 0x12 false) = true
    ∧ answers (exec (.semReq (.port .cpb) 5) (sem5 0 0x12 true)) (semIs 2 0x13 true) = true := by decide +kernel
/-- Table 16.8, cycle 10,000: a port reset of CPA abandons it. -/
theorem test_semaphore_abandoned : answers (exec (.portReset 0x4A470001) (sem5 1 0x12 false)) (semIs 0 0x12 true) = true := by decide +kernel

/-- Chapter 13: BURST of tenant 17 is cut from 10,000 to 5,000, and its BAL goes from 2,000 to -3,000. -/
theorem test_burst_example : ({ Tenant.reset with limit := true, burst := 10000, rate := 400, bal := 2000 } : Tenant).setBurst 5000
    = { Tenant.reset with limit := true, burst := 5000, rate := 400, bal := -3000 } := by decide +kernel

/-- Chapter 5, the close race: z_s 14.12, anchor 64, LSE 16.05, ε_max 0.5810, W 30.0, Λ 1 give LPBND 0x38A7. The sum is e^-47.95 in units of 2^-256. -/
theorem test_bound_example :
    ({ s := accOf 173483622768686095093293819660006013708498985690316581058, e := 0, c := 0x42800000, eps := 0x3F14BC6A, w := 0x41F00000 } : SumAt).bound
      f32One 0 0x4161EB85 = 0x38A7 := by decide +kernel
/-- Chapter 7: k = 2^23 gives G of about 0.3665130; k = 0 and k = 2^24 - 1 the least and the largest, about -2.8524 and 17.3287. -/
theorem test_gumbel_example : flt 0x3EBBA790 (gumbel (2 ^ 23)) = true ∧ flt (gumbel (2 ^ 23)) 0x3EBBA7A0 = true
    ∧ flt 0xC0368E00 (gumbel 0) = true ∧ flt (gumbel 0) 0xC0368D00 = true ∧ flt 0x418AA100 (gumbel (2 ^ 24 - 1)) = true ∧ flt (gumbel (2 ^ 24 - 1)) 0x418AA200 = true := by
  decide +kernel
/-- Chapter 19: on instance 5 a thermal trip in RUN loads CAUSE 0x43 and PRIOR 3. -/
theorem test_safe_example : ((run.fatal 0x43 Site.none).faults.scause, (run.fatal 0x43 Site.none).faults.prior) = (0x43, 3) := by decide +kernel
/-- Chapter 7: the key words of the example are formed from SEED 0x2A, POS 4,095, purpose 0 and id 88,017. -/
theorem test_key_example : pipWord 0x2A 4095 0 88017 = mixer 0x2A 0 0xFFF 0x157D1 := by decide +kernel

end Sys2Proof.Tests
end

/-! PROOFS. Ring errors (R336, Table 16.4): what the interrupt operations leave of the rings, what each register write and each response
does on its own port, and from these the obligation on ring errors. -/

namespace Sys2Proof.Proofs

open Sys2Proof.Machine Sys2Proof.Laws

/-! ## Causes, vectors and counters change no ring -/

theorem setPort_ring_of_rings_eq (s : State) (p : PortId) (q : Port) (h : q.rings = (s.port p).rings) (r : RingRef) :
    (s.setPort p q).ring r = s.ring r := by
  rw [setPort_ring]
  split
  · next hp => simp only [Port.ring, h, State.ring, hp]
  · rfl

theorem refresh_ring (s : State) (p : PortId) (w1c : Bool) (r : RingRef) : (s.refresh p w1c).ring r = s.ring r := by
  have houts : (s.refresh p w1c).ring r = (s.setPort p ((s.port p).refresh w1c)).ring r := by
    obtain ⟨rp, n⟩ := r
    cases rp <;> rfl
  exact houts.trans (setPort_ring_of_rings_eq s p _ (by rfl) r)

theorem bump_ring (s : State) (off : Nat) (r : RingRef) : (s.bump off).ring r = s.ring r := by
  obtain ⟨rp, n⟩ := r
  cases rp <;> rfl

theorem setCauseOne_ring (s : State) (p : PortId) (b : Nat) (r : RingRef) : (s.setCauseOne p b).ring r = s.ring r := by
  unfold State.setCauseOne State.setCause1
  rw [bump_ring, refresh_ring]
  exact setPort_ring_of_rings_eq s p _ (by rfl) r

theorem setCauseOne_intStatus (s : State) (p : PortId) (b : Nat) :
    ((s.setCauseOne p b).port p).intStatus = (s.port p).intStatus ||| BitVec.ofNat 15 (2 ^ b) := by
  cases p <;> rfl

theorem setCauseOne_sets_bit (s : State) (p : PortId) {b : Nat} (hb : b < 15) : bitAt ((s.setCauseOne p b).port p).intStatus b = true := by
  simp only [setCauseOne_intStatus, bitAt, BitVec.getLsbD_or, BitVec.getLsbD_ofNat, hb, Nat.testBit_two_pow_self, decide_true, Bool.and_true,
    Bool.or_true]

/-! ## A ring error -/

theorem ringError_ring (s : State) (r q : RingRef) (n : Nat) :
    (s.ringError r n).ring q =
      if q = r then { s.ring r with err := true, errcode := n, errcnt := satAdd 255 (s.ring r).errcnt 1, en := false } else s.ring q := by
  unfold State.ringError
  rw [setCauseOne_ring, setRing_ring]

theorem ringError_sets_cause (s : State) (r : RingRef) (n : Nat) : bitAt ((s.ringError r n).port r.port).intStatus cRingErr = true :=
  setCauseOne_sets_bit _ _ (by decide)

/-! ## Writes by a port into its own window, and responses, while the block runs -/

theorem exec_doorbell_own {s : State} (h : s.live = true) (r : RingRef) (tail : Half) :
    exec (.doorbell r.port r tail) s = .next (s.writeTail r tail) :=
  congrArg Host.Outcome.next (portWrite_own h r.port _)

theorem exec_jgCqhWrite_own {s : State} (h : s.live = true) (r : RingRef) (head : Half) :
    exec (.jgCqhWrite r.port r head) s = .next (s.writeHead r head) :=
  congrArg Host.Outcome.next (portWrite_own h r.port _)

theorem exec_ringEnable_own {s : State} (h : s.live = true) (r : RingRef) (v : Word) :
    exec (.ringEnable r.port r v) s = .next (s.writeRctl r v) :=
  congrArg Host.Outcome.next (portWrite_own h r.port _)

theorem exec_cqWriteAck_live {s : State} (h : s.live = true) (r : RingRef) (err : Bool) :
    exec (.cqWriteAck r err) s = .next (s.cqAck r err) :=
  congrArg Host.Outcome.next (if_pos h)

theorem writeTail_beyond_queue {s : State} {r : RingRef} {tail : Half} (hen : (s.ring r).en = true)
    (hclaim : 2 ^ (s.ring r).sqlog < (tail - (s.ring r).sqh).toNat) : s.writeTail r tail = s.ringError r 1 := by
  simp only [State.writeTail, hen, Bool.true_eq_false, if_false, if_pos hclaim]

theorem writeHead_beyond_written {s : State} {r : RingRef} {head : Half} (hhead : 2 ^ (s.ring r).cqlog < ((s.ring r).cqt - head).toNat) :
    s.writeHead r head = s.ringError r 2 := if_pos hhead

theorem ctl_en (q : Ring) (v : Word) : (q.ctl v).en = q.en := rfl

theorem writeRctl_bad_size {s : State} {r : RingRef} {v : Word} (hv : bitAt v 0 = true) (hen : (s.ring r).en = false)
    (hsize : ((s.ring r).ctl v).sizesOk = false) :
    s.writeRctl r v = ((s.setRing r ((s.ring r).ctl v)).refresh r.port false).ringError r 4 := by
  simp only [State.writeRctl, hv, ctl_en, hen, hsize, Bool.true_eq_false, Bool.false_eq_true, if_false, if_true]

theorem writeRctl_enables {s : State} {r : RingRef} {v : Word} (hv : bitAt v 0 = true) (hen : (s.ring r).en = false)
    (hsize : ((s.ring r).ctl v).sizesOk = true) :
    s.writeRctl r v = (s.setRing r { (s.ring r).ctl v with en := true, sqt := 0, sqh := 0, cqt := 0, cqh := 0 }).refresh r.port false := by
  simp only [State.writeRctl, hv, ctl_en, hen, hsize, Bool.true_eq_false, Bool.false_eq_true, if_false]

/-! ## Packets at a ring whose read fails, or that is stopped -/

theorem takePacket_readErr {s : State} {pk : Pkt} (d : Desc) (hserve : s.serving = true) (hen : (s.ring pk.src).en = true)
    (hwait : (s.ring pk.src).untaken ≠ 0) (hread : pk.readErr = true) : takePacket d pk s = s.ringError pk.src 3 := by
  simp only [takePacket, hserve, hen, hwait, hread, Bool.true_eq_false, or_self, if_false, if_true]

theorem takePacket_disabled {s : State} {pk : Pkt} (d : Desc) (hen : (s.ring pk.src).en = false) : takePacket d pk s = s :=
  if_pos (Or.inr (Or.inl hen))

/-! ## Completions of a ring -/

theorem finish_ring_cqw {s : State} {r : RingRef} {id : Nat} {o : Outst} (x : Cpl)
    (ho : (s.ring r).outst.find? (fun o => decide (o.id = id)) = some o) :
    ((s.finish (.ring r id) x).ring r).cqw
      = (s.ring r).cqw ++ [{ id := id, words := cplWords o.tag o.opcode r.ring true 0 x, final := true, intr := !o.noint, retry := false }] := by
  simp only [State.finish, State.complete, setRing_ring, if_true, Ring.complete, ho]

theorem cqAck_second_error {s : State} {r : RingRef} {w : CqWrite} {rest : List CqWrite} (hw : (s.ring r).cqw = w :: rest)
    (hretry : w.retry = true) : s.cqAck r true = (s.setRing r ((s.ring r).written w)).ringError r 3 := by
  simp only [State.cqAck, hw, hretry, if_true]

/-- The state in which the oldest completion write of a ring stands in memory and has left the ring (log 98), before JG_CQ_PEND is set. -/
def acknowledged (s : State) (r : RingRef) (w : CqWrite) : State :=
  (s.storeWords (ringBase (s.ring r).cqb + 16 * ((s.ring r).cqt.toNat % 2 ^ (s.ring r).cqlog))
    (withPhase w.words (cqPhase (s.ring r) (s.ring r).cqt.toNat))).setRing r { (s.ring r).written w with cqt := (s.ring r).cqt + 1 }

/-- JG_CQ_PEND set for a ring, and the vectors brought up to date (R344). -/
def setCqPend (s : State) (r : RingRef) : State :=
  (s.setPort r.port { s.port r.port with cqPend := (s.port r.port).cqPend ||| BitVec.ofNat 64 (2 ^ r.ring) }).refresh r.port false

theorem setCqPend_ring (s : State) (r q : RingRef) : (setCqPend s r).ring q = s.ring q := by
  unfold setCqPend
  rw [refresh_ring]
  exact setPort_ring_of_rings_eq s r.port _ (by rfl) q

theorem setCqPend_mem (s : State) (r : RingRef) : (setCqPend s r).mem = s.mem := by
  unfold setCqPend
  rw [refresh_mem, setPort_mem]

theorem cqAck_success {s : State} {r : RingRef} {w : CqWrite} {rest : List CqWrite} (hw : (s.ring r).cqw = w :: rest) :
    s.cqAck r false = if (s.ring r).cie && w.intr then setCqPend (acknowledged s r w) r else acknowledged s r w := by
  simp only [State.cqAck, hw, Bool.false_eq_true, if_false]
  rfl

theorem acknowledged_ring (s : State) (r : RingRef) (w : CqWrite) :
    (acknowledged s r w).ring r = { (s.ring r).written w with cqt := (s.ring r).cqt + 1 } := by
  unfold acknowledged
  rw [setRing_ring, if_pos rfl]

theorem cqAck_success_ring {s : State} {r : RingRef} {w : CqWrite} {rest : List CqWrite} (hw : (s.ring r).cqw = w :: rest) :
    (s.cqAck r false).ring r = { (s.ring r).written w with cqt := (s.ring r).cqt + 1 } := by
  rw [cqAck_success hw]
  split
  · rw [setCqPend_ring, acknowledged_ring]
  · exact acknowledged_ring s r w

theorem acknowledged_mem (s : State) (r : RingRef) (w : CqWrite) :
    (acknowledged s r w).mem
      = (s.storeWords (ringBase (s.ring r).cqb + 16 * ((s.ring r).cqt.toNat % 2 ^ (s.ring r).cqlog))
          (withPhase w.words (cqPhase (s.ring r) (s.ring r).cqt.toNat))).mem := setRing_mem _ _ _

theorem cqAck_success_mem {s : State} {r : RingRef} {w : CqWrite} {rest : List CqWrite} (hw : (s.ring r).cqw = w :: rest) :
    (s.cqAck r false).mem = (acknowledged s r w).mem := by
  rw [cqAck_success hw]
  split
  · exact setCqPend_mem _ r
  · rfl

/-- Settles O13: each clause is one case of the register write, the taking of a packet or the write response that it names. -/
theorem ringErrorsStopTheRing : Obligations.RingErrorsStopTheRing := by
  unfold Obligations.RingErrorsStopTheRing
  refine ⟨?effect, ?doorbell, ?head, ?read, ?write, ?size, ?stopped, ?restart, ?completes, ?written⟩
  case effect =>
    intro s r n
    refine ⟨?_, ringError_sets_cause s r n, fun q hq => ?_⟩
    · rw [ringError_ring, if_pos rfl]
    · rw [ringError_ring, if_neg hq]
  case doorbell =>
    intro s r tail hlive hen hclaim
    rw [exec_doorbell_own hlive, writeTail_beyond_queue hen hclaim]
  case head =>
    intro s r head hlive hhead
    rw [exec_jgCqhWrite_own hlive, writeHead_beyond_written hhead]
  case read =>
    intro c d pk b s hc hserve hen hwait hread
    rw [exec_packet hc, takePacket_readErr d hserve hen hwait hread]
  case write =>
    intro s r w rest hlive hw hretry
    rw [exec_cqWriteAck_live hlive, cqAck_second_error hw hretry]
  case size =>
    intro s r v hlive hv hen hsize
    rw [exec_ringEnable_own hlive, writeRctl_bad_size hv hen hsize]
  case stopped =>
    intro c d pk b s hc hen
    rw [exec_packet hc, takePacket_disabled d hen]
  case restart =>
    intro s r v hlive hv hen hsize
    rw [exec_ringEnable_own hlive, writeRctl_enables hv hen hsize]
  case completes => exact fun s r id x o _ ho => finish_ring_cqw x ho
  case written =>
    intro s r w rest hlive _ hw
    refine ⟨_, exec_cqWriteAck_live hlive r false, ?_, ?_, (cqAck_success_mem hw).trans (acknowledged_mem s r w)⟩
    · simp only [cqAck_success_ring hw, Ring.written, hw, List.drop_succ_cons, List.drop_zero]
    · rw [cqAck_success_ring hw]

end Sys2Proof.Proofs

/-! PROOFS. The control ports' interrupt status and message writes (R430, R431): what a clear of JG_INT_STATUS does to the port, what each
response to a message write does, and from these the two obligations of the register map. -/

namespace Sys2Proof.Proofs

open Sys2Proof.Machine Sys2Proof.Laws

/-! ## A write to JG_INT_STATUS -/

/-- The defined flags of a value written are its low 15 bits: the mask 0x7FFF takes none of them. -/
theorem definedFlags_mask (v : Word) : BitVec.ofNat 15 (v &&& 0x7FFF).toNat = BitVec.ofNat 15 v.toNat := by
  have hmask : (0x7FFF : Word).setWidth 15 = BitVec.allOnes 15 := by decide
  rw [BitVec.ofNat_toNat, BitVec.ofNat_toNat, BitVec.setWidth_and, hmask, BitVec.and_allOnes]

theorem clearInt_mask (s : State) (p : PortId) (v : Word) : s.clearInt p (v &&& 0x7FFF) = s.clearInt p v := by
  simp only [State.clearInt, definedFlags_mask]

theorem clearInt_port (s : State) (p : PortId) (v : Word) :
    (s.clearInt p v).port p = ({ s.port p with intStatus := (s.port p).intStatus &&& ~~~(BitVec.ofNat 15 v.toNat) } : Port).refresh true := by
  unfold State.clearInt
  rw [refresh_port, setPort_self]

theorem clearInt_cqPend (s : State) (p : PortId) (v : Word) : ((s.clearInt p v).port p).cqPend = (s.port p).cqPend := by
  rw [clearInt_port]
  rfl

theorem clearInt_intStatus (s : State) (p : PortId) (v : Word) :
    ((s.clearInt p v).port p).intStatus = (s.port p).intStatus &&& ~~~(BitVec.ofNat 15 v.toNat) := by
  rw [clearInt_port]
  rfl

theorem clearInt_flag (s : State) (p : PortId) (v : Word) {b : Nat} (hb : b < 15) :
    bitAt ((s.clearInt p v).port p).intStatus b = (bitAt (s.port p).intStatus b && !bitAt v b) := by
  simp only [clearInt_intStatus, bitAt, BitVec.ofNat_toNat, BitVec.getLsbD_and, BitVec.getLsbD_not, BitVec.getLsbD_setWidth, hb, decide_true,
    Bool.true_and]

theorem exec_intStatusClear_own {s : State} (h : s.live = true) (p : PortId) (v : Word) :
    exec (.intStatusClear p p v) s = .next (s.clearInt p v) :=
  congrArg Host.Outcome.next (portWrite_own h p _)

/-- Settles O17: the write acts on its low 15 bits, and the refresh that follows it leaves JG_CQ_PEND and the flags. -/
theorem reservedStatusBitsAreIgnored : Obligations.ReservedStatusBitsAreIgnored := by
  unfold Obligations.ReservedStatusBitsAreIgnored
  intro s p v hlive
  refine ⟨?ignored, s.clearInt p v, exec_intStatusClear_own hlive p v, clearInt_cqPend s p v, fun b hb => clearInt_flag s p v hb⟩
  case ignored => rw [exec_intStatusClear_own hlive, exec_intStatusClear_own hlive, clearInt_mask]

/-! ## The response to a message write -/

/-- The port after a message write is dropped: the write is no longer outstanding, and JG_MSGERR_CNT advances. -/
def dropMessage (q : Port) (m : Nat × Bool) : Port := { q with msgOut := q.msgOut.erase m, msgerr := satAdd (2 ^ 32 - 1) q.msgerr 1 }

theorem dropMessage_sumBit (q : Port) (m : Nat × Bool) (v : Nat) : (dropMessage q m).sumBit v = q.sumBit v := rfl

theorem dropMessage_msgOn (q : Port) (m : Nat × Bool) (v : Nat) : (dropMessage q m).msgOn v = q.msgOn v := rfl

theorem dropMessage_summary (q : Port) (m : Nat × Bool) : (dropMessage q m).summary = q.summary := rfl

/-- R345: a W1C write that leaves a vector's summary nonzero sends its message, whatever the vector's summary was before. -/
theorem mem_msgOut_refresh_w1c {q : Port} {v : Nat} (hv : v < 16) (hsum : q.sumBit v = true) (hon : q.msgOn v = true) :
    (v, false) ∈ (q.refresh true).msgOut := by
  have hdue : v ∈ q.dueVecs true := by
    simp only [Port.dueVecs, List.mem_filter, List.mem_range, hv, hsum, hon, Bool.true_or, Bool.and_self, and_self]
  exact List.mem_append_right _ (List.mem_map_of_mem hdue)

theorem msgAck_first_error {s : State} {p : PortId} {v : Nat} {m : Nat × Bool}
    (hm : (s.port p).msgOut.find? (fun x => x.1 = v) = some m) (hfirst : m.2 = false) :
    s.msgAck p v true = (s.setPort p { s.port p with msgOut := (v, true) :: (s.port p).msgOut.erase m }).drive (.message p v) := by
  simp only [State.msgAck, hm, hfirst, Bool.false_eq_true, if_false, if_true]

theorem msgAck_second_error {s : State} {p : PortId} {v : Nat} {m : Nat × Bool}
    (hm : (s.port p).msgOut.find? (fun x => x.1 = v) = some m) (hsecond : m.2 = true) :
    s.msgAck p v true = s.setPort p (dropMessage (s.port p) m) := by
  simp only [State.msgAck, hm, hsecond, if_true, dropMessage]

theorem msgAck_success {s : State} {p : PortId} {v : Nat} {m : Nat × Bool}
    (hm : (s.port p).msgOut.find? (fun x => x.1 = v) = some m) :
    s.msgAck p v false
      = (s.setPort p { s.port p with msgOut := (s.port p).msgOut.erase m }).storeWords
          (memKey ((Tab.get (s.port p).msga v 3).toNat % 4) ((Tab.get (s.port p).msga v 3).toNat / 4 * 4)) [Tab.get (s.port p).msgd v 0] := by
  simp only [State.msgAck, hm, Bool.false_eq_true, if_false]

theorem exec_msgWriteResponse_live {s : State} (h : s.live = true) (p : PortId) (v : Nat) (err : Bool) :
    exec (.msgWriteResponse p v err) s = .next (s.msgAck p v err) :=
  congrArg Host.Outcome.next (if_pos h)

/-- Settles O19: each clause is one case of the response; a dropped message leaves the summary, so a W1C write finds its vector due. -/
theorem messageWriteResponse : Obligations.MessageWriteResponse := by
  unfold Obligations.MessageWriteResponse
  intro s p v m hlive hm
  refine ⟨fun hfirst => ?again, fun hsecond => ⟨?dropped, dropMessage_summary _ m, fun hv hsum hon => ?resent⟩, ?written⟩
  case again => rw [exec_msgWriteResponse_live hlive, msgAck_first_error hm hfirst]
  case dropped => exact (exec_msgWriteResponse_live hlive p v true).trans (congrArg Host.Outcome.next (msgAck_second_error hm hsecond))
  case resent =>
    exact mem_msgOut_refresh_w1c hv ((dropMessage_sumBit _ m v).trans hsum) ((dropMessage_msgOn _ m v).trans hon)
  case written => rw [exec_msgWriteResponse_live hlive, msgAck_success hm]

end Sys2Proof.Proofs

/-! PROOFS. What every step keeps (R394, R397; the queue of log 46): what each command's meaning keeps, put together over the commands, and
from it the obligations about a step, its outcome, its invariant and the reset state. -/

namespace Sys2Proof.Proofs

open Sys2Proof.Machine Sys2Proof.Laws

/-! ## Over all commands -/

/-- A command that cannot reset the instance keeps all that only a reset ends. -/
theorem exec_keeps {c : Instr} {s t : State} (hc : c.mayReset = false) (hx : exec c s = .next t) : Keeps s t := by
  cases c with
  | sysNop pk => exact keeps_execSysNop pk s t hx
  | sysQuery pk => exact keeps_execSysQuery pk s t hx
  | sysStart pk => exact keeps_execSysStart pk s t hx
  | sysDrain pk => exact keeps_execSysDrain pk s t hx
  | sysSave pk => exact keeps_execSysSave pk s t hx
  | sysRestore pk => exact keeps_execSysRestore pk s t hx
  | sysPcap pk => exact keeps_execSysPcap pk s t hx
  | cfgSet pk => exact keeps_execCfgSet pk s t hx
  | cfgPhase pk => exact keeps_execCfgPhase pk s t hx
  | cfgRegion pk => exact keeps_execCfgRegion pk s t hx
  | cfgRing pk => exact keeps_execCfgRing pk s t hx
  | cfgHeadset pk => exact keeps_execCfgHeadset pk s t hx
  | cfgSlot pk => exact keeps_execCfgSlot pk s t hx
  | profWrite pk => exact keeps_execProfWrite pk s t hx
  | profSwap pk => exact keeps_execProfSwap pk s t hx
  | profRead pk => exact keeps_execProfRead pk s t hx
  | tblLoad pk => exact keeps_execTblLoad pk s t hx
  | tblSwap pk => exact keeps_execTblSwap pk s t hx
  | tblFree pk => exact keeps_execTblFree pk s t hx
  | tblQuery pk => exact keeps_execTblQuery pk s t hx
  | epochLoad pk => exact keeps_execEpochLoad pk s t hx
  | epochSwitch pk => exact keeps_execEpochSwitch pk s t hx
  | epochRefset pk => exact keeps_execEpochRefset pk s t hx
  | epochDrop pk => exact keeps_execEpochDrop pk s t hx
  | epochVload pk => exact keeps_execEpochVload pk s t hx
  | epochVfree pk => exact keeps_execEpochVfree pk s t hx
  | epochQuery pk => exact keeps_execEpochQuery pk s t hx
  | reqOpen pk => exact keeps_execReqOpen pk s t hx
  | reqClose pk => exact keeps_execReqClose pk s t hx
  | reqCancel pk => exact keeps_execReqCancel pk s t hx
  | reqPark pk => exact keeps_execReqPark pk s t hx
  | reqResume pk => exact keeps_execReqResume pk s t hx
  | reqRelease pk => exact keeps_execReqRelease pk s t hx
  | reqQuery pk => exact keeps_execReqQuery pk s t hx
  | tenSet pk => exact keeps_execTenSet pk s t hx
  | tenQuery pk => exact keeps_execTenQuery pk s t hx
  | syncAlloc pk => exact keeps_execSyncAlloc pk s t hx
  | syncFree pk => exact keeps_execSyncFree pk s t hx
  | syncSet pk => exact keeps_execSyncSet pk s t hx
  | syncAdd pk => exact keeps_execSyncAdd pk s t hx
  | syncRead pk => exact keeps_execSyncRead pk s t hx
  | syncWait pk => exact keeps_execSyncWait pk s t hx
  | syncSignal pk => exact keeps_execSyncSignal pk s t hx
  | syncBarrier pk => exact keeps_execSyncBarrier pk s t hx
  | syncSemacq pk => exact keeps_execSyncSemacq pk s t hx
  | syncSemrel pk => exact keeps_execSyncSemrel pk s t hx
  | orchConfig pk => exact keeps_execOrchConfig pk s t hx
  | orchDiscover pk => exact keeps_execOrchDiscover pk s t hx
  | orchRejoin pk => exact keeps_execOrchRejoin pk s t hx
  | orchQuery pk => exact keeps_execOrchQuery pk s t hx
  | diagInject pk => exact keeps_execDiagInject pk s t hx
  | diagSelftest pk => exact keeps_execDiagSelftest pk s t hx
  | diagSnap pk => exact keeps_execDiagSnap pk s t hx
  | diagTrace pk => exact keeps_execDiagTrace pk s t hx
  | repairLoad pk => exact keeps_execRepairLoad pk s t hx
  | repairCommit pk => exact keeps_execRepairCommit pk s t hx
  | repairQuery pk => exact keeps_execRepairQuery pk s t hx
  | repairCal pk => exact keeps_execRepairCal pk s t hx
  | dumpConfig pk => exact keeps_execDumpConfig pk s t hx
  | dumpStatus pk => exact keeps_execDumpStatus pk s t hx
  | dumpTake pk => exact keeps_execDumpTake pk s t hx
  | dumpAck pk => exact keeps_execDumpAck pk s t hx
  | doorbell by_ r tail => exact keeps_execDoorbell by_ r tail s t hx
  | jgCqhWrite by_ r head => exact keeps_execJgCqhWrite by_ r head s t hx
  | ringEnable by_ r value => exact keeps_execRingEnable by_ r value s t hx
  | cqWriteAck r err => exact keeps_execCqWriteAck r err s t hx
  | intStatusClear by_ win value => exact keeps_execIntStatusClear by_ win value s t hx
  | cqPendClear by_ win value => exact keeps_execCqPendClear by_ win value s t hx
  | intRouteMaskWrite by_ win reg value => exact keeps_execIntRouteMaskWrite by_ win reg value s t hx
  | msgWriteResponse p vec err => exact keeps_execMsgWriteResponse p vec err s t hx
  | semReq by_ n => exact keeps_execSemReq by_ n s t hx
  | semRel by_ n => exact keeps_execSemRel by_ n s t hx
  | portReset value => exact keeps_execPortReset value s t hx
  | warmReset src => exact nomatch hc
  | quarantine value => exact keeps_execQuarantine value s t hx
  | coldReset => exact nomatch hc
  | jgFwCtlGo value => exact keeps_execJgFwCtlGo value s t hx
  | selftestDone failed => exact keeps_execSelftestDone failed s t hx
  | pllLockLoss => exact keeps_execPllLockLoss s t hx
  | tclkTick => exact keeps_execTclkTick s t hx
  | timeAlign => exact keeps_execTimeAlign s t hx
  | pmReqRun => exact keeps_execPmReqRun s t hx
  | pmReqRet => exact keeps_execPmReqRet s t hx
  | pmReqOff => exact keeps_execPmReqOff s t hx
  | pmTransitionDone locked => exact keeps_execPmTransitionDone locked s t hx
  | idleTimeout => exact keeps_execIdleTimeout s t hx
  | thermalSample raw => exact keeps_execThermalSample raw s t hx
  | droopTrip detector => exact keeps_execDroopTrip detector s t hx
  | rdescAccept p beat last => exact keeps_execRdescAccept p beat last s t hx
  | payloadEnd p beats elems ecc => exact keeps_execPayloadEnd p beats elems ecc s t hx
  | tegAck tag err => exact keeps_execTegAck tag err s t hx
  | tegFabricCredit n => exact keeps_execTegFabricCredit n s t hx
  | tegRingCredit ring n => exact keeps_execTegRingCredit ring n s t hx
  | admitMsg h b => exact keeps_execAdmit h b s t hx
  | copySkewExpiry key => exact keeps_execCopySkewExpiry key s t hx
  | gatherWindowExpiry => exact keeps_execGatherWindowExpiry s t hx
  | closeMarginReached => exact keeps_execCloseMarginReached s t hx
  | close h b => exact keeps_execClose h b s t hx
  | partFetchDone handle part ecc => exact keeps_execPartFetchDone handle part ecc s t hx
  | preludeDone punnet ecc => exact keeps_execPreludeDone punnet ecc s t hx
  | weightSegmentLoaded punnet pass tile seg ecc => exact keeps_execWeightSegmentLoaded punnet pass tile seg ecc s t hx
  | tileProjected punnet pass done => exact keeps_execTileProjected punnet pass done s t hx
  | selectionTileClosed punnet pass tile => exact keeps_execSelectionTileClosed punnet pass tile s t hx
  | auxHeadDone punnet rslot reward => exact keeps_execAuxHeadDone punnet rslot reward s t hx
  | stat h b => exact keeps_execStat h b s t hx
  | cand h b => exact keeps_execCand h b s t hx
  | win h b => exact keeps_execWin h b s t hx
  | topm h b => exact keeps_execTopm h b s t hx
  | tgt h b => exact keeps_execTgt h b s t hx
  | thresh h b => exact keeps_execThresh h b s t hx
  | rsq h b => exact keeps_execRsq h b s t hx
  | rescoreDone punnet rslot pass id ecc => exact keeps_execRescoreDone punnet rslot pass id ecc s t hx
  | rsp h b => exact keeps_execRsp h b s t hx
  | certCutoff punnet rslot => exact keeps_execCertCutoff punnet rslot s t hx
  | commit h b => exact keeps_execCommit h b s t hx
  | lkup h b => exact keeps_execLkup h b s t hx
  | aux h b => exact keeps_execAux h b s t hx
  | side h b => exact keeps_execSide h b s t hx
  | cancel h k => exact keeps_execCancel h k s t hx
  | deadlineReached key => exact keeps_execDeadlineReached key s t hx
  | contextExpiry slot => exact keeps_execContextExpiry slot s t hx
  | expiredPagesFreed slot => exact keeps_execExpiredPagesFreed slot s t hx
  | historyDoublingDone slot => exact keeps_execHistoryDoublingDone slot s t hx
  | budgetRefill => exact keeps_execBudgetRefill s t hx
  | requantPartDone hset slot variant err => exact keeps_execRequantPartDone hset slot variant err s t hx
  | bar h barrier tag => exact keeps_execBar h barrier tag s t hx
  | rel h barrier tag => exact keeps_execRel h barrier tag s t hx
  | signal h b => exact keeps_execSignal h b s t hx
  | cmd h b => exact keeps_execCmd h b s t hx
  | event h b => exact keeps_execEvent h b s t hx
  | probe h b => exact keeps_execProbe h b s t hx
  | purge h punnet dbg => exact keeps_execPurge h punnet dbg s t hx
  | disc port ovf entries => exact keeps_execDisc port ovf entries s t hx
  | discoverySettled => exact keeps_execDiscoverySettled s t hx
  | dlwinExpiry => exact keeps_execDlwinExpiry s t hx
  | purgeRetryTimer => exact keeps_execPurgeRetryTimer s t hx
  | dataFrame port f => exact keeps_execDataFrame port f s t hx
  | nakFrame port f => exact keeps_execNakFrame port f s t hx
  | idleFrame port f => exact keeps_execIdleFrame port f s t hx
  | train port f => exact keeps_execTrain port f s t hx
  | retrain port f => exact keeps_execRetrain port f s t hx
  | trainingWord port group lane words => exact keeps_execTrainingWord port group lane words s t hx
  | replayTimer port => exact keeps_execReplayTimer port s t hx
  | idleTimer port => exact keeps_execIdleTimer port s t hx
  | linktoExpiry port => exact keeps_execLinktoExpiry port s t hx
  | linkDown port => exact keeps_execLinkDown port s t hx
  | signalTimeout stag => exact keeps_execSignalTimeout stag s t hx
  | forwardTimeout fid => exact keeps_execForwardTimeout fid s t hx
  | waitTimeout r => exact keeps_execWaitTimeout r s t hx
  | rescoreKatTimer failed => exact keeps_execRescoreKatTimer failed s t hx
  | watchdogExpiry => exact keeps_execWatchdogExpiry s t hx
  | transferTimeout => exact keeps_execTransferTimeout s t hx
  | safeEntry cause => exact keeps_execSafeEntry cause s t hx
  | windfallDone err => exact keeps_execWindfallDone err s t hx
  | selftestSlice unit fail => exact keeps_execSelftestSlice unit fail s t hx
  | selftestPassTimer => exact keeps_execSelftestPassTimer s t hx
  | lowWordRead p addr => exact keeps_execLowWordRead p addr s t hx
  | jgDbgEn by_ value => exact keeps_execJgDbgEn by_ value s t hx
  | jgDbgPurge value => exact keeps_execJgDbgPurge value s t hx
  | jgDbgFlush value => exact keeps_execJgDbgFlush value s t hx
  | jgDbgCntval value => exact keeps_execJgDbgCntval value s t hx
  | jgDbgSem value => exact keeps_execJgDbgSem value s t hx
  | hangclr value => exact keeps_execHangclr value s t hx
  | injenClear value => exact keeps_execInjenClear value s t hx
  | jgDbgTrdata p => exact keeps_execJgDbgTrdata p s t hx
  | registerWrite by_ addr size value => exact nomatch hc
  | dbgen => exact keeps_execDbgen s t hx
  | testLogicReset => exact keeps_execTestLogicReset s t hx
  | regacc tdr => exact nomatch hc
  | store tdr => exact keeps_execStore tdr s t hx
  | sramrd tdr => exact keeps_execSramrd tdr s t hx
  | slice tdr => exact keeps_execSlice tdr s t hx
  | fuse tdr => exact keeps_execFuse tdr s t hx
  | therm raw => exact keeps_execTherm raw s t hx
  | trace tdr => exact keeps_execTrace tdr s t hx
  | poolUpdate => exact keeps_execPoolUpdate s t hx
  | dbgenDeselect => exact keeps_execDbgenDeselect s t hx

/-- Every command, a reset among them, keeps the queue, the form of memory, the bound of the fault log and fresh command numbers. -/
theorem exec_keepsAll {c : Instr} {s t : State} (h : exec c s = .next t) : KeepsAll s t := by
  cases hc : c.mayReset with
  | false => exact (exec_keeps hc h).all
  | true =>
    have hreset : c = .coldReset ∨ (∃ src, c = .warmReset src) ∨ (∃ p a n v, c = .registerWrite p a n v) ∨ ∃ tdr, c = .regacc tdr := by
      cases c <;> simp_all [Instr.mayReset]
    obtain rfl | ⟨src, rfl⟩ | ⟨p, a, n, v, rfl⟩ | ⟨tdr, rfl⟩ := hreset
    · exact keeps_execColdReset s t h
    · exact keeps_execWarmReset src s t h
    · exact keeps_execRegisterWrite p a n v s t h
    · exact keeps_execRegacc tdr s t h

theorem step_empty {s : State} (h : s.pending = []) : step s = .next s := by
  unfold step
  rw [h]

theorem step_front {s : State} {c : Instr} {r : List Instr} (h : s.pending = c :: r) : step s = exec c { s with pending := r } := by
  unfold step
  rw [h]

/-- What a step does: it idles, or it runs the front command on the state with the queue's rest. -/
theorem step_cases {s t : State} (h : step s = .next t) :
    (s.pending = [] ∧ t = s) ∨ ∃ c r, s.pending = c :: r ∧ KeepsAll { s with pending := r } t := by
  cases hq : s.pending with
  | nil => exact .inl ⟨rfl, (Host.Outcome.next.inj ((step_empty hq).symm.trans h)).symm⟩
  | cons c r => exact .inr ⟨c, r, rfl, exec_keepsAll ((step_front hq).symm.trans h)⟩

/-- Settles O3: an idle step leaves the empty queue, and a command leaves the rest that it was run with. -/
theorem queueIsFirstInFirstOut : Obligations.QueueIsFirstInFirstOut := by
  unfold Obligations.QueueIsFirstInFirstOut
  intro s t h
  obtain ⟨hq, rfl⟩ | ⟨c, r, hq, hpending, -⟩ := step_cases h
  · rw [hq, List.tail_nil]
  · rw [hpending, hq, List.tail_cons]

/-- Settles O4: the queue is no part of the invariant, and each command keeps both its halves. -/
theorem stepKeepsInvariant : Obligations.StepKeepsInvariant := by
  unfold Obligations.StepKeepsInvariant
  intro s t ⟨hmem, hlog⟩ h
  obtain ⟨-, rfl⟩ | ⟨c, r, -, -, keepsMem, keepsLog, -⟩ := step_cases h
  · exact ⟨hmem, hlog⟩
  · exact ⟨keepsMem hmem, keepsLog hlog⟩

/-- Settles O7: SAFE and quarantine are among what a command that cannot reset keeps. -/
theorem onlyResetLeavesSafeOrQuarantine : Obligations.OnlyResetLeavesSafeOrQuarantine := by
  unfold Obligations.OnlyResetLeavesSafeOrQuarantine
  intro c s t hc h
  obtain ⟨-, -, -, keepsQuar, -, keepsSafe, -⟩ := exec_keeps hc h
  exact ⟨keepsSafe, keepsQuar⟩

/-- The numbers that the rings list, said of every ring of the instance, are those of its two ports. -/
theorem fresh_iff (s : State) : Fresh s ↔ ∀ r, ∀ o ∈ (s.ring r).outst, o.id < s.cmdId := by
  constructor
  · rintro ⟨ha, hb⟩ ⟨p, n⟩ o ho
    cases p with
    | cpa => exact ha n o ho
    | cpb => exact hb n o ho
  · intro h
    exact ⟨fun n => h ⟨.cpa, n⟩, fun n => h ⟨.cpb, n⟩⟩

/-- Settles O11: fresh numbers are among what every command keeps, and the queue does not enter them. -/
theorem commandNumbersStayFresh : Obligations.CommandNumbersStayFresh := by
  unfold Obligations.CommandNumbersStayFresh
  intro s t hs h
  rw [← fresh_iff] at hs ⊢
  obtain ⟨-, rfl⟩ | ⟨c, r, -, -, -, -, keepsFresh⟩ := step_cases h
  · exact hs
  · exact keepsFresh hs

/-- Settles O1: the step is its equation for the front command, and no word of the table has bits. -/
theorem stepTakesFrontCommand : Obligations.StepTakesFrontCommand := by
  unfold Obligations.StepTakesFrontCommand
  exact ⟨⟨fun c r s => step_front rfl, fun s => step_empty⟩, fun nbits w s => ⟨rfl, rfl⟩⟩

/-- Settles O2: each arm is a meaning, and each meaning answers a state. -/
theorem everyCommandAnswersNext : Obligations.EveryCommandAnswersNext := by
  unfold Obligations.EveryCommandAnswersNext
  intro c s
  cases c <;> exact ⟨_, rfl⟩

/-- Settles O5: memory is empty and the fault log has no entry. -/
theorem resetMeetsInvariant : Obligations.ResetMeetsInvariant := by
  unfold Obligations.ResetMeetsInvariant
  exact ⟨by decide, Nat.zero_le _⟩

/-- Settles O6: each value is read off the reset state. -/
theorem resetValues : Obligations.ResetValues := by
  unfold Obligations.ResetValues
  have hport : ∀ p : PortId, State.reset.port p = Port.reset := fun p => by cases p <;> rfl
  refine ⟨rfl, rfl, rfl, rfl, rfl, rfl, rfl, fun r => ?rings, by decide, fun p => ?ports, fun _ => (by decide : Sem.reset.reg = 0),
    fun _ => rfl, fun _ => rfl, by decide, by decide, rfl, rfl, rfl, rfl, rfl, rfl, rfl⟩
  case rings =>
    show (State.reset.port r.port).ring r.ring = Ring.reset
    rw [hport]
    rfl
  case ports =>
    rw [hport]
    exact ⟨rfl, rfl, rfl, rfl, rfl, rfl, fun _ => ⟨rfl, rfl⟩⟩

/-! ## A clock failure -/

theorem portWrite_off {s : State} (h : s.pwr.clkFail = true) (p w : PortId) (act : State → State) : portWrite p w act s = s :=
  if_pos (.inl h)

theorem sharedWrite_off {s : State} (h : s.pwr.clkFail = true) (p : PortId) (act : State → State) : sharedWrite p act s = s := if_pos h

theorem semWrite_off {s : State} (h : s.pwr.clkFail = true) (n : Nat) (act : State → State) : semWrite n act s = s :=
  if_pos (.inl (live_off h))

theorem debugWrite_off {s : State} (h : s.pwr.clkFail = true) (act : State → State) : debugWrite act s = s := by
  simp only [debugWrite, live_off h, Bool.false_and, Bool.false_eq_true, if_false]

theorem instrument_off {s : State} (h : s.pwr.clkFail = true) (sib tdr : Nat) (act : State → State) : instrument sib tdr act s = s :=
  if_pos (.inl h)

theorem frameAt_off {s : State} (h : s.pwr.clkFail = true) (p : Nat) (f : Frame) (act : State → State) : frameAt p f act s = s :=
  if_pos (.inl (live_off h))

theorem goOn_off {s : State} (h : s.pwr.clkFail = true) (b : Bool) : s.goOn b = s := by
  cases b with
  | false => rfl
  | true => exact after_off h

/-- No packet is taken: no ring is served. -/
theorem exec_packet_off {c : Instr} {d : Desc} {pk : Pkt} {b : Bool} {s : State} (hc : c.packet? = some (d, pk, b))
    (h : s.pwr.clkFail = true) : exec c s = .next s := by
  rw [exec_packet hc, takePacket_off h, goOn_off h]

/-- Settles O8: every command but the three stands behind a gate that a clock failure shuts. -/
theorem clockFailureHoldsEverything : Obligations.ClockFailureHoldsEverything := by
  unfold Obligations.ClockFailureHoldsEverything
  intro c s h hcold htap hdeselect
  have hl : s.live = false := live_off h
  cases hp : c.packet? with
  | some q => exact exec_packet_off hp h
  | none =>
    cases c
    case doorbell | jgCqhWrite | ringEnable | intStatusClear | cqPendClear | intRouteMaskWrite =>
      exact congrArg Host.Outcome.next (portWrite_off h _ _ _)
    case jgDbgEn => exact congrArg Host.Outcome.next (sharedWrite_off h _ _)
    case semReq | semRel => exact congrArg Host.Outcome.next (semWrite_off h _ _)
    case jgDbgPurge | jgDbgFlush | jgDbgCntval | jgDbgSem | hangclr | injenClear => exact congrArg Host.Outcome.next (debugWrite_off h _)
    case regacc | store | sramrd | slice | fuse | trace => exact congrArg Host.Outcome.next (instrument_off h _ _ _)
    case dataFrame | nakFrame | idleFrame => exact congrArg Host.Outcome.next (frameAt_off h _ _ _)
    case rel | cmd | event => exact congrArg Host.Outcome.next (ctlStep_off h _ _ _)
    case admitMsg | close | stat | cand | win | topm | tgt | thresh | rsq | rsp | commit | lkup | aux | side | cancel =>
      exact congrArg Host.Outcome.next (rowStep_off h _ _ _)
    case copySkewExpiry | gatherWindowExpiry | closeMarginReached | partFetchDone | preludeDone | weightSegmentLoaded | tileProjected
        | selectionTileClosed | auxHeadDone | rescoreDone | certCutoff | deadlineReached | budgetRefill | requantPartDone | rescoreKatTimer
        | poolUpdate =>
      exact congrArg Host.Outcome.next (workStep_off h _)
    case warmReset | tclkTick | pmReqRun | pmReqRet | pmReqOff | tegAck | tegFabricCredit | tegRingCredit | therm =>
      exact congrArg Host.Outcome.next (if_pos (.inl h))
    case registerWrite | lowWordRead | pmTransitionDone | dbgen => exact congrArg Host.Outcome.next (if_pos h)
    case thermalSample | selftestPassTimer => exact congrArg Host.Outcome.next (if_pos hl)
    case pllLockLoss => exact congrArg Host.Outcome.next (if_neg fun hc => absurd (h.symm.trans hc.2) (by decide))
    case coldReset => exact absurd rfl hcold
    case testLogicReset => exact absurd rfl htap
    case dbgenDeselect => exact absurd rfl hdeselect
    case cqWriteAck | msgWriteResponse | portReset | quarantine | jgFwCtlGo | selftestDone | timeAlign | idleTimeout | droopTrip
         | rdescAccept | payloadEnd | contextExpiry | expiredPagesFreed | historyDoublingDone | bar | signal | probe | purge | disc
         | discoverySettled | dlwinExpiry | purgeRetryTimer | train | retrain | trainingWord | replayTimer | idleTimer | linktoExpiry
         | linkDown | signalTimeout | forwardTimeout | waitTimeout | watchdogExpiry | transferTimeout | safeEntry | windfallDone
         | selftestSlice | jgDbgTrdata =>
      exact congrArg Host.Outcome.next (if_neg (by simp [hl]))
    all_goals exact nomatch hp

end Sys2Proof.Proofs

/-! PROOFS. Packets at the rings (R336, R339, R341, R350): the cases in which a packet waits, is answered, runs or is forwarded, and from
these the three obligations about taking a packet. -/

namespace Sys2Proof.Proofs

open Sys2Proof.Machine Sys2Proof.Laws

/-! ## The cases of taking a packet -/

/-- A packet that stands readable at the head of an enabled ring that is served (R336, R341). -/
structure AtHead (s : State) (pk : Pkt) : Prop where
  serving : s.serving = true
  enabled : (s.ring pk.src).en = true
  waits   : (s.ring pk.src).untaken ≠ 0
  read    : pk.readErr = false

theorem takePacket_not_served {s : State} {pk : Pkt} (d : Desc)
    (h : s.serving = false ∨ (s.ring pk.src).en = false ∨ (s.ring pk.src).untaken = 0) : takePacket d pk s = s := if_pos h

theorem AtHead.served {s : State} {pk : Pkt} (h : AtHead s pk) :
    ¬ (s.serving = false ∨ (s.ring pk.src).en = false ∨ (s.ring pk.src).untaken = 0) := by
  simp only [h.serving, h.enabled, h.waits, Bool.true_eq_false, or_self, not_false_eq_true]

/-- A packet whose KCRC holds stays while it may not be taken, whichever command's it is. -/
theorem takePacket_waits {s : State} {pk : Pkt} (d : Desc) (h : AtHead s pk)
    (hwait : s.takeable pk (if d.accepts then 2 else 1) = false) : takePacket d pk s = s := by
  simp only [takePacket, if_neg h.served, h.read, Bool.false_eq_true, if_false, hwait, if_true, ite_self]

/-- Another command's packet, or an undefined one, is not passed over by this command (log 8). -/
theorem not_other_command {pk : Pkt} {d : Desc} (hmine : definedOpcode pk.opcode.toNat = true → pk.opcode.toNat = d.opcode) :
    ¬ (True ∧ definedOpcode pk.opcode.toNat = true ∧ pk.opcode.toNat ≠ d.opcode) := fun h => h.2.2 (hmine h.2.1)

section
variable {s : State} {pk : Pkt} {d : Desc} (h : AtHead s pk) (hk : pk.kcrcOk = true)
  (hmine : definedOpcode pk.opcode.toNat = true → pk.opcode.toNat = d.opcode) (ht : s.takeable pk (if d.accepts then 2 else 1) = true)
include h hk hmine ht

theorem takePacket_answered {c : Cpl} (hr : s.reject d pk = some c) :
    takePacket d pk s = s.answers pk (if d.accepts then 2 else 1) c := by
  simp only [takePacket, if_neg h.served, h.read, Bool.false_eq_true, if_false, hk, if_neg (not_other_command hmine), ht, Bool.true_eq_false,
    Bool.not_true, Bool.not_false, Bool.true_and, hr]
  rfl

theorem takePacket_here (hr : s.reject d pk = none) (hser : s.serialiser d pk = s.orch.shard) :
    takePacket d pk s = (s.taken pk (if d.accepts then 2 else 1)).start d (s.origin pk) pk := by
  simp only [takePacket, if_neg h.served, h.read, Bool.false_eq_true, if_false, hk, if_neg (not_other_command hmine), ht, Bool.true_eq_false,
    Bool.not_true, Bool.not_false, Bool.true_and, hr, hser, if_true]
  rfl

theorem takePacket_forwarded (hr : s.reject d pk = none) (hser : s.serialiser d pk ≠ s.orch.shard) :
    takePacket d pk s = (s.taken pk (if d.accepts then 2 else 1)).forward (s.origin pk) pk (s.serialiser d pk) := by
  simp only [takePacket, if_neg h.served, h.read, Bool.false_eq_true, if_false, hk, if_neg (not_other_command hmine), ht, Bool.true_eq_false,
    Bool.not_true, Bool.not_false, Bool.true_and, hr, hser]
  rfl

end

theorem takePacket_bad_kcrc {s : State} {pk : Pkt} {d : Desc} (h : AtHead s pk) (hk : pk.kcrcOk = false)
    (hroom : (s.ring pk.src).room 1 = true) :
    takePacket d pk s = (s.take pk 1 false).finish (s.origin pk) (Cpl.of stBadParam 0x01) := by
  simp only [takePacket, if_neg h.served, h.read, Bool.false_eq_true, if_false, hk, false_and, State.takeable, hroom, Bool.true_eq_false,
    Bool.not_false, if_true, Bool.not_true, Bool.false_and, State.reject]
  rfl

theorem starts_atHead {s : State} {pk : Pkt} {op k : Nat} {masks : List Nat} {legal : List Blk} (h : Starts s pk op k masks legal) :
    AtHead s pk := ⟨h.serving, h.enabled, h.waits, h.read⟩

/-! ## The checks of R339, in their order -/

section
variable {s : State} {d : Desc} {pk : Pkt} (hk : pk.kcrcOk = true)
include hk

theorem reject_undefined (hdef : definedOpcode pk.opcode.toNat = false) : s.reject d pk = some (Cpl.of stBadOpcode 0) := by
  simp only [State.reject, hk, Bool.true_eq_false, if_false, hdef, if_true]

variable (hop : definedOpcode pk.opcode.toNat = true)
include hop

theorem reject_safe (hblk : s.blk = .safe) (hsafe : safeOpcode pk.opcode.toNat = false) : s.reject d pk = some (Cpl.of stSafeState 0) := by
  simp only [State.reject, hk, Bool.true_eq_false, if_false, hop, hblk, hsafe, and_self, if_true]

variable (hsafe : s.blk = .safe → safeOpcode pk.opcode.toNat = true)
include hsafe

omit hk hop in
theorem past_safe : ¬ (s.blk = .safe ∧ safeOpcode pk.opcode.toNat = false) := fun h => absurd (h.2.symm.trans (hsafe h.1)) (by decide)

theorem reject_fields {x : Nat} (hbad : d.bad pk s = some x) : s.reject d pk = some (Cpl.of stBadParam x) := by
  simp only [State.reject, hk, Bool.true_eq_false, if_false, hop, if_neg (past_safe hsafe), hbad]

theorem reject_blk (hbad : d.bad pk s = none) (hlegal : d.legal.contains s.blk = false) : s.reject d pk = some (Cpl.of stWrongState 0) := by
  simp only [State.reject, hk, Bool.true_eq_false, if_false, hop, if_neg (past_safe hsafe), hbad, hlegal, Bool.false_eq_true]

theorem reject_passes (hbad : d.bad pk s = none) (hlegal : d.legal.contains s.blk = true) : s.reject d pk = none := by
  simp only [State.reject, hk, Bool.true_eq_false, if_false, hop, if_neg (past_safe hsafe), hbad, hlegal, if_true]

end

/-! ## A command at the instance that serialises it -/

theorem start_pre {s : State} {d : Desc} {o : Origin} {pk : Pkt} {x : Cpl} (h : d.pre o pk s = some x) : s.start d o pk = s.finish o x := by
  simp only [State.start, h]

theorem start_locked {s : State} {d : Desc} {o : Origin} {pk : Pkt} {x : Nat × Nat} (h : d.pre o pk s = none) (hx : d.lock pk s = some x)
    (hl : s.locked x = true) : s.start d o pk = s.finish o (Cpl.of stBusyRetry 0) := by
  simp only [State.start, h, hx, hl, if_true]

theorem start_runs {s : State} {d : Desc} {o : Origin} {pk : Pkt} (h : d.pre o pk s = none)
    (hl : ∀ x, d.lock pk s = some x → s.locked x = false) : s.start d o pk = d.run o pk s := by
  cases hx : d.lock pk s with
  | none => simp only [State.start, h, hx]
  | some x => simp only [State.start, h, hx, hl x hx, Bool.false_eq_true, if_false]

/-- Settles O9: each clause is one case of taking the packet, by the first check that fails. -/
theorem firstFailingCheckDecides : Obligations.FirstFailingCheckDecides := by
  unfold Obligations.FirstFailingCheckDecides
  intro c d pk b s hc hserve hen hwait hread
  have hhead : AtHead s pk := ⟨hserve, hen, hwait, hread⟩
  have next {x y : State} (h : x = y) : Host.Outcome.next (x.goOn b) = (.next (y.goOn b) : Host.Outcome State Fault Refusal) := by rw [h]
  refine ⟨fun hk hroom => ?kcrc, fun hk ht => ⟨fun hdef => ?opcode, fun hop hdef => ?checks⟩⟩
  all_goals rw [exec_packet hc]
  case kcrc => exact next (takePacket_bad_kcrc hhead hk hroom)
  case opcode => exact next (takePacket_answered hhead hk (fun h => absurd (hdef.symm.trans h) (by decide)) ht (reject_undefined hk hdef))
  case checks =>
    have hmine (_ : definedOpcode pk.opcode.toNat = true) : pk.opcode.toNat = d.opcode := hop
    rw [← hop] at hdef ⊢
    refine ⟨fun hblk hsafe => ?safe, fun hsafe => ⟨fun x hbad => ?fields, fun hbad => ⟨fun hlegal => ?blk, fun hlegal hser => ?object⟩⟩⟩
    case safe => exact next (takePacket_answered hhead hk hmine ht (reject_safe hk hdef hblk hsafe))
    case fields => exact next (takePacket_answered hhead hk hmine ht (reject_fields hk hdef hsafe hbad))
    case blk => exact next (takePacket_answered hhead hk hmine ht (reject_blk hk hdef hsafe hbad hlegal))
    case object =>
      have hstart := takePacket_here hhead hk hmine ht (reject_passes hk hdef hsafe hbad hlegal) hser
      exact ⟨fun x hpre => next (hstart.trans (start_pre hpre)),
        fun hpre => ⟨fun x hx hl => next (hstart.trans (start_locked hpre hx hl)), fun hl => next (hstart.trans (start_runs hpre hl))⟩⟩

/-- Settles O12: a ring that is not served or a packet that may not be taken leaves the state; a packet whose checks pass is forwarded. -/
theorem packetsThatDoNotStartHere : Obligations.PacketsThatDoNotStartHere := by
  unfold Obligations.PacketsThatDoNotStartHere
  refine ⟨fun c d pk b s hc hwaits => ?waits, fun c d pk b s hc masks hs hdef hsafe hbad hser => ?forwarded⟩
  all_goals rw [exec_packet hc]
  case waits =>
    have hstays : takePacket d pk s = s := by
      by_cases hserved : s.serving = false ∨ (s.ring pk.src).en = false ∨ (s.ring pk.src).untaken = 0
      · exact takePacket_not_served d hserved
      · simp only [not_or, Bool.not_eq_false] at hserved
        obtain ⟨hserve, hen, hwait⟩ := hserved
        obtain ⟨hread, hk, hnot⟩ : pk.readErr = false ∧ pk.kcrcOk = true ∧ _ := by
          simpa only [hserve, hen, hwait, Bool.true_eq_false, false_or] using hwaits
        refine takePacket_waits d ⟨hserve, hen, hwait, hread⟩ ?_
        obtain ⟨hfence, hbusy⟩ | hasleep | hroom := hnot
        · simp [State.takeable, hk, hfence, hbusy]
        · simp [State.takeable, hk, hasleep]
        · simp [State.takeable, hk, hroom]
    rw [hstays]
  case forwarded =>
    have hpass : s.reject d pk = none := reject_passes hs.kcrc (hs.opcode ▸ hdef) (fun hb => hs.opcode ▸ hsafe hb) hbad hs.state
    rw [takePacket_forwarded (starts_atHead hs) hs.kcrc (fun _ => hs.opcode) (starts_takeable hs) hpass hser]
    rfl

/-! ## A packet taken and answered -/

theorem taken_ring_ne (s : State) {pk : Pkt} (k : Nat) {r : RingRef} (h : r ≠ pk.src) : (s.taken pk k).ring r = s.ring r := by
  have htake : (s.taken pk k).ring r = (s.setRing pk.src { s.ring pk.src with
      sqh := (s.ring pk.src).sqh + 1,
      outst := (s.ring pk.src).outst ++ [{ id := s.cmdId, tag := pk.tag, opcode := pk.opcode, noint := pk.noint, reserve := k }] }).ring r := by
    obtain ⟨rp, n⟩ := r
    cases rp <;> rfl
  rw [htake, setRing_ring, if_neg h]

theorem answers_ring (s : State) (pk : Pkt) (k : Nat) (x : Cpl) (r : RingRef) :
    (s.answers pk k x).ring r =
      if r = pk.src then ((s.taken pk k).ring pk.src).complete pk.src.ring s.cmdId true x else (s.taken pk k).ring r := setRing_ring _ _ _ _

/-- In a list of commands none of which has its number, the one put last is found. -/
theorem find_last_outst {l : List Outst} {o : Outst} (h : ∀ x ∈ l, x.id ≠ o.id) :
    (l ++ [o]).find? (fun x => decide (x.id = o.id)) = some o := by
  have hnone : l.find? (fun x => decide (x.id = o.id)) = none := List.find?_eq_none.2 fun x hx => by simpa using h x hx
  simp [List.find?_append, hnone]

/-- Settles O10: the packet's ring is the ring taken from and completed, and the rest is what taking and completing leave. -/
theorem takenPacketIsAnsweredOnItsRing : Obligations.TakenPacketIsAnsweredOnItsRing := by
  unfold Obligations.TakenPacketIsAnsweredOnItsRing
  intro s pk k x hfresh
  refine ⟨?own, fun r hr => ?others, ?cmdId, ?frame⟩
  case own =>
    rw [answers_ring, if_pos rfl, taken_ring]
    simp only [Ring.complete, find_last_outst (o := ⟨s.cmdId, pk.tag, pk.opcode, pk.noint, k⟩) hfresh]
  case others => rw [answers_ring, if_neg hr, taken_ring_ne s k hr]
  case cmdId => exact setRing_cmdId _ _ _
  case frame =>
    simp only [State.answers, State.finish, State.complete, State.origin, State.taken, State.take, setRing_mem, setRing_blk, setRing_conf,
      setRing_slots, setRing_rows, setRing_orch, setRing_sems, setRing_ctrs, setRing_faults, setRing_cnts, and_self]

end Sys2Proof.Proofs

/-! PROOFS. The control ports' registers (R333, R335, R344 to R346, R424, R425, R428, R429): ring registers, completion writes, interrupt
registers, summaries, accesses through a port and semaphores. -/

namespace Sys2Proof.Proofs

open Sys2Proof.Machine Sys2Proof.Laws

/-- Equal states are equal answers. -/
theorem next_congr {x y : State} (h : x = y) : (.next x : Host.Outcome State Fault Refusal) = .next y := congrArg Host.Outcome.next h

/-! ## Ring registers -/

theorem writeRctl_stops {s : State} {r : RingRef} {v : Word} (hv : bitAt v 0 = false) :
    s.writeRctl r v = (s.setRing r { (s.ring r).ctl v with en := false }).refresh r.port false := if_pos hv

theorem writeRctl_stays_enabled {s : State} {r : RingRef} {v : Word} (hv : bitAt v 0 = true) (hen : (s.ring r).en = true) :
    s.writeRctl r v = (s.setRing r ((s.ring r).ctl v)).refresh r.port false := by
  simp only [State.writeRctl, hv, ctl_en, hen, Bool.true_eq_false, if_false, if_true]

theorem writeTail_disabled {s : State} {r : RingRef} {tail : Half} (hen : (s.ring r).en = false) : s.writeTail r tail = s := if_pos hen

theorem writeTail_within {s : State} {r : RingRef} {tail : Half} (hen : (s.ring r).en = true)
    (hclaim : (tail - (s.ring r).sqh).toNat ≤ 2 ^ (s.ring r).sqlog) : s.writeTail r tail = s.setRing r { s.ring r with sqt := tail } := by
  simp only [State.writeTail, hen, Bool.true_eq_false, if_false, if_neg (Nat.not_lt.2 hclaim)]

theorem writeHead_within {s : State} {r : RingRef} {head : Half} (hhead : ((s.ring r).cqt - head).toNat ≤ 2 ^ (s.ring r).cqlog) :
    s.writeHead r head = s.setRing r { s.ring r with cqh := head } := if_neg (Nat.not_lt.2 hhead)

/-- Settles O14: each clause is one case of the register write, in a window of the port's own. -/
theorem ringRegisterWrites : Obligations.RingRegisterWrites := by
  unfold Obligations.RingRegisterWrites
  refine ⟨fun s r v hlive => ⟨fun hv => ?stop, fun hv hen => ?stays, fun hv hen hsize => ?starts⟩,
    fun s r x hlive => ⟨fun hen => ?ignored, fun hen hclaim => ?tail, fun hhead => ?head⟩⟩
  case stop => exact (exec_ringEnable_own hlive r v).trans (next_congr (writeRctl_stops hv))
  case stays => exact (exec_ringEnable_own hlive r v).trans (next_congr (writeRctl_stays_enabled hv hen))
  case starts => exact (exec_ringEnable_own hlive r v).trans (next_congr (writeRctl_enables hv hen hsize))
  case ignored => rw [exec_doorbell_own hlive, writeTail_disabled hen]
  case tail => rw [exec_doorbell_own hlive, writeTail_within hen hclaim]
  case head => rw [exec_jgCqhWrite_own hlive, writeHead_within hhead]

/-! ## Completion writes -/

theorem cqAck_nothing {s : State} {r : RingRef} (hw : (s.ring r).cqw = []) (err : Bool) : s.cqAck r err = s := by
  simp only [State.cqAck, hw]

theorem cqAck_first_error {s : State} {r : RingRef} {w : CqWrite} {rest : List CqWrite} (hw : (s.ring r).cqw = w :: rest)
    (hretry : w.retry = false) : s.cqAck r true = s.setRing r { s.ring r with cqw := { w with retry := true } :: rest } := by
  simp only [State.cqAck, hw, hretry, Bool.false_eq_true, if_false, if_true]

/-- Settles O15: each clause is one case of the response; an acknowledged write leaves its ring as `Ring.written` says. -/
theorem completionWriteResponse : Obligations.CompletionWriteResponse := by
  unfold Obligations.CompletionWriteResponse
  refine fun s r hlive => ⟨fun hw e => ?nothing, fun w rest hw => ⟨fun hretry => ?again, ?written⟩⟩
  case nothing => rw [exec_cqWriteAck_live hlive, cqAck_nothing hw]
  case again => rw [exec_cqWriteAck_live hlive, cqAck_first_error hw hretry]
  case written =>
    have hring : ({ (s.ring r).written w with cqt := (s.ring r).cqt + 1 } : Ring) = { s.ring r with
        cqw := rest, cqt := (s.ring r).cqt + 1,
        outst := if w.final then (s.ring r).outst.filter (fun o => o.id ≠ w.id)
          else (s.ring r).outst.map (fun o => if o.id = w.id then { o with reserve := o.reserve - 1 } else o) } := by
      simp only [Ring.written, hw, List.drop_succ_cons, List.drop_zero]
    rw [exec_cqWriteAck_live hlive, cqAck_success hw, acknowledged, hring]
    rfl

/-! ## Interrupt registers -/

theorem exec_cqPendClear_own {s : State} (h : s.live = true) (p : PortId) (w : W64) :
    exec (.cqPendClear p p w) s = .next (s.clearCqPend p w) := next_congr (portWrite_own h p _)

theorem exec_intRouteMaskWrite_own {s : State} (h : s.live = true) (p : PortId) (reg : Nat) (v : Word) :
    exec (.intRouteMaskWrite p p reg v) s = .next (s.writeRoute p reg v) := next_congr (portWrite_own h p _)

/-- The defined flags of a value written are its low 15 bits. -/
theorem definedFlags_bitsAt (v : Word) : BitVec.ofNat 15 (bitsAt v 0 15) = BitVec.ofNat 15 v.toNat := by
  apply BitVec.eq_of_toNat_eq
  simp only [bitsAt, Nat.shiftRight_zero, BitVec.toNat_ofNat, Nat.mod_mod]

/-- Settles O16: each register's write is the case of its address. -/
theorem interruptRegisterWrites : Obligations.InterruptRegisterWrites := by
  unfold Obligations.InterruptRegisterWrites
  intro s p v w hlive
  refine ⟨?status, exec_cqPendClear_own hlive p w, exec_intRouteMaskWrite_own hlive p 0x0C v, exec_intRouteMaskWrite_own hlive p 0x18 v,
    exec_intRouteMaskWrite_own hlive p 0x1C v⟩
  case status =>
    rw [definedFlags_bitsAt]
    exact exec_intStatusClear_own hlive p v

/-! ## Summaries and messages -/

/-- A vector's summary: an unmasked cause routed to it, or an unmasked completion of a ring that names it (R345, R429). -/
theorem sumBit_iff (q : Port) (v : Nat) : q.sumBit v = true ↔
    (∃ b, b < 15 ∧ bitAt q.intStatus b = true ∧ bitAt q.intMask b = false ∧ q.route b = v)
    ∨ (bitAt q.intMask 15 = false ∧ ∃ n, n < 64 ∧ bitAt q.cqPend n = true ∧ (q.ring n).vec = v) := by
  simp only [Port.sumBit, Bool.or_eq_true, Bool.and_eq_true, List.any_eq_true, List.mem_range, Bool.not_eq_true', decide_eq_true_eq, and_assoc]

theorem mem_dueVecs (q : Port) (w1c : Bool) (v : Nat) : v ∈ q.dueVecs w1c ↔
    v < 16 ∧ q.sumBit v = true ∧ (w1c = true ∨ bitAt q.vpend v = false) ∧ q.mode ≠ 0 ∧ bitsAt (Tab.get q.msga v 3) 0 2 ≤ 1 := by
  simp only [Port.dueVecs, Port.msgOn, List.mem_filter, List.mem_range, Bool.and_eq_true, Bool.or_eq_true, Bool.not_eq_true',
    decide_eq_true_eq, and_assoc]

/-- Settles O18: the summary's bits are the vectors' summaries, and the messages issued are those of the vectors due. -/
theorem pendingSummariesAndMessages : Obligations.PendingSummariesAndMessages := by
  unfold Obligations.PendingSummariesAndMessages
  intro q w1c
  refine ⟨rfl, fun v hv => ?summary, ⟨(q.dueVecs w1c).map (fun v => (v, false)), rfl, fun v x => ?messages⟩, ?line, rfl, rfl, rfl, rfl⟩
  case summary =>
    rw [summary_bit q v hv]
    exact sumBit_iff q v
  case messages =>
    have hmem : (v, x) ∈ (q.dueVecs w1c).map (fun v => (v, false)) ↔ x = false ∧ v ∈ q.dueVecs w1c := by
      simp only [List.mem_map, Prod.mk.injEq]
      exact ⟨fun ⟨a, ha, hav, hx⟩ => ⟨hx.symm, hav ▸ ha⟩, fun ⟨hx, hv⟩ => ⟨v, hv, rfl, hx.symm⟩⟩
    rw [hmem, mem_dueVecs]
    constructor
    · rintro ⟨hx, hv, hsum, hdue, hmode, haddr⟩
      exact ⟨hx, hv, (summary_bit q v hv).trans hsum, hmode, haddr, hdue⟩
    · rintro ⟨hx, hv, hsum, hmode, haddr, hdue⟩
      exact ⟨hx, hv, (summary_bit q v hv).symm.trans hsum, hdue, hmode, haddr⟩
  case line => simp only [Port.intLine, Bool.and_eq_true, decide_eq_true_eq]

/-! ## Accesses through a port -/

/-- Where a port's window begins. -/
def portBase (p : PortId) : Nat := if p = .cpa then 0 else 0x10000

/-- An offset within the 64 KiB of a port's window. -/
theorem portBase_offset (p : PortId) {off : Nat} (h : off < 0x10000) :
    (portBase p + off) / 0x10000 = portCode p - 1 ∧ (portBase p + off) % 0x10000 = off := by
  cases p <;> simp only [portBase, portCode, if_true, reduceCtorEq, if_false] <;> omega

theorem regDefined_port (p : PortId) {off : Nat} (h : off < 0x10000) : regDefined (portBase p + off) = portDefined off := by
  obtain ⟨hwin, hoff⟩ := portBase_offset p h
  cases p <;> simp only [regDefined, hwin, hoff, portCode]

theorem exec_registerWrite_live {s : State} (hl : s.live = true) (p : PortId) {addr size : Nat} (v : W64) (hok : accessOk addr size = true)
    (hhits : accessHits addr size = true) (hwin : addr / 0x10000 + 1 ≠ 3 - portCode p) :
    exec (.registerWrite p addr size v) s = .next (s.writeAccess (.port p) addr size v) :=
  next_congr (regWrite_live hl p addr size v hok hhits hwin)

theorem writeAccess_single {s : State} {who : Requester} {addr size : Nat} {v : W64} (h : size = 4 ∨ wideWrite addr = true) :
    s.writeAccess who addr size v = s.writeAt who addr size v := by
  refine if_neg fun hc => ?_
  obtain rfl | hw := h
  · exact absurd hc.1 (by decide)
  · exact absurd (hw.symm.trans hc.2) (by decide)

theorem writeAt_own (s : State) (p : PortId) {off : Nat} (h : off < 0x10000) (size : Nat) (v : W64) :
    s.writeAt (.port p) (portBase p + off) size v = s.writePort p off size v := by
  obtain ⟨hwin, hoff⟩ := portBase_offset p h
  cases p <;> simp only [State.writeAt, hwin, hoff, portCode]

/-- A defined register of a port's own window, written whole. -/
theorem exec_registerWrite_own {s : State} (hl : s.live = true) (p : PortId) {off size : Nat} (v : W64) {addr : Nat} (ha : addr = portBase p + off)
    (hoff : off < 0x10000) (hok : accessOk off size = true) (hdef : portDefined off = true) (hwhole : size = 4 ∨ wideWrite (portBase p + off) = true) :
    exec (.registerWrite p addr size v) s = .next (s.writePort p off size v) := by
  subst ha
  obtain ⟨hwin, -⟩ := portBase_offset p hoff
  have hok' : accessOk (portBase p + off) size = true := by
    simp only [accessOk, decide_eq_true_eq] at hok ⊢
    cases p <;> simp only [portBase, if_true, reduceCtorEq, if_false] <;> omega
  have hhits : accessHits (portBase p + off) size = true := by rw [accessHits, regDefined_port p hoff, hdef, Bool.true_or]
  rw [exec_registerWrite_live hl p v hok' hhits (by rw [hwin]; cases p <;> decide), writeAccess_single hwhole, writeAt_own s p hoff]

theorem portDefined_ringWord {off : Nat} (h1 : 0x1000 ≤ off) (h2 : off < 0x2000) : portDefined off = ringDefined ((off - 0x1000) % 64) :=
  if_pos ⟨h1, h2⟩

/-- A ring's two 64-bit queue bases, SQB at 0 and CQB at 8 of its block, are written whole. -/
theorem exec_registerWrite_ringBase {s : State} (hl : s.live = true) (p : PortId) {n o : Nat} (hn : n < 64) (ho : o = 0 ∨ o = 8) (v : W64)
    {addr : Nat} (ha : addr = portBase p + (0x1000 + o + 64 * n)) :
    exec (.registerWrite p addr 8 v) s = .next (s.writePort p (0x1000 + o + 64 * n) 8 v) := by
  have hblock : (0x1000 + o + 64 * n - 0x1000) % 64 = o := by omega
  refine exec_registerWrite_own hl p v ha (by omega) ?_ ?_ (.inr ?_)
  · have haligned : (0x1000 + o + 64 * n) % 8 = 0 := by omega
    simp only [accessOk, haligned, and_self, or_true, decide_true]
  · rw [portDefined_ringWord (by omega) (by omega), hblock]
    obtain rfl | rfl := ho <;> decide
  · obtain ⟨hwin, hoff⟩ := portBase_offset p (off := 0x1000 + o + 64 * n) (by omega)
    have hwide : (0x1000 ≤ 0x1000 + o + 64 * n ∧ 0x1000 + o + 64 * n < 0x2000)
        ∧ ((0x1000 + o + 64 * n) % 64 = 0 ∨ (0x1000 + o + 64 * n) % 64 = 8) := by omega
    cases p <;> simp only [wideWrite, hwin, hoff, portCode, Nat.reduceSub, hwide, and_self, decide_true, Bool.and_true, Bool.or_true]

theorem writePort_sqb {s : State} {p : PortId} {n : Nat} (v : W64) :
    s.writePort p (0x1000 + 0 + 64 * n) 8 v = if !(s.ring ⟨p, n⟩).en && !(s.ring ⟨p, n⟩).busy
      then s.setRing ⟨p, n⟩ { s.ring ⟨p, n⟩ with sqb := v &&& 0xFFFFFFFFFFFFF003 } else s := by
  have hring : (0x1000 + 0 + 64 * n - 0x1000) / 64 = n ∧ (0x1000 + 0 + 64 * n - 0x1000) % 64 = 0 := by omega
  simp only [State.writePort, show 0x1000 ≤ 0x1000 + 0 + 64 * n by omega, if_true, hring, Nat.zero_lt_succ, put64, ringBaseBits]

theorem writePort_cqb {s : State} {p : PortId} {n : Nat} (v : W64) :
    s.writePort p (0x1000 + 8 + 64 * n) 8 v = if !(s.ring ⟨p, n⟩).en && !(s.ring ⟨p, n⟩).busy
      then s.setRing ⟨p, n⟩ { s.ring ⟨p, n⟩ with cqb := v &&& 0xFFFFFFFFFFFFF003 } else s := by
  have hring : (0x1000 + 8 + 64 * n - 0x1000) / 64 = n ∧ (0x1000 + 8 + 64 * n - 0x1000) % 64 = 8 := by omega
  simp only [State.writePort, show 0x1000 ≤ 0x1000 + 8 + 64 * n by omega, if_true, hring, Nat.lt_irrefl, if_false, Nat.reduceLT, put64,
    ringBaseBits]

theorem busy_eq_false {q : Ring} : q.busy = false ↔ q.outst = [] := by
  simp only [Ring.busy, Bool.not_eq_false', List.isEmpty_iff]

theorem writePort_msgd {s : State} {p : PortId} {n : Nat} (hn : n < 16) (v : W64) :
    s.writePort p (0x108 + 16 * n) 4 v = s.setPort p { s.port p with msgd := Tab.set (s.port p).msgd n (lo32 v) } := by
  have hvec : ¬ (0x1000 ≤ 0x108 + 16 * n) ∧ (0x100 ≤ 0x108 + 16 * n ∧ 0x108 + 16 * n < 0x200) ∧ (0x108 + 16 * n - 0x100) / 16 = n
      ∧ (0x108 + 16 * n) % 16 = 8 := by omega
  obtain ⟨hnoRing, hrange, hindex, hword⟩ := hvec
  simp only [State.writePort, hnoRing, hrange, hindex, hword, and_self, if_true, if_false, Nat.lt_irrefl]

/-- An access of a wrong size or alignment, or to reserved words only, is counted and nothing else (R424). -/
theorem exec_registerWrite_bad {s : State} (hl : s.live = true) (p : PortId) {addr size : Nat} (v : W64)
    (hbad : accessOk addr size = false ∨ accessHits addr size = false) : exec (.registerWrite p addr size v) s = .next (s.badAccess p) := by
  obtain ⟨hopen, hcur⟩ := live_port_open hl
  simp only [not_or, eq_iff_iff, iff_false] at hopen hcur
  refine next_congr ?_
  simp only [State.regWrite, hopen.1, hopen.2, hcur, false_and, if_false, or_false, if_pos hbad, Bool.false_eq_true]

/-- A port's write by number into the other port's window advances its cross-write counter (R333). -/
theorem exec_registerWrite_cross {s : State} (hl : s.live = true) (p : PortId) {addr size : Nat} (v : W64) (hok : accessOk addr size = true)
    (hhits : accessHits addr size = true) (hwin : addr / 0x10000 + 1 = 3 - portCode p) :
    exec (.registerWrite p addr size v) s = .next (s.xwrite p) := by
  obtain ⟨hopen, hcur⟩ := live_port_open hl
  simp only [not_or, eq_iff_iff, iff_false] at hopen hcur
  refine next_congr ?_
  simp only [State.regWrite, hopen.1, hopen.2, hcur, hok, hhits, hwin, false_and, or_self, if_false, if_true, Bool.false_eq_true,
    Bool.true_eq_false]

theorem debugWrite_closed {s : State} (h : s.debugOn = false) (act : State → State) : debugWrite act s = s := by
  simp only [debugWrite, h, Bool.and_false, Bool.false_eq_true, if_false]

theorem exec_registerWrite_debug_closed {s : State} (hl : s.live = true) (hd : s.debugOn = false) (p : PortId) {addr : Nat} (v : W64)
    (hwin : addr / 0x10000 = 3) (hok : accessOk addr 4 = true) (hdef : regDefined addr = true) :
    exec (.registerWrite p addr 4 v) s = .next s := by
  rw [exec_registerWrite_live hl p v hok (by rw [accessHits, hdef, Bool.true_or]) (by rw [hwin]; cases p <;> decide),
    writeAccess_single (.inl rfl)]
  simp only [State.writeAt, hwin, debugWrite_closed hd]

/-- Settles O20: each clause is the write of one register of the port's own window, or an access that no register takes. -/
theorem portWindowAccesses : Obligations.PortWindowAccesses := by
  unfold Obligations.PortWindowAccesses
  refine ⟨fun s p v hlive => ?own, fun s p addr hclk hwide => ?latch, fun s b w hlive hbw => ?others⟩
  case own =>
    refine ⟨fun n hn => ⟨fun hen hidle => ⟨?sqb, ?cqb⟩, fun hbusy => ?held⟩, ?mode, fun n hn => ?msgd,
      fun addr size hbad => exec_registerWrite_bad hlive p v hbad⟩
    case sqb =>
      refine (exec_registerWrite_ringBase hlive p hn (.inl rfl) v (Nat.add_assoc _ 0x1000 _)).trans (next_congr ?_)
      rw [writePort_sqb, hen, busy_eq_false.2 hidle]
      rfl
    case cqb =>
      refine (exec_registerWrite_ringBase hlive p hn (.inr rfl) v (Nat.add_assoc _ 0x1008 _)).trans (next_congr ?_)
      rw [writePort_cqb, hen, busy_eq_false.2 hidle]
      rfl
    case held =>
      refine (exec_registerWrite_ringBase hlive p hn (.inl rfl) v (Nat.add_assoc _ 0x1000 _)).trans (next_congr ?_)
      rw [writePort_sqb, if_neg]
      rw [Bool.and_eq_true, Bool.not_eq_true', Bool.not_eq_true', busy_eq_false]
      exact fun hfree => hbusy.elim (fun hen => absurd (hen.symm.trans hfree.1) (by decide)) (fun hlisted => hlisted hfree.2)
    case mode => exact exec_registerWrite_own hlive p v rfl (by decide) (by decide) (by decide) (.inl rfl)
    case msgd =>
      have hword : accessOk (0x108 + 16 * n) 4 = true ∧ portDefined (0x108 + 16 * n) = true := by
        have hrange : ¬ (0x1000 ≤ 0x108 + 16 * n ∧ 0x108 + 16 * n < 0x2000) ∧ (0x100 ≤ 0x108 + 16 * n ∧ 0x108 + 16 * n < 0x200)
          ∧ (0x108 + 16 * n) % 16 = 8 ∧ (0x108 + 16 * n) % 4 = 0 := by omega
        simp only [accessOk, portDefined, hrange, and_self, true_or, if_true, if_false, decide_true, true_and]
        decide
      exact (exec_registerWrite_own hlive p v (Nat.add_assoc _ 0x108 _) (by omega) hword.1 hword.2 (.inl rfl)).trans
        (next_congr (writePort_msgd hn v))
  case latch => exact next_congr ((if_neg (by rw [hclk]; decide)).trans (if_pos hwide))
  case others =>
    have counted {win : PortId} (h : win = w) (act : State → State) := next_congr (portWrite_x hlive (fun hb => hbw (hb.trans h)) act)
    refine ⟨fun r hr x v => ⟨counted hr _, counted hr _, counted hr _⟩, fun v x reg => ⟨counted rfl _, counted rfl _, counted rfl _⟩,
      fun addr size x hwin hok hhits => exec_registerWrite_cross hlive b x hok hhits ?_,
      fun addr x hwin hok hdef hd => exec_registerWrite_debug_closed hlive hd b x hwin hok hdef⟩
    rw [hwin]
    cases b <;> cases w <;> first | exact absurd rfl hbw | rfl

/-! ## Semaphores -/

theorem exec_semReq_live {s : State} (hl : s.live = true) {n : Nat} (hn : n < 64) (r : Requester) :
    exec (.semReq r n) s = .next (s.semReqBy r n) := next_congr (semWrite_live hl hn _)

theorem exec_semRel_live {s : State} (hl : s.live = true) {n : Nat} (hn : n < 64) (r : Requester) :
    exec (.semRel r n) s = .next (s.semRelBy r n) := next_congr (semWrite_live hl hn _)

theorem semRequest_free {s : State} {n : Nat} (h : (s.sem n).owner = 0) (code : Nat) :
    s.semRequest n code = s.setSem n { s.sem n with owner := code, grants := ((s.sem n).grants + 1) % 256 } := if_pos h

theorem semRequest_held {s : State} {n : Nat} (h : (s.sem n).owner ≠ 0) (code : Nat) : s.semRequest n code = s := if_neg h

theorem semRelease_no_waiter {s : State} {n : Nat} (h : (s.sem n).waiters = []) :
    s.semRelease n = s.setSem n { s.sem n with owner := 0 } := by
  simp only [State.semRelease, h]

theorem semRelease_waiter {s : State} {n : Nat} {w : PortId} {o : Origin} {rest : List (PortId × Origin)}
    (h : (s.sem n).waiters = (w, o) :: rest) :
    s.semRelease n = (s.setSem n { s.sem n with owner := portCode w, grants := ((s.sem n).grants + 1) % 256, waiters := rest }).finishSleeper o
      (Cpl.done 0 0) := by
  simp only [State.semRelease, h, Sem.grant]

theorem semRelBy_owner {s : State} {n : Nat} {p : PortId} (h : (s.sem n).owner = portCode p) : s.semRelBy (.port p) n = s.semRelease n :=
  if_pos h

theorem semReqBy_debug {s : State} (hd : s.debugOn = true) (n : Nat) : s.semReqBy .debug n = s.semRequest n 3 := if_pos hd

theorem semRelBy_debug {s : State} (hd : s.debugOn = true) {n : Nat} (h : (s.sem n).owner = 3) : s.semRelBy .debug n = s.semRelease n := by
  simp only [State.semRelBy, hd, h, decide_true, Bool.and_true, if_true]

theorem semRelBy_debug_closed {s : State} (hd : s.debugOn = false) (n : Nat) : s.semRelBy .debug n = s := by
  simp only [State.semRelBy, hd, Bool.false_and, Bool.false_eq_true, if_false]

theorem bitAt_lo32 {n : Nat} (v : BitVec n) {k : Nat} (hk : k < 32) : bitAt (lo32 v) k = bitAt v k := by
  simp only [bitAt, lo32, BitVec.getLsbD_ofNat, hk, decide_true, Bool.true_and, BitVec.testBit_toNat]

/-- JG_SEM_n written by number is the write of that semaphore. -/
theorem exec_registerWrite_sem {s : State} (hl : s.live = true) (p : PortId) {n : Nat} (hn : n < 64) (v : W64) :
    exec (.registerWrite p (0x20000 + 16 * n) 4 v) s = .next (s.writeSem (.port p) n (lo32 v)) := by
  have haddr : (0x20000 + 16 * n) / 0x10000 = 2 ∧ (0x20000 + 16 * n) % 0x10000 = 16 * n ∧ 16 * n < 0x400 ∧ 16 * n / 16 = n
      ∧ (0x20000 + 16 * n) % 4 = 0 ∧ 16 * n % 16 = 0 := by omega
  obtain ⟨hwin, hoff, hrange, hindex, haligned, hblock⟩ := haddr
  have hdef : regDefined (0x20000 + 16 * n) = true := by
    simp only [regDefined, hwin, hoff, sharedDefined, hrange, if_true, hblock, decide_true]
  rw [exec_registerWrite_live hl p v (by simp only [accessOk, haligned, and_self, true_or, decide_true])
    (by rw [accessHits, hdef, Bool.true_or]) (by rw [hwin]; cases p <;> decide), writeAccess_single (.inl rfl)]
  simp only [State.writeAt, hwin, hoff, State.writeShared, hrange, if_true, hindex, semWrite_live hl hn]

/-- Settles O21: each clause is one case of a request or a release; a register write with ABND clear is one of the two. -/
theorem semaphoreRequestAndRelease : Obligations.SemaphoreRequestAndRelease := by
  unfold Obligations.SemaphoreRequestAndRelease
  refine ⟨fun s n hl hn => ⟨fun p => ⟨fun hfree => ?grant, fun hheld => ?held, fun hown hnone => ?frees, fun w o rest hown hw => ?passes,
    fun hother => ?ignored⟩, fun hd hfree => ?debugGrant, fun hd hown hnone => ?debugFrees, fun hd => ⟨?noRequest, ?noRelease⟩⟩,
    fun s p n v hl hn habnd => ⟨fun hrel => ?rel, fun hrel hreq => ?req⟩⟩
  case grant => rw [exec_semReq_live hl hn]; exact next_congr (semRequest_free hfree _)
  case held => rw [exec_semReq_live hl hn]; exact next_congr (semRequest_held hheld _)
  case frees => rw [exec_semRel_live hl hn, semRelBy_owner hown, semRelease_no_waiter hnone]
  case passes => rw [exec_semRel_live hl hn, semRelBy_owner hown, semRelease_waiter hw]
  case ignored => rw [exec_semRel_live hl hn]; exact next_congr (if_neg hother)
  case debugGrant => rw [exec_semReq_live hl hn, semReqBy_debug hd, semRequest_free hfree]
  case debugFrees => rw [exec_semRel_live hl hn, semRelBy_debug hd hown, semRelease_no_waiter hnone]
  case noRequest => rw [exec_semReq_live hl hn]; exact next_congr (if_neg (by rw [hd]; decide))
  case noRelease => rw [exec_semRel_live hl hn, semRelBy_debug_closed hd]
  case rel =>
    rw [exec_registerWrite_sem hl p hn, exec_semRel_live hl hn]
    simp only [State.writeSem, bitAt_lo32 v, Nat.reduceLT, habnd, hrel, Bool.false_eq_true, if_false, if_true]
  case req =>
    rw [exec_registerWrite_sem hl p hn, exec_semReq_live hl hn]
    simp only [State.writeSem, bitAt_lo32 v, Nat.reduceLT, habnd, hrel, hreq, Bool.false_eq_true, if_false, if_true]

end Sys2Proof.Proofs

/-! PROOFS. SYNC commands, sync counters, remote signals and barriers (R317 to R322, R346, R347, R373, Table 17.16). -/

namespace Sys2Proof.Proofs

open Sys2Proof.Machine Sys2Proof.Laws

/-! ## Packet commands that start -/

/-- What `Starts` says of a packet agrees with the descriptor of its command. -/
structure Fits (d : Desc) (op k : Nat) (legal : List Blk) : Prop where
  opcode  : d.opcode = op
  slots   : k = if d.accepts then 2 else 1
  defined : definedOpcode op = true
  states  : d.legal = legal
  safe    : legal.contains .safe = true → safeOpcode op = true

section
variable {c : Instr} {d : Desc} {s : State} {pk : Pkt} {op k : Nat} {masks : List Nat} {legal : List Blk}

theorem starts_safe (h : Starts s pk op k masks legal) (hf : Fits d op k legal) (hblk : s.blk = .safe) : safeOpcode op = true :=
  hf.safe (hblk ▸ h.state)

section
variable (hf : Fits d op k legal) (h : Starts s pk op k masks legal) (hser : s.serialiser d pk = s.orch.shard) (hb : d.bad pk s = none)
include hf h hser hb

/-- A packet that starts runs its command, where the command's checks pass here and nothing it needs is locked. -/
theorem exec_fits_runs (hc : c.packet? = some (d, pk, false)) (hp : d.pre (s.origin pk) pk (s.taken pk k) = none)
    (hl : ∀ x, d.lock pk (s.taken pk k) = some x → (s.taken pk k).locked x = false) :
    exec c s = .next (d.run (s.origin pk) pk (s.taken pk k)) :=
  exec_runs hc h hf.opcode hf.slots hf.defined hf.states (starts_safe h hf) hb hser hp hl

/-- The same, of a command after which the block goes on of itself. -/
theorem exec_fits_runs_after (hc : c.packet? = some (d, pk, true)) (hp : d.pre (s.origin pk) pk (s.taken pk k) = none)
    (hl : ∀ x, d.lock pk (s.taken pk k) = some x → (s.taken pk k).locked x = false) :
    exec c s = .next (d.run (s.origin pk) pk (s.taken pk k)).after :=
  exec_runs hc h hf.opcode hf.slots hf.defined hf.states (starts_safe h hf) hb hser hp hl

/-- A packet that starts is answered with the object check that fails here. -/
theorem exec_fits_pre (hc : c.packet? = some (d, pk, false)) {x : Cpl} (hp : d.pre (s.origin pk) pk (s.taken pk k) = some x) :
    exec c s = .next (s.answers pk k x) :=
  exec_pre hc h hf.opcode hf.slots hf.defined hf.states (starts_safe h hf) hb hser hp

/-- The same, of a command after which the block goes on of itself. -/
theorem exec_fits_pre_after (hc : c.packet? = some (d, pk, true)) {x : Cpl} (hp : d.pre (s.origin pk) pk (s.taken pk k) = some x) :
    exec c s = .next (s.answers pk k x).after :=
  exec_pre hc h hf.opcode hf.slots hf.defined hf.states (starts_safe h hf) hb hser hp

end

end

/-! ## SYNC.SEMACQ and SYNC.SEMREL -/

theorem fits_syncSemacq : Fits syncSemacqD 0x0808 1 allButDump := ⟨rfl, rfl, rfl, rfl, by decide⟩
theorem fits_syncSemrel : Fits syncSemrelD 0x0809 1 allButDump := ⟨rfl, rfl, rfl, rfl, by decide⟩

section
variable {s : State} {pk : Pkt}

theorem semacq_answered (h : Starts s pk 0x0808 1 [0x3F] allButDump) (hown : (s.sem (pk.fld 0 0 6)).owner = portCode pk.src.port) :
    exec (.syncSemacq pk) s = .next (s.answers pk 1 (Cpl.of stWrongState 0)) :=
  exec_fits_pre fits_syncSemacq h rfl (noBad_of_starts h) rfl (by
    simp only [syncSemacqD, taken_sem, origin_port, hown, if_true])

theorem semacq_runs (h : Starts s pk 0x0808 1 [0x3F] allButDump) (hown : (s.sem (pk.fld 0 0 6)).owner ≠ portCode pk.src.port) :
    exec (.syncSemacq pk) s = .next (syncSemacqD.run (s.origin pk) pk (s.taken pk 1)) :=
  exec_fits_runs fits_syncSemacq h rfl (noBad_of_starts h) rfl (by
    simp only [syncSemacqD, taken_sem, origin_port, if_neg hown]) (no_lock rfl)

theorem semrel_answered (h : Starts s pk 0x0809 1 [0x3F] allButDump) {x : Cpl}
    (hp : syncSemrelD.pre (s.origin pk) pk (s.taken pk 1) = some x) : exec (.syncSemrel pk) s = .next (s.answers pk 1 x) :=
  exec_fits_pre fits_syncSemrel h rfl (noBad_of_starts h) rfl hp

theorem semrel_runs (h : Starts s pk 0x0809 1 [0x3F] allButDump) (hown : (s.sem (pk.fld 0 0 6)).owner = portCode pk.src.port) :
    exec (.syncSemrel pk) s = .next (((s.taken pk 1).semRelease (pk.fld 0 0 6)).finish (s.origin pk) (Cpl.done 0 0)) :=
  exec_fits_runs fits_syncSemrel h rfl (noBad_of_starts h) rfl (by
    have hheld : portCode pk.src.port ≠ 0 := by cases pk.src.port <;> decide
    simp only [syncSemrelD, taken_sem, origin_port, hown, hheld, ne_eq, not_true_eq_false, if_false]) (no_lock rfl)

end

/-! ## SYNC.ALLOC to SYNC.WAIT -/

theorem fits_syncAlloc : Fits syncAllocD 0x0800 1 rdyRunDrn := ⟨rfl, rfl, rfl, rfl, by decide⟩
theorem fits_syncFree : Fits syncFreeD 0x0801 1 rdyRunDrn := ⟨rfl, rfl, rfl, rfl, by decide⟩
theorem fits_syncSet : Fits syncSetD 0x0802 1 rdyRunDrn := ⟨rfl, rfl, rfl, rfl, by decide⟩
theorem fits_syncAdd : Fits syncAddD 0x0803 1 rdyRunDrn := ⟨rfl, rfl, rfl, rfl, by decide⟩
theorem fits_syncRead : Fits syncReadD 0x0804 1 rdyRunDrn := ⟨rfl, rfl, rfl, rfl, by decide⟩
theorem fits_syncWait : Fits syncWaitD 0x0805 1 rdyRunDrn := ⟨rfl, rfl, rfl, rfl, by decide⟩
theorem fits_syncSignal : Fits syncSignalD 0x0806 1 rdyRunDrn := ⟨rfl, rfl, rfl, rfl, by decide⟩
theorem fits_syncBarrier : Fits syncBarrierD 0x0807 1 [.run, .drain] := ⟨rfl, rfl, rfl, rfl, by decide⟩

theorem badCtr_none {s : State} {pk : Pkt} {op k : Nat} {masks : List Nat} {legal : List Blk} (h : Starts s pk op k masks legal)
    (hn : 64 ≤ pk.fld 0 0 10) : badCtr masks pk = none := by
  simp only [badCtr, firstBad, h.clean, Bool.not_true, Bool.false_eq_true, if_false, decide_eq_true_eq, if_neg (Nat.not_lt.2 hn)]

theorem preCtr_taken (s : State) (pk : Pkt) (o : Origin) (k : Nat) : preCtr o pk (s.taken pk k) = preCtr o pk s := by
  simp only [preCtr, taken_ctr]

theorem preCtr_free {s : State} {pk : Pkt} (h : (s.ctr (pk.fld 0 0 10)).owner = 0) (o : Origin) :
    preCtr o pk s = some (Cpl.of stWrongState 0) := if_pos h

theorem preCtr_allocated {s : State} {pk : Pkt} (h : (s.ctr (pk.fld 0 0 10)).owner ≠ 0) (o : Origin) : preCtr o pk s = none := if_neg h

/-- An operation of an allocated counter runs; one of a free counter is answered with WRONG_STATE (R320). -/
structure CtrOp (c : Instr) (d : Desc) (pk : Pkt) (op : Nat) (masks : List Nat) : Prop where
  packet : c.packet? = some (d, pk, false)
  fits   : Fits d op 1 rdyRunDrn
  scope  : d.scope pk = .local_
  bad    : ∀ s, d.bad pk s = badCtr masks pk
  pre    : d.pre = preCtr
  lock   : d.lock = noLock

theorem CtrOp.serialised_here {c : Instr} {d : Desc} {pk : Pkt} {op : Nat} {masks : List Nat} (hd : CtrOp c d pk op masks) (s : State) :
    s.serialiser d pk = s.orch.shard := by
  simp only [State.serialiser, hd.scope]

section
variable {c : Instr} {d : Desc} {s : State} {pk : Pkt} {op : Nat} {masks : List Nat} (hd : CtrOp c d pk op masks)
  (h : Starts s pk op 1 masks rdyRunDrn) (hn : 64 ≤ pk.fld 0 0 10)
include hd h hn

theorem CtrOp.runs (hown : (s.ctr (pk.fld 0 0 10)).owner ≠ 0) : exec c s = .next (d.run (s.origin pk) pk (s.taken pk 1)) :=
  exec_fits_runs hd.fits h (hd.serialised_here s) ((hd.bad s).trans (badCtr_none h hn)) hd.packet
    (by rw [hd.pre, preCtr_taken, preCtr_allocated hown]) (no_lock (by rw [hd.lock]; rfl))

theorem CtrOp.answered (hfree : (s.ctr (pk.fld 0 0 10)).owner = 0) : exec c s = .next (s.answers pk 1 (Cpl.of stWrongState 0)) :=
  exec_fits_pre hd.fits h (hd.serialised_here s) ((hd.bad s).trans (badCtr_none h hn)) hd.packet
    (by rw [hd.pre, preCtr_taken, preCtr_free hfree])

end

theorem ctrOp_set (pk : Pkt) : CtrOp (.syncSet pk) syncSetD pk 0x0802 [0x3FF, all32, all32] := ⟨rfl, fits_syncSet, rfl, fun _ => rfl, rfl, rfl⟩
theorem ctrOp_add (pk : Pkt) : CtrOp (.syncAdd pk) syncAddD pk 0x0803 [0x3FF, all32, all32] := ⟨rfl, fits_syncAdd, rfl, fun _ => rfl, rfl, rfl⟩
theorem ctrOp_read (pk : Pkt) : CtrOp (.syncRead pk) syncReadD pk 0x0804 [0x3FF] := ⟨rfl, fits_syncRead, rfl, fun _ => rfl, rfl, rfl⟩
theorem ctrOp_wait (pk : Pkt) : CtrOp (.syncWait pk) syncWaitD pk 0x0805 [0x3FF, all32, all32, all32] :=
  ⟨rfl, fits_syncWait, rfl, fun _ => rfl, rfl, rfl⟩

section
variable {s : State} {pk : Pkt}

theorem freeCtr_taken (s : State) (pk : Pkt) (k : Nat) : (s.taken pk k).freeCtr = s.freeCtr := by
  simp only [State.freeCtr, taken_ctr]

theorem alloc_bad (h : Starts s pk 0x0800 1 [0x7FF] rdyRunDrn)
    (hnum : if bitAt (pk.p 0) 10 = true then pk.fld 0 0 10 = 0 else 64 ≤ pk.fld 0 0 10) : syncAllocD.bad pk s = none := by
  split at hnum
  · next hany => simp only [syncAllocD, firstBad, h.clean, hany, hnum, Bool.not_true, Bool.false_eq_true, if_false, if_true, ne_eq,
      not_true_eq_false, decide_false]
  · next hany => simp only [syncAllocD, firstBad, h.clean, if_neg hany, Bool.not_true, Bool.false_eq_true, if_false, decide_eq_true_eq,
      if_neg (Nat.not_lt.2 hnum)]

theorem alloc_runs (h : Starts s pk 0x0800 1 [0x7FF] rdyRunDrn)
    (hnum : if bitAt (pk.p 0) 10 = true then pk.fld 0 0 10 = 0 else 64 ≤ pk.fld 0 0 10)
    (hpre : syncAllocD.pre (s.origin pk) pk (s.taken pk 1) = none) :
    exec (.syncAlloc pk) s = .next (syncAllocD.run (s.origin pk) pk (s.taken pk 1)) :=
  exec_fits_runs fits_syncAlloc h rfl (alloc_bad h hnum) rfl hpre (no_lock rfl)

theorem alloc_answered (h : Starts s pk 0x0800 1 [0x7FF] rdyRunDrn)
    (hnum : if bitAt (pk.p 0) 10 = true then pk.fld 0 0 10 = 0 else 64 ≤ pk.fld 0 0 10) {x : Cpl}
    (hpre : syncAllocD.pre (s.origin pk) pk (s.taken pk 1) = some x) : exec (.syncAlloc pk) s = .next (s.answers pk 1 x) :=
  exec_fits_pre fits_syncAlloc h rfl (alloc_bad h hnum) rfl hpre

theorem free_answered (h : Starts s pk 0x0801 1 [0x3FF] rdyRunDrn) (hn : 64 ≤ pk.fld 0 0 10) {x : Cpl}
    (hpre : syncFreeD.pre (s.origin pk) pk (s.taken pk 1) = some x) : exec (.syncFree pk) s = .next (s.answers pk 1 x) :=
  exec_fits_pre fits_syncFree h rfl (badCtr_none h hn) rfl hpre

theorem free_runs (h : Starts s pk 0x0801 1 [0x3FF] rdyRunDrn) (hn : 64 ≤ pk.fld 0 0 10)
    (hown : (s.ctr (pk.fld 0 0 10)).owner = portCode pk.src.port) :
    exec (.syncFree pk) s = .next (((s.taken pk 1).ctrFree (pk.fld 0 0 10)).finish (s.origin pk) (Cpl.done 0 0)) :=
  exec_fits_runs fits_syncFree h rfl (badCtr_none h hn) rfl (by
    have hheld : portCode pk.src.port ≠ 0 := by cases pk.src.port <;> decide
    simp only [syncFreeD, taken_ctr, origin_port, hown, hheld, ne_eq, not_true_eq_false, if_false]) (no_lock rfl)

end

theorem waitMet_iff (v t : W64) : waitMet v t = true ↔ 0 ≤ (v - t).toInt := decide_eq_true_iff

/-- Settles O22: each clause is the command's object check or its effect, read off its descriptor on the state with the packet taken. -/
theorem syncCommands : Obligations.SyncCommands := by
  unfold Obligations.SyncCommands
  refine ⟨fun s pk => ⟨fun h => ⟨fun hfree => ?acquires, fun hown => semacq_answered h hown, fun hheld hown => ?sleeps⟩,
      fun h => ⟨fun hfree => ?relFree, fun hheld hown => ?relOther, fun hown hnone => ?frees, fun w o rest hown hw => ?passes⟩⟩,
    fun s pk => ⟨fun h => ⟨fun hany hn => ⟨fun hfree => ?alloc, fun hheld => ?allocHeld⟩, fun hany hn => ⟨fun m hm => ?any, fun hnone => ?noSpace⟩⟩,
      fun hn => ⟨fun h => ⟨fun hown => free_runs h hn hown, fun hfree => ?freeFree, fun hheld hown => ?freeOther⟩,
        fun h hown => (ctrOp_set pk).runs h hn hown, fun h hown => ?add, fun h hown => ?read,
        fun h hown => ⟨fun hmet => ?met, fun hunmet => ?waits⟩,
        fun hfree => ⟨fun h => (ctrOp_set pk).answered h hn hfree, fun h => (ctrOp_add pk).answered h hn hfree,
          fun h => (ctrOp_read pk).answered h hn hfree, fun h => (ctrOp_wait pk).answered h hn hfree⟩⟩⟩⟩
  case acquires =>
    rw [semacq_runs h (by rw [hfree]; cases pk.src.port <;> decide)]
    simp only [syncSemacqD, taken_sem, origin_port, hfree, if_true, Sem.grant]
  case sleeps =>
    rw [semacq_runs h hown]
    simp only [syncSemacqD, taken_sem, origin_port, if_neg hheld]
    rfl
  case relFree => exact semrel_answered h (by simp only [syncSemrelD, taken_sem, hfree, if_true])
  case relOther => exact semrel_answered h (by simp only [syncSemrelD, taken_sem, origin_port, hheld, hown, ne_eq, not_false_eq_true, if_false, if_true])
  case frees =>
    rw [semrel_runs h hown, semRelease_no_waiter (by rw [taken_sem, hnone]), taken_sem]
  case passes =>
    rw [semrel_runs h hown, semRelease_waiter (by rw [taken_sem, hw]), taken_sem]
  case alloc =>
    rw [alloc_runs h (by simpa only [hany, Bool.false_eq_true, if_false] using hn)
      (by simp only [syncAllocD, hany, taken_ctr, hfree, Bool.false_eq_true, if_false, ne_eq, not_true_eq_false])]
    simp only [syncAllocD, hany, Bool.false_eq_true, if_false, origin_port]
  case allocHeld =>
    exact alloc_answered h (by simpa only [hany, Bool.false_eq_true, if_false] using hn)
      (by simp only [syncAllocD, hany, taken_ctr, hheld, Bool.false_eq_true, if_false, ne_eq, not_false_eq_true, if_true])
  case any =>
    rw [alloc_runs h (by simpa only [hany, if_true] using hn)
      (by simp only [syncAllocD, hany, freeCtr_taken, hm, reduceCtorEq, if_true, if_false])]
    simp only [syncAllocD, hany, if_true, freeCtr_taken, hm, Option.getD_some, origin_port]
  case noSpace =>
    exact alloc_answered h (by simpa only [hany, if_true] using hn) (by simp only [syncAllocD, hany, freeCtr_taken, hnone, if_true])
  case freeFree => exact free_answered h hn (by simp only [syncFreeD, taken_ctr, hfree, if_true])
  case freeOther =>
    exact free_answered h hn (by simp only [syncFreeD, taken_ctr, origin_port, hheld, hown, ne_eq, not_false_eq_true, if_false, if_true])
  case add =>
    rw [(ctrOp_add pk).runs h hn hown]
    simp only [syncAddD, taken_ctr]
  case read =>
    rw [(ctrOp_read pk).runs h hn hown]
    simp only [syncReadD, taken_ctr, State.answers]
  case met =>
    rw [(ctrOp_wait pk).runs h hn hown]
    simp only [syncWaitD, taken_ctr, (waitMet_iff _ _).2 hmet, if_true, State.answers]
  case waits =>
    rw [(ctrOp_wait pk).runs h hn hown]
    simp only [syncWaitD, taken_ctr, if_neg (mt (waitMet_iff _ _).1 (Int.not_le.2 hunmet)), origin_port, State.now, taken_time]
    rfl

/-! ## Sync counters and their waits -/

theorem ctr_of_ctrs {s t : State} (h : t.ctrs = s.ctrs) (n : Nat) : t.ctr n = s.ctr n := by
  simp only [State.ctr, h]

theorem setCtr_ring (s : State) (n : Nat) (c : Ctr) (r : RingRef) : (s.setCtr n c).ring r = s.ring r := rfl

/-- A counter that is set: its wakes end commands at their rings, and touch no counter. -/
theorem ctrSet_ctr (s : State) (n : Nat) (v : W64) (m : Nat) : (s.ctrSet n v).ctr m =
    (s.setCtr n { s.ctr n with value := v, waiters := (s.ctr n).waiters.filter (fun w => !waitMet v w.target) }).ctr m :=
  ctr_of_ctrs (foldl_sleepers_ctrs _ _ _) m

theorem not_waitMet (v t : W64) : (!waitMet v t) = decide ((v - t).toInt < 0) := by
  simp only [waitMet, ← decide_not, Int.not_le]

/-- A wait whose ring still lists its command is awake once the value satisfies it. -/
theorem ctrSet_awake {s : State} {n : Nat} {v : W64} {w : Waiter} (hw : w ∈ (s.ctr n).waiters) (hmet : waitMet v w.target = true) {r : RingRef}
    {id : Nat} (horigin : w.origin = .ring r id) (hlisted : ∃ o ∈ (s.ring r).outst, o.id = id) : ((s.ctrSet n v).ring r).asleep = false :=
  foldl_sleepers_awake _ _ _ r id hlisted (.inr ⟨w, List.mem_filter.2 ⟨hw, hmet⟩, horigin⟩)

/-- A wait of a ring whose timeout has run out (R373). -/
def waitOver (s : State) (r : RingRef) (w : Waiter) : Bool :=
  decide (w.expiry ≠ 0) && decide (w.expiry ≤ s.now) && (match w.origin with
    | .ring q _ => decide (q = r)
    | _ => false)

theorem waitOver_iff (s : State) (r : RingRef) (w : Waiter) :
    waitOver s r w = true ↔ w.expiry ≠ 0 ∧ w.expiry ≤ s.now ∧ ∃ id, w.origin = .ring r id := by
  unfold waitOver
  rw [Bool.and_eq_true, Bool.and_eq_true, decide_eq_true_eq, decide_eq_true_eq, and_assoc]
  cases w.origin with
  | ring q id => simp
  | fwd => simp
  | member => simp

theorem ctr_mapVals (s : State) (f : Ctr → Ctr) (hf : f Ctr.reset = Ctr.reset) (n : Nat) :
    ({ s with ctrs := Tab.mapVals s.ctrs (fun _ c => f c) } : State).ctr n = f (s.ctr n) := by
  simp only [State.ctr, Tab.get, tab_find_mapVals]
  cases Tab.find? s.ctrs n with
  | none => exact hf.symm
  | some c => rfl

theorem waitGone_ctr (s : State) (r : RingRef) (n : Nat) :
    (s.waitGone r).ctr n = { s.ctr n with waiters := (s.ctr n).waiters.filter (fun w => !waitOver s r w) } :=
  (ctr_of_ctrs (foldl_sleepers_ctrs _ _ _) n).trans
    (ctr_mapVals s (fun c => { c with waiters := c.waiters.filter (fun w => !waitOver s r w) }) rfl n)

/-- Settles O23: the counter is the one set, and the waits filtered out are those woken; a wait that is over is filtered out likewise. -/
theorem counterUpdateWakesWaiters : Obligations.CounterUpdateWakesWaiters := by
  unfold Obligations.CounterUpdateWakesWaiters
  refine ⟨fun s n v => ⟨?own, fun m hm => ?others, fun w hw hmet r id horigin hlisted => ?awake⟩,
    fun s r hlive => ⟨s.waitGone r, next_congr (if_pos hlive), fun n => ?timeout⟩⟩
  case own => simp only [ctrSet_ctr, setCtr_ctr, if_true, not_waitMet]
  case others => rw [ctrSet_ctr, setCtr_ctr, if_neg hm]
  case awake => exact ctrSet_awake hw ((waitMet_iff _ _).2 hmet) horigin hlisted
  case timeout =>
    rw [waitGone_ctr]
    refine ⟨rfl, rfl, fun w => ?_⟩
    rw [← waitOver_iff, Bool.not_eq_true, List.mem_filter, Bool.not_eq_true']

/-! ## Remote signals -/

theorem hdrBroken_of_lt {h : Hdr} (hops : h.hops < 1023) : hdrBroken h = false := decide_eq_false (Nat.not_le.2 hops)

theorem working_live {s : State} (h : s.working = true) : s.live = true := (Bool.and_eq_true_iff.1 h).1

/-- A SIGNAL with a sound header acts at once where nothing of this instance's own stands in `loop`. -/
theorem exec_signal_sound {s : State} (hl : s.live = true) {h : Hdr} (hparity : h.parity = false) (hops : h.hops < 1023)
    (hloop : s.orch.loop = []) (b : SignalB) : exec (.signal h b) s = .next (s.onSignal h b) := by
  refine next_congr ((if_pos hl).trans ?_)
  rw [ctlSound_ok hparity (hdrBroken_of_lt hops), arrive_nil s _ hloop]

/-- The test by which the jobs that wait for a SIGNAL's acknowledgement are found. -/
def waitsForSignal (stag : Nat) (j : Job) : Bool :=
  match j.kind with
  | .signal t _ => decide (t = stag)
  | _ => false

theorem waitsForSignal_self {j : Job} {stag dst : Nat} (h : j.kind = .signal stag dst) : waitsForSignal stag j = true := by
  simp only [waitsForSignal, h, decide_true]

theorem waitsForSignal_other {j : Job} {stag : Nat} (h : ∀ d, j.kind ≠ .signal stag d) : waitsForSignal stag j = false := by
  unfold waitsForSignal
  split
  · next t d hk => exact decide_eq_false fun ht => h d (ht ▸ hk)
  · rfl

theorem onSignal_ack {s : State} {h : Hdr} {b : SignalB} (hme : s.forMe h = true) (hack : b.ack = true) :
    s.onSignal h b = s.endJobs (waitsForSignal b.stag) (fun _ => Cpl.of b.status 0) := by
  simp only [State.onSignal, hme, hack, Bool.true_eq_false, if_false, if_true]
  rfl

theorem onSignal_allocated {s : State} {h : Hdr} {b : SignalB} (hw : s.working = true) (hme : s.forMe h = true) (hack : b.ack = false)
    (hown : (s.ctr b.counter).owner ≠ 0) :
    s.onSignal h b = (s.ctrSet b.counter ((s.ctr b.counter).value + b.addend)).sendTo h.src
      (.signal { counter := b.counter, ack := true, stag := b.stag, status := stDone, addend := 0 }) := by
  simp only [State.onSignal, hme, hack, hw, hown, ne_eq, not_false_eq_true, decide_true, Bool.true_eq_false, Bool.false_eq_true, if_false, if_true]

theorem onSignal_free {s : State} {h : Hdr} {b : SignalB} (hw : s.working = true) (hme : s.forMe h = true) (hack : b.ack = false)
    (hfree : (s.ctr b.counter).owner = 0) :
    s.onSignal h b = s.sendTo h.src (.signal { counter := b.counter, ack := true, stag := b.stag, status := stWrongState, addend := 0 }) := by
  simp only [State.onSignal, hme, hack, hw, hfree, ne_eq, not_true_eq_false, decide_false, Bool.true_eq_false, Bool.false_eq_true, if_false]

/-- Settles O24: the command sends and waits; the target answers by the counter's owner; the answer, or the timeout, ends the one job. -/
theorem remoteSignals : Obligations.RemoteSignals := by
  unfold Obligations.RemoteSignals
  refine ⟨fun s pk h hn => ?sends, fun s h b hw hparity hops hloop hme hack => ⟨fun hown => ?adds, fun hfree => ?free⟩,
    fun s l1 l2 j stag dst hl hjobs hj hothers => ?ends⟩
  case sends =>
    refine (exec_fits_runs fits_syncSignal h rfl (badCtr_none h hn) rfl rfl (no_lock rfl)).trans ?_
    rfl
  case adds => rw [exec_signal_sound (working_live hw) hparity hops hloop, onSignal_allocated hw hme hack hown]
  case free => rw [exec_signal_sound (working_live hw) hparity hops hloop, onSignal_free hw hme hack hfree]
  case ends =>
    have hend (c : Job → Cpl) := endJobs_of_one s (waitsForSignal stag) c l1 l2 j hjobs (waitsForSignal_self hj)
      (fun x hx => waitsForSignal_other (hothers x hx))
    refine ⟨(next_congr (if_pos hl)).trans (next_congr (hend _)), fun h b hparity hops hloop hme hack hstag => ?_⟩
    rw [exec_signal_sound hl hparity hops hloop, onSignal_ack hme hack, hstag, hend]

/-! ## Barriers -/

theorem barCount_open {s : State} {n tag k : Nat} (ht : tag = (s.bar n).openTag) :
    s.barCount n tag k =
      if (s.bar n).cntOpen + k ≠ s.subtreeSize then s.setBar n { s.bar n with cntOpen := (s.bar n).cntOpen + k }
      else if s.isRoot then (s.setBar n { s.bar n with cntOpen := (s.bar n).cntOpen + k }).bcast
        { hdr := s.hdr 0 true 0 0 0 noHandle, body := .rel n tag }
      else (s.setBar n { s.bar n with cntOpen := (s.bar n).cntOpen + k }).sendTo s.orch.rootSh (.bar n tag) := if_pos ht

theorem barCount_next {s : State} {n tag k : Nat} (ht : tag ≠ (s.bar n).openTag) (hnext : tag = ((s.bar n).openTag + 1) % 4) :
    s.barCount n tag k = s.setBar n { s.bar n with cntNext := (s.bar n).cntNext + k } := (if_neg ht).trans (if_pos hnext)

theorem barCount_stray {s : State} {n tag k : Nat} (ht : tag ≠ (s.bar n).openTag) (hnext : tag ≠ ((s.bar n).openTag + 1) % 4) :
    s.barCount n tag k = (s.contained 0x18 Site.none).barAbort n := (if_neg ht).trans (if_neg hnext)

theorem barrier_bad {s : State} {pk : Pkt} (h : Starts s pk 0x0807 1 [0x1F] [.run, .drain]) (hn : 8 ≤ pk.fld 0 0 5) :
    syncBarrierD.bad pk s = none := by
  simp only [syncBarrierD, firstBad, h.clean, Bool.not_true, Bool.false_eq_true, if_false, decide_eq_true_eq, if_neg (Nat.not_lt.2 hn)]

theorem exec_bar_sound {s : State} (hl : s.live = true) {h : Hdr} (hparity : h.parity = false) (hops : h.hops < 1023)
    (hloop : s.orch.loop = []) (n tag : Nat) : exec (.bar h n tag) s = .next (s.barCount n tag (s.subtree h.src)) := by
  refine next_congr ((if_pos hl).trans ?_)
  simp only [arrive_nil s _ hloop, hparity, hdrBroken_of_lt hops, Bool.false_eq_true, if_false]

theorem passOn_bcast {s : State} {h : Hdr} (hloop : s.orch.loop = []) (hb : h.bcast = true) (b : Body) :
    s.passOn h b = s.bcastOthers { hdr := { h with hops := h.hops + 1 }, body := b } := by
  simp only [State.passOn, hloop, hb, List.contains_nil, Bool.false_eq_true, if_false, if_true]

theorem taking_nil {s : State} (hloop : s.orch.loop = []) (m : Msg) (u : State) : s.taking m u = u := by
  simp only [State.taking, hloop, List.contains_nil, Bool.false_eq_true, if_false]

/-- Settles O25: the counts are the cases of `barCount`; a round that ends completes its one entry. -/
theorem barrierRounds : Obligations.BarrierRounds := by
  unfold Obligations.BarrierRounds
  refine ⟨⟨fun s n tag k => ⟨fun ht hc => ?counts, fun ht hc hroot => ?up, fun ht hc hroot => ?down, barCount_next, barCount_stray⟩,
    fun s pk h hn => ⟨fun hround => ?enters, fun hround => ?again⟩,
    fun s h n tag hl hloop hparity hops => exec_bar_sound hl hparity hops hloop n tag⟩,
    fun s h n tag o hl hboot hself hparity hops hloop hb hn hone => ?release⟩
  case counts => rw [barCount_open ht, if_pos hc]
  case up => rw [barCount_open ht, if_neg (not_not.2 hc), hroot, if_neg Bool.false_ne_true]
  case down => rw [barCount_open ht, if_neg (not_not.2 hc), hroot, if_pos rfl]
  case enters =>
    rw [exec_fits_runs fits_syncBarrier h rfl (barrier_bad h hn) rfl (by
      simp only [syncBarrierD, taken_bar, hround, Bool.false_eq_true, if_false]) (no_lock rfl)]
    simp only [syncBarrierD, State.barEnter, taken_bar, Option.toList_some]
  case again =>
    exact exec_fits_pre fits_syncBarrier h rfl (barrier_bad h hn) rfl (by simp only [syncBarrierD, taken_bar, hround, if_true])
  case release =>
    have hstart : s.starting = false := by simp only [State.starting, hboot, hself, or_self, decide_false]
    refine next_congr ((ctlStep_ok hl hparity (hdrBroken_of_lt hops) hstart _ _).trans ?_)
    have hbar : (s.bcastOthers { hdr := { h with hops := h.hops + 1 }, body := .rel n tag }).bar n = s.bar n := rfl
    have hport : ¬ n < 4 := by omega
    rw [taking_nil hloop, State.onRel, passOn_bcast hloop hb, if_neg hport, State.barRelease, hbar, hone, List.foldl_cons, List.foldl_nil]

end Sys2Proof.Proofs

/-! PROOFS. Block control, saving and restoring (R166, R258, R361, R391, Table 17.5). -/

namespace Sys2Proof.Proofs

open Sys2Proof.Machine Sys2Proof.Laws

theorem local_here (s : State) {d : Desc} {pk : Pkt} (h : d.scope pk = .local_) : s.serialiser d pk = s.orch.shard := by
  simp only [State.serialiser, h]

theorem root_here {s : State} {d : Desc} {pk : Pkt} (h : d.scope pk = .group) (hroot : s.isRoot = true) : s.serialiser d pk = s.orch.shard := by
  simp only [State.serialiser, h, root_serialises hroot]

/-- A command that locks one object meets no lock where that object is free. -/
theorem lock_free {s : State} {pk : Pkt} {k : Nat} {l : Option (Nat × Nat)} {x : Nat × Nat} (hl : l = some x) (h : s.locked x = false) :
    ∀ y, l = some y → (s.taken pk k).locked y = false := by
  intro y hy
  rw [taken_locked, Option.some.inj (hy.symm.trans hl), h]

/-! ## Block control -/

theorem fits_sysNop : Fits sysNopD 0x0100 1 allStates := ⟨rfl, rfl, rfl, rfl, by decide⟩
theorem fits_sysQuery : Fits sysQueryD 0x0101 1 allStates := ⟨rfl, rfl, rfl, rfl, by decide⟩
theorem fits_sysStart : Fits sysStartD 0x0102 1 [.ready] := ⟨rfl, rfl, rfl, rfl, by decide⟩
theorem fits_sysDrain : Fits sysDrainD 0x0103 1 [.run] := ⟨rfl, rfl, rfl, rfl, by decide⟩
theorem fits_sysPcap : Fits sysPcapD 0x0106 1 rdyRunDrn := ⟨rfl, rfl, rfl, rfl, by decide⟩

theorem rootAddr_taken (s : State) (pk : Pkt) (k : Nat) : (s.taken pk k).rootAddr = s.rootAddr := by
  simp only [State.rootAddr, taken_orch]

theorem liveShards_taken (s : State) (pk : Pkt) (k : Nat) : (s.taken pk k).liveShards = s.liveShards := by
  simp only [State.liveShards, taken_orch]

/-- A packet legal in one block state alone starts in that state. -/
theorem starts_blk {s : State} {pk : Pkt} {op k : Nat} {masks : List Nat} {b : Blk} (h : Starts s pk op k masks [b]) : s.blk = b := by
  simpa using h.state

/-- A member other than this one that is not in READY. -/
def notReady (s : State) : Bool := s.orch.members.any (fun m => decide (m.shard ≠ s.orch.shard ∧ m.state ≠ 2))

theorem notReady_iff (s : State) : notReady s = true ↔ ∃ m ∈ s.orch.members, m.shard ≠ s.orch.shard ∧ m.state ≠ 2 := by
  simp only [notReady, List.any_eq_true, decide_eq_true_eq]

theorem sysStart_pre {s : State} (hblk : s.blk = .ready) (o : Origin) (pk : Pkt) (k : Nat) :
    sysStartD.pre o pk (s.taken pk k) = if notReady s then some (Cpl.of stWrongState 0) else none := by
  simp only [sysStartD, taken_blk, taken_orch, hblk, ne_eq, not_true_eq_false, false_or, notReady]
  rfl

theorem sysDrain_scope_local {pk : Pkt} (h : bitAt (pk.p 0) 0 = false) : sysDrainD.scope pk = .local_ := by
  simp only [sysDrainD, h, Bool.false_eq_true, if_false]

theorem sysDrain_scope_group {pk : Pkt} (h : bitAt (pk.p 0) 0 = true) : sysDrainD.scope pk = .group := by
  simp only [sysDrainD, h, if_true]

/-- Settles O26: each clause is the command's object check or its effect, read off its descriptor on the state with the packet taken. -/
theorem blockControlCommands : Obligations.BlockControlCommands := by
  unfold Obligations.BlockControlCommands
  refine fun s pk => ⟨fun h => ?nop, fun h => ?query, fun h hroot => ⟨fun hbusy => ?unready, fun hready hfree => ?start⟩,
    fun h => ⟨fun hone => ?drain, fun hall hroot hfree => ?group⟩, fun h hcap => ?pcap⟩
  case nop => exact exec_fits_runs_after fits_sysNop h rfl (noBad_of_starts h) rfl rfl (no_lock rfl)
  case query =>
    rw [exec_fits_runs_after fits_sysQuery h rfl (noBad_of_starts h) rfl rfl (no_lock rfl)]
    simp only [sysQueryD, taken_blk, taken_conf, taken_orch, rootAddr_taken, State.answers]
  case unready =>
    refine exec_fits_pre_after fits_sysStart h (root_here rfl hroot) (noBad_of_starts h) rfl ?_
    rw [sysStart_pre (starts_blk h), (notReady_iff s).2 hbusy, if_pos rfl]
  case start =>
    refine exec_fits_runs_after fits_sysStart h (root_here rfl hroot) (noBad_of_starts h) rfl ?_ (lock_free rfl hfree)
    rw [sysStart_pre (starts_blk h), if_neg]
    rw [notReady_iff]
    exact fun ⟨m, hm, hother, hst⟩ => hst (hready m hm hother)
  case drain =>
    have hlock : sysDrainD.lock pk (s.taken pk 1) = none := by simp only [sysDrainD, hone, Bool.false_eq_true, if_false]
    rw [exec_fits_runs_after fits_sysDrain h (local_here s (sysDrain_scope_local hone)) (noBad_of_starts h) rfl rfl (no_lock hlock)]
    simp only [sysDrainD, hone, Bool.false_eq_true, if_false, State.toDrain, taken_blk, starts_blk h, reduceCtorEq, if_true]
    rfl
  case group =>
    have hlock : sysDrainD.lock pk (s.taken pk 1) = some objGroup := by simp only [sysDrainD, hall, if_true]
    rw [exec_fits_runs_after fits_sysDrain h (root_here (sysDrain_scope_group hall) hroot) (noBad_of_starts h) rfl rfl (lock_free hlock hfree)]
    simp only [sysDrainD, hall, if_true, liveShards_taken, taken_orch]
  case pcap =>
    have hcap' : ¬ (pk.fld 0 0 8 ≠ 0 ∧ (pk.fld 0 0 8 < 20 ∨ 110 < pk.fld 0 0 8)) := by omega
    have hbad : sysPcapD.bad pk s = none := by
      simp only [sysPcapD, firstBad, h.clean, hcap', Bool.not_true, Bool.false_eq_true, if_false, decide_false]
    exact exec_fits_runs_after fits_sysPcap h rfl hbad rfl rfl (no_lock rfl)

/-! ## Saving and restoring -/

theorem fits_sysSave : Fits sysSaveD 0x0104 1 [.ready] := ⟨rfl, rfl, rfl, rfl, by decide⟩
theorem fits_sysRestore : Fits sysRestoreD 0x0105 1 [.ready] := ⟨rfl, rfl, rfl, rfl, by decide⟩

theorem saveLen_taken (s : State) (pk : Pkt) (k : Nat) : (s.taken pk k).saveLen = s.saveLen := by
  simp only [State.saveLen, State.isRoot, taken_orch]
  rfl

theorem sysSave_bad {s : State} {pk : Pkt} (h : Starts s pk 0x0104 1 [all32, all32, all32] [.ready]) (ha : addrOk true (pk.p64 0) = true) :
    sysSaveD.bad pk s = none := by
  simp only [sysSaveD, firstBad, h.clean, ha, Bool.not_true, Bool.false_eq_true, if_false]

theorem sysRestore_bad {s : State} {pk : Pkt} (h : Starts s pk 0x0105 1 [all32, all32, 0x7FF] [.ready]) (ha : addrOk false (pk.p64 0) = true)
    (hlow : 1 ≤ pk.fld 2 0 11) (hhigh : pk.fld 2 0 11 ≤ 1024) : sysRestoreD.bad pk s = none := by
  have hcount : ¬ (pk.fld 2 0 11 = 0 ∨ 1024 < pk.fld 2 0 11) := by omega
  simp only [sysRestoreD, firstBad, h.clean, ha, hcount, Bool.not_true, Bool.false_eq_true, if_false, decide_false]

theorem savedWords_taken (s : State) (pk : Pkt) (k : Nat) : (s.taken pk k).savedWords pk = s.savedWords pk := by
  simp only [State.savedWords, taken_mem]

/-- A slot is in use. -/
def slotsUsed (s : State) : Bool := s.slots.any (fun e => decide (e.2.rstate ≠ 0))

theorem slotsUsed_iff (s : State) : slotsUsed s = true ↔ ∃ e ∈ s.slots, e.2.rstate ≠ 0 := by
  simp only [slotsUsed, List.any_eq_true, decide_eq_true_eq]

theorem slotsUsed_false {s : State} (h : ∀ e ∈ s.slots, e.2.rstate = 0) : slotsUsed s = false :=
  Bool.eq_false_iff.2 fun hu => by
    obtain ⟨e, he, hst⟩ := (slotsUsed_iff s).1 hu
    exact hst (h e he)

/-- An image that fails a test, among those that a packet lists. -/
theorem any_false {l : List W64} {p : W64 → Bool} (h : ∀ w ∈ l, p w = false) : l.any p = false := List.any_eq_false.2 fun w hw => by simp [h w hw]

theorem any_not_true {l : List W64} {p : W64 → Bool} (h : ∃ w ∈ l, p w = false) : l.any (fun w => !p w) = true :=
  List.any_eq_true.2 (h.imp fun w hw => ⟨hw.1, by rw [hw.2]; rfl⟩)

theorem any_not_false {l : List W64} {p : W64 → Bool} (h : ∀ w ∈ l, p w = true) : l.any (fun w => !p w) = false :=
  any_false fun w hw => by rw [h w hw]; rfl

theorem sysRestore_pre (s : State) (o : Origin) (pk : Pkt) (k : Nat) : sysRestoreD.pre o pk (s.taken pk k) =
    if slotsUsed s then some (Cpl.of stWrongState 0)
    else if s.mem.bad (addrKey (pk.p64 0)) (8 * pk.fld 2 0 11) then some (Cpl.of stFault 0x03)
    else if (s.savedWords pk).any (fun w => !addrOk true w) then some (Cpl.of stBadParam 0x04)
    else if (s.savedWords pk).any (fun w => s.mem.bad (addrKey w) (imageLen s.mem (addrKey w))) then some (Cpl.of stFault 0x03)
    else if (s.savedWords pk).any (fun w => !(imageOk s.mem (addrKey w) && imageClean s.mem (addrKey w))) then some (Cpl.of stFault 0x02) else none := by
  simp only [sysRestoreD, taken_slots, taken_mem, savedWords_taken, slotsUsed]
  rfl

/-- Settles O27: the object checks of a restore are tried in the order of the clauses, and the effects are those of the descriptors. -/
theorem saveAndRestoreCommands : Obligations.SaveAndRestoreCommands := by
  unfold Obligations.SaveAndRestoreCommands
  refine fun s pk => ⟨fun h ha => ⟨fun hsmall => ?small, fun hfits hfree => ?save⟩, fun h ha hlow hhigh hroot => ?restore⟩
  case small =>
    refine exec_fits_pre_after fits_sysSave h rfl (sysSave_bad h ha) rfl ?_
    simp only [sysSaveD, saveLen_taken, if_pos hsmall]
  case save =>
    have hpre : sysSaveD.pre (s.origin pk) pk (s.taken pk 1) = none := by
      simp only [sysSaveD, saveLen_taken, if_neg (Nat.not_lt.2 hfits)]
    rw [exec_fits_runs_after fits_sysSave h rfl (sysSave_bad h ha) rfl hpre (lock_free rfl hfree)]
    simp only [sysSaveD, taken_scx, taken_counts]
  case restore =>
    have answered {x : Cpl} (hx : _ = some x) := exec_fits_pre_after fits_sysRestore h (root_here rfl hroot) (sysRestore_bad h ha hlow hhigh)
      (c := .sysRestore pk) rfl ((sysRestore_pre s (s.origin pk) pk 1).trans hx)
    refine ⟨fun hused => ?_, fun hunused => ⟨fun hlist => ?_, fun hlist => ⟨fun haddr => ?_, fun haddr => ⟨fun hbad => ?_, fun hbad =>
      ⟨fun hwhole => ?_, fun hwhole hfree => ?_⟩⟩⟩⟩⟩
    · exact answered (by rw [(slotsUsed_iff s).2 hused]; rfl)
    all_goals have hslots := slotsUsed_false hunused
    · exact answered (by simp only [hslots, hlist, Bool.false_eq_true, if_false, if_true])
    · exact answered (by simp only [hslots, hlist, any_not_true haddr, Bool.false_eq_true, if_false, if_true])
    · exact answered (by
        simp only [hslots, hlist, any_not_false haddr, List.any_eq_true.2 hbad, Bool.false_eq_true, if_false, if_true])
    · exact answered (by
        simp only [hslots, hlist, any_not_false haddr, any_false hbad, any_not_true hwhole, Bool.false_eq_true, if_false, if_true])
    · rw [exec_fits_runs_after fits_sysRestore h (root_here rfl hroot) (sysRestore_bad h ha hlow hhigh) rfl (by
        simp only [sysRestore_pre, hslots, hlist, any_not_false haddr, any_false hbad, any_not_false hwhole, Bool.false_eq_true, if_false])
        (lock_free rfl hfree)]
      simp only [sysRestoreD, savedWords_taken]

end Sys2Proof.Proofs

/-! PROOFS. The CFG commands (R47, R49, R230, R231, R280, Table 17.6, Table 17.7). -/

namespace Sys2Proof.Proofs

open Sys2Proof.Machine Sys2Proof.Laws

/-! ## What the taking of a packet leaves -/

/-- Taking a packet changes the ports and the number of the next command alone. -/
theorem taken_eq (s : State) (pk : Pkt) (k : Nat) :
    s.taken pk k = { s with cpa := (s.taken pk k).cpa, cpb := (s.taken pk k).cpb, cmdId := s.cmdId + 1 } := by
  unfold State.taken State.take State.setRing State.setPort
  cases pk.src.port <;> rfl

/-- What reads neither the ports nor that number reads the same once a packet is taken. -/
theorem taken_keeps {α : Sort _} {s : State} {pk : Pkt} {k : Nat} (f : State → α)
    (h : ∀ a b n, f { s with cpa := a, cpb := b, cmdId := n } = f s) : f (s.taken pk k) = f s := by
  rw [taken_eq]
  exact h _ _ _

/-! ## CFG.SET and CFG.PHASE -/

theorem fits_cfgSet : Fits cfgSetD 0x0200 1 rdyRunDrn := ⟨rfl, rfl, rfl, rfl, by decide⟩
theorem fits_cfgPhase : Fits cfgPhaseD 0x0201 1 rdyRunDrn := ⟨rfl, rfl, rfl, rfl, by decide⟩
theorem fits_cfgRegion : Fits cfgRegionD 0x0202 1 rdyRunDrn := ⟨rfl, rfl, rfl, rfl, by decide⟩
theorem fits_cfgRing : Fits cfgRingD 0x0203 1 rdyRunDrn := ⟨rfl, rfl, rfl, rfl, by decide⟩
theorem fits_cfgHeadset : Fits cfgHeadsetD 0x0204 1 rdyRunDrn := ⟨rfl, rfl, rfl, rfl, by decide⟩
theorem fits_cfgSlot : Fits cfgSlotD 0x0205 1 rdyRunDrn := ⟨rfl, rfl, rfl, rfl, by decide⟩

section
variable {s : State} {pk : Pkt}

theorem cfgSet_bad (h : Starts s pk 0x0200 1 [0xF, 0x1F, 0xFFFF, 0xFFF, 0xFF, 0x7F, 0x7FFF] rdyRunDrn) (hn : pk.fld 0 0 4 ≤ 8)
    (hok : (setVals pk).ok = true) : cfgSetD.bad pk s = none := by
  simp only [cfgSetD, firstBad, h.clean, hok, Nat.not_lt.2 hn, Bool.not_true, Bool.false_eq_true, if_false, decide_false]

theorem cfgSet_pre (s : State) (o : Origin) (pk : Pkt) (k : Nat) : cfgSetD.pre o pk (s.taken pk k) =
    if (pk.fld 0 0 4 = 0 ∨ pk.fld 0 0 4 = s.conf.phase) ∧ s.conf.pend.isSome = true then some (Cpl.of stBusyRetry 0) else none :=
  taken_keeps (cfgSetD.pre o pk) fun _ _ _ => rfl

theorem cfgPhase_bad (h : Starts s pk 0x0201 1 [0xF] rdyRunDrn) (hn : pk.fld 0 0 4 ≤ 8) : cfgPhaseD.bad pk s = none := by
  simp only [cfgPhaseD, firstBad, h.clean, Nat.not_lt.2 hn, Bool.not_true, Bool.false_eq_true, if_false, decide_false]

theorem cfgPhase_pre (s : State) (o : Origin) (pk : Pkt) (k : Nat) : cfgPhaseD.pre o pk (s.taken pk k) =
    if s.conf.pend.isSome then some (Cpl.of stBusyRetry 0) else none := taken_keeps (cfgPhaseD.pre o pk) fun _ _ _ => rfl

/-- CFG.SET of a set in force waits for the boundary. -/
theorem cfgSet_run_waits (o : Origin) (u : State) (h : pk.fld 0 0 4 = 0 ∨ pk.fld 0 0 4 = u.conf.phase) :
    cfgSetD.run o pk u = ({ u with conf := { u.conf with pend := some pk } } : State).phaseJob o pk := if_pos h

/-- CFG.SET of an overlay not in force acts at once, and the members are told. -/
theorem cfgSet_run_now (o : Origin) (u : State) (h0 : pk.fld 0 0 4 ≠ 0) (hphase : pk.fld 0 0 4 ≠ u.conf.phase) :
    cfgSetD.run o pk u = (({ u with conf := { u.conf with ovl := Tab.set u.conf.ovl (pk.fld 0 0 4) (setOf pk) } } : State).tellFrom u.asm.next pk).finish o
      (Cpl.done 0 0) := by
  simp only [cfgSetD, h0, hphase, or_self, if_false, State.putSet]

theorem setOf_overlay (h0 : pk.fld 0 0 4 ≠ 0) : setOf pk = { present := pk.fld 1 0 5, vals := setVals pk } := by
  simp only [Machine.setOf, if_neg h0]

/-! ## CFG.REGION -/

theorem cfgRegion_bad (h : Starts s pk 0x0202 1 [0x7, all32, all32, all32, if pk.fld 0 0 3 = 4 then 0xFFFF else 0] rdyRunDrn)
    (hc : pk.fld 0 0 3 ≠ 7) (ha : regionAddr (pk.fld 0 0 3) (pk.p64 1) = true) : cfgRegionD.bad pk s = none := by
  simp only [cfgRegionD, firstBad, h.clean, hc, ha, Bool.not_true, Bool.false_eq_true, if_false, decide_false]

theorem cfgRegion_pre (s : State) (o : Origin) (pk : Pkt) (k : Nat) (hblk : pk.fld 0 0 3 = 6 ∨ s.blk = .ready) :
    cfgRegionD.pre o pk (s.taken pk k) =
      if (pk.p 3).toNat * 4096 < s.leastSize (pk.fld 0 0 3) (pk.fld 4 0 16) then some (Cpl.of stBadParam 0x05) else none :=
  (taken_keeps (cfgRegionD.pre o pk) fun _ _ _ => rfl).trans (if_neg fun h => hblk.elim h.1 h.2)

/-- The region of a packet of CFG.REGION. -/
def pktRegion (pk : Pkt) : Region := { base := pk.p64 1, len := (pk.p 3).toNat * 4096 }

/-- The state in which the region of a packet is named. -/
def withRegion (s : State) (pk : Pkt) : State :=
  { s with conf := { s.conf with
      regions := Tab.set s.conf.regions (pk.fld 0 0 3) (pktRegion pk),
      reserve := if pk.fld 0 0 3 = 4 then pk.fld 4 0 16 else s.conf.reserve } }

theorem withRegion_no_reserve (s : State) {pk : Pkt} (hc : pk.fld 0 0 3 ≠ 4) : withRegion s pk =
    { s with conf := { s.conf with regions := Tab.set s.conf.regions (pk.fld 0 0 3) (pktRegion pk) } } := by
  simp only [withRegion, if_neg hc]

theorem cfgRegion_run_profiles (o : Origin) (u : State) (hc : pk.fld 0 0 3 = 2) :
    cfgRegionD.run o pk u = (withRegion u pk).nameProfs.finish o (Cpl.done 0 0) := by
  simp only [cfgRegionD, hc, withRegion, pktRegion]

theorem cfgRegion_run_directory (o : Origin) (u : State) (hc : pk.fld 0 0 3 = 3) :
    cfgRegionD.run o pk u = (withRegion u pk).nameDir.finish o (Cpl.done 0 0) := by
  simp only [cfgRegionD, hc, withRegion, pktRegion]

theorem cfgRegion_run_other (o : Origin) (u : State) (h2 : pk.fld 0 0 3 ≠ 2) (h3 : pk.fld 0 0 3 ≠ 3) :
    cfgRegionD.run o pk u = (withRegion u pk).finish o (Cpl.done 0 0) := by
  dsimp only [cfgRegionD]
  split
  · next hc => exact absurd hc h2
  · next hc => exact absurd hc h3
  · rfl

theorem nameProfs_conf (s : State) : s.nameProfs.conf.regions = s.conf.regions ∧ s.nameProfs.conf.profs = [] := by
  unfold State.nameProfs
  dsimp only
  split <;> exact ⟨rfl, rfl⟩

/-! ## CFG.RING -/

theorem cfgRing_bad (h : Starts s pk 0x0203 1 [0x3FF, all32, all32, all32, all32] rdyRunDrn) (hlow : 6 ≤ pk.fld 0 4 5) (hhigh : pk.fld 0 4 5 ≤ 16)
    (hbase : addrOk false (pk.p64 1) = true) (hnotify : addrOk false (pk.p64 3) = true) (hal : ringAligned (pk.p64 1) (pk.fld 0 4 5) = true) :
    cfgRingD.bad pk s = none := by
  have hsize : ¬ (pk.fld 0 4 5 < 6 ∨ 16 < pk.fld 0 4 5) := by omega
  simp only [cfgRingD, firstBad, h.clean, hsize, hbase, hnotify, hal, Bool.not_true, Bool.false_eq_true, if_false, decide_false, Bool.or_self]

theorem cfgRing_pre (s : State) (o : Origin) (pk : Pkt) (k : Nat) : cfgRingD.pre o pk (s.taken pk k) =
    if s.ringNamed (pk.fld 0 0 4) then some (Cpl.of stWrongState 0) else none := taken_keeps (cfgRingD.pre o pk) fun _ _ _ => rfl

theorem cring_taken (s : State) (pk : Pkt) (k n : Nat) : (s.taken pk k).cring n = s.cring n := taken_keeps (fun s => s.cring n) fun _ _ _ => rfl

theorem ringUsers_taken (s : State) (pk : Pkt) (k n : Nat) : (s.taken pk k).ringUsers n = s.ringUsers n :=
  taken_keeps (fun s => s.ringUsers n) fun _ _ _ => rfl

/-! ## CFG.HEADSET -/

/-- A vector region that a head set's dimension makes too small, or that is missing where it must stand. -/
def vecSmall (s : State) (m c : Nat) : Bool :=
  match Tab.find? s.conf.regions c with
  | some r => decide (r.len < vecSize m)
  | none => decide (c = 0)

theorem vecSmall_of_fits {m c : Nat} (h : ∀ r, Tab.find? s.conf.regions c = some r → vecSize m ≤ r.len)
    (hnone : Tab.find? s.conf.regions c = none → c ≠ 0) : vecSmall s m c = false := by
  unfold vecSmall
  cases hr : Tab.find? s.conf.regions c with
  | none => exact decide_eq_false (hnone hr)
  | some r => exact decide_eq_false (Nat.not_lt.2 (h r hr))

theorem cfgHeadset_bad (h : Starts s pk 0x0204 1 [0xF, 0x3FFFFF, 0xFFFF, all32] rdyRunDrn) (hnorm : pk.fld 0 2 2 ≠ 3) (hv1 : 1 ≤ pk.fld 1 0 22)
    (hv2 : pk.fld 1 0 22 ≤ 2 ^ 21) (hd1 : pk.fld 2 0 16 % 128 = 0) (hd2 : 128 ≤ pk.fld 2 0 16) (hd3 : pk.fld 2 0 16 ≤ 32768)
    (hfin : isFin (pk.p 3) = true) (hpos : fle 0 (pk.p 3) = true) : cfgHeadsetD.bad pk s = none := by
  have hdims : ¬ (pk.fld 1 0 22 = 0 ∨ 2 ^ 21 < pk.fld 1 0 22 ∨ pk.fld 2 0 16 % 128 ≠ 0 ∨ pk.fld 2 0 16 < 128 ∨ 32768 < pk.fld 2 0 16) := by omega
  simp only [cfgHeadsetD, firstBad, h.clean, hnorm, hdims, hfin, hpos, Bool.not_true, Bool.false_eq_true, if_false, decide_false, Bool.and_self]

theorem cfgHeadset_pre (s : State) (o : Origin) (pk : Pkt) (k : Nat) : cfgHeadsetD.pre o pk (s.taken pk k) =
    if (List.range 4).any (fun j => decide ((s.bank (pk.fld 0 0 2) j).st ≠ .empty)) then some (Cpl.of stWrongState 0)
    else if s.blk ≠ .ready ∧ s.dMax < s.dMaxWith (pk.fld 0 0 2) (pk.fld 2 0 16) then some (Cpl.of stWrongState 0)
    else if vecSmall s (s.dMaxWith (pk.fld 0 0 2) (pk.fld 2 0 16)) 0 || vecSmall s (s.dMaxWith (pk.fld 0 0 2) (pk.fld 2 0 16)) 1
      then some (Cpl.of stBadParam 0x05) else none := taken_keeps (cfgHeadsetD.pre o pk) fun _ _ _ => rfl

/-! ## CFG.SLOT -/

theorem cfgSlot_bad (h : Starts s pk 0x0205 1 [0x3F, all32, all32, all32] rdyRunDrn) (hwhat : pk.fld 0 4 2 ≠ 3)
    (ha : addrOk true (pk.p64 1) = true) : cfgSlotD.bad pk s = none := by
  simp only [cfgSlotD, firstBad, h.clean, hwhat, ha, Bool.not_true, Bool.false_eq_true, if_false, decide_false]

theorem cfgSlot_pre (s : State) (o : Origin) (pk : Pkt) (k : Nat) : cfgSlotD.pre o pk (s.taken pk k) =
    if (s.bank (pk.fld 0 0 2) (pk.fld 0 2 2)).st = .empty then none else some (Cpl.of stWrongState 0) :=
  taken_keeps (cfgSlotD.pre o pk) fun _ _ _ => rfl

theorem bank_taken (s : State) (pk : Pkt) (k h j : Nat) : (s.taken pk k).bank h j = s.bank h j :=
  taken_keeps (fun s => s.bank h j) fun _ _ _ => rfl

end

/-- Settles O28: each clause is the command's object check or its effect, read off its descriptor on the state with the packet taken. -/
theorem configurationCommands : Obligations.ConfigurationCommands := by
  unfold Obligations.ConfigurationCommands
  refine fun s pk => ⟨fun h hroot hn hok => ?set, fun h hroot hn => ?phase, fun c hcode hc h ha hblk => ?region,
    fun h hlow hhigh hbase hnotify hal => ?ring, fun h hroot hnorm hv1 hv2 hd1 hd2 hd3 hfin hpos => ?headset, fun h hwhat ha => ?slot⟩
  case set =>
    have hbad := cfgSet_bad h hn hok
    have runs (hp : ¬ ((pk.fld 0 0 4 = 0 ∨ pk.fld 0 0 4 = s.conf.phase) ∧ s.conf.pend.isSome = true)) :=
      exec_fits_runs_after fits_cfgSet h (root_here rfl hroot) hbad (c := .cfgSet pk) rfl ((cfgSet_pre s (s.origin pk) pk 1).trans (if_neg hp))
        (no_lock rfl)
    refine ⟨fun h0 hphase => ?_, fun hforce => ⟨fun hpend => ?_, fun hpend => ?_⟩⟩
    · rw [runs fun hc => hc.1.elim h0 hphase, cfgSet_run_now _ _ h0 (by rwa [taken_conf]), setOf_overlay h0, taken_asm]
    · refine exec_fits_pre_after fits_cfgSet h (root_here rfl hroot) hbad rfl ((cfgSet_pre s _ pk 1).trans (if_pos ⟨hforce, ?_⟩))
      exact Option.isSome_iff_ne_none.2 hpend
    · rw [runs fun hc => absurd (hpend ▸ hc.2) (by decide), cfgSet_run_waits _ _ (by rwa [taken_conf])]
      rfl
  case phase =>
    have hbad := cfgPhase_bad h hn
    refine ⟨fun hpend => ?_, fun hpend => ?_⟩
    · exact exec_fits_pre_after fits_cfgPhase h (root_here rfl hroot) hbad rfl
        ((cfgPhase_pre s _ pk 1).trans (if_pos (Option.isSome_iff_ne_none.2 hpend)))
    · exact exec_fits_runs_after fits_cfgPhase h (root_here rfl hroot) hbad rfl
        ((cfgPhase_pre s _ pk 1).trans (if_neg (by rw [hpend]; decide))) (no_lock rfl)
  case region =>
    subst hcode
    have hbad := cfgRegion_bad h hc ha
    refine ⟨fun hsmall => exec_fits_pre_after fits_cfgRegion h rfl hbad rfl ((cfgRegion_pre s _ pk 1 hblk).trans (if_pos hsmall)), fun hfits => ?_⟩
    have runs := exec_fits_runs_after fits_cfgRegion h rfl hbad (c := .cfgRegion pk) rfl
      ((cfgRegion_pre s (s.origin pk) pk 1 hblk).trans (if_neg (Nat.not_lt.2 hfits))) (no_lock rfl)
    refine ⟨fun h2 h3 h4 => ?_, fun h4 => ?_, fun h3 => ?_, fun h2 => ?_⟩
    · rw [runs, cfgRegion_run_other _ _ h2 h3, withRegion_no_reserve _ h4]
      rfl
    · rw [runs, cfgRegion_run_other _ _ (by omega) (by omega), withRegion, if_pos h4]
      rfl
    · rw [runs, cfgRegion_run_directory _ _ h3, withRegion_no_reserve _ (by omega)]
      rfl
    · refine ⟨_, runs.trans (next_congr (congrArg State.after (cfgRegion_run_profiles _ _ h2))), ?_, ?_⟩
      · rw [finish_conf, (nameProfs_conf _).1, ← h2]
        simp only [withRegion, taken_conf, pktRegion]
      · rw [finish_conf, (nameProfs_conf _).2]
  case ring =>
    have hbad := cfgRing_bad h hlow hhigh hbase hnotify hal
    refine ⟨fun hnamed => exec_fits_pre_after fits_cfgRing h rfl hbad rfl ((cfgRing_pre s _ pk 1).trans (if_pos hnamed)), fun hfree => ?_⟩
    have runs := exec_fits_runs_after fits_cfgRing h rfl hbad (c := .cfgRing pk) rfl
      ((cfgRing_pre s (s.origin pk) pk 1).trans (if_neg (by rw [hfree]; decide))) (no_lock rfl)
    refine ⟨fun hen husers => ?_, fun hen => ?_⟩
    · rw [runs]
      simp only [cfgRingD, hen, cring_taken, ringUsers_taken, husers, if_true, List.isEmpty_nil, Bool.not_true, Bool.and_false]
    · rw [runs]
      simp only [cfgRingD, hen, cring_taken, Bool.false_eq_true, if_false]
  case headset =>
    have hbad := cfgHeadset_bad h hnorm hv1 hv2 hd1 hd2 hd3 hfin hpos
    refine ⟨fun ⟨k, hk, hst⟩ => ?_, fun hempty hgrow ⟨r0, hr0, hlen0⟩ hlen1 hfree => ?_⟩
    · refine exec_fits_pre_after fits_cfgHeadset h (root_here rfl hroot) hbad rfl ((cfgHeadset_pre s _ pk 1).trans (if_pos ?_))
      exact List.any_eq_true.2 ⟨k, List.mem_range.2 hk, decide_eq_true hst⟩
    · have hbanks : (List.range 4).any (fun j => decide ((s.bank (pk.fld 0 0 2) j).st ≠ .empty)) = false :=
        List.any_eq_false.2 fun j hj => by simp [hempty j (List.mem_range.1 hj)]
      have hdim : ¬ (s.blk ≠ .ready ∧ s.dMax < s.dMaxWith (pk.fld 0 0 2) (pk.fld 2 0 16)) := fun hc =>
        hgrow.elim hc.1 fun hle => Nat.not_lt.2 hle hc.2
      have hvec0 := vecSmall_of_fits (s := s) (c := 0) (fun r hr => Option.some.inj (hr0.symm.trans hr) ▸ hlen0) fun hnone => by
        rw [hr0] at hnone; exact nomatch hnone
      have hvec1 := vecSmall_of_fits (s := s) (c := 1) hlen1 fun _ => by decide
      exact exec_fits_runs_after fits_cfgHeadset h (root_here rfl hroot) hbad rfl (by
        simp only [cfgHeadset_pre, hbanks, hdim, hvec0, hvec1, Bool.false_eq_true, if_false, Bool.or_self]) (lock_free rfl hfree)
  case slot =>
    have hbad := cfgSlot_bad h hwhat ha
    refine ⟨fun hst => exec_fits_pre_after fits_cfgSlot h rfl hbad rfl ((cfgSlot_pre s _ pk 1).trans (if_neg hst)), fun hst => ?_⟩
    have runs := exec_fits_runs_after fits_cfgSlot h rfl hbad (c := .cfgSlot pk) rfl
      ((cfgSlot_pre s (s.origin pk) pk 1).trans (if_pos hst)) (no_lock rfl)
    refine ⟨fun hw => ?_, fun hw => ?_, fun hw => ?_⟩ <;>
    · rw [runs]
      simp only [cfgSlotD, hw, bank_taken]

end Sys2Proof.Proofs

/-! PROOFS. Profiles and tables (R174, R175, R185, R188, R223 to R229, R364, R365, Table 17.8, Table 17.9). -/

namespace Sys2Proof.Proofs

open Sys2Proof.Machine Sys2Proof.Laws

/-! ## Profiles -/

theorem fits_profWrite : Fits profWriteD 0x0300 1 rdyRunDrn := ⟨rfl, rfl, rfl, rfl, by decide⟩
theorem fits_profSwap : Fits profSwapD 0x0301 1 rdyRunDrn := ⟨rfl, rfl, rfl, rfl, by decide⟩
theorem fits_profRead : Fits profReadD 0x0302 1 rdyRunDrn := ⟨rfl, rfl, rfl, rfl, by decide⟩

section
variable {s : State} {pk : Pkt}

theorem prof_taken (s : State) (pk : Pkt) (k n : Nat) : (s.taken pk k).prof n = s.prof n := taken_keeps (fun s => s.prof n) fun _ _ _ => rfl

theorem profWrite_bad (h : Starts s pk 0x0300 1 [0x3FFF, all32, all32] rdyRunDrn) (ha : addrOk false (pk.p64 1) = true) :
    profWriteD.bad pk s = none := by
  simp only [profWriteD, firstBad, h.clean, ha, Bool.not_true, Bool.false_eq_true, if_false]

/-- The object check of PROF.WRITE passes while the standby generation is open, or no former one is pinned (R229). -/
theorem profWrite_pre (o : Origin) (k : Nat) (hroom : (s.prof (pk.fld 0 0 10)).stby ≠ none ∨
    ∀ f, (s.prof (pk.fld 0 0 10)).former = some f → s.profPins (pk.fld 0 0 10) f.1 = 0) : profWriteD.pre o pk (s.taken pk k) = none := by
  refine (taken_keeps (profWriteD.pre o pk) fun _ _ _ => rfl).trans ?_
  dsimp only [profWriteD]
  cases hf : (s.prof (pk.fld 0 0 10)).former with
  | none => rfl
  | some f =>
    refine if_neg fun hc => ?_
    rw [Bool.and_eq_true, decide_eq_true_eq, Option.isNone_iff_eq_none] at hc
    obtain hopen | hpins := hroom
    · exact hopen hc.1
    · exact absurd (hpins f hf) (Nat.ne_of_gt hc.2)

/-- The record of a packet of PROF.WRITE, as the words at its address give it. -/
def writtenRec (ws : List Word) : ProfRec := { p := profOf ws, present := join64 (ws.getD 28 0) (ws.getD 29 0) }

/-- The checks of a profile record, in their order. -/
def recordCheck (m : Memory) (k r : Nat) : Option Cpl :=
  firstCpl [(m.bad k 128, Cpl.of stFault 0x03),
    (decide ((m.words k 32).getD 31 0 ≠ crcWords ((m.words k 32).take 31)), badCrc),
    (!profClean (m.words k 32) || !(profOf (m.words k 32)).ok || (decide (r = 0) && !(profOf (m.words k 32)).crossOk), badImg)]

theorem profWrite_run_refused (o : Origin) {u : State} {c : Cpl} (hc : recordCheck u.mem (addrKey (pk.p64 1)) (pk.fld 0 10 4) = some c) :
    profWriteD.run o pk u = u.finish o c := by
  unfold recordCheck at hc
  simp only [profWriteD, hc]

theorem profWrite_run (o : Origin) {u : State} (hc : recordCheck u.mem (addrKey (pk.p64 1)) (pk.fld 0 10 4) = none) :
    profWriteD.run o pk u =
      (((u.setProf (pk.fld 0 0 10) { u.prof (pk.fld 0 0 10) with
          stby := some (Tab.set ((u.prof (pk.fld 0 0 10)).stby.getD (u.prof (pk.fld 0 0 10)).recs) (pk.fld 0 10 4)
            (writtenRec (u.mem.words (addrKey (pk.p64 1)) 32))),
          former := none }).storeGen (pk.fld 0 0 10) ((u.prof (pk.fld 0 0 10)).gen + 1)
        (Tab.set ((u.prof (pk.fld 0 0 10)).stby.getD (u.prof (pk.fld 0 0 10)).recs) (pk.fld 0 10 4)
            (writtenRec (u.mem.words (addrKey (pk.p64 1)) 32)))).tellMembers o pk).finish o (Cpl.done 0 0) := by
  unfold recordCheck at hc
  simp only [profWriteD, hc, writtenRec]

theorem storeGen_unnamed {t : State} {n g : Nat} (h : t.profKey n g 0 = none) (recs : Tab ProfRec) : t.storeGen n g recs = t := by
  simp only [State.storeGen, h]

theorem storeGen_named {t : State} {n g key : Nat} (h : t.profKey n g 0 = some key) (recs : Tab ProfRec) :
    t.storeGen n g recs = t.storeWords key (genWords recs) := by
  simp only [State.storeGen, h]

theorem profKey_setProf (s : State) (m : Nat) (o : ProfObj) (n g r : Nat) : (s.setProf m o).profKey n g r = s.profKey n g r := rfl

theorem profKey_taken (s : State) (pk : Pkt) (k n g r : Nat) : (s.taken pk k).profKey n g r = s.profKey n g r :=
  taken_keeps (fun s => s.profKey n g r) fun _ _ _ => rfl

theorem profSwap_pre (s : State) (o : Origin) (pk : Pkt) (k : Nat) : profSwapD.pre o pk (s.taken pk k) =
    if (s.prof (pk.fld 0 0 10)).stby.isNone then some (Cpl.of stWrongState 0) else none := taken_keeps (profSwapD.pre o pk) fun _ _ _ => rfl

theorem profRead_bad (h : Starts s pk 0x0302 1 [0x7FFF, all32, all32] rdyRunDrn) (ha : addrOk false (pk.p64 1) = true) :
    profReadD.bad pk s = none := by
  simp only [profReadD, firstBad, h.clean, ha, Bool.not_true, Bool.false_eq_true, if_false]

theorem profRead_pre (s : State) (o : Origin) (pk : Pkt) (k : Nat) : profReadD.pre o pk (s.taken pk k) =
    if bitAt (pk.p 0) 14 && (s.prof (pk.fld 0 0 10)).stby.isNone then some (Cpl.of stWrongState 0) else none :=
  taken_keeps (profReadD.pre o pk) fun _ _ _ => rfl

end

/-- Settles O29: the record is refused by its first failing check or stands in the standby generation; a swap and a read follow the object. -/
theorem profileCommands : Obligations.ProfileCommands := by
  unfold Obligations.ProfileCommands
  refine fun s pk hroot => ⟨fun h ha hfree hroom => ?write, fun h => ⟨fun hnone => ?noStandby, fun recs hstby hfree => ?swap⟩, fun h ha => ?read⟩
  case write =>
    have runs := exec_fits_runs fits_profWrite h (root_here rfl hroot) (profWrite_bad h ha) (c := .profWrite pk) rfl
      (profWrite_pre (s.origin pk) 1 hroom) (lock_free rfl hfree)
    have refused {c : Cpl} (hc : recordCheck s.mem (addrKey (pk.p64 1)) (pk.fld 0 10 4) = some c) :
        exec (.profWrite pk) s = .next (s.answers pk 1 c) := runs.trans (next_congr (profWrite_run_refused _ (by rwa [taken_mem])))
    refine ⟨fun hbad => refused ?_, fun hbad => ⟨fun hcrc => refused ?_, fun hcrc => ⟨fun hrec => refused ?_, fun hclean hok hcross => ?_⟩⟩⟩
    · simp only [recordCheck, firstCpl, hbad, if_true]
    · simp only [recordCheck, firstCpl, hbad, hcrc, ne_eq, not_false_eq_true, decide_true, Bool.false_eq_true, if_false, if_true, badCrc]
    · have himg : (!profClean (s.mem.words (addrKey (pk.p64 1)) 32) || !(profOf (s.mem.words (addrKey (pk.p64 1)) 32)).ok
          || (decide (pk.fld 0 10 4 = 0) && !(profOf (s.mem.words (addrKey (pk.p64 1)) 32)).crossOk)) = true := by
        obtain hc | hc | ⟨h0, hc⟩ := hrec <;> simp [*]
      simp only [recordCheck, firstCpl, hbad, hcrc, himg, ne_eq, not_true_eq_false, decide_false, Bool.false_eq_true, if_false, if_true, badImg]
    · have hpass : recordCheck s.mem (addrKey (pk.p64 1)) (pk.fld 0 10 4) = none := by
        have himg : (decide (pk.fld 0 10 4 = 0) && !(profOf (s.mem.words (addrKey (pk.p64 1)) 32)).crossOk) = false := by
          by_cases h0 : pk.fld 0 10 4 = 0
          · simp [hcross h0]
          · simp [h0]
        simp only [recordCheck, firstCpl, hbad, hcrc, hclean, hok, himg, ne_eq, not_true_eq_false, decide_false, Bool.not_true, Bool.or_self,
          Bool.false_eq_true, if_false]
      have written := runs.trans (next_congr (profWrite_run (s.origin pk) (by rwa [taken_mem])))
      simp only [prof_taken, taken_mem] at written
      refine ⟨fun hkey => ?_, fun key hkey => ?_⟩
      · rw [written, storeGen_unnamed (by rwa [profKey_setProf, profKey_taken])]
        rfl
      · rw [written, storeGen_named (by rwa [profKey_setProf, profKey_taken])]
        rfl
  case noStandby =>
    exact exec_fits_pre fits_profSwap h (root_here rfl hroot) (noBad_of_starts h) rfl ((profSwap_pre s _ pk 1).trans (if_pos (by rw [hnone]; rfl)))
  case swap =>
    rw [exec_fits_runs fits_profSwap h (root_here rfl hroot) (noBad_of_starts h) rfl
      ((profSwap_pre s _ pk 1).trans (if_neg (by rw [hstby]; exact Bool.false_ne_true))) (lock_free rfl hfree)]
    simp only [profSwapD, prof_taken, hstby]
  case read =>
    refine ⟨fun hwhich hnone => ?_, fun hwhich => ?_, fun recs hwhich hstby => ?_⟩
    · exact exec_fits_pre fits_profRead h (root_here rfl hroot) (profRead_bad h ha) rfl
        ((profRead_pre s _ pk 1).trans (if_pos (by rw [hwhich, hnone]; rfl)))
    · rw [exec_fits_runs fits_profRead h (root_here rfl hroot) (profRead_bad h ha) rfl
        ((profRead_pre s _ pk 1).trans (if_neg (by rw [hwhich]; exact Bool.false_ne_true))) (no_lock rfl)]
      simp only [profReadD, prof_taken, hwhich, Bool.false_eq_true, if_false]
    · rw [exec_fits_runs fits_profRead h (root_here rfl hroot) (profRead_bad h ha) rfl
        ((profRead_pre s _ pk 1).trans (if_neg (by rw [hstby, hwhich]; exact Bool.false_ne_true))) (no_lock rfl)]
      simp only [profReadD, prof_taken, hwhich, hstby, if_true, Option.getD_some]

/-! ## Tables -/

theorem fits_tblLoad : Fits tblLoadD 0x0400 1 rdyRunDrn := ⟨rfl, rfl, rfl, rfl, by decide⟩
theorem fits_tblSwap : Fits tblSwapD 0x0401 1 rdyRunDrn := ⟨rfl, rfl, rfl, rfl, by decide⟩
theorem fits_tblFree : Fits tblFreeD 0x0402 1 rdyRunDrn := ⟨rfl, rfl, rfl, rfl, by decide⟩
theorem fits_tblQuery : Fits tblQueryD 0x0403 1 rdyRunDrn := ⟨rfl, rfl, rfl, rfl, by decide⟩

section
variable {s : State} {pk : Pkt}

theorem tbl_taken (s : State) (pk : Pkt) (k n : Nat) : (s.taken pk k).tbl n = s.tbl n := taken_keeps (fun s => s.tbl n) fun _ _ _ => rfl

theorem tblPins_taken (s : State) (pk : Pkt) (k n g : Nat) : (s.taken pk k).tblPins n g = s.tblPins n g :=
  taken_keeps (fun s => s.tblPins n g) fun _ _ _ => rfl

theorem secondFree_taken (s : State) (pk : Pkt) (k n : Nat) : (s.taken pk k).secondFree n = s.secondFree n :=
  taken_keeps (fun s => s.secondFree n) fun _ _ _ => rfl

theorem isRoot_taken (s : State) (pk : Pkt) (k : Nat) : (s.taken pk k).isRoot = s.isRoot := taken_keeps State.isRoot fun _ _ _ => rfl

theorem tblLoad_bad (h : Starts s pk 0x0400 1 [0x3FF, all32, all32, all32] rdyRunDrn) (hnum : tblNumOk pk = true)
    (ha : addrOk true (pk.p64 1) = true) : tblLoadD.bad pk s = none := by
  simp only [tblLoadD, firstBad, h.clean, hnum, ha, Bool.not_true, Bool.false_eq_true, if_false]

/-- The checks of a table command without an address: its reserved bits and the object's number. -/
theorem tblNum_bad {op k m : Nat} {legal : List Blk} (h : Starts s pk op k [m] legal) (hnum : tblNumOk pk = true) :
    firstBad [(!pk.clean [m], 0), (!tblNumOk pk, 0)] = none := by
  simp only [firstBad, h.clean, hnum, Bool.not_true, Bool.false_eq_true, if_false]

theorem tblLoad_pre (s : State) (o : Origin) (pk : Pkt) (k : Nat) : tblLoadD.pre o pk (s.taken pk k) =
    if s.secondFree (tblKey pk) then none else some (Cpl.of stBusyRetry 0) := taken_keeps (tblLoadD.pre o pk) fun _ _ _ => rfl

theorem tblSwap_pre (s : State) (o : Origin) (pk : Pkt) (k : Nat) : tblSwapD.pre o pk (s.taken pk k) =
    if (s.tbl (tblKey pk)).standby.isSome then none else some (Cpl.of stWrongState 0) := taken_keeps (tblSwapD.pre o pk) fun _ _ _ => rfl

theorem tblFree_pre (s : State) (o : Origin) (pk : Pkt) (k : Nat) : tblFreeD.pre o pk (s.taken pk k) = tblFreePre pk s :=
  taken_keeps (tblFreeD.pre o pk) fun _ _ _ => rfl

theorem tblQuery_pre (s : State) (o : Origin) (pk : Pkt) (k : Nat) : tblQueryD.pre o pk (s.taken pk k) =
    if (s.tbl (tblKey pk)).cur = none ∧ (s.tbl (tblKey pk)).standby = none ∧ s.secondFree (tblKey pk) = true
      then some (Cpl.of stWrongState 0) else none := taken_keeps (tblQueryD.pre o pk) fun _ _ _ => rfl

theorem standby_of_second {t : TblObj} {img : Image} (h : t.second = .standby img) : t.standby = some img := by
  simp only [TblObj.standby, h]

/-- The state in which a table's standby image has become current, with a second slot. -/
def tblSwapped (u : State) (k : Nat) (img : Image) (x : Second) : State :=
  (u.setTbl k { u.tbl k with
    cur := some { num := ((u.tbl k).last + 1) % 2 ^ 16, img := img }, second := x, last := ((u.tbl k).last + 1) % 2 ^ 16 }).logSwap k (((u.tbl k).last + 1) % 2 ^ 16)

theorem tblSwapped_last (u : State) (k : Nat) (img : Image) (x : Second) : ((tblSwapped u k img x).tbl k).last = ((u.tbl k).last + 1) % 2 ^ 16 :=
  congrArg TblObj.last (tab_get_set_self _ _ _ _)

theorem tblSwap_unpinned {u : State} {k : Nat} (hroot : u.isRoot = true) (img : Image)
    (h : ∀ c, (u.tbl k).cur = some c → u.tblPins k c.num = 0) : u.tblSwap k img = tblSwapped u k img .empty := by
  unfold State.tblSwap
  cases hc : (u.tbl k).cur with
  | none => simp only [hc, tblSwapped]
  | some c => simp only [hc, hroot, h c hc, Nat.lt_irrefl, Bool.true_eq_false, or_self, if_false, tblSwapped]

theorem tblSwap_pinned {u : State} {k : Nat} {c : Gen} (img : Image) (hc : (u.tbl k).cur = some c) (hpin : 0 < u.tblPins k c.num) :
    u.tblSwap k img = tblSwapped u k img (.former c) := by
  simp only [State.tblSwap, hc, hpin, or_true, if_true, tblSwapped]

theorem tblSwap_run {u : State} {img : Image} {x : Second} (o : Origin) (hstby : (u.tbl (tblKey pk)).second = .standby img)
    (hswap : u.tblSwap (tblKey pk) img = tblSwapped u (tblKey pk) img x) : tblSwapD.run o pk u =
      ((tblSwapped u (tblKey pk) img x).tellMembers o pk).finish o (Cpl.done 0 (((u.tbl (tblKey pk)).last + 1) % 2 ^ 16)) := by
  simp only [tblSwapD, standby_of_second hstby, hswap, tblSwapped_last]

end

/-- Settles O30: each clause is the object check or the effect that the table object's two slots select. -/
theorem tableCommands : Obligations.TableCommands := by
  unfold Obligations.TableCommands
  refine fun s pk hroot hnum => ⟨fun h ha => ⟨fun hpinned => ?busy, fun hroom hfree => ?load⟩, fun h => ⟨fun hnone => ?noStandby,
    fun img hstby hfree => ?swap⟩, fun h => ?free, fun h => ⟨fun hcur hstby hroom => ?nothing, fun c hcur => ?query⟩⟩
  case busy =>
    exact exec_fits_pre fits_tblLoad h (root_here rfl hroot) (tblLoad_bad h hnum ha) rfl
      ((tblLoad_pre s _ pk 1).trans (if_neg (by rw [hpinned]; decide)))
  case load =>
    have runs := exec_fits_runs fits_tblLoad h (root_here rfl hroot) (tblLoad_bad h hnum ha) (c := .tblLoad pk) rfl
      ((tblLoad_pre s (s.origin pk) pk 1).trans (if_pos hroom)) (lock_free rfl hfree)
    refine ⟨fun c hread => ?_, fun img hread => ?_⟩
    · rw [runs]
      simp only [tblLoadD, taken_mem, hread, State.answers]
    · rw [runs]
      simp only [tblLoadD, taken_mem, hread, tbl_taken]
  case noStandby =>
    exact exec_fits_pre fits_tblSwap h (root_here rfl hroot) (tblNum_bad h hnum) rfl
      ((tblSwap_pre s _ pk 1).trans (if_neg (by rw [hnone]; decide)))
  case swap =>
    have runs := exec_fits_runs fits_tblSwap h (root_here rfl hroot) (tblNum_bad h hnum) (c := .tblSwap pk) rfl
      ((tblSwap_pre s (s.origin pk) pk 1).trans (if_pos (by rw [standby_of_second hstby]; rfl))) (lock_free rfl hfree)
    have swaps {x : Second} (hx : (s.taken pk 1).tblSwap (tblKey pk) img = tblSwapped (s.taken pk 1) (tblKey pk) img x) :=
      runs.trans (next_congr ((tblSwap_run (s.origin pk) (by rwa [tbl_taken]) hx).trans (by rw [tblSwapped, tbl_taken])))
    have hroot' : (s.taken pk 1).isRoot = true := (isRoot_taken s pk 1).trans hroot
    refine ⟨fun hcur => swaps (tblSwap_unpinned hroot' img fun c hc => ?_),
      fun c hcur hpins => swaps (tblSwap_unpinned hroot' img fun c' hc => ?_),
      fun c hcur hpins => swaps (tblSwap_pinned img ((congrArg TblObj.cur (tbl_taken s pk 1 _)).trans hcur) (by rwa [tblPins_taken]))⟩
    · rw [tbl_taken, hcur] at hc
      exact nomatch hc
    · rw [tbl_taken, hcur] at hc
      rwa [tblPins_taken, ← Option.some.inj hc]
  case free =>
    have answered {x : Cpl} (hx : tblFreePre pk s = some x) := exec_fits_pre fits_tblFree h (root_here rfl hroot) (tblNum_bad h hnum)
      (c := .tblFree pk) rfl ((tblFree_pre s (s.origin pk) pk 1).trans hx)
    have runs (hfree : s.locked (objTable (pk.fld 0 0 2) (pk.fld 0 2 8)) = false) (hx : tblFreePre pk s = none) :=
      exec_fits_runs fits_tblFree h (root_here rfl hroot) (tblNum_bad h hnum) (c := .tblFree pk) rfl
        ((tblFree_pre s (s.origin pk) pk 1).trans hx) (lock_free rfl hfree)
    refine ⟨fun hnone => answered ?_, fun c hwhich hcur hpins hforce => answered ?_, fun hfree => ⟨fun c hwhich hcur hpins => ?_,
      fun c hwhich hcur hpins hforce => ?_, fun img hwhich hsecond => ?_, fun g hwhich hsecond hpins hforce => ?_⟩⟩
    · obtain ⟨hwhich, hnone⟩ | ⟨hwhich, hnone⟩ := hnone <;> simp only [tblFreePre, hwhich, hnone, Bool.false_eq_true, if_false, if_true]
    · simp only [tblFreePre, hwhich, hcur, hpins, hforce, and_self, if_true]
    · rw [runs hfree (by simp only [tblFreePre, hwhich, hcur, hpins, Nat.lt_irrefl, false_and, if_false, if_true])]
      simp only [tblFreeD, hwhich, tbl_taken, hcur, tblPins_taken, hpins, Nat.lt_irrefl, decide_false, Bool.false_eq_true, if_false, if_true]
    · rw [runs hfree (by simp only [tblFreePre, hwhich, hcur, hforce, Bool.true_eq_false, and_false, if_false, if_true])]
      simp only [tblFreeD, hwhich, tbl_taken, hcur, tblPins_taken, hpins, decide_true, if_true]
    · rw [runs hfree (by simp only [tblFreePre, hwhich, hsecond, Bool.false_eq_true, if_false])]
      simp only [tblFreeD, hwhich, tbl_taken, hsecond, Bool.false_eq_true, if_false]
    · rw [runs hfree (by simp only [tblFreePre, hwhich, hsecond, Nat.ne_of_gt hpins, hforce, Bool.false_eq_true, if_false, if_true])]
      simp only [tblFreeD, hwhich, tbl_taken, hsecond, Bool.false_eq_true, if_false]
  case nothing =>
    exact exec_fits_pre fits_tblQuery h (root_here rfl hroot) (tblNum_bad h hnum) rfl ((tblQuery_pre s _ pk 1).trans (if_pos ⟨hcur, hstby, hroom⟩))
  case query =>
    rw [exec_fits_runs fits_tblQuery h (root_here rfl hroot) (tblNum_bad h hnum) rfl
      ((tblQuery_pre s _ pk 1).trans (if_neg fun hc => by rw [hcur] at hc; exact nomatch hc.1)) (no_lock rfl)]
    simp only [tblQueryD, tbl_taken, hcur, tblPins_taken, secondFree_taken, Option.map_some, Option.getD_some, State.answers]

/-! ## Grammars -/

theorem next_isSome_iff (g : GState) (v : Nat) : (g.next v).isSome = true ↔ (∃ e ∈ g.trans, e.1 = v) ∨ ∃ d, g.dflt = some d := by
  unfold GState.next
  cases hf : g.trans.find? (fun e => decide (e.1 = v)) with
  | some e =>
    have he : e.1 = v := by simpa using List.find?_some hf
    exact iff_of_true rfl (.inl ⟨e, List.mem_of_find?_eq_some hf, he⟩)
  | none =>
    have hnone : ¬ ∃ e ∈ g.trans, e.1 = v := fun ⟨e, he, hv⟩ => List.find?_eq_none.1 hf e he (decide_eq_true hv)
    simp only [hnone, false_or, Option.isSome_iff_exists]

/-- The raw set by the state's mode (R175). -/
theorem raw_iff (g : GState) (mask : Option Image) (v : Nat) : g.raw mask v = true ↔
    g.mode = 0 ∨ (g.mode = 1 ∧ (mask.map (fun i => i.maskBit v)).getD false = true) ∨ (g.mode = 2 ∧ v ∈ g.allow)
      ∨ (3 ≤ g.mode ∧ ((mask.map (fun i => i.maskBit v)).getD false = true ∨ v ∈ g.allow) ∧ v ∉ g.deny) := by
  unfold GState.raw
  split
  · next h => simp [h]
  · next h => simp [h]
  · next h => simp [h]
  · next h0 h1 h2 =>
    have hne : g.mode ≠ 0 ∧ g.mode ≠ 1 ∧ g.mode ≠ 2 := ⟨h0, h1, h2⟩
    have h3 : 3 ≤ g.mode := by omega
    simp [hne, h3]

/-- Settles O31: the three tests of the allow set are the raw set, the vocabulary's bound and the next state. -/
theorem grammarAllowSet : Obligations.GrammarAllowSet := by
  unfold Obligations.GrammarAllowSet
  intro g nv mask v
  rw [GState.allows, Bool.and_eq_true, Bool.and_eq_true, raw_iff, decide_eq_true_eq, next_isSome_iff, and_assoc]

end Sys2Proof.Proofs

/-! PROOFS. The fault log and the entry into SAFE (R394, R397, R399, R400): what the services that every event uses leave as it was. -/

namespace Sys2Proof.Proofs

open Sys2Proof.Machine Sys2Proof.Laws

/-! ## The core of an instance -/

/-- What messages, completions, causes and counters leave as it was. -/
structure Core where
  shard  : Nat
  rootSh : Nat
  blk    : Blk
  rows   : List Row
  jobs   : List Job
  hcom   : List HomeCommit
  safe   : Bool
  scause : Nat
  prior  : Nat
  stick  : Word

/-- The core of a state. -/
def core (s : State) : Core :=
  { shard := s.orch.shard, rootSh := s.orch.rootSh, blk := s.blk, rows := s.rows, jobs := s.jobs, hcom := s.hcom, safe := s.faults.safe,
    scause := s.faults.scause, prior := s.faults.prior, stick := s.faults.stick }

/-- The parts of a state whose core is known. -/
theorem core_parts {s : State} {c : Core} (h : core s = c) : s.orch.shard = c.shard ∧ s.orch.rootSh = c.rootSh ∧ s.blk = c.blk ∧ s.rows = c.rows ∧
    s.jobs = c.jobs ∧ s.hcom = c.hcom ∧ s.faults.safe = c.safe ∧ s.faults.scause = c.scause ∧ s.faults.prior = c.prior ∧ s.faults.stick = c.stick := by
  subst h
  exact ⟨rfl, rfl, rfl, rfl, rfl, rfl, rfl, rfl, rfl, rfl⟩

/-- What every element of a list leaves, the list leaves. -/
theorem foldl_keeps {α β γ : Type} {g : β → γ} {f : β → α → β} (hf : ∀ x a, g (f x a) = g x) (l : List α) (x : β) : g (l.foldl f x) = g x := by
  induction l generalizing x with
  | nil => rfl
  | cons a r ih => rw [List.foldl_cons, ih, hf]

@[simp] theorem setPort_core (s : State) (p : PortId) (q : Port) : core (s.setPort p q) = core s := by cases p <;> rfl

@[simp] theorem setRing_core (s : State) (r : RingRef) (q : Ring) : core (s.setRing r q) = core s := setPort_core _ _ _

@[simp] theorem bumpN_core (s : State) (off n : Nat) : core (s.bumpN off n) = core s := rfl
@[simp] theorem bump_core (s : State) (off : Nat) : core (s.bump off) = core s := rfl
@[simp] theorem bump64N_core (s : State) (off n : Nat) : core (s.bump64N off n) = core s := rfl
@[simp] theorem setFault_core (s : State) (f : Nat) : core (s.setFault f) = core s := rfl
@[simp] theorem setCtr_core (s : State) (n : Nat) (c : Ctr) : core (s.setCtr n c) = core s := rfl
@[simp] theorem setBar_core (s : State) (n : Nat) (b : Barrier) : core (s.setBar n b) = core s := rfl
@[simp] theorem setCring_core (s : State) (n : Nat) (c : CRing) : core (s.setCring n c) = core s := rfl
@[simp] theorem setCtx_core (s : State) (n : Nat) (c : Scx) : core (s.setCtx n c) = core s := rfl
@[simp] theorem setBank_core (s : State) (h k : Nat) (b : Bank) : core (s.setBank h k b) = core s := rfl
@[simp] theorem storeWords_core (s : State) (k : Nat) (ws : List Word) : core (s.storeWords k ws) = core s := rfl
@[simp] theorem store_core (s : State) (k : Nat) (bs : List Byte) : core (s.store k bs) = core s := rfl

@[simp] theorem refresh_core (s : State) (p : PortId) (w1c : Bool) : core (s.refresh p w1c) = core s := setPort_core s p _

@[simp] theorem setCause1_core (s : State) (p : PortId) (b : Nat) : core (s.setCause1 p b) = core s := by
  rw [State.setCause1, refresh_core, setPort_core]

@[simp] theorem setCause_core (s : State) (b : Nat) : core (s.setCause b) = core s := by
  rw [State.setCause, bump_core, setCause1_core, setCause1_core]

@[simp] theorem countVoid_core (s : State) (c : Nat) : core (s.countVoid c) = core s := by
  unfold State.countVoid
  dsimp only
  split <;> rfl

/-! ### Messages -/

/-- A message sent leaves the seat in the tree, whatever ports take it. -/
theorem spreadBelow_seat (o : Orch) (m : Msg) : (o.spreadBelow m).shard = o.shard ∧ (o.spreadBelow m).rootSh = o.rootSh ∧
    (o.spreadBelow m).n = o.n ∧ (o.spreadBelow m).members = o.members ∧ (o.spreadBelow m).member = o.member := by
  have h := foldl_keeps (g := fun (o : Orch) => (o.shard, o.rootSh, o.n, o.members, o.member)) (f := fun o p => o.enqueue p m) (fun _ _ => rfl) o.kidPorts o
  simpa only [Orch.spreadBelow, Prod.mk.injEq] using h

theorem route_seat (o : Orch) (m : Msg) : (o.route m).shard = o.shard ∧ (o.route m).rootSh = o.rootSh ∧ (o.route m).n = o.n ∧
    (o.route m).members = o.members ∧ (o.route m).member = o.member := by
  unfold Orch.route
  split
  · exact ⟨rfl, rfl, rfl, rfl, rfl⟩
  · split <;> exact ⟨rfl, rfl, rfl, rfl, rfl⟩

@[simp] theorem bcastOthers_core (s : State) (m : Msg) : core (s.bcastOthers m) = core s := by
  obtain ⟨hshard, hroot, -⟩ := spreadBelow_seat s.orch m
  simp only [core, State.bcastOthers, hshard, hroot]

@[simp] theorem sendTo_core (s : State) (dst : Nat) (b : Body) : core (s.sendTo dst b) = core s := by
  obtain ⟨hshard, hroot, -⟩ := route_seat s.orch { hdr := s.hdr dst false 0 0 0 noHandle, body := b }
  simp only [core, State.sendTo, State.sendMsg, hshard, hroot]

@[simp] theorem tellMembers_core (s : State) (o : Origin) (pk : Pkt) : core (s.tellMembers o pk) = core s := by
  unfold State.tellMembers
  split
  · rfl
  · exact bcastOthers_core _ _

theorem isRoot_of_core {s t : State} (h : core t = core s) : t.isRoot = s.isRoot := by
  simp only [State.isRoot, show t.orch.shard = s.orch.shard from congrArg Core.shard h, show t.orch.rootSh = s.orch.rootSh from congrArg Core.rootSh h]

/-! ### Completions, counters and barriers -/

@[simp] theorem finish_core (s : State) (o : Origin) (c : Cpl) : core (s.finish o c) = core s := by
  unfold State.finish State.complete
  cases o with
  | ring r id => exact setRing_core _ _ _
  | fwd sh p ring fid => exact sendTo_core _ _ _
  | member => rfl

@[simp] theorem finishSleeper_core (s : State) (o : Origin) (c : Cpl) : core (s.finishSleeper o c) = core s := by
  unfold State.finishSleeper
  cases o with
  | ring r id =>
    dsimp only
    split
    · rw [setRing_core, finish_core]
    · exact finish_core _ _ _
  | fwd sh p ring fid => exact finish_core _ _ _
  | member => exact finish_core _ _ _

theorem endJobs_core (s : State) (p : Job → Bool) (c : Job → Cpl) : core (s.endJobs p c) = { core s with jobs := s.jobs.filter (fun j => !p j) } :=
  foldl_keeps (g := core) (f := fun (s : State) (j : Job) => s.finish j.origin (c j)) (fun _ _ => finish_core _ _ _) (s.jobs.filter p)
    { s with jobs := s.jobs.filter (fun j => !p j) }

@[simp] theorem ctrFree_core (s : State) (n : Nat) : core (s.ctrFree n) = core s :=
  foldl_keeps (g := core) (f := fun (s : State) (w : Waiter) => s.finishSleeper w.origin (Cpl.of stAbandoned 0)) (fun _ _ => finishSleeper_core _ _ _) _ _

@[simp] theorem freeAllCtrs_core (s : State) : core s.freeAllCtrs = core s := foldl_keeps (g := core) ctrFree_core _ _

@[simp] theorem barAbort_core (s : State) (n : Nat) : core (s.barAbort n) = core s :=
  foldl_keeps (g := core) (f := fun (s : State) o => s.finish o (Cpl.of stAbandoned 0)) (fun _ _ => finish_core _ _ _) _ _

@[simp] theorem barAbortAll_core (s : State) : core s.barAbortAll = core s := foldl_keeps (g := core) barAbort_core _ _

/-! ### Charges and the capture -/

theorem uncharge_core (s : State) (slot d : Nat) : core (s.uncharge slot d) = core s := by
  unfold State.uncharge
  dsimp only
  split <;> split <;> rfl

@[simp] theorem giveBack_core (s : State) (slot d : Nat) : core (s.giveBack slot d) = core s := by
  have hcount : core ((s.countReturned d).uncharge slot d) = core s := by
    rw [uncharge_core, State.countReturned]
    split <;> rfl
  unfold State.giveBack
  dsimp only
  split
  · exact hcount
  · exact (foldl_keeps (g := core) (f := fun (s : State) _ => s.sendTo s.orch.rootSh (.cmd (.ack slot 12))) (fun _ _ => sendTo_core _ _ _) _ _).trans hcount

theorem dropCommits_core (s : State) (p : HomeCommit → Bool) :
    core (s.dropCommits p) = { core s with hcom := s.hcom.filter (fun c => !p c) } :=
  foldl_keeps (g := core) (f := fun (s : State) (c : HomeCommit) => s.giveBack c.key.handle.slot c.charge) (fun _ _ => giveBack_core _ _ _) _ _

@[simp] theorem windStart_core (s : State) (manual : Bool) (cause prior : Nat) : core (s.windStart manual cause prior) = core s := by
  unfold State.windStart
  split
  · rfl
  · split <;> rfl

@[simp] theorem safeNotice_core (s : State) (cause : Nat) : core (s.safeNotice cause) = core s := by
  unfold State.safeNotice
  dsimp only
  split
  · exact bcastOthers_core _ _
  · rw [sendTo_core, bcastOthers_core]

/-! ### Egress -/

/-- The core is as it was, but that rows may have left. -/
structure Sheds (s t : State) : Prop where
  core : core t = { core s with rows := t.rows }
  rows : t.rows ⊆ s.rows

theorem Sheds.of_core {s t : State} (h : Proofs.core t = Proofs.core s) : Sheds s t :=
  have hrows : t.rows = s.rows := congrArg Core.rows h
  ⟨h.trans (by rw [hrows]; rfl), hrows ▸ List.Subset.refl _⟩

/-- Only the core of the first state counts. -/
theorem Sheds.of_left {s t u : State} (h : Sheds t u) (hc : Proofs.core t = Proofs.core s) : Sheds s u :=
  ⟨hc ▸ h.core, (show t.rows = s.rows from congrArg Core.rows hc) ▸ h.rows⟩

theorem Sheds.trans {s t u : State} (h : Sheds s t) (g : Sheds t u) : Sheds s u :=
  ⟨g.core.trans (by rw [h.core]), List.Subset.trans g.rows h.rows⟩

theorem dropRow_sheds (s : State) (k : Option RowKey) : Sheds s (s.dropRow k) := by
  cases k with
  | none => exact .of_core rfl
  | some k => exact ⟨rfl, fun r hr => (List.mem_filter.1 hr).1⟩

theorem trecIssued_sheds (s : State) (r : EgRec) : Sheds s (s.trecIssued r) := by
  unfold State.trecIssued
  split
  · exact .of_core rfl
  · exact Sheds.of_left (Sheds.trans (dropRow_sheds (s.bump64N _ 1) r.key) (.of_core rfl)) rfl

theorem egBeat_sheds (s : State) (r : EgRec) (rest : List EgRec) : Sheds s (s.egBeat r rest) := by
  unfold State.egBeat
  dsimp only
  split
  · refine Sheds.trans ?_ (trecIssued_sheds _ _)
    split
    · exact Sheds.of_left (trecIssued_sheds _ _) rfl
    · exact .of_core rfl
  · split
    · exact Sheds.of_left (trecIssued_sheds _ _) rfl
    · exact .of_core rfl

theorem egStep_sheds {s t : State} (h : s.egStep = some t) : Sheds s t := by
  unfold State.egStep at h
  split at h
  · exact nomatch h
  · next r rest hq =>
    dsimp only at h
    split at h
    · rw [← Option.some.inj h]
      exact Sheds.of_left (dropRow_sheds _ _) rfl
    · split at h
      · rw [← Option.some.inj h]
        exact .of_core rfl
      · split at h
        · exact nomatch h
        · rw [← Option.some.inj h]
          exact egBeat_sheds s r rest

theorem egRun_sheds (n : Nat) (s : State) : Sheds s (egRun n s) := by
  induction n generalizing s with
  | zero => exact .of_core rfl
  | succ n ih =>
    unfold egRun
    split
    · exact .of_core rfl
    · next t ht => exact (egStep_sheds ht).trans (ih t)

theorem missCheck_core (s : State) : core s.missCheck = core s := by
  unfold State.missCheck
  dsimp only
  split
  · rfl
  · exact setCause_core _ _

theorem pump_sheds (s : State) : Sheds s s.pump := (egRun_sheds _ s).trans (.of_core (missCheck_core _))

/-! ## The fault log (R397) -/

theorem logFault_core (s : State) (c : Nat) (x : Site) : core (s.logFault c x) = core s := by
  unfold State.logFault
  dsimp only
  split
  · rfl
  · split
    · rfl
    · split <;> rfl

/-- Nothing but the fault flags, their counter and the log changes when an event is logged. -/
theorem logFault_outside (s : State) (c : Nat) (x : Site) : (s.logFault c x).mem = s.mem ∧ (s.logFault c x).eg = s.eg ∧
    (s.logFault c x).orch = s.orch ∧ (s.logFault c x).cpa = s.cpa ∧ (s.logFault c x).cpb = s.cpb := by
  unfold State.logFault
  dsimp only
  split
  · exact ⟨rfl, rfl, rfl, rfl, rfl⟩
  · split
    · exact ⟨rfl, rfl, rfl, rfl, rfl⟩
    · split <;> exact ⟨rfl, rfl, rfl, rfl, rfl⟩

/-- The entry that an event makes. -/
def newEntry (s : State) (c : Nat) (x : Site) : FLog :=
  { cause := c, cls := causeClass c, unit := x.unit % 64, punnet := x.punnet, handle := x.handle, rslot := x.rslot, tick := BitVec.ofNat 32 s.now,
    pos := x.pos, rep := 0, inj := x.inj }

theorem logFault_repeat {s : State} {c : Nat} {x : Site} {h : FLog} {r : List FLog} (hlog : s.faults.log = h :: r)
    (hsame : h.cause = c ∧ h.unit = x.unit % 64 ∧ h.punnet = x.punnet) :
    s.logFault c x = { s with faults := { s.faults with log := { h with rep := min 127 (h.rep + 1) } :: r } } := by
  simp only [State.logFault, hlog, if_pos hsame]

/-- An event unlike the newest entry stands first in the log, and the oldest of 256 falls off with the wrap flag set. -/
theorem logFault_new {s : State} {c : Nat} {x : Site}
    (hnew : ∀ h r, s.faults.log = h :: r → ¬ (h.cause = c ∧ h.unit = x.unit % 64 ∧ h.punnet = x.punnet)) :
    (s.logFault c x).faults.log = (newEntry s c x :: s.faults.log).take 256 ∧
      (s.logFault c x).faults.status = if 256 ≤ s.faults.log.length then s.faults.status ||| 16 else s.faults.status := by
  unfold State.logFault
  dsimp only
  split
  · next hlog => exact ⟨by rw [hlog]; rfl, by rw [hlog]; rfl⟩
  · next h r hlog =>
    rw [if_neg (hnew h r hlog), hlog]
    split <;> exact ⟨rfl, rfl⟩

/-- Settles O58: an event repeats the newest entry or is logged before it. -/
theorem faultLogKeepsTheNewest : Obligations.FaultLogKeepsTheNewest := by
  unfold Obligations.FaultLogKeepsTheNewest
  intro s c x
  obtain ⟨hmem, heg, horch, hcpa, hcpb⟩ := logFault_outside s c x
  have hcore := logFault_core s c x
  refine ⟨fun h r hlog hc hu hp => logFault_repeat hlog ⟨hc, hu, hp⟩, fun hnew => ?_, hmem, congrArg Core.blk hcore, congrArg Core.rows hcore, heg,
    horch, hcpa, hcpb⟩
  obtain ⟨hlog, hstatus⟩ := logFault_new hnew
  exact ⟨newEntry s c x, rfl, rfl, rfl, rfl, rfl, rfl, rfl, hlog, fun hfull => by rw [hstatus, if_pos hfull],
    fun hroom => by rw [hstatus, if_neg (Nat.not_le.2 hroom)]⟩

/-! ## The entry into SAFE -/

/-- A row of this instance that still waits for its record. -/
def Waiting (x : Row) : Prop := x.home = true ∧ x.decided = false

theorem mem_insertBy {α : Type} (lt : α → α → Bool) (a x : α) (l : List α) : a ∈ insertBy lt x l ↔ a = x ∨ a ∈ l := by
  induction l with
  | nil => simp [insertBy]
  | cons b r ih =>
    unfold insertBy
    split
    · rw [List.mem_cons, ih, List.mem_cons]
      exact or_left_comm
    · exact List.mem_cons

theorem mem_sortBy {α : Type} (lt : α → α → Bool) (a : α) (l : List α) : a ∈ sortBy lt l ↔ a ∈ l := by
  induction l with
  | nil => simp [sortBy]
  | cons b r ih => rw [sortBy, mem_insertBy, ih, List.mem_cons]

theorem mem_openRows (s : State) (x : Row) : x ∈ s.openRows ↔ x ∈ s.rows ∧ Waiting x := by
  rw [State.openRows, mem_sortBy, List.mem_filter, Bool.and_eq_true, Bool.not_eq_true', Waiting]

/-- A row voided is marked, and nothing else of the core changes. -/
theorem voidSafe_core (s : State) (r : Row) (c : Nat) :
    core (s.voidSafe r c) = { core s with rows := s.rows.map (fun (x : Row) => if x.seq = r.seq then { x with decided := true } else x) } :=
  countVoid_core _ _

theorem foldl_voidSafe (c : Nat) (l : List Row) (s : State) :
    core (l.foldl (fun s r => s.voidSafe r c) s) = { core s with rows := (l.foldl (fun s r => s.voidSafe r c) s).rows } ∧
      ∀ x ∈ (l.foldl (fun s r => s.voidSafe r c) s).rows, Waiting x → x ∈ s.rows ∧ ∀ r ∈ l, x.seq ≠ r.seq := by
  induction l generalizing s with
  | nil => exact ⟨rfl, fun x hx _ => ⟨hx, fun r hr => nomatch hr⟩⟩
  | cons a l ih =>
    obtain ⟨hcore, hrows⟩ := ih (s.voidSafe a c)
    refine ⟨hcore.trans (by rw [voidSafe_core]; rfl), fun x hx hwait => ?_⟩
    obtain ⟨hold, hseqs⟩ := hrows x hx hwait
    rw [show (s.voidSafe a c).rows = _ from congrArg Core.rows (voidSafe_core s a c)] at hold
    obtain ⟨y, hy, hxy⟩ := List.mem_map.1 hold
    split at hxy
    · rw [← hxy] at hwait
      exact nomatch hwait.2
    · next hne =>
      subst hxy
      exact ⟨hy, List.forall_mem_cons.2 ⟨hne, hseqs⟩⟩

/-- After every open row is voided no row waits. -/
theorem openRows_voided (s : State) (c : Nat) : ∀ x ∈ (s.openRows.foldl (fun s r => s.voidSafe r c) s).rows, ¬ Waiting x := fun x hx hwait => by
  obtain ⟨hold, hseqs⟩ := (foldl_voidSafe c s.openRows s).2 x hx hwait
  exact hseqs x ((mem_openRows s x).2 ⟨hold, hwait⟩) rfl

/-- What the entry into SAFE leaves of the core. -/
theorem enterSafe_core (s : State) (cause : Nat) :
    core (s.enterSafe cause) = { core s with
      blk := .safe, rows := (s.enterSafe cause).rows, jobs := s.jobs.filter (fun j => !(safeCpl j).isSome), hcom := [], safe := true, scause := cause,
      prior := blkCode s.blk, stick := BitVec.ofNat 32 s.now } ∧
    ∀ x ∈ (s.enterSafe cause).rows, ¬ Waiting x := by
  unfold State.enterSafe
  dsimp only
  generalize hs1 : ({ s with blk := .safe, faults := _, wind := _, conf := _ } : State) = s1
  generalize hs4 : State.dropCommits _ _ = s4
  have hpump := pump_sheds (s4.openRows.foldl (fun s r => s.voidSafe r 0x37) s4)
  have hrows : (State.windStart (s4.openRows.foldl (fun s r => s.voidSafe r 0x37) s4).pump false cause (blkCode s.blk)).rows
      = (s4.openRows.foldl (fun s r => s.voidSafe r 0x37) s4).pump.rows := congrArg Core.rows (windStart_core _ _ _ _)
  refine ⟨?_, fun x hx => openRows_voided s4 0x37 x (hpump.rows (hrows ▸ hx))⟩
  rw [hrows, windStart_core, hpump.core, (foldl_voidSafe _ _ _).1, ← hs4, dropCommits_core, barAbortAll_core, freeAllCtrs_core, endJobs_core,
    safeNotice_core, setCause_core, ← hs1]
  have hjobs : ∀ t : State, ((t.setCause cSafe).safeNotice cause).jobs = t.jobs := fun t =>
    congrArg Core.jobs ((safeNotice_core _ _).trans (setCause_core _ _))
  simp only [hjobs, core, Bool.not_true, List.filter_false]

/-- The counted and logged form of a fault, before its class acts. -/
theorem fatalLogged_core (s : State) (c : Nat) (x : Site) : core (((s.bump (offEvent c)).logFault c x).setFault 2) = core s := by
  rw [setFault_core, logFault_core, bump_core]

theorem fatal_in_safe {s : State} (h : s.blk = .safe) (c : Nat) (x : Site) : core (s.fatal c x) = core s := by
  rw [State.fatal, if_pos h]
  exact fatalLogged_core s c x

theorem fatal_enters {s : State} (h : s.blk ≠ .safe) (c : Nat) (x : Site) :
    s.fatal c x = (((s.bump (offEvent c)).logFault c x).setFault 2).enterSafe c := if_neg h

/-- A fatal fault leaves the seat in the tree. -/
theorem fatal_seat (s : State) (c : Nat) (x : Site) : (s.fatal c x).orch.shard = s.orch.shard ∧ (s.fatal c x).orch.rootSh = s.orch.rootSh := by
  by_cases h : s.blk = .safe
  · have hcore := fatal_in_safe h c x
    exact ⟨congrArg Core.shard hcore, congrArg Core.rootSh hcore⟩
  · rw [fatal_enters h]
    generalize hu : ((s.bump (offEvent c)).logFault c x).setFault 2 = u
    have hlog : core u = core s := hu ▸ fatalLogged_core s c x
    obtain ⟨hshard, hroot, -⟩ := core_parts (enterSafe_core u c).1
    exact ⟨hshard.trans (core_parts hlog).1, hroot.trans (core_parts hlog).2.1⟩

/-- Settles O59: the entry as `enterSafe_core` says, and each fatal command as its arm is. -/
theorem fatalFaultsEnterSafe : Obligations.FatalFaultsEnterSafe := by
  unfold Obligations.FatalFaultsEnterSafe
  refine ⟨fun s c x hblk => ?enters, fun s c x hblk => ?already, fun s hlive => ⟨fun c => ?entry, fun hblk => ?idle, fun hboot hsafe harmed => ?bites,
    ?hangs⟩⟩
  case enters =>
    rw [fatal_enters hblk]
    generalize hu : ((s.bump (offEvent c)).logFault c x).setFault 2 = u
    have hlog : core u = core s := hu ▸ fatalLogged_core s c x
    obtain ⟨hcore, hrows⟩ := enterSafe_core u c
    obtain ⟨-, -, hsafe, -, hjobs, hhcom, hflag, hcause, hprior, -⟩ := core_parts hcore
    refine ⟨hsafe, hflag, hcause, hprior.trans (congrArg blkCode (congrArg Core.blk hlog)), fun r hr hhome => ?_, hhcom, fun j hj => ?_⟩
    · exact Bool.of_not_eq_false fun hopen => hrows r hr ⟨hhome, hopen⟩
    · rw [hjobs] at hj
      simpa using (List.mem_filter.1 hj).2
  case already =>
    have hcore := fatal_in_safe hblk c x
    exact ⟨(congrArg Core.blk hcore).trans hblk, congrArg Core.scause hcore, congrArg Core.prior hcore, congrArg Core.stick hcore,
      congrArg Core.rows hcore⟩
  case entry => exact next_congr (if_pos hlive)
  case idle =>
    refine next_congr (if_neg ?_)
    obtain h | h := hblk <;> simp [h]
  case bites =>
    refine next_congr ((if_pos ?_).trans ?_)
    · simp [hlive, hboot, hsafe]
    · rw [harmed]
      rfl
  case hangs => exact next_congr (if_pos hlive)

end Sys2Proof.Proofs

/-! PROOFS. Bank loads, bank roles and variants (R220, R281 to R293, R369, Table 14.1, Table 17.10). -/

namespace Sys2Proof.Proofs

open Sys2Proof.Machine Sys2Proof.Laws

/-! ## Banks -/

theorem bank_of_conf {s t : State} (h : t.conf = s.conf) (g k : Nat) : t.bank g k = s.bank g k := by simp only [State.bank, h]

theorem bank_setBank_self (s : State) (h k : Nat) (b : Bank) : (s.setBank h k b).bank h k = b := tab_get_set_self _ _ _ _

theorem endJobs_bank (s : State) (p : Job → Bool) (c : Job → Cpl) (h k : Nat) : (s.endJobs p c).bank h k = s.bank h k :=
  bank_of_conf (endJobs_conf s p c) h k

theorem tellMembers_conf (s : State) (o : Origin) (pk : Pkt) : (s.tellMembers o pk).conf = s.conf := by
  unfold State.tellMembers
  split <;> rfl

theorem tellMembers_bank (s : State) (o : Origin) (pk : Pkt) (h k : Nat) : (s.tellMembers o pk).bank h k = s.bank h k :=
  bank_of_conf (tellMembers_conf s o pk) h k

theorem tellMembers_n (s : State) (o : Origin) (pk : Pkt) : (s.tellMembers o pk).orch.n = s.orch.n := by
  unfold State.tellMembers
  split
  · rfl
  · exact (spreadBelow_seat _ _).2.2.1

/-! ## The end of a load -/

/-- A failed load leaves its slot EMPTY. -/
theorem failLoad_empties (s : State) (h k d : Nat) : ((s.failLoad h k d).bank h k).st = .empty := by
  unfold State.failLoad
  dsimp only
  rw [endJobs_bank]
  exact congrArg Bank.st (bank_setBank_self s h k _)

theorem rootReady_failed {s : State} {r : ReadyB} (sh : Nat) (hst : (s.bank r.hset r.slot).st = .loading) (hd : r.detail ≠ 0) :
    s.rootReady sh r = s.failLoad r.hset r.slot r.detail := by
  simp only [State.rootReady, hst, hd, reduceCtorEq, false_and, if_false, if_true, ne_eq, not_false_eq_true]

/-- Every report agrees with the slot and its head set. -/
def loadAgrees (s : State) (h k : Nat) : Bool := (s.bank h k).reports.all fun r =>
  decide (r.2.epoch = (s.bank h k).epoch ∧ r.2.fmt = (s.bank h k).fmt ∧ r.2.d = (s.head h).d ∧ r.2.v = (s.head h).v)

section
variable {s : State} {h k : Nat} (hst : (s.bank h k).st = .loading) (hall : ∀ i, i < s.orch.n → ∃ r ∈ (s.bank h k).reports, r.1 = i)
include hst hall

theorem every_report : ¬ ((s.bank h k).st ≠ .loading ∨
    (List.range s.orch.n).any (fun i => !((s.bank h k).reports.any (fun r => decide (r.1 = i)))) = true) := by
  rintro (hne | hmiss)
  · exact hne hst
  · obtain ⟨i, hi, hnone⟩ := List.any_eq_true.1 hmiss
    obtain ⟨r, hr, hri⟩ := hall i (List.mem_range.1 hi)
    rw [List.any_eq_true.2 ⟨r, hr, decide_eq_true hri⟩] at hnone
    exact Bool.false_ne_true hnone

theorem checkLoad_agreed (hsame : loadAgrees s h k = true) : ((s.checkLoad h k).bank h k).st = .ready := by
  unfold loadAgrees at hsame
  simp only [State.checkLoad, if_neg (every_report hst hall), hsame, if_true, endJobs_bank]
  exact congrArg Bank.st (bank_setBank_self s h k _)

theorem checkLoad_differs (hsame : loadAgrees s h k = false) : ((s.checkLoad h k).bank h k).st = .empty := by
  unfold loadAgrees at hsame
  simp only [State.checkLoad, if_neg (every_report hst hall), hsame, Bool.false_eq_true, if_false, failLoad_empties]

end

/-! ## The start of a load -/

theorem fits_epochLoad : Fits epochLoadD 0x0500 1 rdyRunDrn := ⟨rfl, rfl, rfl, rfl, by decide⟩

/-- The root starts a prepared load exactly when every shard has said that its regions hold it. -/
theorem startLoad_st {s : State} {h k : Nat} (hst : (s.bank h k).st = .empty) (hjob : s.jobs.any (isLoad h k) = true) :
    ((s.startLoad h k).bank h k).st =
      if (List.range s.orch.n).all (fun i => (s.bank h k).said.contains i) = true then .loading else .empty := by
  unfold State.startLoad
  by_cases hsaid : (List.range s.orch.n).all (fun i => (s.bank h k).said.contains i) = true
  · simp only [hst, hjob, hsaid, and_self, if_true]
    exact congrArg Bank.st (bank_setBank_self s h k _)
  · simp only [hst, hjob, hsaid, and_false, Bool.false_eq_true, if_false]

section
variable {s : State} {pk : Pkt}

theorem epochLoad_bad (h : Starts s pk 0x0500 1 [all32, all32] rdyRunDrn) (ha : addrOk false (pk.p64 0) = true) : epochLoadD.bad pk s = none := by
  simp only [epochLoadD, firstBad, h.clean, ha, Bool.not_true, Bool.false_eq_true, if_false]

theorem blockAt_taken (s : State) (pk : Pkt) (k : Nat) (a : W64) (n : Nat) : (s.taken pk k).blockAt a n = s.blockAt a n :=
  taken_keeps (fun s => s.blockAt a n) fun _ _ _ => rfl

/-- The state in which a load is prepared, its command open and the members told. -/
def loadPrepared (s : State) (o : Origin) (pk : Pkt) (ws : List Word) : State :=
  ((s.prepare ws).addJob { origin := o, opcode := pk.opcode, kind := .load (blkHead ws) (blkSlot ws), lock := some (objBank (blkHead ws) (blkSlot ws)) }).tellMembers
    o pk

theorem loadPrepared_bank (s : State) (o : Origin) (pk : Pkt) (ws : List Word) :
    ((loadPrepared s o pk ws).bank (blkHead ws) (blkSlot ws)).st = .empty ∧
      ((loadPrepared s o pk ws).bank (blkHead ws) (blkSlot ws)).said = [s.orch.shard] := by
  have hb : (loadPrepared s o pk ws).bank (blkHead ws) (blkSlot ws) = _ := (tellMembers_bank _ _ _ _ _).trans (bank_setBank_self s _ _ _)
  exact ⟨congrArg Bank.st hb, congrArg Bank.said hb⟩

theorem loadPrepared_jobs (s : State) (o : Origin) (pk : Pkt) (ws : List Word) :
    (loadPrepared s o pk ws).jobs.any (isLoad (blkHead ws) (blkSlot ws)) = true := by
  rw [show (loadPrepared s o pk ws).jobs = _ from (core_parts (tellMembers_core _ o pk)).2.2.2.2.1]
  exact List.any_eq_true.2 ⟨_, List.mem_append_right _ (List.mem_singleton.2 rfl), decide_eq_true rfl⟩

theorem loadPrepared_n (s : State) (o : Origin) (pk : Pkt) (ws : List Word) : (loadPrepared s o pk ws).orch.n = s.orch.n := tellMembers_n _ _ _

theorem loadPrepared_starts {s : State} (o : Origin) (pk : Pkt) (ws : List Word) :
    (((loadPrepared s o pk ws).startLoad (blkHead ws) (blkSlot ws)).bank (blkHead ws) (blkSlot ws)).st =
      if (List.range s.orch.n).all (fun i => [s.orch.shard].contains i) = true then .loading else .empty := by
  obtain ⟨hst, hsaid⟩ := loadPrepared_bank s o pk ws
  rw [startLoad_st hst (loadPrepared_jobs s o pk ws), hsaid, loadPrepared_n]

end

/-! ## A part of a load -/

theorem exec_requant {s : State} (hw : s.working = true) (h k : Nat) (v : Option Nat) (err : LoadErr) :
    exec (.requantPartDone h k v err) s = .next (s.requantDone h k v err).after := next_congr (workStep_working hw _)

theorem seat_foldl {α : Type} {f : State → α → State} (hf : ∀ x a, (f x a).orch.shard = x.orch.shard ∧ (f x a).orch.rootSh = x.orch.rootSh)
    (l : List α) (s : State) : (l.foldl f s).isRoot = s.isRoot := by
  have h := foldl_keeps (g := fun s : State => (s.orch.shard, s.orch.rootSh)) (f := f) (fun x a => by rw [(hf x a).1, (hf x a).2]) l s
  obtain ⟨hshard, hroot⟩ := Prod.mk.inj h
  rw [State.isRoot, State.isRoot, hshard, hroot]

theorem repair_seat (s : State) (u : Unit') : (s.repair u).orch.shard = s.orch.shard ∧ (s.repair u).orch.rootSh = s.orch.rootSh := by
  unfold State.repair
  split
  · exact ⟨rfl, rfl⟩
  · split
    · exact fatal_seat _ _ _
    · obtain ⟨hshard, hroot, -⟩ := core_parts (setCause_core (s.setFault 5) cFault)
      exact ⟨hshard, hroot⟩

/-- A lane that a conversion replaced: counted and repaired with a spare. -/
def laneReplaced (s : State) (g : Nat) : State := (s.corrected 0x05).repair { kind := 6, sram := 0, index := g }

theorem convEnd_eq (s : State) (c : Conv) : s.convEnd c = c.hits.foldl laneReplaced { s with lanes := c.lanes } := rfl

theorem laneReplaced_seat (s : State) (g : Nat) :
    (laneReplaced s g).orch.shard = s.orch.shard ∧ (laneReplaced s g).orch.rootSh = s.orch.rootSh := by
  have hcorr : (s.corrected 0x05).orch = s.orch := by rw [State.corrected, setFault_orch, bump_orch]
  unfold laneReplaced
  obtain ⟨hshard, hroot⟩ := repair_seat (s.corrected 0x05) { kind := 6, sram := 0, index := g }
  exact ⟨hshard.trans (congrArg Orch.shard hcorr), hroot.trans (congrArg Orch.rootSh hcorr)⟩

/-- A conversion's end repairs lanes, which may be fatal, and leaves the seat in the tree. -/
theorem convEnd_isRoot (s : State) (c : Conv) : (s.convEnd c).isRoot = s.isRoot := by
  rw [convEnd_eq, seat_foldl laneReplaced_seat]
  rfl

theorem storeOpt_core (s : State) (k : Nat) (bs : Option (List Byte)) : core (s.storeOpt k bs) = core s := by
  unfold State.storeOpt
  split <;> rfl

theorem writeBank_core (s : State) (h k : Nat) (x : BankParts) : core (s.writeBank h k x) = core s := by
  unfold State.writeBank
  dsimp only
  have tiles {α β : Type} (l : List α) (r : List β) {f : State → α → State} {g : State → β → State} (hf : ∀ x a, core (f x a) = core x)
      (hg : ∀ x a, core (g x a) = core x) : core (r.foldl g (l.foldl f s)) = core s := (foldl_keeps hg r _).trans (foldl_keeps hf l s)
  split
  · rw [storeOpt_core, storeOpt_core, storeOpt_core, storeOpt_core]
    exact tiles _ _ (fun _ _ => rfl) (fun _ _ => rfl)
  · rw [store_core, storeOpt_core, storeOpt_core, storeOpt_core, storeOpt_core]
    exact tiles _ _ (fun _ _ => rfl) (fun _ _ => rfl)

/-- The state in which the parts stand in the slot's regions. -/
def partWritten (s : State) (h k : Nat) (x : BankParts) (c : Conv) : State :=
  ((s.convEnd c).setBank h k { s.bank h k with data := x.data c.next }).writeBank h k x

theorem partWritten_isRoot (s : State) (h k : Nat) (x : BankParts) (c : Conv) : (partWritten s h k x c).isRoot = s.isRoot :=
  (isRoot_of_core ((writeBank_core _ h k x).trans (setBank_core _ h k _))).trans (convEnd_isRoot s c)

section
variable {s : State} {h k : Nat} (hst : (s.bank h k).st = .loading) (hnone : ∀ r ∈ (s.bank h k).reports, r.1 ≠ s.orch.shard)
include hst hnone

theorem part_due : ¬ ((s.bank h k).st ≠ .loading ∨ (s.bank h k).reports.any (fun r => decide (r.1 = s.orch.shard)) = true) := by
  rintro (hne | hsaid)
  · exact hne hst
  · obtain ⟨r, hr, heq⟩ := List.any_eq_true.1 hsaid
    exact hnone r hr (of_decide_eq_true heq)

theorem bankPart_memory : s.bankPart h k .memory = (s.convEnd (s.convStart (s.bank h k).blk.srseed 0)).sendReady h k 0x11 := by
  simp only [State.bankPart, if_neg (part_due hst hnone), if_true]

theorem bankPart_fails {d : Nat} (hconv : s.convBank h k (s.convStart (s.bank h k).blk.srseed 0) = .error d) :
    s.bankPart h k .none = (s.convEnd (s.convStart (s.bank h k).blk.srseed 0)).sendReady h k d := by
  simp only [State.bankPart, if_neg (part_due hst hnone), hconv, reduceCtorEq, if_false]

section
variable {x : BankParts} {c : Conv} (hconv : s.convBank h k (s.convStart (s.bank h k).blk.srseed 0) = .ok (x, c))
include hconv

theorem bankPart_no_room (hroom : s.partRoom h k (s.bank h k).fmt (s.bank h k).use x.outl.length (s.bank h k).blk = false) :
    s.bankPart h k .none = (s.convEnd (s.convStart (s.bank h k).blk.srseed 0)).sendReady h k 0x05 := by
  simp only [State.bankPart, if_neg (part_due hst hnone), hconv, hroom, reduceCtorEq, if_false, if_true]

/-- A part that fits is written, and the root takes its report with the CRC in the slot. -/
theorem bankPart_written (hroom : s.partRoom h k (s.bank h k).fmt (s.bank h k).use x.outl.length (s.bank h k).blk = true) (hroot : s.isRoot = true) :
    s.bankPart h k .none = ((partWritten s h k x c).setBank h k
      { (partWritten s h k x c).bank h k with crc := (partWritten s h k x c).bankCrc h k }).sendReady h k 0 := by
  have hw : ∀ b, ((partWritten s h k x c).setBank h k b).isRoot = true := fun b =>
    (isRoot_of_core (setBank_core _ h k b)).trans ((partWritten_isRoot s h k x c).trans hroot)
  unfold partWritten at hw ⊢
  simp only [State.bankPart, if_neg (part_due hst hnone), hconv, hroom, hw, reduceCtorEq, Bool.true_eq_false, if_false, if_true]

end

end

theorem varPart_memory {s : State} {h k v : Nat} {x : Variant} (hst : (s.bank h k).st = .active) (hx : Tab.find? (s.bank h k).vars v = some x)
    (hgo : x.go = true) (hnew : x.reports.contains s.orch.shard = false) : s.varPart h k v .memory = s.sendReady h k 0x11 := by
  have hdue : ¬ (x.reports.contains s.orch.shard = true ∨
      ((s.bank h k).st ≠ .ready ∧ (s.bank h k).st ≠ .active ∧ (s.bank h k).st ≠ .retained)) := by
    rw [hnew, hst]
    exact fun hc => hc.elim Bool.false_ne_true fun hst => hst.2.1 rfl
  simp only [State.varPart, hx, Option.filter_some, hgo, if_true, if_neg hdue]

/-- Settles O32: a load is prepared and started as the shards' words say, its part is one of `bankPart`'s cases, and its reports fail or agree. -/
theorem bankLoadCommands : Obligations.BankLoadCommands := by
  unfold Obligations.BankLoadCommands
  refine ⟨fun s pk h ha hroot => ⟨fun c hc => ?answered, fun hpre hfree => ?load⟩,
    fun s h k hw hst hnone => ⟨?memory, fun d hconv => ?fails, fun x c hconv => ⟨fun hroom => ?noRoom, fun hroom hroot => ?written⟩⟩,
    fun s h k v x hw hst hx hgo hnew => ?variant, fun s sh r hst hd => ?failed, fun s h k hst hall => ⟨fun hsame => ?agreed, fun hdiff => ?differs⟩⟩
  case answered =>
    exact exec_fits_pre_after fits_epochLoad h (root_here rfl hroot) (epochLoad_bad h ha) rfl hc
  case load =>
    have hlock : ∀ y, epochLoadD.lock pk (s.taken pk 1) = some y → (s.taken pk 1).locked y = false :=
      lock_free (taken_keeps (epochLoadD.lock pk) fun _ _ _ => rfl) hfree
    have runs := exec_fits_runs_after fits_epochLoad h (root_here rfl hroot) (epochLoad_bad h ha) (c := .epochLoad pk) rfl hpre hlock
    have hstarts := loadPrepared_starts (s := s.taken pk 1) (s.origin pk) pk (s.blockAt (pk.p64 0) 32)
    rw [taken_orch] at hstarts
    refine ⟨runs.trans ?_, fun hn hsh => hstarts.trans (if_pos ?_), fun i hi hne => hstarts.trans (if_neg ?_)⟩
    · simp only [epochLoadD, blockAt_taken]
      rfl
    · rw [hn, hsh]
      rfl
    · intro hsaid
      exact hne (by simpa using List.all_eq_true.1 hsaid i (List.mem_range.2 hi))
  case memory => exact (exec_requant hw h k none .memory).trans (next_congr (congrArg State.after (bankPart_memory hst hnone)))
  case fails => exact (exec_requant hw h k none .none).trans (next_congr (congrArg State.after (bankPart_fails hst hnone hconv)))
  case noRoom => exact (exec_requant hw h k none .none).trans (next_congr (congrArg State.after (bankPart_no_room hst hnone hconv hroom)))
  case written =>
    exact (exec_requant hw h k none .none).trans (next_congr (congrArg State.after (bankPart_written hst hnone hconv hroom hroot)))
  case variant => exact (exec_requant hw h k (some v) .memory).trans (next_congr (congrArg State.after (varPart_memory hst hx hgo hnew)))
  case failed =>
    rw [rootReady_failed sh hst hd]
    exact failLoad_empties s r.hset r.slot r.detail
  case agreed => exact checkLoad_agreed hst hall (List.all_eq_true.2 fun r hr => decide_eq_true (hsame r hr))
  case differs =>
    obtain ⟨r, hr, hne⟩ := hdiff
    refine checkLoad_differs hst hall (Bool.eq_false_iff.2 fun hsame => hne ?_)
    exact of_decide_eq_true (List.all_eq_true.1 hsame r hr)

end Sys2Proof.Proofs

/-! PROOFS. Bank roles, bank queries and variants (R220, R289, R290, R292, R293, R369). -/

namespace Sys2Proof.Proofs

open Sys2Proof.Machine Sys2Proof.Laws

theorem fits_epochSwitch : Fits epochSwitchD 0x0501 2 rdyRunDrn := ⟨rfl, rfl, rfl, rfl, by decide⟩
theorem fits_epochRefset : Fits epochRefsetD 0x0502 1 rdyRunDrn := ⟨rfl, rfl, rfl, rfl, by decide⟩
theorem fits_epochDrop : Fits epochDropD 0x0503 1 rdyRunDrn := ⟨rfl, rfl, rfl, rfl, by decide⟩
theorem fits_epochVload : Fits epochVloadD 0x0504 1 rdyRunDrn := ⟨rfl, rfl, rfl, rfl, by decide⟩
theorem fits_epochVfree : Fits epochVfreeD 0x0505 1 rdyRunDrn := ⟨rfl, rfl, rfl, rfl, by decide⟩
theorem fits_epochQuery : Fits epochQueryD 0x0506 1 rdyRunDrn := ⟨rfl, rfl, rfl, rfl, by decide⟩

section
variable (s : State) (pk : Pkt) (k : Nat)

theorem refReady_taken (h : Nat) (e : Half) : (s.taken pk k).refReady h e = s.refReady h e := taken_keeps (fun s => s.refReady h e) fun _ _ _ => rfl
theorem anySlot_taken (h : Nat) (e : Half) : (s.taken pk k).anySlot h e = s.anySlot h e := taken_keeps (fun s => s.anySlot h e) fun _ _ _ => rfl
theorem varSlot_taken (h : Nat) (e : Half) : (s.taken pk k).varSlot h e = s.varSlot h e := taken_keeps (fun s => s.varSlot h e) fun _ _ _ => rfl
theorem varHome_taken (h : Nat) (e : Half) (v : Nat) : (s.taken pk k).varHome h e v = s.varHome h e v :=
  taken_keeps (fun s => s.varHome h e v) fun _ _ _ => rfl
theorem varPlace_taken (h j r : Nat) : (s.taken pk k).varPlace h j r = s.varPlace h j r := taken_keeps (fun s => s.varPlace h j r) fun _ _ _ => rfl
theorem slotIn_taken (h : Nat) (st : BankSt) : (s.taken pk k).slotIn h st = s.slotIn h st := taken_keeps (fun s => s.slotIn h st) fun _ _ _ => rfl
theorem switchOf_taken (h : Nat) : (s.taken pk k).switchOf h = s.switchOf h := taken_keeps (fun s => s.switchOf h) fun _ _ _ => rfl
theorem slotEntry_taken (h j : Nat) : (s.taken pk k).slotEntry h j = s.slotEntry h j := taken_keeps (fun s => s.slotEntry h j) fun _ _ _ => rfl

theorem epochSwitch_pre (o : Origin) : epochSwitchD.pre o pk (s.taken pk k) =
    if s.switchOf (epochHead pk) = some .deferred then some (Cpl.of stBusyRetry 0)
    else if (s.incoming (epochHead pk) (epochOf pk)).isNone then some (Cpl.of stWrongState 0) else none :=
  taken_keeps (epochSwitchD.pre o pk) fun _ _ _ => rfl

theorem epochRefset_pre (o : Origin) : epochRefsetD.pre o pk (s.taken pk k) =
    if (s.refReady (epochHead pk) (epochOf pk)).isNone then some (Cpl.of stWrongState 0)
    else if s.refBusy (epochHead pk) then some (Cpl.of stBusyRetry 0) else none := taken_keeps (epochRefsetD.pre o pk) fun _ _ _ => rfl

theorem epochDrop_pre (o : Origin) : epochDropD.pre o pk (s.taken pk k) = epochDropPre pk s := taken_keeps (epochDropD.pre o pk) fun _ _ _ => rfl

theorem epochVload_pre (o : Origin) : epochVloadD.pre o pk (s.taken pk k) = epochVloadD.pre o pk s :=
  taken_keeps (epochVloadD.pre o pk) fun _ _ _ => rfl

theorem epochVfree_pre (o : Origin) : epochVfreeD.pre o pk (s.taken pk k) =
    if (s.varHome (epochHead pk) (epochOf pk) (pk.fld 2 0 6)).isNone then some (Cpl.of stWrongState 0) else none :=
  taken_keeps (epochVfreeD.pre o pk) fun _ _ _ => rfl

end

section
variable {s : State} {pk : Pkt}

theorem epochQuery_bad (h : Starts s pk 0x0506 1 [0x3, all32, all32] rdyRunDrn) (ha : addrOk false (pk.p64 1) = true) :
    epochQueryD.bad pk s = none := by
  simp only [epochQueryD, firstBad, h.clean, ha, Bool.not_true, Bool.false_eq_true, if_false]

theorem epochVload_bad (h : Starts s pk 0x0504 1 [0x3, 0xFFFF, 0x1FFF, all32, all32, all32, all32] rdyRunDrn) (hlow : 1 ≤ pk.fld 2 6 7)
    (hhigh : pk.fld 2 6 7 ≤ 64) (ha : addrOk false (pk.p64 3) = true) (hb : addrOk false (pk.p64 5) = true) : epochVloadD.bad pk s = none := by
  have hrank : ¬ (pk.fld 2 6 7 = 0 ∨ 64 < pk.fld 2 6 7) := by omega
  simp only [epochVloadD, firstBad, h.clean, hrank, ha, hb, Bool.not_true, Bool.or_self, decide_false, Bool.false_eq_true, if_false]

/-- What EPOCH.VLOAD finds of its variant in an unlocked slot, and whether the slot's regions have room. -/
def vloadCheck (room : Bool) : Option Variant → Option Cpl
  | some y => if y.gone then some (Cpl.of stBusyRetry 0) else some (Cpl.of stWrongState 0)
  | none => if room then none else some (Cpl.of stBadParam 0x05)

/-- The variant's entry where EPOCH.VLOAD would put it decides the command's object check. -/
theorem epochVload_pre_slot {k : Nat} (o : Origin) (hk : s.varSlot (epochHead pk) (epochOf pk) = some k)
    (hfree : s.locked (objBank (epochHead pk) k) = false) : epochVloadD.pre o pk s =
      vloadCheck (s.varRoom (epochHead pk) k (pk.fld 2 6 7)) (Tab.find? (s.bank (epochHead pk) k).vars (pk.fld 2 0 6)) := by
  simp only [epochVloadD, hk]
  cases Tab.find? (s.bank (epochHead pk) k).vars (pk.fld 2 0 6) with
  | none => rfl
  | some y => simp only [Option.map_some, Option.getD_some, hfree, Bool.false_or, Option.isSome_some, if_true, vloadCheck]

end

/-- Settles O33: each clause is the command's object check or its effect in the slot that its epoch selects. -/
theorem bankRoleAndVariantCommands : Obligations.BankRoleAndVariantCommands := by
  unfold Obligations.BankRoleAndVariantCommands
  refine ⟨fun s pk hroot => ⟨fun h hdef => ⟨fun hnone => ?noBank, fun hsome hfree => ⟨fun hret => ?deferred, fun hret => ?begins⟩⟩,
      fun h => ⟨fun hnone => ?noRef, fun k hk => ⟨fun hbusy => ?refBusy, fun hidle hfree => ?refset⟩⟩, fun h => ?drop, fun h ha => ?query⟩,
    fun s pk hroot => ⟨fun h hlow hhigh ha hb => ⟨fun hnone => ?noEpoch, fun k hk hfree => ?vload⟩, fun h => ⟨fun hnone => ?noVar, fun k hk hfree => ?vfree⟩⟩⟩
  case noBank =>
    refine exec_fits_pre_after fits_epochSwitch h (root_here rfl hroot) (noBad_of_starts h) rfl ((epochSwitch_pre s pk 2 _).trans ?_)
    rw [if_neg hdef, hnone]
    rfl
  case deferred | begins =>
    have runs := exec_fits_runs_after fits_epochSwitch h (root_here rfl hroot) (noBad_of_starts h) (c := .epochSwitch pk) rfl
      ((epochSwitch_pre s pk 2 (s.origin pk)).trans (by
        rw [if_neg hdef, if_neg (by rw [Option.isNone_iff_eq_none]; exact hsome)])) (lock_free rfl hfree)
    rw [runs]
    simp only [epochSwitchD, slotIn_taken, hret, Option.isSome_iff_ne_none, ne_eq, not_true_eq_false, not_false_eq_true, if_false, if_true]
    rfl
  case noRef =>
    refine exec_fits_pre_after fits_epochRefset h (root_here rfl hroot) (noBad_of_starts h) rfl ((epochRefset_pre s pk 1 _).trans ?_)
    rw [hnone]
    rfl
  case refBusy =>
    refine exec_fits_pre_after fits_epochRefset h (root_here rfl hroot) (noBad_of_starts h) rfl ((epochRefset_pre s pk 1 _).trans ?_)
    rw [hk, hbusy]
    rfl
  case refset =>
    have hlock : ∀ y, epochRefsetD.lock pk (s.taken pk 1) = some y → (s.taken pk 1).locked y = false :=
      lock_free (by simp only [epochRefsetD, refReady_taken, hk, Option.map_some]) hfree
    rw [exec_fits_runs_after fits_epochRefset h (root_here rfl hroot) (noBad_of_starts h) rfl
      ((epochRefset_pre s pk 1 _).trans (by rw [hk, hidle]; rfl)) hlock]
    simp only [epochRefsetD, refReady_taken, hk]
  case drop =>
    have answered {x : Cpl} (hx : epochDropPre pk s = some x) := exec_fits_pre_after fits_epochDrop h (root_here rfl hroot) (noBad_of_starts h)
      (c := .epochDrop pk) rfl ((epochDrop_pre s pk 1 (s.origin pk)).trans hx)
    have runs (hx : epochDropPre pk s = none) := exec_fits_runs_after fits_epochDrop h (root_here rfl hroot) (noBad_of_starts h)
      (c := .epochDrop pk) rfl ((epochDrop_pre s pk 1 (s.origin pk)).trans hx) (no_lock rfl)
    refine ⟨fun hnone => answered ?_, fun k hk => ⟨fun hst => ?_, fun hst => ⟨fun hsw => answered ?_, fun hsw => ?_⟩, fun hst => answered ?_,
      fun hst hbusy => answered ?_, fun hst hidle => ?_⟩⟩
    · simp only [epochDropPre, hnone]
    · rw [runs (by simp only [epochDropPre, hk, hst])]
      simp only [epochDropD, anySlot_taken, hk, bank_taken, hst]
      rfl
    · simp only [epochDropPre, hk, hst, hsw, if_true]
    · rw [runs (by simp only [epochDropPre, hk, hst, hsw, Bool.false_eq_true, if_false])]
      simp only [epochDropD, anySlot_taken, hk, bank_taken, hst]
    · simp only [epochDropPre, hk, hst]
    · simp only [epochDropPre, hk, hst, hbusy, if_true]
    · rw [runs (by simp only [epochDropPre, hk, hst, hidle, Bool.false_eq_true, if_false])]
      simp only [epochDropD, anySlot_taken, hk, bank_taken, hst]
  case query =>
    rw [exec_fits_runs_after fits_epochQuery h (root_here rfl hroot) (epochQuery_bad h ha) rfl rfl (no_lock rfl)]
    simp only [epochQueryD, slotEntry_taken, switchOf_taken]
  case noEpoch =>
    refine exec_fits_pre_after fits_epochVload h (root_here rfl hroot) (epochVload_bad h hlow hhigh ha hb) rfl ((epochVload_pre s pk 1 _).trans ?_)
    simp only [epochVloadD, hnone]
  case vload =>
    have hpre := (epochVload_pre s pk 1 (s.origin pk)).trans (epochVload_pre_slot _ hk hfree)
    have answered {x : Cpl} (hx : _ = some x) := exec_fits_pre_after fits_epochVload h (root_here rfl hroot) (epochVload_bad h hlow hhigh ha hb)
      (c := .epochVload pk) rfl (hpre.trans hx)
    refine ⟨fun y hy hgone => answered ?_, fun y hy hgone => answered ?_, fun hnew hroom => answered ?_, fun hnew hroom => ?_⟩
    · simp only [vloadCheck, hy, hgone, Bool.false_eq_true, if_false]
    · simp only [vloadCheck, hy, hgone, if_true]
    · simp only [vloadCheck, hnew, hroom, Bool.false_eq_true, if_false]
    · have hlock : ∀ y, epochVloadD.lock pk (s.taken pk 1) = some y → (s.taken pk 1).locked y = false :=
        lock_free (by simp only [epochVloadD, varSlot_taken, hk, Option.map_some]) hfree
      rw [exec_fits_runs_after fits_epochVload h (root_here rfl hroot) (epochVload_bad h hlow hhigh ha hb) rfl
        (hpre.trans (by simp only [vloadCheck, hnew, hroom, if_true])) hlock]
      simp only [epochVloadD, varSlot_taken, hk, bank_taken, varPlace_taken]
      refine next_congr (congrArg State.after (congrArg (State.varRoomSaid _ _ _ _) ?_))
      rw [(core_parts (tellMembers_core _ _ _)).1]
      exact congrArg Orch.shard (taken_orch s pk 1)
  case noVar =>
    refine exec_fits_pre_after fits_epochVfree h (root_here rfl hroot) (noBad_of_starts h) rfl ((epochVfree_pre s pk 1 _).trans ?_)
    rw [hnone]
    rfl
  case vfree =>
    have hlock : ∀ y, epochVfreeD.lock pk (s.taken pk 1) = some y → (s.taken pk 1).locked y = false :=
      lock_free (by simp only [epochVfreeD, varHome_taken, hk, Option.map_some]) hfree
    rw [exec_fits_runs_after fits_epochVfree h (root_here rfl hroot) (noBad_of_starts h) rfl
      ((epochVfree_pre s pk 1 _).trans (by rw [hk]; rfl)) hlock]
    simp only [epochVfreeD, varHome_taken, hk, bank_taken]
    rfl

end Sys2Proof.Proofs

/-! PROOFS. Requests, parked contexts and tenants (R193, R254 to R256, R267, R270 to R272, R277, R278, R370 to R372, Table 17.14, Table 17.15). -/

namespace Sys2Proof.Proofs

open Sys2Proof.Machine Sys2Proof.Laws

/-! ## Packets of a request -/

theorem fits_reqOpen : Fits reqOpenD 0x0600 1 rdyRunDrn := ⟨rfl, rfl, rfl, rfl, by decide⟩
theorem fits_reqClose : Fits reqCloseD 0x0601 1 rdyRunDrn := ⟨rfl, rfl, rfl, rfl, by decide⟩
theorem fits_reqCancel : Fits reqCancelD 0x0602 1 rdyRunDrn := ⟨rfl, rfl, rfl, rfl, by decide⟩
theorem fits_reqPark : Fits reqParkD 0x0603 1 rdyRunDrn := ⟨rfl, rfl, rfl, rfl, by decide⟩
theorem fits_reqResume : Fits reqResumeD 0x0604 1 rdyRunDrn := ⟨rfl, rfl, rfl, rfl, by decide⟩
theorem fits_reqRelease : Fits reqReleaseD 0x0605 1 rdyRunDrn := ⟨rfl, rfl, rfl, rfl, by decide⟩
theorem fits_reqQuery : Fits reqQueryD 0x0606 1 rdyRunDrn := ⟨rfl, rfl, rfl, rfl, by decide⟩

/-- A command of a request is decided here by the home of its slot. -/
theorem home_here {s : State} {d : Desc} {pk : Pkt} (h : d.scope pk = .home) (hhome : s.isHome (pk.fld 0 0 16) = true) :
    s.serialiser d pk = s.orch.shard := by
  simp only [State.serialiser, h, home_serialises hhome]

section
variable (s : State) (pk : Pkt) (k : Nat)

theorem slot_taken (n : Nat) : (s.taken pk k).slot n = s.slot n := taken_keeps (fun s => s.slot n) fun _ _ _ => rfl
theorem ctx_taken (n : Nat) : (s.taken pk k).ctx n = s.ctx n := taken_keeps (fun s => s.ctx n) fun _ _ _ => rfl
theorem coreWords_taken (n : Nat) : (s.taken pk k).coreWords n = s.coreWords n := taken_keeps (fun s => s.coreWords n) fun _ _ _ => rfl

theorem reqClose_pre (o : Origin) : reqCloseD.pre o pk (s.taken pk k) = reqCloseD.pre o pk s := taken_keeps (reqCloseD.pre o pk) fun _ _ _ => rfl
theorem reqCancel_pre (o : Origin) : reqCancelD.pre o pk (s.taken pk k) = if s.noReq pk.handle then some (Cpl.of stWrongState 0) else none :=
  taken_keeps (reqCancelD.pre o pk) fun _ _ _ => rfl
theorem reqPark_pre (o : Origin) : reqParkD.pre o pk (s.taken pk k) = reqParkD.pre o pk s := taken_keeps (reqParkD.pre o pk) fun _ _ _ => rfl
theorem reqResume_pre (o : Origin) : reqResumeD.pre o pk (s.taken pk k) = reqResumeD.pre o pk s := taken_keeps (reqResumeD.pre o pk) fun _ _ _ => rfl
theorem reqRelease_pre (o : Origin) : reqReleaseD.pre o pk (s.taken pk k) = reqReleaseD.pre o pk s :=
  taken_keeps (reqReleaseD.pre o pk) fun _ _ _ => rfl
theorem reqQuery_pre (o : Origin) : reqQueryD.pre o pk (s.taken pk k) = if s.noReq pk.handle then some (Cpl.of stWrongState 0) else none :=
  taken_keeps (reqQueryD.pre o pk) fun _ _ _ => rfl

end

section
variable {s : State} {pk : Pkt}

/-- A handle that names a request, with no cancel of it running, leaves the check to the command. -/
theorem reqPre_named {own : Pkt → State → Option Cpl} (o : Origin) (hreq : s.noReq pk.handle = false) (hcanc : (s.ctx pk.handle.slot).canc = false) :
    reqPre own o pk s = own pk s := by
  simp only [reqPre, hreq, hcanc, Bool.false_eq_true, if_false]

theorem reqPre_unnamed {own : Pkt → State → Option Cpl} (o : Origin) (hreq : s.noReq pk.handle = true) :
    reqPre own o pk s = some (Cpl.of stWrongState 0) := by
  simp only [reqPre, hreq, if_true]

theorem reqClose_pre_own (o : Origin) (hreq : s.noReq pk.handle = false) (hcanc : (s.ctx pk.handle.slot).canc = false) : reqCloseD.pre o pk s =
    if s.reqBusy pk.handle.slot then some (Cpl.of stBusyRetry 0) else none := by
  dsimp only [reqCloseD]
  rw [reqPre_named o hreq hcanc]

theorem reqRelease_pre_own (o : Origin) (hreq : s.noReq pk.handle = false) (hcanc : (s.ctx pk.handle.slot).canc = false) : reqReleaseD.pre o pk s =
    if (s.slot pk.handle.slot).rstate ≠ 2 ∨ s.releasable pk.handle.slot = false then some (Cpl.of stWrongState 0) else none := by
  dsimp only [reqReleaseD]
  rw [reqPre_named o hreq hcanc]

/-- The two address words of a request command that names memory. -/
theorem reqOpen_bad (h : Starts s pk 0x0600 1 [0xFFFF, all32, all32] rdyRunDrn) (ha : addrOk false (pk.p64 1) = true) : reqOpenD.bad pk s = none := by
  simp only [reqOpenD, firstBad, h.clean, ha, Bool.not_true, Bool.false_eq_true, if_false]

theorem reqQuery_bad (h : Starts s pk 0x0606 1 [0xFFFFFF, all32, all32] rdyRunDrn) (ha : addrOk false (pk.p64 1) = true) : reqQueryD.bad pk s = none := by
  simp only [reqQueryD, firstBad, h.clean, ha, Bool.not_true, Bool.false_eq_true, if_false]

end

/-! ## Opening and closing -/

theorem openSlot_handle (s : State) (pk : Pkt) :
    (s.openSlot pk).2.1 = { slot := pk.fld 0 0 16, gen := ((s.slot (pk.fld 0 0 16)).gen + 1) % 256 } := by
  unfold State.openSlot
  extract_lets b n gen h s1 s2 ts s3
  split <;> rfl

theorem reqOpen_run_done {s : State} {sh : Nat} {pk : Pkt} {id : RingRef} (hhr : (s.openSlot pk).2.2 = []) :
    reqOpenD.run (.ring id sh) pk s = ((s.openSlot pk).1.tellEach (.ring id sh) pk).finish (.ring id sh) (Cpl.done (w32 (handleNat (s.openSlot pk).2.1)) 0) := by
  simp only [reqOpenD, hhr, List.isEmpty_nil, if_true]

theorem reqOpen_run_waits {s : State} {sh : Nat} {pk : Pkt} {id : RingRef} (hhr : (s.openSlot pk).2.2 ≠ []) :
    reqOpenD.run (.ring id sh) pk s =
      let v := (s.openSlot pk).1.tellEach (.ring id sh) pk
      let hd := (s.openSlot pk).2.1
      ((v.emit ((s.openSlot pk).2.2.map (fun w => promptRec hd (v.ctx hd.slot).kvring w v.now))).addJob
        { origin := .ring id sh, opcode := pk.opcode, kind := .openNotify hd.slot, lock := some (objReq hd.slot) }).pump := by
  have hne : (s.openSlot pk).2.2.isEmpty = false := by rwa [List.isEmpty_eq_false_iff]
  simp only [reqOpenD, hne, Bool.false_eq_true, if_false]

theorem slot_setSlot_self (s : State) (n : Nat) (e : SlotEnt) : (s.setSlot n e).slot n = e := tab_get_set_self _ _ _ _

theorem closeSlot_slots (s : State) (n : Nat) : (s.closeSlot n).slots =
    (((s.dropTent n).freeParts n).setSlot n { ((s.dropTent n).freeParts n).slot n with rstate := 0, lost := false }).slots := by
  unfold State.closeSlot
  generalize (s.dropTent n).freeParts n = t
  dsimp only
  rw [endJobs_slots]
  rfl

/-- A closed request's slot is FREE. -/
theorem closeSlot_free (s : State) (n : Nat) : ((s.closeSlot n).slot n).rstate = 0 := by
  rw [State.slot, closeSlot_slots, ← State.slot, slot_setSlot_self]

/-- Settles O34: each clause is the command's object check or its effect at the home, or at the root for a cancel. -/
theorem requestCommands : Obligations.RequestCommands := by
  unfold Obligations.RequestCommands
  refine fun s pk => ⟨fun hhome => ⟨fun h ha => ⟨fun c hc => ?refused, fun hpre hfree => ⟨?handle, fun hhr => ?opens, fun hhr => ?prompt⟩⟩,
      fun h => ⟨fun hreq => ?noClose, fun hreq hcanc => ⟨fun hbusy => ?busy, fun hidle hfree => ⟨?closes, closeSlot_free _ _⟩⟩⟩,
      fun h hreq hcanc => ⟨fun hno => ?kept, fun hhold hrel hfree => ?released⟩, fun h ha => ⟨fun hreq => ?noQuery, fun hreq => ?query⟩⟩,
    fun h hroot => ⟨fun hreq => ?noCancel, fun hreq hfree => ?cancel⟩, fun h k hw hparity hhops => ?hears⟩
  case refused => exact exec_fits_pre_after fits_reqOpen h (home_here rfl hhome) (reqOpen_bad h ha) rfl hc
  case handle => exact (openSlot_handle _ pk).trans (by rw [slot_taken])
  case opens =>
    rw [exec_fits_runs_after fits_reqOpen h (home_here rfl hhome) (reqOpen_bad h ha) rfl hpre (lock_free rfl hfree), State.origin,
      reqOpen_run_done hhr, openSlot_handle, slot_taken]
  case prompt =>
    rw [exec_fits_runs_after fits_reqOpen h (home_here rfl hhome) (reqOpen_bad h ha) rfl hpre (lock_free rfl hfree), State.origin,
      reqOpen_run_waits hhr, openSlot_handle, slot_taken]
  case noClose =>
    exact exec_fits_pre_after fits_reqClose h (home_here rfl hhome) (noBad_of_starts h) rfl ((reqClose_pre s pk 1 _).trans (by dsimp only [reqCloseD]; exact reqPre_unnamed _ hreq))
  case busy =>
    exact exec_fits_pre_after fits_reqClose h (home_here rfl hhome) (noBad_of_starts h) rfl
      ((reqClose_pre s pk 1 _).trans ((reqClose_pre_own _ hreq hcanc).trans (if_pos hbusy)))
  case closes =>
    exact exec_fits_runs_after fits_reqClose h (home_here rfl hhome) (noBad_of_starts h) rfl
      ((reqClose_pre s pk 1 _).trans ((reqClose_pre_own _ hreq hcanc).trans (if_neg (by rw [hidle]; exact Bool.false_ne_true)))) (lock_free rfl hfree)
  case kept =>
    exact exec_fits_pre_after fits_reqRelease h (home_here rfl hhome) (noBad_of_starts h) rfl
      ((reqRelease_pre s pk 1 _).trans ((reqRelease_pre_own _ hreq hcanc).trans (if_pos hno)))
  case released =>
    have hpass : ¬ ((s.slot pk.handle.slot).rstate ≠ 2 ∨ s.releasable pk.handle.slot = false) := fun hc =>
      hc.elim (fun hne => hne hhold) fun hf => Bool.false_ne_true (hf.symm.trans hrel)
    rw [exec_fits_runs_after fits_reqRelease h (home_here rfl hhome) (noBad_of_starts h) rfl
      ((reqRelease_pre s pk 1 _).trans ((reqRelease_pre_own _ hreq hcanc).trans (if_neg hpass))) (lock_free rfl hfree)]
    simp only [reqReleaseD, slot_taken]
  case noQuery =>
    exact exec_fits_pre_after fits_reqQuery h (home_here rfl hhome) (reqQuery_bad h ha) rfl ((reqQuery_pre s pk 1 _).trans (if_pos hreq))
  case query =>
    rw [exec_fits_runs_after fits_reqQuery h (home_here rfl hhome) (reqQuery_bad h ha) rfl
      ((reqQuery_pre s pk 1 _).trans (if_neg (by rw [hreq]; exact Bool.false_ne_true))) (no_lock rfl)]
    simp only [reqQueryD, slot_taken, coreWords_taken]
  case noCancel =>
    exact exec_fits_pre_after fits_reqCancel h (root_here rfl hroot) (noBad_of_starts h) rfl ((reqCancel_pre s pk 1 _).trans (if_pos hreq))
  case cancel =>
    exact exec_fits_runs_after fits_reqCancel h (root_here rfl hroot) (noBad_of_starts h) rfl
      ((reqCancel_pre s pk 1 _).trans (if_neg (by rw [hreq]; exact Bool.false_ne_true))) (lock_free rfl hfree)
  case hears =>
    refine next_congr ((rowStep_working hw _ _ _).trans ?_)
    rw [ctlSound_ok hparity hhops]
    rfl

/-! ## Parked contexts -/

/-- A parked request's slot is PARKED. -/
theorem park_parked (s : State) (n ttl hint : Nat) : ((s.park n ttl hint).slot n).rstate = 3 := congrArg SlotEnt.rstate (slot_setSlot_self _ _ _)

/-- A part's location word is no page of the pool, and leaves RSTATE. -/
theorem setLoc_pool (s : State) (n part : Nat) (w : W64) : (s.setLoc n part w).pool = s.pool := by
  unfold State.setLoc
  split <;> rfl

theorem setLoc_rstate (s : State) (n part : Nat) (w : W64) : ((s.setLoc n part w).slot n).rstate = (s.slot n).rstate := by
  unfold State.setLoc
  split
  · rw [slot_setSlot_self]
  all_goals rfl

/-- Freeing a part gives back its pages and no others, and leaves RSTATE. -/
theorem freePart_used (s : State) (n part q : Nat) : (s.freePart n part).usedOf n q = if q = part then 0 else s.usedOf n q := by
  unfold State.freePart
  split
  · next hnone => split <;> simp [*]
  · unfold State.usedOf
    rw [setLoc_pool]
    unfold Tab.get
    dsimp only
    rw [tab_find_del]
    by_cases hq : q = part
    · rw [if_pos (by rw [hq]), if_pos hq]
      rfl
    · rw [if_neg (by omega), if_neg hq]

theorem freePart_rstate (s : State) (n part : Nat) : ((s.freePart n part).slot n).rstate = (s.slot n).rstate := by
  unfold State.freePart
  split
  · rfl
  · exact setLoc_rstate _ n part 0

theorem freeParts_used (s : State) (n q : Nat) (hlow : 1 ≤ q) (hhigh : q ≤ 5) : (s.freeParts n).usedOf n q = 0 := by
  simp only [State.freeParts, List.foldl_cons, List.foldl_nil, freePart_used]
  split_ifs with h5 h4 h3 h2 h1
  all_goals first | rfl | omega

theorem freeParts_rstate (s : State) (n : Nat) : ((s.freeParts n).slot n).rstate = (s.slot n).rstate := by
  simp only [State.freeParts, List.foldl_cons, List.foldl_nil, freePart_rstate]

section
variable {s : State} {pk : Pkt}

theorem reqPark_run_plain {id : RingRef} {sh : Nat} (hint : pk.fld 2 0 1 = 0) :
    reqParkD.run (.ring id sh) pk s = ((s.tellEach (.ring id sh) pk).park pk.handle.slot (pk.fld 1 0 24) 0).finish (.ring id sh) (Cpl.done 0 0) := by
  simp only [reqParkD, hint, if_true]

theorem reqResume_pre_own (o : Origin) (hreq : s.noReq pk.handle = false) (hcanc : (s.ctx pk.handle.slot).canc = false) : reqResumeD.pre o pk s =
    if (s.slot pk.handle.slot).rstate = 4 then some (Cpl.of stExpired 0)
    else if (s.slot pk.handle.slot).rstate ≠ 3 then some (Cpl.of stWrongState 0) else none := by
  dsimp only [reqResumeD]
  rw [reqPre_named o hreq hcanc]

theorem reqPark_pre_own (o : Origin) (hreq : s.noReq pk.handle = false) (hcanc : (s.ctx pk.handle.slot).canc = false) : reqParkD.pre o pk s =
    if s.reqBusy pk.handle.slot then some (Cpl.of stBusyRetry 0)
    else if (s.slot pk.handle.slot).rstate ≠ 1 then some (Cpl.of stWrongState 0) else none := by
  dsimp only [reqParkD]
  rw [reqPre_named o hreq hcanc]

theorem now_taken (s : State) (pk : Pkt) (k : Nat) : (s.taken pk k).now = s.now := taken_keeps State.now fun _ _ _ => rfl

end

/-- What the freeing of an expired context leaves. -/
theorem freeExpired_freed {s : State} {n : Nat} (h : (s.slot n).rstate = 4) : Tab.find? (s.freeExpired n).scx n = none ∧
    Tab.find? (s.freeExpired n).counts n = none ∧ (∀ p, 1 ≤ p → p ≤ 5 → (s.freeExpired n).usedOf n p = 0) ∧ ((s.freeExpired n).slot n).rstate = 4 := by
  have hused := freeParts_used s n
  have hst := (freeParts_rstate s n).trans h
  rw [State.freeExpired, if_pos h]
  generalize s.freeParts n = t at hused hst ⊢
  exact ⟨(tab_find_del t.scx n n).trans (if_pos rfl), (tab_find_del t.counts n n).trans (if_pos rfl), hused, hst⟩

/-- Settles O35: each clause is the command's object check, its effect at the home, or what the time does to the context. -/
theorem parkedContexts : Obligations.ParkedContexts := by
  unfold Obligations.ParkedContexts
  refine ⟨fun s pk hhome hreq hcanc => ⟨fun h => ?park, fun h => ?resume⟩,
    fun s n hlive hsafe => ⟨fun hst hdue => ?expires, fun hno => ?waits, fun hst => ?freed, fun hdbl => ?doubled, fun hdbl => ?undoubled⟩⟩
  case park =>
    have hpre := (reqPark_pre s pk 1 (s.origin pk)).trans (reqPark_pre_own _ hreq hcanc)
    have answered {x : Cpl} (hx : _ = some x) := exec_fits_pre_after fits_reqPark h (home_here rfl hhome) (noBad_of_starts h) (c := .reqPark pk) rfl
      (hpre.trans hx)
    refine ⟨fun hbusy => answered (if_pos hbusy), fun hidle hst => answered ?_, fun hidle hst hfree => ?_⟩
    · rw [if_neg (by rw [hidle]; exact Bool.false_ne_true), if_pos hst]
    · have runs := exec_fits_runs_after fits_reqPark h (home_here rfl hhome) (noBad_of_starts h) (c := .reqPark pk) rfl
        (hpre.trans (by rw [if_neg (by rw [hidle]; exact Bool.false_ne_true), if_neg (not_not.2 hst)])) (lock_free rfl hfree)
      refine ⟨fun hint => ⟨runs.trans (next_congr (congrArg State.after (reqPark_run_plain hint))), park_parked _ _ _ _⟩, fun hint => runs.trans ?_⟩
      unfold State.origin
      simp only [reqParkD, hint, one_ne_zero, if_false]
      rfl
  case resume =>
    have hpre := (reqResume_pre s pk 1 (s.origin pk)).trans (reqResume_pre_own _ hreq hcanc)
    have answered {x : Cpl} (hx : _ = some x) := exec_fits_pre_after fits_reqResume h (home_here rfl hhome) (noBad_of_starts h)
      (c := .reqResume pk) rfl (hpre.trans hx)
    refine ⟨fun hst => answered (if_pos hst), fun hst => answered ?_, fun hst hfree => ?_⟩
    · rw [hst]
      rfl
    · have runs := exec_fits_runs_after fits_reqResume h (home_here rfl hhome) (noBad_of_starts h) (c := .reqResume pk) rfl
        (hpre.trans (by rw [hst]; rfl)) (lock_free rfl hfree)
      refine ⟨fun hbefore => runs.trans ?_, fun hpast => runs.trans ?_⟩
      · simp only [reqResumeD, ctx_taken, now_taken, decide_eq_false (Nat.not_le.2 hbefore), Bool.false_eq_true, if_false]
      · simp only [reqResumeD, ctx_taken, now_taken, decide_eq_true hpast, if_true, slot_taken]
  case expires =>
    refine next_congr (if_pos ?_)
    simp [hlive, hsafe, hst, hdue]
  case waits =>
    refine next_congr (if_neg ?_)
    obtain h | h := hno
    · simp [h]
    · simp [Nat.not_le.2 h]
  case freed =>
    exact ⟨_, next_congr (if_pos (by simp [hlive, hsafe])), freeExpired_freed hst⟩
  case doubled | undoubled =>
    refine next_congr ((if_pos (by simp [hlive, hsafe])).trans ?_)
    simp only [State.doubled, hdbl, Bool.false_eq_true, if_false, if_true]

/-! ## Tenants -/

theorem fits_tenSet : Fits tenSetD 0x0700 1 rdyRunDrn := ⟨rfl, rfl, rfl, rfl, by decide⟩
theorem fits_tenQuery : Fits tenQueryD 0x0701 1 rdyRunDrn := ⟨rfl, rfl, rfl, rfl, by decide⟩

section
variable {s : State} {pk : Pkt}

theorem tenant_taken (s : State) (pk : Pkt) (k n : Nat) : (s.taken pk k).tenant n = s.tenant n := taken_keeps (fun s => s.tenant n) fun _ _ _ => rfl

theorem tenSet_bad (h : Starts s pk 0x0700 1 [0xFFFF, 0xFFFFFF, all32] rdyRunDrn) (hb : bitAt (pk.p 0) 14 = true → pk.p 2 ≠ 0) :
    tenSetD.bad pk s = none := by
  have hburst : (bitAt (pk.p 0) 14 && decide (pk.p 2 = 0)) = false := by
    rw [Bool.and_eq_false_imp]
    exact fun hbit => decide_eq_false (hb hbit)
  simp only [tenSetD, firstBad, h.clean, hburst, Bool.not_true, Bool.false_eq_true, if_false]

theorem tenQuery_bad (h : Starts s pk 0x0701 1 [0x1FFF, all32, all32] rdyRunDrn) (ha : addrOk false (pk.p64 1) = true) : tenQueryD.bad pk s = none := by
  simp only [tenQueryD, firstBad, h.clean, ha, Bool.not_true, Bool.false_eq_true, if_false]

/-- The fields that TEN.SET names, each with its effect on an enforced balance (R270). -/
theorem set_fields (t : Tenant) (pk : Pkt) : t.set_ pk =
    let b := if bitAt (pk.p 0) 14 then (pk.p 2).toNat else t.burst
    { t with
      rate := if bitAt (pk.p 0) 13 then pk.fld 1 0 24 else t.rate,
      burst := b,
      limit := if bitAt (pk.p 0) 12 then bitAt (pk.p 0) 15 else t.limit,
      bal := if bitAt (pk.p 0) 12 ∧ bitAt (pk.p 0) 15 ∧ t.limit = false then (b : Int)
        else if bitAt (pk.p 0) 14 ∧ t.limit = true then t.bal + (((pk.p 2).toNat : Int) - (t.burst : Int)) else t.bal } := by
  have hrate : (if bitAt (pk.p 0) 13 then t.setRate (pk.fld 1 0 24) else t) = { t with rate := if bitAt (pk.p 0) 13 then pk.fld 1 0 24 else t.rate } := by
    split <;> rfl
  unfold Tenant.set_
  rw [hrate]
  cases bitAt (pk.p 0) 14 <;> cases bitAt (pk.p 0) 12 <;> cases hl : t.limit <;> simp [Tenant.setBurst, Tenant.setLimit]

end

theorem refill_fields (t : Tenant) : t.refill = { t with
    bal := if t.limit = true ∧ t.bal < (t.burst : Int) then min (t.burst : Int) (t.bal + (t.rate : Int)) else t.bal } := by
  unfold Tenant.refill
  simp only [Bool.and_eq_true, decide_eq_true_eq]
  split <;> rfl

/-- Settles O36: the record is set field by field, stored, or refilled. -/
theorem tenantBudgets : Obligations.TenantBudgets := by
  unfold Obligations.TenantBudgets
  refine ⟨fun s pk hroot => ⟨fun h hb => ?set, fun h ha => ⟨fun hclear => ?keeps, fun hclear => ?clears⟩⟩,
    fun s hw => ⟨fun hroot hnow => ⟨s.refill, next_congr (workStep_working hw _), fun n x hx => ?refills⟩, fun hno => ?idle⟩⟩
  case set =>
    rw [exec_fits_runs_after fits_tenSet h (root_here rfl hroot) (tenSet_bad h hb) rfl rfl (no_lock rfl)]
    simp only [tenSetD, tenant_taken, set_fields]
  case keeps =>
    rw [exec_fits_runs_after fits_tenQuery h (root_here rfl hroot) (tenQuery_bad h ha) rfl rfl (no_lock rfl)]
    simp only [tenQueryD, tenant_taken, hclear, Bool.false_eq_true, if_false]
  case clears =>
    rw [exec_fits_runs_after fits_tenQuery h (root_here rfl hroot) (tenQuery_bad h ha) rfl rfl (no_lock rfl)]
    simp only [tenQueryD, tenant_taken, hclear, if_true]
  case refills =>
    rw [State.refill, if_pos ⟨hroot, hnow⟩]
    dsimp only
    rw [tab_find_mapVals, hx, Option.map_some, refill_fields]
  case idle =>
    refine next_congr ((workStep_working hw _).trans (congrArg State.after (if_neg fun hc => ?_)))
    exact hno.elim (fun hroot => Bool.false_ne_true (hroot.symm.trans hc.1)) fun hnow => hnow hc.2

end Sys2Proof.Proofs

/-! PROOFS. Diagnosis, repairs and captures (R375, R388, R402 to R407, R411, R415, R419 to R422, Table 17.19 to Table 17.21). -/

namespace Sys2Proof.Proofs

open Sys2Proof.Machine Sys2Proof.Laws

/-- A packet that starts but fails a check of its own parameters is answered with BAD_PARAM. -/
theorem exec_fits_fields {c : Instr} {d : Desc} {s : State} {pk : Pkt} {op k x : Nat} {masks : List Nat} {legal : List Blk}
    (hf : Fits d op k legal) (h : Starts s pk op k masks legal) (hc : c.packet? = some (d, pk, false)) (hbad : d.bad pk s = some x) :
    exec c s = .next (s.answers pk k (Cpl.of stBadParam x)) := by
  have hmine (_ : definedOpcode pk.opcode.toNat = true) : pk.opcode.toNat = d.opcode := h.opcode.trans hf.opcode.symm
  have hrej : s.reject d pk = some (Cpl.of stBadParam x) :=
    reject_fields h.kcrc (h.opcode ▸ hf.defined) (fun hblk => h.opcode ▸ starts_safe h hf hblk) hbad
  have ht := starts_takeable h
  have hk := hf.slots
  subst hk
  exact (exec_packet hc s).trans (next_congr (takePacket_answered (starts_atHead h) h.kcrc hmine ht hrej))

/-! ## Diagnosis -/

theorem fits_diagInject : Fits diagInjectD 0x0A00 1 rdyRunDrn := ⟨rfl, rfl, rfl, rfl, by decide⟩
theorem fits_diagSelftest : Fits diagSelftestD 0x0A01 1 rdyRunDrn := ⟨rfl, rfl, rfl, rfl, by decide⟩
theorem fits_diagSnap : Fits diagSnapD 0x0A02 1 allButDump := ⟨rfl, rfl, rfl, rfl, by decide⟩
theorem fits_diagTrace : Fits diagTraceD 0x0A03 1 allButDump := ⟨rfl, rfl, rfl, rfl, by decide⟩

section
variable {s : State} {pk : Pkt}

theorem inject_bad (h : Starts s pk 0x0A00 1 [0xFFFF, all32] rdyRunDrn) (hlow : 1 ≤ pk.fld 0 0 8) (hhigh : pk.fld 0 0 8 ≤ 0x10) :
    diagInjectD.bad pk s = if injParam (pk.fld 0 0 8) (pk.p 1).toNat = true ∨ injDisarm pk = true then none else some 0 := by
  have htarget : injTarget (pk.fld 0 0 8) = true := decide_eq_true ⟨hlow, hhigh⟩
  simp only [diagInjectD, firstBad, h.clean, htarget, Bool.not_true, Bool.false_eq_true, if_false]
  cases injParam (pk.fld 0 0 8) (pk.p 1).toNat <;> cases injDisarm pk <;> rfl

theorem injFatal_iff {t : Nat} (hhigh : t ≤ 0x10) : injFatal t = true ↔ 0x0F ≤ t := by
  simp only [injFatal, decide_eq_true_eq]
  omega

/-- An injection is armed or disarmed where its enables are set. -/
theorem inject_pre (o : Origin) (hhigh : pk.fld 0 0 8 ≤ 0x10) (hen : s.dbg.injen = true) (hfatal : pk.fld 0 0 8 < 0x0F ∨ s.dbg.injfatal = true) :
    diagInjectD.pre o pk (s.taken pk 1) = none := by
  refine (taken_keeps (diagInjectD.pre o pk) fun _ _ _ => rfl).trans (if_neg ?_)
  rintro (hoff | ⟨hf, hoff⟩)
  · exact Bool.false_ne_true (hoff.symm.trans hen)
  · have hle := (injFatal_iff hhigh).1 hf
    exact hfatal.elim (fun hlt => absurd hle (Nat.not_le.2 hlt)) fun hon => Bool.false_ne_true (hoff.symm.trans hon)

theorem diagSnap_bad (h : Starts s pk 0x0A02 1 [all32, all32] allButDump) (ha : addrOk false (pk.p64 0) = true) : diagSnapD.bad pk s = none := by
  simp only [diagSnapD, firstBad, h.clean, ha, Bool.not_true, Bool.false_eq_true, if_false]

end

/-- Settles O38: each clause is the command's check or its effect. -/
theorem diagnosisCommands : Obligations.DiagnosisCommands := by
  unfold Obligations.DiagnosisCommands
  refine fun s pk => ⟨fun h hlow hhigh => ⟨fun hrange => ?range, fun hrange hoff => ?off, fun hparam hen hfatal hnot => ?arms,
      fun hen hfatal hcount hparam => ?disarms⟩, fun h hfree => ?selftest, fun h ha => ?snap, fun h => ?trace⟩
  case range =>
    refine exec_fits_fields fits_diagInject h rfl ((inject_bad h hlow hhigh).trans (if_neg ?_))
    rwa [injDisarm, decide_eq_true_eq]
  case off =>
    have hbad : diagInjectD.bad pk s = none := (inject_bad h hlow hhigh).trans (if_pos (by rwa [injDisarm, decide_eq_true_eq]))
    refine exec_fits_pre fits_diagInject h rfl hbad rfl ((taken_keeps (diagInjectD.pre _ pk) fun _ _ _ => rfl).trans (if_pos ?_))
    exact hoff.imp_right fun hf => ⟨(injFatal_iff hhigh).2 hf.1, hf.2⟩
  case arms =>
    have hno : injDisarm pk = false := decide_eq_false fun hc => hnot.elim (fun hne => hne hc.1) fun hne => hne hc.2
    rw [exec_fits_runs fits_diagInject h rfl ((inject_bad h hlow hhigh).trans (if_pos (.inl hparam))) rfl (inject_pre _ hhigh hen hfatal) (no_lock rfl)]
    simp only [diagInjectD, hno, Bool.false_eq_true, if_false, taken_faults]
  case disarms =>
    have hyes : injDisarm pk = true := decide_eq_true ⟨hcount, hparam⟩
    rw [exec_fits_runs fits_diagInject h rfl ((inject_bad h hlow hhigh).trans (if_pos (.inr hyes))) rfl (inject_pre _ hhigh hen hfatal) (no_lock rfl)]
    simp only [diagInjectD, hyes, if_true, taken_faults]
  case selftest => exact exec_fits_runs fits_diagSelftest h rfl (noBad_of_starts h) rfl rfl (lock_free rfl hfree)
  case snap =>
    rw [exec_fits_runs fits_diagSnap h rfl (diagSnap_bad h ha) rfl rfl (no_lock rfl)]
    simp only [diagSnapD, List.length_map]
  case trace => exact exec_fits_runs fits_diagTrace h rfl (noBad_of_starts h) rfl rfl (no_lock rfl)

/-! ## Repairs -/

theorem fits_repairLoad : Fits repairLoadD 0x0B00 1 [.ready, .run] := ⟨rfl, rfl, rfl, rfl, by decide⟩
theorem fits_repairCommit : Fits repairCommitD 0x0B01 1 [.ready] := ⟨rfl, rfl, rfl, rfl, by decide⟩
theorem fits_repairQuery : Fits repairQueryD 0x0B02 1 rdyRunDrn := ⟨rfl, rfl, rfl, rfl, by decide⟩
theorem fits_repairCal : Fits repairCalD 0x0B03 1 rdyRunDrn := ⟨rfl, rfl, rfl, rfl, by decide⟩

section
variable {s : State} {pk : Pkt}

theorem unburned_taken (s : State) (pk : Pkt) (k : Nat) : (s.taken pk k).unburned = s.unburned := taken_keeps State.unburned fun _ _ _ => rfl

theorem overlayImage_taken (s : State) (pk : Pkt) (k : Nat) : (s.taken pk k).overlayImage = s.overlayImage :=
  taken_keeps State.overlayImage fun _ _ _ => rfl

theorem repairLoad_bad (h : Starts s pk 0x0B00 1 [all32, all32, all32] [.ready, .run]) (ha : addrOk false (pk.p64 0) = true) :
    repairLoadD.bad pk s = none := by
  simp only [repairLoadD, firstBad, h.clean, ha, Bool.not_true, Bool.false_eq_true, if_false]

theorem repairCommit_bad (h : Starts s pk 0x0B01 1 [all32] [.ready]) :
    repairCommitD.bad pk s = if pk.p 0 = 0x46495845 then none else some 0 := by
  by_cases hkey : pk.p 0 = 0x46495845
  · simp only [repairCommitD, firstBad, h.clean, hkey, Bool.not_true, Bool.false_eq_true, if_false, if_true, ne_eq, not_true_eq_false, decide_false]
  · simp only [repairCommitD, firstBad, h.clean, hkey, Bool.not_true, Bool.false_eq_true, if_false, if_true, ne_eq, not_false_eq_true, decide_true]

theorem repairCommit_pre (s : State) (o : Origin) (pk : Pkt) (k : Nat) : repairCommitD.pre o pk (s.taken pk k) =
    if (s.rep.field.filter (fun w => w = 0)).length < s.unburned.length then some (Cpl.of stNoSpace 0) else none :=
  taken_keeps (repairCommitD.pre o pk) fun _ _ _ => rfl

theorem repairQuery_bad (h : Starts s pk 0x0B02 1 [all32, all32] rdyRunDrn) (ha : addrOk false (pk.p64 0) = true) : repairQueryD.bad pk s = none := by
  simp only [repairQueryD, firstBad, h.clean, ha, Bool.not_true, Bool.false_eq_true, if_false]

theorem repairCal_bad (h : Starts s pk 0x0B03 1 [all32, all32] rdyRunDrn) (ha : addrOk false (pk.p64 0) = true) : repairCalD.bad pk s = none := by
  simp only [repairCalD, firstBad, h.clean, ha, Bool.not_true, Bool.false_eq_true, if_false]

/-- The fixed fields of a calibration block: magic, version and the bits that carry no field. -/
def CalFrame (m : Memory) (k : Nat) : Prop :=
  m.word k = 0x4C41434A ∧ m.word (k + 4) = 1 ∧ bitsAt (m.word (k + 8)) 5 27 = 0 ∧ bitsAt (m.word (k + 0x14)) 24 8 = 0 ∧
    bitsAt (m.word (k + 0x2C)) 8 24 = 0 ∧ m.word (k + 0x38) = 0

/-- A version word of 1 is version 1 with its upper half clear. -/
theorem version_one (w : Word) : (bitsAt w 0 16 = 1 ∧ bitsAt w 16 16 = 0) ↔ w = 1 := by
  constructor
  · rintro ⟨hlow, hhigh⟩
    apply BitVec.eq_of_toNat_eq
    have hlt := w.isLt
    simp only [bitsAt, Nat.shiftRight_eq_div_pow] at hlow hhigh
    show w.toNat = 1
    omega
  · rintro rfl
    decide

/-- The checks of a calibration block, in their order. -/
def calCheck (m : Memory) (k : Nat) (c : Cal) : Option Cpl :=
  firstCpl [
    (m.bad k 64, Cpl.of stFault 0x03),
    (decide (m.word (k + 0x3C) ≠ crc32c (m.bytes k 0x3C)), Cpl.of stBadParam 0x02),
    (decide (m.word k ≠ 0x4C41434A ∨ bitsAt (m.word (k + 4)) 0 16 ≠ 1 ∨ bitsAt (m.word (k + 4)) 16 16 ≠ 0
      ∨ bitsAt (m.word (k + 8)) 5 27 ≠ 0 ∨ bitsAt (m.word (k + 0x14)) 24 8 ≠ 0
      ∨ bitsAt (m.word (k + 0x2C)) 8 24 ≠ 0 ∨ m.word (k + 0x38) ≠ 0) || !c.ok, Cpl.of stBadParam 0)]

section
variable {m : Memory} {k : Nat} {c : Cal}

theorem calCheck_unread (hbad : m.bad k 64 = true) : calCheck m k c = some (Cpl.of stFault 0x03) := by
  simp only [calCheck, firstCpl, hbad, if_true]

variable (hbad : m.bad k 64 = false)
include hbad

theorem calCheck_crc (hcrc : m.word (k + 0x3C) ≠ crc32c (m.bytes k 0x3C)) : calCheck m k c = some (Cpl.of stBadParam 0x02) := by
  simp only [calCheck, firstCpl, hbad, hcrc, Bool.false_eq_true, if_false, ne_eq, not_false_eq_true, decide_true, if_true]

variable (hcrc : m.word (k + 0x3C) = crc32c (m.bytes k 0x3C))
include hcrc

theorem calCheck_passes (hframe : CalFrame m k) (hok : c.ok = true) : calCheck m k c = none := by
  obtain ⟨hmagic, hversion, h8, h14, h2c, h38⟩ := hframe
  obtain ⟨hlow, hhigh⟩ := (version_one _).2 hversion
  simp only [calCheck, firstCpl, hbad, hcrc, hmagic, hlow, hhigh, h8, h14, h2c, h38, hok, Bool.false_eq_true, if_false, ne_eq, not_true_eq_false,
    or_self, decide_false, Bool.not_true, Bool.or_self]

theorem calCheck_refuses (hno : CalFrame m k → c.ok = false) : calCheck m k c = some (Cpl.of stBadParam 0) := by
  have hlast : (decide (m.word k ≠ 0x4C41434A ∨ bitsAt (m.word (k + 4)) 0 16 ≠ 1 ∨ bitsAt (m.word (k + 4)) 16 16 ≠ 0
      ∨ bitsAt (m.word (k + 8)) 5 27 ≠ 0 ∨ bitsAt (m.word (k + 0x14)) 24 8 ≠ 0
      ∨ bitsAt (m.word (k + 0x2C)) 8 24 ≠ 0 ∨ m.word (k + 0x38) ≠ 0) || !c.ok) = true := by
    rw [Bool.or_eq_true, decide_eq_true_eq, Bool.not_eq_true']
    by_contra hall
    simp only [not_or, not_not, ne_eq] at hall
    obtain ⟨⟨hmagic, hlow, hhigh, h8, h14, h2c, h38⟩, hok⟩ := hall
    exact hok (hno ⟨hmagic, (version_one _).1 ⟨hlow, hhigh⟩, h8, h14, h2c, h38⟩)
  simp only [calCheck, firstCpl, hbad, hcrc, hlast, Bool.false_eq_true, if_false, ne_eq, not_true_eq_false, decide_false, if_true]

end

theorem repairCal_run_refused (o : Origin) {u : State} {x : Cpl}
    (hc : calCheck u.mem (addrKey (pk.p64 0)) (calOf u.mem (addrKey (pk.p64 0)) (u.rep.pendCal.getD u.rep.cal)) = some x) :
    repairCalD.run o pk u = u.finish o x := by
  unfold calCheck at hc
  simp only [repairCalD, hc]

theorem repairCal_run_taken (o : Origin) {u : State} {c : Cal}
    (hcal : calOf u.mem (addrKey (pk.p64 0)) (u.rep.pendCal.getD u.rep.cal) = c) (hc : calCheck u.mem (addrKey (pk.p64 0)) c = none) :
    repairCalD.run o pk u = (if u.blk = .ready then { u with rep := { u.rep with cal := c } }
      else { u with rep := { u.rep with pendCal := some c } } : State).finish o (Cpl.done 0 0) := by
  unfold calCheck at hc
  simp only [repairCalD, hcal, hc]

end

/-- Settles O39: each clause is the command's check or its effect, at once in READY and at the boundary elsewhere. -/
theorem repairCommands : Obligations.RepairCommands := by
  unfold Obligations.RepairCommands
  refine fun s pk hfree => ⟨fun h ha => ?load, fun h => ?commit, fun h ha => ?query, fun h ha => ?cal⟩
  case load =>
    have runs := exec_fits_runs fits_repairLoad h rfl (repairLoad_bad h ha) (c := .repairLoad pk) rfl rfl (lock_free rfl hfree)
    refine ⟨fun c hc => ?_, fun es hes => ⟨fun hblk => ?_, fun hblk => ?_⟩⟩
    · rw [runs]
      simp only [repairLoadD, hc, State.answers]
    · rw [runs]
      simp only [repairLoadD, hes, taken_blk, hblk, if_true]
    · rw [runs]
      simp only [repairLoadD, hes, taken_blk, hblk, reduceCtorEq, if_false]
  case commit =>
    refine ⟨fun hkey => exec_fits_fields fits_repairCommit h rfl ((repairCommit_bad h).trans (if_neg hkey)), fun hkey hfull => ?_,
      fun hkey hroom => ⟨?_, burn_len _ _, burn_mem _ _ hroom, burn_keep _ _⟩⟩
    · exact exec_fits_pre fits_repairCommit h rfl ((repairCommit_bad h).trans (if_pos hkey)) rfl ((repairCommit_pre s _ pk 1).trans (if_pos hfull))
    · rw [exec_fits_runs fits_repairCommit h rfl ((repairCommit_bad h).trans (if_pos hkey)) rfl
        ((repairCommit_pre s _ pk 1).trans (if_neg (Nat.not_lt.2 hroom))) (lock_free rfl hfree)]
      simp only [repairCommitD, unburned_taken, taken_rep]
  case query =>
    rw [exec_fits_runs fits_repairQuery h rfl (repairQuery_bad h ha) rfl rfl (no_lock rfl)]
    simp only [repairQueryD, overlayImage_taken]
  case cal =>
    have runs := exec_fits_runs fits_repairCal h rfl (repairCal_bad h ha) (c := .repairCal pk) rfl rfl (lock_free rfl hfree)
    have refused {x : Cpl} (hx : calCheck s.mem (addrKey (pk.p64 0)) (calOf s.mem (addrKey (pk.p64 0)) (s.rep.pendCal.getD s.rep.cal)) = some x) :
        exec (.repairCal pk) s = .next (s.answers pk 1 x) := runs.trans (next_congr (repairCal_run_refused _ (by rwa [taken_mem, taken_rep])))
    refine ⟨fun hbad => refused (calCheck_unread hbad), fun hbad hcrc => refused (calCheck_crc hbad hcrc), fun hbad hcrc => ⟨fun hno => refused ?_,
      fun hok hmagic hversion h8 h14 h2c h38 => ?_⟩⟩
    · refine calCheck_refuses hbad hcrc fun ⟨hmagic, hversion, h8, h14, h2c, h38⟩ => ?_
      simpa [hmagic, hversion, h8, h14, h2c, h38] using hno
    · have htaken := repairCal_run_taken (pk := pk) (u := s.taken pk 1) (s.origin pk) (by rw [taken_mem, taken_rep])
        ((congrArg (fun m => calCheck m _ _) (taken_mem s pk 1)).trans (calCheck_passes hbad hcrc ⟨hmagic, hversion, h8, h14, h2c, h38⟩ hok))
      refine ⟨fun hblk => runs.trans (next_congr (htaken.trans ?_)), fun hblk => runs.trans (next_congr (htaken.trans ?_))⟩
      · rw [if_pos ((taken_blk s pk 1).trans hblk)]
      · rw [if_neg (by rwa [taken_blk])]

/-! ## Captures -/

theorem fits_dumpConfig : Fits dumpConfigD 0x0C00 1 rdyRunDrn := ⟨rfl, rfl, rfl, rfl, by decide⟩
theorem fits_dumpStatus : Fits dumpStatusD 0x0C01 1 allStates := ⟨rfl, rfl, rfl, rfl, by decide⟩
theorem fits_dumpTake : Fits dumpTakeD 0x0C02 1 [.ready] := ⟨rfl, rfl, rfl, rfl, by decide⟩
theorem fits_dumpAck : Fits dumpAckD 0x0C03 1 [.ready, .safe] := ⟨rfl, rfl, rfl, rfl, by decide⟩

section
variable {s : State} {pk : Pkt}

theorem dumpConfig_bad (h : Starts s pk 0x0C00 1 [all32, all32, 0x7F] rdyRunDrn) (ha : addrOk true (pk.p64 0) = true) (hlow : 2 ≤ pk.fld 2 0 7)
    (hhigh : pk.fld 2 0 7 ≤ 64) : dumpConfigD.bad pk s = none := by
  have hsize : ¬ (pk.fld 2 0 7 < 2 ∨ 64 < pk.fld 2 0 7) := by omega
  simp only [dumpConfigD, firstBad, h.clean, ha, hsize, decide_false, Bool.not_true, Bool.false_eq_true, if_false]

theorem dumpConfig_pre (s : State) (o : Origin) (pk : Pkt) (k : Nat) : dumpConfigD.pre o pk (s.taken pk k) =
    if s.wind.held ∧ s.wind.acked = false then some (Cpl.of stWrongState 0) else none := taken_keeps (dumpConfigD.pre o pk) fun _ _ _ => rfl

theorem dumpTake_pre (s : State) (o : Origin) (pk : Pkt) (k : Nat) : dumpTakeD.pre o pk (s.taken pk k) =
    if s.wind.region.isNone then some (Cpl.of stBadParam 0x05) else none := taken_keeps (dumpTakeD.pre o pk) fun _ _ _ => rfl

theorem dumpAck_pre (s : State) (o : Origin) (pk : Pkt) (k : Nat) : dumpAckD.pre o pk (s.taken pk k) =
    if s.wind.running ∨ s.wind.held = false then some (Cpl.of stWrongState 0) else none := taken_keeps (dumpAckD.pre o pk) fun _ _ _ => rfl

/-- A capture is held that is not acknowledged. -/
theorem not_kept {w : Windfall} (h : w.held = false ∨ w.acked = true) : ¬ (w.held = true ∧ w.acked = false) := by
  rintro ⟨hheld, hacked⟩
  exact h.elim (fun hf => Bool.false_ne_true (hf.symm.trans hheld)) fun ht => Bool.false_ne_true (hacked.symm.trans ht)

end

/-- The region's header as DUMP.CONFIG reads it: intact, and not acknowledged (R405). -/
def headerHeld (w : Nat → Word) : Bool :=
  decide (w 0 = 0x4C464457) && decide (w 15 = crcWords ((List.range 15).map w)) && decide (bitsAt (w 2) 12 2 ≠ 0) && !bitAt (w 2) 14
    && decide (bitsAt (w 2) 15 17 = 0 ∧ w 12 = 0 ∧ w 13 = 0)

/-- The capture state that DUMP.CONFIG leaves for a region. -/
def configured (rg : Region) (w : Nat → Word) : Windfall :=
  if headerHeld w then
    { Windfall.reset with
      region := some rg, held := true, manual := bitAt (w 2) 11, cause := bitsAt (w 2) 0 8, prior := bitsAt (w 2) 8 3, status := bitsAt (w 2) 12 2,
      written := (w 9).toNat, skipped := bitsAt (w 11) 0 16, trig := (join64 (w 6) (w 7)).toNat }
  else { Windfall.reset with region := some rg }

theorem configured_fields (rg : Region) (w : Nat → Word) : (configured rg w).region = some rg ∧ (configured rg w).running = false ∧
    (w 0 ≠ 0x4C464457 → (configured rg w).held = false) := by
  unfold configured
  split
  · next hheld =>
    simp only [headerHeld, Bool.and_eq_true, decide_eq_true_eq] at hheld
    exact ⟨rfl, rfl, fun hne => absurd hheld.1.1.1.1 hne⟩
  · exact ⟨rfl, rfl, fun _ => rfl⟩

theorem dumpConfig_run (o : Origin) (pk : Pkt) {u : State} {m : Memory} (hm : u.mem = m) : dumpConfigD.run o pk u =
    ({ u with wind := configured { base := pk.p64 0, len := 2 ^ 20 * pk.fld 2 0 7 } (fun i => m.word (addrKey (pk.p64 0) + 4 * i)) } : State).finish o
      (Cpl.done 0 0) := by
  subst hm
  rfl

/-- DUMP.CONFIG takes the region of its packet. -/
theorem dumpConfig_takes (o : Origin) (pk : Pkt) {u : State} {m : Memory} (hm : u.mem = m) :
    ∃ w : Windfall, dumpConfigD.run o pk u = ({ u with wind := w } : State).finish o (Cpl.done 0 0) ∧
      w.region = some { base := pk.p64 0, len := 2 ^ 20 * pk.fld 2 0 7 } ∧ w.running = false ∧
      (m.word (addrKey (pk.p64 0)) ≠ 0x4C464457 → w.held = false) := by
  have hrun := dumpConfig_run o pk hm
  obtain ⟨hregion, hstop, hheld⟩ :=
    configured_fields { base := pk.p64 0, len := 2 ^ 20 * pk.fld 2 0 7 } (fun i => m.word (addrKey (pk.p64 0) + 4 * i))
  rw [Nat.mul_zero, Nat.add_zero] at hheld
  generalize configured _ _ = w at hrun hregion hstop hheld
  exact ⟨w, hrun, hregion, hstop, hheld⟩

/-! ### The end of a capture -/

theorem setCause_wind (s : State) (b : Nat) : (s.setCause b).wind = s.wind := by
  simp [State.setCause, State.setCause1, State.refresh]

theorem finish_wind (s : State) (o : Origin) (c : Cpl) : (s.finish o c).wind = s.wind := by
  unfold State.finish State.complete
  cases o <;> simp [State.sendTo]

theorem endJobs_wind (s : State) (p : Job → Bool) (c : Job → Cpl) : (s.endJobs p c).wind = s.wind :=
  foldl_keeps (g := State.wind) (f := fun (s : State) (j : Job) => s.finish j.origin (c j)) (fun _ _ => finish_wind _ _ _) (s.jobs.filter p)
    { s with jobs := s.jobs.filter (fun j => !p j) }

/-- The state in which a capture's region is written and its status final, before the cause is set. -/
def windWritten (s : State) (rg : Region) (err : Bool) : State :=
  if err then
    let s1 : State := { s with wind := { s.wind with status := 3, written := 4096, running := false, held := true } }
    s1.storeWords (addrKey rg.base) (s1.windHeader rg.len 4096 3 0 [])
  else
    let x := s.sections rg.len 10 4096
    let st := if x.2.2.2 then 2 else 1
    let s1 : State := { s with wind := { s.wind with status := st, written := x.2.2.1, running := false, held := true } }
    (s1.storeWords (addrKey rg.base + 4096) x.1).storeWords (addrKey rg.base) (s1.windHeader rg.len x.2.2.1 st (crcWords x.1) x.2.1)

theorem windWritten_fields (s : State) (rg : Region) (err : Bool) : (windWritten s rg err).blk = s.blk ∧ (windWritten s rg err).wind.running = false ∧
    (windWritten s rg err).wind.held = true ∧ (err = true → (windWritten s rg err).wind.status = 3) ∧
    (err = false → (windWritten s rg err).wind.status = 1 ∨ (windWritten s rg err).wind.status = 2) := by
  unfold windWritten
  generalize s.sections rg.len 10 4096 = x
  obtain ⟨ws, dir, e, cut⟩ := x
  cases err with
  | true => exact ⟨rfl, rfl, rfl, fun _ => rfl, fun h => absurd h Bool.false_ne_true.symm⟩
  | false =>
    cases cut with
    | false => exact ⟨rfl, rfl, rfl, fun h => absurd h Bool.false_ne_true, fun _ => .inl rfl⟩
    | true => exact ⟨rfl, rfl, rfl, fun h => absurd h Bool.false_ne_true, fun _ => .inr rfl⟩

theorem windEnd_eq {s : State} {rg : Region} (hrg : s.wind.region = some rg) (hblk : s.blk = .dump) (err : Bool) : s.windEnd err =
    ({ (windWritten s rg err).setCause cDump with blk := .ready } : State).endJobs (fun j => decide (j.kind = JobKind.dumpTake)) (fun _ => Cpl.done 0 0) := by
  have hdump : ((windWritten s rg err).setCause cDump).blk = .dump := by
    rw [(core_parts (setCause_core _ _)).2.2.1]
    exact (windWritten_fields s rg err).1.trans hblk
  unfold State.windEnd
  unfold windWritten at hdump ⊢
  split
  · next hnone => exact absurd (hnone.symm.trans hrg) (by simp)
  · next rg' hsome =>
    obtain rfl := Option.some.inj (hsome.symm.trans hrg)
    generalize s.sections rg'.len 10 4096 = x at hdump ⊢
    obtain ⟨ws, dir, e, cut⟩ := x
    exact if_pos hdump

/-- A capture's end: its region's words are written and the cause set, and from DUMP the block returns to READY. -/
theorem windEnd_fields {s : State} {rg : Region} (hrg : s.wind.region = some rg) (hblk : s.blk = .dump) (err : Bool) :
    (s.windEnd err).blk = .ready ∧ (s.windEnd err).wind.running = false ∧ (s.windEnd err).wind.held = true ∧
      (err = true → (s.windEnd err).wind.status = 3) ∧ (err = false → (s.windEnd err).wind.status = 1 ∨ (s.windEnd err).wind.status = 2) := by
  have hwritten := (windWritten_fields s rg err).2
  rw [windEnd_eq hrg hblk]
  generalize windWritten s rg err = t at hwritten ⊢
  have hwind : (({ t.setCause cDump with blk := .ready } : State).endJobs (fun j => decide (j.kind = JobKind.dumpTake)) (fun _ => Cpl.done 0 0)).wind
      = t.wind := (endJobs_wind _ _ _).trans (setCause_wind t cDump)
  rw [hwind]
  exact ⟨(core_parts (endJobs_core _ _ _)).2.2.1, hwritten⟩

/-- Settles O40: each clause is the command's check or its effect, and a capture's end is `windEnd_fields`. -/
theorem windfallCommands : Obligations.WindfallCommands := by
  unfold Obligations.WindfallCommands
  refine ⟨fun s pk => ⟨fun h ha hlow hhigh => ⟨fun hheld hacked => ?kept, fun hgone hfree => ?config⟩, fun h => ?status,
      fun h => ⟨fun hnone => ?noRegion, fun hsome hfree hgone => ?take⟩, fun h => ⟨fun hno => ?noAck, fun hrun hheld rg hrg => ?ack⟩⟩,
    fun s err hlive => ⟨fun hrun => ?idle, fun hrun hsome hblk => ?ends⟩⟩
  case kept =>
    exact exec_fits_pre fits_dumpConfig h rfl (dumpConfig_bad h ha hlow hhigh) rfl ((dumpConfig_pre s _ pk 1).trans (if_pos ⟨hheld, hacked⟩))
  case config =>
    have runs := exec_fits_runs fits_dumpConfig h rfl (dumpConfig_bad h ha hlow hhigh) (c := .dumpConfig pk) rfl
      ((dumpConfig_pre s (s.origin pk) pk 1).trans (if_neg (not_kept hgone))) (lock_free rfl hfree)
    obtain ⟨w, hw, hfields⟩ := dumpConfig_takes (s.origin pk) pk (taken_mem s pk 1)
    exact ⟨w, runs.trans (next_congr hw), hfields⟩
  case status =>
    rw [exec_fits_runs fits_dumpStatus h rfl (noBad_of_starts h) rfl rfl (no_lock rfl)]
    simp only [dumpStatusD, taken_wind, State.answers]
  case noRegion =>
    exact exec_fits_pre fits_dumpTake h rfl (noBad_of_starts h) rfl ((dumpTake_pre s _ pk 1).trans (if_pos (by rw [hnone]; rfl)))
  case take =>
    rw [exec_fits_runs fits_dumpTake h rfl (noBad_of_starts h) rfl
      ((dumpTake_pre s _ pk 1).trans (if_neg (by rwa [Option.isNone_iff_eq_none]))) (lock_free rfl hfree)]
    simp only [dumpTakeD, taken_wind, taken_blk, if_neg (not_kept hgone)]
  case noAck =>
    exact exec_fits_pre fits_dumpAck h rfl (noBad_of_starts h) rfl ((dumpAck_pre s _ pk 1).trans (if_pos hno))
  case ack =>
    have hpass : ¬ (s.wind.running = true ∨ s.wind.held = false) := by simp [hrun, hheld]
    rw [exec_fits_runs fits_dumpAck h rfl (noBad_of_starts h) rfl ((dumpAck_pre s _ pk 1).trans (if_neg hpass)) (no_lock rfl)]
    simp only [dumpAckD, taken_wind, taken_mem, hrg]
  case idle => exact next_congr (if_neg (by simp [hrun]))
  case ends =>
    obtain ⟨rg, hrg⟩ := Option.ne_none_iff_exists'.1 hsome
    exact ⟨_, next_congr (if_pos (by simp [hlive, hrun])), windEnd_fields hrg hblk err⟩

end Sys2Proof.Proofs

/-! PROOFS. Boot, power, the time base and the sensors, and the self-test in the field: O42, O43, O44, O60. -/

namespace Sys2Proof.Proofs

open Sys2Proof.Machine Sys2Proof.Laws

/-! ## Commands that act under a condition -/

theorem next_pos {c : Prop} [Decidable c] {a b : State} (h : c) : (.next (if c then a else b) : Host.Outcome State Fault Refusal) = .next a :=
  next_congr (if_pos h)

theorem next_neg {c : Prop} [Decidable c] {a b : State} (h : ¬ c) : (.next (if c then a else b) : Host.Outcome State Fault Refusal) = .next b :=
  next_congr (if_neg h)

/-- A live instance has a clock, is not held, and has its array's clock. -/
theorem live_parts {s : State} (h : s.live = true) : s.pwr.clkFail = false ∧ s.quar = false ∧ 2 ≤ s.pwr.cur := by
  simpa [State.live, and_assoc] using h

/-! ## Boot -/

theorem bootImage_eq (s : State) : s.bootImage = if fwCheck s.mem s.fwBase = 0 then
      { s with blk := .selftest, boot := { step := 6, fail := false, check := 0, fwrel := s.mem.word (addrKey s.fwBase + 8) } }
    else { s with boot := { s.boot with step := 5, fail := true, check := fwCheck s.mem s.fwBase } } := by
  unfold State.bootImage
  cases fwCheck s.mem s.fwBase with
  | zero => rfl
  | succ c => rfl

theorem selftested_clean {s : State} (h : s.blk = .selftest) : s.selftested []
    = (({ s with blk := .ready, boot := { s.boot with step := 8 }, lanes := lanesSeed s.baseSeed 0 } : State).unitBoundary).ownState 2 := by
  unfold State.selftested
  exact if_neg (not_not_intro h)

/-- Settles O42: GO runs the image check where the boot waits for it, and a self-test that names no unit repairs nothing. -/
theorem bootSequence : Obligations.BootSequence := by
  intro s hl
  refine ⟨fun v hv hb hstep => ?go, fun v h => ?noGo, fun hb => ?ends, fun failed hb => ?other⟩
  case go =>
    calc exec (.jgFwCtlGo v) s = .next s.go := next_pos (by rw [hl, hv]; rfl)
      _ = .next s.bootImage := next_pos ⟨hb, hstep⟩
      _ = _ := next_congr (bootImage_eq s)
  case noGo =>
    by_cases hv : bitAt v 0 = true
    · have hno : ¬ (s.blk = .boot ∧ (s.boot.step = 4 ∨ (s.boot.step = 5 ∧ s.boot.fail = true))) := by
        rintro ⟨hb, hstep⟩
        rcases h with h | h | h
        · exact absurd hv (by rw [h]; exact Bool.false_ne_true)
        · exact h hb
        · omega
      calc exec (.jgFwCtlGo v) s = .next s.go := next_pos (by rw [hl, hv]; rfl)
        _ = .next s := next_neg hno
    · exact next_neg (by rw [hl, Bool.true_and]; exact hv)
  case ends =>
    calc exec (.selftestDone []) s = .next (s.selftested []) := next_pos (by simp [hl, hb])
      _ = _ := next_congr (selftested_clean hb)
  case other => exact next_neg (by simp [hb])

/-! ## Power states -/

theorem exec_pmReqRun_powered {s : State} (hc : s.pwr.clkFail = false) (h0 : s.pwr.cur ≠ 0) (hq : s.quar = false) :
    exec .pmReqRun s = .next (if s.pwr.req.isSome then s.drive .pmNak
      else if s.pwr.cur = 1 then { s with pwr := { s.pwr with req := some 3 } } else s.drive .pmAck) := by
  refine (next_neg (by simp [hc, h0])).trans ?_
  simp only [hq, Bool.false_eq_true, or_false]; rfl

theorem exec_pmReqRet_powered {s : State} (hc : s.pwr.clkFail = false) (h0 : s.pwr.cur ≠ 0) (hq : s.quar = false) :
    exec .pmReqRet s = .next (if s.pwr.req.isSome ∨ s.blk ≠ .ready then s.drive .pmNak
      else
        let b := Body.event .retention
        let s1 := s.bcastOthers { hdr := s.hdr 0 true 0 0 0 noHandle, body := b }
        let s2 := if s1.isRoot then s1 else s1.sendTo s1.orch.parentSh b
        { s2 with pwr := { s2.pwr with req := some 1 } }) := by
  refine (next_neg (by simp [hc, h0])).trans ?_
  simp only [hq, Bool.false_eq_true, false_or]; rfl

theorem exec_pmReqOff_powered {s : State} (hc : s.pwr.clkFail = false) (h0 : s.pwr.cur ≠ 0) (hq : s.quar = false) :
    exec .pmReqOff s = .next (if s.pwr.req.isSome then s.drive .pmNak
      else if s.blk = .ready ∨ s.blk = .boot ∨ (s.blk = .safe ∧ s.wind.running = false) then { s with pwr := { s.pwr with req := some 0 } }
      else s.drive .pmNak) := by
  refine (next_neg (by simp [hc, h0])).trans ?_
  simp only [hq, Bool.false_eq_true, or_false]; rfl

theorem bcastOthers_isRoot (s : State) (m : Msg) : (s.bcastOthers m).isRoot = s.isRoot := isRoot_of_core (bcastOthers_core s m)

theorem exec_pmTransitionDone_clocked {s : State} (hc : s.pwr.clkFail = false) (locked : Bool) :
    exec (.pmTransitionDone locked) s = .next (match s.pwr.req with
      | none => s
      | some 3 =>
        if locked then
          (({ s with pwr := { s.pwr with cur := 2, req := none }, orch := s.orch.retrainAll,
                     time := { s.time with stepOk := true } } : State).timeRequest).drive .pmAck
        else ({ s with pwr := { s.pwr with req := none } } : State).pmNak
      | some n => ({ s with pwr := { s.pwr with cur := n, req := none }, orch := s.orch.sleepAll true } : State).drive .pmAck) := by
  refine (next_neg (by rw [hc]; exact Bool.false_ne_true)).trans ?_
  rfl

theorem exec_idleTimeout_working {s : State} (hl : s.live = true) (hb : s.blk = .run) (hc : s.pwr.cur = 3) (ho : s.asm.punOpen = none)
    (hr : s.asm.repeats = []) (hj : s.jobs = []) :
    exec .idleTimeout s = .next (if s.puns.isEmpty then { s with pwr := { s.pwr with cur := 2 } } else s) := by
  show Host.Outcome.next (if _ then _ else _) = _
  simp only [hl, hb, hc, ho, hr, hj, and_self, decide_true, Bool.and_true, Bool.true_and, List.isEmpty_nil, List.any_nil, Bool.not_false]

/-- Settles O43: each request is answered by the first of its conditions that holds, a transition by the state it was asked for. -/
theorem powerStates : Obligations.PowerStates := by
  intro s hc
  refine ⟨fun h0 hq => ⟨fun hreq => ?busy, fun hreq => ⟨fun h1 => ?leave, fun h1 => ?ack, fun hb => ?retNak, fun hb hroot => ?ret,
    fun hb => ?off, fun hb hw => ?offDump, fun hb hw => ?offSafe, fun hb => ?offRun⟩⟩,
    fun locked => ⟨fun hreq => ?none, fun hreq => ?noLock, fun hreq => ?exit, fun n hn hreq => ?done⟩,
    fun hl hb hc ho hr hj => ⟨fun hp => ?idle, fun hp => ?busyArray⟩⟩
  case busy =>
    have hsome : s.pwr.req.isSome = true := Option.isSome_iff_ne_none.2 hreq
    rw [exec_pmReqRun_powered hc h0 hq, exec_pmReqRet_powered hc h0 hq, exec_pmReqOff_powered hc h0 hq]
    exact ⟨next_pos hsome, next_pos (.inl hsome), next_pos hsome⟩
  case leave => rw [exec_pmReqRun_powered hc h0 hq]; simp [hreq, h1]
  case ack => rw [exec_pmReqRun_powered hc h0 hq]; simp [hreq, h1]
  case retNak => rw [exec_pmReqRet_powered hc h0 hq]; exact next_pos (.inr hb)
  case ret =>
    rw [exec_pmReqRet_powered hc h0 hq, if_neg (by simp [hreq, hb])]
    simp only [bcastOthers_isRoot, hroot, if_true]
  case off => rw [exec_pmReqOff_powered hc h0 hq]; rcases hb with hb | hb <;> simp [hreq, hb]
  case offDump => rw [exec_pmReqOff_powered hc h0 hq]; simp [hreq, hb, hw]
  case offSafe => rw [exec_pmReqOff_powered hc h0 hq]; simp [hreq, hb, hw]
  case offRun => rw [exec_pmReqOff_powered hc h0 hq]; simp [hreq, hb]
  case none => rw [exec_pmTransitionDone_clocked hc, hreq]
  case noLock => rw [exec_pmTransitionDone_clocked hc, hreq]; rfl
  case exit => rw [exec_pmTransitionDone_clocked hc, hreq]; rfl
  case done =>
    rw [exec_pmTransitionDone_clocked hc, hreq]
    match n, hn with
    | 0, _ => rfl
    | 1, _ => rfl
    | 2, _ => rfl
  case idle => rw [exec_idleTimeout_working hl hb hc ho hr hj]; exact next_pos (by rw [hp]; rfl)
  case busyArray => rw [exec_idleTimeout_working hl hb hc ho hr hj]; exact next_neg (by simpa using hp)

/-! ## The time base -/

theorem progress_time (s : State) : s.progress.time = s.time := by
  unfold State.progress
  split <;> rfl

theorem fireIf_time (s : State) (t : Nat) (c : Bool) : (if c then s.fire t else s).time = s.time := by cases c <;> rfl

theorem pumpLink_time (s : State) (p : Nat) : (s.pumpLink p).time = s.time := by
  unfold State.pumpLink
  dsimp only
  generalize linkRun p (replayWindow p) (s.orch.link p) [] = sent
  obtain ⟨l1, fs⟩ := sent
  dsimp only
  split
  · rfl
  · split
    · exact (progress_time _).trans (fireIf_time s _ _)
    · exact fireIf_time s _ _

theorem pumpLinks_time (s : State) : s.pumpLinks.time = s.time := foldl_keeps pumpLink_time _ s

theorem tick_cases (t : Time) :
    (t.slew = 0 → t.tick = { t with tclk := t.tclk + 1 })
    ∧ (t.slew ≠ 0 → t.tclk.toNat < t.lastSlew + 1024 → t.tick = { t with tclk := t.tclk + 1 })
    ∧ (0 < t.slew → t.lastSlew + 1024 ≤ t.tclk.toNat → t.tick = { t with tclk := t.tclk + 2, slew := t.slew - 1, lastSlew := t.tclk.toNat + 2 })
    ∧ (t.slew < 0 → t.lastSlew + 1024 ≤ t.tclk.toNat → t.tick = { t with slew := t.slew + 1, lastSlew := t.tclk.toNat }) := by
  unfold Time.tick
  refine ⟨fun h => if_pos (.inl h), fun _ h => if_pos (.inr h), fun h hd => ?_, fun h hd => ?_⟩
  · rw [if_neg (by omega), if_pos h]
  · rw [if_neg (by omega), if_neg (by omega)]

/-- An alignment moves the counter only by a forward step, and only where a step is allowed. -/
theorem align_forward (t : Time) {target : Nat} (h : target < 2 ^ 64) :
    t.tclk.toNat ≤ (t.align target).tclk.toNat ∧ ((t.align target).tclk ≠ t.tclk → t.stepOk = true) := by
  unfold Time.align
  dsimp only
  split
  next hstep =>
    obtain ⟨hok, hd⟩ := hstep
    refine ⟨?_, fun _ => hok⟩
    show _ ≤ (BitVec.ofNat 64 target).toNat
    rw [BitVec.toNat_ofNat, Nat.mod_eq_of_lt h]
    omega
  · exact ⟨Nat.le_refl _, fun hne => absurd rfl hne⟩

/-! ## Thermal levels -/

/-- Entering or staying at a level: its threshold is reached, or it holds already and the reading is less than 5 degrees below it. -/
def holdsLevel (s : State) (hot : Int) (l : Nat) : Bool := decide (s.levelAt l ≤ hot) || (decide (l ≤ s.pwr.thLevel) && decide (s.levelAt l - 40 < hot))

theorem holdsLevel_iff (s : State) (hot : Int) (l : Nat) :
    holdsLevel s hot l = true ↔ s.levelAt l ≤ hot ∨ (l ≤ s.pwr.thLevel ∧ s.levelAt l - 40 < hot) := by
  simp [holdsLevel]

/-- The level is the highest one that holds, 0 where none does. -/
theorem levelFor_eq (s : State) (hot : Int) :
    s.levelFor hot = if holdsLevel s hot 3 then 3 else if holdsLevel s hot 2 then 2 else if holdsLevel s hot 1 then 1 else 0 := by
  show (List.find? (holdsLevel s hot) [3, 2, 1]).getD 0 = _
  simp only [List.find?_cons, List.find?_nil]
  cases holdsLevel s hot 3 <;> cases holdsLevel s hot 2 <;> cases holdsLevel s hot 1 <;> rfl

theorem levelFor_le (s : State) (hot : Int) : s.levelFor hot ≤ 3 := by
  rw [levelFor_eq]; split_ifs <;> omega

theorem le_levelFor {s : State} {hot : Int} {l : Nat} (h1 : 1 ≤ l) (h3 : l ≤ 3) (h : s.levelAt l ≤ hot) : l ≤ s.levelFor hot := by
  have hl : holdsLevel s hot l = true := (holdsLevel_iff s hot l).2 (.inl h)
  rw [levelFor_eq]
  obtain rfl | rfl | rfl : l = 1 ∨ l = 2 ∨ l = 3 := by omega
  · rw [hl]; split_ifs <;> first | omega | contradiction
  · rw [hl]; split_ifs <;> first | omega | contradiction
  · rw [if_pos hl]

theorem levelFor_holds {s : State} {hot : Int} (h : 1 ≤ s.levelFor hot) : holdsLevel s hot (s.levelFor hot) = true := by
  rw [levelFor_eq] at h ⊢
  split_ifs at h ⊢ with h3 h2 h1
  · exact h3
  · exact h2
  · exact h1
  · omega

theorem exec_thermalSample_unarmed {s : State} (hl : s.live = true) (ha : s.armed 0x0E = none) (raw : List Nat) :
    let ts := (List.range 8).map (fun i => s.trimmed i (raw.getD i 0))
    let l := s.levelFor (ts.foldl max (ts.getD 0 0))
    let u : State := { s with pwr := { s.pwr with sense := (List.range 8).map (fun i => (i, ts.getD i 0)), thLevel := l } }
    exec (.thermalSample raw) s
      = .next (if l = s.pwr.thLevel then u else if l = 3 then (u.setCause cThermal).fatal 0x43 Site.none else u.setCause cThermal) := by
  intro ts l u
  have hrun : exec (.thermalSample raw) s = .next (if l = 3 ∧ s.pwr.thLevel ≠ 3
      then (if l ≠ s.pwr.thLevel then u.setCause cThermal else u).fatal 0x43 Site.none
      else (if l ≠ s.pwr.thLevel then u.setCause cThermal else u)) := by
    refine (next_neg (by simp [hl])).trans ?_
    rw [ha]; rfl
  rw [hrun]
  by_cases hsame : l = s.pwr.thLevel
  · rw [if_neg (show ¬ (l = 3 ∧ s.pwr.thLevel ≠ 3) from fun h => h.2 (hsame ▸ h.1)), if_neg (not_not_intro hsame), if_pos hsame]
  · rw [if_pos hsame, if_neg hsame]
    by_cases h3 : l = 3
    · rw [if_pos ⟨h3, fun h => hsame (h3.trans h.symm)⟩, if_pos h3]
    · rw [if_neg (fun h => h3 h.1), if_neg h3]

/-! ## Droop -/

theorem cnt_bump (s : State) (off : Nat) : (s.bump off).cnt off = satAdd (2 ^ 32 - 1) (s.cnt off) 1 := by
  unfold State.bump State.bumpN State.cnt Tab.upd
  dsimp only
  rw [tab_get_set_self]

theorem mem_addOnce (l : List Nat) (d : Nat) : d ∈ (if l.contains d then l else l ++ [d]) ∧ ∀ x ∈ l, x ∈ (if l.contains d then l else l ++ [d]) := by
  split
  next h => exact ⟨by simpa using h, fun _ hx => hx⟩
  · exact ⟨by simp, fun _ hx => List.mem_append_left _ hx⟩

/-- Settles O44: the counter's cases, the levels by the order in which they are tried, and one equation per command. -/
theorem clocksAndSensors : Obligations.ClocksAndSensors := by
  refine ⟨fun s hcur hck => ?lock, fun t => ?tick, fun s hck hcur hl => ?asleep, fun s hl => ?live, fun s hl => ⟨fun hr => ?root, fun hr => ?member⟩,
    fun s raw hl ha => ?thermal, fun s hot => ?levels, fun s d hl => ?droop⟩
  case lock => exact next_pos ⟨hcur, hck⟩
  case tick =>
    obtain ⟨h1, h2, h3, h4⟩ := tick_cases t
    exact ⟨h1, h2, h3, h4, fun target h => align_forward t h⟩
  case asleep =>
    refine ⟨_, (next_neg (by simp [hck, hcur])).trans (next_neg (by rw [hl]; exact Bool.false_ne_true)), rfl, rfl⟩
  case live =>
    obtain ⟨hck, -, hcur⟩ := live_parts hl
    have hcur0 : s.pwr.cur ≠ 0 := by omega
    exact ⟨_, (next_neg (by simp [hck, hcur0])).trans (next_pos hl), pumpLinks_time _⟩
  case root => exact (next_pos hl).trans (next_pos hr)
  case member => exact (next_pos hl).trans (next_neg (by rw [hr]; exact Bool.false_ne_true))
  case thermal => exact exec_thermalSample_unarmed hl ha raw
  case levels =>
    exact ⟨levelFor_le s hot, fun l h1 h3 h => le_levelFor h1 h3 h,
      fun l hl h1 => hl ▸ (holdsLevel_iff s hot _).1 (levelFor_holds (hl ▸ h1))⟩
  case droop =>
    obtain ⟨hmem, hkeep⟩ := mem_addOnce s.pwr.droopHit d
    exact ⟨_, next_pos hl, hmem, hkeep, cnt_bump s offDroop⟩

/-! ## Self-test in the field -/

theorem slice_passed (s : State) (u : Unit') : s.slice u false = ({ s with rep := { s.rep with
      left := s.rep.left.erase u, passEnd := s.rep.passEnd || (!s.rep.left.isEmpty && (s.rep.left.erase u).isEmpty),
      dleft := s.rep.dleft.erase u } } : State).endDiagPass := by
  simp [State.slice]

/-- The state of a pass after the slice of a failing unit that serves, before the repair. -/
def failedSlice (s : State) (u : Unit') : State :=
  { s with rep := { s.rep with
      left := s.rep.left.erase u, passEnd := s.rep.passEnd || (!s.rep.left.isEmpty && (s.rep.left.erase u).isEmpty),
      dleft := s.rep.dleft.erase u,
      found := if s.rep.dleft.contains u then s.rep.found + 1 else s.rep.found,
      fixed := if s.rep.dleft.contains u then s.rep.fixed + 1 else s.rep.fixed } }

theorem slice_failed_ready {s : State} {u t : Unit'} (hb : s.blk = .ready) (ht : s.logical u = some t) :
    s.slice u true = ((failedSlice s u).repair t).endDiagPass := by
  unfold State.slice
  simp only [if_true, ht, Bool.and_true, Option.isSome_some]
  exact congrArg State.endDiagPass (if_pos hb)

theorem rescoreKat_elsewhere {s : State} (h : s.blk ≠ .run) (us : List Unit') : s.rescoreKat us = s := if_pos h

theorem rescoreKat_one {s : State} (h : s.blk = .run) {u : Unit'} (hu : u.kind = 4 ∨ u.kind = 5) : s.rescoreKat [u] = s.katFail u := by
  unfold State.rescoreKat
  rw [if_neg (not_not_intro h)]
  exact if_pos ⟨hu, h⟩

/-- Settles O60: one case of the slice, of the pass timer and of the lane check each. -/
theorem fieldSelfTest : Obligations.FieldSelfTest := by
  intro s hl
  have hnl : ¬ (s.live = false) := by simp [hl]
  refine ⟨fun u f hw => ?outside, fun u hw => ?passed, fun u t hb ht => ?failed, fun he hd => ?newPass, fun he hd h0 => ?tooSoon,
    fun he hd hs => ?starved, fun he hd => ?running, fun hw hb us => ?noKat, fun hb u hu => ?kat⟩
  case outside => exact next_neg (by simp [hw])
  case passed => exact (next_pos (by simp [hl, hw])).trans (next_congr (slice_passed s u))
  case failed =>
    exact ⟨failedSlice s u, (next_pos (by simp [hl, State.idleWindow, hb])).trans (next_congr (slice_failed_ready hb ht)), rfl, rfl, rfl⟩
  case newPass => exact ((next_neg hnl).trans (next_pos he)).trans (next_pos hd)
  case tooSoon => exact ((next_neg hnl).trans (next_pos he)).trans (next_neg (by omega))
  case starved => exact ((next_neg hnl).trans (next_neg (by rw [he]; exact Bool.false_ne_true))).trans (next_pos ⟨hd, hs⟩)
  case running => exact ((next_neg hnl).trans (next_neg (by rw [he]; exact Bool.false_ne_true))).trans (next_neg (by omega))
  case noKat => exact next_congr ((workStep_working hw _).trans (congrArg State.after (rescoreKat_elsewhere hb us)))
  case kat =>
    have hw : s.working = true := by simp [State.working, hl, hb]
    exact next_congr ((workStep_working hw _).trans (congrArg State.after (rescoreKat_one hb hu)))

end Sys2Proof.Proofs

/-! PROOFS. The debug window and the test access port (R325, R326, R435 to R441): O55, O56, O57. -/

namespace Sys2Proof.Proofs

open Sys2Proof.Machine Sys2Proof.Laws

/-! ## The gate of the debug window -/

theorem debugWrite_open {s : State} (hl : s.live = true) (hd : s.debugOn = true) (act : State → State) : debugWrite act s = act s :=
  if_pos (by rw [hl, hd]; rfl)

theorem debugWrite_shut {s : State} (h : s.live = false ∨ s.debugOn = false) (act : State → State) : debugWrite act s = s := by
  rcases h with h | h
  · exact if_neg (by rw [h]; exact Bool.false_ne_true)
  · exact debugWrite_closed h act

theorem dbgKey_iff (v : Word) : dbgKey v = true ↔ bitsAt v 16 16 = 0x4A47 := decide_eq_true_iff

theorem dbgKey_false {v : Word} (h : bitsAt v 16 16 ≠ 0x4A47) : dbgKey v = false := decide_eq_false h

/-! ## What a purge leaves for good -/

/-- A counter of the shared window, the punnets in flight, and the messages that wait on the row channels. -/
structure Flight where
  events : Nat
  puns   : List Punnet
  roots  : List RootRow
  queues : Nat → Nat → List Msg

/-- The row channels' queues of every port. -/
def rowQueues (o : Orch) (port vc : Nat) : List Msg := if vc < 4 then (o.link port).queue vc else []

/-- The flight of a state, with the events of cause 0x20. -/
def flight (s : State) : Flight := { events := s.cnt (offEvent 0x20), puns := s.puns, roots := s.roots, queues := rowQueues s.orch }

theorem cnt_bumpN_ne (s : State) {off other : Nat} (n : Nat) (h : other ≠ off) : (s.bumpN off n).cnt other = s.cnt other := tab_get_set_ne _ h _ _

theorem bumpN_flight (s : State) {off : Nat} (n : Nat) (h : off ≠ offEvent 0x20) : flight (s.bumpN off n) = flight s := by
  simp only [flight, cnt_bumpN_ne s n h.symm]; rfl

theorem bump_flight (s : State) {off : Nat} (h : off ≠ offEvent 0x20) : flight (s.bump off) = flight s := bumpN_flight s 1 h

theorem bump64N_flight (s : State) {off : Nat} (n : Nat) (h : off ≠ offEvent 0x20) : flight (s.bump64N off n) = flight s := by
  have hcnt : (s.bump64N off n).cnt (offEvent 0x20) = s.cnt (offEvent 0x20) := tab_get_set_ne _ h.symm _ _
  simp only [flight, hcnt]; rfl

theorem setFault_flight (s : State) {f : Nat} (h : offFault f ≠ offEvent 0x20) : flight (s.setFault f) = flight s := bump_flight _ h

theorem setPort_flight (s : State) (p : PortId) (q : Port) : flight (s.setPort p q) = flight s := by cases p <;> rfl

theorem setCause1_flight (s : State) (p : PortId) (b : Nat) : flight (s.setCause1 p b) = flight s :=
  (setPort_flight _ p _).trans (setPort_flight s p _)

theorem setCause_flight (s : State) {b : Nat} (h : offEvt b ≠ offEvent 0x20) : flight (s.setCause b) = flight s := by
  rw [State.setCause, bump_flight _ h, setCause1_flight, setCause1_flight]

theorem logFault_flight (s : State) (c : Nat) (x : Site) : flight (s.logFault c x) = flight s := by
  unfold State.logFault
  dsimp only
  split
  · rfl
  · split
    · rfl
    · split
      · exact setFault_flight _ (by decide)
      · rfl

/-- A contained event counts its cause and leaves the flight. -/
theorem contained_flight (s : State) (x : Site) : flight (s.contained 0x20 x) = flight (s.bump (offEvent 0x20)) := by
  rw [State.contained, setCause_flight _ (by decide), setFault_flight _ (by decide), logFault_flight]

theorem countVoid_flight (s : State) (c : Nat) : flight (s.countVoid c) = flight s := by
  have hoff : offVoid c ≠ offEvent 0x20 := by unfold offVoid offEvent; omega
  unfold State.countVoid
  dsimp only
  split
  · rw [setFault_flight _ (by decide), bump_flight s hoff]
  · exact bump_flight s hoff

/-! ### Messages on the control channel -/

theorem queue_upd (l : Link) (vc : Nat) (f : List Msg → List Msg) {ch : Nat} (h : ch ≠ vc) :
    ({ l with queues := Tab.upd l.queues vc [] f } : Link).queue ch = l.queue ch := tab_get_set_ne _ h _ _

/-- A control message joins no row channel. -/
theorem enqueue_rowQueues (o : Orch) (p : Nat) {m : Msg} (h : m.body.vc = 4) : rowQueues (o.enqueue p m) = rowQueues o := by
  funext port vc
  unfold rowQueues
  split
  next hvc =>
    unfold Orch.enqueue
    dsimp only
    by_cases hp : port = p
    · subst hp
      rw [link_setLink]
      exact queue_upd _ _ _ (by omega)
    · rw [link_setLink_ne _ _ _ _ hp]
  · rfl

theorem spreadBelow_rowQueues (o : Orch) {m : Msg} (h : m.body.vc = 4) : rowQueues (o.spreadBelow m) = rowQueues o :=
  foldl_keeps (g := rowQueues) (fun o p => enqueue_rowQueues o p h) _ o

theorem route_rowQueues (o : Orch) {m : Msg} (h : m.body.vc = 4) : rowQueues (o.route m) = rowQueues o := by
  unfold Orch.route
  split
  · rfl
  · split
    · exact enqueue_rowQueues o _ h
    · rfl

theorem bcastOthers_flight (s : State) {m : Msg} (h : m.body.vc = 4) : flight (s.bcastOthers m) = flight s := by
  simp only [flight, State.bcastOthers, spreadBelow_rowQueues s.orch h]; rfl

theorem sendTo_flight (s : State) (dst : Nat) {b : Body} (h : b.vc = 4) : flight (s.sendTo dst b) = flight s := by
  simp only [flight, State.sendTo, State.sendMsg, route_rowQueues s.orch (m := { hdr := s.hdr dst false 0 0 0 noHandle, body := b }) h]; rfl

/-! ### Records and egress -/

theorem enterHold_flight (s : State) (slot : Nat) : flight (s.enterHold slot) = flight s := by
  have hhold : flight (s.holdHere slot) = flight s := by
    unfold State.holdHere
    dsimp only
    split <;> rfl
  unfold State.enterHold
  split
  · rfl
  · dsimp only
    split
    · rw [bcastOthers_flight _ rfl, hhold]
    · rw [sendTo_flight _ _ rfl, hhold]

theorem voidRow_flight (s : State) (r : Row) (cause : Nat) : flight (s.voidRow r cause) = flight s := by
  rw [State.voidRow, enterHold_flight, countVoid_flight]; rfl

theorem dropRow_flight (s : State) (k : Option RowKey) : flight (s.dropRow k) = flight s := by cases k <;> rfl

theorem trecIssued_flight (s : State) (r : EgRec) : flight (s.trecIssued r) = flight s := by
  have hoff : offRec (bitsAt (r.words.getD 0 0) 24 3) ≠ offEvent 0x20 := by
    have : bitsAt (r.words.getD 0 0) 24 3 < 8 := Nat.mod_lt _ (by decide)
    unfold offRec offEvent
    omega
  unfold State.trecIssued
  split
  · rfl
  · exact (dropRow_flight (s.bump64N _ 1) r.key).trans (bump64N_flight s 1 hoff)

theorem egBeat_flight (s : State) (r : EgRec) (rest : List EgRec) : flight (s.egBeat r rest) = flight s := by
  unfold State.egBeat
  dsimp only
  split
  · refine (trecIssued_flight _ _).trans ?_
    split
    · exact trecIssued_flight _ _
    · rfl
  · split
    · exact trecIssued_flight _ _
    · rfl

theorem undelivered_flight (s : State) : flight s.undelivered = flight s := by
  rw [State.undelivered, setFault_flight _ (by decide), bump_flight _ (by decide)]

theorem egStep_flight {s t : State} (h : s.egStep = some t) : flight t = flight s := by
  unfold State.egStep at h
  split at h
  · exact nomatch h
  · next r rest hq =>
    dsimp only at h
    split at h
    · rw [← Option.some.inj h, dropRow_flight, undelivered_flight]; rfl
    · split at h
      · rw [← Option.some.inj h]; rfl
      · split at h
        · exact nomatch h
        · rw [← Option.some.inj h]
          exact egBeat_flight s r rest

theorem egRun_flight (n : Nat) (s : State) : flight (egRun n s) = flight s := by
  induction n generalizing s with
  | zero => rfl
  | succ n ih =>
    unfold egRun
    split
    · rfl
    · next t ht => exact (ih t).trans (egStep_flight ht)

theorem missCheck_flight (s : State) : flight s.missCheck = flight s := by
  unfold State.missCheck
  dsimp only
  split
  · rfl
  · rw [setCause_flight _ (by decide), bumpN_flight _ _ (by decide)]; rfl

theorem pump_flight (s : State) : flight s.pump = flight s := (missCheck_flight _).trans (egRun_flight _ s)

/-! ### The purge -/

theorem link_mapVals (o : Orch) (f : Link → Link) (h : f (Link.reset false) = Link.reset false) (p : Nat) :
    ({ o with links := Tab.mapVals o.links (fun _ l => f l) } : Orch).link p = f (o.link p) := by
  simp only [Orch.link, Tab.get, tab_find_mapVals]
  cases Tab.find? o.links p with
  | none => exact h.symm
  | some l => rfl

/-- The row channels after the messages of a punnet were dropped. -/
theorem dropPunnet_rowQueues (o : Orch) (n port vc : Nat) :
    rowQueues (o.dropPunnet n) port vc = (rowQueues o port vc).filter (fun m => decide (m.hdr.punnet ≠ n)) := by
  unfold rowQueues
  split
  next hvc =>
    have hlink := link_mapVals o (fun l => { l with queues := Tab.mapVals l.queues (fun vc q => if vc < 4 then q.filter (fun m => decide (m.hdr.punnet ≠ n)) else q) })
      rfl port
    refine (congrArg (fun l => Link.queue l vc) hlink).trans ?_
    simp only [Link.queue, Tab.get, tab_find_mapVals, if_pos hvc]
    cases Tab.find? (o.link port).queues vc with
    | none => rfl
    | some q => rfl
  · rfl

/-- The state of a purge when its rows are void. -/
def purgeVoided (s : State) (n : Nat) : State :=
  (s.uncommitted n).foldl (fun (s : State) e => s.voidRow e.2 0x20)
    (({ s with orch := s.orch.dropPunnet n } : State).contained 0x20 { Site.none with punnet := n })

theorem voidRows_flight (rows : List (Nat × Row)) (s : State) :
    flight (rows.foldl (fun (s : State) e => s.voidRow e.2 0x20) s) = flight s :=
  foldl_keeps (g := flight) (f := fun (s : State) (e : Nat × Row) => s.voidRow e.2 0x20) (fun s e => voidRow_flight s e.2 0x20) rows s

theorem purgeVoided_flight (s : State) (n : Nat) : flight (purgeVoided s n)
    = { flight s with events := satAdd (2 ^ 32 - 1) (s.cnt (offEvent 0x20)) 1, queues := rowQueues (s.orch.dropPunnet n) } := by
  unfold purgeVoided
  rw [voidRows_flight, contained_flight, flight, cnt_bump]
  rfl

/-- What is left of the flight once a punnet has been retired. -/
theorem retirePunnet_flight (s : State) (n : Nat) : flight (s.retirePunnet n) =
    { flight s with puns := s.puns.filter (fun p => decide (p.num ≠ n)), roots := s.roots.filter (fun r => decide (r.punnet ≠ n)) } := rfl

theorem purge_flight (s : State) (n : Nat) : flight (s.purge n) =
    { flight (purgeVoided s n) with
      puns := (purgeVoided s n).puns.filter (fun p => decide (p.num ≠ n)), roots := (purgeVoided s n).roots.filter (fun r => decide (r.punnet ≠ n)) } :=
  (pump_flight _).trans (retirePunnet_flight (purgeVoided s n) n)

/-- A purge counts its cause, and nothing of the punnet stays in flight or waits on a row channel. -/
theorem purge_clears (s : State) (n : Nat) :
    (s.purge n).cnt (offEvent 0x20) = satAdd (2 ^ 32 - 1) (s.cnt (offEvent 0x20)) 1 ∧ (∀ p ∈ (s.purge n).puns, p.num ≠ n)
      ∧ (∀ r ∈ (s.purge n).roots, r.punnet ≠ n)
      ∧ ∀ (port vc : Nat), vc < 4 → ∀ m ∈ ((s.purge n).orch.link port).queue vc, m.hdr.punnet ≠ n := by
  have hpurge := purge_flight s n
  have hvoid := purgeVoided_flight s n
  refine ⟨?_, fun p hp => ?_, fun r hr => ?_, fun port vc hvc m hm => ?_⟩
  · rw [hvoid] at hpurge
    exact congrArg Flight.events hpurge
  · rw [show (s.purge n).puns = _ from congrArg Flight.puns hpurge] at hp
    exact of_decide_eq_true (List.mem_filter.1 hp).2
  · rw [show (s.purge n).roots = _ from congrArg Flight.roots hpurge] at hr
    exact of_decide_eq_true (List.mem_filter.1 hr).2
  · have hq : ((s.purge n).orch.link port).queue vc = rowQueues (s.purge n).orch port vc := (if_pos hvc).symm
    rw [hvoid] at hpurge
    have hqs : rowQueues (s.purge n).orch = rowQueues (s.orch.dropPunnet n) := congrArg Flight.queues hpurge
    rw [hq, hqs, dropPunnet_rowQueues] at hm
    exact of_decide_eq_true (List.mem_filter.1 hm).2

/-- Settles O55: the key and the seat decide where the purge goes; what it does is said by what it leaves in flight. -/
theorem debugPurge : Obligations.DebugPurge := by
  intro s v hl hd
  have hexec : exec (.jgDbgPurge v) s = .next (s.dbgPurge v) := next_congr (debugWrite_open hl hd _)
  rw [hexec]
  refine ⟨fun hkey => ?keyed, fun hkey => next_pos (dbgKey_false hkey)⟩
  have hgo : ¬ (dbgKey v = false) := by rw [(dbgKey_iff v).2 hkey]; exact Bool.noConfusion
  refine ⟨fun hr => ?_, fun hr hseen => ?_, fun hr hseen => ?_, fun n => purge_clears s n⟩
  · exact (next_neg hgo).trans (next_neg (by rw [hr]; exact Bool.false_ne_true))
  · exact ((next_neg hgo).trans (next_pos hr)).trans (next_neg (by rw [hseen]; exact Bool.false_ne_true))
  · exact ((next_neg hgo).trans (next_pos hr)).trans (next_pos hseen)

/-! ## The other debug writes -/

theorem exec_jgDbgFlush_open {s : State} (hl : s.live = true) (hd : s.debugOn = true) (v : Word) : exec (.jgDbgFlush v) s = .next (s.dbgFlush v) :=
  next_congr (debugWrite_open hl hd _)

/-- A channel of a link after a flush. -/
def flushed (l : Link) (vc : Nat) : Link :=
  { l with queues := Tab.set l.queues vc [], txw := Tab.set l.txw vc [], rxw := Tab.set l.rxw vc [], owed := Tab.set l.owed vc 0,
           credits := Tab.set l.credits vc (Tab.get Link.fullCredit vc 0) }

theorem dbgFlush_keyed {s : State} {v : Word} (hkey : bitsAt v 16 16 = 0x4A47) (hp : bitsAt v 0 3 < 5) (hvc : bitsAt v 4 3 < 5) :
    s.dbgFlush v = s.setLink (bitsAt v 0 3) (flushed (s.orch.link (bitsAt v 0 3)) (bitsAt v 4 3)) := by
  refine if_neg ?_
  rw [(dbgKey_iff v).2 hkey]
  simp only [Bool.true_eq_false, false_or]
  omega

theorem setLink_link (s : State) (p q : Nat) (l : Link) : (s.setLink p l).orch.link q = if q = p then l else s.orch.link q := by
  show (s.orch.setLink p l).link q = _
  split
  next h => rw [h, link_setLink]
  next h => exact link_setLink_ne _ _ _ _ h

/-- JG_DBG_CTL's two low bits taken, and what a clear INJEN disarms. -/
def injectionSet (s : State) (v : Word) : State :=
  { s with dbg := { s.dbg with injen := bitAt v 0, injfatal := bitAt v 1 },
           faults := if bitAt v 0 then s.faults else { s.faults with inj := [] } }

theorem dbgCtl_eq (s : State) (v : Word) : s.dbgCtl v = if bitAt v 2 then (injectionSet s v).hangClear else injectionSet s v := by
  unfold State.dbgCtl injectionSet
  cases bitAt v 0 <;> rfl

theorem injectionSet_disarmed {s : State} {v : Word} (h : bitAt v 0 = false) : (injectionSet s v).faults.inj = [] := by
  unfold injectionSet
  rw [h]
  rfl

/-- Debug access as it is set, with the injection switched off where access ends by it. -/
theorem setAccess_cases (s : State) (en tap : Bool) : (s.setAccess en tap).dbg.en = en ∧ (s.setAccess en tap).dbg.tap = tap
    ∧ (s.debugOn = true → (en || tap) = false →
        (s.setAccess en tap).dbg.injen = false ∧ (s.setAccess en tap).dbg.injfatal = false ∧ (s.setAccess en tap).faults.inj = [])
    ∧ ((en || tap) = true → (s.setAccess en tap).faults = s.faults) := by
  have hnow : ({ s with dbg := { s.dbg with en := en, tap := tap } } : State).debugOn = (en || tap) := rfl
  unfold State.setAccess
  dsimp only
  rw [hnow]
  split
  next h => exact ⟨rfl, rfl, fun _ _ => ⟨rfl, rfl, rfl⟩, fun hon => by rw [hon, Bool.not_true, Bool.and_false] at h; exact nomatch h⟩
  next h => exact ⟨rfl, rfl, fun hwas hoff => absurd (by rw [hwas, hoff]; rfl) h, fun _ => rfl⟩

theorem exec_jgDbgEn_clocked {s : State} (hck : s.pwr.clkFail = false) (hcur : 2 ≤ s.pwr.cur) (p : PortId) (v : Word) :
    exec (.jgDbgEn p v) s = .next (s.writeDbgEn v) :=
  (next_neg (by rw [hck]; exact Bool.false_ne_true)).trans (next_neg (by omega))

/-! ### Semaphores written by a debugger -/

theorem finishSleeper_sems (s : State) (o : Origin) (c : Cpl) : (s.finishSleeper o c).sems = s.sems := by
  unfold State.finishSleeper
  cases o with
  | ring r id =>
    dsimp only
    split
    · rw [setRing_sems, finish_sems]
    · exact finish_sems _ _ _
  | fwd sh p ring fid => exact finish_sems _ _ _
  | member => exact finish_sems _ _ _

/-- A semaphore whose hold is abandoned: free, marked and counted, with no waiter. -/
def semAbandoned (q : Sem) : Sem := { q with owner := 0, abnd := true, abndcnt := satAdd 255 q.abndcnt 1, waiters := [] }

theorem semAbandon_sem (s : State) (n : Nat) : (s.semAbandon n).sem n = semAbandoned (s.sem n) := by
  have hsems : (s.semAbandon n).sems = Tab.set s.sems n (semAbandoned (s.sem n)) :=
    foldl_keeps (g := State.sems) (f := fun (s : State) (w : PortId × Origin) => s.finishSleeper w.2 (Cpl.of stAbandoned 0))
      (fun _ _ => finishSleeper_sems _ _ _) _ _
  rw [State.sem, hsems, tab_get_set_self]

/-- What the owner written makes of a semaphore. -/
def semGiven (q : Sem) (o : Nat) : Sem := if q.owner = 0 ∧ o ≠ 0 then q.grant o else { q with owner := o }

theorem semGiven_owned {q : Sem} (h : q.owner ≠ 0) (o : Nat) : semGiven q o = { q with owner := o } := if_neg fun hx => h hx.1

theorem dbgSem_keyed {s : State} {v : Word} (hkey : bitsAt v 16 16 = 0x4A47) : s.dbgSem v =
    if ((s.sem (bitsAt v 0 6)).owner = 1 ∨ (s.sem (bitsAt v 0 6)).owner = 2) ∧ (s.sem (bitsAt v 0 6)).owner ≠ bitsAt v 8 2
    then (s.semAbandon (bitsAt v 0 6)).setSem (bitsAt v 0 6) (semGiven (semAbandoned (s.sem (bitsAt v 0 6))) (bitsAt v 8 2))
    else s.setSem (bitsAt v 0 6) (semGiven (s.sem (bitsAt v 0 6)) (bitsAt v 8 2)) := by
  have hgo : ¬ (dbgKey v = false) := by rw [(dbgKey_iff v).2 hkey]; exact Bool.noConfusion
  unfold State.dbgSem
  rw [if_neg hgo]
  dsimp only
  split
  · rw [semAbandon_sem]; rfl
  · rfl

theorem semGiven_abandoned (q : Sem) (o : Nat) : semGiven (semAbandoned q) o =
    { q with owner := o, grants := if o ≠ 0 then (q.grants + 1) % 256 else q.grants, abnd := true, abndcnt := satAdd 255 q.abndcnt 1, waiters := [] } := by
  unfold semGiven
  by_cases h : o = 0
  · rw [if_neg (fun hx => hx.2 h), if_neg (not_not_intro h)]; rfl
  · rw [if_pos ⟨rfl, h⟩, if_pos h]; rfl

/-- Settles O56: the gate once for all writes, then one equation per write; a semaphore is abandoned exactly when a port loses it. -/
theorem debugWrites : Obligations.DebugWrites := by
  refine ⟨⟨fun s v x h => ?shut, fun s v x hl hd => ⟨fun h => ?flushNone, fun hkey hp hvc => ?flush, ?counter, ?control⟩,
    fun s p v hck hcur => ⟨fun h => ?enNone, fun h => ?enable⟩, fun s p hl => next_pos hl⟩, fun s v hl hd hkey => ?sem⟩
  case shut =>
    exact ⟨next_congr (debugWrite_shut h _), next_congr (debugWrite_shut h _), next_congr (debugWrite_shut h _), next_congr (debugWrite_shut h _),
      next_congr (debugWrite_shut h _), next_congr (debugWrite_shut h _)⟩
  case flushNone =>
    rw [exec_jgDbgFlush_open hl hd]
    exact next_pos (h.imp_left dbgKey_false)
  case flush =>
    refine ⟨_, (exec_jgDbgFlush_open hl hd v).trans (next_congr (dbgFlush_keyed hkey hp hvc)), ?_⟩
    simp only [setLink_link, if_true]
    exact ⟨tab_get_set_self _ _ _ _, tab_get_set_self _ _ _ _, tab_get_set_self _ _ _ _, tab_get_set_self _ _ _ _, tab_get_set_self _ _ _ _,
      fun vc hne => tab_get_set_ne _ hne _ _, fun p hne => if_neg hne⟩
  case counter =>
    refine ⟨_, next_congr (debugWrite_open hl hd _), ?_⟩
    simp only [State.dbgCntval, ctrSet_ctr, setCtr_ctr, if_true, true_and]
    refine ⟨fun w hw => ?_, fun n hn => if_neg hn⟩
    rw [List.mem_filter, not_waitMet, decide_eq_true_iff] at hw
    exact hw
  case control =>
    refine ⟨?_, ?_, fun h => ?_, fun h => ?_⟩
    · exact next_congr ((debugWrite_open hl hd _).trans (dbgCtl_eq s v))
    · exact next_congr ((debugWrite_open hl hd _).trans (dbgCtl_eq s v))
    · rw [if_pos h]; rfl
    · have hinj : (injectionSet s v).faults.inj = [] := injectionSet_disarmed h
      split <;> exact hinj
  case enNone => rw [exec_jgDbgEn_clocked hck hcur]; exact next_neg h
  case enable =>
    obtain ⟨hen, htap, hoff, -⟩ := setAccess_cases s (bitAt v 0) s.dbg.tap
    refine ⟨_, (exec_jgDbgEn_clocked hck hcur p v).trans (next_pos h), hen, rfl, htap, fun hwas hnow => hoff hwas ?_⟩
    have hnow : ((s.setAccess (bitAt v 0) s.dbg.tap).dbg.en || (s.setAccess (bitAt v 0) s.dbg.tap).dbg.tap) = false := hnow
    rw [hen, htap] at hnow
    exact hnow
  case sem =>
    have hexec : exec (.jgDbgSem v) s = .next (s.dbgSem v) := next_congr (debugWrite_open hl hd _)
    rw [hexec, dbgSem_keyed hkey]
    refine ⟨fun hport hne => ?_, fun hfree ho => ?_, fun hheld hstays => ?_, fun hfree ho => ?_⟩
    · rw [if_pos ⟨hport, hne⟩, semGiven_abandoned]
    · rw [if_neg (by omega), semGiven, if_pos ⟨hfree, ho⟩, Sem.grant]
    · rw [if_neg (by omega), semGiven_owned hheld]
    · rw [if_neg (by omega), semGiven, if_neg (fun hx => hx.2 ho), ho]

/-! ## The test access port -/

theorem instrument_idle {s : State} (hck : s.pwr.clkFail = false) (hcur : 2 ≤ s.pwr.cur) {v : Nat} (hv : v % 2 = 0) (sib : Nat) (act : State → State) :
    instrument sib v act s = s.setTdr sib v :=
  (if_neg (by simp [hck]; omega)).trans (if_neg (by omega))

theorem instrument_runs {s : State} (hck : s.pwr.clkFail = false) (hcur : 2 ≤ s.pwr.cur) {v : Nat} (hv : v % 2 = 1) (sib : Nat) (act : State → State) :
    instrument sib v act s = act s :=
  (if_neg (by simp [hck]; omega)).trans (if_pos hv)

/-- REGACC's register when its access is done. -/
def regaccDone (v : Nat) (err : Bool) (d : Nat) : Nat := tdrPut (tdrPut (tdrPut v 21 64 d) 85 1 0) 86 1 (b2n err)

theorem regacc_write_window {s : State} {v : Nat} (hw : v.testBit 1 = true) (ha : tdrBits v 3 18 < 0x20000) :
    s.regacc v = s.setTdr 0 (regaccDone v true (BitVec.ofNat 64 (tdrBits v 21 64)).toNat) := by
  have hwin : decide (tdrBits v 3 18 / 0x10000 ≤ 1) = true := decide_eq_true (by omega)
  unfold State.regacc
  dsimp only
  rw [if_pos hw, hwin]
  rfl

theorem regacc_write {s : State} {v : Nat} (hw : v.testBit 1 = true) (h4 : v.testBit 2 = false) (ha : 0x20000 ≤ tdrBits v 3 18)
    (hok : accessOk (tdrBits v 3 18) 4 = true) (hhits : accessHits (tdrBits v 3 18) 4 = true) (hd : s.debugOn = true) :
    s.regacc v = (s.writeAccess .debug (tdrBits v 3 18) 4 (BitVec.ofNat 64 (tdrBits v 21 64))).setTdr 0
      (regaccDone v false (BitVec.ofNat 64 (tdrBits v 21 64)).toNat) := by
  have hwin : decide (tdrBits v 3 18 / 0x10000 ≤ 1) = false := decide_eq_false (by omega)
  unfold State.regacc
  dsimp only
  rw [if_pos hw, h4]
  simp only [Bool.false_eq_true, if_false, hwin, hok, hhits, hd, Bool.not_true, Bool.or_self]
  rfl

theorem regacc_read {s : State} {v : Nat} (hw : v.testBit 1 = false) (h4 : v.testBit 2 = false) (hok : accessOk (tdrBits v 3 18) 4 = true)
    (hwide : isWide (tdrBits v 3 18) = false) (hlatch : s.dbg.latch = none) :
    s.regacc v = (s.trAdvance (tdrBits v 3 18) 4).setTdr 0 (regaccDone v false (s.regWord (tdrBits v 3 18)).toNat) := by
  have hread : s.tapRead (tdrBits v 3 18) 4 = ((s.regWord (tdrBits v 3 18)).toNat, s) := by
    unfold State.tapRead
    rw [if_neg (by rw [hok]; exact Bool.noConfusion)]
    dsimp only
    rw [if_neg (by decide), if_neg (by rw [hwide]; exact Bool.false_ne_true), hlatch]
  unfold State.regacc
  dsimp only
  rw [if_neg (by rw [hw]; exact Bool.false_ne_true), h4]
  simp only [Bool.false_eq_true, if_false, hread, hok, Bool.not_true]
  rfl

/-- An instrument's register shows what it was given. -/
theorem eq_setTdr_shown {s t : State} {sib v : Nat} (h : t = s.setTdr sib v) : t = s.setTdr sib (Tab.get t.dbg.tdr sib 0) := by
  have hshown : Tab.get t.dbg.tdr sib 0 = v := by rw [h]; exact tab_get_set_self s.dbg.tdr sib v 0
  rw [hshown, h]

/-- A state whose DBGEN register holds a captured word. -/
def dbgenCaptured (t : State) (w : Word) : State := { t with dbg := { t.dbg with dbgenDr := w } }

theorem dbgenCaptured_keeps (t : State) (w : Word) : (dbgenCaptured t w).debugOn = t.debugOn ∧ (dbgenCaptured t w).dbg.en = t.dbg.en
    ∧ (dbgenCaptured t w).faults = t.faults := ⟨rfl, rfl, rfl⟩

theorem execDbgen_clocked {s : State} (hck : s.pwr.clkFail = false) :
    execDbgen s = .next (dbgenCaptured (s.setAccess s.dbg.en true) (s.regWord 0x20400)) := by
  unfold execDbgen
  rw [if_neg (by rw [hck]; exact Bool.false_ne_true), dbgenCaptured]

/-- DBGEN gives access, and where access begins nothing of the injection changes. -/
theorem execDbgen_access {s : State} (hck : s.pwr.clkFail = false) :
    ∃ t, execDbgen s = .next t ∧ t.debugOn = true ∧ t.dbg.en = s.dbg.en ∧ t.faults = s.faults := by
  obtain ⟨hen, htap, -, hfaults⟩ := setAccess_cases s s.dbg.en true
  obtain ⟨hon, hen', hfaults'⟩ := dbgenCaptured_keeps (s.setAccess s.dbg.en true) (s.regWord 0x20400)
  refine ⟨_, execDbgen_clocked hck, hon.trans ?_, hen'.trans hen, hfaults'.trans (hfaults (Bool.or_true _))⟩
  rw [State.debugOn, htap, Bool.or_true]

/-- Settles O57: without GO the register keeps what was shifted in, with it each instrument gives the words of its case. -/
theorem testAccess : Obligations.TestAccess := by
  refine ⟨fun s => ⟨rfl, ?reset⟩, fun s hck => ?dbgen, fun s hck hcur => ⟨fun v hv => ?idle, fun v hv => ⟨fun hw ha => ?window, fun hw h4 ha hok hhits hd => ?write,
    fun hw h4 hok hwide hlatch => ?read, fun h => ?store, fun h harm => ?sram, fun h => ?slice, fun w hw h64 h68 => ?fuse, ?trace⟩, fun raw => ?therm⟩⟩
  case reset =>
    obtain ⟨hen, htap, -⟩ := setAccess_cases s s.dbg.en false
    exact ⟨_, rfl, htap, rfl, hen⟩
  case dbgen => exact execDbgen_access hck
  case idle =>
    have hidle := fun sib act => instrument_idle hck hcur hv sib act
    exact ⟨next_congr (hidle 0 _), next_congr (hidle 1 _), next_congr (hidle 2 _), next_congr (hidle 3 _), next_congr (hidle 4 _), next_congr (hidle 6 _)⟩
  case window =>
    exact ⟨s.regacc v, next_congr (instrument_runs hck hcur hv 0 _), eq_setTdr_shown (regacc_write_window hw ha)⟩
  case write => exact next_congr ((instrument_runs hck hcur hv 0 _).trans (regacc_write hw h4 ha hok hhits hd))
  case read => exact next_congr ((instrument_runs hck hcur hv 0 _).trans (regacc_read hw h4 hok hwide hlatch))
  case store =>
    have hno : ¬ (s.puns.isEmpty = true ∧ s.roots.isEmpty = true) := by simpa [or_iff_not_imp_left] using h
    refine next_congr ((instrument_runs hck hcur hv 1 _).trans ?_)
    dsimp only
    rw [if_neg hno]
  case sram =>
    have hhid : (!s.puns.isEmpty || !s.roots.isEmpty) = true := by simpa using h
    refine next_congr ((instrument_runs hck hcur hv 2 _).trans ?_)
    dsimp only
    rw [harm, hhid]
    rfl
  case slice =>
    have hno : (s.live && s.idleWindow) = false := by rcases h with h | h <;> simp [h]
    refine next_congr ((instrument_runs hck hcur hv 3 _).trans ?_)
    dsimp only
    rw [hno]
    rfl
  case fuse =>
    refine next_congr ((instrument_runs hck hcur hv 4 _).trans ?_)
    dsimp only
    rw [hw, if_neg (by omega), if_pos h68]
  case trace => exact next_congr (instrument_runs hck hcur hv 6 _)
  case therm => exact ⟨_, next_neg (by simp [hck]; omega), rfl, rfl, rfl⟩

end Sys2Proof.Proofs

/-! PROOFS. The Orchard links (R297 to R301, R328 to R330): O53 and O54. -/

namespace Sys2Proof.Proofs

open Sys2Proof.Machine Sys2Proof.Laws

/-! ## What causes and events can change -/

/-- Nothing differs but the ports, the counters, and what is driven. -/
def Signals (s t : State) : Prop := ∃ cpa cpb cnts outs, t = { s with cpa := cpa, cpb := cpb, cnts := cnts, outs := outs }

theorem Signals.trans {s t u : State} (h : Signals s t) (g : Signals t u) : Signals s u := by
  obtain ⟨_, _, _, _, rfl⟩ := h
  obtain ⟨_, _, _, _, rfl⟩ := g
  exact ⟨_, _, _, _, rfl⟩

/-- What the signals do not reach is kept. -/
theorem Signals.keeps {s t : State} (h : Signals s t) {α : Type} (f : State → α)
    (hf : ∀ cpa cpb cnts outs, f { s with cpa := cpa, cpb := cpb, cnts := cnts, outs := outs } = f s) : f t = f s := by
  obtain ⟨_, _, _, _, rfl⟩ := h
  exact hf _ _ _ _

theorem setPort_signals (s : State) (p : PortId) (q : Port) : Signals s (s.setPort p q) := by
  cases p <;> exact ⟨_, _, _, _, rfl⟩

theorem refresh_signals (s : State) (p : PortId) (w1c : Bool) : Signals s (s.refresh p w1c) :=
  (setPort_signals s p _).trans ⟨_, _, _, _, rfl⟩

theorem setCause1_signals (s : State) (p : PortId) (b : Nat) : Signals s (s.setCause1 p b) := (setPort_signals s p _).trans (refresh_signals _ p false)

theorem bump_signals (s : State) (off : Nat) : Signals s (s.bump off) := ⟨_, _, _, _, rfl⟩

theorem setCause_signals (s : State) (b : Nat) : Signals s (s.setCause b) :=
  ((setCause1_signals s .cpa b).trans (setCause1_signals _ .cpb b)).trans (bump_signals _ _)

theorem setCause_orch (s : State) (b : Nat) : (s.setCause b).orch = s.orch := (setCause_signals s b).keeps State.orch fun _ _ _ _ => rfl

theorem setCause1_intStatus (s : State) (p : PortId) (b : Nat) :
    ((s.setCause1 p b).port p).intStatus = (s.port p).intStatus ||| BitVec.ofNat 15 (2 ^ b) := by
  rw [State.setCause1, refresh_port, setPort_self]; rfl

theorem setCause1_bit (s : State) (p : PortId) {b : Nat} (hb : b < 15) : bitAt ((s.setCause1 p b).port p).intStatus b = true := by
  simp only [setCause1_intStatus, bitAt, BitVec.getLsbD_or, BitVec.getLsbD_ofNat, hb, Nat.testBit_two_pow_self, decide_true, Bool.and_true,
    Bool.or_true]

theorem setCause1_other (s : State) (b : Nat) : (s.setCause1 .cpb b).cpa = s.cpa := rfl

/-- A shared cause stands in both ports. -/
theorem setCause_bits (s : State) {b : Nat} (hb : b < 15) :
    bitAt (s.setCause b).cpa.intStatus b = true ∧ bitAt (s.setCause b).cpb.intStatus b = true := by
  have ha := setCause1_bit s .cpa hb
  unfold State.setCause
  generalize s.setCause1 .cpa b = t at ha
  exact ⟨ha, setCause1_bit t .cpb hb⟩

/-! ## Frames received -/

theorem frameAt_down {s : State} {p : Nat} (h : s.live = false ∨ (s.orch.link p).enabled = false ∨ (s.orch.link p).st ≠ 2) (f : Frame)
    (act : State → State) : frameAt p f act s = s := if_pos h

theorem frameAt_bad {s : State} {p : Nat} (hl : s.live = true) (he : (s.orch.link p).enabled = true) (hst : (s.orch.link p).st = 2) {f : Frame}
    (hf : frOk f = false) (act : State → State) : frameAt p f act s = (s.badFrame p).nak p :=
  (if_neg (by simp [hl, he, hst])).trans (if_pos hf)

/-- The state in which a frame has been heard at a port. -/
def heardAt (s : State) (p : Nat) (f : Frame) : State := s.setLink p { (s.orch.link p).heard f with asleep := false }

theorem frameAt_good {s : State} {p : Nat} (hl : s.live = true) (he : (s.orch.link p).enabled = true) (hst : (s.orch.link p).st = 2) {f : Frame}
    (hf : frOk f = true) (act : State → State) : frameAt p f act s = (act (heardAt s p f)).pumpLink p :=
  (if_neg (by simp [hl, he, hst])).trans (if_neg (by rw [hf]; exact Bool.noConfusion))

theorem heardAt_lastAcc (s : State) (p : Nat) (f : Frame) : ((heardAt s p f).orch.link p).lastAcc = (s.orch.link p).lastAcc := by
  rw [heardAt, setLink_link, if_pos rfl]
  exact heard_lastAcc _ f

theorem up_of {l : Link} (hst : l.st = 2) (ha : l.asleep = false) : l.up = true := by simp [Link.up, hst, ha]

/-- What an idle port sends: its acknowledgement and the credits it owes. -/
def idleSent (s : State) (p : Nat) : State :=
  (s.setLink p (s.orch.link p).paid).driveFrame p
    (mkFrame ftIdle 0 0 (s.orch.link p).lastAcc 0 (s.orch.link p).owes.1 (s.orch.link p).owes.2 0 [])

theorem exec_idleTimer_eq (s : State) (p : Nat) :
    exec (.idleTimer p) s = .next (if s.live && ((s.pumpLink p).orch.link p).up then idleSent (s.pumpLink p) p else s) := rfl

/-! ## Frames sent -/

/-- A channel whose stream is begun goes on with it. -/
theorem begin_going {l : Link} {vc : Nat} (h : Tab.get l.txw vc [] ≠ []) : l.begin_ vc = l := by
  refine if_neg ?_
  simpa using h

theorem sendData_going {l : Link} {vc : Nat} (h : Tab.get l.txw vc [] ≠ []) :
    let n := min (min 8 ((Tab.get l.txw vc []).length / 16)) (Tab.get l.credits vc 0)
    Tab.get (l.sendData vc).1.credits vc 0 = Tab.get l.credits vc 0 - n ∧ (l.sendData vc).2.payload = (Tab.get l.txw vc []).take (16 * n)
      ∧ (l.sendData vc).1.replay = l.replay ++ [(l.sendData vc).2] ∧ (l.sendData vc).1.nextSeq = (l.nextSeq + 1) % 4096 := by
  unfold Link.sendData
  rw [begin_going h]
  exact ⟨tab_get_set_self _ _ _ _, rfl, rfl, rfl⟩

/-- Settles O53: the port's state decides whether a frame is heard, its CRC and sequence what it does there. -/
theorem linkFrames : Obligations.LinkFrames := by
  intro s p f l heard
  refine ⟨fun h => ?down, fun hl he hst => ⟨fun hf => ?bad, fun hf => ⟨?idle, ?nak, fun hseq => ?gap, fun hseq harm => ?accept⟩, fun hf => ?retrain,
    fun ha => ⟨?silent, ?replay, fun hpump => ?idleTimer⟩⟩, fun h => if_pos h, fun h => if_pos (by rw [h]; rfl), fun vc ws hws hne => ?send⟩
  case down => exact ⟨next_congr (frameAt_down h f _), next_congr (frameAt_down h f _), next_congr (frameAt_down h f _)⟩
  case bad =>
    exact ⟨next_congr (frameAt_bad hl he hst hf _), next_congr (frameAt_bad hl he hst hf _), next_congr (frameAt_bad hl he hst hf _)⟩
  case idle => exact next_congr (frameAt_good hl he hst hf _)
  case nak => exact next_congr (frameAt_good hl he hst hf _)
  case gap =>
    refine next_congr ((frameAt_good hl he hst hf _).trans (congrArg (fun t : State => t.pumpLink p) (if_neg ?_)))
    rw [heardAt_lastAcc]
    exact hseq
  case accept =>
    refine next_congr ((frameAt_good hl he hst hf _).trans (congrArg (fun t : State => t.pumpLink p) ((if_pos ?_).trans ?_)))
    · rw [heardAt_lastAcc]
      exact hseq
    · have hquiet : (heardAt s p f).armed 0x09 = none := harm
      rw [hquiet]
      rfl
  case retrain => exact next_pos (by simp [hl, hf, show (s.orch.link p).enabled = true from he, show (s.orch.link p).st = 2 from hst])
  case silent => exact next_pos (by rw [hl, up_of hst ha]; rfl)
  case replay => exact next_pos (by rw [hl, up_of hst ha]; rfl)
  case idleTimer => rw [exec_idleTimer_eq, hpump]; exact next_pos (by rw [hl, up_of hst ha]; rfl)
  case send =>
    subst hws
    exact sendData_going hne

/-! ## Training -/

/-- What a retrain makes of the link. -/
def retrained (l : Link) : Link := { l with st := 1, replays := 0, laneErr := [], frames := 0, train := Training.zero }

theorem retrain_orch (s : State) (p reason : Nat) (send : Bool) :
    (s.retrain p reason send).orch = s.orch.setLink p (retrained (s.orch.link p)) := by
  unfold State.retrain
  dsimp only
  rw [setCause_orch, bump_orch]
  split <;> rfl

theorem retrain_cause (s : State) (p reason : Nat) (send : Bool) :
    bitAt (s.retrain p reason send).cpa.intStatus cOlink = true ∧ bitAt (s.retrain p reason send).cpb.intStatus cOlink = true :=
  setCause_bits _ (by decide)

theorem exec_trainingWord_bad {s : State} {p g lane : Nat} (hl : s.live = true) (h : (s.orch.link p).enabled = false ∨ g ≠ 0 ∨ 9 ≤ lane)
    (ws : List Word) : exec (.trainingWord p g lane ws) s = .next s := (next_pos hl).trans (next_pos h)

/-- A word that ends no step of the training is counted, and nothing more. -/
theorem trainWord_counted {s : State} {p lane : Nat} {ws : List Word} (he : (s.orch.link p).enabled = true) (hst : (s.orch.link p).st = 1)
    (hlane : lane < 9) (hphase : ((s.orch.link p).train.word (s.orch.link p).failed lane ws).phase = (s.orch.link p).train.phase) :
    s.trainWord p 0 lane ws = s.setLink p { s.orch.link p with train := (s.orch.link p).train.word (s.orch.link p).failed lane ws } := by
  have h2 : ¬ ((s.orch.link p).st = 2) := by omega
  have h3 : ¬ ((s.orch.link p).st = 3) := by omega
  unfold State.trainWord
  dsimp only
  rw [if_neg (by simp [he]; omega), if_neg h2, if_pos hphase, if_neg h3]

/-- The link that a TRAIN frame brings up. -/
def trainedLink (l : Link) (f : Frame) : Link :=
  let l0 := if l.fresh || bitAt (f.payload.getD 0 0) 10 then l.afresh
    else if bitsAt (f.payload.getD 1 0) 16 12 = 0xFFF then l else l.acked (bitsAt (f.payload.getD 1 0) 16 12)
  { l0 with st := 2, fresh := false, asleep := false, nakSent := false, lanes := lanesOf l.train.wcode,
            spare := laneBit l.train.txmap 8 && !decide (lanesOf l.train.wcode ≠ 8),
            failed := 0x1FF ^^^ (l.train.peerOk % 512), peer := bitsAt (f.payload.getD 0 0) 0 10 }

theorem trained_link (s : State) (p : Nat) (f : Frame) : (s.trained p f).orch.link p = trainedLink (s.orch.link p) f := by
  unfold State.trained
  dsimp only
  split
  · rw [setCause_orch, State.corrected, setFault_orch, bump_orch]
    exact link_setLink _ _ _
  · exact link_setLink _ _ _

/-- A link that was fresh starts afresh. -/
theorem trainedLink_fresh {l : Link} (h : l.fresh = true) (f : Frame) : (trainedLink l f).nextSeq = 0 ∧ (trainedLink l f).credits = Link.fullCredit := by
  unfold trainedLink
  rw [h, Bool.true_or]
  exact ⟨rfl, rfl⟩

theorem exec_train_done {s : State} {p : Nat} {f : Frame} (hl : s.live = true) (he : (s.orch.link p).enabled = true) (hst : (s.orch.link p).st = 1)
    (hph : (s.orch.link p).train.phase = 3) (hf : frOk f = true) : exec (.train p f) s = .next ((s.trained p f).pumpLink p).purgeGo :=
  next_pos (by simp [hl, he, hst, hph, hf])

/-- The state of a port that has gone down. -/
def portDown (s : State) (p : Nat) : State :=
  (s.setLink p { s.orch.link p with st := 3, fresh := true, queues := [], txw := [], rxw := [] }).setCause cOlink

theorem portDown_member (s : State) (p : Nat) : (portDown s p).orch.member = s.orch.member := by rw [portDown, setCause_orch]; rfl

theorem linkDown_training {s : State} {p : Nat} (he : (s.orch.link p).enabled = true) (hst : (s.orch.link p).st = 1) :
    s.linkDown p = if s.orch.member then (portDown s p).startDisc 2 else portDown s p := by
  rw [← portDown_member s p]
  exact if_neg (by simp [he, hst])

/-- Settles O54: the link that each step leaves at the port, read off through the signals it raises. -/
theorem linkTraining : Obligations.LinkTraining := by
  intro s p hl l
  refine ⟨fun reason send => ⟨?_, retrain_cause s p reason send⟩, fun g lane ws h => exec_trainingWord_bad hl h ws,
    fun lane ws he hst hlane hph => (next_pos hl).trans (next_congr (trainWord_counted he hst hlane hph)), fun f h => next_neg ?_,
    fun f he hst hph hf => ⟨exec_train_done hl he hst hph hf, ?_⟩, fun h => (next_pos hl).trans (next_pos h),
    fun he hst hm => ?_, fun he hst hm => ?_⟩
  · rw [retrain_orch, link_setLink]; rfl
  · rcases h with h | h | h | h <;> simp [show (s.orch.link p) = l from rfl, h]
  · rw [trained_link]
    exact ⟨rfl, rfl, fun h => trainedLink_fresh h f⟩
  · exact (next_pos hl).trans (next_congr ((linkDown_training he hst).trans (if_neg (by rw [hm]; exact Bool.false_ne_true))))
  · exact (next_pos hl).trans (next_congr ((linkDown_training he hst).trans (if_pos hm)))

end Sys2Proof.Proofs

/-! PROOFS. Stream ports and records on TEG (R37, R38, R47 to R52, R398, R400): O45 and O46. -/

namespace Sys2Proof.Proofs

open Sys2Proof.Machine Sys2Proof.Laws

/-! ## Descriptors -/

/-- The block states that take descriptors and payloads. -/
def takesRows (s : State) : Prop := s.blk = .ready ∨ s.blk = .run ∨ s.blk = .drain ∨ s.blk = .safe

theorem exec_rdescAccept_taking {s : State} (hl : s.live = true) (hb : takesRows s) (p : StreamPort) (beat : List Word) (last : Bool) :
    exec (.rdescAccept p beat last) s = .next (s.rdescBeat p beat last).after :=
  next_pos (by rw [hl, Bool.true_and]; exact decide_eq_true hb)

theorem exec_payloadEnd_taking {s : State} (hl : s.live = true) (hb : takesRows s) (p : StreamPort) (n : Nat) (elems : List Word) (ecc : Ecc) :
    exec (.payloadEnd p n elems ecc) s = .next (s.payload p n elems ecc).after :=
  next_pos (by rw [hl, Bool.true_and]; exact decide_eq_true hb)

/-- The state in which a beat has taken its credit and the message before it has ended. -/
def beatTaken (s : State) (p : StreamPort) : State := { s with ing := (s.ing.spend p 1).setMsg p none }

/-- Whether a descriptor comes at the wrong port, or with a payload that it does not have. -/
def wrongBeat (s : State) (p : StreamPort) (rd : Rdesc) (last : Bool) : Bool :=
  decide (rd.port ≠ p) || (last && decide (s.payBeats rd ≠ 0)) || (!last && decide (s.payBeats rd = 0))

/-- The payload that follows a descriptor is awaited for a row, or passed over. -/
def payloadAwaited (s : State) (p : StreamPort) (seq beats : Nat) (last : Bool) : State :=
  if last then s else { s with ing := s.ing.setMsg p (some { seq := seq, beats := beats }) }

theorem rdescBeat_first {s : State} {p : StreamPort} (hc : 0 < s.ing.credits p) (hm : s.ing.msg p = none) (beat : List Word) (last : Bool) :
    s.rdescBeat p beat last =
      if dcrcOk beat = false ∨ s.admits (rdescOf beat).handle = false
      then payloadAwaited ((beatTaken s p).ingReject (dcrcOk beat) (rdescOf beat).handle) p 0 (s.payBeats (rdescOf beat)) last
      else if s.blk = .safe then payloadAwaited ((beatTaken s p).safeRow (rdescOf beat)) p 0 (s.payBeats (rdescOf beat)) last
      else
        let s2 := (beatTaken s p).admitRow (rdescOf beat) (wrongBeat s p (rdescOf beat) last)
        payloadAwaited s2 p (if wrongBeat s p (rdescOf beat) last then 0 else s2.ing.seq) (s.payBeats (rdescOf beat)) last := by
  unfold State.rdescBeat
  rw [if_neg (by omega)]
  dsimp only
  rw [hm]
  rfl

/-- A rejected descriptor is counted, makes no row and no record, and its payload is passed over. -/
theorem payloadAwaited_rejected (s : State) (p : StreamPort) (ok : Bool) (h : Handle) (n : Nat) (last : Bool) :
    let u := payloadAwaited ((beatTaken s p).ingReject ok h) p 0 n last
    u.rows = s.rows ∧ u.eg = s.eg ∧ u.cnt offIngRej = satAdd (2 ^ 32 - 1) (s.cnt offIngRej) 1
      ∧ u.ing = if last then (beatTaken s p).ing else (beatTaken s p).ing.setMsg p (some { seq := 0, beats := n }) := by
  obtain ⟨hrows, heg, hing, hcnt⟩ := ingReject_keeps (beatTaken s p) ok h
  cases last with
  | true => exact ⟨hrows, heg, hcnt, hing⟩
  | false => exact ⟨hrows, heg, hcnt, congrArg (fun g : Ingress => g.setMsg p (some { seq := 0, beats := n })) hing⟩

/-- The home's answer in SAFE. -/
theorem safeRow_home {s : State} {rd : Rdesc} (h : s.isHome rd.handle.slot = true) : s.safeRow rd =
    (({ s with ing := { s.ing with seq := s.ing.seq + 1 }, rows := s.rows ++ [s.newRow rd (some 0x37)] } : State).voidSafe
      (s.newRow rd (some 0x37)) 0x37).pump := if_neg (by rw [h]; exact Bool.noConfusion)

theorem safeRow_elsewhere {s : State} {rd : Rdesc} (h : s.isHome rd.handle.slot = false) : s.safeRow rd = s := if_pos h

theorem admitRow_home {s : State} {rd : Rdesc} {wrong : Bool} (h : s.isHome rd.handle.slot = true) : s.admitRow rd wrong =
    ((((({ s with ing := { s.ing with seq := s.ing.seq + 1 }, rows := s.rows ++ [s.newRow rd (s.admitCause rd wrong)] } : State).touch
      rd.handle.slot).startFetch rd.handle.slot .head).settleAdmit (s.newRow rd (s.admitCause rd wrong))).groupAnswer rd.key
        (s.rows.any (fun r => decide (r.key = rd.key))) (decide ((s.slot rd.handle.slot).rstate = 2))).pump := by
  unfold State.admitRow
  simp only [h, if_true]
  rfl

theorem beatTaken_seq (s : State) (p : StreamPort) : (beatTaken s p).ing.seq = s.ing.seq := seq_spend_setMsg _ _ _ _

/-- A position that R38 refuses. -/
abbrev misplaced (x : Scx) (rd : Rdesc) : Prop :=
  ((rd.cls = clDecode ∨ rd.cls = clFirst) ∧ rd.pos ≠ x.clen) ∨ (rd.cls = clVerify ∧ rd.pos ≠ x.clen + rd.gidx)

theorem posOk_iff (x : Scx) (rd : Rdesc) : (!posOk x rd) = true ↔ misplaced x rd := by
  unfold posOk misplaced
  by_cases h1 : rd.cls = clDecode ∨ rd.cls = clFirst
  · have h2 : rd.cls ≠ clVerify := by rcases h1 with h | h <;> rw [h] <;> decide
    simp [h1, h2]
  · rw [if_neg h1]
    by_cases h2 : rd.cls = clVerify
    · have hne : ¬ (clVerify = clDecode ∨ clVerify = clFirst) := by decide
      simp [h2, hne]
    · simp [h1, h2]

theorem any_key_iff (rows : List Row) (k : RowKey) : rows.any (fun r => decide (r.key = k)) = true ↔ ∃ r ∈ rows, r.key = k := by simp

theorem rdBad_iff (s : State) (rd : Rdesc) : s.rdBad rd = true ↔ (rd.bad = true ∨ (rd.cls = clScore ∧ (s.head rd.hset).v ≤ rd.target)) := by
  simp [State.rdBad]

theorem admitCause_eq (s : State) (rd : Rdesc) (wrong : Bool) :
    s.admitCause rd wrong
      = if s.isLost rd.handle.slot = true then some 0x13
        else if rd.bad = true ∨ (rd.cls = clScore ∧ (s.head rd.hset).v ≤ rd.target) then some 0x1D
        else if rd.deadline = 0 ∨ rd.deadline < s.cfg.egressres then some 0x33
        else if wrong = true ∨ misplaced (s.ctx rd.handle.slot) rd ∨ (∃ r ∈ s.rows, r.key = rd.key) then some 0x34
        else none := by
  simp only [State.admitCause, firstBad, rdBad_iff, decide_eq_true_iff, Bool.or_eq_true, posOk_iff, any_key_iff, or_assoc]

/-! ## Payloads -/

theorem spendBeats_rows (s : State) (p : StreamPort) (n : Nat) : (s.spendBeats p n).rows = s.rows := by
  unfold State.spendBeats
  dsimp only
  split <;> rfl

theorem spendBeats_blk (s : State) (p : StreamPort) (n : Nat) : (s.spendBeats p n).blk = s.blk := by
  unfold State.spendBeats
  dsimp only
  split <;> rfl

/-- The state in which a payload's beats are spent and its message has ended. -/
def payloadTaken (s : State) (p : StreamPort) (n : Nat) : State := { s.spendBeats p n with ing := (s.spendBeats p n).ing.setMsg p none }

theorem payload_stays {s : State} {p : StreamPort} {m : InMsg} (hm : s.ing.msg p = some m) {n : Nat} (hg : s.granting = false) (hc : s.ing.credits p < n)
    (elems : List Word) (ecc : Ecc) : s.payload p n elems ecc = s := by
  unfold State.payload
  rw [hm]
  exact if_pos ⟨hg, hc⟩

section
variable {s : State} {p : StreamPort} {m : InMsg} {n : Nat}

theorem payloadTaken_blk (s : State) (p : StreamPort) (n : Nat) : (payloadTaken s p n).blk = s.blk := spendBeats_blk s p n

theorem payloadTaken_rows (s : State) (p : StreamPort) (n : Nat) : (payloadTaken s p n).rows = s.rows := spendBeats_rows s p n

/-- A payload that is passed over. -/
theorem payload_passed (hm : s.ing.msg p = some m) (hok : s.granting = true ∨ n ≤ s.ing.credits p) (h : m.seq = 0 ∨ s.blk = .safe)
    (elems : List Word) (ecc : Ecc) : s.payload p n elems ecc = payloadTaken s p n := by
  unfold State.payload
  rw [hm]
  refine (if_neg ?_).trans (if_pos (h.imp_right (payloadTaken_blk s p n).trans))
  rcases hok with hg | hc
  · rw [hg]; exact fun hx => nomatch hx.1
  · omega

/-- A payload with another count of beats than its row's. -/
theorem payload_short (hm : s.ing.msg p = some m) (hok : s.granting = true ∨ n ≤ s.ing.credits p) (hseq : m.seq ≠ 0) (hb : s.blk ≠ .safe)
    (hn : n ≠ m.beats) (elems : List Word) (ecc : Ecc) : s.payload p n elems ecc = (payloadTaken s p n).cutShort m.seq := by
  unfold State.payload
  rw [hm]
  refine (if_neg ?_).trans ((if_neg ?_).trans (if_pos hn))
  · rcases hok with hg | hc
    · rw [hg]; exact fun hx => nomatch hx.1
    · omega
  · exact fun hx => hx.elim hseq fun hsafe => hb ((payloadTaken_blk s p n).symm.trans hsafe)

/-- A clean payload whose inputs put no doubt on its row. -/
theorem payload_row (hm : s.ing.msg p = some m) (hok : s.granting = true ∨ m.beats ≤ s.ing.credits p) (hseq : m.seq ≠ 0) (hb : s.blk ≠ .safe)
    {elems : List Word} {r : Row} (hr : s.rows.find? (fun r => decide (r.seq = m.seq)) = some r)
    (hgood : (payloadTaken s p m.beats).inputBad r.rd (if r.rd.hsrc = 3 then elems else (asB16 elems).map ofB16) = false) :
    s.payload p m.beats elems .clean =
      { payloadTaken s p m.beats with rows := s.rows.map (fun (x : Row) => if x.seq = m.seq then x.withData elems else x) } := by
  have hstay : ¬ (s.granting = false ∧ s.ing.credits p < m.beats) := by
    rcases hok with hg | hc
    · rw [hg]; exact fun hx => nomatch hx.1
    · omega
  have hpassed : ¬ (m.seq = 0 ∨ (payloadTaken s p m.beats).blk = .safe) := by
    rw [payloadTaken_blk]
    exact fun hx => hx.elim hseq hb
  have hrow : (payloadTaken s p m.beats).rows.find? (fun r => decide (r.seq = m.seq)) = some r := by rw [payloadTaken_rows]; exact hr
  have hmap := congrArg (List.map (fun (x : Row) => if x.seq = m.seq then x.withData elems else x)) (payloadTaken_rows s p m.beats)
  unfold State.payload
  rw [hm]
  dsimp only
  rw [if_neg hstay]
  change (if m.seq = 0 ∨ (payloadTaken s p m.beats).blk = .safe then payloadTaken s p m.beats else _) = _
  rw [if_neg hpassed, if_neg (not_not_intro rfl)]
  split
  next h => exact nomatch hrow.symm.trans h
  next q h =>
    obtain rfl : r = q := Option.some.inj (hrow.symm.trans h)
    rw [if_neg (nofun : Ecc.clean ≠ .uncorrectable), if_neg (nofun : Ecc.clean ≠ .corrected)]
    refine (if_neg ?_).trans ?_
    · exact fun hbad => Bool.noConfusion (hgood.symm.trans hbad)
    · exact congrArg (fun rows => ({ payloadTaken s p m.beats with rows := rows } : State)) hmap

end

/-- Settles O45: the cases of a beat and of a payload's end, in the order in which they are decided. -/
theorem streamPortsTakeRows : Obligations.StreamPortsTakeRows := by
  intro s p hl hb
  refine ⟨fun beat last hc => ?noCredit, fun beat last hc hm => ?first, fun rd wrong => admitCause_eq s rd wrong,
    fun n elems ecc hm => ?noMessage, fun m n elems ecc hm => ⟨fun hg hc => ?stays, fun hok => ⟨fun h => ?passed, fun hseq hsafe hn => ?short,
      fun r hseq hsafe hn hr hgood => ?row⟩⟩⟩
  case noCredit => rw [exec_rdescAccept_taking hl hb, State.rdescBeat, if_pos hc]
  case first =>
    have hseq := beatTaken_seq s p
    refine ⟨credits_spend_setMsg _ _ _ _, fun hbad => ⟨_, ?_, payloadAwaited_rejected s p (dcrcOk beat) (rdescOf beat).handle _ last⟩,
      fun hok hadm hsafe => ⟨fun hh => ?_, fun hh => safeRow_elsewhere hh, fun hlast => ?_⟩,
      fun hok hadm hsafe => ⟨?_, fun hh => ?_, rfl, rfl, rfl, rfl, rfl, rfl⟩⟩
    · rw [exec_rdescAccept_taking hl hb, rdescBeat_first hc hm, if_pos hbad]
    · rw [← hseq]
      exact safeRow_home hh
    · have hno : ¬ (dcrcOk beat = false ∨ s.admits (rdescOf beat).handle = false) := by rw [hok, hadm]; nofun
      rw [exec_rdescAccept_taking hl hb, rdescBeat_first hc hm, if_neg hno, if_pos hsafe, hlast]
      rfl
    · have hno : ¬ (dcrcOk beat = false ∨ s.admits (rdescOf beat).handle = false) := by rw [hok, hadm]; nofun
      rw [exec_rdescAccept_taking hl hb, rdescBeat_first hc hm, if_neg hno, if_neg hsafe]
      cases last <;> rfl
    · rw [← hseq]
      exact admitRow_home hh
  case noMessage => rw [exec_payloadEnd_taking hl hb, State.payload, hm]
  case stays => rw [exec_payloadEnd_taking hl hb, payload_stays hm hg hc]
  case passed => rw [exec_payloadEnd_taking hl hb, payload_passed hm hok h]; rfl
  case short => rw [exec_payloadEnd_taking hl hb, payload_short hm hok hseq hsafe hn]; rfl
  case row =>
    subst hn
    rw [exec_payloadEnd_taking hl hb, payload_row hm hok hseq hsafe hr hgood]
    rfl

/-! ## Records on TEG -/

section
variable {s : State} {r : EgRec} {rest : List EgRec}

theorem egStep_failed (hq : s.eg.queue = r :: rest) (hf : (s.cring r.ring).failed = true) :
    s.egStep = some ((({ s with eg := { s.eg with queue := rest } } : State).undelivered).dropRow r.key) := by
  unfold State.egStep
  rw [hq]
  exact if_pos hf

theorem egStep_pads (hq : s.eg.queue = r :: rest) (hf : (s.cring r.ring).failed = false) (hd : r.done = 0) (hl : (s.cring r.ring).left < r.units) :
    s.egStep = some { s with eg := { s.eg with queue := padRec r.ring (min 7 (s.cring r.ring).left) r.due :: r :: rest } } := by
  unfold State.egStep
  rw [hq]
  dsimp only
  rw [hf]
  rw [if_neg Bool.false_ne_true, if_pos ⟨hd, hl⟩]

/-- A record that fits in its ring's buffer waits or writes a beat. -/
theorem egStep_fits (hq : s.eg.queue = r :: rest) (hf : (s.cring r.ring).failed = false) (hl : r.done = 0 → r.units ≤ (s.cring r.ring).left) :
    s.egStep = if s.eg.fabric = 0 ∨ (s.cring r.ring).credits < min 2 (r.units - r.done) ∨ s.eg.outst.any (fun w => w.tag = s.eg.tag) then none
      else some (s.egBeat r rest) := by
  unfold State.egStep
  rw [hq]
  dsimp only
  rw [hf]
  rw [if_neg Bool.false_ne_true, if_neg fun h => Nat.not_le.2 h.2 (hl h.1)]

end

theorem partner_spec {s : State} {r q : EgRec} {rest : List EgRec} (h : s.partner r rest = some q) :
    rest.head? = some q ∧ r.units - r.done = 1 ∧ q.ring = r.ring ∧ q.done = 0 ∧ 1 + q.units ≤ (s.cring r.ring).left ∧ 2 ≤ (s.cring r.ring).credits := by
  obtain ⟨hhead, hq⟩ := Option.filter_eq_some_iff.1 h
  exact ⟨hhead, of_decide_eq_true hq⟩

/-- The write of a beat. -/
def beatWrite (s : State) (r : EgRec) (rest : List EgRec) : TegWrite :=
  let n := min 2 (r.units - r.done)
  let p := s.partner r rest
  { tag := s.eg.tag, ring := r.ring, notify := false, addr := (s.cring r.ring).at_,
    words := s.unitsOut r n ++ (p.map (fun q => s.unitsOut q 1)).getD [], retry := false, grps := r.grp :: (p.map (fun q => q.grp)).toList }

theorem beatWrite_alone {s : State} {r : EgRec} {rest : List EgRec} (h : s.partner r rest = none) :
    (beatWrite s r rest).words = ((s.issued r).drop (8 * r.done)).take (8 * min 2 (r.units - r.done)) := by
  unfold beatWrite
  dsimp only
  rw [h]
  exact List.append_nil _

theorem beatWrite_shared {s : State} {r q : EgRec} {rest : List EgRec} (h : s.partner r rest = some q) :
    (beatWrite s r rest).words = ((s.issued r).drop (8 * r.done)).take (8 * min 2 (r.units - r.done)) ++ (s.issued q).take 8 := by
  obtain ⟨-, -, -, hq, -, -⟩ := partner_spec h
  unfold beatWrite
  dsimp only
  rw [h, Option.map_some, Option.getD_some, State.unitsOut, State.unitsOut, hq]
  rfl

/-- The configuration, the writes that wait for their acknowledgement, and the fabric credits. -/
def egressView (s : State) : Conf × List TegWrite × Nat := (s.conf, s.eg.outst, s.eg.fabric)

theorem trecIssued_egressView (s : State) (r : EgRec) : egressView (s.trecIssued r) = egressView s := by
  obtain ⟨hconf, houtst, hfabric⟩ := trecIssued_keeps s r
  rw [egressView, hconf, houtst, hfabric, egressView]

/-- The ring after a beat. -/
def beatRing (s : State) (r : EgRec) (rest : List EgRec) : CRing :=
  let m := min 2 (r.units - r.done) + b2n (s.partner r rest).isSome
  { s.cring r.ring with pi := ((s.cring r.ring).pi + m) % 2 ^ 32, credits := (s.cring r.ring).credits - m, unacked := (s.cring r.ring).unacked + 1 }

theorem egBeat_egressView (s : State) (r : EgRec) (rest : List EgRec) : egressView (s.egBeat r rest)
    = ((s.setCring r.ring (beatRing s r rest)).conf, s.eg.outst ++ [beatWrite s r rest], s.eg.fabric - 1) := by
  have hfirst : ∀ t : State, egressView (if r.done = 0 then t.trecIssued r else t) = egressView t := fun t => by
    split
    · exact trecIssued_egressView t r
    · rfl
  unfold State.egBeat beatRing beatWrite
  dsimp only
  cases s.partner r rest with
  | some q => rw [trecIssued_egressView, hfirst]; rfl
  | none => rw [hfirst]; rfl

theorem cring_setCring (s : State) (n : Nat) (c : CRing) : (s.setCring n c).cring n = c := tab_get_set_self _ _ _ _

theorem cring_of_conf {s t : State} (h : t.conf = s.conf) (n : Nat) : t.cring n = s.cring n := by rw [State.cring, h, State.cring]

theorem egBeat_spends (s : State) (r : EgRec) (rest : List EgRec) :
    (s.egBeat r rest).cring r.ring = beatRing s r rest ∧ (s.egBeat r rest).eg.outst = s.eg.outst ++ [beatWrite s r rest]
      ∧ (s.egBeat r rest).eg.fabric = s.eg.fabric - 1 := by
  have h := egBeat_egressView s r rest
  simp only [egressView, Prod.mk.injEq] at h
  obtain ⟨hconf, houtst, hfabric⟩ := h
  exact ⟨(cring_of_conf hconf _).trans (cring_setCring s _ _), houtst, hfabric⟩

/-! ### Acknowledgements and credits -/

theorem exec_tegAck_clocked {s : State} (hck : s.pwr.clkFail = false) (hcur : 2 ≤ s.pwr.cur) (tag : Nat) (err : Bool) :
    exec (.tegAck tag err) s = .next (s.teg tag err).after := next_neg (by simp [hck]; omega)

theorem teg_unknown {s : State} {tag : Nat} (h : ∀ w ∈ s.eg.outst, w.tag ≠ tag) (err : Bool) : s.teg tag err = s := by
  have hnone : s.eg.outst.find? (fun w => decide (w.tag = tag)) = none := List.find?_eq_none.2 fun w hw => by simpa using h w hw
  unfold State.teg
  rw [hnone]

section
variable {s : State} {tag : Nat} {w : TegWrite} (hw : s.eg.outst.find? (fun w => decide (w.tag = tag)) = some w) (harm : s.armed 0x0D = none)
include hw harm

theorem teg_ok : s.teg tag false = (s.tegOk w).pump := by
  unfold State.teg
  rw [hw]
  dsimp only
  rw [harm]
  rfl

theorem teg_retry (hr : w.retry = false) : s.teg tag true = s.tegRetry w := by
  unfold State.teg
  rw [hw]
  dsimp only
  rw [harm]
  exact if_pos hr

theorem teg_fails (hr : w.retry = true) (hf : (s.cring w.ring).failed = false) :
    s.teg tag true = (({ s.setCring w.ring { s.cring w.ring with
        unacked := if w.notify then (s.cring w.ring).unacked else (s.cring w.ring).unacked - 1 } with
      eg := { s.eg with outst := s.eg.outst.erase w } } : State).openLost w).ringFail w.ring false := by
  unfold State.teg
  simp only [hw, harm, hr, hf, Bool.false_eq_true, Bool.true_eq_false, false_and, if_false]

end

theorem notifyAll_mem (s : State) : s.notifyAll.mem = s.mem := foldl_keeps (g := State.mem) tokensReady_mem _ s

/-- An acknowledged write stands in memory. -/
theorem tegOk_mem (s : State) (w : TegWrite) : (s.tegOk w).mem = s.mem.store w.addr (wordsBytes w.words) := by
  unfold State.tegOk
  dsimp only
  split
  · rfl
  · rw [notifyAll_mem]; rfl

/-- Settles O46: each action of egress by the condition under which it is taken, each answer of TEG by the write that it names. -/
theorem recordsLeaveByCredits : Obligations.RecordsLeaveByCredits := by
  refine ⟨fun s r rest hq => ⟨fun hf => egStep_failed hq hf, fun hf hd hl => egStep_pads hq hf hd hl, fun hf hl hno => ?waits,
      fun hf hl hfab hcr hout => ?beats, ?beat⟩, fun s r q rest h => partner_spec h,
    fun s hck hcur => ⟨fun tag err h => ?unknown, fun tag w hw harm => ⟨⟨?ok, tegOk_mem s w⟩, fun hr => ?again, fun hr hf => ?fails⟩, fun n => ?fabric,
      fun r n => ?ring⟩⟩
  case waits => rw [egStep_fits hq hf hl, if_pos (or_assoc.1 (.inl hno))]
  case beats =>
    have hfree : s.eg.outst.any (fun w => w.tag = s.eg.tag) = false := List.any_eq_false.2 fun w hw => by simpa using hout w hw
    rw [egStep_fits hq hf hl, if_neg (by rw [hfree]; simp only [Bool.false_eq_true, or_false]; omega)]
  case beat =>
    obtain ⟨hring, houtst, hfabric⟩ := egBeat_spends s r rest
    refine ⟨?_, ?_, hfabric, beatWrite s r rest, houtst, rfl, rfl, rfl, rfl, beatWrite_alone, fun q => beatWrite_shared⟩
    · rw [hring]; rfl
    · rw [hring]; rfl
  case unknown => rw [exec_tegAck_clocked hck hcur, teg_unknown h]
  case ok => rw [exec_tegAck_clocked hck hcur, teg_ok hw harm]
  case again => rw [exec_tegAck_clocked hck hcur, teg_retry hw harm hr]; rfl
  case fails => rw [exec_tegAck_clocked hck hcur, teg_fails hw harm hr hf]
  case fabric => exact next_neg (by simp [hck]; omega)
  case ring => exact next_neg (by simp [hck]; omega)

end Sys2Proof.Proofs

/-! PROOFS. The assembler and the deadlines of rows (R20, R22, R23, R53 to R55, R269, R310, R313): O47. -/

namespace Sys2Proof.Proofs

open Sys2Proof.Machine Sys2Proof.Laws

/-! ## What the block does of itself where the assembler acts -/

/-- The state in which the assembler looks at the clock. -/
def beforeAssembler (s : State) : State := ((s.injectCore.voidDoubts).retireDone).advanceJobs

/-- What follows the assembler's work. -/
def afterAssembler (u : State) : State := (((u.retireDone.feed).rescoreGo).grantCredits).pump

theorem after_serving {s : State} (hl : s.live = true) (hb : s.blk = .ready ∨ s.blk = .run ∨ s.blk = .drain) (hsafe : s.injectCore.blk ≠ .safe) :
    s.after = afterAssembler (beforeAssembler s).assemble := by
  unfold State.after
  rw [if_neg (by rw [(live_parts hl).1]; exact Bool.false_ne_true), if_neg (by rw [hl]; exact Bool.noConfusion), if_pos hb]
  exact if_neg hsafe

/-- An open punnet with rows whose window is over, or whose rows would be late if it waited on, is closed first. -/
theorem assembleGo_closes {w : State} {o : OpenPun} (k : Nat) (ho : w.asm.punOpen = some o) (hrows : o.rows ≠ [])
    (hdue : o.opened + o.gather < w.now ∨ (w.nextUnit o = none ∧ (o.opened + o.gather ≤ w.now ∨ w.short o (w.estimateWith o []) = true))) :
    State.assembleGo (k + 1) w = State.assembleGo k (w.closeOpen o) := by
  have hsome : o.rows.isEmpty = false := List.isEmpty_eq_false_iff.2 hrows
  generalize hgoal : State.assembleGo k (w.closeOpen o) = closed
  unfold State.assembleGo
  rw [ho]
  dsimp only
  rw [hgoal]
  by_cases hover : o.opened + o.gather < w.now
  · exact if_pos ⟨hsome, hover⟩
  · obtain ⟨hnext, hlate⟩ := hdue.resolve_left hover
    rw [if_neg (fun h => hover h.2), hnext]
    dsimp only
    rw [if_neg (by rw [hsome]; exact Bool.false_ne_true), if_pos (.inr hlate)]

/-- The steps left to the assembler after its first. -/
def assemblerSteps (w : State) : Nat := 4 * (w.asm.rows.length + w.asm.repeats.length) + 23

theorem assemble_serving {w : State} (hroot : w.isRoot = true) (hl : w.live = true) (hb : w.blk = .ready ∨ w.blk = .run ∨ w.blk = .drain) :
    w.assemble = State.assembleGo (assemblerSteps w + 1) w := if_pos ⟨hroot, hl, hb⟩

theorem serves_of_working {s : State} (hw : s.working = true) (hdump : s.blk ≠ .dump) : s.blk = .ready ∨ s.blk = .run ∨ s.blk = .drain := by
  have hb := of_decide_eq_true (Bool.and_eq_true_iff.1 hw).2
  simpa [hdump] using hb

/-! ## Admit notices -/

theorem mem_putAsm (s : State) (old new : AsmRow) : new ∈ (s.putAsm old new).asm.rows := List.mem_append_right _ List.mem_cons_self

theorem exec_admitMsg_working {s : State} (hw : s.working = true) (h : Hdr) (b : AdmitB) :
    exec (.admitMsg h b) s = .next (s.taking { hdr := h, body := .admitMsg b } (s.onAdmit h b)).after :=
  next_congr (rowStep_working hw h _ _)

/-- The entry that a notice joins. -/
def noticeEntry (s : State) (k : RowKey) (sh : Nat) : AsmRow :=
  (s.asm.rows.find? (fun a => decide (a.key = k) && !a.notices.any (fun n => decide (n.shard = sh)))).getD
    { key := k, notices := [], homeTick := none, passed := false, poor := false, gone := false, told := [] }

/-- The entry after the notice. -/
def noticed (s : State) (k : RowKey) (sh : Nat) (dcrc : Word) (tick : Nat) : AsmRow :=
  { noticeEntry s k sh with
    notices := (noticeEntry s k sh).notices ++ [{ shard := sh, dcrc := dcrc, tick := tick }],
    homeTick := if decide (sh = s.homeOf k.handle.slot) then some s.now else (noticeEntry s k sh).homeTick,
    gone := (noticeEntry s k sh).gone && !decide (sh = s.homeOf k.handle.slot) }

theorem takeNotice_root {s : State} (hroot : s.isRoot = true) (k : RowKey) (sh : Nat) (dcrc : Word) (tick : Nat) :
    s.takeNotice k sh dcrc tick false =
      let v := s.putAsm (noticeEntry s k sh) (noticed s k sh dcrc tick)
      if (noticed s k sh dcrc tick).gone then v.sweep v.asm.rows.length k
      else ((if decide (sh = s.homeOf k.handle.slot) then v.testBalance k else v).checkCopies k).balance k := by
  unfold State.takeNotice
  rw [if_neg (by rw [hroot]; exact Bool.noConfusion)]
  simp only [Bool.not_false, Bool.and_true, Bool.false_or, Bool.false_and, Bool.false_eq_true, if_false]
  rfl

theorem onAdmit_sound {s : State} {h : Hdr} (hme : s.forMe h = true) (hp : h.parity = false) (hh : hdrBroken h = false) (b : AdmitB) :
    s.onAdmit h b = s.takeNotice { handle := h.handle, pos := b.pos, cls := b.cls, gidx := b.gidx } h.src b.dcrc (s.wideTick b.tick) false := by
  unfold State.onAdmit
  simp only [hme, hp, hh, Bool.true_eq_false, Bool.false_eq_true, if_false]

/-! ## The balance test -/

theorem testBalance_poor {s : State} {k : RowKey} {a : AsmRow} (ha : a ∈ (s.testBalance k).asm.rows) (hk : a.key = k) (hg : a.gone = false) :
    a.poor = s.poorNow k.handle.slot := by
  obtain ⟨x, -, hx⟩ := List.mem_map.1 ha
  split at hx
  · rw [← hx]
  next hno =>
    subst hx
    exact absurd ⟨hg, .inl hk⟩ hno

theorem poorNow_iff (s : State) (slot : Nat) : s.poorNow slot = true ↔
    (Tab.get s.tenants (s.ctx slot).tenant Tenant.reset).limit = true ∧ (Tab.get s.tenants (s.ctx slot).tenant Tenant.reset).bal ≤ 0 := by
  simp [State.poorNow]

theorem endBalance_passes {s : State} {k : RowKey} {a : AsmRow} (ha : a ∈ (s.endBalance false [k]).asm.rows) (hk : a.key = k) (hg : a.gone = false) :
    a.passed = true := by
  obtain ⟨x, -, hx⟩ := List.mem_map.1 ha
  split at hx
  · rw [← hx]
  next hno =>
    subst hx
    exact absurd ⟨by rw [hk]; simp, hg⟩ hno

/-! ## Copy skew -/

theorem exec_copySkewExpiry_working {s : State} (hw : s.working = true) (k : RowKey) :
    exec (.copySkewExpiry k) s = .next ((s.dropStray k).skewExpired k).after := next_congr (workStep_working hw _)

theorem find?_eraseP_none {α : Type} {p : α → Bool} {l : List α} (h : l.find? p = none) : (l.eraseP p).find? p = none := by
  rw [List.eraseP_of_forall_not (fun a ha => List.find?_eq_none.1 h a ha)]
  exact h

/-- A stray copy dropped leaves the seat, and an unknown row unknown. -/
theorem dropStray_keeps (s : State) (k : RowKey) : (s.dropStray k).isRoot = s.isRoot ∧ (s.asmRow k = none → (s.dropStray k).asmRow k = none) := by
  unfold State.dropStray
  split
  · dsimp only
    split
    · exact ⟨rfl, fun h => find?_eraseP_none (p := fun (a : AsmRow) => decide (a.key = k) && !a.gone) h⟩
    · exact ⟨rfl, id⟩
  · exact ⟨rfl, id⟩

theorem skewExpired_idle {s : State} {k : RowKey} (h : s.isRoot = false ∨ s.asmRow k = none) : s.skewExpired k = s := by
  unfold State.skewExpired
  split
  · rfl
  next hroot =>
    rw [h.resolve_left hroot]

/-- A copy whose home is still in the group is no stray. -/
theorem dropStray_home {s : State} {k : RowKey} (h : ∀ m ∈ s.orch.members, m.shard = s.homeOf k.handle.slot → m.state ≠ 5) : s.dropStray k = s := by
  have hlost : s.orch.members.any (fun m => decide (m.shard = s.homeOf k.handle.slot ∧ m.state = 5)) = false :=
    List.any_eq_false.2 fun m hm => by simpa using h m hm
  unfold State.dropStray
  split
  · dsimp only
    rw [hlost]
    exact if_neg (fun hx => Bool.false_ne_true hx.2.1)
  · rfl

theorem dropStray_stray {s : State} {k : RowKey} {r : Row} (hr : s.unplaced k = some r) (hhome : r.home = false) (hdue : r.admTick + s.cfg.copyskew ≤ s.now)
    (hlost : ∃ m ∈ s.orch.members, m.shard = s.homeOf k.handle.slot ∧ m.state = 5) :
    s.dropStray k = (({ s with rows := s.rows.filter (fun x => decide (x.seq ≠ r.seq)) } : State).dropAsm k).bump offIngRej := by
  have hany : s.orch.members.any (fun m => decide (m.shard = s.homeOf k.handle.slot ∧ m.state = 5)) = true := by simpa using hlost
  unfold State.dropStray
  rw [hr]
  dsimp only
  rw [hany, if_pos ⟨hhome, rfl, hdue⟩]

/-- A row of no group at the root, by the tick of its home's admission. -/
theorem skewExpired_single {s : State} {k : RowKey} {a : AsmRow} {t : Nat} (hroot : s.isRoot = true) (ha : s.asmRow k = some a) (hcls : k.cls ≠ clVerify)
    (ht : s.homeAdm a = some t) : s.skewExpired k =
      if t + s.cfg.copyskew ≤ s.now ∧ s.placeable a = false ∧ s.inFlight k = false
      then ((s.contained 0x1B (Site.key k)).settleUnplaced k kVoid 0x1B).forget k else s := by
  unfold State.skewExpired
  rw [if_neg (by rw [hroot]; exact Bool.noConfusion), ha]
  simp only [if_neg hcls, ht, Option.map_some, Option.getD_some, decide_eq_true_iff]

/-! ## Closes at a member -/

theorem exec_close_working {s : State} (hw : s.working = true) (h : Hdr) (b : CloseB) :
    exec (.close h b) s = .next (s.taking { hdr := h, body := .close b } (s.onClose h b)).after := next_congr (rowStep_working hw h _ _)

/-! ## Deadlines -/

theorem dropCommits_nil {s : State} (h : s.hcom = []) (p : HomeCommit → Bool) : s.dropCommits p = s := by
  unfold State.dropCommits
  rw [h]
  show ({ s with hcom := [] } : State) = s
  rw [← h]

/-- A row of no group and no punnet is void with its own cause, or for its deadline. -/
theorem expire_unplaced {s : State} {r : Row} (hcls : r.key.cls ≠ clVerify) (hp : r.punnet = none) : s.expire r = s.voidRow r (r.cause.getD 0x30) := by
  have hlate : s.lateHere r = false := by rw [State.lateHere, hp]; rfl
  have hfate : s.fateOf r = [r] := if_neg hcls
  unfold State.expire
  rw [hfate]
  cases hc : r.cause with
  | none => simp [hlate, hc]
  | some c => simp [hc]

theorem deadlineHere_home {s : State} {k : RowKey} {r : Row} (hr : s.rows.find? (fun r => decide (r.key = k ∧ r.due ≤ s.now) && !r.decided) = some r)
    (hhome : r.home = true) (hcls : k.cls ≠ clVerify) (hp : r.punnet = none) (hcom : s.hcom = []) :
    s.deadlineHere k = (s.voidRow r (r.cause.getD 0x30)).pump := by
  have hkey : r.key = k := by
    have h := List.find?_some hr
    simp only [Bool.and_eq_true, decide_eq_true_iff] at h
    exact h.1.1
  unfold State.deadlineHere
  rw [hr]
  dsimp only
  rw [if_pos hhome, dropCommits_nil hcom, expire_unplaced (by rw [hkey]; exact hcls) hp]

theorem deadlineHere_none {s : State} {k : RowKey} (h : ∀ r ∈ s.rows, r.key = k → r.decided = true ∨ s.now < r.due) : s.deadlineHere k = s := by
  have hnone : s.rows.find? (fun r => decide (r.key = k ∧ r.due ≤ s.now) && !r.decided) = none := by
    refine List.find?_eq_none.2 fun r hr hx => ?_
    simp only [Bool.and_eq_true, decide_eq_true_iff, Bool.not_eq_true'] at hx
    obtain ⟨⟨hk, hdue⟩, hdec⟩ := hx
    rcases h r hr hk with h | h
    · exact Bool.noConfusion (hdec.symm.trans h)
    · omega
  unfold State.deadlineHere
  rw [hnone]

/-- Settles O47: each command is the operation that it names, and each operation is read off in the cases of its own definition. -/
theorem assemblerCommands : Obligations.AssemblerCommands := by
  refine ⟨fun s hw => ⟨next_congr (workStep_working hw _), next_congr (workStep_working hw _), fun o hdump hsafe hroot hl hb ho hrows hdue => ?closes,
    fun h b hme hp hh hroot => ⟨mem_putAsm _ _ _, fun hgone => ?admitGone, fun hgone => ?admitKept⟩, fun h b hme => ?passed,
    fun k => ⟨fun a ha hk hg => ?poor, rfl, fun a ha hk hg => endBalance_passes ha hk hg⟩,
    fun k => ⟨fun h => ?skewIdle, fun r hr hhome hdue hlost => dropStray_stray hr hhome hdue hlost,
      fun a t hroot ha hcls ht hmem => ⟨fun hearly => ?early, fun hlate hplace hflight => ?late⟩⟩,
    fun h b => ⟨fun hp => ?closeParity, fun hp hbad => ?closeBad⟩, fun h b hp hh hroot => ⟨fun hnext => ?applied, fun hnext => ?order⟩⟩,
    fun s k hw => ⟨next_congr (workStep_working hw _), fun h => deadlineHere_none h,
      fun r hr hhome hcls hp hcom => deadlineHere_home hr hhome hcls hp hcom⟩⟩
  case closes =>
    have hafter : s.after = afterAssembler (State.assembleGo (assemblerSteps (beforeAssembler s)) ((beforeAssembler s).closeOpen o)) := by
      rw [after_serving (working_live hw) (serves_of_working hw hdump) hsafe]
      exact congrArg afterAssembler ((assemble_serving hroot hl hb).trans (assembleGo_closes _ ho hrows hdue))
    exact ⟨_, (next_congr (workStep_working hw _)).trans (next_congr hafter), (next_congr (workStep_working hw _)).trans (next_congr hafter)⟩
  case admitGone =>
    rw [exec_admitMsg_working hw, onAdmit_sound hme hp hh, takeNotice_root hroot]
    exact next_congr (congrArg State.after (congrArg _ (if_pos hgone)))
  case admitKept =>
    rw [exec_admitMsg_working hw, onAdmit_sound hme hp hh, takeNotice_root hroot]
    exact next_congr (congrArg State.after (congrArg _ (if_neg (by rw [show (noticed _ _ _ _ _).gone = false from hgone]; exact Bool.false_ne_true))))
  case passed => rw [exec_admitMsg_working hw, State.onAdmit, if_pos hme]
  case poor => rw [testBalance_poor ha hk hg, poorNow_iff]
  case skewIdle =>
    obtain ⟨hroot, hrow⟩ := dropStray_keeps s k
    rw [exec_copySkewExpiry_working hw, skewExpired_idle (h.imp hroot.trans hrow)]
  case early => rw [exec_copySkewExpiry_working hw, dropStray_home hmem, skewExpired_single hroot ha hcls ht, if_neg (by omega)]
  case late => rw [exec_copySkewExpiry_working hw, dropStray_home hmem, skewExpired_single hroot ha hcls ht, if_pos ⟨hlate, hplace, hflight⟩]
  case closeParity => rw [exec_close_working hw, State.onClose, if_pos hp]
  case closeBad =>
    rw [exec_close_working hw, State.onClose, if_neg (by rw [hp]; exact Bool.false_ne_true), if_pos (hbad.imp_right .inr)]
  case applied =>
    rw [exec_close_working hw, State.onClose, if_neg (by rw [hp]; exact Bool.false_ne_true), if_neg (by simp [hh, hroot, hnext])]
  case order =>
    rw [exec_close_working hw, State.onClose, if_neg (by rw [hp]; exact Bool.false_ne_true), if_pos (.inr (.inl hnext))]

end Sys2Proof.Proofs

/-! PROOFS. The data path of a punnet: fetches, preludes, weights, the array and selection (R87, R93, R97, R98, R110, R246, R252): O48. -/

namespace Sys2Proof.Proofs

open Sys2Proof.Machine Sys2Proof.Laws

/-! ## Part fetches -/

theorem partFetched_unknown {s : State} {h : Handle} {part : Part}
    (hno : (s.slot h.slot).gen ≠ h.gen ∨ (s.slot h.slot).rstate = 0 ∨ s.fetches.contains (h.slot, part) = false) (ecc : Ecc) :
    s.partFetched h part ecc = s := if_pos hno

section
variable {s : State} {h : Handle} {part : Part} (hgen : (s.slot h.slot).gen = h.gen) (hopen : (s.slot h.slot).rstate ≠ 0)
  (hfetch : s.fetches.contains (h.slot, part) = true)
include hgen hopen hfetch

theorem partFetched_absent (hp : s.partIn h.slot part = none) (ecc : Ecc) : s.partFetched h part ecc = s := by
  unfold State.partFetched
  simp only [hgen, hopen, hfetch, hp, ne_eq, not_true_eq_false, Bool.true_eq_false, false_or, if_false]

/-- Without an injection the part's end is decided by its error and its image. -/
theorem partFetched_ends {t : State} (hp : s.partIn h.slot part = some t) (h7 : s.armed 0x07 = none) (h5 : s.armed 0x05 = none) (ecc : Ecc) :
    s.partFetched h part ecc =
      if ecc = .uncorrectable then ({ s with fetches := s.fetches.erase (h.slot, part) } : State).fetchFails h part false
      else if s.imageGood h part then (if ecc = .corrected then t.corrected 0x02 else t)
      else ({ s with fetches := s.fetches.erase (h.slot, part) } : State).losePart h.slot h part false := by
  unfold State.partFetched
  simp only [hgen, hopen, hfetch, hp, h7, h5, ne_eq, not_true_eq_false, Bool.true_eq_false, false_or, if_false, Option.isSome_none, Bool.or_self,
    Bool.false_eq_true]
  cases ecc <;> rfl

end

/-! ## Preludes -/

theorem exec_preludeDone_working {s : State} (hw : s.working = true) (num : Nat) (ecc : List (Nat × Ecc)) :
    exec (.preludeDone num ecc) s = .next (s.preludeDone num ecc).after := next_congr (workStep_working hw _)

theorem preludeDone_unknown {s : State} {num : Nat} (h : s.punnet num = none) (ecc : List (Nat × Ecc)) : s.preludeDone num ecc = s := by
  unfold State.preludeDone
  rw [h]

theorem preludeDone_waits {s : State} {num : Nat} {p : Punnet} (hp : s.punnet num = some p)
    (h : p.started = true ∨ p.rows = [] ∨ s.turn num = false ∨ s.dataHere p = false) (ecc : List (Nat × Ecc)) : s.preludeDone num ecc = s := by
  unfold State.preludeDone
  rw [hp]
  exact if_pos (h.imp_right (Or.imp_left List.isEmpty_iff.2))

/-! ## Weights -/

theorem exec_weightSegmentLoaded_working {s : State} (hw : s.working = true) (num i : Nat) (t : TileRef) (seg : Nat) (ecc : Ecc) :
    exec (.weightSegmentLoaded num i t seg ecc) s = .next (s.segment num i t seg ecc).after := next_congr (workStep_working hw _)

/-- The rows of a pass whose segment is bad get doubt, and its tile is not used. -/
def tileLost (s : State) (num i : Nat) (t : TileRef) (p : Punnet) : State :=
  ((s.activeRows p i).map (fun r => r.1)).foldl (fun (s : State) r => s.doubtAt num (some r.slot) 0x10)
    ((s.updPun num (fun p => { p with badTiles := (i, t) :: p.badTiles })).contained 0x10 { Site.none with punnet := num })

section
variable {s : State} {num i seg : Nat} {t : TileRef} {p : Punnet} (hp : s.punnet num = some p)
include hp

theorem segment_refused (h : s.nextSeg ≠ some { punnet := num, pass := i, tile := t, seg := seg }
    ∨ s.bufferFits { punnet := num, pass := i, tile := t, seg := seg } = false) (ecc : Ecc) : s.segment num i t seg ecc = s := by
  unfold State.segment
  rw [hp]
  exact if_pos h

/-- The next segment, with no injection armed. -/
theorem segment_next (hn : s.nextSeg = some { punnet := num, pass := i, tile := t, seg := seg })
    (hf : s.bufferFits { punnet := num, pass := i, tile := t, seg := seg } = true) (h2 : s.armed 0x02 = none) (h3 : s.armed 0x03 = none) (ecc : Ecc) :
    s.segment num i t seg ecc =
      if ecc = .uncorrectable ∨ (s.piecesOf { punnet := num, pass := i, tile := t, seg := seg }).any (fun y => y.bad s.mem) = true then tileLost s num i t p
      else if ecc = .corrected then
        ({ s with loader := { s.loader with fill := s.loader.fill ++ [{ punnet := num, pass := i, tile := t, seg := seg }] } } : State).corrected 0x02
      else { s with loader := { s.loader with fill := s.loader.fill ++ [{ punnet := num, pass := i, tile := t, seg := seg }] } } := by
  unfold State.segment
  rw [hp]
  simp only [hn, hf, h2, h3, ne_eq, not_true_eq_false, Bool.true_eq_false, false_or, if_false, Option.isSome_none, Bool.false_eq_true]
  rfl

end

theorem any_bad_iff {α : Type} {f : α → Bool} {l : List α} : l.any (fun y => f y) = true ↔ ∃ y ∈ l, f y = true := by simp

/-! ## The array -/

theorem exec_tileProjected_working {s : State} (hw : s.working = true) (num i : Nat) (t : TileRef) (ecc : List (Nat × Ecc)) :
    exec (.tileProjected num i { tile := t, ecc := ecc }) s = .next (s.project num i t ecc).after := next_congr (workStep_working hw _)

theorem project_waits {s : State} {num i : Nat} {t : TileRef} {p : Punnet} (hp : s.punnet num = some p)
    (h : s.nextTile ≠ some (num, i, t) ∨ 2 ≤ s.drainCount ∨ s.tileHere p i t = false) (ecc : List (Nat × Ecc)) : s.project num i t ecc = s := by
  unfold State.project
  rw [hp]
  exact if_pos h

/-- A tile's logits that drain to selection. -/
def tileDrained (u : State) (q : Punnet) (ps : Pass) (num i : Nat) (t : TileRef) : State :=
  (u.takeTile num i t).updPun num (fun w => { w with drains := w.drains ++ [{
    pass := i, tile := t, logits := (u.activeRows q i).map (fun r => (r.1.slot, u.tileLogits ps i t r.1 r.2)) }] })

theorem project_drains {s u : State} {num i : Nat} {t : TileRef} {p q : Punnet} {ps : Pass} {ecc : List (Nat × Ecc)} (hp : s.punnet num = some p)
    (hnext : s.nextTile = some (num, i, t)) (hdrain : s.drainCount < 2) (hhere : s.tileHere p i t = true) (hu : s.bankErrors num i ecc = u)
    (hq : u.punnet num = some q) (hps : q.passes[i]? = some ps) (ht : ∃ k, t = .main k ∨ t = .outl k) :
    s.project num i t ecc = tileDrained u q ps num i t := by
  have hgo : ¬ (s.nextTile ≠ some (num, i, t) ∨ 2 ≤ s.drainCount ∨ s.tileHere p i t = false) := by
    rw [hnext, hhere]
    simp only [ne_eq, not_true_eq_false, Bool.true_eq_false, or_false, false_or]
    omega
  unfold State.project
  rw [hp]
  dsimp only
  rw [if_neg hgo, hu, hq]
  dsimp only
  rw [hps]
  obtain ⟨k, rfl | rfl⟩ := ht <;> rfl

theorem bankErrors_nil {s : State} {num i : Nat} {p : Punnet} (hp : s.punnet num = some p) : s.bankErrors num i [] =
    (s.activeRows p i).foldl (fun (s : State) r =>
      if ((Tab.get r.1.vecs i (pvecOf [])).a.scales).contains 255 = true then s.rowFault num r.1 0x11 false else s) s := by
  unfold State.bankErrors
  rw [hp]
  simp only [List.find?_nil, Option.map_none, Option.getD_none, reduceCtorEq, false_or, if_false]

/-! ## Selection -/

theorem exec_selectionTileClosed_working {s : State} (hw : s.working = true) (num i : Nat) (t : TileRef) :
    exec (.selectionTileClosed num i t) s = .next (s.closeTile num i t).after := next_congr (workStep_working hw _)

theorem closeTile_empty {s : State} {num : Nat} {p : Punnet} (hp : s.punnet num = some p) (hd : p.drains = []) (i : Nat) (t : TileRef) :
    s.closeTile num i t = s := by
  unfold State.closeTile
  rw [hp]
  dsimp only
  rw [hd]
  rfl

theorem closeTile_front {s : State} {num i : Nat} {p : Punnet} {d : Drain} {ds : List Drain} {ps : Pass} (hp : s.punnet num = some p)
    (hd : p.drains = d :: ds) (hps : p.passes[i]? = some ps) (t : TileRef) : s.closeTile num i t =
      if d.pass ≠ i ∨ d.tile ≠ t then s
      else (State.summaries num (p.passes.length + 1) (((s.activeRows p i).foldl (fun (s : State) r =>
        s.closeRow p i ps d r.1 r.2) s).updPun num (fun p => { p with drains := p.drains.drop 1 }))).endProjection num := by
  unfold State.closeTile
  rw [hp]
  dsimp only
  rw [hd, hps]
  rfl

theorem auxDone_unknown {s : State} {num : Nat} (h : s.punnet num = none) (slot : Nat) (reward : Bool) : s.auxDone num slot reward = s := by
  unfold State.auxDone
  rw [h]

/-- Settles O48: every command is the operation that it names, followed by what the block does of itself; the operations by their cases. -/
theorem dataPathCommands : Obligations.DataPathCommands := by
  intro s hw
  refine ⟨fun h part ecc => ⟨fun hno => partFetched_unknown hno ecc, next_congr (workStep_working hw _), fun hgen hopen hfetch h7 h5 =>
      ⟨fun hp => partFetched_absent hgen hopen hfetch hp ecc, fun t hp => ⟨fun hgood => ?fetched, fun hbad hecc => ?lost, ?uncorrectable⟩⟩⟩,
    fun num ecc hp => ?preludeUnknown, fun num ecc p hp => ⟨fun h => ?preludeWaits, exec_preludeDone_working hw num ecc⟩,
    fun num i t seg p hp => ⟨fun ecc h => ?segRefused, fun hn hf h2 h3 => ⟨fun hgood => ?segGood, fun hbad ecc => ?segBad, ?segLost⟩⟩,
    fun num i t ecc p hp => ⟨fun h => ?tileWaits, fun u q ps hnext hdrain hhere hu hq hps ht => ?tileDrains, bankErrors_nil hp⟩,
    fun num i t p hp => ⟨fun hd => ?noDrain, fun d ds ps hd hps => ⟨fun h => ?otherTile, fun hi ht => ?closes⟩⟩,
    fun p i ps d r rd => ⟨fun h => if_pos h, fun h => if_neg (by rw [h]; exact Bool.false_ne_true)⟩,
    fun num slot reward hp => ?auxUnknown, fun num slot reward => next_congr (workStep_working hw _)⟩
  case fetched =>
    rw [partFetched_ends hgen hopen hfetch hp h7 h5, partFetched_ends hgen hopen hfetch hp h7 h5, hgood]
    exact ⟨rfl, rfl⟩
  case lost => rw [partFetched_ends hgen hopen hfetch hp h7 h5, if_neg hecc, hbad]; rfl
  case uncorrectable => rw [partFetched_ends hgen hopen hfetch hp h7 h5]; rfl
  case preludeUnknown => rw [exec_preludeDone_working hw, preludeDone_unknown hp]
  case preludeWaits => rw [exec_preludeDone_working hw, preludeDone_waits hp h]
  case segRefused => rw [exec_weightSegmentLoaded_working hw, segment_refused hp h]
  case segGood =>
    have hok : (s.piecesOf { punnet := num, pass := i, tile := t, seg := seg }).any (fun y => y.bad s.mem) = false :=
      List.any_eq_false.2 fun y hy => by rw [hgood y hy]; exact Bool.false_ne_true
    constructor
    · rw [exec_weightSegmentLoaded_working hw, segment_next hp hn hf h2 h3, hok]; rfl
    · rw [exec_weightSegmentLoaded_working hw, segment_next hp hn hf h2 h3, hok]; rfl
  case segBad => rw [exec_weightSegmentLoaded_working hw, segment_next hp hn hf h2 h3, if_pos (.inr (any_bad_iff.2 hbad))]; rfl
  case segLost => rw [exec_weightSegmentLoaded_working hw, segment_next hp hn hf h2 h3, if_pos (.inl rfl)]; rfl
  case tileWaits => rw [exec_tileProjected_working hw, project_waits hp h]
  case tileDrains => rw [exec_tileProjected_working hw, project_drains hp hnext hdrain hhere hu hq hps ht]; rfl
  case noDrain => rw [exec_selectionTileClosed_working hw, closeTile_empty hp hd]
  case otherTile => rw [exec_selectionTileClosed_working hw, closeTile_front hp hd hps, if_pos h]
  case closes => rw [exec_selectionTileClosed_working hw, closeTile_front hp hd hps, if_neg (by simp [hi, ht])]
  case auxUnknown => exact next_congr ((workStep_working hw _).trans (congrArg State.after (auxDone_unknown hp slot reward)))

end Sys2Proof.Proofs

/-! PROOFS. Partials that merge on their way to the root (R148, R311, R312, R315): O49. -/

namespace Sys2Proof.Proofs

open Sys2Proof.Machine Sys2Proof.Laws

/-! ## Rows after a doubt -/

theorem find?_map_same {α : Type} {p : α → Bool} {f : α → α} (h : ∀ a, p (f a) = p a) (l : List α) : (l.map f).find? p = (l.find? p).map f := by
  rw [List.find?_map]
  exact congrArg (fun q => (l.find? q).map f) (funext h)

/-- A row slot that a doubt reaches, or another. -/
def rowDoubted (x : Option Nat) (c : Nat) (r : PRow) : PRow :=
  if x.all (fun k => decide (k = r.slot)) then { r with cause := Cause.join r.cause c } else r

/-- A punnet that a doubt reaches, or another. -/
def punDoubted (n : Nat) (x : Option Nat) (c : Nat) (p : Punnet) : Punnet :=
  if p.num = n then { p with rows := p.rows.map (rowDoubted x c) } else p

theorem doubtAt_puns (s : State) (n : Nat) (x : Option Nat) (c : Nat) : (s.doubtAt n x c).puns = s.puns.map (punDoubted n x c) := rfl

theorem rowDoubted_slot (x : Option Nat) (c : Nat) (r : PRow) : (rowDoubted x c r).slot = r.slot := by unfold rowDoubted; split <;> rfl

theorem punDoubted_num (n : Nat) (x : Option Nat) (c : Nat) (p : Punnet) : (punDoubted n x c p).num = p.num := by unfold punDoubted; split <;> rfl

/-- A doubt takes no row away. -/
theorem doubtAt_prow {s : State} {num slot : Nat} {r : PRow} (h : s.prow num slot = some r) (n : Nat) (x : Option Nat) (c : Nat) :
    ∃ q, (s.doubtAt n x c).prow num slot = some q := by
  obtain ⟨p, hp, hr⟩ := Option.bind_eq_some_iff.1 h
  have hpun : (s.doubtAt n x c).punnet num = some (punDoubted n x c p) := by
    rw [State.punnet, doubtAt_puns, find?_map_same (fun p => by rw [punDoubted_num])]
    exact congrArg (Option.map _) hp
  rw [State.prow, hpun, Option.bind_some, punDoubted]
  split
  · exact ⟨rowDoubted x c r, (find?_map_same (fun r => by rw [rowDoubted_slot]) p.rows).trans (congrArg (Option.map _) hr)⟩
  · exact ⟨r, hr⟩

/-! ## Merges -/

/-- The entry of a merge. -/
def isMerge (num pass slot k : Nat) (e : MergeEnt) : Bool := decide (e.punnet = num ∧ e.pass = pass ∧ e.rslot = slot ∧ e.mclass = k)

/-- Those heard of a merge, with one more. -/
def mergeHeard (s : State) (num pass slot k sh : Nat) : List Nat := sh :: ((s.merges.find? (isMerge num pass slot k)).map (fun e => e.heard)).getD []

/-- A merge that still waits for a child or for the node itself holds what it has heard. -/
theorem mergeIn_waits {s : State} {num pass slot k sh : Nat} {r : PRow} (hr : s.prow num slot = some r)
    (hwait : (s.orch.shard :: s.orch.kidShards).all (fun x => (mergeHeard s num pass slot k sh).contains x) = false) (x : PartSum) :
    ∃ rest sum, s.mergeIn num pass slot k sh x = { s with merges := rest ++ [{
      punnet := num, pass := pass, rslot := slot, mclass := k, heard := mergeHeard s num pass slot k sh, sum := sum }] } := by
  have hgo : ¬ ((s.orch.shard :: s.orch.kidShards).all (fun x => (mergeHeard s num pass slot k sh).contains x) = true) := by
    rw [hwait]; exact Bool.false_ne_true
  unfold State.mergeIn
  rw [hr]
  exact ⟨_, _, if_neg hgo⟩

theorem mergeIn_waits_keeps {s : State} {num pass slot k sh : Nat} {r : PRow} (hr : s.prow num slot = some r)
    (hwait : (s.orch.shard :: s.orch.kidShards).all (fun x => (mergeHeard s num pass slot k sh).contains x) = false) (x : PartSum) :
    (s.mergeIn num pass slot k sh x).orch = s.orch ∧ (s.mergeIn num pass slot k sh x).roots = s.roots
      ∧ (s.mergeIn num pass slot k sh x).heardFrom num pass slot k sh = true := by
  obtain ⟨rest, sum, h⟩ := mergeIn_waits hr hwait x
  rw [h]
  refine ⟨rfl, rfl, List.any_eq_true.2 ⟨_, List.mem_append_right _ List.mem_cons_self, ?_⟩⟩
  simp [mergeHeard]

/-! ## Partials received -/

theorem onPart_elsewhere {s : State} {m : Msg} (h : s.forMe m.hdr = false) (mc : State → Nat) (x : PartSum) : s.onPart m mc x = s.passOn m.hdr m.body := if_pos h

/-- The message comes from a child that has not sent its class for the row's pass. -/
def fromKid (s : State) (h : Hdr) (k : Nat) : Prop := s.orch.kidShards.contains h.src = true ∧ s.heardFrom h.punnet h.pass h.rslot k h.src = false

/-- The state in which a part's doubt is on its row. -/
def partDoubt (s : State) (h : Hdr) (k : Nat) : State := if h.doubt = true ∧ k ≠ 3 then s.doubtAt h.punnet (some h.rslot) 0x22 else s

theorem partDoubt_prow {s : State} {h : Hdr} {r : PRow} (hr : s.prow h.punnet h.rslot = some r) (k : Nat) :
    ∃ q, (partDoubt s h k).prow h.punnet h.rslot = some q := by
  unfold partDoubt
  split
  · exact doubtAt_prow hr _ _ _
  · exact ⟨r, hr⟩

section
variable {s : State} {h : Hdr} {b : Body} {p : Punnet} {r : PRow} (hl : Lands s { hdr := h, body := b } p r) (hme : s.forMe h = true)
  (mc : State → Nat) (x : PartSum)
include hl hme

theorem onPart_other (hk : ¬ fromKid s h (mc s)) : s.onPart { hdr := h, body := b } mc x =
    (s.contained 0x18 { Site.none with punnet := h.punnet, handle := some h.handle, rslot := h.rslot }).doubtAt h.punnet (some h.rslot) 0x18 := by
  have hother : s.orch.kidShards.contains h.src = false ∨ s.heardFrom h.punnet h.pass h.rslot (mc s) h.src = true := by
    by_cases hc : s.orch.kidShards.contains h.src = true
    · exact .inr (eq_true_of_ne_false fun hf => hk ⟨hc, hf⟩)
    · exact .inl (eq_false_of_ne_true hc)
  rw [onPart_lands hl hme]
  exact if_pos hother

theorem onPart_kid (hk : fromKid s h (mc s)) :
    s.onPart { hdr := h, body := b } mc x = (partDoubt s h (mc s)).mergeIn h.punnet h.pass h.rslot (mc s) h.src x := by
  have hgo : ¬ (s.orch.kidShards.contains h.src = false ∨ s.heardFrom h.punnet h.pass h.rslot (mc s) h.src = true) := by
    rw [hk.1, hk.2]
    simp only [Bool.true_eq_false, Bool.false_eq_true, or_self, not_false_eq_true]
  rw [onPart_lands hl hme]
  refine (if_neg hgo).trans (congrArg (fun t : State => t.mergeIn h.punnet h.pass h.rslot (mc s) h.src x) ?_)
  unfold partDoubt
  simp only [Bool.and_eq_true, decide_eq_true_iff]

end

/-- What a part that lands does: that of another sender, or a second one, is an error; any other joins the merge of its row. -/
theorem part_joins {s : State} {h : Hdr} {b : Body} {p : Punnet} {r : PRow} (hl : Lands s { hdr := h, body := b } p r) (hme : s.forMe h = true)
    (c : Instr) (mc : State → Nat) (x : PartSum)
    (hc : exec c s = .next (s.taking { hdr := h, body := b } (s.onPart { hdr := h, body := b } mc x)).after) :
    (¬ fromKid s h (mc s) → exec c s = .next (s.taking { hdr := h, body := b }
      ((s.contained 0x18 { Site.none with punnet := h.punnet, handle := some h.handle, rslot := h.rslot }).doubtAt h.punnet (some h.rslot) 0x18)).after)
    ∧ (fromKid s h (mc s) → exec c s = .next (s.taking { hdr := h, body := b }
        ((partDoubt s h (mc s)).mergeIn h.punnet h.pass h.rslot (mc s) h.src x)).after)
    ∧ (((partDoubt s h (mc s)).orch.shard :: (partDoubt s h (mc s)).orch.kidShards).all
          (fun k => (mergeHeard (partDoubt s h (mc s)) h.punnet h.pass h.rslot (mc s) h.src).contains k) = false →
        let u := (partDoubt s h (mc s)).mergeIn h.punnet h.pass h.rslot (mc s) h.src x
        u.orch = (partDoubt s h (mc s)).orch ∧ u.roots = (partDoubt s h (mc s)).roots ∧ u.heardFrom h.punnet h.pass h.rslot (mc s) h.src = true) := by
  refine ⟨fun hk => ?_, fun hk => ?_, fun hwait => ?_⟩
  · rw [hc, onPart_other hl hme mc x hk]
  · rw [hc, onPart_kid hl hme mc x hk]
  · obtain ⟨q, hq⟩ := partDoubt_prow (prow_lands hl) (mc s)
    exact mergeIn_waits_keeps hq hwait x

/-- The sums of partials are sums of integers, so their order does not matter. -/
theorem statMerge_order (a b c : StatB) :
    (statMerge a b).sq = (statMerge b a).sq ∧ (statMerge a b).eq = (statMerge b a).eq ∧ (statMerge a b).mq = (statMerge b a).mq
    ∧ (statMerge a b).meq = (statMerge b a).meq ∧ (statMerge a b).cnt = (statMerge b a).cnt ∧ (statMerge a b).doubt = (statMerge b a).doubt
    ∧ (statMerge a b).late = (statMerge b a).late
    ∧ (statMerge (statMerge a b) c).sq = (statMerge a (statMerge b c)).sq ∧ (statMerge (statMerge a b) c).mq = (statMerge a (statMerge b c)).mq
    ∧ (statMerge (statMerge a b) c).eq = (statMerge a (statMerge b c)).eq ∧ (statMerge (statMerge a b) c).meq = (statMerge a (statMerge b c)).meq
    ∧ (statMerge (statMerge a b) c).cnt = (statMerge a (statMerge b c)).cnt :=
  ⟨BitVec.add_comm _ _, BitVec.add_comm _ _, BitVec.add_comm _ _, BitVec.add_comm _ _, Nat.add_comm _ _, Bool.or_comm _ _, Nat.max_comm _ _,
    BitVec.add_assoc _ _ _, BitVec.add_assoc _ _ _, BitVec.add_assoc _ _ _, BitVec.add_assoc _ _ _, Nat.add_assoc _ _ _⟩

section
variable {s : State} (hw : s.working = true) (h : Hdr)
include hw

theorem exec_stat_working (b : StatB) : exec (.stat h b) s = .next (s.taking { hdr := h, body := .stat b } (s.onStat h b)).after :=
  next_congr (rowStep_working hw h _ _)

theorem exec_cand_working (b : List CandRec) : exec (.cand h b) s = .next (s.taking { hdr := h, body := .cand b } (s.onCand h b)).after :=
  next_congr (rowStep_working hw h _ _)

theorem exec_win_working (b : WinB) : exec (.win h b) s = .next (s.taking { hdr := h, body := .win b } (s.onWin h b)).after :=
  next_congr (rowStep_working hw h _ _)

theorem exec_topm_working (b : List (Nat × F32)) : exec (.topm h b) s = .next (s.taking { hdr := h, body := .topm b } (s.onTopm h b)).after :=
  next_congr (rowStep_working hw h _ _)

theorem exec_tgt_working (b : Option CandRec) : exec (.tgt h b) s = .next (s.taking { hdr := h, body := .tgt b } (s.onTgt h b)).after :=
  next_congr (rowStep_working hw h _ _)

end

/-- Settles O49: the five classes are one operation, `onPart`, with the class and the part as its parameters. -/
theorem partialsMergeInAnyOrder : Obligations.PartialsMergeInAnyOrder := by
  refine ⟨statMerge_order, fun s h hw hme => ⟨fun b => ?_, fun b => ?_, fun b => ?_, fun b => ?_, fun b => ?_⟩,
    fun s h p r hme => ⟨fun b hl => ?_, fun b hl => ?_, fun b hl => ?_, fun b hl => ?_, fun b hl => ?_⟩⟩
  · rw [exec_stat_working hw, State.onStat, onPart_elsewhere hme]
  · rw [exec_cand_working hw, State.onCand, onPart_elsewhere hme]
  · rw [exec_win_working hw, State.onWin, onPart_elsewhere hme]
  · rw [exec_topm_working hw, State.onTopm, onPart_elsewhere hme]
  · rw [exec_tgt_working hw, State.onTgt, onPart_elsewhere hme]
  · exact part_joins hl hme (.stat h b) (fun _ => 3) _ (exec_stat_working hl.working h b)
  · exact part_joins hl hme (.cand h b) (fun s => s.candClass h) _ (exec_cand_working hl.working h b)
  · exact part_joins hl hme (.win h b) (fun _ => 5) _ (exec_win_working hl.working h b)
  · exact part_joins hl hme (.topm h b) (fun _ => 6) _ (exec_topm_working hl.working h b)
  · exact part_joins hl hme (.tgt h b) (fun _ => 7) _ (exec_tgt_working hl.working h b)

end Sys2Proof.Proofs

/-! PROOFS. Thresholds, rescore requests and replies, and the cutoff (R77, R120, R122 to R125, R150): O50. -/

namespace Sys2Proof.Proofs

open Sys2Proof.Machine Sys2Proof.Laws

/-! ## Messages of a row that are passed on as well -/

/-- A message passed on changes the Orchard ports alone. -/
theorem passOn_shape (s : State) (h : Hdr) (b : Body) : ∃ o, s.passOn h b = { s with orch := o } := by
  unfold State.passOn
  dsimp only
  split
  · exact ⟨s.orch, rfl⟩
  · split
    · exact ⟨_, rfl⟩
    · split
      · exact ⟨s.orch, rfl⟩
      · exact ⟨_, rfl⟩

/-- A message that lands does so where it has been passed on. -/
theorem passOn_lands {s : State} {m : Msg} {p : Punnet} {r : PRow} (hl : Lands s m p r) (h : Hdr) (b : Body) : Lands (s.passOn h b) m p r := by
  obtain ⟨o, ho⟩ := passOn_shape s h b
  rw [ho]
  exact ⟨hl.working, hl.sound, hl.punnet, hl.row, hl.pass⟩

theorem forMe_true {s : State} {h : Hdr} (hme : s.forMe h = true) : ¬ (s.forMe h = false) := by rw [hme]; exact Bool.noConfusion

section
variable {s : State} (hw : s.working = true) (h : Hdr)
include hw

theorem exec_thresh_working (b : ThreshB) : exec (.thresh h b) s = .next (s.taking { hdr := h, body := .thresh b } (s.onThresh h b)).after :=
  next_congr (rowStep_working hw h _ _)

theorem exec_rsq_working (b : RsqB) : exec (.rsq h b) s = .next (s.taking { hdr := h, body := .rsq b } (s.onRsq h b)).after :=
  next_congr (rowStep_working hw h _ _)

theorem exec_rsp_working (b : RspB) : exec (.rsp h b) s = .next (s.taking { hdr := h, body := .rsp b } (s.onRsp h b)).after :=
  next_congr (rowStep_working hw h _ _)

end

theorem onRsp_lands {s : State} {h : Hdr} {b : RspB} {p : Punnet} {r : PRow} (hl : Lands s { hdr := h, body := .rsp b } p r) (hme : s.forMe h = true) :
    s.onRsp h b = if s.isRoot then s.takeRsp h b else s := by
  unfold State.onRsp
  rw [if_neg (forMe_true hme), rowMsg_lands hl]

/-! ## Replies at the root -/

/-- A reply as its loop takes it: one with doubt stands as a NaN. -/
def replyTaken (h : Hdr) (b : RspB) : RspB := if h.doubt then { b with zs := f32Nan } else b

theorem replyTaken_id (h : Hdr) (b : RspB) : (replyTaken h b).id = b.id := by unfold replyTaken; split <;> rfl

theorem takeRsp_unknown {s : State} {h : Hdr} (hr : s.root h.punnet h.rslot = none) (b : RspB) : s.takeRsp h b = s := by
  unfold State.takeRsp
  rw [hr]

theorem takeRsp_late {s : State} {h : Hdr} {q : RootRow} (hr : s.root h.punnet h.rslot = some q) (hlate : s.late q = true) (b : RspB) :
    s.takeRsp h b = s := by
  unfold State.takeRsp
  rw [hr]
  exact if_pos hlate

section
variable {s : State} {h : Hdr} {b : RspB} {q : RootRow} {l : Loop} (hr : s.root h.punnet h.rslot = some q) (hst : q.stage = .loop l)
  (hearly : s.late q = false)
include hr hst hearly

theorem takeRsp_unasked (hno : l.batch.contains b.id = false ∨ l.replies.any (fun x => decide (x.id = b.id)) = true) : s.takeRsp h b = s := by
  unfold State.takeRsp
  rw [hr]
  dsimp only
  rw [if_neg (by rw [hearly]; exact Bool.false_ne_true), hst]
  refine if_pos ?_
  rw [show (if h.doubt then ({ b with zs := f32Nan } : RspB) else b) = replyTaken h b from rfl, replyTaken_id]
  exact hno

variable (hask : l.batch.contains b.id = true) (hnew : l.replies.any (fun x => decide (x.id = b.id)) = false)
include hask hnew

/-- A reply that its loop asked for, whose noise is the row's or that carries doubt. -/
theorem takeRsp_asked (hgood : h.doubt = true ∨ s.noiseBad q b = false) : s.takeRsp h b =
    if l.replies.length + 1 < l.batch.length then s.updRoot h.punnet h.rslot (fun r => { r with
      stage := .loop { l with replies := l.replies ++ [replyTaken h b] } })
    else if (l.replies ++ [replyTaken h b]).any (fun x => isNan x.zs) then s.doubtExit q 0x12
    else (s.updRoot h.punnet h.rslot (fun r => { r with stage := .loop { l with
      best := (l.replies ++ [replyTaken h b]).foldl (fun a x => betterReply a (s.rootT q x) x) l.best, done := l.done + l.batch.length,
      i := l.i + l.batch.length, batch := [], replies := [] } })).loopGo h.punnet h.rslot := by
  have hwanted : ¬ (l.batch.contains (replyTaken h b).id = false ∨ l.replies.any (fun x => decide (x.id = (replyTaken h b).id)) = true) := by
    rw [replyTaken_id, hask, hnew]
    simp only [Bool.true_eq_false, Bool.false_eq_true, or_self, not_false_eq_true]
  have hnoise : ¬ (isNan (replyTaken h b).zs = false ∧ s.noiseBad q (replyTaken h b) = true) := by
    unfold replyTaken
    by_cases hd : h.doubt = true
    · rw [if_pos hd]
      exact fun hx => Bool.noConfusion (hx.1 : true = false)
    · rw [if_neg hd, hgood.resolve_left hd]
      exact fun hx => Bool.false_ne_true hx.2
  unfold State.takeRsp
  rw [hr]
  dsimp only
  rw [if_neg (by rw [hearly]; exact Bool.false_ne_true), hst]
  dsimp only
  rw [show (if h.doubt then ({ b with zs := f32Nan } : RspB) else b) = replyTaken h b from rfl, if_neg hwanted, if_neg hnoise, List.length_append]
  rfl

end

/-! ## The cutoff -/

theorem exec_certCutoff_working {s : State} (hw : s.working = true) (num slot : Nat) :
    exec (.certCutoff num slot) s = .next (s.certCutoff num slot).after := next_congr (workStep_working hw _)

theorem certCutoff_unknown {s : State} {num slot : Nat} (hr : s.root num slot = none) : s.certCutoff num slot = s := by
  unfold State.certCutoff
  rw [hr]

theorem certCutoff_early {s : State} {num slot : Nat} {q : RootRow} (hr : s.root num slot = some q) (hl : s.late q = false) :
    s.certCutoff num slot = s := by
  unfold State.certCutoff
  rw [hr]
  exact if_pos hl

theorem certCutoff_loop {s : State} {num slot : Nat} {q : RootRow} {l : Loop} (hr : s.root num slot = some q) (hl : s.late q = true)
    (hst : q.stage = .loop l) : s.certCutoff num slot = s.policyExit q offTimex l.best := by
  unfold State.certCutoff
  rw [hr]
  dsimp only
  rw [if_neg (by rw [hl]; exact Bool.noConfusion), hst]

/-! ## Re-scores -/

/-- A request that a lane works on. -/
def askedFor (num slot pass id : Nat) (q : Rescore) : Bool :=
  q.lane && decide (q.hdr.punnet = num ∧ q.hdr.rslot = slot ∧ q.hdr.pass = pass ∧ q.body.id = id)

theorem rescored_unasked {s : State} {num slot pass id : Nat} (h : s.rescore.find? (askedFor num slot pass id) = none) (ecc : Ecc) :
    s.rescored num slot pass id ecc = s := by
  unfold State.rescored
  rw [show s.rescore.find? (fun q => q.lane && decide (q.hdr.punnet = num ∧ q.hdr.rslot = slot ∧ q.hdr.pass = pass ∧ q.body.id = id)) = none from h]

/-- The score of a re-scored entry. -/
def rescoreX (s : State) (p : Punnet) (r : PRow) (c : Row) (pass id : Nat) (z : F32) : F32 :=
  (if isRefPass p.passes pass c.rd then some (softcap r.prof.softcap z) else (s.lane r false id z 0).map (fun o => o.rec_.x)).getD f32NegInf

/-- Its noise, if it has any. -/
def rescoreNoise (s : State) (q : Rescore) (r : PRow) (c : Row) (id : Nat) : Option F32 :=
  if q.body.tgt then none
  else noiseOf r.prof (s.ctx r.key.handle.slot).seed c.rd.pos
    (if r.key.cls = clVerify ∧ r.key.gidx < c.rd.draftn then purResidual else drawPurpose r.key.cls) id

theorem rescored_clean {s : State} {num slot pass id : Nat} {q : Rescore} {p : Punnet} {r : PRow} {c : Row} {y : RsRow}
    (hq : s.rescore.find? (askedFor num slot pass id) = some q) (hp : s.punnet num = some p) (hr : s.prow num slot = some r)
    (hc : s.copyOf num r.key = some c) (hy : s.rsRow q = some y) (h7 : s.armed 0x07 = none) (hC : s.armed 0x0C = none)
    (hgood : (s.shadowOf p pass id y c.rd).2 = false) :
    s.rescored num slot pass id .clean =
      (({ s with rescore := s.rescore.erase q } : State).bump offRescore).sendRsp q.hdr
        (!isFin (rescoreX s p r c pass id (s.shadowOf p pass id y c.rd).1))
        { id := id, zs := (s.shadowOf p pass id y c.rd).1,
          t := withNoise (rescoreNoise s q r c id) (rescoreX s p r c pass id (s.shadowOf p pass id y c.rd).1),
          xpre := rescoreX s p r c pass id (s.shadowOf p pass id y c.rd).1, g := (rescoreNoise s q r c id).getD 0 } := by
  have hq' : s.rescore.find? (fun q => q.lane && decide (q.hdr.punnet = num ∧ q.hdr.rslot = slot ∧ q.hdr.pass = pass ∧ q.body.id = id)) = some q := hq
  unfold State.rescored
  rw [hq', hp, hr]
  dsimp only
  rw [hc, hy]
  dsimp only
  rw [h7, hC, hgood]
  rfl

/-- Settles O50: replies, cutoffs and re-scores by the cases of the operation that each command is. -/
theorem certificationCommands : Obligations.CertificationCommands := by
  refine ⟨fun s h b p r hl => ?thresh, fun s h hw hme => ⟨fun b => ?rsqPassed, fun b => ?rspPassed⟩, fun s h b p r hl hme => ?rsq,
    fun s h b p r hl hme => ⟨fun hroot => ?rspElsewhere, fun hroot => ⟨?rspRoot, fun hr => takeRsp_unknown hr b, fun q hr =>
      ⟨fun hlate => takeRsp_late hr hlate b, fun l hst hearly => ⟨fun hno => takeRsp_unasked hr hst hearly hno,
        fun hask hnew hd => ⟨fun hmore => ?doubtWaits, fun hlast => ?doubtEnds⟩, fun hask hnew hd hgood hmore => ?replyHeld⟩⟩⟩⟩,
    fun s hw => ⟨fun num slot => ⟨fun hr => ?cutUnknown, fun q hr => ⟨fun hearly => ?cutEarly, fun l hlate hst => ⟨?cutLoop, fun hpol => if_pos hpol⟩⟩⟩,
      fun num slot pass id ecc => ⟨fun hnone => ?unasked, fun q p r c y hq hp hr hc hy h7 hC hgood => ?clean, next_congr (workStep_working hw _)⟩⟩⟩
  case thresh => rw [exec_thresh_working hl.working, State.onThresh, rowMsg_lands (passOn_lands hl _ _)]
  case rsqPassed => rw [exec_rsq_working hw, State.onRsq, if_pos hme]
  case rspPassed => rw [exec_rsp_working hw, State.onRsp, if_pos hme]
  case rsq => rw [exec_rsq_working hl.working, State.onRsq, if_neg (forMe_true hme), rowMsg_lands hl]; rfl
  case rspElsewhere => rw [exec_rsp_working hl.working, onRsp_lands hl hme, if_neg (by rw [hroot]; exact Bool.false_ne_true)]
  case rspRoot => rw [exec_rsp_working hl.working, onRsp_lands hl hme, if_pos hroot]
  case doubtWaits => rw [takeRsp_asked hr hst hearly hask hnew (.inl hd), if_pos hmore, replyTaken, if_pos hd]
  case doubtEnds =>
    have hnan : (l.replies ++ [replyTaken h b]).any (fun x => isNan x.zs) = true := by
      refine List.any_eq_true.2 ⟨_, List.mem_append_right _ List.mem_cons_self, ?_⟩
      rw [replyTaken, if_pos hd]
      rfl
    rw [takeRsp_asked hr hst hearly hask hnew (.inl hd), if_neg (by omega), if_pos hnan]
  case replyHeld =>
    rw [takeRsp_asked hr hst hearly hask hnew (.inr hgood), if_pos hmore, replyTaken, if_neg (by rw [hd]; exact Bool.false_ne_true)]
  case cutUnknown => rw [exec_certCutoff_working hw, certCutoff_unknown hr]
  case cutEarly => rw [exec_certCutoff_working hw, certCutoff_early hr hearly]
  case cutLoop => rw [exec_certCutoff_working hw, certCutoff_loop hr hlate hst]
  case unasked => exact next_congr ((workStep_working hw _).trans (congrArg State.after (rescored_unasked hnone ecc)))
  case clean => exact next_congr ((workStep_working hw _).trans (congrArg State.after (rescored_clean hq hp hr hc hy h7 hC hgood)))

end Sys2Proof.Proofs

/-! PROOFS. COMMIT, LKUP, AUX and SIDE (R107, R138, R177, R182, R202, R314 to R316): O51. -/

namespace Sys2Proof.Proofs

open Sys2Proof.Machine Sys2Proof.Laws

section
variable {s : State} (hw : s.working = true) (h : Hdr)
include hw

theorem exec_commit_working (b : CommitB) : exec (.commit h b) s = .next (s.taking { hdr := h, body := .commit b } (s.onCommit h b)).after :=
  next_congr (rowStep_working hw h _ _)

theorem exec_lkup_working (b : LkupB) : exec (.lkup h b) s = .next (s.taking { hdr := h, body := .lkup b } (s.onLkup h b)).after :=
  next_congr (rowStep_working hw h _ _)

theorem exec_aux_working (b : AuxB) : exec (.aux h b) s = .next (s.taking { hdr := h, body := .aux b } (s.onAux h b)).after :=
  next_congr (rowStep_working hw h _ _)

theorem exec_side_working (b : SideB) : exec (.side h b) s = .next (s.taking { hdr := h, body := .side b } (s.onSide h b)).after :=
  next_congr (rowStep_working hw h _ _)

end

/-! ## COMMIT -/

section
variable {s : State} {h : Hdr} {b : CommitB} {p : Punnet} {r : PRow} (hl : Lands s { hdr := h, body := .commit b } p r)
include hl

/-- A commit whose row no purge has voided acts on its row slot. -/
theorem onCommit_lands (hgone : s.orch.purged.find? (fun e => decide (e.1 = h.punnet ∧ e.2.1 = h.rslot)) = none) : s.onCommit h b =
    if r.exited then ((s.passOn h (.commit b)).contained 0x18 (Site.row h.punnet r.key h.rslot)).doubtAt h.punnet (some h.rslot) 0x18
    else (s.passOn h (.commit b)).applyCommit h.punnet h.rslot r b := by
  have hv := passOn_lands hl h (.commit b)
  have hprow : (s.passOn h (.commit b)).prow h.punnet h.rslot = some r := prow_lands hv
  unfold State.onCommit
  dsimp only
  rw [hgone, ite_self]
  dsimp only
  rw [rowMsg_lands hv, hprow]

theorem onCommit_purged {e : Nat × Nat × RowKey} (hgone : s.orch.purged.find? (fun e => decide (e.1 = h.punnet ∧ e.2.1 = h.rslot)) = some e) :
    s.onCommit h b = (s.passOn h (.commit b)).purgedCommit e b := by
  have hsound : (h.parity || hdrBroken h) = false := by rw [show h.parity = false from hl.sound.1, show hdrBroken h = false from hl.sound.2]; rfl
  unfold State.onCommit
  dsimp only
  rw [hsound, if_neg Bool.false_ne_true, hgone]

end

/-! ## LKUP -/

/-- The held commits of a row slot. -/
def heldFor (h : Hdr) (c : HomeCommit) : Bool := decide (c.punnet = h.punnet ∧ c.rslot = h.rslot)

/-- The held commits of a row with its lookup in those that have none. -/
def lookHeld (s : State) (h : Hdr) (b : LkupB) : State :=
  { s with hcom := s.hcom.map (fun (c : HomeCommit) => if heldFor h c && c.look.isNone then { c with look := some b } else c) }

theorem onLkup_lands {s : State} {h : Hdr} {b : LkupB} {p : Punnet} {r : PRow} (hl : Lands s { hdr := h, body := .lkup b } p r)
    (hme : s.forMe h = true) : s.onLkup h b =
      if s.hcom.any (heldFor h) then (State.flushCommits (lookHeld s h b).hcom.length (lookHeld s h b)).pump
      else s.updRow h.punnet h.rslot (fun r => { r with look := some b }) := by
  have hp : s.punnet h.punnet = some p := hl.punnet
  unfold State.onLkup
  rw [if_neg (forMe_true hme)]
  dsimp only
  rw [if_neg (by rw [hp]; exact fun hx => Bool.false_ne_true hx.2.2.1), rowMsg_lands hl]
  rfl

/-! ## AUX -/

theorem onAux_lands {s : State} {h : Hdr} {b : AuxB} {p : Punnet} {r : PRow} (hl : Lands s { hdr := h, body := .aux b } p r) (hme : s.forMe h = true) :
    (b.finite = false → s.onAux h b = s)
    ∧ (b.finite = true → ∃ takes : EgRec → Bool, (∀ e, e.done ≠ 0 ∨ e.handle ≠ r.key.handle → takes e = false) ∧ s.onAux h b = { s with
        rows := s.rows.map (fun (x : Row) => if x.key = r.key ∧ x.punnet = some h.punnet ∧ x.decided = false then
          (if b.reward then { x with auxr := some b.out } else { x with auxv := some b.out }) else x),
        eg := { s.eg with queue := s.eg.queue.map (fun (e : EgRec) => if takes e then e.aux r.key.pos b else e) } }) := by
  have hr : s.prow h.punnet h.rslot = some r := prow_lands hl
  unfold State.onAux
  rw [if_neg (forMe_true hme), rowMsg_lands hl, hr]
  refine ⟨fun hf => if_pos hf, fun hf => ⟨_, ?_, if_neg (by rw [hf]; exact Bool.noConfusion)⟩⟩
  intro e he
  rcases he with he | he <;> simp [he]

/-! ## SIDE -/

/-- A row slot with a side list more, and what the list starts. -/
def sideAdded (s : State) (h : Hdr) (b : SideB) : State :=
  match b with
  | .grammar _ _ _ => (s.updRow h.punnet h.rslot (fun r => { r with sides := r.sides.add b })).startFetch h.handle.slot .bramble
  | .sketch _ => (s.updRow h.punnet h.rslot (fun r => { r with sides := r.sides.add b })).trim []
  | _ => s.updRow h.punnet h.rslot (fun r => { r with sides := r.sides.add b })

theorem onSide_lands {s : State} {h : Hdr} {b : SideB} {p : Punnet} {r : PRow} (hl : Lands s { hdr := h, body := .side b } p r) (hme : s.forMe h = true) :
    ((∀ q, (sideAdded s h b).root h.punnet h.rslot = some q → q.stage ≠ .group) → s.onSide h b = sideAdded s h b)
    ∧ (∀ q, (sideAdded s h b).root h.punnet h.rslot = some q → q.stage = .group → s.onSide h b = (sideAdded s h b).groupGo q) := by
  have hside : s.onSide h b = match (sideAdded s h b).root h.punnet h.rslot with
      | some q => if q.stage = .group then (sideAdded s h b).groupGo q else sideAdded s h b
      | none => sideAdded s h b := by
    unfold State.onSide
    rw [if_neg (forMe_true hme), rowMsg_lands hl]
    cases b <;> rfl
  rw [hside]
  refine ⟨fun hno => ?_, fun q hq hst => ?_⟩
  · split
    next q hq => exact if_neg (hno q hq)
    · rfl
  · rw [hq]
    exact if_pos hst

/-- Settles O51: each message where it lands is the operation of its row slot, elsewhere it is passed on. -/
theorem commitMessages : Obligations.CommitMessages := by
  refine ⟨fun s h b p r hl => ⟨fun hgone hex => ?second, fun hgone hex => ?first, fun e hgone => ?purged⟩,
    fun s h hw hme => ⟨fun b => ?lkupPassed, fun b => ?auxPassed, fun b => ?sidePassed⟩,
    fun s h b p r hl hme => ⟨fun hany => ?lkupHeld, fun hnone => ?lkupRow⟩, fun s h b p r hl hme => ⟨fun hf => ?auxDropped, fun hf => ?auxKept⟩,
    fun s h b p r hl hme => ⟨fun hno => ?side, fun q hq hst => ?sideGroup⟩⟩
  case second => rw [exec_commit_working hl.working, onCommit_lands hl hgone, if_pos hex]
  case first => rw [exec_commit_working hl.working, onCommit_lands hl hgone, if_neg (by rw [hex]; exact Bool.false_ne_true)]
  case purged => rw [exec_commit_working hl.working, onCommit_purged hl hgone]
  case lkupPassed => rw [exec_lkup_working hw, State.onLkup, if_pos hme]
  case auxPassed => rw [exec_aux_working hw, State.onAux, if_pos hme]
  case sidePassed => rw [exec_side_working hw, State.onSide, if_pos hme]
  case lkupHeld => rw [exec_lkup_working hl.working, onLkup_lands hl hme, if_pos (show s.hcom.any (heldFor h) = true from hany)]; rfl
  case lkupRow =>
    have hno : s.hcom.any (heldFor h) = false := hnone
    rw [exec_lkup_working hl.working, onLkup_lands hl hme, if_neg (by rw [hno]; exact Bool.false_ne_true)]
  case auxDropped => rw [exec_aux_working hl.working, (onAux_lands hl hme).1 hf]
  case auxKept =>
    obtain ⟨takes, htakes, haux⟩ := (onAux_lands hl hme).2 hf
    refine ⟨_, exec_aux_working hl.working h b, ?_, ?_, fun i e he hkeep => ?_⟩
    · rw [haux]
    · rw [haux]
      exact List.length_map _
    · rw [haux]
      show (s.eg.queue.map (fun (e : EgRec) => if takes e then e.aux r.key.pos b else e))[i]? = some e
      rw [List.getElem?_map, he, Option.map_some, htakes e hkeep]
      rfl
  case side => exact (exec_side_working hl.working h b).trans (next_congr (congrArg State.after (congrArg _ ((onSide_lands hl hme).1 hno))))
  case sideGroup => exact (exec_side_working hl.working h b).trans (next_congr (congrArg State.after (congrArg _ ((onSide_lands hl hme).2 q hq hst))))

end Sys2Proof.Proofs

/-! PROOFS. Messages on CTL and their timers (R309, R315, R318, R323 to R325, R359, R433): O52. -/

namespace Sys2Proof.Proofs

open Sys2Proof.Machine Sys2Proof.Laws

/-! ## Headers and the states before READY -/

/-- A message on CTL whose header is broken, or that a parity error touches, is contained. -/
theorem ctlSound_broken {s : State} {h : Hdr} (hbad : h.parity = true ∨ hdrBroken h = true) (act : State → State) :
    ctlSound h act s = s.contained (if h.parity then 0x19 else 0x18) Site.none := by
  unfold ctlSound
  by_cases hp : h.parity = true
  · rw [if_pos hp, if_pos hp]
  · rw [if_neg hp, if_neg hp, if_pos (hbad.resolve_left hp)]

theorem ctlStep_broken {s : State} {h : Hdr} (hl : s.live = true) (hbad : h.parity = true ∨ hdrBroken h = true) (b : Body) (act : State → State) :
    ctlStep h b act s = s.contained (if h.parity then 0x19 else 0x18) Site.none :=
  (if_neg (by rw [hl]; exact Bool.noConfusion)).trans (ctlSound_broken hbad _)

theorem starting_of {s : State} (h : s.blk = .boot ∨ s.blk = .selftest) : s.starting = true := decide_eq_true h

theorem not_starting {s : State} (hb : s.blk ≠ .boot) (ht : s.blk ≠ .selftest) : s.starting = false := decide_eq_false (not_or.2 ⟨hb, ht⟩)

theorem ctlStep_starting {s : State} {h : Hdr} (hl : s.live = true) (hp : h.parity = false) (hh : hdrBroken h = false) (hs : s.starting = true) (b : Body)
    (act : State → State) : ctlStep h b act s = s.passOn h b := by
  unfold ctlStep
  rw [if_neg (by rw [hl]; exact Bool.noConfusion), ctlSound_ok hp hh]
  exact if_pos hs

theorem exec_probe_live {s : State} (hl : s.live = true) (h : Hdr) (b : ProbeB) : exec (.probe h b) s = .next (ctlSound h (fun s =>
    if s.starting then s.passOn h (.probe b) else (s.arrive { hdr := h, body := .probe b }).onProbe h b) s) := next_pos hl

theorem exec_purge_live {s : State} (hl : s.live = true) (h : Hdr) (n : Nat) (d : Bool) : exec (.purge h n d) s = .next (ctlSound h (fun s =>
    if s.starting then s.passOn h (.purge n d) else (s.onPurge h n d).arrive { hdr := h, body := .purge n d }) s) := next_pos hl

/-! ## Sound messages from READY on -/

section
variable {s : State} {h : Hdr} (hl : s.live = true) (hp : h.parity = false) (hh : hdrBroken h = false) (hs : s.starting = false)
include hl hp hh hs

theorem exec_rel_sound (n tag : Nat) : exec (.rel h n tag) s = .next (s.taking { hdr := h, body := .rel n tag } (s.onRel h n tag)).after :=
  next_congr (ctlStep_ok hl hp hh hs _ _)

theorem exec_cmd_sound (b : CmdB) : exec (.cmd h b) s = .next (s.taking { hdr := h, body := .cmd b } (s.onCmd h b)).after :=
  next_congr (ctlStep_ok hl hp hh hs _ _)

theorem exec_event_sound (b : EventB) : exec (.event h b) s = .next (s.taking { hdr := h, body := .event b } (s.onEvent h b)).after :=
  next_congr (ctlStep_ok hl hp hh hs _ _)

theorem exec_probe_sound (b : ProbeB) : exec (.probe h b) s = .next ((s.arrive { hdr := h, body := .probe b }).onProbe h b) := by
  rw [exec_probe_live hl, ctlSound_ok hp hh, hs]
  rfl

theorem exec_purge_sound (n : Nat) (d : Bool) : exec (.purge h n d) s = .next ((s.onPurge h n d).arrive { hdr := h, body := .purge n d }) := by
  rw [exec_purge_live hl, ctlSound_ok hp hh, hs]
  rfl

end

section
variable {s : State} {h : Hdr} (hb : h.bcast = false) (hd : h.dst = s.orch.shard)
include hb hd

/-- A command for this instance alone. -/
theorem onCmd_own (b : CmdB) : s.onCmd h b = match b with
    | .fwd port ring fid pk => s.onForward h port ring fid pk
    | .cpl _ _ fid c => s.onCompletion h fid c
    | .ready r => if s.blk = .safe then s else if h.bcast then s.memberReady r else if s.isRoot then s.rootReady h.src r else s
    | .ack n subject => if s.blk = .safe then s else s.onAck h n subject
    | .counts k l lost => if s.blk = .safe then s else s.takeCounts k l lost
    | .settle k kind cause => if s.blk = .safe then s else s.settleHere k kind cause := by
  unfold State.onCmd
  rw [if_neg (forMe_true (forMe_own hd)), if_neg (by rw [hb]; exact Bool.false_ne_true)] <;> cases b <;> rfl

/-- An event for this instance alone, outside SAFE. -/
theorem onEvent_own (hsafe : s.blk ≠ .safe) (b : EventB) : s.onEvent h b = match b with
    | .safe cause tick => s.onSafe h cause tick
    | .digest d => s.onDigest d
    | .epoch _ _ _ => s
    | .retention => s.onRetention h.src
    | .timeReq sent => s.sendTo h.src (.event (.timeReply sent s.time.tclk s.time.tclk))
    | .timeReply sent receipt reply => s.timeReplied sent receipt reply
    | .pool t1 t2 free hwm => { s with pool := { s.pool with t1 := t1.toNat, t2 := t2.toNat, free := free.toNat, hwm := hwm.toNat } } := by
  unfold State.onEvent
  simp only [if_neg (forMe_true (forMe_own hd)), hb, Bool.false_and, Bool.false_eq_true, if_false, if_neg hsafe] <;> cases b <;> rfl

theorem onPurge_unseen (n : Nat) (hseen : s.punnetSeen n = false) (dbg : Bool) : s.onPurge h n dbg = s := by
  unfold State.onPurge
  rw [if_neg (by rw [hb]; exact Bool.false_ne_true), if_neg (forMe_true (forMe_own hd)), if_neg (by rw [hseen]; exact fun hx => Bool.false_ne_true hx.2)]

end

/-! ### Probes -/

section
variable {s : State} {h : Hdr} {b : ProbeB} (hd : h.dst = s.orch.shard)
include hd

theorem onProbe_confirms (hc : b.conf = true) : s.onProbe h b = s.sendTo h.src (.probe (s.probeBody (!s.orch.blocked) false s.orch.blocked)) := by
  unfold State.onProbe
  rw [if_neg (forMe_true (forMe_own hd)), if_pos hc]

theorem onProbe_member (hc : b.conf = false) (hroot : s.isRoot = false) : s.onProbe h b = s := by
  unfold State.onProbe
  rw [if_neg (forMe_true (forMe_own hd)), if_neg (by rw [hc]; exact Bool.false_ne_true), if_pos hroot]

theorem onProbe_progress (hc : b.conf = false) (hroot : s.isRoot = true) (hprog : b.prog = true) : s.onProbe h b = { s with orch := { s.orch with
    blockedBy := s.orch.blockedBy.filter (fun x => decide (x.1 ≠ h.src)), confirm := [], purges := 0, purgeDue := false } } := by
  unfold State.onProbe
  rw [if_neg (forMe_true (forMe_own hd)), if_neg (by rw [hc]; exact Bool.false_ne_true), if_neg (by rw [hroot]; exact Bool.noConfusion), if_pos hprog]

/-- The last confirmation that a deadlock stands. -/
theorem onProbe_stands (hc : b.conf = false) (hroot : s.isRoot = true) (hprog : b.prog = false) (hstill : b.still = true)
    (hlast : s.orch.confirm = [h.src]) (hhang : s.orch.hang = false) :
    s.onProbe h b = ({ s with orch := { s.orch with confirm := [] } } : State).deadlock := by
  have hcontains : s.orch.confirm.contains h.src = true := by rw [hlast]; simp
  have herase : s.orch.confirm.erase h.src = [] := by rw [hlast]; simp
  unfold State.onProbe
  rw [if_neg (forMe_true (forMe_own hd)), if_neg (by rw [hc]; exact Bool.false_ne_true), if_neg (by rw [hroot]; exact Bool.noConfusion),
    if_neg (by rw [hprog]; exact Bool.false_ne_true), if_pos hstill, if_pos hcontains]
  dsimp only
  rw [herase]
  exact if_pos ⟨rfl, hhang⟩

end

theorem arrive_puns (s : State) (m : Msg) : (s.arrive m).puns = s.puns ∧ (s.arrive m).roots = s.roots := ⟨rfl, rfl⟩

/-- A purge that comes down the tree is passed on and takes effect here. -/
theorem onPurge_bcast {s : State} {h : Hdr} (hb : h.bcast = true) (n : Nat) (dbg : Bool) :
    s.onPurge h n dbg = (s.passOn h (.purge n dbg)).purge n := if_pos hb

/-! ## The detector's timers -/

theorem dlwin_idle {s : State} (h : s.orch.held = [] ∨ s.orch.blocked = true ∨ s.now < s.orch.moved + s.orch.cfg.dlwin) : s.dlwin = s := by
  refine if_neg fun ⟨hheld, hblocked, hnow⟩ => ?_
  rcases h with h | h | h
  · rw [h] at hheld
    exact Bool.noConfusion hheld
  · exact Bool.noConfusion (h.symm.trans hblocked)
  · omega

theorem purgeRetry_idle {s : State} (h : s.isRoot = false ∨ (s.orch.purges = 0 ∧ s.orch.purgeDue = false) ∨ s.orch.hang = true) : s.purgeRetry = s := by
  unfold State.purgeRetry
  by_cases hno : s.isRoot = false ∨ s.orch.hang = true
  · exact if_pos hno
  · obtain ⟨hzero, hdue⟩ : s.orch.purges = 0 ∧ s.orch.purgeDue = false := by
      rcases h with h | h | h
      · exact absurd (.inl h) hno
      · exact h
      · exact absurd (.inr h) hno
    rw [if_neg hno, if_neg (by rw [hdue]; exact Bool.false_ne_true), if_pos hzero]

theorem purgeRetry_root {s : State} (hroot : s.isRoot = true) (hhang : s.orch.hang = false) : s.purgeRetry =
    if s.orch.purgeDue then s.purgeGo
    else if s.orch.purges = 0 then s
    else if 4 ≤ s.orch.purges then ({ s with orch := { s.orch with hang := true, purges := 0, purgeDue := false } } : State).setCause cHang
    else s.purgeNext := by
  refine if_neg ?_
  rw [hroot, hhang]
  simp only [Bool.true_eq_false, Bool.false_eq_true, or_self, not_false_eq_true]

/-- A purge waits until every port is up. -/
theorem purgeNext_waits {s : State} (h : s.orch.allUp = false) : s.purgeNext = { s with orch := { s.orch with purgeDue := true } } := by
  have hup : ({ s.orch with purgeDue := true } : Orch).allUp = false := h
  unfold State.purgeNext State.purgeGo
  dsimp only
  rw [hup]
  rfl

theorem purgeNext_sends {s : State} {p : Nat} (h : s.orch.allUp = true) (hn : s.nextPurge = some p) : s.purgeNext = ({ s with orch := { s.orch with
    purgeDue := false, purges := s.orch.purges + 1, blockedBy := s.orch.blockedBy.filter (fun b => decide (b.2 ≠ p)) } } : State).sendPurge p false := by
  have hup : ({ s.orch with purgeDue := true } : Orch).allUp = true := h
  have hnext : ({ s with orch := { s.orch with purgeDue := true } } : State).nextPurge = some p := hn
  unfold State.purgeNext State.purgeGo
  dsimp only
  rw [hup, hnext]
  rfl

/-- Settles O52: the header, the block state and the destination decide a message; a timer is decided by what the detector holds. -/
theorem controlMessages : Obligations.ControlMessages := by
  refine ⟨fun s h hl hbad => ?broken, fun s h hl hp hh hb => ?starting, fun s h hl hp hh hb ht => ?serving, fun s hl => ?timers,
    fun s hw => ⟨fun hroot => ?poolMember, fun hroot => ?poolRoot⟩⟩
  case broken =>
    refine ⟨fun n tag => next_congr (ctlStep_broken hl hbad _ _), fun b => next_congr (ctlStep_broken hl hbad _ _),
      fun b => next_congr (ctlStep_broken hl hbad _ _), fun b => ?_, fun n d => ?_⟩
    · rw [exec_probe_live hl, ctlSound_broken hbad]
    · rw [exec_purge_live hl, ctlSound_broken hbad]
  case starting =>
    have hs := starting_of hb
    refine ⟨fun n tag => next_congr (ctlStep_starting hl hp hh hs _ _), fun b => next_congr (ctlStep_starting hl hp hh hs _ _),
      fun b => next_congr (ctlStep_starting hl hp hh hs _ _), fun b => ?_, fun n d => ?_⟩
    · rw [exec_probe_live hl, ctlSound_ok hp hh, hs]; rfl
    · rw [exec_purge_live hl, ctlSound_ok hp hh, hs]; rfl
  case serving =>
    have hs := not_starting hb ht
    refine ⟨fun n tag => exec_rel_sound hl hp hh hs n tag, fun hme => ⟨fun b => ?_, fun b => ?_, fun b => ?_⟩, fun hbc hd => ⟨fun p r fid c => ?_,
      fun p r fid pk => ?_, fun hsafe => ⟨fun n hroot => ?_, fun k l lost => ?_, fun k kind cause => ?_, fun sent => ?_, fun a b c d => ?_⟩,
      fun b => ⟨fun hc => ?_, fun hc hroot => ?_, fun hc hroot hprog => ?_, fun hc hroot hprog hstill hlast hhang => ?_⟩, fun n d _ hseen => ?_⟩,
      fun n d hbc => ?_⟩
    · rw [exec_cmd_sound hl hp hh hs, State.onCmd, if_pos hme]
    · rw [exec_event_sound hl hp hh hs, State.onEvent, if_pos hme]
    · have hme' : (s.arrive { hdr := h, body := .probe b }).forMe h = false := hme
      rw [exec_probe_sound hl hp hh hs, State.onProbe, if_pos hme']
    · rw [exec_cmd_sound hl hp hh hs, onCmd_own hbc hd]
    · rw [exec_cmd_sound hl hp hh hs, onCmd_own hbc hd]
    · rw [exec_cmd_sound hl hp hh hs, onCmd_own hbc hd]
      dsimp only
      rw [if_neg hsafe, State.onAck, if_pos hroot]
    · rw [exec_cmd_sound hl hp hh hs, onCmd_own hbc hd]
      dsimp only
      rw [if_neg hsafe]
    · rw [exec_cmd_sound hl hp hh hs, onCmd_own hbc hd]
      dsimp only
      rw [if_neg hsafe]
    · rw [exec_event_sound hl hp hh hs, onEvent_own hbc hd hsafe]
    · rw [exec_event_sound hl hp hh hs, onEvent_own hbc hd hsafe]
    · exact (exec_probe_sound hl hp hh hs b).trans (next_congr (onProbe_confirms (s := s.arrive { hdr := h, body := .probe b }) hd hc))
    · exact (exec_probe_sound hl hp hh hs b).trans (next_congr (onProbe_member (s := s.arrive { hdr := h, body := .probe b }) hd hc hroot))
    · exact (exec_probe_sound hl hp hh hs b).trans (next_congr (onProbe_progress (s := s.arrive { hdr := h, body := .probe b }) hd hc hroot hprog))
    · exact (exec_probe_sound hl hp hh hs b).trans
        (next_congr (onProbe_stands (s := s.arrive { hdr := h, body := .probe b }) hd hc hroot hprog hstill hlast hhang))
    · rw [exec_purge_sound hl hp hh hs, onPurge_unseen hbc hd n hseen]
    · obtain ⟨-, hpuns, hroots, -⟩ := purge_clears (s.passOn h (.purge n d)) n
      refine ⟨_, exec_purge_sound hl hp hh hs n d, ?_⟩
      rw [onPurge_bcast hbc, (arrive_puns _ _).1, (arrive_puns _ _).2]
      exact ⟨hpuns, hroots⟩
  case timers =>
    refine ⟨fun fid => next_pos hl, fun h => (next_pos hl).trans (next_congr (dlwin_idle h)), fun hheld hblocked hnow => (next_pos hl).trans (next_pos ?_),
      fun h => (next_pos hl).trans (next_congr (purgeRetry_idle h)), fun hroot hhang => ⟨fun hdue => ?_, fun hdue h1 h4 => ?_, fun hdue h4 => ?_⟩,
      purgeNext_waits, fun p hup hn => purgeNext_sends hup hn⟩
    · exact ⟨List.isEmpty_eq_false_iff.2 hheld, hblocked, hnow⟩
    · refine (next_pos hl).trans (next_congr ?_)
      rw [purgeRetry_root hroot hhang, if_pos hdue]
    · refine (next_pos hl).trans (next_congr ?_)
      rw [purgeRetry_root hroot hhang, if_neg (by rw [hdue]; exact Bool.false_ne_true), if_neg (by omega), if_neg (by omega)]
    · refine (next_pos hl).trans (next_congr ?_)
      rw [purgeRetry_root hroot hhang, if_neg (by rw [hdue]; exact Bool.false_ne_true), if_neg (by omega), if_pos h4]
  case poolMember =>
    exact next_congr ((workStep_working hw _).trans (congrArg State.after (if_neg (by rw [hroot]; exact Bool.false_ne_true))))
  case poolRoot => exact next_congr ((workStep_working hw _).trans (congrArg State.after (if_pos hroot)))

end Sys2Proof.Proofs

/-! PROOFS. Cold and warm resets, quarantine and the reset of a port: O41. -/

namespace Sys2Proof.Proofs

open Sys2Proof.Machine Sys2Proof.Laws

/-! ## A fatal fault of an instance that has nothing in hand -/

/-- What a fatal fault leaves where nothing is in hand, and what may be in hand. -/
structure Quiet where
  pending : List Instr
  conf    : Conf
  time    : Time
  tenants : Tab Tenant
  quar    : Bool
  pwr     : Power
  sems    : Tab Sem
  rep     : Repair
  ring    : RingRef → Ring
  rows    : List Row
  jobs    : List Job
  ctrs    : Tab Ctr
  hcom    : List HomeCommit
  eg      : Egress
  wind    : Windfall
  entered : Nat → List Origin

/-- The quiet part of a state. -/
def quiet (s : State) : Quiet :=
  { pending := s.pending, conf := s.conf, time := s.time, tenants := s.tenants, quar := s.quar, pwr := s.pwr, sems := s.sems, rep := s.rep,
    ring := s.ring, rows := s.rows, jobs := s.jobs, ctrs := s.ctrs, hcom := s.hcom, eg := s.eg, wind := s.wind,
    entered := fun n => (s.bar n).entered }

/-- Nothing is in hand: no row, job, counter, commit, record, load, capture or barrier entry. -/
structure Idle (q : Quiet) : Prop where
  rows    : q.rows = []
  jobs    : q.jobs = []
  ctrs    : q.ctrs = []
  hcom    : q.hcom = []
  queue   : q.eg.queue = []
  banks   : q.conf.banks = []
  running : q.wind.running = false
  region  : q.wind.region = none
  entered : ∀ n, q.entered n = []

theorem setCause_ring (s : State) (b : Nat) : (s.setCause b).ring = s.ring := by
  funext r
  unfold State.setCause State.setCause1
  rw [bump_ring, refresh_ring, setPort_ring_of_rings_eq _ _ _ (by rfl), refresh_ring, setPort_ring_of_rings_eq _ _ _ (by rfl)]

theorem setCause_quiet (s : State) (b : Nat) : quiet (s.setCause b) = quiet s := by
  have hring := setCause_ring s b
  obtain ⟨cpa, cpb, cnts, outs, h⟩ := setCause_signals s b
  rw [h] at hring ⊢
  unfold quiet
  rw [hring]
  rfl

theorem bump_quiet (s : State) (off : Nat) : quiet (s.bump off) = quiet s := rfl

theorem setFault_quiet (s : State) (f : Nat) : quiet (s.setFault f) = quiet s := rfl

theorem logFault_quiet (s : State) (c : Nat) (x : Site) : quiet (s.logFault c x) = quiet s := by
  unfold State.logFault
  dsimp only
  split
  · rfl
  · split
    · rfl
    · split <;> rfl

theorem safeNotice_quiet (s : State) (cause : Nat) : quiet (s.safeNotice cause) = quiet s := by
  unfold State.safeNotice
  dsimp only
  split <;> rfl

theorem endJobs_nil {s : State} (h : s.jobs = []) (p : Job → Bool) (c : Job → Cpl) : s.endJobs p c = s := by
  unfold State.endJobs
  rw [h]
  show ({ s with jobs := [] } : State) = s
  rw [← h]

theorem freeAllCtrs_nil {s : State} (h : s.ctrs = []) : s.freeAllCtrs = s := by
  unfold State.freeAllCtrs
  rw [h]
  rfl

theorem openRows_nil {s : State} (h : s.rows = []) : s.openRows = [] := by
  unfold State.openRows
  rw [h]
  rfl

theorem egRun_nil {s : State} (h : s.eg.queue = []) (n : Nat) : egRun n s = s := by
  have hstep : s.egStep = none := by unfold State.egStep; rw [h]
  cases n with
  | zero => rfl
  | succ n => rw [egRun, hstep]

theorem pump_nil {s : State} (h : s.eg.queue = []) : s.pump = s := by
  rw [State.pump, egRun_nil h]
  unfold State.missCheck
  rw [h]
  rfl

theorem windStart_none {s : State} (h : s.wind.region = none) (manual : Bool) (cause prior : Nat) : s.windStart manual cause prior = s := by
  unfold State.windStart
  rw [h]

/-- A barrier that nobody has entered is aborted without a completion. -/
theorem barAbort_quiet {s : State} (h : ∀ n, (s.bar n).entered = []) (n : Nat) : quiet (s.barAbort n) = quiet s := by
  have hset : s.barAbort n = s.setBar n Barrier.reset := by
    unfold State.barAbort
    rw [h n]
    rfl
  have hentered : (fun m => ((s.setBar n Barrier.reset).bar m).entered) = fun m => (s.bar m).entered := by
    funext m
    rw [h m]
    show (Tab.get (Tab.set s.bars n Barrier.reset) m Barrier.reset).entered = []
    by_cases hm : m = n
    · rw [hm, tab_get_set_self]; rfl
    · rw [tab_get_set_ne _ hm]; exact h m
  rw [hset]
  unfold quiet
  rw [hentered]
  rfl

theorem foldl_barAbort_quiet (l : List Nat) {s : State} (h : ∀ n, (s.bar n).entered = []) :
    quiet (l.foldl (fun (s : State) n => s.barAbort n) s) = quiet s := by
  induction l generalizing s with
  | nil => rfl
  | cons n l ih =>
    have hstep := barAbort_quiet h n
    rw [List.foldl_cons, ih (fun m => (congrFun (congrArg Quiet.entered hstep) m).trans (h m)), hstep]

/-- With nothing in hand the entry into SAFE changes nothing but the block state, the fault's status and the causes. -/
theorem enterSafe_quiet {s : State} (h : Idle (quiet s)) (cause : Nat) : quiet (s.enterSafe cause) = quiet s := by
  unfold State.enterSafe
  dsimp only
  generalize hs1 : ({ s with blk := .safe, faults := _, wind := _, conf := _ } : State) = s1
  have h1 : quiet s1 = quiet s := by
    have hbanks : s.conf.banks = [] := h.banks
    have hrun : s.wind.running = false := h.running
    have hconf : ({ s.conf with banks := unloaded s.conf.banks } : Conf) = s.conf := by
      rw [hbanks]
      show ({ s.conf with banks := [] } : Conf) = s.conf
      rw [← hbanks]
    rw [← hs1, hconf, hrun]
    rfl
  generalize hs2 : (s1.setCause cSafe).safeNotice cause = s2
  have h2 : quiet s2 = quiet s := by rw [← hs2, safeNotice_quiet, setCause_quiet, h1]
  rw [endJobs_nil ((congrArg Quiet.jobs h2).trans h.jobs), freeAllCtrs_nil ((congrArg Quiet.ctrs h2).trans h.ctrs)]
  generalize hs3 : s2.barAbortAll = s3
  have h3 : quiet s3 = quiet s := by
    rw [← hs3, ← h2]
    exact foldl_barAbort_quiet _ fun n => (congrFun (congrArg Quiet.entered h2) n).trans (h.entered n)
  rw [dropCommits_nil ((congrArg Quiet.hcom h3).trans h.hcom), openRows_nil ((congrArg Quiet.rows h3).trans h.rows), List.foldl_nil,
    pump_nil ((congrArg (fun q : Quiet => q.eg.queue) h3).trans h.queue),
    windStart_none ((congrArg (fun q : Quiet => q.wind.region) h3).trans h.region), h3]

theorem fatal_quiet {s : State} (h : Idle (quiet s)) (hb : s.blk ≠ .safe) (c : Nat) (x : Site) : quiet (s.fatal c x) = quiet s := by
  have hlog : quiet (((s.bump (offEvent c)).logFault c x).setFault 2) = quiet s := by rw [setFault_quiet, logFault_quiet, bump_quiet]
  rw [fatal_enters hb, enterSafe_quiet (hlog ▸ h), hlog]

theorem fatal_blk (s : State) (c : Nat) (x : Site) : (s.fatal c x).blk = .safe := by
  by_cases h : s.blk = .safe
  · exact (congrArg Core.blk (fatal_in_safe h c x)).trans h
  · rw [fatal_enters h]
    generalize ((s.bump (offEvent c)).logFault c x).setFault 2 = u
    obtain ⟨-, -, hblk, -⟩ := core_parts (enterSafe_core u c).1
    exact hblk

/-! ## Cold reset -/

/-- The contexts as a cold reset leaves them. -/
def coldContexts (s : State) : State := (if s.faults.holdOpen then s.holdHomed else s).ctxCold

/-- An instance after a cold reset, before its fuses are checked; `c` holds the contexts that stand. -/
def coldStart (s c : State) : State :=
  ({ State.reset with
      pending := s.pending, free := c.free, mem := c.mem, slots := c.slots, scx := c.scx, counts := c.counts,
      rep := { State.reset.rep with field := s.rep.field }, pool := { State.reset.pool with used := c.pool.used }, outs := s.outs,
      dbg := s.dbg.afterReset } : State).bumpN offChkFail (badEntries s.rep.field)

/-- An instance whose fuses fail their check. -/
def coldFailed (t : State) : State := { t with boot := { t.boot with step := 2, fail := true } }

theorem coldReset_eq (s : State) :
    s.coldReset = if fuseOk then coldStart s (coldContexts s) else (coldFailed (coldStart s (coldContexts s))).fatal 0x46 Site.none := rfl

theorem coldStart_idle (s c : State) : Idle (quiet (coldStart s c)) := ⟨rfl, rfl, rfl, rfl, rfl, rfl, rfl, rfl, fun _ => rfl⟩

theorem coldReset_quiet (s : State) : quiet s.coldReset = quiet (coldStart s (coldContexts s)) := by
  rw [coldReset_eq]
  generalize coldContexts s = c
  split
  · rfl
  · have hidle : Idle (quiet (coldFailed (coldStart s c))) := coldStart_idle s c
    rw [fatal_quiet hidle (by exact Blk.noConfusion)]
    rfl

theorem coldReset_blk (s : State) : s.coldReset.blk = if fuseOk then .boot else .safe := by
  rw [coldReset_eq]
  split
  · rfl
  · exact fatal_blk _ _ _

theorem coldStart_ring (s c : State) (r : RingRef) : (coldStart s c).ring r = Ring.reset := by
  obtain ⟨p, n⟩ := r
  cases p <;> rfl

theorem quiet_parts {s t : State} (h : quiet t = quiet s) : t.pending = s.pending ∧ t.conf = s.conf ∧ t.time = s.time ∧ t.tenants = s.tenants ∧
    t.quar = s.quar ∧ t.pwr = s.pwr ∧ t.sems = s.sems ∧ t.rep = s.rep ∧ t.ring = s.ring := by
  unfold quiet at h
  injection h with hpending hconf htime htenants hquar hpwr hsems hrep hring
  exact ⟨hpending, hconf, htime, htenants, hquar, hpwr, hsems, hrep, hring⟩

/-- The parts of a state that is as quiet as a cold start. -/
theorem coldStart_parts {s c t : State} (h : quiet t = quiet (coldStart s c)) : t.pending = s.pending ∧ t.conf = Conf.reset ∧ t.time.tclk = 0 ∧
    t.tenants = [] ∧ t.quar = false ∧ t.pwr.clkFail = false ∧ t.sems = [] ∧ (∀ r, t.ring r = Ring.reset) ∧ t.rep.field = s.rep.field := by
  obtain ⟨hpending, hconf, htime, htenants, hquar, hpwr, hsems, hrep, hring⟩ := quiet_parts h
  rw [hpending, hconf, htime, htenants, hquar, hpwr, hsems, hrep, hring]
  exact ⟨rfl, rfl, rfl, rfl, rfl, rfl, rfl, coldStart_ring s c, rfl⟩

/-! ## Warm reset -/

/-- What the write-back of a warm reset leaves: the instance's seat, its repairs and its tenants. -/
def seated (s : State) : Orch × Repair × Tab Tenant := (s.orch, s.rep, s.tenants)

theorem setCause_seated (s : State) (b : Nat) : seated (s.setCause b) = seated s := (setCause_signals s b).keeps seated fun _ _ _ _ => rfl

theorem holdHomed_seated (s : State) : seated s.holdHomed = seated s :=
  foldl_keeps (g := seated) (f := fun (s : State) (e : Nat × SlotEnt) => s.setSlot e.1 { e.2 with rstate := 2 }) (fun _ _ => rfl) _ _

theorem setLoc_seated (s : State) (n part : Nat) (w : W64) : seated (s.setLoc n part w) = seated s := by
  unfold State.setLoc
  split <;> rfl

theorem freePart_seated (s : State) (n part : Nat) : seated (s.freePart n part) = seated s := by
  unfold State.freePart
  split
  · rfl
  · exact setLoc_seated _ _ _ _

theorem writeTo_seated {s t : State} {n part tier : Nat} {packed : Bool} {bs : List Byte} (h : s.writeTo n part tier packed bs = some t) :
    seated t = seated s := by
  obtain ⟨p, -, rfl⟩ := Option.map_eq_some_iff.1 h
  exact setLoc_seated _ _ _ _

theorem moveTo_seated {s t : State} {n part tier : Nat} (h : s.moveTo n part tier = some t) : seated t = seated s := by
  unfold State.moveTo at h
  dsimp only at h
  split at h
  · rw [Option.some.inj h]
  · exact (writeTo_seated h).trans (freePart_seated _ _ _)

theorem roomT1_seated (pages f : Nat) (s : State) : seated (State.roomT1 pages f s) = seated s := by
  induction f generalizing s with
  | zero => rfl
  | succ f ih =>
    rw [State.roomT1]
    split
    · rfl
    · split
      · rfl
      · split
        · next hmove => rw [ih, moveTo_seated hmove]
        · rfl

theorem writeT1_seated (s : State) (n part : Nat) (packed : Bool) (bs : List Byte) : seated (s.writeT1 n part packed bs) = seated s := by
  unfold State.writeT1
  dsimp only
  split
  · next hwrite => rw [writeTo_seated hwrite, roomT1_seated, freePart_seated]
  · rw [setCause_seated, freePart_seated]

theorem writeRaw_seated (s : State) (n part : Nat) (bs : List Byte) : seated (s.writeRaw n part bs) = seated s := by
  unfold State.writeRaw
  split
  · rfl
  · split
    · rfl
    · exact writeT1_seated _ _ _ _ _

theorem writeBack_seated (s : State) (n part : Nat) : seated (s.writeBack n part) = seated s := by
  unfold State.writeBack
  split
  · exact writeRaw_seated _ _ _ _
  · dsimp only
    rw [writeT1_seated]
    split <;> rfl

theorem cleanItem_seated (s : State) (n part : Nat) (out : Bool) : seated (s.cleanItem n part out) = seated s := by
  unfold State.cleanItem
  split <;> rfl

theorem evictItem_seated (s : State) (n part : Nat) : seated (s.evictItem n part) = seated s := by
  unfold State.evictItem
  dsimp only
  split
  · exact cleanItem_seated _ _ _ _
  · split
    · exact writeBack_seated _ _ _
    · rw [cleanItem_seated, writeBack_seated]

theorem denseOut_seated (s : State) (n v : Nat) : seated (s.denseOut n v) = seated s := by
  unfold State.denseOut
  dsimp only
  split
  · rfl
  · split
    · rw [writeRaw_seated, freePart_seated]
    · rfl

theorem histRecord_seated (s : State) (n k t : Nat) (open_ : Bool) : seated (s.histRecord n k t open_) = seated s := by
  unfold State.histRecord
  dsimp only
  split
  · rfl
  · split
    · rfl
    · generalize (if (s.ctx n).histFull k = true then (s.ctx n).doubleHist else s.ctx n).histAdd k t = y
      split <;> rfl

theorem writeHist_seated (s : State) (n : Nat) : seated (s.writeHist n) = seated s := by
  unfold State.writeHist
  dsimp only
  split
  · rfl
  · exact (writeRaw_seated _ _ _ _).trans (writeRaw_seated _ _ _ _)

theorem histApply_seated (s : State) (n : Nat) : seated (s.histApply n) = seated s := by
  unfold State.histApply
  rw [writeHist_seated]
  exact foldl_keeps (g := seated) (f := fun (s : State) (e : Nat × Nat) => s.histRecord n e.1 e.2 false) (fun _ _ => histRecord_seated _ _ _ _ _) _ _

/-- A slot's items written back where they are in T0 or have changed. -/
theorem evictParts_seated (l : List Nat) (n : Nat) (s : State) :
    seated (l.foldl (fun (s : State) p => if s.inT0 n p || s.isDirty n p then s.evictItem n p else s) s) = seated s := by
  refine foldl_keeps (g := seated) (fun s p => ?_) l s
  split
  · exact evictItem_seated _ _ _
  · rfl

theorem cleanParts_seated (l : List Nat) (n : Nat) (s : State) :
    seated (l.foldl (fun (s : State) p => s.cleanItem n p true) s) = seated s :=
  foldl_keeps (g := seated) (fun _ _ => cleanItem_seated _ _ _ _) l s

theorem warmSlot_seated (s : State) (n : Nat) : seated (s.warmSlot n) = seated s := by
  unfold State.warmSlot
  dsimp only
  generalize hs1 : (if (s.ctx n).histPend.isEmpty = true then s else _ : State) = s1
  have h1 : seated s1 = seated s := by
    rw [← hs1]
    split
    · rfl
    · rw [histApply_seated]
      split <;> rfl
  generalize hs2 : (if (s1.count n).pend.isEmpty = true then s1 else _ : State) = s2
  have h2 : seated s2 = seated s := by
    rw [← hs2, ← h1]
    split
    · rfl
    · exact denseOut_seated _ _ _
  generalize hs3 : (s2.myParts n).foldl _ s2 = s3
  have h3 : seated s3 = seated s := by rw [← hs3, evictParts_seated, h2]
  generalize hs4 : (s3.myParts n).foldl _ s3 = s4
  have h4 : seated s4 = seated s := by rw [← hs4, cleanParts_seated, h3]
  rw [← h4]
  split <;> rfl

theorem ctxWarm_seated (s : State) : seated s.ctxWarm = seated s :=
  foldl_keeps (g := seated) (f := fun (s : State) n => s.warmSlot n) warmSlot_seated _ s

/-- The contexts as a warm reset leaves them. -/
def warmContexts (s : State) : State := (if s.faults.holdOpen then s.holdHomed else s).ctxWarm

theorem warmContexts_seated (s : State) : seated (warmContexts s) = seated s := by
  unfold warmContexts
  rw [ctxWarm_seated]
  split
  · exact holdHomed_seated s
  · rfl

/-- An instance after a warm reset, before it boots; `c` holds what was written back. -/
def warmStart (s c : State) : State :=
  ({ State.reset with
      pending := s.pending, free := c.free, mem := c.mem, fwBase := s.fwBase, time := s.time, conf := c.conf.warm,
      slots := c.slots, scx := c.scx, counts := c.counts, tenants := c.tenants, orch := c.orch.warm,
      rep := { c.rep with left := [], passEnd := true, dleft := [], found := 0, fixed := 0, starved := false },
      pool := { State.reset.pool with used := c.pool.used }, outs := c.outs, dbg := s.dbg.afterReset } : State).ownState 0

theorem warmReset_eq (s : State) : s.warmReset = (warmStart s (warmContexts s)).bootImage := rfl

/-- The check of the image decides the block state and the boot step, and nothing else. -/
theorem bootImage_cases (s : State) : ∃ boot, s.bootImage = { s with blk := if fwCheck s.mem s.fwBase = 0 then .selftest else s.blk, boot := boot } := by
  rw [bootImage_eq]
  split
  · exact ⟨_, rfl⟩
  · exact ⟨_, rfl⟩

theorem execWarmReset_acts {s : State} (hck : s.pwr.clkFail = false) (hcur : 2 ≤ s.pwr.cur) {src : WarmSrc} (h : warmActs src = true) :
    exec (.warmReset src) s = .next s.warmReset := next_neg (by simp [hck, h]; omega)

theorem warmActs_write (v : Word) : warmActs (.write v) = true ↔ (bitsAt v 16 16 = 0x4A47 ∧ bitAt v 2 = true ∧ bitAt v 3 = false) := by
  simp [warmActs, and_assoc]

/-! ## Quarantine -/

theorem enterHold_hcom (s : State) (slot : Nat) : (s.enterHold slot).hcom = s.hcom := by
  have hhold : (s.holdHere slot).hcom = s.hcom := by
    unfold State.holdHere
    dsimp only
    split <;> rfl
  unfold State.enterHold
  split
  · rfl
  · dsimp only
    split
    · exact hhold
    · exact hhold

theorem voidRow_hcom (s : State) (r : Row) (cause : Nat) : (s.voidRow r cause).hcom = s.hcom := by
  rw [State.voidRow, enterHold_hcom]
  exact congrArg Core.hcom (countVoid_core (s.fallback r kVoid) _)

theorem voidHomed_hcom (s : State) : s.voidHomed.hcom = [] := by
  have hdrop : (s.dropCommits (fun _ => true)).hcom = [] := by
    refine (congrArg Core.hcom (dropCommits_core s _)).trans ?_
    exact List.filter_false s.hcom
  refine (foldl_keeps (g := State.hcom) (f := fun (s : State) r => s.voidRow r 0x37) (fun _ _ => voidRow_hcom _ _ _) s.openRows
    (s.dropCommits (fun _ => true))).trans hdrop

theorem quarantine_holds (s : State) : s.quarantine.quar = true ∧ s.quarantine.sems = [] ∧ s.quarantine.ctrs = [] ∧ s.quarantine.bars = [] ∧
    s.quarantine.jobs = [] ∧ (∀ p, s.quarantine.port p = Port.reset) ∧ s.quarantine.hcom = [] ∧ s.quarantine.ing.grants = false ∧
    s.quarantine.wind.running = false := by
  have hcom : s.voidHomed.pump.hcom = [] := (congrArg Core.hcom (pump_sheds s.voidHomed).core).trans (voidHomed_hcom s)
  unfold State.quarantine
  generalize s.voidHomed.pump = t at hcom
  refine ⟨rfl, rfl, rfl, rfl, rfl, fun p => ?_, hcom, rfl, ?_⟩
  · cases p <;> rfl
  · show (if t.wind.running = true then { t.wind with running := false } else t.wind : Windfall).running = false
    split
    · rfl
    · next h => exact Bool.not_eq_true _ ▸ h

/-! ## The reset of a port -/

/-- A port's window reads as it does after reset, in what interrupts and in its rings. -/
def PortCleared (p : PortId) (s : State) : Prop :=
  (s.port p).intStatus = 0 ∧ (s.port p).intMask = 0xFFFF ∧ (s.port p).cqPend = 0 ∧ ∀ n, (s.port p).ring n = Ring.reset

theorem cleared_ring {p : PortId} {s : State} (h : PortCleared p s) {r : RingRef} (hr : r.port = p) : s.ring r = Ring.reset := by
  subst hr
  exact h.2.2.2 r.ring

theorem setRing_cleared {p : PortId} {s : State} (h : PortCleared p s) (r : RingRef) {q : Ring} (hq : r.port = p → q = Ring.reset) :
    PortCleared p (s.setRing r q) := by
  unfold State.setRing
  by_cases hr : p = r.port
  · subst hr
    obtain ⟨hstatus, hmask, hpend, hrings⟩ := h
    unfold PortCleared
    rw [setPort_port]
    refine ⟨hstatus, hmask, hpend, fun n => ?_⟩
    by_cases hn : n = r.ring
    · rw [hn, ← hq rfl]
      exact tab_get_set_self _ _ _ _
    · exact (tab_get_set_ne _ hn _ _).trans (hrings n)
  · unfold PortCleared
    rw [setPort_other s hr]
    exact h

theorem complete_cleared {p : PortId} {s : State} (h : PortCleared p s) (o : Origin) (final : Bool) (c : Cpl) : PortCleared p (s.complete o final c) := by
  unfold State.complete
  cases o with
  | ring r id =>
    refine setRing_cleared h r fun hr => ?_
    rw [cleared_ring h hr]
    rfl
  | fwd sh q ring fid => exact h
  | member => exact h

theorem finishSleeper_cleared {p : PortId} {s : State} (h : PortCleared p s) (o : Origin) (c : Cpl) : PortCleared p (s.finishSleeper o c) := by
  have hdone : PortCleared p (s.finish o c) := complete_cleared h o true c
  unfold State.finishSleeper
  cases o with
  | ring r id =>
    dsimp only
    split
    · refine setRing_cleared hdone r fun hr => ?_
      rw [cleared_ring hdone hr]
      rfl
    · exact hdone
  | fwd sh q ring fid => exact hdone
  | member => exact hdone

theorem foldl_cleared {α : Type} {p : PortId} {f : State → α → State} (hf : ∀ s a, PortCleared p s → PortCleared p (f s a)) (l : List α) {s : State}
    (h : PortCleared p s) : PortCleared p (l.foldl f s) := by
  induction l generalizing s with
  | nil => exact h
  | cons a l ih => exact ih (hf s a h)

theorem ctrFree_cleared {p : PortId} {s : State} (h : PortCleared p s) (n : Nat) : PortCleared p (s.ctrFree n) :=
  foldl_cleared (fun _ _ hs => finishSleeper_cleared hs _ _) _ (show PortCleared p (s.setCtr n _) from h)

theorem semAbandon_cleared {p : PortId} {s : State} (h : PortCleared p s) (n : Nat) : PortCleared p (s.semAbandon n) :=
  foldl_cleared (fun _ _ hs => finishSleeper_cleared hs _ _) _ (show PortCleared p (s.setSem n _) from h)

theorem resetPort_cleared (s : State) (p : PortId) : PortCleared p (s.resetPort p) := by
  have hset : PortCleared p (s.setPort p Port.reset) := by
    unfold PortCleared
    rw [setPort_port]
    exact ⟨rfl, rfl, rfl, fun _ => rfl⟩
  unfold State.resetPort
  refine foldl_cleared (fun _ n hs => semAbandon_cleared hs n) _ (foldl_cleared (fun _ n hs => ctrFree_cleared hs n) _ ?_)
  exact hset

/-- Settles O41: a cold reset's fuse check finds nothing in hand, a warm reset's write-back leaves seat, repairs and tenants, and completions of the
waits that a port reset ends find its rings empty. -/
theorem resetCommands : Obligations.ResetCommands := by
  refine ⟨fun s => ?cold, fun s hck hcur src hsrc => ?warm, warmActs_write, fun s v hl => ⟨fun hkey hq => ?quar, fun h => ?noQuar⟩,
    fun s v hl => ⟨fun hkey hw hq => ?port, fun h => ?noPort⟩, resetPort_cleared⟩
  case cold =>
    obtain ⟨hpending, hconf, hclock, htenants, hquar, hck, hsems, hring, hfield⟩ := coldStart_parts (coldReset_quiet s)
    exact ⟨s.coldReset, rfl, hpending, hconf, hclock, htenants, hquar, hck, hsems, hring, hfield, coldReset_blk s⟩
  case warm =>
    have hseat := warmContexts_seated s
    obtain ⟨boot, hboot⟩ := bootImage_cases (warmStart s (warmContexts s))
    refine ⟨_, execWarmReset_acts hck hcur hsrc, ?_⟩
    rw [warmReset_eq, hboot]
    generalize warmContexts s = c at hseat
    have hten : c.tenants = s.tenants := congrArg (fun x => x.2.2) hseat
    have hshard : c.orch.shard = s.orch.shard := congrArg (fun x => x.1.shard) hseat
    have hroot : c.orch.rootSh = s.orch.rootSh := congrArg (fun x => x.1.rootSh) hseat
    have hn : c.orch.n = s.orch.n := congrArg (fun x => x.1.n) hseat
    have hfield : c.rep.field = s.rep.field := congrArg (fun x => x.2.1.field) hseat
    have hoverlay : c.rep.overlay = s.rep.overlay := congrArg (fun x => x.2.1.overlay) hseat
    have hmade : c.rep.made = s.rep.made := congrArg (fun x => x.2.1.made) hseat
    refine ⟨rfl, rfl, hten, hshard, hroot, hn, hfield, hoverlay, hmade, rfl, rfl, fun p => ?_, rfl⟩
    cases p <;> rfl
  case quar => exact ⟨_, next_pos (by simp [hl, hkey, hq]), quarantine_holds s⟩
  case noQuar => exact next_neg (by rcases h with h | h <;> simp [h])
  case port =>
    have hrun : exec (.portReset v) s = .next (let s1 := if bitAt v 0 then s.resetPort .cpa else s
        if bitAt v 1 then s1.resetPort .cpb else s1) := next_pos (by simp [hl, hkey, hw, hq])
    refine ⟨fun ha hb => ?_, fun ha hb => ?_, fun ha hb => ?_, fun ha hb => ?_⟩ <;> rw [hrun, ha, hb] <;> rfl
  case noPort => exact next_neg (by rcases h with h | h | h <;> simp [h])

end Sys2Proof.Proofs
